-- ==== Sys2Proof/Syntax.lean ====
section
/-! DEFINITION. The instructions of the device as syntax: one constructor for each row of the opcode table.
Rows with an encoding carry the fields of their word (R29 to R46).
Rows without one are events of the device, its engines, the host and the firmware: they carry what the environment chooses. -/
namespace Sys2Proof

/-- A 7-bit field that names a V register (R30). -/
abbrev VReg := BitVec 7
/-- An 8-bit field that names an S register (R30). -/
abbrev SReg := BitVec 8
/-- A 7-bit field that names an S register in a V or M format word (R30). -/
abbrev SReg7 := BitVec 7
/-- A field that names a P register; 12 to 15 are illegal (R30). -/
abbrev PReg := BitVec 4
/-- A field that names a T register. -/
abbrev TReg := BitVec 4
/-- A field that names an A register. -/
abbrev AReg := BitVec 3
/-- The branch guard G (R32). -/
abbrev Guard := BitVec 5

/-- IW, the integer width (R41). -/
inductive IW where
  | i32 | n32 | i64 | n64
  deriving DecidableEq, Repr

/-- FT, the float type (R41). -/
inductive FT where
  | f32 | f64 | f16 | bf16
  deriving DecidableEq, Repr

/-- The float type of the error-free and double-word instructions (R43). -/
inductive FW where
  | f32 | f64
  deriving DecidableEq, Repr

/-- ICMP (R41). -/
inductive ICmp where
  | eq | ne | lt | le | gt | ge | ltn | gen
  deriving DecidableEq, Repr

/-- FCMP (R41). -/
inductive FCmp where
  | eq | ne | lt | le | gt | ge | un | ord
  deriving DecidableEq, Repr

/-- NF, the narrow format (R41). -/
inductive NF where
  | bf16 | f16 | e5m2 | e4m3 | e3m2 | e2m3 | e2m1 | i8 | n8 | i4 | n4
  deriving DecidableEq, Repr

/-- ORD (R33). -/
inductive MemOrder where
  | relaxed | acquire | release | acqRel
  deriving DecidableEq, Repr

/-- SCOPE (R33). -/
inductive Scope where
  | group | team | die | device | system
  deriving DecidableEq, Repr

/-- The tag of an accumulator (R263). -/
inductive ATag where
  | f32 | i32 | f64
  deriving DecidableEq, Repr

namespace IW
/-- The code of R41. -/
def code : IW → BitVec 2
  | .i32 => 0 | .n32 => 1 | .i64 => 2 | .n64 => 3
/-- The width that a code names. -/
def ofCode (c : BitVec 2) : IW :=
  if c = 0 then .i32 else if c = 1 then .n32 else if c = 2 then .i64 else .n64
/-- How many registers hold a value of the width. -/
def regs : IW → Nat
  | .i32 | .n32 => 1
  | .i64 | .n64 => 2
end IW

namespace FT
/-- The code of R41. -/
def code : FT → BitVec 2
  | .f32 => 0 | .f64 => 1 | .f16 => 2 | .bf16 => 3
/-- The type that a code names. -/
def ofCode (c : BitVec 2) : FT :=
  if c = 0 then .f32 else if c = 1 then .f64 else if c = 2 then .f16 else .bf16
/-- How many registers hold a value of the type. -/
def regs : FT → Nat
  | .f64 => 2
  | _ => 1
end FT

namespace FW
/-- The code of R43. -/
def code : FW → BitVec 1
  | .f32 => 0 | .f64 => 1
/-- The type that a code names. -/
def ofCode (c : BitVec 1) : FW := if c = 0 then .f32 else .f64
/-- How many registers hold a value of the type. -/
def regs : FW → Nat
  | .f32 => 1
  | .f64 => 2
end FW

namespace ICmp
/-- The code of R41. -/
def code : ICmp → BitVec 3
  | .eq => 0 | .ne => 1 | .lt => 2 | .le => 3 | .gt => 4 | .ge => 5 | .ltn => 6 | .gen => 7
/-- The comparison that a code names. -/
def ofCode (c : BitVec 3) : ICmp :=
  if c = 0 then .eq else if c = 1 then .ne else if c = 2 then .lt else if c = 3 then .le
  else if c = 4 then .gt else if c = 5 then .ge else if c = 6 then .ltn else .gen
end ICmp

namespace FCmp
/-- The code of R41. -/
def code : FCmp → BitVec 3
  | .eq => 0 | .ne => 1 | .lt => 2 | .le => 3 | .gt => 4 | .ge => 5 | .un => 6 | .ord => 7
/-- The comparison that a code names. -/
def ofCode (c : BitVec 3) : FCmp :=
  if c = 0 then .eq else if c = 1 then .ne else if c = 2 then .lt else if c = 3 then .le
  else if c = 4 then .gt else if c = 5 then .ge else if c = 6 then .un else .ord
end FCmp

namespace NF
/-- The code of R41. -/
def code : NF → BitVec 4
  | .bf16 => 3 | .f16 => 4 | .e5m2 => 5 | .e4m3 => 6 | .e3m2 => 7 | .e2m3 => 8 | .e2m1 => 9
  | .i8 => 12 | .n8 => 13 | .i4 => 14 | .n4 => 15
/-- The format that a code names, where it names one. -/
def ofCode (c : BitVec 4) : Option NF :=
  if c = 3 then some .bf16 else if c = 4 then some .f16 else if c = 5 then some .e5m2
  else if c = 6 then some .e4m3 else if c = 7 then some .e3m2 else if c = 8 then some .e2m3
  else if c = 9 then some .e2m1 else if c = 12 then some .i8 else if c = 13 then some .n8
  else if c = 14 then some .i4 else if c = 15 then some .n4 else none
/-- How many elements PACK puts into one register (R43). -/
def count : NF → Nat
  | .bf16 | .f16 => 2
  | .e5m2 | .e4m3 | .e3m2 | .e2m3 | .i8 | .n8 => 4
  | .e2m1 | .i4 | .n4 => 8
end NF

namespace MemOrder
/-- The code of R33. -/
def code : MemOrder → BitVec 2
  | .relaxed => 0 | .acquire => 1 | .release => 2 | .acqRel => 3
/-- The order that a code names. -/
def ofCode (c : BitVec 2) : MemOrder :=
  if c = 0 then .relaxed else if c = 1 then .acquire else if c = 2 then .release else .acqRel
/-- Whether the order acquires. -/
def acquires : MemOrder → Bool
  | .acquire | .acqRel => true
  | _ => false
/-- Whether the order releases. -/
def releases : MemOrder → Bool
  | .release | .acqRel => true
  | _ => false
end MemOrder

namespace Scope
/-- The code of R33. -/
def code : Scope → BitVec 3
  | .group => 0 | .team => 1 | .die => 2 | .device => 3 | .system => 4
/-- The scope that a code names, where it names one. -/
def ofCode (c : BitVec 3) : Option Scope :=
  if c = 0 then some .group else if c = 1 then some .team else if c = 2 then some .die
  else if c = 3 then some .device else if c = 4 then some .system else none
end Scope

namespace ATag
/-- The code of the tag in FLAGS[2:1] (R266). -/
def code : ATag → BitVec 2
  | .f32 => 0 | .i32 => 1 | .f64 => 2
/-- The tag that a code names, where it names one. -/
def ofCode (c : BitVec 2) : Option ATag :=
  if c = 0 then some .f32 else if c = 1 then some .i32 else if c = 2 then some .f64 else none
/-- How many A registers hold an accumulator of the tag. -/
def regs : ATag → Nat
  | .f32 | .i32 => 1
  | .f64 => 2
end ATag

/-- Where TEAM_PLACEMENT, RESTORE or a rollback puts one group of a team of a launch: the core and slot it takes, and the first
segment of its team's allocation. -/
structure Placement where
  launch : Nat
  team  : Nat
  group : Nat
  core  : Nat
  slot  : Nat
  seg   : Nat
  deriving DecidableEq, Repr

/-- What a collective brings from the other ranks (R360, R363): the source bytes of each, and the cause that ends it, 0 if none. -/
structure Exchange where
  parts : List (Nat × List Byte)
  fail  : Nat
  deriving DecidableEq, Repr

/-- An error as its unit reports it (R341 to R343, R386): the reporting engine, the kind and index of the unit, what the
self-test would find (1 transient, 2 lasting and replaced, 3 lasting and retired) with the spares then left, the line of HBM,
the access that met it (group, lanes, address and kind), whether the rollback cannot be carried out, and where the groups
go that are restored elsewhere. -/
structure ErrReport where
  engine  : Nat
  kind    : Nat
  index   : BitVec 32
  outcome : Nat
  spares  : Byte
  pa      : Option Nat
  access  : Option (Nat × BitVec 64 × BitVec 64 × Nat)
  fatal   : Bool
  moves   : List Placement
  deriving DecidableEq, Repr

/-- An access that arrives from a peer device: the bytes and the descriptor that it writes, if any (R353). -/
structure PeerAccess where
  dev   : BitVec 10
  pa    : Nat
  write : Option (List Byte)
  desc  : Option (BitVec 32)
  deriving DecidableEq, Repr

/-- What the other members of a DOMAIN command answer (R352): whether every one agrees, the coordinator, and its current
RIN and last committed seal. -/
structure DomainPeers where
  ok        : Bool
  coord     : BitVec 10
  rin       : BitVec 16
  committed : BitVec 16
  deriving DecidableEq, Repr

/-- A firmware image of the flash with its signature (R404). -/
structure FirmwareImage where
  bytes : List Byte
  sig   : List Byte
  deriving DecidableEq, Repr

/-- What the monitors measure at one island: supply, hottest sensor, process and nominal supply (R397). -/
structure Reading where
  island : BitVec 7
  volt   : BitVec 16
  temp   : BitVec 16
  proc   : BitVec 16
  vnom   : BitVec 16
  deriving DecidableEq, Repr

/-- One instruction or event: a row of the opcode table. -/
inductive Instr where
  -- Extension words (R35 to R38): the 25-bit payload.
  | extPred (payload : BitVec 25)
  | extImm (payload : BitVec 25)
  | extShi (payload : BitVec 25)
  | extHint (payload : BitVec 25)
  /-- A word that is no legal instruction (R47). -/
  | illegalInstruction (w : Word)
  -- Integer, address and control (majors 0x00 to 0x1F, R42).
  | iadd (iw : IW) (d : VReg) (a : VReg) (b : VReg)
  | isub (iw : IW) (d : VReg) (a : VReg) (b : VReg)
  | imul (iw : IW) (d : VReg) (a : VReg) (b : VReg)
  | imulhi (n : Bool) (d : VReg) (a : VReg) (b : VReg)
  | imulw (n : Bool) (d : VReg) (a : VReg) (b : VReg)
  | idiv (iw : IW) (d : VReg) (a : VReg) (b : VReg)
  | irem (iw : IW) (d : VReg) (a : VReg) (b : VReg)
  | imin (iw : IW) (d : VReg) (a : VReg) (b : VReg)
  | imax (iw : IW) (d : VReg) (a : VReg) (b : VReg)
  | and (d : VReg) (a : VReg) (b : VReg)
  | or (d : VReg) (a : VReg) (b : VReg)
  | xor (d : VReg) (a : VReg) (b : VReg)
  | andn (d : VReg) (a : VReg) (b : VReg)
  | shl (wide : Bool) (d : VReg) (a : VReg) (b : VReg)
  | shr (wide : Bool) (d : VReg) (a : VReg) (b : VReg)
  | sar (wide : Bool) (d : VReg) (a : VReg) (b : VReg)
  | rol (wide : Bool) (d : VReg) (a : VReg) (b : VReg)
  | bfe (n : Bool) (d : VReg) (a : VReg) (b : VReg)
  | bfi (d : VReg) (a : VReg) (b : VReg)
  | popc (d : VReg) (a : VReg)
  | clz (d : VReg) (a : VReg)
  | ctz (d : VReg) (a : VReg)
  | brev (d : VReg) (a : VReg)
  | icmpp (wide : Bool) (cmp : ICmp) (pd : PReg) (a : VReg) (b : VReg)
  | pand (pd : PReg) (pa : PReg) (pb : PReg)
  | por (pd : PReg) (pa : PReg) (pb : PReg)
  | pxor (pd : PReg) (pa : PReg) (pb : PReg)
  | pandn (pd : PReg) (pa : PReg) (pb : PReg)
  | sel (ps : PReg) (d : VReg) (a : VReg) (b : VReg)
  | iaddi (d : VReg) (a : VReg) (imm : BitVec 11)
  | movi (d : VReg) (imm : BitVec 11)
  | andi (d : VReg) (a : VReg) (imm : BitVec 11)
  | ori (d : VReg) (a : VReg) (imm : BitVec 11)
  | xori (d : VReg) (a : VReg) (imm : BitVec 11)
  | shli (d : VReg) (a : VReg) (cnt : BitVec 5)
  | shri (d : VReg) (a : VReg) (cnt : BitVec 5)
  | sari (d : VReg) (a : VReg) (cnt : BitVec 5)
  | roli (d : VReg) (a : VReg) (cnt : BitVec 5)
  | icmppi (cmp : ICmp) (pd : PReg) (a : VReg) (imm : BitVec 11)
  | lea (sx : Bool) (sh : BitVec 3) (d : VReg) (a : VReg) (b : VReg)
  | leai (d : VReg) (a : VReg) (imm : BitVec 11)
  | bra (g : Guard) (off : BitVec 20)
  | call (g : Guard) (off : BitVec 20)
  | jmpi (a : VReg)
  | calli (d : VReg) (a : VReg)
  | ret (a : VReg)
  | nop
  | land
  | yield
  | exit
  | brk
  | join (a : SReg)
  | srd (d : VReg) (idx : BitVec 8)
  | swr (a : VReg) (idx : BitVec 8)
  | resume (d : VReg) (a : VReg) (b : VReg)
  | gsave (d : VReg) (b : VReg)
  | gload (d : VReg) (b : VReg)
  | fqpop (d : VReg) (a : VReg) (b : VReg)
  | trap (imm : BitVec 11)
  -- Floating point and error-free arithmetic (majors 0x20 to 0x37, R43).
  | fadd (ft : FT) (d : VReg) (a : VReg) (b : VReg)
  | fsub (ft : FT) (d : VReg) (a : VReg) (b : VReg)
  | fmul (ft : FT) (d : VReg) (a : VReg) (b : VReg)
  | ffma (ft : FT) (d : VReg) (a : VReg) (b : VReg)
  | fdiv (ft : FT) (d : VReg) (a : VReg) (b : VReg)
  | fsqrt (ft : FT) (d : VReg) (a : VReg)
  | frcp (ft : FT) (d : VReg) (a : VReg)
  | frsq (ft : FT) (d : VReg) (a : VReg)
  | exp2 (d : VReg) (a : VReg)
  | log2 (d : VReg) (a : VReg)
  | sin (d : VReg) (a : VReg)
  | cos (d : VReg) (a : VReg)
  | fmin (ft : FT) (d : VReg) (a : VReg) (b : VReg)
  | fmax (ft : FT) (d : VReg) (a : VReg) (b : VReg)
  | fcmpp (ft : FT) (cmp : FCmp) (pd : PReg) (a : VReg) (b : VReg)
  | fclass (ft : FT) (d : VReg) (a : VReg)
  | fabs (ft : FT) (d : VReg) (a : VReg)
  | fneg (ft : FT) (d : VReg) (a : VReg)
  | fcpys (ft : FT) (d : VReg) (a : VReg) (b : VReg)
  | cvtf (src : FT) (dst : FT) (d : VReg) (a : VReg)
  | cvtfi (src : FT) (dst : IW) (d : VReg) (a : VReg)
  | cvtif (src : IW) (dst : FT) (d : VReg) (a : VReg)
  | fscale (ft : FT) (d : VReg) (a : VReg) (b : VReg)
  | frnd (ft : FT) (d : VReg) (a : VReg)
  | faddx (fw : FW) (d : VReg) (a : VReg) (b : VReg)
  | fsubx (fw : FW) (d : VReg) (a : VReg) (b : VReg)
  | fmulx (fw : FW) (d : VReg) (a : VReg) (b : VReg)
  | dwadd (fw : FW) (d : VReg) (a : VReg) (b : VReg)
  | dwsub (fw : FW) (d : VReg) (a : VReg) (b : VReg)
  | dwmul (fw : FW) (d : VReg) (a : VReg) (b : VReg)
  | dwfma (fw : FW) (d : VReg) (a : VReg) (b : VReg)
  | dwnorm (fw : FW) (d : VReg) (a : VReg)
  | pack (nf : NF) (d : VReg) (a : VReg) (b : VReg)
  | unpk (nf : NF) (d : VReg) (a : VReg) (b : VReg)
  -- Uniform and cross-lane (majors 0x38 to 0x4F, R44).
  | sadd (d : SReg) (a : SReg) (b : SReg)
  | ssub (d : SReg) (a : SReg) (b : SReg)
  | smul (d : SReg) (a : SReg) (b : SReg)
  | smulhi (d : SReg) (a : SReg) (b : SReg)
  | sand (d : SReg) (a : SReg) (b : SReg)
  | sor (d : SReg) (a : SReg) (b : SReg)
  | sxor (d : SReg) (a : SReg) (b : SReg)
  | sandn (d : SReg) (a : SReg) (b : SReg)
  | sshl (d : SReg) (a : SReg) (b : SReg)
  | sshr (d : SReg) (a : SReg) (b : SReg)
  | smin (d : SReg) (a : SReg) (b : SReg)
  | smax (d : SReg) (a : SReg) (b : SReg)
  | saddi (d : SReg) (a : SReg) (imm : BitVec 9)
  | smovi (d : SReg) (imm : BitVec 9)
  | scmpp (cmp : ICmp) (pd : PReg) (a : SReg) (b : SReg)
  | sbrz (d : SReg) (imm : BitVec 9)
  | sbrnz (d : SReg) (imm : BitVec 9)
  | sldI32 (d : SReg7) (a : SReg7) (off : BitVec 6) (ord : MemOrder) (sc : Scope)
  | sldI64 (d : SReg7) (a : SReg7) (off : BitVec 6) (ord : MemOrder) (sc : Scope)
  | sstI32 (d : SReg7) (a : SReg7) (off : BitVec 6) (ord : MemOrder) (sc : Scope)
  | sstI64 (d : SReg7) (a : SReg7) (off : BitVec 6) (ord : MemOrder) (sc : Scope)
  | movsv (d : VReg) (a : SReg7)
  | movvs (d : SReg7) (a : VReg)
  | lgetAbs (d : VReg) (a : VReg) (b : VReg)
  | lgetBelow (d : VReg) (a : VReg) (b : VReg)
  | lgetAbove (d : VReg) (a : VReg) (b : VReg)
  | lgetFlip (d : VReg) (a : VReg) (b : VReg)
  | lany (pd : PReg) (ps : PReg)
  | lall (pd : PReg) (ps : PReg)
  | lmask (d : VReg) (ps : PReg)
  | llead (pd : PReg)
  | redf (fw : FW) (d : VReg) (a : VReg)
  | redx (fw : FW) (d : VReg) (a : VReg)
  | rediAddI32 (d : VReg) (a : VReg)
  | rediMinI32 (d : VReg) (a : VReg)
  | rediMaxI32 (d : VReg) (a : VReg)
  | rediMinN32 (d : VReg) (a : VReg)
  | rediMaxN32 (d : VReg) (a : VReg)
  | rediAnd (d : VReg) (a : VReg)
  | rediOr (d : VReg) (a : VReg)
  | rediXor (d : VReg) (a : VReg)
  | scaniAddI32 (d : VReg) (a : VReg)
  | scaniAddI32Excl (d : VReg) (a : VReg)
  | scanfF32 (d : VReg) (a : VReg)
  | scanxF32 (d : VReg) (a : VReg)
  | regroup (d : VReg) (a : VReg) (b : SReg7)
  | randN32 (d : VReg)
  | randF32 (d : VReg)
  | randN64 (d : VReg)
  | rdvMark (d : SReg) (bar : BitVec 8) (lvl : BitVec 2)
  | rdvHold (d : SReg) (bar : BitVec 8) (lvl : BitVec 2)
  | rdvMeet (d : SReg) (bar : BitVec 8) (lvl : BitVec 2)
  | rdvPeek (d : SReg) (bar : BitVec 8) (lvl : BitVec 2)
  | pmovToV (d : VReg)
  | pmovToP (a : VReg)
  -- Memory, fitted regions and copies (majors 0x50 to 0x5F, R45).
  | ldI32 (d : VReg) (a : VReg) (off : BitVec 6) (ord : MemOrder) (sc : Scope)
  | ldI64 (d : VReg) (a : VReg) (off : BitVec 6) (ord : MemOrder) (sc : Scope)
  | stI32 (d : VReg) (a : VReg) (off : BitVec 6) (ord : MemOrder) (sc : Scope)
  | stI64 (d : VReg) (a : VReg) (off : BitVec 6) (ord : MemOrder) (sc : Scope)
  | ldI8 (d : VReg) (a : VReg) (b : VReg)
  | ldN8 (d : VReg) (a : VReg) (b : VReg)
  | ldI16 (d : VReg) (a : VReg) (b : VReg)
  | ldN16 (d : VReg) (a : VReg) (b : VReg)
  | ldq (d : VReg) (a : VReg) (b : VReg)
  | stI8 (d : VReg) (a : VReg) (b : VReg)
  | stI16 (d : VReg) (a : VReg) (b : VReg)
  | stq (d : VReg) (a : VReg) (b : VReg)
  | dld (d : VReg) (a : VReg) (b : VReg)
  | dst (d : VReg) (a : VReg) (b : VReg)
  | segq (d : VReg) (a : VReg) (b : VReg)
  | segset (d : VReg) (a : VReg) (b : VReg)
  | pref (a : VReg) (b : VReg)
  | atomAddI32 (d : VReg) (a : VReg) (ord : MemOrder) (sc : Scope)
  | atomMinI32 (d : VReg) (a : VReg) (ord : MemOrder) (sc : Scope)
  | atomMaxI32 (d : VReg) (a : VReg) (ord : MemOrder) (sc : Scope)
  | atomMinN32 (d : VReg) (a : VReg) (ord : MemOrder) (sc : Scope)
  | atomMaxN32 (d : VReg) (a : VReg) (ord : MemOrder) (sc : Scope)
  | atomAnd (d : VReg) (a : VReg) (ord : MemOrder) (sc : Scope)
  | atomOr (d : VReg) (a : VReg) (ord : MemOrder) (sc : Scope)
  | atomXor (d : VReg) (a : VReg) (ord : MemOrder) (sc : Scope)
  | atomXchgI32 (d : VReg) (a : VReg) (ord : MemOrder) (sc : Scope)
  | atomCasI32 (d : VReg) (a : VReg) (ord : MemOrder) (sc : Scope)
  | atomAddF32 (d : VReg) (a : VReg) (ord : MemOrder) (sc : Scope)
  | atomAddI64 (d : VReg) (a : VReg) (ord : MemOrder) (sc : Scope)
  | atomXchgI64 (d : VReg) (a : VReg) (ord : MemOrder) (sc : Scope)
  | atomCasI64 (d : VReg) (a : VReg) (ord : MemOrder) (sc : Scope)
  | fence (ord : MemOrder) (sc : Scope)
  | wait (ld : BitVec 4) (st : BitVec 4) (cp : BitVec 4) (mx : BitVec 4) (cl : BitVec 4)
  | rinst (sh : SReg) (co : SReg) (cs : SReg)
  | rfit (sh : SReg) (cs : SReg)
  | rdem (sh : SReg) (cs : SReg)
  | rabort (sh : SReg) (cs : SReg)
  | rldg (d : VReg) (a : VReg) (ord : MemOrder) (sc : Scope)
  | rstat (d : SReg) (a : SReg) (b : SReg)
  | cpy (sh : SReg) (co : SReg) (cs : SReg)
  | cpyt (sh : SReg) (co : SReg) (cs : SReg)
  | cvtc (sh : SReg) (co : SReg) (cs : SReg)
  | qnt (sh : SReg) (co : SReg) (cs : SReg)
  | rmat (sh : SReg) (co : SReg) (cs : SReg)
  | cpfill (sh : SReg) (co : SReg) (cs : SReg)
  | cpst (d : SReg) (b : SReg)
  | cpcan (d : SReg) (a : SReg)
  -- Matrix engine (majors 0x60 to 0x67, R45).
  | tld (ovr : BitVec 5) (ta : TReg) (mb : SReg)
  | tstr (ta : TReg) (mb : SReg)
  | mma (acc : AReg) (ta : TReg) (tb : TReg) (mb : SReg)
  | mmaDw (acc : AReg) (ta : TReg) (tb : TReg) (mb : SReg)
  | tzero (fmt : BitVec 5) (ta : TReg)
  | azero (tag : ATag) (acc : AReg)
  | amov (acc : AReg) (asrc : AReg)
  | ald (tag : ATag) (acc : AReg) (mb : SReg)
  | ast (acc : AReg) (mb : SReg)
  | asnap (acc : AReg) (adst : AReg) (mb : SReg)
  | ttrn (ta : TReg) (tb : TReg)
  -- Graphs, seals and collectives (majors 0x68 to 0x6F, R45).
  | gbind (sh : SReg) (co : SReg) (cs : SReg)
  | grebind (sh : SReg) (co : SReg) (cs : SReg)
  | gstat (d : SReg) (a : SReg) (b : SReg)
  | chstat (d : SReg) (a : SReg) (b : SReg)
  | fire (pd : PReg) (a : SReg)
  | fend (a : SReg) (b : SReg)
  | send (a : SReg) (b : SReg)
  | recv (pd : PReg) (a : SReg) (b : SReg)
  | seal (pdead : Bool)
  | sealreq (d : SReg)
  | rvrd (d : SReg) (b : SReg)
  | coll (sh : SReg) (co : SReg) (cs : SReg)
  | lease (sh : SReg) (cs : SReg)
  | clarb (d : SReg) (a : SReg)
  | clstat (d : SReg) (b : SReg)
  -- Events of the device, its engines, the host and the firmware; an argument is what the environment chooses.
  | loadValueReturn (g : Nat) (n : Nat)
  | storePerformed (g : Nat) (n : Nat)
  | eligibilityPromotion (g : Nat)
  | copyCompletion (g : Nat)
  | copyHalt (g : Nat) (n : Nat)
  | mmaCompletion (g : Nat)
  | springOperationArrival (g : Nat) (n : Nat)
  | installEnd (hdr : Nat)
  | refitCommit (hdr : Nat)
  | demotionEnd (hdr : Nat)
  | regionOperationCompletion (g : Nat)
  | bind (g : Nat) (n : Nat)
  | rebind (g : Nat) (n : Nat)
  | collReadyPassed (g : Nat) (n : Nat)
  | collectiveCompletion (g : Nat) (x : Exchange)
  | leaseCompletion (g : Nat)
  | faultQueueEntryWrite (ctx : Nat)
  | recordWrite
  | contextSave (ctx : Nat)
  | watchdog (l : Nat)
  | stallLimit
  | sealPeriod
  | sealTrigger
  | prepare (r : BitVec 16)
  | ready
  | sealTimeout
  | abort (r : BitVec 16)
  | commit (r : BitVec 16)
  | rintagAgeing
  | uncorrectableMemoryError (e : ErrReport)
  | correctableError (e : ErrReport)
  | fabricPortError (port : BitVec 5) (pass : Bool)
  | noRoute (dev : BitVec 10)
  | peerAccessArrival (acc : PeerAccess)
  | leaseNotice (dev : BitVec 10) (num : BitVec 16) (notice : DWord)
  | leaseDeadline (dev : BitVec 10) (num : BitVec 16)
  | hostCxlMemAccess (pa : Nat) (data : List Byte)
  | itailWrite (inlet : BitVec 6) (val : Word)
  | ictlWrite (inlet : BitVec 6) (val : Word)
  | ibaseWrite (inlet : BitVec 6) (val : DWord)
  | launchTake (inlet : BitVec 6)
  | teamPlacement (l : Nat) (ps : List Placement)
  | launchCompletion (l : Nat)
  | create
  | destroy
  | preempt
  | restore (ps : List Placement)
  | inval
  | retire
  | cmdFqpop
  | cmdLeaseGrant
  | cmdLeaseRevoke
  | cmdLeaseRegister
  | domain (x : DomainPeers)
  | rqctlWrite (val : Word)
  | rqheadWrite (val : Word)
  | rstctl (val : Word)
  | powerOn
  | linkReset
  | hexwd
  | thermalTrip (island : BitVec 7)
  | voltageFault (island : BitVec 7)
  | suppliesStable
  | calibrationDone
  | firmwareVerified (key : List Byte) (images : FirmwareImage × FirmwareImage)
  | bootctlStart (val : Word)
  | initDone
  | monitorUpdate (m : List Reading)
  | throttleStep (island : BitVec 7)
  | powerCapStep (power : Nat)
  | attctlRequest (val : Word)
  | attestationComplete (burnt : Bool)
  | registerWrite (off : BitVec 24) (wide : Bool) (val : DWord)
  | hostLinkRetrained
  | routeRegained (dev : BitVec 10)
  | leaseReleaseAtLender (dev : BitVec 10) (num : BitVec 16)
  | undefinedCommand (code : BitVec 8)
  deriving DecidableEq, Repr

end Sys2Proof
end

