-- ==== Sys2Proof/WellFormed.lean ====
section
/-! DEFINITION. Which instructions have an encoding: the values a field of R30 to R46 may not hold.
A check answers the low bit and the value of the failing field, as R49 reports it. -/
namespace Sys2Proof

/-- A predicate number of 12 to 15 is illegal (R30). -/
def pBad (lo : Nat) (p : PReg) : Option (Nat × Nat) :=
  if p.toNat < 12 then none else some (lo, p.toNat)

/-- A branch guard names P0 to P11, or 15 without negation (R32). -/
def guardBad (g : Guard) : Option (Nat × Nat) :=
  if g.toNat % 16 < 12 ∨ g.toNat = 15 then none else some (20, g.toNat)

/-- A field that holds a value above its last one. -/
def leBad (lo v top : Nat) : Option (Nat × Nat) :=
  if v ≤ top then none else some (lo, v)

/-- TZERO names a format of 1 to 16 (R266). -/
def tzfBad (lo : Nat) (f : BitVec 5) : Option (Nat × Nat) :=
  if 1 ≤ f.toNat ∧ f.toNat ≤ 16 then none else some (lo, f.toNat)

/-- The order is one of those the major accepts (R33). -/
def ordBad (lo : Nat) (o : MemOrder) (ok : List MemOrder) : Option (Nat × Nat) :=
  if o ∈ ok then none else some (lo, o.code.toNat)

/-- Two operands that must differ are equal (R43, R266). -/
def sameBad (lo : Nat) (same : Bool) (v : Nat) : Option (Nat × Nat) :=
  if same then some (lo, v) else none

/-- The indices of the system registers (R78). -/
def sysIndices : List Nat :=
  [0x00, 0x01, 0x02, 0x03, 0x04, 0x05, 0x06, 0x07, 0x08, 0x09, 0x0A, 0x0B, 0x10, 0x11, 0x12,
   0x18, 0x19, 0x1A, 0x20, 0x28, 0x29, 0x2A]

/-- An index that R78 does not list is illegal (R77). -/
def sysBad (lo : Nat) (idx : BitVec 8) : Option (Nat × Nat) :=
  if idx.toNat ∈ sysIndices then none else some (lo, idx.toNat)

/-- EXT.PRED: GP of 12 to 14, or negation without a guard, or RM of 6 or 7 is illegal (R35). For NEG with GP 15 the model names NEG as the
field that fails, where R49 leaves it open (DESIGN CHOICE, log entry 16). -/
def extPredBad (p : BitVec 25) : Option (Nat × Nat) :=
  let gp := p.toNat / 1048576 % 16
  let neg := p.toNat / 16777216 % 2
  let rm := p.toNat / 32768 % 8
  if 12 ≤ gp ∧ gp ≤ 14 then some (20, gp)
  else if neg = 1 ∧ gp = 15 then some (24, 1)
  else if 6 ≤ rm then some (15, rm)
  else none

/-- The first field of an instruction that holds a value the opcode map does not assign. -/
def badField : Instr → Option (Nat × Nat)
  | .extPred p => extPredBad p
  | .extImm _ => none
  | .extShi _ => none
  | .extHint _ => none
  | .illegalInstruction _ => none
  | .iadd _ _ _ _ => none
  | .isub _ _ _ _ => none
  | .imul _ _ _ _ => none
  | .imulhi _ _ _ _ => none
  | .imulw _ _ _ _ => none
  | .idiv _ _ _ _ => none
  | .irem _ _ _ _ => none
  | .imin _ _ _ _ => none
  | .imax _ _ _ _ => none
  | .and _ _ _ => none
  | .or _ _ _ => none
  | .xor _ _ _ => none
  | .andn _ _ _ => none
  | .shl _ _ _ _ => none
  | .shr _ _ _ _ => none
  | .sar _ _ _ _ => none
  | .rol _ _ _ _ => none
  | .bfe _ _ _ _ => none
  | .bfi _ _ _ => none
  | .popc _ _ => none
  | .clz _ _ => none
  | .ctz _ _ => none
  | .brev _ _ => none
  | .icmpp _ _ pd _ _ => pBad 18 pd
  | .pand pd pa pb => pBad 18 pd <|> pBad 11 pa <|> pBad 4 pb
  | .por pd pa pb => pBad 18 pd <|> pBad 11 pa <|> pBad 4 pb
  | .pxor pd pa pb => pBad 18 pd <|> pBad 11 pa <|> pBad 4 pb
  | .pandn pd pa pb => pBad 18 pd <|> pBad 11 pa <|> pBad 4 pb
  | .sel ps _ _ _ => pBad 0 ps
  | .iaddi _ _ _ => none
  | .movi _ _ => none
  | .andi _ _ _ => none
  | .ori _ _ _ => none
  | .xori _ _ _ => none
  | .shli _ _ _ => none
  | .shri _ _ _ => none
  | .sari _ _ _ => none
  | .roli _ _ _ => none
  | .icmppi _ pd _ _ => pBad 18 pd
  | .lea _ _ _ _ _ => none
  | .leai _ _ _ => none
  | .bra g _ => guardBad g
  | .call g _ => guardBad g
  | .jmpi _ => none
  | .calli _ _ => none
  | .ret _ => none
  | .nop => none
  | .land => none
  | .yield => none
  | .exit => none
  | .brk => none
  | .join _ => none
  | .srd _ idx => sysBad 0 idx
  | .swr _ idx => sysBad 0 idx
  | .resume _ _ _ => none
  | .gsave _ _ => none
  | .gload _ _ => none
  | .fqpop _ _ _ => none
  | .trap _ => none
  | .fadd _ _ _ _ => none
  | .fsub _ _ _ _ => none
  | .fmul _ _ _ _ => none
  | .ffma _ _ _ _ => none
  | .fdiv _ _ _ _ => none
  | .fsqrt _ _ _ => none
  | .frcp _ _ _ => none
  | .frsq _ _ _ => none
  | .exp2 _ _ => none
  | .log2 _ _ => none
  | .sin _ _ => none
  | .cos _ _ => none
  | .fmin _ _ _ _ => none
  | .fmax _ _ _ _ => none
  | .fcmpp _ _ pd _ _ => pBad 18 pd
  | .fclass _ _ _ => none
  | .fabs _ _ _ => none
  | .fneg _ _ _ => none
  | .fcpys _ _ _ _ => none
  | .cvtf src dst _ _ => sameBad 0 (src == dst) (src.code.toNat * 4 + dst.code.toNat)
  | .cvtfi _ _ _ _ => none
  | .cvtif _ _ _ _ => none
  | .fscale _ _ _ _ => none
  | .frnd _ _ _ => none
  | .faddx _ _ _ _ => none
  | .fsubx _ _ _ _ => none
  | .fmulx _ _ _ _ => none
  | .dwadd _ _ _ _ => none
  | .dwsub _ _ _ _ => none
  | .dwmul _ _ _ _ => none
  | .dwfma _ _ _ _ => none
  | .dwnorm _ _ _ => none
  | .pack _ _ _ _ => none
  | .unpk _ _ _ _ => none
  | .sadd _ _ _ => none
  | .ssub _ _ _ => none
  | .smul _ _ _ => none
  | .smulhi _ _ _ => none
  | .sand _ _ _ => none
  | .sor _ _ _ => none
  | .sxor _ _ _ => none
  | .sandn _ _ _ => none
  | .sshl _ _ _ => none
  | .sshr _ _ _ => none
  | .smin _ _ _ => none
  | .smax _ _ _ => none
  | .saddi _ _ _ => none
  | .smovi _ _ => none
  | .scmpp _ pd _ _ => pBad 17 pd
  | .sbrz _ _ => none
  | .sbrnz _ _ => none
  | .sldI32 _ _ _ ord _ => ordBad 3 ord [.relaxed, .acquire]
  | .sldI64 _ _ _ ord _ => ordBad 3 ord [.relaxed, .acquire]
  | .sstI32 _ _ _ ord _ => ordBad 3 ord [.relaxed, .release]
  | .sstI64 _ _ _ ord _ => ordBad 3 ord [.relaxed, .release]
  | .movsv _ _ => none
  | .movvs _ _ => none
  | .lgetAbs _ _ _ => none
  | .lgetBelow _ _ _ => none
  | .lgetAbove _ _ _ => none
  | .lgetFlip _ _ _ => none
  | .lany pd ps => pBad 18 pd <|> pBad 11 ps
  | .lall pd ps => pBad 18 pd <|> pBad 11 ps
  | .lmask _ ps => pBad 11 ps
  | .llead pd => pBad 18 pd
  | .redf _ _ _ => none
  | .redx _ _ _ => none
  | .rediAddI32 _ _ => none
  | .rediMinI32 _ _ => none
  | .rediMaxI32 _ _ => none
  | .rediMinN32 _ _ => none
  | .rediMaxN32 _ _ => none
  | .rediAnd _ _ => none
  | .rediOr _ _ => none
  | .rediXor _ _ => none
  | .scaniAddI32 _ _ => none
  | .scaniAddI32Excl _ _ => none
  | .scanfF32 _ _ => none
  | .scanxF32 _ _ => none
  | .regroup _ _ _ => none
  | .randN32 _ => none
  | .randF32 _ => none
  | .randN64 _ => none
  | .rdvMark _ bar _ => leBad 9 bar.toNat 15
  | .rdvHold _ bar _ => leBad 9 bar.toNat 15
  | .rdvMeet _ bar _ => leBad 9 bar.toNat 15
  | .rdvPeek _ bar _ => leBad 9 bar.toNat 15
  | .pmovToV _ => none
  | .pmovToP _ => none
  | .ldI32 _ _ _ ord _ => ordBad 3 ord [.relaxed, .acquire]
  | .ldI64 _ _ _ ord _ => ordBad 3 ord [.relaxed, .acquire]
  | .stI32 _ _ _ ord _ => ordBad 3 ord [.relaxed, .release]
  | .stI64 _ _ _ ord _ => ordBad 3 ord [.relaxed, .release]
  | .ldI8 _ _ _ => none
  | .ldN8 _ _ _ => none
  | .ldI16 _ _ _ => none
  | .ldN16 _ _ _ => none
  | .ldq _ _ _ => none
  | .stI8 _ _ _ => none
  | .stI16 _ _ _ => none
  | .stq _ _ _ => none
  | .dld _ _ _ => none
  | .dst _ _ _ => none
  | .segq _ _ _ => none
  | .segset _ _ _ => none
  | .pref _ _ => none
  | .atomAddI32 _ _ _ _ => none
  | .atomMinI32 _ _ _ _ => none
  | .atomMaxI32 _ _ _ _ => none
  | .atomMinN32 _ _ _ _ => none
  | .atomMaxN32 _ _ _ _ => none
  | .atomAnd _ _ _ _ => none
  | .atomOr _ _ _ _ => none
  | .atomXor _ _ _ _ => none
  | .atomXchgI32 _ _ _ _ => none
  | .atomCasI32 _ _ _ _ => none
  | .atomAddF32 _ _ _ _ => none
  | .atomAddI64 _ _ _ _ => none
  | .atomXchgI64 _ _ _ _ => none
  | .atomCasI64 _ _ _ _ => none
  | .fence ord _ => ordBad 3 ord [.acquire, .release, .acqRel]
  | .wait _ _ _ _ _ => none
  | .rinst _ _ _ => none
  | .rfit _ _ => none
  | .rdem _ _ => none
  | .rabort _ _ => none
  | .rldg _ _ ord _ => ordBad 3 ord [.relaxed, .acquire]
  | .rstat _ _ _ => none
  | .cpy _ _ _ => none
  | .cpyt _ _ _ => none
  | .cvtc _ _ _ => none
  | .qnt _ _ _ => none
  | .rmat _ _ _ => none
  | .cpfill _ _ _ => none
  | .cpst _ _ => none
  | .cpcan _ _ => none
  | .tld ovr _ _ => leBad 1 ovr.toNat 16
  | .tstr _ _ => none
  | .mma _ _ _ _ => none
  | .mmaDw _ _ _ _ => none
  | .tzero fmt _ => tzfBad 1 fmt
  | .azero _ _ => none
  | .amov _ _ => none
  | .ald _ _ _ => none
  | .ast _ _ => none
  | .asnap acc adst _ => sameBad 18 (adst == acc) adst.toNat
  | .ttrn _ _ => none
  | .gbind _ _ _ => none
  | .grebind _ _ _ => none
  | .gstat _ _ _ => none
  | .chstat _ _ _ => none
  | .fire pd _ => pBad 17 pd
  | .fend _ _ => none
  | .send _ _ => none
  | .recv pd _ _ => pBad 17 pd
  | .seal _ => none
  | .sealreq _ => none
  | .rvrd _ _ => none
  | .coll _ _ _ => none
  | .lease _ _ => none
  | .clarb _ _ => none
  | .clstat _ _ => none
  | .loadValueReturn _ _ => none
  | .storePerformed _ _ => none
  | .eligibilityPromotion _ => none
  | .copyCompletion _ => none
  | .copyHalt _ _ => none
  | .mmaCompletion _ => none
  | .springOperationArrival _ _ => none
  | .installEnd _ => none
  | .refitCommit _ => none
  | .demotionEnd _ => none
  | .regionOperationCompletion _ => none
  | .bind _ _ => none
  | .rebind _ _ => none
  | .collReadyPassed _ _ => none
  | .collectiveCompletion _ _ => none
  | .leaseCompletion _ => none
  | .faultQueueEntryWrite _ => none
  | .recordWrite => none
  | .contextSave _ => none
  | .watchdog _ => none
  | .stallLimit => none
  | .sealPeriod => none
  | .sealTrigger => none
  | .prepare _ => none
  | .ready => none
  | .sealTimeout => none
  | .abort _ => none
  | .commit _ => none
  | .rintagAgeing => none
  | .uncorrectableMemoryError _ => none
  | .correctableError _ => none
  | .fabricPortError _ _ => none
  | .noRoute _ => none
  | .peerAccessArrival _ => none
  | .leaseNotice _ _ _ => none
  | .leaseDeadline _ _ => none
  | .hostCxlMemAccess _ _ => none
  | .itailWrite _ _ => none
  | .ictlWrite _ _ => none
  | .ibaseWrite _ _ => none
  | .launchTake _ => none
  | .teamPlacement _ _ => none
  | .launchCompletion _ => none
  | .create => none
  | .destroy => none
  | .preempt => none
  | .restore _ => none
  | .inval => none
  | .retire => none
  | .cmdFqpop => none
  | .cmdLeaseGrant => none
  | .cmdLeaseRevoke => none
  | .cmdLeaseRegister => none
  | .domain _ => none
  | .rqctlWrite _ => none
  | .rqheadWrite _ => none
  | .rstctl _ => none
  | .powerOn => none
  | .linkReset => none
  | .hexwd => none
  | .thermalTrip _ => none
  | .voltageFault _ => none
  | .suppliesStable => none
  | .calibrationDone => none
  | .firmwareVerified _ _ => none
  | .bootctlStart _ => none
  | .initDone => none
  | .monitorUpdate _ => none
  | .throttleStep _ => none
  | .powerCapStep _ => none
  | .attctlRequest _ => none
  | .attestationComplete _ => none
  | .registerWrite _ _ _ => none
  | .hostLinkRetrained => none
  | .routeRegained _ => none
  | .leaseReleaseAtLender _ _ => none
  | .undefinedCommand _ => none

/-- Every field of the instruction holds a value that the opcode map assigns. -/
abbrev Instr.WellFormed (i : Instr) : Prop := badField i = none

end Sys2Proof
end

