-- ==== Sys2Proof/Decode.lean ====
section
/-! DEFINITION. From instruction words to instructions and back (R29 to R47). -/
namespace Sys2Proof

/-- The n bits of a word from bit lo up. -/
def fld (w : Word) (lo n : Nat) : BitVec n := BitVec.ofNat n (w.toNat / 2 ^ lo)

/-- The n bits of a word from bit lo up, as a number. -/
def fldNat (w : Word) (lo n : Nat) : Nat := w.toNat / 2 ^ lo % 2 ^ n

/-- Why a word is no legal instruction (R47). -/
inductive Illegal where
  /-- 0x0101: a field, named by its low bit, holds an unassigned value. -/
  | enc (lo val : Nat)
  /-- 0x0102: a reserved field of an otherwise legal instruction is not 0. -/
  | reserved (i : Instr) (lo val : Nat)
  deriving DecidableEq, Repr

/-- A field whose code is not assigned makes the word illegal. -/
def withCode {α : Type} (lo val : Nat) (c : Option α) (k : α → Except Illegal Instr) : Except Illegal Instr :=
  match c with
  | some x => k x
  | none => .error (.enc lo val)

/-- The instructions of majors 0x00 to 0x0f. An unassigned F is named whole, from bit 0, also where only a subfield of it fails
(DESIGN CHOICE, log entry 16). -/
def decodePart0 (op : Nat) (w : Word) : Except Illegal Instr :=
  match op with
  | 0x00 =>
    if fldNat w 2 2 = 0 then .ok (.iadd (.ofCode (fld w 0 2)) (fld w 18 7) (fld w 11 7) (fld w 4 7))
    else
    .error (.enc 0 (fldNat w 0 4))
  | 0x01 =>
    if fldNat w 2 2 = 0 then .ok (.isub (.ofCode (fld w 0 2)) (fld w 18 7) (fld w 11 7) (fld w 4 7))
    else
    .error (.enc 0 (fldNat w 0 4))
  | 0x02 =>
    if fldNat w 2 2 = 0 then .ok (.imul (.ofCode (fld w 0 2)) (fld w 18 7) (fld w 11 7) (fld w 4 7))
    else
    .error (.enc 0 (fldNat w 0 4))
  | 0x03 =>
    if fldNat w 1 3 = 0 then .ok (.imulhi (fldNat w 0 1 == 1) (fld w 18 7) (fld w 11 7) (fld w 4 7))
    else
    if fldNat w 1 3 = 1 then .ok (.imulw (fldNat w 0 1 == 1) (fld w 18 7) (fld w 11 7) (fld w 4 7))
    else
    .error (.enc 0 (fldNat w 0 4))
  | 0x04 =>
    if fldNat w 2 2 = 0 then .ok (.idiv (.ofCode (fld w 0 2)) (fld w 18 7) (fld w 11 7) (fld w 4 7))
    else
    .error (.enc 0 (fldNat w 0 4))
  | 0x05 =>
    if fldNat w 2 2 = 0 then .ok (.irem (.ofCode (fld w 0 2)) (fld w 18 7) (fld w 11 7) (fld w 4 7))
    else
    .error (.enc 0 (fldNat w 0 4))
  | 0x06 =>
    if fldNat w 2 2 = 0 then .ok (.imin (.ofCode (fld w 0 2)) (fld w 18 7) (fld w 11 7) (fld w 4 7))
    else
    .error (.enc 0 (fldNat w 0 4))
  | 0x07 =>
    if fldNat w 2 2 = 0 then .ok (.imax (.ofCode (fld w 0 2)) (fld w 18 7) (fld w 11 7) (fld w 4 7))
    else
    .error (.enc 0 (fldNat w 0 4))
  | 0x08 =>
    if fldNat w 0 4 = 0 then .ok (.and (fld w 18 7) (fld w 11 7) (fld w 4 7))
    else
    if fldNat w 0 4 = 1 then .ok (.or (fld w 18 7) (fld w 11 7) (fld w 4 7))
    else
    if fldNat w 0 4 = 2 then .ok (.xor (fld w 18 7) (fld w 11 7) (fld w 4 7))
    else
    if fldNat w 0 4 = 3 then .ok (.andn (fld w 18 7) (fld w 11 7) (fld w 4 7))
    else
    .error (.enc 0 (fldNat w 0 4))
  | 0x09 =>
    if fldNat w 0 2 = 0 ∧ fldNat w 3 1 = 0 then .ok (.shl (fldNat w 2 1 == 1) (fld w 18 7) (fld w 11 7) (fld w 4 7))
    else
    if fldNat w 0 2 = 1 ∧ fldNat w 3 1 = 0 then .ok (.shr (fldNat w 2 1 == 1) (fld w 18 7) (fld w 11 7) (fld w 4 7))
    else
    if fldNat w 0 2 = 2 ∧ fldNat w 3 1 = 0 then .ok (.sar (fldNat w 2 1 == 1) (fld w 18 7) (fld w 11 7) (fld w 4 7))
    else
    if fldNat w 0 2 = 3 ∧ fldNat w 3 1 = 0 then .ok (.rol (fldNat w 2 1 == 1) (fld w 18 7) (fld w 11 7) (fld w 4 7))
    else
    .error (.enc 0 (fldNat w 0 4))
  | 0x0a =>
    if fldNat w 1 3 = 0 then .ok (.bfe (fldNat w 0 1 == 1) (fld w 18 7) (fld w 11 7) (fld w 4 7))
    else
    if fldNat w 0 4 = 2 then .ok (.bfi (fld w 18 7) (fld w 11 7) (fld w 4 7))
    else
    .error (.enc 0 (fldNat w 0 4))
  | 0x0b =>
    if fldNat w 0 4 = 0 then .ok (.popc (fld w 18 7) (fld w 11 7))
    else
    if fldNat w 0 4 = 1 then .ok (.clz (fld w 18 7) (fld w 11 7))
    else
    if fldNat w 0 4 = 2 then .ok (.ctz (fld w 18 7) (fld w 11 7))
    else
    if fldNat w 0 4 = 3 then .ok (.brev (fld w 18 7) (fld w 11 7))
    else
    .error (.enc 0 (fldNat w 0 4))
  | 0x0c =>
    .ok (.icmpp (fldNat w 3 1 == 1) (.ofCode (fld w 0 3)) (fld w 18 4) (fld w 11 7) (fld w 4 7))
  | 0x0d =>
    if fldNat w 0 4 = 0 then .ok (.pand (fld w 18 4) (fld w 11 4) (fld w 4 4))
    else
    if fldNat w 0 4 = 1 then .ok (.por (fld w 18 4) (fld w 11 4) (fld w 4 4))
    else
    if fldNat w 0 4 = 2 then .ok (.pxor (fld w 18 4) (fld w 11 4) (fld w 4 4))
    else
    if fldNat w 0 4 = 3 then .ok (.pandn (fld w 18 4) (fld w 11 4) (fld w 4 4))
    else
    .error (.enc 0 (fldNat w 0 4))
  | 0x0e =>
    .ok (.sel (fld w 0 4) (fld w 18 7) (fld w 11 7) (fld w 4 7))
  | 0x0f =>
    .ok (.iaddi (fld w 18 7) (fld w 11 7) (fld w 0 11))
  | _ => .error (.enc 25 op)

/-- The instructions of majors 0x10 to 0x1f. An unassigned F is named whole, from bit 0, also where only a subfield of it fails
(DESIGN CHOICE, log entry 16). -/
def decodePart1 (op : Nat) (w : Word) : Except Illegal Instr :=
  match op with
  | 0x10 =>
    .ok (.movi (fld w 18 7) (fld w 0 11))
  | 0x11 =>
    .ok (.andi (fld w 18 7) (fld w 11 7) (fld w 0 11))
  | 0x12 =>
    .ok (.ori (fld w 18 7) (fld w 11 7) (fld w 0 11))
  | 0x13 =>
    .ok (.xori (fld w 18 7) (fld w 11 7) (fld w 0 11))
  | 0x14 =>
    if fldNat w 9 2 = 0 then .ok (.shli (fld w 18 7) (fld w 11 7) (fld w 0 5))
    else
    if fldNat w 9 2 = 1 then .ok (.shri (fld w 18 7) (fld w 11 7) (fld w 0 5))
    else
    if fldNat w 9 2 = 2 then .ok (.sari (fld w 18 7) (fld w 11 7) (fld w 0 5))
    else
    if fldNat w 9 2 = 3 then .ok (.roli (fld w 18 7) (fld w 11 7) (fld w 0 5))
    else
    .error (.enc 9 (fldNat w 9 2))
  | 0x15 =>
    .ok (.icmppi (.ofCode (fld w 22 3)) (fld w 18 4) (fld w 11 7) (fld w 0 11))
  | 0x16 =>
    .ok (.lea (fldNat w 3 1 == 1) (fld w 0 3) (fld w 18 7) (fld w 11 7) (fld w 4 7))
  | 0x17 =>
    .ok (.leai (fld w 18 7) (fld w 11 7) (fld w 0 11))
  | 0x18 =>
    .ok (.bra (fld w 20 5) (fld w 0 20))
  | 0x19 =>
    .ok (.call (fld w 20 5) (fld w 0 20))
  | 0x1a =>
    if fldNat w 0 4 = 0 then .ok (.jmpi (fld w 11 7))
    else
    if fldNat w 0 4 = 1 then .ok (.calli (fld w 18 7) (fld w 11 7))
    else
    if fldNat w 0 4 = 2 then .ok (.ret (fld w 11 7))
    else
    .error (.enc 0 (fldNat w 0 4))
  | 0x1b =>
    if fldNat w 0 4 = 0 then .ok (.nop)
    else
    if fldNat w 0 4 = 1 then .ok (.land)
    else
    if fldNat w 0 4 = 2 then .ok (.yield)
    else
    if fldNat w 0 4 = 3 then .ok (.exit)
    else
    if fldNat w 0 4 = 4 then .ok (.brk)
    else
    .error (.enc 0 (fldNat w 0 4))
  | 0x1c =>
    if fldNat w 0 1 = 0 then .ok (.join (fld w 9 8))
    else
    .error (.enc 0 (fldNat w 0 1))
  | 0x1d =>
    if fldNat w 10 1 = 0 then .ok (.srd (fld w 18 7) (fld w 0 8))
    else
    if fldNat w 10 1 = 1 then .ok (.swr (fld w 11 7) (fld w 0 8))
    else
    .error (.enc 9 (fldNat w 9 2))
  | 0x1e =>
    if fldNat w 0 4 = 0 then .ok (.resume (fld w 18 7) (fld w 11 7) (fld w 4 7))
    else
    if fldNat w 0 4 = 1 then .ok (.gsave (fld w 18 7) (fld w 4 7))
    else
    if fldNat w 0 4 = 2 then .ok (.gload (fld w 18 7) (fld w 4 7))
    else
    if fldNat w 0 4 = 3 then .ok (.fqpop (fld w 18 7) (fld w 11 7) (fld w 4 7))
    else
    .error (.enc 0 (fldNat w 0 4))
  | 0x1f =>
    .ok (.trap (fld w 0 11))
  | _ => .error (.enc 25 op)

/-- The instructions of majors 0x20 to 0x37. An unassigned F is named whole, from bit 0, also where only a subfield of it fails
(DESIGN CHOICE, log entry 16). -/
def decodePart2 (op : Nat) (w : Word) : Except Illegal Instr :=
  match op with
  | 0x20 =>
    if fldNat w 2 2 = 0 then .ok (.fadd (.ofCode (fld w 0 2)) (fld w 18 7) (fld w 11 7) (fld w 4 7))
    else
    .error (.enc 0 (fldNat w 0 4))
  | 0x21 =>
    if fldNat w 2 2 = 0 then .ok (.fsub (.ofCode (fld w 0 2)) (fld w 18 7) (fld w 11 7) (fld w 4 7))
    else
    .error (.enc 0 (fldNat w 0 4))
  | 0x22 =>
    if fldNat w 2 2 = 0 then .ok (.fmul (.ofCode (fld w 0 2)) (fld w 18 7) (fld w 11 7) (fld w 4 7))
    else
    .error (.enc 0 (fldNat w 0 4))
  | 0x23 =>
    if fldNat w 2 2 = 0 then .ok (.ffma (.ofCode (fld w 0 2)) (fld w 18 7) (fld w 11 7) (fld w 4 7))
    else
    .error (.enc 0 (fldNat w 0 4))
  | 0x24 =>
    if fldNat w 2 2 = 0 then .ok (.fdiv (.ofCode (fld w 0 2)) (fld w 18 7) (fld w 11 7) (fld w 4 7))
    else
    .error (.enc 0 (fldNat w 0 4))
  | 0x25 =>
    if fldNat w 2 2 = 0 then .ok (.fsqrt (.ofCode (fld w 0 2)) (fld w 18 7) (fld w 11 7))
    else
    if fldNat w 2 2 = 1 then .ok (.frcp (.ofCode (fld w 0 2)) (fld w 18 7) (fld w 11 7))
    else
    if fldNat w 2 2 = 2 then .ok (.frsq (.ofCode (fld w 0 2)) (fld w 18 7) (fld w 11 7))
    else
    .error (.enc 0 (fldNat w 0 4))
  | 0x26 =>
    if fldNat w 0 4 = 0 then .ok (.exp2 (fld w 18 7) (fld w 11 7))
    else
    if fldNat w 0 4 = 1 then .ok (.log2 (fld w 18 7) (fld w 11 7))
    else
    if fldNat w 0 4 = 2 then .ok (.sin (fld w 18 7) (fld w 11 7))
    else
    if fldNat w 0 4 = 3 then .ok (.cos (fld w 18 7) (fld w 11 7))
    else
    .error (.enc 0 (fldNat w 0 4))
  | 0x27 =>
    if fldNat w 2 1 = 0 then .ok (.fmin (.ofCode (fld w 0 2)) (fld w 18 7) (fld w 11 7) (fld w 4 7))
    else
    if fldNat w 2 1 = 1 then .ok (.fmax (.ofCode (fld w 0 2)) (fld w 18 7) (fld w 11 7) (fld w 4 7))
    else
    .error (.enc 0 (fldNat w 0 4))
  | 0x28 =>
    .ok (.fcmpp (.ofCode (fld w 0 2)) (.ofCode (fld w 22 3)) (fld w 18 4) (fld w 11 7) (fld w 4 7))
  | 0x29 =>
    if fldNat w 2 2 = 0 then .ok (.fclass (.ofCode (fld w 0 2)) (fld w 18 7) (fld w 11 7))
    else
    .error (.enc 0 (fldNat w 0 4))
  | 0x2a =>
    if fldNat w 2 2 = 0 then .ok (.fabs (.ofCode (fld w 0 2)) (fld w 18 7) (fld w 11 7))
    else
    if fldNat w 2 2 = 1 then .ok (.fneg (.ofCode (fld w 0 2)) (fld w 18 7) (fld w 11 7))
    else
    if fldNat w 2 2 = 2 then .ok (.fcpys (.ofCode (fld w 0 2)) (fld w 18 7) (fld w 11 7) (fld w 4 7))
    else
    .error (.enc 0 (fldNat w 0 4))
  | 0x2b =>
    .ok (.cvtf (.ofCode (fld w 2 2)) (.ofCode (fld w 0 2)) (fld w 18 7) (fld w 11 7))
  | 0x2c =>
    .ok (.cvtfi (.ofCode (fld w 2 2)) (.ofCode (fld w 0 2)) (fld w 18 7) (fld w 11 7))
  | 0x2d =>
    .ok (.cvtif (.ofCode (fld w 2 2)) (.ofCode (fld w 0 2)) (fld w 18 7) (fld w 11 7))
  | 0x2e =>
    if fldNat w 2 2 = 0 then .ok (.fscale (.ofCode (fld w 0 2)) (fld w 18 7) (fld w 11 7) (fld w 4 7))
    else
    .error (.enc 0 (fldNat w 0 4))
  | 0x2f =>
    if fldNat w 2 2 = 0 then .ok (.frnd (.ofCode (fld w 0 2)) (fld w 18 7) (fld w 11 7))
    else
    .error (.enc 0 (fldNat w 0 4))
  | 0x30 =>
    if fldNat w 1 3 = 0 then .ok (.faddx (.ofCode (fld w 0 1)) (fld w 18 7) (fld w 11 7) (fld w 4 7))
    else
    .error (.enc 0 (fldNat w 0 4))
  | 0x31 =>
    if fldNat w 1 3 = 0 then .ok (.fsubx (.ofCode (fld w 0 1)) (fld w 18 7) (fld w 11 7) (fld w 4 7))
    else
    .error (.enc 0 (fldNat w 0 4))
  | 0x32 =>
    if fldNat w 1 3 = 0 then .ok (.fmulx (.ofCode (fld w 0 1)) (fld w 18 7) (fld w 11 7) (fld w 4 7))
    else
    .error (.enc 0 (fldNat w 0 4))
  | 0x33 =>
    if fldNat w 1 1 = 0 then .ok (.dwadd (.ofCode (fld w 0 1)) (fld w 18 7) (fld w 11 7) (fld w 4 7))
    else
    if fldNat w 1 1 = 1 then .ok (.dwsub (.ofCode (fld w 0 1)) (fld w 18 7) (fld w 11 7) (fld w 4 7))
    else
    .error (.enc 0 (fldNat w 0 4))
  | 0x34 =>
    if fldNat w 1 1 = 0 then .ok (.dwmul (.ofCode (fld w 0 1)) (fld w 18 7) (fld w 11 7) (fld w 4 7))
    else
    if fldNat w 1 1 = 1 then .ok (.dwfma (.ofCode (fld w 0 1)) (fld w 18 7) (fld w 11 7) (fld w 4 7))
    else
    .error (.enc 0 (fldNat w 0 4))
  | 0x35 =>
    .ok (.dwnorm (.ofCode (fld w 0 1)) (fld w 18 7) (fld w 11 7))
  | 0x36 =>
    withCode 0 (fldNat w 0 4) (NF.ofCode (fld w 0 4)) fun nf => .ok (.pack nf (fld w 18 7) (fld w 11 7) (fld w 4 7))
  | 0x37 =>
    withCode 0 (fldNat w 0 4) (NF.ofCode (fld w 0 4)) fun nf => .ok (.unpk nf (fld w 18 7) (fld w 11 7) (fld w 4 7))
  | _ => .error (.enc 25 op)

/-- The instructions of majors 0x38 to 0x4f. An unassigned F is named whole, from bit 0, also where only a subfield of it fails
(DESIGN CHOICE, log entry 16). -/
def decodePart3 (op : Nat) (w : Word) : Except Illegal Instr :=
  match op with
  | 0x38 =>
    if fldNat w 0 1 = 0 then .ok (.sadd (fld w 17 8) (fld w 9 8) (fld w 1 8))
    else
    if fldNat w 0 1 = 1 then .ok (.ssub (fld w 17 8) (fld w 9 8) (fld w 1 8))
    else
    .error (.enc 0 (fldNat w 0 1))
  | 0x39 =>
    if fldNat w 0 1 = 0 then .ok (.smul (fld w 17 8) (fld w 9 8) (fld w 1 8))
    else
    if fldNat w 0 1 = 1 then .ok (.smulhi (fld w 17 8) (fld w 9 8) (fld w 1 8))
    else
    .error (.enc 0 (fldNat w 0 1))
  | 0x3a =>
    if fldNat w 0 1 = 0 then .ok (.sand (fld w 17 8) (fld w 9 8) (fld w 1 8))
    else
    if fldNat w 0 1 = 1 then .ok (.sor (fld w 17 8) (fld w 9 8) (fld w 1 8))
    else
    .error (.enc 0 (fldNat w 0 1))
  | 0x3b =>
    if fldNat w 0 1 = 0 then .ok (.sxor (fld w 17 8) (fld w 9 8) (fld w 1 8))
    else
    if fldNat w 0 1 = 1 then .ok (.sandn (fld w 17 8) (fld w 9 8) (fld w 1 8))
    else
    .error (.enc 0 (fldNat w 0 1))
  | 0x3c =>
    if fldNat w 0 1 = 0 then .ok (.sshl (fld w 17 8) (fld w 9 8) (fld w 1 8))
    else
    if fldNat w 0 1 = 1 then .ok (.sshr (fld w 17 8) (fld w 9 8) (fld w 1 8))
    else
    .error (.enc 0 (fldNat w 0 1))
  | 0x3d =>
    if fldNat w 0 1 = 0 then .ok (.smin (fld w 17 8) (fld w 9 8) (fld w 1 8))
    else
    if fldNat w 0 1 = 1 then .ok (.smax (fld w 17 8) (fld w 9 8) (fld w 1 8))
    else
    .error (.enc 0 (fldNat w 0 1))
  | 0x3e =>
    .ok (.saddi (fld w 17 8) (fld w 9 8) (fld w 0 9))
  | 0x3f =>
    .ok (.smovi (fld w 17 8) (fld w 0 9))
  | 0x40 =>
    if fldNat w 0 1 = 0 then .ok (.scmpp (.ofCode (fld w 21 3)) (fld w 17 4) (fld w 9 8) (fld w 1 8))
    else
    .error (.enc 0 (fldNat w 0 1))
  | 0x41 =>
    .ok (.sbrz (fld w 17 8) (fld w 0 9))
  | 0x42 =>
    .ok (.sbrnz (fld w 17 8) (fld w 0 9))
  | 0x43 =>
    withCode 0 (fldNat w 0 3) (Scope.ofCode (fld w 0 3)) fun sc => .ok (.sldI32 (fld w 18 7) (fld w 11 7) (fld w 5 6) (.ofCode (fld w 3 2)) sc)
  | 0x44 =>
    withCode 0 (fldNat w 0 3) (Scope.ofCode (fld w 0 3)) fun sc => .ok (.sldI64 (fld w 18 7) (fld w 11 7) (fld w 5 6) (.ofCode (fld w 3 2)) sc)
  | 0x45 =>
    withCode 0 (fldNat w 0 3) (Scope.ofCode (fld w 0 3)) fun sc => .ok (.sstI32 (fld w 18 7) (fld w 11 7) (fld w 5 6) (.ofCode (fld w 3 2)) sc)
  | 0x46 =>
    withCode 0 (fldNat w 0 3) (Scope.ofCode (fld w 0 3)) fun sc => .ok (.sstI64 (fld w 18 7) (fld w 11 7) (fld w 5 6) (.ofCode (fld w 3 2)) sc)
  | 0x47 =>
    if fldNat w 0 4 = 0 then .ok (.movsv (fld w 18 7) (fld w 11 7))
    else
    if fldNat w 0 4 = 1 then .ok (.movvs (fld w 18 7) (fld w 11 7))
    else
    .error (.enc 0 (fldNat w 0 4))
  | 0x48 =>
    if fldNat w 0 4 = 0 then .ok (.lgetAbs (fld w 18 7) (fld w 11 7) (fld w 4 7))
    else
    if fldNat w 0 4 = 1 then .ok (.lgetBelow (fld w 18 7) (fld w 11 7) (fld w 4 7))
    else
    if fldNat w 0 4 = 2 then .ok (.lgetAbove (fld w 18 7) (fld w 11 7) (fld w 4 7))
    else
    if fldNat w 0 4 = 3 then .ok (.lgetFlip (fld w 18 7) (fld w 11 7) (fld w 4 7))
    else
    .error (.enc 0 (fldNat w 0 4))
  | 0x49 =>
    if fldNat w 0 4 = 0 then .ok (.lany (fld w 18 4) (fld w 11 4))
    else
    if fldNat w 0 4 = 1 then .ok (.lall (fld w 18 4) (fld w 11 4))
    else
    if fldNat w 0 4 = 2 then .ok (.lmask (fld w 18 7) (fld w 11 4))
    else
    if fldNat w 0 4 = 3 then .ok (.llead (fld w 18 4))
    else
    .error (.enc 0 (fldNat w 0 4))
  | 0x4a =>
    if fldNat w 1 3 = 0 then .ok (.redf (.ofCode (fld w 0 1)) (fld w 18 7) (fld w 11 7))
    else
    if fldNat w 1 3 = 1 then .ok (.redx (.ofCode (fld w 0 1)) (fld w 18 7) (fld w 11 7))
    else
    if fldNat w 0 4 = 4 then .ok (.rediAddI32 (fld w 18 7) (fld w 11 7))
    else
    if fldNat w 0 4 = 5 then .ok (.rediMinI32 (fld w 18 7) (fld w 11 7))
    else
    if fldNat w 0 4 = 6 then .ok (.rediMaxI32 (fld w 18 7) (fld w 11 7))
    else
    if fldNat w 0 4 = 7 then .ok (.rediMinN32 (fld w 18 7) (fld w 11 7))
    else
    if fldNat w 0 4 = 8 then .ok (.rediMaxN32 (fld w 18 7) (fld w 11 7))
    else
    if fldNat w 0 4 = 9 then .ok (.rediAnd (fld w 18 7) (fld w 11 7))
    else
    if fldNat w 0 4 = 10 then .ok (.rediOr (fld w 18 7) (fld w 11 7))
    else
    if fldNat w 0 4 = 11 then .ok (.rediXor (fld w 18 7) (fld w 11 7))
    else
    .error (.enc 0 (fldNat w 0 4))
  | 0x4b =>
    if fldNat w 0 4 = 0 then .ok (.scaniAddI32 (fld w 18 7) (fld w 11 7))
    else
    if fldNat w 0 4 = 1 then .ok (.scaniAddI32Excl (fld w 18 7) (fld w 11 7))
    else
    if fldNat w 0 4 = 2 then .ok (.scanfF32 (fld w 18 7) (fld w 11 7))
    else
    if fldNat w 0 4 = 3 then .ok (.scanxF32 (fld w 18 7) (fld w 11 7))
    else
    .error (.enc 0 (fldNat w 0 4))
  | 0x4c =>
    .ok (.regroup (fld w 18 7) (fld w 11 7) (fld w 4 7))
  | 0x4d =>
    if fldNat w 0 4 = 0 then .ok (.randN32 (fld w 18 7))
    else
    if fldNat w 0 4 = 1 then .ok (.randF32 (fld w 18 7))
    else
    if fldNat w 0 4 = 2 then .ok (.randN64 (fld w 18 7))
    else
    .error (.enc 0 (fldNat w 0 4))
  | 0x4e =>
    if fldNat w 5 2 = 0 then .ok (.rdvMark (fld w 17 8) (fld w 9 8) (fld w 7 2))
    else
    if fldNat w 5 2 = 1 then .ok (.rdvHold (fld w 17 8) (fld w 9 8) (fld w 7 2))
    else
    if fldNat w 5 2 = 2 then .ok (.rdvMeet (fld w 17 8) (fld w 9 8) (fld w 7 2))
    else
    if fldNat w 5 2 = 3 then .ok (.rdvPeek (fld w 17 8) (fld w 9 8) (fld w 7 2))
    else
    .error (.enc 0 (fldNat w 0 1))
  | 0x4f =>
    if fldNat w 0 4 = 0 then .ok (.pmovToV (fld w 18 7))
    else
    if fldNat w 0 4 = 1 then .ok (.pmovToP (fld w 11 7))
    else
    .error (.enc 0 (fldNat w 0 4))
  | _ => .error (.enc 25 op)

/-- The instructions of majors 0x50 to 0x5f. An unassigned F is named whole, from bit 0, also where only a subfield of it fails
(DESIGN CHOICE, log entry 16). -/
def decodePart4 (op : Nat) (w : Word) : Except Illegal Instr :=
  match op with
  | 0x50 =>
    withCode 0 (fldNat w 0 3) (Scope.ofCode (fld w 0 3)) fun sc => .ok (.ldI32 (fld w 18 7) (fld w 11 7) (fld w 5 6) (.ofCode (fld w 3 2)) sc)
  | 0x51 =>
    withCode 0 (fldNat w 0 3) (Scope.ofCode (fld w 0 3)) fun sc => .ok (.ldI64 (fld w 18 7) (fld w 11 7) (fld w 5 6) (.ofCode (fld w 3 2)) sc)
  | 0x52 =>
    withCode 0 (fldNat w 0 3) (Scope.ofCode (fld w 0 3)) fun sc => .ok (.stI32 (fld w 18 7) (fld w 11 7) (fld w 5 6) (.ofCode (fld w 3 2)) sc)
  | 0x53 =>
    withCode 0 (fldNat w 0 3) (Scope.ofCode (fld w 0 3)) fun sc => .ok (.stI64 (fld w 18 7) (fld w 11 7) (fld w 5 6) (.ofCode (fld w 3 2)) sc)
  | 0x54 =>
    if fldNat w 0 4 = 0 then .ok (.ldI8 (fld w 18 7) (fld w 11 7) (fld w 4 7))
    else
    if fldNat w 0 4 = 1 then .ok (.ldN8 (fld w 18 7) (fld w 11 7) (fld w 4 7))
    else
    if fldNat w 0 4 = 2 then .ok (.ldI16 (fld w 18 7) (fld w 11 7) (fld w 4 7))
    else
    if fldNat w 0 4 = 3 then .ok (.ldN16 (fld w 18 7) (fld w 11 7) (fld w 4 7))
    else
    if fldNat w 0 4 = 4 then .ok (.ldq (fld w 18 7) (fld w 11 7) (fld w 4 7))
    else
    if fldNat w 0 4 = 5 then .ok (.stI8 (fld w 18 7) (fld w 11 7) (fld w 4 7))
    else
    if fldNat w 0 4 = 6 then .ok (.stI16 (fld w 18 7) (fld w 11 7) (fld w 4 7))
    else
    if fldNat w 0 4 = 7 then .ok (.stq (fld w 18 7) (fld w 11 7) (fld w 4 7))
    else
    if fldNat w 0 4 = 8 then .ok (.dld (fld w 18 7) (fld w 11 7) (fld w 4 7))
    else
    if fldNat w 0 4 = 9 then .ok (.dst (fld w 18 7) (fld w 11 7) (fld w 4 7))
    else
    if fldNat w 0 4 = 10 then .ok (.segq (fld w 18 7) (fld w 11 7) (fld w 4 7))
    else
    if fldNat w 0 4 = 11 then .ok (.segset (fld w 18 7) (fld w 11 7) (fld w 4 7))
    else
    if fldNat w 0 4 = 12 then .ok (.pref (fld w 11 7) (fld w 4 7))
    else
    .error (.enc 0 (fldNat w 0 4))
  | 0x55 =>
    if fldNat w 5 6 = 0 then withCode 0 (fldNat w 0 3) (Scope.ofCode (fld w 0 3)) fun sc => .ok (.atomAddI32 (fld w 18 7) (fld w 11 7) (.ofCode (fld w 3 2)) sc)
    else
    if fldNat w 5 6 = 1 then withCode 0 (fldNat w 0 3) (Scope.ofCode (fld w 0 3)) fun sc => .ok (.atomMinI32 (fld w 18 7) (fld w 11 7) (.ofCode (fld w 3 2)) sc)
    else
    if fldNat w 5 6 = 2 then withCode 0 (fldNat w 0 3) (Scope.ofCode (fld w 0 3)) fun sc => .ok (.atomMaxI32 (fld w 18 7) (fld w 11 7) (.ofCode (fld w 3 2)) sc)
    else
    if fldNat w 5 6 = 3 then withCode 0 (fldNat w 0 3) (Scope.ofCode (fld w 0 3)) fun sc => .ok (.atomMinN32 (fld w 18 7) (fld w 11 7) (.ofCode (fld w 3 2)) sc)
    else
    if fldNat w 5 6 = 4 then withCode 0 (fldNat w 0 3) (Scope.ofCode (fld w 0 3)) fun sc => .ok (.atomMaxN32 (fld w 18 7) (fld w 11 7) (.ofCode (fld w 3 2)) sc)
    else
    if fldNat w 5 6 = 5 then withCode 0 (fldNat w 0 3) (Scope.ofCode (fld w 0 3)) fun sc => .ok (.atomAnd (fld w 18 7) (fld w 11 7) (.ofCode (fld w 3 2)) sc)
    else
    if fldNat w 5 6 = 6 then withCode 0 (fldNat w 0 3) (Scope.ofCode (fld w 0 3)) fun sc => .ok (.atomOr (fld w 18 7) (fld w 11 7) (.ofCode (fld w 3 2)) sc)
    else
    if fldNat w 5 6 = 7 then withCode 0 (fldNat w 0 3) (Scope.ofCode (fld w 0 3)) fun sc => .ok (.atomXor (fld w 18 7) (fld w 11 7) (.ofCode (fld w 3 2)) sc)
    else
    if fldNat w 5 6 = 8 then withCode 0 (fldNat w 0 3) (Scope.ofCode (fld w 0 3)) fun sc => .ok (.atomXchgI32 (fld w 18 7) (fld w 11 7) (.ofCode (fld w 3 2)) sc)
    else
    if fldNat w 5 6 = 9 then withCode 0 (fldNat w 0 3) (Scope.ofCode (fld w 0 3)) fun sc => .ok (.atomCasI32 (fld w 18 7) (fld w 11 7) (.ofCode (fld w 3 2)) sc)
    else
    if fldNat w 5 6 = 10 then withCode 0 (fldNat w 0 3) (Scope.ofCode (fld w 0 3)) fun sc => .ok (.atomAddF32 (fld w 18 7) (fld w 11 7) (.ofCode (fld w 3 2)) sc)
    else
    if fldNat w 5 6 = 16 then withCode 0 (fldNat w 0 3) (Scope.ofCode (fld w 0 3)) fun sc => .ok (.atomAddI64 (fld w 18 7) (fld w 11 7) (.ofCode (fld w 3 2)) sc)
    else
    if fldNat w 5 6 = 17 then withCode 0 (fldNat w 0 3) (Scope.ofCode (fld w 0 3)) fun sc => .ok (.atomXchgI64 (fld w 18 7) (fld w 11 7) (.ofCode (fld w 3 2)) sc)
    else
    if fldNat w 5 6 = 18 then withCode 0 (fldNat w 0 3) (Scope.ofCode (fld w 0 3)) fun sc => .ok (.atomCasI64 (fld w 18 7) (fld w 11 7) (.ofCode (fld w 3 2)) sc)
    else
    .error (.enc 5 (fldNat w 5 6))
  | 0x56 =>
    withCode 0 (fldNat w 0 3) (Scope.ofCode (fld w 0 3)) fun sc => .ok (.fence (.ofCode (fld w 3 2)) sc)
  | 0x57 =>
    .ok (.wait (fld w 16 4) (fld w 12 4) (fld w 8 4) (fld w 4 4) (fld w 0 4))
  | 0x58 =>
    if fldNat w 0 1 = 0 then .ok (.rinst (fld w 17 8) (fld w 9 8) (fld w 1 8))
    else
    if fldNat w 0 1 = 1 then .ok (.rfit (fld w 17 8) (fld w 1 8))
    else
    .error (.enc 0 (fldNat w 0 1))
  | 0x59 =>
    if fldNat w 0 1 = 0 then .ok (.rdem (fld w 17 8) (fld w 1 8))
    else
    if fldNat w 0 1 = 1 then .ok (.rabort (fld w 17 8) (fld w 1 8))
    else
    .error (.enc 0 (fldNat w 0 1))
  | 0x5a =>
    withCode 0 (fldNat w 0 3) (Scope.ofCode (fld w 0 3)) fun sc => .ok (.rldg (fld w 18 7) (fld w 11 7) (.ofCode (fld w 3 2)) sc)
  | 0x5b =>
    if fldNat w 0 1 = 0 then .ok (.rstat (fld w 17 8) (fld w 9 8) (fld w 1 8))
    else
    .error (.enc 0 (fldNat w 0 1))
  | 0x5c =>
    if fldNat w 0 1 = 0 then .ok (.cpy (fld w 17 8) (fld w 9 8) (fld w 1 8))
    else
    if fldNat w 0 1 = 1 then .ok (.cpyt (fld w 17 8) (fld w 9 8) (fld w 1 8))
    else
    .error (.enc 0 (fldNat w 0 1))
  | 0x5d =>
    if fldNat w 0 1 = 0 then .ok (.cvtc (fld w 17 8) (fld w 9 8) (fld w 1 8))
    else
    if fldNat w 0 1 = 1 then .ok (.qnt (fld w 17 8) (fld w 9 8) (fld w 1 8))
    else
    .error (.enc 0 (fldNat w 0 1))
  | 0x5e =>
    if fldNat w 0 1 = 0 then .ok (.rmat (fld w 17 8) (fld w 9 8) (fld w 1 8))
    else
    if fldNat w 0 1 = 1 then .ok (.cpfill (fld w 17 8) (fld w 9 8) (fld w 1 8))
    else
    .error (.enc 0 (fldNat w 0 1))
  | 0x5f =>
    if fldNat w 0 1 = 0 then .ok (.cpst (fld w 17 8) (fld w 1 8))
    else
    if fldNat w 0 1 = 1 then .ok (.cpcan (fld w 17 8) (fld w 9 8))
    else
    .error (.enc 0 (fldNat w 0 1))
  | _ => .error (.enc 25 op)

/-- The instructions of majors 0x60 to 0x6f. An unassigned F is named whole, from bit 0, also where only a subfield of it fails
(DESIGN CHOICE, log entry 16). -/
def decodePart5 (op : Nat) (w : Word) : Except Illegal Instr :=
  match op with
  | 0x60 =>
    .ok (.tld (fld w 1 5) (fld w 18 4) (fld w 6 8))
  | 0x61 =>
    .ok (.tstr (fld w 18 4) (fld w 6 8))
  | 0x62 =>
    if fldNat w 0 1 = 0 then .ok (.mma (fld w 22 3) (fld w 18 4) (fld w 14 4) (fld w 6 8))
    else
    if fldNat w 0 1 = 1 then .ok (.mmaDw (fld w 22 3) (fld w 18 4) (fld w 14 4) (fld w 6 8))
    else
    .error (.enc 0 (fldNat w 0 1))
  | 0x63 =>
    if fldNat w 0 1 = 0 then .ok (.tzero (fld w 1 5) (fld w 18 4))
    else
    if fldNat w 0 1 = 1 then withCode 1 (fldNat w 1 2) (ATag.ofCode (fld w 1 2)) fun tag => .ok (.azero tag (fld w 22 3))
    else
    .error (.enc 0 (fldNat w 0 1))
  | 0x64 =>
    .ok (.amov (fld w 22 3) (fld w 18 3))
  | 0x65 =>
    if fldNat w 0 1 = 0 then withCode 1 (fldNat w 1 2) (ATag.ofCode (fld w 1 2)) fun tag => .ok (.ald tag (fld w 22 3) (fld w 6 8))
    else
    if fldNat w 0 1 = 1 then .ok (.ast (fld w 22 3) (fld w 6 8))
    else
    .error (.enc 0 (fldNat w 0 1))
  | 0x66 =>
    .ok (.asnap (fld w 22 3) (fld w 18 3) (fld w 6 8))
  | 0x67 =>
    .ok (.ttrn (fld w 18 4) (fld w 14 4))
  | 0x68 =>
    if fldNat w 0 1 = 0 then .ok (.gbind (fld w 17 8) (fld w 9 8) (fld w 1 8))
    else
    if fldNat w 0 1 = 1 then .ok (.grebind (fld w 17 8) (fld w 9 8) (fld w 1 8))
    else
    .error (.enc 0 (fldNat w 0 1))
  | 0x69 =>
    if fldNat w 0 1 = 0 then .ok (.gstat (fld w 17 8) (fld w 9 8) (fld w 1 8))
    else
    if fldNat w 0 1 = 1 then .ok (.chstat (fld w 17 8) (fld w 9 8) (fld w 1 8))
    else
    .error (.enc 0 (fldNat w 0 1))
  | 0x6a =>
    if fldNat w 0 1 = 0 then .ok (.fire (fld w 17 4) (fld w 9 8))
    else
    if fldNat w 0 1 = 1 then .ok (.fend (fld w 9 8) (fld w 1 8))
    else
    .error (.enc 0 (fldNat w 0 1))
  | 0x6b =>
    if fldNat w 0 1 = 0 then .ok (.send (fld w 9 8) (fld w 1 8))
    else
    if fldNat w 0 1 = 1 then .ok (.recv (fld w 17 4) (fld w 9 8) (fld w 1 8))
    else
    .error (.enc 0 (fldNat w 0 1))
  | 0x6c =>
    .ok (.seal (fldNat w 0 1 == 1))
  | 0x6d =>
    if fldNat w 0 1 = 0 then .ok (.sealreq (fld w 17 8))
    else
    if fldNat w 0 1 = 1 then .ok (.rvrd (fld w 17 8) (fld w 1 8))
    else
    .error (.enc 0 (fldNat w 0 1))
  | 0x6e =>
    if fldNat w 0 1 = 0 then .ok (.coll (fld w 17 8) (fld w 9 8) (fld w 1 8))
    else
    if fldNat w 0 1 = 1 then .ok (.lease (fld w 17 8) (fld w 1 8))
    else
    .error (.enc 0 (fldNat w 0 1))
  | 0x6f =>
    if fldNat w 0 1 = 0 then .ok (.clarb (fld w 17 8) (fld w 9 8))
    else
    if fldNat w 0 1 = 1 then .ok (.clstat (fld w 17 8) (fld w 1 8))
    else
    .error (.enc 0 (fldNat w 0 1))
  | _ => .error (.enc 25 op)

/-- Reads the fields of a word: which row of the opcode map it is, and its operands (R42 to R46). -/
def decodeFields (w : Word) : Except Illegal Instr :=
  let op := fldNat w 25 7
  if op < 0x10 then decodePart0 op w
  else if op < 0x20 then decodePart1 op w
  else if op < 0x38 then decodePart2 op w
  else if op < 0x50 then decodePart3 op w
  else if op < 0x60 then decodePart4 op w
  else if op < 0x70 then decodePart5 op w
  else if op = 0x78 then .ok (.extPred (fld w 0 25))
  else if op = 0x79 then .ok (.extImm (fld w 0 25))
  else if op = 0x7A then .ok (.extShi (fld w 0 25))
  else if op = 0x7B then .ok (.extHint (fld w 0 25))
  else .error (.enc 25 op)

/-- The reserved fields of an instruction, by low bit and width (R30, R47). Of several that are not 0 the first of this list is the one
that the detail names, which R49 leaves open (DESIGN CHOICE, log entry 16). -/
def reservedFields : Instr → List (Nat × Nat)
  | .extPred _ => [(0, 3)]
  | .extImm _ => []
  | .extShi _ => [(9, 16)]
  | .extHint _ => [(0, 19)]
  | .illegalInstruction _ => []
  | .iadd _ _ _ _ => []
  | .isub _ _ _ _ => []
  | .imul _ _ _ _ => []
  | .imulhi _ _ _ _ => []
  | .imulw _ _ _ _ => []
  | .idiv _ _ _ _ => []
  | .irem _ _ _ _ => []
  | .imin _ _ _ _ => []
  | .imax _ _ _ _ => []
  | .and _ _ _ => []
  | .or _ _ _ => []
  | .xor _ _ _ => []
  | .andn _ _ _ => []
  | .shl _ _ _ _ => []
  | .shr _ _ _ _ => []
  | .sar _ _ _ _ => []
  | .rol _ _ _ _ => []
  | .bfe _ _ _ _ => []
  | .bfi _ _ _ => []
  | .popc _ _ => [(4, 7)]
  | .clz _ _ => [(4, 7)]
  | .ctz _ _ => [(4, 7)]
  | .brev _ _ => [(4, 7)]
  | .icmpp _ _ _ _ _ => [(22, 3)]
  | .pand _ _ _ => [(22, 3), (15, 3), (8, 3)]
  | .por _ _ _ => [(22, 3), (15, 3), (8, 3)]
  | .pxor _ _ _ => [(22, 3), (15, 3), (8, 3)]
  | .pandn _ _ _ => [(22, 3), (15, 3), (8, 3)]
  | .sel _ _ _ _ => []
  | .iaddi _ _ _ => []
  | .movi _ _ => [(11, 7)]
  | .andi _ _ _ => []
  | .ori _ _ _ => []
  | .xori _ _ _ => []
  | .shli _ _ _ => [(5, 4)]
  | .shri _ _ _ => [(5, 4)]
  | .sari _ _ _ => [(5, 4)]
  | .roli _ _ _ => [(5, 4)]
  | .icmppi _ _ _ _ => []
  | .lea _ _ _ _ _ => []
  | .leai _ _ _ => []
  | .bra _ _ => []
  | .call _ _ => []
  | .jmpi _ => [(18, 7), (4, 7)]
  | .calli _ _ => [(4, 7)]
  | .ret _ => [(18, 7), (4, 7)]
  | .nop => [(18, 7), (11, 7), (4, 7)]
  | .land => [(18, 7), (11, 7), (4, 7)]
  | .yield => [(18, 7), (11, 7), (4, 7)]
  | .exit => [(18, 7), (11, 7), (4, 7)]
  | .brk => [(18, 7), (11, 7), (4, 7)]
  | .join _ => [(17, 8), (1, 8)]
  | .srd _ _ => [(8, 2), (11, 7)]
  | .swr _ _ => [(8, 2), (18, 7)]
  | .resume _ _ _ => []
  | .gsave _ _ => [(11, 7)]
  | .gload _ _ => [(11, 7)]
  | .fqpop _ _ _ => []
  | .trap _ => [(18, 7), (11, 7)]
  | .fadd _ _ _ _ => []
  | .fsub _ _ _ _ => []
  | .fmul _ _ _ _ => []
  | .ffma _ _ _ _ => []
  | .fdiv _ _ _ _ => []
  | .fsqrt _ _ _ => [(4, 7)]
  | .frcp _ _ _ => [(4, 7)]
  | .frsq _ _ _ => [(4, 7)]
  | .exp2 _ _ => [(4, 7)]
  | .log2 _ _ => [(4, 7)]
  | .sin _ _ => [(4, 7)]
  | .cos _ _ => [(4, 7)]
  | .fmin _ _ _ _ => [(3, 1)]
  | .fmax _ _ _ _ => [(3, 1)]
  | .fcmpp _ _ _ _ _ => [(2, 2)]
  | .fclass _ _ _ => [(4, 7)]
  | .fabs _ _ _ => [(4, 7)]
  | .fneg _ _ _ => [(4, 7)]
  | .fcpys _ _ _ _ => []
  | .cvtf _ _ _ _ => [(4, 7)]
  | .cvtfi _ _ _ _ => [(4, 7)]
  | .cvtif _ _ _ _ => [(4, 7)]
  | .fscale _ _ _ _ => []
  | .frnd _ _ _ => [(4, 7)]
  | .faddx _ _ _ _ => []
  | .fsubx _ _ _ _ => []
  | .fmulx _ _ _ _ => []
  | .dwadd _ _ _ _ => [(2, 2)]
  | .dwsub _ _ _ _ => [(2, 2)]
  | .dwmul _ _ _ _ => [(2, 2)]
  | .dwfma _ _ _ _ => [(2, 2)]
  | .dwnorm _ _ _ => [(1, 3), (4, 7)]
  | .pack _ _ _ _ => []
  | .unpk _ _ _ _ => []
  | .sadd _ _ _ => []
  | .ssub _ _ _ => []
  | .smul _ _ _ => []
  | .smulhi _ _ _ => []
  | .sand _ _ _ => []
  | .sor _ _ _ => []
  | .sxor _ _ _ => []
  | .sandn _ _ _ => []
  | .sshl _ _ _ => []
  | .sshr _ _ _ => []
  | .smin _ _ _ => []
  | .smax _ _ _ => []
  | .saddi _ _ _ => []
  | .smovi _ _ => [(9, 8)]
  | .scmpp _ _ _ _ => [(24, 1)]
  | .sbrz _ _ => [(9, 8)]
  | .sbrnz _ _ => [(9, 8)]
  | .sldI32 _ _ _ _ _ => []
  | .sldI64 _ _ _ _ _ => []
  | .sstI32 _ _ _ _ _ => []
  | .sstI64 _ _ _ _ _ => []
  | .movsv _ _ => [(4, 7)]
  | .movvs _ _ => [(4, 7)]
  | .lgetAbs _ _ _ => []
  | .lgetBelow _ _ _ => []
  | .lgetAbove _ _ _ => []
  | .lgetFlip _ _ _ => []
  | .lany _ _ => [(22, 3), (15, 3), (4, 7)]
  | .lall _ _ => [(22, 3), (15, 3), (4, 7)]
  | .lmask _ _ => [(15, 3), (4, 7)]
  | .llead _ => [(22, 3), (11, 7), (4, 7)]
  | .redf _ _ _ => [(4, 7)]
  | .redx _ _ _ => [(4, 7)]
  | .rediAddI32 _ _ => [(4, 7)]
  | .rediMinI32 _ _ => [(4, 7)]
  | .rediMaxI32 _ _ => [(4, 7)]
  | .rediMinN32 _ _ => [(4, 7)]
  | .rediMaxN32 _ _ => [(4, 7)]
  | .rediAnd _ _ => [(4, 7)]
  | .rediOr _ _ => [(4, 7)]
  | .rediXor _ _ => [(4, 7)]
  | .scaniAddI32 _ _ => [(4, 7)]
  | .scaniAddI32Excl _ _ => [(4, 7)]
  | .scanfF32 _ _ => [(4, 7)]
  | .scanxF32 _ _ => [(4, 7)]
  | .regroup _ _ _ => [(0, 4)]
  | .randN32 _ => [(11, 7), (4, 7)]
  | .randF32 _ => [(11, 7), (4, 7)]
  | .randN64 _ => [(11, 7), (4, 7)]
  | .rdvMark _ _ _ => [(0, 5)]
  | .rdvHold _ _ _ => [(0, 5)]
  | .rdvMeet _ _ _ => [(0, 5)]
  | .rdvPeek _ _ _ => [(0, 5)]
  | .pmovToV _ => [(11, 7), (4, 7)]
  | .pmovToP _ => [(18, 7), (4, 7)]
  | .ldI32 _ _ _ _ _ => []
  | .ldI64 _ _ _ _ _ => []
  | .stI32 _ _ _ _ _ => []
  | .stI64 _ _ _ _ _ => []
  | .ldI8 _ _ _ => []
  | .ldN8 _ _ _ => []
  | .ldI16 _ _ _ => []
  | .ldN16 _ _ _ => []
  | .ldq _ _ _ => []
  | .stI8 _ _ _ => []
  | .stI16 _ _ _ => []
  | .stq _ _ _ => []
  | .dld _ _ _ => []
  | .dst _ _ _ => []
  | .segq _ _ _ => []
  | .segset _ _ _ => []
  | .pref _ _ => [(18, 7)]
  | .atomAddI32 _ _ _ _ => []
  | .atomMinI32 _ _ _ _ => []
  | .atomMaxI32 _ _ _ _ => []
  | .atomMinN32 _ _ _ _ => []
  | .atomMaxN32 _ _ _ _ => []
  | .atomAnd _ _ _ _ => []
  | .atomOr _ _ _ _ => []
  | .atomXor _ _ _ _ => []
  | .atomXchgI32 _ _ _ _ => []
  | .atomCasI32 _ _ _ _ => []
  | .atomAddF32 _ _ _ _ => []
  | .atomAddI64 _ _ _ _ => []
  | .atomXchgI64 _ _ _ _ => []
  | .atomCasI64 _ _ _ _ => []
  | .fence _ _ => [(18, 7), (11, 7), (5, 6)]
  | .wait _ _ _ _ _ => [(20, 5)]
  | .rinst _ _ _ => []
  | .rfit _ _ => [(9, 8)]
  | .rdem _ _ => [(9, 8)]
  | .rabort _ _ => [(9, 8)]
  | .rldg _ _ _ _ => [(5, 6)]
  | .rstat _ _ _ => []
  | .cpy _ _ _ => []
  | .cpyt _ _ _ => []
  | .cvtc _ _ _ => []
  | .qnt _ _ _ => []
  | .rmat _ _ _ => []
  | .cpfill _ _ _ => []
  | .cpst _ _ => [(9, 8)]
  | .cpcan _ _ => [(1, 8)]
  | .tld _ _ _ => [(0, 1), (22, 3), (14, 4)]
  | .tstr _ _ => [(0, 6), (22, 3), (14, 4)]
  | .mma _ _ _ _ => [(1, 5)]
  | .mmaDw _ _ _ _ => [(1, 5)]
  | .tzero _ _ => [(22, 3), (14, 4), (6, 8)]
  | .azero _ _ => [(3, 3), (18, 4), (14, 4), (6, 8)]
  | .amov _ _ => [(0, 6), (21, 1), (14, 4), (6, 8)]
  | .ald _ _ _ => [(3, 3), (18, 4), (14, 4)]
  | .ast _ _ => [(1, 5), (18, 4), (14, 4)]
  | .asnap _ _ _ => [(0, 6), (21, 1), (14, 4)]
  | .ttrn _ _ => [(0, 6), (22, 3), (6, 8)]
  | .gbind _ _ _ => []
  | .grebind _ _ _ => []
  | .gstat _ _ _ => []
  | .chstat _ _ _ => []
  | .fire _ _ => [(21, 4), (1, 8)]
  | .fend _ _ => [(17, 8)]
  | .send _ _ => [(17, 8)]
  | .recv _ _ _ => [(21, 4)]
  | .seal _ => [(17, 8), (9, 8), (1, 8)]
  | .sealreq _ => [(9, 8), (1, 8)]
  | .rvrd _ _ => [(9, 8)]
  | .coll _ _ _ => []
  | .lease _ _ => [(9, 8)]
  | .clarb _ _ => [(1, 8)]
  | .clstat _ _ => [(9, 8)]
  | .loadValueReturn _ _ => []
  | .storePerformed _ _ => []
  | .eligibilityPromotion _ => []
  | .copyCompletion _ => []
  | .copyHalt _ _ => []
  | .mmaCompletion _ => []
  | .springOperationArrival _ _ => []
  | .installEnd _ => []
  | .refitCommit _ => []
  | .demotionEnd _ => []
  | .regionOperationCompletion _ => []
  | .bind _ _ => []
  | .rebind _ _ => []
  | .collReadyPassed _ _ => []
  | .collectiveCompletion _ _ => []
  | .leaseCompletion _ => []
  | .faultQueueEntryWrite _ => []
  | .recordWrite => []
  | .contextSave _ => []
  | .watchdog _ => []
  | .stallLimit => []
  | .sealPeriod => []
  | .sealTrigger => []
  | .prepare _ => []
  | .ready => []
  | .sealTimeout => []
  | .abort _ => []
  | .commit _ => []
  | .rintagAgeing => []
  | .uncorrectableMemoryError _ => []
  | .correctableError _ => []
  | .fabricPortError _ _ => []
  | .noRoute _ => []
  | .peerAccessArrival _ => []
  | .leaseNotice _ _ _ => []
  | .leaseDeadline _ _ => []
  | .hostCxlMemAccess _ _ => []
  | .itailWrite _ _ => []
  | .ictlWrite _ _ => []
  | .ibaseWrite _ _ => []
  | .launchTake _ => []
  | .teamPlacement _ _ => []
  | .launchCompletion _ => []
  | .create => []
  | .destroy => []
  | .preempt => []
  | .restore _ => []
  | .inval => []
  | .retire => []
  | .cmdFqpop => []
  | .cmdLeaseGrant => []
  | .cmdLeaseRevoke => []
  | .cmdLeaseRegister => []
  | .domain _ => []
  | .rqctlWrite _ => []
  | .rqheadWrite _ => []
  | .rstctl _ => []
  | .powerOn => []
  | .linkReset => []
  | .hexwd => []
  | .thermalTrip _ => []
  | .voltageFault _ => []
  | .suppliesStable => []
  | .calibrationDone => []
  | .firmwareVerified _ _ => []
  | .bootctlStart _ => []
  | .initDone => []
  | .monitorUpdate _ => []
  | .throttleStep _ => []
  | .powerCapStep _ => []
  | .attctlRequest _ => []
  | .attestationComplete _ => []
  | .registerWrite _ _ _ => []
  | .hostLinkRetrained => []
  | .routeRegained _ => []
  | .leaseReleaseAtLender _ _ => []
  | .undefinedCommand _ => []

/-- The first reserved field of the list that is not 0 in the word. -/
def reservedBad (w : Word) : List (Nat × Nat) → Option (Nat × Nat)
  | [] => none
  | (lo, n) :: r => if fldNat w lo n = 0 then reservedBad w r else some (lo, fldNat w lo n)

/-- The instruction that a word encodes, or why it encodes none. -/
def decode (w : Word) : Except Illegal Instr :=
  match decodeFields w with
  | .error e => .error e
  | .ok i =>
    match badField i with
    | some (lo, v) => .error (.enc lo v)
    | none =>
      match reservedBad w (reservedFields i) with
      | some (lo, v) => .error (.reserved i lo v)
      | none => .ok i

/-- What a fetched word executes as: the instruction it encodes, or the illegal word (R47). What is wrong with an extension word
is raised at its consumer (R48). -/
def fetched (w : Word) : Instr :=
  match decode w with
  | .ok i => i
  | .error _ =>
    if 0x78 ≤ fldNat w 25 7 ∧ fldNat w 25 7 ≤ 0x7B then
      match decodeFields w with
      | .ok i => i
      | .error _ => .illegalInstruction w
    else .illegalInstruction w

/-- The word of an instruction as a number; events and illegal words have no encoding. -/
def encodeNat : Instr → Option Nat
  | .extPred p => some (120 * 33554432 + p.toNat)
  | .extImm p => some (121 * 33554432 + p.toNat)
  | .extShi p => some (122 * 33554432 + p.toNat)
  | .extHint p => some (123 * 33554432 + p.toNat)
  | .illegalInstruction _ => none
  | .iadd iw d a b => some (0x00 * 33554432 + iw.code.toNat + d.toNat * 262144 + a.toNat * 2048 + b.toNat * 16)
  | .isub iw d a b => some (0x01 * 33554432 + iw.code.toNat + d.toNat * 262144 + a.toNat * 2048 + b.toNat * 16)
  | .imul iw d a b => some (0x02 * 33554432 + iw.code.toNat + d.toNat * 262144 + a.toNat * 2048 + b.toNat * 16)
  | .imulhi n d a b => some (0x03 * 33554432 + n.toNat + d.toNat * 262144 + a.toNat * 2048 + b.toNat * 16)
  | .imulw n d a b => some (0x03 * 33554432 + n.toNat + d.toNat * 262144 + a.toNat * 2048 + b.toNat * 16 + 2)
  | .idiv iw d a b => some (0x04 * 33554432 + iw.code.toNat + d.toNat * 262144 + a.toNat * 2048 + b.toNat * 16)
  | .irem iw d a b => some (0x05 * 33554432 + iw.code.toNat + d.toNat * 262144 + a.toNat * 2048 + b.toNat * 16)
  | .imin iw d a b => some (0x06 * 33554432 + iw.code.toNat + d.toNat * 262144 + a.toNat * 2048 + b.toNat * 16)
  | .imax iw d a b => some (0x07 * 33554432 + iw.code.toNat + d.toNat * 262144 + a.toNat * 2048 + b.toNat * 16)
  | .and d a b => some (0x08 * 33554432 + d.toNat * 262144 + a.toNat * 2048 + b.toNat * 16)
  | .or d a b => some (0x08 * 33554432 + d.toNat * 262144 + a.toNat * 2048 + b.toNat * 16 + 1)
  | .xor d a b => some (0x08 * 33554432 + d.toNat * 262144 + a.toNat * 2048 + b.toNat * 16 + 2)
  | .andn d a b => some (0x08 * 33554432 + d.toNat * 262144 + a.toNat * 2048 + b.toNat * 16 + 3)
  | .shl wide d a b => some (0x09 * 33554432 + wide.toNat * 4 + d.toNat * 262144 + a.toNat * 2048 + b.toNat * 16)
  | .shr wide d a b => some (0x09 * 33554432 + wide.toNat * 4 + d.toNat * 262144 + a.toNat * 2048 + b.toNat * 16 + 1)
  | .sar wide d a b => some (0x09 * 33554432 + wide.toNat * 4 + d.toNat * 262144 + a.toNat * 2048 + b.toNat * 16 + 2)
  | .rol wide d a b => some (0x09 * 33554432 + wide.toNat * 4 + d.toNat * 262144 + a.toNat * 2048 + b.toNat * 16 + 3)
  | .bfe n d a b => some (0x0a * 33554432 + n.toNat + d.toNat * 262144 + a.toNat * 2048 + b.toNat * 16)
  | .bfi d a b => some (0x0a * 33554432 + d.toNat * 262144 + a.toNat * 2048 + b.toNat * 16 + 2)
  | .popc d a => some (0x0b * 33554432 + d.toNat * 262144 + a.toNat * 2048)
  | .clz d a => some (0x0b * 33554432 + d.toNat * 262144 + a.toNat * 2048 + 1)
  | .ctz d a => some (0x0b * 33554432 + d.toNat * 262144 + a.toNat * 2048 + 2)
  | .brev d a => some (0x0b * 33554432 + d.toNat * 262144 + a.toNat * 2048 + 3)
  | .icmpp wide cmp pd a b => some (0x0c * 33554432 + wide.toNat * 8 + cmp.code.toNat + pd.toNat * 262144 + a.toNat * 2048 + b.toNat * 16)
  | .pand pd pa pb => some (0x0d * 33554432 + pd.toNat * 262144 + pa.toNat * 2048 + pb.toNat * 16)
  | .por pd pa pb => some (0x0d * 33554432 + pd.toNat * 262144 + pa.toNat * 2048 + pb.toNat * 16 + 1)
  | .pxor pd pa pb => some (0x0d * 33554432 + pd.toNat * 262144 + pa.toNat * 2048 + pb.toNat * 16 + 2)
  | .pandn pd pa pb => some (0x0d * 33554432 + pd.toNat * 262144 + pa.toNat * 2048 + pb.toNat * 16 + 3)
  | .sel ps d a b => some (0x0e * 33554432 + ps.toNat + d.toNat * 262144 + a.toNat * 2048 + b.toNat * 16)
  | .iaddi d a imm => some (0x0f * 33554432 + d.toNat * 262144 + a.toNat * 2048 + imm.toNat)
  | .movi d imm => some (0x10 * 33554432 + d.toNat * 262144 + imm.toNat)
  | .andi d a imm => some (0x11 * 33554432 + d.toNat * 262144 + a.toNat * 2048 + imm.toNat)
  | .ori d a imm => some (0x12 * 33554432 + d.toNat * 262144 + a.toNat * 2048 + imm.toNat)
  | .xori d a imm => some (0x13 * 33554432 + d.toNat * 262144 + a.toNat * 2048 + imm.toNat)
  | .shli d a cnt => some (0x14 * 33554432 + d.toNat * 262144 + a.toNat * 2048 + cnt.toNat)
  | .shri d a cnt => some (0x14 * 33554432 + d.toNat * 262144 + a.toNat * 2048 + cnt.toNat + 512)
  | .sari d a cnt => some (0x14 * 33554432 + d.toNat * 262144 + a.toNat * 2048 + cnt.toNat + 1024)
  | .roli d a cnt => some (0x14 * 33554432 + d.toNat * 262144 + a.toNat * 2048 + cnt.toNat + 1536)
  | .icmppi cmp pd a imm => some (0x15 * 33554432 + cmp.code.toNat * 4194304 + pd.toNat * 262144 + a.toNat * 2048 + imm.toNat)
  | .lea sx sh d a b => some (0x16 * 33554432 + sx.toNat * 8 + sh.toNat + d.toNat * 262144 + a.toNat * 2048 + b.toNat * 16)
  | .leai d a imm => some (0x17 * 33554432 + d.toNat * 262144 + a.toNat * 2048 + imm.toNat)
  | .bra g off => some (0x18 * 33554432 + g.toNat * 1048576 + off.toNat)
  | .call g off => some (0x19 * 33554432 + g.toNat * 1048576 + off.toNat)
  | .jmpi a => some (0x1a * 33554432 + a.toNat * 2048)
  | .calli d a => some (0x1a * 33554432 + d.toNat * 262144 + a.toNat * 2048 + 1)
  | .ret a => some (0x1a * 33554432 + a.toNat * 2048 + 2)
  | .nop => some (0x1b * 33554432)
  | .land => some (0x1b * 33554432 + 1)
  | .yield => some (0x1b * 33554432 + 2)
  | .exit => some (0x1b * 33554432 + 3)
  | .brk => some (0x1b * 33554432 + 4)
  | .join a => some (0x1c * 33554432 + a.toNat * 512)
  | .srd d idx => some (0x1d * 33554432 + d.toNat * 262144 + idx.toNat)
  | .swr a idx => some (0x1d * 33554432 + a.toNat * 2048 + idx.toNat + 1024)
  | .resume d a b => some (0x1e * 33554432 + d.toNat * 262144 + a.toNat * 2048 + b.toNat * 16)
  | .gsave d b => some (0x1e * 33554432 + d.toNat * 262144 + b.toNat * 16 + 1)
  | .gload d b => some (0x1e * 33554432 + d.toNat * 262144 + b.toNat * 16 + 2)
  | .fqpop d a b => some (0x1e * 33554432 + d.toNat * 262144 + a.toNat * 2048 + b.toNat * 16 + 3)
  | .trap imm => some (0x1f * 33554432 + imm.toNat)
  | .fadd ft d a b => some (0x20 * 33554432 + ft.code.toNat + d.toNat * 262144 + a.toNat * 2048 + b.toNat * 16)
  | .fsub ft d a b => some (0x21 * 33554432 + ft.code.toNat + d.toNat * 262144 + a.toNat * 2048 + b.toNat * 16)
  | .fmul ft d a b => some (0x22 * 33554432 + ft.code.toNat + d.toNat * 262144 + a.toNat * 2048 + b.toNat * 16)
  | .ffma ft d a b => some (0x23 * 33554432 + ft.code.toNat + d.toNat * 262144 + a.toNat * 2048 + b.toNat * 16)
  | .fdiv ft d a b => some (0x24 * 33554432 + ft.code.toNat + d.toNat * 262144 + a.toNat * 2048 + b.toNat * 16)
  | .fsqrt ft d a => some (0x25 * 33554432 + ft.code.toNat + d.toNat * 262144 + a.toNat * 2048)
  | .frcp ft d a => some (0x25 * 33554432 + ft.code.toNat + d.toNat * 262144 + a.toNat * 2048 + 4)
  | .frsq ft d a => some (0x25 * 33554432 + ft.code.toNat + d.toNat * 262144 + a.toNat * 2048 + 8)
  | .exp2 d a => some (0x26 * 33554432 + d.toNat * 262144 + a.toNat * 2048)
  | .log2 d a => some (0x26 * 33554432 + d.toNat * 262144 + a.toNat * 2048 + 1)
  | .sin d a => some (0x26 * 33554432 + d.toNat * 262144 + a.toNat * 2048 + 2)
  | .cos d a => some (0x26 * 33554432 + d.toNat * 262144 + a.toNat * 2048 + 3)
  | .fmin ft d a b => some (0x27 * 33554432 + ft.code.toNat + d.toNat * 262144 + a.toNat * 2048 + b.toNat * 16)
  | .fmax ft d a b => some (0x27 * 33554432 + ft.code.toNat + d.toNat * 262144 + a.toNat * 2048 + b.toNat * 16 + 4)
  | .fcmpp ft cmp pd a b => some (0x28 * 33554432 + ft.code.toNat + cmp.code.toNat * 4194304 + pd.toNat * 262144 + a.toNat * 2048 + b.toNat * 16)
  | .fclass ft d a => some (0x29 * 33554432 + ft.code.toNat + d.toNat * 262144 + a.toNat * 2048)
  | .fabs ft d a => some (0x2a * 33554432 + ft.code.toNat + d.toNat * 262144 + a.toNat * 2048)
  | .fneg ft d a => some (0x2a * 33554432 + ft.code.toNat + d.toNat * 262144 + a.toNat * 2048 + 4)
  | .fcpys ft d a b => some (0x2a * 33554432 + ft.code.toNat + d.toNat * 262144 + a.toNat * 2048 + b.toNat * 16 + 8)
  | .cvtf src dst d a => some (0x2b * 33554432 + src.code.toNat * 4 + dst.code.toNat + d.toNat * 262144 + a.toNat * 2048)
  | .cvtfi src dst d a => some (0x2c * 33554432 + src.code.toNat * 4 + dst.code.toNat + d.toNat * 262144 + a.toNat * 2048)
  | .cvtif src dst d a => some (0x2d * 33554432 + src.code.toNat * 4 + dst.code.toNat + d.toNat * 262144 + a.toNat * 2048)
  | .fscale ft d a b => some (0x2e * 33554432 + ft.code.toNat + d.toNat * 262144 + a.toNat * 2048 + b.toNat * 16)
  | .frnd ft d a => some (0x2f * 33554432 + ft.code.toNat + d.toNat * 262144 + a.toNat * 2048)
  | .faddx fw d a b => some (0x30 * 33554432 + fw.code.toNat + d.toNat * 262144 + a.toNat * 2048 + b.toNat * 16)
  | .fsubx fw d a b => some (0x31 * 33554432 + fw.code.toNat + d.toNat * 262144 + a.toNat * 2048 + b.toNat * 16)
  | .fmulx fw d a b => some (0x32 * 33554432 + fw.code.toNat + d.toNat * 262144 + a.toNat * 2048 + b.toNat * 16)
  | .dwadd fw d a b => some (0x33 * 33554432 + fw.code.toNat + d.toNat * 262144 + a.toNat * 2048 + b.toNat * 16)
  | .dwsub fw d a b => some (0x33 * 33554432 + fw.code.toNat + d.toNat * 262144 + a.toNat * 2048 + b.toNat * 16 + 2)
  | .dwmul fw d a b => some (0x34 * 33554432 + fw.code.toNat + d.toNat * 262144 + a.toNat * 2048 + b.toNat * 16)
  | .dwfma fw d a b => some (0x34 * 33554432 + fw.code.toNat + d.toNat * 262144 + a.toNat * 2048 + b.toNat * 16 + 2)
  | .dwnorm fw d a => some (0x35 * 33554432 + fw.code.toNat + d.toNat * 262144 + a.toNat * 2048)
  | .pack nf d a b => some (0x36 * 33554432 + nf.code.toNat + d.toNat * 262144 + a.toNat * 2048 + b.toNat * 16)
  | .unpk nf d a b => some (0x37 * 33554432 + nf.code.toNat + d.toNat * 262144 + a.toNat * 2048 + b.toNat * 16)
  | .sadd d a b => some (0x38 * 33554432 + d.toNat * 131072 + a.toNat * 512 + b.toNat * 2)
  | .ssub d a b => some (0x38 * 33554432 + d.toNat * 131072 + a.toNat * 512 + b.toNat * 2 + 1)
  | .smul d a b => some (0x39 * 33554432 + d.toNat * 131072 + a.toNat * 512 + b.toNat * 2)
  | .smulhi d a b => some (0x39 * 33554432 + d.toNat * 131072 + a.toNat * 512 + b.toNat * 2 + 1)
  | .sand d a b => some (0x3a * 33554432 + d.toNat * 131072 + a.toNat * 512 + b.toNat * 2)
  | .sor d a b => some (0x3a * 33554432 + d.toNat * 131072 + a.toNat * 512 + b.toNat * 2 + 1)
  | .sxor d a b => some (0x3b * 33554432 + d.toNat * 131072 + a.toNat * 512 + b.toNat * 2)
  | .sandn d a b => some (0x3b * 33554432 + d.toNat * 131072 + a.toNat * 512 + b.toNat * 2 + 1)
  | .sshl d a b => some (0x3c * 33554432 + d.toNat * 131072 + a.toNat * 512 + b.toNat * 2)
  | .sshr d a b => some (0x3c * 33554432 + d.toNat * 131072 + a.toNat * 512 + b.toNat * 2 + 1)
  | .smin d a b => some (0x3d * 33554432 + d.toNat * 131072 + a.toNat * 512 + b.toNat * 2)
  | .smax d a b => some (0x3d * 33554432 + d.toNat * 131072 + a.toNat * 512 + b.toNat * 2 + 1)
  | .saddi d a imm => some (0x3e * 33554432 + d.toNat * 131072 + a.toNat * 512 + imm.toNat)
  | .smovi d imm => some (0x3f * 33554432 + d.toNat * 131072 + imm.toNat)
  | .scmpp cmp pd a b => some (0x40 * 33554432 + cmp.code.toNat * 2097152 + pd.toNat * 131072 + a.toNat * 512 + b.toNat * 2)
  | .sbrz d imm => some (0x41 * 33554432 + d.toNat * 131072 + imm.toNat)
  | .sbrnz d imm => some (0x42 * 33554432 + d.toNat * 131072 + imm.toNat)
  | .sldI32 d a off ord sc => some (0x43 * 33554432 + d.toNat * 262144 + a.toNat * 2048 + off.toNat * 32 + ord.code.toNat * 8 + sc.code.toNat)
  | .sldI64 d a off ord sc => some (0x44 * 33554432 + d.toNat * 262144 + a.toNat * 2048 + off.toNat * 32 + ord.code.toNat * 8 + sc.code.toNat)
  | .sstI32 d a off ord sc => some (0x45 * 33554432 + d.toNat * 262144 + a.toNat * 2048 + off.toNat * 32 + ord.code.toNat * 8 + sc.code.toNat)
  | .sstI64 d a off ord sc => some (0x46 * 33554432 + d.toNat * 262144 + a.toNat * 2048 + off.toNat * 32 + ord.code.toNat * 8 + sc.code.toNat)
  | .movsv d a => some (0x47 * 33554432 + d.toNat * 262144 + a.toNat * 2048)
  | .movvs d a => some (0x47 * 33554432 + d.toNat * 262144 + a.toNat * 2048 + 1)
  | .lgetAbs d a b => some (0x48 * 33554432 + d.toNat * 262144 + a.toNat * 2048 + b.toNat * 16)
  | .lgetBelow d a b => some (0x48 * 33554432 + d.toNat * 262144 + a.toNat * 2048 + b.toNat * 16 + 1)
  | .lgetAbove d a b => some (0x48 * 33554432 + d.toNat * 262144 + a.toNat * 2048 + b.toNat * 16 + 2)
  | .lgetFlip d a b => some (0x48 * 33554432 + d.toNat * 262144 + a.toNat * 2048 + b.toNat * 16 + 3)
  | .lany pd ps => some (0x49 * 33554432 + pd.toNat * 262144 + ps.toNat * 2048)
  | .lall pd ps => some (0x49 * 33554432 + pd.toNat * 262144 + ps.toNat * 2048 + 1)
  | .lmask d ps => some (0x49 * 33554432 + d.toNat * 262144 + ps.toNat * 2048 + 2)
  | .llead pd => some (0x49 * 33554432 + pd.toNat * 262144 + 3)
  | .redf fw d a => some (0x4a * 33554432 + fw.code.toNat + d.toNat * 262144 + a.toNat * 2048)
  | .redx fw d a => some (0x4a * 33554432 + fw.code.toNat + d.toNat * 262144 + a.toNat * 2048 + 2)
  | .rediAddI32 d a => some (0x4a * 33554432 + d.toNat * 262144 + a.toNat * 2048 + 4)
  | .rediMinI32 d a => some (0x4a * 33554432 + d.toNat * 262144 + a.toNat * 2048 + 5)
  | .rediMaxI32 d a => some (0x4a * 33554432 + d.toNat * 262144 + a.toNat * 2048 + 6)
  | .rediMinN32 d a => some (0x4a * 33554432 + d.toNat * 262144 + a.toNat * 2048 + 7)
  | .rediMaxN32 d a => some (0x4a * 33554432 + d.toNat * 262144 + a.toNat * 2048 + 8)
  | .rediAnd d a => some (0x4a * 33554432 + d.toNat * 262144 + a.toNat * 2048 + 9)
  | .rediOr d a => some (0x4a * 33554432 + d.toNat * 262144 + a.toNat * 2048 + 10)
  | .rediXor d a => some (0x4a * 33554432 + d.toNat * 262144 + a.toNat * 2048 + 11)
  | .scaniAddI32 d a => some (0x4b * 33554432 + d.toNat * 262144 + a.toNat * 2048)
  | .scaniAddI32Excl d a => some (0x4b * 33554432 + d.toNat * 262144 + a.toNat * 2048 + 1)
  | .scanfF32 d a => some (0x4b * 33554432 + d.toNat * 262144 + a.toNat * 2048 + 2)
  | .scanxF32 d a => some (0x4b * 33554432 + d.toNat * 262144 + a.toNat * 2048 + 3)
  | .regroup d a b => some (0x4c * 33554432 + d.toNat * 262144 + a.toNat * 2048 + b.toNat * 16)
  | .randN32 d => some (0x4d * 33554432 + d.toNat * 262144)
  | .randF32 d => some (0x4d * 33554432 + d.toNat * 262144 + 1)
  | .randN64 d => some (0x4d * 33554432 + d.toNat * 262144 + 2)
  | .rdvMark d bar lvl => some (0x4e * 33554432 + d.toNat * 131072 + bar.toNat * 512 + lvl.toNat * 128)
  | .rdvHold d bar lvl => some (0x4e * 33554432 + d.toNat * 131072 + bar.toNat * 512 + lvl.toNat * 128 + 32)
  | .rdvMeet d bar lvl => some (0x4e * 33554432 + d.toNat * 131072 + bar.toNat * 512 + lvl.toNat * 128 + 64)
  | .rdvPeek d bar lvl => some (0x4e * 33554432 + d.toNat * 131072 + bar.toNat * 512 + lvl.toNat * 128 + 96)
  | .pmovToV d => some (0x4f * 33554432 + d.toNat * 262144)
  | .pmovToP a => some (0x4f * 33554432 + a.toNat * 2048 + 1)
  | .ldI32 d a off ord sc => some (0x50 * 33554432 + d.toNat * 262144 + a.toNat * 2048 + off.toNat * 32 + ord.code.toNat * 8 + sc.code.toNat)
  | .ldI64 d a off ord sc => some (0x51 * 33554432 + d.toNat * 262144 + a.toNat * 2048 + off.toNat * 32 + ord.code.toNat * 8 + sc.code.toNat)
  | .stI32 d a off ord sc => some (0x52 * 33554432 + d.toNat * 262144 + a.toNat * 2048 + off.toNat * 32 + ord.code.toNat * 8 + sc.code.toNat)
  | .stI64 d a off ord sc => some (0x53 * 33554432 + d.toNat * 262144 + a.toNat * 2048 + off.toNat * 32 + ord.code.toNat * 8 + sc.code.toNat)
  | .ldI8 d a b => some (0x54 * 33554432 + d.toNat * 262144 + a.toNat * 2048 + b.toNat * 16)
  | .ldN8 d a b => some (0x54 * 33554432 + d.toNat * 262144 + a.toNat * 2048 + b.toNat * 16 + 1)
  | .ldI16 d a b => some (0x54 * 33554432 + d.toNat * 262144 + a.toNat * 2048 + b.toNat * 16 + 2)
  | .ldN16 d a b => some (0x54 * 33554432 + d.toNat * 262144 + a.toNat * 2048 + b.toNat * 16 + 3)
  | .ldq d a b => some (0x54 * 33554432 + d.toNat * 262144 + a.toNat * 2048 + b.toNat * 16 + 4)
  | .stI8 d a b => some (0x54 * 33554432 + d.toNat * 262144 + a.toNat * 2048 + b.toNat * 16 + 5)
  | .stI16 d a b => some (0x54 * 33554432 + d.toNat * 262144 + a.toNat * 2048 + b.toNat * 16 + 6)
  | .stq d a b => some (0x54 * 33554432 + d.toNat * 262144 + a.toNat * 2048 + b.toNat * 16 + 7)
  | .dld d a b => some (0x54 * 33554432 + d.toNat * 262144 + a.toNat * 2048 + b.toNat * 16 + 8)
  | .dst d a b => some (0x54 * 33554432 + d.toNat * 262144 + a.toNat * 2048 + b.toNat * 16 + 9)
  | .segq d a b => some (0x54 * 33554432 + d.toNat * 262144 + a.toNat * 2048 + b.toNat * 16 + 10)
  | .segset d a b => some (0x54 * 33554432 + d.toNat * 262144 + a.toNat * 2048 + b.toNat * 16 + 11)
  | .pref a b => some (0x54 * 33554432 + a.toNat * 2048 + b.toNat * 16 + 12)
  | .atomAddI32 d a ord sc => some (0x55 * 33554432 + d.toNat * 262144 + a.toNat * 2048 + ord.code.toNat * 8 + sc.code.toNat)
  | .atomMinI32 d a ord sc => some (0x55 * 33554432 + d.toNat * 262144 + a.toNat * 2048 + ord.code.toNat * 8 + sc.code.toNat + 32)
  | .atomMaxI32 d a ord sc => some (0x55 * 33554432 + d.toNat * 262144 + a.toNat * 2048 + ord.code.toNat * 8 + sc.code.toNat + 64)
  | .atomMinN32 d a ord sc => some (0x55 * 33554432 + d.toNat * 262144 + a.toNat * 2048 + ord.code.toNat * 8 + sc.code.toNat + 96)
  | .atomMaxN32 d a ord sc => some (0x55 * 33554432 + d.toNat * 262144 + a.toNat * 2048 + ord.code.toNat * 8 + sc.code.toNat + 128)
  | .atomAnd d a ord sc => some (0x55 * 33554432 + d.toNat * 262144 + a.toNat * 2048 + ord.code.toNat * 8 + sc.code.toNat + 160)
  | .atomOr d a ord sc => some (0x55 * 33554432 + d.toNat * 262144 + a.toNat * 2048 + ord.code.toNat * 8 + sc.code.toNat + 192)
  | .atomXor d a ord sc => some (0x55 * 33554432 + d.toNat * 262144 + a.toNat * 2048 + ord.code.toNat * 8 + sc.code.toNat + 224)
  | .atomXchgI32 d a ord sc => some (0x55 * 33554432 + d.toNat * 262144 + a.toNat * 2048 + ord.code.toNat * 8 + sc.code.toNat + 256)
  | .atomCasI32 d a ord sc => some (0x55 * 33554432 + d.toNat * 262144 + a.toNat * 2048 + ord.code.toNat * 8 + sc.code.toNat + 288)
  | .atomAddF32 d a ord sc => some (0x55 * 33554432 + d.toNat * 262144 + a.toNat * 2048 + ord.code.toNat * 8 + sc.code.toNat + 320)
  | .atomAddI64 d a ord sc => some (0x55 * 33554432 + d.toNat * 262144 + a.toNat * 2048 + ord.code.toNat * 8 + sc.code.toNat + 512)
  | .atomXchgI64 d a ord sc => some (0x55 * 33554432 + d.toNat * 262144 + a.toNat * 2048 + ord.code.toNat * 8 + sc.code.toNat + 544)
  | .atomCasI64 d a ord sc => some (0x55 * 33554432 + d.toNat * 262144 + a.toNat * 2048 + ord.code.toNat * 8 + sc.code.toNat + 576)
  | .fence ord sc => some (0x56 * 33554432 + ord.code.toNat * 8 + sc.code.toNat)
  | .wait ld st cp mx cl => some (0x57 * 33554432 + ld.toNat * 65536 + st.toNat * 4096 + cp.toNat * 256 + mx.toNat * 16 + cl.toNat)
  | .rinst sh co cs => some (0x58 * 33554432 + sh.toNat * 131072 + co.toNat * 512 + cs.toNat * 2)
  | .rfit sh cs => some (0x58 * 33554432 + sh.toNat * 131072 + cs.toNat * 2 + 1)
  | .rdem sh cs => some (0x59 * 33554432 + sh.toNat * 131072 + cs.toNat * 2)
  | .rabort sh cs => some (0x59 * 33554432 + sh.toNat * 131072 + cs.toNat * 2 + 1)
  | .rldg d a ord sc => some (0x5a * 33554432 + d.toNat * 262144 + a.toNat * 2048 + ord.code.toNat * 8 + sc.code.toNat)
  | .rstat d a b => some (0x5b * 33554432 + d.toNat * 131072 + a.toNat * 512 + b.toNat * 2)
  | .cpy sh co cs => some (0x5c * 33554432 + sh.toNat * 131072 + co.toNat * 512 + cs.toNat * 2)
  | .cpyt sh co cs => some (0x5c * 33554432 + sh.toNat * 131072 + co.toNat * 512 + cs.toNat * 2 + 1)
  | .cvtc sh co cs => some (0x5d * 33554432 + sh.toNat * 131072 + co.toNat * 512 + cs.toNat * 2)
  | .qnt sh co cs => some (0x5d * 33554432 + sh.toNat * 131072 + co.toNat * 512 + cs.toNat * 2 + 1)
  | .rmat sh co cs => some (0x5e * 33554432 + sh.toNat * 131072 + co.toNat * 512 + cs.toNat * 2)
  | .cpfill sh co cs => some (0x5e * 33554432 + sh.toNat * 131072 + co.toNat * 512 + cs.toNat * 2 + 1)
  | .cpst d b => some (0x5f * 33554432 + d.toNat * 131072 + b.toNat * 2)
  | .cpcan d a => some (0x5f * 33554432 + d.toNat * 131072 + a.toNat * 512 + 1)
  | .tld ovr ta mb => some (0x60 * 33554432 + ovr.toNat * 2 + ta.toNat * 262144 + mb.toNat * 64)
  | .tstr ta mb => some (0x61 * 33554432 + ta.toNat * 262144 + mb.toNat * 64)
  | .mma acc ta tb mb => some (0x62 * 33554432 + acc.toNat * 4194304 + ta.toNat * 262144 + tb.toNat * 16384 + mb.toNat * 64)
  | .mmaDw acc ta tb mb => some (0x62 * 33554432 + acc.toNat * 4194304 + ta.toNat * 262144 + tb.toNat * 16384 + mb.toNat * 64 + 1)
  | .tzero fmt ta => some (0x63 * 33554432 + fmt.toNat * 2 + ta.toNat * 262144)
  | .azero tag acc => some (0x63 * 33554432 + tag.code.toNat * 2 + acc.toNat * 4194304 + 1)
  | .amov acc asrc => some (0x64 * 33554432 + acc.toNat * 4194304 + asrc.toNat * 262144)
  | .ald tag acc mb => some (0x65 * 33554432 + tag.code.toNat * 2 + acc.toNat * 4194304 + mb.toNat * 64)
  | .ast acc mb => some (0x65 * 33554432 + acc.toNat * 4194304 + mb.toNat * 64 + 1)
  | .asnap acc adst mb => some (0x66 * 33554432 + acc.toNat * 4194304 + adst.toNat * 262144 + mb.toNat * 64)
  | .ttrn ta tb => some (0x67 * 33554432 + ta.toNat * 262144 + tb.toNat * 16384)
  | .gbind sh co cs => some (0x68 * 33554432 + sh.toNat * 131072 + co.toNat * 512 + cs.toNat * 2)
  | .grebind sh co cs => some (0x68 * 33554432 + sh.toNat * 131072 + co.toNat * 512 + cs.toNat * 2 + 1)
  | .gstat d a b => some (0x69 * 33554432 + d.toNat * 131072 + a.toNat * 512 + b.toNat * 2)
  | .chstat d a b => some (0x69 * 33554432 + d.toNat * 131072 + a.toNat * 512 + b.toNat * 2 + 1)
  | .fire pd a => some (0x6a * 33554432 + pd.toNat * 131072 + a.toNat * 512)
  | .fend a b => some (0x6a * 33554432 + a.toNat * 512 + b.toNat * 2 + 1)
  | .send a b => some (0x6b * 33554432 + a.toNat * 512 + b.toNat * 2)
  | .recv pd a b => some (0x6b * 33554432 + pd.toNat * 131072 + a.toNat * 512 + b.toNat * 2 + 1)
  | .seal pdead => some (0x6c * 33554432 + pdead.toNat)
  | .sealreq d => some (0x6d * 33554432 + d.toNat * 131072)
  | .rvrd d b => some (0x6d * 33554432 + d.toNat * 131072 + b.toNat * 2 + 1)
  | .coll sh co cs => some (0x6e * 33554432 + sh.toNat * 131072 + co.toNat * 512 + cs.toNat * 2)
  | .lease sh cs => some (0x6e * 33554432 + sh.toNat * 131072 + cs.toNat * 2 + 1)
  | .clarb d a => some (0x6f * 33554432 + d.toNat * 131072 + a.toNat * 512)
  | .clstat d b => some (0x6f * 33554432 + d.toNat * 131072 + b.toNat * 2 + 1)
  | .loadValueReturn _ _ => none
  | .storePerformed _ _ => none
  | .eligibilityPromotion _ => none
  | .copyCompletion _ => none
  | .copyHalt _ _ => none
  | .mmaCompletion _ => none
  | .springOperationArrival _ _ => none
  | .installEnd _ => none
  | .refitCommit _ => none
  | .demotionEnd _ => none
  | .regionOperationCompletion _ => none
  | .bind _ _ => none
  | .rebind _ _ => none
  | .collReadyPassed _ _ => none
  | .collectiveCompletion _ _ => none
  | .leaseCompletion _ => none
  | .faultQueueEntryWrite _ => none
  | .recordWrite => none
  | .contextSave _ => none
  | .watchdog _ => none
  | .stallLimit => none
  | .sealPeriod => none
  | .sealTrigger => none
  | .prepare _ => none
  | .ready => none
  | .sealTimeout => none
  | .abort _ => none
  | .commit _ => none
  | .rintagAgeing => none
  | .uncorrectableMemoryError _ => none
  | .correctableError _ => none
  | .fabricPortError _ _ => none
  | .noRoute _ => none
  | .peerAccessArrival _ => none
  | .leaseNotice _ _ _ => none
  | .leaseDeadline _ _ => none
  | .hostCxlMemAccess _ _ => none
  | .itailWrite _ _ => none
  | .ictlWrite _ _ => none
  | .ibaseWrite _ _ => none
  | .launchTake _ => none
  | .teamPlacement _ _ => none
  | .launchCompletion _ => none
  | .create => none
  | .destroy => none
  | .preempt => none
  | .restore _ => none
  | .inval => none
  | .retire => none
  | .cmdFqpop => none
  | .cmdLeaseGrant => none
  | .cmdLeaseRevoke => none
  | .cmdLeaseRegister => none
  | .domain _ => none
  | .rqctlWrite _ => none
  | .rqheadWrite _ => none
  | .rstctl _ => none
  | .powerOn => none
  | .linkReset => none
  | .hexwd => none
  | .thermalTrip _ => none
  | .voltageFault _ => none
  | .suppliesStable => none
  | .calibrationDone => none
  | .firmwareVerified _ _ => none
  | .bootctlStart _ => none
  | .initDone => none
  | .monitorUpdate _ => none
  | .throttleStep _ => none
  | .powerCapStep _ => none
  | .attctlRequest _ => none
  | .attestationComplete _ => none
  | .registerWrite _ _ _ => none
  | .hostLinkRetrained => none
  | .routeRegained _ => none
  | .leaseReleaseAtLender _ _ => none
  | .undefinedCommand _ => none

/-- The word that encodes an instruction. -/
def encode (i : Instr) : Option Word := (encodeNat i).map (BitVec.ofNat 32)

/-- The little-endian word of four bytes. -/
def wordOfBytes (b0 b1 b2 b3 : Byte) : Word :=
  BitVec.ofNat 32 (b0.toNat + 256 * b1.toNat + 65536 * b2.toNat + 16777216 * b3.toNat)

/-- Decodes the first four bytes, lowest address first (R22). -/
def decodeBytes : List Byte → Option (Instr × List Byte)
  | b0 :: b1 :: b2 :: b3 :: r =>
    match decode (wordOfBytes b0 b1 b2 b3) with
    | .ok i => some (i, r)
    | .error _ => none
  | _ => none

/-- The instruction that the decoder reads from a word of the opcode table. -/
def decodeTableWord (nbits w : Nat) : Option Instr :=
  if nbits ≤ 32 then
    match decodeBytes ((List.range 4).map fun k => BitVec.ofNat 8 (w % 2 ^ nbits / 256 ^ k)) with
    | some (i, _) => some i
    | none => none
  else none

end Sys2Proof
end

