-- ==== Sys2Proof/Config.lean ====
section
/-! DEFINITION. What the device fixes, and the values that its manual leaves open.
An opaque constant has no body that a proof can see: a claim about it holds for every value. -/
namespace Sys2Proof.Config

/-- WIDTH of the JH8 (R2, R128). -/
def width : Nat := 64
/-- Dies of a module (R2). -/
def dies : Nat := 4
/-- Cores of a die (R2). -/
def coresPerDie : Nat := 48
/-- Cores of a module (R2). -/
def cores : Nat := 192
/-- Group slots of a core, and how many of their groups are active (R134). -/
def slots : Nat := 16
/-- Groups of the active set of a core (R134). -/
def activeSlots : Nat := 8
/-- Segments of a Pond (R178). -/
def segments : Nat := 256
/-- Bytes of HBM (R176). -/
def hbmBytes : Nat := 0xC000000000
/-- Entries of a group's store buffer (R316). -/
def storeBuffer : Nat := 64
/-- The highest value of an outstanding-operation counter (R195). -/
def counterMax : Nat := 255
/-- Records that the device holds beyond the ring (R379). -/
def heldRecords : Nat := 4096

/-- A byte whose contents the manual leaves open, by the occasion that left it so and its address. -/
opaque freeByte : Nat → Nat → BitVec 8
/-- A 64-bit value that the manual leaves open, by the occasion. -/
opaque freeWord : Nat → BitVec 64
/-- The descriptor of a Pond line that the manual leaves open, by the occasion and the line. -/
opaque freeDesc : Nat → Nat → BitVec 32
/-- Which of the old and the new page-table entry an access uses before an invalidation (R171), by the occasion. -/
opaque freeStale : Nat → Bool

/-- The part revision in DEVID (R400). -/
opaque revision : BitVec 16
/-- The module serial number in SERIAL (R400). -/
opaque serial : BitVec 64
/-- Byte k of the private seed of the device identity key, which fuses hold that no register reads (R405). -/
opaque privateSeed : Nat → BitVec 8
/-- Byte k of the digest of the Emvor firmware public key that fuses hold (R404). -/
opaque firmwareKeyDigest : Nat → BitVec 8

/-- The nominal clock in MHz of an island that is no core pair (R402). -/
opaque nominalClock : Nat → BitVec 16

/-- Byte k of the parameters that a refit computes from the header, the active slot and the snapshot (R227). -/
opaque candidate : List (BitVec 64) → List (BitVec 8) → List (Nat × Nat) → Nat → BitVec 8

/-- Which entry of its die's undo log, counted in log order, the bytes at an address of the log belong to (R331): the layout of an
entry is not architectural. -/
opaque undoSlot : Nat → Nat

/-- Field n of the part of a bind area that holds some bytes, those other than 0 with their addresses (R288): the layout of its header, of its
stage and channel state and of its slot flags is not architectural. -/
opaque areaField : List (Nat × BitVec 8) → Nat → Nat

/-- The row of HBM in which a line lies (R387). -/
opaque hbmRow : Nat → Nat
/-- The quarter of its die's L2 in which a row of an index lies (R388). -/
opaque l2Quarter : BitVec 32 → BitVec 2

/-- Where a LEASE command's words W1 to W3 hold the other device, the number, the context, the base, the size and the notice of a
lease (R355, R356, R377): the manual does not lay them out. -/
opaque leaseDev : List (BitVec 64) → BitVec 10
/-- The lease number in a LEASE command. -/
opaque leaseNum : List (BitVec 64) → BitVec 16
/-- The borrowing context in a LEASE command. -/
opaque leaseCtx : List (BitVec 64) → Nat
/-- The base address in a LEASE command. -/
opaque leaseBase : List (BitVec 64) → Nat
/-- The size in a LEASE command. -/
opaque leaseSize : List (BitVec 64) → Nat
/-- The notice in a LEASE command, in ticks of CLOCK. -/
opaque leaseNotice : List (BitVec 64) → Nat

end Sys2Proof.Config
end

