-- ==== Sys2Proof/Machine/State.lean ====
section
/-! DEFINITION. The state of the machine as plain data, and the state after reset.
Every structure names the rule of the manual that gives its fields. -/
namespace Sys2Proof.Machine

/-- Data by key, keys rising, an absent key holding a default. -/
abbrev Sparse (α : Type) := List (Nat × α)

/-- A byte memory: the bytes that differ from 0, and the bytes whose contents the manual leaves open,
each with the occasion that left it so. -/
structure Memory where
  cells : List Host.Cell
  marks : List (Nat × Nat)
  deriving DecidableEq, Repr

/-- Where an access lands after translation (R168, R179). -/
inductive Target where
  | hbm (pa : Nat)
  | pond (core off : Nat)
  | fitted (hdr : Nat)
  | host (pa : Nat)
  | peer (dev : Nat) (pa : Nat)
  | leased (dev num : Nat) (pa : Nat)
  | mmio (off : Nat)
  deriving DecidableEq, Repr

/-- A target with the write attributes of its leaf (R167). -/
structure Place where
  target : Target
  irrev  : Bool
  immed  : Bool
  deriving DecidableEq, Repr

/-- What a thread does besides issuing (R129, R74, R159, R338). -/
inductive Status where
  | run
  /-- Waits at a JOIN for the lanes of the mask. -/
  | join (mask : DWord)
  /-- Has arrived at an RDV.meet when the count was t. -/
  | meet (level bar : Nat) (t : Word)
  /-- Has arrived at a SEAL, whose extended instruction has so many words. -/
  | seal (words : Nat)
  | exited
  deriving DecidableEq, Repr

/-- The state of one thread (R9, R122); its V registers stand in its group. -/
structure Thread where
  pc     : DWord
  p      : BitVec 12
  fpctl  : Word
  fpstat : Word
  randn  : DWord
  status : Status
  deriving DecidableEq, Repr

/-- A barrier: its phase count, who has arrived in the current phase, the engine arrivals registered and made
in it, and the error flags of the current and of the last completed phase (R158, R159, R248).
An arrival is the number of a thread within the barrier's unit. -/
structure Barrier where
  k       : Word
  arrived : List Nat
  engines : Nat
  err     : Bool
  lastErr : Bool
  deriving DecidableEq, Repr

/-- One register that an operation in flight will write. -/
inductive RegDst where
  | v (lane reg : Nat)
  | s (reg : Nat)
  | t (reg : Nat)
  | a (reg : Nat)
  deriving DecidableEq, Repr

/-- The tile that a TLD in flight writes: its first register, how many, its format and the bytes of its rows (R270). -/
structure TileLoad where
  reg   : Nat
  count : Nat
  fmt   : Byte
  scale : List Byte
  spec  : List Byte
  deriving DecidableEq, Repr

/-- A load that has been issued: the registers it writes and the values it read (R195).
A tile or accumulator load carries its elements and metadata with it. -/
structure Load where
  vals  : List (RegDst × Word)
  elems : List (Nat × DWord)
  tile  : Option TileLoad
  acc   : Option (Nat × BitVec 2)
  /-- A Spring unit returns some of the values (R135). -/
  spring : Bool
  done  : Bool
  deriving DecidableEq, Repr

/-- One member's write in the store buffer (R316): size code 5 is a descriptor. -/
structure Buffered where
  issue : Nat
  lane  : Nat
  va    : DWord
  place : Place
  size  : Nat
  data  : List Byte
  ord   : BitVec 2
  scope : BitVec 3
  deriving DecidableEq, Repr

/-- An element of TSTR or AST whose write is not yet performed: its bytes, and for elements below a byte the bits written (R271). -/
structure TileWrite where
  issue : Nat
  place : Place
  data  : List Byte
  mask  : Byte
  deriving DecidableEq, Repr

/-- A copy-engine operation in flight (R244); `core` is the one on which its group stood when it issued it (R173). -/
structure CopyOp where
  seq    : Nat
  op     : Nat
  words  : List DWord
  coords : List Word
  lane   : Nat
  core   : Nat
  comp   : Option DWord
  fill   : List Nat
  drain  : List Nat
  bar    : Option Nat
  next   : Nat
  halted : Option (BitVec 16 × DWord × Nat × Word)
  done   : Option (Nat × BitVec 16 × DWord × Nat)
  offend : Option Nat
  satd   : List Nat
  /-- Bits of a source element, once the first line read has fixed them (R255). -/
  width  : Nat
  gen    : Word
  /-- The header of the region that an RMAT reads, once it has been found (R229, R255). -/
  region : Option Nat := none
  deriving DecidableEq, Repr

/-- A tile as a matrix operation read it at issue (R268): its format, its 256 elements by row, and its rows' bytes. -/
structure TileVal where
  fmt   : Byte
  elems : List DWord
  scale : List Byte
  spec  : List Byte
  deriving DecidableEq, Repr

/-- A matrix operation in flight: what it adds, and where (R269 to R277). -/
structure MmaOp where
  seq  : Nat
  acc  : Nat
  dw   : Bool
  a    : TileVal
  b    : TileVal
  rows : BitVec 16
  cols : BitVec 16
  deps : BitVec 16
  deriving DecidableEq, Repr

/-- An operation of class FR or CL in flight (R226, R290, R358): its operands, the release scope of its completion, its step and its
outcome. -/
structure UnitOp where
  seq    : Nat
  kind   : Nat
  words  : List DWord
  lane   : Nat
  core   : Nat
  comp   : Option DWord
  scope  : Nat
  step   : Nat
  done   : Option (Nat × BitVec 16 × BitVec 48)
  /-- The engine operations in flight when a LEASE was issued: their groups, classes and numbers (R357). -/
  after  : List (Nat × Nat × Nat) := []
  /-- The destination components that a COLL which has exchanged its elements has yet to write, and the number of the first (R332, R363). -/
  left   : Option (Nat × List (List Byte)) := none
  deriving DecidableEq, Repr

/-- The pending record of a park (R307), with what R310 needs to resume. -/
structure Park where
  cause      : BitVec 16
  lanes      : DWord
  va         : DWord
  kind       : Nat
  completing : Bool
  auto       : Bool
  seq        : Word
  skip       : Nat
  setLevel   : Bool
  /-- CLOCK when the record arose (R332). -/
  time       : Nat
  /-- An access of kind 6 that writes: a SEGSET (R172, R185). -/
  segset     : Bool := false
  deriving DecidableEq, Repr

/-- The values that choose among a group's ready sets (R132). -/
structure Choice where
  h    : Option Nat
  held : Nat
  c    : Nat
  p    : Option Nat
  last : List Nat
  deriving DecidableEq, Repr

/-- The scheduling state of a group that is not parked (R136). -/
inductive Sched where
  | active
  | eligible
  | waiting
  deriving DecidableEq, Repr

/-- The copy status words of a group (R259). -/
structure CopyStatus where
  cpDone   : Word
  cpErr    : Word
  firstBad : Word
  errSeq   : Word
  errCount : Word
  rmatGen  : Word
  deriving DecidableEq, Repr

/-- The collective status words of a group (R367). -/
structure CollStatus where
  clDone : Word
  clErr  : Word
  errSeq : Word
  clWord : Word
  deriving DecidableEq, Repr

/-- An assignment of positions of one input channel to a firing: the channel, the first position, how many, and how many
records have been received (R293, R296). -/
structure FireIn where
  chan  : Nat
  first : Nat
  count : Nat
  rcvd  : Nat
  deriving DecidableEq, Repr

/-- An assignment of positions of one output channel: the channel, the first position, and the records sent to each
consumer (R293, R295). -/
structure FireOut where
  chan  : Nat
  first : Nat
  sent  : List Nat
  deriving DecidableEq, Repr

/-- An open firing: its bind area, its stage, its number and its assignments (R294). -/
structure Firing where
  area  : DWord
  stage : Nat
  n     : Nat
  ins   : List FireIn
  outs  : List FireOut
  deriving DecidableEq, Repr

/-- A group: its place, its budgets, its registers and everything it has outstanding (R10, R122, R195, R313). -/
structure Group where
  uid    : Nat
  ctx    : Nat
  launch : Nat
  team   : Nat
  role   : Nat
  group  : Nat
  core   : Nat
  slot   : Nat
  vbud   : Nat
  sbud   : Nat
  tbud   : Nat
  abud   : Nat
  threads : List Thread
  v      : Sparse Word
  sreg   : Sparse Word
  tile   : Sparse DWord
  tfmt   : Sparse Byte
  rscale : Sparse Byte
  rspec  : Sparse Byte
  acc    : Sparse Word
  atag   : Sparse (BitVec 2)
  astep  : Sparse Word
  obsv   : Word
  stepctl : Word
  ext    : List Word
  issuing : List Nat
  bars   : List Barrier
  loads  : List Load
  stores : List Buffered
  tiles  : List TileWrite
  stQueue : List Nat
  nextIssue : Nat
  copies : List CopyOp
  mmas   : List MmaOp
  frops  : List UnitOp
  clops  : List UnitOp
  cpSeq  : Nat
  mxSeq  : Nat
  clSeq  : Nat
  frSeq  : Nat
  cp     : CopyStatus
  cl     : CollStatus
  firing : Option Firing
  choice : Choice
  sched  : Sched
  /-- Cycles since the last issue, the cycles for which each ready set has been ready, and the eligibility count (R134, R136). -/
  waited : Nat
  ages   : List (List Nat × Nat)
  elig   : Nat
  promoted : Option Nat
  entered : Nat
  /-- The group's context was restored and stores of its save frame are still to be performed, in their order (R316, R320). -/
  restoring : Bool
  /-- The cycle and the SEQ of the release from its last park, until it issues (R311). -/
  released : Nat × Nat
  park   : Option Park
  held   : List (Park × BitVec 48)
  gsaved : Bool
  /-- The occasion of the last save of the group's frame. -/
  savedOcc : Nat
  /-- ACTION and MASK of the group's frame, as GLOAD took them (R314, R326). -/
  action : Nat
  mask   : DWord
  badEnd : Bool
  deriving DecidableEq, Repr

/-- A team: where it stands, the cores on which it stood before each move of its context since it was placed, its run of segments
and its barriers (R125, R158, R321). -/
structure Team where
  uid    : Nat
  ctx    : Nat
  launch : Nat
  index  : Nat
  core   : Nat
  past   : List Nat
  seg    : Nat
  nseg   : Nat
  ngroups : Nat
  bars   : List Barrier
  deriving DecidableEq, Repr

/-- A role of a launch block (R374). -/
structure Role where
  entry  : DWord
  groups : Nat
  abud   : Nat
  tbud   : Nat
  sbud   : Nat
  vbud   : Nat
  deriving DecidableEq, Repr

/-- A launch: its block as taken, and how far it has come (R374, R376). -/
structure Launch where
  uid    : Nat
  inlet  : Nat
  ctx    : Nat
  prio   : Nat
  gang   : Bool
  gclass : Nat
  immed  : Bool
  pond   : Nat
  xm     : Nat
  ym     : Nat
  zm     : Nat
  argva  : DWord
  doneva : DWord
  gpbase : DWord
  wdog   : Nat
  roles  : List Role
  /-- The teams placed so far, and how many have ended. -/
  placed : List Nat
  ended  : Nat
  bad    : Bool
  /-- Once its context has ended: where its completion record goes, or the cause that drops it (R376). -/
  done   : Option (Place ⊕ (Nat × Nat))
  start  : Option Nat
  bars   : List Barrier
  /-- The teams one of whose SEALs in the present phase keeps their Pond (R338). -/
  sealSave : List Nat
  deriving DecidableEq, Repr

/-- The states of a context (R318). -/
inductive CtxState where
  | running | stopping | saved | ended
  deriving DecidableEq, Repr

/-- A context: its descriptor (R378) and what the device keeps for it. -/
structure Ctx where
  /-- Which CREATE made it: a number may be used again once its context has ended. -/
  uid      : Nat
  num      : Nat
  level    : Bool
  clmax    : Nat
  weight   : Nat
  root     : Nat
  fqBase   : Nat
  fqCap    : Nat
  fqWritten : Nat
  fqRead   : Nat
  fqHeld   : List (List DWord × Nat)
  saBase   : Nat
  sealBase : Nat
  half     : Bool
  hasSeal  : Bool
  randseed : Word
  rollbacks : Word
  pinned   : Option (BitVec 16)
  state    : CtxState
  /-- HBM as the last invalidation saw it: the table entries and instruction words that accesses may still use (R171, R323). -/
  snap     : Memory
  /-- CLOCK when the context was last saved. -/
  savedAt  : Nat
  /-- The dates of the words of HBM as the last invalidation saw them (R171, R321). -/
  snapDates : Sparse Nat := []
  /-- The dates of the moves of the context's teams, oldest first (R321). -/
  moves    : List Nat
  /-- A termination that came in STOPPING or SAVING: the context ends once it is SAVED (R318). -/
  dying    : Bool
  deriving DecidableEq, Repr

/-- A Pond segment inside an allocation (R182): the team that holds it, its state and its DEAD flag. -/
structure Segment where
  team  : Nat
  state : BitVec 2
  dead  : Bool
  deriving DecidableEq, Repr

/-- A captured line of an undo log (R330). -/
structure Undo where
  pa   : Nat
  data : List Byte
  side : BitVec 48
  rin  : BitVec 16
  die  : Nat
  deriving DecidableEq, Repr

/-- A write that waits for the commit of its interval (R208, R333). -/
structure Deferred where
  ctx   : Nat
  group : Nat
  /-- The engine operation that made the write, by its class and its sequence number (R207). -/
  op    : Option (Nat × Nat)
  rin   : BitVec 16
  die   : Nat
  target : Target
  data  : List Byte
  /-- A line's descriptor, and not its data (R189). -/
  desc  : Bool
  /-- The bytes, by their offsets, that a later write performed at once has replaced, each with the interval of that write (R200). -/
  stale  : List (Nat × BitVec 16)
  /-- Already performed at the device's own memory; only the wait for the commit remains. -/
  home  : Bool
  /-- A launch completion record, whose performance raises vector 3 (R376). -/
  record : Bool
  deriving DecidableEq, Repr

/-- One member's store that a Spring unit holds until an install or a demotion ends, or until its log has room (R223, R231, R332):
the elements it writes, each by its index in the region. -/
structure SpringHeld where
  hdr   : Nat
  ctx   : Nat
  group : Nat
  lane  : Nat := 0
  issue : Nat
  elems : List (Nat × Nat)
  deriving DecidableEq, Repr

/-- A region that RINST has registered (R214): the operation that its Spring unit works for, and the live entries of
a running refit's snapshot, each with its value (R227). -/
structure Region where
  hdr   : Nat
  owner : Option (Nat × Nat)
  snap  : List (Nat × Nat)
  /-- The refit is verified: its entries are MARKED, and these are its shield points with their values (R227). -/
  verified : Bool
  shields : List (Nat × Nat)
  /-- The elements of the install set that an install which overflowed had still to place, by their points' COORDs (R221, R226). -/
  image : List (Nat × Nat)
  /-- How many 64-byte pieces of the reserve a running demotion has written (R232, R332). -/
  written : Nat := 0
  deriving DecidableEq, Repr

/-- A stage of a bound graph (R282, R291): 0 ACTIVE, 1 FINISHED, 2 TERMINATED; the firings admitted and ended. -/
structure Stage where
  team  : Nat
  role  : Nat
  q     : Nat
  state : Nat
  admitted : Nat
  ended : Nat
  isOpen : Nat
  core  : Nat
  deriving DecidableEq, Repr

/-- A ring of a channel: CPOS, RCVD and its FULL slots, by position, and the positions whose records a commit has yet to perform at SYSTEM,
each with its interval (R208, R293, R295). -/
structure Ring where
  stage : Nat
  cpos  : Nat
  rcvd  : Nat
  full  : List Nat
  late  : List (Nat × BitVec 16) := []
  deriving DecidableEq, Repr

/-- A channel of a bound graph (R282, R285). -/
structure Chan where
  buf    : DWord
  bytes  : Nat
  init   : Nat
  prod   : Nat
  cons   : Nat
  lines  : Nat
  scope  : Nat
  prodSt : Nat
  size   : Nat
  escope : Nat
  pond   : Bool
  ppos   : Nat
  prodEnd : Option Nat
  rings  : List Ring
  deriving DecidableEq, Repr

/-- An entry of a firing table (R288). -/
structure FireEntry where
  stage  : Nat
  rep    : Nat
  firstn : Nat
  deriving DecidableEq, Repr

/-- A bind area and its graph (R285, R291, R292): STATE is 0 UNBOUND, 1 BINDING, 2 BOUND, 3 ENDED, 4 ERROR. -/
structure Graph where
  area   : DWord
  /-- Where the 4 KiB blocks of the area lie in HBM, and the bytes other than 0 of its header, of its stage and channel state and of its slot
  flags as the balance engine has left them (R288). -/
  pages  : List Nat
  held   : List (List Host.Cell)
  ctx    : Nat
  launch : Nat
  state  : Nat
  cause  : Nat
  nperiod : Nat
  stages : List Stage
  chans  : List Chan
  table  : List FireEntry
  periods : Nat
  entry  : Nat
  count  : Nat
  /-- The parts of its area whose stores wait for room in a log (R332). -/
  owed   : List Nat := []
  deriving DecidableEq, Repr

/-- A lease as one side keeps it (R355 to R357): 0 ACTIVE, 1 NOTICE, 2 REVOKED, 3 RELEASED; the registered notice word
is a context, a core and an address. -/
structure Lease where
  num    : Nat
  dev    : Nat
  ctx    : Nat
  state  : Nat
  lender : Bool
  base   : Nat
  size   : Nat
  deadline : Nat
  watch  : Option (Nat × Nat × DWord)
  deriving DecidableEq, Repr

/-- The work that a seal records and a rollback brings back. -/
structure Work where
  groups   : List Group
  teams    : List Team
  launches : List Launch
  graphs   : List Graph
  regions  : List Region
  springHeld : List SpringHeld
  segs     : Sparse Segment
  pond     : Memory
  pondDesc : Sparse Word
  /-- When each 8-byte word of HBM was last written, by the number of moves of teams that came before; one that is not listed was written
  before any (R321). -/
  dates    : Sparse Nat := []
  deriving DecidableEq, Repr

/-- What a seal records (R336): the interval it closes, the work and the contexts of its seal point, and the inlet positions. -/
structure Snap where
  r     : BitVec 16
  work  : Work
  ctxs  : List Ctx
  heads : List Word
  deriving DecidableEq, Repr

/-- The registers of one inlet (R371); ICHEAD and IHEAD among them. -/
structure Inlet where
  base  : DWord
  en    : Bool
  log2n : Nat
  tail  : Word
  head  : Word
  chead : Word
  error : Bool
  deriving DecidableEq, Repr

/-- The four registers of an island and what its monitor keeps (R397, R398). -/
structure Island where
  volt   : BitVec 16
  temp   : BitVec 16
  proc   : BitVec 16
  freq   : BitVec 16
  thrcnt : BitVec 16
  off    : Bool
  valarm : Bool
  talarm : Bool
  throt  : Bool
  vnom   : BitVec 16
  maxt   : BitVec 16
  /-- The nominal clock, the sixteenths taken off it for heat and for the power cap, and the updates spent outside the window. -/
  nominal : BitVec 16
  cutHeat : Nat
  cutPower : Nat
  outside : Nat
  /-- Whether TEMP has reached TWARN and not yet fallen below TWARN - 5. -/
  hot : Bool
  /-- CLOCK at the last step of the cut for heat (R398). -/
  stepAt : Nat
  deriving DecidableEq, Repr

/-- Records (R379, R389): the ring's registers, the records held, the last sixteen and the next number. -/
structure Records where
  base   : DWord
  log2n  : Nat
  head   : Word
  tail   : Word
  lost   : Word
  next   : Word
  held   : List (List DWord)
  recent : List (List DWord)
  deriving DecidableEq, Repr

/-- The steps of bring-up (R399). -/
inductive Boot where
  | reset | calib | verify | config | init | ready | stopped
  deriving DecidableEq, Repr

/-- The registers of BAR 0 that reset, bring-up and service give (R370, R377, R388, R392, R397, R400 to R406), and
what Hexvos keeps in fuses and non-volatile storage. -/
structure Regs where
  boot      : Boot
  badCfg    : Bool
  rstCause  : BitVec 8
  rstCount  : Word
  lastRec   : List (List DWord)
  bootCfg   : Word
  winBase   : DWord
  winSize   : DWord
  sealPer   : Word
  pwrCap    : Word
  attState  : Nat
  attReason : Nat
  attDst    : DWord
  attNonce  : List Byte
  keyIdx    : Nat
  meas      : List Byte
  monctl    : Byte
  cmdArg    : DWord
  cmdCode   : Byte
  cmdState  : Byte
  /-- The eight words of the argument of the command last started, as they stood then (R377). -/
  cmdWords  : List DWord
  spareLane : List Nat
  retCore   : List Nat
  retRows   : Word
  /-- The 64 KiB frames of HBM that are retired, by their numbers; RETFRAMES counts them. -/
  retFrames : List Nat
  portOff   : Word
  retL2     : Word
  correct   : List (Nat × Nat × Nat)
  /-- The device has stopped because a rollback could not restore state: it accepts only a reset (R342, R394). -/
  unrestored : Bool
  islands   : List Island
  /-- CLOCK at the last update of the monitors, and at the last step for the power cap (R397, R403). -/
  monAt     : Nat
  capAt     : Nat
  deriving DecidableEq, Repr

/-- The recovery domain and the coordinator's seal (R327, R335, R352). -/
structure Domain where
  device  : Nat
  members : List Nat
  coord   : Nat
  sealTo  : Nat
  rin     : BitVec 16
  committed : BitVec 16
  want    : Bool
  /-- The seal in progress: 1 while PREPARE, 2 while PREPARED, 3 while ABORT is on its way, with its interval, and whether its
  seal point is past. -/
  stage   : Nat
  interval : BitVec 16
  passed  : Bool
  trigger : Bool
  nextTrigger : Bool
  lastSeal : Nat
  /-- CLOCK when the seal in progress began. -/
  since   : Nat
  noRoute : List Nat
  deriving DecidableEq, Repr

/-- What the outside world does besides the events of the opcode table. -/
inductive Input where
  /-- CLOCK advances by ticks. -/
  | clock (ticks : Nat)
  /-- The host stores bytes into its own memory. -/
  | hostStore (pa : Nat) (data : List Byte)
  /-- A peer device's memory changes under its own programs. -/
  | peerStore (dev pa : Nat) (data : List Byte)
  /-- A host write of CMDARG (R377). -/
  | cmdArg (val : DWord)
  /-- Another device of the domain meets an uncorrectable error, and this one rolls back with it, to places for its teams; or state
  cannot be restored there, and every context of the domain ends (R341, R342). -/
  | memberError (fatal : Bool) (moves : List Placement)
  deriving DecidableEq, Repr

/-- One entry of the agenda: what happens next, where the environment or a scheduler chooses. -/
inductive Item where
  | event (i : Instr)
  | input (x : Input)
  /-- The next issue goes to the group of this number. -/
  | issue (uid : Nat)
  deriving DecidableEq, Repr

/-- The whole machine. -/
structure State where
  work    : Work
  ctxs    : List Ctx
  hbm     : Memory
  baseTag : BitVec 16
  side    : Sparse (BitVec 48)
  host    : Memory
  peer    : Memory
  undo    : List Undo
  deferred : List Deferred
  leases  : List Lease
  domain  : Domain
  snapCommitted : Option Snap
  snapPending : Option Snap
  inlets  : List Inlet
  records : Records
  regs    : Regs
  msix    : List Nat
  clock   : Nat
  cycles  : Nat
  nextUid : Nat
  occasion : Nat
  /-- How many times the teams of a context have been placed anew (R321). -/
  moveCount : Nat
  cur     : Option (Nat × List Nat)
  /-- The groups that have issued in the present cycle, each with its core (R134). -/
  ported  : List (Nat × Nat)
  agenda  : List Item
  deriving DecidableEq, Repr

/-- Why the machine stops with a fault. -/
inductive Fault where
  /-- Raised by an encoded instruction that is executed while no group is issuing; the step never does so (safe). -/
  | noIssuingGroup
  deriving DecidableEq, Repr

/-- Why an instruction has no meaning here. -/
inductive Refusal where
  /-- Raised by an arm of the dispatcher for an instruction without a meaning; safe, since a run stops there. -/
  | notModelled (mnemonic : String)
  deriving DecidableEq, Repr

/-! ## The state after reset (R392 to R402) -/

/-- An inlet after reset (R401). -/
def Inlet.reset : Inlet := { base := 0, en := false, log2n := 0, tail := 0, head := 0, chead := 0, error := false }

/-- An island before its first update; the manual gives no value, and the model takes 0. -/
def Island.reset : Island :=
  { volt := 0, temp := 0, proc := 0, freq := 0, thrcnt := 0, off := false, valarm := false, talarm := false, throt := false,
    vnom := 0, maxt := 0, nominal := 0, cutHeat := 0, cutPower := 0, outside := 0, hot := false, stepAt := 0 }

/-- The record queue after reset: disabled, every register 0 (R379). -/
def Records.reset : Records :=
  { base := 0, log2n := 0, head := 0, tail := 0, lost := 0, next := 0, held := [], recent := [] }

/-- The registers after the power-on reset of a device that has not been reset before (R392, R393, R397, R400, R403). -/
def Regs.reset : Regs :=
  { boot := .reset, badCfg := false, rstCause := 1, rstCount := 1, lastRec := [], bootCfg := 1, winBase := 0, winSize := 0,
    sealPer := 1000, pwrCap := 3200, attState := 0, attReason := 0, attDst := 0, attNonce := List.replicate 32 0, keyIdx := 0,
    meas := List.replicate 64 0, monctl := 95, cmdArg := 0, cmdCode := 0, cmdState := 0, cmdWords := [], spareLane := List.replicate 192 0,
    retCore := [], retRows := 0, retFrames := [], portOff := 0, retL2 := 0, correct := [],
    unrestored := false, islands := List.replicate 128 Island.reset, monAt := 0, capAt := 0 }

/-- A device that no DOMAIN command has placed is a domain of its own and its own coordinator; the current RIN is 1 (R327, R401). -/
def Domain.reset : Domain :=
  { device := 0, members := [0], coord := 0, sealTo := 1000, rin := 1, committed := 0, want := false, stage := 0, interval := 0,
    passed := false, trigger := false, nextTrigger := false, lastSeal := 0, since := 0, noRoute := [] }

/-- No work. -/
def Work.reset : Work :=
  { groups := [], teams := [], launches := [], graphs := [], regions := [], springHeld := [], segs := [],
    pond := { cells := [], marks := [] }, pondDesc := [] }

/-- The machine right after power-on reset. -/
def State.reset : State :=
  { work := Work.reset, ctxs := [], hbm := { cells := [], marks := [] }, baseTag := 0, side := [],
    host := { cells := [], marks := [] }, peer := { cells := [], marks := [] }, undo := [], deferred := [], leases := [],
    domain := Domain.reset, snapCommitted := none, snapPending := none, inlets := List.replicate 64 Inlet.reset,
    records := Records.reset, regs := Regs.reset, msix := [], clock := 0, cycles := 0, nextUid := 1, occasion := 0, moveCount := 0,
    cur := none, ported := [], agenda := [] }

end Sys2Proof.Machine
end

