-- ==== Sys2Proof/Machine/Ops.lean ====
section
/-! DEFINITION. The named operations over bits, memory, groups and records, and taking and leaving an exception (R26, R306 to R311). -/
namespace Sys2Proof.Machine

/-! ## Bits and bytes (R4) -/

/-- The n bits of a number from bit lo up. -/
def bitsOf (x lo n : Nat) : Nat := x / 2 ^ lo % 2 ^ n

/-- One bit of a number. -/
def bitOf (x k : Nat) : Bool := x / 2 ^ k % 2 == 1

/-- The number read as signed with w bits. -/
def toSigned (w x : Nat) : Int := if x % 2 ^ w < 2 ^ (w - 1) then (x % 2 ^ w : Nat) else (x % 2 ^ w : Nat) - (2 ^ w : Nat)

/-- An integer modulo 2^w. -/
def wrapTo (w : Nat) (x : Int) : Nat := (x % (2 ^ w : Nat)).toNat

/-- The low n bytes of a number, lowest first. -/
def leBytes : Nat → Nat → List Byte
  | 0, _ => []
  | n + 1, x => BitVec.ofNat 8 x :: leBytes n (x / 256)

/-- The number of a list of bytes, lowest first. -/
def ofLe : List Byte → Nat
  | [] => 0
  | b :: r => b.toNat + 256 * ofLe r

/-- The 64-bit value of a low and a high word (R12). -/
def joinWords (lo hi : Word) : DWord := BitVec.ofNat 64 (lo.toNat + 4294967296 * hi.toNat)

/-- The low word of a 64-bit value. -/
def loWord (x : DWord) : Word := BitVec.ofNat 32 x.toNat

/-- The high word of a 64-bit value. -/
def hiWord (x : DWord) : Word := BitVec.ofNat 32 (x.toNat / 4294967296)

/-- The set bits of a number below n, rising. -/
def bitList (x : Nat) (n : Nat) : List Nat := (List.range n).filter (bitOf x)

/-- The mask whose set bits are the numbers of a list. -/
def maskOf (l : List Nat) : Nat := l.foldl (fun m k => if bitOf m k then m else m + 2 ^ k) 0

/-- The mask of a list of lanes. -/
def laneMask (l : List Nat) : DWord := BitVec.ofNat 64 (maskOf l)

/-- Replaces the entry of a list at an index. -/
def modifyAt {α : Type} (f : α → α) : List α → Nat → List α
  | [], _ => []
  | x :: r, 0 => f x :: r
  | x :: r, n + 1 => x :: modifyAt f r n

/-! ## Sparse maps -/

/-- The value at a key, or the default. -/
def sget {α : Type} (d : α) : Sparse α → Nat → α
  | [], _ => d
  | (k', v) :: r, k => if k = k' then v else sget d r k

/-- Writes the value at a key; the default is not listed. -/
def sput {α : Type} [DecidableEq α] (d : α) : Sparse α → Nat → α → Sparse α
  | [], k, v => if v = d then [] else [(k, v)]
  | (k', v') :: r, k, v =>
    if k < k' then (if v = d then (k', v') :: r else (k, v) :: (k', v') :: r)
    else if k = k' then (if v = d then r else (k, v) :: r)
    else (k', v') :: sput d r k v

/-- Writes a list of values at rising keys of a sparse map. -/
def sputAll {α : Type} [DecidableEq α] (d : α) (m : Sparse α) (l : List (Nat × α)) : Sparse α := l.foldl (fun m (k, v) => sput d m k v) m

/-- The canonical form: keys rise and no entry holds the default. -/
def swf {α : Type} [DecidableEq α] (d : α) : Sparse α → Bool
  | [] => true
  | [(_, v)] => decide (v ≠ d)
  | (k, v) :: (k', v') :: r => decide (v ≠ d) && decide (k < k') && swf d ((k', v') :: r)

/-! ## Byte memories -/

/-- What a byte that nothing has written reads as; HBM is cleared at bring-up and Pond at placement (R178, R394, R400). -/
def unlistedByte : Byte := 0

namespace Memory

/-- Memory with nothing listed. -/
def empty : Memory := { cells := [], marks := [] }

/-- The byte at an address. -/
def byte (m : Memory) (a : Nat) : Byte :=
  if sget 0 m.marks a = 0 then sget unlistedByte m.cells a else Config.freeByte (sget 0 m.marks a) a

/-- Writes one byte, which then has a known value. -/
def put (m : Memory) (a : Nat) (b : Byte) : Memory :=
  { cells := sput unlistedByte m.cells a b, marks := sput 0 m.marks a 0 }

/-- Leaves the contents of a byte open, by an occasion. -/
def forget (m : Memory) (occasion a : Nat) : Memory :=
  { cells := sput unlistedByte m.cells a unlistedByte, marks := sput 0 m.marks a (occasion + 1) }

/-- The canonical form of a memory. -/
def wf (m : Memory) : Bool := swf unlistedByte m.cells && swf 0 m.marks

/-- The n bytes from an address up. -/
def read (m : Memory) (a : Nat) : Nat → List Byte
  | 0 => []
  | n + 1 => m.byte a :: m.read (a + 1) n

/-- Writes a list of bytes from an address up. -/
def write (m : Memory) (a : Nat) : List Byte → Memory
  | [] => m
  | b :: r => (m.put a b).write (a + 1) r

/-- Leaves n bytes from an address up open. -/
def forgetRange (m : Memory) (occasion a : Nat) : Nat → Memory
  | 0 => m
  | n + 1 => (m.forget occasion a).forgetRange occasion (a + 1) n

/-- Merges two lists of bytes by rising address; the number bounds their lengths together. -/
def merge : Nat → List Host.Cell → List Host.Cell → List Host.Cell
  | 0, _, _ => []
  | _ + 1, [], l => l
  | _ + 1, l, [] => l
  | n + 1, x :: l, y :: r => if x.1 ≤ y.1 then x :: merge n l (y :: r) else y :: merge n (x :: l) r

/-- The bytes other than 0 in ranges of addresses, each a start and a size. -/
def within (m : Memory) (ranges : List (Nat × Nat)) : List Host.Cell :=
  let inside := fun a => ranges.any fun r => decide (r.1 ≤ a) && decide (a < r.1 + r.2)
  let known := m.cells.filter fun c => inside c.1
  let freed := ((m.marks.filter fun c => inside c.1).map fun c => (c.1, Config.freeByte c.2 c.1)).filter fun c => c.2 != 0
  merge (known.length + freed.length + 1) known freed

/-- The little-endian number of n bytes. -/
def readNat (m : Memory) (a n : Nat) : Nat := ofLe (m.read a n)

/-- Writes a number as n little-endian bytes. -/
def writeNat (m : Memory) (a n x : Nat) : Memory := m.write a (leBytes n x)

end Memory

/-! ## Groups, teams, launches and contexts -/

namespace State

/-- The group of a number. -/
def group? (s : State) (uid : Nat) : Option Group := s.work.groups.find? (fun g => g.uid == uid)

/-- Replaces the group that has the number of the given one. -/
def setGroup (s : State) (g : Group) : State :=
  { s with work := { s.work with groups := s.work.groups.map fun x => if x.uid == g.uid then g else x } }

/-- Applies a change to the group of a number. -/
def modifyGroup (s : State) (uid : Nat) (f : Group → Group) : State :=
  { s with work := { s.work with groups := s.work.groups.map fun x => if x.uid == uid then f x else x } }

/-- The team of a group. -/
def teamOf? (s : State) (g : Group) : Option Team :=
  s.work.teams.find? (fun t => t.launch == g.launch && t.index == g.team)

/-- Applies a change to one team of a launch. -/
def modifyTeam (s : State) (launch index : Nat) (f : Team → Team) : State :=
  { s with work := { s.work with teams := s.work.teams.map fun t => if t.launch == launch && t.index == index then f t else t } }

/-- The launch of a number. -/
def launch? (s : State) (uid : Nat) : Option Launch := s.work.launches.find? (fun l => l.uid == uid)

/-- Applies a change to the launch of a number. -/
def modifyLaunch (s : State) (uid : Nat) (f : Launch → Launch) : State :=
  { s with work := { s.work with launches := s.work.launches.map fun l => if l.uid == uid then f l else l } }

/-- The context of a number. -/
def ctx? (s : State) (num : Nat) : Option Ctx := s.ctxs.find? (fun c => c.num == num)

/-- Applies a change to the context of a number. -/
def modifyCtx (s : State) (num : Nat) (f : Ctx → Ctx) : State :=
  { s with ctxs := s.ctxs.map fun c => if c.num == num then f c else c }

/-- A fresh occasion for a value that the manual leaves open. -/
def nextOccasion (s : State) : State := { s with occasion := s.occasion + 1 }

end State

/-- The privilege level of a group's context (R17). -/
def levelOf (s : State) (g : Group) : Bool :=
  match s.ctx? g.ctx with
  | some c => c.level
  | none => false

/-- The die of a module core. -/
def dieOf (core : Nat) : Nat := core / Config.coresPerDie

/-! ## Threads and registers -/

/-- A thread that has exited, for lanes that no list holds. -/
def noThread : Thread := { pc := 0, p := 0, fpctl := 0, fpstat := 0, randn := 0, status := .exited }

namespace Group

/-- The thread of a logical lane. -/
def thread (g : Group) (lane : Nat) : Thread := g.threads.getD lane noThread

/-- Applies a change to one thread. -/
def modifyThread (g : Group) (lane : Nat) (f : Thread → Thread) : Group :=
  { g with threads := modifyAt f g.threads lane }

/-- Applies a change to each thread of a list of lanes. -/
def modifyThreads (g : Group) (lanes : List Nat) (f : Thread → Thread) : Group :=
  lanes.foldl (fun g l => g.modifyThread l f) g

/-- The key of a V register of a lane. -/
def vkey (lane reg : Nat) : Nat := lane * 256 + reg

/-- V[reg] of a lane. -/
def vget (g : Group) (lane reg : Nat) : Word := sget 0 g.v (vkey lane reg)

/-- Writes V[reg] of a lane. -/
def vput (g : Group) (lane reg : Nat) (x : Word) : Group := { g with v := sput 0 g.v (vkey lane reg) x }

/-- The pair V[reg] : V[reg + 1] of a lane (R12). -/
def vpair (g : Group) (lane reg : Nat) : DWord := joinWords (g.vget lane reg) (g.vget lane (reg + 1))

/-- S[reg]. -/
def sregGet (g : Group) (reg : Nat) : Word := sget 0 g.sreg reg

/-- Writes S[reg]. -/
def sregPut (g : Group) (reg : Nat) (x : Word) : Group := { g with sreg := sput 0 g.sreg reg x }

/-- The pair S[reg] : S[reg + 1] (R12). -/
def spair (g : Group) (reg : Nat) : DWord := joinWords (g.sregGet reg) (g.sregGet (reg + 1))

/-- P[p] of a lane. -/
def pget (g : Group) (lane p : Nat) : Bool := (g.thread lane).p.getLsbD p

/-- Writes P[p] of a lane. -/
def pput (g : Group) (lane p : Nat) (x : Bool) : Group :=
  g.modifyThread lane fun t =>
    { t with p := BitVec.ofNat 12 (if t.p.getLsbD p = x then t.p.toNat else if x then t.p.toNat + 2 ^ p else t.p.toNat - 2 ^ p) }

/-- The lanes whose threads have not exited. -/
def live (g : Group) : List Nat :=
  (List.range Config.width).filter fun l => decide ((g.thread l).status ≠ .exited)

/-- The counters LD, ST, CP, MX, CL and FR (R195, R245). -/
def ldCount (g : Group) : Nat := g.loads.length
/-- ST (R195). -/
def stCount (g : Group) : Nat := g.stQueue.length
/-- CP. -/
def cpCount (g : Group) : Nat := g.copies.length
/-- MX. -/
def mxCount (g : Group) : Nat := g.mmas.length
/-- CL. -/
def clCount (g : Group) : Nat := g.clops.length
/-- FR. -/
def frCount (g : Group) : Nat := g.frops.length

/-- Every outstanding-operation counter is 0. -/
def quiet (g : Group) : Bool :=
  g.ldCount == 0 && g.stCount == 0 && g.cpCount == 0 && g.mxCount == 0 && g.clCount == 0 && g.frCount == 0

end Group

/-! ## Error records (R381 to R389) -/

/-- The fields of an error record that its source gives. -/
structure RecordArgs where
  team   : Nat := 0xFFFF
  ctx    : Nat := 0xFFFF
  action : Nat := 0
  engine : Nat := 0
  cause  : Nat
  slot   : Nat := 0xFF
  core   : Nat := 0xFF
  lanes  : Nat := 0
  va     : Option Nat := none
  pa     : Option Nat := none
  sev    : Nat := 0
  kind   : Nat := 0
  detail : Nat := 0

/-- The eight words of a record (R381). -/
def recordWords (a : RecordArgs) (seq rin clock : Nat) : List DWord :=
  [ BitVec.ofNat 64 (a.team % 65536 * 2 ^ 48 + a.ctx % 65536 * 2 ^ 32 + a.action * 2 ^ 24 + a.engine * 2 ^ 16 + a.cause),
    BitVec.ofNat 64 (seq * 2 ^ 32 + rin * 2 ^ 16 + a.slot * 2 ^ 8 + a.core),
    BitVec.ofNat 64 a.lanes,
    BitVec.ofNat 64 (a.va.getD 0),
    BitVec.ofNat 64 (a.pa.getD 0),
    BitVec.ofNat 64 clock,
    BitVec.ofNat 64 (a.sev * 2 ^ 54 + a.kind * 2 ^ 50 + (if a.pa.isSome then 2 ^ 49 else 0)
      + (if a.va.isSome then 2 ^ 48 else 0) + a.detail % 2 ^ 48),
    0 ]

/-- How many records can be written before RQTAIL - RQHEAD, modulo 2^32, equals the size of the ring (R379). -/
def ringRoom (r : Records) : Nat :=
  if r.log2n = 0 then 0 else (BitVec.ofNat 32 (2 ^ r.log2n) - (r.tail - r.head)).toNat

/-- Numbers a record and puts it into the holding store; beyond the limit it is lost (R379, R389). -/
def emitRecord (s : State) (a : RecordArgs) : State :=
  let r := s.records
  let w := recordWords a r.next.toNat s.domain.rin.toNat s.clock
  let recent := (r.recent ++ [w]).drop (r.recent.length + 1 - 16)
  if r.held.length < Config.heldRecords + ringRoom r then
    { s with records := { r with next := r.next + 1, held := r.held ++ [w], recent := recent } }
  else
    { s with records := { r with next := r.next + 1, lost := r.lost + 1, recent := recent } }

/-- The words of a list of 64-bit words as bytes. -/
def wordBytes : List DWord → List Byte
  | [] => []
  | w :: r => leBytes 8 w.toNat ++ wordBytes r

/-- Raises an MSI-X vector (R380). -/
def raiseVector (s : State) (v : Nat) : State := { s with msix := s.msix ++ [v] }

/-! ## Taking an exception: a park (R26, R27, R306 to R309) -/

/-- The severity of a park's record by its cause (R385). -/
def parkSeverity (cause : Nat) : Nat :=
  if cause = 0x0301 ∨ cause = 0x0303 ∨ cause = 0x0503 ∨ cause = 0x0901 ∨ cause = 0x0D01 ∨ cause = 0x0D02 ∨ cause = 0x0E01
  then 1 else 2

/-- The ACTION of a park's record: the causes after which the device resumes the group itself (R185, R332, R385). -/
def parkAction (cause : Nat) : Nat := if cause = 0x0303 ∨ cause = 0x0901 then 2 else 0

/-- Why a group parks: the cause, the lanes it names, and what the record holds. -/
structure ParkArgs where
  cause      : Nat
  lanes      : List Nat
  va         : Option DWord := none
  kind       : Nat := 0
  detail     : Nat := 0
  engine     : Nat := 0
  completing : Bool := false
  skip       : Nat := 1
  setLevel   : Bool := false
  /-- Whether the record carries SEV 2 and ACTION 0 whatever the cause, as a failed bind's does (R290). -/
  plain      : Bool := false
  /-- Whether an access of kind 6 is a SEGSET, which writes (R172). -/
  segset     : Bool := false

/-- The ACTION of a park. -/
def ParkArgs.action (a : ParkArgs) : Nat := if a.plain then 0 else parkAction a.cause

/-- The severity of a park. -/
def ParkArgs.sev (a : ParkArgs) : Nat := if a.plain then 2 else parkSeverity a.cause

/-- The four words of a fault queue entry (R308). -/
def faultEntry (g : Group) (p : Park) : List DWord :=
  [ BitVec.ofNat 64 ((if p.completing then 2 ^ 61 else 0) + (if p.auto then 2 ^ 60 else 0) + p.kind * 2 ^ 56
      + g.slot * 2 ^ 48 + g.core * 2 ^ 40 + g.ctx * 2 ^ 24 + p.cause.toNat),
    BitVec.ofNat 64 p.seq.toNat, p.lanes, p.va ]

/-- Appends an entry to a context's fault queue; it is written when the ring has room (R309). -/
def queueEntry (s : State) (g : Group) (p : Park) : State :=
  s.modifyCtx g.ctx fun c => { c with fqHeld := c.fqHeld ++ [(faultEntry g p, p.seq.toNat)] }

/-- The address that a park reports: its own, or the saved PC of the lowest lane (R308, R382). -/
def parkVa (g : Group) (a : ParkArgs) : DWord :=
  match a.va with
  | some v => v
  | none => (g.thread (a.lanes.headD 0)).pc

/-- Parks a group, whose threads already stand at their saved PCs: the record is numbered and emitted, and the entry
goes to the fault queue; where a record is already pending, the new one is held (R307). -/
def takePark (s : State) (uid : Nat) (a : ParkArgs) : State :=
  match s.group? uid with
  | none => s
  | some g =>
    let va := parkVa g a
    let park : Park :=
      { cause := BitVec.ofNat 16 a.cause, lanes := laneMask a.lanes, va := va, kind := a.kind,
        completing := a.completing, auto := a.action == 2, seq := s.records.next, skip := a.skip, setLevel := a.setLevel, time := s.clock
        segset := a.segset }
    let s1 := emitRecord s
      { team := g.team, ctx := g.ctx, action := a.action, engine := a.engine, cause := a.cause, slot := g.slot,
        core := g.core, lanes := park.lanes.toNat, va := some va.toNat, sev := a.sev, kind := a.kind, detail := a.detail }
    match g.park with
    | some _ => s1.setGroup { g with held := g.held ++ [(park, BitVec.ofNat 48 a.detail)] }
    | none => queueEntry (s1.setGroup { g with park := some park, gsaved := false, waited := 0, ages := [], sched := .waiting, promoted := none }) g park

/-! ## Leaving an exception (R310, R311) -/

/-- The lanes of a park that action 2 with a mask moves past the instruction. -/
def skippedLanes (p : Park) (action : Nat) (mask : DWord) : List Nat :=
  if action = 2 ∧ ¬ p.completing then
    (bitList p.lanes.toNat Config.width).filter fun l => !bitOf mask.toNat l
  else []

/-- The choice values at a group's first instruction and whenever it resumes from a save area (R132). -/
def Choice.start : Choice := { h := none, held := 0, c := 0, p := none, last := [] }

/-- The choice values after an action: they restart (R311), but a completed step keeps them (R142). -/
def choiceAfter (p : Park) (ch : Choice) : Choice := if p.cause = 0x0D02 then ch else Choice.start

/-- Releases a parked group under action 1 or 2; a held record is delivered instead (R307, R310, R311). -/
def releasePark (s : State) (uid action : Nat) (mask : DWord) : State :=
  match s.group? uid with
  | none => s
  | some g =>
    match g.park with
    | none => s
    | some p =>
      let g1 := g.modifyThreads (skippedLanes p action mask) fun t => { t with pc := t.pc + BitVec.ofNat 64 (4 * p.skip) }
      let g2 := { g1 with copies := g1.copies.map fun (c : CopyOp) =>
        match c.halted with
        | some (_, _, _, q) => if q = p.seq then { c with halted := none } else c
        | none => c }
      match g2.held with
      | (q, _) :: r => queueEntry (s.setGroup { g2 with park := some q, held := r, gsaved := false }) g2 q
      | [] => s.setGroup { g2 with park := none, choice := choiceAfter p g2.choice, sched := .waiting, elig := 0, waited := 0, ages := [], released := (s.cycles, p.seq.toNat) }

/-- Whether a mask is one that action 2 permits for a set-level fault (R310). -/
def maskSplits (p : Park) (mask : DWord) : Bool :=
  p.setLevel && decide (p.lanes &&& mask ≠ 0) && decide (p.lanes &&& mask ≠ p.lanes)

end Sys2Proof.Machine
end

