-- ==== Sys2Proof/Machine/Operands.lean ====
section
/-! DEFINITION. Extension words and operand forms (R30 to R40): the number that a register field names once its
extension bits are applied, the guard, the immediate, and the members of an issue. -/
namespace Sys2Proof.Machine

/-- The extension state of an issue, one payload for each kind present (R35 to R38). -/
structure Ext where
  pred : Option (BitVec 25) := none
  imm  : Option (BitVec 25) := none
  shi  : Option (BitVec 25) := none
  hint : Option (BitVec 25) := none
  deriving DecidableEq, Repr

/-- Adds one extension word to an extension state. Of two words of one kind, which R48 refuses only after the registers, the later one's payload
stands: the spec does not say which of them gives a register its high bits (DESIGN CHOICE, log entry 16). -/
def Ext.add (e : Ext) (w : Word) : Ext :=
  match decodeFields w with
  | .ok (.extPred p) => { e with pred := some p }
  | .ok (.extImm p) => { e with imm := some p }
  | .ok (.extShi p) => { e with shi := some p }
  | .ok (.extHint p) => { e with hint := some p }
  | _ => e

/-- The extension state of a list of extension words in fetch order. -/
def extOf (ws : List Word) : Ext := ws.foldl Ext.add {}

namespace Ext

/-- A field of EXT.PRED; an absent word has its default, GP 15 and 0 elsewhere (R35, R39). -/
def predField (e : Ext) (lo n dflt : Nat) : Nat :=
  match e.pred with
  | some p => bitsOf p.toNat lo n
  | none => dflt

/-- A field of EXT.SHI, 0 when the word is absent. -/
def shiField (e : Ext) (lo n : Nat) : Nat :=
  match e.shi with
  | some p => bitsOf p.toNat lo n
  | none => 0

/-- Z (R35). -/
def z (e : Ext) : Bool := e.predField 19 1 0 == 1
/-- SAT (R35). -/
def sat (e : Ext) : Bool := e.predField 3 1 0 == 1
/-- RM where RV overrides FPCTL (R35). -/
def rm? (e : Ext) : Option Nat := if e.predField 18 1 0 = 1 then some (e.predField 15 3 0) else none
/-- The fourth operand where QV names one (R35). -/
def q? (e : Ext) : Option Nat := if e.predField 14 1 0 = 1 then some (e.predField 7 7 0) else none
/-- EXT.HINT.YLD (R38). -/
def yields (e : Ext) : Bool :=
  match e.hint with
  | some p => bitOf p.toNat 24
  | none => false

/-- Bit 7 of a V register number, from the low bit of its field: D at 18, A at 11, B at 4 (R31, R35). -/
def vhigh (e : Ext) (lo : Nat) : Nat :=
  if lo = 18 then e.predField 6 1 0 else if lo = 11 then e.predField 5 1 0 else e.predField 4 1 0

/-- The number of a V register (R31). -/
def vnum (e : Ext) (lo : Nat) (f : VReg) : Nat := f.toNat + 128 * e.vhigh lo

/-- The number of an S register, from the low bit of its field (R31, R34, R37):
8-bit fields at 17, 9 and 1, MB at 6 in the D slot, and 7-bit fields at 18, 11 and 4. -/
def snum (e : Ext) (lo base : Nat) : Nat :=
  if lo = 17 ∨ lo = 6 then base + 256 * e.shiField 4 2
  else if lo = 9 then base + 256 * e.shiField 2 2
  else if lo = 1 then base + 256 * e.shiField 0 2
  else if lo = 18 then base + 128 * e.shiField 8 1 + 256 * e.shiField 4 2
  else if lo = 11 then base + 128 * e.shiField 7 1 + 256 * e.shiField 2 2
  else base + 128 * e.shiField 6 1 + 256 * e.shiField 0 2

/-- The completion register of an engine instruction, unless the field names none (R34). -/
def csnum (e : Ext) (cs : SReg) : Option Nat :=
  if cs.toNat = 255 ∧ e.shiField 0 2 = 0 then none else some (e.snum 1 cs.toNat)

/-- The value of a signed immediate of a width, with the high bits of EXT.IMM where it is present (R36). -/
def immediate (e : Ext) (width base : Nat) : Int :=
  match e.imm with
  | some p => toSigned (width + 25) (p.toNat * 2 ^ width + base)
  | none => toSigned width base

/-- Whether the guard of EXT.PRED is true in a thread (R56). -/
def guardHolds (e : Ext) (t : Thread) : Bool :=
  let gp := e.predField 20 4 15
  if gp = 15 then true else t.p.getLsbD gp != (e.predField 24 1 0 == 1)

end Ext

/-- Whether the guard G of a branch is true in a thread (R32). -/
def branchGuard (gd : Guard) (t : Thread) : Bool :=
  if gd.toNat % 16 = 15 then true else t.p.getLsbD (gd.toNat % 16) != (gd.toNat / 16 == 1)

/-- The class of a register operand (R10). -/
inductive RegClass where
  | v | s | t | a | p
  deriving DecidableEq, Repr

/-- A register operand as an instruction names it: its class, the low bit of its field, the field's value, how many
registers it spans, the alignment it needs, and for a destination how many registers are written. -/
structure Slot where
  cls   : RegClass
  lo    : Nat
  base  : Nat
  count : Nat
  align : Nat
  dst   : Nat
  deriving DecidableEq, Repr

/-- A source operand. -/
def rslot (c : RegClass) (lo base count align : Nat) : Slot := ⟨c, lo, base, count, align, 0⟩
/-- A destination operand. -/
def dslot (c : RegClass) (lo base count align dst : Nat) : Slot := ⟨c, lo, base, count, align, dst⟩
/-- The completion register pair of an engine instruction. -/
def csSlot (lo : Nat) (cs : SReg) : Slot := ⟨.s, lo, cs.toNat, 2, 2, 0⟩

/-- What extension words and subfields an instruction accepts (R39); an S slot gives the width of its field. -/
structure Accepts where
  guard : Bool := false
  rm    : Bool := false
  rsto  : Bool := false
  quad  : Bool := false
  sat   : Bool := false
  dh    : Bool := false
  ah    : Bool := false
  bh    : Bool := false
  imm   : Option Nat := none
  sd    : Option Nat := none
  sa    : Option Nat := none
  sb    : Option Nat := none
  deriving DecidableEq, Repr

/-- An instruction that accepts only EXT.HINT. -/
def noExt : Accepts := {}

/-- How many registers a shift of the wide form takes (R61). -/
def wregs (wide : Bool) : Nat := if wide then 2 else 1

/-- How many registers SRD writes (R77, R78). -/
def sysRegs (idx : BitVec 8) : Nat := if idx.toNat = 0x20 then 2 else 1

/-- Whether a system register is RW-P (R78). -/
def sysPriv (idx : BitVec 8) : Bool := idx.toNat == 0x28 || idx.toNat == 0x29 || idx.toNat == 0x2A

end Sys2Proof.Machine
end

