-- ==== Sys2Proof/Machine/OperandTable.lean ====
section
/-! DEFINITION. The operand roles and the accepted extension words of every row of the opcode map (R39, R42 to R46). -/
namespace Sys2Proof.Machine

/-- T registers that a tile of a format takes (R262). -/
def tileRegs (fmt : Nat) : Nat := if fmt = 2 then 2 else if fmt = 1 then 4 else 1

/-- The register operands of an instruction, in the order of its fields. PREF names its pair as every instruction of its majors
does: an odd A raises 0x0105, as R186 says, although R191 says that PREF never faults (DEDUCED, log entry 99). Of the operands of ATOM.cas only D,
or D:D+1, is a destination, which receives the old value: Z zeroes no other register, which R186 does not say (DESIGN CHOICE, log entry 122). -/
def slots : Instr → List Slot
  | .extPred _ => []
  | .extImm _ => []
  | .extShi _ => []
  | .extHint _ => []
  | .illegalInstruction _ => []
  | .iadd iw d a b => [dslot .v 18 d.toNat iw.regs iw.regs iw.regs, rslot .v 11 a.toNat iw.regs iw.regs, rslot .v 4 b.toNat iw.regs iw.regs]
  | .isub iw d a b => [dslot .v 18 d.toNat iw.regs iw.regs iw.regs, rslot .v 11 a.toNat iw.regs iw.regs, rslot .v 4 b.toNat iw.regs iw.regs]
  | .imul iw d a b => [dslot .v 18 d.toNat iw.regs iw.regs iw.regs, rslot .v 11 a.toNat iw.regs iw.regs, rslot .v 4 b.toNat iw.regs iw.regs]
  | .imulhi _ d a b => [dslot .v 18 d.toNat 1 1 1, rslot .v 11 a.toNat 1 1, rslot .v 4 b.toNat 1 1]
  | .imulw _ d a b => [dslot .v 18 d.toNat 2 2 2, rslot .v 11 a.toNat 1 1, rslot .v 4 b.toNat 1 1]
  | .idiv iw d a b => [dslot .v 18 d.toNat iw.regs iw.regs iw.regs, rslot .v 11 a.toNat iw.regs iw.regs, rslot .v 4 b.toNat iw.regs iw.regs]
  | .irem iw d a b => [dslot .v 18 d.toNat iw.regs iw.regs iw.regs, rslot .v 11 a.toNat iw.regs iw.regs, rslot .v 4 b.toNat iw.regs iw.regs]
  | .imin iw d a b => [dslot .v 18 d.toNat iw.regs iw.regs iw.regs, rslot .v 11 a.toNat iw.regs iw.regs, rslot .v 4 b.toNat iw.regs iw.regs]
  | .imax iw d a b => [dslot .v 18 d.toNat iw.regs iw.regs iw.regs, rslot .v 11 a.toNat iw.regs iw.regs, rslot .v 4 b.toNat iw.regs iw.regs]
  | .and d a b => [dslot .v 18 d.toNat 1 1 1, rslot .v 11 a.toNat 1 1, rslot .v 4 b.toNat 1 1]
  | .or d a b => [dslot .v 18 d.toNat 1 1 1, rslot .v 11 a.toNat 1 1, rslot .v 4 b.toNat 1 1]
  | .xor d a b => [dslot .v 18 d.toNat 1 1 1, rslot .v 11 a.toNat 1 1, rslot .v 4 b.toNat 1 1]
  | .andn d a b => [dslot .v 18 d.toNat 1 1 1, rslot .v 11 a.toNat 1 1, rslot .v 4 b.toNat 1 1]
  | .shl wide d a b => [dslot .v 18 d.toNat (wregs wide) (wregs wide) (wregs wide), rslot .v 11 a.toNat (wregs wide) (wregs wide), rslot .v 4 b.toNat 1 1]
  | .shr wide d a b => [dslot .v 18 d.toNat (wregs wide) (wregs wide) (wregs wide), rslot .v 11 a.toNat (wregs wide) (wregs wide), rslot .v 4 b.toNat 1 1]
  | .sar wide d a b => [dslot .v 18 d.toNat (wregs wide) (wregs wide) (wregs wide), rslot .v 11 a.toNat (wregs wide) (wregs wide), rslot .v 4 b.toNat 1 1]
  | .rol wide d a b => [dslot .v 18 d.toNat (wregs wide) (wregs wide) (wregs wide), rslot .v 11 a.toNat (wregs wide) (wregs wide), rslot .v 4 b.toNat 1 1]
  | .bfe _ d a b => [dslot .v 18 d.toNat 1 1 1, rslot .v 11 a.toNat 1 1, rslot .v 4 b.toNat 1 1]
  | .bfi d a b => [dslot .v 18 d.toNat 1 1 1, rslot .v 11 a.toNat 1 1, rslot .v 4 b.toNat 1 1]
  | .popc d a => [dslot .v 18 d.toNat 1 1 1, rslot .v 11 a.toNat 1 1]
  | .clz d a => [dslot .v 18 d.toNat 1 1 1, rslot .v 11 a.toNat 1 1]
  | .ctz d a => [dslot .v 18 d.toNat 1 1 1, rslot .v 11 a.toNat 1 1]
  | .brev d a => [dslot .v 18 d.toNat 1 1 1, rslot .v 11 a.toNat 1 1]
  | .icmpp wide _ pd a b => [dslot .p 18 pd.toNat 1 1 1, rslot .v 11 a.toNat (wregs wide) (wregs wide), rslot .v 4 b.toNat (wregs wide) (wregs wide)]
  | .pand pd _ _ => [dslot .p 18 pd.toNat 1 1 1]
  | .por pd _ _ => [dslot .p 18 pd.toNat 1 1 1]
  | .pxor pd _ _ => [dslot .p 18 pd.toNat 1 1 1]
  | .pandn pd _ _ => [dslot .p 18 pd.toNat 1 1 1]
  | .sel _ d a b => [dslot .v 18 d.toNat 1 1 1, rslot .v 11 a.toNat 1 1, rslot .v 4 b.toNat 1 1]
  | .iaddi d a _ => [dslot .v 18 d.toNat 1 1 1, rslot .v 11 a.toNat 1 1]
  | .movi d _ => [dslot .v 18 d.toNat 1 1 1]
  | .andi d a _ => [dslot .v 18 d.toNat 1 1 1, rslot .v 11 a.toNat 1 1]
  | .ori d a _ => [dslot .v 18 d.toNat 1 1 1, rslot .v 11 a.toNat 1 1]
  | .xori d a _ => [dslot .v 18 d.toNat 1 1 1, rslot .v 11 a.toNat 1 1]
  | .shli d a _ => [dslot .v 18 d.toNat 1 1 1, rslot .v 11 a.toNat 1 1]
  | .shri d a _ => [dslot .v 18 d.toNat 1 1 1, rslot .v 11 a.toNat 1 1]
  | .sari d a _ => [dslot .v 18 d.toNat 1 1 1, rslot .v 11 a.toNat 1 1]
  | .roli d a _ => [dslot .v 18 d.toNat 1 1 1, rslot .v 11 a.toNat 1 1]
  | .icmppi _ pd a _ => [dslot .p 18 pd.toNat 1 1 1, rslot .v 11 a.toNat 1 1]
  | .lea _ _ d a b => [dslot .v 18 d.toNat 2 2 2, rslot .v 11 a.toNat 2 2, rslot .v 4 b.toNat 1 1]
  | .leai d a _ => [dslot .v 18 d.toNat 2 2 2, rslot .v 11 a.toNat 2 2]
  | .bra _ _ => []
  | .call _ _ => []
  | .jmpi a => [rslot .v 11 a.toNat 2 2]
  | .calli d a => [dslot .v 18 d.toNat 2 2 2, rslot .v 11 a.toNat 2 2]
  | .ret a => [rslot .v 11 a.toNat 2 2]
  | .nop => []
  | .land => []
  | .yield => []
  | .exit => []
  | .brk => []
  | .join a => [rslot .s 9 a.toNat 2 2]
  | .srd d idx => [dslot .v 18 d.toNat (sysRegs idx) (sysRegs idx) (sysRegs idx)]
  | .swr a _ => [rslot .v 11 a.toNat 1 1]
  | .resume d a b => [rslot .v 18 d.toNat 1 1, rslot .v 11 a.toNat 2 2, rslot .v 4 b.toNat 1 1]
  | .gsave d b => [rslot .v 18 d.toNat 1 1, rslot .v 4 b.toNat 1 1]
  | .gload d b => [rslot .v 18 d.toNat 1 1, rslot .v 4 b.toNat 1 1]
  | .fqpop d a b => [rslot .v 18 d.toNat 1 1, rslot .v 11 a.toNat 2 2, rslot .v 4 b.toNat 1 1]
  | .trap _ => []
  | .fadd ft d a b => [dslot .v 18 d.toNat ft.regs ft.regs ft.regs, rslot .v 11 a.toNat ft.regs ft.regs, rslot .v 4 b.toNat ft.regs ft.regs]
  | .fsub ft d a b => [dslot .v 18 d.toNat ft.regs ft.regs ft.regs, rslot .v 11 a.toNat ft.regs ft.regs, rslot .v 4 b.toNat ft.regs ft.regs]
  | .fmul ft d a b => [dslot .v 18 d.toNat ft.regs ft.regs ft.regs, rslot .v 11 a.toNat ft.regs ft.regs, rslot .v 4 b.toNat ft.regs ft.regs]
  | .ffma ft d a b => [dslot .v 18 d.toNat ft.regs ft.regs ft.regs, rslot .v 11 a.toNat ft.regs ft.regs, rslot .v 4 b.toNat ft.regs ft.regs]
  | .fdiv ft d a b => [dslot .v 18 d.toNat ft.regs ft.regs ft.regs, rslot .v 11 a.toNat ft.regs ft.regs, rslot .v 4 b.toNat ft.regs ft.regs]
  | .fsqrt ft d a => [dslot .v 18 d.toNat ft.regs ft.regs ft.regs, rslot .v 11 a.toNat ft.regs ft.regs]
  | .frcp ft d a => [dslot .v 18 d.toNat ft.regs ft.regs ft.regs, rslot .v 11 a.toNat ft.regs ft.regs]
  | .frsq ft d a => [dslot .v 18 d.toNat ft.regs ft.regs ft.regs, rslot .v 11 a.toNat ft.regs ft.regs]
  | .exp2 d a => [dslot .v 18 d.toNat 1 1 1, rslot .v 11 a.toNat 1 1]
  | .log2 d a => [dslot .v 18 d.toNat 1 1 1, rslot .v 11 a.toNat 1 1]
  | .sin d a => [dslot .v 18 d.toNat 1 1 1, rslot .v 11 a.toNat 1 1]
  | .cos d a => [dslot .v 18 d.toNat 1 1 1, rslot .v 11 a.toNat 1 1]
  | .fmin ft d a b => [dslot .v 18 d.toNat ft.regs ft.regs ft.regs, rslot .v 11 a.toNat ft.regs ft.regs, rslot .v 4 b.toNat ft.regs ft.regs]
  | .fmax ft d a b => [dslot .v 18 d.toNat ft.regs ft.regs ft.regs, rslot .v 11 a.toNat ft.regs ft.regs, rslot .v 4 b.toNat ft.regs ft.regs]
  | .fcmpp ft _ pd a b => [dslot .p 18 pd.toNat 1 1 1, rslot .v 11 a.toNat ft.regs ft.regs, rslot .v 4 b.toNat ft.regs ft.regs]
  | .fclass ft d a => [dslot .v 18 d.toNat 1 1 1, rslot .v 11 a.toNat ft.regs ft.regs]
  | .fabs ft d a => [dslot .v 18 d.toNat ft.regs ft.regs ft.regs, rslot .v 11 a.toNat ft.regs ft.regs]
  | .fneg ft d a => [dslot .v 18 d.toNat ft.regs ft.regs ft.regs, rslot .v 11 a.toNat ft.regs ft.regs]
  | .fcpys ft d a b => [dslot .v 18 d.toNat ft.regs ft.regs ft.regs, rslot .v 11 a.toNat ft.regs ft.regs, rslot .v 4 b.toNat ft.regs ft.regs]
  | .cvtf src dst d a => [dslot .v 18 d.toNat dst.regs dst.regs dst.regs, rslot .v 11 a.toNat src.regs src.regs]
  | .cvtfi src dst d a => [dslot .v 18 d.toNat dst.regs dst.regs dst.regs, rslot .v 11 a.toNat src.regs src.regs]
  | .cvtif src dst d a => [dslot .v 18 d.toNat dst.regs dst.regs dst.regs, rslot .v 11 a.toNat src.regs src.regs]
  | .fscale ft d a b => [dslot .v 18 d.toNat ft.regs ft.regs ft.regs, rslot .v 11 a.toNat ft.regs ft.regs, rslot .v 4 b.toNat 1 1]
  | .frnd ft d a => [dslot .v 18 d.toNat ft.regs ft.regs ft.regs, rslot .v 11 a.toNat ft.regs ft.regs]
  | .faddx fw d a b => [dslot .v 18 d.toNat (2 * fw.regs) (2 * fw.regs) (2 * fw.regs), rslot .v 11 a.toNat fw.regs fw.regs, rslot .v 4 b.toNat fw.regs fw.regs]
  | .fsubx fw d a b => [dslot .v 18 d.toNat (2 * fw.regs) (2 * fw.regs) (2 * fw.regs), rslot .v 11 a.toNat fw.regs fw.regs, rslot .v 4 b.toNat fw.regs fw.regs]
  | .fmulx fw d a b => [dslot .v 18 d.toNat (2 * fw.regs) (2 * fw.regs) (2 * fw.regs), rslot .v 11 a.toNat fw.regs fw.regs, rslot .v 4 b.toNat fw.regs fw.regs]
  | .dwadd fw d a b => [dslot .v 18 d.toNat (2 * fw.regs) (2 * fw.regs) (2 * fw.regs), rslot .v 11 a.toNat (2 * fw.regs) (2 * fw.regs), rslot .v 4 b.toNat (2 * fw.regs) (2 * fw.regs)]
  | .dwsub fw d a b => [dslot .v 18 d.toNat (2 * fw.regs) (2 * fw.regs) (2 * fw.regs), rslot .v 11 a.toNat (2 * fw.regs) (2 * fw.regs), rslot .v 4 b.toNat (2 * fw.regs) (2 * fw.regs)]
  | .dwmul fw d a b => [dslot .v 18 d.toNat (2 * fw.regs) (2 * fw.regs) (2 * fw.regs), rslot .v 11 a.toNat (2 * fw.regs) (2 * fw.regs), rslot .v 4 b.toNat (2 * fw.regs) (2 * fw.regs)]
  | .dwfma fw d a b => [dslot .v 18 d.toNat (2 * fw.regs) (2 * fw.regs) (2 * fw.regs), rslot .v 11 a.toNat (2 * fw.regs) (2 * fw.regs), rslot .v 4 b.toNat (2 * fw.regs) (2 * fw.regs)]
  | .dwnorm fw d a => [dslot .v 18 d.toNat (2 * fw.regs) (2 * fw.regs) (2 * fw.regs), rslot .v 11 a.toNat (2 * fw.regs) (2 * fw.regs)]
  | .pack nf d a b => [dslot .v 18 d.toNat 1 1 1, rslot .v 11 a.toNat nf.count nf.count, rslot .v 4 b.toNat 1 1]
  | .unpk nf d a b => [dslot .v 18 d.toNat nf.count nf.count nf.count, rslot .v 11 a.toNat 1 1, rslot .v 4 b.toNat 1 1]
  | .sadd d a b => [dslot .s 17 d.toNat 1 1 1, rslot .s 9 a.toNat 1 1, rslot .s 1 b.toNat 1 1]
  | .ssub d a b => [dslot .s 17 d.toNat 1 1 1, rslot .s 9 a.toNat 1 1, rslot .s 1 b.toNat 1 1]
  | .smul d a b => [dslot .s 17 d.toNat 1 1 1, rslot .s 9 a.toNat 1 1, rslot .s 1 b.toNat 1 1]
  | .smulhi d a b => [dslot .s 17 d.toNat 1 1 1, rslot .s 9 a.toNat 1 1, rslot .s 1 b.toNat 1 1]
  | .sand d a b => [dslot .s 17 d.toNat 1 1 1, rslot .s 9 a.toNat 1 1, rslot .s 1 b.toNat 1 1]
  | .sor d a b => [dslot .s 17 d.toNat 1 1 1, rslot .s 9 a.toNat 1 1, rslot .s 1 b.toNat 1 1]
  | .sxor d a b => [dslot .s 17 d.toNat 1 1 1, rslot .s 9 a.toNat 1 1, rslot .s 1 b.toNat 1 1]
  | .sandn d a b => [dslot .s 17 d.toNat 1 1 1, rslot .s 9 a.toNat 1 1, rslot .s 1 b.toNat 1 1]
  | .sshl d a b => [dslot .s 17 d.toNat 1 1 1, rslot .s 9 a.toNat 1 1, rslot .s 1 b.toNat 1 1]
  | .sshr d a b => [dslot .s 17 d.toNat 1 1 1, rslot .s 9 a.toNat 1 1, rslot .s 1 b.toNat 1 1]
  | .smin d a b => [dslot .s 17 d.toNat 1 1 1, rslot .s 9 a.toNat 1 1, rslot .s 1 b.toNat 1 1]
  | .smax d a b => [dslot .s 17 d.toNat 1 1 1, rslot .s 9 a.toNat 1 1, rslot .s 1 b.toNat 1 1]
  | .saddi d a _ => [dslot .s 17 d.toNat 1 1 1, rslot .s 9 a.toNat 1 1]
  | .smovi d _ => [dslot .s 17 d.toNat 1 1 1]
  | .scmpp _ pd a b => [dslot .p 17 pd.toNat 1 1 1, rslot .s 9 a.toNat 1 1, rslot .s 1 b.toNat 1 1]
  | .sbrz d _ => [rslot .s 17 d.toNat 1 1]
  | .sbrnz d _ => [rslot .s 17 d.toNat 1 1]
  | .sldI32 d a _ _ _ => [dslot .s 18 d.toNat 1 1 1, rslot .s 11 a.toNat 2 2]
  | .sldI64 d a _ _ _ => [dslot .s 18 d.toNat 2 2 2, rslot .s 11 a.toNat 2 2]
  | .sstI32 d a _ _ _ => [rslot .s 18 d.toNat 1 1, rslot .s 11 a.toNat 2 2]
  | .sstI64 d a _ _ _ => [rslot .s 18 d.toNat 2 2, rslot .s 11 a.toNat 2 2]
  | .movsv d a => [dslot .v 18 d.toNat 1 1 1, rslot .s 11 a.toNat 1 1]
  | .movvs d a => [dslot .s 18 d.toNat 1 1 1, rslot .v 11 a.toNat 1 1]
  | .lgetAbs d a b => [dslot .v 18 d.toNat 1 1 1, rslot .v 11 a.toNat 1 1, rslot .v 4 b.toNat 1 1]
  | .lgetBelow d a b => [dslot .v 18 d.toNat 1 1 1, rslot .v 11 a.toNat 1 1, rslot .v 4 b.toNat 1 1]
  | .lgetAbove d a b => [dslot .v 18 d.toNat 1 1 1, rslot .v 11 a.toNat 1 1, rslot .v 4 b.toNat 1 1]
  | .lgetFlip d a b => [dslot .v 18 d.toNat 1 1 1, rslot .v 11 a.toNat 1 1, rslot .v 4 b.toNat 1 1]
  | .lany pd _ => [dslot .p 18 pd.toNat 1 1 1]
  | .lall pd _ => [dslot .p 18 pd.toNat 1 1 1]
  | .lmask d _ => [dslot .v 18 d.toNat 2 2 2]
  | .llead pd => [dslot .p 18 pd.toNat 1 1 1]
  | .redf fw d a => [dslot .v 18 d.toNat fw.regs fw.regs fw.regs, rslot .v 11 a.toNat fw.regs fw.regs]
  | .redx fw d a => [dslot .v 18 d.toNat (2 * fw.regs) (2 * fw.regs) (2 * fw.regs), rslot .v 11 a.toNat (2 * fw.regs) (2 * fw.regs)]
  | .rediAddI32 d a => [dslot .v 18 d.toNat 1 1 1, rslot .v 11 a.toNat 1 1]
  | .rediMinI32 d a => [dslot .v 18 d.toNat 1 1 1, rslot .v 11 a.toNat 1 1]
  | .rediMaxI32 d a => [dslot .v 18 d.toNat 1 1 1, rslot .v 11 a.toNat 1 1]
  | .rediMinN32 d a => [dslot .v 18 d.toNat 1 1 1, rslot .v 11 a.toNat 1 1]
  | .rediMaxN32 d a => [dslot .v 18 d.toNat 1 1 1, rslot .v 11 a.toNat 1 1]
  | .rediAnd d a => [dslot .v 18 d.toNat 1 1 1, rslot .v 11 a.toNat 1 1]
  | .rediOr d a => [dslot .v 18 d.toNat 1 1 1, rslot .v 11 a.toNat 1 1]
  | .rediXor d a => [dslot .v 18 d.toNat 1 1 1, rslot .v 11 a.toNat 1 1]
  | .scaniAddI32 d a => [dslot .v 18 d.toNat 1 1 1, rslot .v 11 a.toNat 1 1]
  | .scaniAddI32Excl d a => [dslot .v 18 d.toNat 1 1 1, rslot .v 11 a.toNat 1 1]
  | .scanfF32 d a => [dslot .v 18 d.toNat 1 1 1, rslot .v 11 a.toNat 1 1]
  | .scanxF32 d a => [dslot .v 18 d.toNat 2 2 2, rslot .v 11 a.toNat 2 2]
  | .regroup d a b => [dslot .v 18 d.toNat 1 1 1, rslot .v 11 a.toNat 1 1, rslot .s 4 b.toNat 8 8]
  | .randN32 d => [dslot .v 18 d.toNat 1 1 1]
  | .randF32 d => [dslot .v 18 d.toNat 1 1 1]
  | .randN64 d => [dslot .v 18 d.toNat 2 2 2]
  | .rdvMark d _ _ => [dslot .s 17 d.toNat 1 1 1]
  | .rdvHold d _ _ => [dslot .s 17 d.toNat 1 1 1]
  | .rdvMeet d _ _ => [dslot .s 17 d.toNat 1 1 1]
  | .rdvPeek d _ _ => [dslot .s 17 d.toNat 1 1 1]
  | .pmovToV d => [dslot .v 18 d.toNat 1 1 1]
  | .pmovToP a => [rslot .v 11 a.toNat 1 1]
  | .ldI32 d a _ _ _ => [dslot .v 18 d.toNat 1 1 1, rslot .v 11 a.toNat 2 2]
  | .ldI64 d a _ _ _ => [dslot .v 18 d.toNat 2 2 2, rslot .v 11 a.toNat 2 2]
  | .stI32 d a _ _ _ => [rslot .v 18 d.toNat 1 1, rslot .v 11 a.toNat 2 2]
  | .stI64 d a _ _ _ => [rslot .v 18 d.toNat 2 2, rslot .v 11 a.toNat 2 2]
  | .ldI8 d a b => [dslot .v 18 d.toNat 1 1 1, rslot .v 11 a.toNat 2 2, rslot .v 4 b.toNat 1 1]
  | .ldN8 d a b => [dslot .v 18 d.toNat 1 1 1, rslot .v 11 a.toNat 2 2, rslot .v 4 b.toNat 1 1]
  | .ldI16 d a b => [dslot .v 18 d.toNat 1 1 1, rslot .v 11 a.toNat 2 2, rslot .v 4 b.toNat 1 1]
  | .ldN16 d a b => [dslot .v 18 d.toNat 1 1 1, rslot .v 11 a.toNat 2 2, rslot .v 4 b.toNat 1 1]
  | .ldq d a b => [dslot .v 18 d.toNat 4 4 4, rslot .v 11 a.toNat 2 2, rslot .v 4 b.toNat 1 1]
  | .stI8 d a b => [rslot .v 18 d.toNat 1 1, rslot .v 11 a.toNat 2 2, rslot .v 4 b.toNat 1 1]
  | .stI16 d a b => [rslot .v 18 d.toNat 1 1, rslot .v 11 a.toNat 2 2, rslot .v 4 b.toNat 1 1]
  | .stq d a b => [rslot .v 18 d.toNat 4 4, rslot .v 11 a.toNat 2 2, rslot .v 4 b.toNat 1 1]
  | .dld d a b => [dslot .v 18 d.toNat 2 2 2, rslot .v 11 a.toNat 2 2, rslot .v 4 b.toNat 1 1]
  | .dst d a b => [rslot .v 18 d.toNat 1 1, rslot .v 11 a.toNat 2 2, rslot .v 4 b.toNat 1 1]
  | .segq d a b => [dslot .v 18 d.toNat 1 1 1, rslot .v 11 a.toNat 2 2, rslot .v 4 b.toNat 1 1]
  | .segset d a b => [rslot .v 18 d.toNat 1 1, rslot .v 11 a.toNat 2 2, rslot .v 4 b.toNat 1 1]
  | .pref a b => [rslot .v 11 a.toNat 2 2, rslot .v 4 b.toNat 1 1]
  | .atomAddI32 d a _ _ => [dslot .v 18 d.toNat 1 1 1, rslot .v 11 a.toNat 2 2]
  | .atomMinI32 d a _ _ => [dslot .v 18 d.toNat 1 1 1, rslot .v 11 a.toNat 2 2]
  | .atomMaxI32 d a _ _ => [dslot .v 18 d.toNat 1 1 1, rslot .v 11 a.toNat 2 2]
  | .atomMinN32 d a _ _ => [dslot .v 18 d.toNat 1 1 1, rslot .v 11 a.toNat 2 2]
  | .atomMaxN32 d a _ _ => [dslot .v 18 d.toNat 1 1 1, rslot .v 11 a.toNat 2 2]
  | .atomAnd d a _ _ => [dslot .v 18 d.toNat 1 1 1, rslot .v 11 a.toNat 2 2]
  | .atomOr d a _ _ => [dslot .v 18 d.toNat 1 1 1, rslot .v 11 a.toNat 2 2]
  | .atomXor d a _ _ => [dslot .v 18 d.toNat 1 1 1, rslot .v 11 a.toNat 2 2]
  | .atomXchgI32 d a _ _ => [dslot .v 18 d.toNat 1 1 1, rslot .v 11 a.toNat 2 2]
  | .atomCasI32 d a _ _ => [dslot .v 18 d.toNat 2 2 1, rslot .v 11 a.toNat 2 2]
  | .atomAddF32 d a _ _ => [dslot .v 18 d.toNat 1 1 1, rslot .v 11 a.toNat 2 2]
  | .atomAddI64 d a _ _ => [dslot .v 18 d.toNat 2 2 2, rslot .v 11 a.toNat 2 2]
  | .atomXchgI64 d a _ _ => [dslot .v 18 d.toNat 2 2 2, rslot .v 11 a.toNat 2 2]
  | .atomCasI64 d a _ _ => [dslot .v 18 d.toNat 4 4 2, rslot .v 11 a.toNat 2 2]
  | .fence _ _ => []
  | .wait _ _ _ _ _ => []
  | .rinst sh co cs => [rslot .s 17 sh.toNat 2 2, rslot .s 9 co.toNat 4 2, csSlot 1 cs]
  | .rfit sh cs => [rslot .s 17 sh.toNat 2 2, csSlot 1 cs]
  | .rdem sh cs => [rslot .s 17 sh.toNat 2 2, csSlot 1 cs]
  | .rabort sh cs => [rslot .s 17 sh.toNat 2 2, csSlot 1 cs]
  | .rldg d a _ _ => [dslot .v 18 d.toNat 2 2 2, rslot .v 11 a.toNat 2 2]
  | .rstat d a b => [dslot .s 17 d.toNat 1 1 1, rslot .s 9 a.toNat 2 2, rslot .s 1 b.toNat 1 1]
  | .cpy sh co cs => [rslot .s 17 sh.toNat 2 2, rslot .s 9 co.toNat 4 4, csSlot 1 cs]
  | .cpyt sh co cs => [rslot .s 17 sh.toNat 2 2, rslot .s 9 co.toNat 4 4, csSlot 1 cs]
  | .cvtc sh co cs => [rslot .s 17 sh.toNat 2 2, rslot .s 9 co.toNat 4 4, csSlot 1 cs]
  | .qnt sh co cs => [rslot .s 17 sh.toNat 2 2, rslot .s 9 co.toNat 4 4, csSlot 1 cs]
  | .rmat sh co cs => [rslot .s 17 sh.toNat 2 2, rslot .s 9 co.toNat 4 4, csSlot 1 cs]
  | .cpfill sh co cs => [rslot .s 17 sh.toNat 2 2, rslot .s 9 co.toNat 4 4, csSlot 1 cs]
  | .cpst d b => [dslot .s 17 d.toNat 1 1 1, rslot .s 1 b.toNat 1 1]
  | .cpcan d a => [dslot .s 17 d.toNat 1 1 1, rslot .s 9 a.toNat 1 1]
  | .tld _ ta mb => [rslot .t 18 ta.toNat 1 1, rslot .s 6 mb.toNat 4 2]
  | .tstr ta mb => [rslot .t 18 ta.toNat 1 1, rslot .s 6 mb.toNat 4 2]
  | .mma acc ta tb mb => [rslot .a 22 acc.toNat 1 1, rslot .t 18 ta.toNat 1 1, rslot .t 14 tb.toNat 1 1, rslot .s 6 mb.toNat 3 1]
  | .mmaDw acc ta tb mb => [rslot .a 22 acc.toNat 2 2, rslot .t 18 ta.toNat 1 1, rslot .t 14 tb.toNat 1 1, rslot .s 6 mb.toNat 3 1]
  | .tzero fmt ta => [rslot .t 18 ta.toNat (tileRegs fmt.toNat) (tileRegs fmt.toNat)]
  | .azero tag acc => [rslot .a 22 acc.toNat tag.regs tag.regs]
  | .amov acc asrc => [rslot .a 22 acc.toNat 1 1, rslot .a 18 asrc.toNat 1 1]
  | .ald tag acc mb => [rslot .a 22 acc.toNat tag.regs tag.regs, rslot .s 6 mb.toNat 4 2]
  | .ast acc mb => [rslot .a 22 acc.toNat 1 1, rslot .s 6 mb.toNat 4 2]
  | .asnap acc adst mb => [rslot .a 22 acc.toNat 1 1, rslot .a 18 adst.toNat 1 1, dslot .s 6 mb.toNat 1 1 1]
  | .ttrn ta tb => [rslot .t 18 ta.toNat 1 1, rslot .t 14 tb.toNat 1 1]
  | .gbind sh co cs => [rslot .s 17 sh.toNat 2 2, rslot .s 9 co.toNat 2 2, csSlot 1 cs]
  | .grebind sh co cs => [rslot .s 17 sh.toNat 2 2, rslot .s 9 co.toNat 2 2, csSlot 1 cs]
  | .gstat d a b => [dslot .s 17 d.toNat 1 1 1, rslot .s 9 a.toNat 2 2, rslot .s 1 b.toNat 1 1]
  | .chstat d a b => [dslot .s 17 d.toNat 1 1 1, rslot .s 9 a.toNat 2 2, rslot .s 1 b.toNat 1 1]
  | .fire pd a => [dslot .p 17 pd.toNat 1 1 1, rslot .s 9 a.toNat 2 2]
  | .fend a b => [rslot .s 9 a.toNat 2 2, rslot .s 1 b.toNat 1 1]
  | .send a b => [rslot .s 9 a.toNat 2 2, rslot .s 1 b.toNat 1 1]
  | .recv pd a b => [dslot .p 17 pd.toNat 1 1 1, rslot .s 9 a.toNat 2 2, rslot .s 1 b.toNat 1 1]
  | .seal _ => []
  | .sealreq d => [dslot .s 17 d.toNat 1 1 1]
  | .rvrd d b => [dslot .s 17 d.toNat 1 1 1, rslot .s 1 b.toNat 1 1]
  | .coll sh co cs => [rslot .s 17 sh.toNat 2 2, rslot .s 9 co.toNat 2 2, csSlot 1 cs]
  | .lease sh cs => [rslot .s 17 sh.toNat 2 2, csSlot 1 cs]
  | .clarb d a => [dslot .s 17 d.toNat 1 1 1, rslot .s 9 a.toNat 1 1]
  | .clstat d b => [dslot .s 17 d.toNat 1 1 1, rslot .s 1 b.toNat 1 1]
  | .loadValueReturn _ _ => []
  | .storePerformed _ _ => []
  | .eligibilityPromotion _ => []
  | .copyCompletion _ => []
  | .copyHalt _ _ => []
  | .mmaCompletion _ => []
  | .springOperationArrival _ _ => []
  | .installEnd _ => []
  | .refitCommit _ => []
  | .demotionEnd _ => []
  | .regionOperationCompletion _ => []
  | .bind _ _ => []
  | .rebind _ _ => []
  | .collReadyPassed _ _ => []
  | .collectiveCompletion _ _ => []
  | .leaseCompletion _ => []
  | .faultQueueEntryWrite _ => []
  | .recordWrite => []
  | .contextSave _ => []
  | .watchdog _ => []
  | .stallLimit => []
  | .sealPeriod => []
  | .sealTrigger => []
  | .prepare _ => []
  | .ready => []
  | .sealTimeout => []
  | .abort _ => []
  | .commit _ => []
  | .rintagAgeing => []
  | .uncorrectableMemoryError _ => []
  | .correctableError _ => []
  | .fabricPortError _ _ => []
  | .noRoute _ => []
  | .peerAccessArrival _ => []
  | .leaseNotice _ _ _ => []
  | .leaseDeadline _ _ => []
  | .hostCxlMemAccess _ _ => []
  | .itailWrite _ _ => []
  | .ictlWrite _ _ => []
  | .ibaseWrite _ _ => []
  | .launchTake _ => []
  | .teamPlacement _ _ => []
  | .launchCompletion _ => []
  | .create => []
  | .destroy => []
  | .preempt => []
  | .restore _ => []
  | .inval => []
  | .retire => []
  | .cmdFqpop => []
  | .cmdLeaseGrant => []
  | .cmdLeaseRevoke => []
  | .cmdLeaseRegister => []
  | .domain _ => []
  | .rqctlWrite _ => []
  | .rqheadWrite _ => []
  | .rstctl _ => []
  | .powerOn => []
  | .linkReset => []
  | .hexwd => []
  | .thermalTrip _ => []
  | .voltageFault _ => []
  | .suppliesStable => []
  | .calibrationDone => []
  | .firmwareVerified _ _ => []
  | .bootctlStart _ => []
  | .initDone => []
  | .monitorUpdate _ => []
  | .throttleStep _ => []
  | .powerCapStep _ => []
  | .attctlRequest _ => []
  | .attestationComplete _ => []
  | .registerWrite _ _ _ => []
  | .hostLinkRetrained => []
  | .routeRegained _ => []
  | .leaseReleaseAtLender _ _ => []
  | .undefinedCommand _ => []

/-- The extension words and subfields that an instruction accepts (R39). -/
def accepts : Instr → Accepts
  | .extPred _ => noExt
  | .extImm _ => noExt
  | .extShi _ => noExt
  | .extHint _ => noExt
  | .illegalInstruction _ => noExt
  | .iadd iw _ _ _ => { guard := true, sat := iw.regs == 1, dh := true, ah := true, bh := true }
  | .isub iw _ _ _ => { guard := true, sat := iw.regs == 1, dh := true, ah := true, bh := true }
  | .imul _ _ _ _ => { guard := true, dh := true, ah := true, bh := true }
  | .imulhi _ _ _ _ => { guard := true, dh := true, ah := true, bh := true }
  | .imulw _ _ _ _ => { guard := true, dh := true, ah := true, bh := true }
  | .idiv _ _ _ _ => { guard := true, dh := true, ah := true, bh := true }
  | .irem _ _ _ _ => { guard := true, dh := true, ah := true, bh := true }
  | .imin _ _ _ _ => { guard := true, dh := true, ah := true, bh := true }
  | .imax _ _ _ _ => { guard := true, dh := true, ah := true, bh := true }
  | .and _ _ _ => { guard := true, dh := true, ah := true, bh := true }
  | .or _ _ _ => { guard := true, dh := true, ah := true, bh := true }
  | .xor _ _ _ => { guard := true, dh := true, ah := true, bh := true }
  | .andn _ _ _ => { guard := true, dh := true, ah := true, bh := true }
  | .shl _ _ _ _ => { guard := true, dh := true, ah := true, bh := true }
  | .shr _ _ _ _ => { guard := true, dh := true, ah := true, bh := true }
  | .sar _ _ _ _ => { guard := true, dh := true, ah := true, bh := true }
  | .rol _ _ _ _ => { guard := true, dh := true, ah := true, bh := true }
  | .bfe _ _ _ _ => { guard := true, dh := true, ah := true, bh := true }
  | .bfi _ _ _ => { guard := true, dh := true, ah := true, bh := true }
  | .popc _ _ => { guard := true, dh := true, ah := true }
  | .clz _ _ => { guard := true, dh := true, ah := true }
  | .ctz _ _ => { guard := true, dh := true, ah := true }
  | .brev _ _ => { guard := true, dh := true, ah := true }
  | .icmpp _ _ _ _ _ => { guard := true, ah := true, bh := true }
  | .pand _ _ _ => { guard := true }
  | .por _ _ _ => { guard := true }
  | .pxor _ _ _ => { guard := true }
  | .pandn _ _ _ => { guard := true }
  | .sel _ _ _ _ => { guard := true, dh := true, ah := true, bh := true }
  | .iaddi _ _ _ => { guard := true, sat := true, imm := some 11, dh := true, ah := true }
  | .movi _ _ => { guard := true, imm := some 11, dh := true }
  | .andi _ _ _ => { guard := true, imm := some 11, dh := true, ah := true }
  | .ori _ _ _ => { guard := true, imm := some 11, dh := true, ah := true }
  | .xori _ _ _ => { guard := true, imm := some 11, dh := true, ah := true }
  | .shli _ _ _ => { guard := true, dh := true, ah := true }
  | .shri _ _ _ => { guard := true, dh := true, ah := true }
  | .sari _ _ _ => { guard := true, dh := true, ah := true }
  | .roli _ _ _ => { guard := true, dh := true, ah := true }
  | .icmppi _ _ _ _ => { guard := true, imm := some 11, ah := true }
  | .lea _ _ _ _ _ => { guard := true, dh := true, ah := true, bh := true }
  | .leai _ _ _ => { guard := true, imm := some 11, dh := true, ah := true }
  | .bra _ _ => { imm := some 20 }
  | .call _ _ => { imm := some 20 }
  | .jmpi _ => { guard := true, ah := true }
  | .calli _ _ => { guard := true, dh := true, ah := true }
  | .ret _ => { guard := true, ah := true }
  | .nop => noExt
  | .land => noExt
  | .yield => noExt
  | .exit => noExt
  | .brk => noExt
  | .join _ => { sa := some 8 }
  | .srd _ _ => { guard := true, dh := true }
  | .swr _ _ => { guard := true, ah := true }
  | .resume _ _ _ => noExt
  | .gsave _ _ => noExt
  | .gload _ _ => noExt
  | .fqpop _ _ _ => noExt
  | .trap _ => { guard := true }
  | .fadd _ _ _ _ => { guard := true, rm := true, dh := true, ah := true, bh := true }
  | .fsub _ _ _ _ => { guard := true, rm := true, dh := true, ah := true, bh := true }
  | .fmul _ _ _ _ => { guard := true, rm := true, dh := true, ah := true, bh := true }
  | .ffma _ _ _ _ => { guard := true, rm := true, quad := true, dh := true, ah := true, bh := true }
  | .fdiv _ _ _ _ => { guard := true, rm := true, dh := true, ah := true, bh := true }
  | .fsqrt _ _ _ => { guard := true, rm := true, dh := true, ah := true }
  | .frcp _ _ _ => { guard := true, rm := true, dh := true, ah := true }
  | .frsq _ _ _ => { guard := true, rm := true, dh := true, ah := true }
  | .exp2 _ _ => { guard := true, rm := true, dh := true, ah := true }
  | .log2 _ _ => { guard := true, rm := true, dh := true, ah := true }
  | .sin _ _ => { guard := true, rm := true, dh := true, ah := true }
  | .cos _ _ => { guard := true, rm := true, dh := true, ah := true }
  | .fmin _ _ _ _ => { guard := true, rm := true, dh := true, ah := true, bh := true }
  | .fmax _ _ _ _ => { guard := true, rm := true, dh := true, ah := true, bh := true }
  | .fcmpp _ _ _ _ _ => { guard := true, ah := true, bh := true }
  | .fclass _ _ _ => { guard := true, dh := true, ah := true }
  | .fabs _ _ _ => { guard := true, dh := true, ah := true }
  | .fneg _ _ _ => { guard := true, dh := true, ah := true }
  | .fcpys _ _ _ _ => { guard := true, dh := true, ah := true, bh := true }
  | .cvtf _ dst _ _ => { guard := true, rm := true, rsto := (dst == .f16 || dst == .bf16), sat := true, dh := true, ah := true }
  | .cvtfi _ _ _ _ => { guard := true, rm := true, sat := true, dh := true, ah := true }
  | .cvtif _ _ _ _ => { guard := true, rm := true, dh := true, ah := true }
  | .fscale _ _ _ _ => { guard := true, rm := true, dh := true, ah := true, bh := true }
  | .frnd _ _ _ => { guard := true, rm := true, dh := true, ah := true }
  | .faddx _ _ _ _ => { guard := true, rm := true, dh := true, ah := true, bh := true }
  | .fsubx _ _ _ _ => { guard := true, rm := true, dh := true, ah := true, bh := true }
  | .fmulx _ _ _ _ => { guard := true, rm := true, dh := true, ah := true, bh := true }
  | .dwadd _ _ _ _ => { guard := true, rm := true, dh := true, ah := true, bh := true }
  | .dwsub _ _ _ _ => { guard := true, rm := true, dh := true, ah := true, bh := true }
  | .dwmul _ _ _ _ => { guard := true, rm := true, dh := true, ah := true, bh := true }
  | .dwfma _ _ _ _ => { guard := true, rm := true, dh := true, ah := true, bh := true }
  | .dwnorm _ _ _ => { guard := true, rm := true, dh := true, ah := true }
  | .pack _ _ _ _ => { guard := true, rm := true, rsto := true, sat := true, dh := true, ah := true, bh := true }
  | .unpk _ _ _ _ => { guard := true, rm := true, dh := true, ah := true, bh := true }
  | .sadd _ _ _ => { sd := some 8, sa := some 8, sb := some 8 }
  | .ssub _ _ _ => { sd := some 8, sa := some 8, sb := some 8 }
  | .smul _ _ _ => { sd := some 8, sa := some 8, sb := some 8 }
  | .smulhi _ _ _ => { sd := some 8, sa := some 8, sb := some 8 }
  | .sand _ _ _ => { sd := some 8, sa := some 8, sb := some 8 }
  | .sor _ _ _ => { sd := some 8, sa := some 8, sb := some 8 }
  | .sxor _ _ _ => { sd := some 8, sa := some 8, sb := some 8 }
  | .sandn _ _ _ => { sd := some 8, sa := some 8, sb := some 8 }
  | .sshl _ _ _ => { sd := some 8, sa := some 8, sb := some 8 }
  | .sshr _ _ _ => { sd := some 8, sa := some 8, sb := some 8 }
  | .smin _ _ _ => { sd := some 8, sa := some 8, sb := some 8 }
  | .smax _ _ _ => { sd := some 8, sa := some 8, sb := some 8 }
  | .saddi _ _ _ => { imm := some 9, sd := some 8, sa := some 8 }
  | .smovi _ _ => { imm := some 9, sd := some 8 }
  | .scmpp _ _ _ _ => { sa := some 8, sb := some 8 }
  | .sbrz _ _ => { imm := some 9, sd := some 8 }
  | .sbrnz _ _ => { imm := some 9, sd := some 8 }
  | .sldI32 _ _ _ _ _ => { guard := true, imm := some 6, sd := some 7, sa := some 7 }
  | .sldI64 _ _ _ _ _ => { guard := true, imm := some 6, sd := some 7, sa := some 7 }
  | .sstI32 _ _ _ _ _ => { guard := true, imm := some 6, sd := some 7, sa := some 7 }
  | .sstI64 _ _ _ _ _ => { guard := true, imm := some 6, sd := some 7, sa := some 7 }
  | .movsv _ _ => { guard := true, dh := true, sa := some 7 }
  | .movvs _ _ => { guard := true, ah := true, sd := some 7 }
  | .lgetAbs _ _ _ => { guard := true, dh := true, ah := true, bh := true }
  | .lgetBelow _ _ _ => { guard := true, dh := true, ah := true, bh := true }
  | .lgetAbove _ _ _ => { guard := true, dh := true, ah := true, bh := true }
  | .lgetFlip _ _ _ => { guard := true, dh := true, ah := true, bh := true }
  | .lany _ _ => { guard := true }
  | .lall _ _ => { guard := true }
  | .lmask _ _ => { guard := true, dh := true }
  | .llead _ => { guard := true }
  | .redf _ _ _ => { guard := true, rm := true, dh := true, ah := true }
  | .redx _ _ _ => { guard := true, rm := true, dh := true, ah := true }
  | .rediAddI32 _ _ => { guard := true, dh := true, ah := true }
  | .rediMinI32 _ _ => { guard := true, dh := true, ah := true }
  | .rediMaxI32 _ _ => { guard := true, dh := true, ah := true }
  | .rediMinN32 _ _ => { guard := true, dh := true, ah := true }
  | .rediMaxN32 _ _ => { guard := true, dh := true, ah := true }
  | .rediAnd _ _ => { guard := true, dh := true, ah := true }
  | .rediOr _ _ => { guard := true, dh := true, ah := true }
  | .rediXor _ _ => { guard := true, dh := true, ah := true }
  | .scaniAddI32 _ _ => { guard := true, dh := true, ah := true }
  | .scaniAddI32Excl _ _ => { guard := true, dh := true, ah := true }
  | .scanfF32 _ _ => { guard := true, rm := true, dh := true, ah := true }
  | .scanxF32 _ _ => { guard := true, rm := true, dh := true, ah := true }
  | .regroup _ _ _ => { guard := true, dh := true, ah := true, sb := some 7 }
  | .randN32 _ => { guard := true, dh := true }
  | .randF32 _ => { guard := true, dh := true }
  | .randN64 _ => { guard := true, dh := true }
  | .rdvMark _ _ _ => { sd := some 8 }
  | .rdvHold _ _ _ => { sd := some 8 }
  | .rdvMeet _ _ _ => { sd := some 8 }
  | .rdvPeek _ _ _ => { sd := some 8 }
  | .pmovToV _ => { guard := true, dh := true }
  | .pmovToP _ => { guard := true, ah := true }
  | .ldI32 _ _ _ _ _ => { guard := true, imm := some 6, dh := true, ah := true }
  | .ldI64 _ _ _ _ _ => { guard := true, imm := some 6, dh := true, ah := true }
  | .stI32 _ _ _ _ _ => { guard := true, imm := some 6, dh := true, ah := true }
  | .stI64 _ _ _ _ _ => { guard := true, imm := some 6, dh := true, ah := true }
  | .ldI8 _ _ _ => { guard := true, dh := true, ah := true, bh := true }
  | .ldN8 _ _ _ => { guard := true, dh := true, ah := true, bh := true }
  | .ldI16 _ _ _ => { guard := true, dh := true, ah := true, bh := true }
  | .ldN16 _ _ _ => { guard := true, dh := true, ah := true, bh := true }
  | .ldq _ _ _ => { guard := true, dh := true, ah := true, bh := true }
  | .stI8 _ _ _ => { guard := true, dh := true, ah := true, bh := true }
  | .stI16 _ _ _ => { guard := true, dh := true, ah := true, bh := true }
  | .stq _ _ _ => { guard := true, dh := true, ah := true, bh := true }
  | .dld _ _ _ => { guard := true, dh := true, ah := true, bh := true }
  | .dst _ _ _ => { guard := true, dh := true, ah := true, bh := true }
  | .segq _ _ _ => { guard := true, dh := true, ah := true, bh := true }
  | .segset _ _ _ => { guard := true, dh := true, ah := true, bh := true }
  | .pref _ _ => { guard := true, ah := true, bh := true }
  | .atomAddI32 _ _ _ _ => { guard := true, dh := true, ah := true }
  | .atomMinI32 _ _ _ _ => { guard := true, dh := true, ah := true }
  | .atomMaxI32 _ _ _ _ => { guard := true, dh := true, ah := true }
  | .atomMinN32 _ _ _ _ => { guard := true, dh := true, ah := true }
  | .atomMaxN32 _ _ _ _ => { guard := true, dh := true, ah := true }
  | .atomAnd _ _ _ _ => { guard := true, dh := true, ah := true }
  | .atomOr _ _ _ _ => { guard := true, dh := true, ah := true }
  | .atomXor _ _ _ _ => { guard := true, dh := true, ah := true }
  | .atomXchgI32 _ _ _ _ => { guard := true, dh := true, ah := true }
  | .atomCasI32 _ _ _ _ => { guard := true, dh := true, ah := true }
  | .atomAddF32 _ _ _ _ => { guard := true, dh := true, ah := true }
  | .atomAddI64 _ _ _ _ => { guard := true, dh := true, ah := true }
  | .atomXchgI64 _ _ _ _ => { guard := true, dh := true, ah := true }
  | .atomCasI64 _ _ _ _ => { guard := true, dh := true, ah := true }
  | .fence _ _ => noExt
  | .wait _ _ _ _ _ => noExt
  | .rinst _ _ _ => { sd := some 8, sa := some 8, sb := some 8 }
  | .rfit _ _ => { sd := some 8, sb := some 8 }
  | .rdem _ _ => { sd := some 8, sb := some 8 }
  | .rabort _ _ => { sd := some 8, sb := some 8 }
  | .rldg _ _ _ _ => { guard := true, dh := true, ah := true }
  | .rstat _ _ _ => { sd := some 8, sa := some 8, sb := some 8 }
  | .cpy _ _ _ => { sd := some 8, sa := some 8, sb := some 8 }
  | .cpyt _ _ _ => { sd := some 8, sa := some 8, sb := some 8 }
  | .cvtc _ _ _ => { sd := some 8, sa := some 8, sb := some 8 }
  | .qnt _ _ _ => { sd := some 8, sa := some 8, sb := some 8 }
  | .rmat _ _ _ => { sd := some 8, sa := some 8, sb := some 8 }
  | .cpfill _ _ _ => { sd := some 8, sa := some 8, sb := some 8 }
  | .cpst _ _ => { sd := some 8, sb := some 8 }
  | .cpcan _ _ => { sd := some 8, sa := some 8 }
  | .tld _ _ _ => { sd := some 8 }
  | .tstr _ _ => { sd := some 8 }
  | .mma _ _ _ _ => { sd := some 8 }
  | .mmaDw _ _ _ _ => { sd := some 8 }
  | .tzero _ _ => noExt
  | .azero _ _ => noExt
  | .amov _ _ => noExt
  | .ald _ _ _ => { sd := some 8 }
  | .ast _ _ => { sd := some 8 }
  | .asnap _ _ _ => { sd := some 8 }
  | .ttrn _ _ => noExt
  | .gbind _ _ _ => { sd := some 8, sa := some 8, sb := some 8 }
  | .grebind _ _ _ => { sd := some 8, sa := some 8, sb := some 8 }
  | .gstat _ _ _ => { sd := some 8, sa := some 8, sb := some 8 }
  | .chstat _ _ _ => { sd := some 8, sa := some 8, sb := some 8 }
  | .fire _ _ => { sa := some 8 }
  | .fend _ _ => { sa := some 8, sb := some 8 }
  | .send _ _ => { sa := some 8, sb := some 8 }
  | .recv _ _ _ => { sa := some 8, sb := some 8 }
  | .seal _ => noExt
  | .sealreq _ => { sd := some 8 }
  | .rvrd _ _ => { sd := some 8, sb := some 8 }
  | .coll _ _ _ => { sd := some 8, sa := some 8, sb := some 8 }
  | .lease _ _ => { sd := some 8, sb := some 8 }
  | .clarb _ _ => { sd := some 8, sa := some 8 }
  | .clstat _ _ => { sd := some 8, sb := some 8 }
  | .loadValueReturn _ _ => noExt
  | .storePerformed _ _ => noExt
  | .eligibilityPromotion _ => noExt
  | .copyCompletion _ => noExt
  | .copyHalt _ _ => noExt
  | .mmaCompletion _ => noExt
  | .springOperationArrival _ _ => noExt
  | .installEnd _ => noExt
  | .refitCommit _ => noExt
  | .demotionEnd _ => noExt
  | .regionOperationCompletion _ => noExt
  | .bind _ _ => noExt
  | .rebind _ _ => noExt
  | .collReadyPassed _ _ => noExt
  | .collectiveCompletion _ _ => noExt
  | .leaseCompletion _ => noExt
  | .faultQueueEntryWrite _ => noExt
  | .recordWrite => noExt
  | .contextSave _ => noExt
  | .watchdog _ => noExt
  | .stallLimit => noExt
  | .sealPeriod => noExt
  | .sealTrigger => noExt
  | .prepare _ => noExt
  | .ready => noExt
  | .sealTimeout => noExt
  | .abort _ => noExt
  | .commit _ => noExt
  | .rintagAgeing => noExt
  | .uncorrectableMemoryError _ => noExt
  | .correctableError _ => noExt
  | .fabricPortError _ _ => noExt
  | .noRoute _ => noExt
  | .peerAccessArrival _ => noExt
  | .leaseNotice _ _ _ => noExt
  | .leaseDeadline _ _ => noExt
  | .hostCxlMemAccess _ _ => noExt
  | .itailWrite _ _ => noExt
  | .ictlWrite _ _ => noExt
  | .ibaseWrite _ _ => noExt
  | .launchTake _ => noExt
  | .teamPlacement _ _ => noExt
  | .launchCompletion _ => noExt
  | .create => noExt
  | .destroy => noExt
  | .preempt => noExt
  | .restore _ => noExt
  | .inval => noExt
  | .retire => noExt
  | .cmdFqpop => noExt
  | .cmdLeaseGrant => noExt
  | .cmdLeaseRevoke => noExt
  | .cmdLeaseRegister => noExt
  | .domain _ => noExt
  | .rqctlWrite _ => noExt
  | .rqheadWrite _ => noExt
  | .rstctl _ => noExt
  | .powerOn => noExt
  | .linkReset => noExt
  | .hexwd => noExt
  | .thermalTrip _ => noExt
  | .voltageFault _ => noExt
  | .suppliesStable => noExt
  | .calibrationDone => noExt
  | .firmwareVerified _ _ => noExt
  | .bootctlStart _ => noExt
  | .initDone => noExt
  | .monitorUpdate _ => noExt
  | .throttleStep _ => noExt
  | .powerCapStep _ => noExt
  | .attctlRequest _ => noExt
  | .attestationComplete _ => noExt
  | .registerWrite _ _ _ => noExt
  | .hostLinkRetrained => noExt
  | .routeRegained _ => noExt
  | .leaseReleaseAtLender _ _ => noExt
  | .undefinedCommand _ => noExt

/-- The privileged rows: major 0x1E, and SWR of an RW-P register; the low bit and value of the failing field (R47, R49, R77). -/
def privCheck : Instr → Option (Nat × Nat)
  | .swr _ idx => if sysPriv idx then some (0, idx.toNat) else none
  | .resume _ _ _ => some (25, 0x1E)
  | .gsave _ _ => some (25, 0x1E)
  | .gload _ _ => some (25, 0x1E)
  | .fqpop _ _ _ => some (25, 0x1E)
  | _ => none

end Sys2Proof.Machine
end

