-- ==== Sys2Proof/Machine/Issue.lean ====
section
/-! DEFINITION. The issue of one instruction by a convergence set: the decode faults in their order (R47 to R49),
the members (R143), operands still being produced (R131), and how an issue ends (R22, R23, R25, R132, R142, R174). -/
namespace Sys2Proof.Machine

/-- An issue: the group, its issuing set, its extension state, and the members of the set (R143). -/
structure Issue where
  uid     : Nat
  lanes   : List Nat
  g       : Group
  ext     : Ext
  members : List Nat
  deriving DecidableEq, Repr

/-- What executing an instruction does to the machine. -/
inductive Effect where
  /-- The set is not ready (R131). -/
  | stall
  /-- The threads of `gone` complete, and the others go back to the first word, where they wait; `first` tells whether this is
  the issue of the extended instruction, and not the end of a wait that an earlier issue began. -/
  | wait (s : State) (gone : List Nat) (first : Bool)
  /-- Completes in every thread of the set; each goes on at the next word. -/
  | done (s : State)
  /-- Completes, and has already set the PCs of the set. -/
  | moved (s : State)
  /-- Some threads fault and keep their PC; the others complete, and `moved` tells whether their PCs are set (R73, R174). -/
  | part (s : State) (moved : Bool) (a : ParkArgs)
  /-- The whole instruction faults with no effect (R25). -/
  | fault (a : ParkArgs)
  /-- A completing trap (R26). -/
  | trap (s : State) (a : ParkArgs)

/-! ## Decode faults -/

/-- The detail of R49: the failing word, the low bit of the field and its value. Of a reserved field wider than the 11 bits of [10:0], as
EXT.SHI [24:9] and EXT.HINT [18:0], the low 11 bits stand there, which R49 does not say (DESIGN CHOICE, log entry 16). -/
def decodeDetail (w : Word) (lo val : Nat) : Nat := w.toNat * 65536 + lo % 32 * 2048 + val % 2048

/-- A cause with its detail. -/
abbrev CauseDetail := Nat × Nat

/-- The first extension word whose payload holds an illegal value (R35, R48). -/
def extPayloadFault : List Word → Option CauseDetail
  | [] => none
  | w :: r =>
    match decodeFields w with
    | .ok i =>
      match badField i with
      | some (lo, v) => some (0x0101, decodeDetail w lo v)
      | none => extPayloadFault r
    | .error _ => extPayloadFault r

/-- The first extension word, in fetch order, with a reserved bit that is not 0 (R47). -/
def extReservedFault : List Word → Option CauseDetail
  | [] => none
  | w :: r =>
    match decodeFields w with
    | .ok i =>
      match reservedBad w (reservedFields i) with
      | some (lo, v) => some (0x0102, decodeDetail w lo v)
      | none => extReservedFault r
    | .error _ => extReservedFault r

/-- The full number that a slot names (R31). -/
def slotNum (e : Ext) (s : Slot) : Nat :=
  match s.cls with
  | .v => s.base + 128 * e.vhigh s.lo
  | .s => e.snum s.lo s.base
  | _ => s.base

/-- Whether a slot names registers at all: CS of 0xFF does not (R34). -/
def slotPresent (e : Ext) (s : Slot) : Bool :=
  !(s.cls == .s && s.lo == 1 && s.count == 2 && s.base == 255 && e.shiField 0 2 == 0)

/-- The budget of a register class (R11). -/
def budgetOf (g : Group) : RegClass → Nat
  | .v => g.vbud
  | .s => g.sbud
  | .t => g.tbud
  | .a => g.abud
  | .p => 12

/-- The first slot that names a register at or above its budget (R11). -/
def budgetFault (w : Word) (g : Group) (e : Ext) : List Slot → Option CauseDetail
  | [] => none
  | s :: r =>
    if slotPresent e s && decide (budgetOf g s.cls < slotNum e s + s.count)
    then some (0x0101, decodeDetail w s.lo (slotNum e s)) else budgetFault w g e r

/-- The first slot that names a misaligned pair, quad or group (R12, R41). -/
def alignFault (w : Word) (e : Ext) : List Slot → Option CauseDetail
  | [] => none
  | s :: r =>
    if slotPresent e s && decide (slotNum e s % s.align ≠ 0)
    then some (0x0105, decodeDetail w s.lo (slotNum e s)) else alignFault w e r

/-- The word of EXT.PRED among the extension words. -/
def predWord : List Word → Word
  | [] => 0
  | w :: r => if fldNat w 25 7 = 0x78 then w else predWord r

/-- The fourth operand of FFMA names registers like any other; its field lies in EXT.PRED (R35). -/
def quadFault (ws : List Word) (g : Group) (e : Ext) (count : Nat) (align : Bool) : Option CauseDetail :=
  match e.q? with
  | none => none
  | some q =>
    if align then (if q % count ≠ 0 then some (0x0105, decodeDetail (predWord ws) 7 q) else none)
    else if g.vbud < q + count then some (0x0101, decodeDetail (predWord ws) 7 q) else none

/-- The subfield of an EXT.PRED word that the consumer has no use for (R39). Of several the model names the one of the highest bits, which
R49 does not say (DESIGN CHOICE, log entry 16). -/
def predUnused (p : Nat) (a : Accepts) : Option (Nat × Nat) :=
  if bitsOf p 24 1 ≠ 0 ∧ ¬ a.guard then some (24, 1)
  else if bitsOf p 20 4 ≠ 15 ∧ ¬ a.guard then some (20, bitsOf p 20 4)
  else if bitsOf p 19 1 ≠ 0 ∧ ¬ a.guard then some (19, 1)
  else if bitsOf p 18 1 ≠ 0 ∧ ¬ a.rm then some (18, 1)
  else if bitsOf p 15 3 ≠ 0 ∧ ¬ a.rm then some (15, bitsOf p 15 3)
  else if bitsOf p 15 3 = 5 ∧ ¬ a.rsto then some (15, 5)
  else if bitsOf p 14 1 ≠ 0 ∧ ¬ a.quad then some (14, 1)
  else if bitsOf p 7 7 ≠ 0 ∧ ¬ a.quad then some (7, bitsOf p 7 7)
  else if bitsOf p 6 1 ≠ 0 ∧ ¬ a.dh then some (6, 1)
  else if bitsOf p 5 1 ≠ 0 ∧ ¬ a.ah then some (5, 1)
  else if bitsOf p 4 1 ≠ 0 ∧ ¬ a.bh then some (4, 1)
  else if bitsOf p 3 1 ≠ 0 ∧ ¬ a.sat then some (3, 1)
  else none

/-- The subfield of an EXT.SHI word that the consumer has no use for (R37, R39). -/
def shiUnused (p : Nat) (a : Accepts) : Option (Nat × Nat) :=
  if bitsOf p 8 1 ≠ 0 ∧ a.sd ≠ some 7 then some (8, 1)
  else if bitsOf p 7 1 ≠ 0 ∧ a.sa ≠ some 7 then some (7, 1)
  else if bitsOf p 6 1 ≠ 0 ∧ a.sb ≠ some 7 then some (6, 1)
  else if bitsOf p 4 2 ≠ 0 ∧ a.sd = none then some (4, bitsOf p 4 2)
  else if bitsOf p 2 2 ≠ 0 ∧ a.sa = none then some (2, bitsOf p 2 2)
  else if bitsOf p 0 2 ≠ 0 ∧ a.sb = none then some (0, bitsOf p 0 2)
  else none

/-- Whether the consumer accepts a kind of extension word: one of its subfields is listed for it (R39). -/
def kindAccepted (op : Nat) (a : Accepts) : Bool :=
  if op = 0x78 then a.guard || a.rm || a.quad || a.sat || a.dh || a.ah || a.bh
  else if op = 0x79 then a.imm.isSome
  else if op = 0x7A then a.sd.isSome || a.sa.isSome || a.sb.isSome
  else true

/-- The first extension word that the consumer may not follow (R39, R40), given the kinds already seen. R49 does not say which field fails
for a word of a kind that is not accepted or comes again; the model names its OP (DESIGN CHOICE, log entry 16). -/
def extSequenceFault (a : Accepts) : List Nat → List Word → Option CauseDetail
  | _, [] => none
  | seen, w :: r =>
    let op := fldNat w 25 7
    if op ∈ seen ∨ ¬ kindAccepted op a then some (0x0103, decodeDetail w 25 op)
    else
      let bad := if op = 0x78 then predUnused (fldNat w 0 25) a else if op = 0x7A then shiUnused (fldNat w 0 25) a else none
      match bad with
      | some (lo, v) => some (0x0103, decodeDetail w lo v)
      | none => extSequenceFault a (op :: seen) r

/-- Instructions that exist only in a gang (R158, R338): the low bit and value of the failing field. For SEAL, which has no field that
fails, the model names OP (DESIGN CHOICE, log entry 16). -/
def gangFault (s : State) (g : Group) (i : Instr) : Option (Nat × Nat) :=
  let l := s.launch? g.launch
  let gang : Bool := (l.map (·.gang)).getD false
  let cls : Nat := (l.map (·.gclass)).getD 2
  let rdv := fun (lvl : BitVec 2) =>
    if lvl.toNat = 2 ∧ (gang = false ∨ cls = 2) then some (7, 2) else if lvl.toNat = 3 ∧ gang = false then some (7, 3) else none
  match i with
  | .rdvMark _ _ lvl | .rdvHold _ _ lvl | .rdvMeet _ _ lvl | .rdvPeek _ _ lvl => rdv lvl
  | .seal _ => if gang then none else some (25, 0x6C)
  | _ => none

/-- The quad operand of FFMA has the width of its type (R43). -/
def quadCount : Instr → Nat
  | .ffma ft _ _ _ => ft.regs
  | _ => 1

/-- TFMT of a register. -/
def Group.tfmtOf (g : Group) (reg : Nat) : Nat := (sget 0 g.tfmt reg).toNat

/-- The tag of an accumulator. -/
def Group.atagOf (g : Group) (reg : Nat) : Nat := (sget 0 g.atag reg).toNat

/-- The families of tile formats: 0 FP64, 1 FP32, 2 the narrow floating-point formats, 3 the integers and BIN1. -/
def tileFamily (fmt : Nat) : Nat := if fmt = 1 then 0 else if fmt = 2 then 1 else if fmt ≤ 9 then 2 else 3

/-- A registers that an operation of a family takes. -/
def familyRegs (fam : Nat) (dw : Bool) : Nat := (if fam = 0 then 2 else 1) * (if dw then 2 else 1)

/-- The registers that an instruction names by the format or the tag that its operands hold: a tile of FP32 or FP64, and an accumulator of
FP64 (R262, R263). TLD checks its own as R270 orders it. -/
def formatSlots (g : Group) : Instr → List Slot
  | .tstr ta _ => [rslot .t 18 ta.toNat (tileRegs (g.tfmtOf ta.toNat)) 1]
  | .ttrn ta tb => [rslot .t 18 ta.toNat (tileRegs (g.tfmtOf ta.toNat)) 1, rslot .t 14 tb.toNat (tileRegs (g.tfmtOf ta.toNat)) 1]
  | .mma acc ta tb _ => mmaSlots g acc ta tb false
  | .mmaDw acc ta tb _ => mmaSlots g acc ta tb true
  | .ast acc _ => if g.atagOf acc.toNat = 2 then [rslot .a 22 acc.toNat 2 1] else []
  | _ => []
where
  /-- The accumulator and the tiles of a matrix operation. -/
  mmaSlots (g : Group) (acc : AReg) (ta tb : TReg) (dw : Bool) : List Slot :=
    let fa := g.tfmtOf ta.toNat
    let fb := g.tfmtOf tb.toNat
    (if tileFamily fa = 0 ∧ tileFamily fb = 0 then [rslot .a 22 acc.toNat (familyRegs 0 dw) 1] else [])
    ++ [rslot .t 18 ta.toNat (tileRegs fa) 1, rslot .t 14 tb.toNat (tileRegs fb) 1]

/-- The first decode fault of an instruction that a word w encodes, in the order of R48; `res` names a reserved field of
the word that is not 0. The registers that a format names stand with the other registers of the word. Where reserved bits of several words are not 0, the extension words come in fetch order and the consumer last,
which R48 does not say (DESIGN CHOICE, log entry 16). -/
def decodeFault (s : State) (g : Group) (i : Instr) (w : Word) (res : Option (Nat × Nat)) : Option CauseDetail :=
  let e := extOf g.ext
  let acc := accepts i
  extPayloadFault g.ext
  <|> (gangFault s g i).map (fun (lo, v) => (0x0101, decodeDetail w lo v))
  <|> budgetFault w g e (slots i ++ formatSlots g i)
  <|> (if acc.quad then quadFault g.ext g e (quadCount i) false else none)
  <|> extReservedFault g.ext
  <|> res.map (fun (lo, v) => (0x0102, decodeDetail w lo v))
  <|> extSequenceFault acc [] g.ext
  <|> (if levelOf s g then none else (privCheck i).map fun (lo, v) => (0x0104, decodeDetail w lo v))
  <|> alignFault w e (slots i)
  <|> (if acc.quad then quadFault g.ext g e (quadCount i) true else none)

/-- The decode fault of a word that is no legal instruction (R47, R48); an OP of 0x7C to 0x7F is refused as it is
fetched (R40). -/
def illegalFault (s : State) (g : Group) (w : Word) : CauseDetail :=
  if 0x7C ≤ fldNat w 25 7 then (0x0101, decodeDetail w 25 (fldNat w 25 7))
  else match decode w with
  | .error (.reserved i lo v) => (decodeFault s g i w (some (lo, v))).getD (0x0102, decodeDetail w lo v)
  | .error (.enc lo v) => (extPayloadFault g.ext).getD (0x0101, decodeDetail w lo v)
  | .ok _ => (0x0101, decodeDetail w 25 (fldNat w 25 7))

/-! ## Operands still being produced (R131) -/

/-- Whether a load in flight has yet to write one of a range of V registers in one of the lanes. -/
def vPending (g : Group) (lanes : List Nat) (n count : Nat) : Bool :=
  g.loads.any fun l => !l.done && l.vals.any fun (d, _) =>
    match d with
    | .v lane r => lanes.contains lane && decide (n ≤ r) && decide (r < n + count)
    | _ => false

/-- Whether a load in flight has yet to write one of a range of S registers. -/
def sPending (g : Group) (n count : Nat) : Bool :=
  g.loads.any fun l => !l.done && l.vals.any fun (d, _) =>
    match d with
    | .s r => decide (n ≤ r) && decide (r < n + count)
    | _ => false

/-- Whether a tile load in flight has yet to write a T register of a range. -/
def tPending (g : Group) (n count : Nat) : Bool :=
  g.loads.any fun l => !l.done && (match l.tile with
    | some t => decide (t.reg < n + count) && decide (n < t.reg + t.count)
    | none => false)

/-- Whether an accumulator load in flight has yet to write an A register of a range. -/
def aPending (g : Group) (n count : Nat) : Bool :=
  g.loads.any fun l => !l.done && (match l.acc with
    | some (r, tag) => decide (r < n + count) && decide (n < r + (if tag = 2 then 2 else 1))
    | none => false)

/-- Whether a slot names a register that an operation in flight has yet to write. -/
def slotPending (g : Group) (lanes : List Nat) (e : Ext) (sl : Slot) : Bool :=
  match sl.cls with
  | .v => vPending g lanes (slotNum e sl) sl.count
  | .s => sPending g (slotNum e sl) sl.count
  | .t => tPending g sl.base sl.count
  | .a => aPending g sl.base sl.count
  | .p => false

/-- The registers whose earlier writers an instruction waits for: those of its slots, and the link of CALL (R70); ASNAP does not wait
for the writers of its source (R278). -/
def awaited (i : Instr) : List Slot :=
  match i with
  | .call _ _ => [dslot .v 18 2 2 2 2]
  | .asnap _ adst mb => [rslot .a 18 adst.toNat 1 1, dslot .s 6 mb.toNat 1 1 1]
  | _ => slots i

/-- Whether any operand of an instruction is still being produced. -/
def operandsPending (g : Group) (lanes : List Nat) (i : Instr) : Bool :=
  let e := extOf g.ext
  ((awaited i).any fun sl => slotPresent e sl && slotPending g lanes e sl)
  || (match (if (accepts i).quad then e.q? else none) with
      | some q => vPending g lanes q (quadCount i)
      | none => false)

/-! ## How an issue ends -/

/-- Sets the threads of a set back to the first word of the extended instruction (R23). -/
def toFirstWord (g : Group) (lanes : List Nat) : Group :=
  g.modifyThreads lanes fun t => { t with pc := t.pc - BitVec.ofNat 64 (4 * g.ext.length) }

/-- Moves the threads of a set past the word. -/
def advance (g : Group) (lanes : List Nat) : Group :=
  g.modifyThreads lanes fun t => { t with pc := t.pc + 4 }

/-- The extension state is consumed (R23). -/
def clearExt (g : Group) : Group := { g with ext := [], issuing := [] }

/-- A group at the boundary before the extended instruction in which it stands, of which nothing has taken effect (R23; log entry 111). -/
def rewound (g : Group) : Group := if g.ext.isEmpty then g else clearExt (toFirstWord g g.issuing)

/-- The choice values after an issue of a set (R132). -/
def afterIssue (ch : Choice) (lanes : List Nat) (yields : Bool) : Choice :=
  let ch := { ch with last := lanes }
  match ch.h with
  | some h =>
    if lanes.contains h then
      if ch.held + 1 = 256 ∨ yields then { ch with held := ch.held + 1, p := some h, h := none, c := 0 }
      else { ch with held := ch.held + 1 }
    else { ch with c := if yields then 256 else ch.c + 1 }
  | none => { ch with c := if yields then 256 else ch.c + 1 }

/-- The group after one of its words has issued: its wait count starts again and its promotion ends (R134, R136). -/
def wordIssued (g : Group) : Group := { g with waited := 0, elig := 0, promoted := none, released := (0, 0) }

/-- The group after one of its extended instructions has issued. -/
def issued (g : Group) (lanes : List Nat) (yields : Bool) : Group :=
  { wordIssued (clearExt g) with choice := afterIssue g.choice lanes yields }

/-- The group after an issue whose threads wait at the first word of their extended instruction, but for those that have gone on;
the issue counts once for the extended instruction (R23, R132). -/
def waits (g : Group) (lanes gone : List Nat) (first yields : Bool) : Group :=
  let rest := lanes.filter fun l => !gone.contains l
  let g1 := toFirstWord (advance g gone) rest
  if first then issued g1 lanes yields else wordIssued (clearExt g1)

/-- The group after an issue that faults in some threads, which stand at the first word again (R25, R73). -/
def faulted (g : Group) (lanes bad : List Nat) (yields : Bool) : Group := issued (toFirstWord g bad) lanes yields

/-- Whether STEPCTL steps the group (R319). -/
def stepping (g : Group) : Bool := bitOf g.stepctl.toNat 0

/-- A single step ends with its completing trap (R142); STEPCTL is taken as it stood at the issue. -/
def stepTrap (s : State) (x : Issue) : State :=
  if stepping x.g then takePark s x.uid { cause := 0x0D02, lanes := x.lanes, completing := true, skip := 0 } else s

/-- The state after an issue with its effect; only a stalled issue leaves `cur` as it was. -/
def finish (s : State) (x : Issue) (yields : Bool) (eff : Effect) : State :=
  let skip := x.g.ext.length + 1
  match eff with
  | .stall => s
  | .wait t gone first => stepTrap { t.modifyGroup x.uid (fun g => waits g x.lanes gone first yields) with cur := none } x
  | .done t => stepTrap { t.modifyGroup x.uid (fun g => issued (advance g x.lanes) x.lanes yields) with cur := none } x
  | .moved t => stepTrap { t.modifyGroup x.uid (fun g => issued g x.lanes yields) with cur := none } x
  | .part t moved a =>
    let good := x.lanes.filter fun l => !a.lanes.contains l
    let t1 := t.modifyGroup x.uid fun g => faulted (if moved then g else advance g good) x.lanes a.lanes yields
    takePark { t1 with cur := none } x.uid { a with skip := skip }
  | .fault a =>
    takePark { s.modifyGroup x.uid (fun g => faulted g x.lanes x.lanes yields) with cur := none } x.uid { a with skip := skip }
  | .trap t a =>
    takePark { t.modifyGroup x.uid (fun g => issued (advance g x.lanes) x.lanes yields) with cur := none } x.uid
      { a with completing := true, skip := 0 }

/-- The issue that `cur` names: the group, and its issuing set in rising lane order. -/
def currentIssue (s : State) : Option Issue :=
  match s.cur with
  | none => none
  | some (uid, lanes) =>
    match s.group? uid with
    | none => none
    | some g =>
      let e := extOf g.ext
      some { uid := uid, lanes := lanes, g := g, ext := e, members := lanes.filter fun l => e.guardHolds (g.thread l) }

/-- The instructions that execute once per issue (R310). -/
def setLevelOp (op : Nat) : Bool :=
  op == 0x1C || op == 0x1E || (decide (0x38 ≤ op) && decide (op ≤ 0x46)) || op == 0x4E || op == 0x58 || op == 0x59
  || (decide (0x5B ≤ op) && decide (op ≤ 0x6F))

/-- Whether an instruction yields (R132). -/
def yieldsOf (i : Instr) (e : Ext) : Bool := e.yields || (match i with | .yield => true | _ => false)

/-- The register that holds the target of an indirect transfer (R71). -/
def targetReg : Instr → Option VReg
  | .jmpi a | .calli _ a | .ret a => some a
  | _ => none

/-- The members of an indirect transfer whose target is misaligned, where A names a pair within the budget (R12, R22, R71). A guard whose GP is
12 to 14, which R48 refuses only afterwards, reads as 0 here: no thread is a member, or with NEG every one (DESIGN CHOICE, log entry 128). -/
def misaligned (x : Issue) (i : Instr) : List Nat :=
  match targetReg i with
  | none => []
  | some a =>
    let n := x.ext.vnum 11 a
    if n % 2 = 0 ∧ n + 2 ≤ x.g.vbud then x.members.filter fun l => (x.g.vpair l n).toNat % 4 != 0 else []

/-- Whether the target of an indirect transfer, where A names a pair within the budget, is still being produced: its alignment, which
stands before every decode fault, is not known yet (R48, R131). -/
def targetPending (x : Issue) (i : Instr) : Bool :=
  match targetReg i with
  | none => false
  | some a =>
    let n := x.ext.vnum 11 a
    n % 2 == 0 && decide (n + 2 ≤ x.g.vbud) && vPending x.g x.members n 2

/-- Whether a format or a tag by which an instruction names registers is still being produced: which registers must lie below their budget
is not known yet (R48, R131). -/
def formatPending (g : Group) : Instr → Bool
  | .tstr ta _ | .ttrn ta _ => tPending g ta.toNat 1
  | .mma _ ta tb _ | .mmaDw _ ta tb _ => tPending g ta.toNat 1 || tPending g tb.toNat 1
  | .ast acc _ => aPending g acc.toNat 1
  | _ => false

/-- How an instruction that meets a decode fault stops: a misaligned target of a control transfer stands before it (R48); its
record is that of R73. -/
def decodeStop (x : Issue) (i : Instr) (w : Word) (c : CauseDetail) : ParkArgs :=
  match misaligned x i with
  | [] => { cause := c.1, lanes := x.lanes, detail := c.2, setLevel := setLevelOp (fldNat w 25 7) }
  | l :: r =>
    { cause := 0x0107, lanes := l :: r, va := (targetReg i).map fun a => x.g.vpair l (x.ext.vnum 11 a), detail := (r.length + 1) * 256 }

/-- Issues one encoded instruction: its decode faults, its readiness, and then its own effect. -/
def issue (i : Instr) (body : State → Issue → Effect) (s : State) : Host.Outcome State Fault Refusal :=
  match currentIssue s with
  | none => .fault .noIssuingGroup
  | some x =>
    let w := (encode i).getD 0
    match decodeFault s x.g i w none with
    | some c => if targetPending x i || formatPending x.g i then .next s else .next (finish s x (yieldsOf i x.ext) (.fault (decodeStop x i w c)))
    | none =>
      if operandsPending x.g x.lanes i then .next s
      else .next (finish s x (yieldsOf i x.ext) (body s x))

/-! ## Results of per-thread instructions -/

/-- What one thread writes: V registers, predicates, FPSTAT flags to set, and its RAND counter. -/
structure LaneOut where
  v      : List (Nat × Word) := []
  p      : List (Nat × Bool) := []
  flags  : Word := 0
  randn  : Option DWord := none
  deriving DecidableEq, Repr

/-- Writes one thread's results. -/
def applyLane (g : Group) (lane : Nat) (o : LaneOut) : Group :=
  let g1 := o.v.foldl (fun g (r, x) => g.vput lane r x) g
  let g2 := o.p.foldl (fun g (p, x) => g.pput lane p x) g1
  g2.modifyThread lane fun t => { t with fpstat := t.fpstat ||| o.flags, randn := o.randn.getD t.randn }

/-- The zeros that Z writes into the destinations of a thread that the guard turns off (R56). -/
def zeroOut (i : Instr) (e : Ext) : LaneOut :=
  (slots i).foldl (fun o sl =>
    match sl.cls with
    | .v => { o with v := o.v ++ (List.range sl.dst).map fun k => (slotNum e sl + k, 0) }
    | .p => if sl.dst = 0 then o else { o with p := o.p ++ [(sl.base, false)] }
    | _ => o) {}

/-- The group after each member writes its result, all sources having been read before (R57, R143). -/
def applyLanes (g : Group) (outs : List (Nat × LaneOut)) : Group :=
  outs.foldl (fun g (l, o) => applyLane g l o) g

/-- The group with the zeros of Z written in the threads that are no members. -/
def applyZeros (i : Instr) (x : Issue) (g : Group) : Group :=
  if x.ext.z then applyLanes g ((x.lanes.filter fun l => !x.members.contains l).map fun l => (l, zeroOut i x.ext)) else g

/-- An instruction that each member executes by itself, from the registers the group held at issue. -/
def perLane (i : Instr) (f : Issue → Nat → LaneOut) (s : State) : Host.Outcome State Fault Refusal :=
  issue i (fun s x => .done (s.setGroup (applyZeros i x (applyLanes x.g (x.members.map fun l => (l, f x l)))))) s

/-- An instruction that executes once for its set on the group's registers (R144). -/
def perSet (i : Instr) (f : Issue → Group) (s : State) : Host.Outcome State Fault Refusal :=
  issue i (fun s x => .done (s.setGroup (f x))) s

/-- An event that is not enabled leaves the machine as it is. -/
def stutter (s : State) : Host.Outcome State Fault Refusal := .next s

end Sys2Proof.Machine
end

