-- ==== Sys2Proof/Machine/Integer.lean ====
section
/-! DEFINITION. Integer, logic, compare, predicate, move and address instructions: majors 0x00 to 0x17 (R56 to R69). -/
namespace Sys2Proof.Machine

/-! ## Reading and writing operands -/

/-- A value of one or two V registers of a lane, low word first. -/
def vnat (x : Issue) (lane reg regs : Nat) : Nat :=
  if regs = 2 then (x.g.vpair lane reg).toNat else (x.g.vget lane reg).toNat

/-- The registers that a value of one or two words is written to. -/
def vout (reg regs val : Nat) : List (Nat × Word) :=
  if regs = 2 then [(reg, BitVec.ofNat 32 val), (reg + 1, BitVec.ofNat 32 (val / 4294967296))] else [(reg, BitVec.ofNat 32 val)]

/-- The source A. -/
def srcA (x : Issue) (lane : Nat) (a : VReg) (regs : Nat) : Nat := vnat x lane (x.ext.vnum 11 a) regs
/-- The source B. -/
def srcB (x : Issue) (lane : Nat) (b : VReg) (regs : Nat) : Nat := vnat x lane (x.ext.vnum 4 b) regs
/-- The source D of an instruction that also reads its destination. -/
def srcD (x : Issue) (lane : Nat) (d : VReg) (regs : Nat) : Nat := vnat x lane (x.ext.vnum 18 d) regs
/-- The result of an instruction with a destination of one or two registers. -/
def outD (x : Issue) (d : VReg) (regs val : Nat) : LaneOut := { v := vout (x.ext.vnum 18 d) regs val }

/-- Bits of an integer width. -/
def iwBits (w : IW) : Nat := 32 * w.regs
/-- Whether an integer width is signed. -/
def iwSigned : IW → Bool
  | .i32 | .i64 => true
  | _ => false
/-- A w-bit value as the integer that its width reads (R58, R59). -/
def iwInt (w : IW) (n : Nat) : Int := if iwSigned w then toSigned (iwBits w) n else (n % 2 ^ iwBits w : Nat)

/-! ## Arithmetic (R58, R59) -/

/-- Clamps an exact result to the range of a width (R58). -/
def clampTo (w : IW) (x : Int) : Int :=
  let lo : Int := if iwSigned w then -(2 ^ (iwBits w - 1) : Nat) else 0
  let hi : Int := if iwSigned w then (2 ^ (iwBits w - 1) : Nat) - 1 else (2 ^ iwBits w : Nat) - 1
  if x < lo then lo else if hi < x then hi else x

/-- An exact sum narrowed to its width, with or without saturation. -/
def narrow (w : IW) (sat : Bool) (x : Int) : Nat := wrapTo (iwBits w) (if sat then clampTo w x else x)

/-- The quotient and the remainder of R59, defined for every operand. -/
def divide (w : IW) (a b : Nat) : Nat × Nat :=
  let x := iwInt w a
  let y := iwInt w b
  if y = 0 then (2 ^ iwBits w - 1, wrapTo (iwBits w) x)
  else if iwSigned w ∧ x = -(2 ^ (iwBits w - 1) : Nat) ∧ y = -1 then (2 ^ (iwBits w - 1), 0)
  else (wrapTo (iwBits w) (x.tdiv y), wrapTo (iwBits w) (x - x.tdiv y * y))

/-- A V-format instruction on two operands of an integer width. -/
def binop (i : Instr) (w : IW) (d a b : VReg) (f : Ext → Nat → Nat → Nat) (s : State) : Host.Outcome State Fault Refusal :=
  perLane i (fun x l => outD x d w.regs (f x.ext (srcA x l a w.regs) (srcB x l b w.regs))) s

/-- IADD (R58). -/
def execIadd (iw : IW) (d a b : VReg) (s : State) :=
  binop (.iadd iw d a b) iw d a b (fun e x y => narrow iw e.sat (iwInt iw x + iwInt iw y)) s
/-- ISUB (R58). -/
def execIsub (iw : IW) (d a b : VReg) (s : State) :=
  binop (.isub iw d a b) iw d a b (fun e x y => narrow iw e.sat (iwInt iw x - iwInt iw y)) s
/-- IMUL: the low half of the product (R58). -/
def execImul (iw : IW) (d a b : VReg) (s : State) :=
  binop (.imul iw d a b) iw d a b (fun _ x y => x * y % 2 ^ iwBits iw) s

/-- The exact 64-bit product of two 32-bit operands, signed or unsigned. -/
def product64 (unsigned : Bool) (x y : Nat) : Nat :=
  if unsigned then x * y else wrapTo 64 (toSigned 32 x * toSigned 32 y)

/-- IMULHI: bits [63:32] of the product (R58). -/
def execImulhi (n : Bool) (d a b : VReg) (s : State) :=
  perLane (.imulhi n d a b) (fun x l => outD x d 1 (product64 n (srcA x l a 1) (srcB x l b 1) / 4294967296)) s
/-- IMULW: the whole product in a pair (R58). -/
def execImulw (n : Bool) (d a b : VReg) (s : State) :=
  perLane (.imulw n d a b) (fun x l => outD x d 2 (product64 n (srcA x l a 1) (srcB x l b 1))) s
/-- IDIV (R59). -/
def execIdiv (iw : IW) (d a b : VReg) (s : State) :=
  binop (.idiv iw d a b) iw d a b (fun _ x y => (divide iw x y).1) s
/-- IREM (R59). -/
def execIrem (iw : IW) (d a b : VReg) (s : State) :=
  binop (.irem iw d a b) iw d a b (fun _ x y => (divide iw x y).2) s
/-- IMIN (R58). -/
def execImin (iw : IW) (d a b : VReg) (s : State) :=
  binop (.imin iw d a b) iw d a b (fun _ x y => if iwInt iw x ≤ iwInt iw y then x else y) s
/-- IMAX (R58). -/
def execImax (iw : IW) (d a b : VReg) (s : State) :=
  binop (.imax iw d a b) iw d a b (fun _ x y => if iwInt iw x ≤ iwInt iw y then y else x) s

/-! ## Logic, shifts and bit fields (R60 to R63) -/

/-- A AND NOT B on 32 bits. -/
def andNot (x y : Nat) : Nat := x &&& (y ^^^ 0xFFFFFFFF)

/-- AND (R60). -/
def execAnd (d a b : VReg) (s : State) := binop (.and d a b) .n32 d a b (fun _ x y => x &&& y) s
/-- OR (R60). -/
def execOr (d a b : VReg) (s : State) := binop (.or d a b) .n32 d a b (fun _ x y => x ||| y) s
/-- XOR (R60). -/
def execXor (d a b : VReg) (s : State) := binop (.xor d a b) .n32 d a b (fun _ x y => x ^^^ y) s
/-- ANDN: A AND NOT B (R60). -/
def execAndn (d a b : VReg) (s : State) := binop (.andn d a b) .n32 d a b (fun _ x y => andNot x y) s

/-- SHL of w bits by n (R61). -/
def shlBits (w x n : Nat) : Nat := if n < w then x * 2 ^ n % 2 ^ w else 0
/-- SHR of w bits by n (R61). -/
def shrBits (w x n : Nat) : Nat := if n < w then x % 2 ^ w / 2 ^ n else 0
/-- SAR of w bits by n (R61). -/
def sarBits (w x n : Nat) : Nat := wrapTo w (toSigned w x / (2 ^ (if n < w then n else w - 1) : Nat))
/-- ROL of w bits by n (R61). -/
def rolBits (w x n : Nat) : Nat :=
  let k := n % w
  x * 2 ^ k % 2 ^ w + x % 2 ^ w / 2 ^ (w - k)

/-- A shift with its count in B[7:0]. -/
def shiftOp (i : Instr) (wide : Bool) (d a b : VReg) (f : Nat → Nat → Nat → Nat) (s : State) : Host.Outcome State Fault Refusal :=
  perLane i (fun x l => outD x d (wregs wide) (f (32 * wregs wide) (srcA x l a (wregs wide)) (srcB x l b 1 % 256))) s

/-- SHL (R61). -/
def execShl (wide : Bool) (d a b : VReg) (s : State) := shiftOp (.shl wide d a b) wide d a b shlBits s
/-- SHR (R61). -/
def execShr (wide : Bool) (d a b : VReg) (s : State) := shiftOp (.shr wide d a b) wide d a b shrBits s
/-- SAR (R61). -/
def execSar (wide : Bool) (d a b : VReg) (s : State) := shiftOp (.sar wide d a b) wide d a b sarBits s
/-- ROL (R61). -/
def execRol (wide : Bool) (d a b : VReg) (s : State) := shiftOp (.rol wide d a b) wide d a b rolBits s

/-- BFE: the field of A that B's position and length name (R62). -/
def extractField (unsigned : Bool) (x b : Nat) : Nat :=
  let p := bitsOf b 0 8
  let k := bitsOf b 8 8
  if k = 0 ∨ 32 ≤ p then 0
  else
    let n := min (p + k) 32 - p
    if unsigned then bitsOf x p n else wrapTo 32 (toSigned n (bitsOf x p n))

/-- BFI: D with the field that B names replaced by the low bits of A (R62). -/
def insertField (old x b : Nat) : Nat :=
  let p := bitsOf b 0 8
  let k := bitsOf b 8 8
  if k = 0 ∨ 32 ≤ p then old
  else
    let n := min (p + k) 32 - p
    bitsOf old 0 p + bitsOf x 0 n * 2 ^ p + bitsOf old (p + n) (32 - (p + n)) * 2 ^ (p + n)

/-- BFE (R62). -/
def execBfe (n : Bool) (d a b : VReg) (s : State) :=
  binop (.bfe n d a b) .n32 d a b (fun _ x y => extractField n x y) s
/-- BFI (R62). -/
def execBfi (d a b : VReg) (s : State) :=
  perLane (.bfi d a b) (fun x l => outD x d 1 (insertField (srcD x l d 1) (srcA x l a 1) (srcB x l b 1))) s

/-- The number of 1 bits below bit n. -/
def popcount (x : Nat) : Nat → Nat
  | 0 => 0
  | n + 1 => popcount x n + bitsOf x n 1
/-- The number of 0 bits above the highest 1 bit of the low n bits. -/
def leadingZeros (x : Nat) : Nat → Nat
  | 0 => 0
  | n + 1 => if bitOf x n then 0 else 1 + leadingZeros x n
/-- The number of 0 bits below the lowest 1 bit, counting at most n. -/
def trailingZeros (x : Nat) : Nat → Nat
  | 0 => 0
  | n + 1 => if bitOf x 0 then 0 else 1 + trailingZeros (x / 2) n
/-- The low n bits in reverse order. -/
def reverseBits (x : Nat) : Nat → Nat
  | 0 => 0
  | n + 1 => bitsOf x 0 1 * 2 ^ n + reverseBits (x / 2) n

/-- A V-format instruction on one 32-bit operand. -/
def unop (i : Instr) (d a : VReg) (f : Nat → Nat) (s : State) : Host.Outcome State Fault Refusal :=
  perLane i (fun x l => outD x d 1 (f (srcA x l a 1))) s

/-- POPC (R63). -/
def execPopc (d a : VReg) (s : State) := unop (.popc d a) d a (fun x => popcount x 32) s
/-- CLZ (R63). -/
def execClz (d a : VReg) (s : State) := unop (.clz d a) d a (fun x => leadingZeros x 32) s
/-- CTZ (R63). -/
def execCtz (d a : VReg) (s : State) := unop (.ctz d a) d a (fun x => trailingZeros x 32) s
/-- BREV (R63). -/
def execBrev (d a : VReg) (s : State) := unop (.brev d a) d a (fun x => reverseBits x 32) s

/-! ## Compares, predicates and select (R64 to R67) -/

/-- The relation of an ICMP code on w-bit operands (R64). -/
def icmp (c : ICmp) (w x y : Nat) : Bool :=
  match c with
  | .eq => x == y
  | .ne => x != y
  | .lt => decide (toSigned w x < toSigned w y)
  | .le => decide (toSigned w x ≤ toSigned w y)
  | .gt => decide (toSigned w y < toSigned w x)
  | .ge => decide (toSigned w y ≤ toSigned w x)
  | .ltn => decide (x < y)
  | .gen => decide (y ≤ x)

/-- ICMPP (R64). -/
def execIcmpp (wide : Bool) (cmp : ICmp) (pd : PReg) (a b : VReg) (s : State) :=
  perLane (.icmpp wide cmp pd a b) (fun x l =>
    { p := [(pd.toNat, icmp cmp (32 * wregs wide) (srcA x l a (wregs wide)) (srcB x l b (wregs wide)))] }) s

/-- The bits [31:0] of an 11-bit immediate, extended where EXT.IMM stands (R36). -/
def imm32 (e : Ext) (imm : BitVec 11) : Nat := wrapTo 32 (e.immediate 11 imm.toNat)

/-- ICMPPI (R65). -/
def execIcmppi (cmp : ICmp) (pd : PReg) (a : VReg) (imm : BitVec 11) (s : State) :=
  perLane (.icmppi cmp pd a imm) (fun x l => { p := [(pd.toNat, icmp cmp 32 (srcA x l a 1) (imm32 x.ext imm))] }) s

/-- An instruction on two predicates (R66). -/
def predOp (i : Instr) (pd pa pb : PReg) (f : Bool → Bool → Bool) (s : State) : Host.Outcome State Fault Refusal :=
  perLane i (fun x l => { p := [(pd.toNat, f (x.g.pget l pa.toNat) (x.g.pget l pb.toNat))] }) s

/-- PAND (R66). -/
def execPand (pd pa pb : PReg) (s : State) := predOp (.pand pd pa pb) pd pa pb (fun x y => x && y) s
/-- POR (R66). -/
def execPor (pd pa pb : PReg) (s : State) := predOp (.por pd pa pb) pd pa pb (fun x y => x || y) s
/-- PXOR (R66). -/
def execPxor (pd pa pb : PReg) (s : State) := predOp (.pxor pd pa pb) pd pa pb (fun x y => x != y) s
/-- PANDN: Pa AND NOT Pb (R66). -/
def execPandn (pd pa pb : PReg) (s : State) := predOp (.pandn pd pa pb) pd pa pb (fun x y => x && !y) s

/-- SEL (R67). -/
def execSel (ps : PReg) (d a b : VReg) (s : State) :=
  perLane (.sel ps d a b) (fun x l => outD x d 1 (if x.g.pget l ps.toNat then srcA x l a 1 else srcB x l b 1)) s

/-! ## Immediates, moves and addresses (R58, R60, R61, R68, R69) -/

/-- IADDI: without .sat modulo 2^32; with .sat the full signed immediate is added and the sum clamped (R58). -/
def execIaddi (d a : VReg) (imm : BitVec 11) (s : State) :=
  perLane (.iaddi d a imm) (fun x l => outD x d 1
    (if x.ext.sat then narrow .i32 true (toSigned 32 (srcA x l a 1) + x.ext.immediate 11 imm.toNat)
     else (srcA x l a 1 + imm32 x.ext imm) % 2 ^ 32)) s
/-- MOVI (R68). -/
def execMovi (d : VReg) (imm : BitVec 11) (s : State) :=
  perLane (.movi d imm) (fun x _ => outD x d 1 (imm32 x.ext imm)) s

/-- A logic instruction with an immediate. -/
def immOp (i : Instr) (d a : VReg) (imm : BitVec 11) (f : Nat → Nat → Nat) (s : State) : Host.Outcome State Fault Refusal :=
  perLane i (fun x l => outD x d 1 (f (srcA x l a 1) (imm32 x.ext imm))) s

/-- ANDI (R60). -/
def execAndi (d a : VReg) (imm : BitVec 11) (s : State) := immOp (.andi d a imm) d a imm (fun x y => x &&& y) s
/-- ORI (R60). -/
def execOri (d a : VReg) (imm : BitVec 11) (s : State) := immOp (.ori d a imm) d a imm (fun x y => x ||| y) s
/-- XORI (R60). -/
def execXori (d a : VReg) (imm : BitVec 11) (s : State) := immOp (.xori d a imm) d a imm (fun x y => x ^^^ y) s
/-- SHLI (R61). -/
def execShli (d a : VReg) (cnt : BitVec 5) (s : State) := unop (.shli d a cnt) d a (fun x => shlBits 32 x cnt.toNat) s
/-- SHRI (R61). -/
def execShri (d a : VReg) (cnt : BitVec 5) (s : State) := unop (.shri d a cnt) d a (fun x => shrBits 32 x cnt.toNat) s
/-- SARI (R61). -/
def execSari (d a : VReg) (cnt : BitVec 5) (s : State) := unop (.sari d a cnt) d a (fun x => sarBits 32 x cnt.toNat) s
/-- ROLI (R61). -/
def execRoli (d a : VReg) (cnt : BitVec 5) (s : State) := unop (.roli d a cnt) d a (fun x => rolBits 32 x cnt.toNat) s

/-- LEA: pair(A) + (ext(B) << shift), modulo 2^64 (R69). -/
def execLea (sx : Bool) (sh : BitVec 3) (d a b : VReg) (s : State) :=
  perLane (.lea sx sh d a b) (fun x l => outD x d 2
    (wrapTo 64 ((srcA x l a 2 : Int)
      + (if sx then toSigned 32 (srcB x l b 1) else (srcB x l b 1 : Int)) * (2 ^ sh.toNat : Nat)))) s
/-- LEAI (R69). -/
def execLeai (d a : VReg) (imm : BitVec 11) (s : State) :=
  perLane (.leai d a imm) (fun x l => outD x d 2 (wrapTo 64 ((srcA x l a 2 : Int) + x.ext.immediate 11 imm.toNat))) s

end Sys2Proof.Machine
end

