-- ==== Sys2Proof/Machine/RegionHeader.lean ====
section
/-! DEFINITION. The header of a fitted region: its fields, its validity and the layout of its storage (R211 to R214, R217, R218). -/
namespace Sys2Proof.Machine

/-- The sixteen words of a header. -/
abbrev Header := List Nat

/-- Reads sixteen words of memory. -/
def headerAt (m : Memory) (pa : Nat) : Header := (List.range 16).map fun k => m.readNat (pa + 8 * k) 8

namespace Header
/-- A field of a word. -/
def field (h : Header) (k lo n : Nat) : Nat := bitsOf (h.getD k 0) lo n
/-- ELEMFMT. -/
def elemFmt (h : Header) : Nat := h.field 0 40 8
/-- PARAMFMT. -/
def paramFmt (h : Header) : Nat := h.field 0 32 8
/-- STATE: 0 EMPTY, 1 INSTALLING, 2 FITTED, 3 DEMOTING, 4 DENSE. -/
def state (h : Header) : Nat := h.field 0 29 3
/-- RSTATE: 0 IDLE, 1 QUEUED, 2 RUNNING. -/
def rstate (h : Header) : Nat := h.field 0 27 2
/-- HOLD. -/
def hold (h : Header) : Bool := h.field 0 26 1 == 1
/-- ASLOT. -/
def aslot (h : Header) : Nat := h.field 0 25 1
/-- MODE: whether it is EXACT. -/
def exact (h : Header) : Bool := h.field 0 24 1 == 0
/-- OOD: 0 FAULT, 1 CLAMP, 2 FILL. -/
def ood (h : Header) : Nat := h.field 0 22 2
/-- INFL: whether it is FAULT. -/
def inflFault (h : Header) : Bool := h.field 0 21 1 == 1
/-- NDIM. -/
def ndim (h : Header) : Nat := h.field 0 19 2
/-- The layer count L. -/
def layers (h : Header) : Nat := h.field 0 17 2 + 1
/-- B of a dimension. -/
def bits (h : Header) (d : Nat) : Nat := h.field 1 (48 + 5 * d) 5
/-- N of a dimension: 1 for a dimension that the region does not have. -/
def extent (h : Header) (d : Nat) : Nat := if d < h.ndim then h.field 1 (16 * d) 16 + 1 else 1
/-- The product of the extents. -/
def points (h : Header) : Nat := h.extent 0 * h.extent 1 * h.extent 2
/-- ORG of a dimension, signed. -/
def org (h : Header) (d : Nat) : Int := toSigned 32 (if d = 0 then h.field 2 0 32 else if d = 1 then h.field 2 32 32 else h.field 3 0 32)
/-- STEP of a dimension, an FP32 code. -/
def step (h : Header) (d : Nat) : Nat := if d = 0 then h.field 4 0 32 else if d = 1 then h.field 4 32 32 else h.field 5 0 32
/-- EPS, an FP32 code. -/
def eps (h : Header) : Nat := h.field 3 32 32
/-- FILL. -/
def fill (h : Header) : Nat := h.field 5 32 32
/-- WID of a layer, from 1. -/
def wid (h : Header) (l : Nat) : Nat := h.field 6 (8 * (l - 1)) 8
/-- ACT of a layer, from 1. -/
def act (h : Header) (l : Nat) : Nat := h.field 6 (32 + 2 * (l - 1)) 2
/-- VBASE as an address. -/
def vbase (h : Header) : Nat := h.field 7 16 48 * 65536
/-- HBITS. -/
def hbits (h : Header) : Nat := h.field 8 24 5
/-- CAP. -/
def cap (h : Header) : Nat := h.field 8 0 24
/-- DEMPA as an address. -/
def dempa (h : Header) : Nat := h.field 9 16 48 * 65536
/-- LIVECNT. -/
def livecnt (h : Header) : Nat := h.field 10 32 24
/-- GEN. -/
def gen (h : Header) : Nat := h.field 10 0 32
/-- CRIN. -/
def crin (h : Header) : Nat := h.field 12 0 16

/-- The byte size of an element or of a parameter. A header that is EMPTY has no format; the checks at the issue of a Spring operation then
take elements of 2 bytes (R236; DESIGN CHOICE, log entry 115). -/
def fmtBytes (code : Nat) : Nat := if code = 0x02 then 4 else 2
/-- esize. -/
def esize (h : Header) : Nat := fmtBytes h.elemFmt
/-- psize. -/
def psize (h : Header) : Nat := fmtBytes h.paramFmt
/-- in_l of R218. -/
def inputs (h : Header) (l : Nat) : Nat := if l ≤ 1 then h.ndim else h.wid (l - 1)
/-- P of R218. -/
def params (h : Header) : Nat := (List.range h.layers).foldl (fun n k => n + h.wid (k + 1) * (h.inputs (k + 1) + 1)) 0
/-- SS of R211. -/
def slotSize (h : Header) : Nat := (h.params * h.psize + 63) / 64 * 64
/-- BS of R211. -/
def bucketSize (h : Header) : Nat := (4 * 2 ^ h.hbits + 63) / 64 * 64
/-- The offset of a parameter slot. -/
def slotOff (h : Header) (k : Nat) : Nat := 128 + h.slotSize * k
/-- The offset of the bucket array. -/
def bucketOff (h : Header) : Nat := 128 + 2 * h.slotSize
/-- The offset of an exception entry. -/
def entryOff (h : Header) (i : Nat) : Nat := h.bucketOff + h.bucketSize + 16 * i
/-- The bytes of the storage block. -/
def blockSize (h : Header) : Nat := h.entryOff h.cap
/-- The bytes of the dense reserve (R232). -/
def reserveSize (h : Header) : Nat := (2 ^ (h.bits 0 + h.bits 1 + h.bits 2) * h.esize + 65535) / 65536 * 65536
/-- Whether the dense-size rule is met (R231). -/
def denseSized (h : Header) : Bool := decide (h.points ≤ h.params + h.livecnt)

/-! ## Validity (R213) -/

/-- Whether an FP32 code is finite. -/
def finite32 (c : Nat) : Bool := bitsOf c 23 8 != 255

/-- Whether W0 is as R212 and R213 allow. -/
def word0Ok (h : Header) : Bool :=
  h.field 0 48 16 == 0 && h.field 0 0 17 == 0 && [0x02, 0x03, 0x04, 0x0A].contains h.elemFmt
  && [0x02, 0x03, 0x04].contains h.paramFmt && h.ood != 3 && h.ndim != 0

/-- Whether W1 is: extents fit their widths, and what the region does not have is 0. -/
def word1Ok (h : Header) : Bool :=
  h.field 1 63 1 == 0
  && ((List.range 3).all fun d =>
        if d < h.ndim then decide (h.bits d ≤ 16) && decide (h.extent d ≤ 2 ^ h.bits d)
        else h.bits d == 0 && h.field 1 (16 * d) 16 == 0)
  && decide (h.points ≤ 2 ^ 32)

/-- Whether W2 is. -/
def word2Ok (h : Header) : Bool := decide (1 < h.ndim) || h.field 2 32 32 == 0

/-- Whether W3 is: EPS finite and not negative. -/
def word3Ok (h : Header) : Bool :=
  finite32 h.eps && (!bitOf h.eps 31 || h.eps == 2 ^ 31) && (decide (2 < h.ndim) || h.field 3 0 32 == 0)

/-- Whether W4 is. -/
def word4Ok (h : Header) : Bool :=
  finite32 (h.step 0) && (if 1 < h.ndim then finite32 (h.step 1) else h.field 4 32 32 == 0)

/-- Whether W5 is. -/
def word5Ok (h : Header) : Bool :=
  decide (h.fill < 256 ^ h.esize) && (if 2 < h.ndim then finite32 (h.step 2) else h.field 5 0 32 == 0)

/-- Whether W6 is: widths 1 to 32, the last 1, and 0 above L. -/
def word6Ok (h : Header) : Bool :=
  h.field 6 40 24 == 0
  && ((List.range 4).all fun k =>
        let l := k + 1
        if l < h.layers then decide (1 ≤ h.wid l) && decide (h.wid l ≤ 32)
        else if l = h.layers then h.wid l == 1
        else h.wid l == 0 && h.act l == 0)

/-- Whether W8 is. -/
def word8Ok (h : Header) : Bool := h.field 8 29 35 == 0 && decide (h.hbits ≤ 20) && decide (1 ≤ h.cap)

/-- Whether W9 is. -/
def word9Ok (h : Header) : Bool := h.field 9 0 16 == 0 && (h.inflFault || h.dempa != 0)

/-- Whether one word of an image is as R212 and R213 allow. -/
def wordOk (h : Header) (k : Nat) : Bool :=
  match k with
  | 0 => h.word0Ok
  | 1 => h.word1Ok
  | 2 => h.word2Ok
  | 3 => h.word3Ok
  | 4 => h.word4Ok
  | 5 => h.word5Ok
  | 6 => h.word6Ok
  | 7 => h.field 7 0 16 == 0
  | 8 => h.word8Ok
  | 9 => h.word9Ok
  | 10 => h.field 10 56 8 == 0
  | 11 => h.field 11 8 8 == 0
  | 12 => true
  | _ => h.getD k 0 == 0

/-- The lowest-numbered word that breaks R213. -/
def badWord (h : Header) : Option Nat := (List.range 16).find? fun k => !h.wordOk k

end Header

/-- Whether two ranges of addresses share a byte. -/
def overlaps (a n b m : Nat) : Bool := decide (a < b + m) && decide (b < a + n) && n != 0 && m != 0

/-- Whether a range of HBM touches the storage of a registered region, or the reserve of one that is not DENSE (R214). -/
def touchesRegion (s : State) (pa n : Nat) : Bool :=
  s.work.regions.any fun r =>
    let h := headerAt s.hbm r.hdr
    overlaps pa n r.hdr h.blockSize || (h.state != 4 && h.dempa != 0 && overlaps pa n h.dempa h.reserveSize)

end Sys2Proof.Machine
end

