-- ==== Sys2Proof/Machine/Translate.lean ====
section
/-! DEFINITION. Translation and the checks of a memory access (R165 to R173, R179 to R181, R321, R323). -/
namespace Sys2Proof.Machine

/-- The first address of the local Pond window (R165, R179). -/
def windowBase : Nat := 0xFFFFFFFFFFF00000

/-! ## The undo-log ranges (R331) -/

/-- The share of HBM that the undo logs take, as a power of two divisor (R331, R401). -/
def logShare (s : State) : Nat := 2 ^ (6 - bitsOf s.regs.bootCfg.toNat 0 2)

/-- Bytes of undo log in one stack: a twelfth of the log size (R331). -/
def logPerStack (s : State) : Nat := Config.hbmBytes / logShare s / 12

/-- Whether a range of HBM touches an undo log (R331). -/
def touchesLog (s : State) (pa n : Nat) : Bool :=
  decide (2 ^ 36 - logPerStack s < pa % 2 ^ 36 + n) && decide (0 < n)

/-- The home die of a line of HBM (R176). -/
def homeDie (pa : Nat) : Nat := pa / 2 ^ 36 / 3

/-! ## Table entries (R166 to R170) -/

/-- One table entry: its control and address words. -/
structure Entry where
  ctl  : Nat
  addr : Nat
  deriving DecidableEq, Repr

namespace Entry
/-- V. -/
def v (e : Entry) : Bool := bitOf e.ctl 0
/-- STATE. -/
def state (e : Entry) : Nat := bitsOf e.ctl 3 2
/-- TYPE. -/
def type (e : Entry) : Nat := bitsOf e.ctl 5 3
/-- PS. -/
def ps (e : Entry) : Bool := bitOf e.ctl 8
/-- RD. -/
def rd (e : Entry) : Bool := bitOf e.ctl 9
/-- WR. -/
def wr (e : Entry) : Bool := bitOf e.ctl 10
/-- EX. -/
def ex (e : Entry) : Bool := bitOf e.ctl 11
/-- IRREV. -/
def irrev (e : Entry) : Bool := bitOf e.ctl 12
/-- IMMED. -/
def immed (e : Entry) : Bool := bitOf e.ctl 13
/-- LAT. -/
def lat (e : Entry) : Nat := bitsOf e.ctl 14 2
/-- SUBMASK. -/
def submask (e : Entry) : Nat := bitsOf e.ctl 16 16
/-- LEASE. -/
def lease (e : Entry) : Nat := bitsOf e.ctl 32 16
/-- DEV. -/
def dev (e : Entry) : Nat := bitsOf e.ctl 48 10
end Entry

/-- Reads an entry from a memory. -/
def entryAt (m : Memory) (pa : Nat) : Entry := { ctl := m.readNat pa 8, addr := m.readNat (pa + 8) 8 }

/-- The entry that a walk uses: after system software changes an entry, the old or the new one until an invalidation, whether or
not the old one was present (R171, R345, R347); which of the two is left open. -/
def walkEntry (s : State) (c : Ctx) (pa : Nat) : Entry :=
  let old := entryAt c.snap pa
  let new := entryAt s.hbm pa
  if old = new then new else if Config.freeStale (s.cycles * 2 ^ 44 + pa) then old else new

/-- A pointer that breaks R166. -/
def pointerMalformed (e : Entry) : Bool :=
  decide (e.ctl / 2 ≠ 0) || decide (e.addr % 65536 ≠ 0) || decide (Config.hbmBytes ≤ e.addr)

/-- Bytes that a leaf maps. -/
def leafBytes (e : Entry) : Nat := if e.ps then 0x200000 else 0x10000

/-- A leaf that breaks R167 to R170, at a level-0 index. The undo-log ranges make a PEER or LEASED leaf malformed only where it names this
device, whose logs they are (DESIGN CHOICE, log entry 126). -/
def leafMalformed (s : State) (e : Entry) (index : Nat) : Bool :=
  let t := e.type
  let pond := t == 1
  let remote := t == 4 || t == 5
  decide (bitsOf e.ctl 58 6 ≠ 0) || decide (bitsOf e.ctl 1 2 ≠ 0)
  || (!remote && decide (e.dev ≠ 0)) || (!(t == 5) && decide (e.lease ≠ 0))
  || (!pond && (decide (e.submask ≠ 0) || decide (e.lat ≠ 0))) || (pond && e.lat == 3)
  || e.state == 3 || t == 7
  || (e.ex && t != 0) || (e.ps && (pond || t == 2 || t == 6)) || (e.ps && decide (index % 32 ≠ 0))
  || (match t with
      | 1 => decide (2 ^ 18 ≤ e.addr) || decide (Config.coresPerDie ≤ bitsOf e.addr 8 6) || decide (240 < bitsOf e.addr 0 8)
          || decide (bitsOf e.addr 14 2 ≠ 0)
      | 2 => decide (e.addr % 64 ≠ 0) || decide (Config.hbmBytes ≤ e.addr) || touchesLog s e.addr 64
      | 6 => decide (e.addr % 65536 ≠ 0) || decide (2 ^ 24 ≤ e.addr)
      | 0 => decide (e.addr % leafBytes e ≠ 0) || decide (Config.hbmBytes ≤ e.addr)
          || touchesLog s e.addr (leafBytes e) || touchesRegion s e.addr (leafBytes e)
      | 3 => decide (e.addr % leafBytes e ≠ 0)
      | _ => decide (e.addr % leafBytes e ≠ 0) || decide (Config.hbmBytes ≤ e.addr)
          || (e.dev == s.domain.device && (touchesLog s e.addr (leafBytes e) || touchesRegion s e.addr (leafBytes e))))

/-- The outcome of a walk: the leaf with its index and the address it was read from, or the level and whether the entry was
malformed. -/
inductive Walk where
  | leaf (e : Entry) (index pa : Nat)
  | absent (level : Nat)
  | malformed (level : Nat)
  deriving DecidableEq, Repr

/-- Walks the pointers of levels 3 to 1 from a table (R165, R166), then reads the leaf (R170). -/
def walkFrom (s : State) (c : Ctx) (va : Nat) : Nat → Nat → Walk
  | 0, table =>
    let index := bitsOf va 16 12
    let first := table + 16 * (index / 32 * 32)
    let big := walkEntry s c first
    if big.v && big.ps then .leaf big (index / 32 * 32) first
    else
      let e := walkEntry s c (table + 16 * index)
      if e.v then .leaf e index (table + 16 * index) else .absent 0
  | level + 1, table =>
    let e := walkEntry s c (table + 16 * bitsOf va (16 + 12 * (level + 1)) 12)
    if !e.v then .absent (level + 1)
    else if pointerMalformed e then .malformed (level + 1)
    else walkFrom s c va level e.addr

/-- The walk of an address of a context (R165). -/
def walk (s : State) (c : Ctx) (va : Nat) : Walk := walkFrom s c va 3 c.root

/-! ## Access checks (R172, R173) -/

/-- An access: its kind (R175), its size, the size it must be aligned to, the permissions it needs, and the types it may reach. -/
structure Access where
  kind  : Nat
  size  : Nat
  align : Nat
  rd    : Bool
  wr    : Bool
  ex    : Bool
  types : List Nat
  deriving DecidableEq, Repr

/-- Types that plain loads and stores may reach: MMIO only with 4 and 8 bytes (R172). -/
def plainTypes (size : Nat) : List Nat := if size = 4 ∨ size = 8 then [0, 1, 2, 3, 4, 5, 6] else [0, 1, 2, 3, 4, 5]

/-- A load of a size. -/
def loadAccess (size : Nat) : Access := ⟨0, size, size, true, false, false, plainTypes size⟩
/-- A store of a size. -/
def storeAccess (size : Nat) : Access := ⟨1, size, size, false, true, false, plainTypes size⟩
/-- An atomic of a size; on a FITTED page it raises 0x0504. -/
def atomAccess (size : Nat) : Access := ⟨2, size, size, true, true, false, [0, 1, 2, 3, 4, 5]⟩
/-- An instruction fetch. -/
def fetchAccess : Access := ⟨3, 4, 4, false, false, true, [0]⟩
/-- A descriptor load. -/
def dldAccess : Access := ⟨4, 64, 64, true, false, false, [0, 1, 2, 3, 4, 5, 6]⟩
/-- A descriptor store. -/
def dstAccess : Access := ⟨5, 64, 64, false, true, false, [0, 1, 3, 4, 5, 6]⟩
/-- A segment query. -/
def segqAccess : Access := ⟨6, 1, 1, true, false, false, [1]⟩
/-- A segment set. -/
def segsetAccess : Access := ⟨6, 1, 1, false, true, false, [1]⟩

/-- The detail of a class 0x03 cause (R174). -/
def pageDetail (level : Nat) (malformed window : Bool) (kind type : Nat) : Nat :=
  level * 2 ^ 46 + (if malformed then 2 ^ 45 else 0) + (if window then 2 ^ 44 else 0) + kind * 2 ^ 40 + type * 2 ^ 37

/-- The team of a context that holds a segment of a core. -/
def segTeam (s : State) (ctx core seg : Nat) : Option Team :=
  s.work.teams.find? fun t => t.ctx == ctx && t.core == core && decide (t.seg ≤ seg) && decide (seg < t.seg + t.nseg)

/-- When a leaf was written: the later of the dates of its two words, in HBM or, where the leaf is one that an invalidation has yet to
replace, as the last one saw them (R171, R321). -/
def leafDate (s : State) (c : Ctx) (e : Entry) (pa : Nat) : Nat :=
  let d := if entryAt s.hbm pa = e then s.work.dates else c.snapDates
  max (sget 0 d (pa / 8)) (sget 0 d (pa / 8 + 1))

/-- How many moves of a context's teams came before a date (R321). -/
def movesBefore (c : Ctx) (date : Nat) : Nat := (c.moves.filter fun n => decide (n ≤ date)).length

/-- The core on which a team stood after so many moves of its context. -/
def stoodOn (t : Team) (moves : Nat) : Nat := t.past.getD moves t.core

/-- The core at which the segment that a POND leaf names now stands: the leaf names the core on which the team stood when the leaf
was written (R321). -/
def relocate (s : State) (c : Ctx) (e : Entry) (pa core seg : Nat) : Nat :=
  let n := movesBefore c (leafDate s c e pa)
  match s.work.teams.find? fun t =>
      t.ctx == c.num && stoodOn t (n - (c.moves.length - t.past.length)) == core && decide (t.seg ≤ seg) && decide (seg < t.seg + t.nseg) with
  | some t => t.core
  | none => core

/-- The module core, the segment and the page offset that a POND leaf maps an address to (R168, R180). -/
def pondLeaf (e : Entry) (va : Nat) : Nat × Nat × Nat :=
  (bitsOf e.addr 16 2 * Config.coresPerDie + bitsOf e.addr 8 6, bitsOf e.addr 0 8 + bitsOf va 12 4, va % 4096)

/-- The state of a lease: 2 and above are REVOKED or RELEASED (R356). A lease that this device has no registration of is taken as gone, which the
spec does not say (DESIGN CHOICE, log entry 127). -/
def leaseGone (s : State) (dev num : Nat) : Bool :=
  match s.leases.find? fun l => !l.lender && l.dev == dev && l.num == num with
  | some l => decide (2 ≤ l.state)
  | none => true

/-- Checks 2 to 6 and 9 of R173 on a page, and the place that the access reaches. -/
def checkPage (s : State) (c : Ctx) (core : Nat) (a : Access) (va : Nat) : Except CauseDetail Place :=
  match walk s c va with
  | .absent level => .error (0x0301, pageDetail level false false a.kind 0)
  | .malformed level => .error (0x0302, pageDetail level true false a.kind 0)
  | .leaf e index at_ =>
    let t := e.type
    let fail := fun (cause : Nat) => (Except.error (cause, pageDetail 0 false false a.kind t) : Except CauseDetail Place)
    let (home, seg, off) := pondLeaf e va
    let target := relocate s c e at_ home seg
    let pa := e.addr + va % leafBytes e
    if t = 1 ∧ ¬ bitOf e.submask (bitsOf va 12 4) then fail 0x0301
    else if leafMalformed s e index then .error (0x0302, pageDetail 0 true false a.kind t)
    else if (a.rd && !e.rd) || (a.wr && !e.wr) || (a.ex && !e.ex) then fail 0x0302
    else if ¬ a.types.contains t then fail 0x0305
    else if t = 1 ∧ ((e.lat = 0 ∧ target ≠ core) ∨ (e.lat = 1 ∧ dieOf target ≠ dieOf core)) then fail 0x0305
    else if t = 1 ∧ (segTeam s c.num target seg).isNone then .error (0x0401, seg * 2 ^ 40)
    else if e.state = 1 ∨ (e.state = 2 ∧ a.wr) then fail 0x0303
    else if t = 2 ∧ a.kind = 2 then .error (0x0504, 0)
    else if (t = 4 ∨ t = 5) ∧ e.dev ≠ s.domain.device ∧ s.domain.noRoute.contains e.dev then .error (0x0A01, e.dev * 2 ^ 38)
    else if t = 5 ∧ leaseGone s e.dev e.lease then .error (0x0A02, e.dev * 2 ^ 38 + e.lease)
    else
      let target : Target :=
        match t with
        | 0 => .hbm pa
        | 1 => .pond target (seg * 4096 + off)
        | 2 => .fitted e.addr
        | 3 => .host pa
        | 4 => if e.dev = s.domain.device then .hbm pa else .peer e.dev pa
        | 5 => if e.dev = s.domain.device then .hbm pa else .leased e.dev e.lease pa
        | _ => .mmio pa
      .ok { target := target, irrev := e.irrev || t == 3 || t == 6, immed := e.immed }

/-- The checks of an access in the local Pond window (R173, R179). -/
def checkWindow (team : Option Team) (a : Access) (va : Nat) : Except CauseDetail Place :=
  let o := va - windowBase
  match team with
  | none => .error (0x0401, o / 4096 * 2 ^ 40)
  | some t =>
    if a.ex then .error (0x0302, pageDetail 0 false true a.kind 0)
    else if t.nseg * 4096 ≤ o then
      .error (0x0401, o / 4096 * 2 ^ 40 + (if t.nseg = 0 then 0 else (t.nseg - 1) * 2 ^ 32 + 2 ^ 31))
    else .ok { target := .pond t.core (t.seg * 4096 + o), irrev := false, immed := false }

/-- The checks of R173 that stand before those of the target's own kind, for an access of a context from a core. -/
def checkAccess (s : State) (c : Ctx) (core : Nat) (team : Option Team) (a : Access) (va : DWord) : Except CauseDetail Place :=
  if va.toNat % a.align ≠ 0 then
    .error (0x0304, pageDetail 0 false (decide (windowBase ≤ va.toNat)) a.kind 0)
  else if windowBase ≤ va.toNat then
    if a.ex then .error (0x0302, pageDetail 0 false true a.kind 0) else checkWindow team a va.toNat
  else checkPage s c core a va.toNat

/-- The checks of an access by a group's thread. -/
def groupAccess (s : State) (g : Group) (a : Access) (va : DWord) : Except CauseDetail Place :=
  match s.ctx? g.ctx with
  | some c => checkAccess s c g.core (s.teamOf? g) a va
  | none => .error (0x0301, 0)

/-! ## Instruction fetch (R22, R323) -/

/-- The instruction word at an address of a group's context, or the cause of a failed fetch. -/
def fetchWord (s : State) (g : Group) (va : DWord) : Except CauseDetail Word :=
  match groupAccess s g fetchAccess va with
  | .error e => .error e
  | .ok p =>
    match p.target, s.ctx? g.ctx with
    | .hbm pa, some c => .ok (BitVec.ofNat 32 (c.snap.readNat pa 4))
    | _, _ => .error (0x0302, 0)

end Sys2Proof.Machine
end

