-- ==== Sys2Proof/Machine/Threads.lean ====
section
/-! DEFINITION. Convergence sets, waits at JOIN, barriers, and the end of threads, groups and teams
(R74, R76, R129, R158, R159, R248). -/
namespace Sys2Proof.Machine

/-! ## JOIN (R74) -/

/-- The lanes that a mask names among the threads that have not exited. -/
def namedLanes (g : Group) (mask : DWord) : List Nat := g.live.filter fun l => bitOf mask.toNat l

/-- Whether a thread waits at the JOIN of an address. -/
def waitsAt (g : Group) (pc : DWord) (lane : Nat) : Bool :=
  match (g.thread lane).status with
  | .join _ => (g.thread lane).pc == pc
  | _ => false

/-- Releases the wait of one lane when every thread it names stands at its JOIN. -/
def releaseJoin (g : Group) (lane : Nat) : Group :=
  match (g.thread lane).status with
  | .join m =>
    if (namedLanes g m).all (waitsAt g (g.thread lane).pc) then
      g.modifyThreads (namedLanes g m) fun t => { t with status := .run, pc := t.pc + 4 }
    else g
  | _ => g

/-- Releases every wait at a JOIN that is complete. -/
def releaseJoins (g : Group) : Group := (List.range Config.width).foldl releaseJoin g

/-! ## Barriers (R158, R159) -/

/-- A barrier at the start of its unit. -/
def freshBarrier : Barrier := { k := 0, arrived := [], engines := 0, err := false, lastErr := false }

/-- The number of a thread within its group, team or gang. -/
def threadId (level : Nat) (g : Group) (lane : Nat) : Nat :=
  if level = 0 then lane else if level = 1 then g.group * 64 + lane else g.team * 1024 + g.group * 64 + lane

/-- The groups of a barrier's unit. -/
def unitGroups (s : State) (level : Nat) (g : Group) : List Group :=
  if level = 0 then [g]
  else if level = 1 then s.work.groups.filter fun x => x.launch == g.launch && x.team == g.team
  else s.work.groups.filter fun x => x.launch == g.launch

/-- The participants of a barrier: the threads of its unit that have not exited (R158). -/
def participants (s : State) (level : Nat) (g : Group) : List Nat :=
  (unitGroups s level g).flatMap fun x => x.live.map (threadId level x)

/-- A barrier of a list. -/
def barAt (l : List Barrier) (n : Nat) : Barrier := l.getD n freshBarrier

/-- Die barriers are numbers 0 to 15 of a gang, device barriers 16 to 31. -/
def barrierIndex (level bar : Nat) : Nat := if level = 3 then 16 + bar else bar

/-- The barriers of a unit. -/
def barriersOf (s : State) (level : Nat) (g : Group) : List Barrier :=
  if level = 0 then g.bars
  else if level = 1 then ((s.teamOf? g).map (·.bars)).getD []
  else ((s.launch? g.launch).map (·.bars)).getD []

/-- Changes one barrier of a unit. -/
def modifyBarrier (s : State) (level bar : Nat) (g : Group) (f : Barrier → Barrier) : State :=
  if level = 0 then s.modifyGroup g.uid fun x => { x with bars := modifyAt f x.bars bar }
  else if level = 1 then s.modifyTeam g.launch g.team fun t => { t with bars := modifyAt f t.bars bar }
  else s.modifyLaunch g.launch fun l => { l with bars := modifyAt f l.bars (barrierIndex level bar) }

/-- Completes the phase of a barrier when every participant has arrived and every engine arrival has been made
(R159, R248); the error flag of the phase is then kept. -/
def completePhase (parts : List Nat) (b : Barrier) : Barrier :=
  if parts.all (fun t => b.arrived.contains t) && b.engines == 0 && (!b.arrived.isEmpty || b.err) then
    { k := b.k + 1, arrived := [], engines := 0, err := false, lastErr := b.err }
  else b

/-- Adds the arrivals of threads to the current phase. -/
def arrive (b : Barrier) (ids : List Nat) : Barrier := { b with arrived := b.arrived ++ ids.filter fun i => !b.arrived.contains i }

/-- Checks every phase of the units that a group belongs to, after one of its threads has gone. -/
def checkPhases (s : State) (g : Group) : State :=
  let p0 := g.live
  let p1 := participants s 1 g
  let p2 := participants s 2 g
  let s1 := s.modifyGroup g.uid fun x => { x with bars := x.bars.map (completePhase p0) }
  let s2 := s1.modifyTeam g.launch g.team fun t => { t with bars := t.bars.map (completePhase p1) }
  s2.modifyLaunch g.launch fun l => { l with bars := l.bars.map (completePhase p2) }

/-! ## The end of groups and teams (R76, R136) -/

/-- Whether a group has ended: every thread has exited and every counter is 0, and no action is still to be named for it. One whose last threads
EXIT under single step stays PARKED with 0x0D02 until its action, though R76 ends a group once every counter is 0 (DESIGN CHOICE, log entry 125). -/
def groupEnded (g : Group) : Bool := g.live.isEmpty && g.quiet && g.park.isNone

/-- Removes one ended group, and its team when it was the last one of it. -/
def endGroup (s : State) (g : Group) : State :=
  let s1 := { s with work := { s.work with groups := s.work.groups.filter fun x => x.uid != g.uid } }
  let s2 := s1.modifyLaunch g.launch fun l => { l with bad := l.bad || g.badEnd }
  if s2.work.groups.any fun x => x.launch == g.launch && x.team == g.team then s2
  else
    let gone := (s.teamOf? g).map (·.uid)
    let s3 := s2.modifyLaunch g.launch fun l => { l with ended := l.ended + 1 }
    { s3 with work := { s3.work with
        teams := s3.work.teams.filter fun t => !(t.launch == g.launch && t.index == g.team)
        segs := s3.work.segs.filter fun (_, x) => some x.team != gone } }

/-- Ends every group that has ended. -/
def settle (s : State) : State := (s.work.groups.filter groupEnded).foldl endGroup s

/-! ## Scopes (R199, R201, R206) -/

/-- Whether the threads of two groups are mutually in a scope, as the groups stand now: 0 GROUP, 1 TEAM, 2 DIE, 3 DEVICE, 4 SYSTEM (R199). -/
def mutually (a b : Group) (sc : Nat) : Bool :=
  match sc with
  | 0 => a.uid == b.uid
  | 1 => a.launch == b.launch && a.team == b.team
  | 2 => dieOf a.core == dieOf b.core
  | _ => true

/-- Whether a group's instance of a scope holds an agent besides its own threads: the engines of its die stand in every instance
wider than TEAM (R199). -/
def reaches (s : State) (g : Group) (sc : Nat) : Bool :=
  decide (2 ≤ sc) || (sc == 1 && s.work.groups.any fun x => x.uid != g.uid && mutually g x 1)

/-- Whether an acquire of a scope stands behind a release of the group that is not performed, where both are of a scope that another
agent shares (Rel before Acq of R206). -/
def acquireWaits (s : State) (g : Group) (acquires : Bool) (sc : Nat) : Bool :=
  acquires && g.stores.any fun b => bitOf b.ord.toNat 1 && reaches s g (min sc b.scope.toNat)

/-- The issue numbers from here on are those of the elements that engines store into regions, which no instruction of a group counts. -/
def engineIssue : Nat := 2 ^ 64

/-- Whether every store and tile write that a group has issued is performed (R194, R195). -/
def storesPerformed (s : State) (g : Group) : Bool :=
  g.stores.isEmpty && g.tiles.isEmpty && !(s.work.springHeld.any fun h => h.group == g.uid && decide (h.issue < engineIssue))

/-- The groups of a running context issue; those of one that has stopped do not (R318). -/
def ctxRunning (s : State) (g : Group) : Bool :=
  match s.ctx? g.ctx with
  | some c => c.state == .running || (c.state == .stopping && !g.ext.isEmpty)
  | none => false

end Sys2Proof.Machine
end

