-- ==== Sys2Proof/Machine/Control.lean ====
section
/-! DEFINITION. Extension words, branches, calls, JOIN, EXIT, system registers and traps:
majors 0x18 to 0x1D, 0x1F and 0x78 to 0x7B (R23, R70 to R81). -/
namespace Sys2Proof.Machine

/-! ## Extension words and illegal words (R23, R40, R47) -/

/-- An extension word issues in its own slot: its only effect is on the extension state, and the set stays the one that
issues (R23, R130). -/
def extWord (i : Instr) (s : State) : Host.Outcome State Fault Refusal :=
  match currentIssue s with
  | none => .fault .noIssuingGroup
  | some x =>
    .next { s.setGroup { wordIssued (advance x.g x.lanes) with ext := x.g.ext ++ [(encode i).getD 0], issuing := x.lanes } with cur := none }

/-- EXT.PRED (R35). -/
def execExtPred (payload : BitVec 25) (s : State) := extWord (.extPred payload) s
/-- EXT.IMM (R36). -/
def execExtImm (payload : BitVec 25) (s : State) := extWord (.extImm payload) s
/-- EXT.SHI (R37). -/
def execExtShi (payload : BitVec 25) (s : State) := extWord (.extShi payload) s
/-- EXT.HINT (R38). -/
def execExtHint (payload : BitVec 25) (s : State) := extWord (.extHint payload) s

/-- The instruction that a word with a non-zero reserved field names, and else the word itself. -/
def namedBy (w : Word) : Instr :=
  match decode w with
  | .error (.reserved i _ _) => i
  | _ => .illegalInstruction w

/-- A word that is no legal instruction raises its cause in the whole set (R47). -/
def execIllegalInstruction (w : Word) (s : State) : Host.Outcome State Fault Refusal :=
  match currentIssue s with
  | none => .fault .noIssuingGroup
  | some x =>
    if targetPending x (namedBy w) || formatPending x.g (namedBy w) then .next s
    else .next (finish s x x.ext.yields (.fault (decodeStop x (namedBy w) w (illegalFault s x.g w))))

/-! ## Direct branches (R70) -/

/-- The target of a B-format word: its own address plus 4 times the offset (R32). -/
def branchTarget (e : Ext) (off : BitVec 20) (pc : DWord) : DWord :=
  BitVec.ofNat 64 (wrapTo 64 ((pc.toNat : Int) + 4 * e.immediate 20 off.toNat))

/-- A guarded direct branch; `link` tells whether it is CALL. -/
def branch (i : Instr) (gd : Guard) (off : BitVec 20) (link : Bool) (s : State) : Host.Outcome State Fault Refusal :=
  issue i (fun s x =>
    let taken := x.lanes.filter fun l => branchGuard gd (x.g.thread l)
    let g1 := if link then taken.foldl (fun g l => applyLane g l { v := vout 2 2 ((x.g.thread l).pc + 4).toNat }) x.g else x.g
    let g2 := x.lanes.foldl (fun g l => g.modifyThread l fun t =>
      { t with pc := if taken.contains l then branchTarget x.ext off t.pc else t.pc + 4 }) g1
    .moved (s.setGroup g2)) s

/-- BRA (R70). -/
def execBra (g : Guard) (off : BitVec 20) (s : State) := branch (.bra g off) g off false s
/-- CALL: the link goes to V2:V3 (R70). -/
def execCall (g : Guard) (off : BitVec 20) (s : State) := branch (.call g off) g off true s

/-! ## Indirect transfers (R71 to R73) -/

/-- The word of LAND (R72). -/
def landWord : Word := 0x36000001

/-- Why a target is bad, with the word read there (R71). -/
def targetFault (s : State) (g : Group) (land : Bool) (tgt : DWord) : Option (Nat × Nat) :=
  if tgt.toNat % 4 ≠ 0 then some (0x0107, 0)
  else match fetchWord s g tgt with
    | .error (c, _) => some (c, 0)
    | .ok w => if land ∧ w ≠ landWord then some (0x0106, w.toNat) else none

/-- The first cause of a list that occurs among the bad threads. -/
def firstCause (causes : List Nat) (bad : List (Nat × Nat × α)) : Nat :=
  (causes.find? fun c => bad.any fun (_, c', _) => c' == c).getD 0

/-- An indirect transfer through the pair in A; `link` names the pair that receives the link of CALLI. -/
def indirect (i : Instr) (a : VReg) (land : Bool) (link : Option VReg) (s : State) : Host.Outcome State Fault Refusal :=
  issue i (fun s x =>
    let tgt := fun l => x.g.vpair l (x.ext.vnum 11 a)
    let bad := x.members.filterMap fun l => (targetFault s x.g land (tgt l)).map fun r => (l, r)
    let badLanes := bad.map (·.1)
    let good := x.members.filter fun l => !badLanes.contains l
    let g1 := match link with
      | some d => good.foldl (fun g l => applyLane g l (outD x d 2 ((x.g.thread l).pc + 4).toNat)) x.g
      | none => x.g
    let g2 := applyZeros i x g1
    let g3 := x.lanes.foldl (fun g l => g.modifyThread l fun t =>
      { t with pc := if badLanes.contains l then t.pc else if good.contains l then tgt l else t.pc + 4 }) g2
    if bad.isEmpty then .moved (s.setGroup g3)
    else
      let cause := firstCause [0x0107, 0x0301, 0x0302, 0x0303, 0x0106] bad
      match bad.find? fun (_, c, _) => c == cause with
      | some (l, _, w) =>
        .part (s.setGroup g3) true
          { cause := cause, lanes := badLanes, va := some (tgt l), detail := w * 65536 + bad.length * 256
            kind := if cause / 256 = 3 then 3 else 0 }
      | none => .moved (s.setGroup g3)) s

/-- JMPI (R71). -/
def execJmpi (a : VReg) (s : State) := indirect (.jmpi a) a true none s
/-- CALLI (R71). -/
def execCalli (d a : VReg) (s : State) := indirect (.calli d a) a true (some d) s
/-- RET (R71). -/
def execRet (a : VReg) (s : State) := indirect (.ret a) a false none s

/-! ## Major 0x1B (R72, R75, R76, R81) -/

/-- An instruction whose only effect is to advance the PC. -/
def noEffect (i : Instr) (s : State) : Host.Outcome State Fault Refusal := issue i (fun s _ => .done s) s

/-- NOP (R75). -/
def execNop (s : State) := noEffect .nop s
/-- LAND (R72). -/
def execLand (s : State) := noEffect .land s
/-- YIELD: its effect is on the choice of convergence set alone (R75, R132). -/
def execYield (s : State) := noEffect .yield s

/-- EXIT ends the threads of the set; waits and barriers no longer count them (R74, R76, R159). -/
def execExit (s : State) : Host.Outcome State Fault Refusal :=
  match issue .exit (fun s x =>
    let g1 := releaseJoins (x.g.modifyThreads x.lanes fun t => { t with status := .exited })
    .done (checkPhases (s.setGroup g1) g1)) s with
  | .next t => .next (if t.cur.isSome then t else settle t)
  | o => o

/-- BRK: a completing trap, unless STEPCTL.SKIPBRK makes it a NOP (R81, R319, R323). -/
def execBrk (s : State) :=
  issue .brk (fun s x => if bitOf x.g.stepctl.toNat 1 then .done s else .trap s { cause := 0x0D01, lanes := x.lanes }) s

/-- JOIN: the threads that its mask names wait until all of them stand at it (R74). -/
def execJoin (a : SReg) (s : State) :=
  issue (.join a) (fun s x =>
    let mask := x.g.spair (x.ext.snum 9 a.toNat)
    let g1 := x.lanes.foldl (fun g l => g.modifyThread l fun t =>
      if bitOf mask.toNat l then { t with status := .join mask } else { t with pc := t.pc + 4 }) x.g
    .moved (s.setGroup (releaseJoins g1))) s

/-- TRAP: a completing trap in each thread whose guard is true (R80). -/
def execTrap (imm : BitVec 11) (s : State) :=
  issue (.trap imm) (fun s x =>
    if x.members.isEmpty then .done s else .trap s { cause := 0x0E01, lanes := x.members, detail := imm.toNat }) s

/-! ## System registers (R77 to R79) -/

/-- The grid coordinates of a team (R78). -/
def gridOf (l : Launch) (team : Nat) : Nat × Nat × Nat :=
  let X := l.xm + 1
  let Y := l.ym + 1
  (team % X, team / X % Y, team / X / Y)

/-- The value of a system register in a thread (R78). -/
def sysRead (s : State) (g : Group) (lane idx : Nat) : Nat :=
  let grid := ((s.launch? g.launch).map fun l => gridOf l g.team).getD (0, 0, 0)
  match idx with
  | 0x00 => lane
  | 0x01 => g.group * Config.width + lane
  | 0x02 => g.group
  | 0x03 => g.team
  | 0x04 => g.role
  | 0x05 => Config.width
  | 0x06 => g.core % Config.coresPerDie
  | 0x07 => dieOf g.core
  | 0x08 => s.domain.device
  | 0x09 => grid.1
  | 0x0A => grid.2.1
  | 0x0B => grid.2.2
  | 0x10 => s.domain.rin.toNat
  | 0x11 => ((s.ctx? g.ctx).map fun c => c.rollbacks.toNat).getD 0
  | 0x12 => if s.domain.want then 1 else 0
  | 0x18 => (g.thread lane).fpctl.toNat
  | 0x19 => (g.thread lane).fpstat.toNat
  | 0x1A => if levelOf s g then 1 else 0
  | 0x20 => s.clock
  | 0x28 => g.obsv.toNat
  | 0x29 => g.stepctl.toNat
  | 0x2A => ((s.ctx? g.ctx).map fun c => c.randseed.toNat).getD 0
  | _ => 0

/-- SRD (R77). -/
def execSrd (d : VReg) (idx : BitVec 8) (s : State) :=
  issue (.srd d idx) (fun s x =>
    .done (s.setGroup (applyZeros (.srd d idx) x (applyLanes x.g (x.members.map fun l =>
      (l, outD x d (sysRegs idx) (sysRead s x.g l idx.toNat))))))) s

/-- What FPCTL stores of a written value: FTZ, and RM with 5 to 7 stored as 0 (R14). -/
def fpctlStored (x : Word) : Word :=
  BitVec.ofNat 32 (bitsOf x.toNat 4 1 * 16 + (if bitsOf x.toNat 0 3 < 5 then bitsOf x.toNat 0 3 else 0))

/-- One member's write of a system register; RO registers do not change (R77, R78). -/
def sysWrite (s : State) (uid ctx lane idx : Nat) (val : Word) : State :=
  match idx with
  | 0x18 => s.modifyGroup uid fun g => g.modifyThread lane fun t => { t with fpctl := fpctlStored val }
  | 0x19 => s.modifyGroup uid fun g => g.modifyThread lane fun t => { t with fpstat := BitVec.ofNat 32 (val.toNat % 128) }
  | 0x28 => s.modifyGroup uid fun g => { g with obsv := BitVec.ofNat 32 (val.toNat % 2) }
  | 0x29 => s.modifyGroup uid fun g => { g with stepctl := BitVec.ofNat 32 (val.toNat % 4) }
  | 0x2A => s.modifyCtx ctx fun c => { c with randseed := val }
  | _ => s

/-- SWR: the members write one after another in ascending lane order (R77). -/
def execSwr (a : VReg) (idx : BitVec 8) (s : State) :=
  issue (.swr a idx) (fun s x =>
    .done (x.members.foldl (fun s l => sysWrite s x.uid x.g.ctx l idx.toNat (x.g.vget l (x.ext.vnum 11 a))) s)) s

end Sys2Proof.Machine
end

