-- ==== Sys2Proof/Machine/Flags.lean ====
section
/-! DEFINITION. The FPSTAT flags (R16, R99). -/
namespace Sys2Proof.Machine

/-- IX: inexact. -/
def flagIX : Word := 1
/-- UF: underflow. -/
def flagUF : Word := 2
/-- OF: overflow. -/
def flagOF : Word := 4
/-- DZ: division by zero. -/
def flagDZ : Word := 8
/-- NV: invalid operation. -/
def flagNV : Word := 16
/-- PO: an error-free add or subtract overflowed. -/
def flagPO : Word := 32
/-- PU: an error term was rounded below the subnormal range. -/
def flagPU : Word := 64

/-- A flag when its condition holds. -/
def flagIf (c : Bool) (f : Word) : Word := if c then f else 0

end Sys2Proof.Machine
end

