-- ==== Sys2Proof/Machine/Float.lean ====
section
/-! DEFINITION. Element formats, exact values, rounding and encoding (R83 to R101). -/
namespace Sys2Proof.Machine

/-! ## Exact values -/

/-- A magnitude m × 2^e with a sign; sticky adds a positive amount below one unit of m. -/
structure Exact where
  neg    : Bool
  m      : Nat
  e      : Int
  sticky : Bool := false
  deriving DecidableEq, Repr

/-- A decoded element: a finite value, an infinity or a NaN, quiet or signalling (R84). -/
inductive FVal where
  | fin (x : Exact)
  | inf (neg : Bool)
  | nan (signalling : Bool)
  deriving DecidableEq, Repr

/-- The number of bits of a number; log2 gives the position of the highest. -/
def lenOf (n : Nat) : Nat := if n = 0 then 0 else Nat.log2 n + 1

namespace Exact
/-- Zero of a sign. -/
def zero (neg : Bool) : Exact := ⟨neg, 0, 0, false⟩
/-- Whether the value is zero. -/
def isZero (x : Exact) : Bool := x.m == 0 && !x.sticky
/-- The value with its sign inverted. -/
def negate (x : Exact) : Exact := { x with neg := !x.neg }
/-- The value of an integer. -/
def ofInt (i : Int) : Exact := ⟨decide (i < 0), i.natAbs, 0, false⟩
/-- The value times a power of two. -/
def scale (x : Exact) (k : Int) : Exact := { x with e := x.e + k }
end Exact

/-- Compares m1 × 2^e1 with m2 × 2^e2, both without sign. -/
def cmpMag (m1 : Nat) (e1 : Int) (m2 : Nat) (e2 : Int) : Ordering :=
  if m1 = 0 then (if m2 = 0 then .eq else .lt)
  else if m2 = 0 then .gt
  else
    let l1 := e1 + lenOf m1
    let l2 := e2 + lenOf m2
    if l1 < l2 then .lt else if l2 < l1 then .gt
    else
      let e := min e1 e2
      compare (m1 * 2 ^ (e1 - e).toNat) (m2 * 2 ^ (e2 - e).toNat)

/-- Compares two exact values as signed numbers; the zeros are equal. -/
def cmpExact (x y : Exact) : Ordering :=
  if x.isZero && y.isZero then .eq
  else if x.neg && !x.isZero then
    (if y.neg && !y.isZero then cmpMag y.m y.e x.m x.e else .lt)
  else if y.neg && !y.isZero then .gt
  else cmpMag x.m x.e y.m y.e

/-! ## Formats (R83, R88) -/

/-- A floating-point format: its exponent and mantissa bits, its bias, and whether it keeps codes for infinities and NaNs. -/
structure FloatFmt where
  code : Nat
  ebits : Nat
  mbits : Nat
  bias : Nat
  ieee : Bool
  deriving DecidableEq, Repr

/-- FP64. -/
def fp64 : FloatFmt := ⟨0x01, 11, 52, 1023, true⟩
/-- FP32. -/
def fp32 : FloatFmt := ⟨0x02, 8, 23, 127, true⟩
/-- BF16. -/
def bf16 : FloatFmt := ⟨0x03, 8, 7, 127, true⟩
/-- FP16. -/
def fp16 : FloatFmt := ⟨0x04, 5, 10, 15, true⟩
/-- E5M2. -/
def e5m2 : FloatFmt := ⟨0x05, 5, 2, 15, true⟩
/-- E4M3. -/
def e4m3 : FloatFmt := ⟨0x06, 4, 3, 7, false⟩
/-- E3M2. -/
def e3m2 : FloatFmt := ⟨0x07, 3, 2, 3, false⟩
/-- E2M3. -/
def e2m3 : FloatFmt := ⟨0x08, 2, 3, 1, false⟩
/-- E2M1. -/
def e2m1 : FloatFmt := ⟨0x09, 2, 1, 1, false⟩

/-- The floating-point format of a code. -/
def floatFmt? (code : Nat) : Option FloatFmt :=
  match code with
  | 1 => some fp64 | 2 => some fp32 | 3 => some bf16 | 4 => some fp16 | 5 => some e5m2
  | 6 => some e4m3 | 7 => some e3m2 | 8 => some e2m3 | 9 => some e2m1 | _ => none

/-- Bits of an element (R83, R85); E3M2 and E2M3 take a byte each. -/
def elemBits (code : Nat) : Nat :=
  match code with
  | 1 => 64 | 2 => 32 | 3 | 4 | 0x0A | 0x0B => 16 | 9 | 0x0E | 0x0F => 4 | 0x10 => 1 | _ => 8

/-- Whether SCALE applies to a format (R89). -/
def scaledFmt (code : Nat) : Bool := decide (5 ≤ code) && decide (code ≤ 9)

namespace FloatFmt
/-- The exponent of the smallest normal. -/
def emin (f : FloatFmt) : Int := 1 - (f.bias : Int)
/-- The exponent field of the largest finite magnitude. -/
def maxE (f : FloatFmt) : Nat := if f.ieee then 2 ^ f.ebits - 2 else 2 ^ f.ebits - 1
/-- The mantissa field of the largest finite magnitude; E4M3 keeps its last code for NaN. -/
def maxM (f : FloatFmt) : Nat := if f.code = 6 then 2 ^ f.mbits - 2 else 2 ^ f.mbits - 1
/-- The largest finite magnitude. -/
def maxExact (f : FloatFmt) (neg : Bool) : Exact := ⟨neg, 2 ^ f.mbits + f.maxM, (f.maxE : Int) - f.bias - f.mbits, false⟩
/-- The code of a sign, an exponent field and a mantissa field. -/
def pack (f : FloatFmt) (neg : Bool) (e m : Nat) : Nat :=
  (if neg then 2 ^ (f.ebits + f.mbits) else 0) + e * 2 ^ f.mbits + m
/-- The code of the largest finite magnitude. -/
def maxCode (f : FloatFmt) (neg : Bool) : Nat := f.pack neg f.maxE f.maxM
/-- The code of an infinity. -/
def infCode (f : FloatFmt) (neg : Bool) : Nat := f.pack neg (2 ^ f.ebits - 1) 0
/-- The canonical NaN (R93). -/
def nanCode (f : FloatFmt) : Nat :=
  if f.ieee then f.pack false (2 ^ f.ebits - 1) (2 ^ (f.mbits - 1)) else if f.code = 6 then 0x7F else 0
/-- The value of a code (R84). -/
def decode (f : FloatFmt) (c : Nat) : FVal :=
  let neg := bitOf c (f.ebits + f.mbits)
  let e := bitsOf c f.mbits f.ebits
  let m := bitsOf c 0 f.mbits
  if f.ieee ∧ e = 2 ^ f.ebits - 1 then (if m = 0 then .inf neg else .nan (m < 2 ^ (f.mbits - 1)))
  else if f.code = 6 ∧ e = 15 ∧ m = 7 then .nan false
  else if e = 0 then .fin ⟨neg, m, f.emin - f.mbits, false⟩
  else .fin ⟨neg, 2 ^ f.mbits + m, (e : Int) - f.bias - f.mbits, false⟩
end FloatFmt

/-! ## Rounding (R15, R95 to R98) -/

/-- A rounding mode by its code, with the draw that RSTO uses (R97). -/
structure Mode where
  code : Nat
  draw : Nat := 0
  deriving DecidableEq, Repr

/-- RNE. -/
def rne : Mode := ⟨0, 0⟩

/-- Whether the magnitude hi + (rem + sticky) / 2^s is rounded away from zero. -/
def roundsUp (md : Mode) (neg : Bool) (hi rem s : Nat) (sticky : Bool) : Bool :=
  let twice := 2 * rem
  let unit := 2 ^ s
  let inexact := rem != 0 || sticky
  match md.code with
  | 0 => decide (unit < twice) || (twice == unit && (sticky || hi % 2 == 1))
  | 1 => false
  | 2 => inexact && !neg
  | 3 => inexact && neg
  | 4 => decide (unit ≤ twice)
  | _ => decide (md.draw < rem * 4294967296 / unit)

/-- Rounds a magnitude to a multiple of 2^q: the multiple, and whether the result differs. -/
def roundAt (md : Mode) (x : Exact) (q : Int) : Nat × Bool :=
  if q ≤ x.e then (x.m * 2 ^ (x.e - q).toNat, x.sticky)
  else
    let s := (q - x.e).toNat
    if lenOf x.m + 34 < s then
      (if roundsUp md x.neg 0 0 1 (x.m != 0 || x.sticky) then 1 else 0, x.m != 0 || x.sticky)
    else
      let hi := x.m / 2 ^ s
      let rem := x.m % 2 ^ s
      (if roundsUp md x.neg hi rem s x.sticky then hi + 1 else hi, rem != 0 || x.sticky)

/-- The unit of the last place of a value in a format, with the subnormal spacing or without. -/
def quantum (f : FloatFmt) (x : Exact) (bounded : Bool) : Int :=
  let q := x.e + lenOf x.m - 1 - f.mbits
  if bounded then max q (f.emin - f.mbits) else q

/-- Whether a value is tiny after rounding with unbounded exponents (R98). -/
def tiny (f : FloatFmt) (md : Mode) (x : Exact) : Bool :=
  let md := if md.code = 5 then rne else md
  let q := quantum f x false
  !x.isZero && cmpMag (roundAt md x q).1 q 1 f.emin == .lt

/-- The code of a rounded magnitude hi × 2^q that does not overflow. -/
def encodeMag (f : FloatFmt) (neg : Bool) (hi : Nat) (q : Int) : Nat :=
  if hi = 0 then f.pack (neg && f.code != 9) 0 0
  else
    let lead := q + lenOf hi - 1
    if lead < f.emin then f.pack neg 0 (hi * 2 ^ (q - (f.emin - f.mbits)).toNat)
    else
      let mant := if lenOf hi ≤ f.mbits + 1 then hi * 2 ^ (f.mbits + 1 - lenOf hi) else hi / 2 ^ (lenOf hi - (f.mbits + 1))
      f.pack neg (lead + f.bias).toNat (mant - 2 ^ f.mbits)

/-- A code with the flags that producing it sets. -/
structure Coded where
  code  : Nat
  flags : Word := 0
  deriving DecidableEq, Repr

/-- The overflow rule of a target (R95). -/
def overflowCode (f : FloatFmt) (md : Mode) (sat neg : Bool) : Nat :=
  if f.ieee then
    if sat then f.maxCode neg
    else match md.code with
      | 1 => f.maxCode neg
      | 2 => if neg then f.maxCode true else f.infCode false
      | 3 => if neg then f.infCode true else f.maxCode false
      | _ => f.infCode neg
  else if f.code = 6 then (if sat then f.maxCode neg else 0x7F)
  else f.maxCode neg

/-- Rounds an exact value once into a floating-point format (R95, R98). -/
def roundTo (f : FloatFmt) (md : Mode) (sat : Bool) (x : Exact) : Coded :=
  if x.isZero then ⟨f.pack (x.neg && f.code != 9) 0 0, 0⟩
  else
    let q := quantum f x true
    let (hi, inexact) := roundAt md x q
    let mx := f.maxExact false
    if cmpMag hi q mx.m mx.e == .gt then
      ⟨overflowCode f md sat x.neg, flagOF ||| flagIX⟩
    else
      ⟨encodeMag f x.neg hi q, flagIf inexact flagIX ||| flagIf (inexact && tiny f md x) flagUF⟩

/-- Delivers a value into a floating-point format: finite values are rounded, the others follow R95. -/
def deliver (f : FloatFmt) (md : Mode) (sat : Bool) (v : FVal) : Coded :=
  match v with
  | .fin x => roundTo f md sat x
  | .inf neg =>
    if f.ieee then ⟨if sat then f.maxCode neg else f.infCode neg, 0⟩
    else if f.code = 6 then (if sat then ⟨f.maxCode neg, 0⟩ else ⟨0x7F, flagNV⟩)
    else ⟨f.maxCode neg, 0⟩
  | .nan _ => if f.ieee || f.code == 6 then ⟨f.nanCode, 0⟩ else ⟨0, flagNV⟩

/-- Rounds an exact value to an integer. -/
def roundInt (md : Mode) (x : Exact) : Int × Bool :=
  let (m, inexact) := roundAt md x 0
  (if x.neg then -(m : Int) else m, inexact)

/-- Whether an exact value lies below an integer. -/
def belowInt (x : Exact) (k : Int) : Bool :=
  cmpExact x (Exact.ofInt k) == .lt || (cmpExact x (Exact.ofInt k) == .eq && x.sticky && x.neg)

/-- Whether an exact value lies above an integer. -/
def aboveInt (x : Exact) (k : Int) : Bool :=
  cmpExact x (Exact.ofInt k) == .gt || (cmpExact x (Exact.ofInt k) == .eq && x.sticky && !x.neg)

/-- Encodes a value into an integer format of a range (R95): the integer, and the flags. Whether a finite value is out of range is
decided on the exact value, as R95's text and R114 say, and not on the rounded one (DEDUCED, log entry 97). -/
def deliverInt (lo hi : Int) (md : Mode) (v : FVal) : Int × Word :=
  match v with
  | .fin x =>
    if (x.e + lenOf x.m : Int) > 70 then (if x.neg then lo else hi, flagNV)
    else if belowInt x lo then (lo, flagNV)
    else if aboveInt x hi then (hi, flagNV)
    else
      let (i, inexact) := roundInt md x
      (i, flagIf inexact flagIX)
  | .inf neg => (if neg then lo else hi, flagNV)
  | .nan _ => (0, flagNV)

/-- The range of an integer format (R85). -/
def intRange (code : Nat) : Int × Int :=
  match code with
  | 0x0A => (-32768, 32767) | 0x0B => (0, 65535) | 0x0C => (-128, 127) | 0x0D => (0, 255) | 0x0E => (-8, 7) | _ => (0, 15)

/-- NV when the input is a signalling NaN (R93). -/
def sigFlag : FVal → Word
  | .nan true => flagNV
  | _ => 0

/-- Encodes a value into any element format, before scaling (R95). -/
def encodeElem (code : Nat) (md : Mode) (sat : Bool) (v : FVal) : Coded :=
  match floatFmt? code with
  | some f =>
    let c := deliver f md sat v
    ⟨c.code, c.flags ||| sigFlag v⟩
  | none =>
    if code = 0x10 then
      match v with
      | .fin x => ⟨if x.neg && !x.isZero then 1 else 0, 0⟩
      | .inf neg => ⟨if neg then 1 else 0, 0⟩
      | .nan _ => ⟨0, flagNV⟩
    else
      let (lo, hi) := intRange code
      let (i, fl) := deliverInt lo hi md v
      ⟨wrapTo (elemBits code) i, fl ||| sigFlag v⟩

/-- Multiplies a value by a power of two. -/
def scaleVal (v : FVal) (k : Int) : FVal :=
  match v with
  | .fin x => .fin (if x.isZero then x else x.scale k)
  | v => v

/-- Scaled conversion with scale code s (R100); formats without a scale ignore it. -/
def encodeScaled (code s : Nat) (md : Mode) (sat : Bool) (v : FVal) : Coded :=
  if scaledFmt code then
    if s = 0xFF then ⟨0, flagNV⟩ else encodeElem code md sat (scaleVal v (127 - (s : Int)))
  else encodeElem code md sat v

/-- The value of an element code, before scaling (R84, R85). -/
def decodeElem (code c : Nat) : FVal :=
  match floatFmt? code with
  | some f => f.decode c
  | none =>
    if code = 0x10 then .fin ⟨c % 2 == 1, 1, 0, false⟩
    else if code = 0x0A ∨ code = 0x0C ∨ code = 0x0E then .fin (Exact.ofInt (toSigned (elemBits code) c))
    else .fin ⟨false, c % 2 ^ elemBits code, 0, false⟩

/-- The value of an element under the scale and special value of its line (R89, R90). -/
def decodeScaled (code s special c : Nat) : FVal :=
  if scaledFmt code then
    if s = 0xFF then .nan false
    else if code = 9 ∧ c % 16 = 8 then
      if special = 0 then .fin (Exact.zero true)
      else if special = 0x7F ∨ special = 0xFF then .nan false
      else scaleVal (e4m3.decode special) ((s : Int) - 127)
    else scaleVal (decodeElem code c) ((s : Int) - 127)
  else decodeElem code c

/-! ## Exact arithmetic (R94, R106, R107) -/

/-- An exact value as an integer multiple of 2^e, for e at most its own exponent. -/
def asInt (x : Exact) (e : Int) : Int :=
  let n : Nat := x.m * 2 ^ (x.e - e).toNat
  if x.neg then -(n : Int) else n

/-- The exact sum; an exact zero takes its sign by R94. -/
def addExact (md : Mode) (x y : Exact) : Exact :=
  if x.m = 0 ∧ y.m = 0 then (if x.neg = y.neg then x else Exact.zero (md.code == 3))
  else if x.m = 0 then y
  else if y.m = 0 then x
  else
    let e := min x.e y.e
    let i := asInt x e + asInt y e
    if i = 0 then Exact.zero (md.code == 3) else ⟨decide (i < 0), i.natAbs, e, false⟩

/-- The exact product. -/
def mulExact (x y : Exact) : Exact := ⟨x.neg != y.neg, x.m * y.m, x.e + y.e, false⟩

/-- The quotient of non-zero values to 140 bits, with a sticky remainder. -/
def divExact (x y : Exact) : Exact :=
  let k := 140 + lenOf y.m
  let n := x.m * 2 ^ k
  ⟨x.neg != y.neg, n / y.m, x.e - y.e - k, n % y.m != 0⟩

/-- The square root of n with its bits found from 2^k down. -/
def isqrt (n : Nat) : Nat → Nat → Nat
  | 0, r => if (r + 1) * (r + 1) ≤ n then r + 1 else r
  | k + 1, r =>
    let t := r + 2 ^ (k + 1)
    isqrt n k (if t * t ≤ n then t else r)

/-- The square root of a positive value to at least 120 bits. -/
def sqrtExact (x : Exact) : Exact :=
  let odd := x.e % 2 != 0
  let m := if odd then x.m * 2 else x.m
  let e := if odd then x.e - 1 else x.e
  let n := m * 2 ^ 260
  let r := isqrt n (lenOf n / 2 + 1) 0
  ⟨false, r, e / 2 - 130, r * r != n⟩

/-- The reciprocal square root of a positive value to at least 120 bits. -/
def rsqrtExact (x : Exact) : Exact :=
  let odd := x.e % 2 != 0
  let m := if odd then x.m * 2 else x.m
  let e := if odd then x.e - 1 else x.e
  let k := 150 + lenOf m
  let r := isqrt (2 ^ (2 * k) / m) (k + 1) 0
  ⟨false, r, -(e / 2) - k, r * r * m != 2 ^ (2 * k)⟩

/-- The sum of two values, infinities and NaNs included (R94, R99). -/
def addVal (md : Mode) (a b : FVal) : FVal × Word :=
  match a, b with
  | .nan s, .nan t => (.nan false, flagIf (s || t) flagNV)
  | .nan s, _ => (.nan false, flagIf s flagNV)
  | _, .nan t => (.nan false, flagIf t flagNV)
  | .inf s, .inf t => if s = t then (.inf s, 0) else (.nan false, flagNV)
  | .inf s, .fin _ => (.inf s, 0)
  | .fin _, .inf t => (.inf t, 0)
  | .fin x, .fin y => (.fin (addExact md x y), 0)

/-- The value with its sign inverted. -/
def negVal : FVal → FVal
  | .fin x => .fin x.negate
  | .inf s => .inf (!s)
  | .nan s => .nan s

/-- The product of two values. -/
def mulVal (a b : FVal) : FVal × Word :=
  match a, b with
  | .nan s, .nan t => (.nan false, flagIf (s || t) flagNV)
  | .nan s, _ => (.nan false, flagIf s flagNV)
  | _, .nan t => (.nan false, flagIf t flagNV)
  | .inf s, .inf t => (.inf (s != t), 0)
  | .inf s, .fin y => if y.isZero then (.nan false, flagNV) else (.inf (s != y.neg), 0)
  | .fin x, .inf t => if x.isZero then (.nan false, flagNV) else (.inf (x.neg != t), 0)
  | .fin x, .fin y => (.fin (mulExact x y), 0)

/-- The quotient of two values. -/
def divVal (a b : FVal) : FVal × Word :=
  match a, b with
  | .nan s, .nan t => (.nan false, flagIf (s || t) flagNV)
  | .nan s, _ => (.nan false, flagIf s flagNV)
  | _, .nan t => (.nan false, flagIf t flagNV)
  | .inf _, .inf _ => (.nan false, flagNV)
  | .inf s, .fin y => (.inf (s != y.neg), 0)
  | .fin x, .inf t => (.fin (Exact.zero (x.neg != t)), 0)
  | .fin x, .fin y =>
    if y.isZero then (if x.isZero then (.nan false, flagNV) else (.inf (x.neg != y.neg), flagDZ))
    else if x.isZero then (.fin (Exact.zero (x.neg != y.neg)), 0)
    else (.fin (divExact x y), 0)

/-- The fused a × b + c: the product is not rounded, and 0 × ∞ is invalid whatever c is (R106). -/
def fmaVal (md : Mode) (a b c : FVal) : FVal × Word :=
  let (p, f) := mulVal a b
  let (r, f') := addVal md p c
  (r, f ||| f')

/-- Rounds a value with its flags into a format. -/
def rounded (f : FloatFmt) (md : Mode) (r : FVal × Word) : Coded :=
  let c := deliver f md false r.1
  ⟨c.code, c.flags ||| r.2⟩

/-! ## Error-free and double-word arithmetic (R118 to R120) -/

/-- Whether a value is finite. -/
def FVal.isFin : FVal → Bool
  | .fin _ => true
  | _ => false

/-- The exact value of a finite code, or zero. -/
def exactOf (f : FloatFmt) (c : Nat) : Exact :=
  match f.decode c with
  | .fin x => x
  | _ => Exact.zero false

/-- Two codes with flags. -/
structure Pair where
  hi    : Nat
  lo    : Nat
  flags : Word
  deriving DecidableEq, Repr

/-- The code of an exactly representable value; a zero is +0. -/
def loCode (f : FloatFmt) (x : Exact) : Nat := if x.m = 0 then 0 else (roundTo f rne false x).code

/-- twosum of R118. -/
def twosum (f : FloatFmt) (a b : Nat) : Pair :=
  let va := f.decode a
  let vb := f.decode b
  let r := addVal rne va vb
  let hi := rounded f rne r
  if (f.decode hi.code).isFin then
    let rest := addExact rne (addExact rne (exactOf f a) (exactOf f b)) (exactOf f hi.code).negate
    ⟨hi.code, loCode f rest, flagIf (rest.m != 0) flagIX ||| r.2⟩
  else
    ⟨hi.code, f.nanCode, r.2 ||| flagIf (va.isFin && vb.isFin) (flagOF ||| flagIX ||| flagPO)⟩

/-- twoprod of R118. -/
def twoprod (f : FloatFmt) (a b : Nat) : Pair :=
  let va := f.decode a
  let vb := f.decode b
  let r := mulVal va vb
  let hi := rounded f rne r
  if (f.decode hi.code).isFin then
    let e := addExact rne (mulExact (exactOf f a) (exactOf f b)) (exactOf f hi.code).negate
    let lo := roundTo f rne false e
    let exactLo := cmpExact (exactOf f lo.code) e == .eq
    let loBits := if (exactOf f lo.code).m = 0 then 0 else lo.code
    ⟨hi.code, loBits, r.2 ||| (hi.flags &&& flagUF) ||| flagIf (!exactLo) flagPU ||| flagIf (e.m != 0) flagIX⟩
  else
    ⟨hi.code, f.nanCode, r.2 ||| flagIf (va.isFin && vb.isFin) (flagOF ||| flagIX)⟩

/-- The rounded sum of two codes, with its flags. -/
def rnAdd (f : FloatFmt) (a b : Nat) : Coded := rounded f rne (addVal rne (f.decode a) (f.decode b))
/-- The rounded product of two codes. -/
def rnMul (f : FloatFmt) (a b : Nat) : Coded := rounded f rne (mulVal (f.decode a) (f.decode b))
/-- The rounded fused product and sum of three codes. -/
def rnFma (f : FloatFmt) (a b c : Nat) : Coded := rounded f rne (fmaVal rne (f.decode a) (f.decode b) (f.decode c))

/-- A code with its sign inverted. -/
def flipSign (f : FloatFmt) (c : Nat) : Nat :=
  if bitOf c (f.ebits + f.mbits) then c - 2 ^ (f.ebits + f.mbits) else c + 2 ^ (f.ebits + f.mbits)

/-- The sequence of DWADD; the flags are those of every step. -/
def dwAdd (f : FloatFmt) (x y : Nat × Nat) : Pair :=
  let s := twosum f x.1 y.1
  let t := twosum f x.2 y.2
  let c := rnAdd f s.lo t.hi
  let v := twosum f s.hi c.code
  let w := rnAdd f t.lo v.lo
  let z := twosum f v.hi w.code
  ⟨z.hi, z.lo, s.flags ||| t.flags ||| c.flags ||| v.flags ||| w.flags ||| z.flags⟩

/-- The sequence of DWMUL. -/
def dwMul (f : FloatFmt) (x y : Nat × Nat) : Pair :=
  let c := twoprod f x.1 y.1
  let t0 := rnMul f x.2 y.2
  let t1 := rnFma f x.1 y.2 t0.code
  let c2 := rnFma f x.2 y.1 t1.code
  let c3 := rnAdd f c.lo c2.code
  let z := twosum f c.hi c3.code
  ⟨z.hi, z.lo, c.flags ||| t0.flags ||| t1.flags ||| c2.flags ||| c3.flags ||| z.flags⟩

/-- What a double-word instruction delivers and the flags that reach FPSTAT (R120): NV from any step, OF and IX when a
non-finite result comes from finite components. -/
def dwResult (f : FloatFmt) (z : Pair) (inputs : List Nat) : Pair :=
  let nv := (z.flags &&& flagNV) ||| flagIf (inputs.any fun c => sigFlag (f.decode c) != 0) flagNV
  if (f.decode z.hi).isFin then ⟨z.hi, z.lo, nv⟩
  else ⟨z.hi, f.nanCode, nv ||| flagIf (inputs.all fun c => (f.decode c).isFin) (flagOF ||| flagIX)⟩

end Sys2Proof.Machine
end

