-- ==== Sys2Proof/Machine/Elementary.lean ====
section
/-! DEFINITION. The functions 2^a, log2 a, sin(pi a) and cos(pi a) on FP32 arguments (R108).
Each is computed with 320 fraction bits by its power series and handed on with a sticky bit; the arguments whose value is
exact are taken apart first, so that the single rounding of R95 sees the exact value's side of every boundary. -/
namespace Sys2Proof.Machine

/-- Fraction bits of the fixed-point numbers below. -/
def fixBits : Nat := 320
/-- One as a fixed-point number. -/
def fixOne : Nat := 2 ^ fixBits
/-- The product of two fixed-point numbers. -/
def fixMul (x y : Nat) : Nat := x * y / fixOne

/-- The sum x + x^3/3 + x^5/5 + ..., the series of artanh, from a term and its odd index. -/
def artanhTail (x2 : Nat) : Nat → Nat → Nat → Nat
  | 0, _, _ => 0
  | fuel + 1, term, k => term / k + artanhTail x2 fuel (fixMul term x2) (k + 2)
/-- artanh of a number below a half. -/
def artanhFix (x : Nat) : Nat := artanhTail (fixMul x x) 120 x 1

/-- The alternating series x - x^3/3 + x^5/5 - ..., the series of arctan, as its positive and negative parts. -/
def arctanTail (x2 : Nat) : Nat → Nat → Nat → Int
  | 0, _, _ => 0
  | fuel + 1, term, k => (term / k : Nat) - arctanTail x2 fuel (fixMul term x2) (k + 2)
/-- arctan of 1/n. -/
def arctanInv (n : Nat) : Int := arctanTail (fixOne / (n * n)) 80 (fixOne / n) 1

/-- ln 2, as 2 artanh (1/3). -/
def ln2Fix : Nat := 2 * artanhFix (fixOne / 3)
/-- pi, by Machin's formula. -/
def piFix : Nat := (16 * arctanInv 5 - 4 * arctanInv 239).toNat

/-- The sum of x^k / k! from a term on. -/
def expTail (x : Nat) : Nat → Nat → Nat → Nat
  | 0, _, _ => 0
  | fuel + 1, term, k => term + expTail x fuel (fixMul term x / k) (k + 1)
/-- e^x for x below 1. -/
def expFix (x : Nat) : Nat := expTail x 90 fixOne 1

/-- The alternating sum of the terms of sin and cos: each term is the last times x^2 over two successive numbers. -/
def trigTail (x2 : Nat) : Nat → Nat → Nat → Int
  | 0, _, _ => 0
  | fuel + 1, term, k => (term : Int) - trigTail x2 fuel (fixMul term x2 / (k * (k + 1))) (k + 2)
/-- sin x for x up to 2. -/
def sinFix (x : Nat) : Nat := (trigTail (fixMul x x) 60 x 2).toNat
/-- cos x for x up to 2. -/
def cosFix (x : Nat) : Nat := (trigTail (fixMul x x) 60 fixOne 1).toNat

/-- The integer part and the fraction of a finite value as a fixed-point number, rounded down. -/
def splitFix (x : Exact) : Int × Nat :=
  let n : Nat := x.m * 2 ^ ((x.e + fixBits).toNat)
  let i : Int := if x.neg then -(n : Int) else n
  (i / (fixOne : Nat), (i % (fixOne : Nat)).toNat)

/-- 2^a for a finite value: a power of two for an integer, and past any exponent of FP32 a value that overflows or
underflows like the exact one. -/
def exp2Exact (x : Exact) : Exact :=
  if 12 < x.e + lenOf x.m then ⟨false, 1, if x.neg then -4096 else 4096, true⟩
  else
    let (n, f) := splitFix x
    if f = 0 then ⟨false, 1, n, false⟩ else ⟨false, expFix (fixMul f ln2Fix), n - fixBits, true⟩

/-- log2 of a positive finite value: an integer for a power of two. -/
def log2Exact (x : Exact) : Exact :=
  let k := lenOf x.m - 1
  let n : Int := x.e + k
  if x.m = 2 ^ k then Exact.ofInt n
  else
    let z := (x.m - 2 ^ k) * fixOne / (x.m + 2 ^ k)
    let frac := 2 * artanhFix z * fixOne / ln2Fix
    let i : Int := n * (fixOne : Nat) + frac
    if i < 0 then ⟨true, i.natAbs - 1, -(fixBits : Int), true⟩ else ⟨false, i.natAbs, -(fixBits : Int), true⟩

/-- sin (pi r) for a fixed-point r of a half-turn, and whether it is exact: 0 and 1 are. -/
def sinHalfTurn (r : Nat) : Nat × Bool :=
  if r = 0 then (0, true)
  else if 2 * r = fixOne then (fixOne, true)
  else
    let q := if fixOne < 2 * r then fixOne - r else r
    if 4 * q ≤ fixOne then (sinFix (fixMul q piFix), false)
    else (cosFix (fixMul (fixOne / 2 - q) piFix), false)

/-- sin (pi a) for a finite value; an integer gives zero with the sign of a. -/
def sinExact (x : Exact) : Exact :=
  let mag := { x with neg := false }
  let (n, f) := splitFix mag
  let (v, exact) := sinHalfTurn f
  if f = 0 then Exact.zero x.neg
  else ⟨x.neg != (n % 2 == 1), v, -(fixBits : Int), !exact⟩

/-- cos (pi a) for a finite value, as sin (pi (|a| + 1/2)); its zeros are +0. -/
def cosExact (x : Exact) : Exact :=
  let (n, f) := splitFix { x with neg := false }
  let h := f + fixOne / 2
  let n' := if fixOne ≤ h then n + 1 else n
  let r := h % fixOne
  let (v, exact) := sinHalfTurn r
  if r = 0 then Exact.zero false
  else if f = 0 then ⟨n % 2 == 1, 1, 0, false⟩
  else ⟨n' % 2 == 1, v, -(fixBits : Int), !exact⟩

end Sys2Proof.Machine
end

