-- ==== Sys2Proof/Machine/FloatOps.lean ====
section
/-! DEFINITION. Floating-point, error-free, double-word and packing instructions: majors 0x20 to 0x37 (R102 to R120),
and the RAND stream that they and RAND draw from (R156). -/
namespace Sys2Proof.Machine

/-! ## The RAND stream (R97, R156, R157) -/

/-- The mixing function, modulo 2^64. -/
def randMix (z : Nat) : Nat :=
  let z1 := (z ^^^ (z / 2 ^ 30)) * 0xBF58476D1CE4E5B9 % 2 ^ 64
  let z2 := (z1 ^^^ (z1 / 2 ^ 27)) * 0x94D049BB133111EB % 2 ^ 64
  z2 ^^^ (z2 / 2 ^ 31)

/-- The draw of a thread when its counter is n. -/
def randDraw (seed team tid n : Nat) : Nat :=
  let k1 := randMix ((seed * 2 ^ 32 + team) % 2 ^ 64)
  let k2 := randMix (k1 ^^^ (tid * 0x9E3779B97F4A7C15 % 2 ^ 64))
  randMix ((k2 + n * 0x9E3779B97F4A7C15) % 2 ^ 64) % 2 ^ 32

/-- The k-th next draw of a thread of a group. -/
def drawOf (s : State) (g : Group) (lane k : Nat) : Nat :=
  randDraw (((s.ctx? g.ctx).map fun c => c.randseed.toNat).getD 0) g.team (g.group * Config.width + lane)
    (((g.thread lane).randn.toNat + k) % 2 ^ 64)

/-- The counter of a thread after k draws. -/
def randnAfter (g : Group) (lane k : Nat) : Option DWord :=
  if k = 0 then none else some ((g.thread lane).randn + BitVec.ofNat 64 k)

/-! ## Operands and controls (R102, R105) -/

/-- The format of a float type. -/
def ftFmt : FT → FloatFmt
  | .f32 => fp32 | .f64 => fp64 | .f16 => fp16 | .bf16 => bf16
/-- The format of the error-free forms. -/
def fwFmt : FW → FloatFmt
  | .f32 => fp32 | .f64 => fp64

/-- The element code that an operand holds: FP16 and BF16 lie in the low half of a register. -/
def ftCode (ft : FT) (n : Nat) : Nat :=
  match ft with
  | .f16 | .bf16 => n % 65536
  | _ => n

/-- Source A in a float type. -/
def fA (x : Issue) (l : Nat) (a : VReg) (ft : FT) : Nat := ftCode ft (srcA x l a ft.regs)
/-- Source B in a float type. -/
def fB (x : Issue) (l : Nat) (b : VReg) (ft : FT) : Nat := ftCode ft (srcB x l b ft.regs)

/-- The rounding mode of an instruction in a thread (R95); `draw` is what RSTO uses. -/
def modeOf (x : Issue) (l draw : Nat) : Mode :=
  match x.ext.rm? with
  | some r => ⟨r, draw⟩
  | none => ⟨bitsOf (x.g.thread l).fpctl.toNat 0 3, 0⟩

/-- Whether FTZ applies in a thread to a float type (R101). -/
def ftzOf (x : Issue) (l : Nat) (ft : FT) : Bool :=
  bitOf (x.g.thread l).fpctl.toNat 4 && (ft == .f32 || ft == .f16)

/-- Whether a code is subnormal. -/
def isSubnormal (f : FloatFmt) (c : Nat) : Bool := bitsOf c f.mbits f.ebits == 0 && bitsOf c 0 f.mbits != 0

/-- A subnormal code replaced by the zero of its sign. -/
def flush (f : FloatFmt) (c : Nat) : Nat := if isSubnormal f c then f.pack (bitOf c (f.ebits + f.mbits)) 0 0 else c

/-- A source code as FTZ reads it. -/
def ftzIn (on : Bool) (f : FloatFmt) (c : Nat) : Nat := if on then flush f c else c

/-- A result as FTZ delivers it: a subnormal one becomes zero and sets UF and IX (R101). -/
def ftzOut (on : Bool) (f : FloatFmt) (c : Coded) : Coded :=
  if on && isSubnormal f c.code then ⟨flush f c.code, c.flags ||| flagUF ||| flagIX⟩ else c

/-- A float result with its flags. -/
def outF (x : Issue) (d : VReg) (ft : FT) (c : Coded) : LaneOut :=
  { v := vout (x.ext.vnum 18 d) ft.regs c.code, flags := c.flags }

/-! ## Arithmetic (R106, R107, R108) -/

/-- An arithmetic instruction of two operands with one rounding. -/
def farith (i : Instr) (ft : FT) (d a b : VReg) (f : Mode → FVal → FVal → FVal × Word) (s : State) : Host.Outcome State Fault Refusal :=
  perLane i (fun x l =>
    let fm := ftFmt ft
    let z := ftzOf x l ft
    let md := modeOf x l 0
    let va := fm.decode (ftzIn z fm (fA x l a ft))
    let vb := fm.decode (ftzIn z fm (fB x l b ft))
    outF x d ft (ftzOut z fm (rounded fm md (f md va vb)))) s

/-- FADD (R106). -/
def execFadd (ft : FT) (d a b : VReg) (s : State) := farith (.fadd ft d a b) ft d a b addVal s
/-- FSUB (R106). -/
def execFsub (ft : FT) (d a b : VReg) (s : State) := farith (.fsub ft d a b) ft d a b (fun md p q => addVal md p (negVal q)) s
/-- FMUL (R106). -/
def execFmul (ft : FT) (d a b : VReg) (s : State) := farith (.fmul ft d a b) ft d a b (fun _ p q => mulVal p q) s
/-- FDIV (R106). -/
def execFdiv (ft : FT) (d a b : VReg) (s : State) := farith (.fdiv ft d a b) ft d a b (fun _ p q => divVal p q) s

/-- FFMA: the addend is V[Q], or D when no fourth operand is named (R106). -/
def execFfma (ft : FT) (d a b : VReg) (s : State) :=
  perLane (.ffma ft d a b) (fun x l =>
    let fm := ftFmt ft
    let z := ftzOf x l ft
    let md := modeOf x l 0
    let c := ftCode ft (match x.ext.q? with
      | some q => vnat x l q ft.regs
      | none => srcD x l d ft.regs)
    let dec := fun n => fm.decode (ftzIn z fm n)
    outF x d ft (ftzOut z fm (rounded fm md (fmaVal md (dec (fA x l a ft)) (dec (fB x l b ft)) (dec c))))) s

/-- An instruction of one float operand with one rounding. -/
def funary (i : Instr) (ft : FT) (d a : VReg) (f : FVal → FVal × Word) (s : State) : Host.Outcome State Fault Refusal :=
  perLane i (fun x l =>
    let fm := ftFmt ft
    let z := ftzOf x l ft
    outF x d ft (ftzOut z fm (rounded fm (modeOf x l 0) (f (fm.decode (ftzIn z fm (fA x l a ft))))))) s

/-- The square root and its special inputs (R107). -/
def sqrtVal (v : FVal) : FVal × Word :=
  match v with
  | .nan s => (.nan false, flagIf s flagNV)
  | .inf n => if n then (.nan false, flagNV) else (.inf false, 0)
  | .fin x => if x.isZero then (v, 0) else if x.neg then (.nan false, flagNV) else (.fin (sqrtExact x), 0)

/-- The reciprocal and its special inputs (R107). -/
def rcpVal (v : FVal) : FVal × Word :=
  match v with
  | .nan s => (.nan false, flagIf s flagNV)
  | .inf n => (.fin (Exact.zero n), 0)
  | .fin x => if x.isZero then (.inf x.neg, flagDZ) else (.fin (divExact ⟨false, 1, 0, false⟩ x), 0)

/-- The reciprocal square root and its special inputs (R107). -/
def rsqVal (v : FVal) : FVal × Word :=
  match v with
  | .nan s => (.nan false, flagIf s flagNV)
  | .inf n => if n then (.nan false, flagNV) else (.fin (Exact.zero false), 0)
  | .fin x => if x.isZero then (.inf x.neg, flagDZ) else if x.neg then (.nan false, flagNV) else (.fin (rsqrtExact x), 0)

/-- FSQRT (R107). -/
def execFsqrt (ft : FT) (d a : VReg) (s : State) := funary (.fsqrt ft d a) ft d a sqrtVal s
/-- FRCP (R107). -/
def execFrcp (ft : FT) (d a : VReg) (s : State) := funary (.frcp ft d a) ft d a rcpVal s
/-- FRSQ (R107). -/
def execFrsq (ft : FT) (d a : VReg) (s : State) := funary (.frsq ft d a) ft d a rsqVal s

/-- EXP2's value and special inputs (R108). -/
def exp2Val (v : FVal) : FVal × Word :=
  match v with
  | .nan s => (.nan false, flagIf s flagNV)
  | .inf n => if n then (.fin (Exact.zero false), 0) else (.inf false, 0)
  | .fin x => (.fin (exp2Exact x), 0)

/-- LOG2's value and special inputs (R108). -/
def log2Val (v : FVal) : FVal × Word :=
  match v with
  | .nan s => (.nan false, flagIf s flagNV)
  | .inf n => if n then (.nan false, flagNV) else (.inf false, 0)
  | .fin x => if x.isZero then (.inf true, flagDZ) else if x.neg then (.nan false, flagNV) else (.fin (log2Exact x), 0)

/-- SIN's and COS's special inputs around a value of finite arguments (R108). -/
def trigVal (f : Exact → Exact) (v : FVal) : FVal × Word :=
  match v with
  | .nan s => (.nan false, flagIf s flagNV)
  | .inf _ => (.nan false, flagNV)
  | .fin x => (.fin (f x), 0)

/-- EXP2 (R108). -/
def execExp2 (d a : VReg) (s : State) := funary (.exp2 d a) .f32 d a exp2Val s
/-- LOG2 (R108). -/
def execLog2 (d a : VReg) (s : State) := funary (.log2 d a) .f32 d a log2Val s
/-- SIN (R108). -/
def execSin (d a : VReg) (s : State) := funary (.sin d a) .f32 d a (trigVal sinExact) s
/-- COS (R108). -/
def execCos (d a : VReg) (s : State) := funary (.cos d a) .f32 d a (trigVal cosExact) s

/-! ## Minimum, maximum, compare, class and sign (R109 to R112) -/

/-- Whether a value is less than another, with -0 less than +0 (R109). -/
def lessVal (a b : FVal) : Bool :=
  match a, b with
  | .inf s, .inf t => s && !t
  | .inf s, _ => s
  | _, .inf t => !t
  | .fin x, .fin y =>
    match cmpExact x y with
    | .lt => true
    | .gt => false
    | .eq => x.isZero && x.neg && !y.neg
  | _, _ => false

/-- The operand of two that FMIN or FMAX copies (R109). -/
def minMaxCode (fm : FloatFmt) (isMax : Bool) (ca cb : Nat) : Nat :=
  match fm.decode ca, fm.decode cb with
  | .nan _, .nan _ => fm.nanCode
  | .nan _, _ => cb
  | _, .nan _ => ca
  | va, vb => if isMax then (if lessVal va vb then cb else ca) else (if lessVal vb va then cb else ca)

/-- FMIN and FMAX copy the bits of one operand (R109). -/
def minMax (i : Instr) (ft : FT) (d a b : VReg) (isMax : Bool) (s : State) : Host.Outcome State Fault Refusal :=
  perLane i (fun x l =>
    let fm := ftFmt ft
    let z := ftzOf x l ft
    let ca := ftzIn z fm (fA x l a ft)
    let cb := ftzIn z fm (fB x l b ft)
    outF x d ft ⟨minMaxCode fm isMax ca cb, sigFlag (fm.decode ca) ||| sigFlag (fm.decode cb)⟩) s

/-- FMIN (R109). -/
def execFmin (ft : FT) (d a b : VReg) (s : State) := minMax (.fmin ft d a b) ft d a b false s
/-- FMAX (R109). -/
def execFmax (ft : FT) (d a b : VReg) (s : State) := minMax (.fmax ft d a b) ft d a b true s

/-- Compares two values that are not NaNs; the zeros are equal. -/
def cmpVal (a b : FVal) : Ordering :=
  match a, b with
  | .inf s, .inf t => if s = t then .eq else if s then .lt else .gt
  | .inf s, _ => if s then .lt else .gt
  | _, .inf t => if t then .gt else .lt
  | .fin x, .fin y => cmpExact x y
  | _, _ => .eq

/-- The result of FCMPP and its NV flag (R110). -/
def fcmp (c : FCmp) (a b : FVal) : Bool × Word :=
  match a, b with
  | .nan s, .nan t => (c == .ne || c == .un, flagIf (s || t || c == .lt || c == .le || c == .gt || c == .ge) flagNV)
  | .nan s, _ | _, .nan s => (c == .ne || c == .un, flagIf (s || c == .lt || c == .le || c == .gt || c == .ge) flagNV)
  | _, _ =>
    let o := cmpVal a b
    (match c with
      | .eq => o == .eq | .ne => o != .eq | .lt => o == .lt | .le => o != .gt | .gt => o == .gt | .ge => o != .lt
      | .un => false | .ord => true, 0)

/-- FCMPP (R110). -/
def execFcmpp (ft : FT) (cmp : FCmp) (pd : PReg) (a b : VReg) (s : State) :=
  perLane (.fcmpp ft cmp pd a b) (fun x l =>
    let fm := ftFmt ft
    let z := ftzOf x l ft
    let r := fcmp cmp (fm.decode (ftzIn z fm (fA x l a ft))) (fm.decode (ftzIn z fm (fB x l b ft)))
    { p := [(pd.toNat, r.1)], flags := r.2 }) s

/-- The class bit of a code (R111). -/
def classOf (f : FloatFmt) (c : Nat) : Nat :=
  match f.decode c with
  | .inf neg => if neg then 1 else 2 ^ 7
  | .nan s => if s then 2 ^ 8 else 2 ^ 9
  | .fin x =>
    if x.m = 0 then (if x.neg then 2 ^ 3 else 2 ^ 4)
    else if isSubnormal f c then (if x.neg then 2 ^ 2 else 2 ^ 5)
    else (if x.neg then 2 ^ 1 else 2 ^ 6)

/-- FCLASS (R111). -/
def execFclass (ft : FT) (d a : VReg) (s : State) :=
  perLane (.fclass ft d a) (fun x l => outD x d 1 (classOf (ftFmt ft) (fA x l a ft))) s

/-- The sign bit of a format. -/
def signBit (f : FloatFmt) : Nat := 2 ^ (f.ebits + f.mbits)

/-- FABS (R112). -/
def execFabs (ft : FT) (d a : VReg) (s : State) :=
  perLane (.fabs ft d a) (fun x l => outD x d ft.regs (fA x l a ft % signBit (ftFmt ft))) s
/-- FNEG (R112). -/
def execFneg (ft : FT) (d a : VReg) (s : State) :=
  perLane (.fneg ft d a) (fun x l => outD x d ft.regs (flipSign (ftFmt ft) (fA x l a ft))) s
/-- FCPYS: the magnitude of A with the sign of B (R112). -/
def execFcpys (ft : FT) (d a b : VReg) (s : State) :=
  perLane (.fcpys ft d a b) (fun x l =>
    let sb := signBit (ftFmt ft)
    outD x d ft.regs (fA x l a ft % sb + fB x l b ft / sb * sb)) s

/-! ## Conversions, scaling and rounding to integers (R113 to R116) -/

/-- CVTF (R113); RSTO draws once in each thread. -/
def execCvtf (src dst : FT) (d a : VReg) (s : State) :=
  perLane (.cvtf src dst d a) (fun x l =>
    let v := (ftFmt src).decode (ftCode src (srcA x l a src.regs))
    let md := modeOf x l (drawOf s x.g l 0)
    let c := deliver (ftFmt dst) md x.ext.sat v
    { v := vout (x.ext.vnum 18 d) dst.regs c.code, flags := c.flags ||| sigFlag v
      randn := if md.code = 5 then randnAfter x.g l 1 else none }) s

/-- CVTFI (R114). -/
def execCvtfi (src : FT) (dst : IW) (d a : VReg) (s : State) :=
  perLane (.cvtfi src dst d a) (fun x l =>
    let v := (ftFmt src).decode (ftCode src (srcA x l a src.regs))
    let w := iwBits dst
    let lo : Int := if iwSigned dst then -(2 ^ (w - 1) : Nat) else 0
    let hi : Int := if iwSigned dst then (2 ^ (w - 1) : Nat) - 1 else (2 ^ w : Nat) - 1
    let (i, flags) := deliverInt lo hi (modeOf x l 0) v
    { v := vout (x.ext.vnum 18 d) dst.regs (wrapTo w i), flags := flags }) s

/-- CVTIF (R114). -/
def execCvtif (src : IW) (dst : FT) (d a : VReg) (s : State) :=
  perLane (.cvtif src dst d a) (fun x l =>
    outF x d dst (roundTo (ftFmt dst) (modeOf x l 0) false (Exact.ofInt (iwInt src (srcA x l a src.regs))))) s

/-- FSCALE (R115). -/
def execFscale (ft : FT) (d a b : VReg) (s : State) :=
  perLane (.fscale ft d a b) (fun x l =>
    let fm := ftFmt ft
    let v := fm.decode (fA x l a ft)
    let c := deliver fm (modeOf x l 0) false (scaleVal v (toSigned 32 (srcB x l b 1)))
    outF x d ft ⟨c.code, c.flags ||| sigFlag v⟩) s

/-- FRND: sets no IX (R116). -/
def roundIntegral (f : FloatFmt) (md : Mode) (c : Nat) : Coded :=
  let v := f.decode c
  match v with
  | .nan sg => ⟨f.nanCode, flagIf sg flagNV⟩
  | .inf _ => ⟨c, 0⟩
  | .fin x =>
    if 0 ≤ x.e then ⟨c, 0⟩
    else
      let (m, _) := roundAt md x 0
      ⟨(roundTo f rne false ⟨x.neg, m, 0, false⟩).code, 0⟩

/-- FRND (R116). -/
def execFrnd (ft : FT) (d a : VReg) (s : State) :=
  perLane (.frnd ft d a) (fun x l => outF x d ft (roundIntegral (ftFmt ft) (modeOf x l 0) (fA x l a ft))) s

/-! ## Error-free and double-word instructions (R118 to R120) -/

/-- The registers of a pair of results. -/
def outPair (x : Issue) (d : VReg) (fw : FW) (p : Pair) : LaneOut :=
  let r := x.ext.vnum 18 d
  { v := vout r fw.regs p.hi ++ vout (r + fw.regs) fw.regs p.lo, flags := p.flags }

/-- An error-free instruction. -/
def errorFree (i : Instr) (fw : FW) (d a b : VReg) (f : FloatFmt → Nat → Nat → Pair) (s : State) : Host.Outcome State Fault Refusal :=
  perLane i (fun x l => outPair x d fw (f (fwFmt fw) (srcA x l a fw.regs) (srcB x l b fw.regs))) s

/-- FADDX (R118). -/
def execFaddx (fw : FW) (d a b : VReg) (s : State) := errorFree (.faddx fw d a b) fw d a b twosum s
/-- FSUBX (R118). -/
def execFsubx (fw : FW) (d a b : VReg) (s : State) :=
  errorFree (.fsubx fw d a b) fw d a b (fun f p q => twosum f p (flipSign f q)) s
/-- FMULX (R118). -/
def execFmulx (fw : FW) (d a b : VReg) (s : State) := errorFree (.fmulx fw d a b) fw d a b twoprod s

/-- A double-word operand (R119). -/
def dwSrc (x : Issue) (lane reg : Nat) (fw : FW) : Nat × Nat :=
  (vnat x lane reg fw.regs, vnat x lane (reg + fw.regs) fw.regs)

/-- A double-word instruction of two operands and the old destination. -/
def doubleWord (i : Instr) (fw : FW) (d a b : VReg)
    (f : FloatFmt → (Nat × Nat) → (Nat × Nat) → (Nat × Nat) → Pair) (reads : Bool) (s : State) : Host.Outcome State Fault Refusal :=
  perLane i (fun x l =>
    let p := dwSrc x l (x.ext.vnum 11 a) fw
    let q := dwSrc x l (x.ext.vnum 4 b) fw
    let o := dwSrc x l (x.ext.vnum 18 d) fw
    let inputs := [p.1, p.2, q.1, q.2] ++ (if reads then [o.1, o.2] else [])
    outPair x d fw (dwResult (fwFmt fw) (f (fwFmt fw) p q o) inputs)) s

/-- DWADD (R120). -/
def execDwadd (fw : FW) (d a b : VReg) (s : State) :=
  doubleWord (.dwadd fw d a b) fw d a b (fun f p q _ => dwAdd f p q) false s
/-- DWSUB (R120). -/
def execDwsub (fw : FW) (d a b : VReg) (s : State) :=
  doubleWord (.dwsub fw d a b) fw d a b (fun f p q _ => dwAdd f p (flipSign f q.1, flipSign f q.2)) false s
/-- DWMUL (R120). -/
def execDwmul (fw : FW) (d a b : VReg) (s : State) :=
  doubleWord (.dwmul fw d a b) fw d a b (fun f p q _ => dwMul f p q) false s
/-- DWFMA: the product plus the old destination (R120). -/
def execDwfma (fw : FW) (d a b : VReg) (s : State) :=
  doubleWord (.dwfma fw d a b) fw d a b (fun f p q o =>
    let m := dwMul f p q
    let r := dwAdd f (m.hi, m.lo) o
    ⟨r.hi, r.lo, m.flags ||| r.flags⟩) true s

/-- DWNORM (R120). -/
def execDwnorm (fw : FW) (d a : VReg) (s : State) :=
  perLane (.dwnorm fw d a) (fun x l =>
    let p := dwSrc x l (x.ext.vnum 11 a) fw
    outPair x d fw (dwResult (fwFmt fw) (twosum (fwFmt fw) p.1 p.2) [p.1, p.2])) s

/-! ## PACK and UNPK (R117) -/

/-- The format code of a narrow format. -/
def nfCode (nf : NF) : Nat := nf.code.toNat
/-- Register bits of an element of a narrow format. -/
def nfWidth (nf : NF) : Nat := 32 / nf.count

/-- PACK (R117): one element after another, one draw each under RSTO. -/
def execPack (nf : NF) (d a b : VReg) (s : State) :=
  perLane (.pack nf d a b) (fun x l =>
    let scale := srcB x l b 1 % 256
    let first := x.ext.vnum 11 a
    let rsto := (modeOf x l 0).code == 5
    let elems := (List.range nf.count).map fun k =>
      encodeScaled (nfCode nf) scale (modeOf x l (drawOf s x.g l k)) x.ext.sat (fp32.decode (x.g.vget l (first + k)).toNat)
    let word := (elems.zipIdx).foldl (fun acc (c, k) => acc + c.code % 2 ^ nfWidth nf * 2 ^ (nfWidth nf * k)) 0
    { v := vout (x.ext.vnum 18 d) 1 word, flags := elems.foldl (fun f c => f ||| c.flags) 0
      randn := if rsto then randnAfter x.g l nf.count else none }) s

/-- The flags and the FP32 value of one unpacked element. An overflow gives an infinity whatever the mode, once the
rounding under the mode exceeds the largest finite magnitude (R117). -/
def unpackElem (nf : NF) (md : Mode) (scale special c : Nat) : Coded :=
  let code := nfCode nf
  let bits := if code = 7 ∨ code = 8 then c % 64 else c
  let v := decodeScaled code scale special bits
  let sig := if scaledFmt code ∧ scale = 0xFF then 0 else sigFlag v
  match v with
  | .fin x =>
    let r := roundTo fp32 md false x
    if r.flags &&& flagOF ≠ 0 then ⟨fp32.infCode x.neg, flagOF ||| flagIX⟩ else ⟨r.code, r.flags⟩
  | v => ⟨(deliver fp32 md false v).code, sig⟩

/-- UNPK (R117). -/
def execUnpk (nf : NF) (d a b : VReg) (s : State) :=
  perLane (.unpk nf d a b) (fun x l =>
    let bv := srcB x l b 1
    let w := srcA x l a 1
    let elems := (List.range nf.count).map fun k =>
      unpackElem nf (modeOf x l 0) (bitsOf bv 0 8) (bitsOf bv 8 8) (bitsOf w (nfWidth nf * k) (nfWidth nf))
    { v := elems.zipIdx.map fun (c, k) => (x.ext.vnum 18 d + k, BitVec.ofNat 32 c.code)
      flags := elems.foldl (fun f c => f ||| c.flags) 0 }) s

end Sys2Proof.Machine
end

