-- ==== Sys2Proof/Machine/Uniform.lean ====
section
/-! DEFINITION. Uniform instructions and moves between register classes: majors 0x38 to 0x42 and 0x47 (R144 to R149). -/
namespace Sys2Proof.Machine

/-- The S register in the D field of an S or SI word. -/
def sD (x : Issue) (d : SReg) : Nat := x.ext.snum 17 d.toNat
/-- The S register in the A field of an S or SI word. -/
def sA (x : Issue) (a : SReg) : Nat := x.ext.snum 9 a.toNat
/-- The S register in the B field of an S word. -/
def sB (x : Issue) (b : SReg) : Nat := x.ext.snum 1 b.toNat

/-- A uniform ALU instruction on two S registers, modulo 2^32 (R145). -/
def uniform (i : Instr) (d a b : SReg) (f : Nat → Nat → Nat) (s : State) : Host.Outcome State Fault Refusal :=
  perSet i (fun x => x.g.sregPut (sD x d)
    (BitVec.ofNat 32 (f (x.g.sregGet (sA x a)).toNat (x.g.sregGet (sB x b)).toNat))) s

/-- SADD (R145). -/
def execSadd (d a b : SReg) (s : State) := uniform (.sadd d a b) d a b (fun x y => x + y) s
/-- SSUB (R145). -/
def execSsub (d a b : SReg) (s : State) := uniform (.ssub d a b) d a b (fun x y => x + (2 ^ 32 - y)) s
/-- SMUL (R145). -/
def execSmul (d a b : SReg) (s : State) := uniform (.smul d a b) d a b (fun x y => x * y) s
/-- SMULHI: the high word of the unsigned product (R145). -/
def execSmulhi (d a b : SReg) (s : State) := uniform (.smulhi d a b) d a b (fun x y => x * y / 2 ^ 32) s
/-- SAND (R145). -/
def execSand (d a b : SReg) (s : State) := uniform (.sand d a b) d a b (fun x y => x &&& y) s
/-- SOR (R145). -/
def execSor (d a b : SReg) (s : State) := uniform (.sor d a b) d a b (fun x y => x ||| y) s
/-- SXOR (R145). -/
def execSxor (d a b : SReg) (s : State) := uniform (.sxor d a b) d a b (fun x y => x ^^^ y) s
/-- SANDN (R145). -/
def execSandn (d a b : SReg) (s : State) := uniform (.sandn d a b) d a b andNot s
/-- SSHL (R145). -/
def execSshl (d a b : SReg) (s : State) := uniform (.sshl d a b) d a b (fun x y => shlBits 32 x (y % 256)) s
/-- SSHR (R145). -/
def execSshr (d a b : SReg) (s : State) := uniform (.sshr d a b) d a b (fun x y => shrBits 32 x (y % 256)) s
/-- SMIN, signed (R145). -/
def execSmin (d a b : SReg) (s : State) :=
  uniform (.smin d a b) d a b (fun x y => if toSigned 32 x ≤ toSigned 32 y then x else y) s
/-- SMAX, signed (R145). -/
def execSmax (d a b : SReg) (s : State) :=
  uniform (.smax d a b) d a b (fun x y => if toSigned 32 x ≤ toSigned 32 y then y else x) s
/-- SADDI (R145). -/
def execSaddi (d a : SReg) (imm : BitVec 9) (s : State) :=
  perSet (.saddi d a imm) (fun x => x.g.sregPut (sD x d)
    (BitVec.ofNat 32 ((x.g.sregGet (sA x a)).toNat + wrapTo 32 (x.ext.immediate 9 imm.toNat)))) s
/-- SMOVI (R145). -/
def execSmovi (d : SReg) (imm : BitVec 9) (s : State) :=
  perSet (.smovi d imm) (fun x => x.g.sregPut (sD x d) (BitVec.ofNat 32 (wrapTo 32 (x.ext.immediate 9 imm.toNat)))) s

/-- SCMPP writes Pd in every thread of the set (R146). -/
def execScmpp (cmp : ICmp) (pd : PReg) (a b : SReg) (s : State) :=
  perSet (.scmpp cmp pd a b) (fun x =>
    let r := icmp cmp 32 (x.g.sregGet (sA x a)).toNat (x.g.sregGet (sB x b)).toNat
    x.lanes.foldl (fun g l => g.pput l pd.toNat r) x.g) s

/-- A uniform branch: every thread of the set takes the same path (R147). -/
def uniformBranch (i : Instr) (d : SReg) (imm : BitVec 9) (onZero : Bool) (s : State) : Host.Outcome State Fault Refusal :=
  issue i (fun s x =>
    let taken := (x.g.sregGet (sD x d) == 0) == onZero
    .moved (s.setGroup (x.g.modifyThreads x.lanes fun t =>
      { t with pc := if taken then BitVec.ofNat 64 (wrapTo 64 ((t.pc.toNat : Int) + 4 * x.ext.immediate 9 imm.toNat)) else t.pc + 4 }))) s

/-- SBRZ (R147). -/
def execSbrz (d : SReg) (imm : BitVec 9) (s : State) := uniformBranch (.sbrz d imm) d imm true s
/-- SBRNZ (R147). -/
def execSbrnz (d : SReg) (imm : BitVec 9) (s : State) := uniformBranch (.sbrnz d imm) d imm false s

/-- MOVSV (R149). -/
def execMovsv (d : VReg) (a : SReg7) (s : State) :=
  perLane (.movsv d a) (fun x _ => outD x d 1 (x.g.sregGet (x.ext.snum 11 a.toNat)).toNat) s

/-- MOVVS takes the member of the lowest lane; with no member S[D] is unchanged, or 0 under Z (R149). -/
def execMovvs (d : SReg7) (a : VReg) (s : State) :=
  perSet (.movvs d a) (fun x =>
    let r := x.ext.snum 18 d.toNat
    match x.members with
    | l :: _ => x.g.sregPut r (x.g.vget l (x.ext.vnum 11 a))
    | [] => if x.ext.z then x.g.sregPut r 0 else x.g) s

/-- PMOV to a V register (R149). -/
def execPmovToV (d : VReg) (s : State) :=
  perLane (.pmovToV d) (fun x l => outD x d 1 (x.g.thread l).p.toNat) s

/-- PMOV to the predicate file; Z clears it in threads that are no members (R149). -/
def execPmovToP (a : VReg) (s : State) :=
  perSet (.pmovToP a) (fun x => x.lanes.foldl (fun g l =>
    if x.members.contains l then g.modifyThread l fun t => { t with p := BitVec.ofNat 12 (x.g.vget l (x.ext.vnum 11 a)).toNat }
    else if x.ext.z then g.modifyThread l fun t => { t with p := 0 } else g) x.g) s

end Sys2Proof.Machine
end

