-- ==== Sys2Proof/Machine/Cross.lean ====
section
/-! DEFINITION. Cross-lane instructions, REGROUP, RAND and barriers: majors 0x48 to 0x4E (R150 to R161). -/
namespace Sys2Proof.Machine

/-! ## Shuffles and votes (R150, R151) -/

/-- The four ways of LGET to name a source lane within its segment. -/
inductive GetForm where
  | abs | below | above | flip
  deriving DecidableEq, Repr

/-- The source lane of LGET: the lane it names where that is a member, else the thread's own (R150). -/
def getSource (form : GetForm) (members : List Nat) (lane b : Nat) : Nat :=
  let n := bitsOf b 0 8
  let gexp := bitsOf b 8 4
  let seg := if 1 ≤ gexp ∧ 2 ^ gexp ≤ Config.width then 2 ^ gexp else Config.width
  let loc := lane % seg
  let base := lane - loc
  let sl : Int := match form with
    | .abs => n
    | .below => (loc : Int) - n
    | .above => loc + n
    | .flip => (loc ^^^ n : Nat)
  if 0 ≤ sl ∧ sl < seg ∧ members.contains (base + sl.toNat) then base + sl.toNat else lane

/-- LGET in one of its forms. -/
def lget (i : Instr) (form : GetForm) (d a b : VReg) (s : State) : Host.Outcome State Fault Refusal :=
  perLane i (fun x l => outD x d 1 (srcA x (getSource form x.members l (srcB x l b 1)) a 1)) s

/-- LGET.abs (R150). -/
def execLgetAbs (d a b : VReg) (s : State) := lget (.lgetAbs d a b) .abs d a b s
/-- LGET.below (R150). -/
def execLgetBelow (d a b : VReg) (s : State) := lget (.lgetBelow d a b) .below d a b s
/-- LGET.above (R150). -/
def execLgetAbove (d a b : VReg) (s : State) := lget (.lgetAbove d a b) .above d a b s
/-- LGET.flip (R150). -/
def execLgetFlip (d a b : VReg) (s : State) := lget (.lgetFlip d a b) .flip d a b s

/-- The members whose source predicate is 1. -/
def voters (x : Issue) (ps : PReg) : List Nat := x.members.filter fun l => x.g.pget l ps.toNat

/-- LANY (R151). -/
def execLany (pd ps : PReg) (s : State) :=
  perLane (.lany pd ps) (fun x _ => { p := [(pd.toNat, !(voters x ps).isEmpty)] }) s
/-- LALL (R151). -/
def execLall (pd ps : PReg) (s : State) :=
  perLane (.lall pd ps) (fun x _ => { p := [(pd.toNat, (voters x ps).length == x.members.length)] }) s
/-- LMASK (R151). -/
def execLmask (d : VReg) (ps : PReg) (s : State) :=
  perLane (.lmask d ps) (fun x _ => outD x d 2 (maskOf (voters x ps))) s
/-- LLEAD (R151). -/
def execLlead (pd : PReg) (s : State) :=
  perLane (.llead pd) (fun x l => { p := [(pd.toNat, x.members.head? == some l)] }) s

/-! ## Reductions and scans (R152 to R154) -/

/-- A value that a reduction combines: one word, or the two parts of a double-word. -/
abbrev RVal := Nat × Nat

/-- An operation of a reduction, with the flags it raises. -/
abbrev Comb := RVal → RVal → RVal × Word

/-- Combines two values of which either may be absent (R152). -/
def combOpt (op : Comb) (x y : Option RVal × Word) : Option RVal × Word :=
  match x.1, y.1 with
  | none, _ => (y.1, x.2 ||| y.2)
  | _, none => (x.1, x.2 ||| y.2)
  | some a, some b => (some (op a b).1, x.2 ||| y.2 ||| (op a b).2)

/-- The value v(i) of R152 after so many steps, with the flags of every combine that contributes to it. -/
def reduceTree (op : Comb) (src : Nat → Option RVal) : Nat → Nat → Option RVal × Word
  | 0, i => (src i, 0)
  | s + 1, i => combOpt op (reduceTree op src s i) (reduceTree op src s (i ^^^ 2 ^ s))

/-- The mode of a cross-lane rounding: RM where RV is set, else FPCTL.RM of the lowest member (R152). -/
def groupMode (x : Issue) : Mode := modeOf x (x.members.headD 0) 0

/-- The rounded sum of a reduction, on which FTZ has no effect (R101, R152); a table of R163 says that REDF obeys FTZ, and the model follows
R101 and R152 (DEDUCED, log entry 113). -/
def addComb (f : FloatFmt) (md : Mode) : Comb := fun x y =>
  let c := rounded f md (addVal md (f.decode x.1) (f.decode y.1))
  ((c.code, 0), c.flags)
/-- DWADD as a reduction. -/
def dwComb (f : FloatFmt) : Comb := fun x y =>
  let p := dwResult f (dwAdd f x y) [x.1, x.2, y.1, y.2]
  ((p.hi, p.lo), p.flags)
/-- An operation on words that raises no flag. -/
def intComb (f : Nat → Nat → Nat) : Comb := fun x y => ((f x.1 y.1, 0), 0)

/-- A reduction: every member receives v(0) and its flags. -/
def reduce (i : Instr) (src : Issue → Nat → RVal) (op : Issue → Comb) (out : Issue → RVal → List (Nat × Word)) (s : State) :
    Host.Outcome State Fault Refusal :=
  perLane i (fun x _ =>
    let r := reduceTree (op x) (fun l => if x.members.contains l then some (src x l) else none) 6 0
    { v := out x (r.1.getD (0, 0)), flags := r.2 }) s

/-- The single or double registers of a reduction's result. -/
def wordOut (d : VReg) (regs : Nat) (x : Issue) (r : RVal) : List (Nat × Word) := vout (x.ext.vnum 18 d) regs r.1

/-- The registers of a double-word result. -/
def dwOut (d : VReg) (fw : FW) (x : Issue) (r : RVal) : List (Nat × Word) :=
  vout (x.ext.vnum 18 d) fw.regs r.1 ++ vout (x.ext.vnum 18 d + fw.regs) fw.regs r.2

/-- REDF (R152). -/
def execRedf (fw : FW) (d a : VReg) (s : State) :=
  reduce (.redf fw d a) (fun x l => (srcA x l a fw.regs, 0)) (fun x => addComb (fwFmt fw) (groupMode x)) (wordOut d fw.regs) s
/-- REDX (R152). -/
def execRedx (fw : FW) (d a : VReg) (s : State) :=
  reduce (.redx fw d a) (fun x l => dwSrc x l (x.ext.vnum 11 a) fw) (fun _ => dwComb (fwFmt fw)) (dwOut d fw) s

/-- An integer reduction (R152). -/
def redi (i : Instr) (d a : VReg) (f : Nat → Nat → Nat) (s : State) : Host.Outcome State Fault Refusal :=
  reduce i (fun x l => (srcA x l a 1, 0)) (fun _ => intComb f) (wordOut d 1) s

/-- The lesser of two words, signed. -/
def minI (x y : Nat) : Nat := if toSigned 32 x ≤ toSigned 32 y then x else y
/-- The greater of two words, signed. -/
def maxI (x y : Nat) : Nat := if toSigned 32 x ≤ toSigned 32 y then y else x

/-- REDI.add.i32 (R152). -/
def execRediAddI32 (d a : VReg) (s : State) := redi (.rediAddI32 d a) d a (fun x y => (x + y) % 2 ^ 32) s
/-- REDI.min.i32 (R152). -/
def execRediMinI32 (d a : VReg) (s : State) := redi (.rediMinI32 d a) d a minI s
/-- REDI.max.i32 (R152). -/
def execRediMaxI32 (d a : VReg) (s : State) := redi (.rediMaxI32 d a) d a maxI s
/-- REDI.min.n32 (R152). -/
def execRediMinN32 (d a : VReg) (s : State) := redi (.rediMinN32 d a) d a min s
/-- REDI.max.n32 (R152). -/
def execRediMaxN32 (d a : VReg) (s : State) := redi (.rediMaxN32 d a) d a max s
/-- REDI.and (R152). -/
def execRediAnd (d a : VReg) (s : State) := redi (.rediAnd d a) d a (fun x y => x &&& y) s
/-- REDI.or (R152). -/
def execRediOr (d a : VReg) (s : State) := redi (.rediOr d a) d a (fun x y => x ||| y) s
/-- REDI.xor (R152). -/
def execRediXor (d a : VReg) (s : State) := redi (.rediXor d a) d a (fun x y => x ^^^ y) s

/-- The prefix of each member in rising lane order: its lane, the value before it, the value with it, and the flags so far. -/
def scanFrom (op : Comb) (src : Nat → RVal) : List Nat → Option RVal × Word → List (Nat × Option RVal × RVal × Word)
  | [], _ => []
  | l :: r, acc =>
    let next := combOpt op acc (some (src l), 0)
    (l, acc.1, next.1.getD (0, 0), next.2) :: scanFrom op src r next

/-- A scan over the members (R154). -/
def scan (i : Instr) (src : Issue → Nat → RVal) (op : Issue → Comb) (excl : Bool) (out : Issue → RVal → List (Nat × Word)) (s : State) :
    Host.Outcome State Fault Refusal :=
  perLane i (fun x l =>
    match (scanFrom (op x) (src x) x.members (none, 0)).find? fun (l', _) => l' == l with
    | some (_, prev, cur, flags) => { v := out x (if excl then prev.getD (0, 0) else cur), flags := flags }
    | none => {}) s

/-- SCANI.add.i32 (R154). -/
def execScaniAddI32 (d a : VReg) (s : State) :=
  scan (.scaniAddI32 d a) (fun x l => (srcA x l a 1, 0)) (fun _ => intComb fun x y => (x + y) % 2 ^ 32) false (wordOut d 1) s
/-- SCANI.add.i32.excl (R154). -/
def execScaniAddI32Excl (d a : VReg) (s : State) :=
  scan (.scaniAddI32Excl d a) (fun x l => (srcA x l a 1, 0)) (fun _ => intComb fun x y => (x + y) % 2 ^ 32) true (wordOut d 1) s
/-- SCANF.f32 (R154). -/
def execScanfF32 (d a : VReg) (s : State) :=
  scan (.scanfF32 d a) (fun x l => (srcA x l a 1, 0)) (fun x => addComb fp32 (groupMode x)) false (wordOut d 1) s
/-- SCANX.f32 (R154). -/
def execScanxF32 (d a : VReg) (s : State) :=
  scan (.scanxF32 d a) (fun x l => dwSrc x l (x.ext.vnum 11 a) .f32) (fun _ => dwComb fp32) false (dwOut d .f32) s

/-! ## REGROUP (R155) -/

/-- Inserts a lane by its key after every lane of a key that is not greater. -/
def insertKey (key : Nat → Nat) (l : Nat) : List Nat → List Nat
  | [] => [l]
  | x :: r => if key l < key x then l :: x :: r else x :: insertKey key l r

/-- Lanes sorted by key, equal keys in their own order. -/
def sortLanes (key : Nat → Nat) (lanes : List Nat) : List Nat := lanes.foldl (fun acc l => insertKey key l acc) []

/-- The live V registers below the budget. -/
def liveRegs (x : Issue) (b : Nat) : List Nat :=
  (List.range x.g.vbud).filter fun r => bitOf (x.g.sregGet (b + r / 32)).toNat (r % 32)

/-- REGROUP: the members' live registers move by the sorted order of their keys; D receives the lane each value came from. -/
def execRegroup (d a : VReg) (b : SReg7) (s : State) :=
  let i := Instr.regroup d a b
  issue i (fun s x =>
    let live := liveRegs x (x.ext.snum 4 b.toNat)
    if live.any fun r => vPending x.g x.lanes r 1 then .stall
    else
      let order := sortLanes (fun l => srcA x l a 1) x.members
      let outs := (x.members.zip order).map fun (m, o) =>
        (m, ({ v := live.map (fun r => (r, x.g.vget o r)) ++ [(x.ext.vnum 18 d, BitVec.ofNat 32 o)] } : LaneOut))
      .done (s.setGroup (applyZeros i x (applyLanes x.g outs)))) s

/-! ## RAND (R156) -/

/-- RAND.n32 (R156). -/
def execRandN32 (d : VReg) (s : State) :=
  perLane (.randN32 d) (fun x l => { outD x d 1 (drawOf s x.g l 0) with randn := randnAfter x.g l 1 }) s
/-- RAND.f32: the high 24 bits of a draw, as a fraction (R156). -/
def execRandF32 (d : VReg) (s : State) :=
  perLane (.randF32 d) (fun x l =>
    { outD x d 1 (roundTo fp32 rne false ⟨false, drawOf s x.g l 0 / 256, -24, false⟩).code with randn := randnAfter x.g l 1 }) s
/-- RAND.n64: two draws, the first in the even register (R156). -/
def execRandN64 (d : VReg) (s : State) :=
  perLane (.randN64 d) (fun x l =>
    { outD x d 2 (drawOf s x.g l 0 + 2 ^ 32 * drawOf s x.g l 1) with randn := randnAfter x.g l 2 }) s

/-! ## Barriers (R158 to R160) -/

/-- The count of the barrier that an RDV names. -/
def rdvCount (s : State) (x : Issue) (lvl : BitVec 2) (bar : BitVec 8) : Word :=
  (barAt (barriersOf s lvl.toNat x.g) (barrierIndex lvl.toNat bar.toNat)).k

/-- Whether a thread of a list stands in the arrived set of the phase (R159). -/
def rdvWaiting (s : State) (g : Group) (lanes : List Nat) (lvl : BitVec 2) (bar : BitVec 8) : Bool :=
  let b := barAt (barriersOf s lvl.toNat g) (barrierIndex lvl.toNat bar.toNat)
  lanes.any fun l => b.arrived.contains (threadId lvl.toNat g l)

/-- Whether an arrival may be made: it is a release at its level's scope, so the group's stores come first (R160); a level's number is
that of its scope. -/
def rdvReleases (s : State) (x : Issue) (lvl : BitVec 2) : Bool := !reaches s x.g lvl.toNat || storesPerformed s x.g

/-- The arrival of threads, and the completion of the phase when it was the last. -/
def rdvArrive (s : State) (x : Issue) (lanes : List Nat) (lvl : BitVec 2) (bar : BitVec 8) : State :=
  let parts := participants s lvl.toNat x.g
  modifyBarrier s lvl.toNat bar.toNat x.g fun b => completePhase parts (arrive b (lanes.map (threadId lvl.toNat x.g)))

/-- Writes the count that an RDV returns. -/
def rdvResult (s : State) (x : Issue) (d : SReg) (k : Word) : State := s.modifyGroup x.uid fun g => g.sregPut (sD x d) k

/-- RDV.mark (R159). -/
def execRdvMark (d : SReg) (bar : BitVec 8) (lvl : BitVec 2) (s : State) :=
  issue (.rdvMark d bar lvl) (fun s x =>
    if rdvWaiting s x.g x.lanes lvl bar || !rdvReleases s x lvl then .stall
    else .done (rdvResult (rdvArrive s x x.lanes lvl bar) x d (rdvCount s x lvl bar))) s

/-- RDV.hold (R159); its completion is an acquire at the level's scope (R160, R206). -/
def execRdvHold (d : SReg) (bar : BitVec 8) (lvl : BitVec 2) (s : State) :=
  issue (.rdvHold d bar lvl) (fun s x =>
    let k := rdvCount s x lvl bar
    let gap := (k - x.g.sregGet (sD x d)).toNat
    if acquireWaits s x.g true lvl.toNat then .stall
    else if 1 ≤ gap ∧ gap < 2 ^ 31 then .done (rdvResult s x d k) else .stall) s

/-- The count at which a thread arrived at an RDV.meet of a barrier, when it waits there. -/
def meetCount (g : Group) (lvl : BitVec 2) (bar : BitVec 8) (lane : Nat) : Option Word :=
  match (g.thread lane).status with
  | .meet l b t => if l = lvl.toNat ∧ b = bar.toNat then some t else none
  | _ => none

/-- The threads of a set that have arrived at the RDV.meet, when the count was not k: their phase has completed. -/
def metLanes (x : Issue) (lvl : BitVec 2) (bar : BitVec 8) (k : Word) : List Nat :=
  x.lanes.filter fun l => match meetCount x.g lvl bar l with
    | some t => t != k
    | none => false

/-- The threads of a set that have yet to arrive at the RDV.meet. -/
def comingLanes (x : Issue) (lvl : BitVec 2) (bar : BitVec 8) : List Nat := x.lanes.filter fun l => (meetCount x.g lvl bar l).isNone

/-- The state after threads of the set complete their RDV.meet with the count k. -/
def rdvMet (s : State) (x : Issue) (d : SReg) (k : Word) (gone : List Nat) : State :=
  rdvResult (s.modifyGroup x.uid fun g => g.modifyThreads gone fun t => { t with status := .run }) x d k

/-- RDV.meet (R159): each thread arrives, and completes once the count has left the one at its arrival; the others of the set wait.
The completion is an acquire, whose arrival came after every store of the thread (R160). A wait that has ended issues on a port of its own,
as its arrival did, and is a step of its own where the group is stepped (DESIGN CHOICE, log entry 21). -/
def execRdvMeet (d : SReg) (bar : BitVec 8) (lvl : BitVec 2) (s : State) :=
  issue (.rdvMeet d bar lvl) (fun s x =>
    let k := rdvCount s x lvl bar
    let met := metLanes x lvl bar k
    let coming := comingLanes x lvl bar
    if coming.isEmpty || rdvWaiting s x.g coming lvl bar || !rdvReleases s x lvl then
      (if met.isEmpty then .stall else .wait (rdvMet s x d k met) met false)
    else
      let s1 := (rdvArrive s x coming lvl bar).modifyGroup x.uid fun g => g.modifyThreads coming fun t =>
        { t with status := .meet lvl.toNat bar.toNat k }
      let y := { x with g := (s1.group? x.uid).getD x.g }
      let k1 := rdvCount s1 y lvl bar
      let gone := metLanes y lvl bar k1
      .wait (if gone.isEmpty then s1 else rdvMet s1 x d k1 gone) gone true) s

/-- RDV.peek (R159). -/
def execRdvPeek (d : SReg) (bar : BitVec 8) (lvl : BitVec 2) (s : State) :=
  issue (.rdvPeek d bar lvl) (fun s x => .done (rdvResult s x d (rdvCount s x lvl bar))) s

end Sys2Proof.Machine
end

