-- ==== Sys2Proof/Machine/RegFile.lean ====
section
/-! DEFINITION. The registers of BAR 0, the device reset and the rules of register writes
(R370 to R372, R377, R379, R388, R392 to R397, R399, R400, R403, R406). -/
namespace Sys2Proof.Machine

/-! ## The device reset (R392 to R395, R399) -/

/-- The bits of RSTCAUSE (R393). -/
inductive ResetCause where
  | power | link | host | stopRst | therm | volt | hexwd | fwFail
  deriving DecidableEq, Repr

/-- The bit of a cause. -/
def ResetCause.bit : ResetCause → Nat
  | .power => 0 | .link => 1 | .host => 2 | .stopRst => 3 | .therm => 4 | .volt => 5 | .hexwd => 6 | .fwFail => 7

/-- Adds a cause to RSTCAUSE. -/
def addCause (x : BitVec 8) (c : ResetCause) : BitVec 8 := x ||| BitVec.ofNat 8 (2 ^ c.bit)

/-- RSTCAUSE as a reset leaves it: power-on clears every other bit, a cause that arises while a reset is in progress is added, and
any reset of a device that has stopped under R342 adds STOPRST (R393). -/
def resetCauseWord (s : State) (c : ResetCause) : BitVec 8 :=
  if c = .power then addCause 0 c
  else if s.regs.boot = .reset then addCause s.regs.rstCause c
  else addCause (if s.regs.unrestored then addCause 0 .stopRst else 0) c

/-- Resets since manufacture: a further cause belongs to the reset in progress (R392, R393). -/
def resetCount (s : State) : Word := if s.regs.boot = .reset then s.regs.rstCount else s.regs.rstCount + 1

/-- The record slots of LASTREC: those of the reset in progress stay (R393, R395). -/
def lastRecords (s : State) (c : ResetCause) : List (List DWord) :=
  if c = .power then [] else if s.regs.boot = .reset then s.regs.lastRec else s.records.recent

/-- A reset: every context, inlet, command and lease is gone, HBM and CLOCK start afresh, and the device stands in RESET.
Host memory, peers, fuses and non-volatile storage stay (R388, R394, R395, R399, R402, R405). -/
def doReset (s : State) (c : ResetCause) : State :=
  let o := s.regs
  { State.reset with
    host := s.host, peer := s.peer, msix := s.msix, cycles := s.cycles, nextUid := s.nextUid, occasion := s.occasion,
    agenda := s.agenda
    regs := { Regs.reset with
      rstCause := resetCauseWord s c, rstCount := resetCount s, lastRec := lastRecords s c, keyIdx := o.keyIdx,
      spareLane := o.spareLane, retCore := o.retCore, retRows := o.retRows, retFrames := o.retFrames, portOff := o.portOff,
      retL2 := o.retL2 } }

/-! ## Reading registers -/

/-- The four bytes of a list at an offset, as a word. -/
def wordIn (l : List Byte) (off : Nat) : Word := BitVec.ofNat 32 (ofLe ((l.drop off).take 4))

/-- One half of a 64-bit register. -/
def halfOf (x : DWord) (high : Bool) : Word := if high then hiWord x else loWord x

/-- BOOTSTAT.STATE (R400). -/
def Boot.code : Boot → Nat
  | .reset => 0 | .calib => 1 | .verify => 2 | .config => 3 | .init => 4 | .ready => 5 | .stopped => 6

/-- BOOTSTAT (R400). -/
def bootStat (r : Regs) : Word := BitVec.ofNat 32 (r.boot.code + (if r.badCfg then 8 else 0))

/-- DEVSTAT (R392). -/
def devStat (r : Regs) : Word :=
  BitVec.ofNat 32 ((if r.boot = .ready then 1 else 0) + (if r.boot = .stopped then 2 else 0)
    + (if r.islands.any (·.throt) then 4 else 0))

/-- DEVID: the part code and the revision (R400). -/
def devId : Word := (0x4A08 : BitVec 16) ++ Config.revision

/-- A 1-bit field at a place. -/
def flagAt (b : Bool) (k : Nat) : Nat := if b then 2 ^ k else 0

/-- One of the four registers of an island (R397). -/
def islandRead (i : Island) (r : Nat) : Word :=
  match r with
  | 0 => i.volt ++ i.temp
  | 1 => i.proc ++ i.freq
  | 2 => i.thrcnt ++ BitVec.ofNat 16 (flagAt i.off 3 + flagAt i.valarm 2 + flagAt i.talarm 1 + flagAt i.throt 0)
  | _ => i.vnom ++ i.maxt

/-- ATTCTL (R406). -/
def attCtl (r : Regs) : Word := BitVec.ofNat 32 (r.attState * 256 + r.attReason * 4096)

/-- A word of RETCORE: bit c is 1 when module core c is retired (R388). -/
def retCoreWord (r : Regs) (k : Nat) : Word :=
  BitVec.ofNat 32 (maskOf ((r.retCore.filter fun c => decide (32 * k ≤ c) && decide (c < 32 * k + 32)).map (· - 32 * k)))

/-- The block at offset 0; the reserved bits of BOOTCFG read 0 (R7, R388, R392, R397, R400). -/
def identityRead (s : State) (off : Nat) : Word :=
  let r := s.regs
  if off = 0x00 then devId
  else if off = 0x08 then loWord Config.serial
  else if off = 0x0C then hiWord Config.serial
  else if off = 0x10 then r.bootCfg &&& 0xFF03
  else if off = 0x18 then bootStat r
  else if off = 0x20 ∨ off = 0x24 then halfOf r.winBase (off == 0x24)
  else if off = 0x28 ∨ off = 0x2C then halfOf r.winSize (off == 0x2C)
  else if off = 0x30 then r.sealPer
  else if off = 0x34 then r.pwrCap
  else if off = 0x40 then attCtl r
  else if off = 0x48 ∨ off = 0x4C then halfOf r.attDst (off == 0x4C)
  else if 0x60 ≤ off ∧ off < 0x80 then wordIn r.attNonce (off - 0x60)
  else if off = 0x80 then BitVec.ofNat 32 r.keyIdx
  else if 0x84 ≤ off ∧ off < 0xC4 then wordIn r.meas (off - 0x84)
  else if off = 0x100 then BitVec.ofNat 32 r.rstCause.toNat
  else if off = 0x104 then r.rstCount
  else if off = 0x10C then devStat r
  else if 0x200 ≤ off ∧ off < 0x2C0 then wordIn (r.spareLane.map (BitVec.ofNat 8)) (off - 0x200)
  else if 0x2C0 ≤ off ∧ off < 0x2D8 then retCoreWord r ((off - 0x2C0) / 4)
  else if off = 0x2D8 then r.retRows
  else if off = 0x2DC then BitVec.ofNat 32 r.retFrames.length
  else if off = 0x2E0 then r.portOff
  else if off = 0x2E4 then r.retL2
  else if 0x400 ≤ off ∧ off < 0x800 then wordIn (wordBytes (r.lastRec.flatMap id)) (off - 0x400)
  else if 0x1000 ≤ off ∧ off < 0x1800 then islandRead (r.islands.getD ((off - 0x1000) / 16) Island.reset) (off / 4 % 4)
  else if off = 0x1800 then BitVec.ofNat 32 (r.monctl.toNat + 110 * 256)
  else 0

/-- ICTL (R371). -/
def ictlWord (n : Inlet) : Word := BitVec.ofNat 32 (flagAt n.en 31 + n.log2n * 65536)

/-- The registers of an inlet (R371). -/
def inletRead (n : Inlet) (off : Nat) : Word :=
  match off / 4 with
  | 0 => loWord n.base
  | 1 => hiWord n.base
  | 2 => ictlWord n
  | 3 => n.tail
  | 4 => n.head
  | 5 => n.chead
  | 6 => if n.error then 1 else 0
  | _ => 0

/-- The registers of the record queue (R379). -/
def recordRead (r : Records) (off : Nat) : Word :=
  match off / 4 with
  | 0 => loWord r.base
  | 1 => hiWord r.base
  | 2 => BitVec.ofNat 32 (r.log2n * 65536)
  | 3 => r.head
  | 4 => r.tail
  | 5 => r.lost
  | _ => 0

/-- CMD: the code and the state of the last command (R377). -/
def cmdWord (r : Regs) : Word := BitVec.ofNat 32 (r.cmdCode.toNat + r.cmdState.toNat * 2 ^ 24)

/-- Reads one 32-bit register; until READY only the block at offset 0 answers (R370, R399). -/
def regRead32 (s : State) (off : Nat) : Word :=
  let off := off / 4 * 4
  if off < 0x10000 then identityRead s off
  else if s.regs.boot ≠ .ready then 0
  else if 0x10000 ≤ off ∧ off < 0x10800 then inletRead (s.inlets.getD ((off - 0x10000) / 32) Inlet.reset) (off % 32)
  else if off = 0x20000 ∨ off = 0x20004 then halfOf s.regs.cmdArg (off == 0x20004)
  else if off = 0x20008 then cmdWord s.regs
  else if 0x30000 ≤ off ∧ off < 0x30018 then recordRead s.records (off - 0x30000)
  else 0

/-- Reads n bytes of register space, 4 or 8 (R172). -/
def regRead (s : State) (off n : Nat) : List Byte :=
  leBytes 4 (regRead32 s off).toNat ++ (if n = 8 then leBytes 4 (regRead32 s (off + 4)).toNat else [])

/-! ## Writing registers -/

/-- Replaces one half of a 64-bit register. -/
def setHalf (x : DWord) (high : Bool) (v : Word) : DWord := if high then joinWords (loWord x) v else joinWords v (hiWord x)

/-- Replaces four bytes of a list. -/
def setWordIn (l : List Byte) (off : Nat) (v : Word) : List Byte := l.take off ++ leBytes 4 v.toNat ++ l.drop (off + 4)

/-- Whether a boot configuration is valid (R369, R400). -/
def bootCfgValid (r : Regs) : Bool :=
  let base := r.winBase.toNat
  let size := r.winSize.toNat
  let perStack := Config.hbmBytes / 2 ^ (6 - bitsOf r.bootCfg.toNat 0 2) / 12
  bitsOf r.bootCfg.toNat 16 16 == 0 && bitsOf r.bootCfg.toNat 2 6 == 0 && base % 0x200000 == 0 && size % 0x200000 == 0
  && size != 0 && decide (base + size ≤ Config.hbmBytes)
  && base / 2 ^ 36 == (base + size - 1) / 2 ^ 36 && decide ((base + size - 1) % 2 ^ 36 < 2 ^ 36 - perStack)

/-- BOOTCTL.START (R399). -/
def bootStart (s : State) : State :=
  if s.regs.boot ≠ .config then s
  else if bootCfgValid s.regs then { s with regs := { s.regs with boot := .init, badCfg := false } }
  else { s with regs := { s.regs with badCfg := true } }

/-- PWRCAP accepts 1,200 to 3,200; another value is stored as the nearer limit (R403). -/
def clampPower (x : Word) : Word := if x.toNat < 1200 then 1200 else if 3200 < x.toNat then 3200 else x

/-- The keys that the fuses hold (R405). -/
def keyCount : Nat := 2 ^ 20

/-- A request for a report: it burns the next fuse before the signature (R405, R406). -/
def attRequest (s : State) : State :=
  let r := s.regs
  if r.boot ≠ .ready ∨ r.attState = 1 then s
  else if keyCount ≤ r.keyIdx then { s with regs := { r with attState := 3, attReason := 1 } }
  else if r.attDst.toNat % 64 ≠ 0 then { s with regs := { r with attState := 3, attReason := 3 } }
  else { s with regs := { r with attState := 1, attReason := 0, keyIdx := r.keyIdx + 1 } }

/-- A write of an island's registers (R397). -/
def islandWrite (i : Island) (r : Nat) (v : Word) : Island :=
  match r with
  | 2 => { i with valarm := i.valarm && !bitOf v.toNat 2, talarm := i.talarm && !bitOf v.toNat 1 }
  | 3 => { i with maxt := i.temp }
  | _ => i

/-- A write of RSTCTL (R394). -/
def rstCtl (s : State) (v : Word) : State := if bitsOf v.toNat 16 16 = 0x5253 ∧ bitOf v.toNat 0 then doReset s .host else s

/-- Whether WINBASE and WINSIZE may still be written: they are frozen at START (R400). -/
def windowOpen (r : Regs) : Bool := r.boot != .init && r.boot != .ready

/-- Writes a register of the block at offset 0; read-only and reserved offsets ignore it, and after the R342 stop every one but RSTCTL
(R388, R392, R394, R397, R400, R403). -/
def identityWrite (s : State) (off : Nat) (v : Word) : State :=
  let r := s.regs
  if off = 0x108 then rstCtl s v
  else if r.unrestored then s
  else if off = 0x10 then (if r.boot = .config then { s with regs := { r with bootCfg := v } } else s)
  else if off = 0x14 then (if bitOf v.toNat 0 then bootStart s else s)
  else if off = 0x20 ∨ off = 0x24 then
    (if windowOpen r then { s with regs := { r with winBase := setHalf r.winBase (off == 0x24) v } } else s)
  else if off = 0x28 ∨ off = 0x2C then
    (if windowOpen r then { s with regs := { r with winSize := setHalf r.winSize (off == 0x2C) v } } else s)
  else if off = 0x30 then { s with regs := { r with sealPer := v } }
  else if off = 0x34 then { s with regs := { r with pwrCap := clampPower v } }
  else if off = 0x40 then (if bitOf v.toNat 0 then attRequest s else s)
  else if off = 0x48 ∨ off = 0x4C then { s with regs := { r with attDst := setHalf r.attDst (off == 0x4C) v } }
  else if 0x60 ≤ off ∧ off < 0x80 then { s with regs := { r with attNonce := setWordIn r.attNonce (off - 0x60) v } }
  else if off = 0x100 then { s with regs := { r with rstCause := r.rstCause &&& ~~~ BitVec.ofNat 8 v.toNat } }
  else if 0x1000 ≤ off ∧ off < 0x1800 then
    { s with regs := { r with islands := modifyAt (fun i => islandWrite i (off / 4 % 4) v) r.islands ((off - 0x1000) / 16) } }
  else if off = 0x1800 then
    (if 70 ≤ v.toNat % 256 ∧ v.toNat % 256 ≤ 105 then { s with regs := { r with monctl := BitVec.ofNat 8 v.toNat } } else s)
  else s

/-- Whether an inlet still has blocks to take (R372). -/
def inletBusy (n : Inlet) : Bool := n.en && n.head != n.tail && !n.error

/-- A write of ITAIL (R372). -/
def itailWritten (n : Inlet) (v : Word) : Inlet :=
  if 2 ^ n.log2n < (v - n.chead).toNat then { n with error := true } else { n with tail := v }

/-- A write of ICTL (R371, R372). -/
def ictlWritten (n : Inlet) (v : Word) : Inlet :=
  if inletBusy n then { n with error := true }
  else { n with en := bitOf v.toNat 31, log2n := bitsOf v.toNat 16 5, error := n.error && bitOf v.toNat 31 }

/-- A write of one half of IBASE (R372). -/
def ibaseWritten (n : Inlet) (high : Bool) (v : Word) : Inlet :=
  if inletBusy n then { n with error := true } else { n with base := setHalf n.base high v }

/-- Writes a register of an inlet. -/
def inletWrite (n : Inlet) (off : Nat) (v : Word) : Inlet :=
  match off / 4 with
  | 0 => ibaseWritten n false v
  | 1 => ibaseWritten n true v
  | 2 => ictlWritten n v
  | 3 => itailWritten n v
  | _ => n

/-- A write of RQCTL: a LOG2N outside 4 to 16 is stored as 0, and while the queue is enabled only 0 is taken (R379). -/
def rqctlWritten (r : Records) (v : Word) : Records :=
  let n := bitsOf v.toNat 16 5
  if r.log2n = 0 then { r with log2n := if 4 ≤ n ∧ n ≤ 16 then n else 0 }
  else if n = 0 then { r with log2n := 0 } else r

/-- Writes a register of the record queue (R379). -/
def recordWrite (r : Records) (off : Nat) (v : Word) : Records :=
  match off / 4 with
  | 0 => if r.log2n = 0 then { r with base := setHalf r.base false v } else r
  | 1 => if r.log2n = 0 then { r with base := setHalf r.base true v } else r
  | 2 => rqctlWritten r v
  | 3 => { r with head := v }
  | _ => r

/-- The first n 64-bit words of a list of bytes. -/
def dwordsOf : Nat → List Byte → List DWord
  | 0, _ => []
  | n + 1, b => BitVec.ofNat 64 (ofLe (b.take 8)) :: dwordsOf n (b.drop 8)

/-- Writes CMD: a command starts unless one runs, with its argument as it stands then; a code that no command has fails at once
(R377, R380). -/
def cmdWrite (s : State) (v : Word) : State :=
  let code := v.toNat % 256
  if s.regs.cmdState = 1 then s
  else if 1 ≤ code ∧ code ≤ 9 then { s with regs := { s.regs with
    cmdCode := BitVec.ofNat 8 code, cmdState := 1, cmdWords := dwordsOf 8 (s.hbm.read s.regs.cmdArg.toNat 64) } }
  else raiseVector { s with regs := { s.regs with cmdCode := BitVec.ofNat 8 code, cmdState := 2 } } 2

/-- Writes one 32-bit register; until READY only the block at offset 0 answers (R370, R399). -/
def regWrite32 (s : State) (off : Nat) (v : Word) : State :=
  let off := off / 4 * 4
  if off < 0x10000 then identityWrite s off v
  else if s.regs.boot ≠ .ready then s
  else if 0x10000 ≤ off ∧ off < 0x10800 then
    { s with inlets := modifyAt (fun n => inletWrite n (off % 32) v) s.inlets ((off - 0x10000) / 32) }
  else if off = 0x20000 ∨ off = 0x20004 then { s with regs := { s.regs with cmdArg := setHalf s.regs.cmdArg (off == 0x20004) v } }
  else if off = 0x20008 then cmdWrite s v
  else if 0x30000 ≤ off ∧ off < 0x30018 then { s with records := recordWrite s.records (off - 0x30000) v }
  else s

/-- Writes 4 or 8 bytes of register space, the lower word first (R172, R370). -/
def regWrite (s : State) (off : Nat) (data : List Byte) : State :=
  let s1 := regWrite32 s off (wordIn data 0)
  if data.length = 8 then regWrite32 s1 (off + 4) (wordIn data 4) else s1

end Sys2Proof.Machine
end

