-- ==== Sys2Proof/Machine/Mem.lean ====
section
/-! DEFINITION. Reads and writes at a place, with sidebands, undo capture, deferred and IMMEDIATE writes and segment states
(R87, R177, R178, R182, R208, R329 to R333). -/
namespace Sys2Proof.Machine

/-! ## Who performs a write -/

/-- The agent of a write: the context and group it acts for, its die (R331), the engine operation that makes the write, by its class and its
sequence number (R207), and the lane of a member's store. -/
structure Agent where
  ctx   : Nat
  group : Nat
  die   : Nat
  op    : Option (Nat × Nat)
  lane  : Nat := 0
  deriving DecidableEq, Repr

/-- A group as the agent of its own stores. -/
def agentOf (g : Group) : Agent := { ctx := g.ctx, group := g.uid, die := dieOf g.core, op := none }

/-- The copy engine as the agent of a copy of a group. -/
def copyAgent (g : Group) (seq : Nat) : Agent := { agentOf g with op := some (0, seq) }

/-! ## Sidebands (R87) -/

/-- The sideband of a line that nothing has written: the descriptor 0x0000_7F00 (R91, R401). -/
def sideDefault (s : State) : BitVec 48 := s.baseTag ++ (0x7F00 : BitVec 32)

/-- The sideband of the HBM line at an address. -/
def sideGet (s : State) (pa : Nat) : BitVec 48 := sget (sideDefault s) s.side (pa / 64)

/-- Writes the sideband of a line. -/
def sidePut (s : State) (pa : Nat) (x : BitVec 48) : State := { s with side := sput (sideDefault s) s.side (pa / 64) x }

/-- RINTAG of a sideband. -/
def rintag (x : BitVec 48) : BitVec 16 := BitVec.ofNat 16 (x.toNat / 2 ^ 32)

/-- The descriptor of a sideband. -/
def descOf (x : BitVec 48) : Word := BitVec.ofNat 32 x.toNat

/-- A sideband of a descriptor and a RINTAG. -/
def mkSide (tag : BitVec 16) (desc : Word) : BitVec 48 := tag ++ desc

/-! ## Writing HBM -/

/-- The words of n bytes from an address up written at a date. -/
def redate (date pa n : Nat) (d : Sparse Nat) : Sparse Nat :=
  if n = 0 then d else (List.range ((pa + n - 1) / 8 - pa / 8 + 1)).foldl (fun d k => sput 0 d (pa / 8 + k) date) d

/-- Writes bytes of HBM, and dates their words once a context's teams have moved (R321). -/
def hbmWrite (s : State) (pa : Nat) (data : List Byte) : State :=
  { s with hbm := s.hbm.write pa data
           work := if s.moveCount = 0 then s.work else { s.work with dates := redate s.moveCount pa data.length s.work.dates } }

/-! ## The undo logs (R330 to R332) -/

/-- Bytes in use in the log of a die: 128 for each capture and for each deferred write. -/
def logUsed (s : State) (die : Nat) : Nat :=
  128 * ((s.undo.filter fun u => u.die == die).length + (s.deferred.filter fun d => d.die == die).length)

/-- Bytes of the log of a die. -/
def logSize (s : State) : Nat := 3 * logPerStack s

/-- A list without the entries that stand in it again further on. -/
def distinct (l : List Nat) : List Nat := l.foldr (fun x r => if r.contains x then r else x :: r) []

/-- The lines that a range touches. -/
def linesOf (pa n : Nat) : List Nat :=
  if n = 0 then [] else (List.range ((pa + n - 1) / 64 - pa / 64 + 1)).map fun k => (pa / 64 + k) * 64

/-- Whether a byte of HBM lies in the CXL.mem window (R369). -/
def inWindow (s : State) (pa : Nat) : Bool :=
  decide (s.regs.winBase.toNat ≤ pa) && decide (pa < s.regs.winBase.toNat + s.regs.winSize.toNat)

/-- The device of a target on another device. -/
def peerDev? : Target → Option Nat
  | .peer dev _ => some dev
  | .leased dev _ _ => some dev
  | _ => none

/-- Whether a device belongs to this device's recovery domain (R327). -/
def inDomain (s : State) (dev : Nat) : Bool := s.domain.members.contains dev

/-- Whether a place's writes are deferred outside (R208): HBM is written at once, and only its entry waits for the commit. -/
def defers (s : State) (p : Place) : Bool :=
  !p.immed && (p.irrev || match peerDev? p.target with
    | some dev => !inDomain s dev
    | none => false)

/-- The lines of HBM in the logs of a die that a write of n bytes at a place has yet to capture in the present interval (R330). -/
def toCapture (s : State) (die : Nat) (p : Place) (n : Nat) : List Nat :=
  match p.target with
  | .hbm pa =>
    if p.immed || inWindow s pa then []
    else (linesOf pa n).filter fun l => homeDie l == die && rintag (sideGet s l) != s.domain.rin
  | _ => []

/-- Whether a target's lines have no descriptor of their own, so that a DST to one is discarded (R91, R189). -/
def noDesc : Target → Bool
  | .host _ | .mmio _ => true
  | _ => false

/-- A write that has issued and is not performed: its place, its size, the die of its group, the group and the issue. -/
structure Pending where
  place : Place
  size  : Nat
  die   : Nat
  group : Nat
  issue : Nat

/-- The writes that every group has issued and not performed. -/
def unperformed (s : State) : List Pending :=
  s.work.groups.flatMap fun g =>
    ((g.stores.filter fun (b : Buffered) => !(b.size == 5 && noDesc b.place.target)).map fun (b : Buffered) =>
      ({ place := b.place, size := if b.size = 5 then 1 else b.data.length, die := dieOf g.core, group := g.uid, issue := b.issue } : Pending))
    ++ g.tiles.map fun (t : TileWrite) => { place := t.place, size := t.data.length, die := dieOf g.core, group := g.uid, issue := t.issue }

/-- The entries of a die's log that some writes will take: one for each line, and one for each deferred write. -/
def entriesOf (s : State) (die : Nat) (l : List Pending) (line : Option Nat) : Nat :=
  ((distinct (l.flatMap fun w => toCapture s die w.place w.size)).filter fun a => some a != line).length
  + (l.filter fun w => w.die == die && defers s w.place).length

/-- Whether the log of a die has room for one entry beyond those that some writes will take; `line` is the line to capture, which may be
among theirs. -/
def roomBeside (s : State) (die : Nat) (l : List Pending) (line : Option Nat) : Bool :=
  decide (logUsed s die + 128 * (entriesOf s die l line + 1) ≤ logSize s)

/-- Whether the log of a die has room for one entry beside the writes issued and not performed: a write issues only where room for all of
them remains, so that none waits for the log once it has issued (R332). -/
def logRoom (s : State) (die : Nat) (line : Option Nat) : Bool := roomBeside s die (unperformed s) line

/-- Whether the log of a die stands at 100%: it takes no further entry (R332). -/
def logFull (s : State) (die : Nat) : Bool := !roomBeside s die [] none

/-- Raises SEALWANT when a log stands at three quarters and no seal is in progress (R332). -/
def noteOccupancy (s : State) (die : Nat) : State :=
  if 3 * logSize s ≤ 4 * logUsed s die ∧ s.domain.stage = 0 ∧ s.domain.want = false then
    emitRecord { s with domain := { s.domain with want := true } } { engine := 6, cause := 0x0901, detail := die * 2 ^ 40 }
  else s

/-- Captures a line before its first tracked write of the interval; none when the log has no room (R330). Writes to the CXL.mem window are
not tracked (R329). -/
def captureLine (s : State) (pa : Nat) : Option State :=
  let line := pa / 64 * 64
  let old := sideGet s line
  if inWindow s line || rintag old == s.domain.rin then some s
  else if !logRoom s (homeDie line) (some line) then none
  else
    let u : Undo := { pa := line, data := s.hbm.read line 64, side := old, rin := s.domain.rin, die := homeDie line }
    let s1 := sidePut { s with undo := s.undo ++ [u] } line (mkSide s.domain.rin (descOf old))
    some (noteOccupancy s1 (homeDie line))

/-- Captures every line of a list. -/
def captureLines (s : State) (lines : List Nat) : Option State := lines.foldlM captureLine s

/-! ## Pins (R333) -/

/-- An IMMEDIATE write pins its context until the commit of the present interval (R333). -/
def pin (s : State) (ctx : Nat) : State := s.modifyCtx ctx fun c => { c with pinned := some s.domain.rin }

/-! ## Byte spaces -/

/-- The space and the address that a place's bytes have: 0 HBM, 1 host, 2 peers, 3 registers, 4 Pond, 5 regions. -/
def spaceOf : Target → Nat × Nat
  | .hbm pa => (0, pa)
  | .host pa => (1, pa)
  | .peer dev pa => (2, dev * 2 ^ 48 + pa)
  | .leased dev _ pa => (2, dev * 2 ^ 48 + pa)
  | .mmio off => (3, off)
  | .pond core off => (4, core * 2 ^ 20 + off)
  | .fitted hdr => (5, hdr)

/-- A target some bytes further on. -/
def shiftTarget (t : Target) (n : Nat) : Target :=
  match t with
  | .hbm pa => .hbm (pa + n)
  | .pond c off => .pond c (off + n)
  | .fitted h => .fitted h
  | .host pa => .host (pa + n)
  | .peer d pa => .peer d (pa + n)
  | .leased d k pa => .leased d k (pa + n)
  | .mmio off => .mmio (off + n)

/-- Where a peer's line keeps its sideband in the memory of the peers: the descriptor exclusive-or 0x7F00, then RINTAG. -/
def peerSideKey (key : Nat) : Nat := 2 ^ 60 + key / 64 * 8

/-! ## Deferred writes that no longer stand (R200, R208) -/

/-- Whether a deferred write is one of data that still stands at an address, not yet performed and not replaced. -/
def Deferred.covers (d : Deferred) (sp : Nat × Nat) : Bool :=
  let k := spaceOf d.target
  !d.home && !d.desc && k.1 == sp.1 && decide (k.2 ≤ sp.2) && decide (sp.2 < k.2 + d.data.length) && !d.stale.any fun x => x.1 == sp.2 - k.2

/-- A deferred write of data some of whose bytes a write of n bytes at an address, performed at once in an interval, has replaced (R200). -/
def Deferred.replaced (d : Deferred) (rin : BitVec 16) (sp : Nat × Nat) (n : Nat) : Deferred :=
  { d with stale := d.stale ++ ((List.range d.data.length).filter fun k =>
      d.covers ((spaceOf d.target).1, (spaceOf d.target).2 + k) && (spaceOf d.target).1 == sp.1
      && decide (sp.2 ≤ (spaceOf d.target).2 + k) && decide ((spaceOf d.target).2 + k < sp.2 + n)).map fun k => (k, rin) }

/-- The deferred writes after a write performed at once, which stands later in the order of its bytes (R200). -/
def replaceDeferred (s : State) (t : Target) (n : Nat) : State :=
  { s with deferred := s.deferred.map fun d => d.replaced s.domain.rin (spaceOf t) n }

/-- A write of HBM performed at once, which stands later than the deferred writes of its bytes. -/
def newWrite (s : State) (pa : Nat) (data : List Byte) : State := hbmWrite (replaceDeferred s (.hbm pa) data.length) pa data

/-- A tracked write (R329, R330). -/
def trackedWrite (s : State) (pa : Nat) (data : List Byte) : Option State :=
  (captureLines s (linesOf pa data.length)).map fun s => newWrite s pa data

/-! ## Reading -/

/-- The byte that the newest of a list of deferred writes gives an address, or the given one (R208). -/
def overlayByte (l : List Deferred) (sp : Nat × Nat) (b : Byte) : Byte :=
  l.foldl (fun b d => if d.covers sp then d.data.getD (sp.2 - (spaceOf d.target).2) b else b) b

/-- Bytes with the deferred writes to them applied. -/
def overlayDeferred (s : State) (sp : Nat × Nat) : List Byte → List Byte
  | [] => []
  | b :: r => overlayByte s.deferred sp b :: overlayDeferred s (sp.1, sp.2 + 1) r

/-- The n bytes at a place, as this device's agents read them (R200, R208). -/
def readPlace (s : State) (p : Place) (n : Nat) : List Byte :=
  let sp := spaceOf p.target
  match p.target with
  | .hbm pa => overlayDeferred s sp (s.hbm.read pa n)
  | .pond _ _ => s.work.pond.read sp.2 n
  | .host pa => overlayDeferred s sp (s.host.read pa n)
  | .peer _ _ | .leased _ _ _ => overlayDeferred s sp (s.peer.read sp.2 n)
  | .mmio off => overlayDeferred s sp (regRead s off n)
  | .fitted _ => []

/-- The descriptor and RINTAG words that DLD reads at a line (R91, R189). -/
def readDesc (s : State) (p : Place) : Word × Word :=
  match p.target with
  | .hbm pa => (descOf (sideGet s pa), BitVec.ofNat 32 (rintag (sideGet s pa)).toNat)
  | .pond _ _ => (sget 0x7F00 s.work.pondDesc ((spaceOf p.target).2 / 64), 0)
  | .peer _ _ | .leased _ _ _ =>
    let k := peerSideKey (spaceOf p.target).2
    let waiting := s.deferred.filter fun d => d.desc && !d.home && d.stale.isEmpty && spaceOf d.target == spaceOf p.target
    let lo := match waiting.getLast? with
      | some d => BitVec.ofNat 32 (ofLe d.data)
      | none => BitVec.ofNat 32 (s.peer.readNat k 4) ^^^ 0x7F00
    (lo, BitVec.ofNat 32 (s.peer.readNat (k + 4) 2))
  | _ => (0x7F00, 0)

/-! ## Writing -/

/-- A deferred write of an agent, of data or of a descriptor; `home` says that its bytes are already written (R208, R331). -/
def deferredWrite (s : State) (ag : Agent) (t : Target) (data : List Byte) (desc home record : Bool) : Deferred :=
  { ctx := ag.ctx, group := ag.group, op := ag.op, rin := s.domain.rin, die := ag.die, target := t, data := data, desc := desc, stale := [],
    home := home, record := record }

/-- Accepts a deferred write into the queue of the present interval; none when the log of the agent's die is full
(R208, R331, R333). -/
def acceptWrite (s : State) (d : Deferred) : Option State :=
  if !logRoom s d.die none then none else some (noteOccupancy { s with deferred := s.deferred ++ [d] } d.die)

/-- Accepts a deferred write of data. -/
def acceptDeferred (s : State) (ag : Agent) (t : Target) (data : List Byte) (home record : Bool) : Option State :=
  acceptWrite s (deferredWrite s ag t data false home record)

/-- The captured line of a peer. -/
def peerUndo (s : State) (line : Nat) : Undo :=
  { pa := line, data := s.peer.read line 64, side := BitVec.ofNat 48 (s.peer.readNat (peerSideKey line) 6), rin := s.domain.rin
    die := Config.dies }

/-- Captures the old bytes of a peer's lines, once in an interval; the peer keeps them in its own log (R329). -/
def capturePeer (s : State) (key n : Nat) : State :=
  (linesOf key n).foldl (fun s line =>
    if s.undo.any fun u => u.die == Config.dies && u.pa == line && u.rin == s.domain.rin then s
    else { s with undo := s.undo ++ [peerUndo s line] }) s

/-- The lines of a range captured at a member of the domain, with the present RINTAG (R329, R330). -/
def tagPeer (s : State) (key n : Nat) : State :=
  (linesOf key n).foldl (fun s line => { s with peer := s.peer.writeNat (peerSideKey line + 4) 2 s.domain.rin.toNat }) (capturePeer s key n)

/-- A write performed in the memory of a member of the domain. -/
def peerWrite (s : State) (key : Nat) (data : List Byte) : State :=
  let s1 := tagPeer s key data.length
  { s1 with peer := s1.peer.write key data }

/-- Performs a write at once, outside every log: an IMMEDIATE write, or a deferred write at its commit. -/
def performOutside (s : State) (t : Target) (data : List Byte) : State :=
  match t with
  | .hbm pa => hbmWrite s pa data
  | .pond core off => { s with work := { s.work with pond := s.work.pond.write (core * 2 ^ 20 + off) data } }
  | .host pa => { s with host := s.host.write pa data }
  | .peer dev pa => { s with peer := s.peer.write (dev * 2 ^ 48 + pa) data }
  | .leased dev _ pa => { s with peer := s.peer.write (dev * 2 ^ 48 + pa) data }
  | .mmio off => regWrite s off data
  | .fitted _ => s

/-- An IMMEDIATE write (R333). -/
def immediateWrite (s : State) (ag : Agent) (t : Target) (data : List Byte) : State :=
  pin (performOutside (replaceDeferred s t data.length) t data) ag.ctx

/-- Performs a write at a place; none while it waits for room in a log (R167, R208, R329 to R333, R369). -/
def writePlace (s : State) (ag : Agent) (p : Place) (data : List Byte) : Option State :=
  match p.target with
  | .pond _ _ =>
    if p.immed then some (immediateWrite s ag p.target data)
    else if p.irrev then acceptDeferred (performOutside s p.target data) ag p.target data true false
    else some (performOutside s p.target data)
  | .fitted _ => some s
  | .hbm pa =>
    if p.immed || inWindow s pa then some (immediateWrite s ag p.target data)
    else if p.irrev then (trackedWrite s pa data).bind fun s => acceptDeferred s ag p.target data true false
    else trackedWrite s pa data
  | t =>
    if p.immed then some (immediateWrite s ag t data)
    else if p.irrev then acceptDeferred s ag t data false false
    else match peerDev? t with
      | some dev => if inDomain s dev then some (peerWrite (replaceDeferred s t data.length) (spaceOf t).2 data) else acceptDeferred s ag t data false false
      | none => acceptDeferred s ag t data false false

/-- Performs the write of an ATOM: on a page whose writes would be deferred it is IMMEDIATE (R333). -/
def writeAtom (s : State) (ag : Agent) (p : Place) (data : List Byte) : Option State :=
  let outside := match peerDev? p.target with
    | some dev => !inDomain s dev
    | none => false
  if p.irrev || outside then some (immediateWrite s ag p.target data) else writePlace s ag p data

/-- What DST stores of a value: bits [27:25] are written as 0 (R189). -/
def descStored (x : Word) : Word := x &&& 0xF1FFFFFF

/-- Descriptors left open for the lines of a segment (R182). -/
def openDescs (occasion line : Nat) : List (Nat × Word) :=
  (List.range 64).map fun i => (line + i, descStored (Config.freeDesc occasion (line + i)))

/-- Writes the descriptor of a line of HBM, which keeps its RINTAG. -/
def putDesc (s : State) (pa : Nat) (x : Word) : State := sidePut s pa (mkSide (rintag (sideGet s pa)) (descStored x))

/-- Writes the descriptor of a line of a peer. -/
def putPeerDesc (s : State) (key : Nat) (x : Word) : State :=
  { s with peer := s.peer.writeNat (peerSideKey key) 4 (descStored x ^^^ 0x7F00).toNat }

/-- Performs a descriptor's write at once, outside every log. -/
def descOutside (s : State) (t : Target) (x : Word) : State :=
  match t with
  | .hbm pa => putDesc s pa x
  | .pond _ _ => { s with work := { s.work with pondDesc := sput 0x7F00 s.work.pondDesc ((spaceOf t).2 / 64) (descStored x) } }
  | .peer _ _ | .leased _ _ _ => putPeerDesc s (spaceOf t).2 x
  | _ => s

/-- The deferred descriptors of a line no longer stand once its descriptor has been written at once (R200). -/
def replaceDesc (s : State) (t : Target) : State :=
  { s with deferred := s.deferred.map fun d =>
      if d.desc && !d.home && d.stale.isEmpty && spaceOf d.target == spaceOf t then { d with stale := [(0, s.domain.rin)] } else d }

/-- An IMMEDIATE write of a descriptor (R189, R333). -/
def immediateDesc (s : State) (ag : Agent) (t : Target) (x : Word) : State := pin (descOutside (replaceDesc s t) t x) ag.ctx

/-- Accepts a deferred write of a descriptor. -/
def acceptDesc (s : State) (ag : Agent) (t : Target) (x : Word) (home : Bool) : Option State :=
  acceptWrite s (deferredWrite s ag t (leBytes 4 (descStored x).toNat) true home false)

/-- Writes a line's descriptor, as a store of the line under the rules of its page; HOST and MMIO lines discard it
(R91, R189, R208, R329, R333); none while it waits for room in a log. -/
def writeDesc (s : State) (ag : Agent) (p : Place) (x : Word) : Option State :=
  match p.target with
  | .hbm pa =>
    if p.immed || inWindow s pa then some (immediateDesc s ag p.target x)
    else (captureLine s pa).bind fun s =>
      if p.irrev then acceptDesc (putDesc s pa x) ag p.target x true else some (putDesc s pa x)
  | .pond _ _ =>
    if p.immed then some (immediateDesc s ag p.target x)
    else if p.irrev then acceptDesc (descOutside s p.target x) ag p.target x true
    else some (descOutside s p.target x)
  | .peer dev _ | .leased dev _ _ =>
    if p.immed then some (immediateDesc s ag p.target x)
    else if p.irrev || !inDomain s dev then acceptDesc s ag p.target x false
    else some (putPeerDesc (tagPeer (replaceDesc s p.target) (spaceOf p.target).2 1) (spaceOf p.target).2 x)
  | _ => some s

/-- What the logs say to a write: it has room, it waits until writes issued before it are performed, or its die's log is full. -/
inductive LogCheck where
  | room
  | wait
  | full (die : Nat)
  deriving DecidableEq, Repr

/-- The answer of a die's log without room for an entry: it is full, or becomes so by the members of the same issue that come before, and
else only the writes of earlier issues, which still have to be performed, stand in the way (log entry 117). -/
def noRoom (s : State) (g : Group) (die : Nat) (line : Option Nat) : LogCheck :=
  if roomBeside s die ((unperformed s).filter fun w => w.group == g.uid && w.issue == g.nextIssue) line then .wait else .full die

/-- The answer of the logs to the capture of lines, one after another. -/
def captureCheck (s : State) (g : Group) : List Nat → LogCheck
  | [] => .room
  | l :: r =>
    match captureLine s l with
    | some t => captureCheck t g r
    | none => noRoom s g (homeDie l) (some (l / 64 * 64))

/-- The answer of the log that a deferred write of a group needs. -/
def deferCheck (s : State) (g : Group) : LogCheck :=
  if logRoom s (dieOf g.core) none then .room else noRoom s g (dieOf g.core) none

/-- Whether the logs have room for a store of a group (R173, R332). -/
def logCheck (s : State) (g : Group) (p : Place) (n : Nat) : LogCheck :=
  match p.target with
  | .hbm pa =>
    if p.immed || inWindow s pa then .room
    else match captureCheck s g (linesOf pa n), captureLines s (linesOf pa n) with
      | .room, some t => if p.irrev then deferCheck t g else .room
      | c, _ => c
  | _ => if defers s p then deferCheck s g else .room

/-- The cause of a store that meets a full log (R332). -/
def logFault (die : Nat) : Nat × Nat := (0x0901, die * 2 ^ 40)

/-- What the leaf of a FITTED page adds to a store of a region: an IMMEDIATE one pins the context, and an IRREVOCABLE one is a deferred write
of the Spring unit, performed toward the device's own agents as it is accepted (R208, R331, R333). -/
def noteFitted (s : State) (ag : Agent) (hdr : Nat) (p : Place) (data : List Byte) : State :=
  if p.immed || inWindow s hdr then pin s ag.ctx
  else if p.irrev then (acceptDeferred s { ag with die := homeDie hdr } p.target data true false).getD s
  else s

/-- Whether the log that a deferred write of a Spring unit takes has room, where the leaf of a FITTED page defers it. -/
def fittedQueue (s : State) (hdr : Nat) (p : Place) : Bool := p.immed || inWindow s hdr || !p.irrev || logRoom s (homeDie hdr) none

/-! ## Pond segments (R182) -/

/-- The key of a segment. -/
def segKey (core seg : Nat) : Nat := core * Config.segments + seg

/-- A segment that no allocation holds. -/
def noSegment : Segment := { team := 0, state := 0, dead := false }

/-- The segment of a core. -/
def segAt (s : State) (key : Nat) : Segment := sget noSegment s.work.segs key

/-- Replaces a segment. -/
def segPut (s : State) (key : Nat) (x : Segment) : State :=
  { s with work := { s.work with segs := sput noSegment s.work.segs key x } }

/-- The segment that holds a byte of Pond. -/
def segOf (t : Target) : Option Nat :=
  match t with
  | .pond core off => some (segKey core (off / 4096))
  | _ => none

/-- Whether an access to a place must wait for its segment to be READY (R183). -/
def segWaits (s : State) (p : Place) : Bool :=
  match segOf p.target with
  | some k => (segAt s k).state != 2
  | none => false

end Sys2Proof.Machine
end

