-- ==== Sys2Proof/Machine/Spring.lean ====
section
/-! DEFINITION. Fitted regions at their Spring units: coordinates, evaluation, exception entries, loads and stores,
install, refit and demotion (R215 to R234). -/
namespace Sys2Proof.Machine

/-! ## Coordinates (R215, R216) -/

/-- The three coordinates of a point; those of dimensions that a region lacks are 0. -/
abbrev Point := Nat × Nat × Nat

/-- One coordinate. -/
def Point.at (p : Point) (d : Nat) : Nat := if d = 0 then p.1 else if d = 1 then p.2.1 else p.2.2

namespace Header

/-- The byte offset of an address in a region, modulo 2^64. -/
def offsetOf (h : Header) (va : Nat) : Nat := (va + 2 ^ 64 - h.vbase % 2 ^ 64) % 2 ^ 64

/-- The coordinates of an element index. -/
def pointOf (h : Header) (idx : Nat) : Point :=
  let b0 := h.bits 0
  let b1 := h.bits 1
  if h.ndim = 1 then (idx, 0, 0)
  else if h.ndim = 2 then (idx % 2 ^ b0, idx / 2 ^ b0, 0)
  else (idx % 2 ^ b0, idx / 2 ^ b0 % 2 ^ b1, idx / 2 ^ (b0 + b1))

/-- The lowest dimension in which a point lies outside the region. -/
def outside (h : Header) (p : Point) : Option Nat := (List.range h.ndim).find? fun d => decide (h.extent d ≤ p.at d)

/-- The nearest point inside the region, for CLAMP. -/
def clampPoint (h : Header) (p : Point) : Point :=
  (min p.1 (h.extent 0 - 1), min p.2.1 (h.extent 1 - 1), min p.2.2 (h.extent 2 - 1))

/-- The element index of a point. -/
def indexOf (h : Header) (p : Point) : Nat := p.1 + p.2.1 * 2 ^ h.bits 0 + p.2.2 * 2 ^ (h.bits 0 + h.bits 1)

/-- The point of a position in install-set order: c(0) varies fastest (R226). -/
def setPoint (h : Header) (n : Nat) : Point :=
  (n % h.extent 0, n / h.extent 0 % h.extent 1, n / h.extent 0 / h.extent 1)

end Header

/-- COORD of a point (R217). -/
def coordWord (p : Point) : Nat := p.1 % 65536 + p.2.1 % 65536 * 65536 + p.2.2 % 65536 * 2 ^ 32

/-- The point of a COORD. -/
def coordPoint (c : Nat) : Point := (bitsOf c 0 16, bitsOf c 16 16, bitsOf c 32 16)

/-! ## Evaluation (R218, R219) -/

/-- The code of a value in FP32. -/
def to32 (v : FVal) : FVal := fp32.decode (deliver fp32 rne false v).code

/-- The parameter at an index of a slot, as its exact value. -/
def paramAt (m : Memory) (hdr : Nat) (h : Header) (slot k : Nat) : FVal :=
  decodeElem h.paramFmt (m.readNat (hdr + h.slotOff slot + k * h.psize) h.psize)

/-- Whether a value is greater than zero. -/
def isPos : FVal → Bool
  | .fin x => !x.neg && !x.isZero
  | .inf s => !s
  | .nan _ => false

/-- An activation (R219). -/
def activate (k : Nat) (v : FVal) : FVal :=
  match v with
  | .nan _ => .nan false
  | _ =>
    let zero := FVal.fin (Exact.zero false)
    let one := FVal.fin (Exact.ofInt 1)
    match k with
    | 1 => if isPos v then v else zero
    | 2 => if !isPos v then zero else if isPos (addVal rne v (negVal one)).1 then one else v
    | 3 =>
      let mag := match v with
        | .fin x => FVal.fin { x with neg := true }
        | .inf _ => .inf true
        | .nan s => .nan s
      let t := to32 (addVal rne one mag).1
      if isPos t then t else zero
    | _ => v

/-- One neuron: its bias plus the products of its weights with the inputs, in ascending order. -/
def neuron (m : Memory) (hdr : Nat) (h : Header) (slot base : Nat) (ins : List FVal) : FVal :=
  ((ins.zipIdx).foldl (fun acc (x, i) => to32 (fmaVal rne (paramAt m hdr h slot (base + 1 + i)) x acc).1) (paramAt m hdr h slot base))

/-- The layers from l on, with the index of the first parameter of layer l. -/
def layersFrom (m : Memory) (hdr : Nat) (h : Header) (slot : Nat) : Nat → Nat → Nat → List FVal → List FVal
  | 0, _, _, ins => ins
  | n + 1, l, base, ins =>
    let out := (List.range (h.wid l)).map fun j =>
      let a := activate (h.act l) (neuron m hdr h slot (base + j * (ins.length + 1)) ins)
      if n = 0 then a else decodeElem h.paramFmt (encodeElem h.paramFmt rne false a).code
    layersFrom m hdr h slot n (l + 1) (base + h.wid l * (ins.length + 1)) out

/-- The inputs of a point. -/
def netInputs (h : Header) (p : Point) : List FVal :=
  (List.range h.ndim).map fun d =>
    to32 (mulVal (.fin (Exact.ofInt ((p.at d : Int) - h.org d))) (fp32.decode (h.step d))).1

/-- eval of R219: the code in ELEMFMT. -/
def evalNet (m : Memory) (hdr : Nat) (h : Header) (slot : Nat) (p : Point) : Nat :=
  (encodeElem h.elemFmt rne false ((layersFrom m hdr h slot h.layers 1 0 (netInputs h p)).headD (.nan false))).code

/-! ## Exception entries (R217) -/

/-- An exception entry. -/
structure Exc where
  coord : Nat
  value : Nat
  rin   : Nat
  state : Nat
  link  : Nat
  deriving DecidableEq, Repr

/-- Reads an entry. -/
def excAt (m : Memory) (hdr : Nat) (h : Header) (i : Nat) : Exc :=
  let a := hdr + h.entryOff i
  { coord := m.readNat a 6, value := m.readNat (a + 6) 4, rin := m.readNat (a + 10) 2, state := m.readNat (a + 12) 1
    link := m.readNat (a + 13) 3 }

/-- The bytes of an entry. -/
def Exc.bytes (e : Exc) : List Byte := leBytes 6 e.coord ++ leBytes 4 e.value ++ leBytes 2 e.rin ++ leBytes 1 e.state ++ leBytes 3 e.link

/-- The address of a point's bucket word. -/
def bucketAddr (hdr : Nat) (h : Header) (coord : Nat) : Nat := hdr + h.bucketOff + 4 * (randMix coord % 2 ^ h.hbits)

/-- The chain of entries from index + 1 on, at most fuel of them. -/
def chainFrom (m : Memory) (hdr : Nat) (h : Header) : Nat → Nat → List Nat
  | 0, _ => []
  | fuel + 1, k => if k = 0 then [] else (k - 1) :: chainFrom m hdr h fuel (excAt m hdr h (k - 1)).link

/-- The chain of a point's bucket. -/
def chainOf (m : Memory) (hdr : Nat) (h : Header) (coord : Nat) : List Nat :=
  chainFrom m hdr h h.cap (m.readNat (bucketAddr hdr h coord) 3)

/-- The live entry of a point: its index. -/
def liveEntry (m : Memory) (hdr : Nat) (h : Header) (coord : Nat) : Option Nat :=
  (chainOf m hdr h coord).find? fun i =>
    let e := excAt m hdr h i
    e.coord == coord && (e.state == 1 || e.state == 2)

/-- The FREE entry of lowest index. -/
def freeEntry (m : Memory) (hdr : Nat) (h : Header) : Option Nat := (List.range h.cap).find? fun i => (excAt m hdr h i).state == 0

/-- How many entries are FREE. -/
def freeCount (m : Memory) (hdr : Nat) (h : Header) : Nat := ((List.range h.cap).filter fun i => (excAt m hdr h i).state == 0).length

/-- The indices of the live entries. -/
def liveEntries (m : Memory) (hdr : Nat) (h : Header) : List Nat :=
  (List.range h.cap).filter fun i => (excAt m hdr h i).state == 1 || (excAt m hdr h i).state == 2

/-- value(c) of R219, or the element of the reserve in DENSE (R232). -/
def pointValue (m : Memory) (hdr : Nat) (h : Header) (p : Point) : Nat :=
  if h.state = 4 then m.readNat (h.dempa + h.indexOf p * h.esize) h.esize
  else match liveEntry m hdr h (coordWord p) with
    | some i => (excAt m hdr h i).value
    | none => evalNet m hdr h h.aslot p

/-! ## Writes of the Spring unit (R233) -/

/-- Replaces a field of a number. -/
def setBits (w lo n v : Nat) : Nat := w - bitsOf w lo n * 2 ^ lo + v % 2 ^ n * 2 ^ lo

/-- Writes a field of a header. -/
def setField (s : State) (hdr k lo n v : Nat) : Option State :=
  trackedWrite s (hdr + 8 * k) (leBytes 8 (setBits (s.hbm.readNat (hdr + 8 * k) 8) lo n v))

/-- Writes several fields of a header. -/
def setFields (s : State) (hdr : Nat) (l : List (Nat × Nat × Nat × Nat)) : Option State :=
  l.foldlM (fun s (k, lo, n, v) => setField s hdr k lo n v) s

/-- Sets STATE. -/
def setRegionState (s : State) (hdr st : Nat) : Option State := setField s hdr 0 29 3 st

/-- Writes a new entry at an index and links it at the head of its bucket's chain; LIVECNT is not touched. -/
def linkEntry (s : State) (hdr : Nat) (h : Header) (i coord v : Nat) : Option State := do
  let b := bucketAddr hdr h coord
  let e : Exc := { coord := coord, value := v, rin := s.domain.rin.toNat, state := 1, link := s.hbm.readNat b 3 }
  let s1 ← trackedWrite s (hdr + h.entryOff i) e.bytes
  trackedWrite s1 b (leBytes 4 (i + 1))

/-- Frees an entry: it is unlinked, and its other fields keep their values. -/
def freeOne (s : State) (hdr : Nat) (h : Header) (i : Nat) : Option State := do
  let e := excAt s.hbm hdr h i
  let chain := chainOf s.hbm hdr h e.coord
  let s1 ← match chain.takeWhile (· != i) |>.getLast? with
    | some p => trackedWrite s (hdr + h.entryOff p + 13) (leBytes 3 e.link)
    | none => trackedWrite s (bucketAddr hdr h e.coord) (leBytes 4 e.link)
  trackedWrite s1 (hdr + h.entryOff i + 12) [0]

/-! ## Loads (R216, R222) -/

/-- What an access of a region gives: a result, a wait, or a cause. -/
inductive Fitted (α : Type) where
  | ok (x : α)
  | wait
  | fault (c : CauseDetail)
  deriving DecidableEq, Repr

/-- The detail of 0x0501 (R216). -/
def outDetail (p : Point) (d : Nat) : Nat := d * 2 ^ 46 + p.at d % 2 ^ 32

/-- The element at an index: its value, or the out-of-domain result (R216). -/
def elementAt (m : Memory) (hdr : Nat) (h : Header) (idx : Nat) : Except CauseDetail Nat :=
  let p := h.pointOf idx
  match h.outside p with
  | none => .ok (pointValue m hdr h p)
  | some d =>
    if h.ood = 0 then .error (0x0501, outDetail p d)
    else if h.ood = 1 then .ok (pointValue m hdr h (h.clampPoint p))
    else .ok h.fill

/-- The byte of a region at an address. -/
def regionByte (m : Memory) (hdr : Nat) (h : Header) (va : Nat) : Except CauseDetail Byte :=
  let o := h.offsetOf va
  (elementAt m hdr h (o / h.esize)).map fun v => BitVec.ofNat 8 (v / 256 ^ (o % h.esize))

/-- The n bytes of a region from an address up. -/
def regionBytes (m : Memory) (hdr : Nat) (h : Header) (va : Nat) : Nat → Except CauseDetail (List Byte)
  | 0 => .ok []
  | n + 1 =>
    match regionByte m hdr h va with
    | .error e => .error e
    | .ok b => (regionBytes m hdr h (va + 1) n).map (b :: ·)

/-- Whether a store of a region waits at its Spring unit: one held there is older than every access that comes after it. -/
def regionHolds (s : State) (hdr : Nat) : Bool := s.work.springHeld.any fun h => h.hdr == hdr

/-- A load of n bytes of a region (R222); it comes after the stores held there (R206, R209). -/
def fittedLoad (s : State) (hdr va n kind : Nat) : Fitted (List Byte) :=
  let h := headerAt s.hbm hdr
  if h.state = 0 then .fault (0x0305, pageDetail 0 false false kind 2)
  else if h.state = 1 ∨ h.state = 3 ∨ regionHolds s hdr = true then .wait
  else match regionBytes s.hbm hdr h (va % 2 ^ 64) n with
    | .ok b => .ok b
    | .error e => .fault e

/-! ## Stores (R223, R231) -/

/-- Elements that a store writes: the index and the bits of each. -/
abbrev Elems := List (Nat × Nat)

/-- The elements that n bytes from an address cover, or the cause that R223 raises before 0x0503. -/
def storeElems (h : Header) (va : Nat) (data : List Byte) : Except CauseDetail Elems :=
  let o := h.offsetOf va
  let n := data.length
  if o % h.esize ≠ 0 ∨ n % h.esize ≠ 0 then .error (0x0502, n * 2 ^ 40 + h.esize * 2 ^ 32)
  else
    let l := (List.range (n / h.esize)).map fun k => (o / h.esize + k, ofLe ((data.drop (k * h.esize)).take h.esize))
    match l.find? fun (i, _) => (h.outside (h.pointOf i)).isSome with
    | some (i, _) => .error (0x0501, outDetail (h.pointOf i) ((h.outside (h.pointOf i)).getD 0))
    | none => .ok l

/-- Whether storing an element needs a new entry. -/
def needsEntry (m : Memory) (hdr : Nat) (h : Header) (e : Nat × Nat) : Bool :=
  let p := h.pointOf e.1
  (liveEntry m hdr h (coordWord p)).isNone && !(h.exact && evalNet m hdr h h.aslot p == e.2)

/-- Whether the table can take every entry that a store would create. -/
def tableTakes (m : Memory) (hdr : Nat) (h : Header) (l : Elems) : Bool :=
  let k := (l.filter (needsEntry m hdr h)).length
  k == 0 || (decide (k ≤ freeCount m hdr h) && decide (h.params + h.livecnt + k < h.points))

/-- Where a store of an element writes, if it writes anything. -/
def elemPa (m : Memory) (hdr : Nat) (e : Nat × Nat) : Option Nat :=
  let h := headerAt m hdr
  let p := h.pointOf e.1
  if h.state = 4 then some (h.dempa + e.1 * h.esize)
  else match liveEntry m hdr h (coordWord p) with
    | some i => some (hdr + h.entryOff i)
    | none => if h.exact && evalNet m hdr h h.aslot p == e.2 then none else (freeEntry m hdr h).map fun i => hdr + h.entryOff i

/-- Stores one element; none where the log has no room or no entry is free. -/
def storeElem (s : State) (hdr : Nat) (e : Nat × Nat) : Option State :=
  let h := headerAt s.hbm hdr
  let p := h.pointOf e.1
  let coord := coordWord p
  if h.state = 4 then trackedWrite s (h.dempa + e.1 * h.esize) (leBytes h.esize e.2)
  else match liveEntry s.hbm hdr h coord with
    | some i =>
      let x := excAt s.hbm hdr h i
      trackedWrite s (hdr + h.entryOff i) { x with value := e.2, rin := s.domain.rin.toNat, state := 1 }.bytes
    | none =>
      if h.exact && evalNet s.hbm hdr h h.aslot p == e.2 then some s
      else match freeEntry s.hbm hdr h with
        | some i => (linkEntry s hdr h i coord e.2).bind fun s => setField s hdr 10 32 24 (h.livecnt + 1)
        | none => none

/-- Stores every element of one member's store. -/
def storeElements (s : State) (hdr : Nat) (l : Elems) : Option State := l.foldlM (fun s e => storeElem s hdr e) s

/-- Whether a store of elements writes into the CXL.mem window, where it is IMMEDIATE (R329, R333). -/
def windowStore (s : State) (hdr : Nat) (l : Elems) : Bool :=
  l.any fun e => match elemPa s.hbm hdr e with
    | some a => inWindow s a
    | none => false

/-! ## Region-control operations in flight -/

/-- RESULT codes (R237). -/
inductive RResult where
  | none | installed | committed | noGain | aborted | demoted | error | busy
  deriving DecidableEq, Repr

/-- The code of a RESULT. -/
def RResult.code : RResult → Nat
  | .none => 0 | .installed => 1 | .committed => 2 | .noGain => 3 | .aborted => 4 | .demoted => 5 | .error => 6 | .busy => 7

/-- The registered region of a header. -/
def region? (s : State) (hdr : Nat) : Option Region := s.work.regions.find? fun r => r.hdr == hdr

/-- Changes a registered region. -/
def modifyRegion (s : State) (hdr : Nat) (f : Region → Region) : State :=
  { s with work := { s.work with regions := s.work.regions.map fun r => if r.hdr == hdr then f r else r } }

/-- Records the outcome of a region-control operation: its result, its cause and its index. -/
def endFrop (s : State) (op : Nat × Nat) (r : RResult) (cause idx : Nat) : State :=
  s.modifyGroup op.1 fun g => { g with frops := g.frops.map fun (u : UnitOp) =>
    if u.seq = op.2 then { u with step := 2, done := some (r.code, BitVec.ofNat 16 cause, BitVec.ofNat 48 idx) } else u }

/-- Writes RESULT in a header, with CAUSE and ERRIDX when the operation ends in an error (R236). -/
def setResult (s : State) (hdr : Nat) (r : RResult) (cause idx : Nat) : Option State :=
  if r = .error then setFields s hdr [(11, 0, 8, r.code), (11, 16, 16, cause), (11, 32, 32, idx)] else setField s hdr 11 0 8 r.code

/-- Ends an operation with its result in the header. -/
def finishFrop (s : State) (hdr : Nat) (op : Option (Nat × Nat)) (r : RResult) (cause idx : Nat) : Option State :=
  (setResult s hdr r cause idx).map fun s =>
    match op with
    | some o => endFrop s o r cause idx
    | none => s

/-- The MARKED entries of a region. -/
def markedEntries (m : Memory) (hdr : Nat) (h : Header) : List Nat := (List.range h.cap).filter fun i => (excAt m hdr h i).state == 2

/-- Gives the STATE of a list of entries a value. -/
def setEntries (s : State) (hdr : Nat) (h : Header) (st : Byte) (l : List Nat) : Option State :=
  l.foldlM (fun s i => trackedWrite s (hdr + h.entryOff i + 12) [st]) s

/-- Every MARKED entry becomes LIVE again (R228). -/
def unmark (s : State) (hdr : Nat) : Option State :=
  let h := headerAt s.hbm hdr
  setEntries s hdr h 1 (markedEntries s.hbm hdr h)

/-- A region whose Spring unit works for no operation any more. -/
def Region.idle (r : Region) : Region := { r with owner := none, snap := [], verified := false, shields := [] }

/-- Ends a refit of a region with ABORTED: no entry stays MARKED (R225, R232, R237). -/
def abortRefit (s : State) (hdr : Nat) : Option State :=
  let h := headerAt s.hbm hdr
  if h.rstate = 0 then some s
  else
    let owner := (region? s hdr).bind (·.owner)
    (unmark s hdr).bind fun s => (finishFrop (modifyRegion s hdr Region.idle) hdr owner .aborted 0 0).bind fun s => setField s hdr 0 27 2 0

/-- Starts a demotion on behalf of an operation, or of a store (R225, R231, R232). -/
def startDemotion (s : State) (hdr : Nat) (op : Option (Nat × Nat)) : Option State := do
  let s1 ← abortRefit s hdr
  setRegionState (modifyRegion s1 hdr fun r => { r with owner := op, written := 0 }) hdr 3

/-- Holds a member's store at the Spring unit (R223). -/
def holdStore (s : State) (hdr : Nat) (ag : Agent) (issue : Nat) (l : Elems) : State :=
  { s with work := { s.work with springHeld := s.work.springHeld ++
      [{ hdr := hdr, ctx := ag.ctx, group := ag.group, lane := ag.lane, issue := issue, elems := l }] } }

/-- A held store that its region can no longer take: its group parks at the boundary before the extended instruction in which it stands, with
the member's lane and the address of its first element; where the thread has exited, the record alone is left (R23, R223, R306). The store is
dropped: its thread stands past it, so that no replay performs it, though R231 speaks of one (DESIGN CHOICE, log entry 43). -/
def lateFault (s : State) (hdr : Nat) (ag : Agent) (l : Elems) (engine : Nat) (c : CauseDetail) : State :=
  let h := headerAt s.hbm hdr
  let va := BitVec.ofNat 64 (h.vbase + (l.headD (0, 0)).1 * h.esize)
  match s.group? ag.group with
  | none => s
  | some g =>
    if (g.thread ag.lane).status = .exited then
      emitRecord s { team := g.team, ctx := g.ctx, engine := engine, cause := c.1, slot := g.slot, core := g.core, lanes := 0
                     va := some va.toNat, sev := 3, kind := 1, detail := c.2 }
    else takePark (s.setGroup (rewound g)) g.uid { cause := c.1, lanes := [ag.lane], va := some va, kind := 1, detail := c.2, engine := engine, skip := 0 }

/-- Whether the log has room for what a member's store writes at once; one that is held at the Spring unit writes nothing yet (R332). -/
def fittedRoom (s : State) (hdr : Nat) (l : Elems) : Bool :=
  let h := headerAt s.hbm hdr
  if h.state = 1 ∨ h.state = 3 ∨ regionHolds s hdr = true then true
  else if h.state = 2 ∧ ¬ tableTakes s.hbm hdr h l then h.inflFault || (startDemotion s hdr none).isSome
  else (storeElements s hdr l).isSome

/-- One member's store, after its checks: applied at once, or held; one that was held and finds its region EMPTY, or a table under
INFL = FAULT that cannot take it, raises its cause then (R223, R231). -/
def applyFitted (s : State) (hdr : Nat) (ag : Agent) (issue : Nat) (l : Elems) : State :=
  let h := headerAt s.hbm hdr
  if h.state = 0 then lateFault s hdr ag l 0 (0x0305, pageDetail 0 false false 1 2)
  else if h.state = 1 ∨ h.state = 3 ∨ regionHolds s hdr = true then holdStore s hdr ag issue l
  else if h.state = 2 ∧ ¬ tableTakes s.hbm hdr h l then
    (if h.inflFault then lateFault s hdr ag l 5 (0x0503, h.cap * 2 ^ 24 + h.livecnt)
     else holdStore ((startDemotion s hdr none).getD s) hdr ag issue l)
  else match storeElements s hdr l with
    | some t => if windowStore s hdr l then pin t ag.ctx else t
    | none => holdStore s hdr ag issue l

/-- The checks of a member's store (R222, R223). -/
def fittedStoreCheck (s : State) (hdr va : Nat) (data : List Byte) : Except CauseDetail Elems :=
  let h := headerAt s.hbm hdr
  if h.state = 0 then .error (0x0305, pageDetail 0 false false 1 2)
  else match storeElems h (va % 2 ^ 64) data with
    | .error e => .error e
    | .ok l =>
      if h.state = 2 ∧ h.inflFault ∧ ¬ tableTakes s.hbm hdr h l then .error (0x0503, h.cap * 2 ^ 24 + h.livecnt) else .ok l

/-- Applies the held stores of a region, in the order in which they arrived; those that wait for room in a log stay. -/
def releaseHeld (s : State) (hdr : Nat) : State :=
  let h := headerAt s.hbm hdr
  if h.state = 1 ∨ h.state = 3 then s
  else
    let mine := s.work.springHeld.filter fun x => x.hdr == hdr
    let s0 := { s with work := { s.work with springHeld := s.work.springHeld.filter fun x => x.hdr != hdr } }
    mine.foldl (fun s x => applyFitted s hdr { ctx := x.ctx, group := x.group, die := homeDie hdr, op := none, lane := x.lane } x.issue x.elems) s0

/-! ## Modes (R220) -/

/-- The magnitude of the difference of two exact values. -/
def absDiff (x y : Exact) : Exact := { addExact rne x y.negate with neg := false }

/-- agree of R220. -/
def agree (h : Header) (a v : Nat) : Bool :=
  if a = v then true
  else if h.exact then false
  else match decodeElem h.elemFmt a, decodeElem h.elemFmt v, fp32.decode h.eps with
    | .fin x, .fin y, .fin e => cmpExact (absDiff x y) { e with neg := false } != .gt
    | _, _, _ => false

/-! ## Install (R226) -/

/-- The words of a header as INSTALLING begins: the read-only fields are 0. -/
def installedHeader (image : Header) : Header :=
  image.zipIdx.map fun (w, k) =>
    if k = 0 then setBits w 25 7 0 + 2 ^ 29 else if 10 ≤ k then 0 else w

/-- Writes the header, clears slot 1, the buckets and the entries (R225, R226). -/
def beginInstall (s : State) (hdr : Nat) (image : Header) (op : Nat × Nat) : Option State := do
  let h := image
  let s1 ← trackedWrite s hdr ((installedHeader image).flatMap (leBytes 8))
  let s2 ← trackedWrite s1 (hdr + h.slotOff 0) (List.replicate (2 * h.slotSize + h.bucketSize) 0)
  let s3 ← (List.range h.cap).foldlM (fun s i => trackedWrite s (hdr + h.entryOff i + 12) [0]) s2
  let others := s3.work.regions.filter fun r => r.hdr != hdr
  let r : Region := { hdr := hdr, owner := some op, snap := [], verified := false, shields := [], image := [] }
  some { s3 with work := { s3.work with regions := others ++ [r] } }

/-- What the unit reads of the rest of an install set: its elements, a wait, or the first cause with the index of its element. -/
inductive SetRead where
  | ok (l : List (Nat × Nat))
  | wait
  | fault (c : CauseDetail) (idx : Nat)

/-- The elements of the install set from position n on, each with its point's COORD: those that an install which overflowed has yet
to place. -/
def restOfSet (elem : State → Nat → Fitted Nat) (h : Header) (s : State) : Nat → Nat → SetRead
  | 0, _ => .ok []
  | k + 1, n =>
    match elem s n with
    | .wait => .wait
    | .fault c => .fault c n
    | .ok v =>
      match restOfSet elem h s k (n + 1) with
      | .ok l => .ok ((coordWord (h.setPoint n), v) :: l)
      | r => r

/-- How the walk over the install set ends. -/
inductive InstallEnd where
  | complete (s : State)
  | overflow (s : State) (idx left : Nat)
  | fault (s : State) (c : CauseDetail) (idx : Nat)
  | wait

/-- Walks the install set from position n on; `used` entries are in use, and `elem` reads one element. -/
def installFrom (elem : State → Nat → Fitted Nat) (hdr : Nat) : Nat → Nat → Nat → State → InstallEnd
  | 0, _, _, s => .complete s
  | k + 1, n, used, s =>
    let h := headerAt s.hbm hdr
    match elem s n with
    | .wait => .wait
    | .fault c => .fault s c n
    | .ok v =>
      let p := h.setPoint n
      let next := if agree h (evalNet s.hbm hdr h 0 p) v then some (s, used)
        else ((linkEntry s hdr h used (coordWord p) v).bind fun s => setField s hdr 10 32 24 (used + 1)).map fun s => (s, used + 1)
      match next with
      | none => .wait
      | some (s1, used1) =>
        if h.cap ≤ used1 ∨ h.points ≤ h.params + used1 then .overflow s1 n k else installFrom elem hdr k (n + 1) used1 s1

/-! ## Refit (R227 to R230) -/

/-- Starts a refit: the snapshot of the live entries and their values (R227); none is MARKED yet. -/
def startRefit (s : State) (hdr : Nat) (op : Option (Nat × Nat)) : Option State :=
  let h := headerAt s.hbm hdr
  (unmark s hdr).bind fun s => (setField s hdr 0 27 2 2).map fun s => modifyRegion s hdr fun r =>
    { r with owner := op, snap := (liveEntries s.hbm hdr h).map (fun i => (i, (excAt s.hbm hdr h i).value)), verified := false, shields := [] }

/-- The parameters of the candidate (R227): a function of the part revision, the header, the active slot and the snapshot. -/
def candidateBytes (s : State) (hdr : Nat) (h : Header) (snap : List (Nat × Nat)) : List Byte :=
  let slot := s.hbm.read (hdr + h.slotOff h.aslot) h.slotSize
  let n := h.params * h.psize
  (List.range h.slotSize).map fun k =>
    if k < n then Config.candidate (h.map (BitVec.ofNat 64)) slot (snap.map fun (i, v) => ((excAt s.hbm hdr h i).coord, v)) k else 0

/-- The snapshot entries that the candidate makes needless: still LIVE, unchanged, and in agreement (R227). -/
def needlessEntries (s : State) (hdr : Nat) (h : Header) (snap : List (Nat × Nat)) : List Nat :=
  (snap.filter fun (i, v) =>
    let e := excAt s.hbm hdr h i
    e.state == 1 && e.value == v && agree h (evalNet s.hbm hdr h (1 - h.aslot) (coordPoint e.coord)) v).map (·.1)

/-- The points without a live entry at which the candidate differs from the active network, with its values, in ascending
COORD (R227, R228). -/
def shieldPoints (s : State) (hdr : Nat) (h : Header) : List (Nat × Nat) :=
  (List.range h.points).filterMap fun n =>
    let p := h.setPoint n
    if (liveEntry s.hbm hdr h (coordWord p)).isSome then none
    else
      let old := evalNet s.hbm hdr h h.aslot p
      if evalNet s.hbm hdr h (1 - h.aslot) p = old then none else some (coordWord p, old)

/-- Commits a refit (R228). -/
def commitRefit (s : State) (hdr : Nat) (marked : List Nat) (shields : List (Nat × Nat)) : Option State := do
  let h := headerAt s.hbm hdr
  let m := marked.length
  let n := shields.length
  let s1 ← marked.foldlM (fun s i => freeOne s hdr h i) s
  let s2 ← shields.foldlM (fun s (c, v) => (freeEntry s.hbm hdr h).bind fun i => linkEntry s hdr h i c v) s1
  setFields s2 hdr [(10, 0, 32, h.gen + 1), (0, 25, 1, 1 - h.aslot), (10, 32, 24, h.livecnt - m + n), (12, 16, 24, m), (12, 40, 24, n),
    (0, 26, 1, 1), (12, 0, 16, s2.domain.rin.toNat), (0, 27, 2, 0)]

/-- The candidate and the verification of a refit: the needless entries are MARKED and the shield points recorded (R227). -/
def verifyRefit (s : State) (hdr : Nat) : Option State := do
  let r ← region? s hdr
  let h := headerAt s.hbm hdr
  let s1 ← trackedWrite s (hdr + h.slotOff (1 - h.aslot)) (candidateBytes s hdr h r.snap)
  let s2 ← setEntries s1 hdr h 2 (needlessEntries s1 hdr h r.snap)
  some (modifyRegion s2 hdr fun r => { r with verified := true, shields := shieldPoints s1 hdr h })

/-- The shield points of a region that still have no live entry (R228). -/
def openShields (s : State) (hdr : Nat) (h : Header) (r : Region) : List (Nat × Nat) :=
  r.shields.filter fun (c, _) => (liveEntry s.hbm hdr h c).isNone

/-- The end of a verified refit: a commit, or no gain (R228). -/
def endRefit (s : State) (hdr : Nat) : Option State := do
  let r ← region? s hdr
  let h := headerAt s.hbm hdr
  let marked := markedEntries s.hbm hdr h
  let shields := openShields s hdr h r
  let s1 := modifyRegion s hdr Region.idle
  if shields.length < marked.length then
    let s2 ← commitRefit s1 hdr marked shields
    finishFrop s2 hdr r.owner .committed 0 0
  else
    let s2 ← setEntries s1 hdr h 1 marked
    let s3 ← setFields s2 hdr [(12, 16, 24, 0), (12, 40, 24, 0), (0, 27, 2, 0)]
    finishFrop s3 hdr r.owner .noGain 0 0

/-- Clears HOLD of every region whose last commit lies in the closed interval or an earlier one, and starts the refits that
waited for it (R225, R230). -/
def clearHold (s : State) (closed : BitVec 16) : State :=
  s.work.regions.foldl (fun s r =>
    let h := headerAt s.hbm r.hdr
    if h.hold ∧ (closed - BitVec.ofNat 16 h.crin).toNat < 2 ^ 15 then
      match setField s r.hdr 0 26 1 0 with
      | some s1 => if h.rstate = 1 then (startRefit s1 r.hdr r.owner).getD s1 else s1
      | none => s
    else s) s

/-! ## Demotion (R232) -/

/-- The reserve's element at an index, as demotion writes it; after an install that overflowed, a point whose element had still to be
placed takes that element (R221, R232). -/
def demotedElem (m : Memory) (hdr : Nat) (h : Header) (image : List (Nat × Nat)) (idx : Nat) : Nat :=
  let p := h.pointOf idx
  if (h.outside p).isSome then (if h.ood = 2 then h.fill else 0)
  else match image.find? fun (c, _) => c == coordWord p with
    | some (_, v) => v
    | none => pointValue m hdr h p

/-- The bytes of 64-byte piece k of the reserve. -/
def reservePiece (m : Memory) (hdr : Nat) (h : Header) (image : List (Nat × Nat)) (k : Nat) : List Byte :=
  (List.range (64 / h.esize)).flatMap fun i => leBytes h.esize (demotedElem m hdr h image (k * (64 / h.esize) + i))

/-- Writes up to n pieces of the reserve from piece k on, as far as the log has room, and says which piece comes next (R232, R332). -/
def writeReserve (hdr : Nat) (h : Header) (image : List (Nat × Nat)) : Nat → Nat → State → State × Nat
  | 0, k, s => (s, k)
  | n + 1, k, s =>
    match trackedWrite s (h.dempa + 64 * k) (reservePiece s.hbm hdr h image k) with
    | some t => writeReserve hdr h image n (k + 1) t
    | none => (s, k)

/-- Ends a demotion whose reserve is written: the region is DENSE, and the operation it worked for ends with DEMOTED. -/
def becomeDense (s : State) (hdr : Nat) (r : Region) : Option State :=
  (setFields s hdr [(10, 32, 24, 0), (0, 29, 3, 4)]).bind fun t =>
    finishFrop (modifyRegion t hdr fun r => { r.idle with image := [], written := 0 }) hdr r.owner .demoted 0 0

/-- Goes on with a demotion: writes of the reserve what the log has room for, and ends it when all is written; none where it has to wait. -/
def endDemotion (s : State) (hdr : Nat) : Option State :=
  match region? s hdr with
  | none => none
  | some r =>
    let h := headerAt s.hbm hdr
    let total := h.reserveSize / 64
    let w := writeReserve hdr h r.image (total - r.written) r.written s
    let kept := if w.2 = r.written then none else some (modifyRegion w.1 hdr fun r => { r with written := w.2 })
    if w.2 < total then kept else (becomeDense w.1 hdr r).or kept

end Sys2Proof.Machine
end

