-- ==== Sys2Proof/Machine/MemOps.lean ====
section
/-! DEFINITION. Loads, stores, descriptors, segments, atomics, fences and WAIT: majors 0x43 to 0x46 and 0x50 to 0x57
(R148, R172 to R174, R183, R186 to R197, R206, R208). -/
namespace Sys2Proof.Machine

/-! ## The group's own buffered writes (R197, R200, R271) -/

/-- Whether a buffered store covers an address of a space. -/
def covers (sp : Nat × Nat) (b : Buffered) : Bool :=
  let k := spaceOf b.place.target
  b.size != 5 && k.1 == sp.1 && decide (k.2 ≤ sp.2) && decide (sp.2 < k.2 + b.data.length)

/-- A byte with the group's buffered writes applied, in their order. -/
def ownByte (g : Group) (sp : Nat × Nat) (b : Byte) : Byte :=
  (g.stores.filter (covers sp)).foldl (fun b w => w.data.getD (sp.2 - (spaceOf w.place.target).2) b) b

/-- Bytes with the group's buffered writes applied. -/
def ownBytes (g : Group) (sp : Nat × Nat) : List Byte → List Byte
  | [] => []
  | b :: r => ownByte g sp b :: ownBytes g (sp.1, sp.2 + 1) r

/-- Reads n bytes at a place as a group's thread does. -/
def groupRead (s : State) (g : Group) (p : Place) (n : Nat) : List Byte := ownBytes g (spaceOf p.target) (readPlace s p n)

/-- The bytes that a store buffer entry concerns: a DST is a store of its whole line (R189). -/
def Buffered.span (b : Buffered) : Nat := if b.size = 5 then 64 else b.data.length

/-- Whether n bytes at a target share a byte with m bytes at another. -/
def touches (t : Target) (n : Nat) (u : Target) (m : Nat) : Bool :=
  (spaceOf t).1 == (spaceOf u).1 && overlaps (spaceOf t).2 n (spaceOf u).2 m

/-- Whether two targets lie in one Pond segment. -/
def sameSegment (t u : Target) : Bool := (segOf t).isSome && segOf t == segOf u

/-- Whether the group has a write to other bytes of a range's Pond segment that is not performed: a later access comes after it (S of R206). The
model keeps this order for the whole group, where R205 asks for it between the events of one thread (DESIGN CHOICE, log entry 38). -/
def segmentWaits (g : Group) (t : Target) (n : Nat) : Bool :=
  (g.stores.any fun b => sameSegment b.place.target t && !touches b.place.target b.span t n) || g.tiles.any fun w => sameSegment w.place.target t

/-- Whether the group has a TSTR or AST write to a range of bytes that is not performed: a later access of the group waits (R271). -/
def tileWaits (g : Group) (t : Target) (n : Nat) : Bool := g.tiles.any fun w => touches w.place.target w.data.length t n

/-- Whether the group has buffered a DST of a line of a range of bytes (R189). -/
def descWaits (g : Group) (t : Target) (n : Nat) : Bool := g.stores.any fun b => b.size == 5 && touches b.place.target 64 t n

/-- Whether the group has buffered a store of data to a line (R189). -/
def lineWaits (g : Group) (line : Target) : Bool := g.stores.any fun b => b.size != 5 && touches b.place.target b.data.length line 64

/-- Whether a load of the group must wait: it sees its own buffered stores, but not its TSTR and AST writes, and it follows a DST of its
line and the stores to the rest of its Pond segment (R189, R197, R206, R271). -/
def loadWaits (g : Group) (t : Target) (n : Nat) : Bool := tileWaits g t n || descWaits g t n || segmentWaits g t n

/-- Whether the group has any write to a range of bytes, or to its Pond segment, that is not performed. -/
def ownOverlap (g : Group) (t : Target) (n : Nat) : Bool :=
  tileWaits g t n || segmentWaits g t n || g.stores.any fun b => touches b.place.target b.span t n

/-! ## Faults of some members (R173, R174) -/

/-- The causes in the order of R173, with those of step 7 in the order of R222. -/
def accessOrder : List Nat :=
  [0x0304, 0x0301, 0x0302, 0x0305, 0x0401, 0x0303, 0x0504, 0x0502, 0x0501, 0x0503, 0x0402, 0x0A01, 0x0A02, 0x0201, 0x0901]

/-- The engine that reports a cause (R383, R385). -/
def causeEngine (cause : Nat) : Nat := if cause / 256 = 5 then 5 else if cause = 0x0901 then 6 else if cause / 256 = 0x0A then 7 else 0

/-- A member that faults: its lane, its address and its cause. -/
abbrev BadMember := Nat × DWord × CauseDetail

/-- The park of some members' faults (R174). -/
def accessPark (kind : Nat) (bad : List BadMember) : ParkArgs :=
  let cause := (accessOrder.find? fun c => bad.any fun (_, _, c', _) => c' == c).getD 0
  match bad.find? fun (_, _, c, _) => c == cause with
  | some (_, va, _, d) =>
    { cause := cause, lanes := bad.map (·.1), va := some va, kind := kind, detail := d, engine := causeEngine cause }
  | none => { cause := cause, lanes := bad.map (·.1) }

/-- The outcome of each member of an access. -/
abbrev Members (α : Type) := List (Nat × DWord × Fitted α)

/-- Whether some member waits. -/
def anyWaits {α : Type} (l : Members α) : Bool := l.any fun (_, _, r) => match r with
  | .wait => true
  | _ => false

/-- The members that do not fault. -/
def goodOf {α : Type} (l : Members α) : List (Nat × DWord × α) := l.filterMap fun (i, va, r) => match r with
  | .ok x => some (i, va, x)
  | _ => none

/-- The members that fault. -/
def badOf {α : Type} (l : Members α) : List BadMember := l.filterMap fun (i, va, r) => match r with
  | .fault c => some (i, va, c)
  | _ => none

/-- Completes the members that did not fault and parks the group for the others (R174). -/
def endMembers {α : Type} (kind : Nat) (l : Members α) (s : State) : Effect :=
  if (badOf l).isEmpty then .done s else .part s false (accessPark kind (badOf l))

/-! ## Addresses (R186) -/

/-- The address of an M-format access. -/
def mAddr (x : Issue) (a : VReg) (off : BitVec 6) (size lane : Nat) : DWord :=
  BitVec.ofNat 64 (wrapTo 64 (((x.g.vpair lane (x.ext.vnum 11 a)).toNat : Int) + size * x.ext.immediate 6 off.toNat))

/-- The address of a form of major 0x54. -/
def bAddr (x : Issue) (a b : VReg) (lane : Nat) : DWord :=
  BitVec.ofNat 64 (wrapTo 64 (((x.g.vpair lane (x.ext.vnum 11 a)).toNat : Int) + toSigned 32 (srcB x lane b 1)))

/-- The address of a form without an offset. -/
def pAddr (x : Issue) (a : VReg) (lane : Nat) : DWord := x.g.vpair lane (x.ext.vnum 11 a)

/-! ## Loads (R183, R187, R195) -/

/-- One member's load: its bytes, a wait for a segment or a region, or its cause. -/
def loadMember (s : State) (g : Group) (acc : Access) (va : DWord) : Fitted (List Byte) :=
  match groupAccess s g acc va with
  | .error c => .fault c
  | .ok p =>
    match p.target with
    | .fitted hdr => fittedLoad s hdr va.toNat acc.size acc.kind
    | _ => if segWaits s p || loadWaits g p.target acc.size then .wait else .ok (groupRead s g p acc.size)

/-- A load in flight that writes plain registers. -/
def plainLoad (vals : List (RegDst × Word)) : Load :=
  { vals := vals, elems := [], tile := none, acc := none, spring := false, done := false }

/-- A load some of whose values a Spring unit may return. -/
def loadOf (s : State) (g : Group) (acc : Access) (vas : List DWord) (vals : List (RegDst × Word)) : Load :=
  { plainLoad vals with spring := vas.any fun va => match groupAccess s g acc va with
      | .ok p => (match p.target with
        | .fitted _ => true
        | _ => false)
      | .error _ => false }

/-- Issues the loads of every member; `vals` gives the registers that a member's bytes write. -/
def loads (i : Instr) (s : State) (x : Issue) (acc : Access) (addr : Nat → DWord) (vals : Nat → List Byte → List (Nat × Word)) : Effect :=
  let ms := x.members.map fun l => (l, addr l, loadMember s x.g acc (addr l))
  if anyWaits ms then .stall
  else
    let good := goodOf ms
    if good.isEmpty then endMembers acc.kind ms (s.setGroup (applyZeros i x x.g))
    else if Config.counterMax ≤ x.g.ldCount then .stall
    else
      let ld := loadOf s x.g acc (good.map fun (_, va, _) => va) (good.flatMap fun (l, _, b) => (vals l b).map fun (r, w) => (RegDst.v l r, w))
      endMembers acc.kind ms (s.setGroup (applyZeros i x { x.g with loads := x.g.loads ++ [ld] }))

/-- A load of a size into registers from D on. -/
def loadInstr (i : Instr) (d : VReg) (size : Nat) (addr : Issue → Nat → DWord) (ord : MemOrder) (sc : Scope)
    (vals : List Byte → List Word) (s : State) : Host.Outcome State Fault Refusal :=
  issue i (fun s x =>
    if acquireWaits s x.g ord.acquires sc.code.toNat then .stall
    else loads i s x (loadAccess size) (addr x) (fun _ b => (vals b).zipIdx.map fun (w, k) => (x.ext.vnum 18 d + k, w))) s

/-- The bytes of a load as words, lowest first. -/
def loadWords : List Byte → List Word
  | a :: b :: c :: d :: r => BitVec.ofNat 32 (ofLe [a, b, c, d]) :: loadWords r
  | _ => []

/-- The bytes of a narrow load, extended to 32 bits. -/
def loadNarrow (signed : Bool) (b : List Byte) : List Word :=
  [if signed then BitVec.ofInt 32 (toSigned (8 * b.length) (ofLe b)) else BitVec.ofNat 32 (ofLe b)]

/-- LD.i32 (R187). -/
def execLdI32 (d a : VReg) (off : BitVec 6) (ord : MemOrder) (sc : Scope) (s : State) :=
  loadInstr (.ldI32 d a off ord sc) d 4 (fun x l => mAddr x a off 4 l) ord sc loadWords s
/-- LD.i64 (R187). -/
def execLdI64 (d a : VReg) (off : BitVec 6) (ord : MemOrder) (sc : Scope) (s : State) :=
  loadInstr (.ldI64 d a off ord sc) d 8 (fun x l => mAddr x a off 8 l) ord sc loadWords s
/-- LD.i8 (R187). -/
def execLdI8 (d a b : VReg) (s : State) := loadInstr (.ldI8 d a b) d 1 (fun x l => bAddr x a b l) .relaxed .group (loadNarrow true) s
/-- LD.n8 (R187). -/
def execLdN8 (d a b : VReg) (s : State) := loadInstr (.ldN8 d a b) d 1 (fun x l => bAddr x a b l) .relaxed .group (loadNarrow false) s
/-- LD.i16 (R187). -/
def execLdI16 (d a b : VReg) (s : State) := loadInstr (.ldI16 d a b) d 2 (fun x l => bAddr x a b l) .relaxed .group (loadNarrow true) s
/-- LD.n16 (R187). -/
def execLdN16 (d a b : VReg) (s : State) := loadInstr (.ldN16 d a b) d 2 (fun x l => bAddr x a b l) .relaxed .group (loadNarrow false) s
/-- LDQ (R187). -/
def execLdq (d a b : VReg) (s : State) := loadInstr (.ldq d a b) d 16 (fun x l => bAddr x a b l) .relaxed .group loadWords s

/-! ## Stores (R188, R197, R223, R316) -/

/-- One member's store after its checks: a buffered write, or the elements of a region. -/
inductive StoreKind where
  | plain (p : Place)
  | region (hdr : Nat) (l : Elems)
  deriving DecidableEq, Repr

/-- One member's store: what it writes, a wait for a segment, or its cause. -/
def storeMember (s : State) (g : Group) (acc : Access) (va : DWord) (data : List Byte) : Fitted StoreKind :=
  match groupAccess s g acc va with
  | .error c => .fault c
  | .ok p =>
    match p.target with
    | .fitted hdr =>
      match fittedStoreCheck s hdr va.toNat data with
      | .error c => .fault c
      | .ok l => if fittedQueue s hdr p then .ok (.region hdr l) else .wait
    | _ =>
      if segWaits s p || tileWaits g p.target acc.size then .wait
      else match logCheck s g p acc.size with
        | .full die => .fault (logFault die)
        | .wait => .wait
        | .room => .ok (.plain p)

/-- Whether a release at SYSTEM scope stands behind a deferred write of the group that is not performed outside (R208). -/
def systemWaits (s : State) (g : Group) (ord : MemOrder) (sc : Scope) : Bool :=
  ord.releases && sc == .system
  && ((s.deferred.any fun d => d.group == g.uid && !d.record) || (g.stores.any fun b => defers s b.place) || g.tiles.any fun t => defers s t.place)

/-- Whether a release must wait, as it acts at once: every earlier write of the group comes first, where another agent shares its scope. -/
def releaseWaits (s : State) (g : Group) (ord : MemOrder) (sc : Scope) : Bool :=
  ord.releases && reaches s g sc.code.toNat && !storesPerformed s g

/-- The size code of a store buffer entry (R316). -/
def sizeCode (n : Nat) : Nat := if n = 1 then 0 else if n = 2 then 1 else if n = 4 then 2 else if n = 8 then 3 else 4

/-- The elements of a region store that no higher lane of the same instruction also writes (R188, R223). -/
def keptElems (all : List (Nat × Nat × Elems)) (lane hdr : Nat) (l : Elems) : Elems :=
  l.filter fun (i, _) => !all.any fun (l', h', es) => decide (lane < l') && h' == hdr && es.any fun (j, _) => j == i

/-- Removes from the front of the ST queue the issues whose writes are all performed (R195). -/
def settleQueue (s : State) (g : Group) : List Nat → List Nat
  | [] => []
  | n :: r =>
    if (g.stores.any fun b => b.issue == n) || (g.tiles.any fun t => t.issue == n)
        || (s.work.springHeld.any fun h => h.group == g.uid && h.issue == n)
    then n :: r else settleQueue s g r

/-- Lowers a group's ST counter as far as its issues are performed. -/
def settleStores (s : State) (uid : Nat) : State :=
  match s.group? uid with
  | none => s
  | some g => s.setGroup { g with stQueue := settleQueue s g g.stQueue }

/-- A store buffer entry. -/
def bufferEntry (n lane : Nat) (va : DWord) (p : Place) (size : Nat) (data : List Byte) (ord : MemOrder) (sc : Scope) : Buffered :=
  { issue := n, lane := lane, va := va, place := p, size := size, data := data, ord := ord.code, scope := sc.code }

/-- A member's store of elements arrives at its region's Spring unit. -/
def acceptRegion (s : State) (g : Group) (lane n hdr : Nat) (va : DWord) (data : List Byte) (l : Elems) : State :=
  let t := applyFitted s hdr { agentOf g with lane := lane } n l
  match groupAccess t g (storeAccess data.length) va with
  | .ok p => noteFitted t (agentOf g) hdr p data
  | .error _ => t

/-- The state with the stores of an issue in the buffer, and those of regions at their Spring units. -/
def acceptStores (s : State) (x : Issue) (size : Nat) (ord : MemOrder) (sc : Scope) (data : Nat → List Byte)
    (good : List (Nat × DWord × StoreKind)) : State :=
  let n := x.g.nextIssue
  let entries := good.filterMap fun (l, va, k) => match k with
    | .plain p => some (bufferEntry n l va p size (data l) ord sc)
    | .region _ _ => none
  let regs := good.filterMap fun (l, va, k) => match k with
    | .region hdr es => some (l, va, hdr, es)
    | .plain _ => none
  let all := regs.map fun (l, _, hdr, es) => (l, hdr, es)
  let s1 := s.setGroup { x.g with stores := x.g.stores ++ entries, stQueue := x.g.stQueue ++ [n], nextIssue := n + 1 }
  let s2 := regs.foldl (fun s (l, va, hdr, es) => acceptRegion s x.g l n hdr va (data l) (keptElems all l hdr es)) s1
  settleStores s2 x.uid

/-- The state in which the members after one whose store was accepted are checked: what that store takes of a log or creates in a
region counts for them (R188, R223, R332). -/
def afterMember (s : State) (x : Issue) (lane : Nat) (va : DWord) (size : Nat) (data : List Byte) (m : Fitted StoreKind) : State :=
  match m with
  | .ok (.region hdr es) => acceptRegion s x.g lane x.g.nextIssue hdr va data es
  | .ok (.plain p) => s.modifyGroup x.uid fun g =>
    { g with stores := g.stores ++ [bufferEntry x.g.nextIssue lane va p size data .relaxed .group] }
  | _ => s

/-- The stores of members, one after another. -/
def storeMembers (x : Issue) (check : State → Nat → Fitted StoreKind) (addr : Nat → DWord) (size : Nat) (data : Nat → List Byte) :
    List Nat → State → Members StoreKind
  | [], _ => []
  | l :: r, s =>
    let m := check s l
    (l, addr l, m) :: storeMembers x check addr size data r (afterMember s x l (addr l) size (data l) m)

/-- Whether some member's store goes to a region. -/
def anyRegion (l : Members StoreKind) : Bool := l.any fun (_, _, r) => match r with
  | .ok (.region _ _) => true
  | _ => false

/-- Issues the stores of a list of members. -/
def stores (s : State) (x : Issue) (acc : Access) (size : Nat) (ord : MemOrder) (sc : Scope) (ms : Members StoreKind)
    (data : Nat → List Byte) : Effect :=
  if anyWaits ms || systemWaits s x.g ord sc || (anyRegion ms && releaseWaits s x.g ord sc) then .stall
  else
    let good := goodOf ms
    if good.isEmpty then endMembers acc.kind ms s
    else if Config.counterMax ≤ x.g.stCount ∨ Config.storeBuffer < x.g.stores.length + good.length then .stall
    else endMembers acc.kind ms (acceptStores s x size ord sc data good)

/-- A store of a size; `data` gives a member's bytes. -/
def storeInstr (i : Instr) (size : Nat) (addr : Issue → Nat → DWord) (ord : MemOrder) (sc : Scope) (data : Issue → Nat → List Byte)
    (s : State) : Host.Outcome State Fault Refusal :=
  issue i (fun s x =>
    let ms := storeMembers x (fun s l => storeMember s x.g (storeAccess size) (addr x l) (data x l)) (addr x) (sizeCode size) (data x) x.members s
    stores s x (storeAccess size) (sizeCode size) ord sc ms (data x)) s

/-- The bytes of n registers of a lane from D on. -/
def regBytes (x : Issue) (d : VReg) (n lane : Nat) : List Byte :=
  (List.range n).flatMap fun k => leBytes 4 (x.g.vget lane (x.ext.vnum 18 d + k)).toNat

/-- ST.i32 (R187). -/
def execStI32 (d a : VReg) (off : BitVec 6) (ord : MemOrder) (sc : Scope) (s : State) :=
  storeInstr (.stI32 d a off ord sc) 4 (fun x l => mAddr x a off 4 l) ord sc (fun x l => regBytes x d 1 l) s
/-- ST.i64 (R187). -/
def execStI64 (d a : VReg) (off : BitVec 6) (ord : MemOrder) (sc : Scope) (s : State) :=
  storeInstr (.stI64 d a off ord sc) 8 (fun x l => mAddr x a off 8 l) ord sc (fun x l => regBytes x d 2 l) s
/-- ST.i8 (R187). -/
def execStI8 (d a b : VReg) (s : State) :=
  storeInstr (.stI8 d a b) 1 (fun x l => bAddr x a b l) .relaxed .group (fun x l => (regBytes x d 1 l).take 1) s
/-- ST.i16 (R187). -/
def execStI16 (d a b : VReg) (s : State) :=
  storeInstr (.stI16 d a b) 2 (fun x l => bAddr x a b l) .relaxed .group (fun x l => (regBytes x d 1 l).take 2) s
/-- STQ (R187). -/
def execStq (d a b : VReg) (s : State) :=
  storeInstr (.stq d a b) 16 (fun x l => bAddr x a b l) .relaxed .group (fun x l => regBytes x d 4 l) s

/-! ## Descriptors (R91, R189, R222) -/

/-- The descriptor words of a line as a group's thread reads them, its own buffered DST included. -/
def groupDesc (s : State) (g : Group) (p : Place) : Word × Word :=
  let k := spaceOf p.target
  let (lo, hi) := readDesc s p
  let own := g.stores.filter fun b => b.size == 5 && spaceOf b.place.target == k
  match p.target with
  | .host _ | .mmio _ => (lo, hi)
  | .fitted hdr => (BitVec.ofNat 32 (0x7F00 + (headerAt s.hbm hdr).elemFmt), 0)
  | _ => ((own.getLast?.map fun b => descStored (BitVec.ofNat 32 (ofLe b.data))).getD lo, hi)

/-- One member's DLD. -/
def dldMember (s : State) (g : Group) (va : DWord) : Fitted (Word × Word) :=
  match groupAccess s g dldAccess va with
  | .error c => .fault c
  | .ok p =>
    match p.target with
    | .fitted _ => .ok (groupDesc s g p)
    | _ => if segWaits s p || tileWaits g p.target 64 || lineWaits g p.target || segmentWaits g p.target 64 then .wait else .ok (groupDesc s g p)

/-- DLD (R189). -/
def execDld (d a b : VReg) (s : State) :=
  let i := Instr.dld d a b
  issue i (fun s x =>
    let ms := x.members.map fun l => (l, bAddr x a b l, dldMember s x.g (bAddr x a b l))
    if anyWaits ms then .stall
    else
      let good := goodOf ms
      if good.isEmpty then endMembers 4 ms (s.setGroup (applyZeros i x x.g))
      else if Config.counterMax ≤ x.g.ldCount then .stall
      else
        let r := x.ext.vnum 18 d
        let ld := loadOf s x.g dldAccess (good.map fun (_, va, _) => va) (good.flatMap fun (l, _, lo, hi) => [(RegDst.v l r, lo), (RegDst.v l (r + 1), hi)])
        endMembers 4 ms (s.setGroup (applyZeros i x { x.g with loads := x.g.loads ++ [ld] }))) s

/-- One member's DST (R189). -/
def dstMember (s : State) (g : Group) (va : DWord) (v : Word) : Fitted StoreKind :=
  match groupAccess s g dstAccess va with
  | .error c => .fault c
  | .ok p =>
    if segWaits s p || tileWaits g p.target 64 then .wait
    else if 0x11 ≤ v.toNat % 256 then .fault (0x0201, v.toNat % 256 * 2 ^ 40)
    else match (if noDesc p.target then .room else logCheck s g p 1) with
      | .full die => .fault (logFault die)
      | .wait => .wait
      | .room => .ok (.plain p)

/-- DST (R189). -/
def execDst (d a b : VReg) (s : State) :=
  issue (.dst d a b) (fun s x =>
    let v := fun l => x.g.vget l (x.ext.vnum 18 d)
    let ms := storeMembers x (fun s l => dstMember s x.g (bAddr x a b l) (v l)) (bAddr x a b) 5 (fun l => leBytes 4 (v l).toNat) x.members s
    stores s x dstAccess 5 .relaxed .group ms (fun l => leBytes 4 (v l).toNat)) s

/-! ## Performing stores (R195, R197, R200, R206) -/

/-- Whether two buffered stores are performed in their order: they touch a common byte, a DST being a store of its whole line (R189), or are of two
instructions and lie in one Pond segment (S of R206; log entry 38). -/
def storesClash (a b : Buffered) : Bool :=
  touches a.place.target a.span b.place.target b.span || (a.issue != b.issue && sameSegment a.place.target b.place.target)

/-- Whether a buffered store and a tile write are performed in their order. -/
def tileClash (a : Buffered) (t : TileWrite) : Bool :=
  touches a.place.target a.span t.place.target t.data.length || sameSegment a.place.target t.place.target

/-- Whether two tile writes are performed in their order. -/
def tilesClash (a t : TileWrite) : Bool :=
  touches a.place.target a.data.length t.place.target t.data.length || (a.issue != t.issue && sameSegment a.place.target t.place.target)

/-- Whether a store is a release at a scope that another agent shares (R201, R205). -/
def Buffered.releases (s : State) (g : Group) (b : Buffered) : Bool := bitOf b.ord.toNat 1 && reaches s g b.scope.toNat

/-- Whether the store at an index may be performed: earlier writes to the same bytes or the same Pond segment come first, a release waits for every earlier
write of the group (R206), and the stores of a save frame are performed in their order (R316). A SYSTEM release has issued only once
every earlier deferred write was performed outside (R208). A release of TEAM or DIE scope that some agent shares orders the earlier
writes for the whole device, though R205 asks for no order beyond its scope (DESIGN CHOICE, log entry 36). -/
def mayPerform (s : State) (g : Group) (n : Nat) (b : Buffered) : Bool :=
  let before := g.stores.take n
  let tiles := g.tiles.filter fun t => decide (t.issue < b.issue)
  !(before.any fun a => storesClash a b) && !(tiles.any fun t => tileClash b t) && (!g.restoring || before.isEmpty)
  && (!b.releases s g || (before.isEmpty && tiles.isEmpty && !(s.work.springHeld.any fun h => h.group == g.uid && decide (h.issue < b.issue))))

/-- Removes the entry at an index. -/
def dropAt {α : Type} (l : List α) (n : Nat) : List α := l.take n ++ l.drop (n + 1)

/-- Performs the store at an index of a group's buffer, whole in one step: the 16 bytes of an STQ, which R200 lets be seen in two parts,
are never seen so (DESIGN CHOICE, log entry 98). -/
def performStore (s : State) (g : Group) (n : Nat) (b : Buffered) : Option State :=
  if !mayPerform s g n b then none
  else
    let rest := dropAt g.stores n
    let s1 := s.setGroup { g with stores := rest, restoring := g.restoring && !rest.isEmpty }
    let r := if b.size = 5 then writeDesc s1 (agentOf g) b.place (BitVec.ofNat 32 (ofLe b.data)) else writePlace s1 (agentOf g) b.place b.data
    r.map fun s => settleStores s g.uid

/-- The bytes that a TSTR or AST element leaves at its place: an element below a byte merges its bits (R271). -/
def mergedBytes (mask : Byte) (old new : List Byte) : List Byte :=
  new.zipIdx.map fun (b, k) => (old.getD k 0 &&& ~~~mask) ||| (b &&& mask)

/-- Performs the write of one element of TSTR or AST in one step (R200, R271, R272): earlier writes to the same bytes or the same Pond segment
come first. -/
def performTile (s : State) (g : Group) (n : Nat) (t : TileWrite) : Option State :=
  if ((g.tiles.take n).any fun a => tilesClash a t)
      || (g.stores.any fun b => decide (b.issue < t.issue) && tileClash b t) then none
  else
    let data := mergedBytes t.mask (readPlace s t.place t.data.length) t.data
    (writePlace (s.setGroup { g with tiles := dropAt g.tiles n }) (agentOf g) t.place data).map fun s => settleStores s g.uid

/-- Performs the write of an index: the store buffer's entries come first, then the tile writes. -/
def performWrite (s : State) (g : Group) (n : Nat) : Option State :=
  match g.stores[n]? with
  | some b => performStore s g n b
  | none =>
    match g.tiles[n - g.stores.length]? with
    | some t => performTile s g (n - g.stores.length) t
    | none => none

/-- Whether a group's stores are performed: not while its context is SAVED (R320). -/
def storesRun (s : State) (g : Group) : Bool :=
  match s.ctx? g.ctx with
  | some c => c.state == .running || c.state == .stopping
  | none => false

/-- STORE_PERFORMED: a buffered write of a group is performed at its point of coherence (R195, R200). -/
def execStorePerformed (g n : Nat) (s : State) : Host.Outcome State Fault Refusal :=
  match (s.group? g).bind fun x => if storesRun s x then performWrite s x n else none with
  | some t => .next (settle t)
  | none => stutter s

/-! ## Values of loads (R195, R200) -/

/-- Writes one register of a load. -/
def writeDst (g : Group) (d : RegDst) (w : Word) : Group :=
  match d with
  | .v lane r => g.vput lane r w
  | .s r => g.sregPut r w
  | .t _ | .a _ => g

/-- Writes a list of register values. -/
def writeDsts (g : Group) (l : List (RegDst × Word)) : Group := l.foldl (fun g (d, w) => writeDst g d w) g

/-- Writes the elements and the metadata of a list of numbers into a sparse map. -/
def putAll {α : Type} [DecidableEq α] (d : α) (m : Sparse α) (l : List (Nat × α)) : Sparse α := l.foldl (fun m (k, v) => sput d m k v) m

/-- Writes a tile: its elements, and the format and rows' bytes of each of its registers (R261, R262). -/
def putTile (g : Group) (t : TileLoad) (elems : List (Nat × DWord)) : Group :=
  let regs := (List.range t.count).map (t.reg + ·)
  { g with
    tile := putAll 0 g.tile elems
    tfmt := putAll 0 g.tfmt (regs.map fun r => (r, t.fmt))
    rscale := putAll 0x7F g.rscale (regs.flatMap fun r => t.scale.zipIdx.map fun (b, k) => (r * 16 + k, b))
    rspec := putAll 0 g.rspec (regs.flatMap fun r => t.spec.zipIdx.map fun (b, k) => (r * 16 + k, b)) }

/-- What a load's value changes in its group: registers, a tile or an accumulator (R270, R272). -/
def deliverLoad (g : Group) (l : Load) : Group :=
  let g1 := writeDsts g l.vals
  match l.tile, l.acc with
  | some t, _ => putTile g1 t l.elems
  | none, some (r, tag) =>
    let regs := if tag = 2 then [r, r + 1] else [r]
    { g1 with acc := putAll 0 g1.acc (l.elems.map fun (k, v) => (k, BitVec.ofNat 32 v.toNat))
              atag := putAll 0 g1.atag (regs.map fun k => (k, tag)), astep := putAll 0 g1.astep (regs.map fun k => (k, 0)) }
  | none, none => g1

/-- LOAD_VALUE_RETURN: the values of a load reach their registers, and the counter falls in issue order (R195). -/
def execLoadValueReturn (g n : Nat) (s : State) : Host.Outcome State Fault Refusal :=
  match s.group? g with
  | none => stutter s
  | some x =>
    match x.loads[n]? with
    | none => stutter s
    | some l =>
      if l.done then stutter s
      else
        let x1 := deliverLoad x l
        let loads := (modifyAt (fun l => { l with done := true }) x.loads n).dropWhile (·.done)
        .next (settle (s.setGroup { x1 with loads := loads }))

/-! ## SLD and SST (R148) -/

/-- The address of SLD and SST. -/
def sAddr (x : Issue) (a : SReg7) (off : BitVec 6) (size : Nat) : DWord :=
  BitVec.ofNat 64 (wrapTo 64 (((x.g.spair (x.ext.snum 11 a.toNat)).toNat : Int) + size * x.ext.immediate 6 off.toNat))

/-- A fault of an instruction that executes once for its set (R148). -/
def setFault (x : Issue) (kind : Nat) (va : DWord) (c : CauseDetail) : Effect :=
  .fault { cause := c.1, lanes := x.lanes, va := some va, kind := kind, detail := c.2, engine := causeEngine c.1, setLevel := true }

/-- SLD of a size. -/
def sld (i : Instr) (d a : SReg7) (off : BitVec 6) (size : Nat) (ord : MemOrder) (sc : Scope) (s : State) : Host.Outcome State Fault Refusal :=
  issue i (fun s x =>
    let r := x.ext.snum 18 d.toNat
    let va := sAddr x a off size
    if x.members.isEmpty then
      .done (if x.ext.z then s.setGroup ((List.range (size / 4)).foldl (fun g k => g.sregPut (r + k) 0) x.g) else s)
    else if acquireWaits s x.g ord.acquires sc.code.toNat || decide (Config.counterMax ≤ x.g.ldCount) then .stall
    else match loadMember s x.g (loadAccess size) va with
      | .wait => .stall
      | .fault c => setFault x 0 va c
      | .ok b => .done (s.setGroup { x.g with loads := x.g.loads ++ [loadOf s x.g (loadAccess size) [va] ((loadWords b).zipIdx.map fun (w, k) => (RegDst.s (r + k), w))] })) s

/-- SLD.i32 (R148). -/
def execSldI32 (d a : SReg7) (off : BitVec 6) (ord : MemOrder) (sc : Scope) (s : State) := sld (.sldI32 d a off ord sc) d a off 4 ord sc s
/-- SLD.i64 (R148). -/
def execSldI64 (d a : SReg7) (off : BitVec 6) (ord : MemOrder) (sc : Scope) (s : State) := sld (.sldI64 d a off ord sc) d a off 8 ord sc s

/-- SST of a size. -/
def sst (i : Instr) (d a : SReg7) (off : BitVec 6) (size : Nat) (ord : MemOrder) (sc : Scope) (s : State) : Host.Outcome State Fault Refusal :=
  issue i (fun s x =>
    let r := x.ext.snum 18 d.toNat
    let va := sAddr x a off size
    let data := (List.range (size / 4)).flatMap fun k => leBytes 4 (x.g.sregGet (r + k)).toNat
    if x.members.isEmpty then .done s
    else match storeMember s x.g (storeAccess size) va data with
      | .fault c => setFault x 1 va c
      | m => stores s x (storeAccess size) (sizeCode size) ord sc [(x.lanes.headD 0, va, m)] (fun _ => data)) s

/-- SST.i32 (R148). -/
def execSstI32 (d a : SReg7) (off : BitVec 6) (ord : MemOrder) (sc : Scope) (s : State) := sst (.sstI32 d a off ord sc) d a off 4 ord sc s
/-- SST.i64 (R148). -/
def execSstI64 (d a : SReg7) (off : BitVec 6) (ord : MemOrder) (sc : Scope) (s : State) := sst (.sstI64 d a off ord sc) d a off 8 ord sc s

/-! ## Segments (R182, R190) -/

/-- What SEGQ reads of a segment. -/
def segWord (s : State) (key : Nat) : Word :=
  let x := segAt s key
  let core := key / Config.segments
  BitVec.ofNat 32 (dieOf core * 2 ^ 22 + core % Config.coresPerDie * 2 ^ 16 + key % Config.segments * 2 ^ 8 + flagAt x.dead 2 + x.state.toNat)

/-- The segment that a member's SEGQ or SEGSET names, or its cause. -/
def segMember (s : State) (g : Group) (acc : Access) (va : DWord) : Except CauseDetail Nat :=
  match groupAccess s g acc va with
  | .error c => .error c
  | .ok p => match segOf p.target with
    | some k => .ok k
    | none => .error (0x0305, pageDetail 0 false false 6 0)

/-- SEGQ (R190). -/
def execSegq (d a b : VReg) (s : State) :=
  let i := Instr.segq d a b
  issue i (fun s x =>
    let ms : Members Nat := x.members.map fun l => (l, bAddr x a b l, match segMember s x.g segqAccess (bAddr x a b l) with
      | .ok k => .ok k
      | .error c => .fault c)
    let outs := (goodOf ms).map fun (l, _, k) => (l, ({ v := [(x.ext.vnum 18 d, segWord s k)] } : LaneOut))
    endMembers 6 ms (s.setGroup (applyZeros i x (applyLanes x.g outs)))) s

/-- One member's SEGSET: the segment and its state after it, or the cause (R182, R190). -/
def segsetMember (s : State) (g : Group) (va : DWord) (v : Word) : Except CauseDetail State :=
  match segMember s g segsetAccess va with
  | .error c => .error c
  | .ok k =>
    let x := segAt s k
    let req := bitsOf v.toNat 0 2
    if req = 1 ∨ req = 3 ∨ x.state = 1 ∨ x.state = 3 then .error (0x0402, k % Config.segments * 2 ^ 40)
    else if req = 2 then .ok (segPut s k { x with state := 2, dead := bitOf v.toNat 2 })
    else if x.state = 0 then .ok s
    else .ok (segPut s k { x with state := 0, dead := false })

/-- SEGSET: the members in ascending lane order (R190). -/
def execSegset (d a b : VReg) (s : State) :=
  issue (.segset d a b) (fun s x =>
    if x.g.ldCount ≠ 0 ∨ x.g.stCount ≠ 0 then .stall
    else
      let r := x.members.foldl (fun (acc : State × List BadMember) l =>
        match segsetMember acc.1 x.g (bAddr x a b l) (x.g.vget l (x.ext.vnum 18 d)) with
        | .ok t => (t, acc.2)
        | .error c => (acc.1, acc.2 ++ [(l, bAddr x a b l, c)])) (s, [])
      if r.2.isEmpty then .done r.1 else .part r.1 false { accessPark 6 r.2 with segset := true }) s

/-- PREF has no architectural effect (R191). -/
def execPref (a b : VReg) (s : State) := noEffect (.pref a b) s

/-! ## Atomics (R192, R193, R333) -/

/-- The operations of ATOM: the new value, if any, from the old value, the operand and the swap value of a cas. -/
abbrev AtomFn := Nat → Nat → Nat → Option Nat

/-- One member's ATOM: the state after it, and the old value. -/
def atomMember (s : State) (g : Group) (aop size : Nat) (f : AtomFn) (va : DWord) (opnd swap : Nat) : Fitted (State × Nat) :=
  match groupAccess s g (atomAccess size) va with
  | .error (c, d) => .fault (c, if c = 0x0504 then aop else d)
  | .ok p =>
    if segWaits s p || ownOverlap g p.target size then .wait
    else
      let old := ofLe (readPlace s p size)
      match f old opnd swap with
      | none => .ok (s, old)
      | some new =>
        match (if defers s p then .room else logCheck s g p size) with
        | .full die => .fault (logFault die)
        | .wait => .wait
        | .room => match writeAtom s (agentOf g) p (leBytes size new) with
          | some t => .ok (t, old)
          | none => .wait

/-- The members of an ATOM in ascending lane order. -/
def atomFold (g : Group) (aop size : Nat) (f : AtomFn) (addr : Nat → DWord) (opnd swap : Nat → Nat) :
    State → List Nat → State × Members Nat
  | s, [] => (s, [])
  | s, l :: r =>
    match atomMember s g aop size f (addr l) (opnd l) (swap l) with
    | .ok (t, old) => let q := atomFold g aop size f addr opnd swap t r; (q.1, (l, addr l, .ok old) :: q.2)
    | .wait => let q := atomFold g aop size f addr opnd swap s r; (q.1, (l, addr l, .wait) :: q.2)
    | .fault c => let q := atomFold g aop size f addr opnd swap s r; (q.1, (l, addr l, .fault c) :: q.2)

/-- An atomic: its AOP code, its size, its order and its function. -/
def atom (i : Instr) (aop size : Nat) (d a : VReg) (ord : MemOrder) (sc : Scope) (f : AtomFn) (s : State) : Host.Outcome State Fault Refusal :=
  issue i (fun s x =>
    let regs := size / 4
    let r := x.ext.vnum 18 d
    if releaseWaits s x.g ord sc || systemWaits s x.g ord sc || acquireWaits s x.g ord.acquires sc.code.toNat then .stall
    else
      let q := atomFold x.g aop size f (pAddr x a) (fun l => vnat x l r regs) (fun l => vnat x l (r + regs) regs) s x.members
      if anyWaits q.2 then .stall
      else
        let good := goodOf q.2
        if good.isEmpty then endMembers 2 q.2 (s.setGroup (applyZeros i x x.g))
        else if Config.counterMax ≤ x.g.ldCount then .stall
        else
          let ld := plainLoad (good.flatMap fun (l, _, old) => (vout r regs old).map fun (k, w) => (RegDst.v l k, w))
          endMembers 2 q.2 (q.1.modifyGroup x.uid fun g => applyZeros i x { g with loads := g.loads ++ [ld] })) s

/-- A function of ATOM that always writes. -/
def atomOp (f : Nat → Nat → Nat) : AtomFn := fun old d _ => some (f old d)

/-- A compare-and-swap. -/
def atomCas : AtomFn := fun old d new => if old = d then some new else none

/-- ATOM.add.i32 (R192). -/
def execAtomAddI32 (d a : VReg) (ord : MemOrder) (sc : Scope) (s : State) :=
  atom (.atomAddI32 d a ord sc) 0 4 d a ord sc (atomOp fun x y => (x + y) % 2 ^ 32) s
/-- ATOM.min.i32 (R192). -/
def execAtomMinI32 (d a : VReg) (ord : MemOrder) (sc : Scope) (s : State) :=
  atom (.atomMinI32 d a ord sc) 1 4 d a ord sc (atomOp fun x y => if toSigned 32 x ≤ toSigned 32 y then x else y) s
/-- ATOM.max.i32 (R192). -/
def execAtomMaxI32 (d a : VReg) (ord : MemOrder) (sc : Scope) (s : State) :=
  atom (.atomMaxI32 d a ord sc) 2 4 d a ord sc (atomOp fun x y => if toSigned 32 x ≤ toSigned 32 y then y else x) s
/-- ATOM.min.n32 (R192). -/
def execAtomMinN32 (d a : VReg) (ord : MemOrder) (sc : Scope) (s : State) :=
  atom (.atomMinN32 d a ord sc) 3 4 d a ord sc (atomOp min) s
/-- ATOM.max.n32 (R192). -/
def execAtomMaxN32 (d a : VReg) (ord : MemOrder) (sc : Scope) (s : State) :=
  atom (.atomMaxN32 d a ord sc) 4 4 d a ord sc (atomOp max) s
/-- ATOM.and (R192). -/
def execAtomAnd (d a : VReg) (ord : MemOrder) (sc : Scope) (s : State) :=
  atom (.atomAnd d a ord sc) 5 4 d a ord sc (atomOp fun x y => x &&& y) s
/-- ATOM.or (R192). -/
def execAtomOr (d a : VReg) (ord : MemOrder) (sc : Scope) (s : State) :=
  atom (.atomOr d a ord sc) 6 4 d a ord sc (atomOp fun x y => x ||| y) s
/-- ATOM.xor (R192). -/
def execAtomXor (d a : VReg) (ord : MemOrder) (sc : Scope) (s : State) :=
  atom (.atomXor d a ord sc) 7 4 d a ord sc (atomOp fun x y => x ^^^ y) s
/-- ATOM.xchg.i32 (R192). -/
def execAtomXchgI32 (d a : VReg) (ord : MemOrder) (sc : Scope) (s : State) :=
  atom (.atomXchgI32 d a ord sc) 8 4 d a ord sc (atomOp fun _ y => y) s
/-- ATOM.cas.i32 (R192). -/
def execAtomCasI32 (d a : VReg) (ord : MemOrder) (sc : Scope) (s : State) :=
  atom (.atomCasI32 d a ord sc) 9 4 d a ord sc atomCas s
/-- ATOM.add.f32: rounded to nearest even, whatever FPCTL holds, and without a flag (R192). -/
def execAtomAddF32 (d a : VReg) (ord : MemOrder) (sc : Scope) (s : State) :=
  atom (.atomAddF32 d a ord sc) 10 4 d a ord sc (atomOp fun x y => (rnAdd fp32 x y).code) s
/-- ATOM.add.i64 (R192). -/
def execAtomAddI64 (d a : VReg) (ord : MemOrder) (sc : Scope) (s : State) :=
  atom (.atomAddI64 d a ord sc) 16 8 d a ord sc (atomOp fun x y => (x + y) % 2 ^ 64) s
/-- ATOM.xchg.i64 (R192). -/
def execAtomXchgI64 (d a : VReg) (ord : MemOrder) (sc : Scope) (s : State) :=
  atom (.atomXchgI64 d a ord sc) 17 8 d a ord sc (atomOp fun _ y => y) s
/-- ATOM.cas.i64 (R192). -/
def execAtomCasI64 (d a : VReg) (ord : MemOrder) (sc : Scope) (s : State) :=
  atom (.atomCasI64 d a ord sc) 18 8 d a ord sc atomCas s

/-! ## FENCE and WAIT (R194, R196, R206, R208) -/

/-- FENCE: a release fence waits until the group's stores are performed at its scope; loads and ATOMs read as they issue,
so an acquire fence only advances the PC (R194). -/
def execFence (ord : MemOrder) (sc : Scope) (s : State) :=
  issue (.fence ord sc) (fun s x =>
    if releaseWaits s x.g ord sc || systemWaits s x.g ord sc then .stall else .done s) s

/-- Whether a counter stands above its threshold; 15 sets no condition (R196). -/
def aboveThreshold (count : Nat) (n : BitVec 4) : Bool := n.toNat != 15 && decide (n.toNat < count)

/-- WAIT (R196). -/
def execWait (ld st cp mx cl : BitVec 4) (s : State) :=
  issue (.wait ld st cp mx cl) (fun s x =>
    if aboveThreshold x.g.ldCount ld || aboveThreshold x.g.stCount st || aboveThreshold x.g.cpCount cp
        || aboveThreshold x.g.mxCount mx || aboveThreshold x.g.clCount cl then .stall else .done s) s

end Sys2Proof.Machine
end

