-- ==== Sys2Proof/Machine/Engine.lean ====
section
/-! DEFINITION. What the engines share: reading a record at issue, sequence numbers, engine accesses, completion words and
engine arrivals (R173, R243 to R249). -/
namespace Sys2Proof.Machine

/-! ## Issue (R243 to R245) -/

/-- The next sequence number of a class (R245). -/
def nextSeq (n : Nat) : Nat := if (n + 1) % 2 ^ 31 = 0 then 1 else (n + 1) % 2 ^ 31

/-- Whether an operation may be handed to an engine: every earlier access of the group has been performed (R206, R244). -/
def engineReady (s : State) (g : Group) : Bool := g.loads.isEmpty && storesPerformed s g

/-- A load of n bytes of a record, aligned to its own size: never from FITTED or MMIO pages (R244). -/
def recordAccess (n align : Nat) : Access := ⟨0, n, align, true, false, false, [0, 1, 3, 4, 5]⟩

/-- The pair that an engine instruction's SH names. -/
def shAddr (x : Issue) (sh : SReg) : DWord := x.g.spair (x.ext.snum 17 sh.toNat)

/-- The completion address that CS names, if it names one. -/
def csAddr (x : Issue) (cs : SReg) : Option DWord := (x.ext.csnum cs).map x.g.spair

/-- The elected lane of an issue: the lowest of its set (R243). -/
def electedLane (x : Issue) : Nat := x.lanes.headD 0

/-- A field of a record. -/
def recField (w : List DWord) (k lo n : Nat) : Nat := bitsOf (w.getD k 0).toNat lo n

/-- The check of a completion address at issue, as a 4-byte store (R244). -/
def compFault (s : State) (g : Group) (comp : Option DWord) : Option (DWord × CauseDetail) :=
  match comp with
  | none => none
  | some va =>
    match groupAccess s g (storeAccess 4) va with
    | .error c => some (va, c)
    | .ok p =>
      match p.target with
      | .fitted hdr =>
        let h := headerAt s.hbm hdr
        if h.state = 0 then some (va, 0x0305, pageDetail 0 false false 1 2)
        else match storeElems h (va.toNat % 2 ^ 64) [0, 0, 0, 0] with
          | .error c => some (va, c)
          | .ok _ => none
      | _ => none

/-- A fault of an engine instruction that another unit than the core reports. -/
def engineFault (x : Issue) (engine kind : Nat) (va : Option DWord) (c : CauseDetail) : Effect :=
  .fault { cause := c.1, lanes := x.lanes, va := va, kind := kind, detail := c.2, engine := engine, setLevel := true }

/-! ## Accesses of an engine (R173, R175, R222, R224) -/

/-- An engine's read of n bytes. -/
def engRead (n : Nat) : Access := ⟨7, n, n, true, false, false, plainTypes n⟩
/-- An engine's write of n bytes. -/
def engWrite (n : Nat) : Access := ⟨8, n, n, false, true, false, plainTypes n⟩

/-- The checks of an engine's access for a group, judged from the core on which the group stood at issue. -/
def engineAccess (s : State) (g : Group) (core : Nat) (a : Access) (va : DWord) : Except CauseDetail Place :=
  match s.ctx? g.ctx with
  | some c => checkAccess s c core (s.teamOf? g) a va
  | none => .error (0x0301, 0)

/-- The checks of an access that must reach an HBM page of this device: after check 1, the local Pond window is none (R173, R179). -/
def hbmAccess (s : State) (g : Group) (core : Nat) (a : Access) (va : DWord) : Except CauseDetail Place :=
  if windowBase ≤ va.toNat ∧ va.toNat % a.align = 0 then .error (0x0305, pageDetail 0 false true a.kind 0) else engineAccess s g core a va

/-- Where the Pond frame of a SAVED context holds a byte of a Pond: what an engine reads and stores there while the context is saved is the
saved state (R317, R320). -/
def savedPond (s : State) (ctx : Nat) (t : Target) : Option Nat :=
  match s.ctx? ctx, t with
  | some c, .pond core off => if c.state = .saved then some (c.saBase + 0x18000000 + core * 0x120000 + off) else none
  | _, _ => none

/-- The n bytes that an engine reads at a place for a context. -/
def enginePlace (s : State) (ctx : Nat) (p : Place) (n : Nat) : List Byte :=
  match savedPond s ctx p.target with
  | some pa => s.hbm.read pa n
  | none => readPlace s p n

/-- Where the Pond frame of a SAVED context holds the descriptor of a Pond line (R317). -/
def savedDesc (s : State) (ctx : Nat) (t : Target) : Option Nat :=
  match s.ctx? ctx, t with
  | some c, .pond core off => if c.state = .saved then some (c.saBase + 0x18100000 + core * 0x120000 + off / 64 * 4) else none
  | _, _ => none

/-- The descriptor of a line that an engine reads for a context. -/
def engineDesc (s : State) (ctx : Nat) (p : Place) : Word :=
  match savedDesc s ctx p.target with
  | some pa => BitVec.ofNat 32 (s.hbm.readNat pa 4)
  | none => (readDesc s p).1

/-- Writes a line and its descriptor for a context; none while it waits for room in a log. -/
def engineLine (s : State) (ag : Agent) (p : Place) (data : List Byte) (d : Word) : Option State :=
  match savedPond s ag.ctx p.target, savedDesc s ag.ctx p.target with
  | some pa, some da => some { s with hbm := (s.hbm.write pa data).write da (leBytes 4 (descStored d).toNat) }
  | _, _ => (writePlace s ag p data).bind fun t => writeDesc t ag p d

/-- What an engine reads at an address. -/
def engineRead (s : State) (g : Group) (core n : Nat) (va : DWord) : Fitted (List Byte) :=
  match engineAccess s g core (engRead n) va with
  | .error c => .fault c
  | .ok p =>
    match p.target with
    | .fitted hdr => fittedLoad s hdr va.toNat n 7
    | _ => .ok (enginePlace s g.ctx p n)

/-- The issue number of the elements that an agent's engine operation stores into regions. -/
def Agent.issue (ag : Agent) : Nat := engineIssue + ((ag.op.map (·.2)).getD 0)

/-- An engine's store at a place (R224, R332); one that makes a region's table overflow is held while the region is demoted (R231). -/
def engineStore (s : State) (ag : Agent) (p : Place) (va : DWord) (data : List Byte) : Fitted State :=
  match p.target with
  | .fitted hdr =>
    let h := headerAt s.hbm hdr
    if h.state = 1 ∨ h.state = 3 ∨ regionHolds s hdr = true then .wait
    else match fittedStoreCheck s hdr va.toNat data with
      | .error c => .fault c
      | .ok l => if fittedRoom s hdr l && fittedQueue s hdr p then .ok (noteFitted (applyFitted s hdr ag ag.issue l) ag hdr p data) else .wait
  | _ =>
    match savedPond s ag.ctx p.target with
    | some pa => .ok { s with hbm := s.hbm.write pa data }
    | none => (match writePlace s ag p data with
      | some t => .ok t
      | none => .wait)

/-- Checks and performs an engine's store for a group. -/
def engineWrite (s : State) (g : Group) (ag : Agent) (core : Nat) (va : DWord) (data : List Byte) : Fitted State :=
  match engineAccess s g core (engWrite data.length) va with
  | .error c => .fault c
  | .ok p => engineStore s ag p va data

/-! ## Completion (R246 to R248) -/

/-- A record that names a group and the elected lane of one of its operations. -/
def opRecord (g : Group) (engine cause sev kind lane : Nat) (va : Option Nat) (detail : Nat) : RecordArgs :=
  { team := g.team, ctx := g.ctx, engine := engine, cause := cause, slot := g.slot, core := g.core, lanes := 2 ^ lane, va := va,
    sev := sev, kind := kind, detail := detail }

/-- The completion word of an operation (R247). -/
def completionWord (seq : Nat) (bad : Bool) : Nat := seq % 2 ^ 31 + flagAt bad 31

/-- Whether the completion of an operation at its release scope stands behind its writes: at SYSTEM they include those that are deferred
until a commit (R207, R208). -/
def scopeWaits (s : State) (ag : Agent) (scope : Nat) : Bool :=
  scope == 4 && s.deferred.any fun d => d.group == ag.group && ag.op.isSome && d.op == ag.op

/-- The completion store: where it faults it is dropped with a record; none while it waits for room in a log (R247, R332). -/
def completionStore (s : State) (g : Group) (ag : Agent) (core engine lane seq : Nat) (bad : Bool) (comp : Option DWord) : Option State :=
  match comp with
  | none => some s
  | some va =>
    match engineWrite s g ag core va (leBytes 4 (completionWord seq bad)) with
    | .ok t => some t
    | .wait => none
    | .fault (c, d) => some (emitRecord s (opRecord g engine c 3 8 lane (some va.toNat) d))

/-- Registers an engine arrival on a team barrier in its present phase (R248). -/
def registerArrival (s : State) (g : Group) (bar : Option Nat) : State :=
  match bar with
  | none => s
  | some b => modifyBarrier s 1 b g fun x => { x with engines := x.engines + 1 }

/-- Makes an engine arrival, which may complete the phase (R159, R248). -/
def engineArrival (s : State) (g : Group) (bar : Option Nat) (bad : Bool) : State :=
  match bar with
  | none => s
  | some b =>
    let parts := participants s 1 g
    modifyBarrier s 1 b g fun x => completePhase parts { x with engines := x.engines - 1, err := x.err || bad }

/-- Whether a group's engine operations may make progress: its context is not stopped or saved (R318, R320); those of a
context that has ended complete. -/
def enginesRun (s : State) (g : Group) : Bool :=
  match s.ctx? g.ctx with
  | some c => c.state == .running || c.state == .ended
  | none => false

/-- The COUNTS word of a group's frame (R314). -/
def countsWord (g : Group) : Nat :=
  g.frCount * 2 ^ 40 + g.clCount * 2 ^ 32 + g.mxCount * 2 ^ 24 + g.cpCount * 2 ^ 16 + g.stCount * 2 ^ 8 + g.ldCount

/-- The counters of a saved group stand in its frame, which a completion of an FR or CL operation updates (R320). -/
def refreshCounts (s : State) (uid : Nat) : State :=
  match s.group? uid with
  | none => s
  | some g =>
    match s.ctx? g.ctx with
    | some c =>
      if c.state = .saved then
        { s with hbm := s.hbm.write (c.saBase + (16 * g.core + g.slot) * 0x20000 + 16) (leBytes 8 (countsWord g)) }
      else s
    | none => s

end Sys2Proof.Machine
end

