-- ==== Sys2Proof/Machine/Copy.lean ====
section
/-! DEFINITION. The copy engine: shape records, segment states, the operations CPY, CPYT, CVTC, QNT, RMAT and CPFILL, their
completion, and CPST and CPCAN (R244 to R260). -/
namespace Sys2Proof.Machine

/-! ## Shape records (R250, R251) -/

/-- The operations of the copy engine. -/
inductive CopyKind where
  | cpy | cpyt | cvtc | qnt | rmat | cpfill
  deriving DecidableEq, Repr

/-- The code of an operation in CopyOp.op. -/
def CopyKind.code : CopyKind → Nat
  | .cpy => 0 | .cpyt => 1 | .cvtc => 2 | .qnt => 3 | .rmat => 4 | .cpfill => 5

/-- A shape record. -/
abbrev Shape := List DWord

namespace Shape
/-- SRCVA. -/
def srcva (w : Shape) : Nat := recField w 0 0 64
/-- DSTVA. -/
def dstva (w : Shape) : Nat := recField w 1 0 64
/-- SSTR1. -/
def sstr1 (w : Shape) : Int := toSigned 32 (recField w 2 0 32)
/-- SSTR2. -/
def sstr2 (w : Shape) : Int := toSigned 32 (recField w 2 32 32)
/-- DSTR1. -/
def dstr1 (w : Shape) : Int := toSigned 32 (recField w 3 0 32)
/-- DSTR2. -/
def dstr2 (w : Shape) : Int := toSigned 32 (recField w 3 32 32)
/-- Planes. -/
def np (w : Shape) : Nat := recField w 4 48 16 + 1
/-- Source rows. -/
def sn1 (w : Shape) : Nat := recField w 4 32 16 + 1
/-- Source elements of a row. -/
def sn0 (w : Shape) : Nat := recField w 4 16 16 + 1
/-- Destination rows. -/
def dn1 (w : Shape) : Nat := recField w 5 32 16 + 1
/-- Destination elements of a row. -/
def dn0 (w : Shape) : Nat := recField w 5 16 16 + 1
/-- SSCALE. -/
def sscale (w : Shape) : Nat := recField w 5 8 8
/-- SSPECIAL. -/
def sspecial (w : Shape) : Nat := recField w 5 0 8
/-- RSCOPE. -/
def rscope (w : Shape) : Nat := recField w 6 58 3
/-- The team barrier, if BARV arms one. -/
def bar (w : Shape) : Option Nat := if recField w 6 57 1 = 1 then some (recField w 6 53 4) else none
/-- SEG: 0 NONE, 1 FILL, 2 DRAIN, 3 BOTH. -/
def seg (w : Shape) : Nat := recField w 6 51 2
/-- DMODE: 0 KEEP, 1 COPY, 2 SET. -/
def dmode (w : Shape) : Nat := recField w 6 49 2
/-- ZF. -/
def zf (w : Shape) : Bool := recField w 6 48 1 == 1
/-- SAT. -/
def sat (w : Shape) : Bool := recField w 6 47 1 == 1
/-- RM. -/
def rm (w : Shape) : Mode := ⟨recField w 6 44 3, 0⟩
/-- EW in bits. -/
def ewBits (w : Shape) : Nat := 8 * 2 ^ recField w 6 41 3
/-- DSPECIAL. -/
def dspecial (w : Shape) : Nat := recField w 6 24 8
/-- DSCALE. -/
def dscale (w : Shape) : Nat := recField w 6 16 8
/-- DFMT. -/
def dfmt (w : Shape) : Nat := recField w 6 8 8
/-- SFMT. -/
def sfmt (w : Shape) : Nat := recField w 6 0 8
/-- FILLV. -/
def fillv (w : Shape) : Nat := recField w 7 0 64
/-- The number of destination elements. -/
def count (w : Shape) : Nat := w.np * w.dn1 * w.dn0
end Shape

/-- The first reserved or illegal field of a shape record, as its word and low bit. -/
def shapeField (w : Shape) : Option (Nat × Nat) :=
  if recField w 4 0 16 ≠ 0 then some (4, 0)
  else if recField w 5 48 16 ≠ 0 then some (5, 48)
  else if recField w 6 32 9 ≠ 0 then some (6, 32)
  else if 4 ≤ recField w 6 41 3 then some (6, 41)
  else if 5 ≤ recField w 6 44 3 then some (6, 44)
  else if w.dmode = 3 then some (6, 49)
  else if 5 ≤ w.rscope then some (6, 58)
  else if recField w 6 61 3 ≠ 0 then some (6, 61)
  else none

/-- Whether every line of CPY with DMODE COPY stands whole (R256). -/
def wholeLines (w : Shape) : Bool :=
  w.srcva % 64 == 0 && w.dstva % 64 == 0 && w.sstr1 % 64 == 0 && w.dstr1 % 64 == 0
  && w.sn0 * w.ewBits % 512 == 0 && w.dn0 * w.ewBits % 512 == 0

/-- The first format rule that a shape record breaks for an operation (R255 to R257). -/
def shapeFormat (k : CopyKind) (w : Shape) : Option (Nat × Nat) :=
  match k with
  | .cpy => if 0x11 ≤ w.dfmt then some (6, 8) else if w.dmode = 1 ∧ ¬ wholeLines w then some (6, 49) else none
  | .cpyt | .cpfill => if 0x11 ≤ w.dfmt then some (6, 8) else if w.dmode = 1 then some (6, 49) else none
  | .cvtc => if 0x11 ≤ w.sfmt then some (6, 0) else if w.dfmt = 0 ∨ 0x11 ≤ w.dfmt then some (6, 8) else none
  | .qnt =>
    if ¬ [0, 2, 3, 4].contains w.sfmt then some (6, 0) else if ¬ scaledFmt w.dfmt then some (6, 8)
    else if w.dstva % 64 ≠ 0 then some (1, 0) else if w.dstr1 % 64 ≠ 0 then some (3, 0) else none
  | .rmat => none

/-- Whether the destination covers the source. -/
def shapeExtent (k : CopyKind) (w : Shape) : Option (Nat × Nat) :=
  let s0 := if k = .cpyt then w.sn1 else w.sn0
  let s1 := if k = .cpyt then w.sn0 else w.sn1
  if k = .cpfill then none
  else if w.dn0 < s0 then some (5, 16) else if w.dn1 < s1 then some (5, 32) else none

/-- Bytes that an element's address must be a multiple of: an element below a byte needs none. -/
def alignBytes (bits : Nat) : Nat := max 1 (bits / 8)

/-- The alignment rules of a source with elements of a width. -/
def srcAligned (w : Shape) (bits : Nat) : Option (Nat × Nat) :=
  if w.srcva % alignBytes bits ≠ 0 then some (0, 0)
  else if w.sstr1 % alignBytes bits ≠ 0 then some (2, 0)
  else if w.sstr2 % alignBytes bits ≠ 0 then some (2, 32) else none

/-- The alignment rules of a destination with elements of a width. -/
def dstAligned (w : Shape) (bits : Nat) : Option (Nat × Nat) :=
  if w.dstva % alignBytes bits ≠ 0 then some (1, 0)
  else if w.dstr1 % alignBytes bits ≠ 0 then some (3, 0)
  else if w.dstr2 % alignBytes bits ≠ 0 then some (3, 32)
  else if w.dn0 * bits % 8 ≠ 0 then some (5, 16) else none

/-- Bits of a source element that the record itself fixes. -/
def srcBitsOf (k : CopyKind) (w : Shape) : Option Nat :=
  match k with
  | .cpy | .cpyt => some w.ewBits
  | .cvtc | .qnt => if w.sfmt = 0 then none else some (elemBits w.sfmt)
  | .rmat | .cpfill => none

/-- Bits of a destination element; a fitted region's own where it is materialised. -/
def dstBitsOf (k : CopyKind) (w : Shape) : Nat :=
  match k with
  | .cpy | .cpyt | .cpfill => w.ewBits
  | .cvtc | .qnt | .rmat => elemBits w.dfmt

/-- The first rule of R251 that the words of a record break, without translation. -/
def shapeBad (k : CopyKind) (w : Shape) : Option (Nat × Nat) :=
  shapeField w
  <|> shapeFormat k w
  <|> shapeExtent k w
  <|> (if 2 ^ 32 ≤ w.count then some (4, 48) else none)
  <|> (match srcBitsOf k w with
      | some b => srcAligned w b
      | none => none)
  <|> (if k = .rmat then none else dstAligned w (dstBitsOf k w))
  <|> (if w.bar.isSome && w.rscope == 0 then some (6, 58) else none)
  <|> (if k = .cpfill && decide (2 ≤ w.seg) then some (6, 51) else none)

/-- The detail of 0x0602 for a shape record (R251). -/
def shapeDetail (f : Nat × Nat) : Nat := f.1 * 2 ^ 45 + f.2 * 2 ^ 39

/-! ## Addresses (R252) -/

/-- One coordinate of R244. -/
def coordAt (co : List Word) (k : Nat) : Int := toSigned 32 (co.getD k 0).toNat

/-- The bit address of a source element, addresses modulo 2^64. -/
def srcBit (w : Shape) (co : List Word) (bits i0 i1 i2 : Nat) : Nat :=
  wrapTo 67 (8 * (w.srcva + (coordAt co 1 + i1) * w.sstr1 + i2 * w.sstr2) + (coordAt co 0 + i0) * bits)

/-- The bit address of a destination element. -/
def dstBit (w : Shape) (co : List Word) (bits j0 j1 i2 : Nat) : Nat :=
  wrapTo 67 (8 * (w.dstva + (coordAt co 3 + j1) * w.dstr1 + i2 * w.dstr2) + (coordAt co 2 + j0) * bits)

/-- The destination indices of an element index. -/
def indicesOf (w : Shape) (k : Nat) : Nat × Nat × Nat := (k % w.dn0, k / w.dn0 % w.dn1, k / w.dn0 / w.dn1)

/-- The source indices of a destination element, if it has a source. -/
def sourceOf (op : Nat) (w : Shape) (j : Nat × Nat × Nat) : Option (Nat × Nat × Nat) :=
  let i := if op = 1 then (j.2.1, j.1, j.2.2) else j
  if i.1 < w.sn0 ∧ i.2.1 < w.sn1 then some i else none

/-- The byte address of a bit address. -/
def byteOf (bit : Nat) : DWord := BitVec.ofNat 64 (bit / 8)

/-! ## Ranges and segments (R254) -/

/-- The lowest and highest values of a linear form over an index below n. -/
def spanOf (step : Int) (n : Nat) : Int × Int :=
  let last : Int := step * ((n : Int) - 1)
  if last < 0 then (last, 0) else (0, last)

/-- The lowest byte and the number of bytes of the elements of an operand. -/
def rangeOf (base str1 str2 c0 c1 : Int) (bits n0 n1 n2 : Nat) : Int × Nat :=
  let a := spanOf str1 n1
  let b := spanOf str2 n2
  let lo : Int := 8 * (base + c1 * str1 + a.1 + b.1) + c0 * bits
  let hi : Int := 8 * (base + c1 * str1 + a.2 + b.2) + (c0 + n0) * bits
  (lo / 8, ((hi + 7) / 8 - lo / 8).toNat)

/-- The source range. -/
def srcRange (w : Shape) (co : List Word) (bits : Nat) : Int × Nat :=
  rangeOf w.srcva w.sstr1 w.sstr2 (coordAt co 0) (coordAt co 1) bits w.sn0 w.sn1 w.np

/-- The elements of a row and the rows that an operation writes: without zero fill, those that have a source (R255). -/
def writtenExtent (k : CopyKind) (w : Shape) : Nat × Nat :=
  if k = .cpfill || w.zf then (w.dn0, w.dn1) else if k = .cpyt then (w.sn1, w.sn0) else (w.sn0, w.sn1)

/-- The destination range. -/
def dstRange (k : CopyKind) (w : Shape) (co : List Word) (bits : Nat) : Int × Nat :=
  rangeOf w.dstva w.dstr1 w.dstr2 (coordAt co 2) (coordAt co 3) bits (writtenExtent k w).1 (writtenExtent k w).2 w.np

/-- One address in each 4 KiB block that a range touches, in ascending order. -/
def blocksOf (r : Int × Nat) : List DWord :=
  if r.2 = 0 then []
  else
    let first : Int := r.1 / 4096
    let last : Int := (r.1 + r.2 - 1) / 4096
    (List.range (last - first + 1).toNat).map fun (k : Nat) => BitVec.ofNat 64 (wrapTo 64 (if k = 0 then r.1 else (first + k) * 4096))

/-- The checks of R173 for a range, one byte in each block: the places reached, or the first fault. -/
def placesOf (s : State) (g : Group) (a : Access) : List DWord → Except (DWord × CauseDetail) (List Place)
  | [] => .ok []
  | va :: r =>
    match groupAccess s g a va with
    | .error c => .error (va, c)
    | .ok p => (placesOf s g a r).map (p :: ·)

/-- An engine's access of one byte for the range of a copy, of the types that its elements may reach (R172). -/
def copyRange (write : Bool) (bits : Nat) : Access := ⟨if write then 8 else 7, 1, 1, !write, write, false, plainTypes (alignBytes bits)⟩

/-- An engine's access of one byte, of any type but MMIO. -/
def rangeAccess (write : Bool) : Access := ⟨if write then 8 else 7, 1, 1, !write, write, false, [0, 1, 2, 3, 4, 5]⟩

/-- The places of the blocks of a range that can be reached. -/
def reachable (s : State) (g : Group) (a : Access) (l : List DWord) : List Place :=
  l.filterMap fun va => match groupAccess s g a va with
    | .ok p => some p
    | .error _ => none

/-- The segments of a list of places. -/
def segsOf (l : List Place) : List Nat :=
  l.foldl (fun acc p => match segOf p.target with
    | some k => if acc.contains k then acc else acc ++ [k]
    | none => acc) []

/-- The first segment of a list that is not in a state. -/
def segWrong (s : State) (l : List Nat) (st : BitVec 2) : Option Nat := l.find? fun k => (segAt s k).state != st

/-- Sets the state of the segments of a list; DEAD is cleared where asked, and a segment whose allocation has ended is left. -/
def setSegs (s : State) (l : List Nat) (st : BitVec 2) (undead : Bool) : State :=
  l.foldl (fun s k =>
    let x := segAt s k
    if x.team = 0 then s else segPut s k { x with state := st, dead := x.dead && !undead }) s

/-! ## Issue (R244) -/

/-- The fault of an issue, with the unit that reports it, or a wait for the record's segment. -/
inductive IssueStop where
  | wait
  | fault (engine kind : Nat) (va : Option DWord) (c : CauseDetail)

/-- What an issue has found out: the words, the coordinates and the segments that change state. -/
structure CopyPlan where
  words : List DWord
  fill  : List Nat
  drain : List Nat

/-- The rules of RMAT that need its region (R251, R255), as a failing field. -/
def rmatBad (s : State) (w : Shape) (src dst : List Place) : Option (Nat × Nat) :=
  match src.head?.map (fun (p : Place) => p.target) with
  | some (Target.fitted hdr) =>
    let f := (headerAt s.hbm hdr).elemFmt
    if src.any fun p => (match p.target with | .fitted h => h != hdr | _ => true) then some (0, 0)
    else if dst.any fun p => (match p.target with | .fitted _ => true | _ => false) then some (1, 0)
    else if w.sfmt ≠ 0 ∧ w.sfmt ≠ f then some (6, 0)
    else if w.dfmt ≠ f then some (6, 8)
    else srcAligned w (elemBits f) <|> dstAligned w (elemBits f)
  | _ => some (0, 0)

/-- Whether every place is in Pond. -/
def allPond (l : List Place) : Bool := l.all fun p => (segOf p.target).isSome

/-- The segment checks of an issue (R254). Of several segments in a wrong state 0x0402 names the first of the source, and else of the
destination, in the order of the addresses, which R254 leaves open (DESIGN CHOICE, log entry 114). -/
def planSegs (s : State) (w : Shape) (src dst : List Place) : Except IssueStop CopyPlan :=
  let fills : Bool := w.seg % 2 == 1
  let drains : Bool := decide (2 ≤ w.seg)
  let ss := segsOf src
  let ds := segsOf dst
  if (fills && !allPond dst) || (drains && !allPond src) then .error (.fault 1 0 none (0x0602, shapeDetail (6, 51)))
  else match segWrong s ss 2, segWrong s ds (if fills then 0 else 2) with
    | some k, _ => .error (.fault 1 0 none (0x0402, k % Config.segments * 2 ^ 40))
    | none, some k => .error (.fault 1 0 none (0x0402, k % Config.segments * 2 ^ 40))
    | none, none => .ok { words := w, fill := if fills then ds else [], drain := if drains then ss else [] }

/-- The format code of the line that holds an address, as the descriptor gives it (R88, R91); a cause where it is not reached. -/
def lineCode (s : State) (access : Access → DWord → Except CauseDetail Place) (va : DWord) : Except CauseDetail Nat :=
  (access (engRead 1) va).map fun p => match p.target with
    | .fitted hdr => 0x7F00 + (headerAt s.hbm hdr).elemFmt
    | _ => (readDesc s p).1.toNat

/-- Bits of a source element under SFMT 0x00: the first line read fixes them (R255), which is the line of element (0, 0, 0) at the
width of its own format. -/
def firstBits (s : State) (access : Access → DWord → Except CauseDetail Place) (w : Shape) (co : List Word) : Option Nat :=
  [64, 32, 16, 8, 4, 1].find? fun b => match lineCode s access (byteOf (srcBit w co b 0 0 0)) with
    | .ok d => decide (0 < d % 256) && decide (d % 256 < 0x11) && elemBits (d % 256) == b
    | .error _ => false

/-- The translation of the ranges and the checks that rest on it. -/
def planRanges (s : State) (g : Group) (k : CopyKind) (w : Shape) (co : List Word) : Except IssueStop CopyPlan :=
  let sb := (srcBitsOf k w).getD (if k = .rmat then elemBits w.dfmt else (firstBits s (groupAccess s g) w co).getD 8)
  let src := if k = .cpfill then [] else blocksOf (srcRange w co sb)
  let dst := blocksOf (dstRange k w co (dstBitsOf k w))
  if w.seg ≠ 0 ∨ k = .rmat then
    match placesOf s g (copyRange false sb) src with
    | .error (va, c) => .error (.fault 0 7 (some va) c)
    | .ok ps =>
      match placesOf s g (copyRange true (dstBitsOf k w)) dst with
      | .error (va, c) => .error (.fault 0 8 (some va) c)
      | .ok pd =>
        match (if k = .rmat then rmatBad s w ps pd else none) with
        | some f => .error (.fault 1 0 none (0x0602, shapeDetail f))
        | none => planSegs s w ps pd
  else planSegs s w (reachable s g (copyRange false sb) src) (reachable s g (copyRange true (dstBitsOf k w)) dst)

/-- Every check of an issue (R244). A 0x0602 that rests on translation stands behind the faults of the completion address and of the ranges,
which R244 does not order (DESIGN CHOICE, log entry 49). -/
def planCopy (s : State) (x : Issue) (k : CopyKind) (va : DWord) (co : List Word) (comp : Option DWord) : Except IssueStop CopyPlan :=
  match loadMember s x.g (recordAccess 64 64) va with
  | .wait => .error .wait
  | .fault c => .error (.fault 0 0 (some va) c)
  | .ok b =>
    let w := dwordsOf 8 b
    match shapeBad k w with
    | some f => .error (.fault 1 0 none (0x0602, shapeDetail f))
    | none =>
      match compFault s x.g comp with
      | some (ca, c) => .error (.fault 0 1 (some ca) c)
      | none => planRanges s x.g k w co

/-- The operation of an issue. -/
def newCopy (x : Issue) (k : CopyKind) (co : List Word) (comp : Option DWord) (p : CopyPlan) : CopyOp :=
  { seq := nextSeq x.g.cpSeq, op := k.code, words := p.words, coords := co, lane := electedLane x, core := x.g.core, comp := comp,
    fill := p.fill, drain := p.drain, bar := Shape.bar p.words, next := 0, halted := none, done := none, offend := none, satd := [],
    width := 0, gen := 0 }

/-- Issues a copy-engine operation (R244). -/
def copyIssue (i : Instr) (k : CopyKind) (sh co cs : SReg) (s : State) : Host.Outcome State Fault Refusal :=
  issue i (fun s x =>
    let va := shAddr x sh
    let c0 := x.ext.snum 9 co.toNat
    let coords := (List.range 4).map fun n => x.g.sregGet (c0 + n)
    let comp := csAddr x cs
    if !engineReady s x.g || decide (Config.counterMax ≤ x.g.cpCount) then .stall
    else match planCopy s x k va coords comp with
      | .error .wait => .stall
      | .error (.fault e kind fva c) => engineFault x e kind fva c
      | .ok p =>
        let op := newCopy x k coords comp p
        let s1 := setSegs (setSegs s p.drain 3 false) p.fill 1 true
        let s2 := registerArrival s1 x.g op.bar
        .done (s2.modifyGroup x.uid fun g => { g with copies := g.copies ++ [op], cpSeq := op.seq })) s

/-- CPY (R255). -/
def execCpy (sh co cs : SReg) (s : State) := copyIssue (.cpy sh co cs) .cpy sh co cs s
/-- CPYT (R255). -/
def execCpyt (sh co cs : SReg) (s : State) := copyIssue (.cpyt sh co cs) .cpyt sh co cs s
/-- CVTC (R255). -/
def execCvtc (sh co cs : SReg) (s : State) := copyIssue (.cvtc sh co cs) .cvtc sh co cs s
/-- QNT (R255, R257). -/
def execQnt (sh co cs : SReg) (s : State) := copyIssue (.qnt sh co cs) .qnt sh co cs s
/-- RMAT (R255). -/
def execRmat (sh co cs : SReg) (s : State) := copyIssue (.rmat sh co cs) .rmat sh co cs s
/-- CPFILL (R255). -/
def execCpfill (sh co cs : SReg) (s : State) := copyIssue (.cpfill sh co cs) .cpfill sh co cs s

/-! ## Running an operation (R253 to R257) -/

/-- Why an operation stops before its last element: it waits, or an access or a source line faults at an address. -/
inductive CopyStop where
  | wait
  | fault (va : DWord) (kind : Nat) (c : CauseDetail)

/-- The format, scale and special byte of the line that holds a source element, or the cause that R255 raises. -/
def lineFormat (s : State) (g : Group) (op : CopyOp) (va : DWord) : Except CopyStop (Nat × Nat × Nat) :=
  let w : Shape := op.words
  if w.sfmt ≠ 0 then .ok (w.sfmt, w.sscale, w.sspecial)
  else match lineCode s (engineAccess s g op.core) va with
    | .error c => .error (.fault va 7 c)
    | .ok d =>
      let f := d % 256
      if f = 0 ∨ 0x11 ≤ f then .error (.fault va 0 (0x0201, 0))
      else if op.width ≠ 0 ∧ elemBits f ≠ op.width then .error (.fault va 0 (0x0202, 0))
      else .ok (f, bitsOf d 8 8, bitsOf d 16 8)

/-- Reads the code of one source element. -/
def readElem (s : State) (g : Group) (op : CopyOp) (bits bit : Nat) : Except CopyStop Nat :=
  match engineRead s g op.core (alignBytes bits) (byteOf bit) with
  | .ok b => .ok (ofLe b / 2 ^ (bit % 8) % 2 ^ bits)
  | .wait => .error .wait
  | .fault c => .error (.fault (byteOf bit) 7 c)

/-- The exact value of one source element of CVTC or QNT. -/
def readValue (s : State) (g : Group) (op : CopyOp) (i : Nat × Nat × Nat) : Except CopyStop FVal := do
  let bits := op.width
  let bit := srcBit op.words op.coords bits i.1 i.2.1 i.2.2
  let v ← readElem s g op bits bit
  let (f, sc, sp) ← lineFormat s g op (byteOf bit)
  .ok (decodeScaled f sc sp v)

/-- The least e with m <= max * 2^e, for a finite value greater than zero (R257). -/
def scaleExp (f : FloatFmt) (x : Exact) : Int :=
  let mx := f.maxExact false
  let e : Int := (lenOf x.m : Int) + x.e - ((lenOf mx.m : Int) + mx.e)
  if cmpMag x.m (x.e - e) mx.m mx.e == .gt then e + 1 else e

/-- The larger magnitude of two exact values. -/
def maxMag (x y : Exact) : Exact := if cmpMag x.m x.e y.m y.e == .lt then y else x

/-- s_line of R257 from the values of a line. -/
def lineScale (dfmt : Nat) (l : List FVal) : Nat :=
  let amax := l.foldl (fun a v => match v with
    | .fin x => maxMag a x
    | _ => a) (Exact.zero false)
  match floatFmt? dfmt with
  | some f => if amax.m = 0 then 127 else (min (max (127 + scaleExp f amax) 0) 254).toNat
  | none => 127

/-- The values of a list of source elements, or the first that cannot be read. -/
def readValues (s : State) (g : Group) (op : CopyOp) (l : List (Nat × Nat × Nat)) : Except CopyStop (List FVal) := l.mapM (readValue s g op)

/-- The source elements that QNT writes into the destination line of an element: those of its row, so that of the rows of two planes that share
a line the last one written gives its descriptor (DESIGN CHOICE, log entry 121). -/
def lineSources (op : CopyOp) (j : Nat × Nat × Nat) : List (Nat × Nat × Nat) :=
  let w : Shape := op.words
  let b := elemBits w.dfmt
  let pos := dstBit w op.coords b j.1 j.2.1 j.2.2 % 512 / b
  let first := j.1 - min j.1 pos
  let room := 512 / b - (pos - (j.1 - first))
  (List.range (min room (w.dn0 - first))).filterMap fun n => sourceOf op.op w (first + n, j.2.1, j.2.2)

/-- What the engine writes at one element: its code, whether it offends or is saturated (R255), its line's descriptor without
SATD, if the operation writes one, and the bytes of source it reads. -/
structure ElemOut where
  code  : Nat
  offends : Bool
  satd  : Bool
  desc  : Option Nat

/-- Whether an element's encoding offends, and whether it was saturated (R255). -/
def convertOut (fmt scale : Nat) (w : Shape) (v : FVal) : ElemOut :=
  let c := encodeScaled fmt scale w.rm w.sat v
  let ovf := (c.flags &&& flagOF) != 0
  let nv := (c.flags &&& flagNV) != 0
  let clipped := ovf || (v.isFin && nv && (floatFmt? fmt).isNone)
  { code := c.code, offends := nv || (ovf && !w.sat),
    satd := (w.sat && clipped) || (!v.isFin && (decodeElem fmt c.code).isFin), desc := none }

/-- The descriptor of R256 for a converted line, without SATD. -/
def convDesc (fmt scale special : Nat) : Nat := fmt + (if scaledFmt fmt then scale else 0x7F) * 256 + special * 65536

/-- The descriptor that CPY, CPYT and CPFILL write (R256). -/
def copyDesc (w : Shape) (src : Option Nat) : Option Nat :=
  if w.dmode = 2 then some (convDesc w.dfmt w.dscale w.dspecial) else if w.dmode = 1 then src else none

/-- The all-zero element of an operation outside its source: its descriptor is that of its line. Under DMODE COPY it carries none, so that a line
wholly filled with zeros keeps the descriptor it has (DESIGN CHOICE, log entry 121). -/
def zeroElem (op : CopyOp) (scale : Nat) : ElemOut :=
  let w : Shape := op.words
  { code := 0, offends := false, satd := false,
    desc := match op.op with
      | 2 => some (convDesc w.dfmt w.dscale w.dspecial)
      | 3 => some (convDesc w.dfmt scale 0)
      | 4 => some (convDesc w.dfmt 0x7F 0)
      | _ => copyDesc w none }

/-- The descriptor of the source line of CPY, where DMODE COPY carries it. -/
def srcDesc (s : State) (g : Group) (op : CopyOp) (va : DWord) : Option Nat :=
  match engineAccess s g op.core (engRead 1) va with
  | .ok p => (match p.target with
    | .fitted hdr => some (0x7F00 + (headerAt s.hbm hdr).elemFmt)
    | _ => some (readDesc s p).1.toNat)
  | .error _ => none

/-- The element of an operation that takes a source element (R255 to R257). Under DMODE COPY it brings the descriptor of its own source line: of
several that fall into one destination line the highest element's stands (DESIGN CHOICE, log entry 121). -/
def sourceElem (s : State) (g : Group) (op : CopyOp) (j i : Nat × Nat × Nat) : Except CopyStop ElemOut :=
  let w : Shape := op.words
  match op.op with
  | 2 => (readValue s g op i).map fun v => { convertOut w.dfmt w.dscale w v with desc := some (convDesc w.dfmt w.dscale w.dspecial) }
  | 3 => do
    let v ← readValue s g op i
    let sc := lineScale w.dfmt (← readValues s g op (lineSources op j))
    .ok { convertOut w.dfmt sc w v with desc := some (convDesc w.dfmt sc 0) }
  | n =>
    let bits := op.width
    let bit := srcBit w op.coords bits i.1 i.2.1 i.2.2
    (readElem s g op bits bit).map fun v =>
      { code := v, offends := false, satd := false
        desc := if n = 4 then some (convDesc w.dfmt 0x7F 0) else copyDesc w (srcDesc s g op (byteOf bit)) }

/-- The element at an index, or none where nothing is written there. -/
def elemAt (s : State) (g : Group) (op : CopyOp) (k : Nat) : Except CopyStop (Option ElemOut) :=
  let w : Shape := op.words
  let j := indicesOf w k
  if op.op = 5 then .ok (some { code := w.fillv % 2 ^ w.ewBits, offends := false, satd := false, desc := copyDesc w none })
  else match sourceOf op.op w j with
    | some i => (sourceElem s g op j i).map some
    | none =>
      if !w.zf then .ok none
      else if op.op = 3 then (readValues s g op (lineSources op j)).map fun l => some (zeroElem op (lineScale w.dfmt l))
      else .ok (some (zeroElem op 0))

/-- The places of the bytes that an operation reads, each as its space and address (R253). -/
def sourceBytes (s : State) (g : Group) (op : CopyOp) : List (Nat × Nat × Nat) :=
  let w : Shape := op.words
  if op.op = 5 then []
  else (List.range (w.np * w.sn1 * w.sn0)).filterMap fun k =>
    let n := alignBytes op.width
    match engineAccess s g op.core (engRead n) (byteOf (srcBit w op.coords op.width (k % w.sn0) (k / w.sn0 % w.sn1) (k / w.sn0 / w.sn1))) with
    | .ok p => some ((spaceOf p.target).1, (spaceOf p.target).2, n)
    | .error _ => none

/-- Whether a byte is among those that the operation reads. -/
def isSource (l : List (Nat × Nat × Nat)) (sp : Nat × Nat) : Bool :=
  l.any fun (c, a, n) => c == sp.1 && decide (a ≤ sp.2) && decide (sp.2 < a + n)

/-- The bytes that an element writes; a byte that is also read by the operation takes a value that is not specified (R253). -/
def elemBytes (s : State) (src : List (Nat × Nat × Nat)) (p : Place) (data : List Byte) : List Byte :=
  let sp := spaceOf p.target
  data.zipIdx.map fun (b, n) => if isSource src (sp.1, sp.2 + n) then Config.freeByte s.occasion (sp.2 + n) else b

/-- Writes the descriptor of an element's line. -/
def elemDesc (s : State) (ag : Agent) (op : CopyOp) (p : Place) (line : Nat) (e : ElemOut) : Option State :=
  match p.target, e.desc with
  | .fitted _, _ => some s
  | _, none => some s
  | _, some d => writeDesc s ag p (BitVec.ofNat 32 (if op.op = 2 ∨ op.op = 3 then d + (if op.satd.contains line then 2 ^ 24 else 0) else d))

/-- Writes one element with its line's descriptor. -/
def putElem (src : List (Nat × Nat × Nat)) (s : State) (g : Group) (op : CopyOp) (bits bit : Nat) (e : ElemOut) : Except CopyStop State :=
  let va := byteOf bit
  match engineAccess s g op.core (engWrite (alignBytes bits)) va with
  | .error c => .error (.fault va 8 c)
  | .ok p =>
    let fitted : Bool := match p.target with
      | .fitted _ => true
      | _ => false
    if bits < 8 && fitted then .error (.fault va 8 (0x0502, 2 ^ 40 + 2 ^ 32))
    else
      let old := if bits < 8 then ((readPlace s p 1).headD 0).toNat else 0
      let val := if bits < 8 then setBits old (bit % 8) bits e.code else e.code
      match engineStore s (copyAgent g op.seq) p va (elemBytes s src p (leBytes (alignBytes bits) val)) with
      | .wait => .error .wait
      | .fault c => .error (.fault va 8 c)
      | .ok s1 =>
        match elemDesc s1 (copyAgent g op.seq) op p (va.toNat / 64) e with
        | some s2 => .ok s2
        | none => .error .wait

/-- Performs the element at an index, its source read in the state r. -/
def copyElem (r : State) (src : List (Nat × Nat × Nat)) (s : State) (g : Group) (op : CopyOp) (dbits k : Nat) :
    Except CopyStop (State × CopyOp) :=
  match elemAt r g op k with
  | .error x => .error x
  | .ok none => .ok (s, { op with next := k + 1 })
  | .ok (some e) =>
    let j := indicesOf op.words k
    let bit := dstBit op.words op.coords dbits j.1 j.2.1 j.2.2
    let line := bit / 512
    let op1 := { op with satd := if e.satd && !op.satd.contains line then line :: op.satd else op.satd }
    match putElem src s g op1 dbits bit e with
    | .error x => .error x
    | .ok s1 => .ok (s1, { op1 with next := k + 1, offend := if e.offends && op.offend.isNone then some k else op.offend })

/-- Performs elements from the next one on, at most fuel of them. -/
def copyElems (r : State) (src : List (Nat × Nat × Nat)) (uid dbits : Nat) : Nat → State → CopyOp → State × CopyOp × Option CopyStop
  | 0, s, op => (s, op, none)
  | fuel + 1, s, op =>
    match s.group? uid with
    | none => (s, op, none)
    | some g =>
      match copyElem r src s g op dbits op.next with
      | .error x => (s, op, some x)
      | .ok (s1, op1) => copyElems r src uid dbits fuel s1 op1

/-- The header that RMAT reads: that of the first element of its source that can be reached (R229, R255). -/
def rmatHeader (s : State) (g : Group) (op : CopyOp) : Option Nat :=
  (List.range (Shape.count op.words)).findSome? fun k =>
    match sourceOf op.op op.words (indicesOf op.words k) with
    | none => none
    | some i =>
      match engineAccess s g op.core (engRead 1) (byteOf (srcBit op.words op.coords (elemBits (Shape.dfmt op.words)) i.1 i.2.1 i.2.2)) with
      | .ok p => (match p.target with
        | .fitted hdr => some hdr
        | _ => none)
      | .error _ => none

/-- Fixes the width of the source's elements and, for RMAT, the region and its generation, before the first element is read. -/
def prepare (s : State) (g : Group) (op : CopyOp) : Except CopyStop CopyOp :=
  let w : Shape := op.words
  if op.width ≠ 0 ∧ (op.op ≠ 4 ∨ op.region.isSome) then .ok op
  else match op.op with
    | 0 | 1 | 5 => .ok { op with width := w.ewBits }
    | 4 =>
      let hdr := rmatHeader s g op
      .ok { op with width := elemBits w.dfmt, region := hdr, gen := (hdr.map fun h => BitVec.ofNat 32 (headerAt s.hbm h).gen).getD 0 }
    | _ =>
      let bits := if w.sfmt ≠ 0 then elemBits w.sfmt else (firstBits s (engineAccess s g op.core) w op.coords).getD 8
      match lineFormat s g op (byteOf (srcBit w op.coords bits 0 0 0)) with
      | .error x => .error x
      | .ok (f, _, _) => .ok { op with width := elemBits f }

/-- Runs an operation as far as it goes, and why it stopped if it did. -/
def runCopy (s : State) (g : Group) (op : CopyOp) : State × CopyOp × Option CopyStop :=
  match prepare s g op with
  | .error x => (s, op, some x)
  | .ok op1 =>
    let k : Nat := Shape.count op1.words
    let dbits := if op1.op = 2 ∨ op1.op = 3 ∨ op1.op = 4 then elemBits (Shape.dfmt op1.words) else Shape.ewBits op1.words
    copyElems s (sourceBytes s g op1) g.uid dbits (k - op1.next) s.nextOccasion op1

/-! ## The end of an operation (R246, R258) -/

/-- The address of a destination element. -/
def elemVa (op : CopyOp) (k : Nat) : DWord :=
  let w : Shape := op.words
  let j := indicesOf w k
  let bits := if op.op = 2 ∨ op.op = 3 ∨ op.op = 4 then elemBits w.dfmt else w.ewBits
  byteOf (dstBit w op.coords bits j.1 j.2.1 j.2.2)

/-- The outcome of an operation that has run out of elements, or has ended at a cause: outcome, cause, address, FIRSTBAD. -/
def outcomeOf (op : CopyOp) (stop : Option CauseDetail) : Nat × BitVec 16 × DWord × Nat :=
  match stop with
  | some c => (2, BitVec.ofNat 16 c.1, elemVa op op.next, op.next)
  | none =>
    match op.offend with
    | some k => (1, 0x0601, elemVa op k, k)
    | none => (0, 0, 0, 0)

/-- Whether a cause halts a running operation instead of ending it (R249). -/
def haltsCopy (cause : Nat) : Bool := cause == 0x0301 || cause == 0x0303

/-- Replaces the operation at an index of a group. -/
def setCopy (s : State) (uid n : Nat) (op : CopyOp) : State :=
  s.modifyGroup uid fun g => { g with copies := modifyAt (fun _ => op) g.copies n }

/-- Leaves the contents of a segment open, with the descriptors of its lines (R182; log entry 118). -/
def forgetSeg (s : State) (key : Nat) : State :=
  let base := key / Config.segments * 2 ^ 20 + key % Config.segments * 4096
  { s with work := { s.work with pond := s.work.pond.forgetRange s.occasion base 4096
                                 pondDesc := sputAll 0x7F00 s.work.pondDesc (openDescs s.occasion (base / 64)) }
           occasion := s.occasion + 1 }

/-- The segment transitions of a completion (R182, R254). -/
def endSegs (s : State) (op : CopyOp) (cancelled : Bool) : State :=
  if cancelled then setSegs (setSegs (op.fill.foldl forgetSeg s) op.fill 0 false) op.drain 2 false
  else setSegs (setSegs s op.fill 2 false) op.drain 0 true

/-- The status words after a completion (R259). -/
def copyStatus (c : CopyStatus) (op : CopyOp) (r : Nat × BitVec 16 × DWord × Nat) : CopyStatus :=
  let c1 := { c with cpDone := BitVec.ofNat 32 op.seq, rmatGen := if op.op = 4 then op.gen else c.rmatGen }
  if r.1 = 0 then c1
  else
    { c1 with
      cpErr := BitVec.ofNat 32 (r.2.1.toNat * 65536 + r.1), firstBad := BitVec.ofNat 32 (if r.1 = 3 then 0xFFFFFFFF else r.2.2.2)
      errSeq := BitVec.ofNat 32 op.seq, errCount := c1.errCount + 1 }

/-- The record of an operation that ends with CONVERR or ENDED (R258); an access that ended it gives its kind (R175, R381). For 0x0201 its
DETAIL is that of R258, which is the one for a copy, and not that of R88 (DEDUCED, log entry 95). -/
def copyRecord (s : State) (g : Group) (op : CopyOp) (kind : Nat) (r : Nat × BitVec 16 × DWord × Nat) : State :=
  if r.1 = 1 ∨ r.1 = 2 then
    emitRecord s (opRecord g 1 r.2.1.toNat 3 kind op.lane (some r.2.2.1.toNat) (r.2.2.2 * 65536 + Shape.dfmt op.words * 256 + r.1))
  else s

/-- Whether an element of an operation waits at a Spring unit while its region is demoted (R224, R231). -/
def copyHeld (s : State) (g : Group) (op : CopyOp) : Bool :=
  s.work.springHeld.any fun h => h.group == g.uid && h.issue == engineIssue + op.seq

/-- The completion of the oldest operation of a group, with its outcome (R246); none while it waits for its writes to be performed at
RSCOPE (R207), those that a Spring unit holds among them, or its completion word for room in a log (R332). -/
def completeCopy (s : State) (g : Group) (op : CopyOp) (r : Nat × BitVec 16 × DWord × Nat) : Option State :=
  let bad : Bool := r.1 != 0
  if scopeWaits s (copyAgent g op.seq) (Shape.rscope op.words) || copyHeld s g op then none
  else (completionStore (endSegs s op (r.1 == 3)) g (agentOf g) op.core 1 op.lane op.seq bad op.comp).map fun s2 =>
    (engineArrival s2 g op.bar bad).modifyGroup g.uid fun x => { x with copies := x.copies.drop 1, cp := copyStatus x.cp op r }

/-- Completes the oldest operation, or keeps its outcome where its completion must wait; its record arises as it ends (R389). -/
def finishCopy (s : State) (g : Group) (op : CopyOp) (kind : Nat) (r : Nat × BitVec 16 × DWord × Nat) : State :=
  let s1 := if op.done.isSome then s else copyRecord s g op kind r
  match completeCopy s1 g op r with
  | some t => settle t
  | none => setCopy s1 g.uid 0 { op with done := some r }

/-- COPY_COMPLETION: the oldest operation of a group runs to its end and completes (R246, R258). -/
def execCopyCompletion (g : Nat) (s : State) : Host.Outcome State Fault Refusal :=
  match s.group? g with
  | none => stutter s
  | some x =>
    match x.copies with
    | [] => stutter s
    | op :: _ =>
      if !enginesRun s x then stutter s
      else match op.done with
        | some r => .next (finishCopy s x op 0 r)
        | none =>
          if op.halted.isSome then stutter s
          else match runCopy s x op with
            | (s1, op1, none) =>
              .next (finishCopy s1 x op1 0 (outcomeOf op1 none))
            | (s1, op1, some .wait) => if op1.next = op.next then stutter s else .next (setCopy s1 g 0 op1)
            | (s1, op1, some (.fault _ kind c)) =>
              if haltsCopy c.1 then stutter s else .next (finishCopy s1 x op1 kind (outcomeOf op1 (some c)))

/-- The park of a group whose operation has halted (R249). -/
def haltPark (op : CopyOp) (va : DWord) (kind : Nat) (c : CauseDetail) : ParkArgs :=
  { cause := c.1, lanes := [op.lane], va := some va, kind := kind, detail := c.2, engine := 1, skip := 0 }

/-- COPY_HALT: the operation at an index of a group runs until it meets a page that is not present or in transit, and
its group parks at its instruction boundary (R249). -/
def execCopyHalt (g n : Nat) (s : State) : Host.Outcome State Fault Refusal :=
  match s.group? g with
  | none => stutter s
  | some x =>
    match x.copies[n]? with
    | none => stutter s
    | some op =>
      if op.done.isSome || op.halted.isSome || !x.ext.isEmpty || !enginesRun s x then stutter s
      else match runCopy s x op with
        | (s1, op1, some (.fault va kind c)) =>
          if haltsCopy c.1 then
            .next (takePark (setCopy s1 g n { op1 with halted := some (BitVec.ofNat 16 c.1, va, kind, s1.records.next) }) g
              (haltPark op1 va kind c))
          else stutter s
        | _ => stutter s

/-! ## CPST and CPCAN (R259, R260) -/

/-- The error flags of team barriers 15 to 0 (R248). -/
def barrierFlags (s : State) (g : Group) : Nat :=
  maskOf ((List.range 16).filter fun k => (barAt (barriersOf s 1 g) k).lastErr)

/-- A copy status word (R259). -/
def cpWord (s : State) (g : Group) (k : Nat) : Word :=
  match k with
  | 0 => BitVec.ofNat 32 g.cpSeq
  | 1 => g.cp.cpDone
  | 2 => g.cp.cpErr
  | 3 => g.cp.firstBad
  | 4 => g.cp.errSeq
  | 5 => BitVec.ofNat 32 (barrierFlags s g)
  | 6 => g.cp.errCount
  | _ => g.cp.rmatGen

/-- CPST (R259). -/
def execCpst (d b : SReg) (s : State) :=
  issue (.cpst d b) (fun s x => .done (s.setGroup (x.g.sregPut (sD x d) (cpWord s x.g ((x.g.sregGet (sB x b)).toNat % 8))))) s

/-- An operation that has been cancelled: it writes nothing more (R258, R260). -/
def cancelCopy (op : CopyOp) : CopyOp := { op with halted := none, done := some (3, 0, 0, 0xFFFFFFFF) }

/-- CPCAN (R260). -/
def execCpcan (d a : SReg) (s : State) :=
  issue (.cpcan d a) (fun s x =>
    let n := (x.g.sregGet (sA x a)).toNat % 2 ^ 31
    let hit := x.g.copies.any fun op => op.seq == n
    let g1 := { x.g with copies := x.g.copies.map fun (op : CopyOp) => if op.seq = n then cancelCopy op else op }
    .done (s.setGroup (g1.sregPut (sD x d) (if hit then 0 else 1)))) s

/-! ## RMAT's hold on a region's commits (R229, R255) -/

/-- Whether a running RMAT keeps a region from committing a refit: it has found the region, and its last read is still to come. -/
def rmatHolds (s : State) (hdr : Nat) : Bool :=
  s.work.groups.any fun g => g.copies.any fun op => op.op == 4 && op.done.isNone && op.region == some hdr

end Sys2Proof.Machine
end

