-- ==== Sys2Proof/Machine/Region.lean ====
section
/-! DEFINITION. Region-control instructions and the events of the Spring units: majors 0x58 to 0x5B (R225 to R239). -/
namespace Sys2Proof.Machine

/-! ## The header that an address names (R173, R236) -/

/-- Whether an address is aligned to the element size of a region. -/
def elemAligned (h : Header) (va : Nat) : Bool := h.esize == 0 || va % h.esize == 0

/-- The header of the region that an address names, as a load of one element: check 1 of R173 comes after checks 2 to 4. -/
def fittedHeader (s : State) (g : Group) (va : DWord) : Except CauseDetail Nat :=
  let a : Access := ⟨0, 1, 1, true, false, false, [2]⟩
  let misaligned : CauseDetail := (0x0304, pageDetail 0 false false 0 2)
  match s.ctx? g.ctx with
  | none => .error (0x0301, 0)
  | some c =>
    if windowBase ≤ va.toNat then .error (0x0305, pageDetail 0 false true 0 0)
    else match checkPage s c g.core a va.toNat with
      | .ok p => (match p.target with
        | .fitted hdr => if elemAligned (headerAt s.hbm hdr) va.toNat then .ok hdr else .error misaligned
        | _ => .error (0x0305, 0))
      | .error e =>
        if e.1 = 0x0303 then
          (match walk s c va.toNat with
          | .leaf l _ _ => if elemAligned (headerAt s.hbm l.addr) va.toNat then .error e else .error misaligned
          | _ => .error e)
        else .error e

/-! ## Issue (R235, R236) -/

/-- Adds an operation to the FR class of a group. -/
def pushFrop (s : State) (x : Issue) (kind : Nat) (words : List DWord) (comp : Option DWord) : State :=
  let op : UnitOp := { seq := nextSeq x.g.frSeq, kind := kind, words := words, lane := electedLane x, core := x.g.core, comp := comp,
                       scope := 3, step := 0, done := none }
  s.setGroup { x.g with frops := x.g.frops ++ [op], frSeq := op.seq }

/-- Whether the set may issue an operation of the FR class. -/
def fropReady (s : State) (g : Group) : Bool := engineReady s g && decide (g.frCount < Config.counterMax)

/-- RINST (R226): its images are read by the Spring unit. -/
def execRinst (sh co cs : SReg) (s : State) :=
  issue (.rinst sh co cs) (fun s x =>
    let c0 := x.ext.snum 9 co.toNat
    if !fropReady s x.g then .stall
    else match compFault s x.g (csAddr x cs) with
      | some (va, c) => setFault x 1 va c
      | none => .done (pushFrop s x 0 [shAddr x sh, x.g.spair c0, x.g.spair (c0 + 2)] (csAddr x cs))) s

/-- RFIT, RDEM and RABORT: the region is found at issue (R236). -/
def regionIssue (i : Instr) (kind : Nat) (sh cs : SReg) (s : State) : Host.Outcome State Fault Refusal :=
  issue i (fun s x =>
    let va := shAddr x sh
    if !fropReady s x.g then .stall
    else match fittedHeader s x.g va with
      | .error c => setFault x 0 va c
      | .ok hdr =>
        match compFault s x.g (csAddr x cs) with
        | some (ca, c) => setFault x 1 ca c
        | none => .done (pushFrop s x kind [va, BitVec.ofNat 64 hdr] (csAddr x cs))) s

/-- RFIT. -/
def execRfit (sh cs : SReg) (s : State) := regionIssue (.rfit sh cs) 1 sh cs s
/-- RDEM. -/
def execRdem (sh cs : SReg) (s : State) := regionIssue (.rdem sh cs) 2 sh cs s
/-- RABORT. -/
def execRabort (sh cs : SReg) (s : State) := regionIssue (.rabort sh cs) 3 sh cs s

/-! ## Errors of an operation (R236) -/

/-- The address that an operation names: its image's, or that in its region. -/
def opVa (op : UnitOp) : Nat := (op.words.getD 0 0).toNat

/-- Ends an operation with RESULT ERROR: its record, with the address that faulted or that the operation names (R382), and the header
of its region where one is written; none while a header write waits for room in a log. -/
def failFrop (s : State) (g : Group) (op : UnitOp) (hdr : Option Nat) (c : CauseDetail) (idx kind va : Nat) : Option State :=
  let s1 := match hdr with
    | some h => setResult s h .error c.1 idx
    | none => some s
  s1.map fun t => endFrop (emitRecord t (opRecord g 5 c.1 3 kind op.lane (some va) c.2)) (g.uid, op.seq) .error c.1 idx

/-- Ends an operation on a region with its result. -/
def endWith (s : State) (g : Group) (op : UnitOp) (hdr : Nat) (r : RResult) : Option State := finishFrop s hdr (some (g.uid, op.seq)) r 0 0

/-! ## Arrival at the Spring unit (R226, R237) -/

/-- What the Spring unit reads of a list of elements: the bytes, a wait, or the first cause with its address. -/
inductive ImageRead where
  | ok (b : List Byte)
  | wait
  | fault (va : DWord) (c : CauseDetail)

/-- Reads n elements of a size; a page in transit makes the unit wait (R226). -/
def readImage (s : State) (g : Group) (core size : Nat) : Nat → Nat → ImageRead
  | 0, _ => .ok []
  | n + 1, va =>
    match engineRead s g core size (BitVec.ofNat 64 va) with
    | .wait => .wait
    | .fault c => if c.1 = 0x0303 then .wait else .fault (BitVec.ofNat 64 va) c
    | .ok b =>
      match readImage s g core size n ((va + size) % 2 ^ 64) with
      | .ok r => .ok (b ++ r)
      | .wait => .wait
      | .fault v c => .fault v c

/-- The header that a FITTED leaf for VBASE names, with the checks of R226. -/
def vbaseHeader (s : State) (g : Group) (core vbase : Nat) : Except CauseDetail Nat :=
  match s.ctx? g.ctx with
  | none => .error (0x0301, 0)
  | some c =>
    if windowBase ≤ vbase then .error (0x0305, pageDetail 0 false true 7 0)
    else match checkPage s c core ⟨7, 1, 1, true, false, false, [2]⟩ vbase with
      | .error e => .error e
      | .ok p => (match p.target with
        | .fitted hdr => .ok hdr
        | _ => .error (0x0305, 0))

/-- The arrival of an RINST: the image is checked and the header written (R225, R226). -/
def arriveRinst (s : State) (g : Group) (op : UnitOp) : Option State :=
  let image := (op.words.getD 0 0).toNat
  match readImage s g op.core 8 16 image with
  | .wait => none
  | .fault va c => failFrop s g op none c 0 7 va.toNat
  | .ok b =>
    let h : Header := (dwordsOf 16 b).map (·.toNat)
    match h.badWord with
    | some k => failFrop s g op none (0x0602, k) k 0 (opVa op)
    | none =>
      match vbaseHeader s g op.core h.vbase with
      | .error c => failFrop s g op none c 0 7 h.vbase
      | .ok hdr =>
        if (headerAt s.hbm hdr).state ≠ 0 then failFrop s g op none (0x0602, 0) 0 0 h.vbase
        else beginInstall s hdr h (g.uid, op.seq)

/-- The arrival of an RFIT (R230, R231, R237). -/
def arriveRfit (s : State) (g : Group) (op : UnitOp) (hdr : Nat) : Option State :=
  let h := headerAt s.hbm hdr
  if h.state = 0 then failFrop s g op (some hdr) (0x0305, pageDetail 0 false false 0 2) 0 0 (opVa op)
  else if h.state = 4 then endWith s g op hdr .noGain
  else if h.state ≠ 2 ∨ h.rstate ≠ 0 then endWith s g op hdr .busy
  else if h.denseSized then
    if h.inflFault then failFrop s g op (some hdr) (0x0503, h.cap * 2 ^ 24 + h.livecnt) 0 0 (opVa op)
    else startDemotion s hdr (some (g.uid, op.seq))
  else if h.hold then (setField s hdr 0 27 2 1).map fun t => modifyRegion t hdr fun r => { r with owner := some (g.uid, op.seq) }
  else startRefit s hdr (some (g.uid, op.seq))

/-- The arrival of an RDEM (R237). -/
def arriveRdem (s : State) (g : Group) (op : UnitOp) (hdr : Nat) : Option State :=
  let h := headerAt s.hbm hdr
  if h.state = 0 then failFrop s g op (some hdr) (0x0305, pageDetail 0 false false 0 2) 0 0 (opVa op)
  else if h.state = 4 then endWith s g op hdr .demoted
  else if h.state ≠ 2 ∨ h.dempa = 0 then failFrop s g op (some hdr) (0x0602, 0) 0 0 (opVa op)
  else startDemotion s hdr (some (g.uid, op.seq))

/-- The arrival of an RABORT (R237). -/
def arriveRabort (s : State) (g : Group) (op : UnitOp) (hdr : Nat) : Option State :=
  let h := headerAt s.hbm hdr
  if h.state = 0 then failFrop s g op (some hdr) (0x0305, pageDetail 0 false false 0 2) 0 0 (opVa op)
  else if h.rstate = 0 then endWith s g op hdr .none
  else (abortRefit s hdr).bind fun t => endWith t g op hdr .aborted

/-- The header that an RINST names through its image, where the image and the leaf for VBASE can be read. -/
def imageHeader (s : State) (g : Group) (op : UnitOp) : Option Nat :=
  match readImage s g op.core 8 16 (op.words.getD 0 0).toNat with
  | .ok b => (vbaseHeader s g op.core (Header.vbase ((dwordsOf 16 b).map (·.toNat)))).toOption
  | _ => none

/-- An RINST keeps the header that it finds, whose Spring unit it works at (R331). -/
def noteUnit (s : State) (g : Group) (op : UnitOp) : State :=
  if op.kind ≠ 0 then s
  else match imageHeader s g op with
    | none => s
    | some hdr => s.modifyGroup g.uid fun g => { g with frops := g.frops.map fun (u : UnitOp) =>
        if u.seq = op.seq then { u with words := u.words ++ [BitVec.ofNat 64 hdr] } else u }

/-- Marks an operation as begun. -/
def beginFrop (s : State) (uid seq : Nat) : State :=
  s.modifyGroup uid fun g => { g with frops := g.frops.map fun (u : UnitOp) => if u.seq = seq ∧ u.step = 0 then { u with step := 1 } else u }

/-- The arrival of a region-control operation. -/
def arriveOp (s : State) (g : Group) (op : UnitOp) : Option State :=
  let hdr := (op.words.getD 1 0).toNat
  match op.kind with
  | 0 => arriveRinst s g op
  | 1 => arriveRfit s g op hdr
  | 2 => arriveRdem s g op hdr
  | 3 => arriveRabort s g op hdr
  | _ => none

/-- SPRING_OPERATION_ARRIVAL: a region-control operation reaches its Spring unit (R226, R237). -/
def execSpringOperationArrival (g n : Nat) (s : State) : Host.Outcome State Fault Refusal :=
  match s.group? g with
  | none => stutter s
  | some x =>
    match x.frops[n]? with
    | none => stutter s
    | some op =>
      if op.step ≠ 0 then stutter s
      else match arriveOp (noteUnit s x op) x op with
        | some t => .next (beginFrop t g op.seq)
        | none => stutter s

/-! ## The ends of install, refit and demotion (R225 to R229, R232) -/

/-- The group and the operation that a region's Spring unit works for. -/
def ownerOf (s : State) (hdr : Nat) : Option (Group × UnitOp) := do
  let r ← region? s hdr
  let o ← r.owner
  let g ← s.group? o.1
  let op ← g.frops.find? fun u => u.seq == o.2
  some (g, op)

/-- Lowers the ST counters of every group as far as their stores are performed. -/
def settleAllStores (s : State) : State := s.work.groups.foldl (fun s g => settleStores s g.uid) s

/-- Applies the stores held for a region and lowers the counters. -/
def afterRegion (s : State) (hdr : Nat) : State := settle (settleAllStores (releaseHeld s hdr))

/-- Returns an installing region to EMPTY with an error (R225, R226). -/
def failInstall (s : State) (g : Group) (op : UnitOp) (hdr : Nat) (c : CauseDetail) (idx kind va : Nat) : Option State :=
  (setRegionState (modifyRegion s hdr fun r => { r with owner := none }) hdr 0).bind fun t => failFrop t g op (some hdr) c idx kind va

/-- The walk over the install set and its end. -/
def endInstall (s : State) (g : Group) (op : UnitOp) (hdr : Nat) : Option State :=
  let h := headerAt s.hbm hdr
  match readImage s g op.core h.psize h.params (op.words.getD 1 0).toNat with
  | .wait => none
  | .fault va c => failInstall s g op hdr c 0 7 va.toNat
  | .ok b =>
    (trackedWrite s (hdr + h.slotOff 0) b).bind fun s1 =>
      let base := (op.words.getD 2 0).toNat
      let va := fun n => (base + n * h.esize) % 2 ^ 64
      let elem : State → Nat → Fitted Nat := fun t n =>
        match engineRead t g op.core h.esize (BitVec.ofNat 64 (va n)) with
        | .ok b => .ok (ofLe b)
        | .wait => .wait
        | .fault c => if c.1 = 0x0303 then .wait else .fault c
      match (if base = 0 then InstallEnd.complete s1 else installFrom elem hdr h.points 0 0 s1) with
      | .wait => none
      | .complete t => (setRegionState (modifyRegion t hdr fun r => { r with owner := none }) hdr 2).bind fun t => endWith t g op hdr .installed
      | .overflow t idx left =>
        if h.inflFault then
          let k := headerAt t.hbm hdr
          failInstall t g op hdr (0x0503, k.cap * 2 ^ 24 + k.livecnt) idx 0 (va idx)
        else match restOfSet elem h t left (idx + 1) with
          | .wait => none
          | .fault c n => failInstall t g op hdr c n 7 (va n)
          | .ok l => startDemotion (modifyRegion t hdr fun r => { r with image := l }) hdr (some (g.uid, op.seq))
      | .fault t c idx => failInstall t g op hdr c idx 7 (va idx)

/-- An event of a region: what it does if it may, or nothing. -/
def regionEvent (s : State) (hdr : Nat) (r : Option State) : Host.Outcome State Fault Refusal :=
  match r with
  | some t => .next (afterRegion t hdr)
  | none => stutter s

/-- INSTALL_END (R226). -/
def execInstallEnd (hdr : Nat) (s : State) : Host.Outcome State Fault Refusal :=
  if (region? s hdr).isNone || (headerAt s.hbm hdr).state != 1 then stutter s
  else regionEvent s hdr ((ownerOf s hdr).bind fun (g, op) => endInstall s g op hdr)

/-- REFIT_COMMIT: a running refit computes its candidate and verifies it (R227); once it has, it ends with a commit or with no gain, and
an RMAT in progress holds that step back (R228, R229). -/
def execRefitCommit (hdr : Nat) (s : State) : Host.Outcome State Fault Refusal :=
  let h := headerAt s.hbm hdr
  match region? s hdr with
  | none => stutter s
  | some r =>
    if h.state ≠ 2 ∨ h.rstate ≠ 2 then stutter s
    else if r.verified = false then regionEvent s hdr (verifyRefit s hdr)
    else if rmatHolds s hdr then stutter s
    else regionEvent s hdr (endRefit s hdr)

/-- DEMOTION_END (R232). -/
def execDemotionEnd (hdr : Nat) (s : State) : Host.Outcome State Fault Refusal :=
  if (region? s hdr).isNone || (headerAt s.hbm hdr).state != 3 then stutter s else regionEvent s hdr (endDemotion s hdr)

/-! ## Completion (R236) -/

/-- The engine that reports an operation of the FR class. -/
def fropEngine (op : UnitOp) : Nat := if op.kind < 4 then 5 else 4

/-- The die whose log a completion word of the FR class is charged to: the home die of the Spring unit's stack, or that of the balance
engine (R331). -/
def fropDie (g : Group) (op : UnitOp) : Nat :=
  match (if op.kind = 0 then op.words[3]? else if op.kind < 4 then op.words[1]? else none) with
  | some h => homeDie h.toNat
  | none => dieOf g.core

/-- The balance engine as the agent of an operation of a group. -/
def frAgent (g : Group) (seq : Nat) : Agent := { agentOf g with op := some (3, seq) }

/-- REGION_OPERATION_COMPLETION: the oldest operation of a group's FR class completes (R195, R236), at its release scope (R207). -/
def execRegionOperationCompletion (g : Nat) (s : State) : Host.Outcome State Fault Refusal :=
  match s.group? g with
  | none => stutter s
  | some x =>
    match x.frops with
    | [] => stutter s
    | op :: _ =>
      match op.done with
      | none => stutter s
      | some (r, _, _) =>
        if scopeWaits s (frAgent x op.seq) op.scope then stutter s
        else match completionStore s x { agentOf x with die := fropDie x op } op.core (fropEngine op) op.lane op.seq
            (r == RResult.error.code) op.comp with
        | some t => .next (settle (refreshCounts (t.modifyGroup g fun y => { y with frops := y.frops.drop 1 }) g))
        | none => stutter s

/-! ## RLDG and RSTAT (R238, R239) -/

/-- One member's RLDG: the element and its generation. -/
def rldgMember (s : State) (g : Group) (va : DWord) : Fitted (Word × Word) :=
  match fittedHeader s g va with
  | .error c => .fault c
  | .ok hdr =>
    let h := headerAt s.hbm hdr
    match fittedLoad s hdr va.toNat h.esize 0 with
    | .ok b => .ok (BitVec.ofNat 32 (ofLe b), BitVec.ofNat 32 h.gen)
    | .wait => .wait
    | .fault c => .fault c

/-- RLDG (R238). -/
def execRldg (d a : VReg) (ord : MemOrder) (sc : Scope) (s : State) :=
  let i := Instr.rldg d a ord sc
  issue i (fun s x =>
    let ms := x.members.map fun l => (l, pAddr x a l, rldgMember s x.g (pAddr x a l))
    if anyWaits ms || acquireWaits s x.g ord.acquires sc.code.toNat then .stall
    else
      let good := goodOf ms
      if good.isEmpty then endMembers 0 ms (s.setGroup (applyZeros i x x.g))
      else if Config.counterMax ≤ x.g.ldCount then .stall
      else
        let r := x.ext.vnum 18 d
        let ld := { plainLoad (good.flatMap fun (l, _, v, g) => [(RegDst.v l r, v), (RegDst.v l (r + 1), g)]) with spring := true }
        endMembers 0 ms (s.setGroup (applyZeros i x { x.g with loads := x.g.loads ++ [ld] }))) s

/-- A status word of a region (R239). -/
def regionWord (h : Header) (k : Nat) : Nat :=
  match k with
  | 0 => h.field 0 0 32
  | 1 => h.gen
  | 2 => h.livecnt
  | 3 => h.cap
  | 4 => h.field 11 0 32
  | 5 => h.field 11 32 32
  | 6 => h.field 12 16 24
  | _ => h.field 12 40 24

/-- RSTAT (R239). -/
def execRstat (d a b : SReg) (s : State) :=
  issue (.rstat d a b) (fun s x =>
    let va := x.g.spair (sA x a)
    if Config.counterMax ≤ x.g.ldCount then .stall
    else match fittedHeader s x.g va with
      | .error c => setFault x 0 va c
      | .ok hdr =>
        if (s.work.springHeld.any fun h => h.hdr == hdr && h.group == x.g.uid) && [2, 4].contains (headerAt s.hbm hdr).state then .stall
        else
        let w := regionWord (headerAt s.hbm hdr) ((x.g.sregGet (sB x b)).toNat % 8)
        .done (s.setGroup { x.g with loads := x.g.loads ++ [{ plainLoad [(RegDst.s (sD x d), BitVec.ofNat 32 w)] with spring := true }] })) s

end Sys2Proof.Machine
end

