-- ==== Sys2Proof/Machine/Graph.lean ====
section
/-! DEFINITION. Rate-declared graphs and the balance engine: majors 0x68 to 0x6B and the events of a bind (R282 to R302). -/
namespace Sys2Proof.Machine

/-! ## Graphs (R291 to R293) -/

namespace Graph

/-- The stage of a group. -/
def stageOf (gr : Graph) (g : Group) : Option Nat :=
  if gr.launch = g.launch then (List.range gr.stages.length).find? fun k =>
    match gr.stages[k]? with
    | some st => st.team == g.team && st.role == g.role
    | none => false
  else none

/-- A stage; one that does not exist is TERMINATED. -/
def stage (gr : Graph) (k : Nat) : Stage := gr.stages.getD k { team := 0, role := 0, q := 1, state := 2, admitted := 0, ended := 0, isOpen := 0, core := 0 }

/-- Changes a stage. -/
def modifyStage (gr : Graph) (k : Nat) (f : Stage → Stage) : Graph := { gr with stages := modifyAt f gr.stages k }

/-- Whether any firing is open. -/
def anyOpen (gr : Graph) : Bool := gr.stages.any fun st => st.isOpen != 0

/-- An entry of the firing table. -/
def entryAt (gr : Graph) (k : Nat) : FireEntry := gr.table.getD k { stage := 0, rep := 1, firstn := 0 }

/-- The cursor moves past the entries that are complete or whose stage has finished (R292). -/
def advance : Nat → Graph → Graph
  | 0, gr => gr
  | n + 1, gr =>
    let e := gr.entryAt gr.entry
    let idle := gr.stages.all fun st => st.state != 0
    if gr.count = e.rep ∨ ((gr.stage e.stage).state ≠ 0 ∧ ¬ idle) then
      if gr.entry + 1 < gr.table.length then advance n { gr with entry := gr.entry + 1, count := 0 }
      else advance n { gr with entry := 0, count := 0, periods := gr.periods + 1 }
    else gr

/-- The graph after a change: the cursor moves, and a graph whose stages have all ended is ENDED (R291). -/
def settle (gr : Graph) : Graph :=
  let g1 := advance gr.table.length gr
  if g1.state = 2 ∧ (g1.stages.all fun st => st.state != 0) ∧ ¬ g1.anyOpen then { g1 with state := 3 } else g1

/-- A channel after a stage has become FINISHED or TERMINATED: the rings it consumes are FREE, and a finished producer's
last position is kept (R293, R302). -/
def chanEnded (k st : Nat) (c : Chan) : Chan :=
  { c with rings := c.rings.map fun (r : Ring) => if r.stage = k then { r with full := [], late := [] } else r
           prodEnd := if c.prodSt = k ∧ st = 1 then some c.ppos else c.prodEnd }

/-- A stage becomes FINISHED or TERMINATED. -/
def endStage (gr : Graph) (k st : Nat) : Graph :=
  if (gr.stage k).state = 2 ∨ (gr.stage k).state = st then gr
  else settle { gr.modifyStage k fun x => { x with state := st } with chans := gr.chans.map (chanEnded k st) }

/-- The inputs of a stage: each channel with the consumer's number. -/
def inputs (gr : Graph) (k : Nat) : List (Nat × Nat) :=
  (List.range gr.chans.length).flatMap fun c =>
    match gr.chans[c]? with
    | some ch => ((List.range ch.rings.length).filter fun n => (ch.rings[n]?.map (·.stage)) == some k).map fun n => (c, n)
    | none => []

/-- The outputs of a stage. -/
def outputs (gr : Graph) (k : Nat) : List Nat :=
  (List.range gr.chans.length).filter fun c => (gr.chans[c]?.map (·.prodSt)) == some k

/-- Whether the positions of a ring from p on, n of them, are FULL. -/
def allFull (r : Ring) (p n : Nat) : Bool := (List.range n).all fun i => r.full.contains (p + i)

end Graph

namespace Chan
/-- RSTR of R283. -/
def stride (c : Chan) : Nat := 64 * (c.bytes / (c.rings.length * 64))
/-- The address of the slot of a position in ring k. -/
def slotAddr (c : Chan) (k p : Nat) : DWord :=
  BitVec.ofNat 64 (c.buf.toNat + k * c.stride + p % max 1 c.size * (c.lines * 64))
/-- A ring. -/
def ring (c : Chan) (k : Nat) : Ring := c.rings.getD k { stage := 32, cpos := 0, rcvd := 0, full := [] }
/-- Changes a ring. -/
def modifyRing (c : Chan) (k : Nat) (f : Ring → Ring) : Chan := { c with rings := modifyAt f c.rings k }
end Chan

/-- A channel that does not exist. -/
def noChan : Chan :=
  { buf := 0, bytes := 0, init := 0, prod := 0, cons := 0, lines := 0, scope := 0, prodSt := 32, size := 0, escope := 0, pond := false,
    ppos := 0, prodEnd := none, rings := [] }

/-- A channel of a graph. -/
def Graph.chan (gr : Graph) (c : Nat) : Chan := gr.chans.getD c noChan

/-- Changes a channel. -/
def Graph.modifyChan (gr : Graph) (c : Nat) (f : Chan → Chan) : Graph := { gr with chans := modifyAt f gr.chans c }

/-- The graph of a bind area of a context. -/
def graph? (s : State) (ctx : Nat) (area : DWord) : Option Graph := s.work.graphs.find? fun gr => gr.ctx == ctx && gr.area == area

/-- Puts a graph in the place of any that has its bind area. -/
def putGraph (s : State) (gr : Graph) : State :=
  { s with work := { s.work with graphs := (s.work.graphs.filter fun x => !(x.ctx == gr.ctx && x.area == gr.area)) ++ [gr] } }

/-! ## The bind area (R288) -/

/-- Where an offset of a bind area lies in HBM. -/
def Graph.areaPa (gr : Graph) (off : Nat) : Nat :=
  let a := gr.area.toNat % 4096 + off
  gr.pages.getD (a / 4096) 0 + a % 4096

/-- The n bytes of a bind area from an offset up, as ranges of HBM. -/
def Graph.ranges (gr : Graph) (off n : Nat) : List (Nat × Nat) :=
  (List.range gr.pages.length).filterMap fun k =>
    let lo := max (gr.area.toNat % 4096 + off) (k * 4096)
    let hi := min (gr.area.toNat % 4096 + off + n) ((k + 1) * 4096)
    if lo < hi then some (gr.pages.getD k 0 + lo % 4096, hi - lo) else none

/-- Bytes of the slot flags of some channels (R288). -/
def flagBytes (chans : List Chan) : Nat := (chans.map fun c => c.rings.length * ((c.size + 7) / 8)).sum

/-- Where the slot flags start, by the number of table entries. -/
def flagOffset (nent : Nat) : Nat := 64 * ((5120 + 8 * nent + 63) / 64)

/-- The parts of a bind area whose layout is not architectural: 0 the header, 1 the stage and channel state, 2 the slot flags. -/
def Graph.part (gr : Graph) : Nat → List (Nat × Nat)
  | 0 => gr.ranges 0 256
  | 1 => gr.ranges 384 4736
  | _ => gr.ranges (flagOffset gr.table.length) (flagBytes gr.chans)

/-- A field of a part that another store has changed: a part of zeros holds zeros, and other bytes a value that the manual leaves open. -/
def partField (m : List Host.Cell) (n : Nat) : Nat := if m.isEmpty then 0 else Config.areaField m n

/-- A graph whose header holds other bytes than the balance engine left there. -/
def Graph.headFrom (gr : Graph) (m : List Host.Cell) : Graph :=
  let f := partField m
  { gr with state := f 0 % 5, cause := f 1 % 65536, nperiod := f 2, periods := f 3, entry := f 4, count := f 5
            stages := gr.stages.take (f 6), chans := gr.chans.take (f 7) }

/-- A ring from field n of other bytes up. -/
def Ring.from (f : Nat → Nat) (n : Nat) (r : Ring) : Ring := { r with cpos := f n, rcvd := f (n + 1) }

/-- A graph whose stage and channel state holds other bytes: stages take eight fields each, and channels thirty-two from field 256 up. -/
def Graph.stateFrom (gr : Graph) (m : List Host.Cell) : Graph :=
  let f := partField m
  { gr with
    stages := gr.stages.zipIdx.map fun (st, k) =>
      { st with team := f (8 * k), role := f (8 * k + 1), state := f (8 * k + 2) % 3, admitted := f (8 * k + 3), ended := f (8 * k + 4), isOpen := f (8 * k + 5) }
    chans := gr.chans.zipIdx.map fun (c, k) =>
      let n := 256 + 32 * k
      { c with size := f n, escope := f (n + 1) % 5, ppos := f (n + 2), prodEnd := if f (n + 3) = 0 then none else some (f (n + 4)), init := f (n + 5)
               rings := c.rings.zipIdx.map fun (r, i) => r.from f (n + 8 + 2 * i) } }

/-- A graph whose slot flags are other bytes: a FULL slot holds the position, of those from RCVD up, that falls into it. -/
def Graph.flagsFrom (gr : Graph) (m : List Host.Cell) : Graph :=
  { gr with chans := gr.chans.zipIdx.map fun (c, k) => { c with rings := c.rings.zipIdx.map fun (r, i) =>
      { r with full := (List.range c.size).filterMap fun n =>
          if partField m ((8 * k + i) * 2 ^ 32 + n) % 2 = 1 then some (r.rcvd + (n + c.size - r.rcvd % c.size) % c.size) else none } } }

/-- The number in n bytes of a bind area. -/
def Graph.areaNat (s : State) (gr : Graph) (off n : Nat) : Nat := ofLe ((List.range n).map fun i => s.hbm.byte (gr.areaPa (off + i)))

/-- An entry of a firing table from its word (R288). -/
def entryOf (w : Nat) : FireEntry := { stage := bitsOf w 0 5, rep := bitsOf w 8 16, firstn := bitsOf w 32 32 }

/-- A graph with the q and the firing table that stand in its area. -/
def Graph.tablesFrom (s : State) (gr : Graph) : Graph :=
  { gr with stages := gr.stages.zipIdx.map fun (st, k) => { st with q := gr.areaNat s (256 + 4 * k) 4 }
            table := gr.table.zipIdx.map fun (_, k) => entryOf (gr.areaNat s (5120 + 8 * k) 8) }

/-- A graph after a change, where a part of its area no longer holds what the balance engine left there. -/
def Graph.ifChanged (gr : Graph) (s : State) (raw : Graph) (k : Nat) (f : Graph → List Host.Cell → Graph) : Graph :=
  let m := s.hbm.within (raw.part k)
  if m = raw.held.getD k [] then gr else f gr m

/-- A graph as its bind area holds it: a store into the area takes effect as written, and the channel operations act on what they find (R288). -/
def foundGraph (s : State) (gr : Graph) : Graph :=
  if gr.pages.isEmpty then gr
  else (((gr.tablesFrom s).ifChanged s gr 0 .headFrom).ifChanged s gr 1 .stateFrom).ifChanged s gr 2 .flagsFrom

/-- The graph that stands at a bind area. -/
def graphAt (s : State) (ctx : Nat) (area : DWord) : Option Graph := (graph? s ctx area).map (foundGraph s)

/-- A bind area that holds no graph. -/
def emptyArea (ctx launch : Nat) (area : DWord) (pages : List Nat) (state cause : Nat) : Graph :=
  { area := area, pages := pages, held := [], ctx := ctx, launch := launch, state := state, cause := cause, nperiod := 0, stages := []
    chans := [], table := [], periods := 0, entry := 0, count := 0 }

/-- Channels without their slot flags. -/
def Graph.bareChans (gr : Graph) : List Chan :=
  gr.chans.map fun c => { c with rings := c.rings.map fun (r : Ring) => { r with full := [], late := [] } }

/-- The parts of a bind area that a change of its graph writes. -/
def Graph.changes (old new : Graph) : List Nat :=
  [ (0, decide ((old.state, old.cause, old.nperiod, old.periods, old.entry, old.count) = (new.state, new.cause, new.nperiod, new.periods, new.entry, new.count)))
  , (1, decide (old.stages = new.stages) && decide (old.bareChans = new.bareChans))
  , (2, decide ((old.chans.map fun c => c.rings.map (·.full)) = new.chans.map fun c => c.rings.map (·.full))) ].filterMap
    fun p => if p.2 then none else some p.1

/-- A tracked write of the balance engine that leaves n bytes of a bind area open (R288, R329). -/
def leaveOpen (gr : Graph) (s : State) (r : Nat × Nat) : Option State :=
  (captureLines s (linesOf r.1 r.2)).map fun t =>
    let u := { t with hbm := t.hbm.forgetRange t.occasion r.1 r.2 }.nextOccasion
    if inWindow s r.1 then pin u gr.ctx else u

/-- Stores a part of a bind area, whose layout is the model's: the first eight bytes, of a value that is left open (log entry 57). -/
def savePart (gr : Graph) (s : State) (k : Nat) : Option State :=
  match gr.part k with
  | [] => some s
  | r :: _ => leaveOpen gr s (r.1, min 8 r.2)

/-- The graph at its place, with what its area now holds. -/
def keepGraph (s : State) (gr : Graph) : State := putGraph s { gr with held := [0, 1, 2].map fun k => s.hbm.within (gr.part k) }

/-- The parts of a bind area that a graph's new state writes, those whose stores still wait among them. -/
def dueParts (s : State) (gr : Graph) : List Nat :=
  let old := (graph? s gr.ctx gr.area).getD (emptyArea gr.ctx gr.launch gr.area [] 0 0)
  distinct (old.owed ++ old.changes gr)

/-- The graph with its state stored in its bind area, tracked writes of the balance engine (R288); none while it waits for room in a log. -/
def saveGraph (s : State) (gr : Graph) : Option State :=
  ((dueParts s gr).foldlM (savePart gr) s).map fun t => keepGraph t { gr with owed := [] }

/-- A graph after a group of one of its roles has ended under action 3 (R298). -/
def Graph.terminated (gr : Graph) (g : Group) : Graph :=
  if gr.ctx ≠ g.ctx then gr
  else
    let drop : Stage → Stage := fun x => { x with isOpen := x.isOpen - 1 }
    match gr.stageOf g with
    | none => gr
    | some k => ((if (g.firing.map (·.area)) = some gr.area then gr.modifyStage k drop else gr).endStage k 2).settle

/-- The graph with its state stored where the logs have room; where they have none, the stores of its area wait for it (R332). -/
def saveOrPut (s : State) (gr : Graph) : State := (saveGraph s gr).getD (putGraph s { gr with owed := dueParts s gr })

/-- The stores of bind areas that waited for room in a log are made where there is room now (R332). -/
def payOwed (s : State) : State :=
  s.work.graphs.foldl (fun s gr => if gr.owed.isEmpty then s else (saveGraph s (foundGraph s gr)).getD s) s

/-- A group of a stage's role ends under action 3: the stage becomes TERMINATED and its firing is no longer open (R298). The end does not
wait for the logs. -/
def terminateStage (s : State) (g : Group) : State :=
  s.work.graphs.foldl (fun s raw =>
    let gr := foundGraph s raw
    if gr.terminated g = gr then s else saveOrPut s (gr.terminated g)) s

/-- The bound and ended graphs of a gang that ends are UNBOUND (R291); none while a store waits for room in a log. -/
def unbindGraphs (s : State) (launch : Nat) : Option State :=
  (s.work.graphs.filter fun gr => gr.launch == launch && (gr.state == 2 || gr.state == 3)).foldlM
    (fun s raw => saveGraph s { foundGraph s raw with state := 0 }) s

/-- Whether the commit of an interval performs the deferred writes of another: those of its own and of earlier ones (R333). -/
def commits (rin r : BitVec 16) : Bool := decide ((rin - r).toNat < 2 ^ 15)

/-- The records that the commit of an interval performs at SYSTEM make their slots FULL (R208, R295). -/
def Ring.performed (rin : BitVec 16) (r : Ring) : Ring :=
  { r with full := r.full ++ (r.late.filter fun p => commits rin p.2).map (·.1), late := r.late.filter fun p => !commits rin p.2 }

/-- The graph after the commit of an interval. -/
def Graph.committed (rin : BitVec 16) (gr : Graph) : Graph :=
  { gr with chans := gr.chans.map fun c => { c with rings := c.rings.map (·.performed rin) } }

/-- The slots that the commit of an interval makes FULL. -/
def commitSlots (s : State) (rin : BitVec 16) : State :=
  s.work.graphs.foldl (fun s raw => if raw.committed rin = raw then s else saveOrPut s ((foundGraph s raw).committed rin)) s

/-! ## Faults of the channel instructions (R297) -/

/-- The detail of 0x0803. -/
def firingDetail (reason chan stage : Nat) : Nat := stage * 65536 + chan * 256 + reason

/-- The stage of a group in the graph of a bind area, or 0xFF where it has none there (R297). -/
def stageAt (s : State) (g : Group) (area : DWord) : Nat := ((graphAt s g.ctx area).bind fun gr => gr.stageOf g).getD 0xFF

/-- The stage of a group in the bound graph that has one for it, or 0xFF where none has: that of a SEND or RECV without an open firing
(R297; log entry 55). -/
def stageNow (s : State) (g : Group) : Nat :=
  ((s.work.graphs.filter fun gr => gr.ctx == g.ctx).findSome? fun raw =>
    let gr := foundGraph s raw
    if gr.state = 2 then gr.stageOf g else none).getD 0xFF

/-- 0x0803 in the whole set. -/
def firingFault (x : Issue) (reason chan stage : Nat) : Effect := engineFault x 0 0 none (0x0803, firingDetail reason chan stage)

/-- 0x0805 in the whole set. -/
def peerFault (x : Issue) : Effect := engineFault x 0 0 none (0x0805, 0)

/-! ## FIRE and FEND (R292 to R297) -/

/-- The index of a group within its role, and the groups of the role (R123, R292). -/
def roleIndex (s : State) (g : Group) : Nat × Nat :=
  match s.launch? g.launch with
  | none => (0, 1)
  | some l => (g.group - ((l.roles.take g.role).map (·.groups)).sum, max 1 ((l.roles[g.role]?.map (·.groups)).getD 1))

/-- The next firing of a group: the first firing not yet admitted that falls to it. -/
def nextFiring (st : Stage) (idx n : Nat) : Nat := st.admitted + (idx + n - st.admitted % n) % n

/-- Whether the cursor stands at a firing of a stage. -/
def Graph.cursorAt (gr : Graph) (k n : Nat) : Bool :=
  let e := gr.entryAt gr.entry
  e.stage == k && gr.periods * (gr.stage k).q + e.firstn + gr.count == n

/-- Whether an input is exhausted: its producer has FINISHED and every position is taken (R294). -/
def Graph.exhausted (gr : Graph) (i : Nat × Nat) : Bool :=
  let c := gr.chan i.1
  (gr.stage c.prodSt).state == 1 && (c.ring i.2).cpos == c.ppos

/-- How many positions a firing takes of an input, if they are FULL (R294). -/
def Graph.available (gr : Graph) (i : Nat × Nat) : Option Nat :=
  let c := gr.chan i.1
  let r := c.ring i.2
  if Graph.allFull r r.cpos c.cons then some c.cons
  else if (gr.stage c.prodSt).state = 1 ∧ Graph.allFull r r.cpos (c.ppos - r.cpos) then some (min c.cons (c.ppos - r.cpos)) else none

/-- Whether an input needs a record that a TERMINATED producer never sent (R294, R298). -/
def Graph.orphaned (gr : Graph) (i : Nat × Nat) : Bool :=
  let c := gr.chan i.1
  let r := c.ring i.2
  (gr.stage c.prodSt).state == 2 && !Graph.allFull r r.cpos c.cons

/-- The assignments of a firing of a stage (R293). -/
def Graph.assign (gr : Graph) (k n : Nat) : Firing :=
  { area := gr.area, stage := k, n := n
    ins := (gr.inputs k).map fun i =>
      { chan := i.1, first := ((gr.chan i.1).ring i.2).cpos, count := (gr.available i).getD 0, rcvd := 0 }
    outs := (gr.outputs k).map fun c => { chan := c, first := (gr.chan c).ppos, sent := (gr.chan c).rings.map fun _ => 0 } }

/-- The graph after a firing is admitted (R292, R293). -/
def Graph.enter (gr : Graph) (k : Nat) : Graph :=
  let g1 := (gr.inputs k).foldl (fun a i => a.modifyChan i.1 fun c => c.modifyRing i.2 fun r =>
    { r with cpos := r.cpos + (gr.available i).getD 0 }) gr
  let g2 := (gr.outputs k).foldl (fun a c => a.modifyChan c fun ch => { ch with ppos := ch.ppos + ch.prod }) g1
  let g3 := g2.modifyStage k fun st => { st with admitted := st.admitted + 1, isOpen := st.isOpen + 1 }
  ({ g3 with count := g3.count + 1 } : Graph).settle

/-- Writes a predicate in every thread of a set (R146). -/
def setPred (g : Group) (lanes : List Nat) (p : PReg) (v : Bool) : Group := lanes.foldl (fun g l => g.pput l p.toNat v) g

/-- What FIRE does for a stage of a graph. -/
def fireStage (s : State) (x : Issue) (pd : PReg) (gr : Graph) (k : Nat) : Effect :=
  let (idx, cnt) := roleIndex s x.g
  let n := nextFiring (gr.stage k) idx cnt
  let st := gr.stage k
  let ins := gr.inputs k
  let finished := fun (gr : Graph) => match saveGraph s gr with
    | some t => Effect.done (t.setGroup (setPred x.g x.lanes pd true))
    | none => .stall
  if st.state ≠ 0 ∨ (gr.nperiod ≠ 0 ∧ gr.nperiod ≤ n / max 1 st.q) ∨ ins.any gr.exhausted then
    finished (if st.state = 0 then gr.endStage k 1 else gr)
  else if !gr.cursorAt k n then .stall
  else if ins.any gr.orphaned then peerFault x
  else if ins.all fun i => (gr.available i).isSome then
    (match saveGraph s (gr.enter k) with
    | some t => .done (t.setGroup { setPred x.g x.lanes pd false with firing := some (gr.assign k n) })
    | none => .stall)
  else .stall

/-- A 64-byte load of a bind area (R294). -/
def areaFault (s : State) (g : Group) (va : DWord) : Option CauseDetail :=
  match groupAccess s g (recordAccess 64 64) va with
  | .error c => some c
  | .ok _ => none

/-- FIRE (R294): a BINDING graph makes it wait (R291), and an ENDED graph's stages have finished, so it gives Pd 1 there (R304; log entry
56). -/
def execFire (pd : PReg) (a : SReg) (s : State) :=
  issue (.fire pd a) (fun s x =>
    let va := x.g.spair (sA x a)
    match areaFault s x.g va with
    | some c => setFault x 0 va c
    | none =>
      match graphAt s x.g.ctx va with
      | none => firingFault x 6 0xFF 0xFF
      | some gr =>
        if gr.state = 1 then .stall
        else match (if gr.state = 2 ∨ gr.state = 3 then gr.stageOf x.g else none) with
          | none => firingFault x 6 0xFF 0xFF
          | some k =>
            if x.g.firing.isSome then firingFault x 4 0xFF k else fireStage s x pd gr k) s

/-- The first thing that a firing has not done yet: the channel (R297). -/
def firingShort (gr : Graph) (f : Firing) : Option Nat :=
  ((f.ins.find? fun i => i.rcvd != i.count).map (·.chan))
  <|> (f.outs.find? fun o => o.sent.any fun n => n != (gr.chan o.chan).prod).map (·.chan)

/-- Whether a firing took fewer records than CONS of some input (R294). -/
def firingPartial (gr : Graph) (f : Firing) : Bool := f.ins.any fun i => decide (i.count < (gr.chan i.chan).cons)

/-- The graph after a firing is closed. -/
def closeFiring (gr : Graph) (f : Firing) (last : Bool) : Graph :=
  let g1 := gr.modifyStage f.stage fun st => { st with ended := st.ended + 1, isOpen := st.isOpen - 1 }
  let ends := last || firingPartial gr f || (gr.nperiod != 0 && f.n + 1 == gr.nperiod * (gr.stage f.stage).q)
  if ends ∧ (gr.stage f.stage).state = 0 then g1.endStage f.stage 1 else g1.settle

/-- FEND (R297). -/
def execFend (a b : SReg) (s : State) :=
  issue (.fend a b) (fun s x =>
    let va := x.g.spair (sA x a)
    match areaFault s x.g va with
    | some c => setFault x 0 va c
    | none =>
      match x.g.firing with
      | none => firingFault x 5 0xFF (stageAt s x.g va)
      | some f =>
        match graphAt s x.g.ctx f.area with
        | none => firingFault x 5 0xFF f.stage
        | some gr =>
          match firingShort gr f with
          | some c => firingFault x 1 c f.stage
          | none =>
            (match saveGraph s (closeFiring gr f (bitOf (x.g.sregGet (sB x b)).toNat 0)) with
            | some t => .done (t.setGroup { x.g with firing := none })
            | none => .stall)) s

/-! ## SEND and RECV (R295, R296) -/

/-- The access of one line of a record. -/
def lineAccess (write : Bool) (types : List Nat) : Access := ⟨if write then 1 else 0, 64, 64, !write, write, false, types⟩

/-- Line n of a record at an address. -/
def lineVa (va : DWord) (n : Nat) : DWord := va + BitVec.ofNat 64 (64 * n)

/-- The places of the lines of a record; a wait where a Pond segment is not READY, or the first fault with its address. -/
def linePlaces (s : State) (g : Group) (a : Access) (va : DWord) : Nat → Except (Option (DWord × CauseDetail)) (List Place)
  | 0 => .ok []
  | n + 1 =>
    match linePlaces s g a va n with
    | .error e => .error e
    | .ok l =>
      match groupAccess s g a (lineVa va n) with
      | .error c => .error (some (lineVa va n, c))
      | .ok p =>
        if segWaits s p then .error none
        else if tileWaits g p.target 64 then .error none
        else match (if a.wr then logCheck s g p 64 else .room) with
          | .full die => .error (some (lineVa va n, logFault die))
          | .wait => .error none
          | .room => .ok (l ++ [p])

/-- The die whose log is full for a line of a record or for its descriptor, if it does not only wait (R332). -/
def lineStop (s : State) (g : Group) (p : Place) : Option Nat :=
  match logCheck s g p 64, deferCheck s g with
  | .full die, _ => some die
  | .room, .full die => some die
  | _, _ => none

/-- Copies a record line by line with its descriptors; an error gives the number of a line, and the die whose log is full, if the copy does
not only wait (R332). -/
def copyLines (s : State) (g : Group) : Nat → List (Place × Place) → Except (Nat × Option Nat) State
  | _, [] => .ok s
  | n, (p, q) :: r =>
    match (writePlace s (agentOf g) q (readPlace s p 64)).bind fun s1 => writeDesc s1 (agentOf g) q (readDesc s p).1 with
    | none => .error (n, lineStop s g q)
    | some s2 => copyLines s2 g (n + 1) r

/-- Copies a record into several slots; an error gives the address of a line with the die. -/
def copySlots (s : State) (g : Group) (src : List Place) : List (DWord × List Place) → Except (DWord × Option Nat) State
  | [] => .ok s
  | (va, d) :: r =>
    match copyLines s g 0 (src.zip d) with
    | .error (n, die) => .error (lineVa va n, die)
    | .ok s => copySlots s g src r

/-- Every list of places, or the first stop. -/
def allPlaces : List (Except (Option (DWord × CauseDetail)) (List Place)) → Except (Option (DWord × CauseDetail)) (List (List Place))
  | [] => .ok []
  | .error e :: _ => .error e
  | .ok l :: r => (allPlaces r).map (l :: ·)

/-- Types that a record may be copied from or to: neither FITTED nor MMIO (R295, R296). -/
def recordTypes : List Nat := [0, 1, 3, 4, 5]

/-- A ring after a SEND for a position: its slot is FULL, or becomes so at the commit of the interval that performs the record at SYSTEM. -/
def Ring.take (r : Ring) (p : Nat) (late : Option (BitVec 16)) : Ring :=
  match late with
  | none => { r with full := r.full ++ [p] }
  | some rin => { r with late := r.late ++ [(p, rin)] }

/-- Whether the slot of a position is not FREE: it holds a record, performed at ESCOPE or not. -/
def Ring.taken (r : Ring) (size p : Nat) : Bool := (r.full ++ r.late.map (·.1)).any fun q => q % max 1 size == p % max 1 size

/-- Whether the writes of a record to some places are performed at the channel's ESCOPE only by a commit (R208, R295). -/
def lateAt (ch : Chan) (l : List Place) : Bool := ch.escope == 4 && l.any fun p => p.irrev && !p.immed

/-- The state after a SEND has been performed in every ring; `late` gives the rings whose slots a commit makes FULL. -/
def sent (s : State) (x : Issue) (gr : Graph) (f : Firing) (c : Nat) (ks live late : List Nat) (pos : Nat → Nat) : Option State :=
  let gr1 := live.foldl (fun (a : Graph) k => a.modifyChan c fun ch => ch.modifyRing k fun r =>
    r.take (pos k) (if late.contains k then some s.domain.rin else none)) gr
  let outs := f.outs.map fun (o : FireOut) =>
    if o.chan = c then { o with sent := o.sent.zipIdx.map fun (n, k) => if ks.contains k then n + 1 else n } else o
  (saveGraph s gr1).map fun s => s.modifyGroup x.uid fun g => { g with firing := some { f with outs := outs } }

/-- SEND for an output of the open firing. -/
def sendBody (s : State) (x : Issue) (va : DWord) (gr : Graph) (f : Firing) (o : FireOut) (ks : List Nat) : Effect :=
  let ch := gr.chan o.chan
  let pos := fun k => o.first + o.sent.getD k 0
  let state := fun k => (gr.stage (ch.ring k).stage).state
  let live := ks.filter fun k => state k != 1
  let src := linePlaces s x.g (lineAccess false recordTypes) va ch.lines
  let dst := allPlaces (ks.map fun k => linePlaces s x.g (lineAccess true [0, 1]) (ch.slotAddr k (pos k)) ch.lines)
  match src, dst with
  | .error (some (v, c)), _ => setFault x 0 v c
  | .error none, _ => .stall
  | _, .error (some (v, c)) => setFault x 1 v c
  | _, .error none => .stall
  | .ok ps, .ok _ =>
    if ks.any fun k => state k == 2 then peerFault x
    else if live.any fun k => (ch.ring k).taken ch.size (pos k) then .stall
    else
      match allPlaces (live.map fun k => linePlaces s x.g (lineAccess true [0, 1]) (ch.slotAddr k (pos k)) ch.lines) with
      | .error _ => .stall
      | .ok ds =>
        match copySlots s x.g ps ((live.map fun k => ch.slotAddr k (pos k)).zip ds) with
        | .error (v, some die) => setFault x 1 v (logFault die)
        | .error (_, none) => .stall
        | .ok t => (match sent t x gr f o.chan ks live (((live.zip ds).filter fun d => lateAt ch d.2).map (·.1)) pos with
          | some t => .done t
          | none => .stall)

/-- SEND (R295). -/
def execSend (a b : SReg) (s : State) :=
  issue (.send a b) (fun s x =>
    let va := x.g.spair (sA x a)
    let v := (x.g.sregGet (sB x b)).toNat
    let c := bitsOf v 0 6
    let ks := bitList (bitsOf v 8 8) 8
    match x.g.firing with
    | none => firingFault x 5 c (stageNow s x.g)
    | some f =>
      match graphAt s x.g.ctx f.area with
      | none => firingFault x 5 c f.stage
      | some gr =>
        match f.outs.find? fun o => o.chan == c with
        | none => firingFault x 7 c f.stage
        | some o =>
          if ks.isEmpty || ks.any fun k => decide ((gr.chan c).rings.length ≤ k) then firingFault x 7 c f.stage
          else if ks.any fun k => o.sent.getD k 0 == (gr.chan c).prod then firingFault x 3 c f.stage
          else if !engineReady s x.g || ((gr.chan c).escope == 4 && systemWaits s x.g .release .system) then .stall
          else sendBody s x va gr f o ks) s

/-- The state after a RECV has taken its record. -/
def received (s : State) (x : Issue) (pd : PReg) (gr : Graph) (f : Firing) (i : FireIn) (k p : Nat) : Option State :=
  let gr1 := gr.modifyChan i.chan fun ch => ch.modifyRing k fun r => { r with full := r.full.filter (· != p), rcvd := r.rcvd + 1 }
  let ins := f.ins.map fun (j : FireIn) => if j.chan = i.chan then { j with rcvd := j.rcvd + 1 } else j
  (saveGraph s gr1).map fun s => s.modifyGroup x.uid fun g => { setPred g x.lanes pd false with firing := some { f with ins := ins } }

/-- RECV of the next record of an input. -/
def recvBody (s : State) (x : Issue) (pd : PReg) (va : DWord) (gr : Graph) (f : Firing) (i : FireIn) (k : Nat) : Effect :=
  let ch := gr.chan i.chan
  let p := i.first + i.rcvd
  match linePlaces s x.g (lineAccess false [0, 1]) (ch.slotAddr k p) ch.lines, linePlaces s x.g (lineAccess true recordTypes) va ch.lines with
  | .error (some (v, c)), _ => setFault x 0 v c
  | .error none, _ => .stall
  | _, .error (some (v, c)) => setFault x 1 v c
  | _, .error none => .stall
  | .ok ps, .ok qs =>
    match copyLines s x.g 0 (ps.zip qs) with
    | .error (n, some die) => setFault x 1 (lineVa va n) (logFault die)
    | .error (_, none) => .stall
    | .ok t => (match received t x pd gr f i k p with
      | some t => .done t
      | none => .stall)

/-- RECV (R296). -/
def execRecv (pd : PReg) (a b : SReg) (s : State) :=
  issue (.recv pd a b) (fun s x =>
    let va := x.g.spair (sA x a)
    let c := bitsOf (x.g.sregGet (sB x b)).toNat 0 6
    match x.g.firing with
    | none => firingFault x 5 c (stageNow s x.g)
    | some f =>
      match graphAt s x.g.ctx f.area with
      | none => firingFault x 5 c f.stage
      | some gr =>
        match f.ins.find? fun i => i.chan == c, (gr.inputs f.stage).find? fun i => i.1 == c with
        | some i, some (_, k) =>
          if i.rcvd = (gr.chan c).cons then firingFault x 2 c f.stage
          else if i.rcvd = i.count then .done (s.setGroup (setPred x.g x.lanes pd true))
          else if !engineReady s x.g then .stall
          else recvBody s x pd va gr f i k
        | _, _ => firingFault x 7 c f.stage) s

/-! ## GSTAT and CHSTAT (R302) -/

/-- A word of GSTAT. -/
def gstatWord (gr : Graph) (sel : Nat) : Nat :=
  let k := bitsOf sel 8 5
  match sel % 8 with
  | 0 => gr.state + gr.stages.length * 256 + gr.chans.length * 65536
  | 1 => gr.cause * 65536
  | 2 => gr.periods
  | 3 => gr.count * 65536 + gr.entry % 65536
  | 4 => gr.table.length
  | 5 => (gr.stages[k]?.map (·.q)).getD 0
  | 6 => (gr.stages[k]?.map fun st => st.state + st.isOpen % 32 * 256).getD 0
  | _ => (gr.stages[k]?.map (·.ended)).getD 0

/-- A word of CHSTAT. -/
def chstatWord (gr : Graph) (sel : Nat) : Nat :=
  let c := bitsOf sel 0 6
  let k := bitsOf sel 8 3
  let ch := gr.chan c
  let r := ch.ring k
  if gr.chans.length ≤ c ∨ ch.rings.length ≤ k then 0xFFFFFFFF
  else match bitsOf sel 12 3 with
    | 0 => ch.size
    | 1 => ch.escope + (if ch.pond then 8 else 0)
    | 2 => ch.ppos
    | 3 => r.cpos
    | 4 => r.full.length
    | 5 => ch.prodEnd.getD 0xFFFFFFFF
    | 6 => r.rcvd
    | _ => ch.init

/-- Reads a status word of the graph at a pair (R302). -/
def graphStatus (i : Instr) (d a b : SReg) (f : Graph → Nat → Nat) (s : State) : Host.Outcome State Fault Refusal :=
  issue i (fun s x =>
    if Config.counterMax ≤ x.g.ldCount then .stall
    else
      let w := ((graphAt s x.g.ctx (x.g.spair (sA x a))).map fun gr => f gr (x.g.sregGet (sB x b)).toNat).getD 0
      .done (s.setGroup { x.g with loads := x.g.loads ++ [plainLoad [(RegDst.s (sD x d), BitVec.ofNat 32 w)]] })) s

/-- GSTAT. -/
def execGstat (d a b : SReg) (s : State) := graphStatus (.gstat d a b) d a b gstatWord s
/-- CHSTAT. -/
def execChstat (d a b : SReg) (s : State) := graphStatus (.chstat d a b) d a b chstatWord s

/-! ## GBIND and GREBIND at issue (R284, R300) -/

/-- Issues a bind. -/
def bindIssue (i : Instr) (kind : Nat) (sh co cs : SReg) (s : State) : Host.Outcome State Fault Refusal :=
  issue i (fun s x =>
    if !fropReady s x.g then .stall
    else .done (pushFrop s x kind [shAddr x sh, x.g.spair (x.ext.snum 9 co.toNat)] (csAddr x cs))) s

/-- GBIND. -/
def execGbind (sh co cs : SReg) (s : State) := bindIssue (.gbind sh co cs) 4 sh co cs s
/-- GREBIND. -/
def execGrebind (sh co cs : SReg) (s : State) := bindIssue (.grebind sh co cs) 5 sh co cs s

/-! ## The bind at the balance engine (R285 to R288) -/

/-- Why a bind does not succeed: a cause with its address and access kind, or a wait for room in a log. -/
inductive BindStop where
  | wait
  | fault (va : Option DWord) (kind : Nat) (c : CauseDetail)

/-- A part of a bind that breaks a rule: 0x0602 with the part and its index (R290). -/
def badPart (part idx : Nat) : BindStop := .fault none 0 (0x0602, part * 2 ^ 40 + idx % 256 * 2 ^ 32)

/-- Reads n words of 64 bits for the balance engine, in pieces of a size to which they are aligned. -/
def bindRead (s : State) (g : Group) (core size : Nat) : Nat → Nat → Except BindStop (List DWord)
  | 0, _ => .ok []
  | n + 1, va =>
    let a := BitVec.ofNat 64 va
    match engineAccess s g core ⟨7, size, size, true, false, false, recordTypes⟩ a with
    | .error c => .error (.fault (some a) 7 c)
    | .ok p => (bindRead s g core size n ((va + size) % 2 ^ 64)).map (dwordsOf (size / 8) (enginePlace s g.ctx p size) ++ ·)

/-- The places of the blocks of a range, whose translation is an engine read (R285). -/
def bindPlaces (s : State) (g : Group) (core : Nat) : List DWord → Except BindStop (List (DWord × Place))
  | [] => .ok []
  | va :: r =>
    match engineAccess s g core (rangeAccess false) va with
    | .error c => .error (.fault (some va) 7 c)
    | .ok p => (bindPlaces s g core r).map ((va, p) :: ·)

/-- Whether every block of a range passes the checks of R173 for a write (R283). -/
def bindWritable (s : State) (g : Group) (core : Nat) (l : List DWord) : Bool :=
  l.all fun va => match engineAccess s g core (rangeAccess true) va with
    | .ok _ => true
    | .error _ => false

/-- Whether the header of a graph record is as R282 allows. -/
def headerOk (w : List DWord) : Bool :=
  recField w 0 40 24 == 0 && decide (recField w 0 37 3 ≤ 4) && recField w 0 16 21 == 0 && decide (recField w 0 8 8 ≤ 64)
  && decide (1 ≤ recField w 0 0 8) && decide (recField w 0 0 8 ≤ 32) && recField w 1 32 32 == 0 && recField w 2 32 32 == 0
  && (w.drop 3).all (· == 0)

/-- The stages of a record, before binding. -/
def readStages (w : List DWord) (n : Nat) : List (Nat × Nat) := (List.range n).map fun k => (recField w (2 * k) 0 32, recField w (2 * k) 32 2)

/-- The first stage entry that breaks R283. -/
def badStage (l : Launch) (teams : List Team) (w : List DWord) (st : List (Nat × Nat)) : Option Nat :=
  (List.range st.length).find? fun k =>
    let x := st.getD k (0, 0)
    recField w (2 * k) 34 30 != 0 || recField w (2 * k + 1) 0 64 != 0
    || !(teams.any fun t => t.launch == l.uid && t.index == x.1)
    || ((l.roles[x.2]?.map (·.groups)).getD 0) == 0 || (st.take k).contains x

/-- A channel of a record, before binding. -/
def readChan (w : List DWord) (c : Nat) : Chan :=
  let f := fun k lo n => recField w (4 * c + k) lo n
  { buf := BitVec.ofNat 64 (f 0 0 64), bytes := f 1 32 32, init := f 1 16 16, prod := f 1 8 8, cons := f 1 0 8, lines := f 2 49 4 + 1
    scope := f 2 53 3, prodSt := f 2 41 5, size := 0, escope := 0, pond := false, ppos := f 1 16 16, prodEnd := none
    rings := (List.range (f 2 46 3 + 1)).map fun k => { stage := f 2 (5 * k) 5, cpos := 0, rcvd := 0, full := List.range (f 1 16 16) } }

/-- Whether a list repeats no number. -/
def noRepeats : List Nat → Bool
  | [] => true
  | x :: r => !r.contains x && noRepeats r

/-- Whether a channel entry is as R282 and R283 allow. -/
def chanOk (w : List DWord) (c nstage : Nat) (ch : Chan) : Bool :=
  let cons := ch.rings.map (·.stage)
  recField w (4 * c + 2) 56 8 == 0 && recField w (4 * c + 2) 40 1 == 0 && recField w (4 * c + 3) 0 64 == 0
  && recField w (4 * c + 2) 0 40 / 2 ^ (5 * ch.rings.length) == 0 && decide (ch.scope ≤ 4) && decide (1 ≤ ch.prod) && decide (1 ≤ ch.cons)
  && decide (ch.prodSt < nstage) && cons.all (fun k => decide (k < nstage)) && noRepeats cons && ch.buf.toNat % 64 == 0
  && decide (ch.lines * 64 ≤ ch.stride)

/-- The die of a stage's team at present. -/
def teamDie (s : State) (launch : Nat) (st : Nat × Nat) : Nat × Nat :=
  match s.work.teams.find? fun t => t.launch == launch && t.index == st.1 with
  | some t => (dieOf t.core, t.core)
  | none => (0, 0)

/-- The stages of a channel. -/
def Chan.stages (c : Chan) : List Nat := c.prodSt :: c.rings.map (·.stage)

/-- Whether every element of a list equals the first. -/
def allSame (l : List Nat) : Bool := l.all fun x => x == l.headD 0

/-- The buffer of a channel (R283): whether it is in Pond, or the part that fails. -/
def bufferKind (s : State) (l : Launch) (st : List (Nat × Nat)) (c : Nat) (ch : Chan) (moved : Bool) (ps : List (DWord × Place)) :
    Except BindStop Bool :=
  let hbm := ps.all fun (_, p) => match p.target with
    | .hbm _ => true
    | _ => false
  let dies := ps.filterMap fun (_, p) => match p.target with
    | .pond core _ => some (dieOf core)
    | _ => none
  let window := ps.any fun (va, _) => decide (windowBase ≤ va.toNat)
  if hbm then .ok false
  else if window || dies.length != ps.length || !allSame dies then .error (badPart 4 c)
  else if ch.stages.all fun k => (teamDie s l.uid (st.getD k (0, 0))).1 == dies.headD 0 then .ok true
  else .error (badPart (if moved then 6 else 4) c)

/-- Checks the buffers of the channels from c on. -/
def checkBuffers (s : State) (g : Group) (core : Nat) (l : Launch) (st : List (Nat × Nat)) (moved : Bool) :
    Nat → List Chan → Except BindStop (List Chan)
  | _, [] => .ok []
  | c, ch :: r =>
    match bindPlaces s g core (blocksOf (ch.buf.toNat, ch.bytes)) with
    | .error e => .error e
    | .ok ps =>
      if !bindWritable s g core (blocksOf (ch.buf.toNat, ch.bytes)) then .error (badPart 4 c)
      else match bufferKind s l st c ch moved ps with
      | .error e => .error e
      | .ok pond => (checkBuffers s g core l st moved (c + 1) r).map ({ ch with pond := pond } :: ·)

/-! ### The repetition vector (R286) -/

/-- A stage's rate relative to its connected part: numerator, denominator and part. -/
abbrev Rate := Nat × Nat × Nat

/-- A fraction in lowest terms. -/
def reduced (n d : Nat) : Nat × Nat := (n / max 1 (Nat.gcd n d), d / max 1 (Nat.gcd n d))

/-- The rates after one more pair of producer and consumer, or none where they disagree. -/
def addRate (l : List Rate) (p k prod cons : Nat) : Option (List Rate) :=
  let a := l.getD p (1, 1, p)
  let b := l.getD k (1, 1, k)
  let want := reduced (a.1 * prod) (a.2.1 * cons)
  if a.2.2 = b.2.2 then (if (b.1, b.2.1) = want then some l else none)
  else some (l.map fun x =>
    if x.2.2 = b.2.2 then
      let y := reduced (x.1 * want.1 * b.2.1) (x.2.1 * want.2 * b.1)
      (y.1, y.2, a.2.2)
    else x)

/-- The rates after a channel. -/
def addChan (l : List Rate) (ch : Chan) : Option (List Rate) :=
  ch.rings.foldlM (fun l r => addRate l ch.prodSt r.stage ch.prod ch.cons) l

/-- The rates of a list of channels, or the first that admits no positive vector. -/
def solveRates : Nat → List Rate → List Chan → Except Nat (List Rate)
  | _, l, [] => .ok l
  | c, l, ch :: r =>
    match addChan l ch with
    | none => .error c
    | some l1 => solveRates (c + 1) l1 r

/-- The least common multiple of a list. -/
def lcmAll (l : List Nat) : Nat := l.foldl Nat.lcm 1
/-- The greatest common divisor of a list. -/
def gcdAll (l : List Nat) : Nat := l.foldl Nat.gcd 0

/-- q of each stage: the least vector of positive integers in each part. -/
def leastVector (l : List Rate) : List Nat :=
  l.map fun x =>
    let part := l.filter fun y => y.2.2 == x.2.2
    let den := lcmAll (part.map fun y => y.2.1)
    let nums := part.map fun y => y.1 * (den / max 1 y.2.1)
    x.1 * (den / max 1 x.2.1) / max 1 (gcdAll nums)

/-! ### The simulation of a period (R287) -/

/-- What the simulation keeps: the tokens of each ring, the peak of each channel, the firings left and the table. -/
structure Sim where
  tok   : List (List Nat)
  peak  : List Nat
  left  : List Nat
  table : List FireEntry
  done  : Nat

/-- The token count of a ring. -/
def Sim.tokAt (m : Sim) (i : Nat × Nat) : Nat := (m.tok.getD i.1 []).getD i.2 0

/-- Whether a stage may fire. -/
def Sim.fireable (gr : Graph) (m : Sim) (k : Nat) : Bool :=
  m.left.getD k 0 != 0 && (gr.inputs k).all fun i => decide ((gr.chan i.1).cons ≤ m.tokAt i)

/-- The tokens after a stage has consumed its inputs. -/
def Sim.consume (gr : Graph) (m : Sim) (k : Nat) : List (List Nat) :=
  (gr.inputs k).foldl (fun t i => modifyAt (fun l => modifyAt (fun n => n - (gr.chan i.1).cons) l i.2) t i.1) m.tok

/-- Adds a firing to the table. -/
def Sim.note (gr : Graph) (m : Sim) (k : Nat) : List FireEntry :=
  match m.table.getLast? with
  | some e =>
    if e.stage = k then m.table.dropLast ++ [{ e with rep := e.rep + 1 }]
    else m.table ++ [{ stage := k, rep := 1, firstn := (gr.stage k).q - m.left.getD k 0 }]
  | none => [{ stage := k, rep := 1, firstn := (gr.stage k).q - m.left.getD k 0 }]

/-- One firing of a stage. -/
def Sim.fire (gr : Graph) (m : Sim) (k : Nat) : Sim :=
  let t1 := m.consume gr k
  let t2 := (gr.outputs k).foldl (fun t c => modifyAt (fun l => l.map (· + (gr.chan c).prod)) t c) t1
  { tok := t2, peak := m.peak.zipIdx.map fun (p, c) => if (gr.outputs k).contains c then (t2.getD c []).foldl max p else p
    left := modifyAt (· - 1) m.left k, table := m.note gr k, done := m.done + 1 }

/-- Runs firings until none is left, or none may fire. -/
def simulate (gr : Graph) : Nat → Sim → Sim
  | 0, m => m
  | fuel + 1, m =>
    match ((List.range gr.stages.length).reverse).find? (m.fireable gr) with
    | some k => simulate gr fuel (m.fire gr k)
    | none => m

/-- The simulation of a period of a graph with its q. -/
def simulatePeriod (gr : Graph) : Sim :=
  simulate gr ((gr.stages.map (·.q)).sum)
    { tok := gr.chans.map fun c => c.rings.map fun _ => c.init, peak := gr.chans.map (·.init), left := gr.stages.map (·.q), table := [], done := 0 }

/-! ### The bound graph (R285, R288) -/

/-- ESCOPE of a channel (R285). -/
def escopeOf (s : State) (launch : Nat) (st : List (Nat × Nat)) (ch : Chan) : Nat :=
  let xs := ch.stages.map fun k => st.getD k (0, 0)
  let need := if allSame (xs.map (·.1)) then 1 else if allSame (xs.map fun x => (teamDie s launch x).1) then 2 else 3
  max ch.scope need

/-- The bytes that a bind area needs (R285). -/
def areaNeeds (nent : Nat) (chans : List Chan) : Nat :=
  flagOffset nent + flagBytes chans

/-- The stages of a graph with their q and their cores. -/
def boundStages (s : State) (launch : Nat) (st : List (Nat × Nat)) (q : List Nat) (periods : Nat) : List Stage :=
  st.zipIdx.map fun (x, k) =>
    { team := x.1, role := x.2, q := q.getD k 1, state := 0, admitted := periods * q.getD k 1, ended := 0, isOpen := 0
      core := (teamDie s launch x).2 }

/-- A word of the firing table (R288). -/
def tableWord (gr : Graph) (e : FireEntry) : DWord :=
  let core := (gr.stage e.stage).core
  BitVec.ofNat 64 (e.firstn * 2 ^ 32 + dieOf core * 2 ^ 30 + core % Config.coresPerDie * 2 ^ 24 + e.rep * 256 + e.stage)

/-- Whether a graph may not be bound at an area. -/
def areaTaken (s : State) (ctx : Nat) (area : DWord) : Bool :=
  match graphAt s ctx area with
  | some gr => gr.state != 0 && gr.state != 4
  | none => false

/-- The first stage that is already a stage of another bound graph. -/
def stageTaken (s : State) (ctx launch : Nat) (area : DWord) (st : List (Nat × Nat)) : Option Nat :=
  (List.range st.length).find? fun k => s.work.graphs.any fun gr =>
    gr.ctx == ctx && gr.launch == launch && gr.area != area && (gr.state == 1 || gr.state == 2)
    && gr.stages.any fun x => (x.team, x.role) == st.getD k (0, 0)

/-- Where the blocks of a range that lies in HBM start. -/
def hbmBlocks (l : List (DWord × Place)) : List Nat :=
  l.filterMap fun (va, p) => match p.target with
    | .hbm pa => some (pa - va.toNat % 4096)
    | _ => none

/-- The checks of the bind area, and where its blocks lie (R285). -/
def checkArea (s : State) (g : Group) (core : Nat) (area : DWord) (bytes : Nat) (again : Bool) (st : List (Nat × Nat)) : Except BindStop (List Nat) :=
  if area.toNat % 64 ≠ 0 then .error (badPart 3 0)
  else match bindPlaces s g core (blocksOf (area.toNat, bytes)) with
    | .error e => .error e
    | .ok ps =>
      if ps.any fun (_, p) => (match p.target with | .hbm _ => false | _ => true) then .error (badPart 3 0)
      else if !again && areaTaken s g.ctx area then .error (badPart 3 0)
      else match stageTaken s g.ctx g.launch area st with
        | some k => .error (badPart 1 k)
        | none => .ok (hbmBlocks ps)

/-- The sizes and scopes of the channels once the period has been simulated, or the first that does not fit (R285). -/
def sizeChans (s : State) (launch : Nat) (st : List (Nat × Nat)) (peak : List Nat) (chans : List Chan) : Except BindStop (List Chan) :=
  let l := chans.zipIdx.map fun (c, k) => { c with size := peak.getD k 0, escope := escopeOf s launch st c }
  match (List.range l.length).find? fun k => decide ((l.getD k noChan).stride < (l.getD k noChan).size * (l.getD k noChan).lines * 64) with
  | some k => .error (badPart 2 k)
  | none => .ok l

/-- Solves and simulates: the graph with its table (R286, R287). -/
def solveGraph (s : State) (gr : Graph) (st : List (Nat × Nat)) : Except BindStop Graph :=
  match solveRates 0 ((List.range st.length).map fun k => (1, 1, k)) gr.chans with
  | .error c => .error (.fault none 0 (0x0801, c * 2 ^ 40))
  | .ok rates =>
    let q := leastVector rates
    match (List.range q.length).find? fun k => decide (65535 < q.getD k 0) with
    | some k => .error (badPart 1 k)
    | none =>
      let g1 : Graph := { gr with stages := boundStages s gr.launch st q gr.periods }
      let m := simulatePeriod g1
      match (List.range m.left.length).find? fun k => m.left.getD k 0 != 0 with
      | some k => .error (.fault none 0 (0x0802, k * 2 ^ 40 + m.done * 65536))
      | none => (sizeChans s gr.launch st m.peak g1.chans).map fun l => { g1 with chans := l, table := m.table }

/-- The record that a bind reads: its header, its stage words and its channel words. -/
def readRecord (s : State) (g : Group) (op : UnitOp) : Except BindStop (List DWord × List DWord × List DWord) :=
  let va := (op.words.getD 0 0).toNat
  match bindRead s g op.core 64 1 va with
  | .error e => .error e
  | .ok h =>
    if !headerOk h then .error (badPart 0 0)
    else
      let n := recField h 0 0 8
      match bindRead s g op.core 16 n ((va + 64) % 2 ^ 64) with
      | .error e => .error e
      | .ok st => (bindRead s g op.core 16 (2 * recField h 0 8 8) ((va + 64 + 16 * n) % 2 ^ 64)).map fun ch => (h, st, ch)

/-- Validates a record and binds it on the area: the new graph, not yet written (R283, R285). -/
def makeGraph (s : State) (g : Group) (op : UnitOp) (old : Option Graph) : Except BindStop Graph :=
  let area := op.words.getD 1 0
  match readRecord s g op with
  | .error e => .error e
  | .ok (h, sw, cw) =>
    match s.launch? g.launch with
    | none => .error (badPart 5 0)
    | some l =>
      let st := readStages sw (recField h 0 0 8)
      let chans := (List.range (recField h 0 8 8)).map (readChan cw)
      if !l.gang then .error (badPart 5 0)
      else match badStage l s.work.teams sw st with
        | some k => .error (badPart 1 k)
        | none =>
          match (List.range chans.length).find? fun c => !chanOk cw c st.length (chans.getD c noChan) with
          | some c => .error (badPart 2 c)
          | none =>
            match checkBuffers s g op.core l st old.isSome 0 chans with
            | .error e => .error e
            | .ok chans =>
              let bytes := recField h 2 0 32
              match checkArea s g op.core area bytes (decide (op.step = 1)) st with
              | .error e => .error e
              | .ok pages =>
                let gr : Graph :=
                  { area := area, pages := pages, held := [], ctx := g.ctx, launch := g.launch, state := 2, cause := ((graphAt s g.ctx area).map (·.cause)).getD 0
                    nperiod := recField h 1 0 32, stages := [], chans := chans, table := [], periods := (old.map (·.periods)).getD 0
                    entry := 0, count := 0 }
                match solveGraph s gr st with
                | .error e => .error e
                | .ok gr => if bytes < areaNeeds gr.table.length gr.chans then .error (badPart 3 0) else .ok gr

/-- Writes bytes for the balance engine, eight at a time. -/
def bindWrite (s : State) (g : Group) (ag : Agent) (core : Nat) : Nat → List DWord → Except BindStop State
  | _, [] => .ok s
  | va, w :: r =>
    match engineWrite s g ag core (BitVec.ofNat 64 va) (leBytes 8 w.toNat) with
    | .ok t => bindWrite t g ag core (va + 8) r
    | .wait => .error .wait
    | .fault c => .error (.fault (some (BitVec.ofNat 64 va)) 8 c)

/-- q(s) for s from 0 to 31, as sixteen words of 64 bits. -/
def repetitionWords (gr : Graph) : List DWord :=
  (List.range 16).map fun k =>
    let q := fun n => (gr.stages[n]?.map (·.q)).getD 0
    BitVec.ofNat 64 (q (2 * k) + q (2 * k + 1) * 2 ^ 32)

/-- Writes a bind area: q and the firing table, then the parts whose layout is not architectural, whose bytes it leaves open, with the graph put
there (R288). -/
def writeArea (s : State) (g : Group) (op : UnitOp) (gr : Graph) : Except BindStop State :=
  let ag := frAgent g op.seq
  match bindWrite s g ag op.core (gr.area.toNat + 256) (repetitionWords gr) with
  | .error e => .error e
  | .ok t =>
    match bindWrite t g ag op.core (gr.area.toNat + 5120) (gr.table.map (tableWord gr)) with
    | .error e => .error e
    | .ok u => (match ([0, 1, 2].flatMap gr.part).foldlM (leaveOpen gr) u with
      | some v => .ok (keepGraph v gr)
      | none => .error .wait)

/-- Ends an operation of the balance engine. -/
def endBind (s : State) (g : Group) (op : UnitOp) (failed : Bool) : State :=
  endFrop s (g.uid, op.seq) (if failed then .error else .none) 0 0

/-- Gives the completion of an operation its release scope. -/
def setScope (s : State) (g : Group) (op : UnitOp) (scope : Nat) : State :=
  s.modifyGroup g.uid fun x => { x with frops := x.frops.map fun (u : UnitOp) => if u.seq = op.seq then { u with scope := scope } else u }

/-- RSCOPE of the record of a bind (R282). -/
def recordScope (s : State) (g : Group) (op : UnitOp) : Nat :=
  match readRecord s g op with
  | .ok (h, _, _) => recField h 0 37 3
  | .error _ => 3

/-- A failed bind: the record, and the park of the issuing group unless its elected lane has exited (R290). -/
def bindFails (s : State) (g : Group) (op : UnitOp) (va : Option DWord) (kind : Nat) (c : CauseDetail) : State :=
  let s1 := endBind s g op true
  if (g.thread op.lane).status = .exited then
    emitRecord s1 { opRecord g 4 c.1 3 kind op.lane (va.map (·.toNat)) c.2 with lanes := 0 }
  else
    takePark s1 g.uid
      { cause := c.1, lanes := [op.lane], va := va, kind := kind, detail := c.2, engine := 4, skip := 0, plain := true }

/-- STATE of an area after a failed bind: ERROR after a GBIND and BOUND after a GREBIND that had made it BINDING, else as it was (R290, R291). -/
def failedState (op : UnitOp) (again : Bool) (st : Nat) : Nat := if op.step = 1 then (if again then 2 else 4) else st

/-- Where the header of an area lies in HBM, if a store of the balance engine may go there. -/
def areaHead (s : State) (g : Group) (core : Nat) (area : DWord) : List Nat :=
  if area.toNat % 64 ≠ 0 then []
  else match engineAccess s g core (rangeAccess false) area with
    | .ok p => hbmBlocks [(area, p)]
    | .error _ => []

/-- The mark that a failed bind leaves at its area (R290, R302). -/
def markFailed (s : State) (g : Group) (op : UnitOp) (cause : Nat) (again : Bool) : Option State :=
  let area := op.words.getD 1 0
  match graphAt s g.ctx area with
  | some gr => saveGraph s (Graph.settle { gr with state := failedState op again gr.state, cause := cause })
  | none => if again then some s else saveGraph s (emptyArea g.ctx g.launch area (areaHead s g op.core area) 4 cause)

/-- The outcome of a bind as an event. -/
def bindOutcome (s : State) (g : Group) (op : UnitOp) (again : Bool) (r : Except BindStop State) : Host.Outcome State Fault Refusal :=
  match r with
  | .ok t => .next (endBind t g op false)
  | .error .wait => stutter s
  | .error (.fault va kind c) => (match markFailed s g op c.1 again with
    | some t => .next (bindFails t g op va kind c)
    | none => stutter s)

/-- A GBIND that reaches the balance engine makes an area that is UNBOUND or in ERROR BINDING (R291); none while it waits for room in a log. -/
def beginBind (s : State) (g : Group) (op : UnitOp) : Option State :=
  let area := op.words.getD 1 0
  saveGraph (beginFrop s g.uid op.seq) (emptyArea g.ctx g.launch area (areaHead s g op.core area) 1 (((graphAt s g.ctx area).map (·.cause)).getD 0))

/-- The graph that a bind makes, put at its area. -/
def bindGraph (s : State) (g : Group) (op : UnitOp) : Except BindStop State :=
  match makeGraph s g op none with
  | .error e => .error e
  | .ok gr => (writeArea s g op gr).map fun t => setScope t g op (recordScope s g op)

/-- BIND: the balance engine takes a GBIND and then performs it (R285, R291). -/
def execBind (g n : Nat) (s : State) : Host.Outcome State Fault Refusal :=
  match s.group? g with
  | none => stutter s
  | some x =>
    match x.frops[n]? with
    | none => stutter s
    | some op =>
      if op.kind ≠ 4 ∨ 1 < op.step ∨ ¬ x.ext.isEmpty then stutter s
      else if op.step = 0 ∧ areaTaken s x.ctx (op.words.getD 1 0) = false then (match beginBind s x op with
        | some t => .next t
        | none => stutter s)
      else bindOutcome s x op false (bindGraph s x op)

/-! ## Rebinding (R300, R301) -/

/-- Why a graph is not quiescent: the stage of an open firing, or 0xFF. -/
def notQuiescent (gr : Graph) : Option Nat :=
  match (List.range gr.stages.length).find? fun k => (gr.stage k).isOpen != 0 with
  | some k => some k
  | none =>
    if gr.chans.all fun c => c.rings.all fun r => r.cpos == r.rcvd && r.cpos == c.ppos - c.init && decide (c.init ≤ c.ppos) then none
    else some 0xFF

/-- The first channel that a rebind may not change. -/
def chanChanged (old new : List Chan) : Option BindStop :=
  if old.length ≠ new.length then some (badPart 0 0)
  else ((List.range old.length).find? fun k =>
    let a := old.getD k noChan
    let b := new.getD k noChan
    a.buf != b.buf || a.bytes != b.bytes || a.init != b.init || a.lines != b.lines).map fun k => badPart 2 k

/-- The places of the lines of a slot for the balance engine. -/
def slotPlaces (s : State) (g : Group) (core : Nat) (write : Bool) (va : DWord) (lines : Nat) : Except BindStop (List Place) :=
  let a : Access := ⟨if write then 8 else 7, 64, 64, !write, write, false, [0, 1]⟩
  (List.range lines).foldlM (fun l n =>
    match engineAccess s g core a (lineVa va n) with
    | .error c => .error (.fault (some (lineVa va n)) (if write then 8 else 7) c)
    | .ok p => .ok (l ++ [p])) []

/-- The bytes and descriptors of the held records of the rings, with the places they go to (R301). -/
def heldRecords (s : State) (g : Group) (core : Nat) (old new : Chan) : Except BindStop (List (Place × List Byte × Word)) :=
  let n := min old.rings.length new.rings.length
  ((List.range n).flatMap fun k => (List.range old.init).map fun i => (k, i)).foldlM (fun l (k, i) =>
    match slotPlaces s g core false (old.slotAddr k (old.ppos - old.init + i)) old.lines, slotPlaces s g core true (new.slotAddr k i) new.lines with
    | .error e, _ => .error e
    | _, .error e => .error e
    | .ok ps, .ok qs => .ok (l ++ (ps.zip qs).map fun (p, q) => (q, enginePlace s g.ctx p 64, engineDesc s g.ctx p))) []

/-- The held records of every channel. -/
def allHeld (s : State) (g : Group) (core : Nat) (old new : List Chan) : Except BindStop (List (Place × List Byte × Word)) :=
  (old.zip new).foldlM (fun l (a, b) => (heldRecords s g core a b).map (l ++ ·)) []

/-- Writes the held records at their new places. -/
def putHeld (s : State) (ag : Agent) : List (Place × List Byte × Word) → Except BindStop State
  | [] => .ok s
  | (p, b, d) :: r =>
    match engineLine s ag p b d with
    | some t => putHeld t ag r
    | none => .error .wait

/-- Whether a stage's team lies on another die than the stage's team before (R301). -/
def stageMoved (old new : Graph) (k : Nat) : Bool :=
  match old.stages[k]?, new.stages[k]? with
  | some x, some y => dieOf x.core != dieOf y.core
  | _, _ => false

/-- A channel with a stage whose team lies on another die than before takes ESCOPE DEVICE (R301). -/
def rescope (old : Graph) (new : Graph) : Graph :=
  { new with chans := new.chans.map fun c => if c.stages.any (stageMoved old new) then { c with escope := 3 } else c
             stages := new.stages.map fun x =>
               match old.stages.find? fun y => y.team == x.team && y.role == x.role with
               | some y => { x with ended := y.ended }
               | none => x }

/-- The rebind of a quiescent graph. -/
def rebindGraph (s : State) (g : Group) (op : UnitOp) (old : Graph) : Except BindStop State :=
  match makeGraph s g op (some old) with
  | .error e => .error e
  | .ok new =>
    match chanChanged old.chans new.chans with
    | some e => .error e
    | none =>
      match allHeld s g op.core old.chans new.chans with
      | .error e => .error e
      | .ok held =>
        match putHeld s (frAgent g op.seq) held with
        | .error e => .error e
        | .ok t => (writeArea t g op (rescope old new)).map fun t =>
          setScope t g op (if (List.range new.stages.length).any (stageMoved old new) then 3 else recordScope s g op)

/-- A GREBIND that finds its graph quiescent makes it BINDING (R291). -/
def beginRebind (s : State) (g : Group) (op : UnitOp) (gr : Graph) : Option State := saveGraph (beginFrop s g.uid op.seq) { gr with state := 1 }

/-- A GREBIND that reaches the balance engine: it begins, or fails (R291, R301). -/
def arriveRebind (s : State) (g : Group) (op : UnitOp) : Host.Outcome State Fault Refusal :=
  match graphAt s g.ctx (op.words.getD 1 0) with
  | none => bindOutcome s g op true (.error (badPart 3 0))
  | some old =>
    if old.state ≠ 2 then bindOutcome s g op true (.error (badPart 3 0))
    else match notQuiescent old with
      | some k => bindOutcome s g op true (.error (.fault none 0 (0x0804, k * 2 ^ 40)))
      | none => (match beginRebind s g op old with
        | some t => .next t
        | none => stutter s)

/-- REBIND: the balance engine takes a GREBIND and then performs it (R291, R300, R301). -/
def execRebind (g n : Nat) (s : State) : Host.Outcome State Fault Refusal :=
  match s.group? g with
  | none => stutter s
  | some x =>
    match x.frops[n]? with
    | none => stutter s
    | some op =>
      if op.kind ≠ 5 ∨ 1 < op.step ∨ ¬ x.ext.isEmpty then stutter s
      else if op.step = 0 then arriveRebind s x op
      else bindOutcome s x op true
        (match graphAt s x.ctx (op.words.getD 1 0) with
        | none => .error (badPart 3 0)
        | some old => rebindGraph s x op old)

end Sys2Proof.Machine
end

