-- ==== Sys2Proof/Machine/Matrix.lean ====
section
/-! DEFINITION. The matrix engine: tile and accumulator registers, their loads and stores, register operations,
multiply-accumulate and observation: majors 0x60 to 0x67 (R261 to R278). -/
namespace Sys2Proof.Machine

/-! ## Tile registers (R261, R262) -/

/-- Tile rows that one register holds. -/
def rowsPerReg (fmt : Nat) : Nat := 16 / tileRegs fmt

/-- The key of an element of a tile. -/
def tileKey (reg fmt i j : Nat) : Nat := (reg + i / rowsPerReg fmt) * 256 + i % rowsPerReg fmt * 16 + j

/-- Every position of a tile, by row. -/
def tilePoints : List (Nat × Nat) := (List.range 16).flatMap fun i => (List.range 16).map fun j => (i, j)

/-- RSCALE of a row. -/
def Group.rscaleOf (g : Group) (reg i : Nat) : Byte := sget 0x7F g.rscale (reg * 16 + i)
/-- RSPEC of a row. -/
def Group.rspecOf (g : Group) (reg i : Nat) : Byte := sget 0 g.rspec (reg * 16 + i)

/-- An element of a tile register as the format has it: the reserved bits [7:6] of an E3M2 or E2M3 element read 0, and a write to them is
ignored (R7, R83). -/
def tileBits (fmt v : Nat) : Nat := if fmt = 7 ∨ fmt = 8 then v % 64 else v

/-- A tile as its registers hold it. -/
def tileOf (g : Group) (reg : Nat) : TileVal :=
  let f := g.tfmtOf reg
  { fmt := BitVec.ofNat 8 f, elems := tilePoints.map fun (i, j) => BitVec.ofNat 64 (tileBits f (sget 0 g.tile (tileKey reg f i j)).toNat)
    scale := (List.range 16).map (g.rscaleOf reg), spec := (List.range 16).map (g.rspecOf reg) }

/-- An element of a tile value. -/
def TileVal.at (t : TileVal) (i j : Nat) : Nat := (t.elems.getD (i * 16 + j) 0).toNat

/-- Whether every register of a tile of a format lies below the T budget (R262): `lo` is the low bit of the field that names the first. -/
def tileBudget (g : Group) (w : Word) (lo reg fmt : Nat) : Option CauseDetail :=
  if g.tbud < reg + tileRegs fmt then some (0x0101, decodeDetail w lo reg) else none

/-- Whether the first register of a tile of a format is aligned (R262). -/
def tileAlign (w : Word) (lo reg fmt : Nat) : Option CauseDetail :=
  if reg % tileRegs fmt ≠ 0 then some (0x0105, decodeDetail w lo reg) else none

/-- The checks of the registers of a tile of a format (R262), in the order of R48. -/
def tileFault (g : Group) (w : Word) (lo reg fmt : Nat) : Option CauseDetail := tileBudget g w lo reg fmt <|> tileAlign w lo reg fmt

/-- The check that every register of a tile that is read carries the first one's format (R262). -/
def tileMixed (g : Group) (reg : Nat) : Option CauseDetail :=
  let f := g.tfmtOf reg
  match ((List.range (tileRegs f)).map (reg + ·)).find? fun r => g.tfmtOf r != f with
  | some r => some (0x0202, f * 2 ^ 40 + g.tfmtOf r * 2 ^ 32 + r * 2 ^ 24)
  | none => none

/-- The check that a tile that is read has a format (R88). -/
def untyped (g : Group) (reg : Nat) : Option CauseDetail :=
  let f := g.tfmtOf reg
  if f = 0 ∨ 0x11 ≤ f then some (0x0201, f * 2 ^ 40) else none

/-- A fault of a T-format instruction without an address of its own (R267). -/
def tfault (x : Issue) (c : CauseDetail) : Effect := .fault { cause := c.1, lanes := x.lanes, detail := c.2, setLevel := true }

/-! ## Register dependence (R268) -/

/-- The A registers that a matrix operation in flight reads and writes. -/
def mmaRegs (m : MmaOp) : Nat := (if m.a.fmt = 1 then 2 else 1) * (if m.dw then 2 else 1)

/-- Whether a matrix operation in flight has an accumulator of a range. -/
def accBusy (g : Group) (n count : Nat) : Bool := g.mmas.any fun m => decide (m.acc < n + count) && decide (n < m.acc + mmaRegs m)

/-! ## Operand blocks (R266) -/

/-- The operand block of TLD, TSTR, ALD and AST. -/
structure TileBlock where
  base   : Nat
  stride : Int
  rows   : Nat
  cols   : Nat

/-- Reads an operand block. -/
def tileBlock (x : Issue) (mb : SReg) : TileBlock :=
  let n := x.ext.snum 6 mb.toNat
  let m := (x.g.sregGet (n + 3)).toNat
  { base := (x.g.spair n).toNat, stride := toSigned 32 (x.g.sregGet (n + 2)).toNat, rows := bitsOf m 0 16, cols := bitsOf m 16 16 }

/-- row(i) of R270. -/
def TileBlock.row (b : TileBlock) (i : Nat) : Nat := wrapTo 64 ((b.base : Int) + i * b.stride)

/-- Whether a position is in both masks. -/
def TileBlock.has (b : TileBlock) (p : Nat × Nat) : Bool := bitOf b.rows p.1 && bitOf b.cols p.2

/-- The positions in both masks, in row-major order. -/
def TileBlock.points (b : TileBlock) : List (Nat × Nat) := tilePoints.filter b.has

/-- The byte address of an element of a width, and its bit in that byte. -/
def TileBlock.elem (b : TileBlock) (bits : Nat) (p : Nat × Nat) : DWord × Nat :=
  (BitVec.ofNat 64 (wrapTo 64 ((b.row p.1 : Int) + (p.2 * bits / 8 : Nat))), p.2 * bits % 8)

/-- Bytes that an element's access covers. -/
def elemBytesOf (bits : Nat) : Nat := max 1 (bits / 8)

/-- The first row with an element in both masks that is not aligned (R270). -/
def rowMisaligned (b : TileBlock) (bits : Nat) : Option Nat :=
  ((List.range 16).filter fun i => bitOf b.rows i && b.cols != 0).find? fun i => b.row i % elemBytesOf bits != 0

/-- The fault of a misaligned row. -/
def rowFault (x : Issue) (b : TileBlock) (kind i : Nat) : Effect :=
  setFault x kind (BitVec.ofNat 64 (b.row i)) (0x0304, pageDetail 0 false (decide (windowBase ≤ b.row i)) kind 0)

/-- The targets that tile accesses may reach: FITTED only for TLD, and MMIO never (R272). -/
def tileTypes (fitted : Bool) : List Nat := if fitted then [0, 1, 2, 3, 4, 5] else [0, 1, 3, 4, 5]

/-- The access of one element. -/
def tileAccess (write fitted : Bool) (n : Nat) : Access := ⟨if write then 1 else 0, n, 1, !write, write, false, tileTypes fitted⟩

/-! ## Loads (R270, R272) -/

/-- Reads the code of one element from memory. -/
def loadElem (s : State) (g : Group) (fitted : Bool) (b : TileBlock) (bits : Nat) (p : Nat × Nat) : Fitted Nat :=
  let (va, k) := b.elem bits p
  match loadMember s g (tileAccess false fitted (elemBytesOf bits)) va with
  | .ok d => .ok (ofLe d / 2 ^ k % 2 ^ bits)
  | .wait => .wait
  | .fault c => .fault c

/-- The descriptor of the line of an address as the group reads it. -/
def lineDesc (s : State) (g : Group) (va : DWord) : Fitted Word :=
  let line : DWord := BitVec.ofNat 64 (va.toNat / 64 * 64)
  match groupAccess s g (tileAccess false true 1) va, groupAccess s g (tileAccess false true 1) line with
  | .error c, _ => .fault c
  | .ok p, .ok q => if segWaits s p then .wait else .ok (groupDesc s g q).1
  | .ok p, .error _ => if segWaits s p then .wait else .ok (groupDesc s g p).1

/-- What the load of a tile meets: a wait, a fault with its address, or the elements. -/
def loadElems (s : State) (g : Group) (fitted : Bool) (b : TileBlock) (bits : Nat) : Members Nat :=
  b.points.map fun p => (p.1 * 16 + p.2, (b.elem bits p).1, loadElem s g fitted b bits p)

/-- The first line holding an element that is read whose format is not the tile's (R92). -/
def lineMixed (s : State) (g : Group) (b : TileBlock) (fmt : Nat) : Option CauseDetail :=
  (b.points.filterMap fun p =>
    match lineDesc s g (b.elem (elemBits fmt) p).1 with
    | .ok d => if d.toNat % 256 ≠ fmt then some (0x0202, fmt * 2 ^ 40 + d.toNat % 256 * 2 ^ 32 + p.1 * 2 ^ 24) else none
    | _ => none).head?

/-- RSCALE and RSPEC of a row: those of the line that holds row(i), where the row has an element read. A line that cannot
be reached gives values that the manual does not state. -/
def rowMeta (s : State) (g : Group) (b : TileBlock) (i : Nat) : Byte × Byte :=
  if bitOf b.rows i && b.cols != 0 then
    match lineDesc s g (BitVec.ofNat 64 (b.row i)) with
    | .ok d => (BitVec.ofNat 8 (bitsOf d.toNat 8 8), BitVec.ofNat 8 (bitsOf d.toNat 16 8))
    | _ => (Config.freeByte s.occasion (2 * i), Config.freeByte s.occasion (2 * i + 1))
  else (0x7F, 0)

/-- A tile load of a format that reads the given elements. -/
def tileLoad (reg fmt : Nat) (scale spec : List Byte) (vals : List (Nat × Nat)) : Load :=
  { vals := []
    elems := tilePoints.map fun (i, j) => (tileKey reg fmt i j, BitVec.ofNat 64 (sget 0 vals (i * 16 + j)))
    tile := some { reg := reg, count := tileRegs fmt, fmt := BitVec.ofNat 8 fmt, scale := scale, spec := spec }
    acc := none, spring := false, done := false }

/-- A tile of a format whose every element bit is 0 (R270, R273). -/
def blankTile (g : Group) (reg fmt : Nat) : Group :=
  deliverLoad g (tileLoad reg fmt (List.replicate 16 0x7F) (List.replicate 16 0) [])

/-- The format code of a TLD without an override: that of line L0, after every check of a 1-byte load there (R173, R270). -/
def memoryFormat (s : State) (g : Group) (b : TileBlock) : DWord × Fitted Nat :=
  let i0 := ((List.range 16).find? (bitOf b.rows)).getD 0
  let va : DWord := BitVec.ofNat 64 (b.row i0)
  (va, match loadMember s g (tileAccess false true 1) va, lineDesc s g va with
    | .ok _, .ok d => .ok (d.toNat % 256)
    | .fault c, _ => .fault c
    | .ok _, .fault c => .fault c
    | _, _ => .wait)

/-- TLD once its format is known. -/
def tldBody (s : State) (x : Issue) (w : Word) (reg fmt : Nat) (typed : Bool) (b : TileBlock) : Effect :=
  match rowMisaligned b (elemBits fmt) with
  | some i => rowFault x b 0 i
  | none =>
    match tileFault x.g w 18 reg fmt with
    | some c => tfault x c
    | none =>
      let ms := loadElems s x.g true b (elemBits fmt)
      if anyWaits ms || tPending x.g reg (tileRegs fmt) then .stall
      else match (badOf ms).head? with
        | some (_, va, c) => setFault x 0 va c
        | none =>
          match (if typed then lineMixed s x.g b fmt else none) with
          | some c => tfault x c
          | none =>
            if Config.counterMax ≤ x.g.ldCount then .stall
            else
              let md := (List.range 16).map (rowMeta s x.g b)
              let ld := tileLoad reg fmt (md.map (·.1)) (md.map (·.2)) ((goodOf ms).map fun (k, _, v) => (k, tileBits fmt v))
              .done (s.nextOccasion.setGroup { x.g with loads := x.g.loads ++ [ld] })

/-- TLD (R270). -/
def execTld (ovr : BitVec 5) (ta : TReg) (mb : SReg) (s : State) :=
  let i := Instr.tld ovr ta mb
  issue i (fun s x =>
    let w := (encode i).getD 0
    let b := tileBlock x mb
    let reg := ta.toNat
    if b.points.isEmpty then
      match tileFault x.g w 18 reg ovr.toNat with
      | some c => tfault x c
      | none => if tPending x.g reg (tileRegs ovr.toNat) then .stall else .done (s.setGroup (blankTile x.g reg ovr.toNat))
    else if ovr.toNat ≠ 0 then tldBody s x w reg ovr.toNat false b
    else match memoryFormat s x.g b with
      | (_, .wait) => .stall
      | (va, .fault c) => setFault x 0 va c
      | (_, .ok f) => if f = 0 ∨ 0x11 ≤ f then tfault x (0x0201, f * 2 ^ 40) else tldBody s x w reg f true b) s

/-! ## Stores (R271, R272) -/

/-- The place that a store of an element reaches, or its cause (R271). -/
def storePlace (s : State) (g : Group) (b : TileBlock) (bits : Nat) (p : Nat × Nat) : Fitted Place :=
  match groupAccess s g (tileAccess true false (elemBytesOf bits)) (b.elem bits p).1 with
  | .error c => .fault c
  | .ok q =>
    if segWaits s q || tileWaits g q.target (elemBytesOf bits) then .wait
    else match logCheck s g q (elemBytesOf bits) with
      | .full die => .fault (logFault die)
      | .wait => .wait
      | .room => .ok q

/-- The write of one element, one memory event (R272). -/
def elemWrite (n bits k : Nat) (p : Place) (code : Nat) : TileWrite :=
  { issue := n, place := p, data := leBytes (elemBytesOf bits) (code * 2 ^ k)
    mask := BitVec.ofNat 8 (if bits < 8 then (2 ^ bits - 1) * 2 ^ k else 255) }

/-- The checks of the elements of a store, one after another: what one of them takes of a log counts for the next (R332). -/
def storePlaces (x : Issue) (b : TileBlock) (bits : Nat) : List (Nat × Nat) → State → Members Place
  | [], _ => []
  | p :: r, s =>
    let m := storePlace s x.g b bits p
    let t := match m with
      | .ok q => s.modifyGroup x.uid fun g => { g with tiles := g.tiles ++ [elemWrite x.g.nextIssue bits 0 q 0] }
      | _ => s
    (p.1 * 16 + p.2, (b.elem bits p).1, m) :: storePlaces x b bits r t

/-- Issues the store of the elements in both masks; `code` gives an element's bits. -/
def storeTile (s : State) (x : Issue) (b : TileBlock) (bits : Nat) (code : Nat × Nat → Nat) : Effect :=
  match rowMisaligned b bits with
  | some i => rowFault x b 1 i
  | none =>
    let ms := storePlaces x b bits b.points s
    if anyWaits ms then .stall
    else match (badOf ms).head? with
      | some (_, va, c) => setFault x 1 va c
      | none =>
        let good := goodOf ms
        if good.isEmpty then .done s
        else if Config.counterMax ≤ x.g.stCount then .stall
        else
          let n := x.g.nextIssue
          let ws := good.map fun (k, _, p) => elemWrite n bits (k % 16 * bits % 8) p (code (k / 16, k % 16))
          .done (s.setGroup { x.g with tiles := x.g.tiles ++ ws, stQueue := x.g.stQueue ++ [n], nextIssue := n + 1 })

/-- TSTR (R271). -/
def execTstr (ta : TReg) (mb : SReg) (s : State) :=
  let i := Instr.tstr ta mb
  issue i (fun s x =>
    let reg := ta.toNat
    let f := x.g.tfmtOf reg
    let b := tileBlock x mb
    let w := (encode i).getD 0
    if tPending x.g reg (tileRegs f) then .stall
    else match untyped x.g reg <|> tileAlign w 18 reg f <|> tileMixed x.g reg with
      | some c => tfault x c
      | none =>
        let t := tileOf x.g reg
        storeTile s x b (elemBits f) (fun p => t.at p.1 p.2)) s

/-! ## Accumulators (R263, R271 to R273) -/

/-- The bits of an element of an A register. -/
def Group.aget (g : Group) (reg i j : Nat) : Nat := (sget 0 g.acc (reg * 256 + i * 16 + j)).toNat

/-- The element of a register, or of the pair when it is FP64 (R263). -/
def accElem (g : Group) (wide : Bool) (reg i j : Nat) : Nat :=
  if wide then g.aget reg i j + 2 ^ 32 * g.aget (reg + 1) i j else g.aget reg i j

/-- The register values of an accumulator element. -/
def accWords (wide : Bool) (reg i j v : Nat) : List (Nat × DWord) :=
  (reg * 256 + i * 16 + j, BitVec.ofNat 64 (v % 2 ^ 32)) ::
    (if wide then [((reg + 1) * 256 + i * 16 + j, BitVec.ofNat 64 (v / 2 ^ 32 % 2 ^ 32))] else [])

/-- An accumulator load that reads the given elements and writes 0 elsewhere. -/
def accLoad (reg : Nat) (tag : ATag) (vals : List (Nat × Nat)) : Load :=
  { vals := [], elems := tilePoints.flatMap fun (i, j) => accWords (tag == .f64) reg i j (sget 0 vals (i * 16 + j))
    tile := none, acc := some (reg, tag.code), spring := false, done := false }

/-- ALD (R272). -/
def execAld (tag : ATag) (acc : AReg) (mb : SReg) (s : State) :=
  issue (.ald tag acc mb) (fun s x =>
    let reg := acc.toNat
    let bits := 32 * tag.regs
    let b := tileBlock x mb
    if accBusy x.g reg tag.regs then .stall
    else if b.points.isEmpty then .done (s.setGroup (deliverLoad x.g (accLoad reg tag [])))
    else match rowMisaligned b bits with
      | some i => rowFault x b 0 i
      | none =>
        let ms := loadElems s x.g false b bits
        if anyWaits ms then .stall
        else match (badOf ms).head? with
          | some (_, va, c) => setFault x 0 va c
          | none =>
            if Config.counterMax ≤ x.g.ldCount then .stall
            else .done (s.setGroup { x.g with loads := x.g.loads ++ [accLoad reg tag ((goodOf ms).map fun (k, _, v) => (k, v))] })) s

/-- Whether the first of n accumulator registers is aligned (R274). -/
def accAlign (w : Word) (acc n : Nat) : Option CauseDetail := if acc % n ≠ 0 then some (0x0105, decodeDetail w 22 acc) else none

/-- The checks of AST on an F64 register (R271); the detail of 0x0701 is that of R274, where FLAGS[0] of AST is 1 (R265). -/
def astFault (g : Group) (w : Word) (reg : Nat) : Option CauseDetail :=
  if g.atagOf reg ≠ 2 then none
  else accAlign w reg 2
    <|> (if g.atagOf (reg + 1) ≠ 2 then some (0x0701, 2 ^ 24 + 2 * 2 ^ 16 + (reg + 1) * 2 ^ 8) else none)

/-- AST (R271). -/
def execAst (acc : AReg) (mb : SReg) (s : State) :=
  let i := Instr.ast acc mb
  issue i (fun s x =>
    let reg := acc.toNat
    let wide := x.g.atagOf reg == 2
    if accBusy x.g reg (if wide then 2 else 1) || aPending x.g reg (if wide then 2 else 1) then .stall
    else match astFault x.g ((encode i).getD 0) reg with
      | some c => tfault x c
      | none => storeTile s x (tileBlock x mb) (if wide then 64 else 32) (fun p => accElem x.g wide reg p.1 p.2)) s

/-! ## Register operations (R273) -/

/-- TZERO. -/
def execTzero (fmt : BitVec 5) (ta : TReg) (s : State) :=
  issue (.tzero fmt ta) (fun s x => .done (s.setGroup (blankTile x.g ta.toNat fmt.toNat))) s

/-- AZERO. -/
def execAzero (tag : ATag) (acc : AReg) (s : State) :=
  issue (.azero tag acc) (fun s x =>
    if accBusy x.g acc.toNat tag.regs then .stall else .done (s.setGroup (deliverLoad x.g (accLoad acc.toNat tag [])))) s

/-- Copies elements, ATAG and ASTEP from one A register to another. -/
def copyAcc (g : Group) (dst src : Nat) : Group :=
  { g with
    acc := putAll 0 g.acc (tilePoints.map fun (i, j) => (dst * 256 + i * 16 + j, sget 0 g.acc (src * 256 + i * 16 + j)))
    atag := sput 0 g.atag dst (sget 0 g.atag src), astep := sput 0 g.astep dst (sget 0 g.astep src) }

/-- AMOV. -/
def execAmov (acc asrc : AReg) (s : State) :=
  issue (.amov acc asrc) (fun s x =>
    if accBusy x.g acc.toNat 1 || accBusy x.g asrc.toNat 1 then .stall else .done (s.setGroup (copyAcc x.g acc.toNat asrc.toNat))) s

/-- The first row whose scale, or special byte of an E2M1 tile, differs from row 0 (R273). -/
def rowsDiffer (t : TileVal) : Option CauseDetail :=
  let scale := t.scale.headD 0
  let spec := t.spec.headD 0
  let bad := (List.range 16).find? fun i => t.scale.getD i 0 != scale || (t.fmt == 9 && t.spec.getD i 0 != spec)
  match (if scaledFmt t.fmt.toNat then bad else none) with
  | some i =>
    let d := if t.scale.getD i 0 != scale then t.scale.getD i 0 else t.spec.getD i 0
    some (0x0202, scale.toNat * 2 ^ 40 + d.toNat * 2 ^ 32 + i * 2 ^ 24 + 2 ^ 16)
  | none => none

/-- TTRN. -/
def execTtrn (ta tb : TReg) (s : State) :=
  let i := Instr.ttrn ta tb
  issue i (fun s x =>
    let f := x.g.tfmtOf ta.toNat
    let w := (encode i).getD 0
    let t := tileOf x.g ta.toNat
    if tPending x.g ta.toNat (tileRegs f) || tPending x.g tb.toNat (tileRegs f) then .stall
    else match untyped x.g ta.toNat
        <|> tileAlign w 18 ta.toNat f <|> tileAlign w 14 tb.toNat f <|> tileMixed x.g ta.toNat <|> rowsDiffer t with
      | some c => tfault x c
      | none =>
        let out := tileLoad tb.toNat f (List.replicate 16 (t.scale.headD 0)) (List.replicate 16 (t.spec.headD 0)) []
        .done (s.setGroup (deliverLoad x.g { out with
          elems := tilePoints.map fun (a, b) => (tileKey tb.toNat f a b, BitVec.ofNat 64 (t.at b a)) }))) s

/-! ## Multiply-accumulate (R274 to R277) -/

/-- The tag that a family accumulates into. -/
def familyTag (fam : Nat) : Nat := if fam = 0 then 2 else if fam = 3 then 1 else 0

/-- The detail of 0x0701 (R274). -/
def formatDetail (fa fb : Nat) (dw : Bool) (tag reg : Nat) : Nat :=
  fa * 2 ^ 40 + fb * 2 ^ 32 + (if dw then 2 ^ 24 else 0) + tag * 2 ^ 16 + reg * 2 ^ 8

/-- The combination of formats and tags (R274). -/
def comboFault (g : Group) (acc fa fb : Nat) (dw : Bool) : Option CauseDetail :=
  let fam := tileFamily fa
  if fam ≠ tileFamily fb ∨ (dw ∧ fam = 3) then some (0x0701, formatDetail fa fb dw (g.atagOf acc) 0xFF)
  else match ((List.range (familyRegs fam dw)).map (acc + ·)).find? fun r => g.atagOf r != familyTag fam with
    | some r => some (0x0701, formatDetail fa fb dw (g.atagOf acc) r)
    | none => none

/-- Every check of a matrix operation after decode, in the order of R267. Where both tiles raise one cause, the detail names TA, which R267
does not say (DESIGN CHOICE, log entry 124). -/
def mmaFault (g : Group) (w : Word) (acc ta tb : Nat) (dw : Bool) : Option CauseDetail :=
  let fa := g.tfmtOf ta
  let fb := g.tfmtOf tb
  let wide := decide (tileFamily fa = 0 ∧ tileFamily fb = 0)
  untyped g ta <|> untyped g tb
  <|> (if wide then accAlign w acc (familyRegs 0 dw) else none) <|> tileAlign w 18 ta fa <|> tileAlign w 14 tb fb
  <|> tileMixed g ta <|> tileMixed g tb
  <|> comboFault g acc fa fb dw

/-- Issues a matrix operation: its tiles and masks are read here (R266, R268, R269), and every earlier access of the group is performed
first (R206). -/
def mmaIssue (i : Instr) (acc : AReg) (ta tb : TReg) (mb : SReg) (dw : Bool) (s : State) : Host.Outcome State Fault Refusal :=
  issue i (fun s x =>
    let g := x.g
    let n := x.ext.snum 6 mb.toNat
    let fa := g.tfmtOf ta.toNat
    let mask := fun k => BitVec.ofNat 16 (g.sregGet (n + k)).toNat
    if !engineReady s g || tPending g ta.toNat (tileRegs fa) || tPending g tb.toNat (tileRegs (g.tfmtOf tb.toNat))
        || aPending g acc.toNat (familyRegs (tileFamily fa) dw) || decide (Config.counterMax ≤ g.mxCount) then .stall
    else match mmaFault g ((encode i).getD 0) acc.toNat ta.toNat tb.toNat dw with
      | some c => tfault x c
      | none =>
        let op : MmaOp := { seq := nextSeq g.mxSeq, acc := acc.toNat, dw := dw, a := tileOf g ta.toNat, b := tileOf g tb.toNat,
                            rows := mask 0, cols := mask 1, deps := mask 2 }
        .done (s.setGroup { g with mmas := g.mmas ++ [op], mxSeq := op.seq })) s

/-- MMA (R274). -/
def execMma (acc : AReg) (ta tb : TReg) (mb : SReg) (s : State) := mmaIssue (.mma acc ta tb mb) acc ta tb mb false s
/-- MMA.DW (R274). -/
def execMmaDw (acc : AReg) (ta tb : TReg) (mb : SReg) (s : State) := mmaIssue (.mmaDw acc ta tb mb) acc ta tb mb true s

/-- The value of element (i, j) of a tile, under its row's scale and special byte (R275). -/
def TileVal.value (t : TileVal) (i j : Nat) : FVal :=
  decodeScaled t.fmt.toNat (t.scale.getD i 0).toNat (t.spec.getD i 0).toNat (t.at i j)

/-- The products of an element (R276). -/
def mmaTerms (m : MmaOp) (i j : Nat) : List FVal :=
  (bitList m.deps.toNat 16).map fun k => (mulVal (m.a.value i k) (m.b.value k j)).1

/-- The sum of a list of terms, infinities and NaNs included (R276). -/
def sumTerms (first : FVal) (l : List FVal) : FVal := l.foldl (fun a t => (addVal rne a t).1) first

/-- lo of a double-word result (R276). -/
def loOf (f : FloatFmt) (x : FVal) (hi : Nat) : Nat :=
  match x, f.decode hi with
  | .fin e, .fin h =>
    let c := (roundTo f rne false (addExact rne e h.negate)).code
    if c % 2 ^ (f.ebits + f.mbits) = 0 then 0 else c
  | _, _ => f.nanCode

/-- An exact value that is an integer. -/
def intOf : FVal → Int
  | .fin x => asInt x 0
  | _ => 0

/-- The new register values of one element. -/
def mmaElem (g : Group) (m : MmaOp) (i j : Nat) : List (Nat × DWord) :=
  let fam := tileFamily m.a.fmt.toNat
  let terms := mmaTerms m i j
  if fam = 3 then
    let sum := terms.foldl (fun a t => a + intOf t) (toSigned 32 (g.aget m.acc i j))
    accWords false m.acc i j (wrapTo 32 sum)
  else
    let wide := fam == 0
    let f := if wide then fp64 else fp32
    let n := if wide then 2 else 1
    let old := f.decode (accElem g wide m.acc i j)
    if m.dw then
      let x := sumTerms (addVal rne old (f.decode (accElem g wide (m.acc + n) i j))).1 terms
      let hi := (deliver f rne false x).code
      accWords wide m.acc i j hi ++ accWords wide (m.acc + n) i j (loOf f x hi)
    else accWords wide m.acc i j (deliver f rne false (sumTerms old terms)).code

/-- The group after a matrix operation. -/
def mmaApply (g : Group) (m : MmaOp) : Group :=
  let pts := tilePoints.filter fun (i, j) => m.rows.getLsbD i && m.cols.getLsbD j
  let vals := pts.flatMap fun (i, j) => mmaElem g m i j
  let regs := (List.range (mmaRegs m)).map (m.acc + ·)
  { g with acc := putAll 0 g.acc (vals.map fun (k, v) => (k, BitVec.ofNat 32 v.toNat))
           astep := putAll 0 g.astep (regs.map fun r => (r, sget 0 g.astep r + 1)), mmas := g.mmas.drop 1 }

/-- MMA_COMPLETION: the oldest matrix operation of a group completes (R269, R276, R277). -/
def execMmaCompletion (g : Nat) (s : State) : Host.Outcome State Fault Refusal :=
  match s.group? g with
  | none => stutter s
  | some x =>
    match x.mmas with
    | [] => stutter s
    | m :: _ => .next (settle (s.setGroup (mmaApply x m)))

/-! ## Observation (R264, R278) -/

/-- ASNAP: the accumulator as the last completed operation left it. -/
def execAsnap (acc adst : AReg) (mb : SReg) (s : State) :=
  issue (.asnap acc adst mb) (fun s x =>
    if !bitOf x.g.obsv.toNat 0 then tfault x (0x0702, 0)
    else if accBusy x.g adst.toNat 1 then .stall
    else .done (s.setGroup ((copyAcc x.g adst.toNat acc.toNat).sregPut (x.ext.snum 6 mb.toNat) (sget 0 x.g.astep acc.toNat)))) s

end Sys2Proof.Machine
end

