-- ==== Sys2Proof/Machine/Frames.lean ====
section
/-! DEFINITION. The save frames of groups and Ponds (R312 to R317). -/
namespace Sys2Proof.Machine

/-! ## Ranges of a memory -/

namespace Memory

/-- Every byte of a range reads 0. -/
def clearRange (m : Memory) (a n : Nat) : Memory :=
  { cells := m.cells.filter fun (k, _) => !(decide (a ≤ k) && decide (k < a + n))
    marks := m.marks.filter fun (k, _) => !(decide (a ≤ k) && decide (k < a + n)) }

/-- Only what lies in a range. -/
def inRange (m : Memory) (a n : Nat) : Memory :=
  { cells := m.cells.filter fun (k, _) => decide (a ≤ k) && decide (k < a + n)
    marks := m.marks.filter fun (k, _) => decide (a ≤ k) && decide (k < a + n) }

/-- The addresses of a memory whose bytes are not known to be 0. -/
def listed (m : Memory) : List Nat := m.cells.map (·.1) ++ m.marks.map (·.1)

/-- The bytes of a range of another memory stand at an address. -/
def copyFrom (m src : Memory) (from_ to_ n : Nat) : Memory :=
  (src.inRange from_ n).listed.foldl (fun m k => m.put (to_ + (k - from_)) (src.byte k)) (m.clearRange to_ n)

/-- Writes byte lists at offsets from a base. -/
def writeParts (m : Memory) (base : Nat) (l : List (Nat × List Byte)) : Memory :=
  l.foldl (fun m (o, b) => m.write (base + o) b) m

end Memory

/-- Size of a group frame, where the Pond frames begin, their size, and the size of a save region (R312). -/
def frameSize : Nat := 0x20000
/-- Where the Pond frames of a save region begin. -/
def pondFrames : Nat := 0x18000000
/-- Size of a Pond frame. -/
def pondFrameSize : Nat := 0x120000
/-- Size of a save region. -/
def saveSize : Nat := 0x25800000

/-- The number of a group's frame (R312). -/
def frameIndex (g : Group) : Nat := 16 * g.core + g.slot

/-! ## Writing a group frame (R313 to R316) -/

/-- The twelve words of a frame's header (R314). -/
def headerWords (g : Group) : List Nat :=
  [ g.ctx * 2 ^ 48 + g.group * 2 ^ 40 + g.role * 2 ^ 38 + g.team,
    Config.width * 2 ^ 56 + g.abud * 2 ^ 40 + g.tbud * 2 ^ 32 + g.sbud * 2 ^ 16 + g.vbud,
    countsWord g,
    g.mxSeq * 2 ^ 32 + g.cpSeq,
    g.frSeq * 2 ^ 32 + g.clSeq,
    g.stepctl.toNat * 2 ^ 32 + g.obsv.toNat,
    g.action * 2 ^ 32 + (g.park.map (·.cause.toNat)).getD 0 * 2 ^ 16 + flagAt g.park.isSome 8 + g.stores.length,
    g.mask.toNat,
    ((g.park.map (·.seq.toNat)).getD 0),
    g.cp.cpErr.toNat * 2 ^ 32 + g.cp.cpDone.toNat,
    g.cp.errSeq.toNat * 2 ^ 32 + g.cp.firstBad.toNat,
    g.cp.rmatGen.toNat * 2 ^ 32 + g.cp.errCount.toNat ]

/-- A group barrier in a frame. -/
def barrierBytes (b : Barrier) : List Byte := leBytes 8 b.k.toNat ++ leBytes 16 (maskOf b.arrived)

/-- The 32 bytes of a store buffer entry (R316). -/
def bufferedBytes (b : Buffered) : List Byte :=
  leBytes 8 b.va.toNat ++ leBytes 16 (ofLe b.data) ++ leBytes 1 b.size ++ leBytes 1 b.lane ++ leBytes 1 (b.ord.toNat + b.scope.toNat * 4)

/-- The 32 bytes of a thread (R315). -/
def threadBytes (t : Thread) : List Byte :=
  leBytes 8 t.pc.toNat ++ leBytes 8 t.randn.toNat ++ leBytes 4 t.fpctl.toNat ++ leBytes 4 t.fpstat.toNat ++ leBytes 2 t.p.toNat
  ++ leBytes 1 (if t.status = .exited then 1 else 0)

/-- Pieces of a list, each at a stride from an offset. -/
def strided (off stride : Nat) (l : List (List Byte)) : List (Nat × List Byte) := l.zipIdx.map fun (b, k) => (off + stride * k, b)

/-- The entries of a sparse map whose keys satisfy a test, as bytes at the offsets of their keys. -/
def sparsePieces {α : Type} (m : Sparse α) (ok : Nat → Bool) (off : Nat → Nat) (bytes : α → List Byte) : List (Nat × List Byte) :=
  (m.filter fun (k, _) => ok k).map fun (k, v) => (off k, bytes v)

/-- A word as bytes. -/
def word4 (x : Word) : List Byte := leBytes 4 x.toNat

/-- The offset of an S register. -/
def sOffset (r : Nat) : Nat := 0x1000 + 4 * r
/-- The offset of a V register, by its key. -/
def vOffset (k : Nat) : Nat := 0x10000 + 4 * (k % 256 * Config.width + k / 256)
/-- The offset of an accumulator element, by its key. -/
def aOffset (k : Nat) : Nat := 0x5000 + 1024 * (k / 256) + 4 * (k % 256)
/-- The offset of the T elements of a register. -/
def tOffset (r : Nat) : Nat := 0x2000 + 512 * r
/-- The offset of the metadata of a T register. -/
def tMeta (r : Nat) : Nat := 0x4000 + 64 * r
/-- The offset of the metadata of an A register. -/
def aMeta (r : Nat) : Nat := 0x4400 + 16 * r
/-- The offset of a thread. -/
def threadOffset (lane : Nat) : Nat := 0x7000 + 32 * lane

/-- The metadata of a T register (R313). -/
def tilePieces (g : Group) (r : Nat) : List (Nat × List Byte) :=
  [ (tMeta r, [sget 0 g.tfmt r]), (tMeta r + 16, (List.range 16).map (g.rscaleOf r)), (tMeta r + 32, (List.range 16).map (g.rspecOf r)) ]

/-- The metadata of an A register (R313). -/
def accPieces (g : Group) (r : Nat) : List (Nat × List Byte) :=
  [ (aMeta r, leBytes 1 (sget 0 g.atag r).toNat), (aMeta r + 4, word4 (sget 0 g.astep r)) ]

/-- Everything of a frame that the manual lays out, below the budgets of the role. -/
def framePieces (g : Group) : List (Nat × List Byte) :=
  strided 0 8 ((headerWords g).map (leBytes 8))
  ++ strided 0x200 32 (g.bars.map barrierBytes)
  ++ strided 0x400 32 (g.stores.map bufferedBytes)
  ++ sparsePieces g.sreg (fun r => decide (r < g.sbud)) sOffset word4
  ++ (List.range g.tbud).flatMap (tilePieces g)
  ++ (List.range g.abud).flatMap (accPieces g)
  ++ sparsePieces g.acc (fun k => decide (k / 256 < g.abud)) aOffset word4
  ++ strided 0x7000 32 (g.threads.map threadBytes)
  ++ sparsePieces g.v (fun k => decide (k % 256 < g.vbud)) vOffset word4

/-- Writes a group's frame at an address; the device block and the T elements, whose layout is not architectural, are left
open (R313). -/
def writeFrame (m : Memory) (occasion : Nat) (g : Group) (pa : Nat) : Memory :=
  let m1 := (m.clearRange pa frameSize).writeParts pa (framePieces g)
  (List.range g.tbud).foldl (fun m r => m.forgetRange occasion (pa + tOffset r) 512) (m1.forgetRange occasion (pa + 0xC00) 0x400)

/-- Saves a group into a region: the memory with its frame. -/
def saveFrame (s : State) (base : Nat) (g : Group) : State :=
  { s with hbm := writeFrame s.hbm s.occasion g (base + frameIndex g * frameSize) }.modifyGroup g.uid fun x => { x with savedOcc := s.occasion }

/-! ## Reading a group frame (R315, R318, R326) -/

/-- The entries of a sparse map with other keys. -/
def sdrop {α : Type} (m : Sparse α) (p : Nat → Bool) : Sparse α := m.filter fun (k, _) => !p k

/-- A word of a memory. -/
def Memory.word (m : Memory) (a : Nat) : Word := BitVec.ofNat 32 (m.readNat a 4)

/-- The status of a thread to which system software gives a PC: one that it moves no longer waits where it stood. -/
def statusAt (t : Thread) (pc : DWord) : Status := if pc = t.pc ∨ t.status = .exited then t.status else .run

/-- The RW items of a thread (R315). -/
def threadFrom (m : Memory) (a : Nat) (t : Thread) : Thread :=
  let pc : DWord := BitVec.ofNat 64 (m.readNat a 8)
  { t with pc := pc, fpctl := fpctlStored (m.word (a + 16)), fpstat := BitVec.ofNat 32 (m.readNat (a + 20) 4 % 128)
           p := BitVec.ofNat 12 (m.readNat (a + 24) 2), status := statusAt t pc }

/-- The addresses of a list of ranges of 512 bytes all still read as a save left them. -/
def untouched (m : Memory) (occasion a : Nat) : Nat → Bool
  | 0 => true
  | n + 1 => sget 0 m.marks a == occasion + 1 && untouched m occasion (a + 1) n

/-- The elements of a T register from a frame: as they were where nothing has written their bytes, and open otherwise. -/
def tileFrom (m : Memory) (occasion pa fresh : Nat) (g : Group) (r : Nat) : Group :=
  if untouched m occasion (pa + tOffset r) 512 then g
  else { g with tile := sputAll 0 g.tile ((List.range 256).map fun k => (r * 256 + k, Config.freeWord (fresh * 2 ^ 16 + r * 256 + k))) }

/-- The V, S, T and A sections of a frame below the budgets, and STEPCTL and OBSV (R326). -/
def sectionsFrom (m : Memory) (occasion fresh pa : Nat) (g : Group) : Group :=
  let vs := (List.range Config.width).flatMap fun l => (List.range g.vbud).map fun r => (Group.vkey l r, m.word (pa + vOffset (Group.vkey l r)))
  let ss := (List.range g.sbud).map fun r => (r, m.word (pa + sOffset r))
  let as := (List.range (g.abud * 256)).map fun k => (k, m.word (pa + aOffset k))
  let ts := List.range g.tbud
  let rows := fun (off : Nat) => ts.flatMap fun r => (List.range 16).map fun i => (r * 16 + i, m.byte (pa + tMeta r + off + i))
  let g1 := { g with
    v := sputAll 0 g.v vs, sreg := sputAll 0 g.sreg ss, acc := sputAll 0 g.acc as
    tfmt := sputAll 0 g.tfmt (ts.map fun r => (r, m.byte (pa + tMeta r)))
    rscale := sputAll 0x7F g.rscale (rows 16), rspec := sputAll 0 g.rspec (rows 32)
    atag := sputAll 0 g.atag ((List.range g.abud).map fun r => (r, BitVec.ofNat 2 (m.byte (pa + aMeta r)).toNat))
    astep := sputAll 0 g.astep ((List.range g.abud).map fun r => (r, m.word (pa + aMeta r + 4)))
    obsv := BitVec.ofNat 32 (m.readNat (pa + 40) 4 % 2), stepctl := BitVec.ofNat 32 (m.readNat (pa + 44) 4 % 4) }
  ts.foldl (tileFrom m occasion pa fresh) g1

/-- The group with everything that software may change in its frame. -/
def loadFrame (s : State) (pa : Nat) (g : Group) : Group :=
  let m := s.hbm.inRange pa frameSize
  let g1 := sectionsFrom m g.savedOcc s.occasion pa g
  { g1 with threads := g1.threads.zipIdx.map fun (t, l) => threadFrom m (pa + threadOffset l) t
            action := bitsOf (m.readNat (pa + 48) 8) 32 3, mask := BitVec.ofNat 64 (m.readNat (pa + 56) 8) }

/-- Whether a frame gives a thread that has not exited a PC that is not a multiple of 4 (R325). -/
def badPc (s : State) (pa : Nat) (g : Group) : Bool := g.live.any fun l => s.hbm.readNat (pa + threadOffset l) 1 % 4 != 0

/-! ## Pond frames (R317) -/

/-- The segments of a core that a context's teams hold. -/
def coreSegments (s : State) (ctx core : Nat) : List Nat :=
  (List.range Config.segments).filter fun k => (s.work.teams.any fun t => t.ctx == ctx && t.uid == (segAt s (segKey core k)).team && t.core == core)

/-- The byte of a segment table. -/
def segByte (x : Segment) : Nat := x.state.toNat + flagAt x.dead 2 + flagAt (!x.dead) 7

/-- The descriptors of a segment, as bytes. -/
def segDescs (s : State) (core k : Nat) : List Byte :=
  (List.range 64).flatMap fun i => word4 (sget 0x7F00 s.work.pondDesc ((core * 2 ^ 20 + k * 4096) / 64 + i))

/-- Writes one segment into a Pond frame, unless its team's Pond is dead (R338). -/
def writeSegment (s : State) (skip : List Nat) (pa core : Nat) (m : Memory) (k : Nat) : Memory :=
  let x := segAt s (segKey core k)
  if skip.contains x.team then m
  else
    let m1 := m.write (pa + 0x110000 + k) (leBytes 1 (segByte x))
    if x.dead then m1
    else (m1.copyFrom s.work.pond (core * 2 ^ 20 + k * 4096) (pa + k * 4096) 4096).write (pa + 0x100000 + 256 * k) (segDescs s core k)

/-- Saves the segments of a context on a core. -/
def savePond (s : State) (skip : List Nat) (base ctx core : Nat) : State :=
  let pa := base + pondFrames + core * pondFrameSize
  { s with hbm := (coreSegments s ctx core).foldl (writeSegment s skip pa core) (s.hbm.clearRange pa pondFrameSize) }

/-- The cores on which a context's teams stand. -/
def ctxCores (s : State) (ctx : Nat) : List Nat := (List.range Config.cores).filter fun k => s.work.teams.any fun t => t.ctx == ctx && t.core == k

/-- The groups of a context, without those that were terminated and only wait for their last operations. -/
def framedGroups (s : State) (ctx : Nat) : List Group := s.work.groups.filter fun g => g.ctx == ctx && !g.badEnd

/-- The groups of a context. -/
def ctxGroups (s : State) (ctx : Nat) : List Group := s.work.groups.filter fun g => g.ctx == ctx

/-- Saves every group and every Pond of a context into a region, but for the Pond of the teams of a list (R318, R336). -/
def saveContext (s : State) (skip : List Nat) (base ctx : Nat) : State :=
  let s1 := (framedGroups s ctx).foldl (fun s g => saveFrame s base g) s
  ((ctxCores s ctx).foldl (fun s k => savePond s skip base ctx k) s1).nextOccasion

/-- Copies a save region: known bytes are copied, and open ones stay open (R336, R341). -/
def copyRegion (m : Memory) (from_ to_ : Nat) : Memory :=
  let src := m.inRange from_ saveSize
  src.marks.foldl (fun m (k, tag) => m.forget (tag - 1) (to_ + (k - from_)))
    (src.cells.foldl (fun m (k, b) => m.put (to_ + (k - from_)) b) (m.clearRange to_ saveSize))

/-- Puts one segment of a Pond frame into a core's Pond for a team; what was not saved comes back EMPTY with its contents and its descriptors
open (R182, R318; log entry 118). -/
def loadSegment (m : Memory) (pa core team : Nat) (s : State) (k : Nat) : State :=
  let base := core * 2 ^ 20 + k * 4096
  let b := m.readNat (pa + 0x110000 + k) 1
  let saved : Bool := bitOf b 7
  let x : Segment := { team := team, state := if saved then BitVec.ofNat 2 b else 0, dead := bitOf b 2 }
  let descs := if saved then (List.range 64).map fun i => (base / 64 + i, descStored (m.word (pa + 0x100000 + 256 * k + 4 * i)))
    else openDescs s.occasion (base / 64)
  let pond := if saved then s.work.pond.copyFrom m (pa + k * 4096) base 4096 else s.work.pond.forgetRange s.occasion base 4096
  segPut { s with work := { s.work with pond := pond, pondDesc := sputAll 0x7F00 s.work.pondDesc descs } } (segKey core k) x

end Sys2Proof.Machine
end

