-- ==== Sys2Proof/Machine/Contexts.lean ====
section
/-! DEFINITION. The end of groups and contexts, the actions on parked groups, pre-emption, restore and the watchdog
(R310, R311, R318, R320 to R322, R377). -/
namespace Sys2Proof.Machine

/-! ## The end of groups and contexts (R136, R298, R310) -/

/-- A group none of whose threads runs any more; its issued operations remain. -/
def endThreads (g : Group) : Group :=
  { g with threads := g.threads.map (fun t => { t with status := .exited }), ext := [], issuing := [], park := none, held := [], firing := none
           badEnd := true }

/-- Action 3: the group ends, its halted copies are cancelled and its stage is TERMINATED (R249, R298, R310). -/
def terminateGroup (s : State) (uid : Nat) : State :=
  match s.group? uid with
  | none => s
  | some g =>
    let g1 := { endThreads g with copies := g.copies.map fun (op : CopyOp) => if op.halted.isSome then cancelCopy op else op }
    settle (checkPhases (terminateStage (s.setGroup g1) g) g1)

/-- A group whose context has ended: nothing that it had issued but not performed happens any more, and its copies complete as
CANCELLED; a region operation or a lease operation runs on (R258, R318, R320). -/
def dropGroup (g : Group) : Group :=
  { endThreads g with
    loads := [], stores := [], tiles := [], stQueue := [], mmas := []
    copies := g.copies.map fun (op : CopyOp) => { (if op.done.isSome then op else cancelCopy op) with fill := [], drain := [], bar := none }
    clops := g.clops.filter fun (op : UnitOp) => op.kind != 6 || op.done.isSome }

/-- Teams of a launch (R374). -/
def Launch.total (l : Launch) : Nat := (l.xm + 1) * (l.ym + 1) * (l.zm + 1)

/-- Whether every group of a launch has ended by EXIT: its teams are all placed and none of their groups is left. -/
def Launch.over (s : State) (l : Launch) : Bool := l.placed.length == l.total && !(s.work.groups.any fun g => g.launch == l.uid)

/-- The engine access of a completion record. -/
def doneAccess : Access := ⟨8, 32, 32, false, true, false, [0, 1, 3, 4, 5]⟩

/-- Where the completion record of a launch goes: DONEVA as the context translates it, or the cause that its store meets (R376). -/
def donePlace (s : State) (c : Ctx) (doneva : DWord) : Except CauseDetail Place := checkAccess s c 0 none doneAccess doneva

/-- Where the completion record of a launch goes once its context has ended: where the context's tables put it as it ended, but for a Pond,
whose segments the context gives up (R310, R376). -/
def lastPlace (s : State) (c : Ctx) (doneva : DWord) : Place ⊕ CauseDetail :=
  match donePlace s c doneva with
  | .error e => .inr e
  | .ok p => match p.target with
    | .pond _ off => .inr (0x0401, off / 4096 * 2 ^ 40)
    | _ => .inl p

/-- A launch of a context that has ended: no further team is placed, and its completion record goes where its context's tables put it as
it ended (R376). -/
def dropLaunch (s : State) (c : Ctx) (l : Launch) : Launch :=
  { l with placed := List.range l.total, bad := l.bad || !l.over s, ended := l.total - (s.work.teams.filter fun t => t.launch == l.uid).length
           done := some (lastPlace s c l.doneva) }

/-- Whether a context has ended and no group or launch of it is left. -/
def gone (s : State) (c : Ctx) : Bool :=
  c.state == .ended && !(s.work.groups.any fun g => g.ctx == c.num) && !s.work.launches.any fun l => l.ctx == c.num

/-- Forgets the contexts that have ended and of which no group or launch is left, with what was known of their bind areas. -/
def reap (s : State) : State :=
  { s with ctxs := s.ctxs.filter fun c => !gone s c
           work := { s.work with graphs := s.work.graphs.filter fun gr => !s.ctxs.any fun c => c.num == gr.ctx && gone s c } }

/-- The work of a state without what a context's groups still had to do, and without its Pond allocations. -/
def dropWork (s : State) (ctx : Nat) : Work :=
  let w := s.work
  let gone := (w.groups.filter fun g => g.ctx == ctx).map (·.uid)
  let teams := (w.teams.filter fun t => t.ctx == ctx).map (·.uid)
  { w with
    groups := w.groups.map fun g => if g.ctx = ctx then dropGroup g else g
    launches := w.launches.map fun l => match s.ctx? ctx with
      | some c => if l.ctx = ctx then dropLaunch s c l else l
      | none => l
    springHeld := w.springHeld.filter fun h => !gone.contains h.group
    segs := w.segs.filter fun (_, x) => !teams.contains x.team
    teams := w.teams.map fun t => if t.ctx = ctx then { t with nseg := 0 } else t }

/-- A context ends: every group of it ends and its Pond allocations are freed (R310, R318). -/
def endNow (s : State) (ctx : Nat) : State :=
  let s1 := { s with work := dropWork s ctx }
  reap (settle (s1.modifyCtx ctx fun c => { c with state := .ended, pinned := none }))

/-- Terminates a context, as under action 4: one that is STOPPING or SAVING goes on to SAVED first (R318). -/
def endContext (s : State) (ctx : Nat) : State :=
  match s.ctx? ctx with
  | some c => if c.state = .stopping then s.modifyCtx ctx fun c => { c with dying := true } else endNow s ctx
  | none => s

/-- Applies an action to a parked group (R310); one whose threads had all exited ends with it (R76, R142). -/
def applyAction (s : State) (g : Group) (action : Nat) (mask : DWord) : State :=
  if action = 3 then terminateGroup s g.uid
  else if action = 4 then endContext s g.ctx
  else settle (releasePark s g.uid action mask)

/-- A context that exists: one that has ended is no longer created (R377). -/
def created? (s : State) (num : Nat) : Option Ctx := s.ctxs.find? fun c => c.num == num && c.state != .ended

/-! ## Commands (R377, R380) -/

/-- Whether a command runs. -/
def cmdIs (s : State) (code : Nat) : Bool := s.regs.boot == .ready && s.regs.cmdState == 1 && s.regs.cmdCode.toNat == code

/-- The eight words of the command's argument. -/
def cmdArgs (s : State) : List DWord := s.regs.cmdWords

/-- The context that the argument names. -/
def argCtx (s : State) : Nat := recField (cmdArgs s) 0 0 16

/-- The command ends, and vector 2 is raised. -/
def cmdEnd (s : State) (ok : Bool) : State := raiseVector { s with regs := { s.regs with cmdState := if ok then 0 else 2 } } 2

/-- A command that has run at once. -/
def command (code : Nat) (f : State → Option State) (s : State) : Host.Outcome State Fault Refusal :=
  if !cmdIs s code then stutter s
  else match f s with
    | some t => .next (cmdEnd t true)
    | none => .next (cmdEnd s false)

/-- DESTROY: the context ends as under action 4. -/
def execDestroy (s : State) := command 2 (fun s => (created? s (argCtx s)).map fun c => endContext s c.num) s

/-- PREEMPT: the context goes from RUNNING to STOPPING; the command completes when it is SAVED. -/
def execPreempt (s : State) : Host.Outcome State Fault Refusal :=
  if !cmdIs s 3 then stutter s
  else match created? s (argCtx s) with
    | none => .next (cmdEnd s false)
    | some c =>
      match c.state with
      | .running => .next (s.modifyCtx c.num fun c => { c with state := .stopping })
      | .stopping => stutter s
      | _ => .next (cmdEnd s false)

/-! ## Saving a context (R318, R320) -/

/-- Whether a group stands at a boundary with every load returned, every matrix operation complete and every tile written, so
that its frame may be written. -/
def drained (s : State) (g : Group) : Bool :=
  g.ext.isEmpty && g.loads.isEmpty && g.mmas.isEmpty && g.tiles.isEmpty && !(s.work.springHeld.any fun h => h.group == g.uid)

/-- Frees the Pond allocations of a context. -/
def freePond (s : State) (ctx : Nat) : State :=
  let teams := (s.work.teams.filter fun t => t.ctx == ctx).map (·.uid)
  { s with work := { s.work with segs := s.work.segs.filter fun (_, x) => !teams.contains x.team } }

/-- Ends the command that asked for a pre-emption, when its context is saved. -/
def endPreempt (s : State) (ctx : Nat) : State := if cmdIs s 3 && argCtx s == ctx then cmdEnd s true else s

/-- A stopped context with its frames written, and its slots and Pond freed: it is SAVED (R318). -/
def savedContext (s : State) (c : Ctx) : State :=
  (freePond (saveContext s [] c.saBase c.num) c.num).modifyCtx c.num fun c => { c with state := .saved, savedAt := s.clock }

/-- CONTEXT_SAVE: a stopped context becomes SAVED, and one whose termination came meanwhile then ends (R318). -/
def execContextSave (ctx : Nat) (s : State) : Host.Outcome State Fault Refusal :=
  match s.ctx? ctx with
  | none => stutter s
  | some c =>
    if c.state ≠ .stopping ∨ ¬ (ctxGroups s ctx).all (drained s) then stutter s
    else
      let s1 := savedContext s c
      .next (endPreempt (if c.dying then endNow s1 ctx else s1) ctx)

/-! ## Restoring a context (R141, R289, R318, R321) -/

/-- The placement of a group, if one is given. -/
def placeOf (ps : List Placement) (g : Group) : Option Placement :=
  ps.find? fun p => p.launch == g.launch && p.team == g.team && p.group == g.group

/-- The core and the run of segments that a team takes. -/
def teamPlace (ps : List Placement) (t : Team) : Nat × Nat :=
  match ps.find? fun p => p.launch == t.launch && p.team == t.index with
  | some p => (p.core, p.seg)
  | none => (t.core, t.seg)

/-- The core and slot that a group takes. -/
def groupPlace (ps : List Placement) (g : Group) : Nat × Nat :=
  match placeOf ps g with
  | some p => (p.core, p.slot)
  | none => (g.core, g.slot)

/-- A segment's key after a move of the teams of a context. -/
def moveKey (s : State) (ps : List Placement) (ctx key : Nat) : Nat :=
  let core := key / Config.segments
  let k := key % Config.segments
  match s.work.teams.find? fun t => t.ctx == ctx && t.core == core && decide (t.seg ≤ k) && decide (k < t.seg + t.nseg) with
  | some t => segKey (teamPlace ps t).1 k
  | none => key

/-- A place after a move of the teams of a context (R197, R321). -/
def movePlace (s : State) (ps : List Placement) (ctx : Nat) (p : Place) : Place :=
  match p.target with
  | .pond core off => { p with target := .pond (moveKey s ps ctx (segKey core (off / 4096)) / Config.segments) off }
  | _ => p

/-- A group at its new place, with its choice values as at its first instruction (R132, R320); its engine operations keep the core on
which it stood as it issued them (R173), and the stores of its frame are performed first (R316, R320). -/
def moveGroup (s : State) (ps : List Placement) (g : Group) : Group :=
  let p := groupPlace ps g
  { g with
    core := p.1, slot := p.2, sched := .waiting, waited := 0, ages := [], elig := 0, promoted := none, released := (0, 0)
    choice := Choice.start, restoring := !g.stores.isEmpty
    stores := g.stores.map fun (b : Buffered) => { b with place := movePlace s ps g.ctx b.place }
    copies := g.copies.map fun (op : CopyOp) =>
      { op with fill := op.fill.map (moveKey s ps g.ctx), drain := op.drain.map (moveKey s ps g.ctx) } }

/-- A team at its new core; the core that it leaves is kept for the POND leaves written while it stood there (R321). -/
def moveTeam (ps : List Placement) (t : Team) : Team := { t with core := (teamPlace ps t).1, past := t.past ++ [t.core] }

/-- The state with the teams and groups of a context at their new places. -/
def moveContext (s : State) (ps : List Placement) (ctx : Nat) : State :=
  let s1 := { s with work := { s.work with
      groups := s.work.groups.map fun (g : Group) => if g.ctx = ctx then moveGroup s ps g else g
      teams := s.work.teams.map fun (t : Team) => if t.ctx = ctx then moveTeam ps t else t } }
  { s1 with moveCount := s.moveCount + 1 }.modifyCtx ctx fun c => { c with moves := c.moves ++ [s.moveCount + 1] }

/-- Whether a context holds slots and segments: it is not SAVED. -/
def resident (s : State) (ctx : Nat) : Bool :=
  match s.ctx? ctx with
  | some c => c.state != .saved
  | none => false

/-- Whether every entry of a list differs from all later ones. -/
def allDistinct {α : Type} [DecidableEq α] : List α → Bool
  | [] => true
  | x :: r => !(decide (x ∈ r)) && allDistinct r

/-- The segments of a team, by key. -/
def teamKeys (t : Team) : List Nat := (List.range t.nseg).map fun k => segKey t.core (t.seg + k)

/-- Whether the teams of a gang lie within its class (R140). -/
def inClass (gclass : Nat) (cores : List Nat) : Bool :=
  let same := fun (l : List Nat) => l.all fun x => x == l.headD 0
  if gclass = 0 then same cores else if gclass = 1 then same (cores.map dieOf) else true

/-- Whether the groups and teams of a list of contexts, as they stand, occupy distinct slots and segments of cores that are not
retired, each group on its team's core and each gang within its class; a terminated group holds no slot (R125, R136, R140). -/
def placementFits (s : State) (ctxs : List Nat) : Bool :=
  let gs := s.work.groups.filter fun g => ctxs.contains g.ctx && !g.badEnd
  let ts := s.work.teams.filter fun t => ctxs.contains t.ctx
  allDistinct (gs.map fun g => (g.core, g.slot)) && allDistinct (ts.flatMap teamKeys)
  && (gs.all fun g => decide (g.core < Config.cores) && decide (g.slot < Config.slots) && !s.regs.retCore.contains g.core
        && ((s.teamOf? g).map (·.core)) == some g.core)
  && (ts.all fun t => decide (t.seg + t.nseg ≤ Config.segments))
  && s.work.launches.all fun l => !l.gang || inClass l.gclass ((ts.filter fun t => t.launch == l.uid).map (·.core))

/-- Whether the teams that hold a stage of a bound graph, or of one that a GREBIND has made BINDING, stand on their dies (R289). -/
def stagesStay (s : State) (ctx : Nat) : Bool :=
  s.work.graphs.all fun gr => gr.ctx != ctx || (gr.state != 1 && gr.state != 2) || gr.stages.all fun st =>
    match s.work.teams.find? fun t => t.launch == gr.launch && t.index == st.team with
    | some t => dieOf t.core == dieOf st.core
    | none => true

/-- The contexts that occupy slots when one is restored. -/
def occupants (s : State) (ctx : Nat) : List Nat := ctx :: ((s.ctxs.filter fun c => (c.state == .running || c.state == .stopping) && c.num != ctx).map (·.num))

/-- The groups of a context loaded from their frames (R318). -/
def loadGroups (s : State) (base ctx : Nat) : State :=
  { s with work := { s.work with groups := s.work.groups.map fun (g : Group) =>
      if g.ctx = ctx ∧ ¬ g.badEnd then loadFrame s (base + frameIndex g * frameSize) g else g } }.nextOccasion

/-- The segments of a team, as keys with the place of its core's Pond frame, before the team moves. -/
def loadTeam (m : Memory) (base : Nat) (s : State) (t : Team × Nat) : State :=
  ((List.range t.1.nseg).map (t.1.seg + ·)).foldl (loadSegment m (base + pondFrames + t.2 * pondFrameSize) t.1.core t.1.uid) s

/-- The Ponds of a context loaded from their frames; the frames stand at the cores on which the teams stood. -/
def loadPonds (old s : State) (base ctx : Nat) : State :=
  let ts := (s.work.teams.filter fun t => t.ctx == ctx).map fun t => (t, ((old.work.teams.find? fun x => x.uid == t.uid).map (·.core)).getD t.core)
  ts.foldl (loadTeam s.hbm base) s

/-- Applies the ACTION of a restored group, which then is 0 (R318). -/
def restoreAction (s : State) (uid : Nat) : State :=
  match s.group? uid with
  | none => s
  | some g =>
    let s1 := s.setGroup { g with action := 0 }
    match g.park with
    | none => if g.action = 3 then terminateGroup s1 uid else if g.action = 4 then endContext s1 g.ctx else s1
    | some p =>
      if g.action = 0 ∨ 4 < g.action ∨ (g.action = 2 ∧ maskSplits p g.mask) then s1
      else applyAction s1 g g.action g.mask

/-- A launch of a context some ticks later: its watchdog does not count them. -/
def Launch.shift (ctx ticks : Nat) (l : Launch) : Launch := if l.ctx = ctx then { l with start := l.start.map (· + ticks) } else l

/-- What a seal recorded, with the watchdogs of a context shifted. -/
def Snap.shift (ctx ticks : Nat) (p : Snap) : Snap := { p with work := { p.work with launches := p.work.launches.map (Launch.shift ctx ticks) } }

/-- The watchdogs of a context do not count the time for which it was SAVED, in what a rollback would bring back neither (R322). -/
def shiftWatchdogs (s : State) (ctx from_ : Nat) : State :=
  let ticks := s.clock - from_
  { s with
    work := { s.work with launches := s.work.launches.map (Launch.shift ctx ticks) }
    snapCommitted := s.snapCommitted.map (Snap.shift ctx ticks), snapPending := s.snapPending.map (Snap.shift ctx ticks) }

/-- Restores a saved context at places: none where they do not fit (R318). -/
def restoreContext (s : State) (c : Ctx) (ps : List Placement) : Option State :=
  let s1 := moveContext (loadGroups s c.saBase c.num) ps c.num
  if !placementFits s1 (occupants s1 c.num) || !stagesStay s1 c.num then none
  else
    let s2 := loadPonds s s1 c.saBase c.num
    let s3 := shiftWatchdogs (s2.modifyCtx c.num fun c => { c with state := .running }) c.num c.savedAt
    some (settle (((ctxGroups s3 c.num).map (·.uid)).foldl restoreAction s3))

/-- RESTORE: a saved context is placed and loaded; the command waits while the places given do not fit. -/
def execRestore (ps : List Placement) (s : State) : Host.Outcome State Fault Refusal :=
  if !cmdIs s 4 then stutter s
  else match created? s (argCtx s) with
    | none => .next (cmdEnd s false)
    | some c =>
      if c.state ≠ .saved then .next (cmdEnd s false)
      else match restoreContext s c ps with
        | some t => .next (cmdEnd t true)
        | none => stutter s

/-! ## The watchdog (R322) -/

/-- Ticks of CLOCK in a millisecond (R402). -/
def ticksPerMs : Nat := 1000000

/-- Whether the watchdog of a launch has expired. -/
def watchdogDue (s : State) (l : Launch) : Bool :=
  match l.start with
  | some t => l.wdog != 0 && decide (t + l.wdog * ticksPerMs ≤ s.clock) &&
      (match s.ctx? l.ctx with
       | some c => (c.state == .running || c.state == .stopping) && !c.dying
       | none => false)
  | none => false

/-- The lowest team of a launch that is still resident. -/
def lowestTeam (s : State) (l : Launch) : Nat :=
  ((s.work.teams.filter fun t => t.launch == l.uid).map (·.index)).foldl min 0xFFFFFFFF

/-- WATCHDOG: a launch has used its time; its context goes through STOPPING and SAVING, and then ends (R322). -/
def execWatchdog (l : Nat) (s : State) : Host.Outcome State Fault Refusal :=
  match s.launch? l with
  | none => stutter s
  | some x =>
    if !watchdogDue s x then stutter s
    else
      let s1 := emitRecord s { team := lowestTeam s x, ctx := x.ctx, cause := 0x0C01, action := 4, sev := 4, detail := x.wdog }
      .next (s1.modifyCtx x.ctx fun c => { c with state := .stopping, dying := true })

end Sys2Proof.Machine
end

