-- ==== Sys2Proof/Machine/System.lean ====
section
/-! DEFINITION. The privileged instructions of major 0x1E, the fault queues and the commands that serve them
(R82, R185, R309, R311, R325, R326, R377). -/
namespace Sys2Proof.Machine

/-! ## Handles and status (R325) -/

/-- The group that a handle names, if it is resident and parked. -/
def parkedAt (s : State) (h : Word) : Option Group :=
  s.work.groups.find? fun g =>
    g.ctx == bitsOf h.toNat 16 16 && g.core == bitsOf h.toNat 8 8 && g.slot == bitsOf h.toNat 0 8 && g.park.isSome
    && (match s.ctx? g.ctx with
        | some c => c.state == .running || c.state == .stopping
        | none => false)

/-- Whether a handle names a group. -/
def names (h : Word) (g : Group) : Bool :=
  g.ctx == bitsOf h.toNat 16 16 && g.core == bitsOf h.toNat 8 8 && g.slot == bitsOf h.toNat 0 8

/-- The V register of an operand in the elected lane. -/
def elected (x : Issue) (lo : Nat) (r : VReg) : Word := x.g.vget (electedLane x) (x.ext.vnum lo r)

/-- Whether an operation of a parked group has yet to write one of the group's registers, which its frame holds (R25, R269; log entry 112). -/
def unsettled (g : Group) : Bool := g.loads.any (!·.done) || !g.mmas.isEmpty

/-- Writes the status in every thread of the set. -/
def putStatus (s : State) (x : Issue) (d : VReg) (code : Nat) : State :=
  s.modifyGroup x.uid fun g => x.lanes.foldl (fun g l => g.vput l (x.ext.vnum 18 d) (BitVec.ofNat 32 code)) g

/-- A privileged instruction: it waits for every earlier access of its group, and writes its status (R325). -/
def privileged (i : Instr) (d : VReg) (body : State → Issue → Except Effect (State × Nat)) (s : State) : Host.Outcome State Fault Refusal :=
  issue i (fun s x =>
    if !engineReady s x.g then .stall
    else match body s x with
      | .error e => e
      | .ok (t, code) => .done (putStatus t x d code)) s

/-- RESUME (R326). -/
def execResume (d a b : VReg) (s : State) :=
  privileged (.resume d a b) d (fun s x =>
    let h := elected x 4 b
    let action := (elected x 18 d).toNat % 8
    let mask := x.g.vpair (electedLane x) (x.ext.vnum 11 a)
    if names h x.g then .ok (s, 5)
    else match parkedAt s h with
      | none => .ok (s, 2)
      | some g =>
        match g.park with
        | none => .ok (s, 2)
        | some p =>
          if action = 0 ∨ 4 < action then .ok (s, 3)
          else if action = 2 ∧ maskSplits p mask then .ok (s, 4)
          else if action = 4 ∧ g.ctx = x.g.ctx then .ok (s, 5)
          else .ok (applyAction s g action mask, 0)) s

/-- The address of a group's frame in its context's save region (R312). -/
def framePa (s : State) (g : Group) : Nat := ((s.ctx? g.ctx).map (·.saBase)).getD 0 + frameIndex g * frameSize

/-- GSAVE (R326). -/
def execGsave (d b : VReg) (s : State) :=
  privileged (.gsave d b) d (fun s x =>
    let h := elected x 4 b
    if names h x.g then .ok (s, 5)
    else match parkedAt s h with
      | none => .ok (s, 2)
      | some g =>
        if unsettled g then .error .stall
        else
        let s1 := saveFrame s (((s.ctx? g.ctx).map (·.saBase)).getD 0) g
        .ok ((s1.modifyGroup g.uid fun y => { y with gsaved := true }).nextOccasion, 0)) s

/-- GLOAD (R326). -/
def execGload (d b : VReg) (s : State) :=
  privileged (.gload d b) d (fun s x =>
    let h := elected x 4 b
    if names h x.g then .ok (s, 5)
    else match parkedAt s h with
      | none => .ok (s, 2)
      | some g =>
        if unsettled g then .error .stall
        else if !g.gsaved then .ok (s, 6)
        else if badPc s (framePa s g) g then .ok (s, 7)
        else .ok ((s.setGroup (loadFrame s (framePa s g) g)).nextOccasion, 0)) s

/-! ## The fault queues (R308, R309, R326, R380) -/

/-- The address of the entry at a position. -/
def fqEntry (c : Ctx) (p : Nat) : Nat := c.fqBase + 32 * (p % max 1 c.fqCap)

/-- FAULT_QUEUE_ENTRY_WRITE: the oldest held entry of a context is written where the ring has room, and vector 1 is raised. -/
def execFaultQueueEntryWrite (ctx : Nat) (s : State) : Host.Outcome State Fault Refusal :=
  match s.ctx? ctx with
  | none => stutter s
  | some c =>
    match c.fqHeld with
    | [] => stutter s
    | (e, _) :: r =>
      if c.fqCap ≤ c.fqWritten - c.fqRead then stutter s
      else
        let s1 := { s with hbm := s.hbm.write (fqEntry c c.fqWritten) (wordBytes e) }
        .next (raiseVector (s1.modifyCtx ctx fun c => { c with fqHeld := r, fqWritten := c.fqWritten + 1 }) 1)

/-- The oldest written entry of a context's queue. -/
def oldestEntry (s : State) (c : Ctx) : Option (List Byte) :=
  if c.fqRead < c.fqWritten then some (s.hbm.read (fqEntry c c.fqRead) 32) else none

/-- Removes the oldest entry. -/
def popEntry (s : State) (ctx : Nat) : State := s.modifyCtx ctx fun c => { c with fqRead := c.fqRead + 1 }

/-- A store of 32 bytes by a group, performed at once; it waits for its segment or region. -/
def storeNow (s : State) (g : Group) (va : DWord) (data : List Byte) : Fitted State :=
  match groupAccess s g (storeAccess data.length) va with
  | .error c => .fault c
  | .ok p =>
    if segWaits s p then .wait
    else match logCheck s g p data.length with
      | .full die => .fault (logFault die)
      | .wait => .wait
      | .room => engineStore s (agentOf g) p va data

/-- FQPOP (R326). -/
def execFqpop (d a b : VReg) (s : State) :=
  privileged (.fqpop d a b) d (fun s x =>
    let va := x.g.vpair (electedLane x) (x.ext.vnum 11 a)
    match created? s ((elected x 4 b).toNat % 65536) with
    | none => .ok (s, 2)
    | some c =>
      match oldestEntry s c with
      | none => .ok (s, 1)
      | some e =>
        match storeNow s x.g va e with
        | .wait => .error .stall
        | .fault f => .error (setFault x 1 va f)
        | .ok t => .ok (popEntry t c.num, 0)) s

/-- CMD_FQPOP: the oldest entry goes to a physical address (R377). -/
def execCmdFqpop (s : State) :=
  command 7 (fun s =>
    let pa := recField (cmdArgs s) 1 0 64
    match created? s (argCtx s) with
    | none => none
    | some c =>
      if pa % 32 ≠ 0 ∨ Config.hbmBytes < pa + 32 then none
      else (oldestEntry s c).map fun e => popEntry { s with hbm := s.hbm.write pa e } c.num) s

/-! ## Invalidation (R171, R185) -/

/-- Whether the page that a group waits for is still in motion: TRANSIT, or OUTBOUND for a writer; of the accesses of kind 6 SEGSET writes. -/
def stillMoving (s : State) (c : Ctx) (p : Park) : Bool :=
  match walk s c p.va.toNat with
  | .leaf e _ _ => e.state == 1 || (e.state == 2 && (p.kind == 1 || p.kind == 2 || p.kind == 5 || (p.kind == 6 && p.segset) || p.kind == 8))
  | _ => false

/-- Inserts a pair into a list that rises in its first component. -/
def insertRising (x : Nat × Nat) : List (Nat × Nat) → List (Nat × Nat)
  | [] => [x]
  | y :: r => if x.1 < y.1 then x :: y :: r else y :: insertRising x r

/-- The groups whose pending record satisfies a test, in SEQ order. -/
def parkedWith (s : State) (ok : Group → Park → Bool) : List Nat :=
  ((s.work.groups.filterMap fun g =>
    match g.park with
    | some p => if ok g p then some (p.seq.toNat, g.uid) else none
    | none => none).foldl (fun l x => insertRising x l) []).map (·.2)

/-- Releases groups under action 2 with every lane named. -/
def autoResume (s : State) (l : List Nat) : State :=
  settle (l.foldl (fun s uid => releasePark s uid 2 0xFFFFFFFFFFFFFFFF) s)

/-- INVAL: accesses use the present entries, and groups parked by 0x0303 whose page has arrived are resumed. -/
def execInval (s : State) :=
  command 5 (fun s =>
    match created? s (argCtx s) with
    | none => none
    | some c =>
      let c1 := { c with snap := s.hbm, snapDates := s.work.dates }
      let s1 := s.modifyCtx c.num fun c => { c with snap := s.hbm, snapDates := s.work.dates }
      some (autoResume s1 (parkedWith s1 fun g p => g.ctx == c.num && p.auto && p.cause == 0x0303 && !stillMoving s1 c1 p))) s

/-- RETIRE: the region is no longer registered (R214). -/
def execRetire (s : State) :=
  command 6 (fun s =>
    let pa := recField (cmdArgs s) 1 0 64
    if (region? s pa).isSome then some { s with work := { s.work with regions := s.work.regions.filter fun r => r.hdr != pa } } else none) s

end Sys2Proof.Machine
end

