-- ==== Sys2Proof/Machine/Leases.lean ====
section
/-! DEFINITION. Leases, the fabric's routes and the accesses of peers (R351 to R357, R377). -/
namespace Sys2Proof.Machine

/-! ## Operations of class CL (R243, R245) -/

/-- Whether the set may issue an operation of the CL class. -/
def clopReady (s : State) (g : Group) : Bool := engineReady s g && decide (g.clCount < Config.counterMax)

/-- The operations of the classes CP (0), CL (2) and FR (3) in flight: the group, the class and the number of each. -/
def flying (s : State) : List (Nat × Nat × Nat) :=
  s.work.groups.flatMap fun g => g.copies.map (fun op => (g.uid, 0, op.seq)) ++ g.clops.map (fun op => (g.uid, 2, op.seq))
    ++ g.frops.map fun op => (g.uid, 3, op.seq)

/-- Adds an operation to the CL class of a group: kind 6 is COLL, and 7 LEASE. -/
def pushClop (s : State) (x : Issue) (kind scope : Nat) (words : List DWord) (comp : Option DWord) : State :=
  let op : UnitOp := { seq := nextSeq x.g.clSeq, kind := kind, words := words, lane := electedLane x, core := x.g.core, comp := comp,
                       scope := scope, step := 0, done := none, after := if kind = 7 then flying s else [] }
  s.setGroup { x.g with clops := x.g.clops ++ [op], clSeq := op.seq }

/-- The status words after a CL completion with an outcome and a cause (R367). -/
def clStatusAfter (c : CollStatus) (seq outcome cause : Nat) : CollStatus :=
  if outcome = 0 then { c with clDone := BitVec.ofNat 32 seq }
  else { clDone := BitVec.ofNat 32 seq, clErr := BitVec.ofNat 32 (cause * 65536 + outcome), errSeq := BitVec.ofNat 32 seq, clWord := c.clWord + 1 }

/-- The collective engine as the agent of an operation of a group. -/
def clAgent (g : Group) (seq : Nat) : Agent := { agentOf g with op := some (2, seq) }

/-- Completes the oldest CL operation of a group; none while it waits for its writes at its release scope (R207), or its completion
word for room in a log (R246). -/
def completeClop (s : State) (g : Group) (op : UnitOp) (outcome cause : Nat) : Option State :=
  if scopeWaits s (clAgent g op.seq) op.scope then none
  else (completionStore s g (agentOf g) op.core 3 op.lane op.seq (outcome != 0) op.comp).map fun t =>
    settle (refreshCounts (t.modifyGroup g.uid fun y => { y with clops := y.clops.drop 1, cl := clStatusAfter y.cl op.seq outcome cause }) g.uid)

/-- Reads words of a record at issue: a fault with its address that an engine reports, or a wait for the segment. -/
def readWords (s : State) (g : Group) (engine n : Nat) (va : DWord) : Except IssueStop (List DWord) :=
  match groupAccess s g (recordAccess (8 * n) 64) va with
  | .error c => .error (.fault engine 0 (some va) c)
  | .ok p => if segWaits s p then .error .wait else .ok (dwordsOf n (groupRead s g p (8 * n)))

/-- The effect of an issue that stops. -/
def stopEffect (x : Issue) : IssueStop → Effect
  | .wait => .stall
  | .fault engine kind va c => engineFault x engine kind va c

/-! ## LEASE (R357) -/

/-- The lease of a device and a number that one side keeps. -/
def lease? (s : State) (lender : Bool) (dev num : Nat) : Option Lease :=
  s.leases.find? fun l => l.lender == lender && l.dev == dev && l.num == num

/-- Changes a lease. -/
def modifyLease (s : State) (lender : Bool) (dev num : Nat) (f : Lease → Lease) : State :=
  { s with leases := s.leases.map fun l => if l.lender = lender ∧ l.dev = dev ∧ l.num = num then f l else l }

/-- Whether a notice word lies on an HBM page of the group's context, which may be in transit. -/
def noticeOk (s : State) (g : Group) (va : DWord) : Bool :=
  va == 0 || (decide (va.toNat % 8 = 0) && (match hbmAccess s g g.core ⟨8, 8, 8, false, true, false, [0]⟩ va with
    | .ok _ => true
    | .error c => c.1 == 0x0303))

/-- Whether a lease record keeps to its table and names a lease of the group's context. -/
def leaseOk (s : State) (g : Group) (w : List DWord) : Bool :=
  recField w 0 58 6 == 0 && recField w 0 2 30 == 0 && decide (recField w 0 0 2 < 2) && ((w.drop 2).all (· == 0))
  && (recField w 0 0 2 == 1 || noticeOk s g (w.getD 1 0))
  && (match lease? s false (recField w 0 48 10) (recField w 0 32 16) with
      | some l => l.ctx == g.ctx
      | none => false)

/-- LEASE (R357). -/
def execLease (sh cs : SReg) (s : State) :=
  issue (.lease sh cs) (fun s x =>
    let va := shAddr x sh
    if !clopReady s x.g then .stall
    else match readWords s x.g 3 8 va with
      | .error e => stopEffect x e
      | .ok w =>
        if !leaseOk s x.g w then engineFault x 3 0 (some va) (0x0602, 0)
        else match compFault s x.g (csAddr x cs) with
          | some (ca, c) => engineFault x 3 1 (some ca) c
          | none => .done (pushClop s x 7 3 (w.take 2) (csAddr x cs))) s

/-- The notice store of a lease whose deadline is known; where it faults it is dropped with a record, and none while it waits for
room in a log (R356, R357). -/
def noticeStore (s : State) (l : Lease) : Option State :=
  match l.watch with
  | none => some s
  | some (ctx, core, va) =>
    match s.ctx? ctx with
    | none => some s
    | some c =>
      match checkAccess s c core none ⟨8, 8, 8, false, true, false, [0]⟩ va with
      | .error (cause, d) => some (emitRecord s { ctx := ctx, engine := 3, cause := cause, sev := 3, kind := 8, va := some va.toNat, detail := d })
      | .ok p => writePlace s { ctx := ctx, group := 0, die := dieOf core, op := none } p (leBytes 8 l.deadline)

/-- The notice stores of every lease that has been in NOTICE, made again after a rollback (R356); the rollback has emptied the logs. -/
def noticeAgain (s : State) : State :=
  s.leases.foldl (fun s l => if !l.lender && l.deadline != 0 then (noticeStore s l).getD s else s) s

/-- WATCH: registers the notice word; a lease already in NOTICE stores its deadline. -/
def watchLease (s : State) (g : Group) (op : UnitOp) (l : Lease) : Option State :=
  let va := op.words.getD 1 0
  let l1 : Lease := { l with watch := if va = 0 then none else some (g.ctx, op.core, va) }
  let s1 := modifyLease s false l.dev l.num fun _ => l1
  if l.state = 1 then noticeStore s1 l1 else some s1

/-- Whether a copy in flight still reads or writes a target of a kind: some block of its ranges lies there. -/
def copyReaches (s : State) (g : Group) (op : CopyOp) (hit : Target → Bool) : Bool :=
  let w : Shape := op.words
  let kind : CopyKind := if op.op = 5 then .cpfill else if op.op = 1 then .cpyt else .cpy
  let sbits := if op.width ≠ 0 then op.width else if op.op ≤ 1 then w.ewBits else 64
  let dbits := if op.op = 2 ∨ op.op = 3 ∨ op.op = 4 then elemBits w.dfmt else w.ewBits
  let src := if op.op = 5 then [] else blocksOf (srcRange w op.coords sbits)
  op.done.isNone && ((reachable s g (rangeAccess false) src).any (fun p => hit p.target)
    || (reachable s g (rangeAccess true) (blocksOf (dstRange kind w op.coords dbits))).any fun p => hit p.target)

/-- Whether a range that an engine reads for a group reaches a target of a kind. -/
def rangeReaches (s : State) (g : Group) (hit : Target → Bool) (va bytes : Nat) : Bool :=
  (reachable s g (rangeAccess false) (blocksOf (va, bytes))).any fun p => hit p.target

/-- Whether a completion word is still to be stored at a target of a kind. -/
def compReaches (s : State) (g : Group) (comp : Option DWord) (hit : Target → Bool) : Bool :=
  match comp with
  | some va => (reachable s g (rangeAccess true) [va]).any fun p => hit p.target
  | none => false

/-- The header that says what an RINST reads: its region's where it has begun to install, else its image (R226). -/
def rinstHeader (s : State) (g : Group) (op : UnitOp) : Header :=
  match op.words[3]? with
  | some hdr => headerAt s.hbm hdr.toNat
  | none =>
    match readImage s g op.core 8 16 (op.words.getD 0 0).toNat with
    | .ok b => (dwordsOf 16 b).map (·.toNat)
    | _ => []

/-- What an operation of class FR still reads outside its region: RINST its images and its values (R226), a bind its record, whose
parts hold at most 255 entries each (R284). -/
def fropReads (s : State) (g : Group) (op : UnitOp) : List (Nat × Nat) :=
  let w := fun k => (op.words.getD k 0).toNat
  if op.done.isSome then []
  else if op.kind = 0 then
    let h := rinstHeader s g op
    [(w 0, 128), (w 1, h.psize * h.params), (w 2, if w 2 = 0 then 0 else h.points * h.esize)]
  else if 4 ≤ op.kind then [(w 0, 64 + 48 * 255)]
  else []

/-- Whether an operation of a group, of a class and with a number, is in flight and still accesses a target of a kind. -/
def operationReaches (s : State) (hit : Target → Bool) (o : Nat × Nat × Nat) : Bool :=
  match s.group? o.1 with
  | none => false
  | some g =>
    (o.2.1 == 0 && g.copies.any fun op => op.seq == o.2.2 && (copyReaches s g op hit || compReaches s g op.comp hit))
    || (o.2.1 == 2 && g.clops.any fun (op : UnitOp) => op.seq == o.2.2 && (compReaches s g op.comp hit
      || (op.kind == 6 && op.step == 0 && op.words.getD 2 0 != 0 && rangeReaches s g hit (op.words.getD 2 0).toNat 4)))
    || (o.2.1 == 3 && g.frops.any fun (op : UnitOp) => op.seq == o.2.2 && (compReaches s g op.comp hit
      || (fropReads s g op).any fun r => rangeReaches s g hit r.1 r.2))

/-- Whether a target lies in a lease's range: where the lender is this device, the range is its own HBM (R355). -/
def leaseHolds (s : State) (l : Lease) (t : Target) : Bool :=
  match t with
  | .leased d n _ => d == l.dev && n == l.num
  | .hbm pa => l.dev == s.domain.device && decide (l.base ≤ pa) && decide (pa < l.base + l.size)
  | _ => false

/-- Whether an access of this device to a lease is still to be performed at its lender: a store that waits, or an access of one of the
engine operations that stand before a RELEASE (R357). -/
def leaseBusy (s : State) (after : List (Nat × Nat × Nat)) (l : Lease) : Bool :=
  let hit := leaseHolds s l
  (s.deferred.any fun d => hit d.target) || (s.work.groups.any fun g => g.stores.any (fun b => hit b.place.target)
    || g.tiles.any fun t => hit t.place.target) || after.any (operationReaches s hit)

/-- What a LEASE operation does before it completes; none while it must wait. -/
def performLease (s : State) (g : Group) (op : UnitOp) : Option State :=
  let dev := recField op.words 0 48 10
  let num := recField op.words 0 32 16
  match lease? s false dev num with
  | none => some s
  | some l =>
    if recField op.words 0 0 2 = 0 then watchLease s g op l
    else if 2 ≤ l.state then some s
    else if leaseBusy s op.after l then none
    else some (modifyLease s false dev num fun l => { l with state := 3 })

/-- LEASE_COMPLETION: the oldest CL operation of a group is a LEASE, whose lender has answered. -/
def execLeaseCompletion (g : Nat) (s : State) : Host.Outcome State Fault Refusal :=
  match s.group? g with
  | none => stutter s
  | some x =>
    match x.clops with
    | [] => stutter s
    | op :: _ =>
      if op.kind ≠ 7 then stutter s
      else match (performLease s x op).bind fun t => completeClop t x op 0 0 with
        | some t => .next t
        | none => stutter s

/-! ## The states of a lease (R356) -/

/-- The least notice of a revocation, in ticks (R356). -/
def leastNotice : Nat := 10 * ticksPerMs

/-- LEASE_NOTICE: the lender revokes, and the lease enters NOTICE. -/
def execLeaseNotice (dev : BitVec 10) (num : BitVec 16) (notice : DWord) (s : State) : Host.Outcome State Fault Refusal :=
  match lease? s false dev.toNat num.toNat with
  | none => stutter s
  | some l =>
    if l.state ≠ 0 ∨ notice.toNat < leastNotice then stutter s
    else
      let l1 : Lease := { l with state := 1, deadline := s.clock + notice.toNat }
      match noticeStore (modifyLease s false l.dev l.num fun _ => l1) l1 with
      | some t => .next t
      | none => stutter s

/-- Whether a table of a level, or one that it points to, holds a leaf that names a lease. -/
def tableNames (m : Memory) (dev num : Nat) : Nat → Nat → Bool
  | 0, table => (List.range 4096).any fun k =>
      let e := entryAt m (table + 16 * k)
      e.v && e.type == 5 && e.dev == dev && e.lease == num
  | level + 1, table => (List.range 4096).any fun k =>
      let e := entryAt m (table + 16 * k)
      e.v && !pointerMalformed e && tableNames m dev num level e.addr

/-- LEASE_DEADLINE: a lease in NOTICE reaches its deadline, and every context that still holds a leaf naming it ends (R356, R385). -/
def execLeaseDeadline (dev : BitVec 10) (num : BitVec 16) (s : State) : Host.Outcome State Fault Refusal :=
  match lease? s false dev.toNat num.toNat with
  | none => stutter s
  | some l =>
    if l.state ≠ 1 ∨ s.clock < l.deadline then stutter s
    else
      let hit := s.ctxs.filter fun c => c.state != .ended && tableNames s.hbm l.dev l.num 3 c.root
      .next (hit.foldl (fun t c =>
        endContext (emitRecord t { ctx := c.num, engine := 7, cause := 0x0A02, action := 4, sev := 4, detail := l.dev * 2 ^ 38 + l.num }) c.num)
        (modifyLease s false l.dev l.num fun l => { l with state := 2 }))

/-- LEASE_RELEASE_AT_LENDER: the lender takes back the range of a lease (R356, R357). -/
def execLeaseReleaseAtLender (dev : BitVec 10) (num : BitVec 16) (s : State) : Host.Outcome State Fault Refusal :=
  .next { s with leases := s.leases.filter fun l => !(l.lender && l.dev == dev.toNat && l.num == num.toNat) }

/-! ## The LEASE commands (R355, R356, R377) -/

/-- A LEASE command of an operation; operation 3 names none and fails. -/
def leaseCommand (op : Nat) (f : State → List DWord → Option State) (s : State) : Host.Outcome State Fault Refusal :=
  if recField (cmdArgs s) 0 0 2 = 3 then command 8 (fun _ => none) s
  else if recField (cmdArgs s) 0 0 2 ≠ op then stutter s
  else command 8 (fun s => f s ((cmdArgs s).drop 1 |>.take 3)) s

/-- CMD_LEASE_GRANT: the lender lends a range of whole 64 KiB pages to a device of its domain. -/
def execCmdLeaseGrant (s : State) :=
  leaseCommand 0 (fun s w =>
    let l : Lease := { num := (Config.leaseNum w).toNat, dev := (Config.leaseDev w).toNat, ctx := Config.leaseCtx w, state := 0, lender := true
                       base := Config.leaseBase w, size := Config.leaseSize w, deadline := 0, watch := none }
    if inDomain s l.dev ∧ l.base % 65536 = 0 ∧ l.size % 65536 = 0 ∧ l.size ≠ 0 ∧ l.base + l.size ≤ Config.hbmBytes
        ∧ (lease? s true l.dev l.num).isNone then
      some { s with leases := s.leases ++ [l] }
    else none) s

/-- CMD_LEASE_REVOKE: the lender revokes a lease with a notice of at least 10 ms. -/
def execCmdLeaseRevoke (s : State) :=
  leaseCommand 1 (fun s w =>
    let dev := (Config.leaseDev w).toNat
    let num := (Config.leaseNum w).toNat
    match lease? s true dev num with
    | none => none
    | some l =>
      if Config.leaseNotice w < leastNotice ∨ l.state ≠ 0 then none
      else some (modifyLease s true dev num fun l => { l with state := 1, deadline := s.clock + Config.leaseNotice w })) s

/-- CMD_LEASE_REGISTER: the borrower registers a lease with one of its contexts. -/
def execCmdLeaseRegister (s : State) :=
  leaseCommand 2 (fun s w =>
    let l : Lease := { num := (Config.leaseNum w).toNat, dev := (Config.leaseDev w).toNat, ctx := Config.leaseCtx w, state := 0, lender := false
                       base := Config.leaseBase w, size := Config.leaseSize w, deadline := 0, watch := none }
    let live := match lease? s false l.dev l.num with
      | some o => decide (o.state < 2)
      | none => false
    if live || (created? s l.ctx).isNone || !inDomain s l.dev then none
    else some { s with leases := (s.leases.filter fun o => !(!o.lender && o.dev == l.dev && o.num == l.num)) ++ [l] }) s

/-! ## Routes and peers (R353, R354) -/

/-- NO_ROUTE: the last route to a device is lost. -/
def execNoRoute (dev : BitVec 10) (s : State) : Host.Outcome State Fault Refusal :=
  if s.domain.noRoute.contains dev.toNat then stutter s
  else .next { s with domain := { s.domain with noRoute := s.domain.noRoute ++ [dev.toNat] } }

/-- ROUTE_REGAINED: a route to a device is available again. -/
def execRouteRegained (dev : BitVec 10) (s : State) : Host.Outcome State Fault Refusal :=
  .next { s with domain := { s.domain with noRoute := s.domain.noRoute.filter (· != dev.toNat) } }

/-- A peer's write at this device's point of coherence: tracked from a device of the domain, and as it arrives from any other;
none while it waits for room in a log (R329, R353). -/
def peerArrives (s : State) (acc : PeerAccess) (data : List Byte) : Option State :=
  if inDomain s acc.dev.toNat ∧ ¬ inWindow s acc.pa then trackedWrite s acc.pa data
  else some (newWrite s acc.pa data)

/-- PEER_ACCESS_ARRIVAL: an access of another device is performed here; one outside HBM or in an undo log does not exist. -/
def execPeerAccessArrival (acc : PeerAccess) (s : State) : Host.Outcome State Fault Refusal :=
  let data := acc.write.getD []
  if s.regs.boot ≠ .ready ∨ Config.hbmBytes < acc.pa + data.length ∨ Config.hbmBytes ≤ acc.pa ∨ touchesLog s acc.pa (max 1 data.length) then stutter s
  else
    let place : Place := { target := .hbm acc.pa, irrev := false, immed := !inDomain s acc.dev.toNat }
    match (peerArrives s acc data).bind fun t => match acc.desc with
      | some d => writeDesc t { ctx := 0x10000, group := 0, die := 0, op := none } place d
      | none => some t with
    | some t => .next t
    | none => stutter s

end Sys2Proof.Machine
end

