-- ==== Sys2Proof/Machine/Collective.lean ====
section
/-! DEFINITION. The collective engine: COLL, CLARB, CLSTAT and the events of an exchange (R358 to R367). -/
namespace Sys2Proof.Machine

/-! ## Records (R358, R359) -/

/-- Bytes of an element of a TYPE, and of one of its components. -/
def collSize (type : Nat) : Nat := if type = 0 ∨ type = 2 then 4 else if type = 4 then 16 else 8
/-- Bytes of a component of an element. -/
def collPart (type : Nat) : Nat := if type = 0 ∨ type = 2 ∨ type = 3 then 4 else 8

/-- Whether a collective record keeps to its table, for a number of ranks. -/
def collOk (w : List DWord) (nrank : Nat) : Bool :=
  let type := recField w 5 53 3
  let cop := recField w 5 56 3
  let rop := recField w 5 51 2
  let count := recField w 4 0 32
  recField w 3 0 2 == 0 && recField w 4 32 32 == 0 && decide (1 ≤ count) && decide (count ≤ 2 ^ 28)
  && decide (recField w 5 61 3 < 5) && recField w 5 59 2 == 0 && decide (cop < 4) && decide (type < 5) && decide (rop < 3)
  && !(decide (3 ≤ type) && rop != 0) && recField w 5 42 8 == 0 && recField w 5 0 32 == 0
  && (cop != 3 || decide (recField w 5 32 10 < nrank)) && w.getD 6 0 == 0 && w.getD 7 0 == 0

/-- Whether the header of a communicator record keeps to its table. -/
def commOk (w : List DWord) : Bool :=
  recField w 0 32 32 == 0 && recField w 0 11 5 == 0 && decide (1 ≤ recField w 0 0 11) && decide (recField w 0 0 11 ≤ 1024)
  && (w.drop 1).all (· == 0)

/-- The entries of a communicator's table. -/
def commTable (w : List DWord) (n : Nat) : List Nat := (List.range n).map fun k => recField w (k / 4) (16 * (k % 4)) 16

/-- Whether the entries are distinct device numbers, and name this device. -/
def tableOk (s : State) (t : List Nat) : Bool := (t.all fun d => decide (d < 1024)) && allDistinct t && t.contains s.domain.device

/-- Reads the lines of a table of 16-bit entries. -/
def readTable (s : State) (g : Group) (va : DWord) : Nat → Except IssueStop (List DWord)
  | 0 => .ok []
  | n + 1 =>
    match readTable s g va n with
    | .error e => .error e
    | .ok l => (readWords s g 0 8 (va + BitVec.ofNat 64 (64 * n))).map (l ++ ·)

/-- Whether n lines from an address on lie in HBM of this device. -/
def linesInHbm (s : State) (g : Group) (va : DWord) (n : Nat) : Bool :=
  (List.range n).all fun k => match groupAccess s g (recordAccess 64 64) (va + BitVec.ofNat 64 (64 * k)) with
    | .ok p => (match p.target with
      | .hbm _ => true
      | _ => false)
    | .error _ => false

/-- A communicator: its header and its table, in HBM (R358); none where it breaks the rule. -/
def readComm (s : State) (g : Group) (va : DWord) : Except IssueStop (Option (List Nat)) :=
  match readWords s g 0 8 va with
  | .error e => .error e
  | .ok h =>
    if !commOk h then .ok none
    else
      let n := recField h 0 0 11
      (readTable s g (va + 64) ((2 * n + 63) / 64)).map fun t =>
        let l := commTable t n
        if tableOk s l && linesInHbm s g va (1 + (2 * n + 63) / 64) then some l else none

/-! ## COLL at issue (R360, R364) -/

/-- Source elements and destination elements of a COP (R362). -/
def collCounts (cop n count : Nat) : Nat × Nat :=
  if cop = 1 then (n * count, count) else if cop = 2 then (count, n * count) else (count, count)

/-- The words of a COLL in flight: source, destination, ready word, count, W5, element offset, ready value, and whether a device outside
the domain takes part; then the table. -/
def collWords (s : State) (w : List DWord) (e rv : Word) (table : List Nat) : List DWord :=
  [w.getD 0 0, w.getD 1 0, w.getD 3 0, BitVec.ofNat 64 (recField w 4 0 32), w.getD 5 0, BitVec.ofNat 64 e.toNat, BitVec.ofNat 64 rv.toNat,
   if table.all (inDomain s) then 0 else 1] ++ table.map (BitVec.ofNat 64)

/-- The address of an element of a buffer of a COLL. -/
def collVa (op : UnitOp) (dst : Bool) (k : Nat) : DWord :=
  let size := collSize (recField op.words 4 53 3)
  op.words.getD (if dst then 1 else 0) 0 + BitVec.ofNat 64 (((op.words.getD 5 0).toNat + k) * size)

/-- An engine's access of a component, to an HBM page of this device. -/
def collAccess (write : Bool) (n : Nat) : Access := ⟨if write then 8 else 7, n, n, !write, write, false, [0]⟩

/-- The cause that checks 1 to 4 of R173 raise for an access of a buffer at issue (R360). -/
def collCheck (s : State) (g : Group) (a : Access) (va : DWord) : Option CauseDetail :=
  match hbmAccess s g g.core a va with
  | .error c => if c.1 = 0x0303 then none else some c
  | .ok _ => none

/-- Checks a range of elements, one address in each 4 KiB block. -/
def collRange (s : State) (g : Group) (write : Bool) (va : DWord) (part bytes : Nat) : Except IssueStop Unit :=
  let kind := if write then 8 else 7
  match collCheck s g (collAccess write part) va with
  | some c => .error (.fault 0 kind (some va) c)
  | none =>
    match (blocksOf (va.toNat, bytes)).findSome? fun a => (collCheck s g ⟨kind, 1, 1, !write, write, false, [0]⟩ a).map fun c => (a, c) with
    | some (a, c) => .error (.fault 0 kind (some a) c)
    | none => .ok ()

/-- The records that COLL reads and validates at issue: the collective record, and the table of its communicator. -/
def readColl (s : State) (x : Issue) (va : DWord) : Except IssueStop (List DWord × List Nat) :=
  match readWords s x.g 0 8 va with
  | .error st => .error st
  | .ok w =>
    let bad : IssueStop := .fault 3 0 (some va) (0x0602, 0)
    if !collOk w 1024 then .error bad
    else match readComm s x.g (w.getD 2 0) with
      | .error st => .error st
      | .ok none => .error bad
      | .ok (some table) => if !collOk w table.length then .error bad else .ok (w, table)

/-- Checks the ranges that COLL uses of its two buffers, from element e on. -/
def collRanges (s : State) (x : Issue) (w : List DWord) (table : List Nat) (e : Word) : Except IssueStop Unit :=
  let type := recField w 5 53 3
  let n := collCounts (recField w 5 56 3) table.length (recField w 4 0 32)
  let off := BitVec.ofNat 64 (e.toNat * collSize type)
  match collRange s x.g false (w.getD 0 0 + off) (collPart type) (n.1 * collSize type) with
  | .error st => .error st
  | .ok _ => collRange s x.g true (w.getD 1 0 + off) (collPart type) (n.2 * collSize type)

/-- COLL (R360): its records are validated first, then the completion address is checked, then the ranges of its buffers (R244). -/
def execColl (sh co cs : SReg) (s : State) :=
  issue (.coll sh co cs) (fun s x =>
    let c0 := x.ext.snum 9 co.toNat
    if !clopReady s x.g then .stall
    else match readColl s x (shAddr x sh) with
      | .error e => stopEffect x e
      | .ok (r, table) =>
        match compFault s x.g (csAddr x cs) with
        | some (ca, c) => setFault x 1 ca c
        | none =>
          match collRanges s x r table (x.g.sregGet c0) with
          | .error e => stopEffect x e
          | .ok _ =>
            let w := collWords s r (x.g.sregGet c0) (x.g.sregGet (c0 + 1)) table
            .done (pushClop s x 6 (recField w 4 61 3) w (csAddr x cs))) s

/-- Whether a COLL in flight pins its context (R364). -/
def collPins (s : State) (ctx : Nat) : Bool :=
  s.work.groups.any fun g => g.ctx == ctx && g.clops.any fun (op : UnitOp) => op.kind == 6 && recField op.words 7 0 1 == 1

/-! ## The ready word (R360) -/

/-- Replaces an operation of the CL class. -/
def setClop (s : State) (g : Nat) (seq : Nat) (f : UnitOp → UnitOp) : State :=
  s.modifyGroup g fun y => { y with clops := y.clops.map fun (u : UnitOp) => if u.seq = seq then f u else u }

/-- An operation that has ended: with OK, or with a cause at an element (R363). -/
def endedColl (cause k : Nat) (u : UnitOp) : UnitOp :=
  { u with step := 1, done := some (if cause = 0 then 0 else 2, BitVec.ofNat 16 cause, BitVec.ofNat 48 k) }

/-- The end of an operation, which may still wait for its completion; its record arises here where it is not OK (R363, R389). -/
def endColl (s : State) (g : Group) (op : UnitOp) (cause k kind : Nat) : State :=
  let s1 := setClop s g.uid op.seq (endedColl cause k)
  if cause = 0 then s1
  else emitRecord s1 (opRecord g 3 cause 3 kind op.lane (some (collVa op true k).toNat) (k * 65536 + 2))

/-- COLL_READY_PASSED: the ready word of an operation has been reached; a later operation waits for the earlier ones. -/
def execCollReadyPassed (g n : Nat) (s : State) : Host.Outcome State Fault Refusal :=
  match s.group? g with
  | none => stutter s
  | some x =>
    match x.clops[n]? with
    | none => stutter s
    | some op =>
      if op.kind ≠ 6 ∨ op.step ≠ 0 ∨ ((x.clops.take n).any fun (u : UnitOp) => u.step == 0) then stutter s
      else if op.words.getD 2 0 = 0 then .next (setClop s g op.seq fun u => { u with step := 1 })
      else match engineRead s x op.core 4 (op.words.getD 2 0) with
        | .wait => stutter s
        | .fault c => .next (endColl s x op c.1 0 7)
        | .ok b =>
          if (ofLe b + 2 ^ 32 - (op.words.getD 6 0).toNat % 2 ^ 32) % 2 ^ 32 < 2 ^ 31 then .next (setClop s g op.seq fun u => { u with step := 1 })
          else stutter s

/-! ## Reduction (R361) -/

/-- The least L with n at most 2^L. -/
def logCeil (n : Nat) : Nat := ((List.range 11).find? fun k => decide (n ≤ 2 ^ k)).getD 10

/-- The operation of a TYPE and a ROP on elements as numbers; a double-word element is its pair. -/
def collComb (type rop : Nat) : Comb :=
  let f := if type = 1 ∨ type = 4 then fp64 else fp32
  if type = 2 then intComb (if rop = 0 then fun x y => (x + y) % 2 ^ 32 else if rop = 1 then minI else maxI)
  else if 3 ≤ type then dwComb f
  else if rop = 0 then addComb f rne
  else intComb (minMaxCode f (rop == 2))

/-- An element as a reduction takes it: hi at the lower address. -/
def collVal (type : Nat) (b : List Byte) : RVal :=
  if 3 ≤ type then (ofLe (b.take (collPart type)), ofLe (b.drop (collPart type))) else (ofLe b, 0)

/-- The bytes of a result. -/
def collBytes (type : Nat) (v : RVal) : List Byte :=
  if 3 ≤ type then leBytes (collPart type) v.1 ++ leBytes (collPart type) v.2 else leBytes (collSize type) v.1

/-- Element k of a list of bytes. -/
def elemOf (size : Nat) (b : List Byte) (k : Nat) : List Byte := (b.drop (k * size)).take size

/-- Destination element k of an operation, from the source bytes of every rank (R361, R362). -/
def collElem (op : UnitOp) (me : Nat) (src : Nat → List Byte) (k : Nat) : List Byte :=
  let w := op.words
  let type := recField w 4 53 3
  let size := collSize type
  let cop := recField w 4 56 3
  let count := (w.getD 3 0).toNat
  let n := w.length - 8
  if cop = 2 then elemOf size (src (k / count)) (k % count)
  else if cop = 3 then elemOf size (src (recField w 4 32 10)) k
  else
    let at0 := if cop = 1 then me * count + k else k
    let r := reduceTree (collComb type (recField w 4 51 2)) (fun i => if i < n then some (collVal type (elemOf size (src i) at0)) else none) (logCeil n) 0
    collBytes type (r.1.getD (0, 0))

/-! ## The exchange and the completion (R362, R363) -/

/-- Reads components of this rank's source: the bytes, or the first cause. -/
def readSource (s : State) (g : Group) (op : UnitOp) (part : Nat) : Nat → Fitted (List Byte)
  | 0 => .ok []
  | n + 1 =>
    match readSource s g op part n with
    | .ok b =>
      (match engineAccess s g op.core (collAccess false part) (collVa op false 0 + BitVec.ofNat 64 (n * part)) with
       | .error c => .fault c
       | .ok p => .ok (b ++ readPlace s p part))
    | e => e

/-- The physical addresses of this rank's source components. -/
def sourcePas (s : State) (g : Group) (op : UnitOp) (part n : Nat) : List Nat :=
  (List.range n).filterMap fun k =>
    match engineAccess s g op.core (collAccess false part) (collVa op false 0 + BitVec.ofNat 64 (k * part)) with
    | .ok p => (match p.target with
      | .hbm pa => some pa
      | _ => none)
    | .error _ => none

/-- Bytes of a component as they are stored: where the destination overlaps the source without being it, they are open (R253, R362). -/
def storedPart (s : State) (same : Bool) (src : List Nat) (part pa : Nat) (b : List Byte) : List Byte :=
  if same then b
  else b.zipIdx.map fun (x, i) => if src.any fun q => decide (q ≤ pa + i) && decide (pa + i < q + part) then Config.freeByte (s.occasion + 1) (pa + i) else x

/-- How far the components of the destination are written: all of them, up to one at whose byte a cause arises, or up to one that waits for room
in a log, with those left (R332). -/
inductive Written where
  | all (s : State)
  | stopped (s : State) (c : CauseDetail) (byte : Nat)
  | waits (s : State) (n : Nat) (rest : List (List Byte))

/-- Writes the components of the destination from component n on. -/
def writeDest (g : Group) (op : UnitOp) (same : Bool) (src : List Nat) (part : Nat) : Nat → List (List Byte) → State → Written
  | _, [], s => .all s
  | n, b :: r, s =>
    match engineAccess s g op.core (collAccess true part) (collVa op true 0 + BitVec.ofNat 64 (n * part)) with
    | .error c => .stopped s c (n * part)
    | .ok p =>
      let pa := match p.target with
        | .hbm pa => pa
        | _ => 0
      match writePlace s (clAgent g op.seq) p (storedPart s same src part pa b) with
      | none => .waits s n (b :: r)
      | some t => writeDest g op same src part (n + 1) r t

/-- Ends an operation, and completes it where it need not wait. -/
def finishColl (s : State) (g : Group) (op : UnitOp) (cause k kind : Nat) : State :=
  let s1 := endColl s g op cause k kind
  (completeClop s1 g op (if cause = 0 then 0 else 2) cause).getD s1

/-- Source elements and destination elements of an operation in flight. -/
def opCounts (op : UnitOp) : Nat × Nat := collCounts (recField op.words 4 56 3) (op.words.length - 8) (op.words.getD 3 0).toNat

/-- An operation that has exchanged its elements writes the components that are left from component n on, as far as the logs have room, and
completes once all are written (R332, R363). -/
def writeOut (s : State) (g : Group) (op : UnitOp) (n : Nat) (rest : List (List Byte)) : State :=
  let type := recField op.words 4 53 3
  let part := collPart type
  let same : Bool := op.words.getD 0 0 == op.words.getD 1 0
  match writeDest g op same (if same then [] else sourcePas s g op part ((opCounts op).1 * (collSize type / part))) part n rest s with
  | .all t => finishColl t.nextOccasion g op 0 0 0
  | .stopped t c byte => finishColl t.nextOccasion g op c.1 (byte / collSize type) 8
  | .waits t m l => setClop t g.uid op.seq fun u => { u with left := some (m, l) }

/-- The first element of the destination that an operation has not written. -/
def firstUnwritten (op : UnitOp) : Nat :=
  let type := recField op.words 4 53 3
  match op.left with
  | some (n, _) => n * collPart type / collSize type
  | none => 0

/-- The exchange of an operation that every rank has reached, and what it then writes. -/
def exchange (s : State) (g : Group) (op : UnitOp) (x : Exchange) : Option State :=
  let w := op.words
  let type := recField w 4 53 3
  let size := collSize type
  let part := collPart type
  let n := w.length - 8
  let counts := opCounts op
  let me := ((List.range n).find? fun k => (w.getD (8 + k) 0).toNat == s.domain.device).getD 0
  match readSource s g op part (counts.1 * (size / part)) with
  | .wait => none
  | .fault c => some (finishColl s g op c.1 0 7)
  | .ok own =>
    let src := fun (r : Nat) => if r = me then own else ((x.parts.find? fun p => p.1 == r).map (·.2)).getD []
    let out := (List.range counts.2).flatMap (collElem op me src)
    some (writeOut s g op 0 ((List.range (out.length / part)).map (elemOf part out)))

/-- Whether what the ranks bring has the length that the operation takes. -/
def partsFit (s : State) (op : UnitOp) (x : Exchange) : Bool :=
  let w := op.words
  let n := w.length - 8
  let bytes := (collCounts (recField w 4 56 3) n (w.getD 3 0).toNat).1 * collSize (recField w 4 53 3)
  (List.range n).all fun r =>
    (w.getD (8 + r) 0).toNat == s.domain.device || (x.parts.any fun p => p.1 == r && p.2.length == bytes)

/-- Whether some rank of an operation cannot be reached (R354, R363). -/
def rankLost (s : State) (op : UnitOp) : Bool :=
  (op.words.drop 8).any fun d => d.toNat != s.domain.device && s.domain.noRoute.contains d.toNat

/-- COLLECTIVE_COMPLETION: the oldest CL operation of a group is a COLL that ends, with what the other ranks bring, or with the
cause that ended it elsewhere: 0x0602 where paired operations disagree, 0x0A01 where a rank cannot be reached or met a cause. -/
def execCollectiveCompletion (g : Nat) (x : Exchange) (s : State) : Host.Outcome State Fault Refusal :=
  match s.group? g with
  | none => stutter s
  | some y =>
    match y.clops with
    | [] => stutter s
    | op :: _ =>
      let r :=
        if op.kind ≠ 6 then none
        else match op.done with
          | some (o, cause, _) => completeClop s y op o cause.toNat
          | none =>
            if rankLost s op then some (finishColl s y op 0x0A01 (firstUnwritten op) 0)
            else if x.fail = 0x0602 ∨ x.fail = 0x0A01 then some (finishColl s y op x.fail (firstUnwritten op) 0)
            else match op.left with
              | some (n, rest) => some (writeOut s y op n rest)
              | none => if op.step = 0 ∨ x.fail ≠ 0 ∨ ¬ partsFit s op x then none else exchange s y op x
      match r with
      | some t => .next t
      | none => stutter s

/-! ## CLARB and CLSTAT (R365 to R367) -/

/-- CLARB (R366). -/
def execClarb (d a : SReg) (s : State) :=
  issue (.clarb d a) (fun s x =>
    let old := ((s.ctx? x.g.ctx).map (·.weight)).getD 0
    let want := (x.g.sregGet (sA x a)).toNat % 16
    let s1 := s.setGroup (x.g.sregPut (sD x d) (BitVec.ofNat 32 old))
    .done (if want = 0 then s1 else s1.modifyCtx x.g.ctx fun c => { c with weight := min want c.clmax })) s

/-- A collective status word (R367). -/
def clWord (s : State) (g : Group) (k : Nat) : Word :=
  match k with
  | 0 => BitVec.ofNat 32 g.clSeq
  | 1 => g.cl.clDone
  | 2 => g.cl.clErr
  | 3 => g.cl.errSeq
  | 4 => BitVec.ofNat 32 (((s.ctx? g.ctx).map (·.weight)).getD 0)
  | 5 => BitVec.ofNat 32 (((s.ctx? g.ctx).map (·.clmax)).getD 0)
  | 6 => g.cl.clWord
  | _ => 0

/-- CLSTAT (R367). -/
def execClstat (d b : SReg) (s : State) :=
  issue (.clstat d b) (fun s x => .done (s.setGroup (x.g.sregPut (sD x d) (clWord s x.g ((x.g.sregGet (sB x b)).toNat % 8))))) s

end Sys2Proof.Machine
end

