-- ==== Sys2Proof/Machine/Recovery.lean ====
section
/-! DEFINITION. Recovery intervals: SEAL, SEALREQ and RVRD, seals, their commit, and the ageing of RINTAGs
(R327 to R340). -/
namespace Sys2Proof.Machine

/-! ## Serial numbers (R327) -/

/-- Whether an interval precedes another. -/
def precedes (a b : BitVec 16) : Bool := decide (1 ≤ (b - a).toNat) && decide ((b - a).toNat < 2 ^ 15)

/-- Whether an interval lies at or before another. -/
def notAfter (a b : BitVec 16) : Bool := a == b || precedes a b

/-! ## Triggers (R334, R338) -/

/-- A trigger: it joins a seal whose seal point has not come, and otherwise starts the next one. -/
def requestSeal (s : State) : State :=
  if s.domain.stage = 0 then { s with domain := { s.domain with trigger := true } }
  else if s.domain.passed then { s with domain := { s.domain with nextTrigger := true } }
  else s

/-- Whether a thread has arrived at a SEAL, and waits there. -/
def atSeal (g : Group) (lane : Nat) : Bool :=
  match (g.thread lane).status with
  | .seal _ => true
  | _ => false

/-- The lanes of a group that have arrived at a SEAL. -/
def sealLanes (g : Group) : List Nat := g.live.filter (atSeal g)

/-- The groups of a launch. -/
def launchGroups (s : State) (l : Launch) : List Group := s.work.groups.filter fun g => g.launch == l.uid

/-- Whether every thread of a gang has arrived at a SEAL, and its context is resident, so that a seal point can take it (R338). -/
def sealDone (s : State) (l : Launch) : Bool :=
  l.gang && resident s l.ctx && (launchGroups s l).any (fun g => !g.live.isEmpty)
  && (launchGroups s l).all fun g => g.live.all (atSeal g)

/-- SEAL (R338): the threads that come arrive, those of the set that have arrived wait on, and a seal point moves them to the
instruction after it. -/
def execSeal (pdead : Bool) (s : State) :=
  issue (.seal pdead) (fun s x =>
    let coming := x.lanes.filter fun l => !atSeal x.g l
    if coming.isEmpty || !engineReady s x.g then .stall
    else
      let g := x.g.modifyThreads coming fun t => { t with status := .seal (x.g.ext.length + 1) }
      .wait ((s.setGroup g).modifyLaunch x.g.launch fun l => if pdead then l else { l with sealSave := l.sealSave ++ [x.g.team] }) [] true) s

/-- SEALREQ (R339). -/
def execSealreq (d : SReg) (s : State) :=
  issue (.sealreq d) (fun s x =>
    .done (requestSeal (s.setGroup (x.g.sregPut (sD x d) (BitVec.ofNat 32 s.domain.rin.toNat))))) s

/-- Whether a context is pinned: by an IMMEDIATE write, or by a collective with a device outside the domain (R333, R364). -/
def isPinned (s : State) (ctx : Nat) : Bool := ((s.ctx? ctx).map (·.pinned.isSome)).getD false || collPins s ctx

/-- A recovery word (R340). -/
def recoveryWord (s : State) (g : Group) (k : Nat) : Nat :=
  match k with
  | 0 => s.domain.rin.toNat
  | 1 => s.domain.committed.toNat
  | 2 => if s.domain.stage = 1 ∨ s.domain.stage = 2 then 2 ^ 16 + s.domain.interval.toNat else s.domain.interval.toNat
  | 3 => logUsed s (dieOf g.core) * 256 / logSize s
  | 4 => ((s.ctx? g.ctx).map (·.rollbacks.toNat)).getD 0
  | 5 => flagAt s.domain.want 0 + flagAt (isPinned s g.ctx) 1
  | 6 => (s.deferred.filter fun d => d.ctx == g.ctx).length
  | _ => s.domain.members.length

/-- RVRD (R340). -/
def execRvrd (d b : SReg) (s : State) :=
  issue (.rvrd d b) (fun s x =>
    .done (s.setGroup (x.g.sregPut (sD x d) (BitVec.ofNat 32 (recoveryWord s x.g ((x.g.sregGet (sB x b)).toNat % 8)))))) s

/-- SEAL_PERIOD: no seal point has occurred for the seal period (R334). -/
def execSealPeriod (s : State) : Host.Outcome State Fault Refusal :=
  if s.regs.boot = .ready ∧ s.regs.sealPer ≠ 0 ∧ s.domain.stage = 0 ∧ s.domain.trigger = false
      ∧ s.domain.lastSeal + s.regs.sealPer.toNat * ticksPerMs ≤ s.clock then
    .next (requestSeal s)
  else stutter s

/-- The stall limit in ms (R332, R400). -/
def stallMs (s : State) : Nat := if bitsOf s.regs.bootCfg.toNat 8 8 = 0 then 50 else bitsOf s.regs.bootCfg.toNat 8 8

/-- The parks under 0x0901 that a commit is to resolve: those of resident groups, which a commit resumes. -/
def logParks (s : State) : List Park :=
  ((s.work.groups.filter fun g => resident s g.ctx).filterMap fun g => g.park).filter fun p => p.cause == 0x0901

/-- CLOCK at the first park under 0x0901 that is not yet resolved, while some log stands full; one of a whole set, such as that of SEND or
RECV, whose own lines would fill the log, counts also where they have been taken out of it again (R25, R332; log entry 101). -/
def stallStart (s : State) : Option Nat :=
  let full := (List.range Config.dies).any fun d => logFull s d
  ((logParks s).filter fun p => full || p.setLevel).foldl
    (fun m p => some (match m with
      | some t => min t p.time
      | none => p.time)) none

/-- STALL_LIMIT: a log has stood full for the stall limit, and no seal is in progress (R332). -/
def execStallLimit (s : State) : Host.Outcome State Fault Refusal :=
  match stallStart s with
  | some t =>
    if s.regs.boot = .ready ∧ s.domain.stage = 0 ∧ s.domain.trigger = false ∧ t + stallMs s * ticksPerMs ≤ s.clock then .next (requestSeal s)
    else stutter s
  | none => stutter s

/-! ## A seal up to its seal point (R335, R336) -/

/-- Whether this device is the coordinator of its domain. -/
def coordinates (s : State) : Bool := s.domain.coord == s.domain.device

/-- SEAL_TRIGGER: a trigger reaches the coordinator, and every device receives PREPARE of the current RIN. -/
def execSealTrigger (s : State) : Host.Outcome State Fault Refusal :=
  if s.regs.boot = .ready ∧ s.domain.stage = 0
      ∧ (s.domain.trigger ∨ s.work.launches.any (sealDone s) ∨ 1 < s.domain.members.length) then
    .next { s with domain := { s.domain with
      stage := 1, interval := s.domain.rin, passed := false, trigger := false, nextTrigger := false, since := s.clock } }
  else stutter s

/-- Whether the device stops its groups, for a seal point or for the end of an interval that an ABORT closes before it (R335). -/
def sealStops (s : State) : Bool := (s.domain.stage == 1 || s.domain.stage == 3) && !s.domain.passed

/-- Whether a RINTAG has aged: it precedes the current RIN by 2^14 or more (R328). -/
def aged (rin tag : BitVec 16) : Bool := decide (2 ^ 14 ≤ (rin - tag).toNat) && decide ((rin - tag).toNat < 2 ^ 15)

/-- Whether the pass over the lines that a seal must wait for is still due (R328). -/
def ageingDue (s : State) : Bool :=
  let late := fun (tag : BitVec 16) => decide (2 ^ 14 + 2 ^ 13 ≤ (s.domain.rin - tag).toNat) && decide ((s.domain.rin - tag).toNat < 2 ^ 15)
  late s.baseTag || s.side.any fun (_, x) => late (rintag x)

/-- A thread that waits at a SEAL, at the instruction after it. -/
def afterSeal (t : Thread) : Thread :=
  match t.status with
  | .seal words => { t with status := .run, pc := t.pc + BitVec.ofNat 64 (4 * words) }
  | _ => t

/-- The threads of a completed SEAL stand at the instruction after it. -/
def sealPassed (s : State) (g : Group) : Group :=
  if s.work.launches.any fun l => l.uid == g.launch && sealDone s l then { g with threads := g.threads.map afterSeal } else g

/-- The state as a seal point takes it: completed SEALs are past. -/
def sealTaken (s : State) : State :=
  { s with work := { s.work with
      groups := s.work.groups.map (sealPassed s)
      launches := s.work.launches.map fun l => if sealDone s l then { l with sealSave := [] } else l } }

/-- The teams whose Pond a completed SEAL declared dead (R338). -/
def deadPonds (s : State) : List Nat :=
  (s.work.teams.filter fun t => s.work.launches.any fun l => l.uid == t.launch && sealDone s l && !l.sealSave.contains t.index).map (·.uid)

/-- The half of a context's seal region that does not hold its committed seal (R336). -/
def freeHalf (c : Ctx) : Bool := c.hasSeal && !c.half

/-- The address of a half. -/
def halfBase (c : Ctx) (half : Bool) : Nat := c.sealBase + (if half then saveSize else 0)

/-- Writes the seal frames of a context (R336). -/
def sealContext (skip : List Nat) (s : State) (c : Ctx) : State :=
  let base := halfBase c (freeHalf c)
  if c.state = .saved then { s with hbm := copyRegion s.hbm c.saBase base } else saveContext s skip base c.num

/-- The contexts that a seal takes. -/
def sealedCtxs (s : State) : List Ctx := s.ctxs.filter fun c => c.state != .ended

/-- Whether a group stands at a boundary with its loads returned, its matrix operations complete and its stores performed or taken
up by a Spring unit, whose own work is recorded as it stands (R335, R336). -/
def atSealPoint (g : Group) : Bool := g.ext.isEmpty && g.loads.isEmpty && g.mmas.isEmpty && g.tiles.isEmpty && g.stores.isEmpty

/-- Whether every resident group is ready for a seal point (R335). -/
def sealReady (s : State) : Bool := s.work.groups.all fun g => !resident s g.ctx || atSealPoint g

/-- PREPARE: the device takes the seal point of an interval, writes the seal frames and reports READY (R335). -/
def execPrepare (r : BitVec 16) (s : State) : Host.Outcome State Fault Refusal :=
  if s.domain.stage ≠ 1 ∨ s.domain.passed ∨ r ≠ s.domain.interval ∨ ¬ sealReady s ∨ ageingDue s then stutter s
  else
    let t := sealTaken s
    let f := (sealedCtxs t).foldl (sealContext (deadPonds s)) t
    let snap : Snap := { r := r, work := f.work, ctxs := sealedCtxs t, heads := s.inlets.map (·.head) }
    let u := { t with
      hbm := f.hbm, occasion := f.occasion, snapPending := some snap
      domain := { t.domain with rin := r + 1, want := false, passed := true, lastSeal := s.clock } }
    .next (settle u)

/-! ## READY, time-outs and ABORT (R335) -/

/-- Whether every member of the domain can be reached. -/
def membersReachable (s : State) : Bool := s.domain.members.all fun d => d == s.domain.device || !s.domain.noRoute.contains d

/-- READY: every device has reported, and COMMIT is sent. -/
def execReady (s : State) : Host.Outcome State Fault Refusal :=
  if s.domain.stage = 1 ∧ s.domain.passed ∧ coordinates s ∧ membersReachable s then .next { s with domain := { s.domain with stage := 2 } }
  else stutter s

/-- Whether some device of the domain may still owe its report: this one until its own seal point, and every other member. -/
def reportOwed (s : State) : Bool := !s.domain.passed || decide (1 < s.domain.members.length)

/-- SEAL_TIMEOUT: a device has not reported within SEALTO, or cannot be reached, and ABORT is sent. -/
def execSealTimeout (s : State) : Host.Outcome State Fault Refusal :=
  if s.domain.stage = 1 ∧ coordinates s
      ∧ ((s.domain.since + s.domain.sealTo * ticksPerMs ≤ s.clock ∧ reportOwed s) ∨ ¬ membersReachable s) then
    .next { s with domain := { s.domain with stage := 3 } }
  else stutter s

/-- Looks at every log again once a seal has ended (R332). -/
def noteLogs (s : State) : State := (List.range Config.dies).foldl noteOccupancy s

/-- The seal is over; a trigger that came after its seal point starts the next one (R334). -/
def endSeal (s : State) : State :=
  { s with domain := { s.domain with stage := 0, trigger := s.domain.nextTrigger, nextTrigger := false, passed := false } }

/-- The RIN after an aborted seal: its interval never commits, so a device that had yet to reach its seal point leaves it too, as
every device that had reached it has (R335). -/
def rinAfterAbort (s : State) : BitVec 16 := if s.domain.passed then s.domain.rin else s.domain.interval + 1

/-- Whether a launch completion record waits for a commit: where a seal aborts, a later one is started for it (R334, R376). -/
def recordWaits (s : State) : Bool := s.deferred.any fun d => d.record

/-- The seal is over without a commit. -/
def abortSeal (s : State) : State :=
  let t := endSeal { s with snapPending := none, domain := { s.domain with rin := rinAfterAbort s } }
  noteLogs (if recordWaits t then { t with domain := { t.domain with trigger := true } } else t)

/-- ABORT: the device discards the frames of the interval. One that has not reached its seal point first lets the stores of the interval drain
(log entry 74). -/
def execAbort (r : BitVec 16) (s : State) : Host.Outcome State Fault Refusal :=
  if r = s.domain.interval ∧ (s.domain.stage = 3 ∨ (s.domain.stage = 1 ∧ ¬ coordinates s)) ∧ (s.domain.passed ∨ sealReady s) then .next (abortSeal s)
  else stutter s

/-! ## COMMIT (R333, R335) -/

/-- The parts of a deferred write that still stand: all of it, or the bytes that no later write has replaced (R200). -/
def Deferred.parts (d : Deferred) : List (Target × List Byte) :=
  if d.stale.isEmpty then [(d.target, d.data)]
  else (d.data.zipIdx.filter fun (_, k) => !d.stale.any fun x => x.1 == k).map fun (b, k) => (shiftTarget d.target k, [b])

/-- The parts of a deferred write that a later write has replaced, each with the interval of that write. -/
def Deferred.lost (d : Deferred) : List (Target × List Byte × BitVec 16) :=
  d.stale.map fun (k, rin) => (shiftTarget d.target k, [d.data.getD k 0], rin)

/-- Whether a captured line lies in the space of a target: the HBM of this device, or the memory of a member. -/
def Undo.holds (u : Undo) (t : Target) : Bool := (spaceOf t).1 == (if u.die = Config.dies then 2 else 0)

/-- A captured line with the bytes that a commit performs: they are older than any write that a rollback may still undo (R333, R341, R376). -/
def Undo.withBytes (t : Target) (data : List Byte) (u : Undo) : Undo :=
  if !u.holds t then u
  else { u with data := u.data.zipIdx.map fun (b, k) =>
      if (spaceOf t).2 ≤ u.pa + k ∧ u.pa + k < (spaceOf t).2 + data.length then data.getD (u.pa + k - (spaceOf t).2) b else b }

/-- A captured line with the descriptor that a commit performs; a member's line keeps it exclusive-or 0x7F00. -/
def Undo.withDesc (t : Target) (x : Word) (u : Undo) : Undo :=
  if u.holds t && u.pa / 64 == (spaceOf t).2 / 64 then
    { u with side := if u.die = Config.dies then BitVec.ofNat 48 (u.side.toNat / 2 ^ 32 * 2 ^ 32 + (x ^^^ 0x7F00).toNat) else mkSide (rintag u.side) x }
  else u

/-- A change of the lines captured up to an interval: the write that replaced a deferred one in that interval is what a rollback takes
back, and the deferred one then stands again (R208, R210, R341). -/
def patchUndo (s : State) (rin : BitVec 16) (f : Undo → Undo) : State :=
  { s with undo := s.undo.map fun u => if notAfter u.rin rin then f u else u }

/-- Bytes that a commit performs although a later write has replaced them: they reach only what a rollback brings back. -/
def commitLost (s : State) (p : Target × List Byte × BitVec 16) : State := patchUndo s p.2.2 (Undo.withBytes p.1 p.2.1)

/-- A descriptor that a commit performs although a later write has replaced it. -/
def commitLostDesc (t : Target) (x : Word) (s : State) (p : Nat × BitVec 16) : State := patchUndo s p.2 (Undo.withDesc t (descStored x))

/-- Performs bytes outside at a commit, which no rollback undoes. -/
def commitBytes (s : State) (p : Target × List Byte) : State :=
  performOutside { s with undo := s.undo.map (Undo.withBytes p.1 p.2) } p.1 p.2

/-- Performs a descriptor outside at a commit. -/
def commitDesc (s : State) (t : Target) (x : Word) : State := descOutside { s with undo := s.undo.map (Undo.withDesc t (descStored x)) } t x

/-- Performs one deferred write outside, a descriptor or data; a launch completion record raises vector 3 (R189, R208, R376). -/
def performDeferred (s : State) (d : Deferred) : State :=
  if s.regs.boot ≠ .ready then s
  else
    let t := if d.home then s
      else if d.desc then
        (if d.stale.isEmpty then commitDesc s d.target (BitVec.ofNat 32 (ofLe d.data))
         else d.stale.foldl (commitLostDesc d.target (BitVec.ofNat 32 (ofLe d.data))) s)
      else d.parts.foldl commitBytes (d.lost.foldl commitLost s)
    if d.record then raiseVector t 3 else t

/-- Performs the deferred writes of an interval and of earlier ones, in the order of their acceptance. -/
def performAll (s : State) (r : BitVec 16) : State :=
  let due := s.deferred.filter fun d => notAfter d.rin r
  due.foldl performDeferred { s with deferred := s.deferred.filter fun d => !notAfter d.rin r }

/-- A context after the commit of an interval: its pin clears, and the new half holds its committed seal. -/
def commitCtx (sealed : List Nat) (r : BitVec 16) (c : Ctx) : Ctx :=
  { c with
    pinned := match c.pinned with
      | some p => if notAfter p r then none else some p
      | none => none
    half := if sealed.contains c.uid then freeHalf c else c.half, hasSeal := c.hasSeal || sealed.contains c.uid }

/-- What a seal recorded, with the slots whose records its commit has performed, which no rollback undoes (R295, R341). -/
def Snap.committed (r : BitVec 16) (p : Snap) : Snap := { p with work := { p.work with graphs := p.work.graphs.map (·.committed r) } }

/-- The Spring units perform the stores that they hold and for which the logs have room again (R223, R332). -/
def releaseAllHeld (s : State) : State := s.work.regions.foldl (fun s r => releaseHeld s r.hdr) s

/-- COMMIT: the device releases the undo entries, performs the deferred writes, clears HOLD and pins, and resumes the groups that
waited for room in a log (R332, R335). -/
def execCommit (r : BitVec 16) (s : State) : Host.Outcome State Fault Refusal :=
  if r ≠ s.domain.interval ∨ ¬ (s.domain.stage = 2 ∨ (s.domain.stage = 1 ∧ s.domain.passed ∧ ¬ coordinates s)) then stutter s
  else match s.snapPending with
    | none => stutter s
    | some snap =>
      let s1 := { s with
        undo := s.undo.filter (fun u => !notAfter u.rin r), snapCommitted := some (snap.committed r), snapPending := none
        ctxs := s.ctxs.map (commitCtx (snap.ctxs.map (·.uid)) r)
        inlets := (s.inlets.zip snap.heads).map (fun (n, h) => { n with chead := h })
        domain := { s.domain with committed := r } }
      let s2 := endSeal (clearHold (payOwed (commitSlots (performAll s1 r) r)) r)
      if s2.regs.boot ≠ .ready then .next s2
      else let s3 := releaseAllHeld s2
        .next (noteLogs (settle (settleAllStores (autoResume s3 (parkedWith s3 fun g p => resident s3 g.ctx && p.cause == 0x0901)))))

/-! ## Ageing (R328) -/

/-- A RINTAG after the Weir units' pass. -/
def agedTag (rin tag : BitVec 16) : BitVec 16 := if aged rin tag then rin - 16384 else tag

/-- RINTAG_AGEING: the Weir units rewrite the RINTAGs that have aged. -/
def execRintagAgeing (s : State) : Host.Outcome State Fault Refusal :=
  let base := agedTag s.domain.rin s.baseTag
  let dflt := mkSide base 0x7F00
  .next { s with
    baseTag := base
    side := (s.side.map fun (k, x) => (k, mkSide (agedTag s.domain.rin (rintag x)) (descOf x))).filter fun (_, x) => x != dflt }

end Sys2Proof.Machine
end

