-- ==== Sys2Proof/Machine/Launch.lean ====
section
/-! DEFINITION. Inlets, launch blocks, placement and the completion of launches (R13, R123 to R126, R140, R178, R348, R371 to R376). -/
namespace Sys2Proof.Machine

/-! ## Completion records (R376) -/

/-- The 32 bytes of a completion record. -/
def doneBytes (s : State) (c : Ctx) (status reason : Nat) : List Byte :=
  leBytes 8 (status + reason * 256) ++ leBytes 8 s.clock ++ leBytes 8 c.rollbacks.toNat ++ leBytes 8 0

/-- The write of a completion record at once: that of a SAVED context's Pond goes to its Pond frame (R317, R376). -/
def storeRecord (s : State) (ctx : Nat) (t : Target) (data : List Byte) : State :=
  match savedPond s ctx t with
  | some pa => { s with hbm := s.hbm.write pa data }
  | none => performOutside (replaceDeferred s t data.length) t data

/-- Whether a target is in a Pond, which only the device's own agents reach. -/
def inPond : Target → Bool
  | .pond _ _ => true
  | _ => false

/-- Writes the completion record of a launch to its place: deferred with a trigger of a seal, or IMMEDIATE; dropped with an error
record where its store faults; none while it waits for room in a log. A Pond holds the record from its acceptance on, and only vector 3
waits for the commit (R208, R334, R376). -/
def doneRecord (s : State) (c : Ctx) (place : Except CauseDetail Place) (va : DWord) (immed : Bool) (status reason : Nat) : Option State :=
  if va = 0 then some s
  else match place with
    | .error (cause, d) => some (emitRecord s { ctx := c.num, cause := cause, kind := 8, va := some va.toNat, detail := d })
    | .ok p =>
      let data := doneBytes s c status reason
      if immed then
        let t := storeRecord s c.num p.target data
        some (raiseVector (if c.state = .ended then t else pin t c.num) 3)
      else
        let t := if inPond p.target then storeRecord s c.num p.target data else s
        (acceptDeferred t { ctx := c.num, group := 0, die := 0, op := none } p.target data (inPond p.target) true).map requestSeal

/-- Where the completion record of a launch goes: for a context that has ended, where it put it as it ended (R376). -/
def placeOfDone (s : State) (c : Ctx) (l : Launch) : Except CauseDetail Place :=
  match l.done with
  | some (.inl p) => .ok p
  | some (.inr e) => .error e
  | none => donePlace s c l.doneva

/-! ## Launch blocks (R374, R375) -/

/-- A role of a block. -/
def blockRole (w : List DWord) (r : Nat) : Role :=
  { entry := w.getD (6 + r) 0, groups := recField w (10 + r) 32 8, abud := recField w (10 + r) 24 8, tbud := recField w (10 + r) 16 8
    sbud := 32 * recField w (10 + r) 8 8, vbud := 8 * recField w (10 + r) 0 8 }

/-- A block as a launch. -/
def blockLaunch (uid inlet : Nat) (w : List DWord) : Launch :=
  { uid := uid, inlet := inlet, ctx := recField w 0 48 16, prio := recField w 0 38 2, gang := recField w 0 37 1 == 1, gclass := recField w 0 35 2
    immed := recField w 0 32 1 == 1, pond := recField w 0 0 21, xm := recField w 1 32 16, ym := recField w 1 16 16, zm := recField w 1 0 16
    argva := w.getD 2 0, doneva := w.getD 3 0, gpbase := w.getD 4 0, wdog := recField w 5 32 32
    roles := (List.range (recField w 0 33 2 + 1)).map (blockRole w), placed := [], ended := 0, bad := false, done := none, start := none
    bars := List.replicate 32 freshBarrier, sealSave := [] }

/-- Whether every reserved field of a block is 0 and no field holds an illegal value (reason 2). -/
def blockLegal (w : List DWord) : Bool :=
  let n := recField w 0 33 2 + 1
  recField w 0 40 8 == 0 && recField w 0 35 2 != 3 && recField w 0 21 11 == 0 && recField w 0 0 21 % 4096 == 0
  && decide (recField w 0 0 21 ≤ 0x100000) && recField w 1 48 16 == 0 && (w.getD 3 0).toNat % 32 == 0 && recField w 5 0 32 == 0
  && ((List.range 4).all fun r => if r < n then recField w (10 + r) 40 24 == 0 else w.getD (6 + r) 0 == 0 && w.getD (10 + r) 0 == 0)
  && w.getD 14 0 == 0 && w.getD 15 0 == 0

/-- Whether a role keeps to R11 and R123. -/
def roleOk (r : Role) : Bool :=
  decide (1 ≤ r.groups) && decide (r.groups ≤ 16) && decide (r.abud ≤ 8) && decide (r.tbud ≤ 16) && decide (32 ≤ r.sbud) && decide (r.sbud ≤ 1024)
  && decide (8 ≤ r.vbud) && decide (r.vbud ≤ 256) && r.entry.toNat % 4 == 0

/-- Groups of a team of a launch. -/
def Launch.groupsPerTeam (l : Launch) : Nat := (l.roles.map (·.groups)).sum

/-! ## Room (R125, R140) -/

/-- How many runs of n segments, each at a multiple of a step, lie in the free segments of a list of flags. -/
def countRuns (n step : Nat) (free : Nat → Bool) : Nat → Nat → Nat
  | 0, _ => 0
  | fuel + 1, k =>
    if Config.segments < k + n then 0
    else if (List.range n).all fun i => free (k + i) then 1 + countRuns n step free fuel ((k + n + step - 1) / step * step)
    else countRuns n step free fuel (k + step)

/-- How many teams of a shape a core can take, by its free slots and its free segments. -/
def coreRoom (slots nseg groups step : Nat) (free : Nat → Bool) : Nat :=
  let a := slots / max 1 groups
  if nseg = 0 then a else min a (countRuns nseg step free Config.segments 0)

/-- Whether room for a number of teams exists within a class, given the room of each core (R140). -/
def classRoom (gclass n : Nat) (room : Nat → Nat) : Bool :=
  let cores := List.range Config.cores
  if gclass = 0 then cores.any fun c => decide (n ≤ room c)
  else if gclass = 1 then (List.range Config.dies).any fun d => decide (n ≤ ((cores.filter fun c => dieOf c == d).map room).sum)
  else decide (n ≤ (cores.map room).sum)

/-- The step at which a launch's allocations begin. -/
def Launch.step (l : Launch) : Nat := if l.gang ∧ l.gpbase ≠ 0 then 16 else 1

/-- Room on an idle device. -/
def idleRoom (s : State) (l : Launch) : Bool :=
  classRoom l.gclass l.total fun c =>
    if s.regs.retCore.contains c then 0 else coreRoom Config.slots (l.pond / 4096) l.groupsPerTeam l.step fun _ => true

/-- Whether a segment of a core is free. -/
def segFree (s : State) (core k : Nat) : Bool := (segAt s (segKey core k)).team == 0

/-- The free slots of a core. -/
def freeSlots (s : State) (core : Nat) : Nat :=
  Config.slots - (s.work.groups.filter fun g => g.core == core && !g.badEnd && resident s g.ctx).length

/-- Whether the next team of a launch, or the whole of a gang, can be placed now. -/
def fitsNow (s : State) (l : Launch) : Bool :=
  let room := fun (c : Nat) =>
    if s.regs.retCore.contains c then 0 else coreRoom (freeSlots s c) (l.pond / 4096) l.groupsPerTeam l.step (segFree s c)
  if l.gang then classRoom l.gclass l.total room else classRoom 0 1 room

/-! ## The gang Pond map (R348) -/

/-- Where the level-0 entry of an address stands, if valid pointers lead to it (R165, R166). -/
def leafEntryPa (m : Memory) (va : Nat) : Nat → Nat → Option Nat
  | 0, table => some (table + 16 * bitsOf va 16 12)
  | level + 1, table =>
    let e := entryAt m (table + 16 * bitsOf va (16 + 12 * (level + 1)) 12)
    if e.v && !pointerMalformed e then leafEntryPa m va level e.addr else none

/-- Whether an address has a level-0 entry that is free: neither it nor the first of its 2 MiB is valid. -/
def leafFree (m : Memory) (root va : Nat) : Bool :=
  match leafEntryPa m va 3 root with
  | some pa => !(entryAt m pa).v && !((entryAt m (pa / 512 * 512)).v && (entryAt m (pa / 512 * 512)).ps)
  | none => false

/-- Whether a gang Pond base keeps to R348. -/
def gpbaseOk (s : State) (c : Ctx) (l : Launch) : Bool :=
  l.gpbase = 0 || !l.gang || (l.gpbase.toNat % 2 ^ 24 == 0
    && (List.range (16 * l.total)).all fun k => leafFree s.hbm c.root ((l.gpbase.toNat + k * 65536) % 2 ^ 64))

/-- The pages of a team's allocation. -/
def teamPages (t : Team) : Nat := (t.nseg + 15) / 16

/-- The control and address words of the leaf of page k of a team (R348). -/
def gangLeaf (l : Launch) (t : Team) (k : Nat) : List Byte :=
  let first := t.seg + 16 * k
  let mask := maskOf ((List.range 16).filter fun j => decide (16 * k + j < t.nseg))
  leBytes 8 (mask * 2 ^ 16 + l.gclass * 2 ^ 14 + 2 ^ 10 + 2 ^ 9 + 2 ^ 5 + 1)
  ++ leBytes 8 (dieOf t.core * 2 ^ 16 + t.core % Config.coresPerDie * 2 ^ 8 + first)

/-- Writes one level-0 entry for the launch processor, which accesses use without an invalidation. -/
def writeLeaf (s : State) (c : Ctx) (va : Nat) (b : List Byte) : Option State :=
  match leafEntryPa s.hbm va 3 c.root with
  | none => some s
  | some pa => (trackedWrite s pa b).map fun t => t.modifyCtx c.num fun c =>
    { c with snap := c.snap.write pa b, snapDates := redate s.moveCount pa b.length c.snapDates }

/-- The pages of a gang's map: each with its address and its leaf. -/
def gangPages (l : Launch) (ts : List Team) : List (Nat × List Byte) :=
  if !l.gang || l.gpbase = 0 then []
  else ts.flatMap fun t => (List.range (teamPages t)).map fun k => ((l.gpbase.toNat + t.index * 0x100000 + k * 65536) % 2 ^ 64, gangLeaf l t k)

/-- Writes the leaves of a gang before its first instruction. -/
def mapGang (s : State) (c : Ctx) (l : Launch) (ts : List Team) : Option State :=
  (gangPages l ts).foldlM (fun s (va, b) => writeLeaf s c va b) s

/-- Removes the leaves of a gang that has ended; every team's Pond had the size of the block. -/
def unmapGang (s : State) (c : Ctx) (l : Launch) : Option State :=
  if !l.gang || l.gpbase = 0 then some s
  else ((List.range l.total).flatMap fun t => (List.range ((l.pond / 4096 + 15) / 16)).map fun k =>
      (l.gpbase.toNat + t * 0x100000 + k * 65536) % 2 ^ 64).foldlM (fun s va => writeLeaf s c va (List.replicate 16 0)) s

/-! ## Taking a block (R371 to R373, R375) -/

/-- The context that takes a block: one that exists, and whose termination has not come (R377). -/
def accepting? (s : State) (num : Nat) : Option Ctx := (created? s num).filter fun c => !c.dying

/-- The lowest reason for which a block is rejected, 0 for none (R375). -/
def rejectReason (s : State) (w : List DWord) (l : Launch) : Nat :=
  match accepting? s l.ctx with
  | none => 1
  | some c =>
    if !blockLegal w then 2
    else if !(l.roles.all roleOk) || decide (16 < l.groupsPerTeam) then 3
    else if 2 ^ 32 < l.total then 4
    else if (l.gang && !idleRoom s l) || !gpbaseOk s c l then 5
    else 0

/-- The block at the head of an inlet. -/
def headBlock (s : State) (n : Inlet) : List DWord := dwordsOf 16 (s.hbm.read (n.base.toNat + 128 * (n.head.toNat % 2 ^ n.log2n)) 128)

/-- Whether an inlet's current block still has teams to place. -/
def inletPlacing (s : State) (inlet : Nat) : Bool := s.work.launches.any fun l => l.inlet == inlet && decide (l.placed.length < l.total)

/-- Rejects a block (R375). -/
def rejectBlock (s : State) (l : Launch) (reason : Nat) : Option State :=
  match accepting? s l.ctx with
  | none => some (emitRecord s { ctx := l.ctx, cause := 0x0602, detail := 256 + l.inlet })
  | some c => doneRecord s c (donePlace s c l.doneva) l.doneva l.immed 1 reason

/-- LAUNCH_TAKE: the launch processor takes an inlet's next block and validates it. -/
def execLaunchTake (inlet : BitVec 6) (s : State) : Host.Outcome State Fault Refusal :=
  match s.inlets[inlet.toNat]? with
  | none => stutter s
  | some n =>
    if s.regs.boot ≠ .ready ∨ ¬ inletBusy n ∨ inletPlacing s inlet.toNat then stutter s
    else
      let w := headBlock s n
      let l := blockLaunch s.nextUid inlet.toNat w
      let s1 := { s with inlets := modifyAt (fun n => { n with head := n.head + 1 }) s.inlets inlet.toNat, nextUid := s.nextUid + 1 }
      let reason := rejectReason s w l
      if reason = 0 then .next { s1 with work := { s1.work with launches := s1.work.launches ++ [l] } }
      else match rejectBlock s1 l reason with
        | some t => .next t
        | none => stutter s

/-! ## Placement (R13, R123 to R126, R140, R178) -/

/-- The role of a group index, and the role's number. -/
def roleOf : List Role → Nat → Nat → Option (Role × Nat)
  | [], _, _ => none
  | r :: rest, k, n => if k < r.groups then some (r, n) else roleOf rest (k - r.groups) (n + 1)

/-- A thread at its first instruction (R13). -/
def freshThread (entry : DWord) : Thread := { pc := entry, p := 0, fpctl := 0, fpstat := 0, randn := 0, status := .run }

/-- A group at its first instruction (R13). -/
def freshGroup (uid : Nat) (l : Launch) (team group core slot : Nat) (r : Role) (role : Nat) : Group :=
  { uid := uid, ctx := l.ctx, launch := l.uid, team := team, role := role, group := group, core := core, slot := slot
    vbud := r.vbud, sbud := r.sbud, tbud := r.tbud, abud := r.abud, threads := List.replicate Config.width (freshThread r.entry)
    v := [], sreg := sputAll 0 [] [(0, loWord l.argva), (1, hiWord l.argva)], tile := [], tfmt := [], rscale := [], rspec := [], acc := [], atag := []
    astep := [], obsv := 0, stepctl := 0, ext := [], issuing := [], bars := List.replicate 16 freshBarrier, loads := [], stores := [], tiles := []
    stQueue := [], nextIssue := 0, copies := [], mmas := [], frops := [], clops := [], cpSeq := 0, mxSeq := 0, clSeq := 0, frSeq := 0
    cp := { cpDone := 0, cpErr := 0, firstBad := 0xFFFFFFFF, errSeq := 0, errCount := 0, rmatGen := 0 }
    cl := { clDone := 0, clErr := 0, errSeq := 0, clWord := 0 }, firing := none
    choice := Choice.start, sched := .waiting, waited := 0, ages := [], elig := 0, promoted := none, entered := 0, restoring := false, released := (0, 0)
    park := none, held := [], gsaved := false, savedOcc := 0, action := 0, mask := 0, badEnd := false }

/-- A team at its place. -/
def freshTeam (uid : Nat) (l : Launch) (p : Placement) : Team :=
  { uid := uid, ctx := l.ctx, launch := l.uid, index := p.team, core := p.core, past := [], seg := p.seg, nseg := l.pond / 4096
    ngroups := l.groupsPerTeam, bars := List.replicate 16 freshBarrier }

/-- A group's placement as a group. -/
def placedGroup (uid : Nat) (l : Launch) (p : Placement) : Option Group :=
  (roleOf l.roles p.group 0).map fun (r, n) => freshGroup uid l p.team p.group p.core p.slot r n

/-- Clears a team's allocation: bytes 0, descriptors 0x0000_7F00, segments READY (R178). -/
def clearPond (w : Work) (t : Team) : Work :=
  let base := t.core * 2 ^ 20 + t.seg * 4096
  { w with
    pond := w.pond.clearRange base (t.nseg * 4096)
    pondDesc := sdrop w.pondDesc fun k => decide (base / 64 ≤ k) && decide (k < base / 64 + t.nseg * 64)
    segs := sputAll noSegment w.segs ((teamKeys t).map fun k => (k, { team := t.uid, state := 2, dead := false })) }

/-- The teams that a list of placements names, each once. -/
def teamsNamed (ps : List Placement) : List Nat := ps.foldl (fun l p => if l.contains p.team then l else l ++ [p.team]) []

/-- Whether placements name each group of each of some teams exactly once, of the launch, one segment run and core a team. -/
def placesWhole (l : Launch) (ps : List Placement) (teams : List Nat) : Bool :=
  decide (ps.length = teams.length * l.groupsPerTeam) && allDistinct (ps.map fun p => p.team * 16 + p.group)
  && (ps.all fun p => p.launch == l.uid && decide (p.group < l.groupsPerTeam) && decide (p.seg % l.step = 0))
  && teams.all fun t => match ps.find? fun p => p.team == t with
      | some p => (ps.filter fun q => q.team == t).all fun q => q.core == p.core && q.seg == p.seg
      | none => false

/-- Whether the teams are ones that the launch may place together now: one that is not yet placed, or all of a gang. -/
def teamsDue (l : Launch) (teams : List Nat) : Bool :=
  (teams.all fun t => decide (t < l.total) && !l.placed.contains t)
  && (if l.gang then decide (teams.length = l.total) else decide (teams.length = 1))

/-- Whether another launch that waits and could be placed now stands before this one (R373). -/
def outranked (s : State) (l : Launch) : Bool :=
  s.work.launches.any fun x => x.uid != l.uid && decide (x.placed.length < x.total)
    && (decide (l.prio < x.prio) || (x.prio == l.prio && decide (x.inlet < l.inlet)))
    && ((s.ctx? x.ctx).map (·.state)) == some .running && fitsNow s x

/-- The state with the teams and groups of placements added. -/
def addTeams (s : State) (l : Launch) (ps : List Placement) (teams : List Nat) : State :=
  let ts := (teams.zipIdx.filterMap fun (t, k) => (ps.find? fun p => p.team == t).map (freshTeam (s.nextUid + k) l))
  let gs := ps.zipIdx.filterMap fun (p, k) => placedGroup (s.nextUid + teams.length + k) l p
  { s with
    nextUid := s.nextUid + teams.length + ps.length
    work := { ts.foldl clearPond s.work with
      groups := s.work.groups ++ gs, teams := s.work.teams ++ ts
      launches := s.work.launches.map fun (x : Launch) =>
        if x.uid = l.uid then { x with placed := x.placed ++ teams, start := some (x.start.getD s.clock) } else x } }

/-- TEAM_PLACEMENT: a team, or a whole gang, is placed at places that fit. -/
def execTeamPlacement (l : Nat) (ps : List Placement) (s : State) : Host.Outcome State Fault Refusal :=
  match s.launch? l with
  | none => stutter s
  | some x =>
    match s.ctx? x.ctx with
    | none => stutter s
    | some c =>
      let teams := teamsNamed ps
      if c.state ≠ .running ∨ ¬ placesWhole x ps teams ∨ ¬ teamsDue x teams ∨ outranked s x then stutter s
      else
        let s1 := addTeams s x ps teams
        if !placementFits s1 (occupants s1 c.num) then stutter s
        else match mapGang s1 c x (s1.work.teams.filter fun t => t.launch == x.uid) with
          | some t => .next t
          | none => stutter s

/-! ## The end of a launch (R376) -/

/-- LAUNCH_COMPLETION: a launch whose teams and operations have ended writes its completion record. -/
def execLaunchCompletion (l : Nat) (s : State) : Host.Outcome State Fault Refusal :=
  match s.launch? l with
  | none => stutter s
  | some x =>
    match s.ctx? x.ctx with
    | none => stutter s
    | some c =>
      if s.regs.boot ≠ .ready ∨ x.placed.length < x.total ∨ x.ended < x.total ∨ s.work.groups.any (fun g => g.launch == x.uid) then stutter s
      else match ((unbindGraphs s x.uid).bind fun t => unmapGang t c x).bind fun t => doneRecord t c (placeOfDone t c x) x.doneva x.immed (if x.bad then 2 else 0) 0 with
        | none => stutter s
        | some t =>
          .next (reap { t with work := { t.work with
            launches := t.work.launches.filter (fun y => y.uid != x.uid) } })

/-! ## The inlets' registers (R372) -/

/-- A write of an inlet's register by the host. -/
def inletEvent (s : State) (inlet : BitVec 6) (f : Inlet → Inlet) : Host.Outcome State Fault Refusal :=
  if s.regs.boot ≠ .ready then stutter s else .next { s with inlets := modifyAt f s.inlets inlet.toNat }

/-- ITAIL_WRITE. -/
def execItailWrite (inlet : BitVec 6) (val : Word) (s : State) := inletEvent s inlet fun n => itailWritten n val
/-- ICTL_WRITE. -/
def execIctlWrite (inlet : BitVec 6) (val : Word) (s : State) := inletEvent s inlet fun n => ictlWritten n val
/-- IBASE_WRITE. -/
def execIbaseWrite (inlet : BitVec 6) (val : DWord) (s : State) :=
  inletEvent s inlet fun n => if inletBusy n then { n with error := true } else { n with base := val }

end Sys2Proof.Machine
end

