-- ==== Sys2Proof/Machine/HostPort.lean ====
section
/-! DEFINITION. The host's commands CREATE and DOMAIN, its accesses, and the record queue (R327, R352, R369, R370, R377 to R380). -/
namespace Sys2Proof.Machine

/-! ## CREATE (R377, R378) -/

/-- Whether a range of HBM exists. -/
def inHbm (pa n : Nat) : Bool := decide (pa + n ≤ Config.hbmBytes)

/-- Whether the values of a context descriptor keep to their rules (R165, R308, R312, R336, R366, R378). -/
def descriptorOk (w : List DWord) : Bool :=
  let root := (w.getD 1 0).toNat
  let fq := (w.getD 2 0).toNat
  let cap := recField w 3 0 24
  let sa := (w.getD 4 0).toNat
  let sb := (w.getD 5 0).toNat
  decide (recField w 0 0 16 < 64) && decide (1 ≤ recField w 0 20 4)
  && root % 65536 == 0 && inHbm root 65536 && fq % 32 == 0 && decide (1 ≤ cap) && inHbm fq (32 * cap)
  && sa % 0x200000 == 0 && inHbm sa saveSize && sb % 0x200000 == 0 && inHbm sb (2 * saveSize)
  && recField w 6 32 32 == 0 && w.getD 7 0 == 0

/-- A context as CREATE makes it: RUNNING with no groups. -/
def freshCtx (uid : Nat) (w : List DWord) (snap : Memory) (dates : Sparse Nat) : Ctx :=
  { uid := uid, num := recField w 0 0 16, level := recField w 0 16 1 == 1, clmax := recField w 0 20 4, weight := 8, root := (w.getD 1 0).toNat
    fqBase := (w.getD 2 0).toNat, fqCap := recField w 3 0 24, fqWritten := 0, fqRead := 0, fqHeld := [], saBase := (w.getD 4 0).toNat
    sealBase := (w.getD 5 0).toNat, half := false, hasSeal := false, randseed := BitVec.ofNat 32 (recField w 6 0 32), rollbacks := 0
    pinned := none, state := .running, snap := snap, snapDates := dates, savedAt := 0, moves := [], dying := false }

/-- CREATE: fails where the number is in use or a value of the descriptor breaks its rule. -/
def execCreate (s : State) :=
  command 1 (fun s =>
    let w := cmdArgs s
    if !descriptorOk w || (s.ctx? (recField w 0 0 16)).isSome then none
    else some { s with ctxs := s.ctxs ++ [freshCtx s.nextUid w s.hbm s.work.dates], nextUid := s.nextUid + 1 }) s

/-! ## DOMAIN (R327, R352) -/

/-- The entries of the member table. -/
def memberTable (s : State) (w : List DWord) : List Nat :=
  (List.range (recField w 1 16 9 + 1)).map fun k => s.hbm.readNat ((w.getD 3 0).toNat + 2 * k) 2

/-- Whether the argument of DOMAIN keeps to its table (R352). -/
def domainOk (s : State) (w : List DWord) : Bool :=
  let m := memberTable s w
  recField w 0 17 47 == 0 && recField w 0 10 6 == 0 && recField w 1 25 39 == 0 && decide (recField w 1 16 9 < 256) && recField w 2 32 32 == 0
  && decide (recField w 2 0 32 ≤ 60000) && (w.getD 3 0).toNat % 64 == 0 && inHbm (w.getD 3 0).toNat (2 * (recField w 1 16 9 + 1))
  && ((w.drop 4).all (· == 0)) && (m.all fun d => decide (d < 1024)) && allDistinct m && m.contains (recField w 0 0 10)

/-- The coordinator that the members name: exactly one of them sets COORD (R352). -/
def coordOf (w : List DWord) (m : List Nat) (x : DomainPeers) : Option Nat :=
  let own := recField w 0 0 10
  if recField w 0 16 1 = 1 then some own
  else if x.coord.toNat ≠ own ∧ m.contains x.coord.toNat then some x.coord.toNat else none

/-- The domain after the command: every member takes the coordinator's RIN and last committed seal. -/
def newDomain (d : Domain) (w : List DWord) (m : List Nat) (coord : Nat) (x : DomainPeers) : Domain :=
  let own := recField w 0 0 10
  { d with
    device := own, members := m, coord := coord, sealTo := if recField w 2 0 32 = 0 then 1000 else recField w 2 0 32
    rin := if coord = own then d.rin else x.rin, committed := if coord = own then d.committed else x.committed }

/-- DOMAIN, with what the other members answer: fails while a context exists, or where a condition of R352 does not hold. -/
def execDomain (x : DomainPeers) (s : State) :=
  command 9 (fun s =>
    let w := cmdArgs s
    let m := memberTable s w
    if !s.ctxs.isEmpty || !domainOk s w || (decide (1 < m.length) && !x.ok) || m.any (fun d => d != recField w 0 0 10 && s.domain.noRoute.contains d) then
      none
    else (coordOf w m x).map fun c => { s with undo := [], deferred := [], domain := newDomain s.domain w m c x }) s

/-- UNDEFINED_COMMAND: a write of CMD with a code that no command has (R377). -/
def execUndefinedCommand (code : BitVec 8) (s : State) : Host.Outcome State Fault Refusal :=
  if s.regs.boot ≠ .ready ∨ (1 ≤ code.toNat ∧ code.toNat ≤ 9) then stutter s else .next (cmdWrite s (BitVec.ofNat 32 code.toNat))

/-! ## The host's accesses (R369, R370) -/

/-- HOST_CXL_MEM_ACCESS: the host reads or writes the window, which is not tracked. -/
def execHostCxlMemAccess (pa : Nat) (data : List Byte) (s : State) : Host.Outcome State Fault Refusal :=
  let base := s.regs.winBase.toNat
  if s.regs.boot ≠ .ready ∨ pa < base ∨ base + s.regs.winSize.toNat < pa + data.length then stutter s
  else .next (newWrite s pa data)

/-- REGISTER_WRITE: a host write of 4 or 8 bytes of register space. -/
def execRegisterWrite (off : BitVec 24) (wide : Bool) (val : DWord) (s : State) : Host.Outcome State Fault Refusal :=
  .next (regWrite s off.toNat (leBytes (if wide then 8 else 4) val.toNat))

/-! ## The record queue (R379, R380) -/

/-- RECORD_WRITE: the oldest held record is written where the ring has room; vector 0 is raised as RQTAIL passes RQHEAD. -/
def execRecordWrite (s : State) : Host.Outcome State Fault Refusal :=
  let r := s.records
  match r.held with
  | [] => stutter s
  | w :: rest =>
    if ringRoom r = 0 then stutter s
    else
      let pa := r.base.toNat + 64 * (r.tail.toNat % 2 ^ r.log2n)
      let t := { s with host := s.host.write pa (wordBytes w), records := { r with tail := r.tail + 1, held := rest } }
      .next (if r.tail = r.head then raiseVector t 0 else t)

/-- RQCTL_WRITE. -/
def execRqctlWrite (val : Word) (s : State) : Host.Outcome State Fault Refusal :=
  if s.regs.boot ≠ .ready then stutter s else .next { s with records := rqctlWritten s.records val }

/-- RQHEAD_WRITE. -/
def execRqheadWrite (val : Word) (s : State) : Host.Outcome State Fault Refusal :=
  if s.regs.boot ≠ .ready then stutter s else .next { s with records := { s.records with head := val } }

end Sys2Proof.Machine
end

