-- ==== Sys2Proof/Machine/Signature.lean ====
section
/-! DEFINITION. SHAKE256, and the XMSS signatures of the parameter set XMSS-SHAKE256_20_256 (R404), as FIPS 202, RFC 8391 and
NIST SP 800-208 give them (log entry 88). -/
namespace Sys2Proof.Machine

/-! ## SHAKE256 -/

/-- Lane (x, y) of a Keccak state, which lists its 25 lanes by 5 y + x. -/
def keccakLane (a : List DWord) (x y : Nat) : DWord := a.getD (5 * (y % 5) + x % 5) 0

/-- The parity of a column. -/
def keccakColumn (a : List DWord) (x : Nat) : DWord :=
  (List.range 5).foldl (fun acc y => acc ^^^ keccakLane a x y) 0

/-- A state from its lanes. -/
def keccakState (f : Nat → Nat → DWord) : List DWord := (List.range 25).map fun k => f (k % 5) (k / 5)

/-- The step theta. -/
def keccakTheta (a : List DWord) : List DWord :=
  let c := (List.range 5).map (keccakColumn a)
  keccakState fun x y => keccakLane a x y ^^^ c.getD ((x + 4) % 5) 0 ^^^ (c.getD ((x + 1) % 5) 0).rotateLeft 1

/-- The rotations of the step rho, by lane. -/
def keccakTurns : List Nat := [0, 1, 62, 28, 27, 36, 44, 6, 55, 20, 3, 10, 43, 25, 39, 41, 45, 15, 21, 8, 18, 2, 61, 56, 14]

/-- The steps rho and pi: lane (x, y) takes lane (x + 3 y, x), rotated. -/
def keccakRhoPi (a : List DWord) : List DWord :=
  keccakState fun x y => (keccakLane a (x + 3 * y) x).rotateLeft (keccakTurns.getD (5 * x + (x + 3 * y) % 5) 0)

/-- The step chi. -/
def keccakChi (a : List DWord) : List DWord :=
  keccakState fun x y => keccakLane a x y ^^^ (~~~ keccakLane a (x + 1) y &&& keccakLane a (x + 2) y)

/-- The constants of the step iota, by round. -/
def keccakConstants : List DWord :=
  [0x0000000000000001, 0x0000000000008082, 0x800000000000808A, 0x8000000080008000, 0x000000000000808B, 0x0000000080000001,
   0x8000000080008081, 0x8000000000008009, 0x000000000000008A, 0x0000000000000088, 0x0000000080008009, 0x000000008000000A]
  ++ [0x000000008000808B, 0x800000000000008B, 0x8000000000008089, 0x8000000000008003, 0x8000000000008002, 0x8000000000000080,
   0x000000000000800A, 0x800000008000000A, 0x8000000080008081, 0x8000000000008080, 0x0000000080000001, 0x8000000080008008]

/-- One round, with the constant of its step iota. -/
def keccakRound (a : List DWord) (c : DWord) : List DWord := modifyAt (· ^^^ c) (keccakChi (keccakRhoPi (keccakTheta a))) 0

/-- The permutation Keccak-f[1600]. -/
def keccakF (a : List DWord) : List DWord := keccakConstants.foldl keccakRound a

/-- Bytes that SHAKE256 takes or gives between two permutations. -/
def shakeRate : Nat := 136

/-- The bytes of a message that fill its last block. -/
def shakePad (n : Nat) : List Byte :=
  let k := shakeRate - n % shakeRate
  if k = 1 then [0x9F] else [0x1F] ++ List.replicate (k - 2) 0 ++ [0x80]

/-- Takes n blocks into a state. -/
def shakeAbsorb : Nat → List DWord → List Byte → List DWord
  | 0, a, _ => a
  | n + 1, a, b =>
    let block := dwordsOf 17 (b.take shakeRate)
    shakeAbsorb n (keccakF (a.zipIdx.map fun (v, k) => v ^^^ block.getD k 0)) (b.drop shakeRate)

/-- The first 32 bytes of the SHAKE256 of a message. -/
def shake256 (m : List Byte) : List Byte :=
  let a := shakeAbsorb (m.length / shakeRate + 1) (List.replicate 25 0) (m ++ shakePad m.length)
  (a.take 4).flatMap fun v => leBytes 8 v.toNat

/-! ## The functions of the parameter set (SP 800-208) -/

/-- A number in n bytes, highest first. -/
def toByte (v n : Nat) : List Byte := (leBytes n v).reverse

/-- The function of a kind: 0 is F, 1 is H, 2 is H_msg, 3 is PRF and 4 is PRF_keygen. -/
def xmssHash (kind : Nat) (key m : List Byte) : List Byte := shake256 (toByte kind 32 ++ key ++ m)

/-- An address of RFC 8391, without its layer and its tree, which are 0: the type, three words of that type, and keyAndMask. -/
structure XmssAddr where
  type : Nat
  a    : Nat
  b    : Nat
  c    : Nat
  deriving DecidableEq, Repr

/-- The bytes of an address with a keyAndMask. -/
def XmssAddr.bytes (x : XmssAddr) (mask : Nat) : List Byte :=
  toByte 0 12 ++ [x.type, x.a, x.b, x.c, mask].flatMap fun v => toByte v 4

/-- The exclusive or of two lists of bytes. -/
def xorBytes (a b : List Byte) : List Byte := List.zipWith (· ^^^ ·) a b

/-- PRF under the public seed, at an address and a keyAndMask. -/
def xmssPrf (seed : List Byte) (x : XmssAddr) (mask : Nat) : List Byte := xmssHash 3 seed (x.bytes mask)

/-- RAND_HASH: the parent of two nodes. -/
def randHash (seed : List Byte) (x : XmssAddr) (l r : List Byte) : List Byte :=
  xmssHash 1 (xmssPrf seed x 0) (xorBytes l (xmssPrf seed x 1) ++ xorBytes r (xmssPrf seed x 2))

/-! ## WOTS+ -/

/-- The chaining function of chain k of one-time key i: from position p on, n steps. -/
def wotsChain (seed : List Byte) (i k p : Nat) (v : List Byte) : Nat → List Byte
  | 0 => v
  | n + 1 =>
    let x : XmssAddr := ⟨0, i, k, p + n⟩
    xmssHash 0 (xmssPrf seed x 0) (xorBytes (wotsChain seed i k p v n) (xmssPrf seed x 1))

/-- The digits of a message digest to the base 16, high digit of a byte first, with the three digits of its checksum. -/
def wotsDigits (m : List Byte) : List Nat :=
  let d := m.flatMap fun (b : Byte) => [b.toNat / 16, b.toNat % 16]
  let sum := d.foldl (fun acc v => acc + (15 - v)) 0
  d ++ [sum / 256 % 16, sum / 16 % 16, sum % 16]

/-- The secret of chain k of one-time key i (SP 800-208). -/
def wotsSecret (secret seed : List Byte) (i k : Nat) : List Byte := xmssHash 4 secret (seed ++ XmssAddr.bytes ⟨0, i, k, 0⟩ 0)

/-- The number of chains, len of R404. -/
def wotsLen : Nat := 67

/-- The public values of one-time key i. -/
def wotsPublic (secret seed : List Byte) (i : Nat) : List (List Byte) :=
  (List.range wotsLen).map fun k => wotsChain seed i k 0 (wotsSecret secret seed i k) 15

/-- A WOTS+ signature of a digest with one-time key i. -/
def wotsSign (secret seed : List Byte) (i : Nat) (m : List Byte) : List (List Byte) :=
  (wotsDigits m).zipIdx.map fun (d, k) => wotsChain seed i k 0 (wotsSecret secret seed i k) d

/-- The public values that a WOTS+ signature of a digest leads to. -/
def wotsFromSig (seed : List Byte) (i : Nat) (m : List Byte) (sig : List (List Byte)) : List (List Byte) :=
  (wotsDigits m).zipIdx.map fun (d, k) => wotsChain seed i k d (sig.getD k []) (15 - d)

/-! ## The trees -/

/-- One level of an L-tree: node n of it is the parent of nodes 2 n and 2 n + 1, and an odd last node goes up as it is. -/
def lTreeLevel (seed : List Byte) (i height : Nat) : Nat → List (List Byte) → List (List Byte)
  | n, l :: r :: rest => randHash seed ⟨1, i, height, n⟩ l r :: lTreeLevel seed i height (n + 1) rest
  | _, l => l

/-- The root of the L-tree of one-time key i, whose 67 leaves take seven levels. -/
def lTree (seed : List Byte) (i : Nat) (l : List (List Byte)) : List Byte :=
  ((List.range 7).foldl (fun l height => lTreeLevel seed i height 0 l) l).getD 0 []

/-- The node at a height and an index of the tree of a private key. -/
def treeNode (secret seed : List Byte) : Nat → Nat → List Byte
  | 0, k => lTree seed k (wotsPublic secret seed k)
  | h + 1, k => randHash seed ⟨2, 0, h, k⟩ (treeNode secret seed h (2 * k)) (treeNode secret seed h (2 * k + 1))

/-- The height of the tree (R2, R404). -/
def xmssHeight : Nat := 20

/-- The brother of the node above one-time key i at a height. -/
def brother (i h : Nat) : Nat := i / 2 ^ h ^^^ 1

/-- The root that a node above one-time key i leads to with its brothers from a height on. -/
def climb (seed : List Byte) (i : Nat) : Nat → List Byte → List (List Byte) → List Byte
  | _, node, [] => node
  | h, node, b :: rest =>
    let x : XmssAddr := ⟨2, 0, h, i / 2 ^ (h + 1)⟩
    climb seed i (h + 1) (if i / 2 ^ h % 2 = 0 then randHash seed x node b else randHash seed x b node) rest

/-! ## XMSS (RFC 8391) -/

/-- The digest that is signed with one-time key i. -/
def xmssDigest (r root : List Byte) (i : Nat) (m : List Byte) : List Byte := xmssHash 2 (r ++ root ++ toByte i 32) m

/-- The object identifier of XMSS-SHAKE256_20_256, with which its public keys begin. -/
def xmssOid : List Byte := toByte 0x12 4

/-- The private seed of the identity key (R405): that of the one-time keys, that of the random value of a signature, and the public
seed. -/
def secretSeed (part : Nat) : List Byte := (List.range 32).map fun k => Config.privateSeed (32 * part + k)

/-- The root of a private key. -/
def xmssRoot (secret seed : List Byte) : List Byte := treeNode secret seed xmssHeight 0

/-- The signature of the identity key with one-time key i: its index, its random value, the WOTS+ signature and the brothers on the way
to the root, 2,820 bytes (R404, R405). -/
def xmssSign (i : Nat) (m : List Byte) : List Byte :=
  let seed := secretSeed 2
  let r := xmssHash 3 (secretSeed 1) (toByte i 32)
  toByte i 4 ++ r ++ (wotsSign (secretSeed 0) seed i (xmssDigest r (xmssRoot (secretSeed 0) seed) i m)).flatten
    ++ (List.range xmssHeight).flatMap fun h => treeNode (secretSeed 0) seed h (brother i h)

/-- Values of 32 bytes. -/
def nodesOf (b : List Byte) (n : Nat) : List (List Byte) := (List.range n).map fun k => (b.drop (32 * k)).take 32

/-- Whether a signature of a message verifies under a public key of 68 bytes (R404). -/
def xmssVerify (key m sig : List Byte) : Bool :=
  let root := (key.drop 4).take 32
  let seed := key.drop 36
  let i := ofLe (sig.take 4).reverse
  let d := xmssDigest ((sig.drop 4).take 32) root i m
  key.length == 68 && sig.length == 2820 && key.take 4 == xmssOid && decide (i < 2 ^ xmssHeight)
  && climb seed i 0 (lTree seed i (wotsFromSig seed i d (nodesOf (sig.drop 36) wotsLen))) (nodesOf (sig.drop 2180) xmssHeight) == root

/-- Whether a firmware image verifies under the Emvor firmware public key (R404). -/
def imageVerifies (key : List Byte) (f : FirmwareImage) : Bool := xmssVerify key f.bytes f.sig

/-- Whether a public key is the Emvor firmware key, whose digest is held in fuses (R404). -/
def isFirmwareKey (key : List Byte) : Bool := shake256 key == (List.range 32).map Config.firmwareKeyDigest

end Sys2Proof.Machine
end

