-- ==== Sys2Proof/Machine/BringUp.lean ====
section
/-! DEFINITION. Resets, bring-up, monitors, throttling and attestation (R393 to R406). -/
namespace Sys2Proof.Machine

/-! ## Resets (R393, R394, R398) -/

/-- RSTCTL. -/
def execRstctl (val : Word) (s : State) : Host.Outcome State Fault Refusal := .next (rstCtl s val)
/-- POWER_ON. -/
def execPowerOn (s : State) : Host.Outcome State Fault Refusal := .next (doReset s .power)
/-- LINK_RESET. -/
def execLinkReset (s : State) : Host.Outcome State Fault Refusal := .next (doReset s .link)
/-- HEXWD. -/
def execHexwd (s : State) : Host.Outcome State Fault Refusal := .next (doReset s .hexwd)

/-- An island. -/
def islandAt (s : State) (k : Nat) : Island := s.regs.islands.getD k Island.reset

/-- TEMP of an island, in eighths of a degree. -/
def Island.eighths (i : Island) : Int := toSigned 16 i.temp.toNat

/-- THERMAL_TRIP: an island's TEMP has reached TTRIP, which is 110 °C. -/
def execThermalTrip (island : BitVec 7) (s : State) : Host.Outcome State Fault Refusal :=
  if 880 ≤ (islandAt s island.toNat).eighths then .next (doReset s .therm) else stutter s

/-- VOLTAGE_FAULT: an island's VOLT has stayed outside its window for 1 ms, from one update to the next. -/
def execVoltageFault (island : BitVec 7) (s : State) : Host.Outcome State Fault Refusal :=
  if 2 ≤ (islandAt s island.toNat).outside then .next (doReset s .volt) else stutter s

/-! ## Bring-up (R399 to R404) -/

/-- Whether an island is powered down: both cores of its pair are retired (R396, R397). -/
def islandOff (r : Regs) (k : Nat) : Bool :=
  decide (k % 32 < 24) && r.retCore.contains (k / 32 * 48 + 2 * (k % 32)) && r.retCore.contains (k / 32 * 48 + 2 * (k % 32) + 1)

/-- SUPPLIES_STABLE: the islands are calibrated, and spares and retirements are applied. -/
def execSuppliesStable (s : State) : Host.Outcome State Fault Refusal :=
  if s.regs.boot ≠ .reset then stutter s
  else .next { s with regs := { s.regs with
    boot := .calib, islands := s.regs.islands.zipIdx.map fun (i, k) => { i with off := islandOff s.regs k } } }

/-- CALIBRATION_DONE. -/
def execCalibrationDone (s : State) : Host.Outcome State Fault Refusal :=
  if s.regs.boot ≠ .calib then stutter s else .next { s with regs := { s.regs with boot := .verify } }

/-- FIRMWARE_VERIFIED: the two images that the flash holds, of Hexvos and of the microcode, are measured, and both verify under the Emvor
firmware key or one fails (R399, R404). -/
def execFirmwareVerified (key : List Byte) (images : FirmwareImage × FirmwareImage) (s : State) : Host.Outcome State Fault Refusal :=
  let meas := shake256 images.1.bytes ++ shake256 images.2.bytes
  if s.regs.boot ≠ .verify then stutter s
  else if isFirmwareKey key && imageVerifies key images.1 && imageVerifies key images.2 then
    .next { s with regs := { s.regs with boot := .config, meas := meas } }
  else .next { s with regs := { s.regs with boot := .stopped, meas := meas, rstCause := addCause s.regs.rstCause .fwFail } }

/-- BOOTCTL_START. -/
def execBootctlStart (val : Word) (s : State) : Host.Outcome State Fault Refusal := if bitOf val.toNat 0 then .next (bootStart s) else stutter s

/-- The nominal clock of an island: core pairs run at 1.4 GHz (R402). -/
def nominalOf (k : Nat) : BitVec 16 := if k % 32 < 24 then 1400 else Config.nominalClock k

/-- INIT_DONE: HBM, sidebands, logs and inlets are initialised, and the device is READY (R401, R402). -/
def execInitDone (s : State) : Host.Outcome State Fault Refusal :=
  if s.regs.boot ≠ .init then stutter s
  else .next { s with
    hbm := Memory.empty, baseTag := 0, side := [], undo := []
    domain := { Domain.reset with lastSeal := s.clock }
    inlets := s.inlets.map fun n => { n with en := false, head := 0, chead := 0, tail := 0 }
    records := { s.records with head := 0, tail := 0, log2n := 0 }
    regs := { s.regs with
      boot := .ready
      islands := s.regs.islands.zipIdx.map fun (i, k) => { i with nominal := nominalOf k } } }

/-! ## Monitors and clocks (R397, R398, R403) -/

/-- TWARN in eighths of a degree. -/
def warnAt (s : State) : Int := 8 * (s.regs.monctl.toNat : Int)

/-- Whether a supply lies outside the window of a nominal one. -/
def outsideWindow (volt vnom : Nat) : Bool := decide (volt < vnom - vnom / 16) || decide (vnom + vnom / 16 < volt)

/-- The clock of an island: the lower of the two that heat and the power cap leave it (R398, R403). -/
def Island.clock (i : Island) : BitVec 16 := if i.off then 0 else BitVec.ofNat 16 (i.nominal.toNat * (16 - max i.cutHeat i.cutPower) / 16)

/-- Sets THROT; an episode that begins is counted. -/
def Island.throttle (i : Island) (on : Bool) : Island := { i with throt := on, thrcnt := if on && !i.throt then i.thrcnt + 1 else i.thrcnt }

/-- An island after an update of its monitors. -/
def Island.updated (i : Island) (warn : Int) (r : Reading) : Island :=
  let t := toSigned 16 r.temp.toNat
  let out := outsideWindow r.volt.toNat r.vnom.toNat
  let hot := decide (warn ≤ t) || (i.hot && decide (warn - 40 ≤ t))
  { i with
    volt := r.volt, temp := r.temp, proc := r.proc, vnom := r.vnom, freq := i.clock, valarm := i.valarm || out, talarm := i.talarm || decide (warn ≤ t)
    maxt := if toSigned 16 i.maxt.toNat < t then r.temp else i.maxt
    outside := if out then i.outside + 1 else 0, hot := hot }.throttle (hot || i.cutHeat != 0 || i.cutPower != 0)

/-- Whether a millisecond of CLOCK has passed since an update or a step; CLOCK stands still in RESET (R402). -/
def msPassed (s : State) (since : Nat) : Bool := s.regs.boot != .reset && decide (since + ticksPerMs ≤ s.clock)

/-- MONITOR_UPDATE: once in a millisecond of CLOCK the monitors of every island are updated together, from one reading of each. -/
def execMonitorUpdate (m : List Reading) (s : State) : Host.Outcome State Fault Refusal :=
  if ¬ msPassed s s.regs.monAt ∨ m.map (fun (r : Reading) => r.island.toNat) ≠ List.range 128 then stutter s
  else .next { s with regs := { s.regs with
    monAt := s.clock, islands := (s.regs.islands.zip m).map fun (i, r) => i.updated (warnAt s) r } }

/-- One step of a cut of sixteenths of the nominal clock, down to a quarter of it. -/
def cutStep (down : Bool) (cut : Nat) : Nat := if down then min 12 (cut + 1) else cut - 1

/-- Whether the step of a millisecond for heat is due at an island. -/
def stepDue (s : State) (i : Island) : Bool := msPassed s i.stepAt && (i.hot || i.cutHeat != 0)

/-- THROTTLE_STEP: each millisecond a hot island's clock falls by a sixteenth, and that of one that has cooled rises; the registers show
it at the next update (R397). -/
def execThrottleStep (island : BitVec 7) (s : State) : Host.Outcome State Fault Refusal :=
  if !stepDue s (islandAt s island.toNat) then stutter s
  else .next { s with regs := { s.regs with
    islands := modifyAt (fun (i : Island) => { i with cutHeat := cutStep i.hot i.cutHeat, stepAt := s.clock }) s.regs.islands island.toNat } }

/-- POWER_CAP_STEP: each millisecond, while the module draws more than PWRCAP the core pairs' clocks fall, and while it draws less they
rise; the registers show it at the next update (R397). -/
def execPowerCapStep (power : Nat) (s : State) : Host.Outcome State Fault Refusal :=
  let cap := s.regs.pwrCap.toNat
  if power = cap ∨ ¬ msPassed s s.regs.capAt then stutter s
  else .next { s with regs := { s.regs with
    capAt := s.clock
    islands := s.regs.islands.zipIdx.map fun (i, k) =>
      if k % 32 < 24 then { i with cutPower := cutStep (decide (cap < power)) i.cutPower } else i } }

/-- What the monitors make the device do by itself: the trip and the voltage reset, and the steps of a hot island (R398). -/
def monitorEvents (s : State) : List (State → Host.Outcome State Fault Refusal) :=
  if s.regs.boot = .reset then []
  else s.regs.islands.zipIdx.flatMap fun (i, k) =>
    (if 880 ≤ i.eighths then [execThermalTrip (BitVec.ofNat 7 k)] else [])
    ++ (if 2 ≤ i.outside then [execVoltageFault (BitVec.ofNat 7 k)] else [])
    ++ (if stepDue s i then [execThrottleStep (BitVec.ofNat 7 k)] else [])

/-! ## Attestation (R404 to R406) -/

/-- ATTCTL_REQUEST. -/
def execAttctlRequest (val : Word) (s : State) : Host.Outcome State Fault Refusal := if bitOf val.toNat 0 then .next (attRequest s) else stutter s

/-- Bytes 0 to 127 of a report (R406). -/
def reportHead (r : Regs) : List Byte :=
  r.attNonce ++ r.meas ++ leBytes 4 devId.toNat ++ leBytes 4 0 ++ leBytes 8 Config.serial.toNat
  ++ leBytes 4 (r.keyIdx - 1) ++ leBytes 4 r.rstCount.toNat ++ leBytes 8 0

/-- The report: the signature covers its first 128 bytes. -/
def reportBytes (r : Regs) : List Byte :=
  let h := reportHead r
  h ++ xmssSign (r.keyIdx - 1) h

/-- ATTESTATION_COMPLETE: the fuse has burnt and the report is written to ATTDST, or the burn has failed, or ATTDST, which may have been
written meanwhile, is invalid. -/
def execAttestationComplete (burnt : Bool) (s : State) : Host.Outcome State Fault Refusal :=
  let r := s.regs
  if r.attState ≠ 1 then stutter s
  else if burnt ∧ r.attDst.toNat % 64 ≠ 0 then .next { s with regs := { r with attState := 3, attReason := 3 } }
  else if burnt then .next { s with host := s.host.write r.attDst.toNat (reportBytes r), regs := { r with attState := 2 } }
  else .next { s with regs := { r with attState := 3, attReason := 2 } }

end Sys2Proof.Machine
end

