-- ==== Sys2Proof/Machine/Rollback.lean ====
section
/-! DEFINITION. Errors of the hardware: rollback to the last committed seal, self-tests, remapping and retirement
(R341 to R343, R386 to R388, R391). -/
namespace Sys2Proof.Machine

/-! ## Reports and self-tests (R343, R386 to R388) -/

/-- The detail of causes 0x0B01 to 0x0B04 (R386). -/
def unitDetail (kind outcome spares index : Nat) : Nat := kind * 2 ^ 44 + outcome * 2 ^ 40 + spares * 2 ^ 32 + index

/-- The module core that the index of a core's unit names. -/
def unitCore (e : ErrReport) : Nat := bitsOf e.index.toNat 8 8

/-- Spare lanes of a core (R343, R388). -/
def spareLanes : Nat := 4

/-- The spare lanes that a core has left. -/
def lanesLeft (r : Regs) (core : Nat) : Nat := spareLanes - r.spareLane.getD core spareLanes

/-- The outcome of triage: a lasting fault of a lane takes one of the core's spare lanes, and retires the core where none is left (R343). -/
def triage (r : Regs) (e : ErrReport) : Nat :=
  if e.kind = 0 ∧ 2 ≤ e.outcome then (if lanesLeft r (unitCore e) = 0 then 3 else 2) else e.outcome

/-- The spares left once an outcome has been applied: of a lane the spare lanes of its core, of another unit what the self-test reports
(R386). -/
def sparesLeft (r : Regs) (e : ErrReport) (outcome : Nat) : Nat :=
  if e.kind = 0 then lanesLeft r (unitCore e) - (if outcome = 2 then 1 else 0) else e.spares.toNat

/-- The record of an error report, with the group whose access met it, if one did. -/
def errorRecord (s : State) (e : ErrReport) (cause action sev outcome : Nat) : RecordArgs :=
  let pa := if e.kind = 4 ∨ e.kind = 5 then e.pa.map (fun a => a / 64 * 64) else none
  let a : RecordArgs :=
    { cause := cause, action := action, sev := sev, engine := e.engine, pa := pa,
      detail := unitDetail e.kind outcome (sparesLeft s.regs e outcome) e.index.toNat }
  match e.access with
  | none => a
  | some (uid, lanes, va, kind) =>
    match s.group? uid with
    | none => a
    | some g => { a with team := g.team, ctx := g.ctx, slot := g.slot, core := g.core, lanes := lanes.toNat, va := some va.toNat, kind := kind }

/-- Retires a core (R388). -/
def retireCore (r : Regs) (c : Nat) : Regs := if r.retCore.contains c then r else { r with retCore := r.retCore ++ [c] }

/-- The registers after a lasting fault of a unit has been replaced by a spare (R343, R388). -/
def replaceUnit (r : Regs) (e : ErrReport) : Regs :=
  if e.kind = 0 then { r with spareLane := modifyAt (· + 1) r.spareLane (unitCore e) }
  else if e.kind ≤ 5 then { r with retRows := r.retRows + 1 }
  else r

/-- The registers after a unit has been retired (R343, R388). -/
def retireUnit (r : Regs) (e : ErrReport) : Regs :=
  if e.kind ≤ 3 then retireCore r (unitCore e)
  else if e.kind = 4 then
    let b := 4 * bitsOf e.index.toNat 16 2 + (Config.l2Quarter e.index).toNat
    { r with retL2 := if bitOf r.retL2.toNat b then r.retL2 else r.retL2 + BitVec.ofNat 32 (2 ^ b) }
  else if e.kind = 5 then
    let frame := e.pa.getD 0 / 65536
    { r with retFrames := if r.retFrames.contains frame then r.retFrames else r.retFrames ++ [frame] }
  else if e.kind = 6 then
    (if bitOf r.portOff.toNat (e.index.toNat % 32) then r
     else { r with portOff := r.portOff + BitVec.ofNat 32 (2 ^ (e.index.toNat % 32)) })
  else r

/-- The record of a fabric port's retrain, which is its self-test; it names no group (R343, R382). -/
def retrained (s : State) (e : ErrReport) : State :=
  if e.kind = 6 then emitRecord s (errorRecord s { e with access := none } 0x0B04 0 0 (triage s.regs e)) else s

/-- Runs a self-test and applies its outcome; a remapped lane has a record of its own (R343). -/
def selfTest (s : State) (e : ErrReport) : State :=
  let outcome := triage s.regs e
  let s0 := retrained s e
  if outcome = 2 then
    let s1 := { s0 with regs := replaceUnit s0.regs e }
    if e.kind = 0 then emitRecord s1 { cause := 0x0B03, detail := unitDetail 0 2 (lanesLeft s1.regs (unitCore e)) e.index.toNat } else s1
  else if outcome = 3 then { s0 with regs := retireUnit s0.regs e }
  else s0

/-- The row or unit that two correctable errors must share (R387). -/
def unitKey (e : ErrReport) : Nat := if e.kind = 5 then Config.hbmRow (e.pa.getD 0) else e.index.toNat

/-- CORRECTABLE_ERROR: a first error is only recorded; a second in the same row or unit within 2^36 ticks runs the self-test (R387). -/
def execCorrectableError (e : ErrReport) (s : State) : Host.Outcome State Fault Refusal :=
  let hit := s.regs.correct.find? fun (k, i, t) => k == e.kind && i == unitKey e && decide (s.clock ≤ t + 2 ^ 36)
  let rest := s.regs.correct.filter fun (k, i, _) => !(k == e.kind && i == unitKey e)
  let keep := fun (l : List (Nat × Nat × Nat)) => { s with regs := { s.regs with correct := l } }
  if hit.isSome then .next (selfTest (emitRecord (keep rest) (errorRecord s e 0x0B01 0 0 (triage s.regs e))) e)
  else .next (emitRecord (keep (rest ++ [(e.kind, unitKey e, s.clock)])) (errorRecord s e 0x0B01 0 0 0))

/-- FABRIC_PORT_ERROR: the port retrains, or is disabled (R343). -/
def execFabricPortError (port : BitVec 5) (pass : Bool) (s : State) : Host.Outcome State Fault Refusal :=
  let e : ErrReport :=
    { engine := 7, kind := 6, index := BitVec.ofNat 32 port.toNat, outcome := if pass then 1 else 3, spares := 0xFF, pa := none, access := none
      fatal := false, moves := [] }
  .next (selfTest s e)

/-- HOST_LINK_RETRAINED: the host link retrains after an error (R385, R386). -/
def execHostLinkRetrained (s : State) : Host.Outcome State Fault Refusal :=
  .next (emitRecord s { engine := 9, cause := 0x0B04, detail := unitDetail 7 1 0xFF 0 })

/-! ## Undoing memory (R341, steps 3 and 4) -/

/-- Applies one undo entry: the old bytes and the old sideband. -/
def undoLine (s : State) (u : Undo) : State :=
  if u.die = Config.dies then
    { s with peer := (s.peer.write u.pa u.data).writeNat (peerSideKey u.pa) 6 u.side.toNat }
  else sidePut { s with hbm := s.hbm.write u.pa u.data } u.pa u.side

/-- Applies the undo entries of the intervals after c, newest first. -/
def undoAfter (s : State) (c : BitVec 16) : State :=
  (s.undo.filter fun u => precedes c u.rin).reverse.foldl undoLine
    { s with undo := s.undo.filter fun u => !precedes c u.rin }

/-- How many entries of this device a rollback applies. -/
def undoCount (s : State) (c : BitVec 16) : Nat := (s.undo.filter fun u => precedes c u.rin && u.die != Config.dies).length

/-- Discards the deferred writes of the intervals after c. -/
def dropDeferred (s : State) (c : BitVec 16) : State := { s with deferred := s.deferred.filter fun d => !precedes c d.rin }

/-! ## Contexts at a rollback (R341, steps 6 to 8) -/

/-- The context as the last committed seal recorded it. -/
def sealedCtx? (s : State) (c : Ctx) : Option Ctx :=
  match s.snapCommitted with
  | none => none
  | some p => if c.hasSeal then p.ctxs.find? fun x => x.uid == c.uid else none

/-- Why a rollback ends a context: an error in a pinned interval, or no seal state. -/
def rollbackEnds (s : State) (c : Ctx) : Option Nat :=
  if c.state = .ended then none
  else if isPinned s c.num then some 0x0903
  else if (sealedCtx? s c).isNone then some 0x0902
  else none

/-- Whether a rollback brings a context back to its seal. -/
def rollsBack (s : State) (c : Ctx) : Bool := c.state != .ended && (rollbackEnds s c).isNone

/-- The entries of a fault queue still held for parks before the seal point (R309). -/
def heldBefore (c old : Ctx) : List (List DWord × Nat) := c.fqHeld.take (old.fqWritten + old.fqHeld.length - c.fqWritten)

/-- What an invalidation last saw, with the lines that the rollback undoes brought back (R171). -/
def backSnap (s : State) (m : Memory) : Memory :=
  (s.undo.filter fun u => precedes s.domain.committed u.rin && u.die != Config.dies).reverse.foldl (fun m u => m.write u.pa u.data) m

/-- Dates of words with those of the lines that the rollback undoes brought back to the seal's (R321, R341). -/
def backDates (s : State) (past d : Sparse Nat) : Sparse Nat :=
  (s.undo.filter fun u => precedes s.domain.committed u.rin && u.die != Config.dies).foldl
    (fun d u => (List.range 8).foldl (fun d k => sput 0 d (u.pa / 8 + k) (sget 0 past (u.pa / 8 + k))) d) d

/-- The work of a seal that was never taken. -/
def sealWork (s : State) : Work :=
  match s.snapCommitted with
  | some p => p.work
  | none => { Work.reset with pond := s.work.pond, pondDesc := s.work.pondDesc }

/-- A context brought back to its seal: its queue positions and its translations stay as they are, and ROLLBACKS rises (R309, R341). -/
def backCtx (s : State) (c old : Ctx) : Ctx :=
  { old with
    fqWritten := c.fqWritten, fqRead := c.fqRead, fqHeld := heldBefore c old, half := c.half, hasSeal := c.hasSeal
    rollbacks := c.rollbacks + 1, pinned := none, dying := c.dying, state := .saved, snap := backSnap s c.snap
    snapDates := backDates s (sealWork s).dates c.snapDates, savedAt := if c.state = .saved then c.savedAt else s.clock }

/-- The contexts after a rollback; those that come back are SAVED until they are restored. -/
def backCtxs (s : State) : List Ctx :=
  s.ctxs.map fun c => if rollsBack s c then (match sealedCtx? s c with
    | some old => backCtx s c old
    | none => c) else c

/-- The numbers of the contexts that come back. -/
def backNums (s : State) : List Nat := (s.ctxs.filter (rollsBack s)).map (·.num)

/-- The work after a rollback: that of the seal for the contexts that come back, and the present one for the others. -/
def backWork (s : State) (past : Work) : Work :=
  let back := backNums s
  let b := fun (n : Nat) => back.contains n
  let w := s.work
  { groups := (w.groups.filter fun g => !b g.ctx) ++ past.groups.filter fun g => b g.ctx
    teams := (w.teams.filter fun t => !b t.ctx) ++ past.teams.filter fun t => b t.ctx
    launches := (w.launches.filter fun l => !b l.ctx) ++ past.launches.filter fun l => b l.ctx
    graphs := (w.graphs.filter fun g => !b g.ctx) ++ past.graphs.filter fun g => b g.ctx
    regions := past.regions.map fun r => { r with written := 0 }
    springHeld := (w.springHeld.filter fun h => !b h.ctx) ++ past.springHeld.filter fun h => b h.ctx
    segs := w.segs.filter fun (_, x) => w.teams.any fun t => t.uid == x.team && !b t.ctx
    pond := w.pond, pondDesc := w.pondDesc, dates := backDates s past.dates w.dates }

/-- Copies the committed halves of the contexts that come back into their save regions. -/
def copyHalves (s : State) : State :=
  (s.ctxs.filter (rollsBack s)).foldl (fun t c => { t with hbm := copyRegion t.hbm (halfBase c c.half) c.saBase }) s

/-- The inlets at the seal: the blocks after it are taken again (R371). -/
def backInlets (s : State) : List Inlet :=
  s.inlets.map fun n => { n with head := n.chead }

/-- The refits that ran at the seal start again with a new snapshot (R234). -/
def restartRefits (s : State) : State :=
  s.work.regions.foldl (fun s r => if (headerAt s.hbm r.hdr).rstate = 2 then (startRefit s r.hdr r.owner).getD s else s) s

/-- The record of a rollback for one context (R341). -/
def rollbackRecord (ctx cause : Nat) (ended : Bool) (c : BitVec 16) (n : Nat) : RecordArgs :=
  { ctx := ctx, engine := 6, cause := cause, action := if ended then 4 else 5, sev := if ended then 4 else 5
    detail := if cause = 0x0902 then c.toNat * 2 ^ 32 + n % 2 ^ 32 else 0 }

/-- Ends the contexts that a rollback cannot bring back, each with its record. -/
def endLost (s : State) (c : BitVec 16) (n : Nat) (l : List (Nat × Nat)) : State :=
  l.foldl (fun t (ctx, cause) => endNow (emitRecord t (rollbackRecord ctx cause true c n)) ctx) s

/-- Restores contexts one after another; none where the places given do not fit. -/
def restoreAll (s : State) (ps : List Placement) : List Nat → Option State
  | [] => some s
  | k :: r =>
    match s.ctx? k with
    | none => restoreAll s ps r
    | some c => (restoreContext s c ps).bind fun t => restoreAll t ps r

/-- The rollback of a device to its last committed seal, once its reporting unit has been tested (R341); none where the places given for
its teams do not fit. A context whose termination had come in STOPPING or SAVING ends as it is back in SAVED (R318). -/
def rollback (s : State) (moves : List Placement) : Option State :=
  let c := s.domain.committed
  let n := undoCount s c
  let lost := s.ctxs.filterMap fun x => (rollbackEnds s x).map fun cause => (x.num, cause)
  let back := s.ctxs.filter (rollsBack s)
  let residents := (back.filter fun x => x.state != .saved && !x.dying).map (·.num)
  let dying := (back.filter (·.dying)).map (·.num)
  let s1 := copyHalves (dropDeferred (undoAfter s c) c)
  let s2 : State := { s1 with
    work := backWork s (sealWork s), ctxs := backCtxs s, snapPending := none, inlets := backInlets s
    domain := { s1.domain with rin := c + 1, stage := 0, passed := false, trigger := false, nextTrigger := false, want := false } }
  let s3 := endLost s2 c n lost
  let s4 := back.foldl (fun t x => emitRecord t (rollbackRecord x.num 0x0902 false c n)) s3
  (restoreAll (restartRefits s4) moves residents).map fun t => noticeAgain (dying.foldl endNow t)

/-- The state in which an error has been recorded and its unit tested (R341, R343). -/
def errorTaken (s : State) (e : ErrReport) : State := selfTest (emitRecord s (errorRecord s e 0x0B02 5 5 (triage s.regs e))) e

/-- Every context ends under action 4, at once: its state cannot be restored (R342). -/
def endEvery (s : State) : State := (s.ctxs.map (·.num)).foldl endNow s

/-- The end of a device whose state a rollback cannot restore: the reporting unit is tested, every context ends, and the device stops (R342,
R343). -/
def stopDevice (s : State) (e : ErrReport) : State :=
  let s1 := endEvery (selfTest (emitRecord s (errorRecord s e 0x0B02 4 6 (triage s.regs e))) e)
  { s1 with regs := { s1.regs with boot := .stopped, unrestored := true } }

/-- Whether a byte of HBM lies in a committed half of some context's seal region. -/
def inCommitted (s : State) (pa : Nat) : Bool :=
  s.ctxs.any fun c => c.hasSeal && decide (halfBase c c.half ≤ pa) && decide (pa < halfBase c c.half + saveSize)

/-- Whether a byte of HBM lies in an undo entry that a rollback needs: where the entries stand in a log is not architectural (R331), so
which entry of its die the byte belongs to is left open (log entry 96). -/
def inNeededUndo (s : State) (pa : Nat) : Bool :=
  touchesLog s pa 1 && decide (Config.undoSlot pa < (s.undo.filter fun u => u.die == homeDie pa && precedes s.domain.committed u.rin).length)

/-- Whether a rollback cannot restore state: the error lies in what it needs, or in the rollback itself (R342). -/
def fatalError (s : State) (e : ErrReport) : Bool :=
  e.fatal || match e.pa with
    | some pa => inCommitted s pa || inNeededUndo s pa
    | none => false

/-- Another device of the domain meets an uncorrectable error (R341, R342). -/
def memberError (s : State) (fatal : Bool) (moves : List Placement) : State :=
  if s.regs.boot ≠ .ready then s else if fatal then endEvery s else (rollback s moves).getD s

/-- UNCORRECTABLE_MEMORY_ERROR: the access that met it has no effect, and the domain rolls back, or the device stops (R341, R342). -/
def execUncorrectableMemoryError (e : ErrReport) (s : State) : Host.Outcome State Fault Refusal :=
  if s.regs.boot ≠ .ready then stutter s
  else if fatalError s e then .next (stopDevice s e)
  else match rollback (errorTaken s e) e.moves with
    | some t => .next t
    | none => stutter s

end Sys2Proof.Machine
end

