-- ==== Sys2Proof/Machine/Schedule.lean ====
section
/-! DEFINITION. Convergence sets, the choice among them, the ranking of groups, the active set and ELIGIBILITY_PROMOTION
(R129 to R138). -/
namespace Sys2Proof.Machine

/-! ## Convergence sets (R129, R130, R132) -/

/-- Whether a thread is in a convergence set: it has not exited, and it does not wait at a JOIN. -/
def inSet (g : Group) (lane : Nat) : Bool :=
  match (g.thread lane).status with
  | .join _ => false
  | .exited => false
  | _ => true

/-- What the threads of one set have in common between extended instructions, where every extension state is empty: the PC. -/
def setKey (g : Group) (lane : Nat) : DWord := (g.thread lane).pc

/-- Parts lanes by their key, each part rising and the parts in the order of their lowest lanes. -/
def partLanes (g : Group) : Nat → List Nat → List (List Nat)
  | 0, _ => []
  | _, [] => []
  | fuel + 1, l :: r =>
    let same := fun k => decide (setKey g k = setKey g l)
    (l :: r.filter same) :: partLanes g fuel (r.filter fun k => !same k)

/-- The convergence sets that may issue next: the set in the middle of an extended instruction, or every set (R130). -/
def convergenceSets (g : Group) : List (List Nat) :=
  if g.ext.isEmpty then partLanes g Config.width ((List.range Config.width).filter (inSet g)) else [g.issuing]

/-- The lowest lane of a set. -/
def lowLane (l : List Nat) : Nat := l.headD 0

/-- The set of a list whose lowest lane is the smallest. -/
def lowestSet (l : List (List Nat)) : Option (List Nat) :=
  l.foldl (fun m x => match m with
    | none => some x
    | some y => if lowLane x < lowLane y then some x else some y) none

/-- choose_set of R132 on the ready sets of a group, where no hold is in force. The set that issued last is one of the same lanes: a set
that has split or merged since counts as another (DEDUCED, log entry 24). -/
def chooseFree (ch : Choice) (rdy : List (List Nat)) : Choice × Option (List Nat) :=
  let others := rdy.filter (· != ch.last)
  if 256 ≤ ch.c ∧ ¬ others.isEmpty then
    let above := others.filter fun l => match ch.p with
      | some p => decide (p < lowLane l)
      | none => true
    match lowestSet (if above.isEmpty then others else above) with
    | some l => ({ ch with h := some (lowLane l), held := 0 }, some l)
    | none => (ch, none)
  else (ch, lowestSet rdy)

/-- choose_set of R132: the choice values after it, and the set to issue. -/
def chooseSet (ch : Choice) (rdy : List (List Nat)) : Choice × Option (List Nat) :=
  if rdy.isEmpty then (ch, none)
  else match ch.h with
    | none => chooseFree ch rdy
    | some h =>
      match rdy.find? fun l => l.contains h with
      | some l => (ch, some l)
      | none => chooseFree { ch with p := some h, h := none, c := 0 } rdy

/-- The set that a group issues next, and its choice values then: choose_set decides at the first word of an extended
instruction only. -/
def nextSet (g : Group) (rdy : List (List Nat)) : Choice × Option (List Nat) :=
  if g.ext.isEmpty then chooseSet g.choice rdy else (g.choice, rdy.head?)

/-- Whether the groups of the device issue, and a group among them: its context runs, it is not parked, the stores of its save frame
are performed, and no seal point stops it but to finish its extended instruction (R129, R318, R320, R335). -/
def mayIssue (s : State) (g : Group) : Bool :=
  ctxRunning s g && g.park.isNone && !g.badEnd && !g.restoring && (!sealStops s || !g.ext.isEmpty)

/-! ## Ranking (R134, R311) -/

/-- The priority of a group's launch. -/
def prioOf (s : State) (g : Group) : Nat := ((s.launch? g.launch).map (·.prio)).getD 0

/-- For how many cycles a set has been ready. -/
def ageOf (g : Group) (lanes : List Nat) : Nat := ((g.ages.find? fun a => a.1 == lanes).map (·.2)).getD 0

/-- The wait count of a group with ready sets. -/
def waitCount (g : Group) (rdy : List (List Nat)) : Nat := min g.waited (ageOf g ((nextSet g rdy).2.getD []))

/-- A group with its ready sets. -/
abbrev Candidate := Group × List (List Nat)

/-- Whether a candidate ranks above another of its core. -/
def ranksAbove (s : State) (a b : Candidate) : Bool :=
  match a.1.promoted, b.1.promoted with
  | some m, some n => decide (m < n)
  | some _, none => true
  | none, some _ => false
  | none, none =>
    let p := prioOf s a.1
    let q := prioOf s b.1
    if p ≠ q then decide (q < p)
    else
      let m := waitCount a.1 a.2
      let n := waitCount b.1 b.2
      if m ≠ n then decide (n < m)
      else if a.1.released.1 = b.1.released.1 ∧ a.1.released.2 ≠ b.1.released.2 then decide (a.1.released.2 < b.1.released.2)
      else decide (a.1.slot < b.1.slot)

/-- The candidate of a list that stands first: the lowest core, and the highest rank within it. -/
def bestOf (s : State) (l : List Candidate) : Option Candidate :=
  l.foldl (fun m x => match m with
    | none => some x
    | some y =>
      if x.1.core < y.1.core ∨ (x.1.core = y.1.core ∧ ranksAbove s x y) then some x else some y) none

/-! ## The active set (R134, R136) -/

/-- Groups in an active set. -/
def activeMax : Nat := 8

/-- Whether a group is in the active set of its core. -/
def isActive (s : State) (g : Group) : Bool := g.sched == .active && g.park.isNone && !g.badEnd && resident s g.ctx

/-- The active groups of a core. -/
def activeOn (s : State) (core : Nat) : List Group := s.work.groups.filter fun g => g.core == core && isActive s g

/-- Cycles for which an eligible group may wait before it is promoted. -/
def promoteAfter : Nat := 4096

/-- The number of the next promotion. -/
def nextPromotion (s : State) : Nat := s.work.groups.foldl (fun m g => max m (g.promoted.getD 0 + 1)) 0

/-- The active group that makes room for a promoted one: the lowest priority, and among those the longest in the active set. -/
def evicted (s : State) (core : Nat) : Option Group :=
  (activeOn s core).foldl (fun m g => match m with
    | none => some g
    | some y => if prioOf s g < prioOf s y ∨ (prioOf s g = prioOf s y ∧ g.entered < y.entered) then some g else some y) none

/-- A group that leaves the active set for a promoted one: ELIGIBLE, with its eligibility count as it is; the end of the cycle makes it
WAITING where it has no ready set (R136). -/
def leaveActive (g : Group) : Group := { g with sched := .eligible }

/-- Whether a promoted group has lost its place in the active set in this cycle: it enters again in the next one, so that a promotion lasts
until the group issues and the promotions of a cycle come to an end (R138; log entry 120). -/
def drivenOut (s : State) (g : Group) : Bool := g.promoted.isSome && g.sched == .eligible && g.entered == s.cycles

/-- ELIGIBILITY_PROMOTION: a group has been eligible for 4,096 cycles without issuing (R136). -/
def execEligibilityPromotion (g : Nat) (s : State) : Host.Outcome State Fault Refusal :=
  match s.group? g with
  | none => stutter s
  | some x =>
    if x.elig < promoteAfter ∨ (x.promoted.isSome ∧ x.sched = .active) ∨ drivenOut s x ∨ x.sched = .waiting ∨ ¬ mayIssue s x then stutter s
    else
      let n := nextPromotion s
      let s1 :=
        if x.sched = .active ∨ (activeOn s x.core).length < activeMax then s
        else match evicted s x.core with
          | some y => s.modifyGroup y.uid leaveActive
          | none => s
      .next (s1.modifyGroup g fun y =>
        { y with sched := .active, promoted := some (y.promoted.getD n), entered := if y.sched = .active then y.entered else s.cycles })

end Sys2Proof.Machine
end

