-- ==== Sys2Proof/Machine/Dispatch.lean ====
section
/-! DEFINITION. The dispatcher: one arm for each constructor of Instr. -/
namespace Sys2Proof.Machine

/-- What an instruction or an event does to the machine. -/
def exec (i : Instr) (s : State) : Host.Outcome State Fault Refusal :=
  match i with
  | .extPred payload => Sys2Proof.Machine.execExtPred payload s
  | .extImm payload => Sys2Proof.Machine.execExtImm payload s
  | .extShi payload => Sys2Proof.Machine.execExtShi payload s
  | .extHint payload => Sys2Proof.Machine.execExtHint payload s
  | .illegalInstruction w => Sys2Proof.Machine.execIllegalInstruction w s
  | .iadd iw d a b => Sys2Proof.Machine.execIadd iw d a b s
  | .isub iw d a b => Sys2Proof.Machine.execIsub iw d a b s
  | .imul iw d a b => Sys2Proof.Machine.execImul iw d a b s
  | .imulhi n d a b => Sys2Proof.Machine.execImulhi n d a b s
  | .imulw n d a b => Sys2Proof.Machine.execImulw n d a b s
  | .idiv iw d a b => Sys2Proof.Machine.execIdiv iw d a b s
  | .irem iw d a b => Sys2Proof.Machine.execIrem iw d a b s
  | .imin iw d a b => Sys2Proof.Machine.execImin iw d a b s
  | .imax iw d a b => Sys2Proof.Machine.execImax iw d a b s
  | .and d a b => Sys2Proof.Machine.execAnd d a b s
  | .or d a b => Sys2Proof.Machine.execOr d a b s
  | .xor d a b => Sys2Proof.Machine.execXor d a b s
  | .andn d a b => Sys2Proof.Machine.execAndn d a b s
  | .shl wide d a b => Sys2Proof.Machine.execShl wide d a b s
  | .shr wide d a b => Sys2Proof.Machine.execShr wide d a b s
  | .sar wide d a b => Sys2Proof.Machine.execSar wide d a b s
  | .rol wide d a b => Sys2Proof.Machine.execRol wide d a b s
  | .bfe n d a b => Sys2Proof.Machine.execBfe n d a b s
  | .bfi d a b => Sys2Proof.Machine.execBfi d a b s
  | .popc d a => Sys2Proof.Machine.execPopc d a s
  | .clz d a => Sys2Proof.Machine.execClz d a s
  | .ctz d a => Sys2Proof.Machine.execCtz d a s
  | .brev d a => Sys2Proof.Machine.execBrev d a s
  | .icmpp wide cmp pd a b => Sys2Proof.Machine.execIcmpp wide cmp pd a b s
  | .pand pd pa pb => Sys2Proof.Machine.execPand pd pa pb s
  | .por pd pa pb => Sys2Proof.Machine.execPor pd pa pb s
  | .pxor pd pa pb => Sys2Proof.Machine.execPxor pd pa pb s
  | .pandn pd pa pb => Sys2Proof.Machine.execPandn pd pa pb s
  | .sel ps d a b => Sys2Proof.Machine.execSel ps d a b s
  | .iaddi d a imm => Sys2Proof.Machine.execIaddi d a imm s
  | .movi d imm => Sys2Proof.Machine.execMovi d imm s
  | .andi d a imm => Sys2Proof.Machine.execAndi d a imm s
  | .ori d a imm => Sys2Proof.Machine.execOri d a imm s
  | .xori d a imm => Sys2Proof.Machine.execXori d a imm s
  | .shli d a cnt => Sys2Proof.Machine.execShli d a cnt s
  | .shri d a cnt => Sys2Proof.Machine.execShri d a cnt s
  | .sari d a cnt => Sys2Proof.Machine.execSari d a cnt s
  | .roli d a cnt => Sys2Proof.Machine.execRoli d a cnt s
  | .icmppi cmp pd a imm => Sys2Proof.Machine.execIcmppi cmp pd a imm s
  | .lea sx sh d a b => Sys2Proof.Machine.execLea sx sh d a b s
  | .leai d a imm => Sys2Proof.Machine.execLeai d a imm s
  | .bra g off => Sys2Proof.Machine.execBra g off s
  | .call g off => Sys2Proof.Machine.execCall g off s
  | .jmpi a => Sys2Proof.Machine.execJmpi a s
  | .calli d a => Sys2Proof.Machine.execCalli d a s
  | .ret a => Sys2Proof.Machine.execRet a s
  | .nop => Sys2Proof.Machine.execNop s
  | .land => Sys2Proof.Machine.execLand s
  | .yield => Sys2Proof.Machine.execYield s
  | .exit => Sys2Proof.Machine.execExit s
  | .brk => Sys2Proof.Machine.execBrk s
  | .join a => Sys2Proof.Machine.execJoin a s
  | .srd d idx => Sys2Proof.Machine.execSrd d idx s
  | .swr a idx => Sys2Proof.Machine.execSwr a idx s
  | .resume d a b => Sys2Proof.Machine.execResume d a b s
  | .gsave d b => Sys2Proof.Machine.execGsave d b s
  | .gload d b => Sys2Proof.Machine.execGload d b s
  | .fqpop d a b => Sys2Proof.Machine.execFqpop d a b s
  | .trap imm => Sys2Proof.Machine.execTrap imm s
  | .fadd ft d a b => Sys2Proof.Machine.execFadd ft d a b s
  | .fsub ft d a b => Sys2Proof.Machine.execFsub ft d a b s
  | .fmul ft d a b => Sys2Proof.Machine.execFmul ft d a b s
  | .ffma ft d a b => Sys2Proof.Machine.execFfma ft d a b s
  | .fdiv ft d a b => Sys2Proof.Machine.execFdiv ft d a b s
  | .fsqrt ft d a => Sys2Proof.Machine.execFsqrt ft d a s
  | .frcp ft d a => Sys2Proof.Machine.execFrcp ft d a s
  | .frsq ft d a => Sys2Proof.Machine.execFrsq ft d a s
  | .exp2 d a => Sys2Proof.Machine.execExp2 d a s
  | .log2 d a => Sys2Proof.Machine.execLog2 d a s
  | .sin d a => Sys2Proof.Machine.execSin d a s
  | .cos d a => Sys2Proof.Machine.execCos d a s
  | .fmin ft d a b => Sys2Proof.Machine.execFmin ft d a b s
  | .fmax ft d a b => Sys2Proof.Machine.execFmax ft d a b s
  | .fcmpp ft cmp pd a b => Sys2Proof.Machine.execFcmpp ft cmp pd a b s
  | .fclass ft d a => Sys2Proof.Machine.execFclass ft d a s
  | .fabs ft d a => Sys2Proof.Machine.execFabs ft d a s
  | .fneg ft d a => Sys2Proof.Machine.execFneg ft d a s
  | .fcpys ft d a b => Sys2Proof.Machine.execFcpys ft d a b s
  | .cvtf src dst d a => Sys2Proof.Machine.execCvtf src dst d a s
  | .cvtfi src dst d a => Sys2Proof.Machine.execCvtfi src dst d a s
  | .cvtif src dst d a => Sys2Proof.Machine.execCvtif src dst d a s
  | .fscale ft d a b => Sys2Proof.Machine.execFscale ft d a b s
  | .frnd ft d a => Sys2Proof.Machine.execFrnd ft d a s
  | .faddx fw d a b => Sys2Proof.Machine.execFaddx fw d a b s
  | .fsubx fw d a b => Sys2Proof.Machine.execFsubx fw d a b s
  | .fmulx fw d a b => Sys2Proof.Machine.execFmulx fw d a b s
  | .dwadd fw d a b => Sys2Proof.Machine.execDwadd fw d a b s
  | .dwsub fw d a b => Sys2Proof.Machine.execDwsub fw d a b s
  | .dwmul fw d a b => Sys2Proof.Machine.execDwmul fw d a b s
  | .dwfma fw d a b => Sys2Proof.Machine.execDwfma fw d a b s
  | .dwnorm fw d a => Sys2Proof.Machine.execDwnorm fw d a s
  | .pack nf d a b => Sys2Proof.Machine.execPack nf d a b s
  | .unpk nf d a b => Sys2Proof.Machine.execUnpk nf d a b s
  | .sadd d a b => Sys2Proof.Machine.execSadd d a b s
  | .ssub d a b => Sys2Proof.Machine.execSsub d a b s
  | .smul d a b => Sys2Proof.Machine.execSmul d a b s
  | .smulhi d a b => Sys2Proof.Machine.execSmulhi d a b s
  | .sand d a b => Sys2Proof.Machine.execSand d a b s
  | .sor d a b => Sys2Proof.Machine.execSor d a b s
  | .sxor d a b => Sys2Proof.Machine.execSxor d a b s
  | .sandn d a b => Sys2Proof.Machine.execSandn d a b s
  | .sshl d a b => Sys2Proof.Machine.execSshl d a b s
  | .sshr d a b => Sys2Proof.Machine.execSshr d a b s
  | .smin d a b => Sys2Proof.Machine.execSmin d a b s
  | .smax d a b => Sys2Proof.Machine.execSmax d a b s
  | .saddi d a imm => Sys2Proof.Machine.execSaddi d a imm s
  | .smovi d imm => Sys2Proof.Machine.execSmovi d imm s
  | .scmpp cmp pd a b => Sys2Proof.Machine.execScmpp cmp pd a b s
  | .sbrz d imm => Sys2Proof.Machine.execSbrz d imm s
  | .sbrnz d imm => Sys2Proof.Machine.execSbrnz d imm s
  | .sldI32 d a off ord sc => Sys2Proof.Machine.execSldI32 d a off ord sc s
  | .sldI64 d a off ord sc => Sys2Proof.Machine.execSldI64 d a off ord sc s
  | .sstI32 d a off ord sc => Sys2Proof.Machine.execSstI32 d a off ord sc s
  | .sstI64 d a off ord sc => Sys2Proof.Machine.execSstI64 d a off ord sc s
  | .movsv d a => Sys2Proof.Machine.execMovsv d a s
  | .movvs d a => Sys2Proof.Machine.execMovvs d a s
  | .lgetAbs d a b => Sys2Proof.Machine.execLgetAbs d a b s
  | .lgetBelow d a b => Sys2Proof.Machine.execLgetBelow d a b s
  | .lgetAbove d a b => Sys2Proof.Machine.execLgetAbove d a b s
  | .lgetFlip d a b => Sys2Proof.Machine.execLgetFlip d a b s
  | .lany pd ps => Sys2Proof.Machine.execLany pd ps s
  | .lall pd ps => Sys2Proof.Machine.execLall pd ps s
  | .lmask d ps => Sys2Proof.Machine.execLmask d ps s
  | .llead pd => Sys2Proof.Machine.execLlead pd s
  | .redf fw d a => Sys2Proof.Machine.execRedf fw d a s
  | .redx fw d a => Sys2Proof.Machine.execRedx fw d a s
  | .rediAddI32 d a => Sys2Proof.Machine.execRediAddI32 d a s
  | .rediMinI32 d a => Sys2Proof.Machine.execRediMinI32 d a s
  | .rediMaxI32 d a => Sys2Proof.Machine.execRediMaxI32 d a s
  | .rediMinN32 d a => Sys2Proof.Machine.execRediMinN32 d a s
  | .rediMaxN32 d a => Sys2Proof.Machine.execRediMaxN32 d a s
  | .rediAnd d a => Sys2Proof.Machine.execRediAnd d a s
  | .rediOr d a => Sys2Proof.Machine.execRediOr d a s
  | .rediXor d a => Sys2Proof.Machine.execRediXor d a s
  | .scaniAddI32 d a => Sys2Proof.Machine.execScaniAddI32 d a s
  | .scaniAddI32Excl d a => Sys2Proof.Machine.execScaniAddI32Excl d a s
  | .scanfF32 d a => Sys2Proof.Machine.execScanfF32 d a s
  | .scanxF32 d a => Sys2Proof.Machine.execScanxF32 d a s
  | .regroup d a b => Sys2Proof.Machine.execRegroup d a b s
  | .randN32 d => Sys2Proof.Machine.execRandN32 d s
  | .randF32 d => Sys2Proof.Machine.execRandF32 d s
  | .randN64 d => Sys2Proof.Machine.execRandN64 d s
  | .rdvMark d bar lvl => Sys2Proof.Machine.execRdvMark d bar lvl s
  | .rdvHold d bar lvl => Sys2Proof.Machine.execRdvHold d bar lvl s
  | .rdvMeet d bar lvl => Sys2Proof.Machine.execRdvMeet d bar lvl s
  | .rdvPeek d bar lvl => Sys2Proof.Machine.execRdvPeek d bar lvl s
  | .pmovToV d => Sys2Proof.Machine.execPmovToV d s
  | .pmovToP a => Sys2Proof.Machine.execPmovToP a s
  | .ldI32 d a off ord sc => Sys2Proof.Machine.execLdI32 d a off ord sc s
  | .ldI64 d a off ord sc => Sys2Proof.Machine.execLdI64 d a off ord sc s
  | .stI32 d a off ord sc => Sys2Proof.Machine.execStI32 d a off ord sc s
  | .stI64 d a off ord sc => Sys2Proof.Machine.execStI64 d a off ord sc s
  | .ldI8 d a b => Sys2Proof.Machine.execLdI8 d a b s
  | .ldN8 d a b => Sys2Proof.Machine.execLdN8 d a b s
  | .ldI16 d a b => Sys2Proof.Machine.execLdI16 d a b s
  | .ldN16 d a b => Sys2Proof.Machine.execLdN16 d a b s
  | .ldq d a b => Sys2Proof.Machine.execLdq d a b s
  | .stI8 d a b => Sys2Proof.Machine.execStI8 d a b s
  | .stI16 d a b => Sys2Proof.Machine.execStI16 d a b s
  | .stq d a b => Sys2Proof.Machine.execStq d a b s
  | .dld d a b => Sys2Proof.Machine.execDld d a b s
  | .dst d a b => Sys2Proof.Machine.execDst d a b s
  | .segq d a b => Sys2Proof.Machine.execSegq d a b s
  | .segset d a b => Sys2Proof.Machine.execSegset d a b s
  | .pref a b => Sys2Proof.Machine.execPref a b s
  | .atomAddI32 d a ord sc => Sys2Proof.Machine.execAtomAddI32 d a ord sc s
  | .atomMinI32 d a ord sc => Sys2Proof.Machine.execAtomMinI32 d a ord sc s
  | .atomMaxI32 d a ord sc => Sys2Proof.Machine.execAtomMaxI32 d a ord sc s
  | .atomMinN32 d a ord sc => Sys2Proof.Machine.execAtomMinN32 d a ord sc s
  | .atomMaxN32 d a ord sc => Sys2Proof.Machine.execAtomMaxN32 d a ord sc s
  | .atomAnd d a ord sc => Sys2Proof.Machine.execAtomAnd d a ord sc s
  | .atomOr d a ord sc => Sys2Proof.Machine.execAtomOr d a ord sc s
  | .atomXor d a ord sc => Sys2Proof.Machine.execAtomXor d a ord sc s
  | .atomXchgI32 d a ord sc => Sys2Proof.Machine.execAtomXchgI32 d a ord sc s
  | .atomCasI32 d a ord sc => Sys2Proof.Machine.execAtomCasI32 d a ord sc s
  | .atomAddF32 d a ord sc => Sys2Proof.Machine.execAtomAddF32 d a ord sc s
  | .atomAddI64 d a ord sc => Sys2Proof.Machine.execAtomAddI64 d a ord sc s
  | .atomXchgI64 d a ord sc => Sys2Proof.Machine.execAtomXchgI64 d a ord sc s
  | .atomCasI64 d a ord sc => Sys2Proof.Machine.execAtomCasI64 d a ord sc s
  | .fence ord sc => Sys2Proof.Machine.execFence ord sc s
  | .wait ld st cp mx cl => Sys2Proof.Machine.execWait ld st cp mx cl s
  | .rinst sh co cs => Sys2Proof.Machine.execRinst sh co cs s
  | .rfit sh cs => Sys2Proof.Machine.execRfit sh cs s
  | .rdem sh cs => Sys2Proof.Machine.execRdem sh cs s
  | .rabort sh cs => Sys2Proof.Machine.execRabort sh cs s
  | .rldg d a ord sc => Sys2Proof.Machine.execRldg d a ord sc s
  | .rstat d a b => Sys2Proof.Machine.execRstat d a b s
  | .cpy sh co cs => Sys2Proof.Machine.execCpy sh co cs s
  | .cpyt sh co cs => Sys2Proof.Machine.execCpyt sh co cs s
  | .cvtc sh co cs => Sys2Proof.Machine.execCvtc sh co cs s
  | .qnt sh co cs => Sys2Proof.Machine.execQnt sh co cs s
  | .rmat sh co cs => Sys2Proof.Machine.execRmat sh co cs s
  | .cpfill sh co cs => Sys2Proof.Machine.execCpfill sh co cs s
  | .cpst d b => Sys2Proof.Machine.execCpst d b s
  | .cpcan d a => Sys2Proof.Machine.execCpcan d a s
  | .tld ovr ta mb => Sys2Proof.Machine.execTld ovr ta mb s
  | .tstr ta mb => Sys2Proof.Machine.execTstr ta mb s
  | .mma acc ta tb mb => Sys2Proof.Machine.execMma acc ta tb mb s
  | .mmaDw acc ta tb mb => Sys2Proof.Machine.execMmaDw acc ta tb mb s
  | .tzero fmt ta => Sys2Proof.Machine.execTzero fmt ta s
  | .azero tag acc => Sys2Proof.Machine.execAzero tag acc s
  | .amov acc asrc => Sys2Proof.Machine.execAmov acc asrc s
  | .ald tag acc mb => Sys2Proof.Machine.execAld tag acc mb s
  | .ast acc mb => Sys2Proof.Machine.execAst acc mb s
  | .asnap acc adst mb => Sys2Proof.Machine.execAsnap acc adst mb s
  | .ttrn ta tb => Sys2Proof.Machine.execTtrn ta tb s
  | .gbind sh co cs => Sys2Proof.Machine.execGbind sh co cs s
  | .grebind sh co cs => Sys2Proof.Machine.execGrebind sh co cs s
  | .gstat d a b => Sys2Proof.Machine.execGstat d a b s
  | .chstat d a b => Sys2Proof.Machine.execChstat d a b s
  | .fire pd a => Sys2Proof.Machine.execFire pd a s
  | .fend a b => Sys2Proof.Machine.execFend a b s
  | .send a b => Sys2Proof.Machine.execSend a b s
  | .recv pd a b => Sys2Proof.Machine.execRecv pd a b s
  | .seal pdead => Sys2Proof.Machine.execSeal pdead s
  | .sealreq d => Sys2Proof.Machine.execSealreq d s
  | .rvrd d b => Sys2Proof.Machine.execRvrd d b s
  | .coll sh co cs => Sys2Proof.Machine.execColl sh co cs s
  | .lease sh cs => Sys2Proof.Machine.execLease sh cs s
  | .clarb d a => Sys2Proof.Machine.execClarb d a s
  | .clstat d b => Sys2Proof.Machine.execClstat d b s
  | .loadValueReturn g n => Sys2Proof.Machine.execLoadValueReturn g n s
  | .storePerformed g n => Sys2Proof.Machine.execStorePerformed g n s
  | .eligibilityPromotion g => Sys2Proof.Machine.execEligibilityPromotion g s
  | .copyCompletion g => Sys2Proof.Machine.execCopyCompletion g s
  | .copyHalt g n => Sys2Proof.Machine.execCopyHalt g n s
  | .mmaCompletion g => Sys2Proof.Machine.execMmaCompletion g s
  | .springOperationArrival g n => Sys2Proof.Machine.execSpringOperationArrival g n s
  | .installEnd hdr => Sys2Proof.Machine.execInstallEnd hdr s
  | .refitCommit hdr => Sys2Proof.Machine.execRefitCommit hdr s
  | .demotionEnd hdr => Sys2Proof.Machine.execDemotionEnd hdr s
  | .regionOperationCompletion g => Sys2Proof.Machine.execRegionOperationCompletion g s
  | .bind g n => Sys2Proof.Machine.execBind g n s
  | .rebind g n => Sys2Proof.Machine.execRebind g n s
  | .collReadyPassed g n => Sys2Proof.Machine.execCollReadyPassed g n s
  | .collectiveCompletion g x => Sys2Proof.Machine.execCollectiveCompletion g x s
  | .leaseCompletion g => Sys2Proof.Machine.execLeaseCompletion g s
  | .faultQueueEntryWrite ctx => Sys2Proof.Machine.execFaultQueueEntryWrite ctx s
  | .recordWrite => Sys2Proof.Machine.execRecordWrite s
  | .contextSave ctx => Sys2Proof.Machine.execContextSave ctx s
  | .watchdog l => Sys2Proof.Machine.execWatchdog l s
  | .stallLimit => Sys2Proof.Machine.execStallLimit s
  | .sealPeriod => Sys2Proof.Machine.execSealPeriod s
  | .sealTrigger => Sys2Proof.Machine.execSealTrigger s
  | .prepare r => Sys2Proof.Machine.execPrepare r s
  | .ready => Sys2Proof.Machine.execReady s
  | .sealTimeout => Sys2Proof.Machine.execSealTimeout s
  | .abort r => Sys2Proof.Machine.execAbort r s
  | .commit r => Sys2Proof.Machine.execCommit r s
  | .rintagAgeing => Sys2Proof.Machine.execRintagAgeing s
  | .uncorrectableMemoryError e => Sys2Proof.Machine.execUncorrectableMemoryError e s
  | .correctableError e => Sys2Proof.Machine.execCorrectableError e s
  | .fabricPortError port pass => Sys2Proof.Machine.execFabricPortError port pass s
  | .noRoute dev => Sys2Proof.Machine.execNoRoute dev s
  | .peerAccessArrival acc => Sys2Proof.Machine.execPeerAccessArrival acc s
  | .leaseNotice dev num notice => Sys2Proof.Machine.execLeaseNotice dev num notice s
  | .leaseDeadline dev num => Sys2Proof.Machine.execLeaseDeadline dev num s
  | .hostCxlMemAccess pa data => Sys2Proof.Machine.execHostCxlMemAccess pa data s
  | .itailWrite inlet val => Sys2Proof.Machine.execItailWrite inlet val s
  | .ictlWrite inlet val => Sys2Proof.Machine.execIctlWrite inlet val s
  | .ibaseWrite inlet val => Sys2Proof.Machine.execIbaseWrite inlet val s
  | .launchTake inlet => Sys2Proof.Machine.execLaunchTake inlet s
  | .teamPlacement l ps => Sys2Proof.Machine.execTeamPlacement l ps s
  | .launchCompletion l => Sys2Proof.Machine.execLaunchCompletion l s
  | .create => Sys2Proof.Machine.execCreate s
  | .destroy => Sys2Proof.Machine.execDestroy s
  | .preempt => Sys2Proof.Machine.execPreempt s
  | .restore ps => Sys2Proof.Machine.execRestore ps s
  | .inval => Sys2Proof.Machine.execInval s
  | .retire => Sys2Proof.Machine.execRetire s
  | .cmdFqpop => Sys2Proof.Machine.execCmdFqpop s
  | .cmdLeaseGrant => Sys2Proof.Machine.execCmdLeaseGrant s
  | .cmdLeaseRevoke => Sys2Proof.Machine.execCmdLeaseRevoke s
  | .cmdLeaseRegister => Sys2Proof.Machine.execCmdLeaseRegister s
  | .domain x => Sys2Proof.Machine.execDomain x s
  | .rqctlWrite val => Sys2Proof.Machine.execRqctlWrite val s
  | .rqheadWrite val => Sys2Proof.Machine.execRqheadWrite val s
  | .rstctl val => Sys2Proof.Machine.execRstctl val s
  | .powerOn => Sys2Proof.Machine.execPowerOn s
  | .linkReset => Sys2Proof.Machine.execLinkReset s
  | .hexwd => Sys2Proof.Machine.execHexwd s
  | .thermalTrip island => Sys2Proof.Machine.execThermalTrip island s
  | .voltageFault island => Sys2Proof.Machine.execVoltageFault island s
  | .suppliesStable => Sys2Proof.Machine.execSuppliesStable s
  | .calibrationDone => Sys2Proof.Machine.execCalibrationDone s
  | .firmwareVerified key images => Sys2Proof.Machine.execFirmwareVerified key images s
  | .bootctlStart val => Sys2Proof.Machine.execBootctlStart val s
  | .initDone => Sys2Proof.Machine.execInitDone s
  | .monitorUpdate m => Sys2Proof.Machine.execMonitorUpdate m s
  | .throttleStep island => Sys2Proof.Machine.execThrottleStep island s
  | .powerCapStep power => Sys2Proof.Machine.execPowerCapStep power s
  | .attctlRequest val => Sys2Proof.Machine.execAttctlRequest val s
  | .attestationComplete burnt => Sys2Proof.Machine.execAttestationComplete burnt s
  | .registerWrite off wide val => Sys2Proof.Machine.execRegisterWrite off wide val s
  | .hostLinkRetrained => Sys2Proof.Machine.execHostLinkRetrained s
  | .routeRegained dev => Sys2Proof.Machine.execRouteRegained dev s
  | .leaseReleaseAtLender dev num => Sys2Proof.Machine.execLeaseReleaseAtLender dev num s
  | .undefinedCommand code => Sys2Proof.Machine.execUndefinedCommand code s

end Sys2Proof.Machine
end

