-- ==== Sys2Proof/Machine/Run.lean ====
section
/-! DEFINITION. What the machine does in one step: an event, an input, an issue, or the end of a cycle
(R22, R130 to R138, R142, R323). -/
namespace Sys2Proof.Machine

/-! ## Fetching and issuing one word (R22, R130, R131) -/

/-- The PC of a set. -/
def pcOf (g : Group) (lanes : List Nat) : DWord := (g.thread (lowLane lanes)).pc

/-- A failed fetch: the set faults at the first word of its extended instruction (R48). -/
def fetchFault (s : State) (va : DWord) (c : CauseDetail) : Host.Outcome State Fault Refusal :=
  match currentIssue s with
  | none => .fault .noIssuingGroup
  | some x => .next (finish s x false (.fault { cause := c.1, lanes := x.lanes, va := some va, kind := 3, detail := c.2 }))

/-- The set of `cur` fetches the word at its PC and issues it. -/
def fetchAndIssue (s : State) (g : Group) (lanes : List Nat) : Host.Outcome State Fault Refusal :=
  let pc := pcOf g lanes
  match fetchWord s g pc with
  | .error c => fetchFault s pc c
  | .ok w => exec (fetched w) s

/-- Whether the next word of a set can issue now. -/
def wouldIssue (s : State) (g : Group) (lanes : List Nat) : Bool :=
  match fetchAndIssue { s with cur := some (g.uid, lanes) } g lanes with
  | .next t => t.cur.isNone
  | _ => true

/-- Whether a thread still waits where it has arrived: at an RDV.meet whose count has not moved (R159), or at a SEAL (R338). -/
def stillWaits (s : State) (g : Group) (lane : Nat) : Bool :=
  match (g.thread lane).status with
  | .meet lvl bar t => (barAt (barriersOf s lvl g) (barrierIndex lvl bar)).k == t
  | .seal _ => true
  | _ => false

/-- Whether every thread of a set still waits at the first word of its extended instruction, no word of which then issues again. -/
def allWait (s : State) (g : Group) (lanes : List Nat) : Bool := g.ext.isEmpty && lanes.all (stillWaits s g)

/-- The ready sets of a group. -/
def readySets (s : State) (g : Group) : List (List Nat) :=
  if mayIssue s g then (convergenceSets g).filter fun l => !allWait s g l && wouldIssue s g l else []

/-- Issue ports of a core (R134). -/
def issuePorts : Nat := 4

/-- Whether a group is offered an issue port: it is active, has not issued in this cycle, and a port of its core is free. -/
def hasPort (s : State) (g : Group) : Bool :=
  isActive s g && !(s.ported.any fun p => p.1 == g.uid) && decide ((s.ported.filter fun p => p.2 == g.core).length < issuePorts)

/-- The state in which a set of a group issues. -/
def portTaken (s : State) (g : Group) (ch : Choice) (lanes : List Nat) : State :=
  { s.modifyGroup g.uid (fun x => { x with choice := ch }) with ported := s.ported ++ [(g.uid, g.core)], cur := some (g.uid, lanes) }

/-- A group with its ready sets takes a port and issues one word. -/
def issueOne (s : State) (g : Group) (rdy : List (List Nat)) : Host.Outcome State Fault Refusal :=
  match nextSet g rdy with
  | (ch, some lanes) => fetchAndIssue (portTaken s g ch lanes) { g with choice := ch } lanes
  | (_, none) => .next s

/-- The groups that are offered a port and have a ready set. -/
def candidates (s : State) : List Candidate :=
  (s.work.groups.filter (hasPort s)).filterMap fun g =>
    let rdy := readySets s g
    if rdy.isEmpty then none else some (g, rdy)

/-- How many groups of a core the ports that are still free take in this cycle. -/
def portsFree (s : State) (core : Nat) : Nat := issuePorts - (s.ported.filter fun p => p.2 == core).length

/-- Whether a candidate takes one of the free ports of its core: fewer candidates than ports rank above it (R134). -/
def takesPort (s : State) (l : List Candidate) (x : Candidate) : Bool :=
  decide ((l.filter fun y => y.1.core == x.1.core && ranksAbove s y x).length < portsFree s x.1.core)

/-- A group of the agenda issues, if it is among those that take the ports of its core. -/
def issueGroup (s : State) (uid : Nat) : Host.Outcome State Fault Refusal :=
  let l := candidates s
  match l.find? fun x => x.1.uid == uid with
  | some x => if takesPort s l x then issueOne s x.1 x.2 else .next s
  | none => .next s

/-! ## The end of a cycle (R135, R136) -/

/-- HBM with a region's Spring unit at rest, where it is INSTALLING or DEMOTING. -/
def settledHeader (m : Memory) (hdr : Nat) : Memory :=
  let st := (headerAt m hdr).state
  if st = 1 ∨ st = 3 then m.writeNat hdr 8 (setBits (m.readNat hdr 8) 29 3 4) else m

/-- A group some of whose loads have returned their values. -/
def loadsBack (g : Group) (back : Load → Bool) : Group :=
  { (g.loads.filter fun l => !l.done && back l).foldl deliverLoad g with loads := g.loads.filter fun l => !l.done && !back l }

/-- The state as it would be with every segment READY, every Spring unit at rest and every value of one returned. -/
def resolved (s : State) (uid : Nat) : State :=
  let s1 := { s with
    hbm := s.work.regions.foldl (fun m (r : Region) => settledHeader m r.hdr) s.hbm
    work := { s.work with springHeld := [], segs := s.work.segs.map fun (k, (x : Segment)) => (k, { x with state := 2 }) } }
  s1.modifyGroup uid fun g => loadsBack g (·.spring)

/-- The state as it would be with every ordinary operation of a group ended: its loads returned, but for those of a Spring unit, and its
stores and matrix operations performed. -/
def shortDone (s : State) (uid : Nat) : State :=
  let s1 := { s with work := { s.work with
    springHeld := s.work.springHeld.map fun (h : SpringHeld) => if h.group = uid then { h with issue := engineIssue } else h } }
  s1.modifyGroup uid fun g => { loadsBack g (!·.spring) with stores := [], tiles := [], stQueue := [], mmas := [] }

/-- Whether a wait of an instruction that no ordinary operation of its group ends is one for a barrier phase or a channel (R135). -/
def awaitsEvent : Instr → Bool
  | .recv _ _ _ | .fire _ _ | .send _ _ | .rdvHold _ _ _ | .rdvMark _ _ _ | .rdvMeet _ _ _ => true
  | _ => false

/-- Whether an instruction waits for a value that a Spring unit has yet to return. -/
def springPending (g : Group) (lanes : List Nat) (i : Instr) : Bool :=
  operandsPending { g with loads := g.loads.filter (·.spring) } lanes i

/-- Whether an instruction is a WAIT, which is not ready only for its threshold. -/
def isWait : Instr → Bool
  | .wait _ _ _ _ _ => true
  | _ => false

/-- The next word of a set in a state with the given group waits whatever its ordinary operations do. -/
def waitsLong (s : State) (g : Group) (lanes : List Nat) (i : Instr) : Bool :=
  let t := shortDone s g.uid
  let u := resolved t g.uid
  !wouldIssue t ((t.group? g.uid).getD g) lanes && (awaitsEvent i || wouldIssue u ((u.group? g.uid).getD g) lanes)

/-- Whether a set that is not ready waits on a long-latency dependence (R135), whatever else it waits for besides. -/
def longWait (s : State) (g : Group) (lanes : List Nat) : Bool :=
  allWait s g lanes || match fetchWord s g (pcOf g lanes) with
    | .error _ => false
    | .ok w => springPending g lanes (fetched w) || (isWait (fetched w) && !operandsPending g lanes (fetched w)) || waitsLong s g lanes (fetched w)

/-- The scheduling state of a group at the end of a cycle. -/
def nextSched (s : State) (g : Group) (rdy : List (List Nat)) : Sched :=
  match g.sched with
  | .active => if rdy.isEmpty && (convergenceSets g).any (longWait s g) then .waiting else .active
  | .eligible => if rdy.isEmpty then .waiting else .eligible
  | .waiting => if rdy.isEmpty then .waiting else .eligible

/-- A group that stands within an extended instruction whose next word is not ready, where its context or a seal point stops it: back
at the boundary before the instruction, of which nothing has taken effect (R23, R318, R335; log entry 111). -/
def toBoundary (s : State) (g : Group) (rdy : List (List Nat)) : Group :=
  if rdy.isEmpty && (sealStops s || ((s.ctx? g.ctx).map (·.state)) == some .stopping) then rewound g else g

/-- A group at the end of a cycle: its counts, the ages of its ready sets and its scheduling state. A set that has become ready in this
cycle has been so for one as the next begins (R134). -/
def tickGroup (s : State) (g : Group) : Group :=
  if !mayIssue s g then g
  else
    let rdy := readySets s g
    { toBoundary s g rdy with
      waited := g.waited + 1, sched := nextSched s g rdy
      ages := rdy.map fun l => (l, match g.ages.find? fun a => a.1 == l with
        | some a => a.2 + 1
        | none => 1)
      elig := if rdy.isEmpty || g.sched == .waiting then 0 else g.elig + 1 }

/-- Lets the first-ranked eligible groups of a core into the free places of its active set. -/
def fillCore (core : Nat) : Nat → State → State
  | 0, s => s
  | n + 1, s =>
    if activeMax ≤ (activeOn s core).length then s
    else
      let el := s.work.groups.filter fun g => g.core == core && g.sched == .eligible && mayIssue s g
      match bestOf s (el.map fun g => (g, g.ages.map (·.1))) with
      | none => s
      | some (g, _) => fillCore core n (s.modifyGroup g.uid fun x => { x with sched := .active, entered := s.cycles })

/-- CLOCK some ticks later: it counts in every state but RESET, where it stands at 0 (R402). -/
def clockAfter (s : State) (ticks : Nat) : Nat := if s.regs.boot = .reset then s.clock else s.clock + ticks

/-- The end of a cycle. -/
def tick (s : State) : State :=
  let s1 := { s with work := { s.work with groups := s.work.groups.map (tickGroup s) }, ported := [], cycles := s.cycles + 1, clock := clockAfter s 1 }
  (s1.work.groups.map (·.core)).foldl (fun s c => fillCore c activeMax s) s1

/-! ## Places (R125, R140) -/

/-- The free slots of a core, in order. -/
def freeSlotList (s : State) (core : Nat) : List Nat :=
  (List.range Config.slots).filter fun k =>
    !s.work.groups.any fun g => g.core == core && g.slot == k && !g.badEnd && resident s g.ctx

/-- The first run of n free segments of a core that begins at a multiple of a step. -/
def freeRun (s : State) (core n step : Nat) : Option Nat :=
  (List.range Config.segments).find? fun k =>
    k % step == 0 && decide (k + n ≤ Config.segments) && (List.range n).all fun j => segFree s core (k + j)

/-- The placement of one team on a core. -/
def placeOn (s : State) (l : Launch) (team core : Nat) : Option (List Placement) :=
  let slots := freeSlotList s core
  if slots.length < l.groupsPerTeam || s.regs.retCore.contains core then none
  else (if l.pond < 4096 then some 0 else freeRun s core (l.pond / 4096) l.step).map fun seg =>
    ((slots.take l.groupsPerTeam).zipIdx).map fun (k, j) =>
      { launch := l.uid, team := team, group := j, core := core, slot := k, seg := seg }

/-- The placement of teams, one after another, on the first cores of a list that take them. -/
def placeAll (l : Launch) (cores : List Nat) : List Nat → State → Option (List Placement)
  | [], _ => some []
  | t :: r, s =>
    match cores.findSome? (placeOn s l t) with
    | none => none
    | some ps => (placeAll l cores r (addTeams s l ps [t])).map (ps ++ ·)

/-- The sets of cores among which a launch's teams must lie together. -/
def coreChoices (l : Launch) : List (List Nat) :=
  let cores := List.range Config.cores
  if l.gang ∧ l.gclass = 0 then cores.map fun c => [c]
  else if l.gang ∧ l.gclass = 1 then (List.range Config.dies).map fun d => cores.filter fun c => dieOf c == d
  else [cores]

/-- The teams that a launch places next. -/
def teamsNext (l : Launch) : List Nat :=
  let left := (List.range l.total).filter fun t => !l.placed.contains t
  if l.gang then left else left.take 1

/-- A placement for the next team of a launch, or for a whole gang. -/
def autoPlace (s : State) (l : Launch) : Option (List Placement) :=
  (coreChoices l).findSome? fun cs => placeAll l cs (teamsNext l) s

/-! ## What the device does by itself -/

/-- Something that the device may do: one event of the opcode table. -/
abbrev Act := State → Host.Outcome State Fault Refusal

/-- The events of a group's own operations. -/
def groupEvents (g : Group) : List Act :=
  (List.range g.loads.length).map (execLoadValueReturn g.uid)
  ++ (List.range (g.stores.length + g.tiles.length)).map (execStorePerformed g.uid)
  ++ (if g.mmas.isEmpty then [] else [execMmaCompletion g.uid])
  ++ (if g.copies.isEmpty then [] else [execCopyCompletion g.uid])
  ++ (List.range g.copies.length).map (execCopyHalt g.uid)
  ++ (if g.frops.isEmpty then [] else [execRegionOperationCompletion g.uid])
  ++ (List.range g.frops.length).flatMap (fun n => [execSpringOperationArrival g.uid n, execBind g.uid n, execRebind g.uid n])
  ++ (List.range g.clops.length).map (execCollReadyPassed g.uid)
  ++ (if g.clops.isEmpty then [] else [execLeaseCompletion g.uid, execCollectiveCompletion g.uid { parts := [], fail := 0 }])
  ++ (if g.elig < promoteAfter then [] else [execEligibilityPromotion g.uid])

/-- The events of the regions. -/
def regionEvents (s : State) : List Act := s.work.regions.flatMap fun r => [execInstallEnd r.hdr, execRefitCommit r.hdr, execDemotionEnd r.hdr]

/-- The events of the contexts and launches. -/
def launchEvents (s : State) : List Act :=
  (s.ctxs.flatMap fun c => (if c.fqHeld.isEmpty then [] else [execFaultQueueEntryWrite c.num]) ++ (if c.state = .stopping then [execContextSave c.num] else []))
  ++ (s.work.launches.flatMap fun l =>
    (if watchdogDue s l then [execWatchdog l.uid] else [])
    ++ (if l.placed.length < l.total then (match autoPlace s l with
        | some ps => [execTeamPlacement l.uid ps]
        | none => []) else [])
    ++ (if l.total ≤ l.ended then [execLaunchCompletion l.uid] else []))

/-- The inlets whose next block may be taken. -/
def inletEvents (s : State) : List Act :=
  s.inlets.zipIdx.flatMap fun (n, k) => if inletBusy n then [execLaunchTake (BitVec.ofNat 6 k)] else []

/-- The command that runs; a DOMAIN of several members waits for what they answer. -/
def commandEvents (s : State) : List Act :=
  if s.regs.cmdState ≠ 1 then []
  else match s.regs.cmdCode.toNat with
    | 1 => [execCreate]
    | 2 => [execDestroy]
    | 3 => [execPreempt]
    | 4 => [execRestore []]
    | 5 => [execInval]
    | 6 => [execRetire]
    | 7 => [execCmdFqpop]
    | 8 => [execCmdLeaseGrant, execCmdLeaseRevoke, execCmdLeaseRegister]
    | 9 => if (memberTable s (cmdArgs s)).length ≤ 1 then [execDomain { ok := true, coord := 0, rin := 0, committed := 0 }] else []
    | _ => []

/-- The events of seals; the reports of other devices come from the agenda. -/
def sealEvents (s : State) : List Act :=
  let d := s.domain
  (if s.regs.sealPer ≠ 0 ∧ d.lastSeal + s.regs.sealPer.toNat * ticksPerMs ≤ s.clock then [execSealPeriod] else [])
  ++ (if (stallStart s).isSome then [execStallLimit] else [])
  ++ (if coordinates s && d.stage == 0 && (d.trigger || s.work.launches.any (sealDone s)) then [execSealTrigger] else [])
  ++ (if ageingDue s then [execRintagAgeing] else [])
  ++ (if sealStops s then [execPrepare d.interval] else [])
  ++ (if coordinates s && d.stage == 1 && d.passed && decide (d.members.length ≤ 1) then [execReady] else [])
  ++ (if coordinates s && d.stage == 1 then [execSealTimeout] else [])
  ++ (if d.stage == 2 then [execCommit d.interval] else [])
  ++ (if d.stage == 3 then [execAbort d.interval] else [])

/-- The leases that have reached their deadline. -/
def leaseEvents (s : State) : List Act :=
  (s.leases.filter fun l => !l.lender && l.state == 1 && decide (l.deadline ≤ s.clock)).map fun l =>
    execLeaseDeadline (BitVec.ofNat 10 l.dev) (BitVec.ofNat 16 l.num)

/-- Everything that the device itself might do next. -/
def deviceEvents (s : State) : List Act :=
  s.work.groups.flatMap groupEvents ++ regionEvents s ++ sealEvents s ++ leaseEvents s ++ launchEvents s ++ commandEvents s
  ++ (if s.records.held.isEmpty then [] else [execRecordWrite]) ++ inletEvents s

/-- The state after the first event of a list that changes anything. -/
def firstChange (s : State) : List Act → Option State
  | [] => none
  | i :: r =>
    match i s with
    | .next t => if t = s then firstChange s r else some t
    | _ => firstChange s r

/-! ## Steps -/

/-- Whether an entry of the opcode table is an event, with no encoding. -/
def isEvent (i : Instr) : Bool :=
  match i with
  | .illegalInstruction _ => false
  | _ => (encode i).isNone

/-- What the outside world does. -/
def applyInput (s : State) (x : Input) : State :=
  match x with
  | .clock ticks => { s with clock := clockAfter s ticks }
  | .hostStore pa data => { s with host := s.host.write pa data }
  | .peerStore dev pa data => { s with peer := s.peer.write (dev * 2 ^ 48 + pa) data }
  | .cmdArg val => if s.regs.boot = .ready then { s with regs := { s.regs with cmdArg := val } } else s
  | .memberError fatal moves => memberError s fatal moves

/-- An entry of the agenda. -/
def runItem (s : State) (x : Item) : Host.Outcome State Fault Refusal :=
  match x with
  | .event i => if isEvent i then exec i s else .next s
  | .input x => .next (applyInput s x)
  | .issue uid => issueGroup s uid

/-- What the device does by itself: in READY everything, before it only what its monitors make it do. -/
def ownEvents (s : State) : List Act := monitorEvents s ++ (if s.regs.boot = .ready then deviceEvents s else [])

/-- What the device does where the agenda says nothing: an event of its own, else, in READY, an issue, else the end of the cycle. -/
def runDevice (s : State) : Host.Outcome State Fault Refusal :=
  match firstChange s (ownEvents s) with
  | some t => .next t
  | none =>
    match (if s.regs.boot = .ready then bestOf s (candidates s) else none) with
    | some (g, rdy) => issueOne s g rdy
    | none => .next (tick s)

/-- One step of the machine. -/
def runStep (s : State) : Host.Outcome State Fault Refusal :=
  match s.agenda with
  | x :: r => runItem { s with agenda := r } x
  | [] => runDevice s

/-! ## Placing one instruction where the next step fetches it -/

/-- The context of a placed instruction. -/
def placedCtx (num : Nat) (snap : Memory) : Ctx :=
  { uid := 0, num := num, level := true, clmax := 1, weight := 8, root := 0x10000, fqBase := 0, fqCap := 1, fqWritten := 0, fqRead := 0, fqHeld := []
    saBase := 0, sealBase := 0, half := false, hasSeal := false, randseed := 0, rollbacks := 0, pinned := none, state := .running
    snap := snap, savedAt := 0, moves := [], dying := false }

/-- A role of one group with the largest budgets. -/
def placedRole : Role := { entry := 0, groups := 1, abud := 8, tbud := 16, sbud := 1024, vbud := 256 }

/-- The launch of a placed instruction: a gang of one team on one die. -/
def placedLaunch (uid ctx : Nat) : Launch :=
  { uid := uid, inlet := 0, ctx := ctx, prio := 0, gang := true, gclass := 1, immed := false, pond := 0, xm := 0, ym := 0, zm := 0
    argva := 0, doneva := 0, gpbase := 0, wdog := 0, roles := [placedRole], placed := [0], ended := 0, bad := false, done := none, start := some 0
    bars := List.replicate 32 freshBarrier, sealSave := [] }

/-- The team of a placed instruction. -/
def placedTeam (uid ctx launch : Nat) : Team :=
  { uid := uid, ctx := ctx, launch := launch, index := 0, core := 0, past := [], seg := 0, nseg := 0, ngroups := 1
    bars := List.replicate 16 freshBarrier }

/-- HBM with four tables that map address 0 to the page at 0x50000, which holds one word. -/
def placedHbm (m : Memory) (w : Nat) : Memory :=
  ((((m.writeNat 0x10000 16 (1 + 0x20000 * 2 ^ 64)).writeNat 0x20000 16 (1 + 0x30000 * 2 ^ 64)).writeNat 0x30000 16 (1 + 0x40000 * 2 ^ 64)).writeNat
    0x40000 16 (0xE01 + 0x50000 * 2 ^ 64)).writeNat 0x50000 4 w

/-- A number that no context has. -/
def unusedCtx (s : State) : Nat := s.ctxs.foldl (fun m c => max m (c.num + 1)) 0

/-- A READY device whose next step lets a new group, which no other ranks above, fetch and issue the word at its PC. -/
def placeWord (s : State) (w : Nat) : State :=
  let c := unusedCtx s
  let u := s.nextUid
  let hbm := placedHbm s.hbm w
  let g := { freshGroup u (placedLaunch (u + 1) c) 0 0 0 0 placedRole 0 with sched := .active, promoted := some 0 }
  { s with
    hbm := hbm, ctxs := s.ctxs ++ [placedCtx c hbm], nextUid := u + 3
    work := { s.work with
      groups := s.work.groups ++ [g], teams := s.work.teams ++ [placedTeam (u + 2) c (u + 1)], launches := s.work.launches ++ [placedLaunch (u + 1) c] }
    regs := { s.regs with boot := .ready }, domain := { s.domain with stage := 0 }, ported := [], agenda := .issue u :: s.agenda }

end Sys2Proof.Machine
end

