-- ==== Sys2Proof/Machine/Step.lean ====
section
/-! DEFINITION. One step of the machine, and the placing of one instruction where the next step fetches it. -/
namespace Sys2Proof.Machine

/-- One step: the next entry of the agenda, or what the device does by itself. -/
def step (s : State) : Host.Outcome State Fault Refusal := runStep s

/-- The state in which the next step fetches and runs the instruction with the low `nbits` bits w. -/
def State.withFetchWord (s : State) (nbits w : Nat) : State := placeWord s (w % 2 ^ nbits)

end Sys2Proof.Machine
end

