-- ==== Sys2Proof/Safety.lean ====
section
/-! DEFINITION. What claims about the machine are stated in: when a set issues an instruction, what a completed instruction may
change, and the canonical form that every step keeps. -/
namespace Sys2Proof.Machine

/-! ## Canonical states -/

/-- Every register table of a group is in canonical form. -/
def Group.canonical (g : Group) : Bool :=
  swf 0 g.v && swf 0 g.sreg && swf 0 g.tile && swf 0 g.tfmt && swf 0x7F g.rscale && swf 0 g.rspec && swf 0 g.acc && swf 0 g.atag
    && swf 0 g.astep

/-- The Pond memory of some work is in canonical form. -/
def Work.memoryWf (w : Work) : Bool := w.pond.wf

/-- The memory that a context keeps is in canonical form. -/
def Ctx.memoryWf (c : Ctx) : Bool := c.snap.wf

/-- Every memory that a snapshot holds is in canonical form. -/
def Snap.memoryWf (x : Snap) : Bool := x.work.memoryWf && x.ctxs.all Ctx.memoryWf

/-- The memory invariant: every byte memory of the machine, those of its snapshots among them, is in canonical form, so that
memories with equal contents are equal data. -/
def State.memoryWf (s : State) : Bool :=
  s.hbm.wf && s.host.wf && s.peer.wf && s.work.memoryWf && s.ctxs.all Ctx.memoryWf
    && (match s.snapCommitted with
        | some x => x.memoryWf
        | none => true)
    && (match s.snapPending with
        | some x => x.memoryWf
        | none => true)

/-! ## When an instruction issues normally -/

/-- The set `x` issues the instruction `i` in `s` and nothing keeps it from executing: `cur` names distinct lanes of a group of 64
threads (R128), no decode fault of R47 applies, no operand is still being produced (R131), and the group, whose V budget is one
that R11 allows, is not single-stepped (R142). -/
structure Issues (s : State) (x : Issue) (i : Instr) : Prop where
  current : currentIssue s = some x
  nodup   : x.lanes.Nodup
  inGroup : ∀ l ∈ x.lanes, l < x.g.threads.length
  width   : x.g.threads.length = Config.width
  tables  : x.g.canonical = true
  budget  : x.g.vbud ≤ 256
  decodes : decodeFault s x.g i ((encode i).getD 0) none = none
  settled : operandsPending x.g x.lanes i = false
  free    : stepping x.g = false

/-! ## What a completed instruction changes -/

/-- The group `g` after it has issued an instruction: the extension state is empty and the counts of R132 to R136 have moved on. -/
def afterInstr (x : Issue) (i : Instr) (g : Group) : Group :=
  { g with ext := [], issuing := [], choice := afterIssue g.choice x.lanes (yieldsOf i x.ext), waited := 0, elig := 0, promoted := none
           released := (0, 0) }

/-- The value that a list of writes leaves at a key. -/
def written {α : Type} (ws : List (Nat × α)) (k : Nat) (old : α) : α :=
  ws.foldl (fun v w => if w.1 = k then w.2 else v) old

/-- What the instruction writes in a lane: the members' results, the zeros of Z in the lanes that the guard turns off, and
nothing elsewhere (R56, R143). -/
def laneWrites (x : Issue) (i : Instr) (out : Nat → LaneOut) (lane : Nat) : LaneOut :=
  if lane ∈ x.members then out lane
  else if lane ∈ x.lanes ∧ x.ext.z = true then zeroOut i x.ext else {}

/-- `t` is `s` after the group of `x` has become `g` and nothing else has changed. -/
def OnlyGroup (s t : State) (x : Issue) (g : Group) : Prop := g.uid = x.uid ∧ t = { s.setGroup g with cur := none }

/-- A per-thread instruction has completed: each lane of the set holds the results `out` in its V registers and predicates, has its
flags in FPSTAT and stands at the next word; every other lane, register and state of the machine is as before. -/
def LaneStep (s t : State) (x : Issue) (i : Instr) (out : Nat → LaneOut) : Prop :=
  ∃ g, OnlyGroup s t x g
    ∧ g = { afterInstr x i x.g with v := g.v, threads := g.threads }
    ∧ (∀ l r, r < 256 → g.vget l r = written (laneWrites x i out l).v r (x.g.vget l r))
    ∧ (∀ l p, p < 12 → g.pget l p = written (laneWrites x i out l).p p (x.g.pget l p))
    ∧ (∀ l, g.thread l =
        if l ∈ x.lanes then
          { x.g.thread l with
            pc := (x.g.thread l).pc + 4, p := (g.thread l).p, fpstat := (x.g.thread l).fpstat ||| (laneWrites x i out l).flags
            randn := (laneWrites x i out l).randn.getD (x.g.thread l).randn }
        else x.g.thread l)

/-- The instruction, wherever it issues normally, completes with the results `out` in each member lane; `out` may read the machine. -/
def LaneResultIn (i : Instr) (out : State → Issue → Nat → LaneOut) : Prop :=
  ∀ s x, Issues s x i → ∃ t, exec i s = .next t ∧ LaneStep s t x i (out s x)

/-- The same for results that depend on the issue alone. -/
def LaneResult (i : Instr) (out : Issue → Nat → LaneOut) : Prop := LaneResultIn i fun _ => out

/-! ## Operands and results of the claims -/

/-- The 32-bit operand A of a lane (R31). -/
def opA (x : Issue) (l : Nat) (a : VReg) : Word := x.g.vget l (x.ext.vnum 11 a)
/-- The 32-bit operand B of a lane (R31). -/
def opB (x : Issue) (l : Nat) (b : VReg) : Word := x.g.vget l (x.ext.vnum 4 b)
/-- The 64-bit operand A of a lane (R12). -/
def pairA (x : Issue) (l : Nat) (a : VReg) : DWord := x.g.vpair l (x.ext.vnum 11 a)
/-- The 64-bit operand B of a lane (R12). -/
def pairB (x : Issue) (l : Nat) (b : VReg) : DWord := x.g.vpair l (x.ext.vnum 4 b)
/-- A 32-bit result in D. -/
def resD (x : Issue) (d : VReg) (v : Word) : LaneOut := { v := [(x.ext.vnum 18 d, v)] }
/-- A 64-bit result in the pair of D, low word first (R12). -/
def resPair (x : Issue) (d : VReg) (v : DWord) : LaneOut := { v := [(x.ext.vnum 18 d, loWord v), (x.ext.vnum 18 d + 1, hiWord v)] }
/-- A result in a predicate. -/
def resP (pd : PReg) (v : Bool) : LaneOut := { p := [(pd.toNat, v)] }

/-- S register of the D field of an S or SI word (R31). -/
def regSD (x : Issue) (d : SReg) : Nat := x.ext.snum 17 d.toNat
/-- The value of the S register in the A field of an S or SI word. -/
def opSA (x : Issue) (a : SReg) : Word := x.g.sregGet (x.ext.snum 9 a.toNat)
/-- The value of the S register in the B field of an S word. -/
def opSB (x : Issue) (b : SReg) : Word := x.g.sregGet (x.ext.snum 1 b.toNat)
/-- The 9-bit immediate of an SI word, or with its high bits in EXT.IMM (R36). -/
def immS (x : Issue) (imm : BitVec 9) : Int := x.ext.immediate 9 imm.toNat

/-- An integer brought into the range from lo to hi. -/
def clampInt (lo hi v : Int) : Int := max lo (min hi v)
/-- The 32-bit immediate of an instruction of 11 bits, sign-extended, or with its high bits in EXT.IMM (R36). -/
def immWord (x : Issue) (imm : BitVec 11) : Word := BitVec.ofInt 32 (x.ext.immediate 11 imm.toNat)

/-- An instruction of the whole set has completed: the group is `g` but that its issuing lanes stand at the next word and the
instruction is over; every other group and state of the machine is as before. -/
def SetStep (s t : State) (x : Issue) (i : Instr) (g : Group) : Prop :=
  OnlyGroup s t x
    { afterInstr x i g with threads := g.threads.zipIdx.map fun (th, l) => if l ∈ x.lanes then { th with pc := th.pc + 4 } else th }

/-- The instruction, wherever it issues normally under a condition on the state and the issue, completes with the group as `g` gives it. -/
def SetResult (i : Instr) (cond : State → Issue → Prop) (g : State → Issue → Group) : Prop :=
  ∀ s x, Issues s x i → cond s x → ∃ t, exec i s = .next t ∧ SetStep s t x i (g s x)

/-- No condition. -/
def always (_ : State) (_ : Issue) : Prop := True

/-- The machine after an instruction whose own effect is `u`: the issuing lanes of its group stand at the PCs that `target` gives
them, the instruction is over, and nothing else differs from `u`. -/
def movedTo (i : Instr) (x : Issue) (u : State) (target : Nat → DWord) : State :=
  { u.modifyGroup x.uid (fun g => { afterInstr x i g with
      threads := g.threads.zipIdx.map fun (th, l) => if l ∈ x.lanes then { th with pc := target l } else th }) with cur := none }

/-- The instruction, wherever it issues normally under a condition, completes with the effect `u` and goes on at `target`. -/
def MovesResult (i : Instr) (cond : State → Issue → Prop) (u : State → Issue → State) (target : State → Issue → Nat → DWord) : Prop :=
  ∀ s x, Issues s x i → cond s x → exec i s = .next (movedTo i x (u s x) (target s x))

/-- The machine after an instruction whose own effect is `u`: the issuing lanes of its group stand at the next word, the instruction
is over, and nothing else differs from `u`. -/
def completed (i : Instr) (x : Issue) (u : State) : State :=
  { u.modifyGroup x.uid (fun g => { afterInstr x i g with
      threads := g.threads.zipIdx.map fun (th, l) => if l ∈ x.lanes then { th with pc := th.pc + 4 } else th }) with cur := none }

/-- The instruction, wherever it issues normally under a condition, completes with the effect `u` on the machine. -/
def StateResult (i : Instr) (cond : State → Issue → Prop) (u : State → Issue → State) : Prop :=
  ∀ s x, Issues s x i → cond s x → exec i s = .next (completed i x (u s x))

end Sys2Proof.Machine
end

