-- ==== Sys2Proof/Certificates/Slice0/Obligations.lean ====
section
/-! DEFINITION. The statements about the machine that the provers settle. -/
namespace Sys2Proof.Machine

/-- The words of the claims about integers: R58's sum or difference of a width, exact, then modulo its width or clamped to it. -/
def sumOf (iw : IW) (sat : Bool) (v : Int) : Int :=
  if sat then
    match iw with
    | .i32 => clampInt (-2147483648) 2147483647 v
    | .n32 => clampInt 0 4294967295 v
    | .i64 => clampInt (-9223372036854775808) 9223372036854775807 v
    | .n64 => clampInt 0 18446744073709551615 v
  else v

/-- The integer that the operand words of a width hold (R57). -/
def intA (iw : IW) (x : Issue) (l : Nat) (a : VReg) : Int :=
  match iw with
  | .i32 => (opA x l a).toInt
  | .n32 => (opA x l a).toNat
  | .i64 => (pairA x l a).toInt
  | .n64 => (pairA x l a).toNat
/-- The same of operand B. -/
def intB (iw : IW) (x : Issue) (l : Nat) (b : VReg) : Int :=
  match iw with
  | .i32 => (opB x l b).toInt
  | .n32 => (opB x l b).toNat
  | .i64 => (pairB x l b).toInt
  | .n64 => (pairB x l b).toNat
/-- A result of a width, modulo 2 to that width, in D (R57). -/
def resInt (iw : IW) (x : Issue) (d : VReg) (v : Int) : LaneOut :=
  match iw with
  | .i32 | .n32 => resD x d (BitVec.ofInt 32 v)
  | .i64 | .n64 => resPair x d (BitVec.ofInt 64 v)

/-- Whether a width is signed. -/
def signedIw (iw : IW) : Bool :=
  match iw with
  | .i32 | .i64 => true
  | .n32 | .n64 => false

/-- The exact product of two words, signed or unsigned, as 64 bits. -/
def productOf (unsigned : Bool) (a b : Word) : DWord :=
  if unsigned then a.zeroExtend 64 * b.zeroExtend 64 else a.signExtend 64 * b.signExtend 64

/-- The quotient and the remainder of R59, before they are taken modulo 2 to the width. -/
def quotientOf (iw : IW) (a b : Int) : Int × Int :=
  let low : Int :=
    match iw with
    | .i32 => -2147483648
    | .i64 => -9223372036854775808
    | .n32 | .n64 => 0
  if b = 0 then (-1, a)
  else if signedIw iw ∧ a = low ∧ b = -1 then (low, 0)
  else (a.tdiv b, a - a.tdiv b * b)

/-- The lane results of a shift on 32 bits or on a pair (R61). -/
def resShift (wide : Bool) (x : Issue) (l : Nat) (d a b : VReg) (f32 : Word → Nat → Word) (f64 : DWord → Nat → DWord) : LaneOut :=
  let n := (opB x l b).toNat % 256
  if wide then resPair x d (f64 (pairA x l a) n) else resD x d (f32 (opA x l a) n)

/-- The relation of an ICMP code (R64). -/
def icmpHolds {w : Nat} (c : ICmp) (a b : BitVec w) : Bool :=
  match c with
  | .eq => a == b
  | .ne => a != b
  | .lt => a.slt b
  | .le => a.sle b
  | .gt => b.slt a
  | .ge => b.sle a
  | .ltn => a.ult b
  | .gen => b.ule a

/-- The bits of a word between two positions, low bit first, as a word. -/
def fieldWord (a : Word) (lo hi : Nat) : Word := BitVec.ofNat 32 (a.toNat / 2 ^ lo % 2 ^ (hi - lo))

/-! Floating-point words of the claims: `rounded`, `addVal` and their like are the helpers rn and exact of R8. -/

/-- The rational number that an exact value without a sticky remainder stands for. -/
def Exact.value (x : Exact) : ℚ := (if x.neg then -1 else 1) * x.m * (2 : ℚ) ^ x.e

/-- The value of a float operand in a lane, subnormals read as zero where FTZ is set (R101, R102). -/
def floatOf (x : Issue) (l : Nat) (ft : FT) (code : Nat) : FVal := (ftFmt ft).decode (ftzIn (ftzOf x l ft) (ftFmt ft) code)
/-- An exact result with its flags, rounded once under the lane's mode into D, and delivered under FTZ (R95, R101). -/
def resFloat (x : Issue) (l : Nat) (d : VReg) (ft : FT) (r : FVal × Word) : LaneOut :=
  outF x d ft (ftzOut (ftzOf x l ft) (ftFmt ft) (rounded (ftFmt ft) (modeOf x l 0) r))
/-- The low half or the pair that holds a float of a type, as bits. -/
def floatBits (ft : FT) (n : Nat) : Nat :=
  match ft with
  | .f16 | .bf16 => n % 65536
  | .f32 | .f64 => n

end Sys2Proof.Machine

open Sys2Proof Sys2Proof.Machine

/-- R58: IADD, ISUB, IMUL, IMIN, IMAX, IMULHI, IMULW and IADDI, wherever they issue normally, complete with the exact result modulo 2
to their width, or with .sat clamped to the range of the width. -/
def Obligations.IntegerArithmeticIsExact : Prop :=
  ∀ (iw : IW) (d a b : VReg) (u : Bool) (imm : BitVec 11),
    LaneResult (.iadd iw d a b) (fun x l => resInt iw x d (sumOf iw x.ext.sat (intA iw x l a + intB iw x l b)))
    ∧ LaneResult (.isub iw d a b) (fun x l => resInt iw x d (sumOf iw x.ext.sat (intA iw x l a - intB iw x l b)))
    ∧ LaneResult (.imul iw d a b) (fun x l => resInt iw x d (intA iw x l a * intB iw x l b))
    ∧ LaneResult (.imin iw d a b) (fun x l => resInt iw x d (min (intA iw x l a) (intB iw x l b)))
    ∧ LaneResult (.imax iw d a b) (fun x l => resInt iw x d (max (intA iw x l a) (intB iw x l b)))
    ∧ LaneResult (.imulhi u d a b) (fun x l => resD x d (hiWord (productOf u (opA x l a) (opB x l b))))
    ∧ LaneResult (.imulw u d a b) (fun x l => resPair x d (productOf u (opA x l a) (opB x l b)))
    ∧ LaneResult (.iaddi d a imm) (fun x l => resD x d
        (if x.ext.sat then BitVec.ofInt 32 (clampInt (-2147483648) 2147483647 ((opA x l a).toInt + x.ext.immediate 11 imm.toNat))
         else opA x l a + immWord x imm))

/-- R59: IDIV and IREM, wherever they issue normally, complete with the quotient and the remainder of the rule for every operand. -/
def Obligations.DivisionHasAResultForEveryOperand : Prop :=
  ∀ (iw : IW) (d a b : VReg),
    LaneResult (.idiv iw d a b) (fun x l => resInt iw x d (quotientOf iw (intA iw x l a) (intB iw x l b)).1)
    ∧ LaneResult (.irem iw d a b) (fun x l => resInt iw x d (quotientOf iw (intA iw x l a) (intB iw x l b)).2)

/-- R60: the logic instructions, in register and immediate form, complete with A op B on 32 bits. -/
def Obligations.LogicIsBitwise : Prop :=
  ∀ (d a b : VReg) (imm : BitVec 11),
    LaneResult (.and d a b) (fun x l => resD x d (opA x l a &&& opB x l b))
    ∧ LaneResult (.or d a b) (fun x l => resD x d (opA x l a ||| opB x l b))
    ∧ LaneResult (.xor d a b) (fun x l => resD x d (opA x l a ^^^ opB x l b))
    ∧ LaneResult (.andn d a b) (fun x l => resD x d (opA x l a &&& ~~~ opB x l b))
    ∧ LaneResult (.andi d a imm) (fun x l => resD x d (opA x l a &&& immWord x imm))
    ∧ LaneResult (.ori d a imm) (fun x l => resD x d (opA x l a ||| immWord x imm))
    ∧ LaneResult (.xori d a imm) (fun x l => resD x d (opA x l a ^^^ immWord x imm))

/-- R61: the shifts take their count from B[7:0] or from the immediate; a count of the width or more gives 0, or the sign for SAR, and
ROL takes it modulo the width. -/
def Obligations.ShiftsTakeEveryCount : Prop :=
  ∀ (wide : Bool) (d a b : VReg) (cnt : BitVec 5),
    LaneResult (.shl wide d a b) (fun x l => resShift wide x l d a b (fun v n => v <<< n) (fun v n => v <<< n))
    ∧ LaneResult (.shr wide d a b) (fun x l => resShift wide x l d a b (fun v n => v >>> n) (fun v n => v >>> n))
    ∧ LaneResult (.sar wide d a b) (fun x l => resShift wide x l d a b (fun v n => v.sshiftRight n) (fun v n => v.sshiftRight n))
    ∧ LaneResult (.rol wide d a b) (fun x l => resShift wide x l d a b (fun v n => v.rotateLeft n) (fun v n => v.rotateLeft n))
    ∧ LaneResult (.shli d a cnt) (fun x l => resD x d (opA x l a <<< cnt.toNat))
    ∧ LaneResult (.shri d a cnt) (fun x l => resD x d (opA x l a >>> cnt.toNat))
    ∧ LaneResult (.sari d a cnt) (fun x l => resD x d ((opA x l a).sshiftRight cnt.toNat))
    ∧ LaneResult (.roli d a cnt) (fun x l => resD x d ((opA x l a).rotateLeft cnt.toNat))

/-- R62: BFE and BFI take the position from B[7:0] and the length from B[15:8], cut off at bit 32. -/
def Sys2Proof.Machine.Claim.BitFieldsEndAtTheWord : Prop :=
  ∀ (u : Bool) (d a b : VReg),
    LaneResult (.bfe u d a b) (fun x l =>
      let p := (opB x l b).toNat % 256
      let k := (opB x l b).toNat / 256 % 256
      let e := min (p + k) 32
      resD x d
        (if k = 0 ∨ 32 ≤ p then 0
         else if u then fieldWord (opA x l a) p e
         else (fieldWord (opA x l a) p e <<< (32 - (e - p))).sshiftRight (32 - (e - p))))
    ∧ LaneResult (.bfi d a b) (fun x l =>
      let p := (opB x l b).toNat % 256
      let k := (opB x l b).toNat / 256 % 256
      let e := min (p + k) 32
      let old := x.g.vget l (x.ext.vnum 18 d)
      resD x d (if k = 0 ∨ 32 ≤ p then old else BitVec.ofFnLE fun j : Fin 32 => if p ≤ j.val ∧ j.val < e then (opA x l a).getLsbD (j.val - p) else old.getLsbD j.val))

/-- R63: POPC, CLZ, CTZ and BREV on 32 bits. -/
def Sys2Proof.Machine.Claim.BitCountsAndReversal : Prop :=
  ∀ (d a : VReg),
    LaneResult (.popc d a) (fun x l => resD x d (BitVec.ofNat 32 ((List.range 32).countP fun j => (opA x l a).getLsbD j)))
    ∧ LaneResult (.clz d a) (fun x l => resD x d (BitVec.ofNat 32 (((List.range 32).find? fun j => (opA x l a).getLsbD (31 - j)).getD 32)))
    ∧ LaneResult (.ctz d a) (fun x l => resD x d (BitVec.ofNat 32 (((List.range 32).find? fun j => (opA x l a).getLsbD j).getD 32)))
    ∧ LaneResult (.brev d a) (fun x l => resD x d (opA x l a).reverse)

/-- R64 to R67: compares write their predicate, predicates combine, and SEL chooses by a predicate of the thread. -/
def Sys2Proof.Machine.Claim.ComparesPredicatesAndSelect : Prop :=
  ∀ (wide : Bool) (c : ICmp) (pd pa pb ps : PReg) (d a b : VReg) (imm : BitVec 11),
    LaneResult (.icmpp wide c pd a b) (fun x l => resP pd
      (if wide then icmpHolds c (pairA x l a) (pairB x l b) else icmpHolds c (opA x l a) (opB x l b)))
    ∧ LaneResult (.icmppi c pd a imm) (fun x l => resP pd (icmpHolds c (opA x l a) (immWord x imm)))
    ∧ LaneResult (.pand pd pa pb) (fun x l => resP pd (x.g.pget l pa.toNat && x.g.pget l pb.toNat))
    ∧ LaneResult (.por pd pa pb) (fun x l => resP pd (x.g.pget l pa.toNat || x.g.pget l pb.toNat))
    ∧ LaneResult (.pxor pd pa pb) (fun x l => resP pd (x.g.pget l pa.toNat ^^ x.g.pget l pb.toNat))
    ∧ LaneResult (.pandn pd pa pb) (fun x l => resP pd (x.g.pget l pa.toNat && !x.g.pget l pb.toNat))
    ∧ LaneResult (.sel ps d a b) (fun x l => resD x d (if x.g.pget l ps.toNat then opA x l a else opB x l b))

/-- R68, R69: MOVI, LEA and LEAI. -/
def Sys2Proof.Machine.Claim.MovesAndAddresses : Prop :=
  ∀ (sx : Bool) (sh : BitVec 3) (d a b : VReg) (imm : BitVec 11),
    LaneResult (.movi d imm) (fun x _ => resD x d (immWord x imm))
    ∧ LaneResult (.lea sx sh d a b) (fun x l => resPair x d
        (pairA x l a + ((if sx then (opB x l b).signExtend 64 else (opB x l b).zeroExtend 64) <<< sh.toNat)))
    ∧ LaneResult (.leai d a imm) (fun x l => resPair x d (pairA x l a + BitVec.ofInt 64 (x.ext.immediate 11 imm.toNat)))

/-- R106 to R108: the arithmetic and elementary float instructions complete with the exact result of the operand values rounded once,
with the flags of that rounding. -/
def Obligations.FloatArithmeticRoundsOnce : Prop :=
  ∀ (ft : FT) (d a b : VReg),
    let va := fun x l => floatOf x l ft (fA x l a ft)
    let vb := fun x l => floatOf x l ft (fB x l b ft)
    let v32 := fun x l => floatOf x l .f32 (fA x l a .f32)
    let addend := fun (x : Issue) l => floatOf x l ft (ftCode ft (vnat x l (x.ext.q?.getD (x.ext.vnum 18 d)) ft.regs))
    LaneResult (.fadd ft d a b) (fun x l => resFloat x l d ft (addVal (modeOf x l 0) (va x l) (vb x l)))
    ∧ LaneResult (.fsub ft d a b) (fun x l => resFloat x l d ft (addVal (modeOf x l 0) (va x l) (negVal (vb x l))))
    ∧ LaneResult (.fmul ft d a b) (fun x l => resFloat x l d ft (mulVal (va x l) (vb x l)))
    ∧ LaneResult (.ffma ft d a b) (fun x l => resFloat x l d ft (fmaVal (modeOf x l 0) (va x l) (vb x l) (addend x l)))
    ∧ LaneResult (.fdiv ft d a b) (fun x l => resFloat x l d ft (divVal (va x l) (vb x l)))
    ∧ LaneResult (.fsqrt ft d a) (fun x l => resFloat x l d ft (sqrtVal (va x l)))
    ∧ LaneResult (.frcp ft d a) (fun x l => resFloat x l d ft (rcpVal (va x l)))
    ∧ LaneResult (.frsq ft d a) (fun x l => resFloat x l d ft (rsqVal (va x l)))
    ∧ LaneResult (.exp2 d a) (fun x l => resFloat x l d .f32 (exp2Val (v32 x l)))
    ∧ LaneResult (.log2 d a) (fun x l => resFloat x l d .f32 (log2Val (v32 x l)))
    ∧ LaneResult (.sin d a) (fun x l => resFloat x l d .f32 (trigVal sinExact (v32 x l)))
    ∧ LaneResult (.cos d a) (fun x l => resFloat x l d .f32 (trigVal cosExact (v32 x l)))

namespace Sys2Proof.Machine

/-- A value that is a number, without a sticky remainder. -/
def FVal.isNumber : FVal → Prop
  | .fin x => x.sticky = false
  | .inf _ => True
  | .nan _ => False

/-- A value that is a NaN. -/
def FVal.isNan (a : FVal) : Prop := a = .nan false ∨ a = .nan true

/-- Where a number stands: an infinity before or after every finite one. -/
def FVal.rank : FVal → Int × ℚ
  | .fin x => (0, x.value)
  | .inf neg => (if neg then -1 else 1, 0)
  | .nan _ => (0, 0)

/-- One number is less than another; the zeros are equal. -/
def FVal.below (a b : FVal) : Prop := a.rank.1 < b.rank.1 ∨ a.rank.1 = b.rank.1 ∧ a.rank.2 < b.rank.2

/-- One number is less than another, and −0 less than +0. -/
def FVal.precedes (a b : FVal) : Prop :=
  a.below b ∨ ∃ x y, a = .fin x ∧ b = .fin y ∧ x.value = 0 ∧ y.value = 0 ∧ x.neg = true ∧ y.neg = false

/-- R110: what a compare says of two numbers and of operands of which one is a NaN, and when it sets NV. -/
def Claim.ComparesFollowTheirTable : Prop :=
  ∀ (c : FCmp) (a b : FVal),
    (a.isNumber → b.isNumber → (fcmp c a b).2 = 0 ∧ ((fcmp c a b).1 = true ↔ match c with
      | .eq => ¬ a.below b ∧ ¬ b.below a
      | .ne => a.below b ∨ b.below a
      | .lt => a.below b
      | .le => ¬ b.below a
      | .gt => b.below a
      | .ge => ¬ a.below b
      | .un => False
      | .ord => True))
    ∧ (a.isNan ∨ b.isNan → ((fcmp c a b).1 = true ↔ c = .ne ∨ c = .un)
        ∧ (fcmp c a b).2 = if a = .nan true ∨ b = .nan true ∨ c ∈ [FCmp.lt, .le, .gt, .ge] then flagNV else 0)

/-- R109: the lesser or the greater operand, the other one where one is a NaN, and the canonical NaN where both are. -/
def Claim.MinimaCopyTheirOperand : Prop :=
  ∀ (ft : FT) (isMax : Bool) (ca cb : Nat),
    let f := ftFmt ft
    let r := minMaxCode f isMax ca cb
    ((f.decode ca).isNan → (f.decode cb).isNan → r = f.nanCode)
    ∧ ((f.decode ca).isNan → ¬ (f.decode cb).isNan → r = cb) ∧ (¬ (f.decode ca).isNan → (f.decode cb).isNan → r = ca)
    ∧ (¬ (f.decode ca).isNan → ¬ (f.decode cb).isNan → (r = ca ∨ r = cb)
        ∧ ∀ k ∈ [ca, cb], if isMax then ¬ (f.decode r).precedes (f.decode k) else ¬ (f.decode k).precedes (f.decode r))

/-- R111: the class of a code, by its exponent and its mantissa. -/
def Claim.ClassesFollowTheirTable : Prop :=
  ∀ (ft : FT) (c : Nat),
    let f := ftFmt ft
    let man := c % 2 ^ f.mbits
    let ex := c / 2 ^ f.mbits % 2 ^ f.ebits
    let bySign := fun (minus plus : Nat) => if c / 2 ^ (f.mbits + f.ebits) = 1 then minus else plus
    c < 2 ^ (f.mbits + f.ebits + 1) → classOf f c = 2 ^
      (if ex = 2 ^ f.ebits - 1 then (if man = 0 then bySign 0 7 else if man < 2 ^ (f.mbits - 1) then 8 else 9)
       else if ex = 0 then (if man = 0 then bySign 3 4 else bySign 2 5) else bySign 1 6)

end Sys2Proof.Machine

/-- R109 to R112: minimum and maximum copy an operand, compares write a predicate, and the class and sign instructions work on bits. -/
def Obligations.FloatComparesAndSigns : Prop :=
  Claim.ComparesFollowTheirTable ∧ Claim.MinimaCopyTheirOperand ∧ Claim.ClassesFollowTheirTable
  ∧ ∀ (ft : FT) (c : FCmp) (pd : PReg) (d a b : VReg),
    let f := ftFmt ft
    let ca := fun x l => ftzIn (ftzOf x l ft) f (fA x l a ft)
    let cb := fun x l => ftzIn (ftzOf x l ft) f (fB x l b ft)
    let sign := 2 ^ (f.ebits + f.mbits)
    LaneResult (.fmin ft d a b) (fun x l => outF x d ft ⟨minMaxCode f false (ca x l) (cb x l), sigFlag (f.decode (ca x l)) ||| sigFlag (f.decode (cb x l))⟩)
    ∧ LaneResult (.fmax ft d a b) (fun x l => outF x d ft ⟨minMaxCode f true (ca x l) (cb x l), sigFlag (f.decode (ca x l)) ||| sigFlag (f.decode (cb x l))⟩)
    ∧ LaneResult (.fcmpp ft c pd a b) (fun x l =>
        { p := [(pd.toNat, (fcmp c (f.decode (ca x l)) (f.decode (cb x l))).1)], flags := (fcmp c (f.decode (ca x l)) (f.decode (cb x l))).2 })
    ∧ LaneResult (.fclass ft d a) (fun x l => resD x d (BitVec.ofNat 32 (classOf f (fA x l a ft))))
    ∧ LaneResult (.fabs ft d a) (fun x l => outD x d ft.regs (floatBits ft (srcA x l a ft.regs) &&& (sign - 1)))
    ∧ LaneResult (.fneg ft d a) (fun x l => outD x d ft.regs (floatBits ft (srcA x l a ft.regs) ^^^ sign))
    ∧ LaneResult (.fcpys ft d a b) (fun x l =>
        outD x d ft.regs ((floatBits ft (srcA x l a ft.regs) &&& (sign - 1)) ||| (floatBits ft (srcB x l b ft.regs) &&& sign)))

/-- R113 to R116: conversions between float types and integers, FSCALE and FRND; CVTF under RSTO takes one draw of the thread. -/
def Sys2Proof.Machine.Claim.FloatConversions : Prop :=
  ∀ (src dst : FT) (iw : IW) (d a b : VReg),
    let v := fun x l => (ftFmt src).decode (fA x l a src)
    let range : Int × Int :=
      match iw with
      | .i32 => (-2147483648, 2147483647)
      | .n32 => (0, 4294967295)
      | .i64 => (-9223372036854775808, 9223372036854775807)
      | .n64 => (0, 18446744073709551615)
    LaneResultIn (.cvtf src dst d a) (fun s x l =>
      let md := modeOf x l (drawOf s x.g l 0)
      let c := deliver (ftFmt dst) md x.ext.sat (v x l)
      { outF x d dst c with
        flags := c.flags ||| sigFlag (v x l)
        randn := if md.code = 5 then some ((x.g.thread l).randn + 1) else none })
    ∧ LaneResult (.cvtfi src iw d a) (fun x l =>
        let r := deliverInt range.1 range.2 (modeOf x l 0) (v x l)
        { resInt iw x d r.1 with flags := r.2 })
    ∧ LaneResult (.cvtif iw dst d a) (fun x l => outF x d dst (roundTo (ftFmt dst) (modeOf x l 0) false (Exact.ofInt (intA iw x l a))))
    ∧ LaneResult (.fscale src d a b) (fun x l =>
        let c := deliver (ftFmt src) (modeOf x l 0) false (scaleVal (v x l) (opB x l b).toInt)
        outF x d src ⟨c.code, c.flags ||| sigFlag (v x l)⟩)
    ∧ LaneResult (.frnd src d a) (fun x l => outF x d src (roundIntegral (ftFmt src) (modeOf x l 0) (fA x l a src)))

/-- R118 to R120: the error-free and double-word instructions complete with both parts of their result. -/
def Obligations.ErrorFreeAndDoubleWord : Prop :=
  ∀ (fw : FW) (d a b : VReg),
    let f := fwFmt fw
    let ca := fun x l => srcA x l a fw.regs
    let cb := fun x l => srcB x l b fw.regs
    let p := fun (x : Issue) l => dwSrc x l (x.ext.vnum 11 a) fw
    let q := fun (x : Issue) l => dwSrc x l (x.ext.vnum 4 b) fw
    let o := fun (x : Issue) l => dwSrc x l (x.ext.vnum 18 d) fw
    LaneResult (.faddx fw d a b) (fun x l => outPair x d fw (twosum f (ca x l) (cb x l)))
    ∧ LaneResult (.fsubx fw d a b) (fun x l => outPair x d fw (twosum f (ca x l) (flipSign f (cb x l))))
    ∧ LaneResult (.fmulx fw d a b) (fun x l => outPair x d fw (twoprod f (ca x l) (cb x l)))
    ∧ LaneResult (.dwadd fw d a b) (fun x l => outPair x d fw
        (dwResult f (dwAdd f (p x l) (q x l)) [(p x l).1, (p x l).2, (q x l).1, (q x l).2]))
    ∧ LaneResult (.dwsub fw d a b) (fun x l => outPair x d fw
        (dwResult f (dwAdd f (p x l) (flipSign f (q x l).1, flipSign f (q x l).2)) [(p x l).1, (p x l).2, (q x l).1, (q x l).2]))
    ∧ LaneResult (.dwmul fw d a b) (fun x l => outPair x d fw
        (dwResult f (dwMul f (p x l) (q x l)) [(p x l).1, (p x l).2, (q x l).1, (q x l).2]))
    ∧ LaneResult (.dwfma fw d a b) (fun x l =>
        let m := dwMul f (p x l) (q x l)
        let r := dwAdd f (m.hi, m.lo) (o x l)
        outPair x d fw (dwResult f ⟨r.hi, r.lo, m.flags ||| r.flags⟩ [(p x l).1, (p x l).2, (q x l).1, (q x l).2, (o x l).1, (o x l).2]))
    ∧ LaneResult (.dwnorm fw d a) (fun x l => outPair x d fw (dwResult f (twosum f (p x l).1 (p x l).2) [(p x l).1, (p x l).2]))

/-- R117: PACK converts FP32 registers to the elements of one word, and UNPK a word to FP32 registers. -/
def Sys2Proof.Machine.Claim.PackingConvertsElementwise : Prop :=
  ∀ (nf : NF) (d a b : VReg),
    LaneResultIn (.pack nf d a b) (fun s x l =>
      let elem := fun k => encodeScaled (nfCode nf) ((opB x l b).toNat % 256) (modeOf x l (drawOf s x.g l k)) x.ext.sat
        (fp32.decode (x.g.vget l (x.ext.vnum 11 a + k)).toNat)
      { v := [(x.ext.vnum 18 d, BitVec.ofNat 32 (((List.range nf.count).map fun k => (elem k).code % 2 ^ nfWidth nf * 2 ^ (nfWidth nf * k)).sum))]
        flags := (List.range nf.count).foldl (fun f k => f ||| (elem k).flags) 0
        randn := if (modeOf x l 0).code = 5 then some ((x.g.thread l).randn + BitVec.ofNat 64 nf.count) else none })
    ∧ LaneResult (.unpk nf d a b) (fun x l =>
      let elem := fun k => unpackElem nf (modeOf x l 0) ((opB x l b).toNat % 256) ((opB x l b).toNat / 256 % 256)
        ((opA x l a).toNat / 2 ^ (nfWidth nf * k) % 2 ^ nfWidth nf)
      { v := (List.range nf.count).map fun k => (x.ext.vnum 18 d + k, BitVec.ofNat 32 (elem k).code)
        flags := (List.range nf.count).foldl (fun f k => f ||| (elem k).flags) 0 })

/-- R145, R146, R149: the uniform instructions act once for the set on S registers; SCMPP and PMOV write predicates of its threads. -/
def Sys2Proof.Machine.Claim.UniformInstructionsActOnce : Prop :=
  ∀ (d a b : SReg) (imm : BitVec 9),
    let put := fun (v : Issue → Word) (_ : State) (x : Issue) => x.g.sregPut (regSD x d) (v x)
    SetResult (.sadd d a b) always (put fun x => opSA x a + opSB x b)
    ∧ SetResult (.ssub d a b) always (put fun x => opSA x a - opSB x b)
    ∧ SetResult (.smul d a b) always (put fun x => opSA x a * opSB x b)
    ∧ SetResult (.smulhi d a b) always (put fun x => hiWord ((opSA x a).zeroExtend 64 * (opSB x b).zeroExtend 64))
    ∧ SetResult (.sand d a b) always (put fun x => opSA x a &&& opSB x b)
    ∧ SetResult (.sor d a b) always (put fun x => opSA x a ||| opSB x b)
    ∧ SetResult (.sxor d a b) always (put fun x => opSA x a ^^^ opSB x b)
    ∧ SetResult (.sandn d a b) always (put fun x => opSA x a &&& ~~~ opSB x b)
    ∧ SetResult (.sshl d a b) always (put fun x => opSA x a <<< ((opSB x b).toNat % 256))
    ∧ SetResult (.sshr d a b) always (put fun x => opSA x a >>> ((opSB x b).toNat % 256))
    ∧ SetResult (.smin d a b) always (put fun x => if (opSA x a).sle (opSB x b) then opSA x a else opSB x b)
    ∧ SetResult (.smax d a b) always (put fun x => if (opSA x a).sle (opSB x b) then opSB x b else opSA x a)
    ∧ SetResult (.saddi d a imm) always (put fun x => opSA x a + BitVec.ofInt 32 (immS x imm))
    ∧ SetResult (.smovi d imm) always (put fun x => BitVec.ofInt 32 (immS x imm))

/-- R146, R149: SCMPP, MOVSV, MOVVS and both forms of PMOV. -/
def Sys2Proof.Machine.Claim.MovesBetweenRegisterClasses : Prop :=
  ∀ (c : ICmp) (pd : PReg) (d a : VReg) (sa sb : SReg) (ms : SReg7),
    SetResult (.scmpp c pd sa sb) always (fun _ x => x.lanes.foldl (fun g l => g.pput l pd.toNat (icmpHolds c (opSA x sa) (opSB x sb))) x.g)
    ∧ LaneResult (.movsv d ms) (fun x _ => resD x d (x.g.sregGet (x.ext.snum 11 ms.toNat)))
    ∧ SetResult (.movvs ms a) always (fun _ x =>
        match x.members with
        | l :: _ => x.g.sregPut (x.ext.snum 18 ms.toNat) (opA x l a)
        | [] => if x.ext.z then x.g.sregPut (x.ext.snum 18 ms.toNat) 0 else x.g)
    ∧ LaneResult (.pmovToV d) (fun x l => resD x d ((x.g.thread l).p.zeroExtend 32))
    ∧ SetResult (.pmovToP a) always (fun _ x =>
        { x.g with threads := x.g.threads.zipIdx.map fun (th, l) =>
            if l ∈ x.members then { th with p := (opA x l a).truncate 12 }
            else if l ∈ x.lanes ∧ x.ext.z = true then { th with p := 0 } else th })

/-- R150, R151: LGET reads the lane it names where that lane is a member of the same segment, and the votes see every member. -/
def Obligations.ShufflesAndVotes : Prop :=
  ∀ (d a b : VReg) (pd ps : PReg),
    let yes := fun (x : Issue) => x.members.filter fun l => x.g.pget l ps.toNat
    let seg := fun (x : Issue) l => let g := (opB x l b).toNat / 256 % 16; if 1 ≤ g ∧ g ≤ 6 then 2 ^ g else 64
    let from_ := fun (x : Issue) (l : Nat) (src : Int) =>
      let k : Nat := l / seg x l * seg x l + src.toNat
      if 0 ≤ src ∧ src < (seg x l : Int) ∧ k ∈ x.members then k else l
    let n := fun (x : Issue) l => (opB x l b).toNat % 256
    let pos := fun (x : Issue) l => l % seg x l
    LaneResult (.lgetAbs d a b) (fun x l => resD x d (opA x (from_ x l (n x l)) a))
    ∧ LaneResult (.lgetBelow d a b) (fun x l => resD x d (opA x (from_ x l ((pos x l : Int) - n x l)) a))
    ∧ LaneResult (.lgetAbove d a b) (fun x l => resD x d (opA x (from_ x l (pos x l + n x l)) a))
    ∧ LaneResult (.lgetFlip d a b) (fun x l => resD x d (opA x (from_ x l ((pos x l ^^^ n x l : Nat) : Int)) a))
    ∧ LaneResult (.lany pd ps) (fun x _ => resP pd (!(yes x).isEmpty))
    ∧ LaneResult (.lall pd ps) (fun x _ => resP pd (x.members.all fun l => x.g.pget l ps.toNat))
    ∧ LaneResult (.lmask d ps) (fun x _ => resPair x d (laneMask (yes x)))
    ∧ LaneResult (.llead pd) (fun x l => resP pd (x.members.head? == some l))

/-- R152: a reduction gives every member the combination of all members' values. -/
def Sys2Proof.Machine.Claim.IntegerReductionsCombineEveryMember : Prop :=
  ∀ (d a : VReg),
    let red := fun (f : Word → Word → Word) (x : Issue) =>
      match x.members.map fun l => opA x l a with
      | [] => (0 : Word)
      | v :: r => r.foldl f v
    LaneResult (.rediAddI32 d a) (fun x _ => resD x d (red (· + ·) x))
    ∧ LaneResult (.rediMinI32 d a) (fun x _ => resD x d (red (fun v w => if v.sle w then v else w) x))
    ∧ LaneResult (.rediMaxI32 d a) (fun x _ => resD x d (red (fun v w => if v.sle w then w else v) x))
    ∧ LaneResult (.rediMinN32 d a) (fun x _ => resD x d (red (fun v w => if v.ule w then v else w) x))
    ∧ LaneResult (.rediMaxN32 d a) (fun x _ => resD x d (red (fun v w => if v.ule w then w else v) x))
    ∧ LaneResult (.rediAnd d a) (fun x _ => resD x d (red (· &&& ·) x))
    ∧ LaneResult (.rediOr d a) (fun x _ => resD x d (red (· ||| ·) x))
    ∧ LaneResult (.rediXor d a) (fun x _ => resD x d (red (· ^^^ ·) x))

namespace Sys2Proof.Machine

/-- R118, R120: what a double-word addition delivers, and its flags: NV from a signalling component or a step that is invalid, OF and IX where
finite components give a result that is not finite, and no other. -/
def dwSum (f : FloatFmt) (x y : Nat × Nat) : (Nat × Nat) × Word :=
  let s := twosum f x.1 y.1
  let t := twosum f x.2 y.2
  let c := rnAdd f s.lo t.hi
  let v := twosum f s.hi c.code
  let w := rnAdd f t.lo v.lo
  let z := twosum f v.hi w.code
  let parts := [x.1, x.2, y.1, y.2].map f.decode
  let nv := (parts.any fun p => p == .nan true) || ([s.flags, t.flags, c.flags, v.flags, w.flags, z.flags].any fun k => k.getLsbD 4)
  let fin := (f.decode z.hi).isFin
  ((z.hi, if fin then z.lo else f.nanCode), (if nv then 0x10#32 else 0) ||| if !fin && parts.all FVal.isFin then 5#32 else 0)

/-- R95, R99, R152, R154: one combine of REDF is the exact sum rounded once, with the canonical NaN for an invalid sum or a NaN; one of REDX is
DWADD; and the combines follow the tree of a reduction and the order of a scan, in which an absent operand takes no part. -/
def Claim.CombinesFollowTheirTable : Prop :=
  (∀ (fw : FW) (md : Mode) (x y : RVal),
    let f := fwFmt fw
    let a := f.decode x.1
    let b := f.decode y.1
    let gives := fun (c : Coded) => addComb f md x y = ((c.code, 0), c.flags)
    (∀ u v, a = .fin u → b = .fin v → ∃ z : Exact, z.sticky = false ∧ z.value = u.value + v.value
        ∧ (z.value = 0 → z.neg = if u.neg = v.neg then u.neg else decide (md.code = 3)) ∧ gives (roundTo f md false z))
    ∧ (a.isNan ∨ b.isNan → gives ⟨f.nanCode, if a = .nan true ∨ b = .nan true then flagNV else 0⟩)
    ∧ (∀ neg, a = .inf neg → b = .inf (!neg) → gives ⟨f.nanCode, flagNV⟩)
    ∧ (∀ neg, (a = .inf neg ∧ (b = .inf neg ∨ ∃ v, b = .fin v)) ∨ (b = .inf neg ∧ ∃ u, a = .fin u) → gives ⟨f.infCode neg, 0⟩)
    ∧ dwComb f x y = dwSum f x y)
  ∧ ∀ (op : Comb) (opt : Nat → Option RVal) (src : Nat → RVal),
    let comb := fun (x y : Option RVal × Word) => match x, y with
      | (none, k), (v, l) => (v, k ||| l)
      | (some v, k), (none, l) => (some v, k ||| l)
      | (some v, k), (some w, l) => (some (op v w).1, k ||| l ||| (op v w).2)
    (∀ i, reduceTree op opt 0 i = (opt i, 0))
    ∧ (∀ s i, reduceTree op opt (s + 1) i = comb (reduceTree op opt s i) (reduceTree op opt s (i ^^^ 2 ^ s)))
    ∧ ∀ l r acc, ∃ v, (comb acc (some (src l), 0)).1 = some v
        ∧ scanFrom op src (l :: r) acc = (l, acc.1, v, (comb acc (some (src l), 0)).2) :: scanFrom op src r (comb acc (some (src l), 0))

end Sys2Proof.Machine

/-- R152, R154: float reductions follow the tree of R152, and scans the rising order of the members. -/
def Sys2Proof.Machine.Claim.TreeReductionsAndScans : Prop :=
  Claim.CombinesFollowTheirTable
  ∧ ∀ (fw : FW) (d a : VReg),
    let f := fwFmt fw
    let tree := fun (op : Comb) (src : Nat → RVal) (x : Issue) =>
      reduceTree op (fun l => if l ∈ x.members then some (src l) else none) 6 0
    let upTo := fun (x : Issue) l => ((x.members.takeWhile fun k => k != l).map fun k => opA x k a).foldl (· + ·) (0 : Word)
    let prefix_ := fun (op : Comb) (src : Nat → RVal) (x : Issue) l => (scanFrom op src x.members (none, 0)).find? fun (k, _) => k == l
    LaneResult (.redf fw d a) (fun x _ =>
      let r := tree (addComb f (groupMode x)) (fun l => (srcA x l a fw.regs, 0)) x
      { v := wordOut d fw.regs x (r.1.getD (0, 0)), flags := r.2 })
    ∧ LaneResult (.redx fw d a) (fun x _ =>
      let r := tree (dwComb f) (fun l => dwSrc x l (x.ext.vnum 11 a) fw) x
      { v := dwOut d fw x (r.1.getD (0, 0)), flags := r.2 })
    ∧ LaneResult (.scaniAddI32 d a) (fun x l => if l ∈ x.members then resD x d (upTo x l + opA x l a) else {})
    ∧ LaneResult (.scaniAddI32Excl d a) (fun x l => if l ∈ x.members then resD x d (upTo x l) else {})
    ∧ LaneResult (.scanfF32 d a) (fun x l =>
      match prefix_ (addComb fp32 (groupMode x)) (fun l => (srcA x l a 1, 0)) x l with
      | some (_, _, r, flags) => { v := wordOut d 1 x r, flags := flags }
      | none => {})
    ∧ LaneResult (.scanxF32 d a) (fun x l =>
      match prefix_ (dwComb fp32) (fun l => dwSrc x l (x.ext.vnum 11 a) .f32) x l with
      | some (_, _, r, flags) => { v := dwOut d .f32 x r, flags := flags }
      | none => {})

/-- R156: RAND writes the next draws of the thread and moves its counter on by as many. -/
def Sys2Proof.Machine.Claim.RandTakesTheNextDraws : Prop :=
  ∀ (d : VReg),
    LaneResultIn (.randN32 d) (fun s x l =>
      { resD x d (BitVec.ofNat 32 (drawOf s x.g l 0)) with randn := some ((x.g.thread l).randn + 1) })
    ∧ LaneResultIn (.randF32 d) (fun s x l =>
      { resD x d (BitVec.ofNat 32 (roundTo fp32 rne false ⟨false, drawOf s x.g l 0 / 256, -24, false⟩).code) with randn := some ((x.g.thread l).randn + 1) })
    ∧ LaneResultIn (.randN64 d) (fun s x l =>
      { resPair x d (joinWords (BitVec.ofNat 32 (drawOf s x.g l 0)) (BitVec.ofNat 32 (drawOf s x.g l 1))) with randn := some ((x.g.thread l).randn + 2) })

namespace Sys2Proof.Machine

/-- A PC moved by a signed number of words, modulo 2^64. -/
def pcPlus (pc : DWord) (n : Int) : DWord := pc + BitVec.ofInt 64 (4 * n)

/-- The machine after an instruction of which nothing took effect: its threads stand at its first word, its extension state is
gone, and it has issued (R23, R25, R132, R134). -/
def backAtFirst (s : State) (x : Issue) (yields : Bool) : State :=
  { s.modifyGroup x.uid (fun g => { g with
      ext := [], issuing := [], choice := afterIssue g.choice x.lanes yields, waited := 0, elig := 0, promoted := none
      released := (0, 0)
      threads := g.threads.zipIdx.map fun (th, l) =>
        if l ∈ x.lanes then { th with pc := th.pc - BitVec.ofNat 64 (4 * g.ext.length) } else th }) with cur := none }

/-- The machine after a decode fault of the issuing set; in JMPI, CALLI and RET a misaligned target stands before it, and is
recorded in the threads that have one (R47, R48, R73, R307). -/
def decodeParked (s : State) (x : Issue) (i : Instr) (w : Word) (yields : Bool) (c : CauseDetail) : State :=
  let bad := misaligned x i
  takePark (backAtFirst s x yields) x.uid
    (if bad = [] then
      { cause := c.1, lanes := x.lanes, detail := c.2, setLevel := setLevelOp (w.toNat / 2 ^ 25), skip := x.g.ext.length + 1 }
    else
      { cause := 0x0107, lanes := bad, va := (targetReg i).map fun a => pairA x (bad.headD 0) a, detail := bad.length * 256
        skip := x.g.ext.length + 1 })

/-- What R48 asks about first is not known yet, as it is still being loaded: the target of an indirect transfer, or the format of a tile or the tag
of an accumulator, which says how many registers the instruction names (R48, R131, R262, R263). -/
def faultUnknown (x : Issue) (i : Instr) : Prop :=
  (match i with
    | .tstr ta _ | .ttrn ta _ => tPending x.g ta.toNat 1 = true
    | .mma _ ta tb _ | .mmaDw _ ta tb _ => tPending x.g ta.toNat 1 = true ∨ tPending x.g tb.toNat 1 = true
    | .ast acc _ => aPending x.g acc.toNat 1 = true
    | _ => False)
  ∨ ∃ a, targetReg i = some a ∧ x.ext.vnum 11 a % 2 = 0 ∧ x.ext.vnum 11 a + 2 ≤ x.g.vbud ∧ vPending x.g x.members (x.ext.vnum 11 a) 2 = true

/-- A group whose threads in some lanes have another status. -/
def Group.withStatus (g : Group) (lanes : List Nat) (st : Status) : Group :=
  { g with threads := g.threads.zipIdx.map fun (th, l) => if l ∈ lanes then { th with status := st } else th }

/-- The link of a call into a pair of V registers, in some lanes. -/
def linkInto (g : Group) (r : Nat) (lanes : List Nat) : Group :=
  lanes.foldl (fun g' l => (g'.vput l r (loWord ((g.thread l).pc + 4))).vput l (r + 1) (hiWord ((g.thread l).pc + 4))) g

/-- A legal target of an indirect transfer: aligned, readable as an instruction, and a LAND where one is needed (R71, R72). -/
def goodTarget (s : State) (g : Group) (land : Bool) (tgt : DWord) : Prop :=
  tgt.toNat % 4 = 0 ∧ ∃ w, fetchWord s g tgt = .ok w ∧ (land = true → w = 0x36000001)

end Sys2Proof.Machine

/-- R23, R35 to R38, R134, R136: an extension word of any kind adds itself to the extension state and moves its set to the next word;
its group has issued, and nothing else changes. -/
def Obligations.ExtensionWordsAccumulate : Prop :=
  ∀ (p : BitVec 25) (s : State) (x : Issue), currentIssue s = some x → x.lanes.Nodup →
    let after := fun (op : BitVec 7) =>
      { s.setGroup { x.g with
          ext := x.g.ext ++ [op ++ p], issuing := x.lanes, waited := 0, elig := 0, promoted := none, released := (0, 0)
          threads := x.g.threads.zipIdx.map fun (th, l) => if l ∈ x.lanes then { th with pc := th.pc + 4 } else th } with cur := none }
    exec (.extPred p) s = .next (after 0x78) ∧ exec (.extImm p) s = .next (after 0x79)
    ∧ exec (.extShi p) s = .next (after 0x7A) ∧ exec (.extHint p) s = .next (after 0x7B)

/-- R47, R48, R25, R131: an instruction with a decode fault has no effect but to park its group, whichever instruction it is; the record is
that of the decode fault, but for the misaligned target of an indirect transfer, which stands before it; until that target, or a format that
says how many registers are named, is known the set waits. -/
def Sys2Proof.Machine.Claim.DecodeFaultsParkWithoutEffect : Prop :=
  ∀ (i : Instr) (w : Word) (s : State) (x : Issue) (c : CauseDetail), encode i = some w → w.toNat / 2 ^ 25 < 0x78 →
    currentIssue s = some x → x.lanes.Nodup → decodeFault s x.g i w none = some c →
    let t := decodeParked s x i w (yieldsOf i x.ext) c
    (faultUnknown x i → exec i s = .next s) ∧ (¬ faultUnknown x i → exec i s = .next (if i = .exit then settle t else t))

/-- R48, R262, R263: the registers that an instruction names by the format of a tile or the tag of an accumulator lie below their budget, or it has
0x0101, before the reserved bits, the sequence of its extension words and the alignment of its operands are looked at. -/
def Sys2Proof.Machine.Claim.FormatsNameRegisters : Prop :=
  ∀ (s : State) (g : Group) (w : Word) (acc : AReg) (ta tb : TReg) (mb : SReg) (res : Option (Nat × Nat)) (dw : Bool), g.ext = [] →
    let regs := fun (t : TReg) => tileRegs (g.tfmtOf t.toNat)
    let past := fun (t : TReg) n => g.tbud < t.toNat + n
    let wide := (g.tfmtOf ta.toNat = 1 ∧ g.tfmtOf tb.toNat = 1) ∧ g.abud < acc.toNat + if dw then 4 else 2
    let mma := if dw then Instr.mmaDw acc ta tb mb else Instr.mma acc ta tb mb
    let first := fun (i : Instr) (lo v : Nat) => gangFault s g i = none → budgetFault w g {} (slots i) = none →
      decodeFault s g i w res = some (0x0101, decodeDetail w lo v)
    (past ta (regs ta) → first (.tstr ta mb) 18 ta.toNat ∧ first (.ttrn ta tb) 18 ta.toNat)
    ∧ (¬ past ta (regs ta) → past tb (regs ta) → first (.ttrn ta tb) 14 tb.toNat)
    ∧ (g.atagOf acc.toNat = 2 → g.abud < acc.toNat + 2 → first (.ast acc mb) 22 acc.toNat)
    ∧ (wide → first mma 22 acc.toNat) ∧ (¬ wide → past ta (regs ta) → first mma 18 ta.toNat)
    ∧ (¬ wide → ¬ past ta (regs ta) → past tb (regs tb) → first mma 14 tb.toNat)

/-- R40, R47, R48: a word that is no legal instruction parks the issuing set: 0x0101 for an opcode or field that encodes nothing, and
0x0102 for a reserved field that is not 0, where no other decode fault of the word comes first. -/
def Sys2Proof.Machine.Claim.IllegalWordsParkTheirSet : Prop :=
  ∀ (w : Word) (s : State) (x : Issue), currentIssue s = some x → x.lanes.Nodup →
    ∃ c, (faultUnknown x (namedBy w) → exec (.illegalInstruction w) s = .next s)
      ∧ (¬ faultUnknown x (namedBy w) → exec (.illegalInstruction w) s = .next (decodeParked s x (namedBy w) w x.ext.yields c))
      ∧ (0x7C ≤ w.toNat / 2 ^ 25 → c = (0x0101, decodeDetail w 25 (w.toNat / 2 ^ 25)))
      ∧ (∀ lo v, w.toNat / 2 ^ 25 < 0x7C → decode w = .error (.enc lo v) → extPayloadFault x.g.ext = none →
          c = (0x0101, decodeDetail w lo v))
      ∧ (∀ i lo v, w.toNat / 2 ^ 25 < 0x7C → decode w = .error (.reserved i lo v) → decodeFault s x.g i w none = none →
          c = (0x0102, decodeDetail w lo v))

/-- R17, R47, R82: RESUME, GSAVE, GLOAD and FQPOP in a context of privilege level 0 park their set with 0x0104, where no fault that
R48 places before the privilege check applies. -/
def Sys2Proof.Machine.Claim.PrivilegedInstructionsTrapAtLevelZero : Prop :=
  ∀ (d a b : VReg) (i : Instr) (s : State) (x : Issue),
    i ∈ ([.resume d a b, .gsave d b, .gload d b, .fqpop d a b] : List Instr) →
    currentIssue s = some x → x.lanes.Nodup → levelOf s x.g = false → x.g.ext = [] →
    budgetFault ((encode i).getD 0) x.g {} (slots i) = none →
    exec i s = .next (decodeParked s x i ((encode i).getD 0) x.ext.yields (0x0104, decodeDetail ((encode i).getD 0) 25 0x1E))

/-- R32, R70, R147: direct branches go to their own address plus 4 times the offset where their guard or their test says so, and
to the next word elsewhere; CALL leaves its link in V2:V3. -/
def Sys2Proof.Machine.Claim.DirectBranchesTakeTheirTarget : Prop :=
  ∀ (gd : Guard) (off : BitVec 20) (d : SReg) (imm : BitVec 9),
    let taken := fun (x : Issue) l => branchGuard gd (x.g.thread l)
    let target := fun (_ : State) (x : Issue) l =>
      pcPlus (x.g.thread l).pc (if taken x l then x.ext.immediate 20 off.toNat else 1)
    let uniform := fun (yes : Word → Bool) (_ : State) (x : Issue) l =>
      pcPlus (x.g.thread l).pc (if yes (x.g.sregGet (regSD x d)) then immS x imm else 1)
    MovesResult (.bra gd off) always (fun s x => s.setGroup x.g) target
    ∧ MovesResult (.call gd off) always (fun s x => s.setGroup (linkInto x.g 2 (x.lanes.filter (taken x)))) target
    ∧ MovesResult (.sbrz d imm) always (fun s x => s.setGroup x.g) (uniform fun v => v == 0)
    ∧ MovesResult (.sbrnz d imm) always (fun s x => s.setGroup x.g) (uniform fun v => v != 0)

/-- R71, R72: an indirect transfer whose members all have good targets takes them there, the threads that are off going on at the next
word; CALLI leaves its link in D. -/
def Sys2Proof.Machine.Claim.IndirectTransfersReachTheirTargets : Prop :=
  ∀ (d a : VReg),
    let tgt := fun (x : Issue) l => pairA x l a
    let good := fun land (s : State) (x : Issue) => ∀ l ∈ x.members, goodTarget s x.g land (tgt x l)
    let target := fun (_ : State) (x : Issue) l => if l ∈ x.members then tgt x l else (x.g.thread l).pc + 4
    MovesResult (.jmpi a) (good true) (fun s x => s.setGroup x.g) target
    ∧ MovesResult (.ret a) (good false) (fun s x => s.setGroup x.g) target
    ∧ MovesResult (.calli d a) (good true)
        (fun s x => s.setGroup (applyZeros (.calli d a) x (linkInto x.g (x.ext.vnum 18 d) x.members))) target

/-- R72, R75, R191: NOP, LAND, YIELD and PREF only move their set to the next word. -/
def Sys2Proof.Machine.Claim.NoEffectInstructionsOnlyAdvance : Prop :=
  ∀ (a b : VReg), StateResult .nop always (fun s _ => s) ∧ StateResult .land always (fun s _ => s)
    ∧ StateResult .yield always (fun s _ => s) ∧ StateResult (.pref a b) always (fun s _ => s)

/-- R74, R76, R159: EXIT ends the threads of its set, releases the JOINs and completes the barrier phases that waited for them alone,
and then the groups and teams that have ended are gone. -/
def Sys2Proof.Machine.Claim.ExitEndsItsThreads : Prop :=
  ∀ s x, Issues s x .exit →
    let g := releaseJoins (x.g.withStatus x.lanes .exited)
    exec .exit s = .next (settle (completed .exit x (checkPhases (s.setGroup g) g)))

/-- R74: at a JOIN the threads that the mask names wait, and all of them leave together once every named thread that has not exited
waits there; the others go on. -/
def Sys2Proof.Machine.Claim.JoinWaitsForTheNamedLanes : Prop :=
  (∀ (a : SReg) (s : State) (x : Issue), Issues s x (.join a) →
    let mask := x.g.spair (x.ext.snum 9 a.toNat)
    let waiting := { x.g with threads := x.g.threads.zipIdx.map fun (th, l) =>
      if l ∈ x.lanes then (if mask.getLsbD l then { th with status := .join mask } else { th with pc := th.pc + 4 }) else th }
    exec (.join a) s = .next { s.setGroup (afterInstr x (.join a) ((List.range 64).foldl releaseJoin waiting)) with cur := none })
  ∧ ∀ (g : Group) (lane : Nat) (m : DWord), g.threads.length = 64 → (g.thread lane).status = .join m →
      let there := fun k => (g.thread k).status ≠ .exited → ∃ m', (g.thread k).status = .join m' ∧ (g.thread k).pc = (g.thread lane).pc
      ((∀ k < 64, m.getLsbD k = true → there k) →
        releaseJoin g lane = { g with
          threads := g.threads.zipIdx.map fun (th, k) =>
            if m.getLsbD k ∧ th.status ≠ Status.exited then { th with status := .run, pc := th.pc + 4 } else th })
      ∧ ((∃ k < 64, m.getLsbD k = true ∧ ¬ there k) → releaseJoin g lane = g)

/-- R80, R81, R319, R26: TRAP and BRK complete and park their set after their word, BRK of SKIPBRK as NOP and TRAP with no member. -/
def Obligations.TrapsCompleteAndPark : Prop :=
  ∀ (imm : BitVec 11) (s : State) (x : Issue),
    (Issues s x .brk → x.g.stepctl.getLsbD 1 = false →
      exec .brk s = .next (takePark (completed .brk x s) x.uid { cause := 0x0D01, lanes := x.lanes, completing := true, skip := 0 }))
    ∧ (Issues s x .brk → x.g.stepctl.getLsbD 1 = true → exec .brk s = .next (completed .brk x s))
    ∧ (Issues s x (.trap imm) → x.members ≠ [] →
      exec (.trap imm) s = .next (takePark (completed (.trap imm) x s) x.uid
        { cause := 0x0E01, lanes := x.members, detail := imm.toNat, completing := true, skip := 0 }))
    ∧ (Issues s x (.trap imm) → x.members = [] → exec (.trap imm) s = .next (completed (.trap imm) x s))

namespace Sys2Proof.Machine

/-- The same as `LaneResultIn` under a condition on the state and the issue. -/
def LaneResultIf (i : Instr) (cond : State → Issue → Prop) (out : State → Issue → Nat → LaneOut) : Prop :=
  ∀ s x, Issues s x i → cond s x → ∃ t, exec i s = .next t ∧ LaneStep s t x i (out s x)

/-- The address of an M-format access: the pair A plus the size times the offset (R186). -/
def addrM (a : VReg) (off : BitVec 6) (n : Nat) (x : Issue) (l : Nat) : DWord :=
  pairA x l a + BitVec.ofInt 64 (n * x.ext.immediate 6 off.toNat)
/-- The address of a register-offset access: the pair A plus the sign-extended B (R186). -/
def addrB (a b : VReg) (x : Issue) (l : Nat) : DWord := pairA x l a + (opB x l b).signExtend 64
/-- The address of SLD and SST (R148). -/
def addrS (a : SReg7) (off : BitVec 6) (n : Nat) (x : Issue) : DWord :=
  x.g.spair (x.ext.snum 11 a.toNat) + BitVec.ofInt 64 (n * x.ext.immediate 6 off.toNat)

/-- Another agent shares the instance of a scope with the group: DIE and wider always do, GROUP never, and TEAM where the device holds
another group of the team (R199). -/
def shared (s : State) (x : Issue) (sc : Nat) : Prop :=
  2 ≤ sc ∨ sc = 1 ∧ ∃ y ∈ s.work.groups, y.uid ≠ x.g.uid ∧ y.launch = x.g.launch ∧ y.team = x.g.team

/-- No acquire of the instruction stands behind a release of the group that is not performed, both at a scope shared with another agent
(R205, R206). -/
def noPendingRelease (s : State) (x : Issue) (ord : MemOrder) (sc : Scope) : Prop :=
  ord.acquires = true → ∀ b ∈ x.g.stores, b.ord.getLsbD 1 = true → ¬ shared s x (min sc.code.toNat b.scope.toNat)

/-- A release that acts as it issues stands behind no access of its group that is not performed (R206). -/
def noPendingStore (s : State) (x : Issue) (ord : MemOrder) (sc : Scope) : Prop :=
  ord.releases = true → shared s x sc.code.toNat → storesPerformed s x.g = true

/-- The bytes that an access that passes its checks reads. -/
def bytesAt (s : State) (g : Group) (acc : Access) (va : DWord) : List Byte :=
  match loadMember s g acc va with
  | .ok b => b
  | _ => []

/-- Every member's load passes its checks and waits for nothing, and the group may issue a load (R173, R183, R195, R206). -/
def mayLoad (acc : Access) (ord : MemOrder) (sc : Scope) (addr : Issue → Nat → DWord) (s : State) (x : Issue) : Prop :=
  x.members ≠ [] ∧ x.g.loads.length < 255 ∧ noPendingRelease s x ord sc
    ∧ ∀ l ∈ x.members, ∃ b, loadMember s x.g acc (addr x l) = .ok b

/-- The effect of a load at its issue: LD rises by one, and the load holds the registers of each member with the bytes read (R195). -/
def loadIssued (i : Instr) (acc : Access) (addr : Issue → Nat → DWord) (vals : Issue → Nat → List Byte → List (Nat × Word))
    (s : State) (x : Issue) : State :=
  let ld := loadOf s x.g acc (x.members.map (addr x))
    (x.members.flatMap fun l => (vals x l (bytesAt s x.g acc (addr x l))).map fun (r, w) => (RegDst.v l r, w))
  s.setGroup (applyZeros i x { x.g with loads := x.g.loads ++ [ld] })

/-- A load into registers from D on. -/
def LoadResult (i : Instr) (d : VReg) (n : Nat) (ord : MemOrder) (sc : Scope) (addr : Issue → Nat → DWord)
    (vals : List Byte → List Word) : Prop :=
  StateResult i (mayLoad (loadAccess n) ord sc addr)
    (loadIssued i (loadAccess n) addr fun x _ b => (vals b).zipIdx.map fun (w, k) => (x.ext.vnum 18 d + k, w))

/-- The bytes of n registers from D on, lowest first. -/
def storeBytes (d : VReg) (n : Nat) (x : Issue) (l : Nat) : List Byte :=
  (List.range n).map fun k => BitVec.ofNat 8 ((x.g.vget l (x.ext.vnum 18 d + k / 4)).toNat / 256 ^ (k % 4))

/-- No release at SYSTEM scope stands behind a deferred write of the group (R208). -/
def noSystemWait (s : State) (x : Issue) (ord : MemOrder) (sc : Scope) : Prop :=
  ord.releases = true → sc = .system →
    (∀ d ∈ s.deferred, d.group = x.g.uid → d.record = true) ∧ (∀ b ∈ x.g.stores, defers s b.place = false)
      ∧ ∀ w ∈ x.g.tiles, defers s w.place = false

/-- Every member's store passes its checks, and the group may issue a store; one to a region, which is performed at once, stands behind
no earlier store that it releases (R173, R195, R197, R206, R208). -/
def mayStore (ms : State → Issue → Members StoreKind) (ord : MemOrder) (sc : Scope) (s : State) (x : Issue) : Prop :=
  ms s x ≠ [] ∧ x.g.stQueue.length < 255 ∧ x.g.stores.length + (ms s x).length ≤ 64 ∧ noSystemWait s x ord sc
    ∧ ((∃ m ∈ ms s x, ∃ hdr es, m.2.2 = .ok (.region hdr es)) → noPendingStore s x ord sc)
    ∧ ∀ m ∈ ms s x, ∃ k, m.2.2 = .ok k

/-- A store of n bytes from D: the accepted stores enter the group's buffer. -/
def StoreResult (i : Instr) (d : VReg) (n : Nat) (ord : MemOrder) (sc : Scope) (addr : Issue → Nat → DWord) : Prop :=
  let ms := fun s x => storeMembers x (fun s l => storeMember s x.g (storeAccess n) (addr x l) (storeBytes d n x l)) (addr x)
    (sizeCode n) (storeBytes d n x) x.members s
  StateResult i (mayStore ms ord sc)
    fun s x => acceptStores s x (sizeCode n) ord sc (storeBytes d n x) (goodOf (ms s x))

/-- The members of an ATOM in order: the machine after them and what each read. -/
def atomMs (aop n : Nat) (d a : VReg) (f : AtomFn) (s : State) (x : Issue) : State × Members Nat :=
  atomFold x.g aop n f (fun l => pairA x l a) (fun l => vnat x l (x.ext.vnum 18 d) (n / 4))
    (fun l => vnat x l (x.ext.vnum 18 d + n / 4) (n / 4)) s x.members

/-- An ATOM of n bytes: the memory after every member, and a load that brings the old values to D. -/
def AtomResult (i : Instr) (aop n : Nat) (d a : VReg) (ord : MemOrder) (sc : Scope) (f : AtomFn) : Prop :=
  StateResult i
    (fun s x => x.members ≠ [] ∧ x.g.loads.length < 255 ∧ noPendingRelease s x ord sc ∧ noSystemWait s x ord sc
      ∧ noPendingStore s x ord sc ∧ ∀ m ∈ (atomMs aop n d a f s x).2, ∃ v, m.2.2 = .ok v)
    fun s x =>
      let q := atomMs aop n d a f s x
      let ld := plainLoad ((goodOf q.2).flatMap fun (l, _, old) =>
        (List.range (n / 4)).map fun k => (RegDst.v l (x.ext.vnum 18 d + k), BitVec.ofNat 32 (old / 2 ^ (32 * k))))
      q.1.modifyGroup x.uid fun g => applyZeros i x { g with loads := g.loads ++ [ld] }

/-- The status of a privileged instruction in D of every lane of the set (R325). -/
def statusIn (d : VReg) (code : Nat) (s : State) (x : Issue) : State :=
  s.modifyGroup x.uid fun g => x.lanes.foldl (fun g l => g.vput l (x.ext.vnum 18 d) (BitVec.ofNat 32 code)) g

/-- The handle that a privileged instruction's B names in the elected lane (R325). -/
def handleB (x : Issue) (b : VReg) : Word := opB x (lowLane x.lanes) b

/-- Every earlier access of the group is performed (R325). -/
def ownAccessesDone (s : State) (x : Issue) : Prop := x.g.loads = [] ∧ storesPerformed s x.g = true

end Sys2Proof.Machine

/-- R77, R78: SRD, wherever it issues normally, delivers the system register of each member's thread, group, core, context or device. -/
def Sys2Proof.Machine.Claim.SystemRegistersRead : Prop :=
  ∀ (d : VReg) (idx : BitVec 8),
    LaneResultIn (.srd d idx) (fun s x l =>
      if idx = 0x20 then resPair x d (BitVec.ofNat 64 s.clock) else resD x d (BitVec.ofNat 32 (sysRead s x.g l idx.toNat)))
    ∧ ∀ (s : State) (g : Group) (lane : Nat),
      sysRead s g lane 0x00 = lane ∧ sysRead s g lane 0x01 = g.group * 64 + lane ∧ sysRead s g lane 0x02 = g.group
      ∧ sysRead s g lane 0x03 = g.team ∧ sysRead s g lane 0x04 = g.role ∧ sysRead s g lane 0x05 = 64
      ∧ sysRead s g lane 0x06 = g.core % 48 ∧ sysRead s g lane 0x07 = g.core / 48 ∧ sysRead s g lane 0x08 = s.domain.device
      ∧ sysRead s g lane 0x10 = s.domain.rin.toNat ∧ sysRead s g lane 0x12 = (if s.domain.want then 1 else 0)
      ∧ sysRead s g lane 0x18 = (g.thread lane).fpctl.toNat ∧ sysRead s g lane 0x19 = (g.thread lane).fpstat.toNat
      ∧ sysRead s g lane 0x1A = (if levelOf s g then 1 else 0) ∧ sysRead s g lane 0x28 = g.obsv.toNat
      ∧ sysRead s g lane 0x29 = g.stepctl.toNat
      ∧ (∀ c, s.ctx? g.ctx = some c → sysRead s g lane 0x11 = c.rollbacks.toNat ∧ sysRead s g lane 0x2A = c.randseed.toNat)
      ∧ ∀ l, s.launch? g.launch = some l →
          sysRead s g lane 0x09 = g.team % (l.xm + 1) ∧ sysRead s g lane 0x0A = g.team / (l.xm + 1) % (l.ym + 1)
          ∧ sysRead s g lane 0x0B = g.team / (l.xm + 1) / (l.ym + 1)

/-- R77, R78, R14: SWR, wherever it issues normally, lets each member write the register, in rising lane order; a register that is not
writable keeps its value. -/
def Sys2Proof.Machine.Claim.SystemRegistersWrite : Prop :=
  ∀ (a : VReg),
    let each := fun (f : Word → Thread → Thread) (s : State) (x : Issue) =>
      x.members.foldl (fun s l => s.modifyGroup x.uid fun g => g.modifyThread l (f (opA x l a))) s
    let group := fun (f : Word → Group → Group) (s : State) (x : Issue) =>
      x.members.foldl (fun s l => s.modifyGroup x.uid (f (opA x l a))) s
    StateResult (.swr a 0x18) always (each fun v t =>
      { t with fpctl := (v &&& 0x10) ||| (if (v &&& 7).toNat < 5 then v &&& 7 else 0) })
    ∧ StateResult (.swr a 0x19) always (each fun v t => { t with fpstat := v &&& 0x7F })
    ∧ StateResult (.swr a 0x28) always (group fun v g => { g with obsv := v &&& 1 })
    ∧ StateResult (.swr a 0x29) always (group fun v g => { g with stepctl := v &&& 3 })
    ∧ StateResult (.swr a 0x2A) always (fun s x => x.members.foldl (fun s l => s.modifyCtx x.g.ctx fun c => { c with randseed := opA x l a }) s)
    ∧ ∀ idx : BitVec 8, idx ∉ [0x18#8, 0x19#8, 0x28#8, 0x29#8, 0x2A#8] → StateResult (.swr a idx) always (fun s _ => s)

/-- R310, R311, R325, R326: RESUME, once its group's own accesses are performed, releases or ends the parked group that the handle names,
and delivers its status. -/
def Sys2Proof.Machine.Claim.ResumeActsOnTheParkedGroup : Prop :=
  ∀ (d a b : VReg),
    let i := Instr.resume d a b
    let action := fun (x : Issue) => (x.g.vget (lowLane x.lanes) (x.ext.vnum 18 d)).toNat % 8
    let mask := fun (x : Issue) => pairA x (lowLane x.lanes) a
    let status := fun code => fun s x => statusIn d code s x
    let at_ := fun (s : State) (x : Issue) (g : Group) (p : Park) => ownAccessesDone s x ∧ names (handleB x b) x.g = false
      ∧ parkedAt s (handleB x b) = some g ∧ g.park = some p
    StateResult i (fun s x => ownAccessesDone s x ∧ names (handleB x b) x.g = true) (status 5)
    ∧ StateResult i (fun s x => ownAccessesDone s x ∧ names (handleB x b) x.g = false ∧ parkedAt s (handleB x b) = none) (status 2)
    ∧ ∀ g p,
      StateResult i (fun s x => at_ s x g p ∧ (action x = 0 ∨ 4 < action x)) (status 3)
      ∧ StateResult i (fun s x => at_ s x g p ∧ action x = 2 ∧ maskSplits p (mask x) = true) (status 4)
      ∧ StateResult i (fun s x => at_ s x g p ∧ action x = 4 ∧ g.ctx = x.g.ctx) (status 5)
      ∧ StateResult i (fun s x => at_ s x g p ∧ (action x = 1 ∨ action x = 2 ∧ maskSplits p (mask x) = false))
          (fun s x => statusIn d 0 (settle (releasePark s g.uid (action x) (mask x))) x)
      ∧ StateResult i (fun s x => at_ s x g p ∧ action x = 3) (fun s x => statusIn d 0 (terminateGroup s g.uid) x)
      ∧ StateResult i (fun s x => at_ s x g p ∧ action x = 4 ∧ g.ctx ≠ x.g.ctx) (fun s x => statusIn d 0 (endContext s g.ctx) x)

/-- R312 to R315, R326: GSAVE writes the frame of a parked group and GLOAD reads it back, each with its status; that both wait while a load
or a matrix operation of that group has yet to write its registers is the model's choice (log entry 112). -/
def Sys2Proof.Machine.Claim.FramesMoveUnderGsaveAndGload : Prop :=
  ∀ (d b : VReg),
    let status := fun code => fun s x => statusIn d code s x
    let none_ := fun s (x : Issue) => ownAccessesDone s x ∧ names (handleB x b) x.g = false ∧ parkedAt s (handleB x b) = none
    let at_ := fun s (x : Issue) (g : Group) => ownAccessesDone s x ∧ names (handleB x b) x.g = false ∧ parkedAt s (handleB x b) = some g
      ∧ g.park.isSome = true ∧ (∀ l ∈ g.loads, l.done = true) ∧ g.mmas = []
    let self := fun s (x : Issue) => ownAccessesDone s x ∧ names (handleB x b) x.g = true
    StateResult (.gsave d b) self (status 5) ∧ StateResult (.gload d b) self (status 5)
    ∧ StateResult (.gsave d b) none_ (status 2) ∧ StateResult (.gload d b) none_ (status 2)
    ∧ (∀ (s : State) (x : Issue) (g : Group) (i : Instr), i = .gsave d b ∨ i = .gload d b → Issues s x i → ownAccessesDone s x →
        names (handleB x b) x.g = false → parkedAt s (handleB x b) = some g → (∃ l ∈ g.loads, l.done = false) ∨ g.mmas ≠ [] →
        exec i s = .next s)
    ∧ ∀ g,
      StateResult (.gsave d b) (fun s x => at_ s x g) (fun s x =>
        statusIn d 0 (((saveFrame s (((s.ctx? g.ctx).map (·.saBase)).getD 0) g).modifyGroup g.uid
          fun y => { y with gsaved := true }).nextOccasion) x)
      ∧ StateResult (.gload d b) (fun s x => at_ s x g ∧ g.gsaved = false) (status 6)
      ∧ StateResult (.gload d b) (fun s x => at_ s x g ∧ g.gsaved = true ∧ badPc s (framePa s g) g = true) (status 7)
      ∧ StateResult (.gload d b) (fun s x => at_ s x g ∧ g.gsaved = true ∧ badPc s (framePa s g) g = false) (fun s x =>
          statusIn d 0 ((s.setGroup (loadFrame s (framePa s g) g)).nextOccasion) x)

/-- R308, R309, R326: FQPOP stores the oldest written entry of the context's queue and removes it, or says that there is none. -/
def Sys2Proof.Machine.Claim.FqpopTakesTheOldestEntry : Prop :=
  ∀ (d a b : VReg),
    let i := Instr.fqpop d a b
    let ctx := fun (s : State) (x : Issue) => created? s ((handleB x b).toNat % 65536)
    let va := fun (x : Issue) => pairA x (lowLane x.lanes) a
    StateResult i (fun s x => ownAccessesDone s x ∧ ctx s x = none) (statusIn d 2)
    ∧ ∀ c : Ctx,
      StateResult i (fun s x => ownAccessesDone s x ∧ ctx s x = some c ∧ c.fqWritten ≤ c.fqRead) (statusIn d 1)
      ∧ ∀ s x t, Issues s x i → ownAccessesDone s x → ctx s x = some c → c.fqRead < c.fqWritten →
          storeNow s x.g (va x) (s.hbm.read (c.fqBase + 32 * (c.fqRead % max 1 c.fqCap)) 32) = .ok t →
          exec i s = .next (completed i x (statusIn d 0 (t.modifyCtx c.num fun c => { c with fqRead := c.fqRead + 1 }) x))

/-- R186, R187, R195: every LD form, wherever its members' accesses pass, issues one load that holds the bytes read for the registers
from D on, and changes nothing else. -/
def Sys2Proof.Machine.Claim.LoadsReadAtTheirIssue : Prop :=
  ∀ (d a b : VReg) (off : BitVec 6) (ord : MemOrder) (sc : Scope),
    LoadResult (.ldI32 d a off ord sc) d 4 ord sc (addrM a off 4) loadWords
    ∧ LoadResult (.ldI64 d a off ord sc) d 8 ord sc (addrM a off 8) loadWords
    ∧ LoadResult (.ldI8 d a b) d 1 .relaxed .group (addrB a b) (loadNarrow true)
    ∧ LoadResult (.ldN8 d a b) d 1 .relaxed .group (addrB a b) (loadNarrow false)
    ∧ LoadResult (.ldI16 d a b) d 2 .relaxed .group (addrB a b) (loadNarrow true)
    ∧ LoadResult (.ldN16 d a b) d 2 .relaxed .group (addrB a b) (loadNarrow false)
    ∧ LoadResult (.ldq d a b) d 16 .relaxed .group (addrB a b) loadWords
    ∧ StateResult (.dld d a b) (fun s x => x.members ≠ [] ∧ x.g.loads.length < 255
        ∧ ∀ l ∈ x.members, ∃ w, dldMember s x.g (addrB a b x l) = .ok w)
      (fun s x => s.setGroup (applyZeros (.dld d a b) x { x.g with
        loads := x.g.loads ++ [loadOf s x.g dldAccess (x.members.map (addrB a b x)) (x.members.flatMap fun l =>
          match groupAccess s x.g dldAccess (addrB a b x l) with
          | .ok p => [(RegDst.v l (x.ext.vnum 18 d), (groupDesc s x.g p).1), (RegDst.v l (x.ext.vnum 18 d + 1), (groupDesc s x.g p).2)]
          | .error _ => [])] }))

/-- R148: SLD and SST act once for their set on S registers; with no member SST does nothing and SLD writes zeros under Z. That SLD holds the bytes as
they are at its issue is the model's choice (log entry 37). -/
def Obligations.UniformLoadsAndStores : Prop :=
  ∀ (d a : SReg7) (off : BitVec 6) (ord : MemOrder) (sc : Scope),
    let sld := fun (i : Instr) (n : Nat) =>
      StateResult i (fun s x => x.members ≠ [] ∧ x.g.loads.length < 255 ∧ noPendingRelease s x ord sc
          ∧ ∃ b, loadMember s x.g (loadAccess n) (addrS a off n x) = .ok b)
        (fun s x => s.setGroup { x.g with
          loads := x.g.loads ++ [loadOf s x.g (loadAccess n) [addrS a off n x]
            ((loadWords (bytesAt s x.g (loadAccess n) (addrS a off n x))).zipIdx.map fun (w, k) => (RegDst.s (x.ext.snum 18 d.toNat + k), w))] })
      ∧ StateResult i (fun _ x => x.members = [] ∧ x.ext.z = true)
        (fun s x => s.setGroup ((List.range (n / 4)).foldl (fun g k => g.sregPut (x.ext.snum 18 d.toNat + k) 0) x.g))
      ∧ StateResult i (fun _ x => x.members = [] ∧ x.ext.z = false) (fun s _ => s)
    let data := fun (n : Nat) (x : Issue) => (List.range n).map fun k =>
      BitVec.ofNat 8 ((x.g.sregGet (x.ext.snum 18 d.toNat + k / 4)).toNat / 256 ^ (k % 4))
    let sst := fun (i : Instr) (n : Nat) =>
      StateResult i (fun s x => x.members ≠ [] ∧
          mayStore (fun s x => [(lowLane x.lanes, addrS a off n x, storeMember s x.g (storeAccess n) (addrS a off n x) (data n x))]) ord sc s x)
        (fun s x => acceptStores s x (sizeCode n) ord sc (fun _ => data n x)
          (goodOf [(lowLane x.lanes, addrS a off n x, storeMember s x.g (storeAccess n) (addrS a off n x) (data n x))]))
      ∧ StateResult i (fun _ x => x.members = []) (fun s _ => s)
    sld (.sldI32 d a off ord sc) 4 ∧ sld (.sldI64 d a off ord sc) 8 ∧ sst (.sstI32 d a off ord sc) 4 ∧ sst (.sstI64 d a off ord sc) 8

/-- R187, R188, R197: every ST form and DST, wherever its members' accesses pass, hands each member's bytes to the group's store buffer. -/
def Sys2Proof.Machine.Claim.StoresEnterTheBuffer : Prop :=
  ∀ (d a b : VReg) (off : BitVec 6) (ord : MemOrder) (sc : Scope),
    StoreResult (.stI32 d a off ord sc) d 4 ord sc (addrM a off 4)
    ∧ StoreResult (.stI64 d a off ord sc) d 8 ord sc (addrM a off 8)
    ∧ StoreResult (.stI8 d a b) d 1 .relaxed .group (addrB a b)
    ∧ StoreResult (.stI16 d a b) d 2 .relaxed .group (addrB a b)
    ∧ StoreResult (.stq d a b) d 16 .relaxed .group (addrB a b)
    ∧ (let ms := fun s (x : Issue) => storeMembers x (fun s l => dstMember s x.g (addrB a b x l) (x.g.vget l (x.ext.vnum 18 d)))
        (addrB a b x) 5 (storeBytes d 4 x) x.members s
      StateResult (.dst d a b) (mayStore ms .relaxed .group)
        fun s x => acceptStores s x 5 .relaxed .group (storeBytes d 4 x) (goodOf (ms s x)))

/-- R195, R197: a store of members that none writes to a region changes nothing but its group at its issue: the buffer gains one entry
for each member, in order, with its place and bytes, and every byte of every memory is as before. -/
def Sys2Proof.Machine.Claim.BufferedStoresChangeNoMemory : Prop :=
  ∀ (s : State) (x : Issue) (size : Nat) (ord : MemOrder) (sc : Scope) (data : Nat → List Byte) (good : List (Nat × DWord × Place)),
    s.group? x.uid = some x.g → x.g.uid = x.uid →
    let t := acceptStores s x size ord sc data (good.map fun (l, va, p) => (l, va, .plain p))
    ∃ g, t = s.setGroup g ∧ g = { x.g with stores := g.stores, stQueue := g.stQueue, nextIssue := x.g.nextIssue + 1 }
      ∧ g.stores = x.g.stores ++ good.map (fun (l, va, p) => ({ issue := x.g.nextIssue, lane := l, va := va, place := p, size := size
                                                                data := data l, ord := ord.code, scope := sc.code } : Buffered))
      ∧ (good ≠ [] → ∃ q, g.stQueue = q ++ [x.g.nextIssue] ∧ q <:+ x.g.stQueue)

namespace Sys2Proof.Machine

/-- Some bytes stand in a memory from an address up, and every other byte is as it was. -/
def bytesWritten (m old : Memory) (k : Nat) (data : List Byte) : Prop :=
  ∀ a, m.byte a = if k ≤ a ∧ a < k + data.length then data.getD (a - k) 0 else old.byte a

/-- A performed store leaves every other group that has not ended as it is, and of its own group the buffer alone changes, with the count of
its issues. -/
def storeFrame (s t : State) (uid : Nat) (left : Group) : Prop :=
  (∀ y ∈ t.work.groups, y.uid ≠ uid → y ∈ s.work.groups) ∧ (∀ y ∈ s.work.groups, y.uid ≠ uid → groupEnded y = false → y ∈ t.work.groups)
    ∧ ∀ g', t.group? uid = some g' → g' = { left with stQueue := g'.stQueue }

/-- The store of an index of a group's buffer may be performed: `left` is the group without it (R195, R200). -/
def StoreRuns (s : State) (uid n : Nat) (g : Group) (b : Buffered) (left : Group) : Prop :=
  s.memoryWf = true ∧ (s.work.groups.map (·.uid)).Nodup ∧ s.group? uid = some g ∧ storesRun s g = true ∧ g.stores[n]? = some b
    ∧ mayPerform s g n b = true
    ∧ left = { g with stores := g.stores.take n ++ g.stores.drop (n + 1)
                      restoring := g.restoring && !(g.stores.take n ++ g.stores.drop (n + 1)).isEmpty }

/-- A target in the memory of another device, by that device. -/
def deviceOf : Target → Option Nat
  | .peer dev _ | .leased dev _ _ => some dev
  | _ => none

/-- The write of a TSTR or AST element of an index may be performed: no earlier write to its bytes or its Pond segment is left; `left` is the group
without it (R206, R271, R272). -/
def TileRuns (s : State) (uid n : Nat) (g : Group) (w : TileWrite) (left : Group) : Prop :=
  s.memoryWf = true ∧ (s.work.groups.map (·.uid)).Nodup ∧ s.group? uid = some g ∧ storesRun s g = true ∧ g.tiles[n]? = some w
    ∧ (∀ a ∈ g.tiles.take n, tilesClash a w = false) ∧ (∀ b ∈ g.stores, b.issue < w.issue → tileClash b w = false)
    ∧ left = { g with tiles := g.tiles.take n ++ g.tiles.drop (n + 1) }

/-- The logs have room for a write of some lines at a place: an IMMEDIATE write and one in the CXL.mem window need none, another one to HBM is
captured, and one that a commit performs takes an entry of the die of its group (R208, R329 to R333). -/
def roomToWrite (s : State) (g : Group) (p : Place) (lines : List Nat) : Prop :=
  match p.target with
  | .hbm pa => p.immed = true ∨ inWindow s pa = true ∨ ∃ v, captureLines s lines = some v ∧ (p.irrev = true → logRoom v (dieOf g.core) none = true)
  | .pond _ _ => p.immed = true ∨ (p.irrev = true → logRoom s (dieOf g.core) none = true)
  | .host _ => p.immed = true ∨ logRoom s (dieOf g.core) none = true
  | .peer dev _ | .leased dev _ _ => p.immed = true ∨ ((p.irrev = true ∨ inDomain s dev = false) → logRoom s (dieOf g.core) none = true)
  | .mmio _ => p.immed = false ∧ logRoom s (dieOf g.core) none = true
  | .fitted _ => False

/-- What a write of plain data to a place leaves, once it has been performed: its bytes in HBM, in a Pond, at the host or at another device, and
those only; one that a commit performs changes no byte outside and joins the deferred writes, of which those that it follows at its bytes stand
no longer (R193, R200, R208, R333). -/
def DataPerformed (s t : State) (g : Group) (p : Place) (data : List Byte) : Prop :=
  let older := s.deferred.map fun d => d.replaced s.domain.rin (spaceOf p.target) data.length
  let entry := fun (home : Bool) => [deferredWrite s (agentOf g) p.target data false home false]
  let key := (spaceOf p.target).2
  (∀ pa, p.target = .hbm pa →
      bytesWritten t.hbm s.hbm pa data ∧ t.host = s.host ∧ t.peer = s.peer ∧ t.work.pond = s.work.pond
        ∧ t.deferred = if p.immed = false ∧ inWindow s pa = false ∧ p.irrev = true then older ++ entry true else older)
  ∧ (∀ core off, p.target = .pond core off →
      bytesWritten t.work.pond s.work.pond (core * 2 ^ 20 + off) data ∧ t.hbm = s.hbm ∧ t.host = s.host ∧ t.peer = s.peer
        ∧ (p.immed = false → t.deferred = if p.irrev then s.deferred ++ entry true else s.deferred))
  ∧ (∀ pa, p.target = .host pa →
      t.hbm = s.hbm ∧ t.peer = s.peer ∧ t.work.pond = s.work.pond
        ∧ (if p.immed then bytesWritten t.host s.host pa data ∧ t.deferred = older else t.host = s.host ∧ t.deferred = s.deferred ++ entry false))
  ∧ (∀ dev, deviceOf p.target = some dev →
      t.hbm = s.hbm ∧ t.host = s.host ∧ t.work.pond = s.work.pond
        ∧ (if p.immed then bytesWritten t.peer s.peer key data ∧ t.deferred = older
           else if p.irrev ∨ inDomain s dev = false then t.peer = s.peer ∧ t.deferred = s.deferred ++ entry false
           else t.deferred = older
             ∧ ∀ a < 2 ^ 60, t.peer.byte a = if key ≤ a ∧ a < key + data.length then data.getD (a - key) 0 else s.peer.byte a))
  ∧ (∀ off, p.target = .mmio off →
      t.hbm = s.hbm ∧ t.host = s.host ∧ t.peer = s.peer ∧ t.work.pond = s.work.pond ∧ t.regs = s.regs ∧ t.deferred = s.deferred ++ entry false)

/-- R200, R208: a write performed at once stands later than the deferred writes of its bytes, each of which keeps the interval of the write that
replaced it. -/
def Claim.LaterWritesReplaceDeferredBytes : Prop :=
  ∀ (d : Deferred) (rin : BitVec 16) (sp : Nat × Nat) (n : Nat),
    let e := d.replaced rin sp n
    let at_ := fun (k : Nat) => (spaceOf d.target).2 + k
    e = { d with stale := e.stale }
    ∧ ∀ k r, (k, r) ∈ e.stale ↔ (k, r) ∈ d.stale ∨ (r = rin ∧ d.home = false ∧ d.desc = false ∧ k < d.data.length ∧ (∀ q, (k, q) ∉ d.stale)
        ∧ (spaceOf d.target).1 = sp.1 ∧ sp.2 ≤ at_ k ∧ at_ k < sp.2 + n)

/-- R193, R195, R200, R208, R333: a store of plain data is performed with its bytes, at its point of coherence; to a register it is deferred to a
commit, or has the register's effect at once where its page is IMMEDIATE. -/
def Claim.PerformedStoreBytes : Prop :=
  ∀ (s : State) (uid n : Nat) (g left : Group) (b : Buffered), StoreRuns s uid n g b left → b.size ≠ 5 →
    (roomToWrite (s.setGroup left) g b.place (linesOf (spaceOf b.place.target).2 b.data.length) →
      ∃ t, exec (.storePerformed uid n) s = .next t ∧ storeFrame s t uid left ∧ DataPerformed s t g b.place b.data)
    ∧ ∀ off, b.place.target = .mmio off → b.place.immed = true → exec (.storePerformed uid n) s = .next (settle (settleStores
        (pin (regWrite (replaceDeferred (s.setGroup left) b.place.target b.data.length) off b.data) g.ctx) uid))

/-- R200, R271, R272: the write of one element of a TSTR or AST is performed at its place, its bits alone: those outside its mask stay as they were
there. -/
def Claim.PerformedElementsMergeTheirBits : Prop :=
  ∀ (s : State) (uid n : Nat) (g left : Group) (w : TileWrite), TileRuns s uid n g w left →
    roomToWrite (s.setGroup left) g w.place (linesOf (spaceOf w.place.target).2 w.data.length) →
    let old := readPlace s w.place w.data.length
    ∃ t data, exec (.storePerformed uid (g.stores.length + n)) s = .next t ∧ storeFrame s t uid left ∧ DataPerformed s t g w.place data
      ∧ data.length = w.data.length
      ∧ ∀ k < w.data.length, ∀ b < 8, (data.getD k 0).getLsbD b = if w.mask.getLsbD b then (w.data.getD k 0).getLsbD b else (old.getD k 0).getLsbD b

/-- R223, R231: a member's store of elements at its Spring unit: in a region that is FITTED or DENSE each element takes its value, in its live entry,
in a new entry or in the reserve, and one with which an EXACT network agrees writes nothing; it waits there while its region is INSTALLING or
DEMOTING or an earlier one waits, and where the table cannot take it under INFL = DEMOTE the region begins to be demoted. -/
def Claim.RegionStoresChangeTheirEntries : Prop :=
  ∀ (s : State) (hdr : Nat) (ag : Agent) (issue : Nat) (l : Elems),
    let h := headerAt s.hbm hdr
    let live := fun (k : Nat) => liveEntry s.hbm hdr h (coordWord (h.pointOf k))
    let agrees := fun (k v : Nat) => h.exact = true ∧ evalNet s.hbm hdr h h.aslot (h.pointOf k) = v
    let stores := applyFitted s hdr ag issue l
    let holds := fun (t : State) => { t with work := { t.work with springHeld := t.work.springHeld ++
      [{ hdr := hdr, ctx := ag.ctx, group := ag.group, lane := ag.lane, issue := issue, elems := l }] } }
    let busy := h.state = 1 ∨ h.state = 3 ∨ ∃ y ∈ s.work.springHeld, y.hdr = hdr
    (h.state ≠ 0 → busy → stores = holds s)
    ∧ (h.state = 4 ∨ h.state = 2 ∧ tableTakes s.hbm hdr h l = true → ¬ busy → ∀ t, l.foldlM (fun u e => storeElem u hdr e) s = some t →
        windowStore s hdr l = false → stores = t)
    ∧ (h.state = 2 → tableTakes s.hbm hdr h l = false → h.inflFault = false → ¬ busy → ∀ u v, abortRefit s hdr = some u →
        setField (modifyRegion u hdr fun r => { r with owner := none, written := 0 }) hdr 0 29 3 3 = some v → stores = holds v)
    ∧ (tableTakes s.hbm hdr h l = true ↔
        let new := l.filter fun e => (live e.1).isNone && !(h.exact && evalNet s.hbm hdr h h.aslot (h.pointOf e.1) == e.2)
        new = [] ∨ new.length ≤ ((List.range h.cap).filter fun i => (excAt s.hbm hdr h i).state == 0).length
          ∧ h.params + h.livecnt + new.length < h.points)
    ∧ ∀ k v, let stored := storeElem s hdr (k, v)
      (h.state = 4 → stored = trackedWrite s (h.dempa + k * h.esize) (leBytes h.esize v))
      ∧ (h.state ≠ 4 → ∀ i, live k = some i → stored = trackedWrite s (hdr + h.entryOff i)
          (leBytes 6 (excAt s.hbm hdr h i).coord ++ leBytes 4 v ++ leBytes 2 s.domain.rin.toNat ++ leBytes 1 1 ++ leBytes 3 (excAt s.hbm hdr h i).link))
      ∧ (h.state ≠ 4 → live k = none → agrees k v → stored = some s)
      ∧ (h.state ≠ 4 → live k = none → ¬ agrees k v → ∀ i t u w,
          ((List.range h.cap).find? fun i => (excAt s.hbm hdr h i).state == 0) = some i →
          let bucket := bucketAddr hdr h (coordWord (h.pointOf k))
          trackedWrite s (hdr + h.entryOff i) (leBytes 6 (coordWord (h.pointOf k)) ++ leBytes 4 v ++ leBytes 2 s.domain.rin.toNat ++ leBytes 1 1
            ++ leBytes 3 (s.hbm.readNat bucket 3)) = some t →
          trackedWrite t bucket (leBytes 4 (i + 1)) = some u → setField u hdr 10 32 24 (h.livecnt + 1) = some w → stored = some w)

/-- R195, R223: the store of one member to a region reaches its Spring unit as it issues, with its issue counted until it is applied; on a page that
is neither IMMEDIATE nor IRREVOCABLE its bytes have no other effect. -/
def Claim.RegionStoresReachTheirUnit : Prop :=
  ∀ (s : State) (x : Issue) (size l hdr : Nat) (ord : MemOrder) (sc : Scope) (data : Nat → List Byte) (va : DWord) (es : Elems),
    let u := applyFitted (s.setGroup { x.g with stQueue := x.g.stQueue ++ [x.g.nextIssue], nextIssue := x.g.nextIssue + 1 }) hdr
      { agentOf x.g with lane := l } x.g.nextIssue es
    ∀ p, groupAccess u x.g (storeAccess (data l).length) va = .ok p → p.immed = false → p.irrev = false → inWindow u hdr = false →
      acceptStores s x size ord sc data [(l, va, .region hdr es)] = settleStores u x.uid

/-- R91, R189, R208, R329, R333: when a DST is performed, the descriptor of its line takes its value, with bits [27:25] 0, and no byte of data
changes: in HBM the RINTAG becomes the present interval where the write is tracked, a Pond and another device hold the descriptor beside
the line, one that a commit performs joins the deferred writes, and the host and MMIO discard it. -/
def Claim.PerformedDescriptorsChangeTheirLine : Prop :=
  ∀ (s : State) (uid n : Nat) (g left : Group) (b : Buffered), StoreRuns s uid n g b left → b.size = 5 →
    swf (sideDefault s) s.side = true →
    let x : Word := BitVec.ofNat 32 (ofLe b.data) &&& 0xF1FFFFFF
    let queued := fun (home : Bool) => s.deferred ++ [deferredWrite s (agentOf g) b.place.target (leBytes 4 x.toNat) true home false]
    let plain := fun (t : State) => t.hbm = s.hbm ∧ t.host = s.host ∧ t.work.pond = s.work.pond
    let key := peerSideKey (spaceOf b.place.target).2
    (∀ pa, b.place.target = .hbm pa → pa % 64 = 0 → roomToWrite (s.setGroup left) g b.place [pa] →
        ∃ t, exec (.storePerformed uid n) s = .next t ∧ storeFrame s t uid left ∧ plain t ∧ t.peer = s.peer
          ∧ ∀ a, sideGet t a = if a / 64 = pa / 64
              then (if b.place.immed = true ∨ inWindow s pa = true then rintag (sideGet s pa) else s.domain.rin) ++ x else sideGet s a)
    ∧ (∀ core off, b.place.target = .pond core off → roomToWrite (s.setGroup left) g b.place [] →
        ∃ t, exec (.storePerformed uid n) s = .next t ∧ storeFrame s t uid left ∧ plain t ∧ t.peer = s.peer ∧ t.side = s.side
          ∧ t.work.pondDesc = sput 0x7F00 s.work.pondDesc ((core * 2 ^ 20 + off) / 64) x
          ∧ (b.place.immed = false → t.deferred = if b.place.irrev then queued true else s.deferred))
    ∧ ((∃ a, b.place.target = .host a ∨ b.place.target = .mmio a) →
        ∃ t, exec (.storePerformed uid n) s = .next t ∧ storeFrame s t uid left ∧ plain t ∧ t.peer = s.peer ∧ t.side = s.side
          ∧ t.deferred = s.deferred ∧ t.regs = s.regs)
    ∧ (∀ dev, deviceOf b.place.target = some dev → roomToWrite (s.setGroup left) g b.place [] →
        ∃ t, exec (.storePerformed uid n) s = .next t ∧ storeFrame s t uid left ∧ plain t ∧ t.side = s.side
          ∧ (if b.place.immed = true ∨ b.place.irrev = false ∧ inDomain s dev = true
              then t.peer.readNat key 4 = (x ^^^ 0x7F00).toNat ∧ ∀ a < 2 ^ 60, t.peer.byte a = s.peer.byte a
              else t.peer = s.peer ∧ t.deferred = queued false))

end Sys2Proof.Machine

/-- R91, R189, R193, R195, R200, R208, R223, R271, R329, R333: when a store, an element of a TSTR or AST, or a DST is performed, exactly its bytes, its
bits or the descriptor of its line change, wherever its page lies; a store of a region changes its elements' entries at its Spring unit. That a
write whose earlier neighbours in its Pond segment are left waits for them is kept for the whole group (log entry 38), what a later write replaces
of a deferred one (32) and which stores a Spring unit holds (43) are the model's choices. -/
def Obligations.PerformedStoresWriteTheirBytes : Prop :=
  Claim.LaterWritesReplaceDeferredBytes ∧ Claim.PerformedStoreBytes ∧ Claim.PerformedElementsMergeTheirBits ∧ Claim.PerformedDescriptorsChangeTheirLine
  ∧ Claim.RegionStoresChangeTheirEntries ∧ Claim.RegionStoresReachTheirUnit

/-- R195, R200, R261 to R263, R270, R272: a load's values reach exactly the registers that it names: V and S registers, the elements of a tile with
the TFMT, RSCALE and RSPEC of its registers, and those of an accumulator with its ATAG and an ASTEP of 0; and LD falls past every load at the
front that is done. -/
def Sys2Proof.Machine.Claim.LoadValuesReachTheirRegisters : Prop :=
  ∀ (s : State) (uid n : Nat) (g : Group) (l : Load),
    s.group? uid = some g → g.canonical = true → g.loads[n]? = some l → l.done = false →
    (∀ w ∈ l.vals, ∀ lane r, w.1 = .v lane r → r < 256) → (∀ t, l.tile = some t → t.scale.length = 16 ∧ t.spec.length = 16) →
    ∃ g', exec (.loadValueReturn uid n) s = .next (settle (s.setGroup g'))
      ∧ g' = { g with v := g'.v, sreg := g'.sreg, tile := g'.tile, tfmt := g'.tfmt, rscale := g'.rscale, rspec := g'.rspec, acc := g'.acc
                      atag := g'.atag, astep := g'.astep, loads := g'.loads }
      ∧ (∀ lane r, r < 256 → g'.vget lane r = written
          (l.vals.filterMap fun (k, w) => match k with | .v i j => if i = lane then some (j, w) else none | _ => none) r (g.vget lane r))
      ∧ (∀ r, g'.sregGet r = written (l.vals.filterMap fun (k, w) => match k with | .s j => some (j, w) | _ => none) r (g.sregGet r))
      ∧ g'.loads = (g.loads.set n { l with done := true }).dropWhile (fun (y : Load) => y.done)
      ∧ (l.tile = none → g'.tile = g.tile ∧ g'.tfmt = g.tfmt ∧ g'.rscale = g.rscale ∧ g'.rspec = g.rspec)
      ∧ (∀ t, l.tile = some t →
          let into := fun (r : Nat) => t.reg ≤ r ∧ r < t.reg + t.count
          (∀ k, sget 0 g'.tile k = written l.elems k (sget 0 g.tile k))
          ∧ (∀ r, sget 0 g'.tfmt r = if into r then t.fmt else sget 0 g.tfmt r)
          ∧ ∀ k, sget 0x7F g'.rscale k = (if into (k / 16) then t.scale.getD (k % 16) 0 else sget 0x7F g.rscale k)
            ∧ sget 0 g'.rspec k = if into (k / 16) then t.spec.getD (k % 16) 0 else sget 0 g.rspec k)
      ∧ (l.tile ≠ none ∨ l.acc = none → g'.acc = g.acc ∧ g'.atag = g.atag ∧ g'.astep = g.astep)
      ∧ (∀ a tag, l.tile = none → l.acc = some (a, tag) →
          let into := fun (r : Nat) => r = a ∨ tag = 2 ∧ r = a + 1
          (∀ k, sget 0 g'.acc k = written (l.elems.map fun e => (e.1, e.2.setWidth 32)) k (sget 0 g.acc k))
          ∧ ∀ r, sget 0 g'.atag r = (if into r then tag else sget 0 g.atag r) ∧ sget 0 g'.astep r = if into r then 0 else sget 0 g.astep r)

/-- R192, R193: every ATOM, wherever its members' accesses pass, takes its members in rising lane order and brings each old value to D. Which registers
Z zeroes for a thread that is no member of an ATOM.cas is the model's choice (log entry 122). -/
def Obligations.AtomicsReadAndWriteTogether : Prop :=
  ∀ (d a : VReg) (ord : MemOrder) (sc : Scope),
    let low := fun (w : Nat) (n : Nat) => BitVec.ofNat w n
    let op := fun (f : Nat → Nat → Nat) => (fun old v _ => some (f old v) : AtomFn)
    let cas : AtomFn := fun old v new => if old = v then some new else none
    AtomResult (.atomAddI32 d a ord sc) 0 4 d a ord sc (op fun o v => (o + v) % 2 ^ 32)
    ∧ AtomResult (.atomMinI32 d a ord sc) 1 4 d a ord sc (op fun o v => if (low 32 o).toInt ≤ (low 32 v).toInt then o else v)
    ∧ AtomResult (.atomMaxI32 d a ord sc) 2 4 d a ord sc (op fun o v => if (low 32 o).toInt ≤ (low 32 v).toInt then v else o)
    ∧ AtomResult (.atomMinN32 d a ord sc) 3 4 d a ord sc (op fun o v => if o ≤ v then o else v)
    ∧ AtomResult (.atomMaxN32 d a ord sc) 4 4 d a ord sc (op fun o v => if o ≤ v then v else o)
    ∧ AtomResult (.atomAnd d a ord sc) 5 4 d a ord sc (op fun o v => o &&& v)
    ∧ AtomResult (.atomOr d a ord sc) 6 4 d a ord sc (op fun o v => o ||| v)
    ∧ AtomResult (.atomXor d a ord sc) 7 4 d a ord sc (op fun o v => o ^^^ v)
    ∧ AtomResult (.atomXchgI32 d a ord sc) 8 4 d a ord sc (op fun _ v => v)
    ∧ AtomResult (.atomCasI32 d a ord sc) 9 4 d a ord sc cas
    ∧ AtomResult (.atomAddF32 d a ord sc) 10 4 d a ord sc (op fun o v => (rnAdd fp32 o v).code)
    ∧ AtomResult (.atomAddI64 d a ord sc) 16 8 d a ord sc (op fun o v => (o + v) % 2 ^ 64)
    ∧ AtomResult (.atomXchgI64 d a ord sc) 17 8 d a ord sc (op fun _ v => v)
    ∧ AtomResult (.atomCasI64 d a ord sc) 18 8 d a ord sc cas

/-- R182, R190: SEGQ, wherever its members name segments, reads their place, state and DEAD flag; SEGSET, with the group's LD and ST at
0, changes them in rising lane order, as the table of R182 has it: FILLING, DRAINING and requests for them give 0x0402, a request for
READY sets DEAD, and one for EMPTY clears it where the segment is READY and changes nothing where it is EMPTY. -/
def Sys2Proof.Machine.Claim.SegmentsAreQueriedAndSet : Prop :=
  ∀ (d a b : VReg),
    LaneResultIf (.segq d a b) (fun s x => ∀ l ∈ x.members, ∃ k, segMember s x.g segqAccess (addrB a b x l) = .ok k)
      (fun s x l => match segMember s x.g segqAccess (addrB a b x l) with
        | .ok k =>
          let core := k / 256
          resD x d (BitVec.ofNat 32 (core / 48 * 2 ^ 22 + core % 48 * 2 ^ 16 + k % 256 * 2 ^ 8
            + (if (segAt s k).dead then 4 else 0) + (segAt s k).state.toNat))
        | .error _ => {})
    ∧ (∀ s x t, Issues s x (.segset d a b) → x.g.loads = [] → x.g.stQueue = [] →
        x.members.foldlM (fun s l => segsetMember s x.g (addrB a b x l) (x.g.vget l (x.ext.vnum 18 d))) s = .ok t →
        exec (.segset d a b) s = .next (completed (.segset d a b) x t))
    ∧ ∀ s g va (v : Word) k, segMember s g segsetAccess va = .ok k →
        let busy := (segAt s k).state = 1 ∨ (segAt s k).state = 3 ∨ v.toNat % 2 = 1
        (busy → segsetMember s g va v = .error (0x0402, k % 256 * 2 ^ 40))
        ∧ (¬ busy → v.toNat % 4 = 2 →
            segsetMember s g va v = .ok (segPut s k { segAt s k with state := 2, dead := v.getLsbD 2 }))
        ∧ (¬ busy → v.toNat % 4 = 0 → (segAt s k).state = 2 →
            segsetMember s g va v = .ok (segPut s k { segAt s k with state := 0, dead := false }))
        ∧ (v.toNat % 4 = 0 → (segAt s k).state = 0 → segsetMember s g va v = .ok s)

/-- R194, R196: FENCE completes once the stores that it orders are performed, and WAIT once no counter stands above its threshold; neither
does anything else. -/
def Sys2Proof.Machine.Claim.FencesAndWaitsOnlyWait : Prop :=
  ∀ (ord : MemOrder) (sc : Scope) (ld st cp mx cl : BitVec 4),
    StateResult (.fence ord sc) (fun s x => noPendingStore s x ord sc ∧ noSystemWait s x ord sc)
      (fun s _ => s)
    ∧ StateResult (.wait ld st cp mx cl) (fun _ x =>
        let ok := fun (count : Nat) (n : BitVec 4) => n = 15 ∨ count ≤ n.toNat
        ok x.g.loads.length ld ∧ ok x.g.stQueue.length st ∧ ok x.g.copies.length cp ∧ ok x.g.mmas.length mx ∧ ok x.g.clops.length cl)
      (fun s _ => s)

/-- R155: REGROUP gives each member, in the sorted order of the keys, the live registers of another, and D the lane they came from. -/
def Obligations.RegroupMovesLiveRegisters : Prop :=
  ∀ (d a : VReg) (b : SReg7),
    let live := fun (x : Issue) => (List.range x.g.vbud).filter fun r => (x.g.sregGet (x.ext.snum 4 b.toNat + r / 32)).getLsbD (r % 32)
    let order := fun (x : Issue) => sortLanes (fun l => (opA x l a).toNat) x.members
    LaneResultIf (.regroup d a b) (fun _ x => ∀ r ∈ live x, vPending x.g x.lanes r 1 = false)
      (fun _ x l =>
        let o := (order x).getD (x.members.idxOf l) 0
        { v := (live x).map (fun r => (r, x.g.vget o r)) ++ [(x.ext.vnum 18 d, BitVec.ofNat 32 o)] })
    ∧ ∀ (key : Nat → Nat) (lanes : List Nat), (sortLanes key lanes).Perm lanes
      ∧ (sortLanes key lanes).Pairwise (fun i j => key i ≤ key j)
      ∧ ∀ v, (sortLanes key lanes).filter (fun i => key i == v) = lanes.filter (fun i => key i == v)

/-- R158 to R161, R206: RDV.mark arrives and returns the count before, RDV.hold and RDV.peek read the count, and of the threads of an RDV.meet those that
have not arrived do so, and those whose phase has completed go on, while the others wait; the arrival of the last participant completes the phase. How
a set that waits at an RDV.meet arrives and goes on is the model's choice (log entry 21). -/
def Obligations.BarriersCountTheirPhases : Prop :=
  ∀ (d : SReg) (bar : BitVec 8) (lvl : BitVec 2),
    let count := fun (s : State) (x : Issue) => (barAt (barriersOf s lvl.toNat x.g) (barrierIndex lvl.toNat bar.toNat)).k
    let put := fun (k : Word) (s : State) (x : Issue) => s.modifyGroup x.uid fun g => g.sregPut (regSD x d) k
    let free := fun (s : State) (x : Issue) (lanes : List Nat) => (∀ l ∈ lanes, threadId lvl.toNat x.g l ∉
        (barAt (barriersOf s lvl.toNat x.g) (barrierIndex lvl.toNat bar.toNat)).arrived)
        ∧ (shared s x lvl.toNat → storesPerformed s x.g = true)
    let arrived := fun (s : State) (x : Issue) (lanes : List Nat) => modifyBarrier s lvl.toNat bar.toNat x.g fun b =>
      completePhase (participants s lvl.toNat x.g) (arrive b (lanes.map (threadId lvl.toNat x.g)))
    let waitsHere := fun (x : Issue) (l : Nat) => match (x.g.thread l).status with
      | .meet i j _ => i == lvl.toNat && j == bar.toNat
      | _ => false
    let metAt := fun (x : Issue) (k : Word) (l : Nat) => (x.g.thread l).status == .meet lvl.toNat bar.toNat k
    let atFirst := fun (x : Issue) (g : Group) (gone : List Nat) => { g with
      ext := [], issuing := [], waited := 0, elig := 0, promoted := none, released := (0, 0)
      threads := g.threads.zipIdx.map fun (th, l) =>
        if l ∈ x.lanes then
          (if l ∈ gone then { th with pc := th.pc + 4 } else { th with pc := th.pc - BitVec.ofNat 64 (4 * g.ext.length) })
        else th }
    StateResult (.rdvMark d bar lvl) (fun s x => free s x x.lanes) (fun s x => put (count s x) (arrived s x x.lanes) x)
    ∧ StateResult (.rdvPeek d bar lvl) always (fun s x => put (count s x) s x)
    ∧ StateResult (.rdvHold d bar lvl) (fun s x => let n := (count s x - x.g.sregGet (regSD x d)).toNat; 1 ≤ n ∧ n < 2 ^ 31
          ∧ ∀ b ∈ x.g.stores, b.ord.getLsbD 1 = true → ¬ shared s x (min lvl.toNat b.scope.toNat))
        (fun s x => put (count s x) s x)
    ∧ (∀ s x, Issues s x (.rdvMeet d bar lvl) →
        let coming := x.lanes.filter fun l => !waitsHere x l
        let gone := x.lanes.filter fun l => waitsHere x l && !metAt x (count s x) l
        (coming = [] ∨ ¬ free s x coming) → gone ≠ [] →
        exec (.rdvMeet d bar lvl) s = .next
          { (put (count s x) (s.modifyGroup x.uid fun g => g.withStatus gone .run) x).modifyGroup x.uid
              (fun g => atFirst x g gone) with cur := none })
    ∧ (∀ s x, Issues s x (.rdvMeet d bar lvl) →
        let coming := x.lanes.filter fun l => !waitsHere x l
        coming ≠ [] → free s x coming →
        let t := (arrived s x coming).modifyGroup x.uid fun g => g.withStatus coming (.meet lvl.toNat bar.toNat (count s x))
        let y := { x with g := (t.group? x.uid).getD x.g }
        let gone := x.lanes.filter fun l => !metAt y (count t y) l
        let u := if gone = [] then t else put (count t y) (t.modifyGroup x.uid fun g => g.withStatus gone .run) x
        exec (.rdvMeet d bar lvl) s = .next
          { u.modifyGroup x.uid (fun g => { atFirst x g gone with choice := afterIssue g.choice x.lanes x.ext.yields }) with cur := none })
    ∧ ∀ (parts : List Nat) (b : Barrier), b.arrived ≠ [] →
        completePhase parts b = if (∀ p ∈ parts, p ∈ b.arrived) ∧ b.engines = 0
          then { k := b.k + 1, arrived := [], engines := 0, err := false, lastErr := b.err } else b

namespace Sys2Proof.Machine

/-- Every earlier access of the group is performed, and the counter of an engine class may rise (R206, R244). -/
def mayIssueTo (s : State) (x : Issue) (count : Nat) : Prop := ownAccessesDone s x ∧ count < 255

/-- The S-register pair that a field of an engine instruction names. -/
def pairS (x : Issue) (lo : Nat) (a : SReg) : DWord := x.g.spair (x.ext.snum lo a.toNat)

/-- The completion address of an engine instruction, if its CS names a pair (R34, R247). -/
def compAddr (x : Issue) (cs : SReg) : Option DWord :=
  if cs = 255 ∧ x.ext.shiField 0 2 = 0 then none else some (pairS x 1 cs)

/-- A new operation of the FR class: every field of its record as the issue makes it (R236, R244). -/
def newRegionOp (x : Issue) (kind : Nat) (words : List DWord) (cs : SReg) : UnitOp :=
  { seq := if (x.g.frSeq + 1) % 2 ^ 31 = 0 then 1 else (x.g.frSeq + 1) % 2 ^ 31, kind := kind, words := words, lane := lowLane x.lanes
    core := x.g.core, comp := compAddr x cs, scope := 3, step := 0, done := none }

/-- The effect of issuing a region-control operation: it joins the FR class, and FR rises by one. -/
def regionQueued (kind : Nat) (words : State → Issue → List DWord) (cs : SReg) (s : State) (x : Issue) : State :=
  s.setGroup { x.g with frops := x.g.frops ++ [newRegionOp x kind (words s x) cs], frSeq := (newRegionOp x kind (words s x) cs).seq }

/-- The header that a pair names, where the checks of R173 find one. -/
def regionOf (s : State) (x : Issue) (sh : SReg) : Nat :=
  match fittedHeader s x.g (pairS x 17 sh) with
  | .ok h => h
  | .error _ => 0

/-- A copy-engine instruction, wherever its issue passes every check: the segments of the plan change state, a barrier of its record is
armed, and the operation joins the CP class. -/
def CopyResult (i : Instr) (k : CopyKind) (sh co cs : SReg) : Prop :=
  ∀ s x p, Issues s x i → mayIssueTo s x x.g.copies.length →
    planCopy s x k (pairS x 17 sh) ((List.range 4).map fun n => x.g.sregGet (x.ext.snum 9 co.toNat + n)) (compAddr x cs) = .ok p →
    let op : CopyOp :=
      { seq := if (x.g.cpSeq + 1) % 2 ^ 31 = 0 then 1 else (x.g.cpSeq + 1) % 2 ^ 31, op := k.code, words := p.words
        coords := (List.range 4).map fun n => x.g.sregGet (x.ext.snum 9 co.toNat + n), lane := lowLane x.lanes, core := x.g.core
        comp := compAddr x cs, fill := p.fill, drain := p.drain, bar := Shape.bar p.words, next := 0, halted := none, done := none
        offend := none, satd := [], width := 0, gen := 0 }
    exec i s = .next (completed i x ((registerArrival (setSegs (setSegs s p.drain 3 false) p.fill 1 true) x.g op.bar).modifyGroup x.uid
      fun g => { g with copies := g.copies ++ [op], cpSeq := op.seq }))

/-- An element of an A register. -/
def accOf (g : Group) (r i j : Nat) : Word := sget 0 g.acc (r * 256 + i * 16 + j)
/-- An element of a tile register as its format has it: bits [7:6] of an E3M2 or E2M3 element are reserved and read 0 (R7, R83). -/
def formatBits (fmt v : Nat) : Nat := if fmt = 7 ∨ fmt = 8 then v % 64 else v

/-- An element of the tile that begins at a T register, in a format. -/
def tileElem (g : Group) (r fmt i j : Nat) : DWord := BitVec.ofNat 64 (formatBits fmt (sget 0 g.tile (tileKey r fmt i j)).toNat)

/-- A register of a tile fits its format: aligned, within the budget and not being loaded (R262, R268). -/
def tileFits (x : Issue) (r fmt : Nat) : Prop := r + tileRegs fmt ≤ x.g.tbud ∧ r % tileRegs fmt = 0 ∧ tPending x.g r (tileRegs fmt) = false

/-- A tile that may be read: a known format, the same in each of its registers (R88, R262). -/
def tileReadable (x : Issue) (r : Nat) : Prop :=
  let f := x.g.tfmtOf r
  1 ≤ f ∧ f ≤ 0x10 ∧ tileFits x r f ∧ ∀ k < tileRegs f, x.g.tfmtOf (r + k) = f

/-- What an access that passes its checks gives, or a stand-in. -/
def fittedOr {α : Type} (zero : α) (r : Fitted α) : α :=
  match r with
  | .ok v => v
  | _ => zero

/-- The issue of a matrix operation, wherever every earlier access of the group is performed, no check of R267 fails and no operand is
pending (R206). -/
def MmaIssued (i : Instr) (acc : AReg) (ta tb : TReg) (mb : SReg) (dw : Bool) : Prop :=
  StateResult i
    (fun s x => ownAccessesDone s x ∧ mmaFault x.g ((encode i).getD 0) acc.toNat ta.toNat tb.toNat dw = none ∧ x.g.mmas.length < 255
      ∧ tPending x.g ta.toNat (tileRegs (x.g.tfmtOf ta.toNat)) = false ∧ tPending x.g tb.toNat (tileRegs (x.g.tfmtOf tb.toNat)) = false
      ∧ aPending x.g acc.toNat (familyRegs (tileFamily (x.g.tfmtOf ta.toNat)) dw) = false)
    fun s x =>
      let mask := fun k => (x.g.sregGet (x.ext.snum 6 mb.toNat + k)).truncate 16
      let op : MmaOp :=
        { seq := if (x.g.mxSeq + 1) % 2 ^ 31 = 0 then 1 else (x.g.mxSeq + 1) % 2 ^ 31, acc := acc.toNat, dw := dw
          a := tileOf x.g ta.toNat, b := tileOf x.g tb.toNat, rows := mask 0, cols := mask 1, deps := mask 2 }
      s.setGroup { x.g with mmas := x.g.mmas ++ [op], mxSeq := op.seq }

end Sys2Proof.Machine

/-- R214, R226, R235 to R237: RINST, RFIT, RDEM and RABORT, once the group's accesses are performed and their addresses pass, hand their
operation to the FR class and go on. -/
def Sys2Proof.Machine.Claim.RegionOperationsAreQueued : Prop :=
  ∀ (sh co cs : SReg),
    let comp := fun s (x : Issue) => compFault s x.g (compAddr x cs) = none
    let onRegion := fun (i : Instr) kind =>
      StateResult i (fun s x => mayIssueTo s x x.g.frops.length ∧ comp s x ∧ ∃ h, fittedHeader s x.g (pairS x 17 sh) = .ok h)
        (regionQueued kind (fun s x => [pairS x 17 sh, BitVec.ofNat 64 (regionOf s x sh)]) cs)
    StateResult (.rinst sh co cs) (fun s x => mayIssueTo s x x.g.frops.length ∧ comp s x)
      (regionQueued 0 (fun _ x => [pairS x 17 sh, pairS x 9 co, x.g.spair (x.ext.snum 9 co.toNat + 2)]) cs)
    ∧ onRegion (.rfit sh cs) 1 ∧ onRegion (.rdem sh cs) 2 ∧ onRegion (.rabort sh cs) 3

/-- R238, R239: RLDG reads an element and its region's generation in each member, and RSTAT a word of a region's header once; both as loads
that a Spring unit returns. -/
def Sys2Proof.Machine.Claim.RegionReadsAreLoads : Prop :=
  ∀ (d a : VReg) (ord : MemOrder) (sc : Scope) (sd sa sb : SReg),
    let at_ := fun s (x : Issue) l => fittedOr (0, 0) (rldgMember s x.g (pairA x l a))
    StateResult (.rldg d a ord sc)
        (fun s x => x.members ≠ [] ∧ x.g.loads.length < 255 ∧ noPendingRelease s x ord sc
          ∧ ∀ l ∈ x.members, ∃ v, rldgMember s x.g (pairA x l a) = .ok v)
        (fun s x =>
          let vals := x.members.flatMap fun l =>
            [(RegDst.v l (x.ext.vnum 18 d), (at_ s x l).1), (RegDst.v l (x.ext.vnum 18 d + 1), (at_ s x l).2)]
          s.setGroup (applyZeros (.rldg d a ord sc) x { x.g with loads := x.g.loads ++ [{ plainLoad vals with spring := true }] }))
    ∧ ∀ h, StateResult (.rstat sd sa sb)
        (fun s x => x.g.loads.length < 255 ∧ fittedHeader s x.g (pairS x 9 sa) = .ok h
          ∧ ((∀ y ∈ s.work.springHeld, y.hdr = h → y.group ≠ x.g.uid) ∨ ((headerAt s.hbm h).state ≠ 2 ∧ (headerAt s.hbm h).state ≠ 4)))
        (fun s x =>
          let w := regionWord (headerAt s.hbm h) ((opSB x sb).toNat % 8)
          s.setGroup { x.g with loads := x.g.loads ++ [{ plainLoad [(RegDst.s (regSD x sd), BitVec.ofNat 32 w)] with spring := true }] })

namespace Sys2Proof.Machine

/-- Replaces every operation of class FR of a number in a group by one that has ended: its RESULT, its CAUSE and its ERRIDX (R236). -/
def regionOpDone (s : State) (uid seq code cause idx : Nat) : State :=
  s.modifyGroup uid fun g => { g with frops := g.frops.map fun (y : UnitOp) =>
    if y.seq = seq then { y with step := 2, done := some (code, BitVec.ofNat 16 cause, BitVec.ofNat 48 idx) } else y }

/-- The operation that a region's Spring unit works for has ended, where there is one. -/
def ownerDone (s : State) (owner : Option (Nat × Nat)) (code : Nat) : State :=
  match owner with
  | some (uid, seq) => regionOpDone s uid seq code 0 0
  | none => s

/-- An operation whose Spring unit has begun to work for it. -/
def regionOpBegun (s : State) (uid seq : Nat) : State :=
  s.modifyGroup uid fun g => { g with frops := g.frops.map fun (y : UnitOp) => if y.seq = seq ∧ y.step = 0 then { y with step := 1 } else y }

/-- An install keeps the header that its image names, where there is one (R331). -/
def regionOpAt (s : State) (uid seq : Nat) (hdr : Option Nat) : State :=
  match hdr with
  | none => s
  | some h => s.modifyGroup uid fun g => { g with frops := g.frops.map fun (y : UnitOp) =>
      if y.seq = seq then { y with words := y.words ++ [BitVec.ofNat 64 h] } else y }

/-- The error record of a region-control operation: ENGINE 5, SEV 3 and ACTION 0 (R236). -/
def regionRecord (g : Group) (op : UnitOp) (c : CauseDetail) (kind va : Nat) : RecordArgs :=
  { team := g.team, ctx := g.ctx, engine := 5, cause := c.1, slot := g.slot, core := g.core, lanes := 2 ^ op.lane, va := some va
    sev := 3, kind := kind, detail := c.2 }

/-- The writes of a RESULT ERROR with its CAUSE and ERRIDX (R236, R237). -/
def errorFields (cause idx : Nat) : List (Nat × Nat × Nat × Nat) := [(11, 0, 8, 6), (11, 16, 16, cause), (11, 32, 32, idx)]

/-- A region's Spring unit works for an operation, or for none. -/
def workFor (s : State) (hdr : Nat) (op : Option (Nat × Nat)) : State := modifyRegion s hdr fun r => { r with owner := op }

/-- A region's Spring unit begins a demotion, for an operation or for none: nothing of the reserve is written yet. -/
def demoteFor (s : State) (hdr : Nat) (op : Option (Nat × Nat)) : State := modifyRegion s hdr fun r => { r with owner := op, written := 0 }

/-- The work of the machine once n bytes of HBM have been written: their words carry the number of the moves of teams that came before (R321). -/
def datedWork (s : State) (pa n : Nat) : Work :=
  if s.moveCount = 0 then s.work else { s.work with dates := redate s.moveCount pa n s.work.dates }

/-- R212, R233: writing a header's field gives it its value and changes no other bit of the header and no byte beside its word. -/
def Claim.HeaderFieldsChangeAlone : Prop :=
  ∀ (s u : State) (hdr k lo n v : Nat), s.hbm.wf = true → k < 16 → lo + n ≤ 64 → setField s hdr k lo n v = some u →
    bitsOf ((headerAt u.hbm hdr).getD k 0) lo n = v % 2 ^ n
    ∧ (∀ j < 16, ∀ b < 64, (j ≠ k ∨ b < lo ∨ lo + n ≤ b) →
        bitOf ((headerAt u.hbm hdr).getD j 0) b = bitOf ((headerAt s.hbm hdr).getD j 0) b)
    ∧ (∀ a, (a < hdr + 8 * k ∨ hdr + 8 * k + 8 ≤ a) → u.hbm.byte a = s.hbm.byte a) ∧ u.work = datedWork s (hdr + 8 * k) 8

/-- R225, R230, R231, R236, R237: an RFIT, RDEM or RABORT that reaches its Spring unit does what its region's state asks: it ends at once
with its RESULT, or the region becomes RUNNING, QUEUED or DEMOTING, wherever the logs have room for the header's writes. -/
def Claim.RegionOperationsArrive : Prop :=
  ∀ (s : State) (uid n : Nat) (g : Group) (op : UnitOp), s.group? uid = some g → g.frops[n]? = some op → op.step = 0 →
    let hdr := (op.words.getD 1 0).toNat
    let h := headerAt s.hbm hdr
    let me : Nat × Nat := (uid, op.seq)
    let becomes := fun t => exec (.springOperationArrival uid n) s = .next t
    let atOnce := fun code => ∀ u, setField s hdr 11 0 8 code = some u → becomes (regionOpDone u uid op.seq code 0 0)
    let fails := fun cause detail => ∀ u, setFields s hdr (errorFields cause 0) = some u →
      becomes (regionOpDone (emitRecord u (regionRecord g op (cause, detail) 0 (op.words.getD 0 0).toNat)) uid op.seq 6 cause 0)
    let small := h.points ≤ h.params + h.livecnt
    (op.kind = 1 ∨ op.kind = 2 ∨ op.kind = 3 → h.state = 0 → fails 0x0305 (pageDetail 0 false false 0 2))
    ∧ (op.kind = 1 →
        (h.state = 4 → atOnce 3)
        ∧ (h.state = 1 ∨ h.state = 3 ∨ h.state = 2 ∧ h.rstate ≠ 0 → atOnce 7)
        ∧ (h.state = 2 → h.rstate = 0 → small → h.inflFault = true → fails 0x0503 (h.cap * 2 ^ 24 + h.livecnt))
        ∧ (h.state = 2 → h.rstate = 0 → small → h.inflFault = false →
            ∀ u, setField (demoteFor s hdr (some me)) hdr 0 29 3 3 = some u → becomes (regionOpBegun u uid op.seq))
        ∧ (h.state = 2 → h.rstate = 0 → ¬ small → h.hold = true →
            ∀ u, setField s hdr 0 27 2 1 = some u → becomes (regionOpBegun (workFor u hdr (some me)) uid op.seq))
        ∧ (h.state = 2 → h.rstate = 0 → ¬ small → h.hold = false →
            ∀ u v, setEntries s hdr h 1 (markedEntries s.hbm hdr h) = some u → setField u hdr 0 27 2 2 = some v →
              becomes (regionOpBegun (modifyRegion v hdr fun r => { r with
                owner := some me, verified := false, shields := []
                snap := (liveEntries v.hbm hdr h).map fun i => (i, (excAt v.hbm hdr h i).value) }) uid op.seq)))
    ∧ (op.kind = 2 →
        (h.state = 4 → atOnce 5)
        ∧ (h.state = 1 ∨ h.state = 3 ∨ h.state = 2 ∧ h.dempa = 0 → fails 0x0602 0)
        ∧ (h.state = 2 → h.dempa ≠ 0 →
            ∀ u v, abortRefit s hdr = some u → setField (demoteFor u hdr (some me)) hdr 0 29 3 3 = some v →
              becomes (regionOpBegun v uid op.seq)))
    ∧ (op.kind = 3 →
        (h.state ≠ 0 → h.rstate = 0 → atOnce 0)
        ∧ (h.state ≠ 0 → h.rstate ≠ 0 →
            ∀ u v, abortRefit s hdr = some u → setField u hdr 11 0 8 4 = some v → becomes (regionOpDone v uid op.seq 4 0 0)))

/-- R225, R237: aborting a refit makes its MARKED entries LIVE, ends its operation with ABORTED and leaves the region IDLE; without one
nothing changes. -/
def Claim.RefitsAbort : Prop :=
  ∀ (s : State) (hdr : Nat),
    let h := headerAt s.hbm hdr
    let owner := (s.work.regions.find? fun r => r.hdr == hdr).bind fun r => r.owner
    (h.rstate = 0 → abortRefit s hdr = some s)
    ∧ (h.rstate ≠ 0 → ∀ u v w, setEntries s hdr h 1 (markedEntries s.hbm hdr h) = some u →
        setField (modifyRegion u hdr fun r => { r with owner := none, snap := [], verified := false, shields := [] }) hdr 11 0 8 4 = some v →
        setField (ownerDone v owner 4) hdr 0 27 2 0 = some w → abortRefit s hdr = some w)

/-- R213, R225, R226, R236: an RINST that reaches its Spring unit is rejected without a write to a header, or the region of its image's
VBASE becomes INSTALLING with its slots, buckets and entries cleared. -/
def Claim.InstallsBegin : Prop :=
  ∀ (s : State) (uid n : Nat) (g : Group) (op : UnitOp), s.group? uid = some g → g.frops[n]? = some op → op.step = 0 → op.kind = 0 →
    let image := (op.words.getD 0 0).toNat
    let becomes := fun t => exec (.springOperationArrival uid n) s = .next t
    let fails := fun (u : State) c idx kind va => becomes (regionOpDone (emitRecord u (regionRecord g op c kind va)) uid op.seq 6 c.1 idx)
    (∀ va c, readImage s g op.core 8 16 image = .fault va c → fails s c 0 7 va.toNat)
    ∧ ∀ b, readImage s g op.core 8 16 image = .ok b →
        let h : Header := (dwordsOf 16 b).map fun w => w.toNat
        let s0 := regionOpAt s uid op.seq (vbaseHeader s g op.core h.vbase).toOption
        (∀ k, h.badWord = some k → fails s0 (0x0602, k) k 0 image)
        ∧ (h.badWord = none →
            (∀ c, vbaseHeader s g op.core h.vbase = .error c → fails s c 0 7 h.vbase)
            ∧ ∀ hdr, vbaseHeader s g op.core h.vbase = .ok hdr →
                ((headerAt s.hbm hdr).state ≠ 0 → fails s0 (0x0602, 0) 0 0 h.vbase)
                ∧ ((headerAt s.hbm hdr).state = 0 → ∀ t u v,
                    trackedWrite s0 hdr ((h.zipIdx.map fun (w, k) =>
                      if k = 0 then setBits w 25 7 0 + 2 ^ 29 else if 10 ≤ k then 0 else w).flatMap (leBytes 8)) = some t →
                    trackedWrite t (hdr + 128) (List.replicate (2 * h.slotSize + h.bucketSize) 0) = some u →
                    setEntries u hdr h 0 (List.range h.cap) = some v →
                    becomes (regionOpBegun { v with work := { v.work with
                      regions := v.work.regions.filter (fun r => r.hdr != hdr) ++
                        [{ hdr := hdr, owner := some (uid, op.seq), snap := [], verified := false, shields := [], image := [] }] } } uid op.seq)))

/-- R220, R221, R225, R226: an install reads its parameters and walks over its set in order, with an entry for each point at which the
network does not agree; at its end the region is FITTED, DEMOTING or EMPTY again, with the RESULT of the table. -/
def Claim.InstallsEnd : Prop :=
  ∀ (s : State) (hdr : Nat) (g : Group) (op : UnitOp),
    (region? s hdr).isSome = true → (headerAt s.hbm hdr).state = 1 → ownerOf s hdr = some (g, op) →
    let h := headerAt s.hbm hdr
    let base := (op.words.getD 2 0).toNat
    let va := fun n => (base + n * h.esize) % 2 ^ 64
    let becomes := fun t => exec (.installEnd hdr) s = .next (afterRegion t hdr)
    let fails := fun (t : State) (c : CauseDetail) idx kind at_ => ∀ u v,
      setField (workFor t hdr none) hdr 0 29 3 0 = some u → setFields u hdr (errorFields c.1 idx) = some v →
      becomes (regionOpDone (emitRecord v (regionRecord g op c kind at_)) g.uid op.seq 6 c.1 idx)
    let fitted := fun (t : State) => ∀ u v, setField (workFor t hdr none) hdr 0 29 3 2 = some u → setField u hdr 11 0 8 1 = some v →
      becomes (regionOpDone v g.uid op.seq 1 0 0)
    let elem := fun (t : State) (n : Nat) => match engineRead t g op.core h.esize (BitVec.ofNat 64 (va n)) with
      | .ok b => (.ok (ofLe b) : Fitted Nat)
      | .wait => .wait
      | .fault c => if c.1 = 0x0303 then .wait else .fault c
    (∀ at_ c, readImage s g op.core h.psize h.params (op.words.getD 1 0).toNat = .fault at_ c → fails s c 0 7 at_.toNat)
    ∧ ∀ b u, readImage s g op.core h.psize h.params (op.words.getD 1 0).toNat = .ok b → trackedWrite s (hdr + 128) b = some u →
        (base = 0 → fitted u)
        ∧ (base ≠ 0 →
            (∀ t, installFrom elem hdr h.points 0 0 u = .complete t → fitted t)
            ∧ (∀ t c idx, installFrom elem hdr h.points 0 0 u = .fault t c idx → fails t c idx 7 (va idx))
            ∧ ∀ t idx left, installFrom elem hdr h.points 0 0 u = .overflow t idx left →
                (h.inflFault = true →
                  fails t (0x0503, (headerAt t.hbm hdr).cap * 2 ^ 24 + (headerAt t.hbm hdr).livecnt) idx 0 (va idx))
                ∧ (h.inflFault = false → ∀ c n, restOfSet elem h t left (idx + 1) = .fault c n → fails t c n 7 (va n))
                ∧ (h.inflFault = false → (headerAt t.hbm hdr).rstate = 0 → ∀ l v, restOfSet elem h t left (idx + 1) = .ok l →
                    setField (modifyRegion t hdr fun r => { r with image := l, owner := some (g.uid, op.seq), written := 0 }) hdr 0 29 3 3
                      = some v →
                    becomes v))

/-- R220, R226: one step of the walk over an install set: a point whose element the network of slot 0 agrees with gets no entry, any other
a LIVE entry of the present interval, and a table or a region that is then too small for the network overflows. -/
def Claim.InstallsPlaceTheirPoints : Prop :=
  ∀ (elem : State → Nat → Fitted Nat) (hdr left n used : Nat) (s : State) (v : Nat), elem s n = .ok v →
    let h := headerAt s.hbm hdr
    let p := h.setPoint n
    let goOn := fun (t : State) (used : Nat) =>
      if h.cap ≤ used ∨ h.points ≤ h.params + used then InstallEnd.overflow t n left else installFrom elem hdr left (n + 1) used t
    (agree h (evalNet s.hbm hdr h 0 p) v = true → installFrom elem hdr (left + 1) n used s = goOn s used)
    ∧ (agree h (evalNet s.hbm hdr h 0 p) v = false → ∀ t u w,
        trackedWrite s (hdr + h.entryOff used)
          (leBytes 6 (coordWord p) ++ leBytes 4 v ++ leBytes 2 s.domain.rin.toNat ++ leBytes 1 1
            ++ leBytes 3 (s.hbm.readNat (bucketAddr hdr h (coordWord p)) 3)) = some t →
        trackedWrite t (bucketAddr hdr h (coordWord p)) (leBytes 4 (used + 1)) = some u →
        setField u hdr 10 32 24 (used + 1) = some w → installFrom elem hdr (left + 1) n used s = goOn w (used + 1))

/-- R225, R227 to R229: a running refit computes its candidate, marks the entries that the candidate makes needless and records its shield
points; then, unless an RMAT reads the region, it commits where it frees more entries than it needs, and else gains nothing. -/
def Claim.RefitsEnd : Prop :=
  ∀ (s : State) (hdr : Nat) (r : Region), region? s hdr = some r → (headerAt s.hbm hdr).state = 2 → (headerAt s.hbm hdr).rstate = 2 →
    let h := headerAt s.hbm hdr
    let becomes := fun t => exec (.refitCommit hdr) s = .next (afterRegion t hdr)
    let marked := (List.range h.cap).filter fun i => (excAt s.hbm hdr h i).state == 2
    let shields := r.shields.filter fun (c, _) => (liveEntry s.hbm hdr h c).isNone
    let idle := modifyRegion s hdr fun r => { r with owner := none, snap := [], verified := false, shields := [] }
    (r.verified = false → ∀ u v, trackedWrite s (hdr + h.slotOff (1 - h.aslot)) (candidateBytes s hdr h r.snap) = some u →
      setEntries u hdr h 2 ((r.snap.filter fun (i, w) =>
        let e := excAt u.hbm hdr h i
        e.state == 1 && e.value == w && agree h (evalNet u.hbm hdr h (1 - h.aslot) (coordPoint e.coord)) w).map fun e => e.1) = some v →
      becomes (modifyRegion v hdr fun r => { r with
        verified := true
        shields := ((List.range h.points).filter fun n =>
            (liveEntry u.hbm hdr h (coordWord (h.setPoint n))).isNone
            && evalNet u.hbm hdr h (1 - h.aslot) (h.setPoint n) != evalNet u.hbm hdr h h.aslot (h.setPoint n)).map fun n =>
          (coordWord (h.setPoint n), evalNet u.hbm hdr h h.aslot (h.setPoint n)) }))
    ∧ (r.verified = true → rmatHolds s hdr = true → exec (.refitCommit hdr) s = .next s)
    ∧ (r.verified = true → rmatHolds s hdr = false → shields.length < marked.length → ∀ t u v w,
        marked.foldlM (fun s i => freeOne s hdr h i) idle = some t →
        shields.foldlM (fun s (c, v) => (freeEntry s.hbm hdr h).bind fun i => linkEntry s hdr h i c v) t = some u →
        setFields u hdr [(10, 0, 32, h.gen + 1), (0, 25, 1, 1 - h.aslot), (10, 32, 24, h.livecnt - marked.length + shields.length),
          (12, 16, 24, marked.length), (12, 40, 24, shields.length), (0, 26, 1, 1), (12, 0, 16, u.domain.rin.toNat), (0, 27, 2, 0)] = some v →
        setField v hdr 11 0 8 2 = some w → becomes (ownerDone w r.owner 2))
    ∧ (r.verified = true → rmatHolds s hdr = false → marked.length ≤ shields.length → ∀ t u v,
        setEntries idle hdr h 1 marked = some t →
        setFields t hdr [(12, 16, 24, 0), (12, 40, 24, 0), (0, 27, 2, 0)] = some u →
        setField u hdr 11 0 8 3 = some v → becomes (ownerDone v r.owner 3))

/-- R225, R232, R332: a demotion writes the elements of the reserve, a line of 64 bytes after another, as far as the log has room for them,
and goes on with the rest later; once all are written it sets LIVECNT to 0 and leaves the region DENSE, with RESULT DEMOTED. -/
def Claim.DemotionsEnd : Prop :=
  ∀ (s : State) (hdr : Nat) (r : Region), region? s hdr = some r → (headerAt s.hbm hdr).state = 3 →
    let h := headerAt s.hbm hdr
    let elem := fun (m : Memory) idx =>
      let p := h.pointOf idx
      if (h.outside p).isSome then (if h.ood = 2 then h.fill else 0)
      else match r.image.find? fun (c, _) => c == coordWord p with
        | some (_, v) => v
        | none => match liveEntry m hdr h (coordWord p) with
          | some i => (excAt m hdr h i).value
          | none => evalNet m hdr h h.aslot p
    let line := fun (m : Memory) k => (List.range (64 / h.esize)).flatMap fun i => leBytes h.esize (elem m (k * (64 / h.esize) + i))
    let total := h.reserveSize / 64
    let write := fun n k t => writeReserve hdr h r.image n k t
    (∀ k t, write 0 k t = (t, k))
    ∧ (∀ n k t u, trackedWrite t (h.dempa + 64 * k) (line t.hbm k) = some u → write (n + 1) k t = write n (k + 1) u)
    ∧ (∀ n k t, trackedWrite t (h.dempa + 64 * k) (line t.hbm k) = none → write (n + 1) k t = (t, k))
    ∧ (∀ t k, write (total - r.written) r.written s = (t, k) → k < total →
        exec (.demotionEnd hdr) s =
          .next (if k = r.written then s else afterRegion (modifyRegion t hdr fun r => { r with written := k }) hdr))
    ∧ ∀ t k u v, write (total - r.written) r.written s = (t, k) → total ≤ k →
        setFields t hdr [(10, 32, 24, 0), (0, 29, 3, 4)] = some u →
        setField (modifyRegion u hdr fun r => { r with owner := none, snap := [], verified := false, shields := [], image := [], written := 0 })
          hdr 11 0 8 5 = some v →
        exec (.demotionEnd hdr) s = .next (afterRegion (ownerDone v r.owner 5) hdr)

/-- R195, R207, R236: the oldest operation of a group's FR class, once it has ended, stores its completion word, with bit 31 where it ended
with ERROR, and FR falls by one. -/
def Claim.RegionOperationsComplete : Prop :=
  ∀ (s : State) (uid : Nat) (g : Group) (op : UnitOp) (r : Nat × BitVec 16 × BitVec 48) (t : State),
    s.group? uid = some g → g.frops.head? = some op → op.done = some r →
    (op.scope = 4 → ∀ d ∈ s.deferred, d.group = uid → d.op ≠ some (3, op.seq)) →
    completionStore s g { agentOf g with die := fropDie g op } op.core (if op.kind < 4 then 5 else 4) op.lane op.seq (r.1 == 6) op.comp = some t →
    exec (.regionOperationCompletion uid) s = .next (settle (refreshCounts (t.modifyGroup uid fun y => { y with frops := y.frops.drop 1 }) uid))

end Sys2Proof.Machine

/-- R225 to R232, R236, R237: a region-control operation that reaches its Spring unit begins, ends or is rejected as the state of its region asks, and
installs, refits and demotions end with the states, RESULTs, entries and shield points of their rules. Where the walk of an install ends, in
which steps a refit verifies and commits (log entries 42 and 44), and that the record of an ERROR without a faulting address has the operation's own
address (102), are the model's choices. -/
def Obligations.SpringUnitsAdvanceTheirRegions : Prop :=
  Claim.HeaderFieldsChangeAlone ∧ Claim.RegionOperationsArrive ∧ Claim.RefitsAbort ∧ Claim.InstallsBegin ∧ Claim.InstallsEnd
    ∧ Claim.InstallsPlaceTheirPoints ∧ Claim.RefitsEnd ∧ Claim.DemotionsEnd ∧ Claim.RegionOperationsComplete

/-- R216, R219, R222, R232: a load of a region that is FITTED or DENSE reads each element's live entry, else the network's value, or the element of the
reserve, an element outside it as OOD says, and its bytes lowest first; it waits for the stores held there. That a region load waits for the stores
held there is the model's choice (log entry 43). -/
def Obligations.RegionLoadsReadElements : Prop :=
  ∀ (s : State) (hdr va n kind : Nat),
    let h := headerAt s.hbm hdr
    let elem := fun (k : Nat) =>
      let o := h.offsetOf ((va % 2 ^ 64) + k)
      let p := h.pointOf (o / h.esize)
      let q := if (h.outside p).isSome ∧ h.ood = 1 then h.clampPoint p else p
      if (h.outside p).isSome ∧ h.ood ≠ 0 ∧ h.ood ≠ 1 then h.fill
      else if h.state = 4 then s.hbm.readNat (h.dempa + h.indexOf q * h.esize) h.esize
      else match liveEntry s.hbm hdr h (coordWord q) with
        | some i => (excAt s.hbm hdr h i).value
        | none => evalNet s.hbm hdr h h.aslot q
    (h.state = 2 ∨ h.state = 4 → (∀ y ∈ s.work.springHeld, y.hdr ≠ hdr) →
      (∀ k < n, (h.outside (h.pointOf (h.offsetOf ((va % 2 ^ 64) + k) / h.esize))).isSome = true → h.ood ≠ 0) →
      fittedLoad s hdr va n kind = .ok ((List.range n).map fun k =>
        BitVec.ofNat 8 (elem k / 256 ^ (h.offsetOf ((va % 2 ^ 64) + k) % h.esize))))
    ∧ (h.state = 0 → ∃ d, fittedLoad s hdr va n kind = .fault (0x0305, d))
    ∧ (h.state = 1 ∨ h.state = 3 ∨ h.state ≠ 0 ∧ (∃ y ∈ s.work.springHeld, y.hdr = hdr) → fittedLoad s hdr va n kind = .wait)

/-- R244, R245, R248, R254: CPY, CPYT, CVTC, QNT, RMAT and CPFILL, wherever their issue passes, join the CP class with their record. -/
def Sys2Proof.Machine.Claim.CopiesAreQueued : Prop :=
  ∀ (sh co cs : SReg),
    CopyResult (.cpy sh co cs) .cpy sh co cs ∧ CopyResult (.cpyt sh co cs) .cpyt sh co cs ∧ CopyResult (.cvtc sh co cs) .cvtc sh co cs
    ∧ CopyResult (.qnt sh co cs) .qnt sh co cs ∧ CopyResult (.rmat sh co cs) .rmat sh co cs ∧ CopyResult (.cpfill sh co cs) .cpfill sh co cs

namespace Sys2Proof.Machine

/-- A copy's destination indices at an element index (R252). -/
def destOf (w : Shape) (k : Nat) : Nat × Nat × Nat := (k % w.dn0, k / w.dn0 % w.dn1, k / w.dn0 / w.dn1)

/-- A bit address of R252: a base and two strides in bytes, and elements of a width along a row, modulo 2^64 bytes. -/
def bitAddr (base : Nat) (str1 str2 row : Int) (plane : Nat) (col : Int) (bits : Nat) : Nat :=
  ((8 * ((base : Int) + row * str1 + plane * str2) + col * bits) % 2 ^ 67).toNat

/-- A coordinate of R244. -/
def coordNum (op : CopyOp) (n : Nat) : Int := (op.coords.getD n 0).toInt

/-- The bit address of a source element (R252). -/
def sourceBit (op : CopyOp) (i : Nat × Nat × Nat) : Nat :=
  let w : Shape := op.words
  bitAddr w.srcva w.sstr1 w.sstr2 (coordNum op 1 + i.2.1) i.2.2 (coordNum op 0 + i.1) op.width

/-- The bit address of a destination element with elements of a width (R252). -/
def destBit (op : CopyOp) (bits : Nat) (j : Nat × Nat × Nat) : Nat :=
  let w : Shape := op.words
  bitAddr w.dstva w.dstr1 w.dstr2 (coordNum op 3 + j.2.1) j.2.2 (coordNum op 2 + j.1) bits

/-- A descriptor of a format: its scale stands for a scaled format, else 0x7F (R256). -/
def lineDescriptor (fmt scale special : Nat) : Nat := fmt + (if 5 ≤ fmt ∧ fmt ≤ 9 then scale else 0x7F) * 256 + special * 65536

/-- What R255 makes of a value under a format and a scale: its code, whether it offends, and whether it is saturated. -/
def converted (fmt scale : Nat) (w : Shape) (v : FVal) (desc : Nat) : ElemOut :=
  let c := encodeScaled fmt scale w.rm w.sat v
  let nv := (c.flags &&& flagNV) != 0
  let ovf := (c.flags &&& flagOF) != 0
  { code := c.code, offends := nv || (ovf && !w.sat)
    satd := (w.sat && (ovf || (nv && v.isFin && (floatFmt? fmt).isNone))) || (!v.isFin && (decodeElem fmt c.code).isFin)
    desc := some desc }

/-- The descriptor that CPY, CPYT and CPFILL write: none under KEEP, the record's under SET, and the source line's under COPY (R256). -/
def carriedDesc (w : Shape) (source : Option Nat) : Option Nat :=
  if w.dmode = 2 then some (lineDescriptor w.dfmt w.dscale w.dspecial) else if w.dmode = 1 then source else none

/-- R252, R255 to R257: what each operation of the copy engine writes at an element index, its source read in the state s. -/
def Claim.CopiesTakeTheirElements : Prop :=
  ∀ (s : State) (g : Group) (op : CopyOp) (k : Nat),
    let w : Shape := op.words
    let j := destOf w k
    let i := if op.op = 1 then (j.2.1, j.1, j.2.2) else j
    let inside := i.1 < w.sn0 ∧ i.2.1 < w.sn1
    let bit := sourceBit op i
    let bytes := max 1 (op.width / 8)
    let code := fun b => ofLe b / 2 ^ (bit % 8) % 2 ^ op.width
    let va : DWord := BitVec.ofNat 64 (bit / 8)
    let takes := fun e => elemAt s g op k = .ok (some e)
    let zero := fun desc => ({ code := 0, offends := false, satd := false, desc := desc } : ElemOut)
    (op.op = 5 → takes { code := w.fillv % 2 ^ w.ewBits, offends := false, satd := false, desc := carriedDesc w none })
    ∧ (op.op < 5 → inside → ∀ b, engineRead s g op.core bytes va = .ok b →
        (op.op = 0 ∨ op.op = 1 → takes { code := code b, offends := false, satd := false, desc := carriedDesc w (srcDesc s g op va) })
        ∧ (op.op = 4 → takes { code := code b, offends := false, satd := false, desc := some (lineDescriptor w.dfmt 0x7F 0) })
        ∧ ∀ f sc sp, lineFormat s g op va = .ok (f, sc, sp) →
            let v := decodeScaled f sc sp (code b)
            (op.op = 2 → takes (converted w.dfmt w.dscale w v (lineDescriptor w.dfmt w.dscale w.dspecial)))
            ∧ (op.op = 3 → ∀ l, (lineSources op j).mapM (readValue s g op) = .ok l →
                let scale := lineScale w.dfmt l
                takes (converted w.dfmt scale w v (lineDescriptor w.dfmt scale 0))))
    ∧ (op.op < 5 → ¬ inside → w.zf = false → elemAt s g op k = .ok none)
    ∧ (op.op < 5 → ¬ inside → w.zf = true →
        (op.op = 0 ∨ op.op = 1 → takes (zero (carriedDesc w none)))
        ∧ (op.op = 2 → takes (zero (some (lineDescriptor w.dfmt w.dscale w.dspecial))))
        ∧ (op.op = 3 → ∀ l, (lineSources op j).mapM (readValue s g op) = .ok l →
            takes (zero (some (lineDescriptor w.dfmt (lineScale w.dfmt l) 0))))
        ∧ (op.op = 4 → takes (zero (some (lineDescriptor w.dfmt 0x7F 0)))))
    ∧ (w.sfmt ≠ 0 → lineFormat s g op va = .ok (w.sfmt, w.sscale, w.sspecial))

/-- R252, R253, R256: the write of an element of a whole number of bytes in HBM: exactly its bytes change, each that the operation does not
read to its byte of the element, and its line takes the descriptor of the operation. -/
def Claim.CopiesPutTheirElements : Prop :=
  ∀ (src : List (Nat × Nat × Nat)) (s t : State) (g : Group) (op : CopyOp) (bits bit pa : Nat) (e : ElemOut) (p : Place),
    s.hbm.wf = true → swf (sideDefault s) s.side = true → bits = 8 ∨ bits = 16 ∨ bits = 32 ∨ bits = 64 →
    engineAccess s g op.core (engWrite (bits / 8)) (BitVec.ofNat 64 (bit / 8)) = .ok p → p.target = .hbm pa → pa % (bits / 8) = 0 →
    putElem src s g op bits bit e = .ok t →
    (∀ a, pa ≤ a → a < pa + bits / 8 → isSource src (0, a) = false → t.hbm.byte a = BitVec.ofNat 8 (e.code / 256 ^ (a - pa)))
    ∧ (∀ a, (a < pa ∨ pa + bits / 8 ≤ a) → t.hbm.byte a = s.hbm.byte a)
    ∧ descOf (sideGet t pa) = (match e.desc with
      | none => descOf (sideGet s pa)
      | some d => descStored (BitVec.ofNat 32 (d + if (op.op = 2 ∨ op.op = 3) ∧ (bit / 8) % 2 ^ 64 / 64 ∈ op.satd then 2 ^ 24 else 0)))
    ∧ (∀ line, line / 64 ≠ pa / 64 → sideGet t line = sideGet s line)

/-- R252 to R255, R259: an operation runs over its elements in the order of their index from the first that it has not reached, with the
lowest that offends kept; it stops at the first that it cannot perform. -/
def Claim.CopiesRunOverTheirElements : Prop :=
  (∀ (r s : State) (src : List (Nat × Nat × Nat)) (g : Group) (op : CopyOp) (bits k : Nat),
    let bit := destBit op bits (destOf op.words k)
    (elemAt r g op k = .ok none → copyElem r src s g op bits k = .ok (s, { op with next := k + 1 }))
    ∧ ∀ e, elemAt r g op k = .ok (some e) →
        let op1 := { op with satd := if e.satd = true ∧ bit / 512 ∉ op.satd then bit / 512 :: op.satd else op.satd }
        (∀ t, putElem src s g op1 bits bit e = .ok t → copyElem r src s g op bits k =
          .ok (t, { op1 with next := k + 1, offend := if e.offends = true ∧ op.offend = none then some k else op.offend }))
        ∧ ∀ x, putElem src s g op1 bits bit e = .error x → copyElem r src s g op bits k = .error x)
  ∧ (∀ (r s : State) (src : List (Nat × Nat × Nat)) (g : Group) (uid bits n : Nat) (op : CopyOp), s.group? uid = some g →
      copyElems r src uid bits 0 s op = (s, op, none)
      ∧ (∀ t op1, copyElem r src s g op bits op.next = .ok (t, op1) →
          copyElems r src uid bits (n + 1) s op = copyElems r src uid bits n t op1)
      ∧ ∀ x, copyElem r src s g op bits op.next = .error x → copyElems r src uid bits (n + 1) s op = (s, op, some x))
  ∧ ∀ (s : State) (g : Group) (op : CopyOp),
      let w : Shape := op.words
      let total := (w.np * w.dn1 * w.dn0) - op.next
      let gen := fun hdr => BitVec.ofNat 32 (headerAt s.hbm hdr).gen
      let go := fun (op1 : CopyOp) bits => runCopy s g op = copyElems s (sourceBytes s g op1) g.uid bits total s.nextOccasion op1
      (op.width ≠ 0 → op.op ≠ 4 ∨ op.region.isSome = true → go op (if op.op = 2 ∨ op.op = 3 ∨ op.op = 4 then elemBits w.dfmt else w.ewBits))
      ∧ (op.width = 0 → op.op = 0 ∨ op.op = 1 ∨ op.op = 5 → go { op with width := w.ewBits } w.ewBits)
      ∧ (op.width = 0 → op.op = 2 ∨ op.op = 3 → w.sfmt ≠ 0 → go { op with width := elemBits w.sfmt } (elemBits w.dfmt))
      ∧ (op.op = 4 → op.width = 0 ∨ op.region = none →
          (∀ hdr, rmatHeader s g op = some hdr → go { op with width := elemBits w.dfmt, region := some hdr, gen := gen hdr } (elemBits w.dfmt))
          ∧ (rmatHeader s g op = none → go { op with width := elemBits w.dfmt, region := none, gen := 0 } (elemBits w.dfmt)))

/-- R182, R254: the state that a completion or an issue gives the segments of a list, of which those whose allocation has ended stay. -/
def Claim.SegmentsTakeTheirState : Prop :=
  ∀ (s : State) (l : List Nat) (st : BitVec 2) (undead : Bool) (k : Nat), swf noSegment s.work.segs = true →
    segAt (setSegs s l st undead) k =
      if k ∈ l ∧ (segAt s k).team ≠ 0 then { segAt s k with state := st, dead := (segAt s k).dead && !undead } else segAt s k

/-- R247: the completion word holds the number of the operation, with bit 31 where its outcome is not OK; an operation that names no
address stores none, and a store that faults is dropped with a record of its engine. -/
def Claim.CompletionWordsAreStored : Prop :=
  ∀ (s : State) (g : Group) (ag : Agent) (core engine lane seq : Nat) (bad : Bool),
    completionStore s g ag core engine lane seq bad none = some s
    ∧ ∀ va, let word := leBytes 4 (seq % 2 ^ 31 + if bad = true then 2 ^ 31 else 0)
      (∀ t, engineWrite s g ag core va word = .ok t → completionStore s g ag core engine lane seq bad (some va) = some t)
      ∧ (∀ c d, engineWrite s g ag core va word = .fault (c, d) →
          completionStore s g ag core engine lane seq bad (some va) = some (emitRecord s
            { team := g.team, ctx := g.ctx, engine := engine, cause := c, slot := g.slot, core := g.core, lanes := 2 ^ lane
              va := some va.toNat, sev := 3, kind := 8, detail := d }))
      ∧ ∀ p pa t, engineAccess s g core (engWrite 4) va = .ok p → p.target = .hbm pa → p.immed = false → p.irrev = false →
          inWindow s pa = false → trackedWrite s pa word = some t → engineWrite s g ag core va word = .ok t

/-- The copy status words of a group after a completion (R259). -/
def statusAfter (c : CopyStatus) (op : CopyOp) (r : Nat × BitVec 16 × DWord × Nat) : CopyStatus :=
  { cpDone := BitVec.ofNat 32 op.seq, rmatGen := if op.op = 4 then op.gen else c.rmatGen
    cpErr := if r.1 = 0 then c.cpErr else BitVec.ofNat 32 (r.2.1.toNat * 65536 + r.1)
    firstBad := if r.1 = 0 then c.firstBad else BitVec.ofNat 32 (if r.1 = 3 then 0xFFFFFFFF else r.2.2.2)
    errSeq := if r.1 = 0 then c.errSeq else BitVec.ofNat 32 op.seq
    errCount := if r.1 = 0 then c.errCount else c.errCount + 1 }

/-- The effects of a copy's completion, in the order of R246: segments, completion word, barrier, counter and status; none where its word
cannot be stored yet. -/
def copyEffects (s : State) (g : Group) (op : CopyOp) (r : Nat × BitVec 16 × DWord × Nat) : Option State :=
  let bad : Bool := r.1 != 0
  let s1 := if r.1 = 3 then setSegs (setSegs (op.fill.foldl forgetSeg s) op.fill 0 false) op.drain 2 false
    else setSegs (setSegs s op.fill 2 false) op.drain 0 true
  (completionStore s1 g (agentOf g) op.core 1 op.lane op.seq bad op.comp).map fun s2 =>
    let s3 := match op.bar with
      | none => s2
      | some b => modifyBarrier s2 1 b g fun y => completePhase (participants s2 1 g) { y with engines := y.engines - 1, err := y.err || bad }
    settle (s3.modifyGroup g.uid fun y => { y with copies := y.copies.drop 1, cp := statusAfter y.cp op r })

/-- `t` is the machine after the oldest copy of a group has ended in `s` with an outcome: it completes, or keeps its outcome while its
writes at SYSTEM scope, those that a Spring unit holds, or its completion word wait (R207). -/
def CopyEnds (s t : State) (g : Group) (op : CopyOp) (r : Nat × BitVec 16 × DWord × Nat) : Prop :=
  let waits := (Shape.rscope op.words = 4 ∧ ∃ d ∈ s.deferred, d.group = g.uid ∧ d.op = some (0, op.seq))
    ∨ ∃ y ∈ s.work.springHeld, y.group = g.uid ∧ y.issue = engineIssue + op.seq
  (¬ waits → ∀ u, copyEffects s g op r = some u → t = u)
  ∧ (waits ∨ copyEffects s g op r = none →
      t = s.modifyGroup g.uid fun y => { y with copies := modifyAt (fun _ => { op with done := some r }) y.copies 0 })

/-- The record of a copy that ends with CONVERR or ENDED (R258). -/
def endRecord (s : State) (g : Group) (op : CopyOp) (kind : Nat) (r : Nat × BitVec 16 × DWord × Nat) : State :=
  emitRecord s { team := g.team, ctx := g.ctx, engine := 1, cause := r.2.1.toNat, slot := g.slot, core := g.core, lanes := 2 ^ op.lane
                 va := some r.2.2.1.toNat, sev := 3, kind := kind, detail := r.2.2.2 * 65536 + Shape.dfmt op.words * 256 + r.1 }

/-- R246, R249, R258: a copy that runs out of elements, or meets a cause that ends it, ends with its outcome and, where that is CONVERR or
ENDED, a record; one that meets a page that is absent or in transit halts, and its group parks at its boundary. -/
def Claim.CopiesEndOrHalt : Prop :=
  ∀ (s : State) (uid n : Nat) (g : Group), s.group? uid = some g → enginesRun s g = true →
    (∀ op r, g.copies.head? = some op → op.done = some r → ∃ t, exec (.copyCompletion uid) s = .next t ∧ CopyEnds s t g op r)
    ∧ (∀ op s1 op1, g.copies.head? = some op → op.done = none → op.halted = none →
        (runCopy s g op = (s1, op1, none) → op1.done = none →
          (op1.offend = none → ∃ t, exec (.copyCompletion uid) s = .next t ∧ CopyEnds s1 t g op1 (0, 0, 0, 0))
          ∧ (∀ k, op1.offend = some k → ∃ t, exec (.copyCompletion uid) s = .next t
              ∧ CopyEnds (endRecord s1 g op1 0 (1, 0x0601, elemVa op1 k, k)) t g op1 (1, 0x0601, elemVa op1 k, k)))
        ∧ (∀ va kind c, runCopy s g op = (s1, op1, some (.fault va kind c)) → op1.done = none → c.1 ≠ 0x0301 → c.1 ≠ 0x0303 →
            let r : Nat × BitVec 16 × DWord × Nat := (2, BitVec.ofNat 16 c.1, elemVa op1 op1.next, op1.next)
            ∃ t, exec (.copyCompletion uid) s = .next t ∧ CopyEnds (endRecord s1 g op1 kind r) t g op1 r))
    ∧ (∀ op s1 op1 va k c, g.copies[n]? = some op → op.done = none → op.halted = none → g.ext = [] →
        runCopy s g op = (s1, op1, some (.fault va k c)) → c.1 = 0x0301 ∨ c.1 = 0x0303 →
        exec (.copyHalt uid n) s = .next (takePark (s1.modifyGroup uid fun y => { y with
            copies := modifyAt (fun _ => { op1 with halted := some (BitVec.ofNat 16 c.1, va, k, s1.records.next) }) y.copies n }) uid
          { cause := c.1, lanes := [op1.lane], va := some va, kind := k, detail := c.2, engine := 1, skip := 0 }))

end Sys2Proof.Machine

/-- R252 to R257: the operations of the copy engine write at each element index, in their order, the element that R255 gives it, at its
address, with the descriptor of its line. The descriptors of lines that zeros fill, that two source lines share or that rows of two planes share
(log entry 121), and that the elements run in one step (50), are the model's choices. -/
def Obligations.CopiesWriteTheirElements : Prop :=
  Claim.CopiesTakeTheirElements ∧ Claim.CopiesPutTheirElements ∧ Claim.CopiesRunOverTheirElements

/-- R246, R247, R249, R254, R258, R259: copies end, and their completion performs the segment transitions, stores the completion word, makes
the barrier arrival, lowers the counter and sets the status words, or they halt. -/
def Sys2Proof.Machine.Claim.CopiesCompleteOrHalt : Prop :=
  Claim.SegmentsTakeTheirState ∧ Claim.CompletionWordsAreStored ∧ Claim.CopiesEndOrHalt

/-- R259, R260: CPST reads a copy status word of its group, and CPCAN marks the operation of a number CANCELLED and says whether it was there. -/
def Sys2Proof.Machine.Claim.CopyStatusAndCancel : Prop :=
  ∀ (d a b : SReg),
    let word := fun (s : State) (x : Issue) => match (opSB x b).toNat % 8 with
      | 0 => BitVec.ofNat 32 x.g.cpSeq
      | 1 => x.g.cp.cpDone
      | 2 => x.g.cp.cpErr
      | 3 => x.g.cp.firstBad
      | 4 => x.g.cp.errSeq
      | 5 => BitVec.ofNat 32 (((List.range 16).map fun k => if (barAt (barriersOf s 1 x.g) k).lastErr then 2 ^ k else 0).sum)
      | 6 => x.g.cp.errCount
      | _ => x.g.cp.rmatGen
    SetResult (.cpst d b) always (fun s x => x.g.sregPut (regSD x d) (word s x))
    ∧ SetResult (.cpcan d a) always (fun _ x =>
        let n := (opSA x a).toNat % 2 ^ 31
        { x.g with copies := x.g.copies.map fun (op : CopyOp) =>
            if op.seq = n then { op with halted := none, done := some (3, 0, 0, 0xFFFFFFFF) } else op }.sregPut (regSD x d)
          (if ∃ op ∈ x.g.copies, op.seq = n then 0 else 1))

/-- R263, R268, R273: TZERO, TTRN, AZERO and AMOV, wherever their registers fit and no operation in flight has them, complete at once with
the elements, formats, tags and steps of the rule. -/
def Sys2Proof.Machine.Claim.TileAndAccumulatorRegisters : Prop :=
  ∀ (fmt : BitVec 5) (ta tb : TReg) (tag : ATag) (acc asrc : AReg),
    let step := fun (i : Instr) (cond : Issue → Prop) (post : Issue → Group → Prop) =>
      ∀ s x, Issues s x i → cond x → ∃ t g, exec i s = .next t ∧ SetStep s t x i g ∧ post x g
    step (.tzero fmt ta) (fun x => 1 ≤ fmt.toNat ∧ fmt.toNat ≤ 0x10 ∧ tileFits x ta.toNat fmt.toNat) (fun x g =>
      (∀ i < 16, ∀ j < 16, tileElem g ta.toNat fmt.toNat i j = 0)
      ∧ (∀ k < tileRegs fmt.toNat, g.tfmtOf (ta.toNat + k) = fmt.toNat)
      ∧ (∀ i < 16, g.rscaleOf ta.toNat i = 0x7F ∧ g.rspecOf ta.toNat i = 0)
      ∧ g = { x.g with tile := g.tile, tfmt := g.tfmt, rscale := g.rscale, rspec := g.rspec })
    ∧ step (.ttrn ta tb) (fun x => tileReadable x ta.toNat ∧ tileFits x tb.toNat (x.g.tfmtOf ta.toNat) ∧ rowsDiffer (tileOf x.g ta.toNat) = none)
        (fun x g =>
          (∀ i < 16, ∀ j < 16, tileElem g tb.toNat (x.g.tfmtOf ta.toNat) i j = tileElem x.g ta.toNat (x.g.tfmtOf ta.toNat) j i)
          ∧ g.tfmtOf tb.toNat = x.g.tfmtOf ta.toNat
          ∧ (∀ i < 16, g.rscaleOf tb.toNat i = x.g.rscaleOf ta.toNat 0 ∧ g.rspecOf tb.toNat i = x.g.rspecOf ta.toNat 0)
          ∧ g = { x.g with tile := g.tile, tfmt := g.tfmt, rscale := g.rscale, rspec := g.rspec })
    ∧ step (.azero tag acc) (fun x => accBusy x.g acc.toNat tag.regs = false) (fun x g =>
        (∀ k < tag.regs, (∀ i < 16, ∀ j < 16, accOf g (acc.toNat + k) i j = 0)
          ∧ sget 0 g.atag (acc.toNat + k) = tag.code ∧ sget 0 g.astep (acc.toNat + k) = 0)
        ∧ g = { x.g with acc := g.acc, atag := g.atag, astep := g.astep })
    ∧ step (.amov acc asrc) (fun x => accBusy x.g acc.toNat 1 = false ∧ accBusy x.g asrc.toNat 1 = false) (fun x g =>
        (∀ i < 16, ∀ j < 16, accOf g acc.toNat i j = accOf x.g asrc.toNat i j)
        ∧ sget 0 g.atag acc.toNat = sget 0 x.g.atag asrc.toNat ∧ sget 0 g.astep acc.toNat = sget 0 x.g.astep asrc.toNat
        ∧ (∀ r, r ≠ acc.toNat → (∀ i < 16, ∀ j < 16, accOf g r i j = accOf x.g r i j) ∧ sget 0 g.atag r = sget 0 x.g.atag r)
        ∧ g = { x.g with acc := g.acc, atag := g.atag, astep := g.astep })

/-- R264, R278: ASNAP in observation mode copies the accumulator with its tag and step, and delivers its step count; outside it, it parks its
set with 0x0702. -/
def Sys2Proof.Machine.Claim.ObservationTakesASnapshot : Prop :=
  ∀ (acc adst : AReg) (mb : SReg) (s : State) (x : Issue), Issues s x (.asnap acc adst mb) →
    (x.g.obsv.getLsbD 0 = true → accBusy x.g adst.toNat 1 = false →
      exec (.asnap acc adst mb) s = .next (completed (.asnap acc adst mb) x
        (s.setGroup ((copyAcc x.g adst.toNat acc.toNat).sregPut (x.ext.snum 6 mb.toNat) (sget 0 x.g.astep acc.toNat)))))
    ∧ (x.g.obsv.getLsbD 0 = false →
      exec (.asnap acc adst mb) s = .next (takePark (backAtFirst s x x.ext.yields) x.uid
        { cause := 0x0702, lanes := x.lanes, setLevel := true, skip := x.g.ext.length + 1 }))

/-- R266, R270 to R272: TLD and ALD read every element of both masks at their issue into one load, zeros elsewhere, and TSTR and AST buffer
the write of every element in both masks; with no element in the masks TLD and ALD write zeros at once, and TSTR and AST do nothing. -/
def Sys2Proof.Machine.Claim.TilesMoveToAndFromMemory : Prop :=
  ∀ (ovr : BitVec 5) (ta : TReg) (tag : ATag) (acc : AReg) (mb : SReg),
    let reads := fun (fitted : Bool) (bits : Nat) (s : State) (x : Issue) =>
      let b := tileBlock x mb
      b.points ≠ [] ∧ rowMisaligned b bits = none ∧ x.g.loads.length < 255 ∧ ∀ p ∈ b.points, ∃ v, loadElem s x.g fitted b bits p = .ok v
    let read := fun (fitted : Bool) (bits : Nat) (s : State) (x : Issue) =>
      (tileBlock x mb).points.map fun p => (p.1 * 16 + p.2, fittedOr 0 (loadElem s x.g fitted (tileBlock x mb) bits p))
    let checked := fun (bits : Nat) (s : State) (x : Issue) => storePlaces x (tileBlock x mb) bits (tileBlock x mb).points s
    let writes := fun (bits : Nat) (s : State) (x : Issue) =>
      let b := tileBlock x mb
      b.points ≠ [] ∧ rowMisaligned b bits = none ∧ x.g.stQueue.length < 255 ∧ ∀ m ∈ checked bits s x, ∃ q, m.2.2 = .ok q
    let written := fun (bits : Nat) (code : Issue → Nat × Nat → Nat) (s : State) (x : Issue) =>
      let low := fun k => k % 16 * bits % 8
      s.setGroup { x.g with
        tiles := x.g.tiles ++ (goodOf (checked bits s x)).map (fun (k, _, p) =>
          ({ issue := x.g.nextIssue, place := p, data := leBytes (max 1 (bits / 8)) (code x (k / 16, k % 16) * 2 ^ low k)
             mask := BitVec.ofNat 8 (if bits < 8 then (2 ^ bits - 1) * 2 ^ low k else 255) } : TileWrite))
        stQueue := x.g.stQueue ++ [x.g.nextIssue], nextIssue := x.g.nextIssue + 1 }
    let fmt := fun (s : State) (x : Issue) => if ovr.toNat ≠ 0 then ovr.toNat else fittedOr 0 (memoryFormat s x.g (tileBlock x mb)).2
    StateResult (.tld ovr ta mb)
      (fun s x => reads true (elemBits (fmt s x)) s x ∧ 1 ≤ fmt s x ∧ fmt s x ≤ 0x10 ∧ tileFits x ta.toNat (fmt s x)
        ∧ (ovr.toNat ≠ 0 ∨ ((∃ f, (memoryFormat s x.g (tileBlock x mb)).2 = .ok f) ∧ lineMixed s x.g (tileBlock x mb) (fmt s x) = none)))
      (fun s x => s.nextOccasion.setGroup { x.g with
        loads := x.g.loads ++ [tileLoad ta.toNat (fmt s x) ((List.range 16).map fun i => (rowMeta s x.g (tileBlock x mb) i).1)
          ((List.range 16).map fun i => (rowMeta s x.g (tileBlock x mb) i).2)
          ((read true (elemBits (fmt s x)) s x).map fun e => (e.1, formatBits (fmt s x) e.2))] })
    ∧ StateResult (.tld ovr ta mb) (fun _ x => (tileBlock x mb).points = [] ∧ tileFits x ta.toNat ovr.toNat)
        (fun s x => s.setGroup (blankTile x.g ta.toNat ovr.toNat))
    ∧ StateResult (.ald tag acc mb) (fun s x => accBusy x.g acc.toNat tag.regs = false ∧ reads false (32 * tag.regs) s x)
        (fun s x => s.setGroup { x.g with loads := x.g.loads ++ [accLoad acc.toNat tag (read false (32 * tag.regs) s x)] })
    ∧ StateResult (.ald tag acc mb) (fun _ x => accBusy x.g acc.toNat tag.regs = false ∧ (tileBlock x mb).points = [])
        (fun s x => s.setGroup (deliverLoad x.g (accLoad acc.toNat tag [])))
    ∧ StateResult (.tstr ta mb) (fun s x => tileReadable x ta.toNat ∧ writes (elemBits (x.g.tfmtOf ta.toNat)) s x)
        (fun s x => written (elemBits (x.g.tfmtOf ta.toNat)) (fun x p => (tileElem x.g ta.toNat (x.g.tfmtOf ta.toNat) p.1 p.2).toNat) s x)
    ∧ StateResult (.ast acc mb) (fun s x => astFault x.g ((encode (.ast acc mb)).getD 0) acc.toNat = none
          ∧ accBusy x.g acc.toNat (if x.g.atagOf acc.toNat = 2 then 2 else 1) = false
          ∧ aPending x.g acc.toNat (if x.g.atagOf acc.toNat = 2 then 2 else 1) = false
          ∧ writes (if x.g.atagOf acc.toNat = 2 then 64 else 32) s x)
        (fun s x => written (if x.g.atagOf acc.toNat = 2 then 64 else 32) (fun x p => (accOf x.g acc.toNat p.1 p.2).toNat
          + if x.g.atagOf acc.toNat = 2 then 2 ^ 32 * (accOf x.g (acc.toNat + 1) p.1 p.2).toNat else 0) s x)

/-- R266, R268, R269, R274: MMA and MMA.DW, wherever no check fails, read their tiles and masks at issue and join the MX class. -/
def Sys2Proof.Machine.Claim.MatrixOperationsAreQueued : Prop :=
  ∀ (acc : AReg) (ta tb : TReg) (mb : SReg), MmaIssued (.mma acc ta tb mb) acc ta tb mb false ∧ MmaIssued (.mmaDw acc ta tb mb) acc ta tb mb true

namespace Sys2Proof.Machine

/-- The low part of a double-word result: what the high part leaves of the exact sum, rounded, with +0 for a zero; the canonical NaN where the
high part is not finite (R276). -/
def lowPart (f : FloatFmt) (x : FVal) (hi : Nat) : Nat :=
  match x, f.decode hi with
  | .fin e, .fin h =>
    let c := (deliver f rne false (addVal rne (.fin e) (.fin h.negate)).1).code
    if c % 2 ^ (f.ebits + f.mbits) = 0 then 0 else c
  | _, _ => f.nanCode

end Sys2Proof.Machine

/-- R269, R275 to R277: the oldest matrix operation of a group completes with each element in both masks the old one plus the products of
its depths, FP32 or FP64 rounded once from the exact sum, of MMA.DW the rounded sum and what it leaves, and integers modulo 2^32; every other
element stays, and ASTEP rises by one. -/
def Sys2Proof.Machine.Claim.MatrixOperationsRoundOnce : Prop :=
  ∀ (s : State) (uid : Nat) (g : Group) (m : MmaOp) (rest : List MmaOp), s.group? uid = some g → g.canonical = true → g.mmas = m :: rest →
    ∃ g', exec (.mmaCompletion uid) s = .next (settle (s.setGroup g'))
      ∧ g' = { g with acc := g'.acc, astep := g'.astep, mmas := rest }
      ∧ (∀ r, m.acc ≤ r → r < m.acc + mmaRegs m → sget 0 g'.astep r = sget 0 g.astep r + 1)
      ∧ (∀ i < 16, ∀ j < 16, ∀ r, (m.rows.getLsbD i && m.cols.getLsbD j) = false → accOf g' r i j = accOf g r i j)
      ∧ (∀ i < 16, ∀ j < 16, (m.rows.getLsbD i && m.cols.getLsbD j) = true →
          let products := ((List.range 16).filter fun k => m.deps.getLsbD k).map fun k => (mulVal (m.a.value i k) (m.b.value k j)).1
          let f := m.a.fmt.toNat
          let fmt := if f = 1 then fp64 else fp32
          let low := m.acc + if f = 1 then 2 else 1
          let old := fun r => fmt.decode ((accOf g r i j).toNat + if f = 1 then 2 ^ 32 * (accOf g (r + 1) i j).toNat else 0)
          let holds := fun r (code : Nat) => accOf g' r i j = BitVec.ofNat 32 code ∧ (f = 1 → accOf g' (r + 1) i j = BitVec.ofNat 32 (code / 2 ^ 32))
          let sum := fun (first : FVal) => products.foldl (fun a t => (addVal rne a t).1) first
          (1 ≤ f → f ≤ 9 → m.dw = false → holds m.acc (deliver fmt rne false (sum (old m.acc))).code)
          ∧ (1 ≤ f → f ≤ 9 → m.dw = true →
              let x := sum (addVal rne (old m.acc) (old low)).1
              let hi := (deliver fmt rne false x).code
              holds m.acc hi ∧ holds low (lowPart fmt x hi))
          ∧ (10 ≤ f → m.dw = false →
              accOf g' m.acc i j = BitVec.ofInt 32 ((accOf g m.acc i j).toInt + (products.map intOf).sum)))

namespace Sys2Proof.Machine

/-- The engine operations in flight, before which a RELEASE of a lease does not complete: the copies, the collectives and the region-control
operations of every group, by their group, class and number (R357). -/
def inFlight (s : State) : List (Nat × Nat × Nat) :=
  s.work.groups.flatMap fun g => g.copies.map (fun op => (g.uid, 0, op.seq)) ++ g.clops.map (fun op => (g.uid, 2, op.seq))
    ++ g.frops.map fun op => (g.uid, 3, op.seq)

/-- A new operation of the CL class with its release scope (R207, R243, R245). -/
def newClOp (s : State) (x : Issue) (kind scope : Nat) (words : List DWord) (cs : SReg) : UnitOp :=
  { seq := if (x.g.clSeq + 1) % 2 ^ 31 = 0 then 1 else (x.g.clSeq + 1) % 2 ^ 31, kind := kind, words := words, lane := lowLane x.lanes
    core := x.g.core, comp := compAddr x cs, scope := scope, step := 0, done := none, after := if kind = 7 then inFlight s else [] }

/-- The effect of issuing an operation of the CL class. -/
def clQueued (kind scope : Nat) (words : List DWord) (cs : SReg) (s : State) (x : Issue) : State :=
  s.setGroup { x.g with clops := x.g.clops ++ [newClOp s x kind scope words cs], clSeq := (newClOp s x kind scope words cs).seq }

/-- The graph that a group has a stage of: BOUND or ENDED, at the area of a pair, with the stage of the group's role. -/
def firesAt (s : State) (x : Issue) (a : SReg) (gr : Graph) (k : Nat) : Prop :=
  areaFault s x.g (pairS x 9 a) = none ∧ graphAt s x.g.ctx (pairS x 9 a) = some gr ∧ (gr.state = 2 ∨ gr.state = 3) ∧ gr.stageOf x.g = some k
    ∧ x.g.firing = none

/-- The number of the next firing of a stage that falls to the group of the issue. -/
def ownFiring (s : State) (x : Issue) (gr : Graph) (k : Nat) : Nat := nextFiring (gr.stage k) (roleIndex s x.g).1 (roleIndex s x.g).2

/-- Whether a firing of a stage has nothing more to do: the stage is over, its periods are done, or an input is exhausted (R294). -/
def stageDone (gr : Graph) (k n : Nat) : Prop :=
  (gr.stage k).state ≠ 0 ∨ (gr.nperiod ≠ 0 ∧ gr.nperiod ≤ n / max 1 (gr.stage k).q) ∨ ∃ i ∈ gr.inputs k, gr.exhausted i = true

/-- The predicate Pd in every thread of a set. -/
def predIn (g : Group) (lanes : List Nat) (pd : PReg) (v : Bool) : Group := lanes.foldl (fun g l => g.pput l pd.toNat v) g

/-- A tracked write that leaves the first bytes of a part of a bind area open, where the log has room for it: the layout of that part is not
architectural (R288, log entry 57). -/
def partOpened (gr : Graph) (s : State) (k : Nat) : Option State :=
  match gr.part k with
  | [] => some s
  | (pa, n) :: _ => (captureLines s (linesOf pa (min 8 n))).map fun t =>
    let u := { t with hbm := t.hbm.forgetRange t.occasion pa (min 8 n) }.nextOccasion
    if inWindow s pa then pin u gr.ctx else u

/-- The channels of a graph without the slots that hold records. -/
def bare (gr : Graph) : List Chan := gr.chans.map fun c => { c with rings := c.rings.map fun r => { r with full := [], late := [] } }

/-- Whether two graphs agree in a part of their bind area: its header, its stage and channel state, or its slot flags. -/
def sameParts (a b : Graph) (k : Nat) : Bool :=
  if k = 0 then a.state == b.state && a.cause == b.cause && a.nperiod == b.nperiod && a.periods == b.periods && a.entry == b.entry && a.count == b.count
  else if k = 1 then a.stages == b.stages && bare a == bare b
  else (a.chans.map fun c => c.rings.map (·.full)) == b.chans.map fun c => c.rings.map (·.full)

/-- The machine with a graph at its area: tracked writes have changed the parts whose stores still waited and those in which it differs from the
graph kept there before, and what its area now holds is the balance engine's own (R288, R332). -/
def graphKept (s t : State) (gr : Graph) : Prop :=
  let old := (graph? s gr.ctx gr.area).getD (emptyArea gr.ctx gr.launch gr.area [] 0 0)
  ∃ u, ((distinct (old.owed ++ [0, 1, 2].filter fun k => !sameParts old gr k)).foldlM (partOpened gr) s) = some u
    ∧ t = putGraph u { gr with owed := [], held := [0, 1, 2].map fun k => u.hbm.within (gr.part k) }

/-- A bind operation of a group has its release scope (R282, R301). -/
def bindScoped (s : State) (g : Group) (seq scope : Nat) : State :=
  s.modifyGroup g.uid fun y => { y with frops := y.frops.map fun (u : UnitOp) => if u.seq = seq then { u with scope := scope } else u }

/-- The machine after a bind has failed with a cause: its operation has ended with ERROR, and its group parks, or has a record alone where
the elected lane has exited (R290). -/
def bindFailed (s : State) (g : Group) (op : UnitOp) (va : Option DWord) (kind : Nat) (c : CauseDetail) : State :=
  let t := regionOpDone s g.uid op.seq 6 0 0
  if (g.thread op.lane).status = .exited then
    emitRecord t { team := g.team, ctx := g.ctx, engine := 4, cause := c.1, slot := g.slot, core := g.core, lanes := 0
                   va := va.map fun a => a.toNat, sev := 3, kind := kind, detail := c.2 }
  else takePark t g.uid { cause := c.1, lanes := [op.lane], va := va, kind := kind, detail := c.2, engine := 4, skip := 0, plain := true }

end Sys2Proof.Machine

/-- R284, R300, R302: GBIND and GREBIND hand their bind to the balance engine, and GSTAT and CHSTAT load a status word of the graph. -/
def Sys2Proof.Machine.Claim.BindsAreQueuedAndStatusIsLoaded : Prop :=
  ∀ (sh co cs d a b : SReg),
    let bind := fun (i : Instr) kind =>
      StateResult i (fun s x => mayIssueTo s x x.g.frops.length)
        (regionQueued kind (fun _ x => [pairS x 17 sh, pairS x 9 co]) cs)
    let stat := fun (i : Instr) (word : Graph → Nat → Nat) =>
      StateResult i (fun _ x => x.g.loads.length < 255) (fun s x =>
        let w := match graphAt s x.g.ctx (pairS x 9 a) with
          | some gr => word gr (opSB x b).toNat
          | none => 0
        s.setGroup { x.g with loads := x.g.loads ++ [plainLoad [(RegDst.s (regSD x d), BitVec.ofNat 32 w)]] })
    bind (.gbind sh co cs) 4 ∧ bind (.grebind sh co cs) 5 ∧ stat (.gstat d a b) gstatWord ∧ stat (.chstat d a b) chstatWord

/-- R285, R288, R290, R291, R300, R301: a bind that reaches the balance engine makes its area BINDING, a GREBIND where its graph is quiescent;
one that succeeds has its graph written at its area and ends its operation, and a GREBIND has moved the held records; one that fails leaves
the state of R291 and the cause there, and the group parks. -/
def Sys2Proof.Machine.Claim.BindsEndTheirOperation : Prop :=
  ∀ (s : State) (uid n : Nat) (g : Group) (op : UnitOp),
    s.group? uid = some g → g.frops[n]? = some op → op.step ≤ 1 → g.ext = [] →
    let area := op.words.getD 1 0
    let ended := fun (t : State) (scope : Nat) => regionOpDone (bindScoped t g op.seq scope) uid op.seq 0 0 0
    let fails := fun (i : Instr) (t : State) va kind c => exec i s = .next (bindFailed t g op va kind c)
    let empty := fun (state cause : Nat) => ({ area := area, pages := areaHead s g op.core area, held := [], ctx := g.ctx, launch := g.launch
                                               state := state, cause := cause, nperiod := 0, stages := [], chans := [], table := [], periods := 0
                                               entry := 0, count := 0 } : Graph)
    let taken := ∃ gr, graphAt s g.ctx area = some gr ∧ gr.state ∈ [1, 2, 3]
    let unbound := ∀ gr, graphAt s g.ctx area = some gr → gr.state ∈ [0, 4]
    (op.kind = 4 →
      (op.step = 0 → unbound → ∀ cause, (∀ gr, graphAt s g.ctx area = some gr → cause = gr.cause) → (graphAt s g.ctx area = none → cause = 0) →
        ∀ t, saveGraph (regionOpBegun s uid op.seq) (empty 1 cause) = some t → exec (.bind uid n) s = .next t)
      ∧ (∀ gr t h sw cw, op.step = 1 → readRecord s g op = .ok (h, sw, cw) → makeGraph s g op none = .ok gr → writeArea s g op gr = .ok t →
        exec (.bind uid n) s = .next (ended t (recField h 0 37 3)))
      ∧ (∀ va kind c, (op.step = 1 ∨ taken) →
        (makeGraph s g op none = .error (.fault va kind c) ∨ ∃ gr, makeGraph s g op none = .ok gr ∧ writeArea s g op gr = .error (.fault va kind c)) →
        (∀ gr t, graphAt s g.ctx area = some gr →
          saveGraph s (Graph.settle { gr with state := if op.step = 1 then 4 else gr.state, cause := c.1 }) = some t →
          fails (.bind uid n) t va kind c)
        ∧ (∀ t, graphAt s g.ctx area = none → saveGraph s (empty 4 c.1) = some t → fails (.bind uid n) t va kind c)))
    ∧ (op.kind = 5 → op.step = 0 →
        (graphAt s g.ctx area = none → fails (.rebind uid n) s none 0 (0x0602, 3 * 2 ^ 40))
        ∧ ∀ old, graphAt s g.ctx area = some old →
          (∀ t, old.state ≠ 2 → saveGraph s (Graph.settle { old with cause := 0x0602 }) = some t →
              fails (.rebind uid n) t none 0 (0x0602, 3 * 2 ^ 40))
          ∧ (∀ k t, old.state = 2 → notQuiescent old = some k → saveGraph s (Graph.settle { old with cause := 0x0804 }) = some t →
              fails (.rebind uid n) t none 0 (0x0804, k * 2 ^ 40))
          ∧ (∀ t, old.state = 2 → notQuiescent old = none → saveGraph (regionOpBegun s uid op.seq) { old with state := 1 } = some t →
              exec (.rebind uid n) s = .next t))
    ∧ (op.kind = 5 → op.step = 1 → ∀ old, graphAt s g.ctx area = some old →
        (∀ new held h sw cw t u, readRecord s g op = .ok (h, sw, cw) → makeGraph s g op (some old) = .ok new →
          chanChanged old.chans new.chans = none → allHeld s g op.core old.chans new.chans = .ok held →
          putHeld s (frAgent g op.seq) held = .ok t → writeArea t g op (rescope old new) = .ok u →
          let moved := ∃ k < new.stages.length, ∃ a b, old.stages[k]? = some a ∧ new.stages[k]? = some b ∧ dieOf a.core ≠ dieOf b.core
          (moved → exec (.rebind uid n) s = .next (ended u 3)) ∧ (¬ moved → exec (.rebind uid n) s = .next (ended u (recField h 0 37 3))))
        ∧ ∀ va kind c t, rebindGraph s g op old = .error (.fault va kind c) →
            saveGraph s (Graph.settle { old with state := 2, cause := c.1 }) = some t → fails (.rebind uid n) t va kind c)

/-- R291 to R294, R297: FIRE waits while its graph is BINDING, says 1 where its stage has nothing more to fire and opens the next firing where its
inputs are there, and FEND closes a firing that has taken and sent all of its records; the graph is kept at its area, and a store into the
area that changes q or the firing table takes effect (R288). -/
def Sys2Proof.Machine.Claim.FiringsOpenAndClose : Prop :=
  ∀ (pd : PReg) (a b : SReg) (s : State) (x : Issue),
    (∀ gr, Issues s x (.fire pd a) → areaFault s x.g (pairS x 9 a) = none → graphAt s x.g.ctx (pairS x 9 a) = some gr → gr.state = 1 →
      exec (.fire pd a) s = .next s)
    ∧ (∀ gr k t, Issues s x (.fire pd a) → firesAt s x a gr k → stageDone gr k (ownFiring s x gr k) →
      saveGraph s (if (gr.stage k).state = 0 then gr.endStage k 1 else gr) = some t →
      exec (.fire pd a) s = .next (completed (.fire pd a) x (t.setGroup (predIn x.g x.lanes pd true))))
    ∧ (∀ gr k t, Issues s x (.fire pd a) → firesAt s x a gr k → ¬ stageDone gr k (ownFiring s x gr k) →
        gr.cursorAt k (ownFiring s x gr k) = true → (∀ i ∈ gr.inputs k, gr.orphaned i = false ∧ (gr.available i).isSome = true) →
        saveGraph s (gr.enter k) = some t →
        exec (.fire pd a) s = .next (completed (.fire pd a) x
          (t.setGroup { predIn x.g x.lanes pd false with firing := some (gr.assign k (ownFiring s x gr k)) })))
    ∧ (∀ gr f t, Issues s x (.fend a b) → areaFault s x.g (pairS x 9 a) = none → x.g.firing = some f → graphAt s x.g.ctx f.area = some gr →
        (∀ i ∈ f.ins, i.rcvd = i.count) → (∀ o ∈ f.outs, ∀ n ∈ o.sent, n = (gr.chan o.chan).prod) →
        saveGraph s (closeFiring gr f ((opSB x b).getLsbD 0)) = some t →
        exec (.fend a b) s = .next (completed (.fend a b) x (t.setGroup { x.g with firing := none })))
    ∧ (∀ gr t, saveGraph s gr = some t → graphKept s t gr)
    ∧ (∀ gr : Graph, gr.pages ≠ [] → (∀ k < 3, s.hbm.within (gr.part k) = gr.held.getD k []) →
        let word := fun off n => (List.range n).foldr (fun i acc => (s.hbm.byte (gr.areaPa (off + i))).toNat + 256 * acc) 0
        foundGraph s gr = { gr with
          stages := gr.stages.zipIdx.map fun (st, k) => { st with q := word (256 + 4 * k) 4 }
          table := gr.table.zipIdx.map fun (_, k) =>
            let w := word (5120 + 8 * k) 8
            { stage := w % 32, rep := w / 2 ^ 8 % 2 ^ 16, firstn := w / 2 ^ 32 % 2 ^ 32 } })

/-- R208, R295, R296: SEND copies its record into a free slot of every ring that its mask names, which is FULL then or, at ESCOPE SYSTEM on an
IRREVOCABLE page, at the commit that performs the record, and RECV the next record of an input from its ring, or says 1 where none is left
of the firing. -/
def Sys2Proof.Machine.Claim.RecordsMoveThroughChannels : Prop :=
  ∀ (pd : PReg) (a b : SReg) (s : State) (x : Issue) (f : Firing) (gr : Graph) (t u : State),
    x.g.firing = some f → graphAt s x.g.ctx f.area = some gr →
    (∀ o ps ds dst, Issues s x (.send a b) → ownAccessesDone s x →
      let c := (opSB x b).toNat % 64
      let ks := (List.range 8).filter fun k => (opSB x b).getLsbD (8 + k)
      let ch := gr.chan c
      let pos := fun k => o.first + o.sent.getD k 0
      let live := ks.filter fun k => (gr.stage (ch.ring k).stage).state != 1
      let lines := fun k => linePlaces s x.g (lineAccess true [0, 1]) (ch.slotAddr k (pos k)) ch.lines
      (ch.escope = 4 → systemWaits s x.g .release .system = false) → f.outs.find? (fun o => o.chan == c) = some o →
      ks ≠ [] → (∀ k ∈ ks, k < ch.rings.length ∧ o.sent.getD k 0 ≠ ch.prod ∧ (gr.stage (ch.ring k).stage).state ≠ 2) →
      (∀ k ∈ live, ∀ p ∈ (ch.ring k).full ++ (ch.ring k).late.map (·.1), p % max 1 ch.size ≠ pos k % max 1 ch.size) →
      linePlaces s x.g (lineAccess false recordTypes) (pairS x 9 a) ch.lines = .ok ps → allPlaces (ks.map lines) = .ok dst →
      allPlaces (live.map lines) = .ok ds → copySlots s x.g ps ((live.map fun k => ch.slotAddr k (pos k)).zip ds) = .ok t →
      let late := ((live.zip ds).filter fun d => ch.escope == 4 && d.2.any fun p => p.irrev && !p.immed).map (·.1)
      sent t x gr f c ks live late pos = some u →
      exec (.send a b) s = .next (completed (.send a b) x u))
    ∧ (∀ i k ps qs, Issues s x (.recv pd a b) → ownAccessesDone s x →
      let c := (opSB x b).toNat % 64
      let ch := gr.chan c
      f.ins.find? (fun i => i.chan == c) = some i → (gr.inputs f.stage).find? (fun i => i.1 == c) = some (c, k) →
      i.rcvd ≠ ch.cons → i.rcvd ≠ i.count →
      linePlaces s x.g (lineAccess false [0, 1]) (ch.slotAddr k (i.first + i.rcvd)) ch.lines = .ok ps →
      linePlaces s x.g (lineAccess true recordTypes) (pairS x 9 a) ch.lines = .ok qs → copyLines s x.g 0 (ps.zip qs) = .ok t →
      received t x pd gr f i k (i.first + i.rcvd) = some u →
      exec (.recv pd a b) s = .next (completed (.recv pd a b) x u))
    ∧ (∀ i k, Issues s x (.recv pd a b) →
      let c := (opSB x b).toNat % 64
      f.ins.find? (fun i => i.chan == c) = some i → (gr.inputs f.stage).find? (fun i => i.1 == c) = some (c, k) →
      i.rcvd ≠ (gr.chan c).cons → i.rcvd = i.count →
      exec (.recv pd a b) s = .next (completed (.recv pd a b) x (s.setGroup (predIn x.g x.lanes pd true))))
    ∧ (∀ p q v, writePlace s (agentOf x.g) q (readPlace s p 64) = some v → writeDesc v (agentOf x.g) q (readDesc s p).1 = some t →
      copyLines s x.g 0 [(p, q)] = .ok t)
    ∧ (∀ c ks live late pos, sent s x gr f c ks live late pos = some t →
        ∃ v, saveGraph s (live.foldl (fun (g : Graph) k => g.modifyChan c fun ch => ch.modifyRing k fun r =>
            if k ∈ late then { r with late := r.late ++ [(pos k, s.domain.rin)] } else { r with full := r.full ++ [pos k] }) gr) = some v
          ∧ t = v.modifyGroup x.uid fun g => { g with firing := some { f with outs := f.outs.map fun o =>
              if o.chan = c then { o with sent := o.sent.zipIdx.map fun (n, k) => if k ∈ ks then n + 1 else n } else o } })
    ∧ (∀ i k p, received s x pd gr f i k p = some t →
        ∃ v, saveGraph s (gr.modifyChan i.chan fun ch => ch.modifyRing k fun r => { r with full := r.full.filter fun q => q != p, rcvd := r.rcvd + 1 }) = some v
          ∧ t = v.modifyGroup x.uid fun g => { predIn g x.lanes pd false with firing := some { f with ins := f.ins.map fun j =>
              if j.chan = i.chan then { j with rcvd := j.rcvd + 1 } else j } })

/-- R338 to R340: at a SEAL the threads that come arrive and wait at its first word, and the set whose threads have arrived waits on; SEALREQ
returns the current interval and requests a seal, and RVRD reads a recovery word. -/
def Sys2Proof.Machine.Claim.SealRequestsAndRecoveryWords : Prop :=
  ∀ (pdead : Bool) (d b : SReg) (s : State) (x : Issue),
    let waitsHere := fun (l : Nat) => match (x.g.thread l).status with
      | .seal _ => true
      | _ => false
    let coming := x.lanes.filter fun l => !waitsHere l
    (Issues s x (.seal pdead) → coming ≠ [] → ownAccessesDone s x →
      exec (.seal pdead) s = .next (backAtFirst
        ((s.setGroup (x.g.withStatus coming (.seal (x.g.ext.length + 1)))).modifyLaunch x.g.launch fun l =>
          if pdead then l else { l with sealSave := l.sealSave ++ [x.g.team] }) x x.ext.yields))
    ∧ (Issues s x (.seal pdead) → coming = [] ∨ ¬ ownAccessesDone s x → exec (.seal pdead) s = .next s)
    ∧ (Issues s x (.sealreq d) → exec (.sealreq d) s = .next (completed (.sealreq d) x
        (requestSeal (s.setGroup (x.g.sregPut (regSD x d) (s.domain.rin.zeroExtend 32))))))
    ∧ (s.domain.stage = 0 → requestSeal s = { s with domain := { s.domain with trigger := true } })
    ∧ (s.domain.stage ≠ 0 → s.domain.passed = true → requestSeal s = { s with domain := { s.domain with nextTrigger := true } })
    ∧ (s.domain.stage ≠ 0 → s.domain.passed = false → requestSeal s = s)
    ∧ (Issues s x (.rvrd d b) → exec (.rvrd d b) s = .next (completed (.rvrd d b) x
        (s.setGroup (x.g.sregPut (regSD x d) (match (opSB x b).toNat % 8 with
          | 0 => s.domain.rin.zeroExtend 32
          | 1 => s.domain.committed.zeroExtend 32
          | 2 => BitVec.ofNat 32 ((if s.domain.stage = 1 ∨ s.domain.stage = 2 then 2 ^ 16 else 0) + s.domain.interval.toNat)
          | 3 => BitVec.ofNat 32 (logUsed s (x.g.core / 48) * 256 / logSize s)
          | 4 => ((s.ctx? x.g.ctx).map (·.rollbacks)).getD 0
          | 5 => BitVec.ofNat 32 ((if s.domain.want then 1 else 0) + (if isPinned s x.g.ctx then 2 else 0))
          | 6 => BitVec.ofNat 32 ((s.deferred.filter fun d => d.ctx == x.g.ctx).length)
          | _ => BitVec.ofNat 32 s.domain.members.length)))))

/-- R357 to R360, R366, R367: COLL and LEASE, wherever their records pass, join the CL class; CLARB exchanges the context's weight, and CLSTAT
reads a collective status word. -/
def Sys2Proof.Machine.Claim.CollectiveInstructions : Prop :=
  ∀ (sh co cs d a b : SReg) (s : State) (x : Issue),
    (∀ r table, Issues s x (.coll sh co cs) → mayIssueTo s x x.g.clops.length → readColl s x (pairS x 17 sh) = .ok (r, table) →
      compFault s x.g (compAddr x cs) = none →
      let e := x.g.sregGet (x.ext.snum 9 co.toNat)
      collRanges s x r table e = .ok () →
      let w := collWords s r e (x.g.sregGet (x.ext.snum 9 co.toNat + 1)) table
      exec (.coll sh co cs) s = .next (completed (.coll sh co cs) x (clQueued 6 (recField r 5 61 3) w cs s x)))
    ∧ (∀ r table va c, Issues s x (.coll sh co cs) → mayIssueTo s x x.g.clops.length → readColl s x (pairS x 17 sh) = .ok (r, table) →
      compFault s x.g (compAddr x cs) = some (va, c) →
      exec (.coll sh co cs) s = .next (takePark (backAtFirst s x x.ext.yields) x.uid
        { cause := c.1, lanes := x.lanes, va := some va, kind := 1, detail := c.2, setLevel := true, skip := x.g.ext.length + 1 }))
    ∧ (∀ w, Issues s x (.lease sh cs) → mayIssueTo s x x.g.clops.length → readWords s x.g 3 8 (pairS x 17 sh) = .ok w → leaseOk s x.g w = true →
      compFault s x.g (compAddr x cs) = none →
      exec (.lease sh cs) s = .next (completed (.lease sh cs) x (clQueued 7 3 (w.take 2) cs s x)))
    ∧ (∀ c, Issues s x (.clarb d a) → s.ctx? x.g.ctx = some c →
      let t := s.setGroup (x.g.sregPut (regSD x d) (BitVec.ofNat 32 c.weight))
      let want := (opSA x a).toNat % 16
      exec (.clarb d a) s = .next (completed (.clarb d a) x
        (if want = 0 then t else t.modifyCtx x.g.ctx fun c => { c with weight := min want c.clmax })))
    ∧ (∀ c, Issues s x (.clstat d b) → s.ctx? x.g.ctx = some c →
      exec (.clstat d b) s = .next (completed (.clstat d b) x (s.setGroup (x.g.sregPut (regSD x d) (match (opSB x b).toNat % 8 with
        | 0 => BitVec.ofNat 32 x.g.clSeq
        | 1 => x.g.cl.clDone
        | 2 => x.g.cl.clErr
        | 3 => x.g.cl.errSeq
        | 4 => BitVec.ofNat 32 c.weight
        | 5 => BitVec.ofNat 32 c.clmax
        | 6 => x.g.cl.clWord
        | _ => 0)))))

namespace Sys2Proof.Machine

/-- The notice store of a lease: its deadline in the word that its WATCH names, as an engine store, or the record of the fault that drops it
(R356, R357). -/
def noticeGiven (s t : State) (l : Lease) : Prop :=
  match l.watch with
  | none => t = s
  | some (ctx, core, va) =>
    match s.ctx? ctx with
    | none => t = s
    | some c =>
      match checkAccess s c core none ⟨8, 8, 8, false, true, false, [0]⟩ va with
      | .error (cause, d) => t = emitRecord s { ctx := ctx, engine := 3, cause := cause, sev := 3, kind := 8, va := some va.toNat, detail := d }
      | .ok p => writePlace s { ctx := ctx, group := 0, die := dieOf core, op := none } p (leBytes 8 l.deadline) = some t

/-- The oldest CL operation of a group completes: at its release scope its writes are performed, its completion word is stored, the status words
change, and CL falls by one (R207, R246, R247, R367). -/
def ClEnds (s t : State) (g : Group) (op : UnitOp) (outcome cause : Nat) : Prop :=
  (op.scope = 4 → ∀ d ∈ s.deferred, d.group = g.uid → d.op ≠ some (2, op.seq))
  ∧ ∃ u, completionStore s g (agentOf g) op.core 3 op.lane op.seq (outcome != 0) op.comp = some u
    ∧ t = settle (refreshCounts (u.modifyGroup g.uid fun y => { y with
        clops := y.clops.drop 1
        cl := if outcome = 0 then { y.cl with clDone := BitVec.ofNat 32 op.seq } else
          { clDone := BitVec.ofNat 32 op.seq, clErr := BitVec.ofNat 32 (cause * 2 ^ 16 + outcome), errSeq := BitVec.ofNat 32 op.seq
            clWord := y.cl.clWord + 1 } }) g.uid)

/-- A COLL has ended with OK, or with a cause at a destination element and the record of it (R363). -/
def collEnded (s : State) (g : Group) (op : UnitOp) (cause k kind : Nat) : State :=
  let t := s.modifyGroup g.uid fun y => { y with clops := y.clops.map fun (u : UnitOp) =>
    if u.seq = op.seq then { u with step := 1, done := some (if cause = 0 then 0 else 2, BitVec.ofNat 16 cause, BitVec.ofNat 48 k) } else u }
  if cause = 0 then t
  else emitRecord t { team := g.team, ctx := g.ctx, engine := 3, cause := cause, slot := g.slot, core := g.core, lanes := 2 ^ op.lane
                      va := some (collVa op true k).toNat, sev := 3, kind := kind, detail := k * 2 ^ 16 + 2 }

/-- A COLL ends in `s`: it completes, or waits for its completion (R246, R363). -/
def CollEnds (s t : State) (g : Group) (op : UnitOp) (cause k kind : Nat) : Prop :=
  let u := collEnded s g op cause k kind
  let outcome := if cause = 0 then 0 else 2
  ClEnds u t g op outcome cause ∨ (completeClop u g op outcome cause = none ∧ t = u)

/-- R361, R362: what the ranks bring becomes a destination element: of ALLREDUCE and REDUCE_SCATTER the reduction over the ranks in the tree of
R361, of ALLGATHER the element of its rank, and of BROADCAST the root's. -/
def Claim.CollectiveElements : Prop :=
  ∀ (op : UnitOp) (me : Nat) (src : Nat → List Byte) (k : Nat),
    let type := recField op.words 4 53 3
    let size := if type = 0 ∨ type = 2 then 4 else if type = 4 then 16 else 8
    let count := (op.words.getD 3 0).toNat
    let ranks := op.words.length - 8
    let elem := fun r n => ((src r).drop (n * size)).take size
    let reduced := fun n =>
      collBytes type (((reduceTree (collComb type (recField op.words 4 51 2))
        (fun r => if r < ranks then some (collVal type (elem r n)) else none) (logCeil ranks) 0).1).getD (0, 0))
    (recField op.words 4 56 3 = 0 → collElem op me src k = reduced k)
    ∧ (recField op.words 4 56 3 = 1 → collElem op me src k = reduced (me * count + k))
    ∧ (recField op.words 4 56 3 = 2 → collElem op me src k = elem (k / count) (k % count))
    ∧ (recField op.words 4 56 3 = 3 → collElem op me src k = elem (recField op.words 4 32 10) k)

end Sys2Proof.Machine

/-- R246, R332, R354, R357, R360 to R363: a COLL passes its ready word where it names none or has reached it, and the oldest operation of the CL class
ends when its ranks have exchanged and its destination is written, part by part where a log has no room for more, when a cause ends it, or when
its lender has answered. -/
def Sys2Proof.Machine.Claim.CollectivesPassAndComplete : Prop :=
  Claim.CollectiveElements
  ∧ ∀ (s : State) (uid n : Nat) (g : Group) (op : UnitOp) (x : Exchange), s.group? uid = some g →
    let passed := s.modifyGroup uid fun y => { y with clops := y.clops.map fun (u : UnitOp) => if u.seq = op.seq then { u with step := 1 } else u }
    let lost := ∃ d ∈ op.words.drop 8, d.toNat ≠ s.domain.device ∧ d.toNat ∈ s.domain.noRoute
    let type := recField op.words 4 53 3
    let size := collSize type
    let part := collPart type
    let ranks := op.words.length - 8
    let counts := collCounts (recField op.words 4 56 3) ranks (op.words.getD 3 0).toNat
    let me := ((List.range ranks).find? fun k => (op.words.getD (8 + k) 0).toNat == s.domain.device).getD 0
    let same : Bool := op.words.getD 0 0 == op.words.getD 1 0
    let from_ := if same then [] else sourcePas s g op part (counts.1 * (size / part))
    let out := fun (own : List Byte) => (List.range counts.2).flatMap (collElem op me fun r =>
      if r = me then own else ((x.parts.find? fun p => p.1 == r).map (·.2)).getD [])
    let first := match op.left with
      | some (m, _) => m * part / size
      | none => 0
    let writes := fun (m : Nat) (l : List (List Byte)) =>
      (∀ u t, writeDest g op same from_ part m l s = .all u → CollEnds u.nextOccasion t g op 0 0 0 → exec (.collectiveCompletion uid x) s = .next t)
      ∧ (∀ u t c k, writeDest g op same from_ part m l s = .stopped u c k → CollEnds u.nextOccasion t g op c.1 (k / size) 8 →
          exec (.collectiveCompletion uid x) s = .next t)
      ∧ ∀ u k rest, writeDest g op same from_ part m l s = .waits u k rest →
          exec (.collectiveCompletion uid x) s = .next (u.modifyGroup uid fun y => { y with clops := y.clops.map fun (v : UnitOp) =>
            if v.seq = op.seq then { v with left := some (k, rest) } else v })
    (g.clops[n]? = some op → op.kind = 6 → op.step = 0 → (∀ u ∈ g.clops.take n, u.step ≠ 0) →
      (op.words.getD 2 0 = 0 ∨ ∃ b, engineRead s g op.core 4 (op.words.getD 2 0) = .ok b ∧
        (ofLe b + 2 ^ 32 - (op.words.getD 6 0).toNat % 2 ^ 32) % 2 ^ 32 < 2 ^ 31) →
      exec (.collReadyPassed uid n) s = .next passed)
    ∧ (∀ c, g.clops[n]? = some op → op.kind = 6 → op.step = 0 → (∀ u ∈ g.clops.take n, u.step ≠ 0) → op.words.getD 2 0 ≠ 0 →
      engineRead s g op.core 4 (op.words.getD 2 0) = .fault c → exec (.collReadyPassed uid n) s = .next (collEnded s g op c.1 0 7))
    ∧ (g.clops.head? = some op → op.kind = 6 → op.done = none →
        (∀ t cause, (lost → cause = 0x0A01) → (¬ lost → cause = x.fail ∧ (x.fail = 0x0602 ∨ x.fail = 0x0A01)) → CollEnds s t g op cause first 0 →
          exec (.collectiveCompletion uid x) s = .next t)
        ∧ (∀ m rest, ¬ lost → op.left = some (m, rest) → x.fail ≠ 0x0602 → x.fail ≠ 0x0A01 → writes m rest)
        ∧ (¬ lost → op.left = none → op.step ≠ 0 → x.fail = 0 → partsFit s op x = true →
            (∀ c t, readSource s g op part (counts.1 * (size / part)) = .fault c → CollEnds s t g op c.1 0 7 →
              exec (.collectiveCompletion uid x) s = .next t)
            ∧ ∀ own, readSource s g op part (counts.1 * (size / part)) = .ok own →
                writes 0 ((List.range ((out own).length / part)).map (elemOf part (out own)))))
    ∧ (∀ r t, g.clops.head? = some op → op.kind = 6 → op.done = some r → ClEnds s t g op r.1 r.2.1.toNat →
        exec (.collectiveCompletion uid x) s = .next t)
    ∧ (∀ t u, g.clops.head? = some op → op.kind = 7 → performLease s g op = some t → ClEnds t u g op 0 0 →
        exec (.leaseCompletion uid) s = .next u)
    ∧ (∀ l, recField op.words 0 0 2 = 0 → lease? s false (recField op.words 0 48 10) (recField op.words 0 32 16) = some l →
        let va := op.words.getD 1 0
        let l1 : Lease := { l with watch := if va = 0 then none else some (g.ctx, op.core, va) }
        let u := { s with leases := s.leases.map fun y => if y.lender = false ∧ y.dev = l.dev ∧ y.num = l.num then l1 else y }
        (l.state ≠ 1 → performLease s g op = some u) ∧ (l.state = 1 → ∀ t, noticeGiven u t l1 → performLease s g op = some t))
    ∧ (∀ l, recField op.words 0 0 2 = 1 → lease? s false (recField op.words 0 48 10) (recField op.words 0 32 16) = some l →
        (2 ≤ l.state → performLease s g op = some s)
        ∧ (l.state < 2 → leaseBusy s op.after l = false →
            performLease s g op = some { s with leases := s.leases.map fun y =>
              if y.lender = false ∧ y.dev = recField op.words 0 48 10 ∧ y.num = recField op.words 0 32 16 then { y with state := 3 } else y }))

/-- R355, R356, R385: a lease enters NOTICE with its deadline and a notice store, ends at its deadline the contexts that still hold a leaf of it,
and is forgotten by its lender when the range comes back. -/
def Sys2Proof.Machine.Claim.LeasesEndAtTheirDeadline : Prop :=
  ∀ (dev : BitVec 10) (num : BitVec 16) (notice : DWord) (s : State) (l : Lease),
    let others := fun (f : Lease → Lease) => { s with leases := s.leases.map fun y => if y.lender = false ∧ y.dev = l.dev ∧ y.num = l.num then f y else y }
    (lease? s false dev.toNat num.toNat = some l → l.state = 0 → 10000000 ≤ notice.toNat →
      ∀ t, noticeGiven (others fun _ => { l with state := 1, deadline := s.clock + notice.toNat }) t { l with state := 1, deadline := s.clock + notice.toNat } →
        exec (.leaseNotice dev num notice) s = .next t)
    ∧ (lease? s false dev.toNat num.toNat = some l → l.state = 1 → l.deadline ≤ s.clock →
        exec (.leaseDeadline dev num) s = .next ((s.ctxs.filter fun c => c.state != .ended && tableNames s.hbm l.dev l.num 3 c.root).foldl
          (fun t c => endContext (emitRecord t
            { ctx := c.num, engine := 7, cause := 0x0A02, action := 4, sev := 4, detail := l.dev * 2 ^ 38 + l.num }) c.num)
          (others fun y => { y with state := 2 })))
    ∧ exec (.leaseReleaseAtLender dev num) s =
        .next { s with leases := s.leases.filter fun l => !(l.lender && l.dev == dev.toNat && l.num == num.toNat) }

/-- R329, R353, R354: a lost route is noted and a regained one forgotten, and an access of a peer is performed in HBM where it arrives, tracked
if the peer belongs to the domain. -/
def Sys2Proof.Machine.Claim.PeersReachThisDevice : Prop :=
  ∀ (s : State) (dev : BitVec 10) (acc : PeerAccess) (data : List Byte), s.memoryWf = true →
    (dev.toNat ∉ s.domain.noRoute → exec (.noRoute dev) s = .next { s with domain := { s.domain with noRoute := s.domain.noRoute ++ [dev.toNat] } })
    ∧ exec (.routeRegained dev) s = .next { s with domain := { s.domain with noRoute := s.domain.noRoute.filter fun d => d != dev.toNat } }
    ∧ (acc.write = some data → acc.desc = none → s.regs.boot = .ready → acc.pa + data.length ≤ 0xC000000000 → acc.pa < 0xC000000000 →
        touchesLog s acc.pa (max 1 data.length) = false →
        let tracked := acc.dev.toNat ∈ s.domain.members ∧ inWindow s acc.pa = false
        ∀ u, (tracked → captureLines s (linesOf acc.pa data.length) = some u) → (¬ tracked → u = s) →
        ∃ t, exec (.peerAccessArrival acc) s = .next t
          ∧ (∀ a, t.hbm.byte a = if acc.pa ≤ a ∧ a < acc.pa + data.length then data.getD (a - acc.pa) 0 else s.hbm.byte a)
          ∧ t = { u with hbm := t.hbm, work := datedWork s acc.pa data.length
                         deferred := s.deferred.map fun d => d.replaced s.domain.rin (0, acc.pa) data.length } ∧ u.work = s.work ∧ u.ctxs = s.ctxs ∧ u.host = s.host ∧ u.peer = s.peer)

/-- R332, R334, R335, R338: a trigger, a period, a stalled log or a whole gang at SEAL begins a seal; the coordinator goes from READY to COMMIT,
or to ABORT when a member is late or cannot be reached. -/
def Sys2Proof.Machine.Claim.SealsAreTriggeredAndDecided : Prop :=
  ∀ (s : State),
    let counts := fun (g : Group) (p : Park) => g.park = some p ∧ p.cause = 0x0901 ∧ resident s g.ctx = true
      ∧ ((∃ die < 4, logFull s die = true) ∨ p.setLevel = true)
    (s.regs.boot = .ready → s.regs.sealPer ≠ 0 → s.domain.stage = 0 → s.domain.trigger = false →
      s.domain.lastSeal + s.regs.sealPer.toNat * 1000000 ≤ s.clock →
      exec .sealPeriod s = .next { s with domain := { s.domain with trigger := true } })
    ∧ (∀ t, stallStart s = some t → s.regs.boot = .ready → s.domain.stage = 0 → s.domain.trigger = false → t + stallMs s * 1000000 ≤ s.clock →
        exec .stallLimit s = .next { s with domain := { s.domain with trigger := true } })
    ∧ (stallStart s = none ↔ ∀ g ∈ s.work.groups, ∀ p, ¬ counts g p)
    ∧ (∀ t, stallStart s = some t → (∃ g ∈ s.work.groups, ∃ p, counts g p ∧ p.time = t) ∧ ∀ g ∈ s.work.groups, ∀ p, counts g p → t ≤ p.time)
    ∧ (s.regs.boot = .ready → s.domain.stage = 0 →
        (s.domain.trigger = true ∨ (∃ l ∈ s.work.launches, sealDone s l = true) ∨ 1 < s.domain.members.length) →
        exec .sealTrigger s = .next { s with domain := { s.domain with
          stage := 1, interval := s.domain.rin, passed := false, trigger := false, nextTrigger := false, since := s.clock } })
    ∧ (s.domain.stage = 1 → s.domain.passed = true → s.domain.coord = s.domain.device →
        (∀ d ∈ s.domain.members, d = s.domain.device ∨ d ∉ s.domain.noRoute) →
        exec .ready s = .next { s with domain := { s.domain with stage := 2 } })
    ∧ (s.domain.stage = 1 → s.domain.coord = s.domain.device →
        ((s.domain.since + s.domain.sealTo * 1000000 ≤ s.clock ∧ (s.domain.passed = false ∨ 1 < s.domain.members.length))
          ∨ ∃ d ∈ s.domain.members, d ≠ s.domain.device ∧ d ∈ s.domain.noRoute) →
        exec .sealTimeout s = .next { s with domain := { s.domain with stage := 3 } })
    ∧ (∀ l, sealDone s l = true ↔ (l.gang = true ∧ (∃ c, s.ctx? l.ctx = some c ∧ resident s l.ctx = true)
        ∧ (∃ g ∈ s.work.groups, g.launch = l.uid ∧ g.live ≠ [])
        ∧ ∀ g ∈ s.work.groups, g.launch = l.uid → ∀ k ∈ g.live, ∃ w, (g.thread k).status = .seal w))

namespace Sys2Proof.Machine

/-- R338: a seal point moves every thread that waits at the completed SEAL of its gang to the instruction after it, and no other thread. -/
def Claim.SealPointsPassTheirThreads : Prop :=
  ∀ (s : State) (g : Group),
    ((∀ l ∈ s.work.launches, l.uid = g.launch → sealDone s l = false) → sealPassed s g = g)
    ∧ ((∃ l ∈ s.work.launches, l.uid = g.launch ∧ sealDone s l = true) →
        sealPassed s g = { g with threads := g.threads.map fun th =>
          match th.status with
          | .seal words => { th with status := .run, pc := th.pc + BitVec.ofNat 64 (4 * words) }
          | _ => th })

/-- R336: the frames of a context go to the half of its seal region that does not hold its committed seal; of a SAVED context it is the copy of
its save region. -/
def Claim.SealFramesTakeTheFreeHalf : Prop :=
  ∀ (s : State) (skip : List Nat) (c : Ctx),
    let base := c.sealBase + (if c.hasSeal = true ∧ c.half = false then 0x25800000 else 0)
    sealContext skip s c = if c.state = .saved then { s with hbm := copyRegion s.hbm c.saBase base } else saveContext s skip base c.num

end Sys2Proof.Machine

/-- R335, R336, R338: PREPARE takes the seal point: completed SEALs are past, the frames of every context are written, the work, the contexts and
the inlets are recorded, and the current interval moves on by one. -/
def Sys2Proof.Machine.Claim.PrepareTakesTheSealPoint : Prop :=
  Claim.SealPointsPassTheirThreads ∧ Claim.SealFramesTakeTheFreeHalf
  ∧ ∀ (s : State), s.domain.stage = 1 → s.domain.passed = false →
    (∀ g ∈ s.work.groups, resident s g.ctx = true → g.ext = [] ∧ g.loads = [] ∧ g.mmas = [] ∧ g.tiles = [] ∧ g.stores = []) →
    ageingDue s = false →
    let taken := { s with work := { s.work with
      groups := s.work.groups.map (sealPassed s)
      launches := s.work.launches.map fun l => if sealDone s l then { l with sealSave := [] } else l } }
    let ctxs := s.ctxs.filter fun c => c.state != .ended
    let framed := ctxs.foldl (sealContext (deadPonds s)) taken
    exec (.prepare s.domain.interval) s = .next (settle { taken with
      hbm := framed.hbm, occasion := framed.occasion
      snapPending := some { r := s.domain.interval, work := framed.work, ctxs := ctxs, heads := s.inlets.map fun i => i.head }
      domain := { s.domain with rin := s.domain.interval + 1, want := false, passed := true, lastSeal := s.clock } })

namespace Sys2Proof.Machine

/-- R200, R208, R210, R333, R376: a deferred write is performed outside at its target, a descriptor as one, to a register with that register's effect,
and a launch completion record raises vector 3. What a later write of another interval has replaced reaches only the lines that a rollback past
that write would bring back. -/
def Claim.DeferredWritesArePerformed : Prop :=
  (∀ (s : State) (r : BitVec 16), performAll s r = (s.deferred.filter fun d => notAfter d.rin r).foldl performDeferred
      { s with deferred := s.deferred.filter fun d => !notAfter d.rin r })
  ∧ ∀ (s : State) (d : Deferred), s.regs.boot = .ready →
    let raised := fun (t : State) => if d.record then { t with msix := t.msix ++ [3] } else t
    (d.home = true → performDeferred s d = raised s)
    ∧ (d.home = false → d.desc = true → d.stale = [] →
        let x : Word := BitVec.ofNat 32 (ofLe d.data)
        performDeferred s d = raised (descOutside { s with undo := s.undo.map (Undo.withDesc d.target (x &&& 0xF1FFFFFF)) } d.target x))
    ∧ (d.home = false → d.desc = false → d.stale = [] →
        performDeferred s d = raised (performOutside { s with undo := s.undo.map (Undo.withBytes d.target d.data) } d.target d.data))
    ∧ (∀ k r, d.home = false → d.desc = true → d.stale = [(k, r)] →
        let lost := s.undo.map fun u => if notAfter u.rin r then Undo.withDesc d.target (BitVec.ofNat 32 (ofLe d.data) &&& 0xF1FFFFFF) u else u
        performDeferred s d = raised { s with undo := lost })
    ∧ (d.home = false → d.desc = false → d.stale ≠ [] →
        let lost := d.stale.foldl (fun (l : List Undo) k => l.map fun u =>
          if notAfter u.rin k.2 then Undo.withBytes (shiftTarget d.target k.1) [d.data.getD k.1 0] u else u) s.undo
        performDeferred s d = raised ((d.data.zipIdx.filter fun e => decide (∀ k ∈ d.stale, k.1 ≠ e.2)).foldl (fun t e =>
          performOutside { t with undo := t.undo.map (Undo.withBytes (shiftTarget d.target e.2) [e.1]) } (shiftTarget d.target e.2) [e.1])
          { s with undo := lost }))
    ∧ (∀ off, performOutside s (.mmio off) d.data = regWrite s off d.data)
    ∧ (∀ pa, performOutside s (.host pa) d.data = { s with host := s.host.write pa d.data })

/-- R333, R341: what a commit performs also stands in the line that a rollback to it would bring back: its bytes, or its descriptor beside the
line's RINTAG, and nothing else of it. -/
def Claim.CommitsReachTheCapturedLines : Prop :=
  ∀ (u : Undo) (pa : Nat) (data : List Byte) (x : Word), u.die ≠ Config.dies →
    (Undo.withBytes (.hbm pa) data u = { u with data := (Undo.withBytes (.hbm pa) data u).data }
      ∧ ∀ k < u.data.length, (Undo.withBytes (.hbm pa) data u).data.getD k 0
          = if pa ≤ u.pa + k ∧ u.pa + k < pa + data.length then data.getD (u.pa + k - pa) 0 else u.data.getD k 0)
    ∧ Undo.withDesc (.hbm pa) x u = (if u.pa / 64 = pa / 64 then { u with side := rintag u.side ++ x } else u)
    ∧ ∀ dev, Undo.withBytes (.peer dev pa) data u = u ∧ Undo.withBytes (.host pa) data u = u

/-- R208, R295: the records whose writes a commit performs make their slots FULL, and no other slot changes. -/
def Claim.CommitsFillSlots : Prop :=
  (∀ (r : BitVec 16) (q : Ring), (q.performed r).full = q.full ++ (q.late.filter fun p => notAfter p.2 r).map (·.1)
      ∧ (q.performed r).late = q.late.filter (fun p => !notAfter p.2 r) ∧ (q.performed r).stage = q.stage ∧ (q.performed r).cpos = q.cpos
      ∧ (q.performed r).rcvd = q.rcvd)
  ∧ (∀ (s : State) (r : BitVec 16), (∀ gr ∈ s.work.graphs, ∀ c ∈ gr.chans, ∀ q ∈ c.rings, ∀ p ∈ q.late, notAfter p.2 r = false) →
      commitSlots s r = s)
  ∧ ∀ (s : State) (r : BitVec 16) (gr : Graph) (t : State), s.work.graphs = [gr] → gr.committed r ≠ gr →
      saveGraph s ((foundGraph s gr).committed r) = some t → commitSlots s r = t

/-- R230: at a commit the held regions whose refit committed in an interval that the seal closes are held no longer. -/
def Claim.CommitsClearHolds : Prop :=
  ∀ (s : State) (r : BitVec 16) (q : Region), s.work.regions = [q] →
    let h := headerAt s.hbm q.hdr
    (h.hold = false ∨ 2 ^ 15 ≤ (r - BitVec.ofNat 16 h.crin).toNat → clearHold s r = s)
    ∧ (h.hold = true → (r - BitVec.ofNat 16 h.crin).toNat < 2 ^ 15 → ∀ t, setField s q.hdr 0 26 1 0 = some t →
        (h.rstate ≠ 1 → clearHold s r = t)
        ∧ (h.rstate = 1 → ∀ u, startRefit t q.hdr q.owner = some u → clearHold s r = u))

/-- R288, R332: a bind area's stores that found no room in a log are owed by its graph, and made where a commit has left room for them. -/
def Claim.OwedStoresAreMade : Prop :=
  (∀ (s : State) (gr : Graph), saveGraph s gr = none →
    let old := (graph? s gr.ctx gr.area).getD (emptyArea gr.ctx gr.launch gr.area [] 0 0)
    saveOrPut s gr = putGraph s { gr with owed := distinct (old.owed ++ [0, 1, 2].filter fun k => !sameParts old gr k) })
  ∧ ∀ (s : State) (gr : Graph), s.work.graphs = [gr] →
      (gr.owed = [] → payOwed s = s)
      ∧ (gr.owed ≠ [] → ∀ t, saveGraph s (foundGraph s gr) = some t → payOwed s = t)
      ∧ (gr.owed ≠ [] → saveGraph s (foundGraph s gr) = none → payOwed s = s)

/-- R332: once a seal has ended each log is looked at again: WANT stays as it is while no log is filled to three quarters. -/
def Claim.LogsAreNoted : Prop :=
  ∀ (s : State), (∀ die < 4, 4 * logUsed s die < 3 * logSize s) → noteLogs s = s

/-- The groups that a test picks by their parks are listed, and no others. -/
def Claim.ParkedGroupsAreListed : Prop :=
  ∀ (s : State) (ok : Group → Park → Bool) (uid : Nat),
    uid ∈ parkedWith s ok ↔ ∃ g ∈ s.work.groups, g.uid = uid ∧ ∃ p, g.park = some p ∧ ok g p = true

end Sys2Proof.Machine

/-- R230, R332, R333, R335, R336: COMMIT releases the undo entries of the interval, performs its deferred writes in order, clears HOLD and pins, keeps
the seal, and resumes the groups parked under 0x0901 in the order of their parks; ABORT discards the frames, and the interval never commits. -/
def Sys2Proof.Machine.Claim.CommitAndAbortEndTheSeal : Prop :=
  Claim.DeferredWritesArePerformed ∧ Claim.CommitsReachTheCapturedLines ∧ Claim.CommitsFillSlots ∧ Claim.OwedStoresAreMade ∧ Claim.CommitsClearHolds ∧ Claim.LogsAreNoted ∧ Claim.ParkedGroupsAreListed
  ∧ ∀ (s : State) (snap : Snap),
    let r := s.domain.interval
    let idle := fun (t : State) => { t with
      domain := { t.domain with stage := 0, trigger := t.domain.nextTrigger, nextTrigger := false, passed := false } }
    let kept := { s with
      undo := s.undo.filter (fun u => !notAfter u.rin r), snapCommitted := some (snap.committed r), snapPending := none
      ctxs := s.ctxs.map fun c => { c with
        pinned := match c.pinned with
          | some p => if notAfter p r then none else some p
          | none => none
        half := if (snap.ctxs.map fun y => y.uid).contains c.uid then c.hasSeal && !c.half else c.half
        hasSeal := c.hasSeal || (snap.ctxs.map fun y => y.uid).contains c.uid }
      inlets := (s.inlets.zip snap.heads).map (fun (n, h) => { n with chead := h })
      domain := { s.domain with committed := r } }
    let done := idle (clearHold (payOwed (commitSlots (performAll kept r) r)) r)
    let given := done.work.regions.foldl (fun t q => releaseHeld t q.hdr) done
    let resumed := (parkedWith given fun g p => resident given g.ctx && p.cause == 0x0901).foldl
      (fun t uid => releasePark t uid 2 0xFFFFFFFFFFFFFFFF) given
    (∀ y : Snap, y.committed r = { y with work := { y.work with graphs := y.work.graphs.map (·.committed r) } })
    ∧ (s.domain.stage = 2 ∨ (s.domain.stage = 1 ∧ s.domain.passed = true ∧ s.domain.coord ≠ s.domain.device) → s.snapPending = some snap →
      (done.regs.boot ≠ .ready → exec (.commit r) s = .next done)
      ∧ (done.regs.boot = .ready → exec (.commit r) s = .next (noteLogs (settle (settleAllStores (settle resumed))))))
    ∧ (s.domain.stage = 3 ∨ (s.domain.stage = 1 ∧ s.domain.coord ≠ s.domain.device) →
        s.domain.passed = true ∨ (∀ g ∈ s.work.groups, resident s g.ctx = true →
          g.ext = [] ∧ g.loads = [] ∧ g.mmas = [] ∧ g.tiles = [] ∧ g.stores = []) →
        let t := idle { s with snapPending := none, domain := { s.domain with rin := if s.domain.passed then s.domain.rin else r + 1 } }
        ((∀ d ∈ s.deferred, d.record = false) → exec (.abort r) s = .next (noteLogs t))
        ∧ ((∃ d ∈ s.deferred, d.record = true) → exec (.abort r) s = .next (noteLogs { t with domain := { t.domain with trigger := true } })))

/-- R328: the pass over the lines gives every RINTAG that precedes the current one by 2^14 or more the one 2^14 before it, and leaves every
descriptor and every other RINTAG. -/
def Obligations.AgeingKeepsDescriptors : Prop :=
  ∀ (s : State), swf (sideDefault s) s.side = true → ∃ t, exec .rintagAgeing s = .next t
    ∧ (∀ pa, descOf (sideGet t pa) = descOf (sideGet s pa))
    ∧ (∀ pa, let age := (s.domain.rin - rintag (sideGet s pa)).toNat
        rintag (sideGet t pa) = if 2 ^ 14 ≤ age ∧ age < 2 ^ 15 then s.domain.rin - 16384 else rintag (sideGet s pa))
    ∧ t = { s with baseTag := t.baseTag, side := t.side }

namespace Sys2Proof.Machine

/-- R341, steps 3 and 4: after the undo entries of the intervals after c have been applied newest first, every byte of a line that one of them
covers is as the oldest of them holds it, with the line's sideband, its descriptor and its RINTAG, and everything else of HBM stays. -/
def Claim.UndoneLinesAreRestored : Prop :=
  ∀ (s : State) (c : BitVec 16), s.memoryWf = true → (∀ u ∈ s.undo, u.data.length = 64) →
    let t := undoAfter s c
    (∀ a, t.hbm.byte a =
      match s.undo.find? fun u => precedes c u.rin && u.die != Config.dies && decide (u.pa ≤ a) && decide (a < u.pa + 64) with
      | some u => u.data.getD (a - u.pa) 0
      | none => s.hbm.byte a)
    ∧ (swf (sideDefault s) s.side = true → ∀ a, sideGet t a =
        match s.undo.find? fun u => precedes c u.rin && u.die != Config.dies && u.pa / 64 == a / 64 with
        | some u => u.side
        | none => sideGet s a)
    ∧ t.undo = s.undo.filter (fun u => !precedes c u.rin) ∧ t.work = s.work ∧ t.ctxs = s.ctxs ∧ t.host = s.host

/-- A context that a rollback brings back: as its committed seal has it, SAVED, with its queue positions and its pin gone, and ROLLBACKS risen
by one (R309, R341). -/
def ctxBack (s : State) (c old : Ctx) : Ctx :=
  { old with
    fqWritten := c.fqWritten, fqRead := c.fqRead, fqHeld := heldBefore c old, half := c.half, hasSeal := c.hasSeal
    rollbacks := c.rollbacks + 1, pinned := none, dying := c.dying, state := .saved, snap := backSnap s c.snap
    snapDates := backDates s (sealWork s).dates c.snapDates, savedAt := if c.state = .saved then c.savedAt else s.clock }

/-- R341, R342: a rollback to the committed seal c: the undo entries after c are applied and the deferred writes after it dropped, RIN becomes
c + 1, each context that cannot come back ends with 0x0902 or 0x0903, each other one is back at its seal with a record of 0x0902, and those
that were resident are restored. -/
def Claim.RollbacksReturnToTheSeal : Prop :=
  ∀ (s : State) (moves : List Placement),
    let c := s.domain.committed
    let past := s.snapCommitted.map fun p => p.ctxs
    let old? := fun (k : Ctx) => if k.hasSeal then past.bind fun l => l.find? fun y => y.uid == k.uid else none
    let ends := fun (k : Ctx) => k.state != .ended && (isPinned s k.num || (old? k).isNone)
    let back := s.ctxs.filter fun k => k.state != .ended && !isPinned s k.num && (old? k).isSome
    let undone := undoAfter s c
    let dropped := { undone with deferred := undone.deferred.filter fun d => !precedes c d.rin }
    let framed := back.foldl (fun t k => { t with hbm := copyRegion t.hbm (halfBase k k.half) k.saBase }) dropped
    let placed := { framed with
      work := backWork s (sealWork s), snapPending := none
      ctxs := s.ctxs.map fun k => match old? k with
        | some y => if k.state != .ended && !isPinned s k.num then ctxBack s k y else k
        | none => k
      inlets := s.inlets.map fun i => { i with head := i.chead }
      domain := { s.domain with rin := c + 1, stage := 0, passed := false, trigger := false, nextTrigger := false, want := false } }
    let number := (s.undo.filter fun u => precedes c u.rin && u.die != Config.dies).length
    let record := fun (ctx cause action sev detail : Nat) => ({ ctx := ctx, engine := 6, cause := cause, action := action, sev := sev, detail := detail } : RecordArgs)
    let ended := (s.ctxs.filter ends).foldl (fun t k =>
      endNow (emitRecord t (if isPinned s k.num then record k.num 0x0903 4 4 0 else record k.num 0x0902 4 4 (c.toNat * 2 ^ 32 + number % 2 ^ 32))) k.num) placed
    let told := back.foldl (fun t k => emitRecord t (record k.num 0x0902 5 5 (c.toNat * 2 ^ 32 + number % 2 ^ 32))) ended
    let resident := (back.filter fun k => k.state != .saved && !k.dying).map fun k => k.num
    let dying := (back.filter fun k => k.dying).map fun k => k.num
    rollback s moves = (restoreAll (restartRefits told) moves resident).map fun t => noticeAgain (dying.foldl endNow t)

/-- R343, R386, R388: the self-test of a unit: a lane with a lasting fault takes a spare lane of its core, with a record of its own, and where none
is left the core is retired; a core's other units retire the core, the other units are replaced or retired as their table says, each frame of
HBM once, and a fabric port retrains, with a record that names no group, and is disabled where it does not pass. -/
def Claim.SelfTestsReplaceOrRetire : Prop :=
  ∀ (s : State) (e : ErrReport),
    let core := bitsOf e.index.toNat 8 8
    let left := 4 - s.regs.spareLane.getD core 4
    let detail := fun (outcome spares : Nat) => e.kind * 2 ^ 44 + outcome * 2 ^ 40 + spares * 2 ^ 32 + e.index.toNat
    let coreRetired := { s with regs := { s.regs with retCore := if core ∈ s.regs.retCore then s.regs.retCore else s.regs.retCore ++ [core] } }
    let bank := 4 * bitsOf e.index.toNat 16 2 + (Config.l2Quarter e.index).toNat
    let retrained := emitRecord s (errorRecord s { e with access := none } 0x0B04 0 0 e.outcome)
    let frame := e.pa.getD 0 / 65536
    (e.kind ≠ 6 → e.outcome < 2 → selfTest s e = s)
    ∧ (e.kind = 0 → 2 ≤ e.outcome → 0 < left →
        let t := { s with regs := { s.regs with spareLane := modifyAt (fun n => n + 1) s.regs.spareLane core } }
        selfTest s e = emitRecord t { cause := 0x0B03, detail := detail 2 (4 - t.regs.spareLane.getD core 4) })
    ∧ (e.kind = 0 → 2 ≤ e.outcome → left = 0 → selfTest s e = coreRetired)
    ∧ (1 ≤ e.kind → e.kind ≤ 3 → e.outcome = 3 → selfTest s e = coreRetired)
    ∧ (1 ≤ e.kind → e.kind ≤ 5 → e.outcome = 2 → selfTest s e = { s with regs := { s.regs with retRows := s.regs.retRows + 1 } })
    ∧ (e.kind = 4 → e.outcome = 3 → selfTest s e = { s with regs := { s.regs with
        retL2 := if bitOf s.regs.retL2.toNat bank then s.regs.retL2 else s.regs.retL2 + BitVec.ofNat 32 (2 ^ bank) } })
    ∧ (e.kind = 5 → e.outcome = 3 → selfTest s e = { s with regs := { s.regs with
        retFrames := if frame ∈ s.regs.retFrames then s.regs.retFrames else s.regs.retFrames ++ [frame] } })
    ∧ (e.kind = 6 → e.outcome ≠ 3 → selfTest s e = retrained)
    ∧ (e.kind = 6 → e.outcome = 3 → ∃ off, selfTest s e = { retrained with regs := { retrained.regs with portOff := off } }
        ∧ ∀ k < 32, off.getLsbD k = (s.regs.portOff.getLsbD k || k == e.index.toNat % 32))

end Sys2Proof.Machine

/-- R341 to R343, R386, R387: an uncorrectable error has its unit tested and rolls the domain back or, where it cannot, ends every context and stops the
device, as does an error of another device of the domain; a first correctable error is recorded, a second soon after tests its unit, and a link's
error is recorded. That a context is matched by its identity, what happens with no committed seal and the input memberError (log entry 76), DETAIL 0
of the 0x0903 record (78), that a unit's entry is dropped at its second correctable error (80) and the outcome codes of link records (81) are the
model's choices. -/
def Obligations.ErrorsAreRecordedAndRolledBack : Prop :=
  Claim.UndoneLinesAreRestored ∧ Claim.RollbacksReturnToTheSeal ∧ Claim.SelfTestsReplaceOrRetire
  ∧ ∀ (e : ErrReport) (s : State) (port : BitVec 5) (pass : Bool),
    (s.regs.boot = .ready → fatalError s e = false →
      ∀ t, rollback (selfTest (emitRecord s (errorRecord s e 0x0B02 5 5 (triage s.regs e))) e) e.moves = some t →
        exec (.uncorrectableMemoryError e) s = .next t)
    ∧ (s.regs.boot = .ready → fatalError s e = true →
        let u := (s.ctxs.map fun c => c.num).foldl endNow (selfTest (emitRecord s (errorRecord s e 0x0B02 4 6 (triage s.regs e))) e)
        exec (.uncorrectableMemoryError e) s = .next { u with regs := { u.regs with boot := .stopped, unrestored := true } }
        ∧ ∀ c ∈ u.ctxs, c.state = .ended)
    ∧ (e.fatal = true ∨ (∃ pa, e.pa = some pa ∧ ∃ c ∈ s.ctxs, c.hasSeal = true ∧ halfBase c c.half ≤ pa ∧ pa < halfBase c c.half + 0x25800000) →
        fatalError s e = true)
    ∧ (∀ moves, s.regs.boot = .ready → memberError s true moves = (s.ctxs.map fun c => c.num).foldl endNow s)
    ∧ (∀ moves t, s.regs.boot = .ready → rollback s moves = some t → memberError s false moves = t)
    ∧ ((∀ k ∈ s.regs.correct, ¬ (k.1 = e.kind ∧ k.2.1 = unitKey e ∧ s.clock ≤ k.2.2 + 2 ^ 36)) →
        exec (.correctableError e) s = .next (emitRecord { s with
          regs := { s.regs with correct := s.regs.correct.filter (fun k => !(k.1 == e.kind && k.2.1 == unitKey e)) ++ [(e.kind, unitKey e, s.clock)] } }
          (errorRecord s e 0x0B01 0 0 0)))
    ∧ ((∃ k ∈ s.regs.correct, k.1 = e.kind ∧ k.2.1 = unitKey e ∧ s.clock ≤ k.2.2 + 2 ^ 36) →
        exec (.correctableError e) s = .next (selfTest (emitRecord { s with
          regs := { s.regs with correct := s.regs.correct.filter fun k => !(k.1 == e.kind && k.2.1 == unitKey e) } }
          (errorRecord s e 0x0B01 0 0 (triage s.regs e))) e))
    ∧ (∃ t, exec (.fabricPortError port pass) s = .next t
        ∧ t = { emitRecord s { engine := 7, cause := 0x0B04, detail := 6 * 2 ^ 44 + (if pass then 1 else 3) * 2 ^ 40 + 0xFF * 2 ^ 32 + port.toNat } with
            regs := { s.regs with portOff := t.regs.portOff } }
        ∧ ∀ k < 32, t.regs.portOff.getLsbD k = (s.regs.portOff.getLsbD k || (!pass && k == port.toNat)))
    ∧ exec .hostLinkRetrained s = .next (emitRecord s { engine := 9, cause := 0x0B04, detail := 7 * 2 ^ 44 + 2 ^ 40 + 0xFF * 2 ^ 32 })

namespace Sys2Proof.Machine

/-- The reserved bits of an extension word's payload are 0; no other instruction has any field that could set one. -/
def payloadClean (i : Instr) : Prop :=
  match i with
  | .extPred p => p.toNat % 2 ^ 3 = 0
  | .extShi p => p.toNat / 2 ^ 9 = 0
  | .extHint p => p.toNat % 2 ^ 19 = 0
  | _ => True

/-- The formats that R83 gives infinities. -/
def ieeeFormats : List FloatFmt := [fp64, fp32, bf16, fp16, e5m2]

/-- A code of a format is the finite number y. -/
def FloatFmt.isCode (f : FloatFmt) (c : Nat) (y : ℚ) : Prop := ∃ z, f.decode c = .fin z ∧ z.value = y

/-- The largest finite magnitude of a format. -/
def FloatFmt.top (f : FloatFmt) : ℚ := (f.maxExact false).value

/-- Half a unit of the last place above the largest finite magnitude, from which on a value rounds to infinity. -/
def FloatFmt.limit (f : FloatFmt) : ℚ := f.top + (2 : ℚ) ^ ((f.maxE : Int) - f.bias - f.mbits - 1)

/-- An exception parks a group: what it saves, as R26 and R306 to R309 give it. -/
def savedPark (s : State) (g : Group) (a : ParkArgs) : Park :=
  { cause := BitVec.ofNat 16 a.cause, lanes := laneMask a.lanes, va := a.va.getD (g.thread (a.lanes.headD 0)).pc, kind := a.kind
    completing := a.completing, auto := (!a.plain && (a.cause == 0x0303 || a.cause == 0x0901)), seq := s.records.next, skip := a.skip
    setLevel := a.setLevel, time := s.clock, segset := a.segset }

/-- The four words of the park's fault queue entry (R308). -/
def parkEntry (g : Group) (p : Park) : List DWord :=
  [BitVec.ofNat 64 ((if p.completing then 2 ^ 61 else 0) + (if p.auto then 2 ^ 60 else 0) + p.kind * 2 ^ 56 + g.slot * 2 ^ 48 + g.core * 2 ^ 40
    + g.ctx * 2 ^ 24 + p.cause.toNat), BitVec.ofNat 64 p.seq.toNat, p.lanes, p.va]

/-- The eight words of the record of a park (R381 to R385). -/
def parkRecordWords (s : State) (g : Group) (a : ParkArgs) : List DWord :=
  let p := savedPark s g a
  let resumed := !a.plain && (a.cause == 0x0303 || a.cause == 0x0901)
  let mild := !a.plain && [0x0301, 0x0303, 0x0503, 0x0901, 0x0D01, 0x0D02, 0x0E01].contains a.cause
  [BitVec.ofNat 64 (g.team % 2 ^ 16 * 2 ^ 48 + g.ctx % 2 ^ 16 * 2 ^ 32 + (if resumed then 2 else 0) * 2 ^ 24 + a.engine * 2 ^ 16 + a.cause),
   BitVec.ofNat 64 (s.records.next.toNat * 2 ^ 32 + s.domain.rin.toNat * 2 ^ 16 + g.slot * 2 ^ 8 + g.core), p.lanes, p.va, 0, BitVec.ofNat 64 s.clock,
   BitVec.ofNat 64 ((if mild then 1 else 2) * 2 ^ 54 + a.kind * 2 ^ 50 + 2 ^ 48 + a.detail % 2 ^ 48), 0]

/-- No condition keeps an instruction from issuing but that its group is single-stepped (R142). -/
def StepIssues (s : State) (x : Issue) (i : Instr) : Prop :=
  currentIssue s = some x ∧ x.lanes.Nodup ∧ decodeFault s x.g i ((encode i).getD 0) none = none ∧ operandsPending x.g x.lanes i = false
    ∧ x.g.stepctl.getLsbD 0 = true

/-- A command that has run: its state is that of success or failure, and vector 2 is raised (R377, R380). -/
def commandDone (s : State) (ok : Bool) : State :=
  { s with regs := { s.regs with cmdState := if ok then 0 else 2 }, msix := s.msix ++ [2] }

/-- The eight words of the command's argument, as they stood when the command was written (R377). -/
def commandWords (s : State) : List DWord := s.regs.cmdWords

/-- A command of a code runs (R377). -/
def commandRuns (s : State) (code : Nat) : Prop := s.regs.boot = .ready ∧ s.regs.cmdState = 1 ∧ s.regs.cmdCode.toNat = code

/-- The context that a command names in the low 16 bits of its first word, if it is created and has not ended. -/
def commandCtx (s : State) : Option Ctx := created? s (((commandWords s).getD 0 0).toNat % 2 ^ 16)

/-- The device after a reset (R392, R394, R395): what R388, R393, R395 and R405 keep, and everything else as at power-on; a cause that
comes while a reset is in progress is part of that reset. -/
def restarted (s : State) (cause : BitVec 8) (recs : List (List DWord)) : State :=
  { State.reset with
    host := s.host, peer := s.peer, msix := s.msix, cycles := s.cycles, nextUid := s.nextUid, occasion := s.occasion, agenda := s.agenda
    regs := { Regs.reset with
      rstCause := cause, rstCount := if s.regs.boot = .reset then s.regs.rstCount else s.regs.rstCount + 1, lastRec := recs
      keyIdx := s.regs.keyIdx, spareLane := s.regs.spareLane, retCore := s.regs.retCore, retRows := s.regs.retRows
      retFrames := s.regs.retFrames, portOff := s.regs.portOff, retL2 := s.regs.retL2 } }

/-- The records that a reset other than power-on keeps (R395). -/
def keptRecords (s : State) : List (List DWord) := if s.regs.boot = .reset then s.regs.lastRec else s.records.recent

/-- RSTCAUSE after a reset other than power-on: its bit and, for a device stopped under R342, STOPRST, or with the earlier ones while a
reset is in progress (R393). -/
def causeOf (s : State) (bit : BitVec 8) : BitVec 8 :=
  if s.regs.boot = .reset then s.regs.rstCause ||| bit else if s.regs.unrestored then 8 ||| bit else bit

/-- The step lets a group with its ready sets issue one word from `s0`: the agenda gives it the next issue and a port of its core is free
for it, or the agenda says nothing, no event of the device's own is due and the group ranks first (R130, R134). -/
def StepIssue (s s0 : State) (g : Group) (rdy : List (List Nat)) : Prop :=
  (∃ uid rest, s.agenda = .issue uid :: rest ∧ s0 = { s with agenda := rest } ∧ (candidates s0).find? (fun y => y.1.uid == uid) = some (g, rdy)
    ∧ takesPort s0 (candidates s0) (g, rdy) = true)
  ∨ (s.agenda = [] ∧ s0 = s ∧ firstChange s (ownEvents s) = none ∧ s.regs.boot = .ready ∧ bestOf s (candidates s) = some (g, rdy))

end Sys2Proof.Machine

/-- R22, R30 to R47: for every well-formed instruction, the word that encodes it decodes to that instruction with every operand; an
extension word is one whose payload has no reserved bit set. -/
def Obligations.DecodeUndoesEncode : Prop :=
  ∀ (i : Instr) (w : Word), i.WellFormed → payloadClean i → encode i = some w → decode w = .ok i

/-- R30 to R47: every word that decodes is the word of the instruction it decodes to, and that instruction is well formed; so no two
instructions share a word and no bit of a word goes unread. -/
def Obligations.EncodeUndoesDecode : Prop :=
  ∀ (i : Instr) (w : Word), decode w = .ok i → i.WellFormed ∧ payloadClean i ∧ encode i = some w

/-- R22, R130, R134, R47: where a group that has a ready set takes the next issue, the step fetches the word at the set's PC and runs the instruction it
decodes to, on the state in which the group has taken its port; a word that decodes to none runs as an illegal word, and a fetch that faults parks the
set with kind 3. An event or an input of the agenda is run as it stands, and where nothing is due the cycle ends. The agenda and the order of what is
due (log entry 2), what the end of a cycle does (20), kind 3 for every failed fetch (15) and the event inputs (76) are the model's choices. -/
def Obligations.StepRunsTheDecodedInstruction : Prop :=
  ∀ (s : State),
    (∀ s0 g rdy ch lanes, StepIssue s s0 g rdy → nextSet g rdy = (ch, some lanes) →
      let s1 := portTaken s0 g ch lanes
      let pc := (g.thread (lanes.headD 0)).pc
      (∀ w i, fetchWord s1 { g with choice := ch } pc = .ok w → decode w = .ok i → step s = exec i s1)
      ∧ (∀ w e, fetchWord s1 { g with choice := ch } pc = .ok w → decode w = .error e → ¬ (0x78 ≤ w.toNat / 2 ^ 25 ∧ w.toNat / 2 ^ 25 ≤ 0x7B) →
          step s = exec (.illegalInstruction w) s1)
      ∧ (∀ c x, fetchWord s1 { g with choice := ch } pc = .error c → currentIssue s1 = some x → x.lanes.Nodup →
          step s = .next (takePark (backAtFirst s1 x false) x.uid
            { cause := c.1, lanes := x.lanes, va := some pc, kind := 3, detail := c.2, skip := x.g.ext.length + 1 })))
    ∧ (∀ rest i, s.agenda = .event i :: rest → encode i = none → (∀ w, i ≠ .illegalInstruction w) → step s = exec i { s with agenda := rest })
    ∧ (∀ rest ticks, s.agenda = .input (.clock ticks) :: rest →
        step s = .next { s with agenda := rest, clock := if s.regs.boot = .reset then s.clock else s.clock + ticks })
    ∧ (∀ rest fatal moves, s.agenda = .input (.memberError fatal moves) :: rest → step s = .next (memberError { s with agenda := rest } fatal moves))
    ∧ (s.agenda = [] → firstChange s (ownEvents s) = none → candidates s = [] → step s = .next (tick s))

/-- Every step keeps the canonical form in which the model holds every byte memory (log entry 7), from any state whatever and with any event. The form is
the model's own representation and no rule of the spec. -/
def Obligations.MemoryStaysCanonical : Prop :=
  ∀ (s t : State), s.memoryWf = true → step s = .next t → t.memoryWf = true

/-- R327, R392 to R401: after reset no context exists and no work runs, the device stands in RESET as a domain of its own, and the registers hold the
values that the manual gives. The first clause, the canonical form, and the zero of every byte of HBM before INIT are the model's choice (log entry
7), as are RSTCAUSE 1, RSTCOUNT 1, RIN 1 and the committed interval 0 of a first power-on (log entry 9). -/
def Obligations.ResetLeavesTheManualsValues : Prop :=
  State.reset.memoryWf = true ∧ State.reset.ctxs = [] ∧ State.reset.work.groups = [] ∧ State.reset.work.launches = []
  ∧ State.reset.regs.boot = .reset ∧ State.reset.regs.rstCause = 1 ∧ regRead32 State.reset 0x10 = 1 ∧ regRead32 State.reset 0x18 = 0
  ∧ regRead32 State.reset 0x30 = 1000 ∧ regRead32 State.reset 0x34 = 3200 ∧ regRead32 State.reset 0x1800 = 95 + 110 * 256
  ∧ State.reset.domain.rin = 1 ∧ State.reset.domain.committed = 0 ∧ State.reset.domain.members = [State.reset.domain.device]
  ∧ (∀ a, State.reset.hbm.byte a = 0) ∧ (∀ n ∈ State.reset.inlets, n.en = false) ∧ State.reset.records.log2n = 0

/-- R95, R96: an exact value is rounded to the neighbour that its mode names: the nearest code and the even one of two under RNE, the
larger of two under RNA, and the next one towards zero, up or down under the others; in every mode the result has the sign of the value, and
IX tells whether it differs. -/
def Obligations.RoundingTakesTheModesNeighbour : Prop :=
  ∀ (f : FloatFmt) (x : Exact), f ∈ ieeeFormats → x.sticky = false →
    let v := x.value
    let overflows := fun (md code : Nat) => (roundTo f ⟨md, 0⟩ false x).code = code ∧ (roundTo f ⟨md, 0⟩ false x).flags.getLsbD 0 = true
    let res := fun (code : Nat) (md : Nat) (y : ℚ) =>
      (roundTo f ⟨md, 0⟩ false x).code = code ∧ f.isCode code y ∧ (x.neg = true ↔ code / 2 ^ (f.ebits + f.mbits) % 2 = 1)
        ∧ ((roundTo f ⟨md, 0⟩ false x).flags.getLsbD 0 = true ↔ y ≠ v)
    (|v| < f.limit → ∃ c y, res c 0 y ∧ ∀ c' z, f.isCode c' z → |y - v| ≤ |z - v| ∧ (|y - v| = |z - v| → z ≠ y → c % 2 = 0))
    ∧ (|v| < f.limit → ∃ c y, res c 4 y ∧ ∀ c' z, f.isCode c' z → |y - v| ≤ |z - v| ∧ (|y - v| = |z - v| → |z| ≤ |y|))
    ∧ (f.limit ≤ |v| → ∀ md ∈ [0, 4], overflows md (f.infCode x.neg))
    ∧ (∃ c y, res c 1 y ∧ |y| ≤ |v| ∧ ∀ c' z, f.isCode c' z → |z| ≤ |v| → |z| ≤ |y|)
    ∧ (v ≤ f.top → ∃ c y, res c 2 y ∧ v ≤ y ∧ ∀ c' z, f.isCode c' z → v ≤ z → y ≤ z)
    ∧ (f.top < v → overflows 2 (f.infCode false))
    ∧ (-f.top ≤ v → ∃ c y, res c 3 y ∧ y ≤ v ∧ ∀ c' z, f.isCode c' z → z ≤ v → z ≤ y)
    ∧ (v < -f.top → overflows 3 (f.infCode true))

namespace Sys2Proof.Machine

/-- R142: whatever instruction a stepped group issues, it parks under 0x0D02 once it has completed, with the effect that the instruction has: where
each thread goes on at the next word, where the instruction has set the PCs, and where threads go on to wait; EXIT then ends what has ended. -/
def Claim.SingleStepsEndInTheirTrap : Prop :=
  let stepped := fun (x : Issue) (t : State) => takePark t x.uid { cause := 0x0D02, lanes := x.lanes, completing := true, skip := 0 }
  (∀ i : Instr, encode i ≠ none → i ≠ .exit → (∀ p, i ≠ .extPred p ∧ i ≠ .extImm p ∧ i ≠ .extShi p ∧ i ≠ .extHint p) → (∀ w, i ≠ .illegalInstruction w) →
    ∃ body : State → Issue → Effect, (∀ s, exec i s = issue i body s) ∧ ∀ s x t, StepIssues s x i →
      (body s x = .done t → exec i s = .next (stepped x (completed i x t)))
      ∧ (body s x = .moved t → exec i s = .next (stepped x { t.modifyGroup x.uid (afterInstr x i) with cur := none }))
      ∧ ∀ gone first, body s x = .wait t gone first → exec i s =
          .next (stepped x { t.modifyGroup x.uid (fun g => waits g x.lanes gone first (yieldsOf i x.ext)) with cur := none }))
  ∧ ∀ s x, StepIssues s x .exit →
      let g := releaseJoins (x.g.modifyThreads x.lanes fun t => { t with status := .exited })
      exec .exit s = .next (settle (stepped x (completed .exit x (checkPhases (s.setGroup g) g))))

end Sys2Proof.Machine

/-- R26, R306 to R311: a park saves the cause, the lanes, the address and the sequence number in its group and in the fault queue of its
context, emits one record of eight words and moves no thread; where a record is pending the new one is held, and a release delivers the oldest
held one to the group and to the fault queue. Action 1 releases the group as it stands, and
action 2 moves the lanes outside the mask past an instruction that has not completed. A single step ends in such a park. -/
def Obligations.ParksSaveAndReleaseGroups : Prop :=
  Claim.SingleStepsEndInTheirTrap ∧
  ∀ (s : State) (uid : Nat) (g : Group) (a : ParkArgs), s.group? uid = some g →
    ((takePark s uid a).records.recent.getLast? = some (parkRecordWords s g a))
    ∧ (s.records.held.length < Config.heldRecords + ringRoom s.records → (takePark s uid a).records.held = s.records.held ++ [parkRecordWords s g a])
    ∧ (∀ p q d rest, g.park = some p → g.held = (q, d) :: rest → ∀ action ∈ [1, 2], ∀ mask, ∃ t g', releasePark s uid action mask = t
      ∧ t.group? uid = some g' ∧ g'.park = some q ∧ g'.held = rest ∧ g'.gsaved = false ∧ g'.v = g.v ∧ t.records = s.records
      ∧ ∀ c, s.ctx? g.ctx = some c → t.ctx? g.ctx = some { c with fqHeld := c.fqHeld ++ [(parkEntry g q, q.seq.toNat)] })
    ∧ (g.park = none → ∃ t g', takePark s uid a = t ∧ t.group? uid = some g' ∧ g'.park = some (savedPark s g a) ∧ g'.threads = g.threads ∧ g'.gsaved = false
      ∧ g' = { g with park := g'.park, gsaved := g'.gsaved, waited := g'.waited, ages := g'.ages, sched := g'.sched, promoted := g'.promoted }
      ∧ (∀ c, s.ctx? g.ctx = some c → t.ctx? g.ctx = some { c with fqHeld := c.fqHeld ++ [(parkEntry g (savedPark s g a), s.records.next.toNat)] })
      ∧ t.records.next = s.records.next + 1
      ∧ t = { s with work := { s.work with groups := t.work.groups }, ctxs := t.ctxs, records := t.records }
      ∧ ∀ uid', uid' ≠ uid → t.group? uid' = s.group? uid')
    ∧ (∀ p, g.park = some p → (takePark s uid a).group? uid = some { g with held := g.held ++ [(savedPark s g a, BitVec.ofNat 48 a.detail)] }
      ∧ (takePark s uid a).ctxs = s.ctxs ∧ (takePark s uid a).records.next = s.records.next + 1)
    ∧ (∀ p mask, g.park = some p → g.held = [] →
      (∃ g', (releasePark s uid 1 mask).group? uid = some g' ∧ g'.park = none ∧ g'.threads = g.threads ∧ g'.v = g.v)
      ∧ (g.threads.length = 64 → ∃ g', (releasePark s uid 2 mask).group? uid = some g' ∧ g'.park = none ∧ g'.v = g.v ∧
        ∀ l < 64, g'.thread l = if p.completing = false ∧ p.lanes.getLsbD l = true ∧ mask.getLsbD l = false
          then { g.thread l with pc := (g.thread l).pc + BitVec.ofNat 64 (4 * p.skip) } else g.thread l))

/-- R309, R379, R380: the oldest held record and the oldest held fault queue entry are written where their ring has room, and raise their vectors; a full
ring holds them back. That vector 0 is raised only where RQTAIL equals RQHEAD is presumed (log entry 47). -/
def Obligations.QueuesAreWrittenWhereTheyHaveRoom : Prop :=
  ∀ (s : State) (ctx : Nat),
    (∀ w rest, s.records.held = w :: rest → ringRoom s.records ≠ 0 →
      exec .recordWrite s = .next { s with
        host := s.host.write (s.records.base.toNat + 64 * (s.records.tail.toNat % 2 ^ s.records.log2n)) (wordBytes w)
        records := { s.records with tail := s.records.tail + 1, held := rest }
        msix := if s.records.tail = s.records.head then s.msix ++ [0] else s.msix })
    ∧ (ringRoom s.records = 0 → exec .recordWrite s = .next s)
    ∧ (s.records.log2n ≠ 0 → s.records.log2n ≤ 16 →
        (ringRoom s.records = 0 ↔ s.records.tail - s.records.head = BitVec.ofNat 32 (2 ^ s.records.log2n)))
    ∧ (∀ c e q rest, s.ctx? ctx = some c → c.fqHeld = (e, q) :: rest → c.fqWritten - c.fqRead < c.fqCap →
      exec (.faultQueueEntryWrite ctx) s = .next { (s.modifyCtx ctx fun c => { c with fqHeld := rest, fqWritten := c.fqWritten + 1 }) with
        hbm := s.hbm.write (c.fqBase + 32 * (c.fqWritten % max 1 c.fqCap)) (wordBytes e), msix := s.msix ++ [1] })
    ∧ (∀ c, s.ctx? ctx = some c → c.fqCap ≤ c.fqWritten - c.fqRead → exec (.faultQueueEntryWrite ctx) s = .next s)

/-- R136, R310, R318, R322: a watchdog that has run out stops its context with a record, and the context ends once it is SAVED; a stopping
context whose groups are drained is saved; a context that has ended has no thread that runs; and a group that has waited 4,096 cycles is promoted,
in the place of another where the active set is full. That PREEMPT is answered at the save, with vector 2 (R377, R380), is read by inference (log
entry 48), and that a promoted group driven out again in the cycle in which it entered waits for the next cycle is the model's choice (120). -/
def Obligations.ContextsAreSavedAndEnded : Prop :=
  ∀ (s : State) (n : Nat),
    (∀ l t c, s.launch? n = some l → l.start = some t → l.wdog ≠ 0 → t + l.wdog * 1000000 ≤ s.clock → s.ctx? l.ctx = some c →
      c.state = .running ∨ c.state = .stopping → c.dying = false →
      exec (.watchdog n) s = .next ((emitRecord s
        { team := lowestTeam s l, ctx := l.ctx, cause := 0x0C01, action := 4, sev := 4, detail := l.wdog }).modifyCtx l.ctx
          fun c => { c with state := .stopping, dying := true }))
    ∧ (∀ c, s.ctx? n = some c → endContext s n = if c.state = .stopping then s.modifyCtx n (fun c => { c with dying := true }) else endNow s n)
    ∧ (∀ g ∈ (endNow s n).work.groups, g.ctx = n →
        g.loads = [] ∧ g.stores = [] ∧ g.tiles = [] ∧ g.mmas = [] ∧ g.park = none ∧ ∀ th ∈ g.threads, th.status = .exited)
    ∧ (∀ c ∈ (endNow s n).ctxs, c.num = n → c.state = .ended ∧ c.pinned = none)
    ∧ (∀ c, s.ctx? n = some c → c.state = .stopping → (∀ g ∈ s.work.groups, g.ctx = n → drained s g = true) →
      let saved := (freePond (saveContext s [] c.saBase c.num) c.num).modifyCtx c.num fun c => { c with state := .saved, savedAt := s.clock }
      let answered := fun (t : State) => if s.regs.boot = .ready ∧ s.regs.cmdState = 1 ∧ s.regs.cmdCode.toNat = 3
        ∧ ((commandWords s).getD 0 0).toNat % 2 ^ 16 = n then commandDone t true else t
      exec (.contextSave n) s = .next (answered (if c.dying then endNow saved n else saved)))
    ∧ (∀ g, s.group? n = some g → 4096 ≤ g.elig → mayIssue s g = true →
      let promotes := fun (t : State) => exec (.eligibilityPromotion n) s = .next (t.modifyGroup n fun y => { y with
        sched := .active, promoted := some (y.promoted.getD (nextPromotion s)), entered := if y.sched = .active then y.entered else s.cycles })
      let free := g.promoted = none ∨ g.entered ≠ s.cycles
      (g.sched = .eligible → free → (activeOn s g.core).length < 8 → promotes s)
      ∧ (g.sched = .active → g.promoted = none → promotes s)
      ∧ (g.sched = .eligible → ¬ free → exec (.eligibilityPromotion n) s = .next s)
      ∧ (∀ y, g.sched = .eligible → free → 8 ≤ (activeOn s g.core).length → evicted s g.core = some y →
          promotes (s.modifyGroup y.uid fun z => { z with sched := .eligible })))

namespace Sys2Proof.Machine

/-- R371, R372, R377, R379, R393, R394, R397, R399, R400, R403, R405, R406: what a 32-bit write of a register does where that is more than to hold
the value: the registers of the inlets and of the record queue, CMD, the triggers, the bits that a 1 clears, and those that a rule bounds;
a register that only reads ignores it. -/
def Claim.RegisterWritesHaveTheirEffect : Prop :=
  ∀ (s : State) (v : Word) (j : Nat) (n : Inlet),
    let keeps := fun (off : Nat) (r : Regs) => s.regs.unrestored = false → regWrite32 s off v = { s with regs := r }
    keeps 0x100 { s.regs with rstCause := s.regs.rstCause &&& ~~~ (v.setWidth 8) }
    ∧ regWrite32 s 0x108 v = (if v.toNat / 2 ^ 16 = 0x5253 ∧ v.getLsbD 0 = true then restarted s (causeOf s 4) (keptRecords s) else s)
    ∧ (s.regs.boot ≠ .config → keeps 0x10 s.regs) ∧ (s.regs.boot = .config → keeps 0x10 { s.regs with bootCfg := v })
    ∧ (s.regs.boot = .config → v.getLsbD 0 = true →
        keeps 0x14 { s.regs with boot := if bootCfgValid s.regs then .init else .config, badCfg := !bootCfgValid s.regs })
    ∧ (s.regs.boot ≠ .config ∨ v.getLsbD 0 = false → keeps 0x14 s.regs)
    ∧ (s.regs.boot = .init ∨ s.regs.boot = .ready → ∀ off ∈ [0x20, 0x24, 0x28, 0x2C], keeps off s.regs)
    ∧ keeps 0x34 { s.regs with pwrCap := if v.toNat < 1200 then 1200 else if 3200 < v.toNat then 3200 else v }
    ∧ (s.regs.unrestored = false → v.getLsbD 0 = true → exec (.attctlRequest v) s = .next (regWrite32 s 0x40 v))
    ∧ (v.getLsbD 0 = false → keeps 0x40 s.regs)
    ∧ (∀ i, j < 128 → s.regs.islands[j]? = some i →
        let put := fun (m : Island) => { s.regs with islands := s.regs.islands.set j m }
        keeps (0x1000 + 16 * j + 8) (put { i with valarm := i.valarm && !v.getLsbD 2, talarm := i.talarm && !v.getLsbD 1 })
        ∧ keeps (0x1000 + 16 * j + 12) (put { i with maxt := i.temp })
        ∧ keeps (0x1000 + 16 * j) s.regs ∧ keeps (0x1000 + 16 * j + 4) s.regs)
    ∧ (70 ≤ v.toNat % 256 → v.toNat % 256 ≤ 105 → keeps 0x1800 { s.regs with monctl := v.setWidth 8 })
    ∧ (v.toNat % 256 < 70 ∨ 105 < v.toNat % 256 → keeps 0x1800 s.regs)
    ∧ (∀ off ∈ [0x00, 0x08, 0x0C, 0x18, 0x80, 0x84, 0x104, 0x10C, 0x200, 0x2C0, 0x2D8, 0x2DC, 0x2E0, 0x2E4, 0x400], keeps off s.regs)
    ∧ (s.regs.boot = .ready → j < 64 → s.inlets[j]? = some n →
        let at_ := fun (off : Nat) (m : Inlet) => regWrite32 s (0x10000 + 32 * j + off) v = { s with inlets := s.inlets.set j m }
        let busy := n.en = true ∧ n.head ≠ n.tail ∧ n.error = false
        (busy → at_ 0 { n with error := true } ∧ at_ 4 { n with error := true } ∧ at_ 8 { n with error := true })
        ∧ (¬ busy → at_ 0 { n with base := (hiWord n.base ++ v : DWord) } ∧ at_ 4 { n with base := (v ++ loWord n.base : DWord) }
            ∧ at_ 8 { n with en := v.getLsbD 31, log2n := v.toNat / 2 ^ 16 % 2 ^ 5, error := n.error && v.getLsbD 31 })
        ∧ at_ 12 (if 2 ^ n.log2n < (v - n.chead).toNat then { n with error := true } else { n with tail := v })
        ∧ at_ 16 n ∧ at_ 20 n ∧ at_ 24 n)
    ∧ (s.regs.boot = .ready →
        let q := fun (off : Nat) (r : Records) => regWrite32 s (0x30000 + off) v = { s with records := r }
        let l := v.toNat / 2 ^ 16 % 2 ^ 5
        (s.records.log2n = 0 → q 0 { s.records with base := (hiWord s.records.base ++ v : DWord) }
          ∧ q 4 { s.records with base := (v ++ loWord s.records.base : DWord) } ∧ q 8 { s.records with log2n := if 4 ≤ l ∧ l ≤ 16 then l else 0 })
        ∧ (s.records.log2n ≠ 0 → q 0 s.records ∧ q 4 s.records ∧ q 8 { s.records with log2n := if l = 0 then 0 else s.records.log2n })
        ∧ q 12 { s.records with head := v } ∧ q 16 s.records ∧ q 20 s.records)
    ∧ (s.regs.boot = .ready →
        let code := v.toNat % 256
        (s.regs.cmdState = 1 → regWrite32 s 0x20008 v = s)
        ∧ (s.regs.cmdState ≠ 1 → 1 ≤ code → code ≤ 9 → regWrite32 s 0x20008 v = { s with regs := { s.regs with
            cmdCode := v.setWidth 8, cmdState := 1, cmdWords := dwordsOf 8 (s.hbm.read s.regs.cmdArg.toNat 64) } })
        ∧ (s.regs.cmdState ≠ 1 → code = 0 ∨ 9 < code →
            regWrite32 s 0x20008 v = { s with regs := { s.regs with cmdCode := v.setWidth 8, cmdState := 2 }, msix := s.msix ++ [2] }))
    ∧ (s.regs.boot ≠ .ready → ∀ off, 0x10000 ≤ off → regWrite32 s off v = s)

end Sys2Proof.Machine

/-- R369 to R372, R379: the host's window access writes HBM untracked, and its register writes have the effect that each register's rule gives. That an
ITAIL write that ends in ERROR is not stored, that ICTL and IBASE writes of a busy inlet are not stored and that reserved bits are dropped are the
model's choices (log entry 46). -/
def Obligations.HostAccessesReachTheDevice : Prop :=
  Claim.RegisterWritesHaveTheirEffect
  ∧ ∀ (s : State) (pa : Nat) (data : List Byte) (off : BitVec 24) (val : DWord) (k : BitVec 6) (n : Inlet) (v : Word) (b : DWord), s.regs.boot = .ready →
    (s.regs.winBase.toNat ≤ pa → pa + data.length ≤ s.regs.winBase.toNat + s.regs.winSize.toNat →
      exec (.hostCxlMemAccess pa data) s = .next { s with
        hbm := s.hbm.write pa data, work := datedWork s pa data.length
        deferred := s.deferred.map fun d => d.replaced s.domain.rin (0, pa) data.length })
    ∧ exec (.registerWrite off false val) s = .next (regWrite32 s off.toNat (loWord val))
    ∧ exec (.registerWrite off true val) s = .next (regWrite32 (regWrite32 s off.toNat (loWord val)) (off.toNat + 4) (hiWord val))
    ∧ (s.inlets[k.toNat]? = some n →
      let put := fun (m : Inlet) => { s with inlets := s.inlets.set k.toNat m }
      let busy := n.en = true ∧ n.head ≠ n.tail ∧ n.error = false
      exec (.itailWrite k v) s = .next (put (if 2 ^ n.log2n < (v - n.chead).toNat then { n with error := true } else { n with tail := v }))
      ∧ (busy → exec (.ictlWrite k v) s = .next (put { n with error := true }) ∧ exec (.ibaseWrite k b) s = .next (put { n with error := true }))
      ∧ (¬ busy → exec (.ictlWrite k v) s =
            .next (put { n with en := v.getLsbD 31, log2n := v.toNat / 2 ^ 16 % 2 ^ 5, error := n.error && v.getLsbD 31 })
          ∧ exec (.ibaseWrite k b) s = .next (put { n with base := b })))
    ∧ exec (.rqheadWrite v) s = .next { s with records := { s.records with head := v } }
    ∧ (let l := v.toNat / 2 ^ 16 % 2 ^ 5
      exec (.rqctlWrite v) s = .next { s with records := { s.records with
        log2n := if s.records.log2n = 0 then (if 4 ≤ l ∧ l ≤ 16 then l else 0) else if l = 0 then 0 else s.records.log2n } })

namespace Sys2Proof.Machine

/-- R208, R310, R317, R334, R376: the completion record of a launch goes to its place as an IMMEDIATE write, which pins its context, or deferred with a
trigger of a seal; a Pond holds the record at once, in its frame where its context is SAVED; a place that its store faults at, among them the Pond
that a context has given up as it ended, gets an error record instead. That such a Pond gives 0x0401 is the model's reading (log entry 123). -/
def Claim.CompletionRecordsAreWritten : Prop :=
  ∀ (s : State) (c : Ctx) (va : DWord) (status reason : Nat),
    let data := leBytes 8 (status + reason * 256) ++ leBytes 8 s.clock ++ leBytes 8 c.rollbacks.toNat ++ leBytes 8 0
    let stored := fun (t : Target) => storeRecord s c.num t data
    (∀ place immed, va = 0 → doneRecord s c place va immed status reason = some s)
    ∧ (∀ cause d immed, va ≠ 0 → doneRecord s c (.error (cause, d)) va immed status reason =
        some (emitRecord s { ctx := c.num, cause := cause, kind := 8, va := some va.toNat, detail := d }))
    ∧ (∀ p, va ≠ 0 →
        let t := stored p.target
        let u := if c.state = .ended then t else t.modifyCtx c.num fun k => { k with pinned := some t.domain.rin }
        doneRecord s c (.ok p) va true status reason = some { u with msix := u.msix ++ [3] })
    ∧ (∀ p t, va ≠ 0 → (∀ core off, p.target ≠ .pond core off) →
        acceptDeferred s { ctx := c.num, group := 0, die := 0, op := none } p.target data false true = some t →
        doneRecord s c (.ok p) va false status reason = some (requestSeal t))
    ∧ (∀ p core off t, va ≠ 0 → p.target = .pond core off →
        acceptDeferred (stored p.target) { ctx := c.num, group := 0, die := 0, op := none } p.target data true true = some t →
        doneRecord s c (.ok p) va false status reason = some (requestSeal t))
    ∧ (∀ core off k, s.ctx? c.num = some k →
        (k.state = .saved → stored (.pond core off) = { s with hbm := s.hbm.write (k.saBase + 0x18000000 + core * 0x120000 + off) data })
        ∧ (k.state ≠ .saved → stored (.pond core off) = performOutside (replaceDeferred s (.pond core off) 32) (.pond core off) data))
    ∧ (∀ t, (∀ core off, t ≠ .pond core off) → stored t = performOutside (replaceDeferred s t 32) t data)
    ∧ ∀ p, donePlace s c va = .ok p → lastPlace s c va = match p.target with
        | .pond _ off => .inr (0x0401, off / 4096 * 2 ^ 40)
        | _ => .inl p

end Sys2Proof.Machine

/-- R13, R123 to R126, R371 to R376: the launch processor takes a block and queues or rejects it, places its teams with every register as R13 says, and
completes the launch with its record when every team has ended. That the completion record is logged and checked at die 0, core 0
(log entry 82), that a block of a context whose termination still waits for SAVED is rejected with reason 1 (63) and that the record of an ended
context's Pond gives 0x0401 (123) are the model's choices. -/
def Obligations.LaunchesAreTakenPlacedAndCompleted : Prop :=
  Claim.CompletionRecordsAreWritten
  ∧ ∀ (s : State) (k : BitVec 6) (l : Nat) (ps : List Placement),
    (∀ n, s.inlets[k.toNat]? = some n → s.regs.boot = .ready → n.en = true → n.head ≠ n.tail → n.error = false → inletPlacing s k.toNat = false →
      let w := dwordsOf 16 (s.hbm.read (n.base.toNat + 128 * (n.head.toNat % 2 ^ n.log2n)) 128)
      let x := blockLaunch s.nextUid k.toNat w
      let s1 := { s with inlets := s.inlets.set k.toNat { n with head := n.head + 1 }, nextUid := s.nextUid + 1 }
      (rejectReason s w x = 0 → exec (.launchTake k) s = .next { s1 with work := { s.work with launches := s.work.launches ++ [x] } })
      ∧ ((∀ c, created? s x.ctx = some c → c.dying = true) → rejectReason s w x = 1)
      ∧ (rejectReason s w x ≠ 0 → ∀ t, rejectBlock s1 x (rejectReason s w x) = some t → exec (.launchTake k) s = .next t))
    ∧ (∀ x c t, s.launch? l = some x → s.ctx? x.ctx = some c → c.state = .running → placesWhole x ps (teamsNamed ps) = true →
      teamsDue x (teamsNamed ps) = true → outranked s x = false →
      placementFits (addTeams s x ps (teamsNamed ps)) (occupants (addTeams s x ps (teamsNamed ps)) c.num) = true →
      mapGang (addTeams s x ps (teamsNamed ps)) c x ((addTeams s x ps (teamsNamed ps)).work.teams.filter fun t => t.launch == x.uid) = some t →
      exec (.teamPlacement l ps) s = .next t)
    ∧ (∀ x p uid g, placedGroup uid x p = some g →
      g.threads.length = 64 ∧ (∀ lane < 64, ∃ r ∈ x.roles, g.thread lane = { pc := r.entry, p := 0, fpctl := 0, fpstat := 0, randn := 0, status := .run })
      ∧ (∀ lane r, g.vget lane r = 0) ∧ g.spair 0 = x.argva ∧ (∀ r, 2 ≤ r → g.sregGet r = 0) ∧ g.core = p.core ∧ g.slot = p.slot ∧ g.ext = []
      ∧ g.canonical = true)
    ∧ (∀ x c t, s.launch? l = some x → s.ctx? x.ctx = some c → s.regs.boot = .ready → x.total ≤ x.placed.length → x.total ≤ x.ended →
      (∀ g ∈ s.work.groups, g.launch ≠ x.uid) → ((unbindGraphs s x.uid).bind fun v => unmapGang v c x).bind (fun u => doneRecord u c (placeOfDone u c x) x.doneva x.immed (if x.bad then 2 else 0) 0) = some t →
      exec (.launchCompletion l) s = .next (reap { t with work := { t.work with
        launches := t.work.launches.filter fun y => y.uid != x.uid } }))
    ∧ ((∀ gr ∈ s.work.graphs, gr.launch = l → gr.state ≠ 2 ∧ gr.state ≠ 3) → unbindGraphs s l = some s)
    ∧ (∀ gr t, s.work.graphs = [gr] → gr.launch = l → gr.state = 2 ∨ gr.state = 3 → saveGraph s { foundGraph s gr with state := 0 } = some t →
        unbindGraphs s l = some t)

/-- R377, R378, R380: the commands CREATE, DESTROY, PREEMPT, RESTORE, INVAL, RETIRE and FQPOP act on the context or region that they name and fail where
it does not exist or their rule does not hold; each raises vector 2 when it ends. A code that no command has fails at once. That RETIRE of a region
that is not registered fails (log entry 67) and that DESTROY of a STOPPING context completes at once (63) are the model's choices. -/
def Obligations.CommandsOnContexts : Prop :=
  ∀ (s : State) (c : Ctx) (ps : List Placement) (code : BitVec 8),
    let w := commandWords s
    let fails := fun (i : Instr) => exec i s = .next (commandDone s false)
    let num := (w.getD 0 0).toNat % 2 ^ 16
    let pa := (w.getD 1 0).toNat
    (commandRuns s 1 → descriptorOk w = true → (∀ c ∈ s.ctxs, c.num ≠ num) → exec .create s = .next (commandDone { s with
        nextUid := s.nextUid + 1
        ctxs := s.ctxs ++ [{ uid := s.nextUid, num := num, level := (w.getD 0 0).getLsbD 16, clmax := (w.getD 0 0).toNat / 2 ^ 20 % 16, weight := 8, root := (w.getD 1 0).toNat
                             fqBase := (w.getD 2 0).toNat, fqCap := (w.getD 3 0).toNat % 2 ^ 24, fqWritten := 0, fqRead := 0, fqHeld := []
                             saBase := (w.getD 4 0).toNat, sealBase := (w.getD 5 0).toNat, half := false, hasSeal := false, randseed := loWord (w.getD 6 0)
                             rollbacks := 0, pinned := none, state := .running, snap := s.hbm, snapDates := s.work.dates, savedAt := 0, moves := [], dying := false }] } true))
    ∧ (commandRuns s 1 → descriptorOk w = false ∨ (∃ c ∈ s.ctxs, c.num = num) → fails .create)
    ∧ (commandRuns s 2 → commandCtx s = some c → exec .destroy s = .next (commandDone (endContext s c.num) true))
    ∧ (commandRuns s 3 → commandCtx s = some c → c.state = .running →
        exec .preempt s = .next (s.modifyCtx c.num fun c => { c with state := .stopping }))
    ∧ (commandRuns s 3 → commandCtx s = some c → c.state = .stopping → exec .preempt s = .next s)
    ∧ (commandRuns s 3 → commandCtx s = some c → c.state = .saved → fails .preempt)
    ∧ (∀ t, commandRuns s 4 → commandCtx s = some c → c.state = .saved → restoreContext s c ps = some t → exec (.restore ps) s = .next (commandDone t true))
    ∧ (commandRuns s 4 → commandCtx s = some c → c.state = .running ∨ c.state = .stopping → fails (.restore ps))
    ∧ (commandRuns s 5 → commandCtx s = some c → s.ctx? c.num = some c → (s.work.groups.map (·.uid)).Nodup →
        ∃ t c', exec .inval s = .next t ∧ t.ctx? c.num = some c' ∧ c' = { c with snap := s.hbm, snapDates := s.work.dates, fqHeld := c'.fqHeld }
          ∧ t.regs = { s.regs with cmdState := 0 } ∧ t.msix = s.msix ++ [2] ∧ t.hbm = s.hbm
          ∧ ∀ uid g, s.group? uid = some g → (∀ p, g.park = some p → p.cause ≠ 0x0303) → groupEnded g = false → t.group? uid = some g)
    ∧ (commandRuns s 6 → (∃ r ∈ s.work.regions, r.hdr = pa) →
        exec .retire s = .next (commandDone { s with work := { s.work with regions := s.work.regions.filter fun r => r.hdr != pa } } true))
    ∧ (commandRuns s 6 → (∀ r ∈ s.work.regions, r.hdr ≠ pa) → fails .retire)
    ∧ (commandRuns s 7 → commandCtx s = some c → pa % 32 = 0 → pa + 32 ≤ 0xC000000000 → c.fqRead < c.fqWritten →
        exec .cmdFqpop s = .next (commandDone { (s.modifyCtx c.num fun c => { c with fqRead := c.fqRead + 1 }) with
          hbm := s.hbm.write pa (s.hbm.read (c.fqBase + 32 * (c.fqRead % max 1 c.fqCap)) 32) } true))
    ∧ (commandRuns s 7 → commandCtx s = some c → c.fqWritten ≤ c.fqRead → fails .cmdFqpop)
    ∧ (commandCtx s = none → (commandRuns s 2 → fails .destroy) ∧ (commandRuns s 3 → fails .preempt) ∧ (commandRuns s 4 → fails (.restore ps))
        ∧ (commandRuns s 5 → fails .inval) ∧ (commandRuns s 7 → fails .cmdFqpop))
    ∧ (s.regs.boot = .ready → ¬ (1 ≤ code.toNat ∧ code.toNat ≤ 9) → s.regs.cmdState ≠ 1 →
        exec (.undefinedCommand code) s = .next { s with regs := { s.regs with cmdCode := code, cmdState := 2 }, msix := s.msix ++ [2] })

/-- R352, R355 to R357, R377: DOMAIN sets the members and the coordinator while no context exists, and LEASE grants, revokes and registers a
lease under its rules and fails otherwise. Where a command's words hold a lease's fields is left open: log entry 68. -/
def Obligations.CommandsOnDomainsAndLeases : Prop :=
  ∀ (s : State) (x : DomainPeers),
    let w := commandWords s
    let fails := fun (i : Instr) => exec i s = .next (commandDone s false)
    let own := (w.getD 0 0).toNat % 2 ^ 10
    let f := (w.drop 1).take 3
    let dev := (Config.leaseDev f).toNat
    let num := (Config.leaseNum f).toNat
    let lease := fun (lender : Bool) => ({ num := num, dev := dev, ctx := Config.leaseCtx f, state := 0, lender := lender, base := Config.leaseBase f
                                           size := Config.leaseSize f, deadline := 0, watch := none } : Lease)
    let op := (w.getD 0 0).toNat % 4
    (commandRuns s 9 → s.ctxs ≠ [] → fails (.domain x))
    ∧ (∀ c, commandRuns s 9 → s.ctxs = [] → domainOk s w = true → (2 ≤ (memberTable s w).length → x.ok = true) →
        (∀ d ∈ memberTable s w, d = own ∨ d ∉ s.domain.noRoute) → coordOf w (memberTable s w) x = some c →
        exec (.domain x) s = .next (commandDone { s with undo := [], deferred := [], domain := { s.domain with
          device := own, members := memberTable s w, coord := c, rin := if c = own then s.domain.rin else x.rin
          committed := if c = own then s.domain.committed else x.committed
          sealTo := if (w.getD 2 0).toNat % 2 ^ 32 = 0 then 1000 else (w.getD 2 0).toNat % 2 ^ 32 } } true))
    ∧ (commandRuns s 8 → op = 0 → exec .cmdLeaseGrant s = .next (
        if inDomain s dev = true ∧ Config.leaseBase f % 65536 = 0 ∧ Config.leaseSize f % 65536 = 0 ∧ Config.leaseSize f ≠ 0
            ∧ Config.leaseBase f + Config.leaseSize f ≤ 0xC000000000 ∧ lease? s true dev num = none
          then commandDone { s with leases := s.leases ++ [lease true] } true
          else commandDone s false))
    ∧ (commandRuns s 8 → op = 1 → exec .cmdLeaseRevoke s = .next (
        if (lease? s true dev num).any (fun l => l.state == 0) = true ∧ 10000000 ≤ Config.leaseNotice f
          then commandDone { s with leases := s.leases.map fun y =>
            if y.lender = true ∧ y.dev = dev ∧ y.num = num then { y with state := 1, deadline := s.clock + Config.leaseNotice f } else y } true
          else commandDone s false))
    ∧ (commandRuns s 8 → op = 2 → exec .cmdLeaseRegister s = .next (
        if (lease? s false dev num).all (fun l => 2 ≤ l.state) = true ∧ (created? s (Config.leaseCtx f)).isSome = true ∧ inDomain s dev = true
          then commandDone { s with leases := (s.leases.filter fun o => !(!o.lender && o.dev == dev && o.num == num)) ++ [lease false] } true
          else commandDone s false))

/-- R392 to R402: each reset restarts the device with its bit of RSTCAUSE, and bring-up goes through its states to READY, or stops where an image does not
verify. What a further cause in RESET does (log entry 106), the two updates that make a voltage fault (87) and the values of the first power-on
(9) are the model's choices. -/
def Obligations.ResetsRestartTheDevice : Prop :=
  ∀ (s : State) (v : Word) (k : BitVec 7) (key : List Byte) (hexvos microcode : FirmwareImage),
    exec .powerOn s = .next (restarted s 1 [])
    ∧ exec .linkReset s = .next (restarted s (causeOf s 2) (keptRecords s))
    ∧ exec .hexwd s = .next (restarted s (causeOf s 64) (keptRecords s))
    ∧ exec (.rstctl v) s = .next (if v.toNat / 2 ^ 16 = 0x5253 ∧ v.getLsbD 0 = true
        then restarted s (causeOf s 4) (keptRecords s) else s)
    ∧ (110 * 8 ≤ (s.regs.islands.getD k.toNat Island.reset).temp.toInt → exec (.thermalTrip k) s = .next (restarted s (causeOf s 16) (keptRecords s)))
    ∧ (2 ≤ (s.regs.islands.getD k.toNat Island.reset).outside → exec (.voltageFault k) s = .next (restarted s (causeOf s 32) (keptRecords s)))
    ∧ (s.regs.boot = .reset → ∃ t, exec .suppliesStable s = .next t ∧ t.regs.boot = .calib
        ∧ t = { s with regs := { s.regs with boot := .calib, islands := t.regs.islands } }
        ∧ ∀ j i, s.regs.islands[j]? = some i →
            let gone := j % 32 < 24 ∧ j / 32 * 48 + 2 * (j % 32) ∈ s.regs.retCore ∧ j / 32 * 48 + 2 * (j % 32) + 1 ∈ s.regs.retCore
            t.regs.islands[j]? = some { i with off := decide gone })
    ∧ (s.regs.boot = .calib → exec .calibrationDone s = .next { s with regs := { s.regs with boot := .verify } })
    ∧ (s.regs.boot = .verify →
        let ok : Bool := shake256 key == (List.range 32).map Config.firmwareKeyDigest && xmssVerify key hexvos.bytes hexvos.sig
          && xmssVerify key microcode.bytes microcode.sig
        exec (.firmwareVerified key (hexvos, microcode)) s = .next { s with regs := { s.regs with
          boot := if ok then .config else .stopped, meas := shake256 hexvos.bytes ++ shake256 microcode.bytes
          rstCause := if ok then s.regs.rstCause else s.regs.rstCause ||| 128 } })
    ∧ (s.regs.boot = .config → v.getLsbD 0 = true → exec (.bootctlStart v) s = .next { s with regs := { s.regs with
        boot := if bootCfgValid s.regs then .init else .config, badCfg := !bootCfgValid s.regs } })
    ∧ (s.regs.boot = .init → ∃ t, exec .initDone s = .next t ∧ t.regs.boot = .ready ∧ (∀ a, t.hbm.byte a = 0) ∧ t.undo = []
        ∧ t.domain.rin = 1 ∧ t.domain.committed = 0 ∧ (∀ n ∈ t.inlets, n.en = false ∧ n.head = 0 ∧ n.tail = 0 ∧ n.chead = 0)
        ∧ t.records.log2n = 0 ∧ t.records.head = 0 ∧ t.records.tail = 0 ∧ t.host = s.host ∧ t.peer = s.peer ∧ t.work = s.work ∧ t.ctxs = s.ctxs)

namespace Sys2Proof.Machine

/-- An island of the device, as its registers and its clock stand after a joint update of the monitors (R397, R398, R403). -/
def islandUpdated (warn : Int) (i : Island) (r : Reading) : Island :=
  let out := r.volt.toNat < r.vnom.toNat - r.vnom.toNat / 16 ∨ r.vnom.toNat + r.vnom.toNat / 16 < r.volt.toNat
  let hot := decide (warn ≤ r.temp.toInt) || (i.hot && decide (warn - 40 ≤ r.temp.toInt))
  let thr := hot || i.cutHeat != 0 || i.cutPower != 0
  { i with
    volt := r.volt, temp := r.temp, proc := r.proc, vnom := r.vnom
    freq := if i.off then 0 else BitVec.ofNat 16 (i.nominal.toNat * (16 - max i.cutHeat i.cutPower) / 16)
    valarm := i.valarm || decide out, talarm := i.talarm || decide (warn ≤ r.temp.toInt)
    maxt := if i.maxt.toInt < r.temp.toInt then r.temp else i.maxt
    outside := if out then i.outside + 1 else 0, hot := hot
    throt := thr, thrcnt := if thr = true ∧ i.throt = false then i.thrcnt + 1 else i.thrcnt }

end Sys2Proof.Machine

/-- R397, R398, R403 to R406: once in a millisecond the monitors of every island are updated together, with the readings, the sticky alarms, the highest
temperature and THROT; heat and the power cap each move a clock by a sixteenth in a millisecond; and a request for a report burns one key and ends
with the report in the host's memory, its 128 bytes of R406 and then its signature, or with its reason. The moments of updates and clock steps (log
entry 87), the free seed of the signature (88) and the registers that a report uses at its end (89) are the model's choices. -/
def Obligations.MonitorsAndReports : Prop :=
  ∀ (s : State) (m : List Reading) (i : Island) (k : BitVec 7) (v : Word) (power : Nat),
    let slower := fun (down : Bool) (c : Nat) => if down then min 12 (c + 1) else c - 1
    let due := fun (since : Nat) => s.regs.boot ≠ .reset ∧ since + 1000000 ≤ s.clock
    let report := s.regs.attState = 1
    let head := s.regs.attNonce ++ s.regs.meas ++ leBytes 4 (regRead32 s 0).toNat ++ leBytes 4 0
      ++ leBytes 4 (regRead32 s 8).toNat ++ leBytes 4 (regRead32 s 12).toNat ++ leBytes 4 (s.regs.keyIdx - 1) ++ leBytes 4 s.regs.rstCount.toNat
      ++ leBytes 8 0
    (due s.regs.monAt → m.map (fun r => r.island.toNat) = List.range 128 → s.regs.islands.length = 128 →
      ∃ l, exec (.monitorUpdate m) s = .next { s with regs := { s.regs with monAt := s.clock, islands := l } }
        ∧ ∀ (j : Nat) (y : Island) (r : Reading), s.regs.islands[j]? = some y → m[j]? = some r → l[j]? = some (islandUpdated (8 * (s.regs.monctl.toNat : Int)) y r))
    ∧ (¬ due s.regs.monAt ∨ m.map (fun r => r.island.toNat) ≠ List.range 128 → exec (.monitorUpdate m) s = .next s)
    ∧ (s.regs.islands[k.toNat]? = some i → due i.stepAt → i.hot = true ∨ i.cutHeat ≠ 0 →
        exec (.throttleStep k) s = .next { s with regs := { s.regs with
          islands := s.regs.islands.set k.toNat { i with cutHeat := slower i.hot i.cutHeat, stepAt := s.clock } } })
    ∧ (power ≠ s.regs.pwrCap.toNat → due s.regs.capAt →
        ∃ l, exec (.powerCapStep power) s = .next { s with regs := { s.regs with capAt := s.clock, islands := l } }
          ∧ ∀ j, s.regs.islands[j]? = some i →
              l[j]? = some (if j % 32 < 24 then { i with cutPower := slower (s.regs.pwrCap.toNat < power) i.cutPower } else i))
    ∧ (v.getLsbD 0 = true → s.regs.boot = .ready → s.regs.attState ≠ 1 → s.regs.keyIdx < 2 ^ 20 → s.regs.attDst.toNat % 64 = 0 →
        exec (.attctlRequest v) s = .next { s with regs := { s.regs with attState := 1, attReason := 0, keyIdx := s.regs.keyIdx + 1 } })
    ∧ (v.getLsbD 0 = true → s.regs.boot = .ready → s.regs.attState ≠ 1 → s.regs.keyIdx < 2 ^ 20 → s.regs.attDst.toNat % 64 ≠ 0 →
        exec (.attctlRequest v) s = .next { s with regs := { s.regs with attState := 3, attReason := 3 } })
    ∧ (v.getLsbD 0 = true → s.regs.boot = .ready → s.regs.attState ≠ 1 → 2 ^ 20 ≤ s.regs.keyIdx →
        exec (.attctlRequest v) s = .next { s with regs := { s.regs with attState := 3, attReason := 1 } })
    ∧ (report → s.regs.attDst.toNat % 64 = 0 → s.memoryWf = true → s.regs.attNonce.length = 32 → s.regs.meas.length = 64 →
        ∃ t, exec (.attestationComplete true) s = .next t ∧ t = { s with host := t.host, regs := { s.regs with attState := 2 } }
          ∧ (∀ a, (a < s.regs.attDst.toNat ∨ s.regs.attDst.toNat + 128 + 2820 ≤ a) → t.host.byte a = s.host.byte a)
          ∧ (∀ n < 4, t.host.byte (s.regs.attDst.toNat + 128 + n) = BitVec.ofNat 8 ((s.regs.keyIdx - 1) / 256 ^ (3 - n)))
          ∧ ∀ n < 128, t.host.byte (s.regs.attDst.toNat + n) = head.getD n 0)
    ∧ (report → s.regs.attDst.toNat % 64 ≠ 0 → exec (.attestationComplete true) s = .next { s with regs := { s.regs with attState := 3, attReason := 3 } })
    ∧ (report → exec (.attestationComplete false) s = .next { s with regs := { s.regs with attState := 3, attReason := 2 } })

/-- R29 to R47: words written out from the encoding tables, of each of the nine formats V, I, S, SI, B, M, E, T and X, decode to the instruction they stand for. -/
def Obligations.WordsDecodeAsTabulated : Prop :=
  decode 0b0000000_0000001_0000010_0000011_0000#32 = .ok (.iadd .i32 1 2 3)
  ∧ decode 0b0010100_0000001_0000010_10_0000_11111#32 = .ok (.sari 1 2 31)
  ∧ decode 0b0011000_1_0011_11111111111111111110#32 = .ok (.bra 0x13 0xFFFFE)
  ∧ decode 0b0101000_110_0101_0000010_0000100_00_01#32 = .ok (.fcmpp .f64 .un 5 2 4)
  ∧ decode 0b0111110_11001000_00000001_100000000#32 = .ok (.saddi 200 1 0x100)
  ∧ decode 0b1010000_0000111_0001000_100000_01_011#32 = .ok (.ldI32 7 8 0x20 .acquire .device)
  ∧ decode 0b1011100_00001000_00001100_00010000_1#32 = .ok (.cpyt 8 12 16)
  ∧ decode 0b1100010_010_0100_1000_00010000_00000_1#32 = .ok (.mmaDw 2 4 8 16)
  ∧ decode 0b1101110_00001000_00001100_11111111_0#32 = .ok (.coll 8 12 255)
  ∧ decode 0b0111000_11001000_00000001_00000010_1#32 = .ok (.ssub 200 1 2)
  ∧ decode 0b1111000_0_1111_0_1_001_1_0010100_0_0_0_0_000#32 = .ok (.extPred 0b0_1111_0_1_001_1_0010100_0_0_0_0_000)

namespace Sys2Proof.Machine

/-- A magnitude z with its sticky bit stands for the number v: it is v cut off at its last bit, and the sticky bit tells whether that lost
anything. -/
def Exact.cutOff (z : Exact) (v : ℚ) : Prop :=
  |z.value| ≤ v ∧ v < |z.value| + (2 : ℚ) ^ z.e ∧ (z.sticky = true ↔ |z.value| ≠ v)

end Sys2Proof.Machine

/-- R94, R99, R106 to R108: the sum, the product and the fused product and sum of finite operands are their exact values; a quotient, a reciprocal, a
square root and a reciprocal square root are the exact value cut off beyond 100 bits with a sticky bit; division by zero, invalid operations and exact
zeros are as the rules give them, as are EXP2, LOG2, SIN and COS where their value is exact. Elsewhere these four are computed as log entry 39 gives. -/
def Obligations.FloatOperationsFormTheExactValue : Prop :=
  (∀ (md : Mode) (x y c : Exact), x.sticky = false → y.sticky = false → c.sticky = false →
    let fin := fun (r : FVal × Word) (ok : Exact → Prop) => ∃ z, r = (.fin z, 0) ∧ ok z
    let one := ⟨false, 1, 0, false⟩
    fin (addVal md (.fin x) (.fin y)) (fun z => z.sticky = false ∧ z.value = x.value + y.value
        ∧ (z.value = 0 → z.neg = if x.neg = y.neg then x.neg else decide (md.code = 3)))
    ∧ fin (mulVal (.fin x) (.fin y)) (fun z => z.sticky = false ∧ z.value = x.value * y.value ∧ z.neg = (x.neg != y.neg))
    ∧ fin (fmaVal md (.fin x) (.fin y) (.fin c)) (fun z => z.sticky = false ∧ z.value = x.value * y.value + c.value)
    ∧ (y.value ≠ 0 → fin (divVal (.fin x) (.fin y)) fun z => z.neg = (x.neg != y.neg) ∧ z.cutOff |x.value / y.value| ∧ (x.value ≠ 0 → 2 ^ 100 ≤ z.m))
    ∧ (y.value = 0 → x.value ≠ 0 → divVal (.fin x) (.fin y) = (.inf (x.neg != y.neg), flagDZ))
    ∧ (y.value = 0 → x.value = 0 → divVal (.fin x) (.fin y) = (.nan false, flagNV))
    ∧ (x.value ≠ 0 → fin (rcpVal (.fin x)) fun z => z.neg = x.neg ∧ z.cutOff |1 / x.value| ∧ 2 ^ 100 ≤ z.m)
    ∧ (x.value = 0 → rcpVal (.fin x) = (.inf x.neg, flagDZ) ∧ rsqVal (.fin x) = (.inf x.neg, flagDZ) ∧ sqrtVal (.fin x) = (.fin x, 0))
    ∧ (x.value < 0 → sqrtVal (.fin x) = (.nan false, flagNV) ∧ rsqVal (.fin x) = (.nan false, flagNV))
    ∧ (0 < x.value → fin (sqrtVal (.fin x)) fun z => z.neg = false ∧ 2 ^ 100 ≤ z.m ∧ z.value ^ 2 ≤ x.value ∧ x.value < (z.value + 2 ^ z.e) ^ 2
        ∧ (z.sticky = true ↔ z.value ^ 2 ≠ x.value))
    ∧ (0 < x.value → fin (rsqVal (.fin x)) fun z => z.neg = false ∧ 2 ^ 100 ≤ z.m ∧ z.value ^ 2 * x.value ≤ 1
        ∧ 1 < (z.value + 2 ^ z.e) ^ 2 * x.value ∧ (z.sticky = true ↔ z.value ^ 2 * x.value ≠ 1))
    ∧ (divVal (.fin one) (.fin x)).1 = (rcpVal (.fin x)).1)
  ∧ ∀ (code : Nat) (x : Exact) (n : Int), fp32.decode code = .fin x →
    let exact := fun (r : FVal × Word) (v : ℚ) => ∃ z, r = (.fin z, 0) ∧ z.sticky = false ∧ z.value = v ∧ (v = 0 → z.neg = false)
    let sign : ℚ := if n % 2 = 0 then 1 else -1
    (x.value = n → |n| ≤ 2048 → exact (exp2Val (.fin x)) (2 ^ n))
    ∧ (x.value = 2 ^ n → exact (log2Val (.fin x)) n)
    ∧ (x.value = 0 → log2Val (.fin x) = (.inf true, flagDZ)) ∧ (x.value < 0 → log2Val (.fin x) = (.nan false, flagNV))
    ∧ (x.value = n → (∃ z, trigVal sinExact (.fin x) = (.fin z, 0) ∧ z.value = 0 ∧ z.neg = x.neg) ∧ exact (trigVal cosExact (.fin x)) sign)
    ∧ (x.value = n + 1 / 2 → exact (trigVal sinExact (.fin x)) sign ∧ exact (trigVal cosExact (.fin x)) 0)

/-- R62, R63: the bit-field instructions and the counts complete with the result of their rule for every operand. -/
def Obligations.BitFieldsAndCounts : Prop :=
  Claim.BitFieldsEndAtTheWord ∧ Claim.BitCountsAndReversal

/-- R64 to R69: compares, predicate logic, SEL, MOVI and the address instructions complete with the result of their rule. -/
def Obligations.ComparesSelectsAndMoves : Prop :=
  Claim.ComparesPredicatesAndSelect ∧ Claim.MovesAndAddresses

/-- R113 to R117: conversions between formats round once, and PACK and UNPK convert element by element. -/
def Obligations.ConversionsAndPacking : Prop :=
  Claim.FloatConversions ∧ Claim.PackingConvertsElementwise

/-- R145, R146, R149: the uniform instructions act once for the set, and the moves carry values between the register classes. -/
def Obligations.UniformInstructionsAndMoves : Prop :=
  Claim.UniformInstructionsActOnce ∧ Claim.MovesBetweenRegisterClasses

/-- R152 to R156: reductions combine every member, scans follow the rising order, and RAND takes the next draws. -/
def Obligations.ReductionsScansAndRand : Prop :=
  Claim.IntegerReductionsCombineEveryMember ∧ Claim.TreeReductionsAndScans ∧ Claim.RandTakesTheNextDraws

/-- R17, R25, R40, R47, R48, R82, R262, R263: a word that may not execute parks its set with the cause of its first fault and has no other effect. That a
misaligned target of an indirect transfer comes before the other decode faults (log entry 100), whose targets are tested under an illegal guard (128)
and which of several failing fields DETAIL names (16) are the model's choices. -/
def Obligations.FaultingWordsPark : Prop :=
  Claim.DecodeFaultsParkWithoutEffect ∧ Claim.FormatsNameRegisters ∧ Claim.IllegalWordsParkTheirSet ∧ Claim.PrivilegedInstructionsTrapAtLevelZero

/-- R32, R70 to R72, R75, R147, R191: control transfers go to their targets, and NOP, LAND, YIELD and PREF only to the next word. -/
def Obligations.TransfersReachTheirTargets : Prop :=
  Claim.DirectBranchesTakeTheirTarget ∧ Claim.IndirectTransfersReachTheirTargets ∧ Claim.NoEffectInstructionsOnlyAdvance

/-- R74, R76, R159: EXIT ends its threads, and a JOIN holds those that its mask names until all of them are there. That a group whose last threads EXIT
under single step stays parked is the model's choice (log entry 125). -/
def Obligations.ThreadsExitAndJoin : Prop :=
  Claim.ExitEndsItsThreads ∧ Claim.JoinWaitsForTheNamedLanes

/-- R77 to R79: SRD delivers and SWR changes the system register that the index names. -/
def Obligations.SystemRegistersReadAndWrite : Prop :=
  Claim.SystemRegistersRead ∧ Claim.SystemRegistersWrite

/-- R308 to R311, R325, R326: RESUME, GSAVE, GLOAD and FQPOP act on the parked group or the queue that they name and give their status. The order of
RESUME's statuses (log entry 64), and FQPOP's status before its faults with its store at once (65), are the model's choices. -/
def Obligations.PrivilegedInstructionsServeParks : Prop :=
  Claim.ResumeActsOnTheParkedGroup ∧ Claim.FramesMoveUnderGsaveAndGload ∧ Claim.FqpopTakesTheOldestEntry

/-- R186, R187, R195, R200, R270, R272: a load reads at its issue, and its values reach the registers that it names and no others. That a load reads at
its issue is the model's choice (log entry 37). -/
def Obligations.LoadsReadAndReturn : Prop :=
  Claim.LoadsReadAtTheirIssue ∧ Claim.LoadValuesReachTheirRegisters

/-- R187, R188, R195, R197: a store hands its bytes to the group's buffer, and no byte of memory changes yet. -/
def Obligations.StoresAreBuffered : Prop :=
  Claim.StoresEnterTheBuffer ∧ Claim.BufferedStoresChangeNoMemory

/-- R182, R190, R194, R196: SEGQ and SEGSET act on segments, and FENCE and WAIT only wait. The DETAIL of SEGSET's 0x0402 (log entry 35) and what FENCE
orders at a scope that no other agent shares (36) are the model's choices. -/
def Obligations.SegmentsFencesAndWaits : Prop :=
  Claim.SegmentsAreQueriedAndSet ∧ Claim.FencesAndWaitsOnlyWait

/-- R214, R226, R235 to R239: the instructions on fitted regions queue their operation or read as loads. That RLDG and RSTAT read at their issue (log
entry 37) and wait for the stores held at their region (43) are the model's choices. -/
def Obligations.RegionInstructionsIssue : Prop :=
  Claim.RegionOperationsAreQueued ∧ Claim.RegionReadsAreLoads

/-- R244 to R249, R254, R258 to R260: copies are queued with their record, complete or halt, and answer CPST and CPCAN. -/
def Obligations.CopiesRunAndComplete : Prop :=
  Claim.CopiesAreQueued ∧ Claim.CopiesCompleteOrHalt ∧ Claim.CopyStatusAndCancel

/-- R263 to R268, R273, R278: tiles and accumulators are cleared, moved, observed, loaded and stored. That TLD and ALD read every element at their issue
is the model's choice (log entry 37). -/
def Obligations.TilesAndAccumulators : Prop :=
  Claim.TileAndAccumulatorRegisters ∧ Claim.ObservationTakesASnapshot ∧ Claim.TilesMoveToAndFromMemory

/-- R267 to R275: a matrix operation is queued with its tiles, and its completion accumulates in the order of the rule. -/
def Obligations.MatrixOperationsAccumulate : Prop :=
  Claim.MatrixOperationsAreQueued ∧ Claim.MatrixOperationsRoundOnce

/-- R280 to R290, R297, R299: binds are queued and end, and the status of graphs and channels is loaded. That GSTAT and CHSTAT read at their issue (log
entry 37), part 3 for a GREBIND of an unbound area (55) and what a BINDING area holds (57) are the model's choices. -/
def Obligations.GraphsAreBound : Prop :=
  Claim.BindsAreQueuedAndStatusIsLoaded ∧ Claim.BindsEndTheirOperation

/-- R291 to R302: firings open and close in the order of the table, and records move through their channels. Pd 1 of a FIRE on an ENDED graph (log entry
56), what a store into the area does (57) and that a SEND at ESCOPE SYSTEM to an IRREVOCABLE page goes on at once with its slot late (119) are the
model's choices. -/
def Obligations.FiringsMoveRecords : Prop :=
  Claim.FiringsOpenAndClose ∧ Claim.RecordsMoveThroughChannels

/-- R332, R334, R335, R338 to R340: seals are requested, triggered and decided, and the recovery words are read. How SEAL arrives and waits (log entries
21 and 73) the stage after the coordinator's own abort (74) and that a SEND or RECV whose own lines would fill a log counts for the stall limit (101)
are the model's choices. -/
def Obligations.SealsAreRequestedAndDecided : Prop :=
  Claim.SealRequestsAndRecoveryWords ∧ Claim.SealsAreTriggeredAndDecided

/-- R246, R357 to R367: collectives and lease operations are queued and complete, and the arbitration words are exchanged. The record of a notice store
that is dropped (log entry 69), the status of a failed COLL and how a COLL writes on where a log is full (70) are the model's choices. -/
def Obligations.CollectivesIssueAndComplete : Prop :=
  Claim.CollectiveInstructions ∧ Claim.CollectivesPassAndComplete

/-- R329, R353 to R356, R385: leases end at their deadline, routes come and go, and peers reach this device's memory. The notice store of a lease, and its
record where it fails, follow the model's choice (log entry 69). -/
def Obligations.LeasesRoutesAndPeers : Prop :=
  Claim.LeasesEndAtTheirDeadline ∧ Claim.PeersReachThisDevice

/-- R333, R335, R336: PREPARE takes the seal point, COMMIT keeps it and ABORT drops it. That an ABORT before the device's own seal point moves RIN to r +
1 (log entry 74), that late slots become FULL at the commit, in its snapshot too (119), when the owed stores of a bind area are made (57) and what
becomes of the bytes that a later write has replaced (32) are the model's choices. -/
def Obligations.SealPointsAreKeptOrDropped : Prop :=
  Claim.PrepareTakesTheSealPoint ∧ Claim.CommitAndAbortEndTheSeal
end

