-- ==== Sys2Proof/Laws/Sparse.lean ====
section
/-! SUPPORT. Laws of the sparse maps: reading after writing, and the canonical form. -/
namespace Sys2Proof.Machine

variable {α : Type} [DecidableEq α] {d : α}

/-- The canonical form of a longer map: its head holds no default and its keys rise. -/
theorem swf_cons (k : Nat) (v : α) (m : Sparse α) :
    swf d ((k, v) :: m) = true ↔ v ≠ d ∧ (∀ p ∈ m, k < p.1) ∧ swf d m = true := by
  induction m generalizing k v with
  | nil => simp [swf]
  | cons q r ih =>
    obtain ⟨k', v'⟩ := q
    simp only [swf, Bool.and_eq_true, decide_eq_true_eq]
    constructor
    · rintro ⟨⟨hv, hk⟩, hr⟩
      refine ⟨hv, ?_, hr⟩
      intro p hp
      rcases List.mem_cons.mp hp with rfl | hp
      · exact hk
      · exact Nat.lt_trans hk (((ih k' v').mp hr).2.1 p hp)
    · rintro ⟨hv, hk, hr⟩
      exact ⟨⟨hv, hk (k', v') (List.mem_cons_self ..)⟩, hr⟩

omit [DecidableEq α] in
/-- A key below every key of a map reads as the default. -/
theorem sget_of_lt {k : Nat} {m : Sparse α} (h : ∀ p ∈ m, k < p.1) : sget d m k = d := by
  induction m with
  | nil => rfl
  | cons q r ih =>
    obtain ⟨k', v'⟩ := q
    have hk : k < k' := h (k', v') (List.mem_cons_self ..)
    rw [sget, if_neg (Nat.ne_of_lt hk)]
    exact ih fun p hp => h p (List.mem_cons_of_mem _ hp)

/-- A key that a write names, or a key that the map had. -/
theorem mem_sput {k : Nat} {v : α} {m : Sparse α} {p : Nat × α} (h : p ∈ sput d m k v) : p.1 = k ∨ p ∈ m := by
  induction m with
  | nil =>
    simp only [sput] at h
    split at h <;> simp_all
  | cons q r ih =>
    obtain ⟨k', v'⟩ := q
    simp only [sput] at h
    split at h
    · split at h
      · exact .inr h
      · rcases List.mem_cons.mp h with rfl | h
        · exact .inl rfl
        · exact .inr h
    · split at h
      · rename_i hkk
        split at h
        · exact .inr (List.mem_cons_of_mem _ h)
        · rcases List.mem_cons.mp h with rfl | h
          · exact .inl rfl
          · exact .inr (List.mem_cons_of_mem _ h)
      · rcases List.mem_cons.mp h with rfl | h
        · exact .inr (List.mem_cons_self ..)
        · rcases ih h with h | h
          · exact .inl h
          · exact .inr (List.mem_cons_of_mem _ h)

/-- A write keeps the canonical form. -/
theorem swf_sput {m : Sparse α} (k : Nat) (v : α) (h : swf d m = true) : swf d (sput d m k v) = true := by
  induction m with
  | nil =>
    simp only [sput]
    split <;> simp_all [swf]
  | cons q r ih =>
    obtain ⟨k', v'⟩ := q
    obtain ⟨hv, hk, hr⟩ := (swf_cons k' v' r).mp h
    simp only [sput]
    split
    · rename_i hlt
      split
      · exact h
      · rename_i hne
        refine (swf_cons k v _).mpr ⟨hne, ?_, h⟩
        intro p hp
        rcases List.mem_cons.mp hp with rfl | hp
        · exact hlt
        · exact Nat.lt_trans hlt (hk p hp)
    · split
      · rename_i heq
        split
        · exact hr
        · rename_i hne
          exact (swf_cons k v r).mpr ⟨hne, fun p hp => heq ▸ hk p hp, hr⟩
      · rename_i hnlt hne
        refine (swf_cons k' v' _).mpr ⟨hv, ?_, ih hr⟩
        intro p hp
        rcases mem_sput hp with hp | hp
        · omega
        · exact hk p hp

/-- A canonical map reads after a write what was written. -/
theorem sget_sput_same {m : Sparse α} (k : Nat) (v : α) (h : swf d m = true) : sget d (sput d m k v) k = v := by
  induction m with
  | nil =>
    simp only [sput]
    split <;> simp_all [sget]
  | cons q r ih =>
    obtain ⟨k', v'⟩ := q
    obtain ⟨hv, hk, hr⟩ := (swf_cons k' v' r).mp h
    simp only [sput]
    split
    · rename_i hlt
      split
      · rename_i hvd
        rw [hvd]
        refine sget_of_lt fun p hp => ?_
        rcases List.mem_cons.mp hp with rfl | hp
        · exact hlt
        · exact Nat.lt_trans hlt (hk p hp)
      · simp [sget]
    · split
      · rename_i heq
        split
        · rename_i hvd
          rw [hvd]
          exact sget_of_lt fun p hp => heq ▸ hk p hp
        · simp [sget]
      · rename_i hne
        rw [sget, if_neg hne]
        exact ih hr

/-- A write leaves every other key as it was. -/
theorem sget_sput_other {m : Sparse α} (k : Nat) (v : α) {j : Nat} (hj : j ≠ k) : sget d (sput d m k v) j = sget d m j := by
  induction m with
  | nil =>
    simp only [sput]
    split <;> simp [sget, hj]
  | cons q r ih =>
    obtain ⟨k', v'⟩ := q
    simp only [sput]
    split
    · split
      · rfl
      · simp [sget, hj]
    · split
      · rename_i heq
        split
        · simp [sget, ← heq, hj]
        · simp [sget, ← heq, hj]
      · simp only [sget]
        rw [ih]

/-- Reading any key of a canonical map after a write. -/
theorem sget_sput {m : Sparse α} (k : Nat) (v : α) (j : Nat) (h : swf d m = true) :
    sget d (sput d m k v) j = if j = k then v else sget d m j := by
  split
  · rename_i hj; rw [hj]; exact sget_sput_same k v h
  · rename_i hj; exact sget_sput_other k v hj

/-- Two canonical maps that read alike are equal. -/
theorem sparse_ext {m n : Sparse α} (hm : swf d m = true) (hn : swf d n = true) (h : ∀ k, sget d m k = sget d n k) : m = n := by
  induction m generalizing n with
  | nil =>
    cases n with
    | nil => rfl
    | cons q r =>
      obtain ⟨k, v⟩ := q
      have := h k
      simp [sget] at this
      exact absurd this.symm ((swf_cons k v r).mp hn).1
  | cons p m ih =>
    obtain ⟨k, v⟩ := p
    obtain ⟨hv, hk, hmr⟩ := (swf_cons k v m).mp hm
    cases n with
    | nil =>
      have := h k
      simp [sget] at this
      exact absurd this hv
    | cons q r =>
      obtain ⟨k', v'⟩ := q
      obtain ⟨hv', hk', hnr⟩ := (swf_cons k' v' r).mp hn
      have hkk : k = k' := by
        rcases Nat.lt_trichotomy k k' with hlt | heq | hlt
        · have h1 := h k
          rw [sget, if_pos rfl, sget, if_neg (Nat.ne_of_lt hlt)] at h1
          rw [sget_of_lt fun p hp => Nat.lt_trans hlt (hk' p hp)] at h1
          exact absurd h1 hv
        · exact heq
        · have h1 := h k'
          rw [sget, if_neg (Nat.ne_of_lt hlt)] at h1
          rw [sget_of_lt fun p hp => Nat.lt_trans hlt (hk p hp), sget, if_pos rfl] at h1
          exact absurd h1.symm hv'
      subst hkk
      have hvv : v = v' := by simpa [sget] using h k
      subst hvv
      congr 1
      refine ih hmr hnr fun j => ?_
      by_cases hj : j = k
      · subst hj
        rw [sget_of_lt hk, sget_of_lt hk']
      · simpa [sget, hj] using h j

end Sys2Proof.Machine
end

