-- ==== Sys2Proof/Laws/State.lean ====
section
/-! SUPPORT. One lemma for each field and each update of the state: what the update leaves as it was. -/
namespace Sys2Proof.Machine

@[simp] theorem State.setGroup_ctxs (s : State) (g : Group) : (s.setGroup g).ctxs = s.ctxs := rfl
@[simp] theorem State.setGroup_hbm (s : State) (g : Group) : (s.setGroup g).hbm = s.hbm := rfl
@[simp] theorem State.setGroup_baseTag (s : State) (g : Group) : (s.setGroup g).baseTag = s.baseTag := rfl
@[simp] theorem State.setGroup_side (s : State) (g : Group) : (s.setGroup g).side = s.side := rfl
@[simp] theorem State.setGroup_host (s : State) (g : Group) : (s.setGroup g).host = s.host := rfl
@[simp] theorem State.setGroup_peer (s : State) (g : Group) : (s.setGroup g).peer = s.peer := rfl
@[simp] theorem State.setGroup_undo (s : State) (g : Group) : (s.setGroup g).undo = s.undo := rfl
@[simp] theorem State.setGroup_deferred (s : State) (g : Group) : (s.setGroup g).deferred = s.deferred := rfl
@[simp] theorem State.setGroup_leases (s : State) (g : Group) : (s.setGroup g).leases = s.leases := rfl
@[simp] theorem State.setGroup_domain (s : State) (g : Group) : (s.setGroup g).domain = s.domain := rfl
@[simp] theorem State.setGroup_snapCommitted (s : State) (g : Group) : (s.setGroup g).snapCommitted = s.snapCommitted := rfl
@[simp] theorem State.setGroup_snapPending (s : State) (g : Group) : (s.setGroup g).snapPending = s.snapPending := rfl
@[simp] theorem State.setGroup_inlets (s : State) (g : Group) : (s.setGroup g).inlets = s.inlets := rfl
@[simp] theorem State.setGroup_records (s : State) (g : Group) : (s.setGroup g).records = s.records := rfl
@[simp] theorem State.setGroup_regs (s : State) (g : Group) : (s.setGroup g).regs = s.regs := rfl
@[simp] theorem State.setGroup_msix (s : State) (g : Group) : (s.setGroup g).msix = s.msix := rfl
@[simp] theorem State.setGroup_clock (s : State) (g : Group) : (s.setGroup g).clock = s.clock := rfl
@[simp] theorem State.setGroup_cycles (s : State) (g : Group) : (s.setGroup g).cycles = s.cycles := rfl
@[simp] theorem State.setGroup_nextUid (s : State) (g : Group) : (s.setGroup g).nextUid = s.nextUid := rfl
@[simp] theorem State.setGroup_occasion (s : State) (g : Group) : (s.setGroup g).occasion = s.occasion := rfl
@[simp] theorem State.setGroup_moveCount (s : State) (g : Group) : (s.setGroup g).moveCount = s.moveCount := rfl
@[simp] theorem State.setGroup_cur (s : State) (g : Group) : (s.setGroup g).cur = s.cur := rfl
@[simp] theorem State.setGroup_ported (s : State) (g : Group) : (s.setGroup g).ported = s.ported := rfl
@[simp] theorem State.setGroup_agenda (s : State) (g : Group) : (s.setGroup g).agenda = s.agenda := rfl
@[simp] theorem State.setGroup_work_teams (s : State) (g : Group) : (s.setGroup g).work.teams = s.work.teams := rfl
@[simp] theorem State.setGroup_work_launches (s : State) (g : Group) : (s.setGroup g).work.launches = s.work.launches := rfl
@[simp] theorem State.setGroup_work_graphs (s : State) (g : Group) : (s.setGroup g).work.graphs = s.work.graphs := rfl
@[simp] theorem State.setGroup_work_regions (s : State) (g : Group) : (s.setGroup g).work.regions = s.work.regions := rfl
@[simp] theorem State.setGroup_work_springHeld (s : State) (g : Group) : (s.setGroup g).work.springHeld = s.work.springHeld := rfl
@[simp] theorem State.setGroup_work_segs (s : State) (g : Group) : (s.setGroup g).work.segs = s.work.segs := rfl
@[simp] theorem State.setGroup_work_pond (s : State) (g : Group) : (s.setGroup g).work.pond = s.work.pond := rfl
@[simp] theorem State.setGroup_work_pondDesc (s : State) (g : Group) : (s.setGroup g).work.pondDesc = s.work.pondDesc := rfl
@[simp] theorem State.setGroup_work_dates (s : State) (g : Group) : (s.setGroup g).work.dates = s.work.dates := rfl

@[simp] theorem State.modifyGroup_ctxs (s : State) (uid : Nat) (f : Group → Group) : (s.modifyGroup uid f).ctxs = s.ctxs := rfl
@[simp] theorem State.modifyGroup_hbm (s : State) (uid : Nat) (f : Group → Group) : (s.modifyGroup uid f).hbm = s.hbm := rfl
@[simp] theorem State.modifyGroup_baseTag (s : State) (uid : Nat) (f : Group → Group) : (s.modifyGroup uid f).baseTag = s.baseTag := rfl
@[simp] theorem State.modifyGroup_side (s : State) (uid : Nat) (f : Group → Group) : (s.modifyGroup uid f).side = s.side := rfl
@[simp] theorem State.modifyGroup_host (s : State) (uid : Nat) (f : Group → Group) : (s.modifyGroup uid f).host = s.host := rfl
@[simp] theorem State.modifyGroup_peer (s : State) (uid : Nat) (f : Group → Group) : (s.modifyGroup uid f).peer = s.peer := rfl
@[simp] theorem State.modifyGroup_undo (s : State) (uid : Nat) (f : Group → Group) : (s.modifyGroup uid f).undo = s.undo := rfl
@[simp] theorem State.modifyGroup_deferred (s : State) (uid : Nat) (f : Group → Group) : (s.modifyGroup uid f).deferred = s.deferred := rfl
@[simp] theorem State.modifyGroup_leases (s : State) (uid : Nat) (f : Group → Group) : (s.modifyGroup uid f).leases = s.leases := rfl
@[simp] theorem State.modifyGroup_domain (s : State) (uid : Nat) (f : Group → Group) : (s.modifyGroup uid f).domain = s.domain := rfl
@[simp] theorem State.modifyGroup_snapCommitted (s : State) (uid : Nat) (f : Group → Group) : (s.modifyGroup uid f).snapCommitted = s.snapCommitted := rfl
@[simp] theorem State.modifyGroup_snapPending (s : State) (uid : Nat) (f : Group → Group) : (s.modifyGroup uid f).snapPending = s.snapPending := rfl
@[simp] theorem State.modifyGroup_inlets (s : State) (uid : Nat) (f : Group → Group) : (s.modifyGroup uid f).inlets = s.inlets := rfl
@[simp] theorem State.modifyGroup_records (s : State) (uid : Nat) (f : Group → Group) : (s.modifyGroup uid f).records = s.records := rfl
@[simp] theorem State.modifyGroup_regs (s : State) (uid : Nat) (f : Group → Group) : (s.modifyGroup uid f).regs = s.regs := rfl
@[simp] theorem State.modifyGroup_msix (s : State) (uid : Nat) (f : Group → Group) : (s.modifyGroup uid f).msix = s.msix := rfl
@[simp] theorem State.modifyGroup_clock (s : State) (uid : Nat) (f : Group → Group) : (s.modifyGroup uid f).clock = s.clock := rfl
@[simp] theorem State.modifyGroup_cycles (s : State) (uid : Nat) (f : Group → Group) : (s.modifyGroup uid f).cycles = s.cycles := rfl
@[simp] theorem State.modifyGroup_nextUid (s : State) (uid : Nat) (f : Group → Group) : (s.modifyGroup uid f).nextUid = s.nextUid := rfl
@[simp] theorem State.modifyGroup_occasion (s : State) (uid : Nat) (f : Group → Group) : (s.modifyGroup uid f).occasion = s.occasion := rfl
@[simp] theorem State.modifyGroup_moveCount (s : State) (uid : Nat) (f : Group → Group) : (s.modifyGroup uid f).moveCount = s.moveCount := rfl
@[simp] theorem State.modifyGroup_cur (s : State) (uid : Nat) (f : Group → Group) : (s.modifyGroup uid f).cur = s.cur := rfl
@[simp] theorem State.modifyGroup_ported (s : State) (uid : Nat) (f : Group → Group) : (s.modifyGroup uid f).ported = s.ported := rfl
@[simp] theorem State.modifyGroup_agenda (s : State) (uid : Nat) (f : Group → Group) : (s.modifyGroup uid f).agenda = s.agenda := rfl
@[simp] theorem State.modifyGroup_work_teams (s : State) (uid : Nat) (f : Group → Group) : (s.modifyGroup uid f).work.teams = s.work.teams := rfl
@[simp] theorem State.modifyGroup_work_launches (s : State) (uid : Nat) (f : Group → Group) : (s.modifyGroup uid f).work.launches = s.work.launches := rfl
@[simp] theorem State.modifyGroup_work_graphs (s : State) (uid : Nat) (f : Group → Group) : (s.modifyGroup uid f).work.graphs = s.work.graphs := rfl
@[simp] theorem State.modifyGroup_work_regions (s : State) (uid : Nat) (f : Group → Group) : (s.modifyGroup uid f).work.regions = s.work.regions := rfl
@[simp] theorem State.modifyGroup_work_springHeld (s : State) (uid : Nat) (f : Group → Group) : (s.modifyGroup uid f).work.springHeld = s.work.springHeld := rfl
@[simp] theorem State.modifyGroup_work_segs (s : State) (uid : Nat) (f : Group → Group) : (s.modifyGroup uid f).work.segs = s.work.segs := rfl
@[simp] theorem State.modifyGroup_work_pond (s : State) (uid : Nat) (f : Group → Group) : (s.modifyGroup uid f).work.pond = s.work.pond := rfl
@[simp] theorem State.modifyGroup_work_pondDesc (s : State) (uid : Nat) (f : Group → Group) : (s.modifyGroup uid f).work.pondDesc = s.work.pondDesc := rfl
@[simp] theorem State.modifyGroup_work_dates (s : State) (uid : Nat) (f : Group → Group) : (s.modifyGroup uid f).work.dates = s.work.dates := rfl

@[simp] theorem State.modifyTeam_ctxs (s : State) (l i : Nat) (f : Team → Team) : (s.modifyTeam l i f).ctxs = s.ctxs := rfl
@[simp] theorem State.modifyTeam_hbm (s : State) (l i : Nat) (f : Team → Team) : (s.modifyTeam l i f).hbm = s.hbm := rfl
@[simp] theorem State.modifyTeam_baseTag (s : State) (l i : Nat) (f : Team → Team) : (s.modifyTeam l i f).baseTag = s.baseTag := rfl
@[simp] theorem State.modifyTeam_side (s : State) (l i : Nat) (f : Team → Team) : (s.modifyTeam l i f).side = s.side := rfl
@[simp] theorem State.modifyTeam_host (s : State) (l i : Nat) (f : Team → Team) : (s.modifyTeam l i f).host = s.host := rfl
@[simp] theorem State.modifyTeam_peer (s : State) (l i : Nat) (f : Team → Team) : (s.modifyTeam l i f).peer = s.peer := rfl
@[simp] theorem State.modifyTeam_undo (s : State) (l i : Nat) (f : Team → Team) : (s.modifyTeam l i f).undo = s.undo := rfl
@[simp] theorem State.modifyTeam_deferred (s : State) (l i : Nat) (f : Team → Team) : (s.modifyTeam l i f).deferred = s.deferred := rfl
@[simp] theorem State.modifyTeam_leases (s : State) (l i : Nat) (f : Team → Team) : (s.modifyTeam l i f).leases = s.leases := rfl
@[simp] theorem State.modifyTeam_domain (s : State) (l i : Nat) (f : Team → Team) : (s.modifyTeam l i f).domain = s.domain := rfl
@[simp] theorem State.modifyTeam_snapCommitted (s : State) (l i : Nat) (f : Team → Team) : (s.modifyTeam l i f).snapCommitted = s.snapCommitted := rfl
@[simp] theorem State.modifyTeam_snapPending (s : State) (l i : Nat) (f : Team → Team) : (s.modifyTeam l i f).snapPending = s.snapPending := rfl
@[simp] theorem State.modifyTeam_inlets (s : State) (l i : Nat) (f : Team → Team) : (s.modifyTeam l i f).inlets = s.inlets := rfl
@[simp] theorem State.modifyTeam_records (s : State) (l i : Nat) (f : Team → Team) : (s.modifyTeam l i f).records = s.records := rfl
@[simp] theorem State.modifyTeam_regs (s : State) (l i : Nat) (f : Team → Team) : (s.modifyTeam l i f).regs = s.regs := rfl
@[simp] theorem State.modifyTeam_msix (s : State) (l i : Nat) (f : Team → Team) : (s.modifyTeam l i f).msix = s.msix := rfl
@[simp] theorem State.modifyTeam_clock (s : State) (l i : Nat) (f : Team → Team) : (s.modifyTeam l i f).clock = s.clock := rfl
@[simp] theorem State.modifyTeam_cycles (s : State) (l i : Nat) (f : Team → Team) : (s.modifyTeam l i f).cycles = s.cycles := rfl
@[simp] theorem State.modifyTeam_nextUid (s : State) (l i : Nat) (f : Team → Team) : (s.modifyTeam l i f).nextUid = s.nextUid := rfl
@[simp] theorem State.modifyTeam_occasion (s : State) (l i : Nat) (f : Team → Team) : (s.modifyTeam l i f).occasion = s.occasion := rfl
@[simp] theorem State.modifyTeam_moveCount (s : State) (l i : Nat) (f : Team → Team) : (s.modifyTeam l i f).moveCount = s.moveCount := rfl
@[simp] theorem State.modifyTeam_cur (s : State) (l i : Nat) (f : Team → Team) : (s.modifyTeam l i f).cur = s.cur := rfl
@[simp] theorem State.modifyTeam_ported (s : State) (l i : Nat) (f : Team → Team) : (s.modifyTeam l i f).ported = s.ported := rfl
@[simp] theorem State.modifyTeam_agenda (s : State) (l i : Nat) (f : Team → Team) : (s.modifyTeam l i f).agenda = s.agenda := rfl
@[simp] theorem State.modifyTeam_work_groups (s : State) (l i : Nat) (f : Team → Team) : (s.modifyTeam l i f).work.groups = s.work.groups := rfl
@[simp] theorem State.modifyTeam_work_launches (s : State) (l i : Nat) (f : Team → Team) : (s.modifyTeam l i f).work.launches = s.work.launches := rfl
@[simp] theorem State.modifyTeam_work_graphs (s : State) (l i : Nat) (f : Team → Team) : (s.modifyTeam l i f).work.graphs = s.work.graphs := rfl
@[simp] theorem State.modifyTeam_work_regions (s : State) (l i : Nat) (f : Team → Team) : (s.modifyTeam l i f).work.regions = s.work.regions := rfl
@[simp] theorem State.modifyTeam_work_springHeld (s : State) (l i : Nat) (f : Team → Team) : (s.modifyTeam l i f).work.springHeld = s.work.springHeld := rfl
@[simp] theorem State.modifyTeam_work_segs (s : State) (l i : Nat) (f : Team → Team) : (s.modifyTeam l i f).work.segs = s.work.segs := rfl
@[simp] theorem State.modifyTeam_work_pond (s : State) (l i : Nat) (f : Team → Team) : (s.modifyTeam l i f).work.pond = s.work.pond := rfl
@[simp] theorem State.modifyTeam_work_pondDesc (s : State) (l i : Nat) (f : Team → Team) : (s.modifyTeam l i f).work.pondDesc = s.work.pondDesc := rfl
@[simp] theorem State.modifyTeam_work_dates (s : State) (l i : Nat) (f : Team → Team) : (s.modifyTeam l i f).work.dates = s.work.dates := rfl

@[simp] theorem State.modifyLaunch_ctxs (s : State) (uid : Nat) (f : Launch → Launch) : (s.modifyLaunch uid f).ctxs = s.ctxs := rfl
@[simp] theorem State.modifyLaunch_hbm (s : State) (uid : Nat) (f : Launch → Launch) : (s.modifyLaunch uid f).hbm = s.hbm := rfl
@[simp] theorem State.modifyLaunch_baseTag (s : State) (uid : Nat) (f : Launch → Launch) : (s.modifyLaunch uid f).baseTag = s.baseTag := rfl
@[simp] theorem State.modifyLaunch_side (s : State) (uid : Nat) (f : Launch → Launch) : (s.modifyLaunch uid f).side = s.side := rfl
@[simp] theorem State.modifyLaunch_host (s : State) (uid : Nat) (f : Launch → Launch) : (s.modifyLaunch uid f).host = s.host := rfl
@[simp] theorem State.modifyLaunch_peer (s : State) (uid : Nat) (f : Launch → Launch) : (s.modifyLaunch uid f).peer = s.peer := rfl
@[simp] theorem State.modifyLaunch_undo (s : State) (uid : Nat) (f : Launch → Launch) : (s.modifyLaunch uid f).undo = s.undo := rfl
@[simp] theorem State.modifyLaunch_deferred (s : State) (uid : Nat) (f : Launch → Launch) : (s.modifyLaunch uid f).deferred = s.deferred := rfl
@[simp] theorem State.modifyLaunch_leases (s : State) (uid : Nat) (f : Launch → Launch) : (s.modifyLaunch uid f).leases = s.leases := rfl
@[simp] theorem State.modifyLaunch_domain (s : State) (uid : Nat) (f : Launch → Launch) : (s.modifyLaunch uid f).domain = s.domain := rfl
@[simp] theorem State.modifyLaunch_snapCommitted (s : State) (uid : Nat) (f : Launch → Launch) : (s.modifyLaunch uid f).snapCommitted = s.snapCommitted := rfl
@[simp] theorem State.modifyLaunch_snapPending (s : State) (uid : Nat) (f : Launch → Launch) : (s.modifyLaunch uid f).snapPending = s.snapPending := rfl
@[simp] theorem State.modifyLaunch_inlets (s : State) (uid : Nat) (f : Launch → Launch) : (s.modifyLaunch uid f).inlets = s.inlets := rfl
@[simp] theorem State.modifyLaunch_records (s : State) (uid : Nat) (f : Launch → Launch) : (s.modifyLaunch uid f).records = s.records := rfl
@[simp] theorem State.modifyLaunch_regs (s : State) (uid : Nat) (f : Launch → Launch) : (s.modifyLaunch uid f).regs = s.regs := rfl
@[simp] theorem State.modifyLaunch_msix (s : State) (uid : Nat) (f : Launch → Launch) : (s.modifyLaunch uid f).msix = s.msix := rfl
@[simp] theorem State.modifyLaunch_clock (s : State) (uid : Nat) (f : Launch → Launch) : (s.modifyLaunch uid f).clock = s.clock := rfl
@[simp] theorem State.modifyLaunch_cycles (s : State) (uid : Nat) (f : Launch → Launch) : (s.modifyLaunch uid f).cycles = s.cycles := rfl
@[simp] theorem State.modifyLaunch_nextUid (s : State) (uid : Nat) (f : Launch → Launch) : (s.modifyLaunch uid f).nextUid = s.nextUid := rfl
@[simp] theorem State.modifyLaunch_occasion (s : State) (uid : Nat) (f : Launch → Launch) : (s.modifyLaunch uid f).occasion = s.occasion := rfl
@[simp] theorem State.modifyLaunch_moveCount (s : State) (uid : Nat) (f : Launch → Launch) : (s.modifyLaunch uid f).moveCount = s.moveCount := rfl
@[simp] theorem State.modifyLaunch_cur (s : State) (uid : Nat) (f : Launch → Launch) : (s.modifyLaunch uid f).cur = s.cur := rfl
@[simp] theorem State.modifyLaunch_ported (s : State) (uid : Nat) (f : Launch → Launch) : (s.modifyLaunch uid f).ported = s.ported := rfl
@[simp] theorem State.modifyLaunch_agenda (s : State) (uid : Nat) (f : Launch → Launch) : (s.modifyLaunch uid f).agenda = s.agenda := rfl
@[simp] theorem State.modifyLaunch_work_groups (s : State) (uid : Nat) (f : Launch → Launch) : (s.modifyLaunch uid f).work.groups = s.work.groups := rfl
@[simp] theorem State.modifyLaunch_work_teams (s : State) (uid : Nat) (f : Launch → Launch) : (s.modifyLaunch uid f).work.teams = s.work.teams := rfl
@[simp] theorem State.modifyLaunch_work_graphs (s : State) (uid : Nat) (f : Launch → Launch) : (s.modifyLaunch uid f).work.graphs = s.work.graphs := rfl
@[simp] theorem State.modifyLaunch_work_regions (s : State) (uid : Nat) (f : Launch → Launch) : (s.modifyLaunch uid f).work.regions = s.work.regions := rfl
@[simp] theorem State.modifyLaunch_work_springHeld (s : State) (uid : Nat) (f : Launch → Launch) : (s.modifyLaunch uid f).work.springHeld = s.work.springHeld := rfl
@[simp] theorem State.modifyLaunch_work_segs (s : State) (uid : Nat) (f : Launch → Launch) : (s.modifyLaunch uid f).work.segs = s.work.segs := rfl
@[simp] theorem State.modifyLaunch_work_pond (s : State) (uid : Nat) (f : Launch → Launch) : (s.modifyLaunch uid f).work.pond = s.work.pond := rfl
@[simp] theorem State.modifyLaunch_work_pondDesc (s : State) (uid : Nat) (f : Launch → Launch) : (s.modifyLaunch uid f).work.pondDesc = s.work.pondDesc := rfl
@[simp] theorem State.modifyLaunch_work_dates (s : State) (uid : Nat) (f : Launch → Launch) : (s.modifyLaunch uid f).work.dates = s.work.dates := rfl

@[simp] theorem State.modifyCtx_work (s : State) (num : Nat) (f : Ctx → Ctx) : (s.modifyCtx num f).work = s.work := rfl
@[simp] theorem State.modifyCtx_hbm (s : State) (num : Nat) (f : Ctx → Ctx) : (s.modifyCtx num f).hbm = s.hbm := rfl
@[simp] theorem State.modifyCtx_baseTag (s : State) (num : Nat) (f : Ctx → Ctx) : (s.modifyCtx num f).baseTag = s.baseTag := rfl
@[simp] theorem State.modifyCtx_side (s : State) (num : Nat) (f : Ctx → Ctx) : (s.modifyCtx num f).side = s.side := rfl
@[simp] theorem State.modifyCtx_host (s : State) (num : Nat) (f : Ctx → Ctx) : (s.modifyCtx num f).host = s.host := rfl
@[simp] theorem State.modifyCtx_peer (s : State) (num : Nat) (f : Ctx → Ctx) : (s.modifyCtx num f).peer = s.peer := rfl
@[simp] theorem State.modifyCtx_undo (s : State) (num : Nat) (f : Ctx → Ctx) : (s.modifyCtx num f).undo = s.undo := rfl
@[simp] theorem State.modifyCtx_deferred (s : State) (num : Nat) (f : Ctx → Ctx) : (s.modifyCtx num f).deferred = s.deferred := rfl
@[simp] theorem State.modifyCtx_leases (s : State) (num : Nat) (f : Ctx → Ctx) : (s.modifyCtx num f).leases = s.leases := rfl
@[simp] theorem State.modifyCtx_domain (s : State) (num : Nat) (f : Ctx → Ctx) : (s.modifyCtx num f).domain = s.domain := rfl
@[simp] theorem State.modifyCtx_snapCommitted (s : State) (num : Nat) (f : Ctx → Ctx) : (s.modifyCtx num f).snapCommitted = s.snapCommitted := rfl
@[simp] theorem State.modifyCtx_snapPending (s : State) (num : Nat) (f : Ctx → Ctx) : (s.modifyCtx num f).snapPending = s.snapPending := rfl
@[simp] theorem State.modifyCtx_inlets (s : State) (num : Nat) (f : Ctx → Ctx) : (s.modifyCtx num f).inlets = s.inlets := rfl
@[simp] theorem State.modifyCtx_records (s : State) (num : Nat) (f : Ctx → Ctx) : (s.modifyCtx num f).records = s.records := rfl
@[simp] theorem State.modifyCtx_regs (s : State) (num : Nat) (f : Ctx → Ctx) : (s.modifyCtx num f).regs = s.regs := rfl
@[simp] theorem State.modifyCtx_msix (s : State) (num : Nat) (f : Ctx → Ctx) : (s.modifyCtx num f).msix = s.msix := rfl
@[simp] theorem State.modifyCtx_clock (s : State) (num : Nat) (f : Ctx → Ctx) : (s.modifyCtx num f).clock = s.clock := rfl
@[simp] theorem State.modifyCtx_cycles (s : State) (num : Nat) (f : Ctx → Ctx) : (s.modifyCtx num f).cycles = s.cycles := rfl
@[simp] theorem State.modifyCtx_nextUid (s : State) (num : Nat) (f : Ctx → Ctx) : (s.modifyCtx num f).nextUid = s.nextUid := rfl
@[simp] theorem State.modifyCtx_occasion (s : State) (num : Nat) (f : Ctx → Ctx) : (s.modifyCtx num f).occasion = s.occasion := rfl
@[simp] theorem State.modifyCtx_moveCount (s : State) (num : Nat) (f : Ctx → Ctx) : (s.modifyCtx num f).moveCount = s.moveCount := rfl
@[simp] theorem State.modifyCtx_cur (s : State) (num : Nat) (f : Ctx → Ctx) : (s.modifyCtx num f).cur = s.cur := rfl
@[simp] theorem State.modifyCtx_ported (s : State) (num : Nat) (f : Ctx → Ctx) : (s.modifyCtx num f).ported = s.ported := rfl
@[simp] theorem State.modifyCtx_agenda (s : State) (num : Nat) (f : Ctx → Ctx) : (s.modifyCtx num f).agenda = s.agenda := rfl

@[simp] theorem State.nextOccasion_work (s : State) : s.nextOccasion.work = s.work := rfl
@[simp] theorem State.nextOccasion_ctxs (s : State) : s.nextOccasion.ctxs = s.ctxs := rfl
@[simp] theorem State.nextOccasion_hbm (s : State) : s.nextOccasion.hbm = s.hbm := rfl
@[simp] theorem State.nextOccasion_baseTag (s : State) : s.nextOccasion.baseTag = s.baseTag := rfl
@[simp] theorem State.nextOccasion_side (s : State) : s.nextOccasion.side = s.side := rfl
@[simp] theorem State.nextOccasion_host (s : State) : s.nextOccasion.host = s.host := rfl
@[simp] theorem State.nextOccasion_peer (s : State) : s.nextOccasion.peer = s.peer := rfl
@[simp] theorem State.nextOccasion_undo (s : State) : s.nextOccasion.undo = s.undo := rfl
@[simp] theorem State.nextOccasion_deferred (s : State) : s.nextOccasion.deferred = s.deferred := rfl
@[simp] theorem State.nextOccasion_leases (s : State) : s.nextOccasion.leases = s.leases := rfl
@[simp] theorem State.nextOccasion_domain (s : State) : s.nextOccasion.domain = s.domain := rfl
@[simp] theorem State.nextOccasion_snapCommitted (s : State) : s.nextOccasion.snapCommitted = s.snapCommitted := rfl
@[simp] theorem State.nextOccasion_snapPending (s : State) : s.nextOccasion.snapPending = s.snapPending := rfl
@[simp] theorem State.nextOccasion_inlets (s : State) : s.nextOccasion.inlets = s.inlets := rfl
@[simp] theorem State.nextOccasion_records (s : State) : s.nextOccasion.records = s.records := rfl
@[simp] theorem State.nextOccasion_regs (s : State) : s.nextOccasion.regs = s.regs := rfl
@[simp] theorem State.nextOccasion_msix (s : State) : s.nextOccasion.msix = s.msix := rfl
@[simp] theorem State.nextOccasion_clock (s : State) : s.nextOccasion.clock = s.clock := rfl
@[simp] theorem State.nextOccasion_cycles (s : State) : s.nextOccasion.cycles = s.cycles := rfl
@[simp] theorem State.nextOccasion_nextUid (s : State) : s.nextOccasion.nextUid = s.nextUid := rfl
@[simp] theorem State.nextOccasion_moveCount (s : State) : s.nextOccasion.moveCount = s.moveCount := rfl
@[simp] theorem State.nextOccasion_cur (s : State) : s.nextOccasion.cur = s.cur := rfl
@[simp] theorem State.nextOccasion_ported (s : State) : s.nextOccasion.ported = s.ported := rfl
@[simp] theorem State.nextOccasion_agenda (s : State) : s.nextOccasion.agenda = s.agenda := rfl

@[simp] theorem raiseVector_work (s : State) (v : Nat) : (raiseVector s v).work = s.work := rfl
@[simp] theorem raiseVector_ctxs (s : State) (v : Nat) : (raiseVector s v).ctxs = s.ctxs := rfl
@[simp] theorem raiseVector_hbm (s : State) (v : Nat) : (raiseVector s v).hbm = s.hbm := rfl
@[simp] theorem raiseVector_baseTag (s : State) (v : Nat) : (raiseVector s v).baseTag = s.baseTag := rfl
@[simp] theorem raiseVector_side (s : State) (v : Nat) : (raiseVector s v).side = s.side := rfl
@[simp] theorem raiseVector_host (s : State) (v : Nat) : (raiseVector s v).host = s.host := rfl
@[simp] theorem raiseVector_peer (s : State) (v : Nat) : (raiseVector s v).peer = s.peer := rfl
@[simp] theorem raiseVector_undo (s : State) (v : Nat) : (raiseVector s v).undo = s.undo := rfl
@[simp] theorem raiseVector_deferred (s : State) (v : Nat) : (raiseVector s v).deferred = s.deferred := rfl
@[simp] theorem raiseVector_leases (s : State) (v : Nat) : (raiseVector s v).leases = s.leases := rfl
@[simp] theorem raiseVector_domain (s : State) (v : Nat) : (raiseVector s v).domain = s.domain := rfl
@[simp] theorem raiseVector_snapCommitted (s : State) (v : Nat) : (raiseVector s v).snapCommitted = s.snapCommitted := rfl
@[simp] theorem raiseVector_snapPending (s : State) (v : Nat) : (raiseVector s v).snapPending = s.snapPending := rfl
@[simp] theorem raiseVector_inlets (s : State) (v : Nat) : (raiseVector s v).inlets = s.inlets := rfl
@[simp] theorem raiseVector_records (s : State) (v : Nat) : (raiseVector s v).records = s.records := rfl
@[simp] theorem raiseVector_regs (s : State) (v : Nat) : (raiseVector s v).regs = s.regs := rfl
@[simp] theorem raiseVector_clock (s : State) (v : Nat) : (raiseVector s v).clock = s.clock := rfl
@[simp] theorem raiseVector_cycles (s : State) (v : Nat) : (raiseVector s v).cycles = s.cycles := rfl
@[simp] theorem raiseVector_nextUid (s : State) (v : Nat) : (raiseVector s v).nextUid = s.nextUid := rfl
@[simp] theorem raiseVector_occasion (s : State) (v : Nat) : (raiseVector s v).occasion = s.occasion := rfl
@[simp] theorem raiseVector_moveCount (s : State) (v : Nat) : (raiseVector s v).moveCount = s.moveCount := rfl
@[simp] theorem raiseVector_cur (s : State) (v : Nat) : (raiseVector s v).cur = s.cur := rfl
@[simp] theorem raiseVector_ported (s : State) (v : Nat) : (raiseVector s v).ported = s.ported := rfl
@[simp] theorem raiseVector_agenda (s : State) (v : Nat) : (raiseVector s v).agenda = s.agenda := rfl

@[simp] theorem queueEntry_work (s : State) (g : Group) (p : Park) : (queueEntry s g p).work = s.work := rfl
@[simp] theorem queueEntry_hbm (s : State) (g : Group) (p : Park) : (queueEntry s g p).hbm = s.hbm := rfl
@[simp] theorem queueEntry_baseTag (s : State) (g : Group) (p : Park) : (queueEntry s g p).baseTag = s.baseTag := rfl
@[simp] theorem queueEntry_side (s : State) (g : Group) (p : Park) : (queueEntry s g p).side = s.side := rfl
@[simp] theorem queueEntry_host (s : State) (g : Group) (p : Park) : (queueEntry s g p).host = s.host := rfl
@[simp] theorem queueEntry_peer (s : State) (g : Group) (p : Park) : (queueEntry s g p).peer = s.peer := rfl
@[simp] theorem queueEntry_undo (s : State) (g : Group) (p : Park) : (queueEntry s g p).undo = s.undo := rfl
@[simp] theorem queueEntry_deferred (s : State) (g : Group) (p : Park) : (queueEntry s g p).deferred = s.deferred := rfl
@[simp] theorem queueEntry_leases (s : State) (g : Group) (p : Park) : (queueEntry s g p).leases = s.leases := rfl
@[simp] theorem queueEntry_domain (s : State) (g : Group) (p : Park) : (queueEntry s g p).domain = s.domain := rfl
@[simp] theorem queueEntry_snapCommitted (s : State) (g : Group) (p : Park) : (queueEntry s g p).snapCommitted = s.snapCommitted := rfl
@[simp] theorem queueEntry_snapPending (s : State) (g : Group) (p : Park) : (queueEntry s g p).snapPending = s.snapPending := rfl
@[simp] theorem queueEntry_inlets (s : State) (g : Group) (p : Park) : (queueEntry s g p).inlets = s.inlets := rfl
@[simp] theorem queueEntry_records (s : State) (g : Group) (p : Park) : (queueEntry s g p).records = s.records := rfl
@[simp] theorem queueEntry_regs (s : State) (g : Group) (p : Park) : (queueEntry s g p).regs = s.regs := rfl
@[simp] theorem queueEntry_msix (s : State) (g : Group) (p : Park) : (queueEntry s g p).msix = s.msix := rfl
@[simp] theorem queueEntry_clock (s : State) (g : Group) (p : Park) : (queueEntry s g p).clock = s.clock := rfl
@[simp] theorem queueEntry_cycles (s : State) (g : Group) (p : Park) : (queueEntry s g p).cycles = s.cycles := rfl
@[simp] theorem queueEntry_nextUid (s : State) (g : Group) (p : Park) : (queueEntry s g p).nextUid = s.nextUid := rfl
@[simp] theorem queueEntry_occasion (s : State) (g : Group) (p : Park) : (queueEntry s g p).occasion = s.occasion := rfl
@[simp] theorem queueEntry_moveCount (s : State) (g : Group) (p : Park) : (queueEntry s g p).moveCount = s.moveCount := rfl
@[simp] theorem queueEntry_cur (s : State) (g : Group) (p : Park) : (queueEntry s g p).cur = s.cur := rfl
@[simp] theorem queueEntry_ported (s : State) (g : Group) (p : Park) : (queueEntry s g p).ported = s.ported := rfl
@[simp] theorem queueEntry_agenda (s : State) (g : Group) (p : Park) : (queueEntry s g p).agenda = s.agenda := rfl

@[simp] theorem emitRecord_work (s : State) (a : RecordArgs) : (emitRecord s a).work = s.work := by simp only [emitRecord]; split <;> rfl
@[simp] theorem emitRecord_ctxs (s : State) (a : RecordArgs) : (emitRecord s a).ctxs = s.ctxs := by simp only [emitRecord]; split <;> rfl
@[simp] theorem emitRecord_hbm (s : State) (a : RecordArgs) : (emitRecord s a).hbm = s.hbm := by simp only [emitRecord]; split <;> rfl
@[simp] theorem emitRecord_baseTag (s : State) (a : RecordArgs) : (emitRecord s a).baseTag = s.baseTag := by simp only [emitRecord]; split <;> rfl
@[simp] theorem emitRecord_side (s : State) (a : RecordArgs) : (emitRecord s a).side = s.side := by simp only [emitRecord]; split <;> rfl
@[simp] theorem emitRecord_host (s : State) (a : RecordArgs) : (emitRecord s a).host = s.host := by simp only [emitRecord]; split <;> rfl
@[simp] theorem emitRecord_peer (s : State) (a : RecordArgs) : (emitRecord s a).peer = s.peer := by simp only [emitRecord]; split <;> rfl
@[simp] theorem emitRecord_undo (s : State) (a : RecordArgs) : (emitRecord s a).undo = s.undo := by simp only [emitRecord]; split <;> rfl
@[simp] theorem emitRecord_deferred (s : State) (a : RecordArgs) : (emitRecord s a).deferred = s.deferred := by simp only [emitRecord]; split <;> rfl
@[simp] theorem emitRecord_leases (s : State) (a : RecordArgs) : (emitRecord s a).leases = s.leases := by simp only [emitRecord]; split <;> rfl
@[simp] theorem emitRecord_domain (s : State) (a : RecordArgs) : (emitRecord s a).domain = s.domain := by simp only [emitRecord]; split <;> rfl
@[simp] theorem emitRecord_snapCommitted (s : State) (a : RecordArgs) : (emitRecord s a).snapCommitted = s.snapCommitted := by simp only [emitRecord]; split <;> rfl
@[simp] theorem emitRecord_snapPending (s : State) (a : RecordArgs) : (emitRecord s a).snapPending = s.snapPending := by simp only [emitRecord]; split <;> rfl
@[simp] theorem emitRecord_inlets (s : State) (a : RecordArgs) : (emitRecord s a).inlets = s.inlets := by simp only [emitRecord]; split <;> rfl
@[simp] theorem emitRecord_regs (s : State) (a : RecordArgs) : (emitRecord s a).regs = s.regs := by simp only [emitRecord]; split <;> rfl
@[simp] theorem emitRecord_msix (s : State) (a : RecordArgs) : (emitRecord s a).msix = s.msix := by simp only [emitRecord]; split <;> rfl
@[simp] theorem emitRecord_clock (s : State) (a : RecordArgs) : (emitRecord s a).clock = s.clock := by simp only [emitRecord]; split <;> rfl
@[simp] theorem emitRecord_cycles (s : State) (a : RecordArgs) : (emitRecord s a).cycles = s.cycles := by simp only [emitRecord]; split <;> rfl
@[simp] theorem emitRecord_nextUid (s : State) (a : RecordArgs) : (emitRecord s a).nextUid = s.nextUid := by simp only [emitRecord]; split <;> rfl
@[simp] theorem emitRecord_occasion (s : State) (a : RecordArgs) : (emitRecord s a).occasion = s.occasion := by simp only [emitRecord]; split <;> rfl
@[simp] theorem emitRecord_moveCount (s : State) (a : RecordArgs) : (emitRecord s a).moveCount = s.moveCount := by simp only [emitRecord]; split <;> rfl
@[simp] theorem emitRecord_cur (s : State) (a : RecordArgs) : (emitRecord s a).cur = s.cur := by simp only [emitRecord]; split <;> rfl
@[simp] theorem emitRecord_ported (s : State) (a : RecordArgs) : (emitRecord s a).ported = s.ported := by simp only [emitRecord]; split <;> rfl
@[simp] theorem emitRecord_agenda (s : State) (a : RecordArgs) : (emitRecord s a).agenda = s.agenda := by simp only [emitRecord]; split <;> rfl

@[simp] theorem Group.vput_uid (g : Group) (l r : Nat) (x : Word) : (g.vput l r x).uid = g.uid := rfl
@[simp] theorem Group.vput_ctx (g : Group) (l r : Nat) (x : Word) : (g.vput l r x).ctx = g.ctx := rfl
@[simp] theorem Group.vput_launch (g : Group) (l r : Nat) (x : Word) : (g.vput l r x).launch = g.launch := rfl
@[simp] theorem Group.vput_team (g : Group) (l r : Nat) (x : Word) : (g.vput l r x).team = g.team := rfl
@[simp] theorem Group.vput_role (g : Group) (l r : Nat) (x : Word) : (g.vput l r x).role = g.role := rfl
@[simp] theorem Group.vput_group (g : Group) (l r : Nat) (x : Word) : (g.vput l r x).group = g.group := rfl
@[simp] theorem Group.vput_core (g : Group) (l r : Nat) (x : Word) : (g.vput l r x).core = g.core := rfl
@[simp] theorem Group.vput_slot (g : Group) (l r : Nat) (x : Word) : (g.vput l r x).slot = g.slot := rfl
@[simp] theorem Group.vput_vbud (g : Group) (l r : Nat) (x : Word) : (g.vput l r x).vbud = g.vbud := rfl
@[simp] theorem Group.vput_sbud (g : Group) (l r : Nat) (x : Word) : (g.vput l r x).sbud = g.sbud := rfl
@[simp] theorem Group.vput_tbud (g : Group) (l r : Nat) (x : Word) : (g.vput l r x).tbud = g.tbud := rfl
@[simp] theorem Group.vput_abud (g : Group) (l r : Nat) (x : Word) : (g.vput l r x).abud = g.abud := rfl
@[simp] theorem Group.vput_threads (g : Group) (l r : Nat) (x : Word) : (g.vput l r x).threads = g.threads := rfl
@[simp] theorem Group.vput_sreg (g : Group) (l r : Nat) (x : Word) : (g.vput l r x).sreg = g.sreg := rfl
@[simp] theorem Group.vput_tile (g : Group) (l r : Nat) (x : Word) : (g.vput l r x).tile = g.tile := rfl
@[simp] theorem Group.vput_tfmt (g : Group) (l r : Nat) (x : Word) : (g.vput l r x).tfmt = g.tfmt := rfl
@[simp] theorem Group.vput_rscale (g : Group) (l r : Nat) (x : Word) : (g.vput l r x).rscale = g.rscale := rfl
@[simp] theorem Group.vput_rspec (g : Group) (l r : Nat) (x : Word) : (g.vput l r x).rspec = g.rspec := rfl
@[simp] theorem Group.vput_acc (g : Group) (l r : Nat) (x : Word) : (g.vput l r x).acc = g.acc := rfl
@[simp] theorem Group.vput_atag (g : Group) (l r : Nat) (x : Word) : (g.vput l r x).atag = g.atag := rfl
@[simp] theorem Group.vput_astep (g : Group) (l r : Nat) (x : Word) : (g.vput l r x).astep = g.astep := rfl
@[simp] theorem Group.vput_obsv (g : Group) (l r : Nat) (x : Word) : (g.vput l r x).obsv = g.obsv := rfl
@[simp] theorem Group.vput_stepctl (g : Group) (l r : Nat) (x : Word) : (g.vput l r x).stepctl = g.stepctl := rfl
@[simp] theorem Group.vput_ext (g : Group) (l r : Nat) (x : Word) : (g.vput l r x).ext = g.ext := rfl
@[simp] theorem Group.vput_issuing (g : Group) (l r : Nat) (x : Word) : (g.vput l r x).issuing = g.issuing := rfl
@[simp] theorem Group.vput_bars (g : Group) (l r : Nat) (x : Word) : (g.vput l r x).bars = g.bars := rfl
@[simp] theorem Group.vput_loads (g : Group) (l r : Nat) (x : Word) : (g.vput l r x).loads = g.loads := rfl
@[simp] theorem Group.vput_stores (g : Group) (l r : Nat) (x : Word) : (g.vput l r x).stores = g.stores := rfl
@[simp] theorem Group.vput_tiles (g : Group) (l r : Nat) (x : Word) : (g.vput l r x).tiles = g.tiles := rfl
@[simp] theorem Group.vput_stQueue (g : Group) (l r : Nat) (x : Word) : (g.vput l r x).stQueue = g.stQueue := rfl
@[simp] theorem Group.vput_nextIssue (g : Group) (l r : Nat) (x : Word) : (g.vput l r x).nextIssue = g.nextIssue := rfl
@[simp] theorem Group.vput_copies (g : Group) (l r : Nat) (x : Word) : (g.vput l r x).copies = g.copies := rfl
@[simp] theorem Group.vput_mmas (g : Group) (l r : Nat) (x : Word) : (g.vput l r x).mmas = g.mmas := rfl
@[simp] theorem Group.vput_frops (g : Group) (l r : Nat) (x : Word) : (g.vput l r x).frops = g.frops := rfl
@[simp] theorem Group.vput_clops (g : Group) (l r : Nat) (x : Word) : (g.vput l r x).clops = g.clops := rfl
@[simp] theorem Group.vput_cpSeq (g : Group) (l r : Nat) (x : Word) : (g.vput l r x).cpSeq = g.cpSeq := rfl
@[simp] theorem Group.vput_mxSeq (g : Group) (l r : Nat) (x : Word) : (g.vput l r x).mxSeq = g.mxSeq := rfl
@[simp] theorem Group.vput_clSeq (g : Group) (l r : Nat) (x : Word) : (g.vput l r x).clSeq = g.clSeq := rfl
@[simp] theorem Group.vput_frSeq (g : Group) (l r : Nat) (x : Word) : (g.vput l r x).frSeq = g.frSeq := rfl
@[simp] theorem Group.vput_cp (g : Group) (l r : Nat) (x : Word) : (g.vput l r x).cp = g.cp := rfl
@[simp] theorem Group.vput_cl (g : Group) (l r : Nat) (x : Word) : (g.vput l r x).cl = g.cl := rfl
@[simp] theorem Group.vput_firing (g : Group) (l r : Nat) (x : Word) : (g.vput l r x).firing = g.firing := rfl
@[simp] theorem Group.vput_choice (g : Group) (l r : Nat) (x : Word) : (g.vput l r x).choice = g.choice := rfl
@[simp] theorem Group.vput_sched (g : Group) (l r : Nat) (x : Word) : (g.vput l r x).sched = g.sched := rfl
@[simp] theorem Group.vput_waited (g : Group) (l r : Nat) (x : Word) : (g.vput l r x).waited = g.waited := rfl
@[simp] theorem Group.vput_ages (g : Group) (l r : Nat) (x : Word) : (g.vput l r x).ages = g.ages := rfl
@[simp] theorem Group.vput_elig (g : Group) (l r : Nat) (x : Word) : (g.vput l r x).elig = g.elig := rfl
@[simp] theorem Group.vput_promoted (g : Group) (l r : Nat) (x : Word) : (g.vput l r x).promoted = g.promoted := rfl
@[simp] theorem Group.vput_entered (g : Group) (l r : Nat) (x : Word) : (g.vput l r x).entered = g.entered := rfl
@[simp] theorem Group.vput_restoring (g : Group) (l r : Nat) (x : Word) : (g.vput l r x).restoring = g.restoring := rfl
@[simp] theorem Group.vput_released (g : Group) (l r : Nat) (x : Word) : (g.vput l r x).released = g.released := rfl
@[simp] theorem Group.vput_park (g : Group) (l r : Nat) (x : Word) : (g.vput l r x).park = g.park := rfl
@[simp] theorem Group.vput_held (g : Group) (l r : Nat) (x : Word) : (g.vput l r x).held = g.held := rfl
@[simp] theorem Group.vput_gsaved (g : Group) (l r : Nat) (x : Word) : (g.vput l r x).gsaved = g.gsaved := rfl
@[simp] theorem Group.vput_savedOcc (g : Group) (l r : Nat) (x : Word) : (g.vput l r x).savedOcc = g.savedOcc := rfl
@[simp] theorem Group.vput_action (g : Group) (l r : Nat) (x : Word) : (g.vput l r x).action = g.action := rfl
@[simp] theorem Group.vput_mask (g : Group) (l r : Nat) (x : Word) : (g.vput l r x).mask = g.mask := rfl
@[simp] theorem Group.vput_badEnd (g : Group) (l r : Nat) (x : Word) : (g.vput l r x).badEnd = g.badEnd := rfl

@[simp] theorem Group.sregPut_uid (g : Group) (r : Nat) (x : Word) : (g.sregPut r x).uid = g.uid := rfl
@[simp] theorem Group.sregPut_ctx (g : Group) (r : Nat) (x : Word) : (g.sregPut r x).ctx = g.ctx := rfl
@[simp] theorem Group.sregPut_launch (g : Group) (r : Nat) (x : Word) : (g.sregPut r x).launch = g.launch := rfl
@[simp] theorem Group.sregPut_team (g : Group) (r : Nat) (x : Word) : (g.sregPut r x).team = g.team := rfl
@[simp] theorem Group.sregPut_role (g : Group) (r : Nat) (x : Word) : (g.sregPut r x).role = g.role := rfl
@[simp] theorem Group.sregPut_group (g : Group) (r : Nat) (x : Word) : (g.sregPut r x).group = g.group := rfl
@[simp] theorem Group.sregPut_core (g : Group) (r : Nat) (x : Word) : (g.sregPut r x).core = g.core := rfl
@[simp] theorem Group.sregPut_slot (g : Group) (r : Nat) (x : Word) : (g.sregPut r x).slot = g.slot := rfl
@[simp] theorem Group.sregPut_vbud (g : Group) (r : Nat) (x : Word) : (g.sregPut r x).vbud = g.vbud := rfl
@[simp] theorem Group.sregPut_sbud (g : Group) (r : Nat) (x : Word) : (g.sregPut r x).sbud = g.sbud := rfl
@[simp] theorem Group.sregPut_tbud (g : Group) (r : Nat) (x : Word) : (g.sregPut r x).tbud = g.tbud := rfl
@[simp] theorem Group.sregPut_abud (g : Group) (r : Nat) (x : Word) : (g.sregPut r x).abud = g.abud := rfl
@[simp] theorem Group.sregPut_threads (g : Group) (r : Nat) (x : Word) : (g.sregPut r x).threads = g.threads := rfl
@[simp] theorem Group.sregPut_v (g : Group) (r : Nat) (x : Word) : (g.sregPut r x).v = g.v := rfl
@[simp] theorem Group.sregPut_tile (g : Group) (r : Nat) (x : Word) : (g.sregPut r x).tile = g.tile := rfl
@[simp] theorem Group.sregPut_tfmt (g : Group) (r : Nat) (x : Word) : (g.sregPut r x).tfmt = g.tfmt := rfl
@[simp] theorem Group.sregPut_rscale (g : Group) (r : Nat) (x : Word) : (g.sregPut r x).rscale = g.rscale := rfl
@[simp] theorem Group.sregPut_rspec (g : Group) (r : Nat) (x : Word) : (g.sregPut r x).rspec = g.rspec := rfl
@[simp] theorem Group.sregPut_acc (g : Group) (r : Nat) (x : Word) : (g.sregPut r x).acc = g.acc := rfl
@[simp] theorem Group.sregPut_atag (g : Group) (r : Nat) (x : Word) : (g.sregPut r x).atag = g.atag := rfl
@[simp] theorem Group.sregPut_astep (g : Group) (r : Nat) (x : Word) : (g.sregPut r x).astep = g.astep := rfl
@[simp] theorem Group.sregPut_obsv (g : Group) (r : Nat) (x : Word) : (g.sregPut r x).obsv = g.obsv := rfl
@[simp] theorem Group.sregPut_stepctl (g : Group) (r : Nat) (x : Word) : (g.sregPut r x).stepctl = g.stepctl := rfl
@[simp] theorem Group.sregPut_ext (g : Group) (r : Nat) (x : Word) : (g.sregPut r x).ext = g.ext := rfl
@[simp] theorem Group.sregPut_issuing (g : Group) (r : Nat) (x : Word) : (g.sregPut r x).issuing = g.issuing := rfl
@[simp] theorem Group.sregPut_bars (g : Group) (r : Nat) (x : Word) : (g.sregPut r x).bars = g.bars := rfl
@[simp] theorem Group.sregPut_loads (g : Group) (r : Nat) (x : Word) : (g.sregPut r x).loads = g.loads := rfl
@[simp] theorem Group.sregPut_stores (g : Group) (r : Nat) (x : Word) : (g.sregPut r x).stores = g.stores := rfl
@[simp] theorem Group.sregPut_tiles (g : Group) (r : Nat) (x : Word) : (g.sregPut r x).tiles = g.tiles := rfl
@[simp] theorem Group.sregPut_stQueue (g : Group) (r : Nat) (x : Word) : (g.sregPut r x).stQueue = g.stQueue := rfl
@[simp] theorem Group.sregPut_nextIssue (g : Group) (r : Nat) (x : Word) : (g.sregPut r x).nextIssue = g.nextIssue := rfl
@[simp] theorem Group.sregPut_copies (g : Group) (r : Nat) (x : Word) : (g.sregPut r x).copies = g.copies := rfl
@[simp] theorem Group.sregPut_mmas (g : Group) (r : Nat) (x : Word) : (g.sregPut r x).mmas = g.mmas := rfl
@[simp] theorem Group.sregPut_frops (g : Group) (r : Nat) (x : Word) : (g.sregPut r x).frops = g.frops := rfl
@[simp] theorem Group.sregPut_clops (g : Group) (r : Nat) (x : Word) : (g.sregPut r x).clops = g.clops := rfl
@[simp] theorem Group.sregPut_cpSeq (g : Group) (r : Nat) (x : Word) : (g.sregPut r x).cpSeq = g.cpSeq := rfl
@[simp] theorem Group.sregPut_mxSeq (g : Group) (r : Nat) (x : Word) : (g.sregPut r x).mxSeq = g.mxSeq := rfl
@[simp] theorem Group.sregPut_clSeq (g : Group) (r : Nat) (x : Word) : (g.sregPut r x).clSeq = g.clSeq := rfl
@[simp] theorem Group.sregPut_frSeq (g : Group) (r : Nat) (x : Word) : (g.sregPut r x).frSeq = g.frSeq := rfl
@[simp] theorem Group.sregPut_cp (g : Group) (r : Nat) (x : Word) : (g.sregPut r x).cp = g.cp := rfl
@[simp] theorem Group.sregPut_cl (g : Group) (r : Nat) (x : Word) : (g.sregPut r x).cl = g.cl := rfl
@[simp] theorem Group.sregPut_firing (g : Group) (r : Nat) (x : Word) : (g.sregPut r x).firing = g.firing := rfl
@[simp] theorem Group.sregPut_choice (g : Group) (r : Nat) (x : Word) : (g.sregPut r x).choice = g.choice := rfl
@[simp] theorem Group.sregPut_sched (g : Group) (r : Nat) (x : Word) : (g.sregPut r x).sched = g.sched := rfl
@[simp] theorem Group.sregPut_waited (g : Group) (r : Nat) (x : Word) : (g.sregPut r x).waited = g.waited := rfl
@[simp] theorem Group.sregPut_ages (g : Group) (r : Nat) (x : Word) : (g.sregPut r x).ages = g.ages := rfl
@[simp] theorem Group.sregPut_elig (g : Group) (r : Nat) (x : Word) : (g.sregPut r x).elig = g.elig := rfl
@[simp] theorem Group.sregPut_promoted (g : Group) (r : Nat) (x : Word) : (g.sregPut r x).promoted = g.promoted := rfl
@[simp] theorem Group.sregPut_entered (g : Group) (r : Nat) (x : Word) : (g.sregPut r x).entered = g.entered := rfl
@[simp] theorem Group.sregPut_restoring (g : Group) (r : Nat) (x : Word) : (g.sregPut r x).restoring = g.restoring := rfl
@[simp] theorem Group.sregPut_released (g : Group) (r : Nat) (x : Word) : (g.sregPut r x).released = g.released := rfl
@[simp] theorem Group.sregPut_park (g : Group) (r : Nat) (x : Word) : (g.sregPut r x).park = g.park := rfl
@[simp] theorem Group.sregPut_held (g : Group) (r : Nat) (x : Word) : (g.sregPut r x).held = g.held := rfl
@[simp] theorem Group.sregPut_gsaved (g : Group) (r : Nat) (x : Word) : (g.sregPut r x).gsaved = g.gsaved := rfl
@[simp] theorem Group.sregPut_savedOcc (g : Group) (r : Nat) (x : Word) : (g.sregPut r x).savedOcc = g.savedOcc := rfl
@[simp] theorem Group.sregPut_action (g : Group) (r : Nat) (x : Word) : (g.sregPut r x).action = g.action := rfl
@[simp] theorem Group.sregPut_mask (g : Group) (r : Nat) (x : Word) : (g.sregPut r x).mask = g.mask := rfl
@[simp] theorem Group.sregPut_badEnd (g : Group) (r : Nat) (x : Word) : (g.sregPut r x).badEnd = g.badEnd := rfl

@[simp] theorem Group.modifyThread_uid (g : Group) (l : Nat) (f : Thread → Thread) : (g.modifyThread l f).uid = g.uid := rfl
@[simp] theorem Group.modifyThread_ctx (g : Group) (l : Nat) (f : Thread → Thread) : (g.modifyThread l f).ctx = g.ctx := rfl
@[simp] theorem Group.modifyThread_launch (g : Group) (l : Nat) (f : Thread → Thread) : (g.modifyThread l f).launch = g.launch := rfl
@[simp] theorem Group.modifyThread_team (g : Group) (l : Nat) (f : Thread → Thread) : (g.modifyThread l f).team = g.team := rfl
@[simp] theorem Group.modifyThread_role (g : Group) (l : Nat) (f : Thread → Thread) : (g.modifyThread l f).role = g.role := rfl
@[simp] theorem Group.modifyThread_group (g : Group) (l : Nat) (f : Thread → Thread) : (g.modifyThread l f).group = g.group := rfl
@[simp] theorem Group.modifyThread_core (g : Group) (l : Nat) (f : Thread → Thread) : (g.modifyThread l f).core = g.core := rfl
@[simp] theorem Group.modifyThread_slot (g : Group) (l : Nat) (f : Thread → Thread) : (g.modifyThread l f).slot = g.slot := rfl
@[simp] theorem Group.modifyThread_vbud (g : Group) (l : Nat) (f : Thread → Thread) : (g.modifyThread l f).vbud = g.vbud := rfl
@[simp] theorem Group.modifyThread_sbud (g : Group) (l : Nat) (f : Thread → Thread) : (g.modifyThread l f).sbud = g.sbud := rfl
@[simp] theorem Group.modifyThread_tbud (g : Group) (l : Nat) (f : Thread → Thread) : (g.modifyThread l f).tbud = g.tbud := rfl
@[simp] theorem Group.modifyThread_abud (g : Group) (l : Nat) (f : Thread → Thread) : (g.modifyThread l f).abud = g.abud := rfl
@[simp] theorem Group.modifyThread_v (g : Group) (l : Nat) (f : Thread → Thread) : (g.modifyThread l f).v = g.v := rfl
@[simp] theorem Group.modifyThread_sreg (g : Group) (l : Nat) (f : Thread → Thread) : (g.modifyThread l f).sreg = g.sreg := rfl
@[simp] theorem Group.modifyThread_tile (g : Group) (l : Nat) (f : Thread → Thread) : (g.modifyThread l f).tile = g.tile := rfl
@[simp] theorem Group.modifyThread_tfmt (g : Group) (l : Nat) (f : Thread → Thread) : (g.modifyThread l f).tfmt = g.tfmt := rfl
@[simp] theorem Group.modifyThread_rscale (g : Group) (l : Nat) (f : Thread → Thread) : (g.modifyThread l f).rscale = g.rscale := rfl
@[simp] theorem Group.modifyThread_rspec (g : Group) (l : Nat) (f : Thread → Thread) : (g.modifyThread l f).rspec = g.rspec := rfl
@[simp] theorem Group.modifyThread_acc (g : Group) (l : Nat) (f : Thread → Thread) : (g.modifyThread l f).acc = g.acc := rfl
@[simp] theorem Group.modifyThread_atag (g : Group) (l : Nat) (f : Thread → Thread) : (g.modifyThread l f).atag = g.atag := rfl
@[simp] theorem Group.modifyThread_astep (g : Group) (l : Nat) (f : Thread → Thread) : (g.modifyThread l f).astep = g.astep := rfl
@[simp] theorem Group.modifyThread_obsv (g : Group) (l : Nat) (f : Thread → Thread) : (g.modifyThread l f).obsv = g.obsv := rfl
@[simp] theorem Group.modifyThread_stepctl (g : Group) (l : Nat) (f : Thread → Thread) : (g.modifyThread l f).stepctl = g.stepctl := rfl
@[simp] theorem Group.modifyThread_ext (g : Group) (l : Nat) (f : Thread → Thread) : (g.modifyThread l f).ext = g.ext := rfl
@[simp] theorem Group.modifyThread_issuing (g : Group) (l : Nat) (f : Thread → Thread) : (g.modifyThread l f).issuing = g.issuing := rfl
@[simp] theorem Group.modifyThread_bars (g : Group) (l : Nat) (f : Thread → Thread) : (g.modifyThread l f).bars = g.bars := rfl
@[simp] theorem Group.modifyThread_loads (g : Group) (l : Nat) (f : Thread → Thread) : (g.modifyThread l f).loads = g.loads := rfl
@[simp] theorem Group.modifyThread_stores (g : Group) (l : Nat) (f : Thread → Thread) : (g.modifyThread l f).stores = g.stores := rfl
@[simp] theorem Group.modifyThread_tiles (g : Group) (l : Nat) (f : Thread → Thread) : (g.modifyThread l f).tiles = g.tiles := rfl
@[simp] theorem Group.modifyThread_stQueue (g : Group) (l : Nat) (f : Thread → Thread) : (g.modifyThread l f).stQueue = g.stQueue := rfl
@[simp] theorem Group.modifyThread_nextIssue (g : Group) (l : Nat) (f : Thread → Thread) : (g.modifyThread l f).nextIssue = g.nextIssue := rfl
@[simp] theorem Group.modifyThread_copies (g : Group) (l : Nat) (f : Thread → Thread) : (g.modifyThread l f).copies = g.copies := rfl
@[simp] theorem Group.modifyThread_mmas (g : Group) (l : Nat) (f : Thread → Thread) : (g.modifyThread l f).mmas = g.mmas := rfl
@[simp] theorem Group.modifyThread_frops (g : Group) (l : Nat) (f : Thread → Thread) : (g.modifyThread l f).frops = g.frops := rfl
@[simp] theorem Group.modifyThread_clops (g : Group) (l : Nat) (f : Thread → Thread) : (g.modifyThread l f).clops = g.clops := rfl
@[simp] theorem Group.modifyThread_cpSeq (g : Group) (l : Nat) (f : Thread → Thread) : (g.modifyThread l f).cpSeq = g.cpSeq := rfl
@[simp] theorem Group.modifyThread_mxSeq (g : Group) (l : Nat) (f : Thread → Thread) : (g.modifyThread l f).mxSeq = g.mxSeq := rfl
@[simp] theorem Group.modifyThread_clSeq (g : Group) (l : Nat) (f : Thread → Thread) : (g.modifyThread l f).clSeq = g.clSeq := rfl
@[simp] theorem Group.modifyThread_frSeq (g : Group) (l : Nat) (f : Thread → Thread) : (g.modifyThread l f).frSeq = g.frSeq := rfl
@[simp] theorem Group.modifyThread_cp (g : Group) (l : Nat) (f : Thread → Thread) : (g.modifyThread l f).cp = g.cp := rfl
@[simp] theorem Group.modifyThread_cl (g : Group) (l : Nat) (f : Thread → Thread) : (g.modifyThread l f).cl = g.cl := rfl
@[simp] theorem Group.modifyThread_firing (g : Group) (l : Nat) (f : Thread → Thread) : (g.modifyThread l f).firing = g.firing := rfl
@[simp] theorem Group.modifyThread_choice (g : Group) (l : Nat) (f : Thread → Thread) : (g.modifyThread l f).choice = g.choice := rfl
@[simp] theorem Group.modifyThread_sched (g : Group) (l : Nat) (f : Thread → Thread) : (g.modifyThread l f).sched = g.sched := rfl
@[simp] theorem Group.modifyThread_waited (g : Group) (l : Nat) (f : Thread → Thread) : (g.modifyThread l f).waited = g.waited := rfl
@[simp] theorem Group.modifyThread_ages (g : Group) (l : Nat) (f : Thread → Thread) : (g.modifyThread l f).ages = g.ages := rfl
@[simp] theorem Group.modifyThread_elig (g : Group) (l : Nat) (f : Thread → Thread) : (g.modifyThread l f).elig = g.elig := rfl
@[simp] theorem Group.modifyThread_promoted (g : Group) (l : Nat) (f : Thread → Thread) : (g.modifyThread l f).promoted = g.promoted := rfl
@[simp] theorem Group.modifyThread_entered (g : Group) (l : Nat) (f : Thread → Thread) : (g.modifyThread l f).entered = g.entered := rfl
@[simp] theorem Group.modifyThread_restoring (g : Group) (l : Nat) (f : Thread → Thread) : (g.modifyThread l f).restoring = g.restoring := rfl
@[simp] theorem Group.modifyThread_released (g : Group) (l : Nat) (f : Thread → Thread) : (g.modifyThread l f).released = g.released := rfl
@[simp] theorem Group.modifyThread_park (g : Group) (l : Nat) (f : Thread → Thread) : (g.modifyThread l f).park = g.park := rfl
@[simp] theorem Group.modifyThread_held (g : Group) (l : Nat) (f : Thread → Thread) : (g.modifyThread l f).held = g.held := rfl
@[simp] theorem Group.modifyThread_gsaved (g : Group) (l : Nat) (f : Thread → Thread) : (g.modifyThread l f).gsaved = g.gsaved := rfl
@[simp] theorem Group.modifyThread_savedOcc (g : Group) (l : Nat) (f : Thread → Thread) : (g.modifyThread l f).savedOcc = g.savedOcc := rfl
@[simp] theorem Group.modifyThread_action (g : Group) (l : Nat) (f : Thread → Thread) : (g.modifyThread l f).action = g.action := rfl
@[simp] theorem Group.modifyThread_mask (g : Group) (l : Nat) (f : Thread → Thread) : (g.modifyThread l f).mask = g.mask := rfl
@[simp] theorem Group.modifyThread_badEnd (g : Group) (l : Nat) (f : Thread → Thread) : (g.modifyThread l f).badEnd = g.badEnd := rfl

@[simp] theorem Group.pput_uid (g : Group) (l p : Nat) (x : Bool) : (g.pput l p x).uid = g.uid := rfl
@[simp] theorem Group.pput_ctx (g : Group) (l p : Nat) (x : Bool) : (g.pput l p x).ctx = g.ctx := rfl
@[simp] theorem Group.pput_launch (g : Group) (l p : Nat) (x : Bool) : (g.pput l p x).launch = g.launch := rfl
@[simp] theorem Group.pput_team (g : Group) (l p : Nat) (x : Bool) : (g.pput l p x).team = g.team := rfl
@[simp] theorem Group.pput_role (g : Group) (l p : Nat) (x : Bool) : (g.pput l p x).role = g.role := rfl
@[simp] theorem Group.pput_group (g : Group) (l p : Nat) (x : Bool) : (g.pput l p x).group = g.group := rfl
@[simp] theorem Group.pput_core (g : Group) (l p : Nat) (x : Bool) : (g.pput l p x).core = g.core := rfl
@[simp] theorem Group.pput_slot (g : Group) (l p : Nat) (x : Bool) : (g.pput l p x).slot = g.slot := rfl
@[simp] theorem Group.pput_vbud (g : Group) (l p : Nat) (x : Bool) : (g.pput l p x).vbud = g.vbud := rfl
@[simp] theorem Group.pput_sbud (g : Group) (l p : Nat) (x : Bool) : (g.pput l p x).sbud = g.sbud := rfl
@[simp] theorem Group.pput_tbud (g : Group) (l p : Nat) (x : Bool) : (g.pput l p x).tbud = g.tbud := rfl
@[simp] theorem Group.pput_abud (g : Group) (l p : Nat) (x : Bool) : (g.pput l p x).abud = g.abud := rfl
@[simp] theorem Group.pput_v (g : Group) (l p : Nat) (x : Bool) : (g.pput l p x).v = g.v := rfl
@[simp] theorem Group.pput_sreg (g : Group) (l p : Nat) (x : Bool) : (g.pput l p x).sreg = g.sreg := rfl
@[simp] theorem Group.pput_tile (g : Group) (l p : Nat) (x : Bool) : (g.pput l p x).tile = g.tile := rfl
@[simp] theorem Group.pput_tfmt (g : Group) (l p : Nat) (x : Bool) : (g.pput l p x).tfmt = g.tfmt := rfl
@[simp] theorem Group.pput_rscale (g : Group) (l p : Nat) (x : Bool) : (g.pput l p x).rscale = g.rscale := rfl
@[simp] theorem Group.pput_rspec (g : Group) (l p : Nat) (x : Bool) : (g.pput l p x).rspec = g.rspec := rfl
@[simp] theorem Group.pput_acc (g : Group) (l p : Nat) (x : Bool) : (g.pput l p x).acc = g.acc := rfl
@[simp] theorem Group.pput_atag (g : Group) (l p : Nat) (x : Bool) : (g.pput l p x).atag = g.atag := rfl
@[simp] theorem Group.pput_astep (g : Group) (l p : Nat) (x : Bool) : (g.pput l p x).astep = g.astep := rfl
@[simp] theorem Group.pput_obsv (g : Group) (l p : Nat) (x : Bool) : (g.pput l p x).obsv = g.obsv := rfl
@[simp] theorem Group.pput_stepctl (g : Group) (l p : Nat) (x : Bool) : (g.pput l p x).stepctl = g.stepctl := rfl
@[simp] theorem Group.pput_ext (g : Group) (l p : Nat) (x : Bool) : (g.pput l p x).ext = g.ext := rfl
@[simp] theorem Group.pput_issuing (g : Group) (l p : Nat) (x : Bool) : (g.pput l p x).issuing = g.issuing := rfl
@[simp] theorem Group.pput_bars (g : Group) (l p : Nat) (x : Bool) : (g.pput l p x).bars = g.bars := rfl
@[simp] theorem Group.pput_loads (g : Group) (l p : Nat) (x : Bool) : (g.pput l p x).loads = g.loads := rfl
@[simp] theorem Group.pput_stores (g : Group) (l p : Nat) (x : Bool) : (g.pput l p x).stores = g.stores := rfl
@[simp] theorem Group.pput_tiles (g : Group) (l p : Nat) (x : Bool) : (g.pput l p x).tiles = g.tiles := rfl
@[simp] theorem Group.pput_stQueue (g : Group) (l p : Nat) (x : Bool) : (g.pput l p x).stQueue = g.stQueue := rfl
@[simp] theorem Group.pput_nextIssue (g : Group) (l p : Nat) (x : Bool) : (g.pput l p x).nextIssue = g.nextIssue := rfl
@[simp] theorem Group.pput_copies (g : Group) (l p : Nat) (x : Bool) : (g.pput l p x).copies = g.copies := rfl
@[simp] theorem Group.pput_mmas (g : Group) (l p : Nat) (x : Bool) : (g.pput l p x).mmas = g.mmas := rfl
@[simp] theorem Group.pput_frops (g : Group) (l p : Nat) (x : Bool) : (g.pput l p x).frops = g.frops := rfl
@[simp] theorem Group.pput_clops (g : Group) (l p : Nat) (x : Bool) : (g.pput l p x).clops = g.clops := rfl
@[simp] theorem Group.pput_cpSeq (g : Group) (l p : Nat) (x : Bool) : (g.pput l p x).cpSeq = g.cpSeq := rfl
@[simp] theorem Group.pput_mxSeq (g : Group) (l p : Nat) (x : Bool) : (g.pput l p x).mxSeq = g.mxSeq := rfl
@[simp] theorem Group.pput_clSeq (g : Group) (l p : Nat) (x : Bool) : (g.pput l p x).clSeq = g.clSeq := rfl
@[simp] theorem Group.pput_frSeq (g : Group) (l p : Nat) (x : Bool) : (g.pput l p x).frSeq = g.frSeq := rfl
@[simp] theorem Group.pput_cp (g : Group) (l p : Nat) (x : Bool) : (g.pput l p x).cp = g.cp := rfl
@[simp] theorem Group.pput_cl (g : Group) (l p : Nat) (x : Bool) : (g.pput l p x).cl = g.cl := rfl
@[simp] theorem Group.pput_firing (g : Group) (l p : Nat) (x : Bool) : (g.pput l p x).firing = g.firing := rfl
@[simp] theorem Group.pput_choice (g : Group) (l p : Nat) (x : Bool) : (g.pput l p x).choice = g.choice := rfl
@[simp] theorem Group.pput_sched (g : Group) (l p : Nat) (x : Bool) : (g.pput l p x).sched = g.sched := rfl
@[simp] theorem Group.pput_waited (g : Group) (l p : Nat) (x : Bool) : (g.pput l p x).waited = g.waited := rfl
@[simp] theorem Group.pput_ages (g : Group) (l p : Nat) (x : Bool) : (g.pput l p x).ages = g.ages := rfl
@[simp] theorem Group.pput_elig (g : Group) (l p : Nat) (x : Bool) : (g.pput l p x).elig = g.elig := rfl
@[simp] theorem Group.pput_promoted (g : Group) (l p : Nat) (x : Bool) : (g.pput l p x).promoted = g.promoted := rfl
@[simp] theorem Group.pput_entered (g : Group) (l p : Nat) (x : Bool) : (g.pput l p x).entered = g.entered := rfl
@[simp] theorem Group.pput_restoring (g : Group) (l p : Nat) (x : Bool) : (g.pput l p x).restoring = g.restoring := rfl
@[simp] theorem Group.pput_released (g : Group) (l p : Nat) (x : Bool) : (g.pput l p x).released = g.released := rfl
@[simp] theorem Group.pput_park (g : Group) (l p : Nat) (x : Bool) : (g.pput l p x).park = g.park := rfl
@[simp] theorem Group.pput_held (g : Group) (l p : Nat) (x : Bool) : (g.pput l p x).held = g.held := rfl
@[simp] theorem Group.pput_gsaved (g : Group) (l p : Nat) (x : Bool) : (g.pput l p x).gsaved = g.gsaved := rfl
@[simp] theorem Group.pput_savedOcc (g : Group) (l p : Nat) (x : Bool) : (g.pput l p x).savedOcc = g.savedOcc := rfl
@[simp] theorem Group.pput_action (g : Group) (l p : Nat) (x : Bool) : (g.pput l p x).action = g.action := rfl
@[simp] theorem Group.pput_mask (g : Group) (l p : Nat) (x : Bool) : (g.pput l p x).mask = g.mask := rfl
@[simp] theorem Group.pput_badEnd (g : Group) (l p : Nat) (x : Bool) : (g.pput l p x).badEnd = g.badEnd := rfl

end Sys2Proof.Machine
end

