-- ==== Sys2Proof/Laws/Group.lean ====
section
/-! SUPPORT. Laws of a group's threads and registers: reading after writing, and what the operations on many lanes do. -/
namespace Sys2Proof.Machine

/-! ## Lists -/

/-- Reading a list after a change at an index. -/
theorem getD_modifyAt {α : Type} (f : α → α) (l : List α) (n k : Nat) (d : α) :
    (modifyAt f l n).getD k d = if k = n ∧ n < l.length then f (l.getD k d) else l.getD k d := by
  induction l generalizing n k with
  | nil => simp [modifyAt]
  | cons x r ih =>
    cases n with
    | zero =>
      cases k with
      | zero => simp [modifyAt]
      | succ k => simp [modifyAt]
    | succ n =>
      cases k with
      | zero => simp [modifyAt]
      | succ k => simp only [modifyAt, List.getD_cons_succ, List.length_cons]; rw [ih]; simp

/-- A change at an index keeps the length. -/
@[simp] theorem modifyAt_length {α : Type} (f : α → α) (l : List α) (n : Nat) : (modifyAt f l n).length = l.length := by
  induction l generalizing n with
  | nil => rfl
  | cons x r ih => cases n <;> simp [modifyAt, ih]

namespace Group

/-- The thread of a lane after a change to one thread. -/
theorem thread_modifyThread (g : Group) (l k : Nat) (f : Thread → Thread) :
    (g.modifyThread l f).thread k = if k = l ∧ l < g.threads.length then f (g.thread k) else g.thread k :=
  getD_modifyAt f g.threads l k noThread

/-- A change to a thread keeps their number. -/
@[simp] theorem threads_length_modifyThread (g : Group) (l : Nat) (f : Thread → Thread) :
    (g.modifyThread l f).threads.length = g.threads.length := modifyAt_length f g.threads l

/-- Registers of different lanes have different keys. -/
theorem vkey_inj {l l' r r' : Nat} (hr : r < 256) (hr' : r' < 256) : vkey l r = vkey l' r' ↔ l = l' ∧ r = r' := by
  unfold vkey
  omega

/-- V[r'] of a lane after a write of V[r]. -/
theorem vget_vput {g : Group} (h : swf 0 g.v = true) {l r l' r' : Nat} (hr : r < 256) (hr' : r' < 256) (x : Word) :
    (g.vput l r x).vget l' r' = if l' = l ∧ r' = r then x else g.vget l' r' := by
  simp only [vget, vput]
  rw [sget_sput _ _ _ h]
  simp only [vkey_inj hr' hr]

/-- A write of a V register keeps the canonical form. -/
theorem vput_wf {g : Group} (h : swf 0 g.v = true) (l r : Nat) (x : Word) : swf 0 (g.vput l r x).v = true := swf_sput _ _ h

/-- S[r'] after a write of S[r]. -/
theorem sregGet_sregPut {g : Group} (h : swf 0 g.sreg = true) (r r' : Nat) (x : Word) :
    (g.sregPut r x).sregGet r' = if r' = r then x else g.sregGet r' := sget_sput _ _ _ h

/-- A write of a predicate leaves V registers as they were. -/
@[simp] theorem vget_pput (g : Group) (l p : Nat) (x : Bool) (l' r : Nat) : (g.pput l p x).vget l' r = g.vget l' r := rfl

/-- A change to a thread leaves V registers as they were. -/
@[simp] theorem vget_modifyThread (g : Group) (l : Nat) (f : Thread → Thread) (l' r : Nat) :
    (g.modifyThread l f).vget l' r = g.vget l' r := rfl

/-- A write of a V register leaves the threads as they were. -/
@[simp] theorem thread_vput (g : Group) (l r : Nat) (x : Word) (k : Nat) : (g.vput l r x).thread k = g.thread k := rfl

/-- A write of an S register leaves the threads as they were. -/
@[simp] theorem thread_sregPut (g : Group) (r : Nat) (x : Word) (k : Nat) : (g.sregPut r x).thread k = g.thread k := rfl

end Group

/-- Setting a clear bit of a predicate register by addition. -/
theorem set_bit (t : BitVec 12) (p : Nat) (h : t.getLsbD p = false) :
    BitVec.ofNat 12 (t.toNat + 2 ^ p) = t ||| BitVec.twoPow 12 p := by
  have hz : t &&& BitVec.twoPow 12 p = 0#12 := by
    apply BitVec.eq_of_getLsbD_eq
    intro i hi
    rw [BitVec.getLsbD_and, BitVec.getLsbD_twoPow]
    by_cases hip : p = i
    · subst hip; simp [h]
    · simp [hip]
  rw [← BitVec.add_eq_or_of_and_eq_zero _ _ hz]
  apply BitVec.eq_of_toNat_eq
  simp [BitVec.toNat_add, BitVec.toNat_twoPow]

/-- Clearing a set bit of a predicate register by subtraction. -/
theorem clear_bit (t : BitVec 12) (p : Nat) (hp : p < 12) (h : t.getLsbD p = true) :
    BitVec.ofNat 12 (t.toNat - 2 ^ p) = t &&& ~~~ BitVec.twoPow 12 p := by
  have hy : (t &&& ~~~ BitVec.twoPow 12 p).getLsbD p = false := by simp [hp]
  have ht : BitVec.ofNat 12 ((t &&& ~~~ BitVec.twoPow 12 p).toNat + 2 ^ p) = t := by
    rw [set_bit _ _ hy]
    apply BitVec.eq_of_getLsbD_eq
    intro i hi
    simp only [BitVec.getLsbD_or, BitVec.getLsbD_and, BitVec.getLsbD_not, BitVec.getLsbD_twoPow]
    by_cases hip : p = i
    · subst hip; simp [h, hp]
    · simp [hip, hi]
  have hlt : (t &&& ~~~ BitVec.twoPow 12 p).toNat + 2 ^ p < 2 ^ 12 := by
    have h2 : (2:Nat)^p ≤ 2^11 := Nat.pow_le_pow_right (by omega) (by omega)
    have h3 : (t &&& ~~~ BitVec.twoPow 12 p).toNat < 2^12 := (t &&& ~~~ BitVec.twoPow 12 p).isLt
    by_contra hc
    have : t.toNat = (t &&& ~~~ BitVec.twoPow 12 p).toNat + 2 ^ p - 2^12 := by
      conv_lhs => rw [← ht]
      rw [BitVec.toNat_ofNat]; omega
    have hb : t.toNat < 2^p := by omega
    have hf : t.getLsbD p = false := Nat.testBit_lt_two_pow hb
    rw [h] at hf
    cases hf
  have : t.toNat = (t &&& ~~~ BitVec.twoPow 12 p).toNat + 2 ^ p := by
    conv_lhs => rw [← ht]
    rw [BitVec.toNat_ofNat]; exact Nat.mod_eq_of_lt hlt
  apply BitVec.eq_of_toNat_eq
  rw [BitVec.toNat_ofNat]; omega

/-- One bit of a predicate register after a write of a bit. -/
theorem predicate_bit (t : BitVec 12) (p q : Nat) (x : Bool) (hp : p < 12) (hq : q < 12) :
    (BitVec.ofNat 12 (if t.getLsbD p = x then t.toNat else if x then t.toNat + 2 ^ p else t.toNat - 2 ^ p)).getLsbD q
      = if q = p then x else t.getLsbD q := by
  have hpq : p = q ↔ q = p := eq_comm
  by_cases h : t.getLsbD p = x
  · rw [if_pos h, BitVec.ofNat_toNat, BitVec.setWidth_eq]
    split
    · rename_i hq; rw [hq, h]
    · rfl
  · rw [if_neg h]
    cases x
    · have ht : t.getLsbD p = true := by simpa using h
      rw [if_neg (by simp), clear_bit t p hp ht]
      by_cases hqp : q = p
      · subst hqp; simp [hp]
      · simp [hqp, hq]
    · have ht : t.getLsbD p = false := by simpa using h
      rw [if_pos rfl, set_bit t p ht]
      by_cases hqp : q = p
      · subst hqp; simp [hp]
      · simp [hqp, hpq, BitVec.getLsbD_twoPow]

namespace Group

/-- P[q] of a lane after a write of P[p]. -/
theorem pget_pput {g : Group} {l p l' q : Nat} (hl : l < g.threads.length) (hp : p < 12) (hq : q < 12) (x : Bool) :
    (g.pput l p x).pget l' q = if l' = l ∧ q = p then x else g.pget l' q := by
  simp only [pput, pget, thread_modifyThread]
  by_cases h : l' = l
  · subst h
    simp [hl, predicate_bit _ p q x hp hq]
  · simp [h]

/-- What a write of a predicate leaves of a thread. -/
theorem thread_pput (g : Group) (l p : Nat) (x : Bool) (k : Nat) :
    (g.pput l p x).thread k = { g.thread k with p := ((g.pput l p x).thread k).p } := by
  simp only [pput, thread_modifyThread]
  split <;> rfl

end Group

end Sys2Proof.Machine
end

