-- ==== Sys2Proof/Laws/Lane.lean ====
section
/-! SUPPORT. What the issue of an instruction does: the shared lemmas about `issue`, `perLane` and `perSet`. -/
namespace Sys2Proof.Machine

/-! ## Lists of writes -/

/-- Nothing written leaves the old value. -/
@[simp] theorem written_nil {α : Type} (k : Nat) (old : α) : written [] k old = old := rfl

/-- The first of several writes. -/
@[simp] theorem written_cons {α : Type} (j : Nat) (v : α) (ws : List (Nat × α)) (k : Nat) (old : α) :
    written ((j, v) :: ws) k old = written ws k (if j = k then v else old) := rfl

/-- Which register and predicate numbers exist. -/
def LaneOut.fits (o : LaneOut) : Prop := (∀ w ∈ o.v, w.1 < 256) ∧ ∀ w ∈ o.p, w.1 < 12

/-! ## One lane's results -/

/-- Writing a lane's V registers in turn. -/
theorem vputs_spec (ws : List (Nat × Word)) (lane : Nat) : ∀ g : Group, swf 0 g.v = true → (∀ w ∈ ws, w.1 < 256) →
    let g' := ws.foldl (fun g (w : Nat × Word) => g.vput lane w.1 w.2) g
    swf 0 g'.v = true ∧ g' = { g with v := g'.v }
      ∧ ∀ l r, r < 256 → g'.vget l r = if l = lane then written ws r (g.vget l r) else g.vget l r := by
  induction ws with
  | nil => intro g hg _; exact ⟨hg, rfl, fun l r _ => by simp⟩
  | cons w ws ih =>
    intro g hg hw
    obtain ⟨k, v⟩ := w
    have hk : k < 256 := hw (k, v) (List.mem_cons_self ..)
    obtain ⟨h1, h2, h3⟩ := ih (g.vput lane k v) (Group.vput_wf hg lane k v) fun w h => hw w (List.mem_cons_of_mem _ h)
    refine ⟨h1, h2, fun l r hr => ?_⟩
    rw [List.foldl_cons, h3 l r hr, Group.vget_vput hg hk hr]
    by_cases hl : l = lane
    · simp [hl, eq_comm]
    · simp [hl]

/-- Writing a lane's predicates in turn. -/
theorem pputs_spec (ws : List (Nat × Bool)) (lane : Nat) : ∀ g : Group, lane < g.threads.length → (∀ w ∈ ws, w.1 < 12) →
    let g' := ws.foldl (fun g (w : Nat × Bool) => g.pput lane w.1 w.2) g
    g'.threads.length = g.threads.length ∧ g' = { g with threads := g'.threads }
      ∧ (∀ l p, p < 12 → g'.pget l p = if l = lane then written ws p (g.pget l p) else g.pget l p)
      ∧ ∀ l, g'.thread l = if l = lane then { g.thread l with p := (g'.thread l).p } else g.thread l := by
  induction ws with
  | nil => intro g _ _; exact ⟨rfl, rfl, fun l p _ => by simp, fun l => by simp⟩
  | cons w ws ih =>
    intro g hl hw
    obtain ⟨k, v⟩ := w
    have hk : k < 12 := hw (k, v) (List.mem_cons_self ..)
    have hlen : lane < (g.pput lane k v).threads.length := by simpa [Group.pput] using hl
    obtain ⟨h1, h2, h3, h4⟩ := ih (g.pput lane k v) hlen fun w h => hw w (List.mem_cons_of_mem _ h)
    refine ⟨by rw [List.foldl_cons, h1]; simp [Group.pput], h2, fun l p hp => ?_, fun l => ?_⟩
    · rw [List.foldl_cons, h3 l p hp, Group.pget_pput hl hk hp]
      by_cases hll : l = lane
      · simp [hll, eq_comm]
      · simp [hll]
    · have h5 := h4 l
      rw [List.foldl_cons, h5]
      by_cases hll : l = lane
      · subst hll
        rw [if_pos rfl, if_pos rfl, Group.thread_pput]
      · rw [if_neg hll, if_neg hll]
        simp [Group.pput, Group.thread_modifyThread, hll]

/-- What `applyLane` does. -/
theorem applyLane_spec {g : Group} {lane : Nat} {o : LaneOut} (hv : swf 0 g.v = true) (hl : lane < g.threads.length) (ho : o.fits) :
    let g' := applyLane g lane o
    swf 0 g'.v = true ∧ g'.threads.length = g.threads.length ∧ g' = { g with v := g'.v, threads := g'.threads }
      ∧ (∀ l r, r < 256 → g'.vget l r = if l = lane then written o.v r (g.vget l r) else g.vget l r)
      ∧ (∀ l p, p < 12 → g'.pget l p = if l = lane then written o.p p (g.pget l p) else g.pget l p)
      ∧ ∀ l, g'.thread l = if l = lane then
          { g.thread l with p := (g'.thread l).p, fpstat := (g.thread l).fpstat ||| o.flags, randn := o.randn.getD (g.thread l).randn }
        else g.thread l := by
  obtain ⟨v1, v2, v3⟩ := vputs_spec o.v lane g hv ho.1
  set g1 := o.v.foldl (fun g (w : Nat × Word) => g.vput lane w.1 w.2) g with hg1
  have ht : g1.threads = g.threads := by rw [v2]
  obtain ⟨p1, p2, p3, p4⟩ := pputs_spec o.p lane g1 (by rw [ht]; exact hl) ho.2
  set g2 := o.p.foldl (fun g (w : Nat × Bool) => g.pput lane w.1 w.2) g1 with hg2
  have happ : applyLane g lane o = g2.modifyThread lane fun t => { t with fpstat := t.fpstat ||| o.flags, randn := o.randn.getD t.randn } := rfl
  have hlen : g2.threads.length = g.threads.length := by rw [p1, ht]
  have hth : ∀ l, g1.thread l = g.thread l := fun l => by simp [Group.thread, ht]
  have hv2 : g2.v = g1.v := by rw [p2]
  simp only [happ]
  refine ⟨?_, ?_, ?_, ?_, ?_, ?_⟩
  · simpa [hv2] using v1
  · simp [hlen]
  · rw [p2, v2]; rfl
  · intro l r hr
    rw [Group.vget_modifyThread, ← v3 l r hr]
    simp [Group.vget, hv2]
  · intro l p hp
    have h1 := p3 l p hp
    have h2 : g1.pget l p = g.pget l p := by simp [Group.pget, hth]
    rw [h2] at h1
    rw [← h1]
    simp only [Group.pget, Group.thread_modifyThread]
    split <;> rfl
  · intro l
    rw [Group.thread_modifyThread]
    by_cases hll : l = lane
    · subst hll
      rw [if_pos ⟨rfl, by rw [hlen]; exact hl⟩, if_pos rfl, p4 l, if_pos rfl, hth]
    · rw [if_neg (fun h => hll h.1), if_neg hll, p4 l, if_neg hll, hth]

/-! ## The results of a set of lanes -/

/-- What `applyLanes` does to distinct lanes. -/
theorem applyLanes_spec (out : Nat → LaneOut) (lanes : List Nat) : ∀ g : Group, swf 0 g.v = true → lanes.Nodup →
    (∀ l ∈ lanes, l < g.threads.length) → (∀ l ∈ lanes, (out l).fits) →
    let g' := applyLanes g (lanes.map fun l => (l, out l))
    swf 0 g'.v = true ∧ g'.threads.length = g.threads.length ∧ g' = { g with v := g'.v, threads := g'.threads }
      ∧ (∀ l r, r < 256 → g'.vget l r = if l ∈ lanes then written (out l).v r (g.vget l r) else g.vget l r)
      ∧ (∀ l p, p < 12 → g'.pget l p = if l ∈ lanes then written (out l).p p (g.pget l p) else g.pget l p)
      ∧ ∀ l, g'.thread l = if l ∈ lanes then
          { g.thread l with
            p := (g'.thread l).p, fpstat := (g.thread l).fpstat ||| (out l).flags, randn := (out l).randn.getD (g.thread l).randn }
        else g.thread l := by
  induction lanes with
  | nil => intro g hg _ _ _; exact ⟨hg, rfl, rfl, by simp [applyLanes], by simp [applyLanes], by simp [applyLanes]⟩
  | cons k r ih =>
    intro g hg hnd hin hf
    obtain ⟨hk, hnd⟩ := List.nodup_cons.mp hnd
    obtain ⟨a1, a2, a3, a4, a5, a6⟩ := applyLane_spec hg (hin k (List.mem_cons_self ..)) (hf k (List.mem_cons_self ..))
    set g1 := applyLane g k (out k) with hg1
    obtain ⟨b1, b2, b3, b4, b5, b6⟩ := ih g1 a1 hnd (fun l h => by rw [a2]; exact hin l (List.mem_cons_of_mem _ h))
      (fun l h => hf l (List.mem_cons_of_mem _ h))
    have happ : applyLanes g ((k :: r).map fun l => (l, out l)) = applyLanes g1 (r.map fun l => (l, out l)) := rfl
    simp only [happ]
    set g2 := applyLanes g1 (r.map fun l => (l, out l)) with hg2
    refine ⟨b1, b2.trans a2, by rw [b3, a3], fun l n hn => ?_, fun l n hn => ?_, fun l => ?_⟩
    · rw [b4 l n hn, a4 l n hn]
      by_cases hl : l = k
      · subst hl; simp [hk]
      · simp [hl]
    · rw [b5 l n hn, a5 l n hn]
      by_cases hl : l = k
      · subst hl; simp [hk]
      · simp [hl]
    · by_cases hl : l = k
      · subst hl
        rw [b6 l, if_neg hk, if_pos (List.mem_cons_self ..), a6 l, if_pos rfl]
      · have h6 := b6 l
        have ha : g1.thread l = g.thread l := by rw [a6 l, if_neg hl]
        rw [ha] at h6
        by_cases hr : l ∈ r
        · rw [if_pos hr] at h6
          rw [if_pos (List.mem_cons_of_mem _ hr)]
          exact h6
        · rw [if_neg hr] at h6
          rw [if_neg (by simp [hl, hr])]
          exact h6

end Sys2Proof.Machine
end

