-- ==== Sys2Proof/Laws/Issue.lean ====
section
/-! SUPPORT. What an issue that nothing stops does: `issue`, `finish`, `perLane` and `perSet` in terms of the claims' words. -/
namespace Sys2Proof.Machine

/-! ## Threads of a set -/

/-- A change to distinct threads of a group. -/
theorem modifyThreads_spec (f : Thread → Thread) (lanes : List Nat) : ∀ g : Group, lanes.Nodup → (∀ l ∈ lanes, l < g.threads.length) →
    (g.modifyThreads lanes f).threads.length = g.threads.length
      ∧ g.modifyThreads lanes f = { g with threads := (g.modifyThreads lanes f).threads }
      ∧ ∀ l, (g.modifyThreads lanes f).thread l = if l ∈ lanes then f (g.thread l) else g.thread l := by
  induction lanes with
  | nil => intro g _ _; exact ⟨rfl, rfl, fun l => by simp [Group.modifyThreads]⟩
  | cons k r ih =>
    intro g hnd hin
    obtain ⟨hk, hnd⟩ := List.nodup_cons.mp hnd
    obtain ⟨h1, h2, h3⟩ := ih (g.modifyThread k f) hnd fun l h => by
      rw [Group.threads_length_modifyThread]; exact hin l (List.mem_cons_of_mem _ h)
    have happ : g.modifyThreads (k :: r) f = (g.modifyThread k f).modifyThreads r f := rfl
    rw [happ]
    refine ⟨by rw [h1]; simp, by rw [h2]; rfl, fun l => ?_⟩
    rw [h3 l, Group.thread_modifyThread]
    have hkl : k < g.threads.length := hin k (List.mem_cons_self ..)
    by_cases hl : l = k
    · subst hl; simp [hk, hkl]
    · simp [hl]

/-- Threads as a list with a change in the lanes of a set. -/
theorem threads_zipIdx (f : Nat → Thread → Thread) (p : Nat → Prop) [DecidablePred p] (l : List Thread) (n k : Nat) :
    ((l.zipIdx n).map fun (th, j) => if p j then f j th else th).getD k noThread
      = if p (n + k) ∧ k < l.length then f (n + k) (l.getD k noThread) else l.getD k noThread := by
  induction l generalizing n k with
  | nil => simp
  | cons a r ih =>
    cases k with
    | zero => simp
    | succ k =>
      have := ih (n + 1) k
      simp only [List.zipIdx_cons, List.map_cons, List.getD_cons_succ, List.length_cons]
      rw [this]
      simp [Nat.add_assoc, Nat.add_comm 1 k]

/-- Lists of threads that read alike are equal. -/
theorem threads_ext {a b : List Thread} (hl : a.length = b.length) (h : ∀ k, a.getD k noThread = b.getD k noThread) : a = b := by
  apply List.ext_getElem hl
  intro k h1 h2
  have := h k
  simpa [List.getD_eq_getElem?_getD, h1, h2] using this

/-- A change to the threads of a set, written as a change to the list. -/
theorem modifyThreads_eq (f : Thread → Thread) {lanes : List Nat} {g : Group} (hnd : lanes.Nodup)
    (hin : ∀ l ∈ lanes, l < g.threads.length) :
    g.modifyThreads lanes f = { g with threads := g.threads.zipIdx.map fun (th, l) => if l ∈ lanes then f th else th } := by
  obtain ⟨h1, h2, h3⟩ := modifyThreads_spec f lanes g hnd hin
  rw [h2]
  congr 1
  apply threads_ext
  · simpa using h1
  · intro k
    have h4 := h3 k
    simp only [Group.thread] at h4
    rw [h4]
    have := threads_zipIdx (fun _ th => f th) (· ∈ lanes) g.threads 0 k
    simp only [Nat.zero_add] at this
    rw [this]
    by_cases hk : k ∈ lanes
    · simp [hk, hin k hk]
    · simp [hk]

/-! ## Groups of a state -/

/-- Changing a group that has just been set. -/
theorem modifyGroup_setGroup (s : State) (g : Group) (f : Group → Group) (hf : (f g).uid = g.uid) :
    (s.setGroup g).modifyGroup g.uid f = s.setGroup (f g) := by
  simp only [State.setGroup, State.modifyGroup, hf, List.map_map]
  congr 2
  apply List.map_congr_left
  intro y _
  simp only [Function.comp]
  by_cases h : y.uid == g.uid <;> simp [h]

/-- Setting the group that a state has changes nothing. -/
theorem modifyGroup_eq_setGroup {s : State} {uid : Nat} {g : Group} (f : Group → Group)
    (h : ∀ y ∈ s.work.groups, y.uid = uid → y = g) (hf : (f g).uid = uid) :
    s.modifyGroup uid f = s.setGroup (f g) := by
  simp only [State.setGroup, State.modifyGroup, hf]
  congr 2
  apply List.map_congr_left
  intro y hy
  by_cases hu : y.uid = uid
  · simp [h y hy hu]
  · simp [hu]

/-- What `currentIssue` finds. -/
theorem currentIssue_some {s : State} {x : Issue} (h : currentIssue s = some x) :
    s.cur = some (x.uid, x.lanes) ∧ s.group? x.uid = some x.g ∧ x.ext = extOf x.g.ext
      ∧ x.members = x.lanes.filter (fun l => x.ext.guardHolds (x.g.thread l)) := by
  unfold currentIssue at h
  split at h
  · cases h
  · rename_i uid lanes hc
    split at h
    · cases h
    · rename_i g hg
      cases h
      exact ⟨hc, hg, rfl, rfl⟩

/-- The group that an issue names has its number. -/
theorem issue_uid {s : State} {x : Issue} (h : currentIssue s = some x) : x.g.uid = x.uid := by
  have hg := (currentIssue_some h).2.1
  have := List.find?_some hg
  simpa using this

/-- The members of an issue are lanes of it. -/
theorem members_sub {s : State} {x : Issue} (h : currentIssue s = some x) : ∀ l ∈ x.members, l ∈ x.lanes := by
  rw [(currentIssue_some h).2.2.2]
  exact fun l hl => (List.mem_filter.mp hl).1

/-- The members of an issue are distinct. -/
theorem members_nodup {s : State} {x : Issue} (h : currentIssue s = some x) (hn : x.lanes.Nodup) : x.members.Nodup := by
  rw [(currentIssue_some h).2.2.2]
  exact hn.filter _

/-! ## Issuing -/

/-- An instruction that issues normally takes its own effect. -/
theorem issue_next {s : State} {x : Issue} {i : Instr} (h : Issues s x i) (body : State → Issue → Effect) :
    issue i body s = .next (finish s x (yieldsOf i x.ext) (body s x)) := by
  unfold issue
  rw [h.current]
  simp only [h.decodes, h.settled, Bool.false_eq_true, if_false]

/-- How a group stands after an issue. -/
theorem issued_eq (x : Issue) (i : Instr) (g : Group) : issued g x.lanes (yieldsOf i x.ext) = afterInstr x i g := rfl

/-- Completing with a changed group. -/
theorem finish_done {s : State} {x : Issue} {i : Instr} (h : Issues s x i) {g : Group} (hu : g.uid = x.uid)
    (ht : g.threads.length = x.g.threads.length) :
    SetStep s (finish s x (yieldsOf i x.ext) (.done (s.setGroup g))) x i g := by
  have hin : ∀ l ∈ x.lanes, l < g.threads.length := fun l hl => by rw [ht]; exact h.inGroup l hl
  have hadv := modifyThreads_eq (fun t : Thread => { t with pc := t.pc + 4 }) h.nodup hin
  refine ⟨hu, ?_⟩
  have hf : stepping x.g = false := h.free
  simp only [finish, stepTrap, hf, Bool.false_eq_true, if_false]
  have hadv' : advance g x.lanes = _ := hadv
  have hua : (advance g x.lanes).uid = g.uid := by rw [hadv']
  have h1 := modifyGroup_setGroup s g (fun g => issued (advance g x.lanes) x.lanes (yieldsOf i x.ext)) hua
  rw [hu] at h1
  have h2 : issued (advance g x.lanes) x.lanes (yieldsOf i x.ext) = { afterInstr x i g with
      threads := g.threads.zipIdx.map fun (th, l) => if l ∈ x.lanes then { th with pc := th.pc + 4 } else th } := by
    rw [issued_eq, hadv']
    rfl
  simp only [h1]
  exact congrArg (fun y => { s.setGroup y with cur := none }) h2

/-- Completing with the PCs already set. -/
theorem finish_moved {s : State} {x : Issue} {i : Instr} (h : Issues s x i) {g : Group} (hu : g.uid = x.uid) :
    OnlyGroup s (finish s x (yieldsOf i x.ext) (.moved (s.setGroup g))) x (afterInstr x i g) := by
  refine ⟨hu, ?_⟩
  have hf : stepping x.g = false := h.free
  simp only [finish, stepTrap, hf, Bool.false_eq_true, if_false]
  have h1 := modifyGroup_setGroup s g (fun g => issued g x.lanes (yieldsOf i x.ext)) rfl
  rw [hu] at h1
  simp only [h1]
  rfl

/-- The entries of a list after a change to one of them. -/
theorem getElem?_modifyAt {α : Type} (f : α → α) (l : List α) (k j : Nat) :
    (modifyAt f l k)[j]? = if j = k then l[j]?.map f else l[j]? := by
  induction l generalizing k j with
  | nil => simp [modifyAt]
  | cons a r ih =>
    cases k with
    | zero => cases j <;> simp [modifyAt]
    | succ k =>
      cases j with
      | zero => simp [modifyAt]
      | succ j => simp [modifyAt, ih]

/-- A change to distinct threads, written as a change to the list, whichever of them the group has. -/
theorem modifyThreads_zip (f : Thread → Thread) {lanes : List Nat} (g : Group) (hnd : lanes.Nodup) :
    g.modifyThreads lanes f = { g with threads := g.threads.zipIdx.map fun (th, l) => if l ∈ lanes then f th else th } := by
  have key : ∀ (lanes : List Nat) (g : Group), lanes.Nodup →
      g.modifyThreads lanes f = { g with threads := (g.modifyThreads lanes f).threads }
        ∧ ∀ j, (g.modifyThreads lanes f).threads[j]? = if j ∈ lanes then g.threads[j]?.map f else g.threads[j]? := by
    intro lanes
    induction lanes with
    | nil => exact fun g _ => ⟨rfl, fun j => by simp [Group.modifyThreads]⟩
    | cons k r ih =>
      intro g hnd
      obtain ⟨hk, hnd⟩ := List.nodup_cons.mp hnd
      obtain ⟨h1, h2⟩ := ih (g.modifyThread k f) hnd
      have happ : g.modifyThreads (k :: r) f = (g.modifyThread k f).modifyThreads r f := rfl
      rw [happ]
      refine ⟨by rw [h1]; rfl, fun j => ?_⟩
      rw [h2 j]
      simp only [Group.modifyThread, getElem?_modifyAt]
      by_cases hj : j = k
      · subst hj; simp [hk]
      · simp [hj]
  obtain ⟨h1, h2⟩ := key lanes g hnd
  rw [h1]
  congr 1
  apply List.ext_getElem?
  intro j
  rw [h2 j]
  by_cases hj : j < g.threads.length
  · by_cases hl : j ∈ lanes <;> simp [hj, hl]
  · simp [hj]

/-- Completing with a change to the machine. -/
theorem finish_completed {s : State} {x : Issue} {i : Instr} (h : Issues s x i) (u : State) :
    finish s x (yieldsOf i x.ext) (.done u) = completed i x u := by
  have hf : stepping x.g = false := h.free
  have hfun : (fun g => issued (advance g x.lanes) x.lanes (yieldsOf i x.ext)) = fun g : Group => { afterInstr x i g with
      threads := g.threads.zipIdx.map fun (th, l) => if l ∈ x.lanes then { th with pc := th.pc + 4 } else th } := by
    funext g
    rw [issued_eq, show advance g x.lanes = _ from modifyThreads_zip (fun t : Thread => { t with pc := t.pc + 4 }) g h.nodup]
    rfl
  have h1 : finish s x (yieldsOf i x.ext) (.done u) =
      { u.modifyGroup x.uid (fun g => issued (advance g x.lanes) x.lanes (yieldsOf i x.ext)) with cur := none } := by
    simp only [finish, stepTrap, hf, Bool.false_eq_true, if_false]
  rw [h1, hfun]
  rfl

/-- An instruction that `issue` gives its meaning completes with its effect. -/
theorem stateResult_of {i : Instr} {cond : State → Issue → Prop} {u : State → Issue → State} {body : State → Issue → Effect}
    (he : ∀ s, exec i s = issue i body s) (hb : ∀ s x, Issues s x i → cond s x → body s x = .done (u s x)) : StateResult i cond u := by
  intro s x h hc
  rw [he, issue_next h, hb s x h hc, finish_completed h]

/-- A set-level register instruction that issues normally completes. -/
theorem perSet_step {s : State} {x : Issue} {i : Instr} (h : Issues s x i) (f : Issue → Group) (hu : (f x).uid = x.uid)
    (ht : (f x).threads.length = x.g.threads.length) : ∃ t, perSet i f s = .next t ∧ SetStep s t x i (f x) :=
  ⟨_, issue_next h _, finish_done h hu ht⟩

/-- What Z writes is what `laneWrites` says. -/
theorem zero_fits_of {x : Issue} {i : Instr} {out : Nat → LaneOut} (hz : (zeroOut i x.ext).fits) (ho : ∀ l ∈ x.members, (out l).fits) (l : Nat) :
    (laneWrites x i out l).fits := by
  unfold laneWrites
  split
  · rename_i hl; exact ho l hl
  · split
    · exact hz
    · exact ⟨by simp, by simp⟩

/-- A per-thread instruction that issues normally completes with its lanes' results. -/
theorem perLane_step {s : State} {x : Issue} {i : Instr} (h : Issues s x i) (f : Issue → Nat → LaneOut)
    (hz : (zeroOut i x.ext).fits) (ho : ∀ l ∈ x.members, (f x l).fits) :
    ∃ t, perLane i f s = .next t ∧ LaneStep s t x i (f x) := by
  have hv : swf 0 x.g.v = true := by
    have := h.tables
    simp only [Group.canonical, Bool.and_eq_true] at this
    exact this.1.1.1.1.1.1.1.1
  have hms := members_sub h.current
  have hmn := members_nodup h.current h.nodup
  obtain ⟨a1, a2, a3, a4, a5, a6⟩ := applyLanes_spec (f x) x.members x.g hv hmn (fun l hl => h.inGroup l (hms l hl)) ho
  set g1 := applyLanes x.g (x.members.map fun l => (l, f x l)) with hg1
  -- the lanes that the guard turns off
  set off := x.lanes.filter fun l => !x.members.contains l with hoff
  have hoffm : ∀ l, l ∈ off ↔ l ∈ x.lanes ∧ l ∉ x.members := fun l => by simp [hoff]
  obtain ⟨b1, b2, b3, b4, b5, b6⟩ := applyLanes_spec (fun _ => zeroOut i x.ext) off g1 a1 (h.nodup.filter _)
    (fun l hl => by rw [a2]; exact h.inGroup l ((hoffm l).mp hl).1) (fun _ _ => hz)
  set g2 := applyZeros i x g1 with hg2
  have hcase : g2 = if x.ext.z then applyLanes g1 (off.map fun l => (l, zeroOut i x.ext)) else g1 := by
    simp only [hg2, applyZeros]; rfl
  have hw : ∀ l, laneWrites x i (f x) l =
      if l ∈ x.members then f x l else if l ∈ off ∧ x.ext.z = true then zeroOut i x.ext else {} := by
    intro l
    unfold laneWrites
    by_cases hm : l ∈ x.members
    · simp [hm]
    · simp [hm, hoffm]
  have c2 : g2.threads.length = x.g.threads.length := by
    rw [hcase]; split
    · exact b2.trans a2
    · exact a2
  have c3 : g2 = { x.g with v := g2.v, threads := g2.threads } := by
    rw [hcase]; split
    · rw [b3, a3]
    · exact a3
  have c4 : ∀ l r, r < 256 → g2.vget l r = written (laneWrites x i (f x) l).v r (x.g.vget l r) := by
    intro l r hr
    rw [hcase, hw]
    by_cases hm : l ∈ x.members
    · have hno : l ∉ off := fun h => ((hoffm l).mp h).2 hm
      rw [if_pos hm]
      split
      · rw [b4 l r hr, if_neg hno, a4 l r hr, if_pos hm]
      · rw [a4 l r hr, if_pos hm]
    · rw [if_neg hm]
      split
      · rename_i hzz
        rw [b4 l r hr, a4 l r hr, if_neg hm]
        by_cases ho : l ∈ off <;> simp [ho, hzz]
      · rename_i hzz
        rw [a4 l r hr, if_neg hm]
        simp [hzz]
  have c5 : ∀ l p, p < 12 → g2.pget l p = written (laneWrites x i (f x) l).p p (x.g.pget l p) := by
    intro l r hr
    rw [hcase, hw]
    by_cases hm : l ∈ x.members
    · have hno : l ∉ off := fun h => ((hoffm l).mp h).2 hm
      rw [if_pos hm]
      split
      · rw [b5 l r hr, if_neg hno, a5 l r hr, if_pos hm]
      · rw [a5 l r hr, if_pos hm]
    · rw [if_neg hm]
      split
      · rename_i hzz
        rw [b5 l r hr, a5 l r hr, if_neg hm]
        by_cases ho : l ∈ off <;> simp [ho, hzz]
      · rename_i hzz
        rw [a5 l r hr, if_neg hm]
        simp [hzz]
  have c6 : ∀ l, g2.thread l = { x.g.thread l with
      p := (g2.thread l).p, fpstat := (x.g.thread l).fpstat ||| (laneWrites x i (f x) l).flags
      randn := (laneWrites x i (f x) l).randn.getD (x.g.thread l).randn } := by
    intro l
    have key : ∀ (t : Thread), t = { t with fpstat := t.fpstat ||| 0, randn := (none : Option DWord).getD t.randn } := fun t => by simp
    have zf : (zeroOut i x.ext).flags = 0 ∧ (zeroOut i x.ext).randn = none := by
      unfold zeroOut
      have : ∀ (sl : List Slot) (o : LaneOut), o.flags = 0 ∧ o.randn = none →
          let o' := sl.foldl (fun o sl => match sl.cls with
            | .v => { o with v := o.v ++ (List.range sl.dst).map fun k => (slotNum x.ext sl + k, 0) }
            | .p => if sl.dst = 0 then o else { o with p := o.p ++ [(sl.base, false)] }
            | _ => o) o
          o'.flags = 0 ∧ o'.randn = none := by
        intro sl
        induction sl with
        | nil => exact fun o ho => ho
        | cons a r ih =>
          intro o ho
          apply ih
          obtain ⟨cls, lo, base, count, align, dst⟩ := a
          by_cases hd : dst = 0 <;> cases cls <;> simp [hd, ho]
      exact this (slots i) {} ⟨rfl, rfl⟩
    have h1 : g1.thread l = if l ∈ x.members then
        { x.g.thread l with
          p := (g1.thread l).p, fpstat := (x.g.thread l).fpstat ||| (f x l).flags, randn := (f x l).randn.getD (x.g.thread l).randn }
        else x.g.thread l := a6 l
    by_cases hm : l ∈ x.members
    · have hno : l ∉ off := fun h => ((hoffm l).mp h).2 hm
      have h2 : g2.thread l = g1.thread l := by
        rw [hcase]; split
        · rw [b6 l, if_neg hno]
        · rfl
      rw [hw, if_pos hm, h2]
      rw [if_pos hm] at h1
      exact h1
    · rw [if_neg hm] at h1
      rw [hw, if_neg hm]
      by_cases hzo : l ∈ off ∧ x.ext.z = true
      · rw [if_pos hzo, zf.1, zf.2]
        have h2 := b6 l
        rw [if_pos hzo.1, zf.1, zf.2, h1] at h2
        have h3 : g2.thread l = (applyLanes g1 (off.map fun l => (l, zeroOut i x.ext))).thread l := by rw [hcase, if_pos hzo.2]
        rw [h3]
        exact h2
      · rw [if_neg hzo]
        have h2 : g2.thread l = x.g.thread l := by
          rw [hcase]; split
          · rename_i hz1
            have : l ∉ off := fun h => hzo ⟨h, hz1⟩
            rw [b6 l, if_neg this, h1]
          · exact h1
        rw [h2]
        exact key (x.g.thread l)
  have hu : g2.uid = x.uid := by rw [c3]; exact issue_uid h.current
  refine ⟨_, issue_next h _, ?_⟩
  obtain ⟨hu2, ht⟩ := finish_done h hu c2
  refine ⟨_, ⟨hu2, ht⟩, ?_, fun l r hr => c4 l r hr, ?_, ?_⟩
  · rw [c3]; rfl
  · intro l p hp
    rw [← c5 l p hp]
    simp only [Group.pget, Group.thread]
    rw [threads_zipIdx (fun _ th => { th with pc := th.pc + 4 }) (· ∈ x.lanes) g2.threads 0 l]
    split <;> rfl
  · intro l
    have h7 := threads_zipIdx (fun _ th => { th with pc := th.pc + 4 }) (· ∈ x.lanes) g2.threads 0 l
    simp only [Nat.zero_add] at h7
    have h8 := c6 l
    simp only [Group.thread] at h7 h8 ⊢
    rw [h7]
    by_cases hl : l ∈ x.lanes
    · have hlt : l < g2.threads.length := by rw [c2]; exact h.inGroup l hl
      rw [if_pos ⟨hl, hlt⟩, if_pos hl]
      rw [h8]
    · rw [if_neg (fun h => hl h.1), if_neg hl]
      have hm : l ∉ x.members := fun h' => hl (hms l h')
      have hno : l ∉ off := fun h => hl ((hoffm l).mp h).1
      have h2 : g2.thread l = x.g.thread l := by
        rw [hcase]; split
        · rw [b6 l, if_neg hno, a6 l, if_neg hm]
        · rw [a6 l, if_neg hm]
      exact h2

end Sys2Proof.Machine
end

