-- ==== Sys2Proof/Laws/Decode.lean ====
section
/-! SUPPORT. What an instruction without a decode fault says of its operands: budgets, alignment, privilege (R11, R12, R17, R47). -/
namespace Sys2Proof.Machine

/-- A chain of faults that is empty is empty at both ends. -/
theorem orElse_none {α : Type} {a b : Option α} : (a <|> b) = none ↔ a = none ∧ b = none := by
  cases a <;> simp

/-- Every check of a decode fault that an instruction passes. -/
theorem decodeFault_none {s : State} {g : Group} {i : Instr} {w : Word} (h : decodeFault s g i w none = none) :
    gangFault s g i = none ∧ budgetFault w g (extOf g.ext) (slots i ++ formatSlots g i) = none
      ∧ extSequenceFault (accepts i) [] g.ext = none
      ∧ (levelOf s g = true ∨ privCheck i = none)
      ∧ alignFault w (extOf g.ext) (slots i) = none := by
  unfold decodeFault at h
  simp only [orElse_none, Option.map_eq_none_iff] at h
  obtain ⟨-, h1, h2, -, -, -, h3, h4, h5, -⟩ := h
  refine ⟨h1, h2, h3, ?_, h5⟩
  by_cases hl : levelOf s g = true
  · exact .inl hl
  · exact .inr (by simpa [hl] using h4)

/-- Every register slot lies within its budget (R11). -/
theorem budgetFault_none {w : Word} {g : Group} {e : Ext} {l : List Slot} (h : budgetFault w g e l = none) :
    ∀ sl ∈ l, slotPresent e sl = true → slotNum e sl + sl.count ≤ budgetOf g sl.cls := by
  induction l with
  | nil => simp
  | cons a r ih =>
    simp only [budgetFault] at h
    split at h
    · cases h
    · rename_i hc
      intro sl hs hp
      rcases List.mem_cons.mp hs with rfl | hs
      · simp [hp] at hc; omega
      · exact ih h sl hs hp

/-- Every register slot is aligned as its width asks (R12). -/
theorem alignFault_none {w : Word} {e : Ext} {l : List Slot} (h : alignFault w e l = none) :
    ∀ sl ∈ l, slotPresent e sl = true → slotNum e sl % sl.align = 0 := by
  induction l with
  | nil => simp
  | cons a r ih =>
    simp only [alignFault] at h
    split at h
    · cases h
    · rename_i hc
      intro sl hs hp
      rcases List.mem_cons.mp hs with rfl | hs
      · simp [hp] at hc; omega
      · exact ih h sl hs hp

/-- Slots that write no more registers than they name. -/
def slotsSound (l : List Slot) : Bool := l.all fun sl => decide (sl.dst ≤ sl.count)

namespace Issues

variable {s : State} {x : Issue} {i : Instr}

/-- The extension state of an issue. -/
theorem ext_eq (h : Issues s x i) : extOf x.g.ext = x.ext := (currentIssue_some h.current).2.2.1.symm

/-- The slots of an instruction that issues lie within the group's budgets. -/
theorem slot_fits (h : Issues s x i) {sl : Slot} (hs : sl ∈ slots i) (hp : slotPresent x.ext sl = true) :
    slotNum x.ext sl + sl.count ≤ budgetOf x.g sl.cls := by
  have := budgetFault_none (decodeFault_none h.decodes).2.1
  rw [h.ext_eq] at this
  exact this sl (List.mem_append_left _ hs) hp

/-- The registers that an instruction which issues names by a format lie within the group's budgets (R262, R263). -/
theorem format_fits (h : Issues s x i) {sl : Slot} (hs : sl ∈ formatSlots x.g i) (hp : slotPresent x.ext sl = true) :
    slotNum x.ext sl + sl.count ≤ budgetOf x.g sl.cls := by
  have := budgetFault_none (decodeFault_none h.decodes).2.1
  rw [h.ext_eq] at this
  exact this sl (List.mem_append_right _ hs) hp

/-- The slots of an instruction that issues are aligned. -/
theorem slot_aligned (h : Issues s x i) {sl : Slot} (hs : sl ∈ slots i) (hp : slotPresent x.ext sl = true) :
    slotNum x.ext sl % sl.align = 0 := by
  have := alignFault_none (decodeFault_none h.decodes).2.2.2.2
  rw [h.ext_eq] at this
  exact this sl hs hp

/-- A V slot of an instruction that issues names existing registers. -/
theorem vslot_fits (h : Issues s x i) {sl : Slot} (hs : sl ∈ slots i) (hc : sl.cls = .v) : slotNum x.ext sl + sl.count ≤ 256 := by
  have hp : slotPresent x.ext sl = true := by simp [slotPresent, hc]
  have := h.slot_fits hs hp
  rw [hc] at this
  exact Nat.le_trans this h.budget

/-- A P slot of an instruction that issues names existing predicates. -/
theorem pslot_fits (h : Issues s x i) {sl : Slot} (hs : sl ∈ slots i) (hc : sl.cls = .p) : sl.base + sl.count ≤ 12 := by
  have hp : slotPresent x.ext sl = true := by simp [slotPresent, hc]
  have := h.slot_fits hs hp
  rw [hc] at this
  simpa [slotNum, hc, budgetOf] using this

/-- What Z writes fits, where the slots are sound. -/
theorem zero_fits (h : Issues s x i) (hd : slotsSound (slots i) = true) : (zeroOut i x.ext).fits := by
  have hd' : ∀ sl ∈ slots i, sl.dst ≤ sl.count := by
    intro sl hs
    have := List.all_eq_true.mp hd sl hs
    simpa using this
  have key : ∀ (l : List Slot) (o : LaneOut), (∀ sl ∈ l, sl ∈ slots i) → o.fits →
      (l.foldl (fun o sl => match sl.cls with
        | .v => { o with v := o.v ++ (List.range sl.dst).map fun k => (slotNum x.ext sl + k, 0) }
        | .p => if sl.dst = 0 then o else { o with p := o.p ++ [(sl.base, false)] }
        | _ => o) o).fits := by
    intro l
    induction l with
    | nil => exact fun o _ ho => ho
    | cons a r ih =>
      intro o hl ho
      apply ih _ fun sl hs => hl sl (List.mem_cons_of_mem _ hs)
      have ha := hl a (List.mem_cons_self ..)
      have hdc := hd' a ha
      cases hc : a.cls with
      | v =>
        simp only [hc]
        refine ⟨?_, ho.2⟩
        intro w hw
        rcases List.mem_append.mp hw with hw | hw
        · exact ho.1 w hw
        · obtain ⟨k, hk, rfl⟩ := List.mem_map.mp hw
          have := h.vslot_fits ha hc
          have hk := List.mem_range.mp hk
          show slotNum x.ext a + k < 256
          omega
      | p =>
        simp only [hc]
        by_cases hz : a.dst = 0
        · simpa [hz] using ho
        · simp only [hz, if_false]
          refine ⟨ho.1, ?_⟩
          intro w hw
          rcases List.mem_append.mp hw with hw | hw
          · exact ho.2 w hw
          · have := h.pslot_fits ha hc
            rw [List.mem_singleton.mp hw]
            show a.base < 12
            omega
      | s => simpa only [hc] using ho
      | t => simpa only [hc] using ho
      | a => simpa only [hc] using ho
  exact key (slots i) {} (fun _ hs => hs) ⟨by simp, by simp⟩

end Issues

end Sys2Proof.Machine
end

