-- ==== Sys2Proof/Laws/Memory.lean ====
section
/-! SUPPORT. Laws of the byte memories: reading after writing, and the canonical form, which every operation keeps. -/
namespace Sys2Proof.Machine

namespace Memory

/-- What the canonical form says. -/
theorem wf_iff (m : Memory) : m.wf = true ↔ swf unlistedByte m.cells = true ∧ swf 0 m.marks = true := by
  simp [wf]

/-- Memory with nothing listed is canonical. -/
theorem empty_wf : empty.wf = true := rfl

/-- Writing a byte keeps the canonical form. -/
theorem put_wf {m : Memory} (h : m.wf = true) (a : Nat) (b : Byte) : (m.put a b).wf = true := by
  rw [wf_iff] at h ⊢
  exact ⟨swf_sput a b h.1, swf_sput a 0 h.2⟩

/-- Leaving a byte open keeps the canonical form. -/
theorem forget_wf {m : Memory} (h : m.wf = true) (occasion a : Nat) : (m.forget occasion a).wf = true := by
  rw [wf_iff] at h ⊢
  exact ⟨swf_sput a unlistedByte h.1, swf_sput a (occasion + 1) h.2⟩

/-- Writing bytes keeps the canonical form. -/
theorem write_wf {m : Memory} (h : m.wf = true) (a : Nat) (l : List Byte) : (m.write a l).wf = true := by
  induction l generalizing m a with
  | nil => exact h
  | cons b r ih => exact ih (put_wf h a b) (a + 1)

/-- Leaving bytes open keeps the canonical form. -/
theorem forgetRange_wf {m : Memory} (h : m.wf = true) (occasion a n : Nat) : (m.forgetRange occasion a n).wf = true := by
  induction n generalizing m a with
  | zero => exact h
  | succ n ih => exact ih (forget_wf h occasion a) (a + 1)

/-- Writing a number keeps the canonical form. -/
theorem writeNat_wf {m : Memory} (h : m.wf = true) (a n x : Nat) : (m.writeNat a n x).wf = true := write_wf h a _

/-- A byte reads after a write as it was written. -/
theorem byte_put_same {m : Memory} (h : m.wf = true) (a : Nat) (b : Byte) : (m.put a b).byte a = b := by
  rw [wf_iff] at h
  simp [byte, put, sget_sput_same a (0 : Nat) h.2, sget_sput_same a b h.1]

/-- A write of one byte leaves every other byte as it was. -/
theorem byte_put_other (m : Memory) (a : Nat) (b : Byte) {c : Nat} (hc : c ≠ a) : (m.put a b).byte c = m.byte c := by
  simp [byte, put, sget_sput_other a _ hc]

/-- A byte left open leaves every other byte as it was. -/
theorem byte_forget_other (m : Memory) (occasion a : Nat) {c : Nat} (hc : c ≠ a) : (m.forget occasion a).byte c = m.byte c := by
  simp [byte, forget, sget_sput_other a _ hc]

/-- A write leaves every byte outside its range as it was. -/
theorem byte_write_other (m : Memory) (a : Nat) (l : List Byte) {c : Nat} (hc : c < a ∨ a + l.length ≤ c) :
    (m.write a l).byte c = m.byte c := by
  induction l generalizing m a with
  | nil => rfl
  | cons b r ih =>
    simp only [List.length_cons] at hc
    rw [write, ih (m.put a b) (a + 1) (by omega), byte_put_other m a b (by omega)]

/-- A byte inside the range of a write reads as it was written. -/
theorem byte_write_mem {m : Memory} (h : m.wf = true) (a : Nat) (l : List Byte) {i : Nat} (hi : i < l.length) :
    (m.write a l).byte (a + i) = l[i] := by
  induction l generalizing m a i with
  | nil => simp at hi
  | cons b r ih =>
    cases i with
    | zero =>
      simp [write, byte_write_other _ (a + 1) r (.inl (Nat.lt_succ_self a)), byte_put_same h]
    | succ i =>
      have hr : i < r.length := by simpa using hi
      have := ih (put_wf h a b) (a + 1) hr
      rw [write, show a + (i + 1) = a + 1 + i by omega, this]
      rfl

/-- How many bytes a read gives. -/
@[simp] theorem read_length (m : Memory) (a n : Nat) : (m.read a n).length = n := by
  induction n generalizing a with
  | zero => rfl
  | succ n ih => simp [read, ih]

/-- A read after a write to the same place gives the bytes written. -/
theorem read_write_same {m : Memory} (h : m.wf = true) (a : Nat) (l : List Byte) : (m.write a l).read a l.length = l := by
  induction l generalizing m a with
  | nil => rfl
  | cons b r ih =>
    simp only [write, List.length_cons, read]
    rw [ih (put_wf h a b) (a + 1), byte_write_other _ _ _ (.inl (Nat.lt_succ_self a)), byte_put_same h]

/-- Canonical memories that agree on every byte's value and mark are equal. -/
theorem ext_wf {m n : Memory} (hm : m.wf = true) (hn : n.wf = true) (hc : ∀ a, sget unlistedByte m.cells a = sget unlistedByte n.cells a)
    (hk : ∀ a, sget 0 m.marks a = sget 0 n.marks a) : m = n := by
  rw [wf_iff] at hm hn
  obtain ⟨mc, mm⟩ := m
  obtain ⟨nc, nm⟩ := n
  obtain rfl := sparse_ext hm.1 hn.1 hc
  obtain rfl := sparse_ext hm.2 hn.2 hk
  rfl

end Memory

end Sys2Proof.Machine
end

