-- ==== Sys2Proof/Laws/Park.lean ====
section
/-! SUPPORT. Laws of groups and contexts by their numbers, of records, and of taking and leaving an exception: what `emitRecord`,
`takePark` and `releasePark` do, and that they do nothing else. -/
namespace Sys2Proof.Machine

/-! ## Groups and contexts by their numbers -/

theorem group?_uid {s : State} {uid : Nat} {g : Group} (h : s.group? uid = some g) : g.uid = uid := by
  simpa using List.find?_some h

theorem ctx?_num {s : State} {n : Nat} {c : Ctx} (h : s.ctx? n = some c) : c.num = n := by
  simpa using List.find?_some h

/-- An element that a number finds is still found, changed, once every element with that number has been changed. -/
theorem find?_map_key {α : Type} (key : α → Nat) (f : α → α) (hf : ∀ a, key (f a) = key a) (n : Nat) {l : List α} {a : α}
    (h : l.find? (fun x => key x == n) = some a) : (l.map fun x => if key x == n then f x else x).find? (fun x => key x == n) = some (f a) := by
  induction l with
  | nil => simp at h
  | cons b l ih =>
    by_cases hb : key b = n
    · simp only [List.find?_cons, hb, beq_self_eq_true] at h
      obtain rfl := Option.some.inj h
      simp [hf, hb]
    · have hb' : (key b == n) = false := by simpa using hb
      simp only [List.find?_cons, hb'] at h
      simpa only [List.map_cons, hb', Bool.false_eq_true, if_false, List.find?_cons] using ih h

/-- An element that another number finds is not changed. -/
theorem find?_map_other {α : Type} (key : α → Nat) (f : α → α) (hf : ∀ a, key (f a) = key a) {n k : Nat} (hn : k ≠ n) (l : List α) :
    (l.map fun x => if key x == n then f x else x).find? (fun x => key x == k) = l.find? (fun x => key x == k) := by
  induction l with
  | nil => rfl
  | cons b l ih =>
    by_cases hb : key b = n
    · have : (key b == k) = false := by simpa [hb] using hn.symm
      have hfb : (key (f b) == k) = false := by simpa [hf] using this
      simp only [List.map_cons, hb, beq_self_eq_true, if_true, List.find?_cons, hfb, ih]
      simp [show (n == k) = false by simpa using hn.symm]
    · have hb' : (key b == n) = false := by simpa using hb
      simp only [List.map_cons, hb', List.find?_cons, ih]
      rfl

theorem group?_modifyGroup {s : State} {uid : Nat} {g : Group} (f : Group → Group) (hf : ∀ x, (f x).uid = x.uid) (h : s.group? uid = some g) :
    (s.modifyGroup uid f).group? uid = some (f g) := find?_map_key Group.uid f hf uid h

theorem group?_modifyGroup_other (s : State) (f : Group → Group) (hf : ∀ x, (f x).uid = x.uid) {uid k : Nat} (hk : k ≠ uid) :
    (s.modifyGroup uid f).group? k = s.group? k := find?_map_other Group.uid f hf hk _

theorem ctx?_modifyCtx {s : State} {n : Nat} {c : Ctx} (f : Ctx → Ctx) (hf : ∀ x, (f x).num = x.num) (h : s.ctx? n = some c) :
    (s.modifyCtx n f).ctx? n = some (f c) := find?_map_key Ctx.num f hf n h

theorem ctx?_modifyCtx_other (s : State) (f : Ctx → Ctx) (hf : ∀ x, (f x).num = x.num) {n k : Nat} (hk : k ≠ n) :
    (s.modifyCtx n f).ctx? k = s.ctx? k := find?_map_other Ctx.num f hf hk _

theorem setGroup_eq_modifyGroup (s : State) (g : Group) : s.setGroup g = s.modifyGroup g.uid fun _ => g := rfl

theorem group?_setGroup {s : State} {uid : Nat} {g g' : Group} (h : s.group? uid = some g) (hu : g'.uid = uid) :
    (s.setGroup g').group? uid = some g' := by
  subst hu
  have key : ∀ l : List Group, l.find? (fun x => x.uid == g'.uid) = some g →
      (l.map fun x => if x.uid == g'.uid then g' else x).find? (fun x => x.uid == g'.uid) = some g' := by
    intro l
    induction l with
    | nil => intro h; simp at h
    | cons b l ih =>
      intro h
      by_cases hb : b.uid = g'.uid
      · simp [hb]
      · have hb' : (b.uid == g'.uid) = false := by simpa using hb
        simp only [List.find?_cons, hb'] at h
        simpa only [List.map_cons, hb', Bool.false_eq_true, if_false, List.find?_cons] using ih h
  exact key _ h

theorem group?_setGroup_other (s : State) (g : Group) {k : Nat} (hk : k ≠ g.uid) : (s.setGroup g).group? k = s.group? k := by
  simp only [State.group?, State.setGroup]
  generalize s.work.groups = l
  induction l with
  | nil => rfl
  | cons b l ih =>
    by_cases hb : b.uid = g.uid
    · have h1 : (g.uid == k) = false := by simpa using hk.symm
      simp only [List.map_cons, hb, beq_self_eq_true, if_true, List.find?_cons, h1, ih]
    · have hb' : (b.uid == g.uid) = false := by simpa using hb
      simp only [List.map_cons, hb', List.find?_cons, ih]
      rfl

/-! ## Records (R379, R381) -/

/-- A record takes the next sequence number, and nothing but the record store changes. -/
theorem emitRecord_spec (s : State) (a : RecordArgs) :
    emitRecord s a = { s with records := (emitRecord s a).records } ∧ (emitRecord s a).records.next = s.records.next + 1 := by
  simp only [emitRecord]
  split <;> exact ⟨rfl, rfl⟩

@[simp] theorem emitRecord_group? (s : State) (a : RecordArgs) (uid : Nat) : (emitRecord s a).group? uid = s.group? uid := by
  simp [State.group?]
@[simp] theorem emitRecord_ctx? (s : State) (a : RecordArgs) (n : Nat) : (emitRecord s a).ctx? n = s.ctx? n := by
  simp [State.ctx?]

/-! ## Taking an exception (R26, R306 to R309) -/

/-- The park that a group is given. -/
def parkOf (s : State) (g : Group) (a : ParkArgs) : Park :=
  { cause := BitVec.ofNat 16 a.cause, lanes := laneMask a.lanes, va := parkVa g a, kind := a.kind, completing := a.completing
    auto := a.action == 2, seq := s.records.next, skip := a.skip, setLevel := a.setLevel, time := s.clock, segset := a.segset }

/-- The record of a park. -/
def parkRecord (s : State) (g : Group) (a : ParkArgs) : RecordArgs :=
  { team := g.team, ctx := g.ctx, action := a.action, engine := a.engine, cause := a.cause, slot := g.slot, core := g.core
    lanes := (parkOf s g a).lanes.toNat, va := some (parkVa g a).toNat, sev := a.sev, kind := a.kind, detail := a.detail }

/-- A group in its park. -/
def parkedGroup (g : Group) (p : Park) : Group :=
  { g with park := some p, gsaved := false, waited := 0, ages := [], sched := .waiting, promoted := none }

/-- A group without a pending record parks: its record is emitted, its fault queue gains an entry, and nothing else changes. -/
theorem takePark_first {s : State} {uid : Nat} {g : Group} (h : s.group? uid = some g) (hp : g.park = none) (a : ParkArgs) :
    takePark s uid a = ((emitRecord s (parkRecord s g a)).setGroup (parkedGroup g (parkOf s g a))).modifyCtx g.ctx fun c =>
      { c with fqHeld := c.fqHeld ++ [(faultEntry (parkedGroup g (parkOf s g a)) (parkOf s g a), s.records.next.toNat)] } := by
  simp only [takePark, h, hp]
  rfl

/-- Where a record is already pending, the new one is held in the group. -/
theorem takePark_held {s : State} {uid : Nat} {g : Group} {p : Park} (h : s.group? uid = some g) (hp : g.park = some p) (a : ParkArgs) :
    takePark s uid a
      = (emitRecord s (parkRecord s g a)).setGroup { g with held := g.held ++ [(parkOf s g a, BitVec.ofNat 48 a.detail)] } := by
  simp only [takePark, h, hp]
  rfl

/-- A park of a group that is not there does nothing. -/
theorem takePark_none {s : State} {uid : Nat} (h : s.group? uid = none) (a : ParkArgs) : takePark s uid a = s := by
  simp only [takePark, h]

/-- A park changes no memory, no register of BAR 0 and no domain. -/
theorem takePark_frame (s : State) (uid : Nat) (a : ParkArgs) :
    (takePark s uid a).hbm = s.hbm ∧ (takePark s uid a).host = s.host ∧ (takePark s uid a).peer = s.peer
      ∧ (takePark s uid a).work.pond = s.work.pond ∧ (takePark s uid a).regs = s.regs ∧ (takePark s uid a).domain = s.domain := by
  cases h : s.group? uid with
  | none => rw [takePark_none h]; exact ⟨rfl, rfl, rfl, rfl, rfl, rfl⟩
  | some g =>
    cases hp : g.park with
    | none => rw [takePark_first h hp]; simp [State.modifyCtx, State.setGroup]
    | some p => rw [takePark_held h hp]; simp [State.setGroup]

/-- A park moves no thread: the group has the threads and registers that it had. -/
theorem takePark_group {s : State} {uid : Nat} {g : Group} (h : s.group? uid = some g) (a : ParkArgs) :
    ∃ g', (takePark s uid a).group? uid = some g' ∧ g'.threads = g.threads ∧ g'.v = g.v ∧ g'.sreg = g.sreg := by
  have hu := group?_uid h
  cases hp : g.park with
  | none =>
    refine ⟨parkedGroup g (parkOf s g a), ?_, rfl, rfl, rfl⟩
    rw [takePark_first h hp]
    exact group?_setGroup (s := emitRecord s (parkRecord s g a)) (g' := parkedGroup g (parkOf s g a)) (by simpa using h) hu
  | some p =>
    refine ⟨{ g with held := g.held ++ [(parkOf s g a, BitVec.ofNat 48 a.detail)] }, ?_, rfl, rfl, rfl⟩
    rw [takePark_held h hp]
    exact group?_setGroup (s := emitRecord s (parkRecord s g a)) (g' := { g with held := _ }) (by simpa using h) hu

/-! ## Leaving an exception (R310, R311) -/

/-- Action 1 or 2 on a group whose halted copies are none and that holds no second record: its lanes move as the mask says, and the park
is over. -/
theorem releasePark_last {s : State} {uid : Nat} {g : Group} {p : Park} (h : s.group? uid = some g) (hp : g.park = some p) (hh : g.held = [])
    (hc : g.copies = []) (action : Nat) (mask : DWord) :
    releasePark s uid action mask = s.setGroup
      { g.modifyThreads (skippedLanes p action mask) fun t => { t with pc := t.pc + BitVec.ofNat 64 (4 * p.skip) } with
        copies := [], park := none, choice := choiceAfter p g.choice, sched := .waiting, elig := 0, waited := 0, ages := [], released := (s.cycles, p.seq.toNat) } := by
  have frame : ∀ (l : List Nat) (x : Group), (x.modifyThreads l fun t => { t with pc := t.pc + BitVec.ofNat 64 (4 * p.skip) }).held = x.held
      ∧ (x.modifyThreads l fun t => { t with pc := t.pc + BitVec.ofNat 64 (4 * p.skip) }).copies = x.copies
      ∧ (x.modifyThreads l fun t => { t with pc := t.pc + BitVec.ofNat 64 (4 * p.skip) }).choice = x.choice := by
    intro l
    induction l with
    | nil => intro x; exact ⟨rfl, rfl, rfl⟩
    | cons n l ih => intro x; exact ih (x.modifyThread n _)
  simp only [releasePark, h, hp, (frame _ g).1, (frame _ g).2.1, (frame _ g).2.2, hh, hc, List.map_nil]

end Sys2Proof.Machine
end

