-- ==== Sys2Proof/Laws/PerInstr.lean ====
section
/-! SUPPORT. Laws made per instruction. Family `SlotsSound`: the operand slots of the instruction write no more registers than they
name, which is what the zeros of EXT.PRED.Z rely on (R56). -/
namespace Sys2Proof.Laws

open Sys2Proof.Machine

set_option Elab.async false

/-- The slots of the instruction write no more registers than they name. -/
def SlotsSound.Statement (i : Instr) : Prop := slotsSound (slots i) = true

theorem SlotsSound.extPred (payload : BitVec 25) : SlotsSound.Statement (Instr.extPred payload) := rfl
theorem SlotsSound.extImm (payload : BitVec 25) : SlotsSound.Statement (Instr.extImm payload) := rfl
theorem SlotsSound.extShi (payload : BitVec 25) : SlotsSound.Statement (Instr.extShi payload) := rfl
theorem SlotsSound.extHint (payload : BitVec 25) : SlotsSound.Statement (Instr.extHint payload) := rfl
theorem SlotsSound.illegalInstruction (w : Word) : SlotsSound.Statement (Instr.illegalInstruction w) := rfl
theorem SlotsSound.iadd (iw : IW) (d : VReg) (a : VReg) (b : VReg) : SlotsSound.Statement (Instr.iadd iw d a b) := by simp [SlotsSound.Statement, slotsSound, slots, dslot, rslot]
theorem SlotsSound.isub (iw : IW) (d : VReg) (a : VReg) (b : VReg) : SlotsSound.Statement (Instr.isub iw d a b) := by simp [SlotsSound.Statement, slotsSound, slots, dslot, rslot]
theorem SlotsSound.imul (iw : IW) (d : VReg) (a : VReg) (b : VReg) : SlotsSound.Statement (Instr.imul iw d a b) := by simp [SlotsSound.Statement, slotsSound, slots, dslot, rslot]
theorem SlotsSound.imulhi (n : Bool) (d : VReg) (a : VReg) (b : VReg) : SlotsSound.Statement (Instr.imulhi n d a b) := rfl
theorem SlotsSound.imulw (n : Bool) (d : VReg) (a : VReg) (b : VReg) : SlotsSound.Statement (Instr.imulw n d a b) := rfl
theorem SlotsSound.idiv (iw : IW) (d : VReg) (a : VReg) (b : VReg) : SlotsSound.Statement (Instr.idiv iw d a b) := by simp [SlotsSound.Statement, slotsSound, slots, dslot, rslot]
theorem SlotsSound.irem (iw : IW) (d : VReg) (a : VReg) (b : VReg) : SlotsSound.Statement (Instr.irem iw d a b) := by simp [SlotsSound.Statement, slotsSound, slots, dslot, rslot]
theorem SlotsSound.imin (iw : IW) (d : VReg) (a : VReg) (b : VReg) : SlotsSound.Statement (Instr.imin iw d a b) := by simp [SlotsSound.Statement, slotsSound, slots, dslot, rslot]
theorem SlotsSound.imax (iw : IW) (d : VReg) (a : VReg) (b : VReg) : SlotsSound.Statement (Instr.imax iw d a b) := by simp [SlotsSound.Statement, slotsSound, slots, dslot, rslot]
theorem SlotsSound.and (d : VReg) (a : VReg) (b : VReg) : SlotsSound.Statement (Instr.and d a b) := rfl
theorem SlotsSound.or (d : VReg) (a : VReg) (b : VReg) : SlotsSound.Statement (Instr.or d a b) := rfl
theorem SlotsSound.xor (d : VReg) (a : VReg) (b : VReg) : SlotsSound.Statement (Instr.xor d a b) := rfl
theorem SlotsSound.andn (d : VReg) (a : VReg) (b : VReg) : SlotsSound.Statement (Instr.andn d a b) := rfl
theorem SlotsSound.shl (wide : Bool) (d : VReg) (a : VReg) (b : VReg) : SlotsSound.Statement (Instr.shl wide d a b) := by simp [SlotsSound.Statement, slotsSound, slots, dslot, rslot]
theorem SlotsSound.shr (wide : Bool) (d : VReg) (a : VReg) (b : VReg) : SlotsSound.Statement (Instr.shr wide d a b) := by simp [SlotsSound.Statement, slotsSound, slots, dslot, rslot]
theorem SlotsSound.sar (wide : Bool) (d : VReg) (a : VReg) (b : VReg) : SlotsSound.Statement (Instr.sar wide d a b) := by simp [SlotsSound.Statement, slotsSound, slots, dslot, rslot]
theorem SlotsSound.rol (wide : Bool) (d : VReg) (a : VReg) (b : VReg) : SlotsSound.Statement (Instr.rol wide d a b) := by simp [SlotsSound.Statement, slotsSound, slots, dslot, rslot]
theorem SlotsSound.bfe (n : Bool) (d : VReg) (a : VReg) (b : VReg) : SlotsSound.Statement (Instr.bfe n d a b) := rfl
theorem SlotsSound.bfi (d : VReg) (a : VReg) (b : VReg) : SlotsSound.Statement (Instr.bfi d a b) := rfl
theorem SlotsSound.popc (d : VReg) (a : VReg) : SlotsSound.Statement (Instr.popc d a) := rfl
theorem SlotsSound.clz (d : VReg) (a : VReg) : SlotsSound.Statement (Instr.clz d a) := rfl
theorem SlotsSound.ctz (d : VReg) (a : VReg) : SlotsSound.Statement (Instr.ctz d a) := rfl
theorem SlotsSound.brev (d : VReg) (a : VReg) : SlotsSound.Statement (Instr.brev d a) := rfl
theorem SlotsSound.icmpp (wide : Bool) (cmp : ICmp) (pd : PReg) (a : VReg) (b : VReg) : SlotsSound.Statement (Instr.icmpp wide cmp pd a b) := by simp [SlotsSound.Statement, slotsSound, slots, dslot, rslot]
theorem SlotsSound.pand (pd : PReg) (pa : PReg) (pb : PReg) : SlotsSound.Statement (Instr.pand pd pa pb) := rfl
theorem SlotsSound.por (pd : PReg) (pa : PReg) (pb : PReg) : SlotsSound.Statement (Instr.por pd pa pb) := rfl
theorem SlotsSound.pxor (pd : PReg) (pa : PReg) (pb : PReg) : SlotsSound.Statement (Instr.pxor pd pa pb) := rfl
theorem SlotsSound.pandn (pd : PReg) (pa : PReg) (pb : PReg) : SlotsSound.Statement (Instr.pandn pd pa pb) := rfl
theorem SlotsSound.sel (ps : PReg) (d : VReg) (a : VReg) (b : VReg) : SlotsSound.Statement (Instr.sel ps d a b) := rfl
theorem SlotsSound.iaddi (d : VReg) (a : VReg) (imm : BitVec 11) : SlotsSound.Statement (Instr.iaddi d a imm) := rfl
theorem SlotsSound.movi (d : VReg) (imm : BitVec 11) : SlotsSound.Statement (Instr.movi d imm) := rfl
theorem SlotsSound.andi (d : VReg) (a : VReg) (imm : BitVec 11) : SlotsSound.Statement (Instr.andi d a imm) := rfl
theorem SlotsSound.ori (d : VReg) (a : VReg) (imm : BitVec 11) : SlotsSound.Statement (Instr.ori d a imm) := rfl
theorem SlotsSound.xori (d : VReg) (a : VReg) (imm : BitVec 11) : SlotsSound.Statement (Instr.xori d a imm) := rfl
theorem SlotsSound.shli (d : VReg) (a : VReg) (cnt : BitVec 5) : SlotsSound.Statement (Instr.shli d a cnt) := rfl
theorem SlotsSound.shri (d : VReg) (a : VReg) (cnt : BitVec 5) : SlotsSound.Statement (Instr.shri d a cnt) := rfl
theorem SlotsSound.sari (d : VReg) (a : VReg) (cnt : BitVec 5) : SlotsSound.Statement (Instr.sari d a cnt) := rfl
theorem SlotsSound.roli (d : VReg) (a : VReg) (cnt : BitVec 5) : SlotsSound.Statement (Instr.roli d a cnt) := rfl
theorem SlotsSound.icmppi (cmp : ICmp) (pd : PReg) (a : VReg) (imm : BitVec 11) : SlotsSound.Statement (Instr.icmppi cmp pd a imm) := rfl
theorem SlotsSound.lea (sx : Bool) (sh : BitVec 3) (d : VReg) (a : VReg) (b : VReg) : SlotsSound.Statement (Instr.lea sx sh d a b) := rfl
theorem SlotsSound.leai (d : VReg) (a : VReg) (imm : BitVec 11) : SlotsSound.Statement (Instr.leai d a imm) := rfl
theorem SlotsSound.bra (g : Guard) (off : BitVec 20) : SlotsSound.Statement (Instr.bra g off) := rfl
theorem SlotsSound.call (g : Guard) (off : BitVec 20) : SlotsSound.Statement (Instr.call g off) := rfl
theorem SlotsSound.jmpi (a : VReg) : SlotsSound.Statement (Instr.jmpi a) := rfl
theorem SlotsSound.calli (d : VReg) (a : VReg) : SlotsSound.Statement (Instr.calli d a) := rfl
theorem SlotsSound.ret (a : VReg) : SlotsSound.Statement (Instr.ret a) := rfl
theorem SlotsSound.nop : SlotsSound.Statement (Instr.nop) := rfl
theorem SlotsSound.land : SlotsSound.Statement (Instr.land) := rfl
theorem SlotsSound.yield : SlotsSound.Statement (Instr.yield) := rfl
theorem SlotsSound.exit : SlotsSound.Statement (Instr.exit) := rfl
theorem SlotsSound.brk : SlotsSound.Statement (Instr.brk) := rfl
theorem SlotsSound.join (a : SReg) : SlotsSound.Statement (Instr.join a) := rfl
theorem SlotsSound.srd (d : VReg) (idx : BitVec 8) : SlotsSound.Statement (Instr.srd d idx) := by simp [SlotsSound.Statement, slotsSound, slots, dslot]
theorem SlotsSound.swr (a : VReg) (idx : BitVec 8) : SlotsSound.Statement (Instr.swr a idx) := rfl
theorem SlotsSound.resume (d : VReg) (a : VReg) (b : VReg) : SlotsSound.Statement (Instr.resume d a b) := rfl
theorem SlotsSound.gsave (d : VReg) (b : VReg) : SlotsSound.Statement (Instr.gsave d b) := rfl
theorem SlotsSound.gload (d : VReg) (b : VReg) : SlotsSound.Statement (Instr.gload d b) := rfl
theorem SlotsSound.fqpop (d : VReg) (a : VReg) (b : VReg) : SlotsSound.Statement (Instr.fqpop d a b) := rfl
theorem SlotsSound.trap (imm : BitVec 11) : SlotsSound.Statement (Instr.trap imm) := rfl
theorem SlotsSound.fadd (ft : FT) (d : VReg) (a : VReg) (b : VReg) : SlotsSound.Statement (Instr.fadd ft d a b) := by simp [SlotsSound.Statement, slotsSound, slots, dslot, rslot]
theorem SlotsSound.fsub (ft : FT) (d : VReg) (a : VReg) (b : VReg) : SlotsSound.Statement (Instr.fsub ft d a b) := by simp [SlotsSound.Statement, slotsSound, slots, dslot, rslot]
theorem SlotsSound.fmul (ft : FT) (d : VReg) (a : VReg) (b : VReg) : SlotsSound.Statement (Instr.fmul ft d a b) := by simp [SlotsSound.Statement, slotsSound, slots, dslot, rslot]
theorem SlotsSound.ffma (ft : FT) (d : VReg) (a : VReg) (b : VReg) : SlotsSound.Statement (Instr.ffma ft d a b) := by simp [SlotsSound.Statement, slotsSound, slots, dslot, rslot]
theorem SlotsSound.fdiv (ft : FT) (d : VReg) (a : VReg) (b : VReg) : SlotsSound.Statement (Instr.fdiv ft d a b) := by simp [SlotsSound.Statement, slotsSound, slots, dslot, rslot]
theorem SlotsSound.fsqrt (ft : FT) (d : VReg) (a : VReg) : SlotsSound.Statement (Instr.fsqrt ft d a) := by simp [SlotsSound.Statement, slotsSound, slots, dslot, rslot]
theorem SlotsSound.frcp (ft : FT) (d : VReg) (a : VReg) : SlotsSound.Statement (Instr.frcp ft d a) := by simp [SlotsSound.Statement, slotsSound, slots, dslot, rslot]
theorem SlotsSound.frsq (ft : FT) (d : VReg) (a : VReg) : SlotsSound.Statement (Instr.frsq ft d a) := by simp [SlotsSound.Statement, slotsSound, slots, dslot, rslot]
theorem SlotsSound.exp2 (d : VReg) (a : VReg) : SlotsSound.Statement (Instr.exp2 d a) := rfl
theorem SlotsSound.log2 (d : VReg) (a : VReg) : SlotsSound.Statement (Instr.log2 d a) := rfl
theorem SlotsSound.sin (d : VReg) (a : VReg) : SlotsSound.Statement (Instr.sin d a) := rfl
theorem SlotsSound.cos (d : VReg) (a : VReg) : SlotsSound.Statement (Instr.cos d a) := rfl
theorem SlotsSound.fmin (ft : FT) (d : VReg) (a : VReg) (b : VReg) : SlotsSound.Statement (Instr.fmin ft d a b) := by simp [SlotsSound.Statement, slotsSound, slots, dslot, rslot]
theorem SlotsSound.fmax (ft : FT) (d : VReg) (a : VReg) (b : VReg) : SlotsSound.Statement (Instr.fmax ft d a b) := by simp [SlotsSound.Statement, slotsSound, slots, dslot, rslot]
theorem SlotsSound.fcmpp (ft : FT) (cmp : FCmp) (pd : PReg) (a : VReg) (b : VReg) : SlotsSound.Statement (Instr.fcmpp ft cmp pd a b) := by simp [SlotsSound.Statement, slotsSound, slots, dslot, rslot]
theorem SlotsSound.fclass (ft : FT) (d : VReg) (a : VReg) : SlotsSound.Statement (Instr.fclass ft d a) := by simp [SlotsSound.Statement, slotsSound, slots, dslot, rslot]
theorem SlotsSound.fabs (ft : FT) (d : VReg) (a : VReg) : SlotsSound.Statement (Instr.fabs ft d a) := by simp [SlotsSound.Statement, slotsSound, slots, dslot, rslot]
theorem SlotsSound.fneg (ft : FT) (d : VReg) (a : VReg) : SlotsSound.Statement (Instr.fneg ft d a) := by simp [SlotsSound.Statement, slotsSound, slots, dslot, rslot]
theorem SlotsSound.fcpys (ft : FT) (d : VReg) (a : VReg) (b : VReg) : SlotsSound.Statement (Instr.fcpys ft d a b) := by simp [SlotsSound.Statement, slotsSound, slots, dslot, rslot]
theorem SlotsSound.cvtf (src : FT) (dst : FT) (d : VReg) (a : VReg) : SlotsSound.Statement (Instr.cvtf src dst d a) := by simp [SlotsSound.Statement, slotsSound, slots, dslot, rslot]
theorem SlotsSound.cvtfi (src : FT) (dst : IW) (d : VReg) (a : VReg) : SlotsSound.Statement (Instr.cvtfi src dst d a) := by simp [SlotsSound.Statement, slotsSound, slots, dslot, rslot]
theorem SlotsSound.cvtif (src : IW) (dst : FT) (d : VReg) (a : VReg) : SlotsSound.Statement (Instr.cvtif src dst d a) := by simp [SlotsSound.Statement, slotsSound, slots, dslot, rslot]
theorem SlotsSound.fscale (ft : FT) (d : VReg) (a : VReg) (b : VReg) : SlotsSound.Statement (Instr.fscale ft d a b) := by simp [SlotsSound.Statement, slotsSound, slots, dslot, rslot]
theorem SlotsSound.frnd (ft : FT) (d : VReg) (a : VReg) : SlotsSound.Statement (Instr.frnd ft d a) := by simp [SlotsSound.Statement, slotsSound, slots, dslot, rslot]
theorem SlotsSound.faddx (fw : FW) (d : VReg) (a : VReg) (b : VReg) : SlotsSound.Statement (Instr.faddx fw d a b) := by simp [SlotsSound.Statement, slotsSound, slots, dslot, rslot]
theorem SlotsSound.fsubx (fw : FW) (d : VReg) (a : VReg) (b : VReg) : SlotsSound.Statement (Instr.fsubx fw d a b) := by simp [SlotsSound.Statement, slotsSound, slots, dslot, rslot]
theorem SlotsSound.fmulx (fw : FW) (d : VReg) (a : VReg) (b : VReg) : SlotsSound.Statement (Instr.fmulx fw d a b) := by simp [SlotsSound.Statement, slotsSound, slots, dslot, rslot]
theorem SlotsSound.dwadd (fw : FW) (d : VReg) (a : VReg) (b : VReg) : SlotsSound.Statement (Instr.dwadd fw d a b) := by simp [SlotsSound.Statement, slotsSound, slots, dslot, rslot]
theorem SlotsSound.dwsub (fw : FW) (d : VReg) (a : VReg) (b : VReg) : SlotsSound.Statement (Instr.dwsub fw d a b) := by simp [SlotsSound.Statement, slotsSound, slots, dslot, rslot]
theorem SlotsSound.dwmul (fw : FW) (d : VReg) (a : VReg) (b : VReg) : SlotsSound.Statement (Instr.dwmul fw d a b) := by simp [SlotsSound.Statement, slotsSound, slots, dslot, rslot]
theorem SlotsSound.dwfma (fw : FW) (d : VReg) (a : VReg) (b : VReg) : SlotsSound.Statement (Instr.dwfma fw d a b) := by simp [SlotsSound.Statement, slotsSound, slots, dslot, rslot]
theorem SlotsSound.dwnorm (fw : FW) (d : VReg) (a : VReg) : SlotsSound.Statement (Instr.dwnorm fw d a) := by simp [SlotsSound.Statement, slotsSound, slots, dslot, rslot]
theorem SlotsSound.pack (nf : NF) (d : VReg) (a : VReg) (b : VReg) : SlotsSound.Statement (Instr.pack nf d a b) := by simp [SlotsSound.Statement, slotsSound, slots, dslot, rslot]
theorem SlotsSound.unpk (nf : NF) (d : VReg) (a : VReg) (b : VReg) : SlotsSound.Statement (Instr.unpk nf d a b) := by simp [SlotsSound.Statement, slotsSound, slots, dslot, rslot]
theorem SlotsSound.sadd (d : SReg) (a : SReg) (b : SReg) : SlotsSound.Statement (Instr.sadd d a b) := rfl
theorem SlotsSound.ssub (d : SReg) (a : SReg) (b : SReg) : SlotsSound.Statement (Instr.ssub d a b) := rfl
theorem SlotsSound.smul (d : SReg) (a : SReg) (b : SReg) : SlotsSound.Statement (Instr.smul d a b) := rfl
theorem SlotsSound.smulhi (d : SReg) (a : SReg) (b : SReg) : SlotsSound.Statement (Instr.smulhi d a b) := rfl
theorem SlotsSound.sand (d : SReg) (a : SReg) (b : SReg) : SlotsSound.Statement (Instr.sand d a b) := rfl
theorem SlotsSound.sor (d : SReg) (a : SReg) (b : SReg) : SlotsSound.Statement (Instr.sor d a b) := rfl
theorem SlotsSound.sxor (d : SReg) (a : SReg) (b : SReg) : SlotsSound.Statement (Instr.sxor d a b) := rfl
theorem SlotsSound.sandn (d : SReg) (a : SReg) (b : SReg) : SlotsSound.Statement (Instr.sandn d a b) := rfl
theorem SlotsSound.sshl (d : SReg) (a : SReg) (b : SReg) : SlotsSound.Statement (Instr.sshl d a b) := rfl
theorem SlotsSound.sshr (d : SReg) (a : SReg) (b : SReg) : SlotsSound.Statement (Instr.sshr d a b) := rfl
theorem SlotsSound.smin (d : SReg) (a : SReg) (b : SReg) : SlotsSound.Statement (Instr.smin d a b) := rfl
theorem SlotsSound.smax (d : SReg) (a : SReg) (b : SReg) : SlotsSound.Statement (Instr.smax d a b) := rfl
theorem SlotsSound.saddi (d : SReg) (a : SReg) (imm : BitVec 9) : SlotsSound.Statement (Instr.saddi d a imm) := rfl
theorem SlotsSound.smovi (d : SReg) (imm : BitVec 9) : SlotsSound.Statement (Instr.smovi d imm) := rfl
theorem SlotsSound.scmpp (cmp : ICmp) (pd : PReg) (a : SReg) (b : SReg) : SlotsSound.Statement (Instr.scmpp cmp pd a b) := rfl
theorem SlotsSound.sbrz (d : SReg) (imm : BitVec 9) : SlotsSound.Statement (Instr.sbrz d imm) := rfl
theorem SlotsSound.sbrnz (d : SReg) (imm : BitVec 9) : SlotsSound.Statement (Instr.sbrnz d imm) := rfl
theorem SlotsSound.sldI32 (d : SReg7) (a : SReg7) (off : BitVec 6) (ord : MemOrder) (sc : Scope) : SlotsSound.Statement (Instr.sldI32 d a off ord sc) := rfl
theorem SlotsSound.sldI64 (d : SReg7) (a : SReg7) (off : BitVec 6) (ord : MemOrder) (sc : Scope) : SlotsSound.Statement (Instr.sldI64 d a off ord sc) := rfl
theorem SlotsSound.sstI32 (d : SReg7) (a : SReg7) (off : BitVec 6) (ord : MemOrder) (sc : Scope) : SlotsSound.Statement (Instr.sstI32 d a off ord sc) := rfl
theorem SlotsSound.sstI64 (d : SReg7) (a : SReg7) (off : BitVec 6) (ord : MemOrder) (sc : Scope) : SlotsSound.Statement (Instr.sstI64 d a off ord sc) := rfl
theorem SlotsSound.movsv (d : VReg) (a : SReg7) : SlotsSound.Statement (Instr.movsv d a) := rfl
theorem SlotsSound.movvs (d : SReg7) (a : VReg) : SlotsSound.Statement (Instr.movvs d a) := rfl
theorem SlotsSound.lgetAbs (d : VReg) (a : VReg) (b : VReg) : SlotsSound.Statement (Instr.lgetAbs d a b) := rfl
theorem SlotsSound.lgetBelow (d : VReg) (a : VReg) (b : VReg) : SlotsSound.Statement (Instr.lgetBelow d a b) := rfl
theorem SlotsSound.lgetAbove (d : VReg) (a : VReg) (b : VReg) : SlotsSound.Statement (Instr.lgetAbove d a b) := rfl
theorem SlotsSound.lgetFlip (d : VReg) (a : VReg) (b : VReg) : SlotsSound.Statement (Instr.lgetFlip d a b) := rfl
theorem SlotsSound.lany (pd : PReg) (ps : PReg) : SlotsSound.Statement (Instr.lany pd ps) := rfl
theorem SlotsSound.lall (pd : PReg) (ps : PReg) : SlotsSound.Statement (Instr.lall pd ps) := rfl
theorem SlotsSound.lmask (d : VReg) (ps : PReg) : SlotsSound.Statement (Instr.lmask d ps) := rfl
theorem SlotsSound.llead (pd : PReg) : SlotsSound.Statement (Instr.llead pd) := rfl
theorem SlotsSound.redf (fw : FW) (d : VReg) (a : VReg) : SlotsSound.Statement (Instr.redf fw d a) := by simp [SlotsSound.Statement, slotsSound, slots, dslot, rslot]
theorem SlotsSound.redx (fw : FW) (d : VReg) (a : VReg) : SlotsSound.Statement (Instr.redx fw d a) := by simp [SlotsSound.Statement, slotsSound, slots, dslot, rslot]
theorem SlotsSound.rediAddI32 (d : VReg) (a : VReg) : SlotsSound.Statement (Instr.rediAddI32 d a) := rfl
theorem SlotsSound.rediMinI32 (d : VReg) (a : VReg) : SlotsSound.Statement (Instr.rediMinI32 d a) := rfl
theorem SlotsSound.rediMaxI32 (d : VReg) (a : VReg) : SlotsSound.Statement (Instr.rediMaxI32 d a) := rfl
theorem SlotsSound.rediMinN32 (d : VReg) (a : VReg) : SlotsSound.Statement (Instr.rediMinN32 d a) := rfl
theorem SlotsSound.rediMaxN32 (d : VReg) (a : VReg) : SlotsSound.Statement (Instr.rediMaxN32 d a) := rfl
theorem SlotsSound.rediAnd (d : VReg) (a : VReg) : SlotsSound.Statement (Instr.rediAnd d a) := rfl
theorem SlotsSound.rediOr (d : VReg) (a : VReg) : SlotsSound.Statement (Instr.rediOr d a) := rfl
theorem SlotsSound.rediXor (d : VReg) (a : VReg) : SlotsSound.Statement (Instr.rediXor d a) := rfl
theorem SlotsSound.scaniAddI32 (d : VReg) (a : VReg) : SlotsSound.Statement (Instr.scaniAddI32 d a) := rfl
theorem SlotsSound.scaniAddI32Excl (d : VReg) (a : VReg) : SlotsSound.Statement (Instr.scaniAddI32Excl d a) := rfl
theorem SlotsSound.scanfF32 (d : VReg) (a : VReg) : SlotsSound.Statement (Instr.scanfF32 d a) := rfl
theorem SlotsSound.scanxF32 (d : VReg) (a : VReg) : SlotsSound.Statement (Instr.scanxF32 d a) := rfl
theorem SlotsSound.regroup (d : VReg) (a : VReg) (b : SReg7) : SlotsSound.Statement (Instr.regroup d a b) := rfl
theorem SlotsSound.randN32 (d : VReg) : SlotsSound.Statement (Instr.randN32 d) := rfl
theorem SlotsSound.randF32 (d : VReg) : SlotsSound.Statement (Instr.randF32 d) := rfl
theorem SlotsSound.randN64 (d : VReg) : SlotsSound.Statement (Instr.randN64 d) := rfl
theorem SlotsSound.rdvMark (d : SReg) (bar : BitVec 8) (lvl : BitVec 2) : SlotsSound.Statement (Instr.rdvMark d bar lvl) := rfl
theorem SlotsSound.rdvHold (d : SReg) (bar : BitVec 8) (lvl : BitVec 2) : SlotsSound.Statement (Instr.rdvHold d bar lvl) := rfl
theorem SlotsSound.rdvMeet (d : SReg) (bar : BitVec 8) (lvl : BitVec 2) : SlotsSound.Statement (Instr.rdvMeet d bar lvl) := rfl
theorem SlotsSound.rdvPeek (d : SReg) (bar : BitVec 8) (lvl : BitVec 2) : SlotsSound.Statement (Instr.rdvPeek d bar lvl) := rfl
theorem SlotsSound.pmovToV (d : VReg) : SlotsSound.Statement (Instr.pmovToV d) := rfl
theorem SlotsSound.pmovToP (a : VReg) : SlotsSound.Statement (Instr.pmovToP a) := rfl
theorem SlotsSound.ldI32 (d : VReg) (a : VReg) (off : BitVec 6) (ord : MemOrder) (sc : Scope) : SlotsSound.Statement (Instr.ldI32 d a off ord sc) := rfl
theorem SlotsSound.ldI64 (d : VReg) (a : VReg) (off : BitVec 6) (ord : MemOrder) (sc : Scope) : SlotsSound.Statement (Instr.ldI64 d a off ord sc) := rfl
theorem SlotsSound.stI32 (d : VReg) (a : VReg) (off : BitVec 6) (ord : MemOrder) (sc : Scope) : SlotsSound.Statement (Instr.stI32 d a off ord sc) := rfl
theorem SlotsSound.stI64 (d : VReg) (a : VReg) (off : BitVec 6) (ord : MemOrder) (sc : Scope) : SlotsSound.Statement (Instr.stI64 d a off ord sc) := rfl
theorem SlotsSound.ldI8 (d : VReg) (a : VReg) (b : VReg) : SlotsSound.Statement (Instr.ldI8 d a b) := rfl
theorem SlotsSound.ldN8 (d : VReg) (a : VReg) (b : VReg) : SlotsSound.Statement (Instr.ldN8 d a b) := rfl
theorem SlotsSound.ldI16 (d : VReg) (a : VReg) (b : VReg) : SlotsSound.Statement (Instr.ldI16 d a b) := rfl
theorem SlotsSound.ldN16 (d : VReg) (a : VReg) (b : VReg) : SlotsSound.Statement (Instr.ldN16 d a b) := rfl
theorem SlotsSound.ldq (d : VReg) (a : VReg) (b : VReg) : SlotsSound.Statement (Instr.ldq d a b) := rfl
theorem SlotsSound.stI8 (d : VReg) (a : VReg) (b : VReg) : SlotsSound.Statement (Instr.stI8 d a b) := rfl
theorem SlotsSound.stI16 (d : VReg) (a : VReg) (b : VReg) : SlotsSound.Statement (Instr.stI16 d a b) := rfl
theorem SlotsSound.stq (d : VReg) (a : VReg) (b : VReg) : SlotsSound.Statement (Instr.stq d a b) := rfl
theorem SlotsSound.dld (d : VReg) (a : VReg) (b : VReg) : SlotsSound.Statement (Instr.dld d a b) := rfl
theorem SlotsSound.dst (d : VReg) (a : VReg) (b : VReg) : SlotsSound.Statement (Instr.dst d a b) := rfl
theorem SlotsSound.segq (d : VReg) (a : VReg) (b : VReg) : SlotsSound.Statement (Instr.segq d a b) := rfl
theorem SlotsSound.segset (d : VReg) (a : VReg) (b : VReg) : SlotsSound.Statement (Instr.segset d a b) := rfl
theorem SlotsSound.pref (a : VReg) (b : VReg) : SlotsSound.Statement (Instr.pref a b) := rfl
theorem SlotsSound.atomAddI32 (d : VReg) (a : VReg) (ord : MemOrder) (sc : Scope) : SlotsSound.Statement (Instr.atomAddI32 d a ord sc) := rfl
theorem SlotsSound.atomMinI32 (d : VReg) (a : VReg) (ord : MemOrder) (sc : Scope) : SlotsSound.Statement (Instr.atomMinI32 d a ord sc) := rfl
theorem SlotsSound.atomMaxI32 (d : VReg) (a : VReg) (ord : MemOrder) (sc : Scope) : SlotsSound.Statement (Instr.atomMaxI32 d a ord sc) := rfl
theorem SlotsSound.atomMinN32 (d : VReg) (a : VReg) (ord : MemOrder) (sc : Scope) : SlotsSound.Statement (Instr.atomMinN32 d a ord sc) := rfl
theorem SlotsSound.atomMaxN32 (d : VReg) (a : VReg) (ord : MemOrder) (sc : Scope) : SlotsSound.Statement (Instr.atomMaxN32 d a ord sc) := rfl
theorem SlotsSound.atomAnd (d : VReg) (a : VReg) (ord : MemOrder) (sc : Scope) : SlotsSound.Statement (Instr.atomAnd d a ord sc) := rfl
theorem SlotsSound.atomOr (d : VReg) (a : VReg) (ord : MemOrder) (sc : Scope) : SlotsSound.Statement (Instr.atomOr d a ord sc) := rfl
theorem SlotsSound.atomXor (d : VReg) (a : VReg) (ord : MemOrder) (sc : Scope) : SlotsSound.Statement (Instr.atomXor d a ord sc) := rfl
theorem SlotsSound.atomXchgI32 (d : VReg) (a : VReg) (ord : MemOrder) (sc : Scope) : SlotsSound.Statement (Instr.atomXchgI32 d a ord sc) := rfl
theorem SlotsSound.atomCasI32 (d : VReg) (a : VReg) (ord : MemOrder) (sc : Scope) : SlotsSound.Statement (Instr.atomCasI32 d a ord sc) := rfl
theorem SlotsSound.atomAddF32 (d : VReg) (a : VReg) (ord : MemOrder) (sc : Scope) : SlotsSound.Statement (Instr.atomAddF32 d a ord sc) := rfl
theorem SlotsSound.atomAddI64 (d : VReg) (a : VReg) (ord : MemOrder) (sc : Scope) : SlotsSound.Statement (Instr.atomAddI64 d a ord sc) := rfl
theorem SlotsSound.atomXchgI64 (d : VReg) (a : VReg) (ord : MemOrder) (sc : Scope) : SlotsSound.Statement (Instr.atomXchgI64 d a ord sc) := rfl
theorem SlotsSound.atomCasI64 (d : VReg) (a : VReg) (ord : MemOrder) (sc : Scope) : SlotsSound.Statement (Instr.atomCasI64 d a ord sc) := rfl
theorem SlotsSound.fence (ord : MemOrder) (sc : Scope) : SlotsSound.Statement (Instr.fence ord sc) := rfl
theorem SlotsSound.wait (ld : BitVec 4) (st : BitVec 4) (cp : BitVec 4) (mx : BitVec 4) (cl : BitVec 4) : SlotsSound.Statement (Instr.wait ld st cp mx cl) := rfl
theorem SlotsSound.rinst (sh : SReg) (co : SReg) (cs : SReg) : SlotsSound.Statement (Instr.rinst sh co cs) := rfl
theorem SlotsSound.rfit (sh : SReg) (cs : SReg) : SlotsSound.Statement (Instr.rfit sh cs) := rfl
theorem SlotsSound.rdem (sh : SReg) (cs : SReg) : SlotsSound.Statement (Instr.rdem sh cs) := rfl
theorem SlotsSound.rabort (sh : SReg) (cs : SReg) : SlotsSound.Statement (Instr.rabort sh cs) := rfl
theorem SlotsSound.rldg (d : VReg) (a : VReg) (ord : MemOrder) (sc : Scope) : SlotsSound.Statement (Instr.rldg d a ord sc) := rfl
theorem SlotsSound.rstat (d : SReg) (a : SReg) (b : SReg) : SlotsSound.Statement (Instr.rstat d a b) := rfl
theorem SlotsSound.cpy (sh : SReg) (co : SReg) (cs : SReg) : SlotsSound.Statement (Instr.cpy sh co cs) := rfl
theorem SlotsSound.cpyt (sh : SReg) (co : SReg) (cs : SReg) : SlotsSound.Statement (Instr.cpyt sh co cs) := rfl
theorem SlotsSound.cvtc (sh : SReg) (co : SReg) (cs : SReg) : SlotsSound.Statement (Instr.cvtc sh co cs) := rfl
theorem SlotsSound.qnt (sh : SReg) (co : SReg) (cs : SReg) : SlotsSound.Statement (Instr.qnt sh co cs) := rfl
theorem SlotsSound.rmat (sh : SReg) (co : SReg) (cs : SReg) : SlotsSound.Statement (Instr.rmat sh co cs) := rfl
theorem SlotsSound.cpfill (sh : SReg) (co : SReg) (cs : SReg) : SlotsSound.Statement (Instr.cpfill sh co cs) := rfl
theorem SlotsSound.cpst (d : SReg) (b : SReg) : SlotsSound.Statement (Instr.cpst d b) := rfl
theorem SlotsSound.cpcan (d : SReg) (a : SReg) : SlotsSound.Statement (Instr.cpcan d a) := rfl
theorem SlotsSound.tld (ovr : BitVec 5) (ta : TReg) (mb : SReg) : SlotsSound.Statement (Instr.tld ovr ta mb) := rfl
theorem SlotsSound.tstr (ta : TReg) (mb : SReg) : SlotsSound.Statement (Instr.tstr ta mb) := rfl
theorem SlotsSound.mma (acc : AReg) (ta : TReg) (tb : TReg) (mb : SReg) : SlotsSound.Statement (Instr.mma acc ta tb mb) := rfl
theorem SlotsSound.mmaDw (acc : AReg) (ta : TReg) (tb : TReg) (mb : SReg) : SlotsSound.Statement (Instr.mmaDw acc ta tb mb) := rfl
theorem SlotsSound.tzero (fmt : BitVec 5) (ta : TReg) : SlotsSound.Statement (Instr.tzero fmt ta) := rfl
theorem SlotsSound.azero (tag : ATag) (acc : AReg) : SlotsSound.Statement (Instr.azero tag acc) := by simp [SlotsSound.Statement, slotsSound, slots, rslot]
theorem SlotsSound.amov (acc : AReg) (asrc : AReg) : SlotsSound.Statement (Instr.amov acc asrc) := rfl
theorem SlotsSound.ald (tag : ATag) (acc : AReg) (mb : SReg) : SlotsSound.Statement (Instr.ald tag acc mb) := by simp [SlotsSound.Statement, slotsSound, slots, rslot]
theorem SlotsSound.ast (acc : AReg) (mb : SReg) : SlotsSound.Statement (Instr.ast acc mb) := rfl
theorem SlotsSound.asnap (acc : AReg) (adst : AReg) (mb : SReg) : SlotsSound.Statement (Instr.asnap acc adst mb) := rfl
theorem SlotsSound.ttrn (ta : TReg) (tb : TReg) : SlotsSound.Statement (Instr.ttrn ta tb) := rfl
theorem SlotsSound.gbind (sh : SReg) (co : SReg) (cs : SReg) : SlotsSound.Statement (Instr.gbind sh co cs) := rfl
theorem SlotsSound.grebind (sh : SReg) (co : SReg) (cs : SReg) : SlotsSound.Statement (Instr.grebind sh co cs) := rfl
theorem SlotsSound.gstat (d : SReg) (a : SReg) (b : SReg) : SlotsSound.Statement (Instr.gstat d a b) := rfl
theorem SlotsSound.chstat (d : SReg) (a : SReg) (b : SReg) : SlotsSound.Statement (Instr.chstat d a b) := rfl
theorem SlotsSound.fire (pd : PReg) (a : SReg) : SlotsSound.Statement (Instr.fire pd a) := rfl
theorem SlotsSound.fend (a : SReg) (b : SReg) : SlotsSound.Statement (Instr.fend a b) := rfl
theorem SlotsSound.send (a : SReg) (b : SReg) : SlotsSound.Statement (Instr.send a b) := rfl
theorem SlotsSound.recv (pd : PReg) (a : SReg) (b : SReg) : SlotsSound.Statement (Instr.recv pd a b) := rfl
theorem SlotsSound.seal (pdead : Bool) : SlotsSound.Statement (Instr.seal pdead) := rfl
theorem SlotsSound.sealreq (d : SReg) : SlotsSound.Statement (Instr.sealreq d) := rfl
theorem SlotsSound.rvrd (d : SReg) (b : SReg) : SlotsSound.Statement (Instr.rvrd d b) := rfl
theorem SlotsSound.coll (sh : SReg) (co : SReg) (cs : SReg) : SlotsSound.Statement (Instr.coll sh co cs) := rfl
theorem SlotsSound.lease (sh : SReg) (cs : SReg) : SlotsSound.Statement (Instr.lease sh cs) := rfl
theorem SlotsSound.clarb (d : SReg) (a : SReg) : SlotsSound.Statement (Instr.clarb d a) := rfl
theorem SlotsSound.clstat (d : SReg) (b : SReg) : SlotsSound.Statement (Instr.clstat d b) := rfl
theorem SlotsSound.loadValueReturn (g : Nat) (n : Nat) : SlotsSound.Statement (Instr.loadValueReturn g n) := rfl
theorem SlotsSound.storePerformed (g : Nat) (n : Nat) : SlotsSound.Statement (Instr.storePerformed g n) := rfl
theorem SlotsSound.eligibilityPromotion (g : Nat) : SlotsSound.Statement (Instr.eligibilityPromotion g) := rfl
theorem SlotsSound.copyCompletion (g : Nat) : SlotsSound.Statement (Instr.copyCompletion g) := rfl
theorem SlotsSound.copyHalt (g : Nat) (n : Nat) : SlotsSound.Statement (Instr.copyHalt g n) := rfl
theorem SlotsSound.mmaCompletion (g : Nat) : SlotsSound.Statement (Instr.mmaCompletion g) := rfl
theorem SlotsSound.springOperationArrival (g : Nat) (n : Nat) : SlotsSound.Statement (Instr.springOperationArrival g n) := rfl
theorem SlotsSound.installEnd (hdr : Nat) : SlotsSound.Statement (Instr.installEnd hdr) := rfl
theorem SlotsSound.refitCommit (hdr : Nat) : SlotsSound.Statement (Instr.refitCommit hdr) := rfl
theorem SlotsSound.demotionEnd (hdr : Nat) : SlotsSound.Statement (Instr.demotionEnd hdr) := rfl
theorem SlotsSound.regionOperationCompletion (g : Nat) : SlotsSound.Statement (Instr.regionOperationCompletion g) := rfl
theorem SlotsSound.bind (g : Nat) (n : Nat) : SlotsSound.Statement (Instr.bind g n) := rfl
theorem SlotsSound.rebind (g : Nat) (n : Nat) : SlotsSound.Statement (Instr.rebind g n) := rfl
theorem SlotsSound.collReadyPassed (g : Nat) (n : Nat) : SlotsSound.Statement (Instr.collReadyPassed g n) := rfl
theorem SlotsSound.collectiveCompletion (g : Nat) (x : Exchange) : SlotsSound.Statement (Instr.collectiveCompletion g x) := rfl
theorem SlotsSound.leaseCompletion (g : Nat) : SlotsSound.Statement (Instr.leaseCompletion g) := rfl
theorem SlotsSound.faultQueueEntryWrite (ctx : Nat) : SlotsSound.Statement (Instr.faultQueueEntryWrite ctx) := rfl
theorem SlotsSound.recordWrite : SlotsSound.Statement (Instr.recordWrite) := rfl
theorem SlotsSound.contextSave (ctx : Nat) : SlotsSound.Statement (Instr.contextSave ctx) := rfl
theorem SlotsSound.watchdog (l : Nat) : SlotsSound.Statement (Instr.watchdog l) := rfl
theorem SlotsSound.stallLimit : SlotsSound.Statement (Instr.stallLimit) := rfl
theorem SlotsSound.sealPeriod : SlotsSound.Statement (Instr.sealPeriod) := rfl
theorem SlotsSound.sealTrigger : SlotsSound.Statement (Instr.sealTrigger) := rfl
theorem SlotsSound.prepare (r : BitVec 16) : SlotsSound.Statement (Instr.prepare r) := rfl
theorem SlotsSound.ready : SlotsSound.Statement (Instr.ready) := rfl
theorem SlotsSound.sealTimeout : SlotsSound.Statement (Instr.sealTimeout) := rfl
theorem SlotsSound.abort (r : BitVec 16) : SlotsSound.Statement (Instr.abort r) := rfl
theorem SlotsSound.commit (r : BitVec 16) : SlotsSound.Statement (Instr.commit r) := rfl
theorem SlotsSound.rintagAgeing : SlotsSound.Statement (Instr.rintagAgeing) := rfl
theorem SlotsSound.uncorrectableMemoryError (e : ErrReport) : SlotsSound.Statement (Instr.uncorrectableMemoryError e) := rfl
theorem SlotsSound.correctableError (e : ErrReport) : SlotsSound.Statement (Instr.correctableError e) := rfl
theorem SlotsSound.fabricPortError (port : BitVec 5) (pass : Bool) : SlotsSound.Statement (Instr.fabricPortError port pass) := rfl
theorem SlotsSound.noRoute (dev : BitVec 10) : SlotsSound.Statement (Instr.noRoute dev) := rfl
theorem SlotsSound.peerAccessArrival (acc : PeerAccess) : SlotsSound.Statement (Instr.peerAccessArrival acc) := rfl
theorem SlotsSound.leaseNotice (dev : BitVec 10) (num : BitVec 16) (notice : DWord) : SlotsSound.Statement (Instr.leaseNotice dev num notice) := rfl
theorem SlotsSound.leaseDeadline (dev : BitVec 10) (num : BitVec 16) : SlotsSound.Statement (Instr.leaseDeadline dev num) := rfl
theorem SlotsSound.hostCxlMemAccess (pa : Nat) (data : List Byte) : SlotsSound.Statement (Instr.hostCxlMemAccess pa data) := rfl
theorem SlotsSound.itailWrite (inlet : BitVec 6) (val : Word) : SlotsSound.Statement (Instr.itailWrite inlet val) := rfl
theorem SlotsSound.ictlWrite (inlet : BitVec 6) (val : Word) : SlotsSound.Statement (Instr.ictlWrite inlet val) := rfl
theorem SlotsSound.ibaseWrite (inlet : BitVec 6) (val : DWord) : SlotsSound.Statement (Instr.ibaseWrite inlet val) := rfl
theorem SlotsSound.launchTake (inlet : BitVec 6) : SlotsSound.Statement (Instr.launchTake inlet) := rfl
theorem SlotsSound.teamPlacement (l : Nat) (ps : List Placement) : SlotsSound.Statement (Instr.teamPlacement l ps) := rfl
theorem SlotsSound.launchCompletion (l : Nat) : SlotsSound.Statement (Instr.launchCompletion l) := rfl
theorem SlotsSound.create : SlotsSound.Statement (Instr.create) := rfl
theorem SlotsSound.destroy : SlotsSound.Statement (Instr.destroy) := rfl
theorem SlotsSound.preempt : SlotsSound.Statement (Instr.preempt) := rfl
theorem SlotsSound.restore (ps : List Placement) : SlotsSound.Statement (Instr.restore ps) := rfl
theorem SlotsSound.inval : SlotsSound.Statement (Instr.inval) := rfl
theorem SlotsSound.retire : SlotsSound.Statement (Instr.retire) := rfl
theorem SlotsSound.cmdFqpop : SlotsSound.Statement (Instr.cmdFqpop) := rfl
theorem SlotsSound.cmdLeaseGrant : SlotsSound.Statement (Instr.cmdLeaseGrant) := rfl
theorem SlotsSound.cmdLeaseRevoke : SlotsSound.Statement (Instr.cmdLeaseRevoke) := rfl
theorem SlotsSound.cmdLeaseRegister : SlotsSound.Statement (Instr.cmdLeaseRegister) := rfl
theorem SlotsSound.domain (x : DomainPeers) : SlotsSound.Statement (Instr.domain x) := rfl
theorem SlotsSound.rqctlWrite (val : Word) : SlotsSound.Statement (Instr.rqctlWrite val) := rfl
theorem SlotsSound.rqheadWrite (val : Word) : SlotsSound.Statement (Instr.rqheadWrite val) := rfl
theorem SlotsSound.rstctl (val : Word) : SlotsSound.Statement (Instr.rstctl val) := rfl
theorem SlotsSound.powerOn : SlotsSound.Statement (Instr.powerOn) := rfl
theorem SlotsSound.linkReset : SlotsSound.Statement (Instr.linkReset) := rfl
theorem SlotsSound.hexwd : SlotsSound.Statement (Instr.hexwd) := rfl
theorem SlotsSound.thermalTrip (island : BitVec 7) : SlotsSound.Statement (Instr.thermalTrip island) := rfl
theorem SlotsSound.voltageFault (island : BitVec 7) : SlotsSound.Statement (Instr.voltageFault island) := rfl
theorem SlotsSound.suppliesStable : SlotsSound.Statement (Instr.suppliesStable) := rfl
theorem SlotsSound.calibrationDone : SlotsSound.Statement (Instr.calibrationDone) := rfl
theorem SlotsSound.firmwareVerified (key : List Byte) (images : FirmwareImage × FirmwareImage) : SlotsSound.Statement (Instr.firmwareVerified key images) := rfl
theorem SlotsSound.bootctlStart (val : Word) : SlotsSound.Statement (Instr.bootctlStart val) := rfl
theorem SlotsSound.initDone : SlotsSound.Statement (Instr.initDone) := rfl
theorem SlotsSound.monitorUpdate (m : List Reading) : SlotsSound.Statement (Instr.monitorUpdate m) := rfl
theorem SlotsSound.throttleStep (island : BitVec 7) : SlotsSound.Statement (Instr.throttleStep island) := rfl
theorem SlotsSound.powerCapStep (power : Nat) : SlotsSound.Statement (Instr.powerCapStep power) := rfl
theorem SlotsSound.attctlRequest (val : Word) : SlotsSound.Statement (Instr.attctlRequest val) := rfl
theorem SlotsSound.attestationComplete (burnt : Bool) : SlotsSound.Statement (Instr.attestationComplete burnt) := rfl
theorem SlotsSound.registerWrite (off : BitVec 24) (wide : Bool) (val : DWord) : SlotsSound.Statement (Instr.registerWrite off wide val) := rfl
theorem SlotsSound.hostLinkRetrained : SlotsSound.Statement (Instr.hostLinkRetrained) := rfl
theorem SlotsSound.routeRegained (dev : BitVec 10) : SlotsSound.Statement (Instr.routeRegained dev) := rfl
theorem SlotsSound.leaseReleaseAtLender (dev : BitVec 10) (num : BitVec 16) : SlotsSound.Statement (Instr.leaseReleaseAtLender dev num) := rfl
theorem SlotsSound.undefinedCommand (code : BitVec 8) : SlotsSound.Statement (Instr.undefinedCommand code) := rfl

end Sys2Proof.Laws
end

