-- ==== Sys2Proof/Laws/Ranges.lean ====
section
/-! SUPPORT. The ranges of a memory keep its canonical form. -/
namespace Sys2Proof.Machine

/-- Leaving entries out keeps the canonical form of a map. -/
theorem swf_filter {α : Type} [DecidableEq α] {d : α} {m : Sparse α} (f : Nat × α → Bool) (h : swf d m = true) :
    swf d (m.filter f) = true := by
  induction m with
  | nil => rfl
  | cons q r ih =>
    obtain ⟨k, v⟩ := q
    obtain ⟨hv, hk, hr⟩ := (swf_cons k v r).mp h
    rw [List.filter_cons]
    split
    · exact (swf_cons k v _).mpr ⟨hv, fun p hp => hk p (List.mem_filter.mp hp).1, ih hr⟩
    · exact ih hr

/-- A fold keeps what each of its steps keeps. -/
theorem foldl_keeps {α β : Type} (P : β → Prop) (f : β → α → β) (hf : ∀ b a, P b → P (f b a)) (l : List α) {b : β} (hb : P b) :
    P (l.foldl f b) := by
  induction l generalizing b with
  | nil => exact hb
  | cons a r ih => exact ih (hf b a hb)

namespace Memory

/-- Clearing a range keeps the canonical form. -/
theorem clearRange_wf {m : Memory} (h : m.wf = true) (a n : Nat) : (m.clearRange a n).wf = true := by
  rw [wf_iff] at h ⊢
  exact ⟨swf_filter _ h.1, swf_filter _ h.2⟩

/-- A part of a canonical memory is canonical. -/
theorem inRange_wf {m : Memory} (h : m.wf = true) (a n : Nat) : (m.inRange a n).wf = true := by
  rw [wf_iff] at h ⊢
  exact ⟨swf_filter _ h.1, swf_filter _ h.2⟩

/-- Copying a range keeps the canonical form of the destination. -/
theorem copyFrom_wf {m : Memory} (h : m.wf = true) (src : Memory) (lo hi n : Nat) : (m.copyFrom src lo hi n).wf = true :=
  foldl_keeps (fun m : Memory => m.wf = true) _ (fun _ _ h => put_wf h _ _) _ (clearRange_wf h hi n)

/-- Writing parts keeps the canonical form. -/
theorem writeParts_wf {m : Memory} (h : m.wf = true) (base : Nat) (l : List (Nat × List Byte)) : (m.writeParts base l).wf = true :=
  foldl_keeps (fun m : Memory => m.wf = true) _ (fun _ _ h => write_wf h _ _) l h

end Memory

/-- Copying a save region keeps the canonical form. -/
theorem copyRegion_wf {m : Memory} (h : m.wf = true) (lo hi : Nat) : (copyRegion m lo hi).wf = true :=
  foldl_keeps (fun m : Memory => m.wf = true) _ (fun _ _ h => Memory.forget_wf h _ _) _
    (foldl_keeps (fun m : Memory => m.wf = true) _ (fun _ _ h => Memory.put_wf h _ _) _ (Memory.clearRange_wf h hi saveSize))

end Sys2Proof.Machine
end

