-- ==== Sys2Proof/Laws/Places.lean ====
section
/-! SUPPORT. The writes of Machine/Mem.lean keep the canonical form of every byte memory, and what they leave as it was. -/
namespace Sys2Proof.Machine

/-- The canonical form depends on the memories alone. -/
theorem memoryWf_congr {s t : State} (h : s.memoryWf = true) (hbm : t.hbm = s.hbm) (host : t.host = s.host) (peer : t.peer = s.peer)
    (pond : t.work.pond = s.work.pond) (ctxs : ∀ c ∈ t.ctxs, ∃ c' ∈ s.ctxs, c.snap = c'.snap) (sc : t.snapCommitted = s.snapCommitted)
    (sp : t.snapPending = s.snapPending) : t.memoryWf = true := by
  simp only [State.memoryWf, Work.memoryWf, Bool.and_eq_true, List.all_eq_true] at h ⊢
  rw [hbm, host, peer, pond, sc, sp]
  refine ⟨⟨⟨h.1.1.1, fun c hc => ?_⟩, h.1.2⟩, h.2⟩
  obtain ⟨c', hm, he⟩ := ctxs c hc
  have := h.1.1.2 c' hm
  simpa only [Ctx.memoryWf, he] using this

/-- The same where the contexts are those that there were. -/
theorem memoryWf_of_eq {s t : State} (h : s.memoryWf = true) (hbm : t.hbm = s.hbm) (host : t.host = s.host) (peer : t.peer = s.peer)
    (pond : t.work.pond = s.work.pond) (ctxs : t.ctxs = s.ctxs) (sc : t.snapCommitted = s.snapCommitted) (sp : t.snapPending = s.snapPending) :
    t.memoryWf = true :=
  memoryWf_congr h hbm host peer pond (fun c hc => ⟨c, ctxs ▸ hc, rfl⟩) sc sp

theorem memoryWf_hbm {s : State} (h : s.memoryWf = true) : s.hbm.wf = true := by
  simp only [State.memoryWf, Bool.and_eq_true] at h
  exact h.1.1.1.1.1.1

theorem memoryWf_host {s : State} (h : s.memoryWf = true) : s.host.wf = true := by
  simp only [State.memoryWf, Bool.and_eq_true] at h
  exact h.1.1.1.1.1.2

theorem memoryWf_peer {s : State} (h : s.memoryWf = true) : s.peer.wf = true := by
  simp only [State.memoryWf, Bool.and_eq_true] at h
  exact h.1.1.1.1.2

theorem memoryWf_pond {s : State} (h : s.memoryWf = true) : s.work.pond.wf = true := by
  simp only [State.memoryWf, Bool.and_eq_true] at h
  exact h.1.1.1.2

theorem memoryWf_setHbm {s : State} (h : s.memoryWf = true) {m : Memory} (hm : m.wf = true) : ({ s with hbm := m } : State).memoryWf = true := by
  simp only [State.memoryWf, Bool.and_eq_true] at h ⊢
  exact ⟨⟨⟨⟨⟨⟨hm, h.1.1.1.1.1.2⟩, h.1.1.1.1.2⟩, h.1.1.1.2⟩, h.1.1.2⟩, h.1.2⟩, h.2⟩

theorem memoryWf_setHost {s : State} (h : s.memoryWf = true) {m : Memory} (hm : m.wf = true) : ({ s with host := m } : State).memoryWf = true := by
  simp only [State.memoryWf, Bool.and_eq_true] at h ⊢
  exact ⟨⟨⟨⟨⟨⟨h.1.1.1.1.1.1, hm⟩, h.1.1.1.1.2⟩, h.1.1.1.2⟩, h.1.1.2⟩, h.1.2⟩, h.2⟩

theorem memoryWf_setPeer {s : State} (h : s.memoryWf = true) {m : Memory} (hm : m.wf = true) : ({ s with peer := m } : State).memoryWf = true := by
  simp only [State.memoryWf, Bool.and_eq_true] at h ⊢
  exact ⟨⟨⟨⟨⟨⟨h.1.1.1.1.1.1, h.1.1.1.1.1.2⟩, hm⟩, h.1.1.1.2⟩, h.1.1.2⟩, h.1.2⟩, h.2⟩

theorem memoryWf_setWork {s : State} (h : s.memoryWf = true) {w : Work} (hw : w.pond.wf = true) : ({ s with work := w } : State).memoryWf = true := by
  simp only [State.memoryWf, Bool.and_eq_true] at h ⊢
  exact ⟨⟨⟨⟨h.1.1.1.1, hw⟩, h.1.1.2⟩, h.1.2⟩, h.2⟩

/-! ## Groups, contexts, records and parks -/

@[simp] theorem setGroup_memoryWf (s : State) (g : Group) : (s.setGroup g).memoryWf = s.memoryWf := rfl
@[simp] theorem modifyGroup_memoryWf (s : State) (uid : Nat) (f : Group → Group) : (s.modifyGroup uid f).memoryWf = s.memoryWf := rfl

theorem modifyCtx_memoryWf {s : State} (h : s.memoryWf = true) (n : Nat) (f : Ctx → Ctx) (hf : ∀ c, (f c).snap = c.snap) :
    (s.modifyCtx n f).memoryWf = true := by
  refine memoryWf_congr h rfl rfl rfl rfl (fun c hc => ?_) rfl rfl
  obtain ⟨b, hb, rfl⟩ := List.mem_map.mp hc
  exact ⟨b, hb, by split <;> simp [hf]⟩

@[simp] theorem emitRecord_memoryWf (s : State) (a : RecordArgs) : (emitRecord s a).memoryWf = s.memoryWf := by
  rw [(emitRecord_spec s a).1]
  rfl

theorem takePark_memoryWf {s : State} (h : s.memoryWf = true) (uid : Nat) (a : ParkArgs) : (takePark s uid a).memoryWf = true := by
  cases hg : s.group? uid with
  | none => rw [takePark_none hg]; exact h
  | some g =>
    cases hp : g.park with
    | none => rw [takePark_first hg hp]; exact modifyCtx_memoryWf (by simpa using h) _ _ fun _ => rfl
    | some p => rw [takePark_held hg hp]; simpa using h

/-! ## Capturing and tracked writes (R329 to R331) -/

theorem hbmWrite_memoryWf {s : State} (h : s.memoryWf = true) (pa : Nat) (data : List Byte) : (hbmWrite s pa data).memoryWf = true :=
  have hw : (hbmWrite s pa data).work.pond = s.work.pond := by
    unfold hbmWrite
    dsimp only
    split <;> rfl
  memoryWf_setHbm (s := { s with work := (hbmWrite s pa data).work }) (memoryWf_setWork h (by rw [hw]; exact memoryWf_pond h))
    (Memory.write_wf (memoryWf_hbm h) _ _)

@[simp] theorem noteOccupancy_memoryWf (s : State) (die : Nat) : (noteOccupancy s die).memoryWf = s.memoryWf := by
  unfold noteOccupancy
  split
  · rw [emitRecord_memoryWf]; rfl
  · rfl

theorem captureLine_memoryWf {s t : State} (h : s.memoryWf = true) {pa : Nat} (ht : captureLine s pa = some t) : t.memoryWf = true := by
  simp only [captureLine] at ht
  split at ht
  · exact Option.some.inj ht ▸ h
  · split at ht
    · cases ht
    · rw [← Option.some.inj ht, noteOccupancy_memoryWf]
      exact h

theorem captureLines_memoryWf {l : List Nat} : ∀ {s t : State}, s.memoryWf = true → captureLines s l = some t → t.memoryWf = true := by
  induction l with
  | nil => intro s t h ht; exact Option.some.inj ht ▸ h
  | cons a l ih =>
    intro s t h ht
    simp only [captureLines, List.foldlM_cons, Option.bind_eq_bind, Option.bind_eq_some_iff] at ht
    obtain ⟨u, hu, ht⟩ := ht
    exact ih (captureLine_memoryWf h hu) ht

theorem trackedWrite_memoryWf {s t : State} (h : s.memoryWf = true) {pa : Nat} {data : List Byte} (ht : trackedWrite s pa data = some t) :
    t.memoryWf = true := by
  simp only [trackedWrite, Option.map_eq_some_iff] at ht
  obtain ⟨u, hu, rfl⟩ := ht
  exact hbmWrite_memoryWf (captureLines_memoryWf h hu) _ _

/-! ## Writes at a place (R208, R329 to R333) -/

theorem acceptWrite_memoryWf {s t : State} (h : s.memoryWf = true) {d : Deferred} (ht : acceptWrite s d = some t) : t.memoryWf = true := by
  simp only [acceptWrite] at ht
  split at ht
  · cases ht
  · rw [← Option.some.inj ht, noteOccupancy_memoryWf]
    exact h

theorem acceptDeferred_memoryWf {s t : State} (h : s.memoryWf = true) {ag : Agent} {p : Target} {data : List Byte} {home record : Bool}
    (ht : acceptDeferred s ag p data home record = some t) : t.memoryWf = true := acceptWrite_memoryWf h ht

theorem capturePeer_memoryWf {s : State} (h : s.memoryWf = true) (key n : Nat) : (capturePeer s key n).memoryWf = true :=
  foldl_keeps (fun s : State => s.memoryWf = true) _ (fun s line hs => by split <;> exact hs) _ h

theorem tagPeer_memoryWf {s : State} (h : s.memoryWf = true) (key n : Nat) : (tagPeer s key n).memoryWf = true :=
  foldl_keeps (fun s : State => s.memoryWf = true) _ (fun _ _ hs => memoryWf_setPeer hs (Memory.writeNat_wf (memoryWf_peer hs) _ _ _)) _
    (capturePeer_memoryWf h key n)

theorem peerWrite_memoryWf {s : State} (h : s.memoryWf = true) (key : Nat) (data : List Byte) : (peerWrite s key data).memoryWf = true := by
  have h1 := tagPeer_memoryWf h key data.length
  exact memoryWf_setPeer h1 (Memory.write_wf (memoryWf_peer h1) _ _)

/-! ## Registers, whose writes may reset the device (R370, R394) -/

theorem doReset_memoryWf {s : State} (h : s.memoryWf = true) (c : ResetCause) : (doReset s c).memoryWf = true := by
  simp only [State.memoryWf, Bool.and_eq_true] at h ⊢
  exact ⟨⟨⟨⟨⟨⟨rfl, h.1.1.1.1.1.2⟩, h.1.1.1.1.2⟩, rfl⟩, rfl⟩, rfl⟩, rfl⟩

@[simp] theorem setRegs_memoryWf (s : State) (r : Regs) : ({ s with regs := r } : State).memoryWf = s.memoryWf := rfl
@[simp] theorem setInlets_memoryWf (s : State) (l : List Inlet) : ({ s with inlets := l } : State).memoryWf = s.memoryWf := rfl
@[simp] theorem setRecords_memoryWf (s : State) (r : Records) : ({ s with records := r } : State).memoryWf = s.memoryWf := rfl
@[simp] theorem raiseVector_memoryWf (s : State) (v : Nat) : (raiseVector s v).memoryWf = s.memoryWf := rfl

theorem ite_memoryWf {c : Prop} [Decidable c] {a b : State} (ha : a.memoryWf = true) (hb : b.memoryWf = true) :
    (if c then a else b).memoryWf = true := by
  split
  · exact ha
  · exact hb

theorem bootStart_memoryWf {s : State} (h : s.memoryWf = true) : (bootStart s).memoryWf = true := by
  unfold bootStart
  repeat' (first | with_reducible apply ite_memoryWf)
  all_goals first | with_reducible exact h | (rw [setRegs_memoryWf]; exact h)

theorem attRequest_memoryWf {s : State} (h : s.memoryWf = true) : (attRequest s).memoryWf = true := by
  unfold attRequest
  repeat' (first | with_reducible apply ite_memoryWf)
  all_goals first | with_reducible exact h | (rw [setRegs_memoryWf]; exact h)

theorem rstCtl_memoryWf {s : State} (h : s.memoryWf = true) (v : Word) : (rstCtl s v).memoryWf = true := by
  unfold rstCtl
  exact ite_memoryWf (doReset_memoryWf h _) h

theorem identityWrite_memoryWf {s : State} (h : s.memoryWf = true) (off : Nat) (v : Word) : (identityWrite s off v).memoryWf = true := by
  unfold identityWrite
  repeat' (first | with_reducible apply ite_memoryWf)
  all_goals first
    | with_reducible exact h
    | (rw [setRegs_memoryWf]; exact h)
    | with_reducible exact rstCtl_memoryWf h _
    | with_reducible exact bootStart_memoryWf h
    | with_reducible exact attRequest_memoryWf h

theorem cmdWrite_memoryWf {s : State} (h : s.memoryWf = true) (v : Word) : (cmdWrite s v).memoryWf = true := by
  unfold cmdWrite
  exact ite_memoryWf h (ite_memoryWf ((setRegs_memoryWf s _).trans h) ((raiseVector_memoryWf _ _).trans ((setRegs_memoryWf s _).trans h)))

theorem regWrite32_memoryWf {s : State} (h : s.memoryWf = true) (off : Nat) (v : Word) : (regWrite32 s off v).memoryWf = true := by
  unfold regWrite32
  exact ite_memoryWf (identityWrite_memoryWf h _ _) (ite_memoryWf h (ite_memoryWf ((setInlets_memoryWf s _).trans h)
    (ite_memoryWf ((setRegs_memoryWf s _).trans h) (ite_memoryWf (cmdWrite_memoryWf h v) (ite_memoryWf ((setRecords_memoryWf s _).trans h) h)))))

theorem regWrite_memoryWf {s : State} (h : s.memoryWf = true) (off : Nat) (data : List Byte) : (regWrite s off data).memoryWf = true := by
  unfold regWrite
  dsimp only
  split
  · exact regWrite32_memoryWf (regWrite32_memoryWf h _ _) _ _
  · exact regWrite32_memoryWf h _ _

theorem performOutside_memoryWf {s : State} (h : s.memoryWf = true) (t : Target) (data : List Byte) : (performOutside s t data).memoryWf = true := by
  cases t with
  | hbm pa => exact hbmWrite_memoryWf h _ _
  | pond core off => exact memoryWf_setWork h (Memory.write_wf (memoryWf_pond h) _ _)
  | host pa => exact memoryWf_setHost h (Memory.write_wf (memoryWf_host h) _ _)
  | peer dev pa => exact memoryWf_setPeer h (Memory.write_wf (memoryWf_peer h) _ _)
  | leased dev num pa => exact memoryWf_setPeer h (Memory.write_wf (memoryWf_peer h) _ _)
  | mmio off => exact regWrite_memoryWf h off data
  | fitted hdr => exact h

@[simp] theorem setDeferred_memoryWf (s : State) (l : List Deferred) : ({ s with deferred := l } : State).memoryWf = s.memoryWf := rfl

theorem pin_memoryWf {s : State} (h : s.memoryWf = true) (ctx : Nat) : (pin s ctx).memoryWf = true :=
  modifyCtx_memoryWf h _ _ fun _ => rfl

theorem immediateWrite_memoryWf {s : State} (h : s.memoryWf = true) (ag : Agent) (t : Target) (data : List Byte) :
    (immediateWrite s ag t data).memoryWf = true := pin_memoryWf (performOutside_memoryWf ((setDeferred_memoryWf s _).trans h) t data) _

theorem writePlace_memoryWf {s t : State} (h : s.memoryWf = true) {ag : Agent} {p : Place} {data : List Byte}
    (ht : writePlace s ag p data = some t) : t.memoryWf = true := by
  unfold writePlace at ht
  split at ht
  · split at ht
    · exact Option.some.inj ht ▸ immediateWrite_memoryWf h _ _ _
    · split at ht
      · exact acceptDeferred_memoryWf (performOutside_memoryWf h _ _) ht
      · exact Option.some.inj ht ▸ performOutside_memoryWf h _ _
  · exact Option.some.inj ht ▸ h
  · split at ht
    · exact Option.some.inj ht ▸ immediateWrite_memoryWf h _ _ _
    · split at ht
      · obtain ⟨u, hu, ht⟩ := Option.bind_eq_some_iff.mp ht
        exact acceptDeferred_memoryWf (trackedWrite_memoryWf h hu) ht
      · exact trackedWrite_memoryWf h ht
  · split at ht
    · exact Option.some.inj ht ▸ immediateWrite_memoryWf h _ _ _
    · split at ht
      · exact acceptDeferred_memoryWf h ht
      · split at ht
        · split at ht
          · exact Option.some.inj ht ▸ peerWrite_memoryWf ((setDeferred_memoryWf s _).trans h) _ _
          · exact acceptDeferred_memoryWf h ht
        · exact acceptDeferred_memoryWf h ht

theorem writeAtom_memoryWf {s t : State} (h : s.memoryWf = true) {ag : Agent} {p : Place} {data : List Byte}
    (ht : writeAtom s ag p data = some t) : t.memoryWf = true := by
  have both : ∀ b : Bool, (if b then some (immediateWrite s ag p.target data) else writePlace s ag p data) = some t → t.memoryWf = true := by
    intro b hb
    cases b
    · exact writePlace_memoryWf h hb
    · exact Option.some.inj hb ▸ immediateWrite_memoryWf h _ _ _
  exact both _ ht

theorem putPeerDesc_memoryWf {s : State} (h : s.memoryWf = true) (key : Nat) (x : Word) : (putPeerDesc s key x).memoryWf = true :=
  memoryWf_setPeer h (Memory.writeNat_wf (memoryWf_peer h) _ _ _)

@[simp] theorem putDesc_memoryWf (s : State) (pa : Nat) (x : Word) : (putDesc s pa x).memoryWf = s.memoryWf := rfl

theorem descOutside_memoryWf {s : State} (h : s.memoryWf = true) (t : Target) (x : Word) : (descOutside s t x).memoryWf = true := by
  unfold descOutside
  split
  · exact h
  · exact memoryWf_setWork h (memoryWf_pond h)
  · exact putPeerDesc_memoryWf h _ _
  · exact putPeerDesc_memoryWf h _ _
  · exact h

theorem immediateDesc_memoryWf {s : State} (h : s.memoryWf = true) (ag : Agent) (t : Target) (x : Word) :
    (immediateDesc s ag t x).memoryWf = true := pin_memoryWf (descOutside_memoryWf ((setDeferred_memoryWf s _).trans h) t x) _

theorem writeDesc_memoryWf {s t : State} (h : s.memoryWf = true) {ag : Agent} {p : Place} {x : Word} (ht : writeDesc s ag p x = some t) :
    t.memoryWf = true := by
  have peer : ∀ (dev key : Nat) (tg : Target), (if p.immed then some (immediateDesc s ag tg x)
      else if p.irrev || !inDomain s dev then acceptDesc s ag tg x false
      else some (putPeerDesc (tagPeer (replaceDesc s tg) key 1) key x)) = some t → t.memoryWf = true := by
    intro dev key tg ht
    split at ht
    · exact Option.some.inj ht ▸ immediateDesc_memoryWf h _ _ _
    · split at ht
      · exact acceptWrite_memoryWf h ht
      · exact Option.some.inj ht ▸ putPeerDesc_memoryWf (tagPeer_memoryWf ((setDeferred_memoryWf s _).trans h) _ _) _ _
  unfold writeDesc at ht
  split at ht
  · split at ht
    · exact Option.some.inj ht ▸ immediateDesc_memoryWf h _ _ _
    · obtain ⟨u, hu, ht⟩ := Option.bind_eq_some_iff.mp ht
      have hw := captureLine_memoryWf h hu
      split at ht
      · exact acceptWrite_memoryWf ((putDesc_memoryWf _ _ _).trans hw) ht
      · exact Option.some.inj ht ▸ (putDesc_memoryWf _ _ _).trans hw
  · split at ht
    · exact Option.some.inj ht ▸ immediateDesc_memoryWf h _ _ _
    · split at ht
      · exact acceptWrite_memoryWf (descOutside_memoryWf h _ _) ht
      · exact Option.some.inj ht ▸ descOutside_memoryWf h _ _
  · exact peer _ _ _ ht
  · exact peer _ _ _ ht
  · exact Option.some.inj ht ▸ h

end Sys2Proof.Machine
end

