-- ==== Sys2Proof/Laws/Words.lean ====
section
/-! SUPPORT. Laws of bytes, words and integers: what the helpers of Machine/Ops.lean give, in the terms of BitVec. -/
namespace Sys2Proof.Machine

/-- The bit k of a number that a word holds is the word's own. -/
theorem bitOf_toNat {w : Nat} (v : BitVec w) (k : Nat) : bitOf v.toNat k = v.getLsbD k := by
  simp only [bitOf, BitVec.getLsbD, Nat.testBit, Nat.shiftRight_eq_div_pow, Nat.one_and_eq_mod_two]
  rcases Nat.mod_two_eq_zero_or_one (v.toNat / 2 ^ k) with h | h <;> simp [h]

@[simp] theorem leBytes_length (n x : Nat) : (leBytes n x).length = n := by
  induction n generalizing x with
  | zero => rfl
  | succ n ih => simp [leBytes, ih]

/-- The number that n bytes of a number hold is the number modulo 2 to their width. -/
theorem ofLe_leBytes (n x : Nat) : ofLe (leBytes n x) = x % 256 ^ n := by
  induction n generalizing x with
  | zero => simp [leBytes, ofLe, Nat.mod_one]
  | succ n ih =>
    simp only [leBytes, ofLe, ih, BitVec.toNat_ofNat]
    rw [show (2 : Nat) ^ 8 = 256 from rfl, Nat.pow_succ', Nat.mod_mul]

theorem joinWords_lo_hi (x : DWord) : joinWords (loWord x) (hiWord x) = x := by
  apply BitVec.eq_of_toNat_eq
  have := x.isLt
  simp only [joinWords, loWord, hiWord, BitVec.toNat_ofNat]
  omega

theorem loWord_joinWords (a b : Word) : loWord (joinWords a b) = a := by
  apply BitVec.eq_of_toNat_eq
  have := a.isLt; have := b.isLt
  simp only [joinWords, loWord, BitVec.toNat_ofNat]
  omega

theorem hiWord_joinWords (a b : Word) : hiWord (joinWords a b) = b := by
  apply BitVec.eq_of_toNat_eq
  have := a.isLt; have := b.isLt
  simp only [joinWords, hiWord, BitVec.toNat_ofNat]
  omega

theorem toSigned_word (w : Word) : toSigned 32 w.toNat = w.toInt := by
  have := w.isLt
  simp only [toSigned, BitVec.toInt_eq_toNat_cond, Nat.mod_eq_of_lt this]
  split <;> split <;> omega

theorem toSigned_dword (w : DWord) : toSigned 64 w.toNat = w.toInt := by
  have := w.isLt
  simp only [toSigned, BitVec.toInt_eq_toNat_cond, Nat.mod_eq_of_lt this]
  split <;> split <;> omega

theorem ofNat_wrapTo_word (v : Int) : BitVec.ofNat 32 (wrapTo 32 v) = BitVec.ofInt 32 v := by
  apply BitVec.eq_of_toNat_eq
  simp [wrapTo, BitVec.toNat_ofInt]
  omega

theorem wrapTo_dword (v : Int) : wrapTo 64 v = (BitVec.ofInt 64 v).toNat := by simp [wrapTo, BitVec.toNat_ofInt]

/-- A result of 64 bits as the writes of its pair. -/
theorem vout_pair (r : Nat) (v : Int) : vout r 2 (wrapTo 64 v) = [(r, loWord (BitVec.ofInt 64 v)), (r + 1, hiWord (BitVec.ofInt 64 v))] := by
  simp [vout, wrapTo_dword, loWord, hiWord]

/-- A change at a position that a list has is a set. -/
theorem modifyAt_eq_set {α : Type} (f : α → α) (l : List α) (k : Nat) (n : α) (h : l[k]? = some n) : modifyAt f l k = l.set k (f n) := by
  induction l generalizing k with
  | nil => simp at h
  | cons a l ih =>
    cases k with
    | zero => simp at h; subst h; rfl
    | succ k => simp at h; simp [modifyAt, ih k h]

end Sys2Proof.Machine
end

