-- ==== Sys2Proof/Laws/Signature.lean ====
section
/-! SUPPORT. The lengths of what SHAKE256 and XMSS give (R404). -/
namespace Sys2Proof.Machine

@[simp] theorem keccakState_length (f : Nat → Nat → DWord) : (keccakState f).length = 25 := by simp [keccakState]

theorem keccakRound_length (a : List DWord) (c : DWord) : (keccakRound a c).length = 25 := by
  simp [keccakRound, modifyAt_length, keccakChi]

theorem keccakF_length (a : List DWord) : (keccakF a).length = 25 := by
  simp only [keccakF, keccakConstants, List.cons_append, List.nil_append, List.foldl_cons, List.foldl_nil]
  exact keccakRound_length _ _

theorem shakeAbsorb_length (n : Nat) : ∀ (a : List DWord) (b : List Byte), a.length = 25 → (shakeAbsorb n a b).length = 25 := by
  induction n with
  | zero => exact fun a _ h => h
  | succ n ih => exact fun a b _ => ih _ _ (keccakF_length _)

/-- A digest has 32 bytes. -/
@[simp] theorem shake256_length (m : List Byte) : (shake256 m).length = 32 := by
  have h := shakeAbsorb_length (m.length / shakeRate + 1) (List.replicate 25 0) (m ++ shakePad m.length) (by simp)
  simp only [shake256, List.length_flatMap, leBytes_length, List.map_const', List.length_take, h]
  rfl

@[simp] theorem xmssHash_length (kind : Nat) (key m : List Byte) : (xmssHash kind key m).length = 32 := by simp [xmssHash]

@[simp] theorem randHash_length (seed : List Byte) (x : XmssAddr) (l r : List Byte) : (randHash seed x l r).length = 32 := by simp [randHash]

theorem wotsChain_length (seed : List Byte) (i k p : Nat) (v : List Byte) (n : Nat) (h : v.length = 32) :
    (wotsChain seed i k p v n).length = 32 := by
  cases n <;> simp [wotsChain, h]

/-- Values of 32 bytes each. -/
def nodes32 (l : List (List Byte)) : Prop := ∀ v ∈ l, v.length = 32

theorem nodes32.flatten {l : List (List Byte)} (h : nodes32 l) : l.flatten.length = 32 * l.length := by
  induction l with
  | nil => rfl
  | cons a l ih =>
    simp only [List.flatten_cons, List.length_append, List.length_cons, h a (by simp), ih fun v hv => h v (by simp [hv])]
    ring

theorem lTreeLevel_nodes (seed : List Byte) (i height : Nat) : ∀ (n : Nat) (l : List (List Byte)), nodes32 l →
    nodes32 (lTreeLevel seed i height n l) ∧ (l ≠ [] → lTreeLevel seed i height n l ≠ [])
  | n, [], h => ⟨h, fun c => c⟩
  | n, [a], h => ⟨h, fun c => c⟩
  | n, l :: r :: rest, h => by
    have ih := lTreeLevel_nodes seed i height (n + 1) rest fun v hv => h v (by simp [hv])
    refine ⟨fun v hv => ?_, fun _ => by simp [lTreeLevel]⟩
    rcases List.mem_cons.mp hv with rfl | hv
    · simp
    · exact ih.1 v hv

/-- The root of an L-tree has 32 bytes. -/
theorem lTree_length (seed : List Byte) (i : Nat) (l : List (List Byte)) (h : nodes32 l) (hl : l ≠ []) : (lTree seed i l).length = 32 := by
  have key : ∀ (hs : List Nat) (l : List (List Byte)), nodes32 l → l ≠ [] →
      nodes32 (hs.foldl (fun l height => lTreeLevel seed i height 0 l) l) ∧ hs.foldl (fun l height => lTreeLevel seed i height 0 l) l ≠ [] := by
    intro hs
    induction hs with
    | nil => exact fun l h hl => ⟨h, hl⟩
    | cons a hs ih => exact fun l h hl => ih _ (lTreeLevel_nodes seed i a 0 l h).1 ((lTreeLevel_nodes seed i a 0 l h).2 hl)
  obtain ⟨h1, h2⟩ := key (List.range 7) l h hl
  rw [lTree]
  generalize (List.range 7).foldl (fun l height => lTreeLevel seed i height 0 l) l = m at h1 h2
  cases m with
  | nil => exact absurd rfl h2
  | cons a m => exact h1 a (by simp)

theorem wotsPublic_nodes (secret seed : List Byte) (i : Nat) : nodes32 (wotsPublic secret seed i) := by
  intro v hv
  simp only [wotsPublic, List.mem_map] at hv
  obtain ⟨k, -, rfl⟩ := hv
  exact wotsChain_length _ _ _ _ _ _ (by simp [wotsSecret])

/-- A node of a tree has 32 bytes. -/
theorem treeNode_length (secret seed : List Byte) (h k : Nat) : (treeNode secret seed h k).length = 32 := by
  cases h with
  | zero => exact lTree_length _ _ _ (wotsPublic_nodes _ _ _) (by simp [wotsPublic, wotsLen])
  | succ h => simp [treeNode]

theorem wotsDigits_length (m : List Byte) (h : m.length = 32) : (wotsDigits m).length = wotsLen := by
  have : ∀ l : List Byte, (l.flatMap fun (b : Byte) => [b.toNat / 16, b.toNat % 16]).length = 2 * l.length := by
    intro l
    induction l with
    | nil => rfl
    | cons a l ih => simp only [List.flatMap_cons, List.length_append, List.length_cons, ih, List.length_nil]; ring
  simp [wotsDigits, this, h, wotsLen]

/-- A signature has the 2,820 bytes of R404. -/
theorem xmssSign_length (i : Nat) (m : List Byte) : (xmssSign i m).length = 2820 := by
  have hs : ∀ (secret seed d : List Byte), d.length = 32 →
      nodes32 (wotsSign secret seed i d) ∧ (wotsSign secret seed i d).length = 67 := by
    intro secret seed d hd
    refine ⟨fun v hv => ?_, by simp [wotsSign, wotsDigits_length d hd, wotsLen]⟩
    simp only [wotsSign, List.mem_map] at hv
    obtain ⟨⟨x, k⟩, -, rfl⟩ := hv
    exact wotsChain_length _ _ _ _ _ _ (by simp [wotsSecret])
  obtain ⟨h1, h2⟩ := hs (secretSeed 0) (secretSeed 2)
    (xmssDigest (xmssHash 3 (secretSeed 1) (toByte i 32)) (xmssRoot (secretSeed 0) (secretSeed 2)) i m) (by simp [xmssDigest])
  have h3 : ((List.range xmssHeight).flatMap fun h => treeNode (secretSeed 0) (secretSeed 2) h (brother i h)).length = 640 := by
    simp only [List.length_flatMap, treeNode_length]
    rfl
  simp only [xmssSign, List.length_append, h3, nodes32.flatten h1, h2, xmssHash_length]
  simp [toByte]

end Sys2Proof.Machine
end

