-- ==== Sys2Proof/Tests/Slice0.lean ====
section
/-! SUPPORT. Tests of slice 0: the ill-formed terms that each check refuses, words that decode to what the tables say, results of the
manual's rules on one step, and for every obligation with hypotheses states and operands that meet them. -/
namespace Sys2Proof.Machine.Tests

set_option Elab.async false
set_option maxRecDepth 40000

/-! ## Well-formedness: one ill-formed term for each check (R30 to R46) -/

theorem test_ill_formed_predicate : ¬ (Instr.sel 12 1 2 3).WellFormed := by decide
theorem test_ill_formed_guard_number : ¬ (Instr.bra 0x0C 1).WellFormed := by decide
theorem test_ill_formed_guard_negation : ¬ (Instr.bra 0x1F 1).WellFormed := by decide
theorem test_ill_formed_barrier : ¬ (Instr.rdvMeet 1 16 0).WellFormed := by decide
theorem test_ill_formed_tile_format : ¬ (Instr.tzero 0 1).WellFormed := by decide
theorem test_ill_formed_load_order : ¬ (Instr.ldI32 1 2 0 .release .team).WellFormed := by decide
theorem test_ill_formed_store_order : ¬ (Instr.stI32 1 2 0 .acquire .team).WellFormed := by decide
theorem test_ill_formed_fence_order : ¬ (Instr.fence .relaxed .team).WellFormed := by decide
theorem test_ill_formed_same_types : ¬ (Instr.cvtf .f16 .f16 1 2).WellFormed := by decide
theorem test_ill_formed_system_register : ¬ (Instr.srd 1 0x13).WellFormed := by decide
theorem test_ill_formed_ext_guard : ¬ (Instr.extPred 0b0_1101_0_0_000_0_0000000_0_0_0_0_000).WellFormed := by decide
theorem test_ill_formed_ext_negation : ¬ (Instr.extPred 0b1_1111_0_0_000_0_0000000_0_0_0_0_000).WellFormed := by decide
theorem test_ill_formed_ext_rounding : ¬ (Instr.extPred 0b0_1111_0_1_110_0_0000000_0_0_0_0_000).WellFormed := by decide
theorem test_well_formed : (Instr.sel 11 1 2 3).WellFormed ∧ (Instr.bra 0x0F 1).WellFormed ∧ (Instr.srd 1 0x2A).WellFormed := by decide

/-! ## Words written out from R29 to R46, bit by bit -/

theorem test_decode_iadd : decode 0b0000000_0000001_0000010_0000011_0000#32 = .ok (.iadd .i32 1 2 3) := by decide
theorem test_decode_imulw : decode 0b0000011_0000010_0000001_0000011_0011#32 = .ok (.imulw true 2 1 3) := by decide
theorem test_decode_iaddi : decode 0b0001111_0000101_0000110_11111111111#32 = .ok (.iaddi 5 6 0x7FF) := by decide
theorem test_decode_sari : decode 0b0010100_0000001_0000010_10_0000_11111#32 = .ok (.sari 1 2 31) := by decide
theorem test_decode_lea : decode 0b0010110_0000010_0000100_0000110_1_011#32 = .ok (.lea true 3 2 4 6) := by decide
theorem test_decode_bra : decode 0b0011000_1_0011_11111111111111111110#32 = .ok (.bra 0x13 0xFFFFE) := by decide
theorem test_decode_trap : decode 0b0011111_0000000_0000000_11111111111#32 = .ok (.trap 0x7FF) := by decide
theorem test_decode_fcmpp : decode 0b0101000_110_0101_0000010_0000100_00_01#32 = .ok (.fcmpp .f64 .un 5 2 4) := by decide
theorem test_decode_cvtfi : decode 0b0101100_0000001_0000010_0000000_11_01#32 = .ok (.cvtfi .bf16 .n32 1 2) := by decide
theorem test_decode_pack : decode 0b0110110_0000001_0000100_0001000_0110#32 = .ok (.pack .e4m3 1 4 8) := by decide
theorem test_decode_saddi : decode 0b0111110_11001000_00000001_100000000#32 = .ok (.saddi 200 1 0x100) := by decide
theorem test_decode_scmpp : decode 0b1000000_0_110_1011_00000001_00000010_0#32 = .ok (.scmpp .ltn 11 1 2) := by decide
theorem test_decode_rdv : decode 0b1001110_00000011_00000101_01_10_00000#32 = .ok (.rdvMeet 3 5 1) := by decide
theorem test_decode_load : decode 0b1010000_0000111_0001000_100000_01_011#32 = .ok (.ldI32 7 8 0x20 .acquire .device) := by decide
theorem test_decode_atom : decode 0b1010101_0000100_0000110_001001_11_100#32 = .ok (.atomCasI32 4 6 .acqRel .system) := by decide
theorem test_decode_wait : decode 0b1010111_00000_0000_1111_1111_1111_1110#32 = .ok (.wait 0 15 15 15 14) := by decide
theorem test_decode_cpyt : decode 0b1011100_00001000_00001100_00010000_1#32 = .ok (.cpyt 8 12 16) := by decide
theorem test_decode_tld : decode 0b1100000_000_0011_0000_00001000_00010_0#32 = .ok (.tld 2 3 8) := by decide
theorem test_decode_mma : decode 0b1100010_010_0100_1000_00010000_00000_1#32 = .ok (.mmaDw 2 4 8 16) := by decide
theorem test_decode_seal : decode 0b1101100_00000000_00000000_00000000_1#32 = .ok (.seal true) := by decide
theorem test_decode_coll : decode 0b1101110_00001000_00001100_11111111_0#32 = .ok (.coll 8 12 255) := by decide
theorem test_decode_ext : decode 0b1111000_0_0011_1_1_010_1_0000101_1_0_1_1_000#32 =
    .ok (.extPred 0b0_0011_1_1_010_1_0000101_1_0_1_1_000) := by decide
theorem test_decode_reserved : decode 0b0001011_0000001_0000010_0000001_0000#32 = .error (.reserved (.popc 1 2) 4 1) := by decide
theorem test_decode_unassigned : decode 0b1110000_0000000_0000000_0000000_0000#32 = .error (.enc 25 0x70) := by decide

/-! ## A small state: one group of a privileged context at address 0, whose page is at 0x50000 -/

/-- A device whose group 1 stands at its first instruction, which `i` is, and issues it in some lanes. -/
def atIssue (i : Instr) (lanes : List Nat) : State :=
  { placeWord State.reset ((encode i).getD 0).toNat with agenda := [], cur := some (1, lanes) }

/-- The same after a change of the group. -/
def withGroup (i : Instr) (lanes : List Nat) (f : Group → Group) : State := (atIssue i lanes).modifyGroup 1 f

/-- A number of n bytes in the page of address 0. -/
def poke (va n x : Nat) (s : State) : State :=
  { s with hbm := s.hbm.writeNat (0x50000 + va) n x, ctxs := s.ctxs.map fun c => { c with snap := c.snap.writeNat (0x50000 + va) n x } }

/-- The issue of a state, as data. -/
def issueOf (s : State) : Issue :=
  (currentIssue s).getD { uid := 0, lanes := [], g := freshGroup 0 (placedLaunch 1 0) 0 0 0 0 placedRole 0, ext := extOf [], members := [] }

/-- The conditions of `Issues`, as a test. -/
def issuesNow (s : State) (i : Instr) : Bool :=
  let x := issueOf s
  decide (currentIssue s = some x) && decide x.lanes.Nodup && (x.lanes.all fun l => decide (l < x.g.threads.length))
    && decide (x.g.threads.length = Config.width) && x.g.canonical && decide (x.g.vbud ≤ 256)
    && decide (decodeFault s x.g i ((encode i).getD 0) none = none) && !operandsPending x.g x.lanes i && !stepping x.g

theorem issues_of {s : State} {i : Instr} (h : issuesNow s i = true) : Issues s (issueOf s) i := by
  simp only [issuesNow, Bool.and_eq_true, decide_eq_true_eq, List.all_eq_true, Bool.not_eq_true'] at h
  obtain ⟨⟨⟨⟨⟨⟨⟨⟨h1, h2⟩, h3⟩, h4⟩, h5⟩, h6⟩, h7⟩, h8⟩, h9⟩ := h
  exact ⟨h1, h2, h3, h4, h5, h6, h7, h8, h9⟩

/-- The group after one instruction. -/
def after (s : State) (i : Instr) : Option Group :=
  match exec i s with
  | .next t => t.group? 1
  | _ => none

/-- A V register of a lane after one instruction. -/
def vAfter (s : State) (i : Instr) (lane r : Nat) : Option Word := (after s i).map fun g => g.vget lane r

/-- Registers of lane 0. -/
def regs0 (l : List (Nat × Word)) (g : Group) : Group := l.foldl (fun g (r, x) => g.vput 0 r x) g

/-- S registers. -/
def sregs (l : List (Nat × Word)) (g : Group) : Group := l.foldl (fun g (r, x) => g.sregPut r x) g

/-! ## Results of the rules on one step -/

theorem test_iadd_wraps : vAfter (withGroup (.iadd .i32 1 2 3) [0] (regs0 [(2, 0x7FFFFFFF), (3, 1)])) (.iadd .i32 1 2 3) 0 1 = some 0x80000000 := by decide
theorem test_idiv_by_zero : vAfter (withGroup (.idiv .i32 1 2 3) [0] (regs0 [(2, 7)])) (.idiv .i32 1 2 3) 0 1 = some 0xFFFFFFFF := by decide
theorem test_irem_by_zero : vAfter (withGroup (.irem .i32 1 2 3) [0] (regs0 [(2, 7)])) (.irem .i32 1 2 3) 0 1 = some 7 := by decide
theorem test_idiv_overflow : vAfter (withGroup (.idiv .i32 1 2 3) [0] (regs0 [(2, 0x80000000), (3, 0xFFFFFFFF)])) (.idiv .i32 1 2 3) 0 1 = some 0x80000000 := by
  decide
theorem test_andn : vAfter (withGroup (.andn 1 2 3) [0] (regs0 [(2, 0xFF), (3, 0x0F)])) (.andn 1 2 3) 0 1 = some 0xF0 := by decide
theorem test_sar_by_the_width : vAfter (withGroup (.sar false 1 2 3) [0] (regs0 [(2, 0x80000000), (3, 32)])) (.sar false 1 2 3) 0 1 = some 0xFFFFFFFF := by decide
theorem test_shl_by_the_width : vAfter (withGroup (.shl false 1 2 3) [0] (regs0 [(2, 0x80000001), (3, 32)])) (.shl false 1 2 3) 0 1 = some 0 := by decide
theorem test_bfe_signed : vAfter (withGroup (.bfe false 1 2 3) [0] (regs0 [(2, 0xF0), (3, 0x0404)])) (.bfe false 1 2 3) 0 1 = some 0xFFFFFFFF := by decide
theorem test_clz_of_zero : vAfter (withGroup (.clz 1 2) [0] id) (.clz 1 2) 0 1 = some 32 := by decide
theorem test_movi_sign : vAfter (atIssue (.movi 1 0x400) [0]) (.movi 1 0x400) 0 1 = some 0xFFFFFC00 := by decide
theorem test_fadd_one_and_two : vAfter (withGroup (.fadd .f32 1 2 3) [0] (regs0 [(2, 0x3F800000), (3, 0x40000000)])) (.fadd .f32 1 2 3) 0 1 = some 0x40400000 := by
  decide
theorem test_fdiv_by_zero : vAfter (withGroup (.fdiv .f32 1 2 3) [0] (regs0 [(2, 0x3F800000)])) (.fdiv .f32 1 2 3) 0 1 = some 0x7F800000 := by decide
theorem test_cvtfi_of_minus_one_and_a_half :
    vAfter (withGroup (.cvtfi .f32 .i32 1 2) [0] (regs0 [(2, 0xBFC00000)])) (.cvtfi .f32 .i32 1 2) 0 1 = some 0xFFFFFFFE := by decide
theorem test_sadd : (after (withGroup (.sadd 4 2 3) [0] (sregs [(2, 5), (3, 6)])) (.sadd 4 2 3)).map (·.sregGet 4) = some 11 := by decide
theorem test_redi_add_sums_lanes :
    vAfter (withGroup (.rediAddI32 1 2) [0, 1] fun g => (g.vput 0 2 5).vput 1 2 6) (.rediAddI32 1 2) 1 1 = some 11 := by decide
theorem test_bra_back : (after (withGroup (.bra 0x0F 0xFFFFE) [0] fun g => g.modifyThread 0 fun t => { t with pc := 16 }) (.bra 0x0F 0xFFFFE)).map
    (fun g => (g.thread 0).pc) = some 8 := by decide
theorem test_misaligned_pair_parks : ((after (atIssue (.iadd .i64 1 2 4) [0]) (.iadd .i64 1 2 4)).bind (·.park)).map (·.cause) = some 0x0105 := by decide
theorem test_trap_completes : ((after (atIssue (.trap 5) [0]) (.trap 5)).bind (·.park)).map (fun p => (p.cause, p.completing)) = some (0x0E01, true) := by decide
theorem test_store_is_buffered : (after (withGroup (.stI32 1 2 1 .relaxed .group) [0] (regs0 [(1, 0x11223344)])) (.stI32 1 2 1 .relaxed .group)).map
    (fun g => g.stores.map fun b => (b.va, b.data)) = some [(4, [0x44, 0x33, 0x22, 0x11])] := by decide
theorem test_load_reads_lowest_first : (after (poke 0x100 4 0x11223344 (withGroup (.ldI32 1 2 0 .relaxed .group) [0] (regs0 [(2, 0x100)])))
    (.ldI32 1 2 0 .relaxed .group)).map (fun g => g.loads.map (·.vals)) = some [[(.v 0 1, 0x11223344)]] := by decide
theorem test_tzero_clears : (after (withGroup (.tzero 2 0) [0] fun g => { g with tile := [(0, 7)] }) (.tzero 2 0)).map (·.tile) = some [] := by decide
theorem test_illegal_word : ((after (atIssue .nop [0]) (.illegalInstruction 0xF8000000)).bind (·.park)).map (·.cause) = some 0x0101 := by decide

/-! ## Witnesses: states and operands that meet the hypotheses of the obligations -/

theorem issues_all {l : List Instr} {lanes : List Nat} (h : (l.all fun i => issuesNow (atIssue i lanes) i) = true) :
    ∀ i ∈ l, Issues (atIssue i lanes) (issueOf (atIssue i lanes)) i := by
  intro i hi
  exact issues_of (List.all_eq_true.mp h i hi)

theorem witness_IntegerArithmeticIsExact : ∀ i ∈ ([.iadd .i64 2 4 6, .isub .n32 1 2 3, .imul .n64 126 4 6, .imin .i32 127 2 3, .imax .n32 1 2 3,
    .imulhi true 1 2 3, .imulw false 2 4 5, .iaddi 1 2 0x400] : List Instr), Issues (atIssue i [0, 63]) (issueOf (atIssue i [0, 63])) i :=
  issues_all (by decide)
theorem witness_DivisionHasAResultForEveryOperand : ∀ i ∈ ([.idiv .i64 2 4 6, .irem .n32 1 2 3] : List Instr),
    Issues (atIssue i [0, 63]) (issueOf (atIssue i [0, 63])) i := issues_all (by decide)
theorem witness_LogicIsBitwise : ∀ i ∈ ([.and 1 2 3, .or 1 2 3, .xor 1 2 3, .andn 1 2 3, .andi 1 2 0x7FF, .ori 1 2 0, .xori 1 2 1] : List Instr),
    Issues (atIssue i [0, 63]) (issueOf (atIssue i [0, 63])) i := issues_all (by decide)
theorem witness_ShiftsTakeEveryCount : ∀ i ∈ ([.shl true 2 4 6, .shr false 1 2 3, .sar true 2 4 6, .rol false 1 2 3, .shli 1 2 31, .shri 1 2 0, .sari 1 2 31,
    .roli 1 2 31] : List Instr), Issues (atIssue i [0, 63]) (issueOf (atIssue i [0, 63])) i := issues_all (by decide)
theorem witness_BitFieldsAndCounts : ∀ i ∈ ([.bfe true 1 2 3, .bfi 1 2 3, .popc 1 2, .clz 1 2, .ctz 1 2, .brev 1 2] : List Instr),
    Issues (atIssue i [0, 63]) (issueOf (atIssue i [0, 63])) i := issues_all (by decide)
theorem witness_ComparesSelectsAndMoves : ∀ i ∈ ([.icmpp true .ltn 11 2 4, .icmppi .ge 0 2 0x400, .pand 0 1 11, .por 0 1 11, .pxor 0 1 11, .pandn 0 1 11,
    .sel 11 1 2 3, .movi 1 0x400, .lea true 7 2 4 6, .leai 2 4 0x400] : List Instr), Issues (atIssue i [0, 63]) (issueOf (atIssue i [0, 63])) i :=
  issues_all (by decide)
theorem witness_FloatArithmeticRoundsOnce : ∀ i ∈ ([.fadd .f64 2 4 6, .fsub .f16 1 2 3, .fmul .bf16 1 2 3, .ffma .f64 2 4 6, .fdiv .f32 1 2 3, .fsqrt .f64 2 4,
    .frcp .f16 1 2, .frsq .f32 1 2, .exp2 1 2, .log2 1 2, .sin 1 2, .cos 1 2] : List Instr), Issues (atIssue i [0, 63]) (issueOf (atIssue i [0, 63])) i :=
  issues_all (by decide)
theorem witness_FloatComparesAndSigns : ∀ i ∈ ([.fmin .f64 2 4 6, .fmax .f16 1 2 3, .fcmpp .f32 .un 11 1 2, .fclass .f64 2 4, .fabs .bf16 1 2, .fneg .f64 2 4,
    .fcpys .f64 2 4 6] : List Instr), Issues (atIssue i [0, 63]) (issueOf (atIssue i [0, 63])) i := issues_all (by decide)
/-- Codes of the tables of compares, minima, classes and sums: two numbers, the zeros, the infinities, the two kinds of NaN and a subnormal. -/
theorem witness_FloatTables :
    (fp32.decode 0x3F800000 = .fin ⟨false, 2 ^ 23, -23, false⟩ ∧ fp32.decode 0x40000000 = .fin ⟨false, 2 ^ 23, -22, false⟩)
    ∧ (∃ x y, fp32.decode 0x80000000 = .fin x ∧ fp32.decode 0 = .fin y ∧ x.neg = true ∧ y.neg = false ∧ x.m = 0 ∧ y.m = 0)
    ∧ (fp32.decode 0x7F800000 = .inf false ∧ fp32.decode 0xFF800000 = .inf true)
    ∧ (fp32.decode 0x7FC00000 = .nan false ∧ fp32.decode 0x7F800001 = .nan true)
    ∧ (0x80000001 % 2 ^ fp32.mbits = 1 ∧ 0x80000001 / 2 ^ fp32.mbits % 2 ^ fp32.ebits = 0 ∧ (0x80000001 : Nat) < 2 ^ 32) :=
  ⟨by decide, ⟨_, _, rfl, rfl, by decide, by decide, by decide, by decide⟩, by decide, by decide, by decide⟩
/-- The class of a negative subnormal is bit 2 and of a signalling NaN bit 8, and an infinity added to its opposite is invalid. -/
theorem test_float_tables : classOf fp32 0x80000001 = 4 ∧ classOf fp32 0x7F800001 = 256 ∧ (addComb fp32 ⟨0, 0⟩ (0x7F800000, 0) (0xFF800000, 0)).2 = flagNV := by
  decide
theorem witness_ConversionsAndPacking : ∀ i ∈ ([.cvtf .f64 .f16 1 2, .cvtfi .f64 .i64 2 4, .cvtif .n64 .f32 1 2, .fscale .f64 2 4 6, .frnd .bf16 1 2,
    .pack .e2m1 1 8 2, .unpk .f16 2 1 3] : List Instr), Issues (atIssue i [0, 63]) (issueOf (atIssue i [0, 63])) i := issues_all (by decide)
theorem witness_ErrorFreeAndDoubleWord : ∀ i ∈ ([.faddx .f32 2 4 5, .fsubx .f64 4 8 10, .fmulx .f32 2 4 5, .dwadd .f64 4 8 12, .dwsub .f32 2 4 6,
    .dwmul .f64 4 8 12, .dwfma .f32 2 4 6, .dwnorm .f64 4 8] : List Instr), Issues (atIssue i [0, 63]) (issueOf (atIssue i [0, 63])) i := issues_all (by decide)
theorem witness_UniformInstructionsAndMoves : ∀ i ∈ ([.sadd 255 1 2, .ssub 0 1 2, .smul 0 1 2, .smulhi 0 1 2, .sand 0 1 2, .sor 0 1 2, .sxor 0 1 2, .sandn 0 1 2,
    .sshl 0 1 2, .sshr 0 1 2, .smin 0 1 2, .smax 0 1 2, .saddi 0 1 0x100, .smovi 0 0x1FF, .scmpp .ltn 11 1 2, .movsv 1 127, .movvs 127 1, .pmovToV 1,
    .pmovToP 1] : List Instr), Issues (atIssue i [0, 63]) (issueOf (atIssue i [0, 63])) i := issues_all (by decide)
theorem witness_ShufflesAndVotes : ∀ i ∈ ([.lgetAbs 1 2 3, .lgetBelow 1 2 3, .lgetAbove 1 2 3, .lgetFlip 1 2 3, .lany 0 11, .lall 0 11, .lmask 2 11,
    .llead 0] : List Instr), Issues (atIssue i [0, 63]) (issueOf (atIssue i [0, 63])) i := issues_all (by decide)
theorem witness_ReductionsScansAndRand : ∀ i ∈ ([.rediAddI32 1 2, .rediMinI32 1 2, .rediMaxI32 1 2, .rediMinN32 1 2, .rediMaxN32 1 2, .rediAnd 1 2, .rediOr 1 2,
    .rediXor 1 2, .redf .f64 2 4, .redx .f64 4 8, .scaniAddI32 1 2, .scaniAddI32Excl 1 2, .scanfF32 1 2, .scanxF32 2 4, .randN32 1, .randF32 1,
    .randN64 2] : List Instr), Issues (atIssue i [0, 63]) (issueOf (atIssue i [0, 63])) i := issues_all (by decide)

/-- A group whose issue stands behind extension words. -/
def behind (ws : List Word) (lanes : List Nat) (g : Group) : Group := { g with ext := ws, issuing := lanes }

/-- The state in which the context of group 1 has privilege level 0. -/
def unprivileged (s : State) : State := { s with ctxs := s.ctxs.map fun c => { c with level := false } }

theorem witness_ExtensionWordsAccumulate : ∃ s x, currentIssue s = some x ∧ x.lanes.Nodup :=
  ⟨atIssue (.extPred 0) [0, 63], issueOf (atIssue (.extPred 0) [0, 63]), by decide, by decide⟩

/-- An instruction with a decode fault, an illegal word of each kind, and a privileged instruction at level 0. -/
theorem witness_FaultingWordsPark :
    (∃ s x c w, encode (.iadd .i64 1 2 4) = some w ∧ w.toNat / 2 ^ 25 < 0x78 ∧ currentIssue s = some x ∧ x.lanes.Nodup
      ∧ decodeFault s x.g (.iadd .i64 1 2 4) w none = some c)
    ∧ (0x7C ≤ (0xF8000000 : Word).toNat / 2 ^ 25)
    ∧ (∃ lo v, (0xE0000000 : Word).toNat / 2 ^ 25 < 0x7C ∧ decode 0xE0000000 = .error (.enc lo v)
        ∧ extPayloadFault (issueOf (atIssue .nop [0])).g.ext = none)
    ∧ (∃ i lo v, (0x16082010 : Word).toNat / 2 ^ 25 < 0x7C ∧ decode 0x16082010 = .error (.reserved i lo v)
        ∧ decodeFault (atIssue .nop [0]) (issueOf (atIssue .nop [0])).g i 0x16082010 none = none)
    ∧ (let s := unprivileged (atIssue (.resume 1 2 4) [0]); let x := issueOf s
        currentIssue s = some x ∧ levelOf s x.g = false ∧ x.g.ext = [] ∧ budgetFault ((encode (.resume 1 2 4)).getD 0) x.g {} (slots (.resume 1 2 4)) = none) :=
  ⟨⟨atIssue (.iadd .i64 1 2 4) [0], issueOf (atIssue (.iadd .i64 1 2 4) [0]), (0x0105, decodeDetail ((encode (.iadd .i64 1 2 4)).getD 0) 18 1),
      (encode (.iadd .i64 1 2 4)).getD 0, by decide, by decide, by decide, by decide, by decide⟩,
    by decide, ⟨25, 0x70, by decide, by decide, by decide⟩, ⟨.popc 2 4, 4, 1, by decide, by decide, by decide⟩, by decide⟩

/-- Tiles of FP64 and an accumulator of FP64 beyond the budgets: TSTR, MMA.DW and AST name their registers by the format, whatever else is wrong
with the word. -/
theorem witness_formats_name_registers :
    let s := withGroup (.tstr 15 7) [0] (fun g => { g with tfmt := [(14, 1), (15, 1)], atag := [(7, 2)] })
    let cause := fun (i : Instr) => (decodeFault s (issueOf s).g i ((encode i).getD 0) (some (0, 1))).map (·.1)
    (∀ i ∈ ([.tstr 15 7, .ttrn 15 0, .ttrn 12 15, .mmaDw 5 14 15 8, .mma 7 14 15 8, .ast 7 8] : List Instr), gangFault s (issueOf s).g i = none)
      ∧ (issueOf s).g.tbud < 15 + tileRegs 1 ∧ (issueOf s).g.abud < 5 + 4
      ∧ ∀ i ∈ ([.tstr 15 7, .ttrn 15 0, .mmaDw 5 14 15 8, .mma 7 14 15 8, .mma 2 14 0 8, .ast 7 8] : List Instr), cause i = some 0x0101 := by
  decide

/-- A TSTR whose tile is still being loaded, behind an extension word with a reserved bit set: until its format is known the set waits. -/
theorem witness_formats_unknown :
    let s := withGroup (.tstr 2 8) [0] (fun g => { behind [0xF0F00001] [0] g with loads := [tileLoad 2 2 (List.replicate 16 0x7F) (List.replicate 16 0) []] })
    currentIssue s = some (issueOf s) ∧ tPending (issueOf s).g 2 1 = true
      ∧ (decodeFault s (issueOf s).g (.tstr 2 8) ((encode (.tstr 2 8)).getD 0) none).isSome = true := by
  decide

/-- A JMPI to a misaligned target behind an extension word with a reserved bit set: a decode fault, before which the target stands. -/
theorem witness_misaligned_target : let s := withGroup (.jmpi 2) [0] (fun g => behind [0xF0F00001] [0] (regs0 [(2, 6)] g))
    currentIssue s = some (issueOf s) ∧ misaligned (issueOf s) (.jmpi 2) = [0] ∧ (decodeFault s (issueOf s).g (.jmpi 2) ((encode (.jmpi 2)).getD 0) none).isSome = true := by
  decide

/-- The same with the pair of the target still being loaded. -/
theorem witness_target_unknown : let s := withGroup (.jmpi 2) [0] (fun g => { behind [0xF0F00001] [0] g with loads := [plainLoad [(.v 0 3, 7)]] })
    currentIssue s = some (issueOf s) ∧ (decodeFault s (issueOf s).g (.jmpi 2) ((encode (.jmpi 2)).getD 0) none).isSome = true ∧ targetReg (.jmpi 2) = some 2
      ∧ (issueOf s).ext.vnum 11 2 = 2 ∧ 4 ≤ (issueOf s).g.vbud ∧ vPending (issueOf s).g (issueOf s).members 2 2 = true := by
  decide

/-- Direct branches need only issue; the members of an indirect one have V2:V3 = 8, where a LAND stands. -/
theorem witness_TransfersReachTheirTargets :
    (∀ i ∈ ([.bra 0x13 0x80000, .call 0x0F 0x7FFFF, .sbrz 0 0x100, .sbrnz 0 0xFF, .nop, .land, .yield, .pref 2 4] : List Instr),
      Issues (atIssue i [0, 63]) (issueOf (atIssue i [0, 63])) i)
    ∧ ∀ i ∈ ([.jmpi 2, .calli 4 2, .ret 2] : List Instr),
      let s := poke 8 4 0x36000001 (withGroup i [0] (regs0 [(2, 8)]))
      Issues s (issueOf s) i ∧ ∀ l ∈ (issueOf s).members, goodTarget s (issueOf s).g true (pairA (issueOf s) l 2) := by
  refine ⟨issues_all (by decide), ?_⟩
  intro i hi
  have hl : ∀ i ∈ ([.jmpi 2, .calli 4 2, .ret 2] : List Instr), issuesNow (poke 8 4 0x36000001 (withGroup i [0] (regs0 [(2, 8)]))) i = true
      ∧ (issueOf (poke 8 4 0x36000001 (withGroup i [0] (regs0 [(2, 8)])))).members = [0]
      ∧ (pairA (issueOf (poke 8 4 0x36000001 (withGroup i [0] (regs0 [(2, 8)])))) 0 2).toNat % 4 = 0
      ∧ fetchWord (poke 8 4 0x36000001 (withGroup i [0] (regs0 [(2, 8)]))) (issueOf (poke 8 4 0x36000001 (withGroup i [0] (regs0 [(2, 8)])))).g
          (pairA (issueOf (poke 8 4 0x36000001 (withGroup i [0] (regs0 [(2, 8)])))) 0 2) = .ok 0x36000001 := by decide
  obtain ⟨h1, h2, h3, h4⟩ := hl i hi
  refine ⟨issues_of h1, ?_⟩
  intro l h
  rw [h2] at h
  cases List.mem_singleton.mp h
  exact ⟨h3, _, h4, fun _ => rfl⟩

/-- EXIT and JOIN that issue; a group of 64 threads whose lanes 0 and 1 wait for each other, and one in which lane 1 is not there. -/
theorem witness_ThreadsExitAndJoin :
    (∀ i ∈ ([.exit, .join 2] : List Instr), Issues (atIssue i [0, 63]) (issueOf (atIssue i [0, 63])) i)
    ∧ (let g := (issueOf (atIssue .nop [0])).g.withStatus [0, 1] (.join 3)
      g.threads.length = 64 ∧ (g.thread 0).status = .join 3 ∧ (g.thread 1).status = .join 3 ∧ (g.thread 1).pc = (g.thread 0).pc)
    ∧ (let g := (issueOf (atIssue .nop [0])).g.withStatus [0] (.join 3)
      g.threads.length = 64 ∧ (g.thread 0).status = .join 3 ∧ (g.thread 1).status = .run) :=
  ⟨issues_all (by decide), by decide, by decide⟩

/-- BRK without and with SKIPBRK, and TRAP with members and with none, its guard P0 being 0. -/
theorem witness_TrapsCompleteAndPark :
    (let s := atIssue .brk [0]; Issues s (issueOf s) .brk ∧ (issueOf s).g.stepctl.getLsbD 1 = false)
    ∧ (let s := withGroup .brk [0] (fun g => { g with stepctl := 2 }); Issues s (issueOf s) .brk ∧ (issueOf s).g.stepctl.getLsbD 1 = true)
    ∧ (let s := atIssue (.trap 5) [0]; Issues s (issueOf s) (.trap 5) ∧ (issueOf s).members ≠ [])
    ∧ (let s := withGroup (.trap 5) [0] (behind [0xF0000000] [0]); Issues s (issueOf s) (.trap 5) ∧ (issueOf s).members = []) :=
  ⟨⟨issues_of (by decide), by decide⟩, ⟨issues_of (by decide), by decide⟩, ⟨issues_of (by decide), by decide⟩, ⟨issues_of (by decide), by decide⟩⟩

theorem witness_SystemRegistersReadAndWrite : ∀ i ∈ ([.srd 2 0x20, .srd 1 0x2A, .swr 1 0x18, .swr 1 0x19, .swr 1 0x28, .swr 1 0x29, .swr 1 0x2A,
    .swr 1 0x00] : List Instr), Issues (atIssue i [0, 63]) (issueOf (atIssue i [0, 63])) i := issues_all (by decide)

/-! A second, parked group in slot 1, whose handle is 1 and whose park asks for an action. -/

/-- A park of lane 0. -/
def aPark (setLevel : Bool) : Park :=
  { cause := 0x0301, lanes := 3, va := 0x40, kind := 1, completing := false, auto := false, seq := 4, skip := 1, setLevel := setLevel, time := 0 }

/-- The state with a second group, parked in slot 1 under a context. -/
def withParked (ctx : Nat) (setLevel saved : Bool) (s : State) : State :=
  { s with
    ctxs := s.ctxs ++ [placedCtx 1 s.hbm]
    work := { s.work with groups := s.work.groups.flatMap fun g =>
      [g, { g with uid := 9, ctx := ctx, slot := 1, park := some (aPark setLevel), gsaved := saved }] } }

/-- RESUME of V1 = action under handle V4 and mask V2:V3, by group 1. -/
def resumeAt (action handle mask : Word) (ctx : Nat) (setLevel : Bool) : State :=
  withParked ctx setLevel false (withGroup (.resume 1 2 4) [0] (regs0 [(1, action), (4, handle), (2, mask)]))

/-- Each outcome of RESUME: its own handle, no group, a bad action, a mask that splits a set-level fault, its own context, and actions 1, 2, 3
and 4 of another context's group. -/
theorem witness_Resume :
    let own := fun s => (issueOf s).g.loads = [] ∧ storesPerformed s (issueOf s).g = true
    let at_ := fun s g => own s ∧ names (handleB (issueOf s) 4) (issueOf s).g = false ∧ parkedAt s (handleB (issueOf s) 4) = some g
    let group := fun (s : State) => ((s.group? 9).getD (issueOf s).g)
    (let s := resumeAt 1 0 0 0 false; issuesNow s (.resume 1 2 4) = true ∧ own s ∧ names (handleB (issueOf s) 4) (issueOf s).g = true)
    ∧ (let s := resumeAt 1 7 0 0 false; issuesNow s (.resume 1 2 4) = true ∧ own s ∧ names (handleB (issueOf s) 4) (issueOf s).g = false
        ∧ parkedAt s (handleB (issueOf s) 4) = none)
    ∧ (let s := resumeAt 5 1 0 0 false; issuesNow s (.resume 1 2 4) = true ∧ at_ s (group s) ∧ (group s).park = some (aPark false))
    ∧ (let s := resumeAt 2 1 1 0 true; issuesNow s (.resume 1 2 4) = true ∧ at_ s (group s) ∧ maskSplits (aPark true) (pairA (issueOf s) 0 2) = true)
    ∧ (let s := resumeAt 4 1 0 0 false; issuesNow s (.resume 1 2 4) = true ∧ at_ s (group s) ∧ (group s).ctx = (issueOf s).g.ctx)
    ∧ (let s := resumeAt 1 1 0 0 false; issuesNow s (.resume 1 2 4) = true ∧ at_ s (group s))
    ∧ (let s := resumeAt 3 1 0 0 false; issuesNow s (.resume 1 2 4) = true ∧ at_ s (group s))
    ∧ (let s := resumeAt 4 0x10001 0 1 false; issuesNow s (.resume 1 2 4) = true ∧ at_ s (group s) ∧ (group s).ctx ≠ (issueOf s).g.ctx) := by
  decide

/-- GSAVE of a parked group, and GLOAD of one whose frame was not saved, and of one whose frame was and holds aligned PCs. -/
theorem witness_Frames :
    let own := fun s => (issueOf s).g.loads = [] ∧ storesPerformed s (issueOf s).g = true
    let at_ := fun s g => own s ∧ names (handleB (issueOf s) 4) (issueOf s).g = false ∧ parkedAt s (handleB (issueOf s) 4) = some g ∧ g.park.isSome = true
    let group := fun (s : State) => ((s.group? 9).getD (issueOf s).g)
    (let s := withParked 0 false false (withGroup (.gsave 1 4) [0] (regs0 [(4, 1)])); issuesNow s (.gsave 1 4) = true ∧ at_ s (group s))
    ∧ (let s := withParked 0 false false (withGroup (.gload 1 4) [0] (regs0 [(4, 1)])); issuesNow s (.gload 1 4) = true ∧ at_ s (group s)
        ∧ (group s).gsaved = false)
    ∧ (let s := withParked 0 false true (withGroup (.gload 1 4) [0] (regs0 [(4, 1)])); issuesNow s (.gload 1 4) = true ∧ at_ s (group s)
        ∧ (group s).gsaved = true ∧ badPc s (framePa s (group s)) (group s) = false)
    ∧ (let s := withParked 0 false false (withGroup (.gload 1 4) [0] id); issuesNow s (.gload 1 4) = true ∧ own s
        ∧ names (handleB (issueOf s) 4) (issueOf s).g = true)
    ∧ (let s := withParked 0 false false (withGroup (.gsave 1 4) [0] (regs0 [(4, 7)])); issuesNow s (.gsave 1 4) = true ∧ own s
        ∧ parkedAt s (handleB (issueOf s) 4) = none) := by
  decide

/-- GSAVE and GLOAD of a parked group with a load in flight, which they wait for. -/
theorem witness_frames_wait : ∀ i ∈ ([.gsave 1 4, .gload 1 4] : List Instr),
    let s0 := withParked 0 false false (withGroup i [0] (regs0 [(4, 1)]))
    let s := s0.modifyGroup 9 fun g => { g with loads := [plainLoad [(.v 0 2, 7)]] }
    let g := (s.group? 9).getD (issueOf s).g
    issuesNow s i = true ∧ (issueOf s).g.loads = [] ∧ storesPerformed s (issueOf s).g = true ∧ names (handleB (issueOf s) 4) (issueOf s).g = false
      ∧ parkedAt s (handleB (issueOf s) 4) = some g ∧ g.loads.map (·.done) = [false] := by
  decide

/-- FQPOP under context 0 with an empty queue and with one entry, and under a context that does not exist. -/
theorem witness_Fqpop :
    let own := fun s => (issueOf s).g.loads = [] ∧ storesPerformed s (issueOf s).g = true
    let ctx := fun s => created? s ((handleB (issueOf s) 4).toNat % 65536)
    (let s := atIssue (.fqpop 1 2 4) [0]; issuesNow s (.fqpop 1 2 4) = true ∧ own s ∧ (ctx s).map (fun c => (c.fqRead, c.fqWritten)) = some (0, 0))
    ∧ (let s := withGroup (.fqpop 1 2 4) [0] (regs0 [(4, 7)]); issuesNow s (.fqpop 1 2 4) = true ∧ own s ∧ ctx s = none)
    ∧ (let s0 := withGroup (.fqpop 1 2 4) [0] (regs0 [(2, 0x200)])
      let s := { s0 with ctxs := s0.ctxs.map fun c => { c with fqWritten := 1 } }
      issuesNow s (.fqpop 1 2 4) = true ∧ own s ∧ (ctx s).map (fun c => (c.fqRead, c.fqWritten)) = some (0, 1)
        ∧ (match storeNow s (issueOf s).g (pairA (issueOf s) 0 2) (s.hbm.read 0 32) with | .ok _ => true | _ => false) = true) := by
  decide

/-- Whether an access that passes its checks gives something. -/
def given {α : Type} (r : Fitted α) : Bool :=
  match r with
  | .ok _ => true
  | _ => false

theorem given_ok {α : Type} {r : Fitted α} (h : given r = true) : ∃ v, r = .ok v := by
  cases r with
  | ok v => exact ⟨v, rfl⟩
  | wait => simp [given] at h
  | fault c => simp [given] at h

/-- Every LD form, with its base pair at address 0x100, may load. -/
theorem witness_LoadsReadAndReturn :
    ∀ p ∈ ([(.ldI32 1 2 0x1F .acquire .system, 4), (.ldI64 4 2 0 .relaxed .group, 8), (.ldI8 1 2 6, 1), (.ldN8 1 2 6, 1), (.ldI16 1 2 6, 2), (.ldN16 1 2 6, 2),
      (.ldq 4 2 8, 16)] : List (Instr × Nat)),
      let s := withGroup p.1 [0] (regs0 [(2, 0x100)])
      issuesNow s p.1 = true ∧ (issueOf s).members ≠ [] ∧ (issueOf s).g.loads.length < 255 ∧ (issueOf s).g.stores = []
        ∧ ((issueOf s).members.all fun l => given (loadMember s (issueOf s).g (loadAccess p.2) (pairA (issueOf s) l 2))) = true := by
  decide

/-- A group with one load in flight, of a V and an S register. -/
theorem witness_LoadReturn :
    let s := withGroup .nop [0] (fun g => { g with loads := [plainLoad [(.v 0 255, 7), (.s 3, 9)]] })
    ∃ g l, s.group? 1 = some g ∧ g.canonical = true ∧ g.loads[0]? = some l ∧ l.done = false ∧ l.tile = none ∧ l.acc = none
      ∧ ∀ w ∈ l.vals, ∀ lane r, w.1 = .v lane r → r < 256 := by
  refine ⟨(issueOf (withGroup .nop [0] (fun g => { g with loads := [plainLoad [(.v 0 255, 7), (.s 3, 9)]] }))).g,
    plainLoad [(.v 0 255, 7), (.s 3, 9)], by decide, by decide, by decide, rfl, rfl, rfl, ?_⟩
  intro w hw lane r h
  simp only [plainLoad, List.mem_cons, List.not_mem_nil, or_false] at hw
  rcases hw with rfl | rfl
  · simp at h; omega
  · simp at h

/-- A load of a tile of two registers and one of an accumulator pair, in flight. -/
theorem witness_LoadReturn_matrix :
    let tile := tileLoad 2 2 (List.replicate 16 0x80) (List.replicate 16 0) [(0, 7), (16, 9)]
    let acc := accLoad 4 .f64 [(0, 7)]
    let s := withGroup .nop [0] (fun g => { g with loads := [tile, acc] })
    (issueOf s).g.canonical = true ∧ (issueOf s).g.loads = [tile, acc] ∧ tile.done = false ∧ acc.done = false ∧ tile.vals = [] ∧ acc.vals = []
      ∧ (∀ t, tile.tile = some t → t.scale.length = 16 ∧ t.spec.length = 16) ∧ acc.tile = none ∧ acc.acc = some (4, 2) := by
  refine ⟨by decide, by decide, by decide, by decide, by decide, by decide, ?_, by decide, by decide⟩
  rintro t h
  obtain rfl := Option.some.inj h
  decide

/-- The row bytes, the format and the step that the return of a load of a tile and of an accumulator leave. -/
theorem test_matrix_loads_return :
    let s := withGroup .nop [0] (fun g => { g with loads := [tileLoad 2 2 (List.replicate 16 0x80) (List.replicate 16 0) [(0, 7)], accLoad 4 .f64 [(0, 7)]] })
    let g := (after s (.loadValueReturn 1 0)).bind fun _ => (match exec (.loadValueReturn 1 0) s with
      | .next t => t.group? 1
      | _ => none)
    g.map (fun g => (g.tfmtOf 3, g.rscaleOf 3 15, tileElem g 2 2 0 0)) = some (2, 0x80, 7) := by
  decide

/-- SLD and SST with their base pair at address 0x100, and both with no member. -/
theorem witness_UniformLoadsAndStores :
    (∀ p ∈ ([(.sldI32 4 2 0 .acquire .system, 4), (.sldI64 4 2 0 .relaxed .group, 8)] : List (Instr × Nat)),
      let s := withGroup p.1 [0] (sregs [(2, 0x100)])
      issuesNow s p.1 = true ∧ (issueOf s).members ≠ [] ∧ (issueOf s).g.loads.length < 255 ∧ (issueOf s).g.stores = []
        ∧ given (loadMember s (issueOf s).g (loadAccess p.2) ((issueOf s).g.spair 2)) = true)
    ∧ (∀ p ∈ ([(.sstI32 4 2 0 .release .team, 4), (.sstI64 4 2 0 .relaxed .group, 8)] : List (Instr × Nat)),
      let s := withGroup p.1 [0] (sregs [(2, 0x100)])
      issuesNow s p.1 = true ∧ (issueOf s).members ≠ [] ∧ (issueOf s).g.stQueue.length < 255 ∧ (issueOf s).g.stores.length + 1 ≤ 64
        ∧ given (storeMember s (issueOf s).g (storeAccess p.2) ((issueOf s).g.spair 2) (List.replicate p.2 0)) = true)
    ∧ (let i := Instr.sldI32 4 2 0 .relaxed .group
      let s := withGroup i [0] (behind [0xF0080000] [0])
      issuesNow s i = true ∧ (issueOf s).members = [] ∧ (issueOf s).ext.z = true)
    ∧ (let i := Instr.sstI32 4 2 0 .relaxed .group
      let s := withGroup i [0] (behind [0xF0000000] [0])
      issuesNow s i = true ∧ (issueOf s).members = [] ∧ (issueOf s).ext.z = false) := by
  decide

/-- Every ST form and DST, with its base pair at address 0x100, may store. -/
theorem witness_StoresAreBuffered :
    (∀ p ∈ ([(.stI32 1 2 0 .release .system, 4), (.stI64 4 2 0 .relaxed .group, 8), (.stI8 1 2 6, 1), (.stI16 1 2 6, 2), (.stq 4 2 8, 16)] : List (Instr × Nat)),
      let s := withGroup p.1 [0, 1] (fun g => ((g.vput 0 2 0x100).vput 1 2 0x200))
      let x := issueOf s
      let ms := storeMembers x (fun s l => storeMember s x.g (storeAccess p.2) (pairA x l 2) (storeBytes 1 p.2 x l)) (fun l => pairA x l 2)
        (sizeCode p.2) (storeBytes 1 p.2 x) x.members s
      issuesNow s p.1 = true ∧ ms ≠ [] ∧ x.g.stQueue.length < 255 ∧ x.g.stores.length + ms.length ≤ 64 ∧ s.deferred = [] ∧ x.g.stores = []
        ∧ x.g.tiles = [] ∧ storesPerformed s x.g = true ∧ (ms.all fun m => given m.2.2) = true)
    ∧ (let s := withGroup (.dst 1 2 6) [0] (regs0 [(2, 0x100), (1, 0x10)])
      let x := issueOf s
      let ms := storeMembers x (fun s l => dstMember s x.g (pairA x l 2) (x.g.vget l 1)) (fun l => pairA x l 2) 5 (storeBytes 1 4 x) x.members s
      issuesNow s (.dst 1 2 6) = true ∧ ms ≠ [] ∧ (ms.all fun m => given m.2.2) = true)
    ∧ (atIssue .nop [0]).group? (issueOf (atIssue .nop [0])).uid = some (issueOf (atIssue .nop [0])).g := by
  decide

/-- A buffered store of four bytes, or the descriptor of a line, to a target. -/
def aStore (t : Target) (immed irrev desc : Bool) : Buffered :=
  { issue := 0, lane := 0, va := 0x100, place := { target := t, irrev := irrev, immed := immed }, size := if desc then 5 else 2, data := [1, 2, 3, 4]
    ord := 0, scope := 0 }

/-- The state with that store alone in the buffer of group 1. -/
def withStore (b : Buffered) : State := withGroup .nop [0] (fun g => { g with stores := [b], stQueue := [0], nextIssue := 1 })

/-- Whether the store may be performed. -/
def storeRuns (b : Buffered) : Bool :=
  let s := withStore b
  s.memoryWf && decide (s.work.groups.map (·.uid)).Nodup && decide (s.group? 1 = some (issueOf s).g) && storesRun s (issueOf s).g
    && decide ((issueOf s).g.stores[0]? = some b) && mayPerform s (issueOf s).g 0 b

/-- Stores to each kind of place, plain, IRREVOCABLE and IMMEDIATE, with room in the logs. -/
theorem witness_PerformedStoresWriteTheirBytes :
    (∀ t ∈ [Target.hbm 0x50100, .pond 0 0x40, .host 0x80, .peer 9 0x80, .leased 9 5 0x80, .mmio 0x10], ∀ desc ∈ [false, true],
      ∀ m ∈ [(false, false), (false, true), (true, false)], storeRuns (aStore t m.1 m.2 desc) = true)
    ∧ (let s := withStore (aStore (.hbm 0x50100) false false false)
      let u := s.setGroup { (issueOf s).g with stores := [] }
      (captureLines u (linesOf 0x50100 4)).isSome = true ∧ logRoom u 0 none = true ∧ dieOf (issueOf s).g.core = 0 ∧ inDomain u 9 = false
        ∧ swf (sideDefault s) s.side = true) := by
  decide

/-- The write of a four-bit element, alone in group 1, and a store to a register whose page is IMMEDIATE. -/
theorem witness_tile_performed :
    let w : TileWrite := { issue := 0, place := { target := .hbm 0x50100, irrev := false, immed := false }, data := [0x50], mask := 0xF0 }
    let s := withGroup .nop [0] (fun g => { g with tiles := [w], stQueue := [0], nextIssue := 1 })
    let u := s.setGroup { (issueOf s).g with tiles := [] }
    s.memoryWf = true ∧ (s.work.groups.map (·.uid)).Nodup ∧ s.group? 1 = some (issueOf s).g ∧ storesRun s (issueOf s).g = true ∧ (issueOf s).g.tiles[0]? = some w
      ∧ (captureLines u (linesOf 0x50100 1)).isSome = true ∧ logRoom u 0 none = true
      ∧ storeRuns (aStore (.mmio 0x10) true false false) = true := by
  decide

/-- The element's bits are merged into its byte. -/
theorem test_tile_element_merges :
    let w : TileWrite := { issue := 0, place := { target := .hbm 0x50100, irrev := false, immed := false }, data := [0x50], mask := 0xF0 }
    let s0 := withGroup .nop [0] (fun g => { g with tiles := [w], stQueue := [0], nextIssue := 1 })
    let s := { s0 with hbm := s0.hbm.writeNat 0x50100 1 0x2A }
    (match exec (.storePerformed 1 0) s with | .next t => t.hbm.byte 0x50100 | _ => 0) = 0x5A := by
  decide

/-- Two stores of different instructions to one Pond segment are performed in their order, and of one instruction in any. -/
theorem test_pond_segment_order :
    let b := fun (n off : Nat) => { aStore (.pond 0 off) false false false with issue := n }
    storesClash (b 0 0x40) (b 1 0x80) = true ∧ storesClash (b 0 0x40) (b 0 0x80) = false ∧ storesClash (b 0 0x40) (b 1 0x1080) = false := by
  decide

/-- Every ATOM, with its address pair at 0x100, passes its checks. -/
theorem witness_AtomicsReadAndWriteTogether :
    ∀ p ∈ ([(.atomAddI32 4 2 .acqRel .system, 0, 4), (.atomMinI32 4 2 .relaxed .group, 1, 4), (.atomMaxI32 4 2 .relaxed .group, 2, 4),
      (.atomMinN32 4 2 .relaxed .group, 3, 4), (.atomMaxN32 4 2 .relaxed .group, 4, 4), (.atomAnd 4 2 .relaxed .group, 5, 4), (.atomOr 4 2 .relaxed .group, 6, 4),
      (.atomXor 4 2 .relaxed .group, 7, 4), (.atomXchgI32 4 2 .relaxed .group, 8, 4), (.atomCasI32 4 2 .relaxed .group, 9, 4),
      (.atomAddF32 4 2 .relaxed .group, 10, 4), (.atomAddI64 4 2 .relaxed .group, 16, 8), (.atomXchgI64 4 2 .relaxed .group, 17, 8),
      (.atomCasI64 4 2 .relaxed .group, 18, 8)] : List (Instr × Nat × Nat)),
      let s := withGroup p.1 [0] (regs0 [(2, 0x100)])
      let x := issueOf s
      issuesNow s p.1 = true ∧ x.members ≠ [] ∧ x.g.loads.length < 255 ∧ x.g.stores = [] ∧ s.deferred = [] ∧ storesPerformed s x.g = true
        ∧ ((atomMs p.2.1 p.2.2 4 2 (fun _ v _ => some v) s x).2.all fun m => given m.2.2) = true := by
  decide

/-- The team of group 1 holds one segment of its Pond, READY. -/
def withPond (st : BitVec 2) (s : State) : State :=
  let teams := s.work.teams.map fun t => { t with nseg := 1 }
  { s with work := { s.work with teams := teams, segs := [(0, { team := 3, state := st, dead := true })] } }

/-- SEGQ and SEGSET at the Pond window, and FENCE and WAIT with every counter at 0. -/
theorem witness_SegmentsFencesAndWaits :
    (let s := withPond 3 (withGroup (.segq 1 2 4) [0] (regs0 [(2, 0xFFF00000), (3, 0xFFFFFFFF)]));
      issuesNow s (.segq 1 2 4) = true ∧ segMember s (issueOf s).g segqAccess (addrB 2 4 (issueOf s) 0) = .ok 0)
    ∧ (let s := withPond 2 (withGroup (.segset 1 2 4) [0] (regs0 [(2, 0xFFF00000), (3, 0xFFFFFFFF), (1, 6)]))
      issuesNow s (.segset 1 2 4) = true ∧ (issueOf s).g.loads = [] ∧ (issueOf s).g.stQueue = []
        ∧ (match (issueOf s).members.foldlM (fun s' l => segsetMember s' (issueOf s).g (addrB 2 4 (issueOf s) l) ((issueOf s).g.vget l 1)) s with
            | .ok _ => true
            | .error _ => false) = true
        ∧ segMember s (issueOf s).g segsetAccess (addrB 2 4 (issueOf s) 0) = .ok 0 ∧ (segAt s 0).state = 2)
    ∧ (∀ st ∈ ([0, 1, 3] : List (BitVec 2)),
      let s := withPond st (withGroup (.segset 1 2 4) [0] (regs0 [(2, 0xFFF00000), (3, 0xFFFFFFFF)]))
      segMember s (issueOf s).g segsetAccess (addrB 2 4 (issueOf s) 0) = .ok 0 ∧ (segAt s 0).state = st)
    ∧ (∀ i ∈ ([.fence .acqRel .system, .wait 0 0 0 0 0, .wait 15 15 15 15 15] : List Instr),
      let s := atIssue i [0, 63]
      issuesNow s i = true ∧ storesPerformed s (issueOf s).g = true ∧ (issueOf s).g.loads.length = 0 ∧ (issueOf s).g.stQueue.length = 0
        ∧ (issueOf s).g.copies.length = 0 ∧ (issueOf s).g.mmas.length = 0 ∧ (issueOf s).g.clops.length = 0) := by
  decide

/-- REGROUP of two lanes with register 5 live. -/
theorem witness_RegroupMovesLiveRegisters :
    let s := withGroup (.regroup 1 2 8) [0, 1] (fun g => ((g.vput 0 2 9).vput 1 2 3).sregPut 8 32)
    issuesNow s (.regroup 1 2 8) = true
      ∧ ∀ r ∈ (List.range 256).filter (fun r => ((issueOf s).g.sregGet ((issueOf s).ext.snum 4 8 + r / 32)).getLsbD (r % 32)),
        vPending (issueOf s).g (issueOf s).lanes r 1 = false := by
  decide

/-- RDV in each form: a free phase, a phase to hold for, a lane that has arrived and whose phase is over, and a last arrival. -/
theorem witness_BarriersCountTheirPhases :
    let count := fun s => (barAt (barriersOf s 0 (issueOf s).g) 0).k
    let free := fun s => ∀ l ∈ (issueOf s).lanes, threadId 0 (issueOf s).g l ∉ (barAt (barriersOf s 0 (issueOf s).g) 0).arrived
    (∀ i ∈ ([.rdvMark 1 0 0, .rdvPeek 1 15 3, .rdvMeet 1 0 0] : List Instr), let s := atIssue i [0, 63]; issuesNow s i = true ∧ free s)
    ∧ (let s := withGroup (.rdvHold 1 0 0) [0] (fun g => { g with bars := [{ freshBarrier with k := 1 }] })
      issuesNow s (.rdvHold 1 0 0) = true ∧ count s = 1 ∧ (issueOf s).g.sregGet 1 = 0)
    ∧ (let s := withGroup (.rdvMeet 1 0 0) [0] (fun g => { g.withStatus [0] (.meet 0 0 0) with bars := [{ freshBarrier with k := 1 }] })
      issuesNow s (.rdvMeet 1 0 0) = true ∧ ((issueOf s).g.thread 0).status = .meet 0 0 0 ∧ count s = 1)
    ∧ (let s := atIssue (.rdvMeet 1 0 0) (List.range 64)
      issuesNow s (.rdvMeet 1 0 0) = true ∧ ((issueOf s).g.thread 0).status = .run ∧ free s
        ∧ (barAt (barriersOf (modifyBarrier s 0 0 (issueOf s).g fun b => completePhase (participants s 0 (issueOf s).g)
            (arrive b ((issueOf s).lanes.map (threadId 0 (issueOf s).g)))) 0
              (((modifyBarrier s 0 0 (issueOf s).g fun b => completePhase (participants s 0 (issueOf s).g)
                (arrive b ((issueOf s).lanes.map (threadId 0 (issueOf s).g)))).group? 1).getD (issueOf s).g)) 0).k = 1) := by
  decide

/-! A fitted region of one dimension at page 1, its header at 0x60000. -/

/-- The header's words: a network of one layer for FP16 elements, eight points, in a STATE and an RSTATE. -/
def regionWords (st rst wid : Nat) : List Nat :=
  [(2 * 2 ^ 40) + 2 * 2 ^ 32 + st * 2 ^ 29 + rst * 2 ^ 27 + 2 ^ 22 + 2 ^ 19, 3 * 2 ^ 48 + 7, 0, 0, 0x3F800000, 0, wid, 0x10000, 4, 0, 0, 0, 0, 0, 0, 0]

/-- The state with a region of a header, registered, and with an operation of group 1 that it works for. -/
def withHeader (words : List Nat) (op : UnitOp) (s : State) : State :=
  let put := fun (m : Memory) => ((m.writeNat 0x40010 16 (0x641 + 0x60000 * 2 ^ 64)).write 0x60000 (words.flatMap (leBytes 8))).writeNat
    0x50400 8 5
  { (s.modifyGroup 1 fun g => { g with frops := [op], frSeq := op.seq }) with
    hbm := put s.hbm
    ctxs := s.ctxs.map (fun c => { c with snap := put c.snap })
    work := { (s.modifyGroup 1 fun g => { g with frops := [op], frSeq := op.seq }).work with
      regions := [{ hdr := 0x60000, owner := some (1, op.seq), snap := [], verified := false, shields := [], image := [] }] } }

/-- The state with that region. -/
def withRegion (st rst wid : Nat) (op : UnitOp) (s : State) : State := withHeader (regionWords st rst wid) op s

/-- An operation of the FR or CL class. -/
def anOp (kind : Nat) (words : List DWord) (step : Nat) (done : Option (Nat × BitVec 16 × BitVec 48)) : UnitOp :=
  { seq := 1, kind := kind, words := words, lane := 0, core := 0, comp := none, scope := 3, step := step, done := done }

/-- RINST with no completion address, the operations on the region with its address in S2:S3, RLDG of its first element and RSTAT. -/
theorem witness_RegionInstructionsIssue :
    let queues := fun s => (issueOf s).g.loads = [] ∧ storesPerformed s (issueOf s).g = true ∧ (issueOf s).g.frops.length < 255
    (let s := withGroup (.rinst 2 4 255) [0] (sregs [(2, 0x100)]);
      issuesNow s (.rinst 2 4 255) = true ∧ queues s ∧ compFault s (issueOf s).g (compAddr (issueOf s) 255) = none)
    ∧ (∀ i ∈ ([.rfit 2 255, .rdem 2 255, .rabort 2 255] : List Instr),
      let s := withRegion 2 0 1 (anOp 1 [] 0 none) (withGroup i [0] (sregs [(2, 0x10000)]))
      issuesNow s i = true ∧ queues s ∧ (fittedHeader s (issueOf s).g (pairS (issueOf s) 17 2)).toOption = some 0x60000)
    ∧ (let i := Instr.rldg 2 4 .acquire .system
      let s := withRegion 2 0 1 (anOp 1 [] 0 none) (withGroup i [0] (regs0 [(4, 0x10000)]))
      issuesNow s i = true ∧ (issueOf s).members ≠ [] ∧ given (rldgMember s (issueOf s).g (pairA (issueOf s) 0 4)) = true)
    ∧ (let i := Instr.rstat 9 2 3
      let s := withRegion 2 0 1 (anOp 1 [] 0 none) (withGroup i [0] (sregs [(2, 0x10000)]))
      issuesNow s i = true ∧ (fittedHeader s (issueOf s).g (pairS (issueOf s) 9 2)).toOption = some 0x60000) := by
  decide

/-- A device in which nothing issues. -/
def device : State := { placeWord State.reset 0 with agenda := [] }

/-- The region's device with every line already captured in this interval. -/
def captured (s : State) : State := { s with baseTag := s.domain.rin }

theorem captured_line {s : State} (h : s.side = []) (hb : s.baseTag = s.domain.rin) (pa : Nat) : captureLine s pa = some s := by
  have : rintag (sideGet s (pa / 64 * 64)) = s.domain.rin := by
    have hs : sideGet s (pa / 64 * 64) = s.domain.rin ++ (0x7F00 : BitVec 32) := by simp [sideGet, h, sget, sideDefault, hb]
    have hn : (s.domain.rin ++ (0x7F00 : BitVec 32)).toNat = s.domain.rin.toNat * 2 ^ 32 + 0x7F00 := by
      rw [BitVec.toNat_append, ← Nat.shiftLeft_add_eq_or_of_lt (by decide), Nat.shiftLeft_eq]
      rfl
    have := s.domain.rin.isLt
    apply BitVec.eq_of_toNat_eq
    rw [hs, rintag, hn, BitVec.toNat_ofNat]
    omega
  simp [captureLine, this]

theorem captured_write {s : State} (h : s.side = []) (hb : s.baseTag = s.domain.rin) (pa : Nat) (data : List Byte) :
    trackedWrite s pa data = some (newWrite s pa data) := by
  have : ∀ l, captureLines s l = some s := by
    intro l
    induction l with
    | nil => rfl
    | cons a l ih => simpa [captureLines, List.foldlM_cons, captured_line h hb] using ih
  simp [trackedWrite, this]

/-- With every line captured, the logs have room for any write of header fields. -/
theorem captured_fields {s : State} {hdr : Nat} (l : List (Nat × Nat × Nat × Nat)) (h : s.side = []) (hb : s.baseTag = s.domain.rin) :
    ∃ u, setFields s hdr l = some u ∧ u.side = [] ∧ u.baseTag = u.domain.rin := by
  induction l generalizing s with
  | nil => exact ⟨s, rfl, h, hb⟩
  | cons x l ih =>
    obtain ⟨k, lo, n, v⟩ := x
    simp only [setFields, List.foldlM_cons, setField, captured_write h hb]
    exact ih (s := newWrite s _ _) h hb

/-- The group of the device's placed launch. -/
def groupOf (s : State) : Group := (s.group? 1).getD (issueOf { s with cur := some (1, []) }).g

/-- The state with a word of the region's header changed. -/
def headerWord (k x : Nat) (s : State) : State := { s with hbm := s.hbm.writeNat (0x60000 + 8 * k) 8 x }

/-- The region's header. -/
def headOf (s : State) : Header := headerAt s.hbm 0x60000

/-- The device's region in a STATE and an RSTATE, with a network or none, and an operation of a kind on it. -/
def regionAt (kind st rst wid : Nat) : State := withRegion st rst wid (anOp kind [0x10000, 0x60000] 0 none) device

/-- Whether the operation of the device's region has the logs' room for what its arrival writes. -/
def arrives (s : State) (op : UnitOp) : Bool := decide ((groupOf s).frops[0]? = some op) && decide (op.step = 0) && (arriveOp s (groupOf s) op).isSome

/-- RFIT, RDEM and RABORT of a region that is EMPTY, INSTALLING, FITTED, DEMOTING or DENSE, and of one that is being refitted: each finds room. -/
theorem witness_region_arrivals :
    (∀ kind ∈ [1, 2, 3], ∀ st ∈ [0, 1, 3, 4], let s := regionAt kind st 0 1
      arrives s (anOp kind [0x10000, 0x60000] 0 none) = true ∧ (headOf s).state = st ∧ (headOf s).rstate = 0)
    ∧ (∀ kind ∈ [1, 3], let s := regionAt kind 2 1 1
      arrives s (anOp kind [0x10000, 0x60000] 0 none) = true ∧ (headOf s).state = 2 ∧ (headOf s).rstate = 1)
    ∧ (let s := regionAt 2 2 0 1; arrives s (anOp 2 [0x10000, 0x60000] 0 none) = true ∧ (headOf s).state = 2 ∧ (headOf s).dempa = 0) := by
  refine ⟨by decide, by decide, by decide⟩

/-- RFIT of a FITTED region: one too small for its network whose INFL is FAULT or DEMOTE, one that HOLDs, and one that refits; and RDEM of one with
a reserve. -/
theorem witness_region_refits :
    (let s := headerWord 0 (2 * 2 ^ 40 + 2 * 2 ^ 32 + 2 * 2 ^ 29 + 3 * 2 ^ 21 + 2 ^ 19) (headerWord 10 (8 * 2 ^ 32) (regionAt 1 2 0 1));
      arrives s (anOp 1 [0x10000, 0x60000] 0 none) = true ∧ (headOf s).state = 2 ∧ (headOf s).rstate = 0
        ∧ (headOf s).points ≤ (headOf s).params + (headOf s).livecnt ∧ (headOf s).inflFault = true)
    ∧ (let s := headerWord 10 (8 * 2 ^ 32) (regionAt 1 2 0 1)
      arrives s (anOp 1 [0x10000, 0x60000] 0 none) = true ∧ (headOf s).state = 2 ∧ (headOf s).rstate = 0
        ∧ (headOf s).points ≤ (headOf s).params + (headOf s).livecnt ∧ (headOf s).inflFault = false)
    ∧ (∀ hold ∈ [false, true],
      let s := headerWord 0 (2 * 2 ^ 40 + 2 * 2 ^ 32 + 2 * 2 ^ 29 + (if hold then 2 ^ 26 else 0) + 2 ^ 22 + 2 ^ 19) (regionAt 1 2 0 1)
      arrives s (anOp 1 [0x10000, 0x60000] 0 none) = true ∧ (headOf s).state = 2 ∧ (headOf s).rstate = 0
        ∧ ¬ (headOf s).points ≤ (headOf s).params + (headOf s).livecnt ∧ (headOf s).hold = hold)
    ∧ (let s := headerWord 9 (2 ^ 16) (regionAt 2 2 0 1)
      arrives s (anOp 2 [0x10000, 0x60000] 0 none) = true ∧ (headOf s).state = 2 ∧ (headOf s).dempa ≠ 0) := by
  refine ⟨by decide, by decide, by decide, by decide⟩

/-- An image at 0x800. -/
def withImage (l : List Nat) (s : State) : State :=
  let put := fun (m : Memory) => m.write 0x50800 (l.flatMap (leBytes 8))
  { s with hbm := put s.hbm, ctxs := s.ctxs.map fun c => { c with snap := put c.snap } }

/-- The image that a Spring unit reads there: why its reading stopped, or the word that is not valid and the header of its VBASE. -/
def imageRead (s : State) (image : Nat) : Except Nat (Option Nat × Option Nat) :=
  match readImage s (groupOf s) 0 8 16 image with
  | .ok b =>
    let h : Header := (dwordsOf 16 b).map (·.toNat)
    .ok (h.badWord, (vbaseHeader s (groupOf s) 0 h.vbase).toOption)
  | .wait => .error 0
  | .fault _ c => .error c.1

/-- Whether a read image gave something. -/
def imageIs (r : Except Nat (Option Nat × Option Nat)) (c : Nat) (bad hdr : Option Nat) : Bool :=
  match r with
  | .ok (b, h) => c == 0 && b == bad && h == hdr
  | .error e => c == e

/-- RINST of an image that is not there, of one that is not valid, and of one of a region that is EMPTY and of one that is not. -/
theorem witness_region_installs :
    let op := anOp 0 [0x800, 0x500, 0] 0 none
    imageIs (imageRead (withRegion 0 0 1 op device) 0x90000) 0x0301 none none = true
      ∧ Header.badWord ((dwordsOf 16 (List.replicate 128 0)).map (·.toNat)) = some 0
      ∧ imageIs (imageRead (withImage ((regionWords 0 0 1).set 9 (2 ^ 16)) (withRegion 0 0 1 op device)) 0x800) 0 none (some 0x60000) = true
      ∧ (headOf (withRegion 0 0 1 op device)).state = 0 ∧ (headOf (withRegion 2 0 1 op device)).state = 2 := by
  decide +kernel
theorem witness_install_begins :
    arrives (withImage ((regionWords 0 0 1).set 9 (2 ^ 16)) (withRegion 0 0 1 (anOp 0 [0x800, 0x500, 0] 0 none) device)) (anOp 0 [0x800, 0x500, 0] 0 none) = true := by
  decide +kernel

/-- How the walk over an install set at an address ends, for a region of three points and a CAP: 0 complete, 1 overflow, 2 fault, 3 wait. -/
def walkEnd (va cap : Nat) (elem : Nat → Nat) : Nat :=
  let s := withHeader (((regionWords 1 0 1).set 1 (3 * 2 ^ 48 + 2)).set 8 cap) (anOp 0 [0x100, 0x500, BitVec.ofNat 64 va] 1 none) device
  match installFrom (fun t n =>
      match engineRead t (groupOf s) 0 2 (BitVec.ofNat 64 (va + n * 2)) with
      | .ok b => .ok (elem (ofLe b))
      | .wait => .wait
      | .fault e => .fault e) 0x60000 (headOf s).points 0 0 s with
  | .complete _ => 0
  | .overflow .. => 1
  | .fault .. => 2
  | .wait => 3

/-- The end of an install without a set, and walks over a set that are complete, overflow and meet a fault. -/
theorem witness_install_ends :
    let op := anOp 0 [0x100, 0x500, 0] 1 none
    let s := withRegion 1 0 1 op device
    (region? s 0x60000).isSome = true ∧ (headOf s).state = 1 ∧ ownerOf s 0x60000 = some (groupOf s, op)
      ∧ (endInstall s (groupOf s) op 0x60000).isSome = true := by
  decide
theorem witness_install_walks : walkEnd 0x800 4 id = 0 ∧ walkEnd 0x800 1 (· + 9) = 1 ∧ walkEnd 0x80000 4 id = 2 := by decide +kernel

/-- The cause and the index of the read that fails after an install has overflowed: the second element of the set lies on no page. -/
def restFault : Option (Nat × Nat) :=
  let put := fun (m : Memory) => m.writeNat 0x40010 16 0
  let s0 := withHeader (((regionWords 1 0 1).set 1 (3 * 2 ^ 48 + 1)).set 8 0) (anOp 0 [0x100, 0x500, 0xFFFE] 1 none) device
  let s := { s0 with hbm := put s0.hbm, ctxs := s0.ctxs.map fun c => { c with snap := put c.snap } }
  let elem : State → Nat → Fitted Nat := fun t n =>
    match engineRead t (groupOf s) 0 2 (BitVec.ofNat 64 (0xFFFE + n * 2)) with
    | .ok b => .ok (ofLe b + 9)
    | .wait => .wait
    | .fault e => .fault e
  match installFrom elem 0x60000 (headOf s).points 0 0 s with
  | .overflow t idx left => (match restOfSet elem (headOf s) t left (idx + 1) with
    | .fault c n => some (c.1, n)
    | _ => none)
  | _ => none
theorem witness_install_rest_fails : restFault = some (0x0301, 1) := by decide +kernel

/-- A refit that is not verified, one that is and gains nothing, and one that an RMAT of the region holds. -/
theorem witness_refit_ends :
    (let s := withRegion 2 2 0 (anOp 1 [0x10000, 0x60000] 1 none) device;
      (region? s 0x60000).map (·.verified) = some false ∧ (headOf s).state = 2 ∧ (headOf s).rstate = 2 ∧ (verifyRefit s 0x60000).isSome = true)
    ∧ (let s := modifyRegion (withRegion 2 2 0 (anOp 1 [0x10000, 0x60000] 1 none) device) 0x60000 fun r => { r with verified := true }
      (region? s 0x60000).map (·.verified) = some true ∧ (headOf s).state = 2 ∧ (headOf s).rstate = 2 ∧ rmatHolds s 0x60000 = false
        ∧ (endRefit s 0x60000).isSome = true) := by
  refine ⟨by decide, by decide⟩

/-- A region that is DEMOTING, of whose reserve n pieces of 64 bytes are written. -/
def demoting (n : Nat) : State := modifyRegion (withRegion 3 0 1 (anOp 2 [0x10000, 0x60000] 1 none) device) 0x60000 fun r => { r with written := n }

/-- How many pieces of the reserve a demotion has written once it can write no more in a step, and how many there are. -/
def demoted (s : State) : Option Nat × Nat :=
  let h := headOf s
  ((region? s 0x60000).map fun r => (writeReserve 0x60000 h r.image (h.reserveSize / 64 - r.written) r.written s).2, h.reserveSize / 64)

/-- A demotion whose last piece is written; and with every line captured it finds room for the rest of its writes. -/
theorem witness_demotion_end : (region? (demoting 1024) 0x60000).isSome = true ∧ (headOf (demoting 1024)).state = 3 ∧ demoted (demoting 1024) = (some 1024, 1024)
    ∧ ∀ t : State, t.side = [] → t.baseTag = t.domain.rin → ∃ u v, setFields t 0x60000 [(10, 32, 24, 0), (0, 29, 3, 4)] = some u
      ∧ setField (modifyRegion u 0x60000 fun r => { r with owner := none, snap := [], verified := false, shields := [], image := [], written := 0 }) 0x60000
          11 0 8 5 = some v := by
  refine ⟨by decide, by decide, by decide, ?_⟩
  intro t a b
  obtain ⟨u, hu, c, d⟩ := captured_fields (hdr := 0x60000) [(10, 32, 24, 0), (0, 29, 3, 4)] a b
  exact ⟨u, _, hu, captured_write (s := modifyRegion u 0x60000 _) c d _ _⟩

/-- A state whose log of die 0 holds n entries. -/
def logsHold (n : Nat) (s : State) : State := { s with undo := List.replicate n { rin := 0, pa := 0, data := [], side := 0, die := 0 } }

theorem logsHold_beside {n : Nat} (hn : 2 ^ 32 ≤ n) (s : State) (l : List Pending) (line : Option Nat) (hb : s.regs.bootCfg = device.regs.bootCfg) :
    roomBeside (logsHold n s) 0 l line = false := by
  have hs : logSize (logsHold n s) = logSize device := by simp [logSize, logPerStack, logShare, logsHold, hb]
  have hu : 128 * n ≤ logUsed (logsHold n s) 0 := by
    simp only [logUsed, logsHold]
    rw [List.filter_eq_self.2 (by intro u hu; simp [(List.mem_replicate.1 hu).2]), List.length_replicate]
    omega
  have hd : logSize device < 128 * 2 ^ 32 := by decide
  simp only [roomBeside, decide_eq_false_iff_not]
  rw [hs]
  omega

theorem logsHold_full {n : Nat} (hn : 2 ^ 32 ≤ n) (s : State) (line : Option Nat) (hb : s.regs.bootCfg = device.regs.bootCfg) :
    logRoom (logsHold n s) 0 line = false := logsHold_beside hn s _ _ hb

/-- A demotion that finds the log full waits with nothing of its reserve written. -/
theorem demotion_waits {n : Nat} (hn : 2 ^ 32 ≤ n) : let s := logsHold n (demoting 0)
    (region? s 0x60000).isSome = true ∧ (headOf s).state = 3 ∧ demoted s = (some 0, 1024) := by
  have h2 : inWindow (demoting 0) 0 = false ∧ (rintag (sideGet (demoting 0) 0) == (demoting 0).domain.rin) = false := by decide
  have hcap : captureLine (logsHold n (demoting 0)) 0 = none := by
    have h3 : inWindow (logsHold n (demoting 0)) 0 = false ∧ (rintag (sideGet (logsHold n (demoting 0)) 0) == (logsHold n (demoting 0)).domain.rin) = false := h2
    simp [captureLine, logsHold_full hn (demoting 0) (some 0) rfl, homeDie, h3]
  have hw : ∀ d : List Byte, d.length = 64 → trackedWrite (logsHold n (demoting 0)) 0 d = none := by
    intro d hd
    simp [trackedWrite, captureLines, linesOf, hd, hcap, List.range_succ]
  have hf : (region? (demoting 0) 0x60000).isSome = true ∧ (headOf (demoting 0)).state = 3 ∧ (headOf (demoting 0)).dempa = 0
      ∧ (headOf (demoting 0)).esize = 4 ∧ (headOf (demoting 0)).reserveSize = 65536 ∧ ((region? (demoting 0) 0x60000).map (·.written)) = some 0 := by decide
  obtain ⟨a, b, c, d, e, f⟩ := hf
  refine ⟨a, b, ?_⟩
  obtain ⟨r, hr⟩ := Option.isSome_iff_exists.1 a
  have hr' : region? (logsHold n (demoting 0)) 0x60000 = some r := hr
  have hh : headOf (logsHold n (demoting 0)) = headOf (demoting 0) := rfl
  have f : r.written = 0 := by simpa [hr] using f
  simp only [demoted, hr', hh, e, Option.map_some, f]
  have hp := hw (reservePiece (logsHold n (demoting 0)).hbm 0x60000 (headOf (demoting 0)) r.image 0) (by simp [reservePiece, d])
  simp [writeReserve, c, hp]
theorem witness_demotion_waits : ∃ s, (region? s 0x60000).isSome = true ∧ (headOf s).state = 3 ∧ demoted s = (some 0, 1024) := ⟨_, demotion_waits (n := 2 ^ 32) (le_refl _)⟩

/-- An operation that has ended, whose completion word has nowhere to go. -/
theorem witness_region_completion :
    let op := anOp 1 [0x10000, 0x60000] 2 (some (6, 0, 0))
    let s := withRegion 2 0 1 op device
    s.group? 1 = some (groupOf s) ∧ (groupOf s).frops.head? = some op ∧ op.done = some (6, 0, 0)
      ∧ (completionStore s (groupOf s) { agentOf (groupOf s) with die := fropDie (groupOf s) op } 0 5 0 1 true none).isSome = true := by
  decide

/-- The region of eight points, FITTED or DENSE, with entry 1 LIVE for point 2 in the state of the device. -/
def withEntry (st : Nat) : State :=
  let s := regionAt 1 st 0 1
  let h := headOf s
  { s with hbm := ((s.hbm.write (0x60000 + h.entryOff 1) ({ coord := 2, value := 5, rin := 0, state := 1, link := 0 } : Exc).bytes).writeNat
      (bucketAddr 0x60000 h 2) 4 2).writeNat (0x60000 + 80) 8 (2 ^ 32) }

/-- Stores of elements of the region: to one that is INSTALLING, to DENSE, to a point with an entry, to one without and to one at which the
network agrees, with entries free and with none that the table can give under INFL = DEMOTE. -/
theorem witness_region_stores :
    (headOf (regionAt 1 1 0 1)).state = 1 ∧ (headOf (regionAt 1 4 0 1)).state = 4 ∧ (regionAt 1 1 0 1).work.springHeld = []
      ∧ (let s := withEntry 2; let h := headOf s
        h.state = 2 ∧ liveEntry s.hbm 0x60000 h (coordWord (h.pointOf 2)) = some 1 ∧ liveEntry s.hbm 0x60000 h (coordWord (h.pointOf 3)) = none
          ∧ tableTakes s.hbm 0x60000 h [(2, 7), (3, 8)] = true ∧ (storeElements s 0x60000 [(2, 7), (3, 8)]).isSome = true
          ∧ windowStore s 0x60000 [(2, 7), (3, 8)] = false ∧ freeEntry s.hbm 0x60000 h = some 0)
      ∧ (let s := headerWord 10 (8 * 2 ^ 32) (regionAt 1 2 0 1); let h := headOf s
        tableTakes s.hbm 0x60000 h [(3, 8)] = false ∧ h.inflFault = false ∧ (abortRefit s 0x60000).isSome = true
          ∧ (startDemotion s 0x60000 none).isSome = true) := by
  decide +kernel

/-- A store to a point with an entry replaces its value and the interval, and one to another point appends the lowest free entry. -/
theorem test_region_stores :
    (match storeElements (withEntry 2) 0x60000 [(2, 7), (3, 8)] with
      | some t => [excAt t.hbm 0x60000 (headOf t) 1, excAt t.hbm 0x60000 (headOf t) 0].map (fun e => (e.coord, e.value, e.rin, e.state)) ++ [((headOf t).livecnt, 0, 0, 0)]
      | none => []) = [(2, 7, 1, 1), (3, 8, 1, 1), (2, 0, 0, 0)] := by
  decide +kernel

/-- Whether a store of the device's group to a virtual address goes to a page that is neither IMMEDIATE nor IRREVOCABLE. -/
def storesPlainly (s : State) (va : Nat) : Bool :=
  match groupAccess s (groupOf s) (storeAccess 2) va with
  | .ok p => !p.immed && !p.irrev
  | .error _ => false

/-- A store to that region from its group goes to such a page, outside the windows of `PROVISIONAL`. -/
theorem witness_region_store_issues : storesPlainly (withEntry 2) 0x10004 = true ∧ inWindow (withEntry 2) 0x60000 = false := by
  decide +kernel

/-- A FITTED region that CLAMPs an index outside it, an EMPTY one and an INSTALLING one. -/
theorem witness_RegionLoadsReadElements :
    (let h := headerAt (withRegion 2 0 1 (anOp 1 [] 0 none) device).hbm 0x60000;
      h.state = 2 ∧ ∀ k < 32, (h.outside (h.pointOf (h.offsetOf (0x10000 + k) / h.esize))).isSome = true → h.ood ≠ 0)
    ∧ (headerAt (withRegion 0 0 1 (anOp 1 [] 0 none) device).hbm 0x60000).state = 0
    ∧ (headerAt (withRegion 1 0 1 (anOp 1 [] 0 none) device).hbm 0x60000).state = 1 := by
  decide

/-! Copies from 0x200 to 0x300, its shape record at 0x100. -/

/-- The words of a shape record of n source elements, rows 64 bytes apart, with W5 and W6. -/
def shapeWords (src dst n w5 w6 : Nat) : List DWord :=
  [BitVec.ofNat 64 src, BitVec.ofNat 64 dst, 0, 64, BitVec.ofNat 64 ((n - 1) * 2 ^ 16), BitVec.ofNat 64 w5, BitVec.ofNat 64 w6, 0]

/-- The state with a shape record at 0x100. -/
def withShape (l : List DWord) (s : State) : State := (l.zip (List.range 8)).foldl (fun s (w, k) => poke (0x100 + 8 * k) 8 w.toNat s) s

/-- A copy in flight of group 1. -/
def aCopy (op : Nat) (l : List DWord) : CopyOp :=
  { seq := 1, op := op, words := l, coords := [0, 0, 0, 0], lane := 0, core := 0, comp := none, fill := [], drain := [], bar := none, next := 0
    halted := none, done := none, offend := none, satd := [], width := 0, gen := 0 }

/-- The device with a copy of group 1 in flight. -/
def withCopy (op : CopyOp) : State := device.modifyGroup 1 fun g => { g with copies := [op] }

/-- Each copy-engine instruction, its record at 0x100. -/
theorem witness_CopiesRunAndComplete :
    ∀ p ∈ ([(.cpy 2 4 255, .cpy, 0x200, 0), (.cpyt 2 4 255, .cpyt, 0x200, 0), (.cvtc 2 4 255, .cvtc, 0x200, 0x0202), (.qnt 2 4 255, .qnt, 0x200, 0x0502),
      (.rmat 2 4 255, .rmat, 0x10000, 0x0200), (.cpfill 2 4 255, .cpfill, 0x200, 0)] : List (Instr × CopyKind × Nat × Nat)),
      let s := withShape (shapeWords p.2.2.1 0x300 4 (3 * 2 ^ 32 + 3 * 2 ^ 16) p.2.2.2)
        (withRegion 2 0 1 (anOp 1 [] 0 none) (withGroup p.1 [0] (sregs [(2, 0x100)])))
      issuesNow s p.1 = true ∧ (issueOf s).g.loads = [] ∧ storesPerformed s (issueOf s).g = true ∧ (issueOf s).g.copies.length < 255
        ∧ (planCopy s (issueOf s) p.2.1 (pairS (issueOf s) 17 2) ((List.range 4).map fun n => (issueOf s).g.sregGet (4 + n)) none).toOption.isSome = true := by
  decide

/-- A copy that has ended with an outcome while a Spring unit holds one of its elements keeps its outcome and stays (R207). -/
theorem witness_copy_waits_for_springs :
    let op := { aCopy 0 (shapeWords 0x200 0x300 1 (3 * 2 ^ 32 + 3 * 2 ^ 16) 0) with done := some (2, 0, 0, 0) }
    let s0 := withCopy op
    let s := { s0 with work := { s0.work with springHeld := [{ hdr := 0x60000, ctx := 0, group := 1, issue := engineIssue + 1, elems := [(0, 1)] }] } }
    (match exec (.copyCompletion 1) s with | .next t => (groupOf t).copies | _ => []) = [op]
      ∧ (match exec (.copyCompletion 1) s0 with | .next t => (groupOf t).copies | _ => [op]) = [] := by
  decide

/-- An RMAT that has begun to read a region holds its refit. -/
theorem witness_rmat_holds :
    rmatHolds (withRegion 2 2 0 (anOp 1 [] 1 none) (withCopy { aCopy 4 (shapeWords 0x10000 0x300 4 (3 * 2 ^ 32 + 3 * 2 ^ 16) 0x0300) with region := some 0x60000 })) 0x60000
      = true := by
  decide

/-- An RMAT whose source lies in a region, and one whose source has no page. -/
theorem witness_rmat_regions : ∀ c ∈ ([(0x10000, some 0x60000), (0x80000, none)] : List (Nat × Option Nat)),
    let op := aCopy 4 (shapeWords c.1 0x300 4 (3 * 2 ^ 32 + 3 * 2 ^ 16) 0x0300)
    let s := withRegion 2 0 1 (anOp 1 [] 0 none) (withCopy op)
    op.op = 4 ∧ op.width = 0 ∧ rmatHeader s (groupOf s) op = c.2 := by
  decide

/-- Why a run stopped. -/
def stopCause (r : State × CopyOp × Option CopyStop) : Option Nat :=
  match r.2.2 with
  | some (.fault _ _ c) => some c.1
  | _ => none

/-- What an element of a copy of an operation is, from the source 0x200 or the region at 0x10000: none outside, or its code. -/
def takenCode (op n w6 k : Nat) : Option (Option Nat) :=
  let c := { aCopy op (shapeWords (if op = 4 then 0x10000 else 0x200) 0x300 n (3 * 2 ^ 32 + 3 * 2 ^ 16) w6) with width := if op = 2 ∨ op = 3 ∨ op = 4 then 16 else 8 }
  let s := poke 0x200 2 0x3C07 (withRegion 2 0 1 (anOp 1 [] 0 none) (withCopy c))
  match elemAt s (groupOf s) c k with
  | .ok e => some (e.map (·.code))
  | .error _ => none

/-- Each operation inside its source, and outside it without and with ZF. -/
theorem witness_CopiesTakeTheirElements :
    takenCode 5 4 0 0 = some (some 0) ∧ takenCode 0 4 0 0 = some (some 7) ∧ takenCode 1 4 0 0 = some (some 7)
    ∧ (takenCode 2 4 0x0204 0).isSome = true ∧ (takenCode 3 4 0x0504 0).isSome = true ∧ (takenCode 4 4 0x0300 0).isSome = true
    ∧ (∀ op ∈ [0, 1, 2, 3, 4], takenCode op 1 0x0504 2 = some none)
    ∧ (∀ op ∈ [0, 1, 2, 3, 4], takenCode op 1 (2 ^ 48 + 0x0504) 2 = some (some 0)) := by
  decide +kernel

/-- An element of one byte at 0x300 that may be written, whose source is not there. -/
theorem witness_CopiesPutTheirElements :
    let op := aCopy 0 (shapeWords 0x200 0x300 1 0 0)
    let s := withCopy op
    let e : ElemOut := { code := 7, offends := false, satd := false, desc := some 0x7F02 }
    s.hbm.wf = true ∧ swf (sideDefault s) s.side = true
      ∧ (match engineAccess s (groupOf s) 0 (engWrite 1) 0x300 with | .ok p => p.target == .hbm 0x50300 | .error _ => false) = true
      ∧ (match putElem [] s (groupOf s) op 8 (8 * 0x300) e with | .ok _ => true | .error _ => false) = true
      ∧ (match copyElem s [] s (groupOf s) op 8 0 with | .ok _ => true | .error _ => false) = true := by
  decide

/-- A copy that runs out of elements, one whose destination is in the Pond window, one that is done, and one whose source has no page. -/
theorem witness_CopyCompletion :
    (∀ c ∈ ([(0x200, 0x300, none), (0x200, 0xFFFFFFFFFFF00000, some 0x0401), (0x20000, 0x300, some 0x0301)] : List (Nat × Nat × Option Nat)),
      let op := aCopy 0 (shapeWords c.1 c.2.1 1 0 0)
      let s := withCopy op
      s.group? 1 = some (groupOf s) ∧ enginesRun s (groupOf s) = true ∧ (groupOf s).copies[0]? = some op ∧ (groupOf s).ext = []
        ∧ stopCause (runCopy s (groupOf s) op) = c.2.2)
    ∧ (let op := { aCopy 0 [] with done := some (3, 0, 0, 0) }; (groupOf (withCopy op)).copies.head? = some op ∧ op.done = some (3, 0, 0, 0)) := by
  refine ⟨by decide, by decide⟩

/-- The state with FP32 as the format of the two lines at 0x100 and a block of rows and columns in S8 to S11. -/
def withBlock (i : Instr) (f : Group → Group) (masks : Word) : State :=
  { withGroup i [0] (fun g => sregs [(8, 0x100), (10, 64), (11, masks)] (f g)) with side := [(0x50100 / 64, 0x7F02), (0x50140 / 64, 0x7F02)] }

/-- Registers T0 and T2 as FP32 tiles and A0:A1 as a double word. -/
def typed (g : Group) : Group := { g with tfmt := [(0, 2), (1, 2), (2, 2), (3, 2)], atag := [(0, 2), (1, 2)] }

/-- TZERO, TTRN, AZERO and AMOV; ASNAP in and outside observation mode; TLD with and without a format, ALD, TSTR and AST of a block and of none. -/
theorem witness_TilesAndAccumulators :
    (∀ i ∈ ([.tzero 2 2, .ttrn 0 2, .azero .f32 7, .azero .f64 6, .azero .i32 0, .amov 7 0, .asnap 0 7 8] : List Instr),
      let s := withGroup i [0] typed
      issuesNow s i = true ∧ accBusy (issueOf s).g 0 8 = false ∧ (issueOf s).g.obsv.getLsbD 0 = false ∧ tPending (issueOf s).g 0 4 = false
        ∧ (issueOf s).g.tfmtOf 0 = 2 ∧ tileRegs 2 = 2 ∧ (issueOf s).g.tbud = 16 ∧ rowsDiffer (tileOf (issueOf s).g 0) = none)
    ∧ (let s := withGroup (.asnap 0 7 8) [0] (fun g => { g with obsv := 1 }); issuesNow s (.asnap 0 7 8) = true ∧ (issueOf s).g.obsv.getLsbD 0 = true)
    ∧ (∀ i ∈ ([.tld 0 2 8, .tld 2 2 8] : List Instr),
      let s := withBlock i typed 0x00030003
      let b := tileBlock (issueOf s) 8
      issuesNow s i = true ∧ b.points.length = 4 ∧ rowMisaligned b 32 = none ∧ lineMixed s (issueOf s).g b 2 = none
        ∧ (match (memoryFormat s (issueOf s).g b).2 with | .ok f => f == 2 | _ => false) = true
        ∧ ∀ p ∈ b.points, given (loadElem s (issueOf s).g true b 32 p) = true)
    ∧ (∀ c ∈ [ATag.f32, ATag.f64],
      let s := withBlock (.ald c 0 8) typed 0x00030003
      let b := tileBlock (issueOf s) 8
      issuesNow s (.ald c 0 8) = true ∧ b.points ≠ [] ∧ rowMisaligned b (32 * c.regs) = none
        ∧ ∀ p ∈ b.points, given (loadElem s (issueOf s).g false b (32 * c.regs) p) = true)
    ∧ (∀ i ∈ ([.tstr 0 8, .ast 0 8] : List Instr),
      let s := withBlock i typed 0x00030003
      let b := tileBlock (issueOf s) 8
      issuesNow s i = true ∧ b.points ≠ [] ∧ rowMisaligned b 64 = none ∧ rowMisaligned b 32 = none ∧ astFault (issueOf s).g ((encode i).getD 0) 0 = none
        ∧ aPending (issueOf s).g 0 2 = false ∧ (∀ p ∈ b.points, given (storePlace s (issueOf s).g b 64 p) = true)
        ∧ ∀ p ∈ b.points, given (storePlace s (issueOf s).g b 32 p) = true)
    ∧ (∀ i ∈ ([.tld 2 2 8, .ald .f32 0 8] : List Instr),
      let s := withBlock i typed 0x00030000; issuesNow s i = true ∧ (tileBlock (issueOf s) 8).points = []) := by
  refine ⟨by decide, by decide, by decide, by decide, by decide, by decide⟩

/-- MMA and MMA.DW of two FP32 tiles, and an operation in flight of FP32 and of integer tiles. -/
theorem witness_MatrixOperationsAccumulate :
    (let s := withGroup (.mma 2 0 2 8) [0] typed;
      issuesNow s (.mma 2 0 2 8) = true ∧ mmaFault (issueOf s).g ((encode (.mma 2 0 2 8)).getD 0) 2 0 2 false = none
        ∧ tPending (issueOf s).g 0 2 = false ∧ aPending (issueOf s).g 2 1 = false)
    ∧ (let s := withGroup (.mmaDw 2 0 2 8) [0] typed
      issuesNow s (.mmaDw 2 0 2 8) = true ∧ mmaFault (issueOf s).g ((encode (.mmaDw 2 0 2 8)).getD 0) 2 0 2 true = none
        ∧ tPending (issueOf s).g 0 2 = false ∧ aPending (issueOf s).g 2 2 = false)
    ∧ (∀ f ∈ ([(1, false), (1, true), (2, false), (2, true), (0x10, false)] : List (Byte × Bool)),
      let m : MmaOp := { seq := 1, acc := 4, dw := f.2, a := { fmt := f.1, elems := [], scale := [], spec := [] }, b := { fmt := f.1, elems := [], scale := [], spec := [] }
                         rows := 3, cols := 1, deps := 0xFFFF }
      let s := device.modifyGroup 1 fun g => { g with mmas := [m] }
      s.group? 1 = some (groupOf s) ∧ (groupOf s).canonical = true ∧ (groupOf s).mmas = [m] ∧ m.a.fmt = f.1 ∧ (m.rows.getLsbD 1 && m.cols.getLsbD 0) = true
        ∧ (m.rows.getLsbD 2 && m.cols.getLsbD 0) = false) := by
  refine ⟨by decide, by decide, by decide⟩

/-! A graph of one stage with a channel from it to itself, its area at 0x2000, its one slot at 0x4000. -/

/-- The channel. -/
def aChan : Chan :=
  { buf := 0x4000, bytes := 64, init := 0, prod := 1, cons := 1, lines := 1, scope := 0, prodSt := 0, size := 1, escope := 1, pond := false
    ppos := 0, prodEnd := none, rings := [{ stage := 0, cpos := 0, rcvd := 0, full := [] }] }

/-- The graph with some channels, its stage in a state and with firings open. -/
def aGraph (chans : List Chan) (stage isOpen : Nat) : Graph :=
  { area := 0x2000, pages := [0x52000, 0x53000], held := [], ctx := 0, launch := 2, state := 2, cause := 0, nperiod := 0
    stages := [{ team := 0, role := 0, q := 1, state := stage, admitted := 0, ended := 0, isOpen := isOpen, core := 0 }]
    chans := chans, table := [{ stage := 0, rep := 1, firstn := 0 }], periods := 0, entry := 0, count := 0 }

/-- The state with a graph, and q of its stage and the entry of its table in its area. -/
def withGraph (gr : Graph) (s : State) : State :=
  { s with work := { s.work with graphs := [gr] }, hbm := (s.hbm.writeNat 0x52100 4 1).writeNat 0x53400 8 0x100 }

/-- HBM with the tables of the placed group and a bind record of one stage at 0x100. -/
def aBindMem : Memory :=
  { cells := [(0x10000, 1), (0x1000A, 2), (0x20000, 1), (0x2000A, 3), (0x30000, 1), (0x3000A, 4), (0x40000, 1), (0x40001, 14), (0x4000A, 5), (0x50100, 1)
      , (0x50110, 0x40), (0x50111, 0x14)]
    marks := [] }
/-- A device with that record, every line of HBM captured in this interval. -/
def aBind : State := { captured device with hbm := aBindMem, ctxs := device.ctxs.map fun c => { c with snap := aBindMem } }

/-- The bind operation of a group. -/
def bindOp (kind step : Nat) : UnitOp := anOp kind [0x100, 0x2000] step none
/-- A device with a bind area BINDING and the record of aBind. -/
def aBinding : State := { aBind with work := { aBind.work with graphs := [emptyArea 0 2 0x2000 [0x52000] 1 0] } }

/-- Binds and rebinds that begin: the area is free, or its graph is quiescent. One with an open firing fails, and so does a bind of no record. -/
theorem witness_GraphsAreBound :
    (∀ i ∈ ([.gbind 2 4 255, .grebind 2 4 255, .gstat 8 2 4, .chstat 8 2 4] : List Instr),
      let s := withGroup i [0] id
      issuesNow s i = true ∧ (issueOf s).g.loads = [] ∧ storesPerformed s (issueOf s).g = true ∧ (issueOf s).g.frops.length < 255)
    ∧ (let s := device
      graphAt s 0 0x2000 = none ∧ ((groupOf s).thread 0).status ≠ .exited ∧ s.group? 1 = some (groupOf s) ∧ (groupOf s).ext = [])
    ∧ notQuiescent (aGraph [] 0 0) = none ∧ notQuiescent (aGraph [] 0 1) = some 0 := by
  refine ⟨by decide, by decide, by decide, by decide⟩

/-- A bind that fails: of a BINDING area, and of one that is BOUND. -/
theorem witness_bind_fails : ∀ c ∈ ([(1, 1), (2, 0)] : List (Nat × Nat)),
    let s := withGraph (emptyArea 0 2 0x2000 [0x52000] c.1 0) device
    (graphAt s 0 0x2000).isSome = true ∧ (match makeGraph s (groupOf s) (bindOp 4 c.2) none with
      | .error (.fault _ _ f) => f.1 == 0x0602
      | _ => false) = true := by decide +kernel

theorem witness_bind : (match makeGraph aBinding (groupOf aBinding) (bindOp 4 1) none with
    | .ok gr => (writeArea aBinding (groupOf aBinding) (bindOp 4 1) gr).toOption.isSome && (readRecord aBinding (groupOf aBinding) (bindOp 4 1)).toOption.isSome
    | .error _ => false) = true := by
  decide +kernel

theorem witness_rebind :
    let gr := { aGraph [] 0 0 with state := 1 }
    let s := withGraph gr aBind
    graphAt s 0 0x2000 = some gr ∧ (match makeGraph s (groupOf s) (bindOp 5 1) (some gr) with
      | .ok new => (chanChanged gr.chans new.chans).isNone && (match allHeld s (groupOf s) 0 gr.chans new.chans with
        | .ok held => (putHeld s (frAgent (groupOf s) 1) held).toOption.isSome
        | .error _ => false) && (writeArea s (groupOf s) (bindOp 5 1) (rescope gr new)).toOption.isSome
      | .error _ => false) = true := by
  decide +kernel

/-- A rebind that begins, whose record is not there, or whose graph is not BOUND or not quiescent. -/
theorem witness_rebind_begins :
    (let gr := aGraph [] 0 0; let s := withGraph gr aBind
      graphAt s 0 0x2000 = some gr ∧ gr.state = 2 ∧ notQuiescent gr = none
        ∧ (saveGraph (regionOpBegun s 1 1) { gr with state := 1 }).isSome = true)
    ∧ (let gr := { aGraph [] 0 0 with state := 1 }; let s := withGraph gr device
      (match rebindGraph s (groupOf s) (bindOp 5 1) gr with | .error (.fault ..) => true | _ => false) = true) := by
  decide +kernel

/-- A BIND event makes a free area BINDING, and one of a BINDING area binds it. -/
theorem test_bind_passes_binding :
    ∀ c ∈ [(aBind, 0, 1), (aBinding, 1, 2)],
      (match exec (.bind 1 0) (c.1.modifyGroup 1 fun g => { g with frops := [bindOp 4 c.2.1] }) with
        | .next t => (graph? t 0 0x2000).map (·.state) == some c.2.2
        | _ => false) = true := by
  decide +kernel

/-- A firing of that stage that has taken and sent n records. -/
def aFiring (n : Nat) : Firing :=
  { area := 0x2000, stage := 0, n := 0, ins := [{ chan := 0, first := 0, count := 1, rcvd := n }], outs := [{ chan := 0, first := 0, sent := [n] }] }

/-- FIRE of a stage that is over, and of one without inputs; FEND of a firing that is complete; SEND to the free slot, RECV from it, and RECV
of an exhausted input. -/
theorem witness_FiringsMoveRecords :
    (let s := withGraph { aGraph [] 0 0 with state := 1 } (withGroup (.fire 3 2) [0] (sregs [(2, 0x2000)]));
      issuesNow s (.fire 3 2) = true ∧ areaFault s (issueOf s).g (pairS (issueOf s) 9 2) = none
        ∧ graphAt s 0 (pairS (issueOf s) 9 2) = some { aGraph [] 0 0 with state := 1 })
    ∧ (∀ c ∈ [1, 2], let s := withGraph (aGraph [] c 0) (withGroup (.fire 3 2) [0, 63] (sregs [(2, 0x2000)]))
      issuesNow s (.fire 3 2) = true ∧ areaFault s (issueOf s).g 0x2000 = none ∧ graphAt s 0 (pairS (issueOf s) 9 2) = some (aGraph [] c 0)
        ∧ (aGraph [] c 0).stageOf (issueOf s).g = some 0 ∧ (issueOf s).g.firing = none ∧ ((aGraph [] c 0).stage 0).state ≠ 0)
    ∧ (let s := withGraph (aGraph [] 0 0) (withGroup (.fire 3 2) [0] (sregs [(2, 0x2000)]))
      issuesNow s (.fire 3 2) = true ∧ ownFiring s (issueOf s) (aGraph [] 0 0) 0 = 0 ∧ (aGraph [] 0 0).nperiod = 0 ∧ (aGraph [] 0 0).inputs 0 = []
        ∧ (aGraph [] 0 0).cursorAt 0 0 = true)
    ∧ (let s := withGraph (aGraph [aChan] 0 1) (withGroup (.fend 2 4) [0] (fun g => { sregs [(2, 0x2000)] g with firing := some (aFiring 1) }))
      issuesNow s (.fend 2 4) = true ∧ areaFault s (issueOf s).g (pairS (issueOf s) 9 2) = none ∧ (issueOf s).g.firing = some (aFiring 1)
        ∧ graphAt s 0 0x2000 = some (aGraph [aChan] 0 1) ∧ ((aGraph [aChan] 0 1).chan 0).prod = 1) := by
  refine ⟨by decide +kernel, by decide +kernel, by decide +kernel, by decide +kernel⟩

/-- SEND to the free slot. -/
theorem witness_send : let s := withGraph (aGraph [aChan] 0 1) (withGroup (.send 2 4) [0] (fun g => { sregs [(2, 0x100), (4, 0x100)] g with firing := some (aFiring 0) }))
      issuesNow s (.send 2 4) = true ∧ (aFiring 0).outs.find? (fun o => o.chan == 0) = some { chan := 0, first := 0, sent := [0] }
        ∧ (match linePlaces s (issueOf s).g (lineAccess false recordTypes) (pairS (issueOf s) 9 2) 1,
            allPlaces [linePlaces s (issueOf s).g (lineAccess true [0, 1]) (aChan.slotAddr 0 0) 1] with
          | .ok ps, .ok ds => (copySlots s (issueOf s).g ps (([aChan.slotAddr 0 0]).zip ds)).toOption.isSome
          | _, _ => false) = true := by
  decide +kernel
/-- RECV from it, and RECV of an exhausted input. -/
theorem witness_recv : (∀ n ∈ [0, 1],
      let s := withGraph (aGraph [aChan] 0 1) (withGroup (.recv 3 2 4) [0] (fun g => { sregs [(2, 0x100)] g with firing := some (aFiring n) }))
      let gr := aGraph [{ aChan with cons := 2 }] 0 1
      issuesNow s (.recv 3 2 4) = true ∧ (aFiring n).ins.find? (fun i => i.chan == 0) = some { chan := 0, first := 0, count := 1, rcvd := n }
        ∧ (gr.inputs 0).find? (fun i => i.1 == 0) = some (0, 0) ∧ n ≠ (gr.chan 0).cons
        ∧ (match linePlaces s (issueOf s).g (lineAccess false [0, 1]) (aChan.slotAddr 0 0) 1,
            linePlaces s (issueOf s).g (lineAccess true recordTypes) (pairS (issueOf s) 9 2) 1 with
          | .ok ps, .ok qs => (copyLines s (issueOf s).g 0 (ps.zip qs)).toOption.isSome
          | _, _ => false) = true) := by
  decide +kernel

/-- The area of that graph holds what was last stored there, and the logs have room for the next stores. -/
theorem witness_graph_is_kept :
    let gr := aGraph [aChan] 0 1
    let s := withGraph gr device
    let x := issueOf { s with cur := some (1, [0]) }
    gr.pages ≠ [] ∧ (∀ k < 3, s.hbm.within (gr.part k) = gr.held.getD k []) ∧ (saveGraph s (gr.enter 0)).isSome = true
      ∧ (saveGraph s (closeFiring gr (aFiring 1) false)).isSome = true ∧ (∀ late ∈ [[], [0]], (sent s x gr (aFiring 0) 0 [0] [0] late (fun _ => 0)).isSome = true)
      ∧ (received s x 3 gr (aFiring 0) { chan := 0, first := 0, count := 1, rcvd := 0 } 0 0).isSome = true := by
  decide +kernel

/-- Whether an instruction issues from address 0 of group 1 with the group's accesses performed, in a state. -/
def issuesFree (s : State) (i : Instr) : Bool := issuesNow s i && (issueOf s).g.loads.isEmpty && storesPerformed s (issueOf s).g

/-- The device after a change of its domain. -/
def inDomainOf (f : Domain → Domain) (s : State) : State := { s with domain := f s.domain }

/-- A park of group 1 under a full log since CLOCK 0. -/
def stalled : State := { device.modifyGroup 1 fun g => { g with park := some { aPark false with cause := 0x0901 } } with clock := 50000000 }

/-- SEAL, SEALREQ and RVRD; a period that has run out, a stalled log, a trigger, a gang whose threads stand at SEAL, a coordinator that may
go on and one that has waited too long. -/
theorem witness_SealsAreRequestedAndDecided :
    (∀ i ∈ ([.seal true, .seal false, .sealreq 7, .rvrd 7 2] : List Instr), issuesFree (atIssue i [0, 63]) i = true)
    ∧ (let s := withGroup (.seal true) [0] fun g => g.withStatus [0] (.seal 1)
      issuesFree s (.seal true) = true ∧ (issueOf s).lanes = [0] ∧ ((issueOf s).g.thread 0).status = .seal 1)
    ∧ (let s := { device with clock := 1000000000 }
      s.regs.boot = .ready ∧ s.regs.sealPer ≠ 0 ∧ s.domain.stage = 0 ∧ s.domain.trigger = false ∧ s.domain.lastSeal + s.regs.sealPer.toNat * 1000000 ≤ s.clock)
    ∧ (stalled.regs.boot = .ready ∧ stalled.domain.stage = 0 ∧ stalled.domain.trigger = false ∧ 0 + stallMs stalled * 1000000 ≤ stalled.clock
        ∧ ∀ die < 4, logFull stalled die = false)
    ∧ (let s := inDomainOf (fun d => { d with trigger := true }) device; s.domain.stage = 0 ∧ s.domain.trigger = true)
    ∧ (let s := device.modifyGroup 1 fun g => g.withStatus (List.range 64) (.seal 1); s.domain.stage = 0 ∧ ∃ l ∈ s.work.launches, sealDone s l = true)
    ∧ (let s := inDomainOf (fun d => { d with stage := 1, passed := true }) device
      s.domain.stage = 1 ∧ s.domain.passed = true ∧ s.domain.coord = s.domain.device ∧ ∀ d ∈ s.domain.members, d = s.domain.device ∨ d ∉ s.domain.noRoute)
    ∧ (let s := { inDomainOf (fun d => { d with stage := 1 }) device with clock := 1000000000 }
      s.domain.stage = 1 ∧ s.domain.coord = s.domain.device ∧ s.domain.since + s.domain.sealTo * 1000000 ≤ s.clock) := by
  refine ⟨by decide, by decide, by decide, by decide, by decide, by decide, by decide, by decide⟩

/-- With its log full that group's park counts for the stall limit. -/
theorem stall_starts {n : Nat} (hn : 2 ^ 32 ≤ n) : stallStart (logsHold n stalled) = some 0 := by
  have h : logFull (logsHold n stalled) 0 = true := by simp [logFull, logsHold_beside hn stalled [] none rfl]
  have h2 : ((List.range Config.dies).any fun d => logFull (logsHold n stalled) d) = true := List.any_eq_true.2 ⟨0, by decide, h⟩
  have h3 : (logParks stalled).foldl (fun m p => some (match m with
      | some t => min t p.time
      | none => p.time)) none = some 0 := by decide
  simp only [stallStart, h2, Bool.true_or, List.filter_true]
  exact h3
/-- The park of a whole set, such as that of a SEND, counts though no log stands full. -/
theorem test_set_level_parks_stall : stallStart { stalled with work := { stalled.work with groups := stalled.work.groups.map fun g =>
    { g with park := g.park.map fun p => { p with setLevel := true } } } } = some 0 := by decide
theorem witness_stall_starts : ∃ s, stallStart s = some 0 ∧ s.regs.boot = .ready ∧ s.domain.stage = 0 ∧ s.domain.trigger = false
    ∧ 0 + stallMs s * 1000000 ≤ s.clock :=
  ⟨logsHold (2 ^ 32) stalled, stall_starts (le_refl _), witness_SealsAreRequestedAndDecided.2.2.2.1.1, witness_SealsAreRequestedAndDecided.2.2.2.1.2.1,
    witness_SealsAreRequestedAndDecided.2.2.2.1.2.2.1, witness_SealsAreRequestedAndDecided.2.2.2.1.2.2.2.1⟩

/-- A lease of number 5 that context 0 borrows from device 0, in a state. -/
def aLease (st : Nat) (lender : Bool) : Lease :=
  { num := 5, dev := 0, ctx := 0, state := st, lender := lender, base := 0, size := 65536, deadline := 7, watch := none }

/-- The state with leases. -/
def withLeases (l : List Lease) (s : State) : State := { s with leases := l }

/-- A collective operation of one rank in flight: four bytes from 0x200 to 0x300. -/
def aColl (step : Nat) (done : Option (Nat × BitVec 16 × BitVec 48)) : UnitOp := anOp 6 [0x200, 0x300, 0, 1, 0, 0, 0, 0, 0] step done

/-- The device with an operation of the CL class in flight. -/
def withClop (op : UnitOp) : State := device.modifyGroup 1 fun g => { g with clops := [op] }

/-- Whether the records and the buffers of a COLL pass. -/
def collIssues (s : State) : Bool :=
  match readColl s (issueOf s) (pairS (issueOf s) 17 2) with
  | .ok (r, table) => (collRanges s (issueOf s) r table 0).toOption.isSome
  | .error _ => false

/-- COLL with its record at 0x100 and its communicator at 0x180, LEASE, CLARB and CLSTAT; a COLL that passes its ready word, one that exchanges,
one that a cause ends and one that is done; and a LEASE that its lender answers. -/
theorem witness_CollectivesIssueAndComplete :
    (let s := poke 0x100 8 0x200 (poke 0x108 8 0x300 (poke 0x110 8 0x180 (poke 0x120 8 1 (poke 0x180 8 1 (withGroup (.coll 2 4 255) [0] (sregs [(2, 0x100)]))))));
      issuesFree s (.coll 2 4 255) = true ∧ (issueOf s).g.clops.length < 255 ∧ collIssues s = true)
    ∧ (let s := poke 0x100 8 0x200 (poke 0x108 8 0x300 (poke 0x110 8 0x180 (poke 0x120 8 1 (poke 0x180 8 1
        (withGroup (.coll 2 4 12) [0] (sregs [(2, 0x100), (12, 0x80000)]))))))
      issuesFree s (.coll 2 4 12) = true ∧ collIssues s = true ∧ (compFault s (issueOf s).g (compAddr (issueOf s) 12)).isSome = true)
    ∧ (let s := withLeases [aLease 0 false] (poke 0x100 8 (5 * 2 ^ 32) (withGroup (.lease 2 255) [0] (sregs [(2, 0x100)])))
      issuesFree s (.lease 2 255) = true
        ∧ (match readWords s (issueOf s).g 3 8 (pairS (issueOf s) 17 2) with | .ok w => leaseOk s (issueOf s).g w | .error _ => false) = true)
    ∧ (∀ i ∈ ([.clarb 3 2, .clstat 3 2] : List Instr), issuesFree (atIssue i [0]) i = true ∧ ((atIssue i [0]).ctx? 0).isSome = true)
    ∧ (let s := withClop (aColl 1 none)
      (groupOf s).clops.head? = some (aColl 1 none) ∧ partsFit s (aColl 1 none) { parts := [], fail := 0 } = true
        ∧ (readSource s (groupOf s) (aColl 1 none) 4 1 matches .ok _) = true
        ∧ (writeDest (groupOf s) (aColl 1 none) false [] 4 0 [[1, 2, 3, 4]] s matches .all _) = true)
    ∧ (let s := withClop (aColl 0 none)
      (groupOf s).clops[0]? = some (aColl 0 none) ∧ (aColl 0 none).words.getD 2 0 = 0 ∧ (aColl 0 none).step = 0)
    ∧ (let op := aColl 1 (some (2, 0x0302, 4)); (groupOf (withClop op)).clops.head? = some op ∧ op.scope ≠ 4
        ∧ (completeClop (withClop op) (groupOf (withClop op)) op 2 0x0302).isSome = true)
    ∧ (let op := anOp 7 [BitVec.ofNat 64 (5 * 2 ^ 32), 0] 0 none
      let s := withLeases [aLease 0 false] (withClop op)
      (match performLease s (groupOf s) op with | some t => (completeClop t (groupOf s) op 0 0).isSome | none => false) = true) := by
  refine ⟨by decide +kernel, by decide +kernel, by decide, by decide, by decide +kernel, by decide, by decide, by decide⟩

/-- A COLL whose ready word, source and destination have no page, and one of whose ranks is lost; and LEASE of a lease to be released. -/
theorem witness_collectives_that_end :
    (let op := { aColl 0 none with words := [0x200, 0x300, 0x80000, 1, 0, 0, 0, 0, 0] }; let s := withClop op
      (groupOf s).clops[0]? = some op ∧ (engineRead s (groupOf s) 0 4 0x80000 matches .fault _) = true)
    ∧ (let op := { aColl 1 none with words := [0x80000, 0x90000, 0, 1, 0, 0, 0, 0, 0] }; let s := withClop op
      (readSource s (groupOf s) op 4 1 matches .fault _) = true
        ∧ (writeDest (groupOf s) op false [] 4 0 [[1, 2, 3, 4]] s matches .stopped _ _ _) = true)
    ∧ (let s := inDomainOf (fun d => { d with noRoute := [9] }) device; (9 : Nat) ≠ s.domain.device ∧ 9 ∈ s.domain.noRoute)
    ∧ (let op := anOp 7 [BitVec.ofNat 64 (5 * 2 ^ 32 + 1), 0] 0 none
      ∀ st ∈ [0, 2], let s := withLeases [aLease st false] (withClop op)
        lease? s false 0 5 = some (aLease st false) ∧ leaseBusy s [] (aLease st false) = false ∧ (performLease s (groupOf s) op).isSome = true) := by
  refine ⟨by decide, by decide, by decide, by decide⟩

/-- A lease that gets its notice, without a watch and with one, one at its deadline, a route that is lost, and the writes of a member and of
another device. -/
theorem witness_LeasesRoutesAndPeers :
    (∀ watch ∈ [none, some (0, 0, 0x100)], let l := { aLease 0 false with watch := watch }; let s := withLeases [l] device
      lease? s false 0 5 = some l ∧ l.state = 0 ∧ (noticeStore s { l with state := 1, deadline := 10000000 }).isSome = true)
    ∧ (let s := { withLeases [aLease 1 false] device with clock := 7 }; lease? s false 0 5 = some (aLease 1 false) ∧ (aLease 1 false).deadline ≤ s.clock)
    ∧ (9 : BitVec 10).toNat ∉ device.domain.noRoute
    ∧ (device.regs.boot = .ready ∧ device.memoryWf = true ∧ 0x50200 + 4 ≤ 0xC000000000 ∧ touchesLog device 0x50200 4 = false
      ∧ 9 ∉ device.domain.members)
    ∧ (let s := inDomainOf (fun d => { d with members := [0, 9] }) device
      9 ∈ s.domain.members ∧ inWindow s 0x50200 = false ∧ (captureLines s (linesOf 0x50200 4)).isSome = true) := by
  refine ⟨by decide, by decide, by decide, by decide, by decide⟩

/-- A launch completion record that a commit is to perform. -/
def aRecord : Deferred :=
  { rin := 1, ctx := 0, group := 1, die := 0, target := .hbm 0x50100, data := List.replicate 32 0, record := true, home := false, op := none, desc := false, stale := [] }

/-- A seal that may be prepared, one to commit at the coordinator and at another member, and one to abort at each. -/
theorem witness_SealPointsAreKeptOrDropped :
    (let s := inDomainOf (fun d => { d with stage := 1, interval := 1 }) device;
      s.domain.stage = 1 ∧ s.domain.passed = false ∧ ageingDue s = false
        ∧ ∀ g ∈ s.work.groups, g.ext = [] ∧ g.loads = [] ∧ g.mmas = [] ∧ g.tiles = [] ∧ g.stores = [])
    ∧ (let snap : Snap := { r := 1, work := Work.reset, ctxs := device.ctxs, heads := [] }
      let s := { inDomainOf (fun d => { d with stage := 2, interval := 1 }) device with snapPending := some snap }
      s.domain.stage = 2 ∧ s.snapPending = some snap ∧ s.regs.boot = .ready ∧ s.work.groups ≠ [])
    ∧ (let s := inDomainOf (fun d => { d with stage := 1, passed := true, coord := 9 }) device
      s.domain.stage = 1 ∧ s.domain.passed = true ∧ s.domain.coord ≠ s.domain.device)
    ∧ (∀ c ∈ [(3, 0), (1, 9)], let s := inDomainOf (fun d => { d with stage := c.1, coord := c.2 }) device
      (s.domain.stage = 3 ∨ s.domain.stage = 1 ∧ s.domain.coord ≠ s.domain.device) ∧ s.deferred = []
        ∧ ∀ g ∈ s.work.groups, g.ext = [] ∧ g.loads = [] ∧ g.mmas = [] ∧ g.tiles = [] ∧ g.stores = [])
    ∧ (let s := { inDomainOf (fun d => { d with stage := 3, passed := true }) device with deferred := [aRecord] }
      s.domain.stage = 3 ∧ s.domain.passed = true ∧ ∃ d ∈ s.deferred, d.record = true) := by
  refine ⟨by decide, by decide, by decide, by decide, by decide⟩

/-- A deferred write of four bytes to another device. -/
def aDeferred (desc : Bool) (stale : List (Nat × BitVec 16)) : Deferred :=
  { rin := 1, ctx := 0, group := 1, die := 0, target := .peer 9 0x100, data := [1, 2, 3, 4], record := false, home := false, op := none, desc := desc, stale := stale }

/-- Deferred writes of data and of a descriptor that a commit performs, and what a store of two of the bytes in interval 2 replaces of one. -/
theorem witness_deferred_writes :
    device.regs.boot = .ready ∧ notAfter (aDeferred false []).rin 1 = true ∧ (aDeferred true [(0, 2)]).home = false
      ∧ (aDeferred false []).replaced 2 (spaceOf (.peer 9 0x102)) 8 = aDeferred false [(2, 2), (3, 2)] := by
  decide

/-- The bytes that a store of interval 2 has replaced reach the line that a rollback past it brings back, and the memory of the peer does not
take them. -/
theorem test_replaced_bytes_reach_the_undo :
    let s := { device with undo := [peerUndo { device with domain := { device.domain with rin := 2 } } (9 * 2 ^ 48 + 0x100)], deferred := [] }
    let t := performDeferred s (aDeferred false [(2, 2), (3, 2)])
    ((t.undo.map fun u => u.data.take 4) = [[1, 2, 3, 4]]) ∧ t.peer.read (9 * 2 ^ 48 + 0x100) 4 = [1, 2, 0, 0] := by
  decide

/-- A line of HBM that is not captured yet finds no room in a log that holds so many entries. -/
theorem capture_full {n : Nat} (hn : 2 ^ 32 ≤ n) (s : State) {pa : Nat} (hb : s.regs.bootCfg = device.regs.bootCfg)
    (hd : homeDie (pa / 64 * 64) = 0) (hw : inWindow s (pa / 64 * 64) = false) (hr : (rintag (sideGet s (pa / 64 * 64)) == s.domain.rin) = false) :
    captureLine (logsHold n s) pa = none := by
  have h3 : inWindow (logsHold n s) (pa / 64 * 64) = false ∧ (rintag (sideGet (logsHold n s) (pa / 64 * 64)) == (logsHold n s).domain.rin) = false := ⟨hw, hr⟩
  simp [captureLine, hd, logsHold_full hn s _ hb, h3]

/-- A bind area whose graph changes keeps its stores for later where its log is full. -/
theorem area_waits {n : Nat} (hn : 2 ^ 32 ≤ n) :
    saveGraph (logsHold n (withGraph (aGraph [] 0 1) device)) { aGraph [] 0 1 with cause := 1 } = none := by
  have h : dueParts (withGraph (aGraph [] 0 1) device) { aGraph [] 0 1 with cause := 1 } = [0]
      ∧ ((aGraph [] 0 1).part 0).head? = some (0x52000, 256) ∧ homeDie (0x52000 / 64 * 64) = 0 ∧ inWindow (withGraph (aGraph [] 0 1) device) (0x52000 / 64 * 64) = false
      ∧ (rintag (sideGet (withGraph (aGraph [] 0 1) device) (0x52000 / 64 * 64)) == (withGraph (aGraph [] 0 1) device).domain.rin) = false := by decide
  obtain ⟨h1, h2, h3, h4, h5⟩ := h
  obtain ⟨rest, hp⟩ : ∃ rest, ({ aGraph [] 0 1 with cause := 1 } : Graph).part 0 = (0x52000, 256) :: rest := by
    obtain ⟨l, hl⟩ := List.head?_eq_some_iff.1 h2
    exact ⟨l, hl⟩
  have hd : dueParts (logsHold n (withGraph (aGraph [] 0 1) device)) { aGraph [] 0 1 with cause := 1 } = [0] := h1
  have hc := capture_full hn (withGraph (aGraph [] 0 1) device) (pa := 0x52000) rfl h3 h4 h5
  have hl : linesOf 0x52000 8 = [0x52000] := by decide
  simp [saveGraph, hd, savePart, hp, leaveOpen, captureLines, hl, hc]
theorem witness_area_waits : ∃ s gr, saveGraph s gr = none := ⟨_, _, area_waits (n := 2 ^ 32) (le_refl _)⟩

/-- A graph that owes its header's stores, which find room. -/
theorem witness_owed_stores :
    let gr := { aGraph [] 0 1 with owed := [0] }
    let s := withGraph gr device
    s.work.graphs = [gr] ∧ (saveGraph s (foundGraph s gr)).isSome = true ∧ (payOwed s).work.graphs.map (·.owed) = [[]] := by
  decide +kernel

/-- Translation does not look at what the logs hold. -/
theorem access_logsHold (n : Nat) (s : State) (g : Group) (core : Nat) (a : Access) (va : DWord) :
    engineAccess (logsHold n s) g core a va = engineAccess s g core a va := rfl

/-- A COLL whose destination finds its log full waits with what it has yet to write. -/
theorem coll_waits {n : Nat} (hn : 2 ^ 32 ≤ n) :
    ∃ u, writeDest (groupOf (withClop (aColl 1 none))) (aColl 1 none) false [] 4 0 [[1, 2, 3, 4]] (logsHold n (withClop (aColl 1 none))) = .waits u 0 [[1, 2, 3, 4]] := by
  have h : engineAccess (withClop (aColl 1 none)) (groupOf (withClop (aColl 1 none))) (aColl 1 none).core (collAccess true 4)
          (collVa (aColl 1 none) true 0 + BitVec.ofNat 64 (0 * 4)) = .ok { target := .hbm 0x50300, irrev := false, immed := false }
      ∧ homeDie (0x50300 / 64 * 64) = 0 ∧ inWindow (withClop (aColl 1 none)) (0x50300 / 64 * 64) = false ∧ inWindow (withClop (aColl 1 none)) 0x50300 = false
      ∧ (rintag (sideGet (withClop (aColl 1 none)) (0x50300 / 64 * 64)) == (withClop (aColl 1 none)).domain.rin) = false := by decide
  obtain ⟨h1, h2, h3, h4, h5⟩ := h
  have hw : inWindow (logsHold n (withClop (aColl 1 none))) 0x50300 = false := h4
  have hc := capture_full hn (withClop (aColl 1 none)) (pa := 0x50300) rfl h2 h3 h5
  have hl : linesOf 0x50300 4 = [0x50300] := by decide
  refine ⟨logsHold n (withClop (aColl 1 none)), ?_⟩
  rw [writeDest, access_logsHold, h1]
  simp [storedPart, writePlace, hw, trackedWrite, captureLines, hl, hc]
/-- A COLL that has yet to write its one component writes it. -/
theorem witness_coll_writes_on :
    let op := { aColl 1 none with left := some (0, [[1, 2, 3, 4]]) }
    (match exec (.collectiveCompletion 1 { parts := [], fail := 0 }) (withClop op) with | .next t => (t.hbm.read 0x50300 4, (groupOf t).clops) | _ => ([], []))
      = ([1, 2, 3, 4], []) := by
  decide +kernel
theorem witness_coll_waits : ∃ s g u, writeDest g (aColl 1 none) false [] 4 0 [[1, 2, 3, 4]] s = .waits u 0 [[1, 2, 3, 4]] := by
  obtain ⟨u, h⟩ := coll_waits (n := 2 ^ 32) (le_refl _)
  exact ⟨_, _, u, h⟩

/-- A graph with a record that the commit of interval 1 performs, and one without. -/
theorem witness_commits_fill_slots :
    (let gr := aGraph [{ aChan with rings := [{ stage := 0, cpos := 0, rcvd := 0, full := [], late := [(0, 1)] }] }] 0 1
      let s := withGraph gr device
      s.work.graphs = [gr] ∧ gr.committed 1 ≠ gr ∧ (saveGraph s ((foundGraph s gr).committed 1)).isSome = true)
    ∧ (∀ gr ∈ (withGraph (aGraph [aChan] 0 1) device).work.graphs, ∀ c ∈ gr.chans, ∀ q ∈ c.rings, q.late = []) := by
  decide +kernel

/-- A region that HOLDs since an interval that commits, IDLE and with a queued refit; groups parked under 0x0901; and a log below three quarters. -/
theorem witness_commit_clears_holds :
    (∀ rst ∈ [0, 1],
      let s := withHeader ((regionWords 2 rst 1).set 0 (2 * 2 ^ 40 + 2 * 2 ^ 32 + 2 * 2 ^ 29 + rst * 2 ^ 27 + 2 ^ 26 + 2 ^ 22 + 2 ^ 19)) (anOp 1 [0x10000, 0x60000] 1 none) device
      (headOf s).hold = true ∧ ((1 : BitVec 16) - BitVec.ofNat 16 (headOf s).crin).toNat < 2 ^ 15 ∧ s.work.regions.length = 1
        ∧ (setField s 0x60000 0 26 1 0).isSome = true)
    ∧ (parkedWith stalled fun _ p => p.cause == 0x0901) = [1]
    ∧ ∀ die < 4, 4 * logUsed device die < 3 * logSize device := by
  refine ⟨by decide, by decide, by decide⟩

theorem witness_AgeingKeepsDescriptors : swf (sideDefault device) { device with side := [(0x50100 / 64, 0x3FF7F02)] }.side = true := by decide

/-- A report of an error of a kind. -/
def anError (fatal : Bool) : ErrReport :=
  { engine := 8, kind := 1, index := 0, outcome := 1, spares := 0, pa := none, access := none, fatal := fatal, moves := [] }

/-- The device after a seal of interval 0 that holds its work, in interval 1 with a line to undo. -/
def sealed : State :=
  { device with
    ctxs := device.ctxs.map fun c => { c with hasSeal := true }
    snapCommitted := some { r := 0, work := device.work, ctxs := device.ctxs, heads := [] }
    undo := [{ rin := 1, pa := 0x50300, data := List.replicate 64 7, side := 0, die := 0 }] }

/-- Errors that roll back to no seal, which ends every context, and to one that brings it back; one in a committed half, which is fatal; and a
first and a second correctable error. -/
theorem witness_ErrorsAreRecordedAndRolledBack :
    (device.regs.boot = .ready ∧ fatalError device (anError false) = false ∧ (rollback device []).isSome = true)
    ∧ (fatalError sealed (anError false) = false ∧ sealed.memoryWf = true ∧ (∀ u ∈ sealed.undo, u.data.length = 64) ∧ (∀ u ∈ sealed.undo, u.die ≠ Config.dies) ∧ swf (sideDefault sealed) sealed.side = true
        ∧ (sealed.ctxs.all fun c => !isPinned sealed c.num) = true)
    ∧ fatalError device (anError true) = true
    ∧ (∀ k ∈ device.regs.correct, ¬ (k.1 = (anError false).kind ∧ k.2.1 = unitKey (anError false) ∧ device.clock ≤ k.2.2 + 2 ^ 36))
    ∧ (let s := { device with regs := { device.regs with correct := [(1, unitKey (anError false), 0)] }, clock := 5 }
      ∃ k ∈ s.regs.correct, k.1 = (anError false).kind ∧ k.2.1 = unitKey (anError false) ∧ s.clock ≤ k.2.2 + 2 ^ 36) := by
  refine ⟨by decide, by decide, by decide, by decide, ⟨_, List.mem_singleton.mpr rfl, rfl, rfl, by decide⟩⟩

/-- Self-tests: lanes with a spare and without one, and units of each outcome. -/
theorem witness_self_tests :
    (let e := { anError false with kind := 0, outcome := 2 }; e.kind = 0 ∧ e.outcome = 2 ∧ 0 < 4 - device.regs.spareLane.getD (bitsOf e.index.toNat 8 8) 4)
    ∧ (let s := { device with regs := { device.regs with spareLane := List.replicate 192 4 } }; 4 - s.regs.spareLane.getD 0 4 = 0)
    ∧ (∀ k ∈ ([1, 2, 3, 4, 5, 6] : List Nat), let e := { anError false with kind := k, outcome := 3 }; e.kind = k ∧ e.outcome = 3) := by
  refine ⟨by decide, by decide, by decide⟩

theorem witness_DecodeUndoesEncode :
    ∀ i ∈ ([.ldI32 127 126 0x3F .acquire .system, .extPred 0b1_0011_1_1_100_1_1111111_1_1_1_1_000, .seal true, .rldg 2 4 .acquire .device] : List Instr),
      i.WellFormed ∧ (encode i).isSome = true := by
  decide
theorem witness_payload : payloadClean (.extPred 0b1_0011_1_1_100_1_1111111_1_1_1_1_000) ∧ payloadClean (.seal true) :=
  ⟨by show _ % 2 ^ 3 = 0; decide, trivial⟩
theorem witness_EncodeUndoesDecode : decode 0b1010000_0000111_0001000_100000_01_011#32 = .ok (.ldI32 7 8 0x20 .acquire .device) := by decide

/-- The state whose next step issues a word: the word's fetch, its decoding and the conditions of the step. -/
def offered (w : Nat) : State := State.reset.withFetchWord 32 w

/-- The state after the issue of the only group, and whether the only group is the one that the step offers its port. -/
def issued (s : State) : State :=
  let q := nextSet (groupOf s) (readySets s (groupOf s))
  portTaken s (groupOf s) q.1 (q.2.getD [])
/-- What a word's fetch gives: the word, or the cause of its fault. -/
def fetched (s : State) (pc : DWord) : Nat ⊕ Nat :=
  match fetchWord (issued s) { groupOf s with choice := (nextSet (groupOf s) (readySets s (groupOf s))).1 } pc with
  | .ok w => .inl w.toNat
  | .error c => .inr c.1

/-- A group that the agenda gives an issue, of a word that decodes and of one that does not; one whose fetch faults; and one that the device
offers an issue by itself. -/
theorem witness_StepRunsTheDecodedInstruction :
    (∀ w ∈ [0b0000000_0000001_0000010_0000011_0000, 0xE0000000],
      let s := offered w
      let s0 := { s with agenda := [] }
      let c := (groupOf s0, readySets s0 (groupOf s0))
      s.agenda = [.issue 1] ∧ (candidates s0).find? (fun y => y.1.uid == 1) = some c ∧ takesPort s0 (candidates s0) c = true
        ∧ (nextSet c.1 c.2).2 = some (List.range 64) ∧ fetched s0 0 = .inl w)
    ∧ (let s := (offered 0).modifyGroup 1 fun g => g.modifyThreads (List.range 64) fun t => { t with pc := 0x20000 }
      let s0 := { s with agenda := [] }
      fetched s0 0x20000 = .inr 0x0301 ∧ (currentIssue (issued s0)).isSome = true)
    ∧ (let s := device
      s.agenda = [] ∧ (firstChange s (ownEvents s)).isNone = true ∧ s.regs.boot = .ready ∧ (bestOf s (candidates s)).map (fun c => c.1.uid) = some 1)
    ∧ encode .powerOn = none := by
  refine ⟨by decide, by decide, by decide, by decide⟩

/-- The step that the placed word takes: an IADD of two registers that are 0 moves every thread on. -/
theorem test_step_runs_a_placed_word : (match step (offered 0b0000000_0000001_0000010_0000011_0000) with
    | .next t => (t.group? 1).map fun g => (g.thread 63).pc
    | _ => none) = some 4 := by
  decide

theorem witness_MemoryStaysCanonical : State.reset.memoryWf = true ∧ device.memoryWf = true := by decide

/-- Values that each clause rounds: 1, half a unit above 1, the largest number of E5M2, the limit from which it overflows, and -1. -/
theorem witness_RoundingTakesTheModesNeighbour :
    e5m2 ∈ ieeeFormats
    ∧ e5m2.maxExact false = { neg := false, m := 7, e := 13, sticky := false }
    ∧ (roundTo e5m2 ⟨0, 0⟩ false { neg := false, m := 9, e := -3, sticky := false }).code = 0x3C
    ∧ (roundTo e5m2 ⟨0, 0⟩ false { neg := false, m := 15, e := 12, sticky := false }).code = 0x7C
    ∧ (roundTo e5m2 ⟨1, 0⟩ false { neg := true, m := 15, e := 12, sticky := false }).code = 0xFB := by
  refine ⟨by simp [ieeeFormats], by decide, by decide, by decide, by decide⟩
theorem witness_rounding_ranges :
    |(({ neg := false, m := 9, e := -3, sticky := false } : Exact).value)| < e5m2.limit
    ∧ e5m2.limit ≤ |(({ neg := false, m := 15, e := 12, sticky := false } : Exact).value)|
    ∧ e5m2.top < ({ neg := false, m := 15, e := 12, sticky := false } : Exact).value
    ∧ ({ neg := true, m := 15, e := 12, sticky := false } : Exact).value < -e5m2.top := by
  have h : e5m2.maxExact false = { neg := false, m := 7, e := 13, sticky := false } := by decide
  have h1 : e5m2.maxE = 30 ∧ e5m2.bias = 15 ∧ e5m2.mbits = 2 := by decide
  simp only [FloatFmt.limit, FloatFmt.top, h, h1, Exact.value]
  norm_num

/-- A free group and one that is parked, with a record held and without; room for a record; groups that are single-stepped. -/
theorem witness_ParksSaveAndReleaseGroups :
    (device.group? 1 = some (groupOf device) ∧ (groupOf device).park = none ∧ (device.ctx? 0).isSome = true ∧ (groupOf device).threads.length = 64
      ∧ device.records.held.length < Config.heldRecords + ringRoom device.records)
    ∧ (let s := device.modifyGroup 1 fun g => { g with park := some (aPark false) }
      s.group? 1 = some (groupOf s) ∧ (groupOf s).park = some (aPark false) ∧ (groupOf s).held = [])
    ∧ (let s := device.modifyGroup 1 fun g => { g with park := some (aPark false), held := [(aPark true, 7)] }
      s.group? 1 = some (groupOf s) ∧ (groupOf s).park = some (aPark false) ∧ (groupOf s).held = [(aPark true, 7)])
    ∧ ∀ i ∈ ([.nop, .exit, .trap 3, .iadd .i32 1 2 3, .bra 0x0F 1, .rdvMeet 1 0 0] : List Instr),
      let s := withGroup i [0, 63] fun g => { g with stepctl := 1 }
      currentIssue s = some (issueOf s) ∧ (issueOf s).lanes.Nodup ∧ decodeFault s (issueOf s).g i ((encode i).getD 0) none = none
        ∧ operandsPending (issueOf s).g (issueOf s).lanes i = false ∧ (issueOf s).g.stepctl.getLsbD 0 = true := by
  refine ⟨by decide, by decide, by decide, by decide⟩

/-- A ring with room and one record held, one without room, and a context with an entry held and one whose queue is full. -/
theorem witness_QueuesAreWrittenWhereTheyHaveRoom :
    (let r : Records := { Records.reset with log2n := 4, held := [[1, 2]] }; ringRoom r ≠ 0 ∧ r.held = [[1, 2]])
    ∧ ringRoom Records.reset = 0
    ∧ (let s := device.modifyCtx 0 fun c => { c with fqHeld := [([1, 2, 3, 4], 5)] }
      (s.ctx? 0).map (fun c => (c.fqHeld, decide (c.fqWritten - c.fqRead < c.fqCap))) = some ([([1, 2, 3, 4], 5)], true))
    ∧ (let s := device.modifyCtx 0 fun c => { c with fqWritten := 1 }
      (s.ctx? 0).map (fun c => decide (c.fqCap ≤ c.fqWritten - c.fqRead)) = some true) := by
  decide

/-- A watchdog that has run out, a stopping context whose groups are drained, and a group to promote. -/
theorem witness_ContextsAreSavedAndEnded :
    (let s := { device.modifyLaunch 2 fun l => { l with wdog := 3 } with clock := 3000000 };
      (s.launch? 2).map (fun l => (l.start, l.wdog, l.ctx)) = some (some 0, 3, 0) ∧ (s.ctx? 0).map (·.state) = some .running
        ∧ (s.ctx? 0).map (·.dying) = some false)
    ∧ (let s := device.modifyCtx 0 fun c => { c with state := .stopping }
      (s.ctx? 0).map (·.state) = some .stopping ∧ (∀ g ∈ s.work.groups, g.ctx = 0 → drained s g = true) ∧ s.regs.cmdState ≠ 1)
    ∧ (let s := device.modifyGroup 1 fun g => { g with sched := .eligible, elig := 4096, promoted := none }
      s.group? 1 = some (groupOf s) ∧ 4096 ≤ (groupOf s).elig ∧ (groupOf s).sched = .eligible ∧ mayIssue s (groupOf s) = true
        ∧ (activeOn s (groupOf s).core).length < 8 ∧ (groupOf s).promoted = none)
    ∧ (let s := device.modifyGroup 1 fun g => { g with promoted := none, elig := 4096 }
      s.group? 1 = some (groupOf s) ∧ 4096 ≤ (groupOf s).elig ∧ (groupOf s).promoted = none ∧ (groupOf s).sched = .active ∧ mayIssue s (groupOf s) = true)
    ∧ (let s0 := device.modifyGroup 1 fun g => { g with sched := .eligible, elig := 4096 }
      let s := { s0 with work := { s0.work with groups := s0.work.groups ++ (List.range 8).map fun k => { groupOf device with uid := 20 + k, slot := 1 + k } } }
      (groupOf s).sched = .eligible ∧ 4096 ≤ (groupOf s).elig ∧ mayIssue s (groupOf s) = true ∧ 8 ≤ (activeOn s (groupOf s).core).length ∧ (evicted s (groupOf s).core).isSome = true) := by
  refine ⟨by decide, by decide, by decide, by decide, by decide⟩

/-- A promoted group that has lost its place in the cycle in which it entered is not promoted again in that cycle. -/
theorem test_promotion_once_in_a_cycle :
    let s := device.modifyGroup 1 fun g => { g with sched := .eligible, elig := 4096, promoted := some 0, entered := device.cycles }
    mayIssue s (groupOf s) = true ∧ drivenOut s (groupOf s) = true
      ∧ (match exec (.eligibilityPromotion 1) s with | .next t => (groupOf t).sched | _ => .active) = .eligible := by
  decide

/-- Accesses of the host: a window, an inlet that is idle and one that has blocks to take. -/
theorem witness_HostAccessesReachTheDevice :
    (let s := { device with regs := { device.regs with winBase := 0x50000, winSize := 0x10000 } };
      s.regs.boot = .ready ∧ s.regs.winBase.toNat ≤ 0x50000 ∧ 0x50000 + 4 ≤ s.regs.winBase.toNat + s.regs.winSize.toNat)
    ∧ device.inlets[(63 : BitVec 6).toNat]? = some Inlet.reset
    ∧ (let n := { Inlet.reset with en := true, tail := 1 }; n.en = true ∧ n.head ≠ n.tail ∧ n.error = false) := by
  decide

/-- The device in the states that its register writes tell apart: the steps of bring-up, an inlet that is idle and one with blocks to take, the
record queue set up and not, and a command that runs and none. -/
theorem witness_RegisterWritesHaveTheirEffect :
    (∀ b ∈ [Boot.config, .init, .ready], let s := { device with regs := { device.regs with boot := b } }; s.regs.unrestored = false ∧ s.regs.boot = b)
    ∧ (device.regs.unrestored = false ∧ (127 : Nat) < 128 ∧ (device.regs.islands[127]?).isSome = true)
    ∧ ((0x3FF : Word).getLsbD 0 = true ∧ (2 : Word).getLsbD 0 = false ∧ 70 ≤ (70 : Word).toNat % 256 ∧ (105 : Word).toNat % 256 ≤ 105
      ∧ 105 < (106 : Word).toNat % 256 ∧ (69 : Word).toNat % 256 < 70)
    ∧ (let n := { Inlet.reset with en := true, tail := 1 }
      let s := { device with inlets := device.inlets.set 63 n }
      s.regs.boot = .ready ∧ s.inlets[63]? = some n ∧ n.en = true ∧ n.head ≠ n.tail ∧ n.error = false ∧ s.inlets[0]? = some Inlet.reset
        ∧ Inlet.reset.en = false)
    ∧ (device.records.log2n = 0 ∧ (let s := { device with records := { Records.reset with log2n := 4 } }; s.regs.boot = .ready ∧ s.records.log2n ≠ 0))
    ∧ (device.regs.cmdState ≠ 1 ∧ 1 ≤ (9 : Word).toNat % 256 ∧ 9 < (10 : Word).toNat % 256
      ∧ (let s := { device with regs := { device.regs with cmdState := 1 } }; s.regs.boot = .ready ∧ s.regs.cmdState = 1))
    ∧ State.reset.regs.boot ≠ .ready := by
  refine ⟨by decide, by decide, by decide, by decide, by decide, by decide, by decide⟩

/-- The device with an inlet that has one block of 128 bytes at 0x50000, its log2n and its words. -/
def withInlet (s : State) : State := { s with inlets := s.inlets.set 0 { Inlet.reset with en := true, base := 0x50000, log2n := 4, tail := 1 } }

/-- A launch of one team that waits for its place. -/
def waitingLaunch : Launch := { placedLaunch 2 0 with placed := [], start := none }

/-- A block to reject; a launch to place; a launch whose teams have ended. -/
theorem witness_LaunchesAreTakenPlacedAndCompleted :
    (let s := withInlet device;
      (s.inlets[0]?.map fun n => (n.en, n.head != n.tail, n.error)) = some (true, true, false) ∧ inletPlacing s 0 = false
        ∧ (let w := dwordsOf 16 (s.hbm.read 0x50000 128)
          rejectReason s w (blockLaunch s.nextUid 0 w) ≠ 0
            ∧ (rejectBlock { s with nextUid := 5 } (blockLaunch s.nextUid 0 w) (rejectReason s w (blockLaunch s.nextUid 0 w))).isSome = true))
    ∧ (let s := device.modifyCtx 0 fun c => { c with dying := true }; (created? s 0).map (·.dying) = some true ∧ created? s 9 = none)
    ∧ (let s := { device with work := { device.work with groups := [], teams := [], launches := [waitingLaunch] } }
      let ps : List Placement := [{ launch := 2, team := 0, group := 0, core := 0, slot := 0, seg := 0 }]
      s.launch? 2 = some waitingLaunch ∧ placesWhole waitingLaunch ps (teamsNamed ps) = true ∧ teamsDue waitingLaunch (teamsNamed ps) = true
        ∧ outranked s waitingLaunch = false
        ∧ placementFits (addTeams s waitingLaunch ps (teamsNamed ps)) (occupants (addTeams s waitingLaunch ps (teamsNamed ps)) 0) = true
        ∧ (mapGang (addTeams s waitingLaunch ps (teamsNamed ps)) ((s.ctx? 0).getD (placedCtx 0 s.hbm)) waitingLaunch
            ((addTeams s waitingLaunch ps (teamsNamed ps)).work.teams.filter fun t => t.launch == waitingLaunch.uid)).isSome = true)
    ∧ (placedGroup 7 (placedLaunch 2 0) { launch := 2, team := 0, group := 0, core := 0, slot := 0, seg := 0 }).isSome = true
    ∧ (let l := { placedLaunch 2 0 with ended := 1 }
      let s := { device with work := { device.work with groups := [], launches := [l] } }
      s.launch? 2 = some l ∧ l.total ≤ l.placed.length ∧ l.total ≤ l.ended
        ∧ (((unbindGraphs s l.uid).bind fun v => unmapGang v ((s.ctx? 0).getD (placedCtx 0 s.hbm)) l).bind fun u =>
            doneRecord u ((s.ctx? 0).getD (placedCtx 0 s.hbm)) (placeOfDone u ((s.ctx? 0).getD (placedCtx 0 s.hbm)) l) l.doneva l.immed 0 0).isSome
            = true)
    ∧ (let s := withGraph { aGraph [] 0 0 with launch := 2 } aBind
      s.work.graphs = [{ aGraph [] 0 0 with launch := 2 }] ∧ (saveGraph s { foundGraph s { aGraph [] 0 0 with launch := 2 } with state := 0 }).isSome = true)
    ∧ device.work.graphs = [] := by
  refine ⟨by decide, by decide, by decide, by decide, by decide, by decide +kernel, rfl⟩

/-- A launch completion record in a Pond, of a context that runs, that is SAVED and that ends. -/
theorem witness_pond_records :
    let put := fun (m : Memory) => m.writeNat 0x40010 16 0xFFFF0621
    let s := { device with hbm := put device.hbm, ctxs := device.ctxs.map (fun c => { c with snap := put c.snap }),
                             work := { device.work with teams := device.work.teams.map fun t => { t with seg := 0, nseg := 1 } } }
    let c := (s.ctx? 0).getD (placedCtx 0 s.hbm)
    (match donePlace s c 0x10000 with | .ok p => inPond p.target | .error _ => false) = true
      ∧ (match lastPlace s c 0x10000 with | .inr e => e.1 | .inl _ => 0) = 0x0401
      ∧ (match savedPond (s.modifyCtx 0 fun c => { c with state := .saved }) 0 (.pond 0 0x40) with | some _ => true | none => false) = true := by
  decide

/-- A launch completion record whose place is there, and which the logs have room to defer. -/
theorem witness_completion_records :
    let c := (device.ctx? 0).getD (placedCtx 0 device.hbm)
    (donePlace device c 0x100 matches .ok _) = true ∧ (donePlace device c 0x80000 matches .error _) = true
      ∧ (acceptDeferred device { ctx := 0, group := 0, die := 0, op := none } (.hbm 0x50100) (List.replicate 32 0) false true).isSome = true := by
  decide

/-- The state in which a command of a code runs with the first words of its argument. -/
def withCommand (code : Byte) (ws : List Nat) (s : State) : State :=
  { s with regs := { s.regs with cmdWords := ws.map (BitVec.ofNat 64), cmdState := 1, cmdCode := code } }

/-- That a command of a code runs, as a test. -/
def runs (s : State) (code : Nat) : Bool := decide (s.regs.boot = .ready) && decide (s.regs.cmdState = 1) && decide (s.regs.cmdCode.toNat = code)

theorem runs_iff {s : State} {code : Nat} (h : runs s code = true) : commandRuns s code := by
  simpa [runs, commandRuns, and_assoc] using h

/-- The context of the device in another state. -/
def ctxIn (st : CtxState) (s : State) : State := s.modifyCtx 0 fun c => { c with state := st }

/-- CREATE of context 1 and of one that is there; the commands on context 0 as it runs and as it is saved, on none, and RETIRE of a region. -/
theorem witness_CommandsOnContexts :
    (let s := withCommand 1 [1 + 2 ^ 20, 0x10000, 0, 1, 0, 0, 0, 0] device;
      runs s 1 = true ∧ descriptorOk (commandWords s) = true ∧ ∀ c ∈ s.ctxs, c.num ≠ ((commandWords s).getD 0 0).toNat % 2 ^ 16)
    ∧ (let s := withCommand 1 [2 ^ 20, 0x10000, 0, 1, 0, 0, 0, 0] device; ∃ c ∈ s.ctxs, c.num = ((commandWords s).getD 0 0).toNat % 2 ^ 16)
    ∧ descriptorOk (commandWords (withCommand 1 [1] device)) = false
    ∧ (∀ k ∈ ([2, 3, 5] : List Byte), let s := withCommand k [0] device
      runs s k.toNat = true ∧ (commandCtx s).map (fun c => (c.num, c.state)) = some (0, .running) ∧ s.ctx? 0 = commandCtx s
        ∧ (s.work.groups.map (·.uid)).Nodup)
    ∧ (let s := ctxIn .saved (withCommand 4 [0] { device with work := { device.work with groups := [], teams := [] } })
      runs s 4 = true ∧ (commandCtx s).map (·.state) = some .saved ∧ ((commandCtx s).bind fun c => restoreContext s c []).isSome = true)
    ∧ (∀ k ∈ ([2, 3, 4, 5, 7] : List Byte), let s := withCommand k [9] device; runs s k.toNat = true ∧ commandCtx s = none)
    ∧ (let s := withCommand 6 [0, 0x60000] (withRegion 2 0 1 (anOp 1 [] 0 none) device); runs s 6 = true ∧ ∃ r ∈ s.work.regions, r.hdr = ((commandWords s).getD 1 0).toNat)
    ∧ (let s := (withCommand 7 [0, 0x80000] device).modifyCtx 0 fun c => { c with fqWritten := 1 }
      runs s 7 = true ∧ ((commandWords s).getD 1 0).toNat = 0x80000 ∧ (commandCtx s).map (fun c => (c.fqRead, c.fqWritten)) = some (0, 1))
    ∧ (device.regs.boot = .ready ∧ ¬ (1 ≤ (10 : BitVec 8).toNat ∧ (10 : BitVec 8).toNat ≤ 9) ∧ device.regs.cmdState ≠ 1) := by
  refine ⟨by decide, by decide, by decide, by decide, by decide, by decide, by decide, by decide, by decide⟩

/-- DOMAIN of this device alone as its coordinator, DOMAIN while a context exists, and the three LEASE commands. -/
theorem witness_CommandsOnDomainsAndLeases :
    (let s := withCommand 9 [2 ^ 16, 0, 0, 0x80000, 0, 0, 0, 0] { device with ctxs := [] };
      runs s 9 = true ∧ s.ctxs = [] ∧ domainOk s (commandWords s) = true ∧ memberTable s (commandWords s) = [0]
        ∧ coordOf (commandWords s) [0] { ok := true, coord := 0, rin := 0, committed := 0 } = some 0)
    ∧ (let s := withCommand 9 [2 ^ 16] device; runs s 9 = true ∧ s.ctxs ≠ [])
    ∧ ∀ op ∈ [0, 1, 2], let s := withCommand 8 [op] device; runs s 8 = true ∧ ((commandWords s).getD 0 0).toNat % 4 = op := by
  refine ⟨by decide, by decide, by decide⟩

/-- The device in a step of bring-up. -/
def atBoot (b : Boot) : State := { device with regs := { device.regs with boot := b } }

/-- An island that is 110 degrees hot and has been outside its window for two updates. -/
def hotIsland : Island := { Island.reset with temp := 880, outside := 2 }

theorem witness_ResetsRestartTheDevice :
    (let s := { device with regs := { device.regs with islands := List.replicate 128 hotIsland } };
      110 * 8 ≤ (s.regs.islands.getD (127 : BitVec 7).toNat Island.reset).temp.toInt ∧ 2 ≤ (s.regs.islands.getD (127 : BitVec 7).toNat Island.reset).outside)
    ∧ (∀ b ∈ [Boot.reset, .calib, .verify, .config, .init], (atBoot b).regs.boot = b)
    ∧ (let s := { device with regs := { device.regs with unrestored := true } }; s.regs.boot ≠ .reset ∧ s.regs.unrestored = true)
    ∧ (atBoot .reset).regs.islands[127]? = some Island.reset ∧ (List.replicate 64 (0 : Byte)).length = 64 := by
  decide

/-- A reading of each island of the device. -/
def readings : List Reading := (List.range 128).map fun k => { island := BitVec.ofNat 7 k, volt := 0x300, temp := 400, proc := 0, vnom := 0x300 }

/-- An update that is due, a clock that heat moves, the power cap, and reports that are taken, refused and ended. -/
theorem witness_MonitorsAndReports :
    (let s := { device with clock := 1000000 };
      s.regs.boot ≠ .reset ∧ s.regs.monAt + 1000000 ≤ s.clock ∧ readings.map (fun r => r.island.toNat) = List.range 128 ∧ s.regs.islands.length = 128
        ∧ (5 : Nat) ≠ s.regs.pwrCap.toNat ∧ s.regs.capAt + 1000000 ≤ s.clock)
    ∧ (let i := { hotIsland with hot := true }; let s := { device with clock := 1000000, regs := { device.regs with islands := List.replicate 128 i } }
      s.regs.islands[(127 : BitVec 7).toNat]? = some i ∧ i.stepAt + 1000000 ≤ s.clock ∧ i.hot = true)
    ∧ ((1 : Word).getLsbD 0 = true ∧ device.regs.boot = .ready ∧ device.regs.attState ≠ 1 ∧ device.regs.keyIdx < 2 ^ 20 ∧ device.regs.attDst.toNat % 64 = 0)
    ∧ (let s := { device with regs := { device.regs with attDst := 4 } }; s.regs.attState ≠ 1 ∧ s.regs.keyIdx < 2 ^ 20 ∧ s.regs.attDst.toNat % 64 ≠ 0)
    ∧ (let s := { device with regs := { device.regs with keyIdx := 2 ^ 20 } }; 2 ^ 20 ≤ s.regs.keyIdx ∧ s.regs.attState ≠ 1)
    ∧ (let s := { device with regs := { device.regs with attState := 1 } }
      s.regs.attState = 1 ∧ s.memoryWf = true ∧ s.regs.attNonce.length = 32 ∧ s.regs.meas.length = 64 ∧ s.regs.attDst.toNat % 64 = 0)
    ∧ (let s := { device with regs := { device.regs with attState := 1, attDst := 4 } }; s.regs.attState = 1 ∧ s.regs.attDst.toNat % 64 ≠ 0) := by
  refine ⟨by decide, by decide, by decide, by decide, by decide, by decide, by decide⟩

/-- 1, whose value is not 0; and codes that are 0, 1, a power of 2, an integer, an odd half and a negative number. -/
theorem witness_FloatOperationsFormTheExactValue :
    (⟨false, 1, 0, false⟩ : Exact).value ≠ 0 ∧ 0 < (⟨false, 1, 0, false⟩ : Exact).value ∧ (⟨true, 1, 0, false⟩ : Exact).value < 0
    ∧ (⟨false, 0, 0, false⟩ : Exact).value = 0
    ∧ (∃ x, fp32.decode 0x40400000 = .fin x ∧ x.value = (3 : Int)) ∧ (∃ x, fp32.decode 0x3E000000 = .fin x ∧ x.value = 2 ^ (-3 : Int))
    ∧ (∃ x, fp32.decode 0xC0200000 = .fin x ∧ x.value = (-3 : Int) + 1 / 2) ∧ (∃ x, fp32.decode 0 = .fin x ∧ x.value = 0) := by
  refine ⟨?_, ?_, ?_, ?_, ⟨⟨false, 0xC00000, -22, false⟩, by decide, ?_⟩, ⟨⟨false, 0x800000, -26, false⟩, by decide, ?_⟩,
    ⟨⟨true, 0xA00000, -22, false⟩, by decide, ?_⟩, ⟨⟨false, 0, -149, false⟩, by decide, ?_⟩⟩ <;> norm_num [Exact.value]

end Sys2Proof.Machine.Tests
end

section
/-! PROOFS. What a per-thread instruction with one destination delivers, in the words of the claims, and the results of the integer,
logic, shift, bit-field, compare and address instructions on words (R57 to R69). -/
namespace Sys2Proof.Machine

/-! ## Operands and results of one or two registers (R12, R31) -/

@[simp] theorem srcA_one (x : Issue) (l : Nat) (a : VReg) : srcA x l a 1 = (opA x l a).toNat := rfl
@[simp] theorem srcA_two (x : Issue) (l : Nat) (a : VReg) : srcA x l a 2 = (pairA x l a).toNat := rfl
@[simp] theorem srcB_one (x : Issue) (l : Nat) (b : VReg) : srcB x l b 1 = (opB x l b).toNat := rfl

/-- A word as the result in one register. -/
theorem outD_word (x : Issue) (d : VReg) (v : Word) : outD x d 1 v.toNat = resD x d v := by simp [outD, vout, resD]

/-- A double word as the result in a pair, low word first. -/
theorem outD_dword (x : Issue) (d : VReg) (v : DWord) : outD x d 2 v.toNat = resPair x d v := rfl

namespace Issues

variable {s : State} {x : Issue} {i : Instr}

/-- The result in a destination that the instruction names lies in existing V registers. -/
theorem outD_fits (h : Issues s x i) {d : VReg} {n : Nat} (hd : dslot .v 18 d.toNat n n n ∈ slots i) (hn : 0 < n) (v : Nat) :
    (outD x d n v).fits := by
  have hr : x.ext.vnum 18 d + n ≤ 256 := h.vslot_fits hd rfl
  refine ⟨fun w hw => ?_, fun w hw => absurd hw (List.not_mem_nil)⟩
  have hw : w ∈ vout (x.ext.vnum 18 d) n v := hw
  unfold vout at hw
  split at hw
  case isTrue =>
    rcases List.mem_pair.mp hw with rfl | rfl
    · show x.ext.vnum 18 d < 256
      omega
    · show x.ext.vnum 18 d + 1 < 256
      omega
  case isFalse =>
    rw [List.mem_singleton.mp hw]
    show x.ext.vnum 18 d < 256
    omega

/-- The result in a predicate that the instruction names lies in an existing predicate. -/
theorem resP_fits (h : Issues s x i) {pd : PReg} (hp : dslot .p 18 pd.toNat 1 1 1 ∈ slots i) (v : Bool) : (resP pd v).fits := by
  have hr : pd.toNat + 1 ≤ 12 := h.pslot_fits hp rfl
  refine ⟨fun w hw => absurd hw (List.not_mem_nil), fun w hw => ?_⟩
  rw [List.mem_singleton.mp hw]
  exact hr

end Issues

/-- A per-thread instruction whose results name existing registers completes with them. -/
theorem laneResult_of {i : Instr} {f : Issue → Nat → LaneOut} (hs : slotsSound (slots i) = true) (he : ∀ s, exec i s = perLane i f s)
    (hf : ∀ s x l, Issues s x i → (f x l).fits) : LaneResult i f := by
  intro s x h
  rw [he]
  exact perLane_step h f (h.zero_fits hs) fun l _ => hf s x l h

/-- A per-thread instruction that writes its D registers completes with the result in them. -/
theorem laneResult_outD {i : Instr} {d : VReg} {n : Nat} {f : Issue → Nat → Nat} {out : Issue → Nat → LaneOut}
    (hs : slotsSound (slots i) = true) (hd : dslot .v 18 d.toNat n n n ∈ slots i) (hn : 0 < n)
    (he : ∀ s, exec i s = perLane i (fun x l => outD x d n (f x l)) s) (hv : ∀ x l, outD x d n (f x l) = out x l) : LaneResult i out := by
  obtain rfl : (fun x l => outD x d n (f x l)) = out := funext₂ hv
  exact laneResult_of hs he fun _ _ _ h => h.outD_fits hd hn _

/-- A per-thread instruction that computes a word completes with it in D. -/
theorem laneResult_word {i : Instr} {d : VReg} {f : Issue → Nat → Nat} {v : Issue → Nat → Word} (hs : slotsSound (slots i) = true)
    (hd : dslot .v 18 d.toNat 1 1 1 ∈ slots i) (he : ∀ s, exec i s = perLane i (fun x l => outD x d 1 (f x l)) s)
    (hv : ∀ x l, f x l = (v x l).toNat) : LaneResult i fun x l => resD x d (v x l) :=
  laneResult_outD hs hd Nat.one_pos he fun x l => by rw [hv, outD_word]

/-- A per-thread instruction that computes a double word completes with it in the pair of D. -/
theorem laneResult_dword {i : Instr} {d : VReg} {f : Issue → Nat → Nat} {v : Issue → Nat → DWord} (hs : slotsSound (slots i) = true)
    (hd : dslot .v 18 d.toNat 2 2 2 ∈ slots i) (he : ∀ s, exec i s = perLane i (fun x l => outD x d 2 (f x l)) s)
    (hv : ∀ x l, f x l = (v x l).toNat) : LaneResult i fun x l => resPair x d (v x l) :=
  laneResult_outD hs hd Nat.two_pos he fun x l => by rw [hv, outD_dword]

/-- A per-thread instruction that decides a predicate completes with it. -/
theorem laneResult_pred {i : Instr} {pd : PReg} {f v : Issue → Nat → Bool} (hs : slotsSound (slots i) = true)
    (hp : dslot .p 18 pd.toNat 1 1 1 ∈ slots i) (he : ∀ s, exec i s = perLane i (fun x l => resP pd (f x l)) s)
    (hv : ∀ x l, f x l = v x l) : LaneResult i fun x l => resP pd (v x l) := by
  obtain rfl : f = v := funext₂ hv
  exact laneResult_of hs he fun _ _ _ h => h.resP_fits hp _

/-! ## Integers modulo 2 to a width (R57) -/

/-- An integer modulo 2 to a width is the number that a word of the width holds of it. -/
theorem wrapTo_eq_toNat (w : Nat) (v : Int) : wrapTo w v = (BitVec.ofInt w v).toNat := by simp [wrapTo, BitVec.toNat_ofInt]

/-- The immediate of 11 bits as a word (R36). -/
theorem imm32_eq (x : Issue) (imm : BitVec 11) : imm32 x.ext imm = (immWord x imm).toNat := wrapTo_eq_toNat 32 _

/-- A number read as signed, whichever its bits above the width. -/
theorem toSigned_eq_toInt {w : Nat} (hw : 0 < w) (n : Nat) : toSigned w n = (BitVec.ofNat w n).toInt := by
  have h2 : 2 ^ w = 2 * 2 ^ (w - 1) := by rw [← Nat.pow_succ']; congr 1; omega
  simp only [toSigned, BitVec.toInt_eq_toNat_cond, BitVec.toNat_ofNat]
  split <;> split <;> omega

/-- A word read as signed. -/
theorem toSigned_toNat {w : Nat} (hw : 0 < w) (v : BitVec w) : toSigned w v.toNat = v.toInt := by
  rw [toSigned_eq_toInt hw, BitVec.ofNat_toNat, BitVec.setWidth_eq]

/-! ## Logic (R60) -/

/-- A AND NOT B on words. -/
theorem andNot_toNat (a b : Word) : andNot a.toNat b.toNat = (a &&& ~~~b).toNat := by
  rw [BitVec.toNat_and, ← BitVec.xor_allOnes, BitVec.toNat_xor, BitVec.toNat_allOnes]
  rfl

end Sys2Proof.Machine

open Sys2Proof Sys2Proof.Machine Sys2Proof.Laws

/-- Settles O3: each logic operation on the numbers of two words is the operation on the words. -/
theorem logicIsBitwise : Obligations.LogicIsBitwise := by
  intro d a b imm
  refine ⟨?and, ?or, ?xor, ?andn, ?andi, ?ori, ?xori⟩
  case and => exact laneResult_word (SlotsSound.and d a b) (List.mem_cons_self ..) (fun _ => rfl) fun _ _ => (BitVec.toNat_and ..).symm
  case or => exact laneResult_word (SlotsSound.or d a b) (List.mem_cons_self ..) (fun _ => rfl) fun _ _ => (BitVec.toNat_or ..).symm
  case xor => exact laneResult_word (SlotsSound.xor d a b) (List.mem_cons_self ..) (fun _ => rfl) fun _ _ => (BitVec.toNat_xor ..).symm
  case andn => exact laneResult_word (SlotsSound.andn d a b) (List.mem_cons_self ..) (fun _ => rfl) fun _ _ => andNot_toNat ..
  case andi =>
    exact laneResult_word (SlotsSound.andi d a imm) (List.mem_cons_self ..) (fun _ => rfl) fun x l => by
      rw [imm32_eq, srcA_one, BitVec.toNat_and]
  case ori =>
    exact laneResult_word (SlotsSound.ori d a imm) (List.mem_cons_self ..) (fun _ => rfl) fun x l => by
      rw [imm32_eq, srcA_one, BitVec.toNat_or]
  case xori =>
    exact laneResult_word (SlotsSound.xori d a imm) (List.mem_cons_self ..) (fun _ => rfl) fun x l => by
      rw [imm32_eq, srcA_one, BitVec.toNat_xor]

end

section
/-! PROOFS. Division, whose quotient and remainder are formed on integers and taken modulo 2 to the width (R59), and shifts and
rotates on numbers as shifts and rotates on words, for every count (R61). -/
namespace Sys2Proof.Machine

/-! ## Division (R59) -/

/-- An operand of a width, read as the integer that the width gives. -/
theorem iwInt_srcA (iw : IW) (x : Issue) (l : Nat) (a : VReg) : iwInt iw (srcA x l a iw.regs) = intA iw x l a := by
  cases iw with
  | i32 => exact toSigned_word _
  | i64 => exact toSigned_dword _
  | n32 => exact congrArg Nat.cast (Nat.mod_eq_of_lt (opA x l a).isLt)
  | n64 => exact congrArg Nat.cast (Nat.mod_eq_of_lt (pairA x l a).isLt)

/-- The same of operand B. -/
theorem iwInt_srcB (iw : IW) (x : Issue) (l : Nat) (b : VReg) : iwInt iw (srcB x l b iw.regs) = intB iw x l b := by
  cases iw with
  | i32 => exact toSigned_word _
  | i64 => exact toSigned_dword _
  | n32 => exact congrArg Nat.cast (Nat.mod_eq_of_lt (opB x l b).isLt)
  | n64 => exact congrArg Nat.cast (Nat.mod_eq_of_lt (pairB x l b).isLt)

/-- An integer taken modulo 2 to a width, as the result of that width. -/
theorem outD_wrapTo (iw : IW) (x : Issue) (d : VReg) (v : Int) : outD x d iw.regs (wrapTo (iwBits iw) v) = resInt iw x d v := by
  rw [wrapTo_eq_toNat]
  cases iw with
  | i32 | n32 => exact outD_word x d (BitVec.ofInt 32 v)
  | i64 | n64 => exact outD_dword x d (BitVec.ofInt 64 v)

/-- A destination of a width has a register. -/
theorem iwRegs_pos (iw : IW) : 0 < iw.regs := by cases iw <;> decide

/-- The quotient and the remainder of R59 with the least integer of the width as a power of 2. -/
theorem quotientOf_eq (iw : IW) (a b : Int) :
    quotientOf iw a b =
      if b = 0 then (-1, a)
      else if iwSigned iw = true ∧ a = -(2 ^ (iwBits iw - 1) : Nat) ∧ b = -1 then (-((2 ^ (iwBits iw - 1) : Nat) : Int), 0)
      else (a.tdiv b, a - a.tdiv b * b) := by
  cases iw with
  | i32 | i64 => rfl
  | n32 | n64 => simp [quotientOf, signedIw, iwSigned]

/-- The quotient and the remainder on numbers are those of R59 on integers, modulo 2 to the width. -/
theorem divide_eq (iw : IW) (a b : Nat) :
    divide iw a b = (wrapTo (iwBits iw) (quotientOf iw (iwInt iw a) (iwInt iw b)).1,
      wrapTo (iwBits iw) (quotientOf iw (iwInt iw a) (iwInt iw b)).2) := by
  have allOnes : 2 ^ iwBits iw - 1 = wrapTo (iwBits iw) (-1) := by cases iw <;> rfl
  have least : 2 ^ (iwBits iw - 1) = wrapTo (iwBits iw) (-((2 ^ (iwBits iw - 1) : Nat) : Int)) := by cases iw <;> rfl
  have zero : 0 = wrapTo (iwBits iw) 0 := by cases iw <;> rfl
  rw [quotientOf_eq, divide]
  by_cases hb : iwInt iw b = 0
  · rw [if_pos hb, if_pos hb, allOnes]
  by_cases ho : iwSigned iw = true ∧ iwInt iw a = -(2 ^ (iwBits iw - 1) : Nat) ∧ iwInt iw b = -1
  · rw [if_neg hb, if_neg hb, if_pos ho, if_pos ho, ← least, ← zero]
  · rw [if_neg hb, if_neg hb, if_neg ho, if_neg ho]

/-! ## Shifts and rotates (R61) -/

/-- SHL of a word; a count of the width or more shifts every bit out. -/
theorem shlBits_toNat {w : Nat} (v : BitVec w) (n : Nat) : shlBits w v.toNat n = (v <<< n).toNat := by
  rw [BitVec.toNat_shiftLeft, Nat.shiftLeft_eq, shlBits]
  split
  case isTrue => rfl
  case isFalse hn => exact (Nat.mod_eq_zero_of_dvd (Dvd.dvd.mul_left (Nat.pow_dvd_pow 2 (Nat.not_lt.mp hn)) _)).symm

/-- SHR of a word; a count of the width or more leaves nothing. -/
theorem shrBits_toNat {w : Nat} (v : BitVec w) (n : Nat) : shrBits w v.toNat n = (v >>> n).toNat := by
  rw [BitVec.toNat_ushiftRight, Nat.shiftRight_eq_div_pow, shrBits, Nat.mod_eq_of_lt v.isLt]
  split
  case isTrue => rfl
  case isFalse hn => exact (Nat.div_eq_of_lt (v.isLt.trans_le (Nat.pow_le_pow_right Nat.two_pos (Nat.not_lt.mp hn)))).symm

/-- A number between -m and m shifted right beyond its bits: its sign remains. -/
theorem ediv_eq_sign {v m : Int} (hl : -m ≤ v) (hu : v < m) : v / m = if v < 0 then -1 else 0 := by
  split
  case isTrue hv => rw [Int.ediv_eq_iff_of_pos (by omega)]; omega
  case isFalse hv => exact Int.ediv_eq_zero_of_lt (by omega) hu

/-- SAR of a word; a count of the width or more leaves the sign. -/
theorem sarBits_toNat {w : Nat} (hw : 0 < w) (v : BitVec w) (n : Nat) : sarBits w v.toNat n = (v.sshiftRight n).toNat := by
  have hdiv : v.toInt / ((2 ^ (if n < w then n else w - 1) : Nat) : Int) = v.toInt / ((2 ^ n : Nat) : Int) := by
    split
    case isTrue => rfl
    case isFalse hn =>
      have hle : (2 : Int) ^ (w - 1) ≤ 2 ^ n := pow_le_pow_right₀ (by norm_num) (by omega)
      have hl := BitVec.le_toInt v
      have hu := BitVec.toInt_lt (x := v)
      push_cast
      rw [ediv_eq_sign hl hu, ediv_eq_sign (hl.trans' (neg_le_neg hle)) (hu.trans_le hle)]
  rw [sarBits, toSigned_toNat hw, hdiv, ← Int.shiftRight_eq_div_pow, ← BitVec.toInt_sshiftRight, wrapTo_eq_toNat, BitVec.ofInt_toInt]

/-- ROL of a word; the count is taken modulo the width. -/
theorem rolBits_toNat {w : Nat} (hw : 0 < w) (v : BitVec w) (n : Nat) : rolBits w v.toNat n = (v.rotateLeft n).toNat := by
  have hk : n % w < w := Nat.mod_lt n hw
  have hpow : 2 ^ w = 2 ^ (n % w) * 2 ^ (w - n % w) := by rw [← Nat.pow_add]; congr 1; omega
  have hlow : v.toNat / 2 ^ (w - n % w) < 2 ^ (n % w) := Nat.div_lt_of_lt_mul (by rw [Nat.mul_comm, ← hpow]; exact v.isLt)
  have hhigh : v.toNat * 2 ^ (n % w) % 2 ^ w = 2 ^ (n % w) * (v.toNat % 2 ^ (w - n % w)) := by
    rw [hpow, Nat.mul_comm, Nat.mul_mod_mul_left]
  rw [BitVec.toNat_rotateLeft, Nat.shiftLeft_eq, Nat.shiftRight_eq_div_pow, rolBits, Nat.mod_eq_of_lt v.isLt, hhigh]
  exact Nat.two_pow_add_eq_or_of_lt hlow _

/-- A shift with its count in B[7:0] completes with the shift of the word or of the pair. -/
theorem laneResult_shift {i : Instr} {wide : Bool} {d a b : VReg} {f : Nat → Nat → Nat → Nat} {f32 : Word → Nat → Word}
    {f64 : DWord → Nat → DWord} (hs : slotsSound (slots i) = true)
    (hd : dslot .v 18 d.toNat (wregs wide) (wregs wide) (wregs wide) ∈ slots i) (he : ∀ s, exec i s = shiftOp i wide d a b f s)
    (h32 : ∀ v n, f 32 v.toNat n = (f32 v n).toNat) (h64 : ∀ v n, f 64 v.toNat n = (f64 v n).toNat) :
    LaneResult i fun x l => resShift wide x l d a b f32 f64 := by
  refine laneResult_outD hs hd (by cases wide <;> decide) he fun x l => ?_
  cases wide with
  | false => exact (congrArg (outD x d 1) (h32 (opA x l a) _)).trans (outD_word ..)
  | true => exact (congrArg (outD x d 2) (h64 (pairA x l a) _)).trans (outD_dword ..)

end Sys2Proof.Machine

open Sys2Proof Sys2Proof.Machine Sys2Proof.Laws

/-- Settles O2: the model's division is R59's on the integers that the operands hold, taken modulo 2 to the width. -/
theorem divisionHasAResultForEveryOperand : Obligations.DivisionHasAResultForEveryOperand := by
  intro iw d a b
  have hdiv : ∀ (x : Issue) (l : Nat), divide iw (srcA x l a iw.regs) (srcB x l b iw.regs)
      = (wrapTo (iwBits iw) (quotientOf iw (intA iw x l a) (intB iw x l b)).1,
        wrapTo (iwBits iw) (quotientOf iw (intA iw x l a) (intB iw x l b)).2) := fun x l => by
    rw [divide_eq, iwInt_srcA, iwInt_srcB]
  constructor
  · exact laneResult_outD (SlotsSound.idiv iw d a b) (List.mem_cons_self ..) (iwRegs_pos iw) (fun _ => rfl) fun x l =>
      (congrArg (fun r => outD x d iw.regs r.1) (hdiv x l)).trans (outD_wrapTo ..)
  · exact laneResult_outD (SlotsSound.irem iw d a b) (List.mem_cons_self ..) (iwRegs_pos iw) (fun _ => rfl) fun x l =>
      (congrArg (fun r => outD x d iw.regs r.2) (hdiv x l)).trans (outD_wrapTo ..)

/-- Settles O4: each shift on numbers is the shift of the word or the pair, also where the count is the width or more. -/
theorem shiftsTakeEveryCount : Obligations.ShiftsTakeEveryCount := by
  intro wide d a b cnt
  have w32 : 0 < 32 := by decide
  have w64 : 0 < 64 := by decide
  refine ⟨?shl, ?shr, ?sar, ?rol, ?shli, ?shri, ?sari, ?roli⟩
  case shl => exact laneResult_shift (SlotsSound.shl wide d a b) (List.mem_cons_self ..) (fun _ => rfl) shlBits_toNat shlBits_toNat
  case shr => exact laneResult_shift (SlotsSound.shr wide d a b) (List.mem_cons_self ..) (fun _ => rfl) shrBits_toNat shrBits_toNat
  case sar =>
    exact laneResult_shift (SlotsSound.sar wide d a b) (List.mem_cons_self ..) (fun _ => rfl) (sarBits_toNat w32) (sarBits_toNat w64)
  case rol =>
    exact laneResult_shift (SlotsSound.rol wide d a b) (List.mem_cons_self ..) (fun _ => rfl) (rolBits_toNat w32) (rolBits_toNat w64)
  case shli => exact laneResult_word (SlotsSound.shli d a cnt) (List.mem_cons_self ..) (fun _ => rfl) fun _ _ => shlBits_toNat ..
  case shri => exact laneResult_word (SlotsSound.shri d a cnt) (List.mem_cons_self ..) (fun _ => rfl) fun _ _ => shrBits_toNat ..
  case sari => exact laneResult_word (SlotsSound.sari d a cnt) (List.mem_cons_self ..) (fun _ => rfl) fun _ _ => sarBits_toNat w32 ..
  case roli => exact laneResult_word (SlotsSound.roli d a cnt) (List.mem_cons_self ..) (fun _ => rfl) fun _ _ => rolBits_toNat w32 ..

end

section
/-! PROOFS. Bit fields and counts: what the model computes on numbers has, bit by bit, the bits that R62 and R63 give. -/
namespace Sys2Proof.Machine

/-! ## Bits of numbers -/

/-- One bit of a number. -/
theorem bitOf_eq_testBit (x k : Nat) : bitOf x k = x.testBit k := by
  rw [Nat.testBit_eq_decide_div_mod_eq]
  rfl

/-- The field of one bit is the bit. -/
theorem bitsOf_one (x k : Nat) : bitsOf x k 1 = (x.testBit k).toNat := (Nat.toNat_testBit x k).symm

/-- A field of n bits is below 2^n. -/
theorem bitsOf_lt (x lo n : Nat) : bitsOf x lo n < 2 ^ n := Nat.mod_lt _ (Nat.two_pow_pos n)

/-- The bits of a field. -/
theorem testBit_bitsOf (x lo n j : Nat) : (bitsOf x lo n).testBit j = (decide (j < n) && x.testBit (lo + j)) := by
  rw [bitsOf, Nat.testBit_mod_two_pow, Nat.testBit_div_two_pow, Nat.add_comm]

/-- The bits of a number above a lower part of p bits. -/
theorem testBit_add_mul_two_pow {low p : Nat} (h : low < 2 ^ p) (high j : Nat) :
    (low + high * 2 ^ p).testBit j = if j < p then low.testBit j else high.testBit (j - p) := by
  rw [Nat.add_comm, Nat.mul_comm, Nat.testBit_two_pow_mul_add _ h]

/-! ## Bit fields (R62) -/

/-- A number of n bits, sign-extended to a word, is that number shifted to the top of the word and back with its sign. -/
theorem wrapTo_toSigned {n : Nat} (hn : 0 < n) (hn' : n ≤ 32) (y : Nat) :
    wrapTo 32 (toSigned n y) = ((BitVec.ofNat 32 y <<< (32 - n)).sshiftRight (32 - n)).toNat := by
  rw [wrapTo_eq_toNat, toSigned_eq_toInt hn]
  congr 1
  show (BitVec.ofNat n y).signExtend 32 = _
  apply BitVec.eq_of_getLsbD_eq
  intro j hj
  rw [BitVec.getLsbD_signExtend, BitVec.getLsbD_sshiftRight, BitVec.msb_eq_getLsbD_last, BitVec.msb_eq_getLsbD_last]
  simp only [BitVec.getLsbD_shiftLeft, BitVec.getLsbD_ofNat]
  by_cases hjn : j < n
  · simp [hj, hjn, show 32 - n + j < 32 by omega, show ¬ 32 ≤ j by omega]
  · simp [hj, hjn, show ¬ 32 - n + j < 32 by omega, show ¬ 32 ≤ j by omega, show ¬ 31 < 32 - n by omega,
      show 31 - (32 - n) = n - 1 by omega, hn, show n - 1 < 32 by omega]

/-- BFE: the field of A at the position and of the length that B names, cut off at bit 32. -/
theorem extractField_toNat (u : Bool) (a b : Word) :
    let p := b.toNat % 256
    let k := b.toNat / 256 % 256
    let e := min (p + k) 32
    extractField u a.toNat b.toNat =
      (if k = 0 ∨ 32 ≤ p then 0
       else if u then fieldWord a p e
       else (fieldWord a p e <<< (32 - (e - p))).sshiftRight (32 - (e - p)) : Word).toNat := by
  intro p k e
  have hp : bitsOf b.toNat 0 8 = p := by simp [bitsOf, p]
  have hk : bitsOf b.toNat 8 8 = k := rfl
  simp only [extractField, hp, hk]
  by_cases h : k = 0 ∨ 32 ≤ p
  · rw [if_pos h, if_pos h]
    rfl
  · rw [if_neg h, if_neg h]
    have hn : 0 < e - p := by omega
    have hn' : e - p ≤ 32 := by omega
    cases u with
    | true =>
      have hlt : bitsOf a.toNat p (e - p) < 2 ^ 32 := (bitsOf_lt ..).trans_le (Nat.pow_le_pow_right Nat.two_pos hn')
      exact (Nat.mod_eq_of_lt hlt).symm
    | false => exact wrapTo_toSigned hn hn' _

/-- The bits of a word whose n bits from position p up are replaced by the low bits of another. -/
theorem testBit_replaced (old x : Nat) {p n : Nat} (hpn : p + n ≤ 32) {j : Nat} (hj : j < 32) :
    (bitsOf old 0 p + bitsOf x 0 n * 2 ^ p + bitsOf old (p + n) (32 - (p + n)) * 2 ^ (p + n)).testBit j
      = if p ≤ j ∧ j < p + n then x.testBit (j - p) else old.testBit j := by
  have hlow : bitsOf old 0 p + bitsOf x 0 n * 2 ^ p < 2 ^ (p + n) := by
    have h1 := bitsOf_lt old 0 p
    have h2 := bitsOf_lt x 0 n
    rw [Nat.pow_add]
    nlinarith
  rw [testBit_add_mul_two_pow hlow, testBit_add_mul_two_pow (bitsOf_lt ..)]
  simp only [testBit_bitsOf]
  by_cases h1 : j < p
  · simp [h1, show j < p + n by omega, show ¬ p ≤ j by omega]
  · by_cases h2 : j < p + n
    · simp [h1, h2, show j - p < n by omega, show p ≤ j by omega]
    · simp [h2, show j - (p + n) < 32 - (p + n) by omega, show p + n + (j - (p + n)) = j by omega]

/-- BFI: D with the field that B names taken from the low bits of A, and every other bit kept. -/
theorem insertField_toNat (old a b : Word) :
    let p := b.toNat % 256
    let k := b.toNat / 256 % 256
    let e := min (p + k) 32
    BitVec.ofNat 32 (insertField old.toNat a.toNat b.toNat) =
      if k = 0 ∨ 32 ≤ p then old
      else BitVec.ofFnLE fun j : Fin 32 => if p ≤ j.val ∧ j.val < e then a.getLsbD (j.val - p) else old.getLsbD j.val := by
  intro p k e
  have hp : bitsOf b.toNat 0 8 = p := by simp [bitsOf, p]
  have hk : bitsOf b.toNat 8 8 = k := rfl
  simp only [insertField, hp, hk]
  by_cases h : k = 0 ∨ 32 ≤ p
  · rw [if_pos h, if_pos h, BitVec.ofNat_toNat, BitVec.setWidth_eq]
  · rw [if_neg h, if_neg h]
    apply BitVec.eq_of_getLsbD_eq
    intro j hj
    rw [BitVec.getLsbD_ofNat, BitVec.getLsbD_ofFnLE, dif_pos hj, testBit_replaced _ _ (by omega) hj,
      show p + (min (p + k) 32 - p) = e by omega]
    simp [hj, BitVec.getLsbD]

/-! ## Counts and reversal (R63) -/

/-- POPC counts the 1 bits. -/
theorem popcount_eq (x n : Nat) : popcount x n = (List.range n).countP fun j => x.testBit j := by
  induction n with
  | zero => rfl
  | succ n ih =>
    rw [popcount, ih, List.range_succ, List.countP_append, List.countP_singleton, bitsOf_one]
    cases x.testBit n <;> rfl

/-- Searching the numbers below n + 1: the first is 0, and the others are one more than those below n. -/
theorem find_range_succ (p : Nat → Bool) (n : Nat) :
    ((List.range (n + 1)).find? p).getD (n + 1) = if p 0 then 0 else 1 + ((List.range n).find? fun j => p (j + 1)).getD n := by
  rw [List.range_succ_eq_map, List.find?_cons, List.find?_map]
  cases p 0 with
  | true => rfl
  | false =>
    show (((List.range n).find? fun j => p (j + 1)).map Nat.succ).getD (n + 1) = _
    cases (List.range n).find? fun j => p (j + 1) <;> simp [Nat.add_comm]

/-- CLZ is the distance of the highest 1 bit from the top, or all n where there is none. -/
theorem leadingZeros_eq (x n : Nat) : leadingZeros x n = ((List.range n).find? fun j => x.testBit (n - 1 - j)).getD n := by
  induction n with
  | zero => rfl
  | succ n ih =>
    rw [leadingZeros, ih, find_range_succ, bitOf_eq_testBit]
    simp only [Nat.add_sub_cancel, Nat.sub_zero, Nat.sub_sub, Nat.add_comm 1]

/-- CTZ is the position of the lowest 1 bit, or n where there is none. -/
theorem trailingZeros_eq (x n : Nat) : trailingZeros x n = ((List.range n).find? fun j => x.testBit j).getD n := by
  induction n generalizing x with
  | zero => rfl
  | succ n ih =>
    rw [trailingZeros, ih, find_range_succ, bitOf_eq_testBit]
    simp only [Nat.testBit_succ]

/-- BREV reverses the low n bits. -/
theorem testBit_reverseBits (x n j : Nat) : (reverseBits x n).testBit j = (decide (j < n) && x.testBit (n - 1 - j)) := by
  have hlt : ∀ x n, reverseBits x n < 2 ^ n := by
    intro x n
    induction n generalizing x with
    | zero => exact Nat.one_pos
    | succ n ih =>
      have h1 := bitsOf_lt x 0 1
      have h2 := ih (x / 2)
      rw [reverseBits, Nat.pow_succ]
      nlinarith
  induction n generalizing x with
  | zero => simp [reverseBits]
  | succ n ih =>
    rw [reverseBits, Nat.add_comm, testBit_add_mul_two_pow (hlt ..), ih, bitsOf_one]
    rcases Nat.lt_trichotomy j n with h | rfl | h
    · rw [if_pos h, ← Nat.testBit_succ, Nat.succ_eq_add_one, show n - 1 - j + 1 = n + 1 - 1 - j by omega]
      simp [h, show j < n + 1 by omega]
    · cases hx : x.testBit 0 <;> simp [hx]
    · have hbit : (x.testBit 0).toNat < 2 ^ (j - n) :=
        (Bool.toNat_lt _).trans_le (Nat.pow_le_pow_right (n := 2) (i := 1) Nat.two_pos (by omega))
      rw [if_neg (by omega), Nat.testBit_lt_two_pow hbit]
      simp [show ¬ j < n + 1 by omega]

/-- BREV of a word. -/
theorem reverseBits_toNat (a : Word) : reverseBits a.toNat 32 = a.reverse.toNat := by
  apply Nat.eq_of_testBit_eq
  intro j
  rw [testBit_reverseBits]
  show _ = a.reverse.getLsbD j
  rw [BitVec.getLsbD_reverse]
  rfl

end Sys2Proof.Machine

open Sys2Proof Sys2Proof.Machine Sys2Proof.Laws

/-- The first half of O36: BFE and BFI. -/
theorem bitFieldsEndAtTheWord : Claim.BitFieldsEndAtTheWord := by
  intro u d a b
  constructor
  · exact laneResult_word (SlotsSound.bfe u d a b) (List.mem_cons_self ..) (fun _ => rfl) fun _ _ => extractField_toNat ..
  · refine laneResult_outD (SlotsSound.bfi d a b) (List.mem_cons_self ..) Nat.one_pos (fun _ => rfl) fun x l => ?_
    exact congrArg (resD x d) (insertField_toNat ..)

/-- The second half of O36: POPC, CLZ, CTZ and BREV. -/
theorem bitCountsAndReversal : Claim.BitCountsAndReversal := by
  intro d a
  refine ⟨?popc, ?clz, ?ctz, ?brev⟩
  case popc =>
    exact laneResult_outD (SlotsSound.popc d a) (List.mem_cons_self ..) Nat.one_pos (fun _ => rfl) fun x _ =>
      congrArg (fun n => resD x d (BitVec.ofNat 32 n)) (popcount_eq _ 32)
  case clz =>
    exact laneResult_outD (SlotsSound.clz d a) (List.mem_cons_self ..) Nat.one_pos (fun _ => rfl) fun x _ =>
      congrArg (fun n => resD x d (BitVec.ofNat 32 n)) (leadingZeros_eq _ 32)
  case ctz =>
    exact laneResult_outD (SlotsSound.ctz d a) (List.mem_cons_self ..) Nat.one_pos (fun _ => rfl) fun x _ =>
      congrArg (fun n => resD x d (BitVec.ofNat 32 n)) (trailingZeros_eq _ 32)
  case brev => exact laneResult_word (SlotsSound.brev d a) (List.mem_cons_self ..) (fun _ => rfl) fun _ _ => reverseBits_toNat _

/-- Settles O36: fields, counts and the reversal agree with their rules bit by bit. -/
theorem bitFieldsAndCounts : Obligations.BitFieldsAndCounts := ⟨bitFieldsEndAtTheWord, bitCountsAndReversal⟩

end

section
/-! PROOFS. Compares and address arithmetic on numbers as relations and sums of words (R64, R65, R69). -/
namespace Sys2Proof.Machine

/-! ## Compares (R64) -/

/-- Every relation of ICMP on the numbers of two words is the relation on the words. -/
theorem icmp_toNat {w : Nat} (hw : 0 < w) (c : ICmp) (a b : BitVec w) : icmp c w a.toNat b.toNat = icmpHolds c a b := by
  cases c with
  | eq => exact decide_eq_decide.mpr BitVec.toNat_inj
  | ne => exact congrArg (!·) (decide_eq_decide.mpr BitVec.toNat_inj)
  | lt | le | gt | ge => simp only [icmp, icmpHolds, toSigned_toNat hw, BitVec.slt, BitVec.sle]
  | ltn | gen => rfl

/-! ## Addresses (R69) -/

/-- A product with a power of 2, modulo 2 to the width, is a shift. -/
theorem ofInt_mul_two_pow {w : Nat} (v : Int) (n : Nat) : BitVec.ofInt w (v * (2 ^ n : Nat)) = BitVec.ofInt w v <<< n := by
  have hpow : BitVec.ofNat w (2 ^ n) = BitVec.twoPow w n := BitVec.eq_of_toNat_eq (by rw [BitVec.toNat_ofNat, BitVec.toNat_twoPow])
  rw [BitVec.ofInt_mul, BitVec.shiftLeft_eq_mul_twoPow, BitVec.ofInt_natCast, hpow]

/-- A sum with the number of a double word, modulo 2^64, is the sum of double words. -/
theorem wrapTo_add_dword (p : DWord) (v : Int) : wrapTo 64 ((p.toNat : Int) + v) = (p + BitVec.ofInt 64 v).toNat := by
  rw [wrapTo_eq_toNat, BitVec.ofInt_add, BitVec.ofInt_natCast, BitVec.ofNat_toNat, BitVec.setWidth_eq]

/-- The index of LEA, with or without its sign, as a double word. -/
theorem ofInt_index (sx : Bool) (b : Word) :
    BitVec.ofInt 64 (if sx then toSigned 32 b.toNat else (b.toNat : Int)) = if sx then b.signExtend 64 else b.zeroExtend 64 := by
  cases sx with
  | false => exact (BitVec.ofInt_natCast ..).trans (BitVec.ofNat_toNat ..)
  | true => exact congrArg (BitVec.ofInt 64) (toSigned_word b)

end Sys2Proof.Machine

open Sys2Proof Sys2Proof.Machine Sys2Proof.Laws

/-- The first half of O37: compares, predicate logic and SEL. -/
theorem comparesPredicatesAndSelect : Claim.ComparesPredicatesAndSelect := by
  intro wide c pd pa pb ps d a b imm
  have w32 : 0 < 32 := by decide
  have w64 : 0 < 64 := by decide
  refine ⟨?icmpp, ?icmppi, ?pand, ?por, ?pxor, ?pandn, ?sel⟩
  case icmpp =>
    refine laneResult_pred (SlotsSound.icmpp wide c pd a b) (List.mem_cons_self ..) (fun _ => rfl) fun x l => ?_
    cases wide with
    | false => exact icmp_toNat w32 ..
    | true => exact icmp_toNat w64 ..
  case icmppi =>
    exact laneResult_pred (SlotsSound.icmppi c pd a imm) (List.mem_cons_self ..) (fun _ => rfl) fun x l => by
      rw [imm32_eq, srcA_one, icmp_toNat w32]
  case pand => exact laneResult_pred (SlotsSound.pand pd pa pb) (List.mem_cons_self ..) (fun _ => rfl) fun _ _ => rfl
  case por => exact laneResult_pred (SlotsSound.por pd pa pb) (List.mem_cons_self ..) (fun _ => rfl) fun _ _ => rfl
  case pxor => exact laneResult_pred (SlotsSound.pxor pd pa pb) (List.mem_cons_self ..) (fun _ => rfl) fun _ _ => rfl
  case pandn => exact laneResult_pred (SlotsSound.pandn pd pa pb) (List.mem_cons_self ..) (fun _ => rfl) fun _ _ => rfl
  case sel =>
    exact laneResult_word (SlotsSound.sel ps d a b) (List.mem_cons_self ..) (fun _ => rfl) fun _ _ => (apply_ite BitVec.toNat ..).symm

/-- The second half of O37: MOVI, LEA and LEAI. -/
theorem movesAndAddresses : Claim.MovesAndAddresses := by
  intro sx sh d a b imm
  refine ⟨?movi, ?lea, ?leai⟩
  case movi => exact laneResult_word (SlotsSound.movi d imm) (List.mem_cons_self ..) (fun _ => rfl) fun _ _ => imm32_eq ..
  case lea =>
    exact laneResult_dword (SlotsSound.lea sx sh d a b) (List.mem_cons_self ..) (fun _ => rfl) fun x l => by
      rw [srcA_two, srcB_one, wrapTo_add_dword, ofInt_mul_two_pow, ofInt_index]
  case leai =>
    exact laneResult_dword (SlotsSound.leai d a imm) (List.mem_cons_self ..) (fun _ => rfl) fun _ _ => wrapTo_add_dword ..

/-- Settles O37: each compare, combination, choice and address on numbers is that of its words. -/
theorem comparesSelectsAndMoves : Obligations.ComparesSelectsAndMoves := ⟨comparesPredicatesAndSelect, movesAndAddresses⟩

end

section
/-! PROOFS. Control transfers: an issue that moves the threads of its set, each to its own target (R70 to R72, R75, R147). -/
namespace Sys2Proof.Machine

/-! ## Threads that stand elsewhere -/

/-- The group with the threads of some lanes at the addresses that `target` gives them. -/
def Group.standAt (g : Group) (lanes : List Nat) (target : Nat → DWord) : Group :=
  { g with threads := g.threads.zipIdx.map fun (th, l) => if l ∈ lanes then { th with pc := target l } else th }

/-- Changing distinct threads one after another, each in its own way. -/
theorem foldl_modifyThread (f : Nat → Thread → Thread) {lanes : List Nat} (hnd : lanes.Nodup) (g : Group) :
    lanes.foldl (fun g l => g.modifyThread l (f l)) g
      = { g with threads := g.threads.zipIdx.map fun (th, l) => if l ∈ lanes then f l th else th } := by
  induction lanes generalizing g with
  | nil => simp
  | cons k r ih =>
    obtain ⟨hk, hnd⟩ := List.nodup_cons.mp hnd
    rw [List.foldl_cons, ih hnd]
    simp only [Group.modifyThread]
    congr 1
    apply List.ext_getElem?
    intro j
    simp only [List.getElem?_map, List.getElem?_zipIdx, getElem?_modifyAt]
    by_cases hj : j = k
    · subst hj
      simp [hk, Function.comp_def]
    · simp [hj, Function.comp_def]

/-- Moving distinct threads one after another, each to its target. -/
theorem foldl_modifyThread_standAt {f : Nat → Thread → Thread} {lanes : List Nat} (hnd : lanes.Nodup) {g : Group} {target : Nat → DWord}
    (hf : ∀ l ∈ lanes, f l (g.thread l) = { g.thread l with pc := target l }) :
    lanes.foldl (fun g l => g.modifyThread l (f l)) g = g.standAt lanes target := by
  rw [foldl_modifyThread f hnd, Group.standAt]
  congr 1
  apply List.map_congr_left
  rintro ⟨th, l⟩ hmem
  have hth : g.thread l = th := by simp [Group.thread, List.mem_zipIdx_iff_getElem?.mp hmem]
  by_cases hl : l ∈ lanes
  · simp only [if_pos hl, ← hth, hf l hl]
  · simp only [if_neg hl]

/-- Completing with the threads of the set moved. -/
theorem finish_standAt {s : State} {x : Issue} {i : Instr} (h : Issues s x i) {g : Group} (hu : g.uid = x.uid) (target : Nat → DWord) :
    finish s x (yieldsOf i x.ext) (.moved (s.setGroup (g.standAt x.lanes target))) = movedTo i x (s.setGroup g) target := by
  have hmoved := (finish_moved h (g := g.standAt x.lanes target) hu).2
  rw [hmoved, movedTo, ← hu, modifyGroup_setGroup s g _ rfl]
  rfl

/-! ## Groups that differ in V registers alone -/

/-- The group `g'` is `g` but for its V registers. -/
def Group.SameButV (g g' : Group) : Prop := ∃ v, g' = { g with v := v }

namespace Group.SameButV

variable {g g' g'' : Group}

theorem refl (g : Group) : g.SameButV g := ⟨g.v, rfl⟩

theorem trans (h : g.SameButV g') (h' : g'.SameButV g'') : g.SameButV g'' := by
  obtain ⟨_, rfl⟩ := h
  obtain ⟨v, rfl⟩ := h'
  exact ⟨v, rfl⟩

theorem uid_eq (h : g.SameButV g') : g'.uid = g.uid := by
  obtain ⟨_, rfl⟩ := h
  rfl

theorem thread_eq (h : g.SameButV g') (l : Nat) : g'.thread l = g.thread l := by
  obtain ⟨_, rfl⟩ := h
  rfl

theorem vput (g : Group) (l r : Nat) (w : Word) : g.SameButV (g.vput l r w) := ⟨_, rfl⟩

/-- Steps that each change V registers alone, one after another. -/
theorem foldl {α : Type} {f : Group → α → Group} (hf : ∀ (g : Group) (a : α), g.SameButV (f g a)) (as : List α) (g : Group) :
    g.SameButV (as.foldl f g) := by
  induction as generalizing g with
  | nil => exact refl g
  | cons a as ih => exact (hf g a).trans (ih (f g a))

end Group.SameButV

/-- An instruction that may write V registers and then moves each thread of its set goes on at the targets. -/
theorem movesResult_of {i : Instr} {cond : State → Issue → Prop} {g : Issue → Group} {target : State → Issue → Nat → DWord}
    {body : State → Issue → Effect} {f : State → Issue → Nat → Thread → Thread} (he : ∀ s, exec i s = issue i body s)
    (hg : ∀ x : Issue, x.g.SameButV (g x))
    (hb : ∀ s x, Issues s x i → cond s x → body s x = .moved (s.setGroup (x.lanes.foldl (fun g l => g.modifyThread l (f s x l)) (g x))))
    (hf : ∀ s x, Issues s x i → cond s x → ∀ l ∈ x.lanes, f s x l (x.g.thread l) = { x.g.thread l with pc := target s x l }) :
    MovesResult i cond (fun s x => s.setGroup (g x)) target := by
  intro s x h hc
  have hstand : x.lanes.foldl (fun g l => g.modifyThread l (f s x l)) (g x) = (g x).standAt x.lanes (target s x) :=
    foldl_modifyThread_standAt h.nodup fun l hl => by rw [(hg x).thread_eq, hf s x h hc l hl]
  rw [he, issue_next h, hb s x h hc, hstand, finish_standAt h ((hg x).uid_eq.trans (issue_uid h.current))]

/-! ## Lanes that write V registers alone -/

/-- A change that leaves every entry as it is leaves the list as it is. -/
theorem modifyAt_self {α : Type} {f : α → α} (hf : ∀ a, f a = a) (l : List α) (n : Nat) : modifyAt f l n = l := by
  induction l generalizing n with
  | nil => rfl
  | cons a l ih => cases n <;> simp [modifyAt, hf, ih]

/-- A lane with results in V registers alone. -/
theorem applyLane_v (g : Group) (lane : Nat) (ws : List (Nat × Word)) :
    applyLane g lane { v := ws } = ws.foldl (fun g w => g.vput lane w.1 w.2) g := by
  have hself : ∀ g : Group, (g.modifyThread lane fun t => { t with fpstat := t.fpstat ||| 0, randn := (none : Option DWord).getD t.randn }) = g :=
    fun g => by rw [Group.modifyThread, modifyAt_self fun t => by simp]
  exact hself _

theorem sameButV_applyLane (g : Group) (lane : Nat) (ws : List (Nat × Word)) : g.SameButV (applyLane g lane { v := ws }) := by
  rw [applyLane_v]
  exact .foldl (fun g w => .vput g lane w.1 w.2) ws g

/-- The zeros of an instruction whose destinations are V registers change V registers alone. -/
theorem sameButV_applyZeros {i : Instr} {x : Issue} {ws : List (Nat × Word)} (hz : zeroOut i x.ext = { v := ws }) (g : Group) :
    g.SameButV (applyZeros i x g) := by
  rw [applyZeros, hz]
  split
  · rw [applyLanes, List.foldl_map]
    exact .foldl (fun g l => sameButV_applyLane g l ws) _ g
  · exact .refl g

/-- An instruction with no destination has no zeros to write. -/
theorem applyZeros_of_none {i : Instr} {x : Issue} (hz : zeroOut i x.ext = {}) (g : Group) : applyZeros i x g = g := by
  have hlane : ∀ (g : Group) (l : Nat), applyLane g l {} = g := fun g l => applyLane_v g l []
  rw [applyZeros, hz, applyLanes, List.foldl_map]
  simp only [hlane, List.foldl_fixed, ite_self]

/-- The link as the lanes' results in a pair. -/
theorem linkInto_eq (g : Group) (r : Nat) (lanes : List Nat) :
    lanes.foldl (fun g' l => applyLane g' l { v := vout r 2 ((g.thread l).pc + 4).toNat }) g = linkInto g r lanes := by
  simp only [applyLane_v]
  rfl

theorem sameButV_linkInto (g : Group) (r : Nat) (lanes : List Nat) : g.SameButV (linkInto g r lanes) :=
  .foldl (fun g' l => (Group.SameButV.vput g' l r _).trans (.vput _ l (r + 1) _)) lanes g

/-! ## Direct branches (R32, R70, R147) -/

/-- The address n words on, as the model adds it. -/
theorem ofNat_wrapTo_pc (pc : DWord) (n : Int) : BitVec.ofNat 64 (wrapTo 64 ((pc.toNat : Int) + 4 * n)) = pcPlus pc n := by
  rw [wrapTo_add_dword, BitVec.ofNat_toNat, BitVec.setWidth_eq, pcPlus]

/-- A thread that takes a branch goes to its target, and another to the next word. -/
theorem branchPc_eq (taken : Bool) (pc : DWord) (n : Int) :
    (if taken then BitVec.ofNat 64 (wrapTo 64 ((pc.toNat : Int) + 4 * n)) else pc + 4) = pcPlus pc (if taken then n else 1) := by
  rw [ofNat_wrapTo_pc]
  cases taken <;> rfl

/-- The group that a guarded direct branch leaves before its threads move: CALL writes its link. -/
def branchLinked (gd : Guard) (link : Bool) (x : Issue) : Group :=
  if link then linkInto x.g 2 (x.lanes.filter fun l => branchGuard gd (x.g.thread l)) else x.g

theorem sameButV_branchLinked (gd : Guard) (link : Bool) (x : Issue) : x.g.SameButV (branchLinked gd link x) := by
  cases link with
  | false => exact .refl x.g
  | true => exact sameButV_linkInto ..

/-- A guarded direct branch goes to its target where its guard is true, and to the next word elsewhere. -/
theorem movesResult_branch {i : Instr} {gd : Guard} {off : BitVec 20} {link : Bool} (he : ∀ s, exec i s = branch i gd off link s) :
    MovesResult i always (fun s x => s.setGroup (branchLinked gd link x)) fun _ x l =>
      pcPlus (x.g.thread l).pc (if branchGuard gd (x.g.thread l) then x.ext.immediate 20 off.toNat else 1) := by
  refine movesResult_of
    (f := fun _ x l t =>
      { t with pc := if (x.lanes.filter fun l => branchGuard gd (x.g.thread l)).contains l then branchTarget x.ext off t.pc else t.pc + 4 })
    he (sameButV_branchLinked gd link) (fun s x _ _ => ?_) fun _ x _ _ l hl => ?_
  · simp only [linkInto_eq]
    rfl
  · have htaken : (x.lanes.filter fun l => branchGuard gd (x.g.thread l)).contains l = branchGuard gd (x.g.thread l) := by
      rw [List.contains_eq_mem, Bool.eq_iff_iff]
      simp [hl]
    dsimp only
    rw [htaken, branchTarget, branchPc_eq]

/-- A uniform branch goes to its target in every thread where its test says so. -/
theorem movesResult_uniform {i : Instr} {d : SReg} {imm : BitVec 9} {onZero : Bool} (he : ∀ s, exec i s = uniformBranch i d imm onZero s) :
    MovesResult i always (fun s x => s.setGroup x.g) fun _ x l =>
      pcPlus (x.g.thread l).pc (if (x.g.sregGet (regSD x d) == 0) == onZero then immS x imm else 1) := by
  refine movesResult_of he (fun x => .refl x.g) (fun _ _ _ _ => rfl) fun _ x _ _ l _ => ?_
  dsimp only
  rw [branchPc_eq]
  rfl

/-! ## Indirect transfers (R71, R72) -/

/-- A good target has no fault. -/
theorem targetFault_of_good {s : State} {g : Group} {land : Bool} {tgt : DWord} (h : goodTarget s g land tgt) :
    targetFault s g land tgt = none := by
  obtain ⟨haligned, w, hfetch, hland⟩ := h
  simp only [targetFault, hfetch, haligned, ne_eq, not_true_eq_false, if_false]
  rw [if_neg fun hw => hw.2 (hland hw.1)]

/-- The group that an indirect transfer leaves before its threads move: CALLI writes its link. -/
def indirectLinked (link : Option VReg) (x : Issue) : Group :=
  match link with
  | some d => linkInto x.g (x.ext.vnum 18 d) x.members
  | none => x.g

theorem sameButV_indirectLinked (link : Option VReg) (x : Issue) : x.g.SameButV (indirectLinked link x) := by
  cases link with
  | none => exact .refl x.g
  | some d => exact sameButV_linkInto ..

/-- An indirect transfer whose members all have good targets takes them there, and the other threads to the next word. -/
theorem movesResult_indirect {i : Instr} {a : VReg} {land : Bool} {link : Option VReg} {ws : Issue → List (Nat × Word)}
    (he : ∀ s, exec i s = indirect i a land link s) (hz : ∀ x, zeroOut i x.ext = { v := ws x }) :
    MovesResult i (fun s x => ∀ l ∈ x.members, goodTarget s x.g land (pairA x l a))
      (fun s x => s.setGroup (applyZeros i x (indirectLinked link x)))
      fun _ x l => if l ∈ x.members then pairA x l a else (x.g.thread l).pc + 4 := by
  have hsame : ∀ x : Issue, x.g.SameButV (applyZeros i x (indirectLinked link x)) := fun x =>
    (sameButV_indirectLinked link x).trans (sameButV_applyZeros (hz x) _)
  refine movesResult_of (f := fun _ x l t => { t with pc := if x.members.contains l then pairA x l a else t.pc + 4 })
    he hsame (fun s x _ hgood => ?_) fun _ x _ _ l _ => ?_
  · have hbad : (x.members.filterMap fun l =>
        (targetFault s x.g land (x.g.vpair l (x.ext.vnum 11 a))).map fun r => (l, r)) = [] :=
      List.filterMap_eq_nil_iff.mpr fun l hl => congrArg _ (targetFault_of_good (hgood l hl))
    simp only [hbad, List.map_nil, List.contains_nil, Bool.not_false, List.filter_true, List.isEmpty_nil, if_true]
    cases link with
    | none => rfl
    | some d =>
      simp only [outD, linkInto_eq]
      rfl
  · simp only [List.contains_eq_mem, decide_eq_true_eq]

/-- The same without a link and with no destination for Z to zero. -/
theorem movesResult_indirect_unlinked {i : Instr} {a : VReg} {land : Bool} (he : ∀ s, exec i s = indirect i a land none s)
    (hz : ∀ x : Issue, zeroOut i x.ext = {}) :
    MovesResult i (fun s x => ∀ l ∈ x.members, goodTarget s x.g land (pairA x l a)) (fun s x => s.setGroup x.g)
      fun _ x l => if l ∈ x.members then pairA x l a else (x.g.thread l).pc + 4 := by
  have h := movesResult_indirect he hz
  simpa only [applyZeros_of_none (hz _), indirectLinked] using h

/-! ## Instructions that only move on (R72, R75, R191) -/

/-- An instruction without an effect moves its set to the next word. -/
theorem stateResult_noEffect {i : Instr} (he : ∀ s, exec i s = noEffect i s) : StateResult i always fun s _ => s :=
  stateResult_of he fun _ _ _ _ => rfl

end Sys2Proof.Machine

open Sys2Proof Sys2Proof.Machine

/-- The direct branches of O42. -/
theorem directBranchesTakeTheirTarget : Claim.DirectBranchesTakeTheirTarget := by
  intro gd off d imm
  refine ⟨?bra, ?call, ?sbrz, ?sbrnz⟩
  case bra => exact movesResult_branch (link := false) fun _ => rfl
  case call => exact movesResult_branch (link := true) fun _ => rfl
  case sbrz =>
    have h := movesResult_uniform (i := .sbrz d imm) (onZero := true) fun _ => rfl
    simpa only [beq_true] using h
  case sbrnz =>
    have h := movesResult_uniform (i := .sbrnz d imm) (onZero := false) fun _ => rfl
    simp only [beq_false] at h
    exact h

/-- The indirect transfers of O42: JMPI and RET have no destination for Z to zero. -/
theorem indirectTransfersReachTheirTargets : Claim.IndirectTransfersReachTheirTargets := by
  intro d a
  refine ⟨?jmpi, ?ret, ?calli⟩
  case jmpi => exact movesResult_indirect_unlinked (fun _ => rfl) fun _ => rfl
  case ret => exact movesResult_indirect_unlinked (fun _ => rfl) fun _ => rfl
  case calli => exact movesResult_indirect (link := some d) (fun _ => rfl) fun _ => rfl

/-- The last part of O42. -/
theorem noEffectInstructionsOnlyAdvance : Claim.NoEffectInstructionsOnlyAdvance := fun _ _ =>
  ⟨stateResult_noEffect fun _ => rfl, stateResult_noEffect fun _ => rfl, stateResult_noEffect fun _ => rfl,
    stateResult_noEffect fun _ => rfl⟩

/-- Settles O42: every transfer is an issue that moves the threads of its set to the targets of its rule. -/
theorem transfersReachTheirTargets : Obligations.TransfersReachTheirTargets :=
  ⟨directBranchesTakeTheirTarget, indirectTransfersReachTheirTargets, noEffectInstructionsOnlyAdvance⟩

end

section
/-! PROOFS. The decoder and the encoder: each arm of the decoder finds the fields of an encoded instruction again, and the fields that it
reads make up the whole word (R29 to R47). -/
namespace Sys2Proof

/-! ## Fields of a word (R30) -/

@[simp] theorem fld_eq_iff {w : Word} {lo n : Nat} {v : BitVec n} : fld w lo n = v ↔ fldNat w lo n = v.toNat := by
  rw [fld, ← BitVec.toNat_inj, BitVec.toNat_ofNat, fldNat]

/-- A field of one bit as a truth value. -/
@[simp] theorem bit_eq_iff {w : Word} {lo : Nat} {b : Bool} : (fldNat w lo 1 == 1) = b ↔ fldNat w lo 1 = (BitVec.ofBool b).toNat := by
  have := Nat.mod_two_eq_zero_or_one (w.toNat / 2 ^ lo)
  cases b <;> simp [fldNat]

@[simp] theorem IW.ofCode_eq_iff {c : BitVec 2} {x : IW} : IW.ofCode c = x ↔ c = x.code := by revert c; cases x <;> decide
@[simp] theorem FT.ofCode_eq_iff {c : BitVec 2} {x : FT} : FT.ofCode c = x ↔ c = x.code := by revert c; cases x <;> decide
@[simp] theorem FW.ofCode_eq_iff {c : BitVec 1} {x : FW} : FW.ofCode c = x ↔ c = x.code := by revert c; cases x <;> decide
@[simp] theorem ICmp.ofCode_eq_iff {c : BitVec 3} {x : ICmp} : ICmp.ofCode c = x ↔ c = x.code := by revert c; cases x <;> decide
@[simp] theorem FCmp.ofCode_eq_iff {c : BitVec 3} {x : FCmp} : FCmp.ofCode c = x ↔ c = x.code := by revert c; cases x <;> decide
@[simp] theorem MemOrder.ofCode_eq_iff {c : BitVec 2} {x : MemOrder} : MemOrder.ofCode c = x ↔ c = x.code := by revert c; cases x <;> decide
@[simp] theorem NF.ofCode_eq_some {c : BitVec 4} {x : NF} : NF.ofCode c = some x ↔ c = x.code := by revert c; cases x <;> decide
@[simp] theorem Scope.ofCode_eq_some {c : BitVec 3} {x : Scope} : Scope.ofCode c = some x ↔ c = x.code := by revert c; cases x <;> decide
@[simp] theorem ATag.ofCode_eq_some {c : BitVec 2} {x : ATag} : ATag.ofCode c = some x ↔ c = x.code := by revert c; cases x <;> decide

@[simp] theorem withCode_eq_ok {α : Type} {lo val : Nat} {c : Option α} {k : α → Except Illegal Instr} {i : Instr} :
    withCode lo val c k = .ok i ↔ ∃ x, c = some x ∧ k x = .ok i := by
  cases c <;> simp [withCode]

@[simp] theorem ite_eq_ok {c : Prop} [Decidable c] {a b : Except Illegal Instr} {i : Instr} :
    (if c then a else b) = .ok i ↔ (c ∧ a = .ok i) ∨ (¬ c ∧ b = .ok i) := by
  by_cases hc : c <;> simp [hc]

@[simp] theorem reservedBad_eq_none {w : Word} {l : List (Nat × Nat)} : reservedBad w l = none ↔ ∀ p ∈ l, fldNat w p.1 p.2 = 0 := by
  induction l with
  | nil => simp [reservedBad]
  | cons p l ih =>
    rw [reservedBad]
    split
    case isTrue h => simp [ih, h]
    case isFalse h => simp [h]

/-! ## From an instruction to its word and back -/

/-- The word of the instruction decodes to it, and its reserved fields are 0. -/
def Decodes (i : Instr) : Prop :=
  ∀ w : Word, encodeNat i = some w.toNat → decodeFields w = .ok i ∧ reservedBad w (reservedFields i) = none

/-- The instructions of a major. -/
def decodeMajor (op : Nat) (w : Word) : Except Illegal Instr :=
  if op < 0x10 then decodePart0 op w
  else if op < 0x20 then decodePart1 op w
  else if op < 0x38 then decodePart2 op w
  else if op < 0x50 then decodePart3 op w
  else if op < 0x60 then decodePart4 op w
  else decodePart5 op w

/-- The major of a word selects its arm of the decoder. -/
theorem decodeFields_of_major {w : Word} {m r : Nat} (h : w.toNat = m * 33554432 + r) (hr : r < 33554432) (hm : m < 0x70) :
    decodeFields w = decodeMajor m w := by
  have hop : fldNat w 25 7 = m := by simp only [fldNat]; omega
  simp only [decodeFields, decodeMajor, hop, hm, if_true]

/-- R42: integer arithmetic and division. -/
theorem decodes_integer :
    (∀ (iw : IW) (d a b : VReg), ∀ i ∈ [Instr.iadd iw d a b, .isub iw d a b, .imul iw d a b, .idiv iw d a b, .irem iw d a b, .imin iw d a b,
        .imax iw d a b], Decodes i)
    ∧ (∀ (n : Bool) (d a b : VReg), ∀ i ∈ [Instr.imulhi n d a b, .imulw n d a b, .bfe n d a b], Decodes i)
    ∧ (∀ (wide : Bool) (d a b : VReg), ∀ i ∈ [Instr.shl wide d a b, .shr wide d a b, .sar wide d a b, .rol wide d a b], Decodes i) := by
  simp only [List.forall_mem_cons, List.not_mem_nil, false_implies, implies_true, and_true, forall_and]
  and_intros
  all_goals
    intros
    intro w h
    simp only [encodeNat, Option.some.injEq, Nat.add_assoc, ← BitVec.toNat_ofBool] at h
    rw [decodeFields_of_major h.symm (by omega) (by decide)]
    simp [decodeMajor, decodePart0, reservedFields, -BitVec.toNat_ofBool]
    simp only [fldNat]
    omega

/-- R42: logic, bit fields, predicates and selection. -/
theorem decodes_bits :
    (∀ (d a b : VReg), ∀ i ∈ [Instr.and d a b, .or d a b, .xor d a b, .andn d a b, .bfi d a b], Decodes i)
    ∧ (∀ (d a : VReg), ∀ i ∈ [Instr.popc d a, .clz d a, .ctz d a, .brev d a], Decodes i)
    ∧ (∀ (wide : Bool) (cmp : ICmp) (pd : PReg) (a b : VReg), Decodes (.icmpp wide cmp pd a b))
    ∧ (∀ (pd pa pb : PReg), ∀ i ∈ [Instr.pand pd pa pb, .por pd pa pb, .pxor pd pa pb, .pandn pd pa pb], Decodes i)
    ∧ (∀ (ps : PReg) (d a b : VReg), Decodes (.sel ps d a b))
    ∧ (∀ (d a : VReg) (imm : BitVec 11), Decodes (.iaddi d a imm)) := by
  simp only [List.forall_mem_cons, List.not_mem_nil, false_implies, implies_true, and_true, forall_and]
  and_intros
  all_goals
    intros
    intro w h
    simp only [encodeNat, Option.some.injEq, Nat.add_assoc, ← BitVec.toNat_ofBool] at h
    rw [decodeFields_of_major h.symm (by omega) (by decide)]
    simp [decodeMajor, decodePart0, reservedFields, -BitVec.toNat_ofBool]
    simp only [fldNat]
    omega

/-- R42: integers with an immediate. -/
theorem decodes_immediate :
    (∀ (d : VReg) (imm : BitVec 11), Decodes (.movi d imm))
    ∧ (∀ (d a : VReg) (imm : BitVec 11), ∀ i ∈ [Instr.andi d a imm, .ori d a imm, .xori d a imm, .leai d a imm], Decodes i)
    ∧ (∀ (d a : VReg) (cnt : BitVec 5), ∀ i ∈ [Instr.shli d a cnt, .shri d a cnt, .sari d a cnt, .roli d a cnt], Decodes i)
    ∧ (∀ (cmp : ICmp) (pd : PReg) (a : VReg) (imm : BitVec 11), Decodes (.icmppi cmp pd a imm))
    ∧ (∀ (sx : Bool) (sh : BitVec 3) (d a b : VReg), Decodes (.lea sx sh d a b)) := by
  simp only [List.forall_mem_cons, List.not_mem_nil, false_implies, implies_true, and_true, forall_and]
  and_intros
  all_goals
    intros
    intro w h
    simp only [encodeNat, Option.some.injEq, Nat.add_assoc, ← BitVec.toNat_ofBool] at h
    rw [decodeFields_of_major h.symm (by omega) (by decide)]
    simp [decodeMajor, decodePart1, reservedFields, -BitVec.toNat_ofBool]
    simp only [fldNat]
    omega

/-- R42: control. -/
theorem decodes_control :
    (∀ (g : Guard) (off : BitVec 20), ∀ i ∈ [Instr.bra g off, .call g off], Decodes i)
    ∧ (∀ (a : VReg), ∀ i ∈ [Instr.jmpi a, .ret a], Decodes i)
    ∧ (∀ (d a : VReg), Decodes (.calli d a))
    ∧ (∀ (a : SReg), Decodes (.join a))
    ∧ (∀ (d : VReg) (idx : BitVec 8), Decodes (.srd d idx))
    ∧ (∀ (a : VReg) (idx : BitVec 8), Decodes (.swr a idx))
    ∧ (∀ (d a b : VReg), ∀ i ∈ [Instr.resume d a b, .fqpop d a b], Decodes i)
    ∧ (∀ (d b : VReg), ∀ i ∈ [Instr.gsave d b, .gload d b], Decodes i)
    ∧ (∀ (imm : BitVec 11), Decodes (.trap imm)) := by
  simp only [List.forall_mem_cons, List.not_mem_nil, false_implies, implies_true, and_true, forall_and]
  and_intros
  all_goals
    intros
    intro w h
    simp only [encodeNat, Option.some.injEq, Nat.add_assoc] at h
    rw [decodeFields_of_major h.symm (by omega) (by decide)]
    simp [decodeMajor, decodePart1, reservedFields]
    simp only [fldNat]
    omega

/-- R43: float arithmetic. -/
theorem decodes_float :
    (∀ (ft : FT) (d a b : VReg), ∀ i ∈ [Instr.fadd ft d a b, .fsub ft d a b, .fmul ft d a b, .ffma ft d a b, .fdiv ft d a b, .fmin ft d a b,
        .fmax ft d a b, .fcpys ft d a b, .fscale ft d a b], Decodes i)
    ∧ (∀ (ft : FT) (d a : VReg), ∀ i ∈ [Instr.fsqrt ft d a, .frcp ft d a, .frsq ft d a, .fclass ft d a, .fabs ft d a, .fneg ft d a, .frnd ft d a],
        Decodes i) := by
  simp only [List.forall_mem_cons, List.not_mem_nil, false_implies, implies_true, and_true, forall_and]
  and_intros
  all_goals
    intros
    intro w h
    simp only [encodeNat, Option.some.injEq, Nat.add_assoc] at h
    rw [decodeFields_of_major h.symm (by omega) (by decide)]
    simp [decodeMajor, decodePart2, reservedFields]
    simp only [fldNat]
    omega

/-- R43: elementary functions, compares, conversions, double words and packing. -/
theorem decodes_elementary :
    (∀ (d a : VReg), ∀ i ∈ [Instr.exp2 d a, .log2 d a, .sin d a, .cos d a], Decodes i)
    ∧ (∀ (ft : FT) (cmp : FCmp) (pd : PReg) (a b : VReg), Decodes (.fcmpp ft cmp pd a b))
    ∧ (∀ (src dst : FT) (d a : VReg), Decodes (.cvtf src dst d a))
    ∧ (∀ (src : FT) (dst : IW) (d a : VReg), Decodes (.cvtfi src dst d a))
    ∧ (∀ (src : IW) (dst : FT) (d a : VReg), Decodes (.cvtif src dst d a))
    ∧ (∀ (fw : FW) (d a b : VReg), ∀ i ∈ [Instr.faddx fw d a b, .fsubx fw d a b, .fmulx fw d a b, .dwadd fw d a b, .dwsub fw d a b, .dwmul fw d a
        b, .dwfma fw d a b], Decodes i)
    ∧ (∀ (fw : FW) (d a : VReg), Decodes (.dwnorm fw d a))
    ∧ (∀ (nf : NF) (d a b : VReg), ∀ i ∈ [Instr.pack nf d a b, .unpk nf d a b], Decodes i) := by
  simp only [List.forall_mem_cons, List.not_mem_nil, false_implies, implies_true, and_true, forall_and]
  and_intros
  all_goals
    intros
    intro w h
    simp only [encodeNat, Option.some.injEq, Nat.add_assoc] at h
    rw [decodeFields_of_major h.symm (by omega) (by decide)]
    simp [decodeMajor, decodePart2, reservedFields]
    simp only [fldNat]
    omega

/-- R44: uniform instructions. -/
theorem decodes_uniform :
    (∀ (d a b : SReg), ∀ i ∈ [Instr.sadd d a b, .ssub d a b, .smul d a b, .smulhi d a b, .sand d a b, .sor d a b, .sxor d a b, .sandn d a b,
        .sshl d a b, .sshr d a b, .smin d a b, .smax d a b], Decodes i)
    ∧ (∀ (d a : SReg) (imm : BitVec 9), Decodes (.saddi d a imm))
    ∧ (∀ (d : SReg) (imm : BitVec 9), ∀ i ∈ [Instr.smovi d imm, .sbrz d imm, .sbrnz d imm], Decodes i)
    ∧ (∀ (cmp : ICmp) (pd : PReg) (a b : SReg), Decodes (.scmpp cmp pd a b)) := by
  simp only [List.forall_mem_cons, List.not_mem_nil, false_implies, implies_true, and_true, forall_and]
  and_intros
  all_goals
    intros
    intro w h
    simp only [encodeNat, Option.some.injEq, Nat.add_assoc] at h
    rw [decodeFields_of_major h.symm (by omega) (by decide)]
    simp [decodeMajor, decodePart3, reservedFields]
    simp only [fldNat]
    omega

/-- R44: uniform accesses, moves and shuffles. -/
theorem decodes_moves :
    (∀ (d a : SReg7) (off : BitVec 6) (ord : MemOrder) (sc : Scope), ∀ i ∈ [Instr.sldI32 d a off ord sc, .sldI64 d a off ord sc, .sstI32 d a off
        ord sc, .sstI64 d a off ord sc], Decodes i)
    ∧ (∀ (d : VReg) (a : SReg7), Decodes (.movsv d a))
    ∧ (∀ (d : SReg7) (a : VReg), Decodes (.movvs d a))
    ∧ (∀ (d a b : VReg), ∀ i ∈ [Instr.lgetAbs d a b, .lgetBelow d a b, .lgetAbove d a b, .lgetFlip d a b], Decodes i)
    ∧ (∀ (pd ps : PReg), ∀ i ∈ [Instr.lany pd ps, .lall pd ps], Decodes i)
    ∧ (∀ (d : VReg) (ps : PReg), Decodes (.lmask d ps))
    ∧ (∀ (pd : PReg), Decodes (.llead pd))
    ∧ (∀ (d a : VReg) (b : SReg7), Decodes (.regroup d a b)) := by
  simp only [List.forall_mem_cons, List.not_mem_nil, false_implies, implies_true, and_true, forall_and]
  and_intros
  all_goals
    intros
    intro w h
    simp only [encodeNat, Option.some.injEq, Nat.add_assoc] at h
    rw [decodeFields_of_major h.symm (by omega) (by decide)]
    simp [decodeMajor, decodePart3, reservedFields]
    simp only [fldNat]
    omega

/-- R44: reductions, scans, draws and barriers. -/
theorem decodes_cross :
    (∀ (fw : FW) (d a : VReg), ∀ i ∈ [Instr.redf fw d a, .redx fw d a], Decodes i)
    ∧ (∀ (d a : VReg), ∀ i ∈ [Instr.rediAddI32 d a, .rediMinI32 d a, .rediMaxI32 d a, .rediMinN32 d a, .rediMaxN32 d a, .rediAnd d a, .rediOr d a,
        .rediXor d a, .scaniAddI32 d a, .scaniAddI32Excl d a, .scanfF32 d a, .scanxF32 d a], Decodes i)
    ∧ (∀ (d : VReg), ∀ i ∈ [Instr.randN32 d, .randF32 d, .randN64 d, .pmovToV d], Decodes i)
    ∧ (∀ (d : SReg) (bar : BitVec 8) (lvl : BitVec 2), ∀ i ∈ [Instr.rdvMark d bar lvl, .rdvHold d bar lvl, .rdvMeet d bar lvl, .rdvPeek d bar
        lvl], Decodes i)
    ∧ (∀ (a : VReg), Decodes (.pmovToP a)) := by
  simp only [List.forall_mem_cons, List.not_mem_nil, false_implies, implies_true, and_true, forall_and]
  and_intros
  all_goals
    intros
    intro w h
    simp only [encodeNat, Option.some.injEq, Nat.add_assoc] at h
    rw [decodeFields_of_major h.symm (by omega) (by decide)]
    simp [decodeMajor, decodePart3, reservedFields]
    simp only [fldNat]
    omega

/-- R45: loads, stores and descriptors. -/
theorem decodes_memory :
    (∀ (d a : VReg) (off : BitVec 6) (ord : MemOrder) (sc : Scope), ∀ i ∈ [Instr.ldI32 d a off ord sc, .ldI64 d a off ord sc, .stI32 d a off ord
        sc, .stI64 d a off ord sc], Decodes i)
    ∧ (∀ (d a b : VReg), ∀ i ∈ [Instr.ldI8 d a b, .ldN8 d a b, .ldI16 d a b, .ldN16 d a b, .ldq d a b, .stI8 d a b, .stI16 d a b, .stq d a b, .dld
        d a b, .dst d a b, .segq d a b, .segset d a b], Decodes i)
    ∧ (∀ (a b : VReg), Decodes (.pref a b)) := by
  simp only [List.forall_mem_cons, List.not_mem_nil, false_implies, implies_true, and_true, forall_and]
  and_intros
  all_goals
    intros
    intro w h
    simp only [encodeNat, Option.some.injEq, Nat.add_assoc] at h
    rw [decodeFields_of_major h.symm (by omega) (by decide)]
    simp [decodeMajor, decodePart4, reservedFields]
    simp only [fldNat]
    omega

/-- R45: atomics and order. -/
theorem decodes_atomic :
    (∀ (d a : VReg) (ord : MemOrder) (sc : Scope), ∀ i ∈ [Instr.atomAddI32 d a ord sc, .atomMinI32 d a ord sc, .atomMaxI32 d a ord sc,
        .atomMinN32 d a ord sc, .atomMaxN32 d a ord sc, .atomAnd d a ord sc, .atomOr d a ord sc, .atomXor d a ord sc, .atomXchgI32 d a ord
        sc, .atomCasI32 d a ord sc, .atomAddF32 d a ord sc, .atomAddI64 d a ord sc, .atomXchgI64 d a ord sc, .atomCasI64 d a ord sc, .rldg d
        a ord sc], Decodes i)
    ∧ (∀ (ord : MemOrder) (sc : Scope), Decodes (.fence ord sc))
    ∧ (∀ (ld st cp mx cl : BitVec 4), Decodes (.wait ld st cp mx cl)) := by
  simp only [List.forall_mem_cons, List.not_mem_nil, false_implies, implies_true, and_true, forall_and]
  and_intros
  all_goals
    intros
    intro w h
    simp only [encodeNat, Option.some.injEq, Nat.add_assoc] at h
    rw [decodeFields_of_major h.symm (by omega) (by decide)]
    simp [decodeMajor, decodePart4, reservedFields]
    simp only [fldNat]
    omega

/-- R45: regions and copies. -/
theorem decodes_engine :
    (∀ (sh co cs : SReg), ∀ i ∈ [Instr.rinst sh co cs, .cpy sh co cs, .cpyt sh co cs, .cvtc sh co cs, .qnt sh co cs, .rmat sh co cs, .cpfill sh
        co cs], Decodes i)
    ∧ (∀ (sh cs : SReg), ∀ i ∈ [Instr.rfit sh cs, .rdem sh cs, .rabort sh cs], Decodes i)
    ∧ (∀ (d a b : SReg), Decodes (.rstat d a b))
    ∧ (∀ (d b : SReg), Decodes (.cpst d b))
    ∧ (∀ (d a : SReg), Decodes (.cpcan d a)) := by
  simp only [List.forall_mem_cons, List.not_mem_nil, false_implies, implies_true, and_true, forall_and]
  and_intros
  all_goals
    intros
    intro w h
    simp only [encodeNat, Option.some.injEq, Nat.add_assoc] at h
    rw [decodeFields_of_major h.symm (by omega) (by decide)]
    simp [decodeMajor, decodePart4, reservedFields]
    simp only [fldNat]
    omega

/-- R46: tiles and accumulators. -/
theorem decodes_matrix :
    (∀ (ovr : BitVec 5) (ta : TReg) (mb : SReg), Decodes (.tld ovr ta mb))
    ∧ (∀ (ta : TReg) (mb : SReg), Decodes (.tstr ta mb))
    ∧ (∀ (acc : AReg) (ta tb : TReg) (mb : SReg), ∀ i ∈ [Instr.mma acc ta tb mb, .mmaDw acc ta tb mb], Decodes i)
    ∧ (∀ (fmt : BitVec 5) (ta : TReg), Decodes (.tzero fmt ta))
    ∧ (∀ (tag : ATag) (acc : AReg), Decodes (.azero tag acc))
    ∧ (∀ (acc asrc : AReg), Decodes (.amov acc asrc))
    ∧ (∀ (tag : ATag) (acc : AReg) (mb : SReg), Decodes (.ald tag acc mb))
    ∧ (∀ (acc : AReg) (mb : SReg), Decodes (.ast acc mb))
    ∧ (∀ (acc adst : AReg) (mb : SReg), Decodes (.asnap acc adst mb))
    ∧ (∀ (ta tb : TReg), Decodes (.ttrn ta tb)) := by
  simp only [List.forall_mem_cons, List.not_mem_nil, false_implies, implies_true, and_true, forall_and]
  and_intros
  all_goals
    intros
    intro w h
    simp only [encodeNat, Option.some.injEq, Nat.add_assoc] at h
    rw [decodeFields_of_major h.symm (by omega) (by decide)]
    simp [decodeMajor, decodePart5, reservedFields]
    simp only [fldNat]
    omega

/-- R46: graphs, seals and collectives. -/
theorem decodes_graph :
    (∀ (sh co cs : SReg), ∀ i ∈ [Instr.gbind sh co cs, .grebind sh co cs, .coll sh co cs], Decodes i)
    ∧ (∀ (d a b : SReg), ∀ i ∈ [Instr.gstat d a b, .chstat d a b], Decodes i)
    ∧ (∀ (pd : PReg) (a : SReg), Decodes (.fire pd a))
    ∧ (∀ (a b : SReg), ∀ i ∈ [Instr.fend a b, .send a b], Decodes i)
    ∧ (∀ (pd : PReg) (a b : SReg), Decodes (.recv pd a b))
    ∧ (∀ (pdead : Bool), Decodes (.seal pdead))
    ∧ (∀ (d : SReg), Decodes (.sealreq d))
    ∧ (∀ (d b : SReg), ∀ i ∈ [Instr.rvrd d b, .clstat d b], Decodes i)
    ∧ (∀ (sh cs : SReg), Decodes (.lease sh cs))
    ∧ (∀ (d a : SReg), Decodes (.clarb d a)) := by
  simp only [List.forall_mem_cons, List.not_mem_nil, false_implies, implies_true, and_true, forall_and]
  and_intros
  all_goals
    intros
    intro w h
    simp only [encodeNat, Option.some.injEq, Nat.add_assoc, ← BitVec.toNat_ofBool] at h
    rw [decodeFields_of_major h.symm (by omega) (by decide)]
    simp [decodeMajor, decodePart5, reservedFields, -BitVec.toNat_ofBool]
    simp only [fldNat]
    omega

/-- R42: the words without an operand. -/
theorem decodes_noOperand : ∀ i ∈ [Instr.nop, .land, .yield, .exit, .brk], Decodes i := by
  simp only [List.forall_mem_cons, List.not_mem_nil, false_implies, implies_true, and_true]
  and_intros
  all_goals
    intro w h
    injection h with h
    rw [decodeFields_of_major (m := 0x1b) (r := w.toNat % 33554432) (by omega) (by omega) (by decide)]
    simp [decodeMajor, decodePart1, reservedFields]
    simp only [fldNat]
    omega

theorem fld_eq_self_iff {w : Word} {p : BitVec 25} : fld w 0 25 = p ↔ w.toNat % 2 ^ 25 = p.toNat := by
  rw [fld_eq_iff, fldNat, pow_zero, Nat.div_one]

/-- R35 to R38: the extension words; their payload is clean where their reserved bits are 0. -/
theorem decodeFields_of_ext {w : Word} {m : Nat} {p : BitVec 25} (h : m * 33554432 + p.toNat = w.toNat) (hm : 0x78 ≤ m) :
    decodeFields w =
      if m = 0x78 then .ok (.extPred p)
      else if m = 0x79 then .ok (.extImm p)
      else if m = 0x7A then .ok (.extShi p)
      else if m = 0x7B then .ok (.extHint p)
      else .error (.enc 25 m) := by
  have hop : fldNat w 25 7 = m := by simp only [fldNat]; omega
  have hp : fld w 0 25 = p := by rw [fld_eq_self_iff]; omega
  simp only [decodeFields, hop, hp]
  rw [if_neg (by omega), if_neg (by omega), if_neg (by omega), if_neg (by omega), if_neg (by omega), if_neg (by omega)]

/-- Every encoded word decodes to its instruction, and its reserved fields are 0. -/
theorem decodeFields_encodeNat {i : Instr} {w : Word} (hc : Machine.payloadClean i) (h : encodeNat i = some w.toNat) :
    decodeFields w = .ok i ∧ reservedBad w (reservedFields i) = none := by
  obtain ⟨dIadd, dImulhi, dShl⟩ := decodes_integer
  obtain ⟨dAnd, dPopc, dIcmpp, dPand, dSel, dIaddi⟩ := decodes_bits
  obtain ⟨dMovi, dAndi, dShli, dIcmppi, dLea⟩ := decodes_immediate
  obtain ⟨dBra, dJmpi, dCalli, dJoin, dSrd, dSwr, dResume, dGsave, dTrap⟩ := decodes_control
  obtain ⟨dFadd, dFsqrt⟩ := decodes_float
  obtain ⟨dExp2, dFcmpp, dCvtf, dCvtfi, dCvtif, dFaddx, dDwnorm, dPack⟩ := decodes_elementary
  obtain ⟨dSadd, dSaddi, dSmovi, dScmpp⟩ := decodes_uniform
  obtain ⟨dSldI32, dMovsv, dMovvs, dLgetAbs, dLany, dLmask, dLlead, dRegroup⟩ := decodes_moves
  obtain ⟨dRedf, dRediAddI32, dRandN32, dRdvMark, dPmovToP⟩ := decodes_cross
  obtain ⟨dLdI32, dLdI8, dPref⟩ := decodes_memory
  obtain ⟨dAtomAddI32, dFence, dWait⟩ := decodes_atomic
  obtain ⟨dRinst, dRfit, dRstat, dCpst, dCpcan⟩ := decodes_engine
  obtain ⟨dTld, dTstr, dMma, dTzero, dAzero, dAmov, dAld, dAst, dAsnap, dTtrn⟩ := decodes_matrix
  obtain ⟨dGbind, dGstat, dFire, dFend, dRecv, dSeal, dSealreq, dRvrd, dLease, dClarb⟩ := decodes_graph
  refine ?op
  cases i
  case extPred p | extImm p | extShi p | extHint p =>
    injection h with h
    refine ⟨(decodeFields_of_ext h (by decide)).trans rfl, ?_⟩
    simp [Machine.payloadClean, reservedFields, fldNat] at hc ⊢
    try omega
  case nop | land | yield | exit | brk => exact decodes_noOperand _ (by simp) w h
  case iadd iw d a b | isub iw d a b | imul iw d a b | idiv iw d a b | irem iw d a b | imin iw d a b | imax iw d a b =>
    exact dIadd iw d a b _ (by simp) w h
  case imulhi n d a b | imulw n d a b | bfe n d a b =>
    exact dImulhi n d a b _ (by simp) w h
  case shl wide d a b | shr wide d a b | sar wide d a b | rol wide d a b =>
    exact dShl wide d a b _ (by simp) w h
  case and d a b | or d a b | xor d a b | andn d a b | bfi d a b =>
    exact dAnd d a b _ (by simp) w h
  case popc d a | clz d a | ctz d a | brev d a =>
    exact dPopc d a _ (by simp) w h
  case icmpp wide cmp pd a b => exact dIcmpp wide cmp pd a b w h
  case pand pd pa pb | por pd pa pb | pxor pd pa pb | pandn pd pa pb =>
    exact dPand pd pa pb _ (by simp) w h
  case sel ps d a b => exact dSel ps d a b w h
  case iaddi d a imm => exact dIaddi d a imm w h
  case movi d imm => exact dMovi d imm w h
  case andi d a imm | ori d a imm | xori d a imm | leai d a imm =>
    exact dAndi d a imm _ (by simp) w h
  case shli d a cnt | shri d a cnt | sari d a cnt | roli d a cnt =>
    exact dShli d a cnt _ (by simp) w h
  case icmppi cmp pd a imm => exact dIcmppi cmp pd a imm w h
  case lea sx sh d a b => exact dLea sx sh d a b w h
  case bra g off | call g off =>
    exact dBra g off _ (by simp) w h
  case jmpi a | ret a =>
    exact dJmpi a _ (by simp) w h
  case calli d a => exact dCalli d a w h
  case join a => exact dJoin a w h
  case srd d idx => exact dSrd d idx w h
  case swr a idx => exact dSwr a idx w h
  case resume d a b | fqpop d a b =>
    exact dResume d a b _ (by simp) w h
  case gsave d b | gload d b =>
    exact dGsave d b _ (by simp) w h
  case trap imm => exact dTrap imm w h
  case fadd ft d a b | fsub ft d a b | fmul ft d a b | ffma ft d a b | fdiv ft d a b | fmin ft d a b | fmax ft d a b | fcpys ft d a b
    | fscale ft d a b =>
    exact dFadd ft d a b _ (by simp) w h
  case fsqrt ft d a | frcp ft d a | frsq ft d a | fclass ft d a | fabs ft d a | fneg ft d a | frnd ft d a =>
    exact dFsqrt ft d a _ (by simp) w h
  case exp2 d a | log2 d a | sin d a | cos d a =>
    exact dExp2 d a _ (by simp) w h
  case fcmpp ft cmp pd a b => exact dFcmpp ft cmp pd a b w h
  case cvtf src dst d a => exact dCvtf src dst d a w h
  case cvtfi src dst d a => exact dCvtfi src dst d a w h
  case cvtif src dst d a => exact dCvtif src dst d a w h
  case faddx fw d a b | fsubx fw d a b | fmulx fw d a b | dwadd fw d a b | dwsub fw d a b | dwmul fw d a b | dwfma fw d a b =>
    exact dFaddx fw d a b _ (by simp) w h
  case dwnorm fw d a => exact dDwnorm fw d a w h
  case pack nf d a b | unpk nf d a b =>
    exact dPack nf d a b _ (by simp) w h
  case sadd d a b | ssub d a b | smul d a b | smulhi d a b | sand d a b | sor d a b | sxor d a b | sandn d a b | sshl d a b | sshr d a b
    | smin d a b | smax d a b =>
    exact dSadd d a b _ (by simp) w h
  case saddi d a imm => exact dSaddi d a imm w h
  case smovi d imm | sbrz d imm | sbrnz d imm =>
    exact dSmovi d imm _ (by simp) w h
  case scmpp cmp pd a b => exact dScmpp cmp pd a b w h
  case sldI32 d a off ord sc | sldI64 d a off ord sc | sstI32 d a off ord sc | sstI64 d a off ord sc =>
    exact dSldI32 d a off ord sc _ (by simp) w h
  case movsv d a => exact dMovsv d a w h
  case movvs d a => exact dMovvs d a w h
  case lgetAbs d a b | lgetBelow d a b | lgetAbove d a b | lgetFlip d a b =>
    exact dLgetAbs d a b _ (by simp) w h
  case lany pd ps | lall pd ps =>
    exact dLany pd ps _ (by simp) w h
  case lmask d ps => exact dLmask d ps w h
  case llead pd => exact dLlead pd w h
  case regroup d a b => exact dRegroup d a b w h
  case redf fw d a | redx fw d a =>
    exact dRedf fw d a _ (by simp) w h
  case rediAddI32 d a | rediMinI32 d a | rediMaxI32 d a | rediMinN32 d a | rediMaxN32 d a | rediAnd d a | rediOr d a | rediXor d a
    | scaniAddI32 d a | scaniAddI32Excl d a | scanfF32 d a | scanxF32 d a =>
    exact dRediAddI32 d a _ (by simp) w h
  case randN32 d | randF32 d | randN64 d | pmovToV d =>
    exact dRandN32 d _ (by simp) w h
  case rdvMark d bar lvl | rdvHold d bar lvl | rdvMeet d bar lvl | rdvPeek d bar lvl =>
    exact dRdvMark d bar lvl _ (by simp) w h
  case pmovToP a => exact dPmovToP a w h
  case ldI32 d a off ord sc | ldI64 d a off ord sc | stI32 d a off ord sc | stI64 d a off ord sc =>
    exact dLdI32 d a off ord sc _ (by simp) w h
  case ldI8 d a b | ldN8 d a b | ldI16 d a b | ldN16 d a b | ldq d a b | stI8 d a b | stI16 d a b | stq d a b | dld d a b | dst d a b
    | segq d a b | segset d a b =>
    exact dLdI8 d a b _ (by simp) w h
  case pref a b => exact dPref a b w h
  case atomAddI32 d a ord sc | atomMinI32 d a ord sc | atomMaxI32 d a ord sc | atomMinN32 d a ord sc | atomMaxN32 d a ord sc | atomAnd d a ord sc
    | atomOr d a ord sc | atomXor d a ord sc | atomXchgI32 d a ord sc | atomCasI32 d a ord sc | atomAddF32 d a ord sc | atomAddI64 d a ord sc
    | atomXchgI64 d a ord sc | atomCasI64 d a ord sc | rldg d a ord sc =>
    exact dAtomAddI32 d a ord sc _ (by simp) w h
  case fence ord sc => exact dFence ord sc w h
  case wait ld st cp mx cl => exact dWait ld st cp mx cl w h
  case rinst sh co cs | cpy sh co cs | cpyt sh co cs | cvtc sh co cs | qnt sh co cs | rmat sh co cs | cpfill sh co cs =>
    exact dRinst sh co cs _ (by simp) w h
  case rfit sh cs | rdem sh cs | rabort sh cs =>
    exact dRfit sh cs _ (by simp) w h
  case rstat d a b => exact dRstat d a b w h
  case cpst d b => exact dCpst d b w h
  case cpcan d a => exact dCpcan d a w h
  case tld ovr ta mb => exact dTld ovr ta mb w h
  case tstr ta mb => exact dTstr ta mb w h
  case mma acc ta tb mb | mmaDw acc ta tb mb =>
    exact dMma acc ta tb mb _ (by simp) w h
  case tzero fmt ta => exact dTzero fmt ta w h
  case azero tag acc => exact dAzero tag acc w h
  case amov acc asrc => exact dAmov acc asrc w h
  case ald tag acc mb => exact dAld tag acc mb w h
  case ast acc mb => exact dAst acc mb w h
  case asnap acc adst mb => exact dAsnap acc adst mb w h
  case ttrn ta tb => exact dTtrn ta tb w h
  case gbind sh co cs | grebind sh co cs | coll sh co cs =>
    exact dGbind sh co cs _ (by simp) w h
  case gstat d a b | chstat d a b =>
    exact dGstat d a b _ (by simp) w h
  case fire pd a => exact dFire pd a w h
  case fend a b | send a b =>
    exact dFend a b _ (by simp) w h
  case recv pd a b => exact dRecv pd a b w h
  case op.seal pdead => exact dSeal pdead w h
  case sealreq d => exact dSealreq d w h
  case rvrd d b | clstat d b =>
    exact dRvrd d b _ (by simp) w h
  case lease sh cs => exact dLease sh cs w h
  case clarb d a => exact dClarb d a w h
  all_goals exact nomatch h

/-! ## From the decoder back to the word -/

@[simp] theorem fld_toNat (w : Word) (lo n : Nat) : (fld w lo n).toNat = fldNat w lo n := fld_eq_iff.mp rfl
@[simp] theorem bit_toNat (w : Word) (lo : Nat) : (fldNat w lo 1 == 1).toNat = fldNat w lo 1 := by
  rw [← BitVec.toNat_ofBool, ← bit_eq_iff.mp rfl]

@[simp] theorem IW.code_ofCode (c : BitVec 2) : (IW.ofCode c).code = c := (IW.ofCode_eq_iff.mp rfl).symm
@[simp] theorem FT.code_ofCode (c : BitVec 2) : (FT.ofCode c).code = c := (FT.ofCode_eq_iff.mp rfl).symm
@[simp] theorem FW.code_ofCode (c : BitVec 1) : (FW.ofCode c).code = c := (FW.ofCode_eq_iff.mp rfl).symm
@[simp] theorem ICmp.code_ofCode (c : BitVec 3) : (ICmp.ofCode c).code = c := (ICmp.ofCode_eq_iff.mp rfl).symm
@[simp] theorem FCmp.code_ofCode (c : BitVec 3) : (FCmp.ofCode c).code = c := (FCmp.ofCode_eq_iff.mp rfl).symm
@[simp] theorem MemOrder.code_ofCode (c : BitVec 2) : (MemOrder.ofCode c).code = c := (MemOrder.ofCode_eq_iff.mp rfl).symm

/-- What an arm of the decoder gives for a word of its major is an instruction whose word it is, where the reserved fields are 0. -/
def EncodesBack (op : Nat) (w : Word) (d : Except Illegal Instr) : Prop :=
  ∀ i, fldNat w 25 7 = op → d = .ok i → reservedBad w (reservedFields i) = none → encodeNat i = some w.toNat

@[simp] theorem encodesBack_error (op : Nat) (w : Word) (e : Illegal) : EncodesBack op w (.error e) ↔ True :=
  ⟨fun _ => trivial, fun _ _ _ h => nomatch h⟩

@[simp] theorem encodesBack_ok (op : Nat) (w : Word) (i : Instr) : EncodesBack op w (.ok i) ↔
    (fldNat w 25 7 = op → reservedBad w (reservedFields i) = none → encodeNat i = some w.toNat) :=
  ⟨fun h hop hr => h i hop rfl hr, fun h _ hop he hr => by cases he; exact h hop hr⟩

@[simp] theorem encodesBack_ite (op : Nat) (w : Word) (c : Prop) [Decidable c] (a b : Except Illegal Instr) :
    EncodesBack op w (if c then a else b) ↔ (c → EncodesBack op w a) ∧ (¬ c → EncodesBack op w b) := by
  by_cases hc : c <;> simp [hc]

@[simp] theorem encodesBack_withCode {α : Type} (op : Nat) (w : Word) (lo val : Nat) (c : Option α) (k : α → Except Illegal Instr) :
    EncodesBack op w (withCode lo val c k) ↔ ∀ x, c = some x → EncodesBack op w (k x) := by
  cases c <;> simp [withCode]

/-- A field is its low part and its high part. -/
theorem fldNat_add (w : Word) (lo m n : Nat) : fldNat w lo (m + n) = fldNat w lo m + 2 ^ m * fldNat w (lo + m) n := by
  rw [fldNat, fldNat, fldNat, Nat.pow_add, Nat.mod_mul, Nat.div_div_eq_div_mul, ← Nat.pow_add]

theorem toNat_eq_fldNat (w : Word) : w.toNat = fldNat w 0 32 := by
  rw [fldNat, pow_zero, Nat.div_one, Nat.mod_eq_of_lt w.isLt]

/-- How the formats of these majors divide a word. -/
theorem fields_part0 (w : Word) :
    w.toNat = fldNat w 0 32 ∧ fldNat w 0 32 = fldNat w 0 25 + 33554432 * fldNat w 25 7
    ∧ fldNat w 0 25 = fldNat w 0 18 + 262144 * fldNat w 18 7
    ∧ fldNat w 0 18 = fldNat w 0 11 + 2048 * fldNat w 11 7
    ∧ fldNat w 0 11 = fldNat w 0 4 + 16 * fldNat w 4 7
    ∧ fldNat w 0 4 = fldNat w 0 2 + 4 * fldNat w 2 2
    ∧ fldNat w 2 2 = fldNat w 2 1 + 2 * fldNat w 3 1
    ∧ fldNat w 0 4 = fldNat w 0 1 + 2 * fldNat w 1 3
    ∧ fldNat w 0 4 = fldNat w 0 3 + 8 * fldNat w 3 1
    ∧ fldNat w 18 7 = fldNat w 18 4 + 16 * fldNat w 22 3
    ∧ fldNat w 11 7 = fldNat w 11 4 + 16 * fldNat w 15 3
    ∧ fldNat w 4 7 = fldNat w 4 4 + 16 * fldNat w 8 3 :=
  ⟨toNat_eq_fldNat w, fldNat_add w 0 25 7, fldNat_add w 0 18 7, fldNat_add w 0 11 7, fldNat_add w 0 4 7, fldNat_add w 0 2 2,
    fldNat_add w 2 1 1, fldNat_add w 0 1 3, fldNat_add w 0 3 1, fldNat_add w 18 4 3, fldNat_add w 11 4 3, fldNat_add w 4 4 3⟩

theorem encodesBack_part0 (op : Nat) (w : Word) : EncodesBack op w (decodePart0 op w) := by
  unfold decodePart0
  split
  all_goals
    simp only [encodesBack_ok, encodesBack_error, encodesBack_ite, reservedBad_eq_none, reservedFields, imp_and, implies_true, and_true]
    and_intros
  all_goals
    intros
    simp_all [encodeNat]
  all_goals
    have hw := fields_part0 w
    omega

/-- How the formats of these majors divide a word. -/
theorem fields_part1 (w : Word) :
    w.toNat = fldNat w 0 32 ∧ fldNat w 0 32 = fldNat w 0 25 + 33554432 * fldNat w 25 7
    ∧ fldNat w 0 25 = fldNat w 0 18 + 262144 * fldNat w 18 7
    ∧ fldNat w 0 18 = fldNat w 0 11 + 2048 * fldNat w 11 7
    ∧ fldNat w 0 11 = fldNat w 0 4 + 16 * fldNat w 4 7
    ∧ fldNat w 0 11 = fldNat w 0 9 + 512 * fldNat w 9 2
    ∧ fldNat w 0 9 = fldNat w 0 5 + 32 * fldNat w 5 4
    ∧ fldNat w 0 11 = fldNat w 0 8 + 256 * fldNat w 8 3
    ∧ fldNat w 8 3 = fldNat w 8 2 + 4 * fldNat w 10 1
    ∧ fldNat w 18 7 = fldNat w 18 4 + 16 * fldNat w 22 3
    ∧ fldNat w 0 4 = fldNat w 0 3 + 8 * fldNat w 3 1
    ∧ fldNat w 0 25 = fldNat w 0 20 + 1048576 * fldNat w 20 5
    ∧ fldNat w 0 25 = fldNat w 0 17 + 131072 * fldNat w 17 8
    ∧ fldNat w 0 17 = fldNat w 0 9 + 512 * fldNat w 9 8
    ∧ fldNat w 0 9 = fldNat w 0 1 + 2 * fldNat w 1 8 :=
  ⟨toNat_eq_fldNat w, fldNat_add w 0 25 7, fldNat_add w 0 18 7, fldNat_add w 0 11 7, fldNat_add w 0 4 7, fldNat_add w 0 9 2,
    fldNat_add w 0 5 4, fldNat_add w 0 8 3, fldNat_add w 8 2 1, fldNat_add w 18 4 3, fldNat_add w 0 3 1,
    fldNat_add w 0 20 5, fldNat_add w 0 17 8, fldNat_add w 0 9 8, fldNat_add w 0 1 8⟩

theorem encodesBack_part1 (op : Nat) (w : Word) : EncodesBack op w (decodePart1 op w) := by
  unfold decodePart1
  split
  all_goals
    simp only [encodesBack_ok, encodesBack_error, encodesBack_ite, reservedBad_eq_none, reservedFields, imp_and, implies_true, and_true]
    and_intros
  all_goals
    intros
    simp_all [encodeNat]
  all_goals
    have hw := fields_part1 w
    omega

/-- How the formats of these majors divide a word. -/
theorem fields_part2 (w : Word) :
    w.toNat = fldNat w 0 32 ∧ fldNat w 0 32 = fldNat w 0 25 + 33554432 * fldNat w 25 7
    ∧ fldNat w 0 25 = fldNat w 0 18 + 262144 * fldNat w 18 7
    ∧ fldNat w 0 18 = fldNat w 0 11 + 2048 * fldNat w 11 7
    ∧ fldNat w 0 11 = fldNat w 0 4 + 16 * fldNat w 4 7
    ∧ fldNat w 0 4 = fldNat w 0 2 + 4 * fldNat w 2 2
    ∧ fldNat w 2 2 = fldNat w 2 1 + 2 * fldNat w 3 1
    ∧ fldNat w 18 7 = fldNat w 18 4 + 16 * fldNat w 22 3
    ∧ fldNat w 0 4 = fldNat w 0 1 + 2 * fldNat w 1 3
    ∧ fldNat w 1 3 = fldNat w 1 1 + 2 * fldNat w 2 2 :=
  ⟨toNat_eq_fldNat w, fldNat_add w 0 25 7, fldNat_add w 0 18 7, fldNat_add w 0 11 7, fldNat_add w 0 4 7, fldNat_add w 0 2 2,
    fldNat_add w 2 1 1, fldNat_add w 18 4 3, fldNat_add w 0 1 3, fldNat_add w 1 1 2⟩

theorem encodesBack_part2 (op : Nat) (w : Word) : EncodesBack op w (decodePart2 op w) := by
  unfold decodePart2
  split
  all_goals
    simp only [encodesBack_ok, encodesBack_error, encodesBack_ite, encodesBack_withCode, reservedBad_eq_none, reservedFields, imp_and, implies_true, and_true]
    and_intros
  all_goals
    intros
    simp_all [encodeNat]
  all_goals
    have hw := fields_part2 w
    omega

/-- How the formats of these majors divide a word. -/
theorem fields_part3 (w : Word) :
    w.toNat = fldNat w 0 32 ∧ fldNat w 0 32 = fldNat w 0 25 + 33554432 * fldNat w 25 7
    ∧ fldNat w 0 25 = fldNat w 0 18 + 262144 * fldNat w 18 7
    ∧ fldNat w 0 18 = fldNat w 0 11 + 2048 * fldNat w 11 7
    ∧ fldNat w 0 11 = fldNat w 0 4 + 16 * fldNat w 4 7
    ∧ fldNat w 0 25 = fldNat w 0 17 + 131072 * fldNat w 17 8
    ∧ fldNat w 0 17 = fldNat w 0 9 + 512 * fldNat w 9 8
    ∧ fldNat w 0 9 = fldNat w 0 1 + 2 * fldNat w 1 8
    ∧ fldNat w 21 4 = fldNat w 21 3 + 8 * fldNat w 24 1
    ∧ fldNat w 17 8 = fldNat w 17 4 + 16 * fldNat w 21 4
    ∧ fldNat w 0 11 = fldNat w 0 5 + 32 * fldNat w 5 6
    ∧ fldNat w 0 5 = fldNat w 0 3 + 8 * fldNat w 3 2
    ∧ fldNat w 18 7 = fldNat w 18 4 + 16 * fldNat w 22 3
    ∧ fldNat w 11 7 = fldNat w 11 4 + 16 * fldNat w 15 3
    ∧ fldNat w 0 4 = fldNat w 0 1 + 2 * fldNat w 1 3
    ∧ fldNat w 0 7 = fldNat w 0 5 + 32 * fldNat w 5 2
    ∧ fldNat w 0 9 = fldNat w 0 7 + 128 * fldNat w 7 2 :=
  ⟨toNat_eq_fldNat w, fldNat_add w 0 25 7, fldNat_add w 0 18 7, fldNat_add w 0 11 7, fldNat_add w 0 4 7, fldNat_add w 0 17 8,
    fldNat_add w 0 9 8, fldNat_add w 0 1 8, fldNat_add w 21 3 1, fldNat_add w 17 4 4, fldNat_add w 0 5 6, fldNat_add w 0 3 2,
    fldNat_add w 18 4 3, fldNat_add w 11 4 3, fldNat_add w 0 1 3, fldNat_add w 0 5 2, fldNat_add w 0 7 2⟩

theorem encodesBack_part3 (op : Nat) (w : Word) : EncodesBack op w (decodePart3 op w) := by
  unfold decodePart3
  split
  all_goals
    simp only [encodesBack_ok, encodesBack_error, encodesBack_ite, encodesBack_withCode, reservedBad_eq_none, reservedFields, imp_and, implies_true, and_true]
    and_intros
  all_goals
    intros
    simp_all [encodeNat]
  all_goals
    have hw := fields_part3 w
    omega

/-- How the formats of these majors divide a word. -/
theorem fields_part4 (w : Word) :
    w.toNat = fldNat w 0 32 ∧ fldNat w 0 32 = fldNat w 0 25 + 33554432 * fldNat w 25 7
    ∧ fldNat w 0 25 = fldNat w 0 18 + 262144 * fldNat w 18 7
    ∧ fldNat w 0 18 = fldNat w 0 11 + 2048 * fldNat w 11 7
    ∧ fldNat w 0 11 = fldNat w 0 4 + 16 * fldNat w 4 7
    ∧ fldNat w 0 11 = fldNat w 0 5 + 32 * fldNat w 5 6
    ∧ fldNat w 0 5 = fldNat w 0 3 + 8 * fldNat w 3 2
    ∧ fldNat w 0 25 = fldNat w 0 17 + 131072 * fldNat w 17 8
    ∧ fldNat w 0 17 = fldNat w 0 9 + 512 * fldNat w 9 8
    ∧ fldNat w 0 9 = fldNat w 0 1 + 2 * fldNat w 1 8
    ∧ fldNat w 0 8 = fldNat w 0 4 + 16 * fldNat w 4 4
    ∧ fldNat w 0 12 = fldNat w 0 8 + 256 * fldNat w 8 4
    ∧ fldNat w 0 16 = fldNat w 0 12 + 4096 * fldNat w 12 4
    ∧ fldNat w 0 20 = fldNat w 0 16 + 65536 * fldNat w 16 4
    ∧ fldNat w 0 25 = fldNat w 0 20 + 1048576 * fldNat w 20 5 :=
  ⟨toNat_eq_fldNat w, fldNat_add w 0 25 7, fldNat_add w 0 18 7, fldNat_add w 0 11 7, fldNat_add w 0 4 7, fldNat_add w 0 5 6,
    fldNat_add w 0 3 2, fldNat_add w 0 17 8, fldNat_add w 0 9 8, fldNat_add w 0 1 8, fldNat_add w 0 4 4, fldNat_add w 0 8 4,
    fldNat_add w 0 12 4, fldNat_add w 0 16 4, fldNat_add w 0 20 5⟩

theorem encodesBack_part4 (op : Nat) (w : Word) : EncodesBack op w (decodePart4 op w) := by
  unfold decodePart4
  split
  all_goals
    simp only [encodesBack_ok, encodesBack_error, encodesBack_ite, encodesBack_withCode, reservedBad_eq_none, reservedFields, imp_and, implies_true, and_true]
    and_intros
  all_goals
    intros
    simp_all [encodeNat]
  all_goals
    have hw := fields_part4 w
    omega

/-- How the formats of these majors divide a word. -/
theorem fields_part5 (w : Word) :
    w.toNat = fldNat w 0 32 ∧ fldNat w 0 32 = fldNat w 0 25 + 33554432 * fldNat w 25 7
    ∧ fldNat w 0 25 = fldNat w 0 17 + 131072 * fldNat w 17 8
    ∧ fldNat w 0 17 = fldNat w 0 9 + 512 * fldNat w 9 8
    ∧ fldNat w 0 9 = fldNat w 0 1 + 2 * fldNat w 1 8
    ∧ fldNat w 0 25 = fldNat w 0 22 + 4194304 * fldNat w 22 3
    ∧ fldNat w 0 22 = fldNat w 0 18 + 262144 * fldNat w 18 4
    ∧ fldNat w 0 18 = fldNat w 0 14 + 16384 * fldNat w 14 4
    ∧ fldNat w 0 14 = fldNat w 0 6 + 64 * fldNat w 6 8
    ∧ fldNat w 0 6 = fldNat w 0 1 + 2 * fldNat w 1 5
    ∧ fldNat w 1 5 = fldNat w 1 2 + 4 * fldNat w 3 3
    ∧ fldNat w 17 8 = fldNat w 17 4 + 16 * fldNat w 21 4
    ∧ fldNat w 18 4 = fldNat w 18 3 + 8 * fldNat w 21 1 :=
  ⟨toNat_eq_fldNat w, fldNat_add w 0 25 7, fldNat_add w 0 17 8, fldNat_add w 0 9 8, fldNat_add w 0 1 8, fldNat_add w 0 22 3,
    fldNat_add w 0 18 4, fldNat_add w 0 14 4, fldNat_add w 0 6 8, fldNat_add w 0 1 5, fldNat_add w 1 2 3, fldNat_add w 17 4 4,
    fldNat_add w 18 3 1⟩

theorem encodesBack_part5 (op : Nat) (w : Word) : EncodesBack op w (decodePart5 op w) := by
  unfold decodePart5
  split
  all_goals
    simp only [encodesBack_ok, encodesBack_error, encodesBack_ite, encodesBack_withCode, reservedBad_eq_none, reservedFields, implies_true, and_true]
    and_intros
  all_goals
    intros
    simp_all [encodeNat]
  all_goals
    have hw := fields_part5 w
    omega

/-- An encoding fits a word. -/
theorem encodeNat_lt {i : Instr} {n : Nat} (h : encodeNat i = some n) : n < 2 ^ 32 := by
  refine ?op
  cases i
  case imulhi u _ _ _ | imulw u _ _ _ | bfe u _ _ _ | shl u _ _ _ | shr u _ _ _ | sar u _ _ _ | rol u _ _ _ | icmpp u _ _ _ _ | lea u _ _ _ _ | op.seal u =>
    have := Bool.toNat_le u
    injection h
    omega
  all_goals
    injection h
    all_goals omega

theorem encode_eq_some_iff {i : Instr} {w : Word} : encode i = some w ↔ encodeNat i = some w.toNat := by
  rw [encode, Option.map_eq_some_iff]
  constructor
  · rintro ⟨n, hn, rfl⟩
    rw [hn, BitVec.toNat_ofNat, Nat.mod_eq_of_lt (encodeNat_lt hn)]
  · exact fun h => ⟨_, h, by simp⟩

theorem decode_eq_ok_iff {i : Instr} {w : Word} :
    decode w = .ok i ↔ decodeFields w = .ok i ∧ i.WellFormed ∧ reservedBad w (reservedFields i) = none := by
  rw [decode]
  split
  case h_1 e he => simp [he]
  case h_2 j hj =>
    rw [hj]
    constructor
    · intro h
      split at h
      · cases h
      next hb =>
        split at h
        · cases h
        next hr =>
          cases h
          exact ⟨rfl, hb, hr⟩
    · rintro ⟨hi, hb, hr⟩
      cases hi
      rw [hb, hr]

/-- A word that the decoder reads is the word of its instruction, and the payload of an extension word is clean. -/
theorem encodeNat_decodeFields {i : Instr} {w : Word} (h : decodeFields w = .ok i) (hr : reservedBad w (reservedFields i) = none) :
    encodeNat i = some w.toNat := by
  have hw : w.toNat = fldNat w 0 25 + 33554432 * fldNat w 25 7 := (toNat_eq_fldNat w).trans (fldNat_add w 0 25 7)
  rw [decodeFields] at h
  split at h
  · exact encodesBack_part0 _ w i rfl h hr
  split at h
  · exact encodesBack_part1 _ w i rfl h hr
  split at h
  · exact encodesBack_part2 _ w i rfl h hr
  split at h
  · exact encodesBack_part3 _ w i rfl h hr
  split at h
  · exact encodesBack_part4 _ w i rfl h hr
  split at h
  · exact encodesBack_part5 _ w i rfl h hr
  all_goals repeat' split at h
  all_goals
    cases h
  all_goals
    simp [encodeNat]
    omega

theorem payloadClean_of_reserved {i : Instr} {w : Word} (h : encodeNat i = some w.toNat) (hr : reservedBad w (reservedFields i) = none) :
    Machine.payloadClean i := by
  cases i with
  | extPred p | extShi p | extHint p =>
    injection h
    simp [reservedFields, fldNat] at hr
    simp only [Machine.payloadClean]
    omega
  | _ => exact trivial

end Sys2Proof

open Sys2Proof Sys2Proof.Machine

/-- Settles O20: each arm of the decoder, on the sum of an instruction's fields at their places, finds these fields again. -/
theorem decodeUndoesEncode : Obligations.DecodeUndoesEncode := by
  intro i w hwf hc h
  obtain ⟨hf, hr⟩ := decodeFields_encodeNat hc (encode_eq_some_iff.mp h)
  exact decode_eq_ok_iff.mpr ⟨hf, hwf, hr⟩

/-- Settles O21: the fields that an arm of the decoder reads, with the reserved ones at 0, make up the whole word. -/
theorem encodeUndoesDecode : Obligations.EncodeUndoesDecode := by
  intro i w h
  obtain ⟨hf, hwf, hr⟩ := decode_eq_ok_iff.mp h
  have he := encodeNat_decodeFields hf hr
  exact ⟨hwf, payloadClean_of_reserved he hr, encode_eq_some_iff.mpr he⟩

end

section
/-! PROOFS. Integer sums, products, minima and maxima on numbers as those of R58 on the integers that the operands hold. -/
namespace Sys2Proof.Machine

/-! ## Saturation (R58) -/

/-- A sum brought into the range of its width, or not. -/
theorem sumOf_eq (iw : IW) (sat : Bool) (v : Int) : sumOf iw sat v = if sat then clampTo iw v else v := by
  have clamp : ∀ lo hi : Int, lo ≤ hi → clampInt lo hi v = if v < lo then lo else if hi < v then hi else v := fun lo hi h => by
    unfold clampInt
    split
    · omega
    · split <;> omega
  cases sat with
  | false => rfl
  | true => cases iw <;> exact clamp _ _ (by decide)

/-- A sum narrowed to its width as the result of that width. -/
theorem outD_narrow (iw : IW) (x : Issue) (d : VReg) (sat : Bool) (v : Int) :
    outD x d iw.regs (narrow iw sat v) = resInt iw x d (sumOf iw sat v) := by
  rw [sumOf_eq, narrow, outD_wrapTo]

/-! ## Operands as integers (R57) -/

/-- An operand of a width is below 2 to the width. -/
theorem vnat_lt (x : Issue) (l r : Nat) (iw : IW) : vnat x l r iw.regs < 2 ^ iwBits iw := by
  cases iw with
  | i32 | n32 => exact (x.g.vget l r).isLt
  | i64 | n64 => exact (x.g.vpair l r).isLt

/-- An operand is the integer that it holds, modulo 2 to the width. -/
theorem iwInt_emod (iw : IW) (n : Nat) : iwInt iw n % (2 ^ iwBits iw : Nat) = (n : Int) % (2 ^ iwBits iw : Nat) := by
  have hmod : ((n % 2 ^ iwBits iw : Nat) : Int) % (2 ^ iwBits iw : Nat) = (n : Int) % (2 ^ iwBits iw : Nat) := by
    rw [Int.natCast_mod, Int.emod_emod]
  unfold iwInt toSigned
  split
  · split
    · exact hmod
    · rw [Int.sub_emod_right, hmod]
  · exact hmod

theorem wrapTo_iwInt {iw : IW} {n : Nat} (h : n < 2 ^ iwBits iw) : wrapTo (iwBits iw) (iwInt iw n) = n := by
  rw [wrapTo, iwInt_emod, ← Int.natCast_mod, Nat.mod_eq_of_lt h, Int.toNat_natCast]

/-- An operand copied as the result. -/
theorem outD_vnat (iw : IW) (x : Issue) (d : VReg) (l r : Nat) :
    outD x d iw.regs (vnat x l r iw.regs) = resInt iw x d (iwInt iw (vnat x l r iw.regs)) := by
  rw [← outD_wrapTo, wrapTo_iwInt (vnat_lt x l r iw)]

/-- The low half of a product does not depend on how the operands are read. -/
theorem mul_mod_eq_wrapTo (iw : IW) (a b : Nat) : a * b % 2 ^ iwBits iw = wrapTo (iwBits iw) (iwInt iw a * iwInt iw b) := by
  rw [wrapTo, Int.mul_emod, iwInt_emod, iwInt_emod, ← Int.mul_emod, ← Int.natCast_mul, ← Int.natCast_mod, Int.toNat_natCast]

/-! ## Products of 64 bits (R58) -/

theorem product64_eq (u : Bool) (a b : Word) : product64 u a.toNat b.toNat = (productOf u a b).toNat := by
  cases u with
  | true =>
    have h : a.toNat * b.toNat < 2 ^ 64 := (Nat.mul_lt_mul'' a.isLt b.isLt).trans_eq (by norm_num)
    simp only [product64, productOf, if_true, BitVec.toNat_mul, BitVec.toNat_setWidth]
    have ha := a.isLt
    have hb := b.isLt
    rw [Nat.mod_eq_of_lt (show a.toNat < 2 ^ 64 by omega), Nat.mod_eq_of_lt (show b.toNat < 2 ^ 64 by omega), Nat.mod_eq_of_lt h]
  | false =>
    simp only [product64, productOf, Bool.false_eq_true, if_false, toSigned_word, wrapTo_eq_toNat, BitVec.ofInt_mul]
    rfl

theorem hiWord_toNat (v : DWord) : (hiWord v).toNat = v.toNat / 4294967296 := by
  have := v.isLt
  simp only [hiWord, BitVec.toNat_ofNat]
  omega

/-- An instruction on two operands of a width completes with the result that R58 gives for the integers that they hold. -/
theorem laneResult_binop {i : Instr} {iw : IW} {d a b : VReg} {f : Ext → Nat → Nat → Nat} {v : Issue → Nat → Int}
    (hs : slotsSound (slots i) = true) (hd : dslot .v 18 d.toNat iw.regs iw.regs iw.regs ∈ slots i)
    (he : ∀ s, exec i s = binop i iw d a b f s)
    (hv : ∀ x l, outD x d iw.regs (f x.ext (srcA x l a iw.regs) (srcB x l b iw.regs)) = resInt iw x d (v x l)) :
    LaneResult i fun x l => resInt iw x d (v x l) := laneResult_outD hs hd (iwRegs_pos iw) he hv

end Sys2Proof.Machine

open Sys2Proof Sys2Proof.Machine Sys2Proof.Laws

/-- Settles O1: each operation on numbers is that of R58 on the integers that the operands hold. -/
theorem integerArithmeticIsExact : Obligations.IntegerArithmeticIsExact := by
  intro iw d a b u imm
  refine ⟨?iadd, ?isub, ?imul, ?imin, ?imax, ?imulhi, ?imulw, ?iaddi⟩
  case iadd =>
    exact laneResult_binop (f := fun e x y => narrow iw e.sat (iwInt iw x + iwInt iw y))
      (SlotsSound.iadd iw d a b) (List.mem_cons_self ..) (fun _ => rfl) fun x l => by
      rw [iwInt_srcA, iwInt_srcB, outD_narrow]
  case isub =>
    exact laneResult_binop (f := fun e x y => narrow iw e.sat (iwInt iw x - iwInt iw y))
      (SlotsSound.isub iw d a b) (List.mem_cons_self ..) (fun _ => rfl) fun x l => by
      rw [iwInt_srcA, iwInt_srcB, outD_narrow]
  case imul =>
    exact laneResult_binop (f := fun _ x y => x * y % 2 ^ iwBits iw)
      (SlotsSound.imul iw d a b) (List.mem_cons_self ..) (fun _ => rfl) fun x l => by
      rw [mul_mod_eq_wrapTo, iwInt_srcA, iwInt_srcB, outD_wrapTo]
  case imin =>
    exact laneResult_binop (f := fun _ x y => if iwInt iw x ≤ iwInt iw y then x else y)
      (SlotsSound.imin iw d a b) (List.mem_cons_self ..) (fun _ => rfl) fun x l => by
      rw [← iwInt_srcA, ← iwInt_srcB, Int.min_def]
      split <;> exact outD_vnat ..
  case imax =>
    exact laneResult_binop (f := fun _ x y => if iwInt iw x ≤ iwInt iw y then y else x)
      (SlotsSound.imax iw d a b) (List.mem_cons_self ..) (fun _ => rfl) fun x l => by
      rw [← iwInt_srcA, ← iwInt_srcB, Int.max_def]
      split <;> exact outD_vnat ..
  case imulhi =>
    exact laneResult_word (SlotsSound.imulhi u d a b) (List.mem_cons_self ..) (fun _ => rfl) fun x l => by
      rw [srcA_one, srcB_one, product64_eq, hiWord_toNat]
  case imulw =>
    exact laneResult_dword (SlotsSound.imulw u d a b) (List.mem_cons_self ..) (fun _ => rfl) fun x l => by
      rw [srcA_one, srcB_one, product64_eq]
  case iaddi =>
    refine laneResult_word (SlotsSound.iaddi d a imm) (List.mem_cons_self ..) (fun _ => rfl) fun x l => ?_
    split
    · rw [srcA_one, toSigned_word, narrow, if_pos rfl, show iwBits .i32 = 32 from rfl, wrapTo_eq_toNat]
      exact congrArg (fun v => (BitVec.ofInt 32 v).toNat) (sumOf_eq .i32 true _).symm
    · rw [srcA_one, imm32_eq, BitVec.toNat_add]

end

section
/-! PROOFS. Per-thread instructions whose results in V registers come with flags or draws, and the float and double-word instructions,
which complete with what the helpers of R94 to R120 give (R106 to R108, R118 to R120). -/
namespace Sys2Proof.Machine

/-! ## Results in the registers from D on -/

/-- The results of a lane lie in the n V registers from D on. -/
def LaneOut.inD (o : LaneOut) (r n : Nat) : Prop := o.p = [] ∧ ∀ w ∈ o.v, r ≤ w.1 ∧ w.1 < r + n

theorem LaneOut.inD_of_vout {o : LaneOut} {r n v : Nat} (hv : o.v = vout r n v) (hp : o.p = []) (hn : 0 < n) : o.inD r n := by
  refine ⟨hp, fun w hw => ?_⟩
  rw [hv, vout] at hw
  split at hw
  case isTrue h2 =>
    rcases List.mem_pair.mp hw with rfl | rfl
    · exact ⟨le_rfl, by simp; omega⟩
    · exact ⟨by simp, by simp; omega⟩
  case isFalse =>
    rw [List.mem_singleton.mp hw]
    exact ⟨le_rfl, by simp; omega⟩

/-- Results in two values of n registers each. -/
theorem LaneOut.inD_of_vout_pair {o : LaneOut} {r n v w : Nat} (hv : o.v = vout r n v ++ vout (r + n) n w) (hp : o.p = []) (hn : 0 < n) :
    o.inD r (2 * n) := by
  have hlo := (inD_of_vout (o := { v := vout r n v }) rfl rfl hn).2
  have hhi := (inD_of_vout (o := { v := vout (r + n) n w }) rfl rfl hn).2
  refine ⟨hp, fun u hu => ?_⟩
  rw [hv] at hu
  rcases List.mem_append.mp hu with hu | hu
  · have := hlo u hu
    omega
  · have := hhi u hu
    omega

theorem Issues.inD_fits {s : State} {x : Issue} {i : Instr} (h : Issues s x i) {d : VReg} {n : Nat}
    (hd : dslot .v 18 d.toNat n n n ∈ slots i) {o : LaneOut} (ho : o.inD (x.ext.vnum 18 d) n) : o.fits := by
  have hr : x.ext.vnum 18 d + n ≤ 256 := h.vslot_fits hd rfl
  refine ⟨fun w hw => ?_, fun w hw => absurd hw (ho.1 ▸ List.not_mem_nil)⟩
  have := ho.2 w hw
  omega

/-- A per-thread instruction that also reads the machine completes with its results. -/
theorem laneResultIn_of {i : Instr} {f : State → Issue → Nat → LaneOut} (hs : slotsSound (slots i) = true)
    (he : ∀ s, exec i s = perLane i (f s) s) (hf : ∀ s x l, Issues s x i → (f s x l).fits) : LaneResultIn i f := by
  intro s x h
  rw [he]
  exact perLane_step h (f s) (h.zero_fits hs) fun l _ => hf s x l h

theorem laneResultIn_inD {i : Instr} {d : VReg} {n : Nat} {f : State → Issue → Nat → LaneOut} (hs : slotsSound (slots i) = true)
    (hd : dslot .v 18 d.toNat n n n ∈ slots i) (he : ∀ s, exec i s = perLane i (f s) s)
    (hf : ∀ s x l, (f s x l).inD (x.ext.vnum 18 d) n) : LaneResultIn i f :=
  laneResultIn_of hs he fun s x l h => h.inD_fits hd (hf s x l)

theorem laneResult_inD {i : Instr} {d : VReg} {n : Nat} {f : Issue → Nat → LaneOut} (hs : slotsSound (slots i) = true)
    (hd : dslot .v 18 d.toNat n n n ∈ slots i) (he : ∀ s, exec i s = perLane i f s) (hf : ∀ x l, (f x l).inD (x.ext.vnum 18 d) n) :
    LaneResult i f := laneResultIn_inD hs hd he fun _ => hf

/-! ## Float results (R106 to R108) -/

theorem ftRegs_pos (ft : FT) : 0 < ft.regs := by cases ft <;> decide
theorem fwRegs_pos (fw : FW) : 0 < fw.regs := by cases fw <;> decide

theorem outF_inD (x : Issue) (d : VReg) (ft : FT) (c : Coded) : (outF x d ft c).inD (x.ext.vnum 18 d) ft.regs :=
  LaneOut.inD_of_vout rfl rfl (ftRegs_pos ft)

theorem outPair_inD (x : Issue) (d : VReg) (fw : FW) (p : Pair) : (outPair x d fw p).inD (x.ext.vnum 18 d) (2 * fw.regs) :=
  LaneOut.inD_of_vout_pair rfl rfl (fwRegs_pos fw)

/-- An instruction that delivers a float completes with it. -/
theorem laneResult_outF {i : Instr} {d : VReg} {ft : FT} {c : Issue → Nat → Coded} (hs : slotsSound (slots i) = true)
    (hd : dslot .v 18 d.toNat ft.regs ft.regs ft.regs ∈ slots i) (he : ∀ s, exec i s = perLane i (fun x l => outF x d ft (c x l)) s) :
    LaneResult i fun x l => outF x d ft (c x l) := laneResult_inD hs hd he fun _ _ => outF_inD ..

/-- An instruction that rounds an exact value once completes with it. -/
theorem laneResult_resFloat {i : Instr} {d : VReg} {ft : FT} {r : Issue → Nat → FVal × Word} (hs : slotsSound (slots i) = true)
    (hd : dslot .v 18 d.toNat ft.regs ft.regs ft.regs ∈ slots i) (he : ∀ s, exec i s = perLane i (fun x l => resFloat x l d ft (r x l)) s) :
    LaneResult i fun x l => resFloat x l d ft (r x l) := laneResult_outF hs hd he

/-- An instruction that delivers two codes completes with both. -/
theorem laneResult_outPair {i : Instr} {d : VReg} {fw : FW} {p : Issue → Nat → Pair} (hs : slotsSound (slots i) = true)
    (hd : dslot .v 18 d.toNat (2 * fw.regs) (2 * fw.regs) (2 * fw.regs) ∈ slots i)
    (he : ∀ s, exec i s = perLane i (fun x l => outPair x d fw (p x l)) s) : LaneResult i fun x l => outPair x d fw (p x l) :=
  laneResult_inD hs hd he fun _ _ => outPair_inD ..

/-- The addend of FFMA is V[Q], or D where no fourth operand is named. -/
theorem addend_eq (x : Issue) (l : Nat) (d : VReg) (ft : FT) :
    (match x.ext.q? with
      | some q => vnat x l q ft.regs
      | none => srcD x l d ft.regs) = vnat x l (x.ext.q?.getD (x.ext.vnum 18 d)) ft.regs := by
  cases x.ext.q? <;> rfl

end Sys2Proof.Machine

open Sys2Proof Sys2Proof.Machine Sys2Proof.Laws

/-- Settles O5: each instruction rounds the exact value of its helper once. -/
theorem floatArithmeticRoundsOnce : Obligations.FloatArithmeticRoundsOnce := by
  intro ft d a b va vb v32 addend
  refine ⟨?fadd, ?fsub, ?fmul, ?ffma, ?fdiv, ?fsqrt, ?frcp, ?frsq, ?exp2, ?log2, ?sin, ?cos⟩
  case fadd => exact laneResult_resFloat (SlotsSound.fadd ft d a b) (List.mem_cons_self ..) fun _ => rfl
  case fsub => exact laneResult_resFloat (SlotsSound.fsub ft d a b) (List.mem_cons_self ..) fun _ => rfl
  case fmul => exact laneResult_resFloat (SlotsSound.fmul ft d a b) (List.mem_cons_self ..) fun _ => rfl
  case ffma =>
    refine laneResult_resFloat (SlotsSound.ffma ft d a b) (List.mem_cons_self ..) fun s => ?_
    simp only [va, vb, addend, ← addend_eq]
    rfl
  case fdiv => exact laneResult_resFloat (SlotsSound.fdiv ft d a b) (List.mem_cons_self ..) fun _ => rfl
  case fsqrt => exact laneResult_resFloat (SlotsSound.fsqrt ft d a) (List.mem_cons_self ..) fun _ => rfl
  case frcp => exact laneResult_resFloat (SlotsSound.frcp ft d a) (List.mem_cons_self ..) fun _ => rfl
  case frsq => exact laneResult_resFloat (SlotsSound.frsq ft d a) (List.mem_cons_self ..) fun _ => rfl
  case exp2 => exact laneResult_resFloat (SlotsSound.exp2 d a) (List.mem_cons_self ..) fun _ => rfl
  case log2 => exact laneResult_resFloat (SlotsSound.log2 d a) (List.mem_cons_self ..) fun _ => rfl
  case sin => exact laneResult_resFloat (SlotsSound.sin d a) (List.mem_cons_self ..) fun _ => rfl
  case cos => exact laneResult_resFloat (SlotsSound.cos d a) (List.mem_cons_self ..) fun _ => rfl

/-- Settles O7: each instruction delivers both codes of its sequence. -/
theorem errorFreeAndDoubleWord : Obligations.ErrorFreeAndDoubleWord := by
  intro fw d a b f ca cb p q o
  refine ⟨?faddx, ?fsubx, ?fmulx, ?dwadd, ?dwsub, ?dwmul, ?dwfma, ?dwnorm⟩
  case faddx => exact laneResult_outPair (SlotsSound.faddx fw d a b) (List.mem_cons_self ..) fun _ => rfl
  case fsubx => exact laneResult_outPair (SlotsSound.fsubx fw d a b) (List.mem_cons_self ..) fun _ => rfl
  case fmulx => exact laneResult_outPair (SlotsSound.fmulx fw d a b) (List.mem_cons_self ..) fun _ => rfl
  case dwadd => exact laneResult_outPair (SlotsSound.dwadd fw d a b) (List.mem_cons_self ..) fun _ => rfl
  case dwsub => exact laneResult_outPair (SlotsSound.dwsub fw d a b) (List.mem_cons_self ..) fun _ => rfl
  case dwmul => exact laneResult_outPair (SlotsSound.dwmul fw d a b) (List.mem_cons_self ..) fun _ => rfl
  case dwfma => exact laneResult_outPair (SlotsSound.dwfma fw d a b) (List.mem_cons_self ..) fun _ => rfl
  case dwnorm => exact laneResult_outPair (SlotsSound.dwnorm fw d a) (List.mem_cons_self ..) fun _ => rfl

end

section
/-! PROOFS. The lanes that a shuffle reads and the votes of the members (R150, R151). -/
namespace Sys2Proof.Machine

/-- A number as the result in a pair, modulo 2^64. -/
theorem outD_two_eq (x : Issue) (d : VReg) (n : Nat) : outD x d 2 n = resPair x d (BitVec.ofNat 64 n) := by
  have hlo : BitVec.ofNat 32 n = loWord (BitVec.ofNat 64 n) := by
    apply BitVec.eq_of_toNat_eq
    simp only [loWord, BitVec.toNat_ofNat]
    omega
  have hhi : BitVec.ofNat 32 (n / 4294967296) = hiWord (BitVec.ofNat 64 n) := by
    apply BitVec.eq_of_toNat_eq
    simp only [hiWord, BitVec.toNat_ofNat]
    omega
  simp [outD, vout, resPair, hlo, hhi]

/-- The size of the segments that a shuffle's B names (R150). -/
def segmentOf (b : Nat) : Nat := if 1 ≤ b / 256 % 16 ∧ b / 256 % 16 ≤ 6 then 2 ^ (b / 256 % 16) else 64

/-- The lane that a shuffle reads when it names the place `src` of the segment of a lane (R150). -/
def segmentLane (members : List Nat) (seg lane : Nat) (src : Int) : Nat :=
  if 0 ≤ src ∧ src < (seg : Int) ∧ lane / seg * seg + src.toNat ∈ members then lane / seg * seg + src.toNat else lane

/-- The place in its segment that a shuffle's form names, of a lane at a place of it. -/
def GetForm.place (form : GetForm) (pos n : Nat) : Int :=
  match form with
  | .abs => n
  | .below => (pos : Int) - n
  | .above => pos + n
  | .flip => (pos ^^^ n : Nat)

theorem segment_pow_le_iff (e : Nat) : (1 ≤ e ∧ 2 ^ e ≤ 64) ↔ 1 ≤ e ∧ e ≤ 6 :=
  and_congr_right fun _ => (Nat.pow_le_pow_iff_right (show 1 < 2 by decide) : 2 ^ e ≤ 2 ^ 6 ↔ e ≤ 6)

theorem getSource_eq (form : GetForm) (members : List Nat) (lane b : Nat) :
    getSource form members lane b =
      segmentLane members (segmentOf b) lane (form.place (lane % segmentOf b) (b % 256)) := by
  have hseg : (if 1 ≤ bitsOf b 8 4 ∧ 2 ^ bitsOf b 8 4 ≤ Config.width then 2 ^ bitsOf b 8 4 else Config.width) = segmentOf b := by
    simp only [segmentOf, bitsOf, Config.width, segment_pow_le_iff]
    rfl
  have hbase : ∀ m, lane - lane % m = lane / m * m := fun m => by
    have := Nat.div_add_mod' lane m
    omega
  have hn : bitsOf b 0 8 = b % 256 := by simp [bitsOf]
  unfold getSource segmentLane
  simp only [hseg, hbase, hn, List.contains_iff_mem]
  cases form <;> rfl

/-- A shuffle completes with the value of the lane that it names. -/
theorem laneResult_lget {i : Instr} {form : GetForm} {d a b : VReg} (hs : slotsSound (slots i) = true)
    (hd : dslot .v 18 d.toNat 1 1 1 ∈ slots i) (he : ∀ s, exec i s = lget i form d a b s) :
    LaneResult i fun x l => resD x d (opA x (segmentLane x.members (segmentOf (opB x l b).toNat) l
      (form.place (l % segmentOf (opB x l b).toNat) ((opB x l b).toNat % 256))) a) :=
  laneResult_word hs hd he fun x l => by rw [srcA_one, srcB_one, getSource_eq]

/-- As many members pass a test as there are members where all of them do. -/
theorem filter_length_beq {α : Type} (p : α → Bool) (l : List α) : ((l.filter p).length == l.length) = l.all p := by
  rw [Bool.eq_iff_iff, beq_iff_eq, List.length_filter_eq_length_iff, List.all_eq_true]

end Sys2Proof.Machine

open Sys2Proof Sys2Proof.Machine Sys2Proof.Laws

/-- Settles O8: a shuffle reads its place in the segment, and a vote counts the members whose predicate is 1. -/
theorem shufflesAndVotes : Obligations.ShufflesAndVotes := by
  intro d a b pd ps yes seg from_ n pos
  refine ⟨?abs, ?below, ?above, ?flip, ?lany, ?lall, ?lmask, ?llead⟩
  case abs => exact laneResult_lget (form := .abs) (SlotsSound.lgetAbs d a b) (List.mem_cons_self ..) fun _ => rfl
  case below => exact laneResult_lget (form := .below) (SlotsSound.lgetBelow d a b) (List.mem_cons_self ..) fun _ => rfl
  case above => exact laneResult_lget (form := .above) (SlotsSound.lgetAbove d a b) (List.mem_cons_self ..) fun _ => rfl
  case flip => exact laneResult_lget (form := .flip) (SlotsSound.lgetFlip d a b) (List.mem_cons_self ..) fun _ => rfl
  case lany => exact laneResult_pred (SlotsSound.lany pd ps) (List.mem_cons_self ..) (fun _ => rfl) fun _ _ => rfl
  case lall => exact laneResult_pred (SlotsSound.lall pd ps) (List.mem_cons_self ..) (fun _ => rfl) fun _ _ => filter_length_beq ..
  case lmask =>
    exact laneResult_outD (SlotsSound.lmask d ps) (List.mem_cons_self ..) Nat.two_pos (fun _ => rfl) fun _ _ => outD_two_eq ..
  case llead => exact laneResult_pred (SlotsSound.llead pd) (List.mem_cons_self ..) (fun _ => rfl) fun _ _ => rfl

end

section
/-! PROOFS. Conversions between formats (R113 to R116), which deliver one value rounded once, and PACK and UNPK (R117), which convert
the elements of a word one after another. -/
namespace Sys2Proof.Machine
open Sys2Proof.Laws

/-! ## Elements in order -/

/-- The elements of a list that an index gives, each with its index. -/
theorem zipIdx_map_range {α : Type} (f : Nat → α) (n : Nat) :
    ((List.range n).map f).zipIdx = (List.range n).map fun k => (f k, k) := by
  apply List.ext_getElem <;> simp

/-- A number built up element by element is the sum of its elements. -/
theorem foldl_add_eq_sum {α : Type} (f : α → Nat) (l : List α) (a : Nat) : l.foldl (fun acc k => acc + f k) a = a + (l.map f).sum := by
  induction l generalizing a with
  | nil => rfl
  | cons k r ih => rw [List.foldl_cons, ih, List.map_cons, List.sum_cons, Nat.add_assoc]

theorem nfCount_pos (nf : NF) : 0 < nf.count := by cases nf <;> decide

/-! ## Conversions (R113 to R116) -/

/-- A result in D with flags. -/
theorem outD_wrapTo_flags (iw : IW) (x : Issue) (d : VReg) (v : Int) (k : Word) :
    ({ v := vout (x.ext.vnum 18 d) iw.regs (wrapTo (iwBits iw) v), flags := k } : LaneOut) = { resInt iw x d v with flags := k } := by
  rw [← outD_wrapTo]
  rfl

theorem claim_floatConversions : Claim.FloatConversions := by
  intro src dst iw d a b v range
  refine ⟨?cvtf, ?cvtfi, ?cvtif, ?fscale, ?frnd⟩
  case cvtf =>
    exact laneResultIn_inD (SlotsSound.cvtf src dst d a) (List.mem_cons_self ..) (fun _ => rfl) fun _ _ _ =>
      LaneOut.inD_of_vout rfl rfl (ftRegs_pos dst)
  case cvtfi =>
    refine laneResult_inD (SlotsSound.cvtfi src iw d a) (List.mem_cons_self ..) (fun s => ?_) fun x l => ?_
    · simp only [← outD_wrapTo_flags]
      cases iw <;> rfl
    · rw [← outD_wrapTo_flags]
      exact LaneOut.inD_of_vout rfl rfl (iwRegs_pos iw)
  case cvtif =>
    refine laneResult_outF (SlotsSound.cvtif iw dst d a) (List.mem_cons_self ..) fun s => ?_
    simp only [← iwInt_srcA]
    rfl
  case fscale =>
    refine laneResult_outF (SlotsSound.fscale src d a b) (List.mem_cons_self ..) fun s => ?_
    simp only [← toSigned_word, ← srcB_one]
    rfl
  case frnd => exact laneResult_outF (SlotsSound.frnd src d a) (List.mem_cons_self ..) fun _ => rfl

/-! ## PACK and UNPK (R117) -/

/-- The counter after one draw for each element. -/
theorem randnAfter_count (g : Group) (l : Nat) (nf : NF) : randnAfter g l nf.count = some ((g.thread l).randn + BitVec.ofNat 64 nf.count) :=
  if_neg (nfCount_pos nf).ne'

/-- The n registers from D on, an element in each. -/
theorem LaneOut.inD_of_elements {o : LaneOut} {r n : Nat} {f : Nat → Word} (hv : o.v = (List.range n).map fun k => (r + k, f k))
    (hp : o.p = []) : o.inD r n := by
  refine ⟨hp, fun w hw => ?_⟩
  obtain ⟨k, hk, rfl⟩ := List.mem_map.mp (hv ▸ hw)
  have := List.mem_range.mp hk
  exact ⟨Nat.le_add_right .., Nat.add_lt_add_left this _⟩

theorem claim_packingConvertsElementwise : Claim.PackingConvertsElementwise := by
  intro nf d a b
  refine ⟨?pack, ?unpk⟩
  case pack =>
    refine laneResultIn_inD (SlotsSound.pack nf d a b) (List.mem_cons_self ..) (fun s => ?_) fun s x l =>
      LaneOut.inD_of_vout (v := ((List.range nf.count).map fun k => (encodeScaled (nfCode nf) ((opB x l b).toNat % 256)
        (modeOf x l (drawOf s x.g l k)) x.ext.sat (fp32.decode (x.g.vget l (x.ext.vnum 11 a + k)).toNat)).code
          % 2 ^ nfWidth nf * 2 ^ (nfWidth nf * k)).sum) rfl rfl Nat.one_pos
    show execPack nf d a b s = _
    simp only [execPack, zipIdx_map_range, List.foldl_map, foldl_add_eq_sum, randnAfter_count, srcB_one, Nat.zero_add, vout,
      beq_iff_eq]
    rfl
  case unpk =>
    refine laneResult_inD (SlotsSound.unpk nf d a b) (List.mem_cons_self ..) (fun s => ?_) fun x l => LaneOut.inD_of_elements rfl rfl
    show execUnpk nf d a b s = _
    simp only [execUnpk, zipIdx_map_range, List.foldl_map, List.map_map, srcA_one, srcB_one, bitsOf, pow_zero, Nat.div_one]
    rfl

end Sys2Proof.Machine

open Sys2Proof Sys2Proof.Machine

/-- Settles O38: each conversion delivers its value rounded once, and PACK and UNPK do so element by element. -/
theorem conversionsAndPacking : Obligations.ConversionsAndPacking := ⟨claim_floatConversions, claim_packingConvertsElementwise⟩

end

section
/-! PROOFS. Uniform instructions, which act once for their set on S registers (R145, R146), and moves between register classes (R149). -/
namespace Sys2Proof.Machine
open Sys2Proof.Laws

/-! ## Instructions of the whole set -/

/-- An instruction of the whole set that keeps the number and the threads of its group completes with the group that it gives. -/
theorem setResult_of {i : Instr} {f : Issue → Group} (g : State → Issue → Group) (he : ∀ s, exec i s = perSet i f s)
    (hu : ∀ x, (f x).uid = x.g.uid) (ht : ∀ x, (f x).threads.length = x.g.threads.length) (hf : ∀ s x, Issues s x i → f x = g s x) :
    SetResult i always g := by
  intro s x h _
  rw [he, ← hf s x h]
  exact perSet_step h f ((hu x).trans (issue_uid h.current)) (ht x)

/-- A uniform instruction completes with its result in an S register. -/
theorem setResult_put {i : Instr} {r : Issue → Nat} {f : Issue → Word} (v : Issue → Word)
    (he : ∀ s, exec i s = perSet i (fun x => x.g.sregPut (r x) (f x)) s) (hf : ∀ x, f x = v x) :
    SetResult i always fun _ x => x.g.sregPut (r x) (v x) :=
  setResult_of _ he (fun _ => rfl) (fun _ => rfl) fun _ x _ => by rw [hf]

/-- A uniform ALU instruction completes with the result on the words of its S registers. -/
theorem setResult_uniform {i : Instr} {d a b : SReg} {f : Nat → Nat → Nat} (v : Word → Word → Word)
    (he : ∀ s, exec i s = uniform i d a b f s) (hf : ∀ p q : Word, BitVec.ofNat 32 (f p.toNat q.toNat) = v p q) :
    SetResult i always fun _ x => x.g.sregPut (regSD x d) (v (opSA x a) (opSB x b)) :=
  setResult_put (fun x => v (opSA x a) (opSB x b)) he fun _ => hf _ _

/-- A number that is a word, as that word. -/
theorem ofNat_eq_of_toNat {w n : Nat} {v : BitVec w} (h : n = v.toNat) : BitVec.ofNat w n = v := by
  rw [h, BitVec.ofNat_toNat, BitVec.setWidth_eq]

/-- A number of an integer, as a word. -/
theorem ofNat_wrapTo (w : Nat) (v : Int) : BitVec.ofNat w (wrapTo w v) = BitVec.ofInt w v := ofNat_eq_of_toNat (wrapTo_eq_toNat w v)

theorem ofNat_add_word (p q : Word) : BitVec.ofNat 32 (p.toNat + q.toNat) = p + q := by
  rw [BitVec.ofNat_add, BitVec.ofNat_toNat, BitVec.ofNat_toNat, BitVec.setWidth_eq, BitVec.setWidth_eq]

theorem ofNat_mul_word (p q : Word) : BitVec.ofNat 32 (p.toNat * q.toNat) = p * q := by
  rw [BitVec.ofNat_mul, BitVec.ofNat_toNat, BitVec.ofNat_toNat, BitVec.setWidth_eq, BitVec.setWidth_eq]

theorem ofNat_sub_word (p q : Word) : BitVec.ofNat 32 (p.toNat + (2 ^ 32 - q.toNat)) = p - q := by
  apply BitVec.eq_of_toNat_eq
  rw [BitVec.toNat_ofNat, BitVec.toNat_sub, Nat.add_comm]

theorem ofNat_mulhi_word (p q : Word) :
    BitVec.ofNat 32 (p.toNat * q.toNat / 2 ^ 32) = hiWord (p.zeroExtend 64 * q.zeroExtend 64) := by
  have := product64_eq true p q
  simp only [product64, productOf, if_true] at this
  rw [hiWord, ← this]
  rfl

theorem sle_iff_toSigned (p q : Word) : (p.sle q = true) = (toSigned 32 p.toNat ≤ toSigned 32 q.toNat) := by
  rw [toSigned_word, toSigned_word, BitVec.sle, decide_eq_true_eq]

theorem claim_uniformInstructionsActOnce : Claim.UniformInstructionsActOnce := by
  intro d a b imm put
  refine ⟨?sadd, ?ssub, ?smul, ?smulhi, ?sand, ?sor, ?sxor, ?sandn, ?sshl, ?sshr, ?smin, ?smax, ?saddi, ?smovi⟩
  case sadd => exact setResult_uniform (f := fun x y => x + y) (· + ·) (fun _ => rfl) ofNat_add_word
  case ssub => exact setResult_uniform (f := fun x y => x + (2 ^ 32 - y)) (· - ·) (fun _ => rfl) ofNat_sub_word
  case smul => exact setResult_uniform (f := fun x y => x * y) (· * ·) (fun _ => rfl) ofNat_mul_word
  case smulhi => exact setResult_uniform (f := fun x y => x * y / 2 ^ 32) (fun p q => hiWord (p.zeroExtend 64 * q.zeroExtend 64)) (fun _ => rfl) ofNat_mulhi_word
  case sand => exact setResult_uniform (f := fun x y => x &&& y) (· &&& ·) (fun _ => rfl) fun p q => ofNat_eq_of_toNat (BitVec.toNat_and ..).symm
  case sor => exact setResult_uniform (f := fun x y => x ||| y) (· ||| ·) (fun _ => rfl) fun p q => ofNat_eq_of_toNat (BitVec.toNat_or ..).symm
  case sxor => exact setResult_uniform (f := fun x y => x ^^^ y) (· ^^^ ·) (fun _ => rfl) fun p q => ofNat_eq_of_toNat (BitVec.toNat_xor ..).symm
  case sandn => exact setResult_uniform (f := andNot) (fun p q => p &&& ~~~q) (fun _ => rfl) fun p q => ofNat_eq_of_toNat (andNot_toNat ..)
  case sshl => exact setResult_uniform (f := fun x y => shlBits 32 x (y % 256)) (fun p q => p <<< (q.toNat % 256)) (fun _ => rfl) fun p q => ofNat_eq_of_toNat (shlBits_toNat ..)
  case sshr => exact setResult_uniform (f := fun x y => shrBits 32 x (y % 256)) (fun p q => p >>> (q.toNat % 256)) (fun _ => rfl) fun p q => ofNat_eq_of_toNat (shrBits_toNat ..)
  case smin =>
    exact setResult_uniform (f := fun x y => if toSigned 32 x ≤ toSigned 32 y then x else y) (fun p q => if p.sle q then p else q) (fun _ => rfl) fun p q => ofNat_eq_of_toNat <| by
      simp only [← sle_iff_toSigned, apply_ite BitVec.toNat]
  case smax =>
    exact setResult_uniform (f := fun x y => if toSigned 32 x ≤ toSigned 32 y then y else x) (fun p q => if p.sle q then q else p) (fun _ => rfl) fun p q => ofNat_eq_of_toNat <| by
      simp only [← sle_iff_toSigned, apply_ite BitVec.toNat]
  case saddi =>
    exact setResult_put (fun x => opSA x a + BitVec.ofInt 32 (immS x imm)) (fun _ => rfl) fun x => by
      rw [BitVec.ofNat_add, BitVec.ofNat_toNat, BitVec.setWidth_eq, ofNat_wrapTo]
      rfl
  case smovi => exact setResult_put (fun x => BitVec.ofInt 32 (immS x imm)) (fun _ => rfl) fun x => ofNat_wrapTo ..

/-! ## Moves between register classes (R146, R149) -/

/-- What a step keeps, steps one after another keep. -/
theorem foldl_keeps_value {α β γ : Type} {f : β → α → β} (p : β → γ) (hf : ∀ b a, p (f b a) = p b) (as : List α) (b : β) :
    p (as.foldl f b) = p b := by
  induction as generalizing b with
  | nil => rfl
  | cons a as ih => rw [List.foldl_cons, ih, hf]

/-- The predicate file of a thread after PMOV (R149). -/
def movedPredicates (x : Issue) (a : VReg) (l : Nat) (t : Thread) : Thread :=
  if l ∈ x.members then { t with p := (opA x l a).truncate 12 } else if x.ext.z = true then { t with p := 0 } else t

theorem modifyThread_self (g : Group) (l : Nat) {f : Thread → Thread} (hf : ∀ t, f t = t) : g.modifyThread l f = g := by
  rw [Group.modifyThread, modifyAt_self hf]

theorem pmovToP_eq {s : State} {x : Issue} {i : Instr} (h : Issues s x i) (a : VReg) :
    x.lanes.foldl (fun g l =>
      if x.members.contains l then g.modifyThread l fun t => { t with p := BitVec.ofNat 12 (x.g.vget l (x.ext.vnum 11 a)).toNat }
      else if x.ext.z then g.modifyThread l fun t => { t with p := 0 } else g) x.g
    = { x.g with threads := x.g.threads.zipIdx.map fun (th, l) =>
          if l ∈ x.members then { th with p := (opA x l a).truncate 12 }
          else if l ∈ x.lanes ∧ x.ext.z = true then { th with p := 0 } else th } := by
  have hstep : (fun (g : Group) (l : Nat) =>
      if x.members.contains l then g.modifyThread l fun t => { t with p := BitVec.ofNat 12 (x.g.vget l (x.ext.vnum 11 a)).toNat }
      else if x.ext.z then g.modifyThread l fun t => { t with p := 0 } else g) = fun g l => g.modifyThread l (movedPredicates x a l) := by
    funext g l
    by_cases hm : l ∈ x.members
    · simp only [List.contains_iff_mem, if_pos hm]
      refine congrArg (g.modifyThread l) (funext fun t => ?_)
      rw [movedPredicates, if_pos hm]
      rfl
    · by_cases hz : x.ext.z = true
      · simp only [List.contains_iff_mem, if_neg hm, if_pos hz]
        refine congrArg (g.modifyThread l) (funext fun t => ?_)
        rw [movedPredicates, if_neg hm, if_pos hz]
      · simp only [List.contains_iff_mem, if_neg hm, if_neg hz]
        exact (modifyThread_self g l fun t => by rw [movedPredicates, if_neg hm, if_neg hz]).symm
  rw [hstep, foldl_modifyThread _ h.nodup]
  refine congrArg (fun ts => { x.g with threads := ts }) (List.map_congr_left ?_)
  rintro ⟨t, l⟩ -
  have hsub := members_sub h.current l
  simp only [movedPredicates]
  by_cases hl : l ∈ x.lanes
  · simp only [hl, true_and, if_true]
  · simp only [if_neg (mt hsub hl), hl, false_and, if_false]

theorem claim_movesBetweenRegisterClasses : Claim.MovesBetweenRegisterClasses := by
  intro c pd d a sa sb ms
  refine ⟨?scmpp, ?movsv, ?movvs, ?pmovToV, ?pmovToP⟩
  case scmpp =>
    refine setResult_of (f := fun x =>
        x.lanes.foldl (fun g l => g.pput l pd.toNat (icmp c 32 (opSA x sa).toNat (opSB x sb).toNat)) x.g) _ (fun _ => rfl)
      (fun x => ?_) (fun x => ?_) fun s x _ => ?_
    · exact foldl_keeps_value Group.uid (fun g l => (rfl : (g.pput l pd.toNat _).uid = g.uid)) x.lanes x.g
    · exact foldl_keeps_value (fun g : Group => g.threads.length) (fun g l => Group.threads_length_modifyThread g l _) x.lanes x.g
    · simp only [icmp_toNat (show 0 < 32 by decide)]
  case movsv => exact laneResult_word (SlotsSound.movsv d ms) (List.mem_cons_self ..) (fun _ => rfl) fun _ _ => rfl
  case movvs =>
    refine setResult_of _ (fun _ => rfl) (fun x => ?_) (fun x => ?_) fun s x _ => ?_
    · dsimp only
      split
      · rfl
      · split <;> rfl
    · dsimp only
      split
      · rfl
      · split <;> rfl
    · rfl
  case pmovToV =>
    exact laneResult_word (SlotsSound.pmovToV d) (List.mem_cons_self ..) (fun _ => rfl) fun x l => by
      rw [BitVec.zeroExtend, BitVec.toNat_setWidth_of_le (by decide)]
  case pmovToP =>
    refine setResult_of _ (fun _ => rfl) (fun x => ?_) (fun x => ?_) fun s x h => pmovToP_eq h a
    · refine foldl_keeps_value Group.uid (fun g l => ?_) x.lanes x.g
      split
      · rfl
      · split <;> rfl
    · refine foldl_keeps_value (fun g : Group => g.threads.length) (fun g l => ?_) x.lanes x.g
      split
      · exact Group.threads_length_modifyThread ..
      · split
        · exact Group.threads_length_modifyThread ..
        · rfl

end Sys2Proof.Machine

open Sys2Proof Sys2Proof.Machine

/-- Settles O39: the uniform instructions put one word into an S register, and each move takes its value from the other class. -/
theorem uniformInstructionsAndMoves : Obligations.UniformInstructionsAndMoves :=
  ⟨claim_uniformInstructionsActOnce, claim_movesBetweenRegisterClasses⟩

end

section
/-! PROOFS. Exact values as rational numbers: lengths, magnitudes, comparisons and the exact sums and products (R94). -/
namespace Sys2Proof.Machine

/-! ## Lengths -/

theorem lenOf_le_iff {n k : Nat} : lenOf n ≤ k ↔ n < 2 ^ k := by
  unfold lenOf
  split
  case isTrue h => simp [h]
  case isFalse h => rw [Nat.succ_le_iff, Nat.log2_lt h]

theorem lt_lenOf_iff {n k : Nat} : k < lenOf n ↔ 2 ^ k ≤ n := by rw [← not_le, lenOf_le_iff, not_lt]

theorem lt_two_pow_lenOf (n : Nat) : n < 2 ^ lenOf n := lenOf_le_iff.mp le_rfl

theorem lenOf_pos {n : Nat} (h : n ≠ 0) : 0 < lenOf n := lt_lenOf_iff.mpr (Nat.one_le_iff_ne_zero.mpr h)

theorem two_pow_lenOf_le {n : Nat} (h : n ≠ 0) : 2 ^ (lenOf n - 1) ≤ n := lt_lenOf_iff.mp (Nat.sub_one_lt (lenOf_pos h).ne')

/-- A length is the one that a number's leading bit gives. -/
theorem lenOf_eq {n k : Nat} (hlo : 2 ^ k ≤ n) (hhi : n < 2 ^ (k + 1)) : lenOf n = k + 1 :=
  le_antisymm (lenOf_le_iff.mpr hhi) (lt_lenOf_iff.mpr hlo)

/-! ## Magnitudes -/

/-- A number of units of 2^e, as a rational. -/
def unitsOf (m : Nat) (e : Int) : ℚ := (m : ℚ) * 2 ^ e

/-- The magnitude of an exact value without a sticky remainder. -/
def Exact.mag (x : Exact) : ℚ := unitsOf x.m x.e

theorem zpow_two_pos (e : Int) : (0 : ℚ) < 2 ^ e := zpow_pos (by norm_num) e

theorem unitsOf_nonneg (m : Nat) (e : Int) : 0 ≤ unitsOf m e := mul_nonneg (Nat.cast_nonneg m) (zpow_two_pos e).le

theorem unitsOf_eq_zero {m : Nat} {e : Int} : unitsOf m e = 0 ↔ m = 0 := by simp [unitsOf, (zpow_two_pos e).ne']

theorem unitsOf_pos {m : Nat} {e : Int} : 0 < unitsOf m e ↔ m ≠ 0 := by
  rw [(unitsOf_nonneg m e).lt_iff_ne, ne_comm, Ne, unitsOf_eq_zero]

/-- Units split into smaller ones. -/
theorem unitsOf_mul_two_pow (m k : Nat) (e : Int) : unitsOf (m * 2 ^ k) e = unitsOf m (e + k) := by
  rw [unitsOf, unitsOf, zpow_add₀ two_ne_zero, zpow_natCast]
  push_cast
  ring

/-- Units of an exponent at least e as units of 2^e. -/
theorem unitsOf_at {e e' : Int} (h : e ≤ e') (m : Nat) : unitsOf (m * 2 ^ (e' - e).toNat) e = unitsOf m e' := by
  rw [unitsOf_mul_two_pow, Int.toNat_of_nonneg (by omega)]
  congr 1
  omega

theorem unitsOf_lt_iff {m n : Nat} {e : Int} : unitsOf m e < unitsOf n e ↔ m < n := by
  rw [unitsOf, unitsOf, mul_lt_mul_iff_left₀ (zpow_two_pos e), Nat.cast_lt]

theorem unitsOf_le_iff {m n : Nat} {e : Int} : unitsOf m e ≤ unitsOf n e ↔ m ≤ n := by
  rw [← not_lt, unitsOf_lt_iff, not_lt]

theorem unitsOf_inj {m n : Nat} {e : Int} : unitsOf m e = unitsOf n e ↔ m = n := by
  rw [le_antisymm_iff, le_antisymm_iff, unitsOf_le_iff, unitsOf_le_iff]

theorem unitsOf_two_pow (k : Nat) (e : Int) : unitsOf (2 ^ k) e = 2 ^ (e + k) := by
  rw [unitsOf, zpow_add₀ two_ne_zero, zpow_natCast]
  push_cast
  ring

theorem unitsOf_lt_zpow (m : Nat) (e : Int) : unitsOf m e < 2 ^ (e + lenOf m) := by
  rw [← unitsOf_two_pow]
  exact unitsOf_lt_iff.mpr (lt_two_pow_lenOf m)

theorem zpow_le_unitsOf {m : Nat} (h : m ≠ 0) (e : Int) : 2 ^ (e + lenOf m - 1) ≤ unitsOf m e := by
  have hcast : e + lenOf m - 1 = e + (lenOf m - 1 : Nat) := by
    have := lenOf_pos h
    omega
  rw [hcast, ← unitsOf_two_pow]
  exact unitsOf_le_iff.mpr (two_pow_lenOf_le h)

/-! ## Comparisons -/

/-- Two comparisons agree where their strict orders do. -/
theorem compare_eq_compare {α β : Type} [LinearOrder α] [LinearOrder β] {a b : α} {c d : β} (hlt : a < b ↔ c < d)
    (hgt : b < a ↔ d < c) : compare a b = compare c d := by
  rcases lt_trichotomy a b with h | h | h
  · rw [compare_lt_iff_lt.mpr h, compare_lt_iff_lt.mpr (hlt.mp h)]
  · subst h
    have heq : c = d := le_antisymm (not_lt.mp fun h => lt_irrefl _ (hgt.mpr h)) (not_lt.mp fun h => lt_irrefl _ (hlt.mpr h))
    rw [compare_eq_iff_eq.mpr rfl, compare_eq_iff_eq.mpr heq]
  · rw [compare_gt_iff_gt.mpr h, compare_gt_iff_gt.mpr (hgt.mp h)]

theorem compare_zero_left {a b : ℚ} (ha : a = 0) (hb : 0 ≤ b) : compare a b = if b = 0 then .eq else .lt := by
  split
  case isTrue h => exact compare_eq_iff_eq.mpr (ha.trans h.symm)
  case isFalse h => exact compare_lt_iff_lt.mpr (ha ▸ lt_of_le_of_ne hb (Ne.symm h))

/-- Magnitudes are compared as rationals. -/
theorem cmpMag_eq (m n : Nat) (e k : Int) : cmpMag m e n k = compare (unitsOf m e) (unitsOf n k) := by
  unfold cmpMag
  by_cases hm : m = 0
  · rw [if_pos hm, compare_zero_left (unitsOf_eq_zero.mpr hm) (unitsOf_nonneg n k)]
    simp only [unitsOf_eq_zero]
  rw [if_neg hm]
  by_cases hn : n = 0
  · rw [if_pos hn]
    exact (compare_gt_iff_gt.mpr (by rw [unitsOf_eq_zero.mpr hn]; exact unitsOf_pos.mpr hm)).symm
  rw [if_neg hn]
  dsimp only
  have apart : ∀ {m n : Nat} {e k : Int}, n ≠ 0 → e + lenOf m < k + lenOf n → unitsOf m e < unitsOf n k := fun {m n e k} hn h =>
    calc unitsOf m e < 2 ^ (e + lenOf m) := unitsOf_lt_zpow m e
      _ ≤ 2 ^ (k + lenOf n - 1) := zpow_le_zpow_right₀ one_le_two (by omega)
      _ ≤ unitsOf n k := zpow_le_unitsOf hn k
  split
  case isTrue h => exact (compare_lt_iff_lt.mpr (apart hn h)).symm
  case isFalse =>
    split
    case isTrue h => exact (compare_gt_iff_gt.mpr (apart hm h)).symm
    case isFalse =>
      rw [← unitsOf_at (min_le_left e k), ← unitsOf_at (min_le_right e k)]
      exact compare_eq_compare unitsOf_lt_iff.symm unitsOf_lt_iff.symm

/-! ## Signed values -/

theorem Exact.value_eq (x : Exact) : x.value = if x.neg then -x.mag else x.mag := by
  unfold Exact.value Exact.mag unitsOf
  split <;> ring

theorem Exact.mag_nonneg (x : Exact) : 0 ≤ x.mag := unitsOf_nonneg ..

theorem Exact.abs_value (x : Exact) : |x.value| = x.mag := by
  rw [x.value_eq]
  split
  · rw [abs_neg, abs_of_nonneg x.mag_nonneg]
  · rw [abs_of_nonneg x.mag_nonneg]

theorem Exact.value_eq_zero {x : Exact} : x.value = 0 ↔ x.m = 0 := by
  rw [← abs_eq_zero, x.abs_value]
  exact unitsOf_eq_zero

theorem Exact.isZero_iff {x : Exact} (h : x.sticky = false) : x.isZero = true ↔ x.value = 0 := by
  simp [Exact.isZero, h, Exact.value_eq_zero]

theorem Exact.isZero_eq {x : Exact} (h : x.sticky = false) : x.isZero = decide (x.value = 0) :=
  Bool.eq_iff_iff.mpr ((isZero_iff h).trans decide_eq_true_iff.symm)

theorem Exact.value_neg_iff {x : Exact} : x.value < 0 ↔ x.neg = true ∧ x.value ≠ 0 := by
  have := x.mag_nonneg
  rw [x.value_eq]
  split
  case isTrue h => simp [h, lt_iff_le_and_ne, this, eq_comm]
  case isFalse h => simp [h, this]

theorem Exact.value_pos_iff {x : Exact} : 0 < x.value ↔ x.neg = false ∧ x.value ≠ 0 := by
  have := x.mag_nonneg
  rw [x.value_eq]
  split
  case isTrue h => simp [h, this]
  case isFalse h => simp [h, lt_iff_le_and_ne, this, eq_comm]

/-- Exact values without a sticky remainder are compared as rationals. -/
theorem cmpExact_eq {x y : Exact} (hx : x.sticky = false) (hy : y.sticky = false) : cmpExact x y = compare x.value y.value := by
  unfold cmpExact
  have hmag : ∀ x : Exact, unitsOf x.m x.e = x.mag := fun _ => rfl
  simp only [Exact.isZero_eq hx, Exact.isZero_eq hy, cmpMag_eq, hmag, Bool.and_eq_true, Bool.not_eq_true', decide_eq_false_iff_not,
    decide_eq_true_eq]
  have flip : compare y.mag x.mag = compare (-x.mag) (-y.mag) := compare_eq_compare neg_lt_neg_iff.symm neg_lt_neg_iff.symm
  split
  case isTrue h => exact (compare_eq_iff_eq.mpr (h.1.trans h.2.symm)).symm
  case isFalse =>
    split
    case isTrue hxn =>
      have hxv := Exact.value_neg_iff.mpr hxn
      split
      case isTrue hyn => rw [flip, x.value_eq, y.value_eq, if_pos hxn.1, if_pos hyn.1]
      case isFalse hyn =>
        have hyv : 0 ≤ y.value := not_lt.mp (mt Exact.value_neg_iff.mp hyn)
        exact (compare_lt_iff_lt.mpr (hxv.trans_le hyv)).symm
    case isFalse hxn =>
      have hxv : 0 ≤ x.value := not_lt.mp (mt Exact.value_neg_iff.mp hxn)
      split
      case isTrue hyn => exact (compare_gt_iff_gt.mpr ((Exact.value_neg_iff.mpr hyn).trans_le hxv)).symm
      case isFalse hyn =>
        have hyv : 0 ≤ y.value := not_lt.mp (mt Exact.value_neg_iff.mp hyn)
        rw [← x.abs_value, ← y.abs_value, abs_of_nonneg hxv, abs_of_nonneg hyv]

/-! ## Sums and products -/

/-- An exact value as a multiple of 2^e. -/
theorem asInt_mul_zpow {x : Exact} {e : Int} (h : e ≤ x.e) : (asInt x e : ℚ) * 2 ^ e = x.value := by
  have hmag : ((x.m * 2 ^ (x.e - e).toNat : Nat) : ℚ) * 2 ^ e = x.mag := unitsOf_at h x.m
  rw [x.value_eq, ← hmag, asInt]
  split <;> push_cast <;> ring

/-- A multiple of 2^e as an exact value. -/
theorem ofUnits_value (i e : Int) : (⟨decide (i < 0), i.natAbs, e, false⟩ : Exact).value = (i : ℚ) * 2 ^ e := by
  have habs : ((i.natAbs : Nat) : ℚ) = |(i : ℚ)| := by rw [Nat.cast_natAbs, Int.cast_abs]
  rw [Exact.value_eq, Exact.mag, unitsOf, habs]
  by_cases h : i < 0
  · rw [if_pos (by simpa using h), abs_of_neg (by exact_mod_cast h)]
    ring
  · rw [if_neg (by simpa using h), abs_of_nonneg (by exact_mod_cast not_lt.mp h)]

@[simp] theorem Exact.zero_value (n : Bool) : (Exact.zero n).value = 0 := Exact.value_eq_zero.mpr rfl
@[simp] theorem Exact.ofInt_value (i : Int) : (Exact.ofInt i).value = i := by
  have := ofUnits_value i 0
  rwa [zpow_zero, mul_one] at this

theorem Exact.negate_value (x : Exact) : x.negate.value = -x.value := by
  rw [x.value_eq, x.negate.value_eq]
  cases h : x.neg <;> simp [Exact.negate, h, Exact.mag]

/-- The exact sum is the sum of the values. -/
theorem addExact_value (md : Mode) (x y : Exact) : (addExact md x y).value = x.value + y.value := by
  unfold addExact
  by_cases hx : x.m = 0
  · have hxv := Exact.value_eq_zero.mpr hx
    by_cases hy : y.m = 0
    · rw [if_pos ⟨hx, hy⟩, hxv, Exact.value_eq_zero.mpr hy]
      split <;> simp [hxv]
    · rw [if_neg (fun h => hy h.2), if_pos hx, hxv, zero_add]
  · rw [if_neg (fun h => hx h.1), if_neg hx]
    by_cases hy : y.m = 0
    · rw [if_pos hy, Exact.value_eq_zero.mpr hy, add_zero]
    · rw [if_neg hy]
      dsimp only
      have hsum : ((asInt x (min x.e y.e) + asInt y (min x.e y.e) : Int) : ℚ) * 2 ^ min x.e y.e = x.value + y.value := by
        rw [Int.cast_add, add_mul, asInt_mul_zpow (min_le_left ..), asInt_mul_zpow (min_le_right ..)]
      split
      case isTrue h => rw [← hsum, h]; simp
      case isFalse => rw [ofUnits_value, hsum]

theorem addExact_sticky {md : Mode} {x y : Exact} (hx : x.sticky = false) (hy : y.sticky = false) :
    (addExact md x y).sticky = false := by
  unfold addExact
  dsimp only
  split
  · split
    · exact hx
    · rfl
  · split
    · exact hy
    · split
      · exact hx
      · split <;> rfl

/-- The sign of an exact zero (R94). -/
theorem addExact_neg_of_zero {md : Mode} {x y : Exact} (h : (addExact md x y).value = 0) :
    (addExact md x y).neg = if x.neg = y.neg then x.neg else decide (md.code = 3) := by
  have hm := Exact.value_eq_zero.mp h
  have hv := addExact_value md x y
  rw [h] at hv
  have hzero : ∀ {a b : Exact}, a.value + b.value = 0 → a.m ≠ 0 → a.neg ≠ b.neg := fun {a b} hab ha heq => by
    have hne : a.value ≠ 0 := mt Exact.value_eq_zero.mp ha
    rcases lt_or_gt_of_ne hne with hlt | hgt
    · have hb : 0 < b.value := by linarith
      exact absurd (heq ▸ (Exact.value_neg_iff.mp hlt).1) (by simp [(Exact.value_pos_iff.mp hb).1])
    · have hb : b.value < 0 := by linarith
      exact absurd (heq ▸ (Exact.value_pos_iff.mp hgt).1) (by simp [(Exact.value_neg_iff.mp hb).1])
  have hcode : (md.code == 3) = decide (md.code = 3) := rfl
  unfold addExact at hm ⊢
  by_cases hx : x.m = 0
  · by_cases hy : y.m = 0
    · rw [if_pos ⟨hx, hy⟩]
      split
      · rfl
      · exact hcode
    · rw [if_neg (fun h => hy h.2), if_pos hx] at hm
      exact absurd hm hy
  · rw [if_neg (fun h => hx h.1), if_neg hx] at hm ⊢
    rw [if_neg (hzero hv.symm hx)]
    by_cases hy : y.m = 0
    · rw [if_pos hy] at hm
      exact absurd hm hx
    · rw [if_neg hy] at hm ⊢
      dsimp only at hm ⊢
      by_cases hi : asInt x (min x.e y.e) + asInt y (min x.e y.e) = 0
      · rw [if_pos hi]
        exact hcode
      · rw [if_neg hi] at hm
        exact absurd (Int.natAbs_eq_zero.mp hm) hi

theorem mulExact_value (x y : Exact) : (mulExact x y).value = x.value * y.value := by
  have hmag : (mulExact x y).mag = x.mag * y.mag := by
    simp only [mulExact, Exact.mag, unitsOf, zpow_add₀ (two_ne_zero (α := ℚ))]
    push_cast
    ring
  rw [Exact.value_eq, hmag, x.value_eq, y.value_eq]
  cases hx : x.neg <;> cases hy : y.neg <;> simp [mulExact, hx, hy]

/-- A code's value has no sticky remainder. -/
theorem decode_sticky {f : FloatFmt} {c : Nat} {z : Exact} (h : f.decode c = .fin z) : z.sticky = false := by
  unfold FloatFmt.decode at h
  dsimp only at h
  split at h
  · split at h <;> cases h
  · split at h
    · cases h
    · split at h <;> (cases h; rfl)

end Sys2Proof.Machine

end

section
/-! PROOFS. Float compares, minima and maxima on the values of the codes (R109, R110), classes (R111) and signs (R112). -/
namespace Sys2Proof.Machine
open Sys2Proof.Laws

/-! ## Compares (R110) -/

/-- Numbers are compared by where they stand. -/
theorem cmpVal_lt_iff {a b : FVal} (ha : a.isNumber) (hb : b.isNumber) : cmpVal a b = .lt ↔ a.below b := by
  cases a with
  | nan => exact ha.elim
  | inf s =>
    cases b with
    | nan => exact hb.elim
    | inf t => cases s <;> cases t <;> simp [cmpVal, FVal.below, FVal.rank]
    | fin y => cases s <;> simp [cmpVal, FVal.below, FVal.rank]
  | fin x =>
    cases b with
    | nan => exact hb.elim
    | inf t => cases t <;> simp [cmpVal, FVal.below, FVal.rank]
    | fin y => simp [cmpVal, FVal.below, FVal.rank, cmpExact_eq ha hb, compare_lt_iff_lt]

theorem cmpVal_gt_iff {a b : FVal} (ha : a.isNumber) (hb : b.isNumber) : cmpVal a b = .gt ↔ b.below a := by
  cases a with
  | nan => exact ha.elim
  | inf s =>
    cases b with
    | nan => exact hb.elim
    | inf t => cases s <;> cases t <;> simp [cmpVal, FVal.below, FVal.rank]
    | fin y => cases s <;> simp [cmpVal, FVal.below, FVal.rank]
  | fin x =>
    cases b with
    | nan => exact hb.elim
    | inf t => cases t <;> simp [cmpVal, FVal.below, FVal.rank]
    | fin y => simp [cmpVal, FVal.below, FVal.rank, cmpExact_eq ha hb, compare_gt_iff_gt]

/-- What FCMPP says of two numbers. -/
theorem fcmp_of_numbers {c : FCmp} {a b : FVal} (ha : a.isNumber) (hb : b.isNumber) :
    fcmp c a b = (match c with
      | .eq => cmpVal a b == .eq | .ne => cmpVal a b != .eq | .lt => cmpVal a b == .lt | .le => cmpVal a b != .gt
      | .gt => cmpVal a b == .gt | .ge => cmpVal a b != .lt | .un => false | .ord => true, 0) := by
  cases a with
  | nan => exact ha.elim
  | inf s =>
    cases b with
    | nan => exact hb.elim
    | inf t => rfl
    | fin y => rfl
  | fin x =>
    cases b with
    | nan => exact hb.elim
    | inf t => rfl
    | fin y => rfl

/-- What FCMPP says where an operand is a NaN. -/
theorem fcmp_of_nan {c : FCmp} {a b : FVal} (h : a.isNan ∨ b.isNan) :
    fcmp c a b = (c == .ne || c == .un,
      if a = .nan true ∨ b = .nan true ∨ c ∈ [FCmp.lt, .le, .gt, .ge] then flagNV else 0) := by
  have ordered : (c == .lt || c == .le || c == .gt || c == .ge) = decide (c ∈ [FCmp.lt, .le, .gt, .ge]) := by cases c <;> rfl
  have hnv : ∀ s : Bool, flagIf (s || c == .lt || c == .le || c == .gt || c == .ge) flagNV
      = if s = true ∨ c ∈ [FCmp.lt, .le, .gt, .ge] then flagNV else 0 := fun s => by
    rw [flagIf, Bool.or_assoc, Bool.or_assoc, Bool.or_assoc, ← Bool.or_assoc (c == .lt), ← Bool.or_assoc (c == .lt || c == .le),
      ordered]
    simp
  cases a with
  | nan s =>
    cases b with
    | nan t => simp [fcmp, hnv, or_assoc]
    | inf t => simp [fcmp, hnv]
    | fin y => simp [fcmp, hnv]
  | inf s =>
    cases b with
    | nan t => simp [fcmp, hnv]
    | inf t => simp [FVal.isNan] at h
    | fin y => simp [FVal.isNan] at h
  | fin x =>
    cases b with
    | nan t => simp [fcmp, hnv]
    | inf t => simp [FVal.isNan] at h
    | fin y => simp [FVal.isNan] at h

theorem claim_comparesFollowTheirTable : Claim.ComparesFollowTheirTable := by
  intro c a b
  refine ⟨fun ha hb => ?_, fun h => ?_⟩
  · have hlt := cmpVal_lt_iff ha hb
    have hgt := cmpVal_gt_iff ha hb
    rw [fcmp_of_numbers ha hb]
    refine ⟨rfl, ?_⟩
    cases c with
    | un | ord => simp
    | eq | ne | lt | le | gt | ge => cases ho : cmpVal a b <;> simp [ho] at hlt hgt <;> simp [hlt, hgt]
  · rw [fcmp_of_nan h]
    exact ⟨by simp, rfl⟩

/-! ## Minima and maxima (R109) -/

/-- The order of FMIN and FMAX is the one in which -0 stands before +0. -/
theorem lessVal_iff {a b : FVal} (ha : a.isNumber) (hb : b.isNumber) : lessVal a b = true ↔ a.precedes b := by
  cases a with
  | nan => exact ha.elim
  | inf s =>
    cases b with
    | nan => exact hb.elim
    | inf t => cases s <;> cases t <;> simp [lessVal, FVal.precedes, FVal.below, FVal.rank]
    | fin y => cases s <;> simp [lessVal, FVal.precedes, FVal.below, FVal.rank]
  | fin x =>
    cases b with
    | nan => exact hb.elim
    | inf t => cases t <;> simp [lessVal, FVal.precedes, FVal.below, FVal.rank]
    | fin y =>
      have hcmp := cmpExact_eq ha hb
      have hzero := Exact.isZero_iff ha
      rcases lt_trichotomy x.value y.value with h | h | h
      · simp [lessVal, FVal.precedes, FVal.below, FVal.rank, hcmp, compare_lt_iff_lt.mpr h, h]
      · simp [lessVal, FVal.precedes, FVal.below, FVal.rank, hcmp, h, hzero, and_assoc]
      · have hne : x.value = 0 → ¬ y.value = 0 := fun hx hy => (hx ▸ hy ▸ h).false
        simp [lessVal, FVal.precedes, FVal.below, FVal.rank, hcmp, compare_gt_iff_gt.mpr h, h.le]
        exact fun hx hy => absurd hy (hne hx)

theorem FVal.below_asymm {a b : FVal} (h : a.below b) : ¬ b.below a := by
  rintro (h' | h') <;> rcases h with h | h
  · exact lt_asymm h h'
  · exact h'.ne h.1.symm
  · exact h.ne h'.1.symm
  · exact lt_asymm h.2 h'.2

theorem FVal.precedes_asymm {a b : FVal} (h : a.precedes b) : ¬ b.precedes a := by
  rcases h with h | ⟨x, y, rfl, rfl, hx, hy, hxn, hyn⟩
  · rintro (h' | ⟨x, y, rfl, rfl, hx, hy, -, -⟩)
    · exact below_asymm h h'
    · simp [FVal.below, FVal.rank, hx, hy] at h
  · rintro (h' | ⟨x', y', hx', hy', -, -, hn, -⟩)
    · simp [FVal.below, FVal.rank, hx, hy] at h'
    · cases hx'
      exact absurd hyn (by simp [hn])

theorem FVal.precedes_irrefl (a : FVal) : ¬ a.precedes a := fun h => precedes_asymm h h

/-- A value that is no NaN is a number. -/
theorem decode_isNumber {f : FloatFmt} {c : Nat} (h : ¬ (f.decode c).isNan) : (f.decode c).isNumber := by
  cases hd : f.decode c with
  | fin x => exact decode_sticky hd
  | inf => exact trivial
  | nan s => cases s <;> simp [hd, FVal.isNan] at h

theorem isNan_iff {a : FVal} : a.isNan ↔ ∃ s, a = .nan s := by
  constructor
  · rintro (h | h) <;> exact ⟨_, h⟩
  · rintro ⟨s, rfl⟩
    cases s <;> simp [FVal.isNan]

/-- The operand of two numbers that FMIN or FMAX copies. -/
theorem minMaxCode_of_numbers {f : FloatFmt} {isMax : Bool} {ca cb : Nat} (ha : (f.decode ca).isNumber) (hb : (f.decode cb).isNumber) :
    minMaxCode f isMax ca cb = if isMax then (if lessVal (f.decode ca) (f.decode cb) then cb else ca)
      else (if lessVal (f.decode cb) (f.decode ca) then cb else ca) := by
  unfold minMaxCode
  cases hda : f.decode ca with
  | nan s => exact (hda ▸ ha : (FVal.nan s).isNumber).elim
  | inf | fin =>
    cases hdb : f.decode cb with
    | nan t => exact (hdb ▸ hb : (FVal.nan t).isNumber).elim
    | inf | fin => rfl

/-- The operand copied is one of the two, and neither of them is beyond it. -/
theorem minMaxCode_spec {f : FloatFmt} {isMax : Bool} {ca cb : Nat} (ha : (f.decode ca).isNumber) (hb : (f.decode cb).isNumber) :
    (minMaxCode f isMax ca cb = ca ∨ minMaxCode f isMax ca cb = cb) ∧ ∀ k ∈ [ca, cb],
      if isMax then ¬ (f.decode (minMaxCode f isMax ca cb)).precedes (f.decode k)
      else ¬ (f.decode k).precedes (f.decode (minMaxCode f isMax ca cb)) := by
  rw [minMaxCode_of_numbers ha hb]
  cases isMax with
  | true =>
    by_cases h : lessVal (f.decode ca) (f.decode cb) = true
    · simp [h, FVal.precedes_asymm ((lessVal_iff ha hb).mp h), FVal.precedes_irrefl]
    · simp [h, mt (lessVal_iff ha hb).mpr h, FVal.precedes_irrefl]
  | false =>
    by_cases h : lessVal (f.decode cb) (f.decode ca) = true
    · simp [h, FVal.precedes_asymm ((lessVal_iff hb ha).mp h), FVal.precedes_irrefl]
    · simp [h, mt (lessVal_iff hb ha).mpr h, FVal.precedes_irrefl]

/-- The operand copied where one of the two is a NaN. -/
theorem minMaxCode_of_nan_left {f : FloatFmt} {isMax : Bool} {ca cb : Nat} {s : Bool} (ha : f.decode ca = .nan s)
    (hb : ¬ (f.decode cb).isNan) : minMaxCode f isMax ca cb = cb := by
  cases hdb : f.decode cb with
  | nan t => exact absurd (isNan_iff.mpr ⟨t, hdb⟩) hb
  | inf | fin => simp only [minMaxCode, ha, hdb]

theorem minMaxCode_of_nan_right {f : FloatFmt} {isMax : Bool} {ca cb : Nat} {t : Bool} (ha : ¬ (f.decode ca).isNan)
    (hb : f.decode cb = .nan t) : minMaxCode f isMax ca cb = ca := by
  cases hda : f.decode ca with
  | nan s => exact absurd (isNan_iff.mpr ⟨s, hda⟩) ha
  | inf | fin => simp only [minMaxCode, hda, hb]

theorem minMaxCode_of_nans {f : FloatFmt} {isMax : Bool} {ca cb : Nat} {s t : Bool} (ha : f.decode ca = .nan s)
    (hb : f.decode cb = .nan t) : minMaxCode f isMax ca cb = f.nanCode := by simp only [minMaxCode, ha, hb]

theorem claim_minimaCopyTheirOperand : Claim.MinimaCopyTheirOperand := by
  intro ft isMax ca cb f r
  refine ⟨fun ha hb => ?_, fun ha hb => ?_, fun ha hb => ?_, fun ha hb => minMaxCode_spec (decode_isNumber ha) (decode_isNumber hb)⟩
  · obtain ⟨s, hs⟩ := isNan_iff.mp ha
    obtain ⟨t, ht⟩ := isNan_iff.mp hb
    exact minMaxCode_of_nans hs ht
  · obtain ⟨s, hs⟩ := isNan_iff.mp ha
    exact minMaxCode_of_nan_left hs hb
  · obtain ⟨t, ht⟩ := isNan_iff.mp hb
    exact minMaxCode_of_nan_right ha ht

/-! ## Classes (R111) -/

theorem ftFmt_ieee (ft : FT) : (ftFmt ft).ieee = true ∧ (ftFmt ft).code ≠ 6 := by cases ft <;> decide

/-- The sign bit of a code that fits its format. -/
theorem bitOf_top {c k : Nat} (h : c < 2 ^ (k + 1)) : bitOf c k = decide (c / 2 ^ k = 1) := by
  have : c / 2 ^ k < 2 := Nat.div_lt_of_lt_mul (by rwa [pow_succ] at h)
  unfold bitOf
  rw [Nat.mod_eq_of_lt this]
  rfl

theorem claim_classesFollowTheirTable : Claim.ClassesFollowTheirTable := by
  intro ft c f man ex bySign hc
  obtain ⟨hieee, hcode⟩ := ftFmt_ieee ft
  have hneg : bitOf c (f.ebits + f.mbits) = decide (c / 2 ^ (f.mbits + f.ebits) = 1) := by
    rw [Nat.add_comm f.ebits]
    exact bitOf_top hc
  have hman : bitsOf c 0 f.mbits = man := by simp [bitsOf, man]
  have hex : bitsOf c f.mbits f.ebits = ex := rfl
  unfold classOf FloatFmt.decode isSubnormal
  simp only [hneg, hman, hex]
  by_cases h1 : ex = 2 ^ f.ebits - 1
  · have hfull : (f.ieee = true ∧ ex = 2 ^ f.ebits - 1) := ⟨hieee, h1⟩
    rw [if_pos hfull, if_pos h1]
    by_cases h2 : man = 0
    · rw [if_pos h2, if_pos h2]
      by_cases h3 : c / 2 ^ (f.mbits + f.ebits) = 1 <;> simp [h3, bySign]
    · rw [if_neg h2, if_neg h2]
      by_cases h3 : man < 2 ^ (f.mbits - 1) <;> simp [h3]
  · rw [if_neg (fun h => h1 h.2), if_neg (fun h => hcode h.1), if_neg h1]
    by_cases h2 : ex = 0
    · rw [if_pos h2, if_pos h2]
      by_cases h4 : man = 0 <;> by_cases h3 : c / 2 ^ (f.mbits + f.ebits) = 1 <;> simp [h2, h3, h4, bySign]
    · rw [if_neg h2, if_neg h2]
      by_cases h3 : c / 2 ^ (f.mbits + f.ebits) = 1 <;> simp [h2, h3, bySign]

/-! ## Signs (R112) -/

/-- Inverting one bit of a number. -/
theorem xor_two_pow_eq (c k : Nat) : c ^^^ 2 ^ k = if bitOf c k then c - 2 ^ k else c + 2 ^ k := by
  have hdiv : (c ^^^ 2 ^ k) / 2 ^ k = c / 2 ^ k ^^^ 1 := by rw [Nat.xor_div_two_pow, Nat.div_self (Nat.two_pow_pos k)]
  have hmod : (c ^^^ 2 ^ k) % 2 ^ k = c % 2 ^ k := by rw [Nat.xor_mod_two_pow, Nat.mod_self, Nat.xor_zero]
  have hx := Nat.div_add_mod (c ^^^ 2 ^ k) (2 ^ k)
  have hc := Nat.div_add_mod c (2 ^ k)
  rw [hdiv, hmod] at hx
  by_cases h : c / 2 ^ k % 2 = 1
  · have hodd : c / 2 ^ k ^^^ 1 = c / 2 ^ k - 1 := Nat.xor_one_of_odd (Nat.odd_iff.mpr h)
    have hle : 2 ^ k ≤ 2 ^ k * (c / 2 ^ k) := Nat.le_mul_of_pos_right _ (Nat.pos_of_ne_zero fun h0 => by simp [h0] at h)
    rw [if_pos (by simpa [bitOf] using h)]
    rw [hodd, Nat.mul_sub_one] at hx
    omega
  · have heven : c / 2 ^ k ^^^ 1 = c / 2 ^ k + 1 := Nat.xor_one_of_even (Nat.even_iff.mpr (Nat.mod_two_ne_one.mp h))
    rw [if_neg (by simpa [bitOf] using h)]
    rw [heven, Nat.mul_add_one] at hx
    omega

theorem flipSign_eq (f : FloatFmt) (c : Nat) : flipSign f c = c ^^^ 2 ^ (f.ebits + f.mbits) := (xor_two_pow_eq ..).symm

/-- One bit of a number that has no higher one, in its place. -/
theorem and_two_pow_eq {c k : Nat} (h : c < 2 ^ (k + 1)) : c &&& 2 ^ k = 2 ^ k * (c / 2 ^ k) := by
  have hlt : c / 2 ^ k < 2 := Nat.div_lt_of_lt_mul (by rwa [pow_succ] at h)
  have hdiv : (c &&& 2 ^ k) / 2 ^ k = c / 2 ^ k := by
    rw [Nat.and_div_two_pow, Nat.div_self (Nat.two_pow_pos k), Nat.and_one_is_mod, Nat.mod_eq_of_lt hlt]
  have hmod : (c &&& 2 ^ k) % 2 ^ k = 0 := by rw [Nat.and_mod_two_pow, Nat.mod_self, Nat.and_zero]
  have := Nat.div_add_mod (c &&& 2 ^ k) (2 ^ k)
  rw [hdiv, hmod] at this
  exact this.symm

/-- The low bits of one number below the top bit of another. -/
theorem mod_add_top_eq {a b k : Nat} (h : b < 2 ^ (k + 1)) :
    a % 2 ^ k + b / 2 ^ k * 2 ^ k = (a &&& (2 ^ k - 1)) ||| (b &&& 2 ^ k) := by
  rw [Nat.and_two_pow_sub_one_eq_mod, and_two_pow_eq h, Nat.or_comm, ← Nat.two_pow_add_eq_or_of_lt (Nat.mod_lt _ (Nat.two_pow_pos k)),
    Nat.add_comm, Nat.mul_comm]

theorem ftCode_eq (ft : FT) (n : Nat) : ftCode ft n = floatBits ft n := by cases ft <;> rfl

/-- An operand's code fits its format. -/
theorem fB_lt (x : Issue) (l : Nat) (b : VReg) (ft : FT) : fB x l b ft < 2 ^ ((ftFmt ft).ebits + (ftFmt ft).mbits + 1) := by
  cases ft with
  | f16 | bf16 => exact Nat.mod_lt _ (by decide)
  | f32 => exact (opB x l b).isLt
  | f64 => exact (pairB x l b).isLt

end Sys2Proof.Machine

open Sys2Proof Sys2Proof.Machine Sys2Proof.Laws

/-- Settles O6: compares and minima follow the order of the values, and the sign instructions work on the sign bit. -/
theorem floatComparesAndSigns : Obligations.FloatComparesAndSigns := by
  refine ⟨claim_comparesFollowTheirTable, claim_minimaCopyTheirOperand, claim_classesFollowTheirTable, ?_⟩
  intro ft c pd d a b f ca cb sign
  refine ⟨?fmin, ?fmax, ?fcmpp, ?fclass, ?fabs, ?fneg, ?fcpys⟩
  case fmin => exact laneResult_outF (SlotsSound.fmin ft d a b) (List.mem_cons_self ..) fun _ => rfl
  case fmax => exact laneResult_outF (SlotsSound.fmax ft d a b) (List.mem_cons_self ..) fun _ => rfl
  case fcmpp =>
    refine laneResult_of (SlotsSound.fcmpp ft c pd a b) (fun _ => rfl) fun s x l h => ?_
    exact h.resP_fits (List.mem_cons_self ..) (fcmp c (f.decode (ca x l)) (f.decode (cb x l))).1
  case fclass =>
    exact laneResult_outD (SlotsSound.fclass ft d a) (List.mem_cons_self ..) Nat.one_pos (fun _ => rfl) fun _ _ => rfl
  case fabs =>
    exact laneResult_outD (SlotsSound.fabs ft d a) (List.mem_cons_self ..) (ftRegs_pos ft) (fun _ => rfl) fun x l => by
      rw [fA, ftCode_eq, signBit, ← Nat.and_two_pow_sub_one_eq_mod]
  case fneg =>
    exact laneResult_outD (SlotsSound.fneg ft d a) (List.mem_cons_self ..) (ftRegs_pos ft) (fun _ => rfl) fun x l => by
      rw [fA, ftCode_eq, flipSign_eq]
  case fcpys =>
    exact laneResult_outD (SlotsSound.fcpys ft d a b) (List.mem_cons_self ..) (ftRegs_pos ft) (fun _ => rfl) fun x l => by
      rw [signBit, mod_add_top_eq (fB_lt x l b ft), fA, fB, ftCode_eq, ftCode_eq]

end

section
/-! PROOFS. Reductions, whose tree combines every member once, and scans, which combine them in rising order (R152 to R154), and the draws of
RAND (R156). -/
namespace Sys2Proof.Machine
open Sys2Proof.Laws

/-! ## Results that hold of an issue -/

/-- A result that agrees with another wherever the instruction issues. -/
theorem LaneResult.congr {i : Instr} {f v : Issue → Nat → LaneOut} (h : LaneResult i f) (hv : ∀ s x, Issues s x i → f x = v x) :
    LaneResult i v := fun s x hx => by
  have hstep : ∃ t, exec i s = .next t ∧ LaneStep s t x i (f x) := h s x hx
  rw [hv s x hx] at hstep
  exact hstep

theorem Issues.members_lt {s : State} {x : Issue} {i : Instr} (h : Issues s x i) : ∀ l ∈ x.members, l < 64 := fun l hl =>
  (h.inGroup l (members_sub h.current l hl)).trans_eq h.width

/-! ## The combines of REDF and REDX (R94, R118, R120) -/

theorem fwFmt_ieee (fw : FW) : (fwFmt fw).ieee = true := by cases fw <;> rfl

/-- The NV bit of flags. -/
theorem and_flagNV (k : Word) : k &&& flagNV = if k.getLsbD 4 then 0x10#32 else 0 := by
  have hbit : flagNV = BitVec.twoPow 32 4 := by decide
  rw [hbit, BitVec.and_twoPow]
  rfl

theorem sigFlag_ne_zero (v : FVal) : (sigFlag v != 0) = (v == .nan true) := by
  cases v with
  | nan s => cases s <;> decide
  | inf | fin => simp [sigFlag]

/-- What a double-word instruction delivers, with its flags as bits (R120). -/
theorem dwResult_eq (f : FloatFmt) (z : Pair) (inputs : List Nat) :
    dwResult f z inputs = ⟨z.hi, if (f.decode z.hi).isFin then z.lo else f.nanCode,
      (if ((inputs.map f.decode).any fun p => p == .nan true) || z.flags.getLsbD 4 then 0x10#32 else 0)
        ||| if !(f.decode z.hi).isFin && (inputs.map f.decode).all FVal.isFin then 5#32 else 0⟩ := by
  have flags : ∀ (k : Word) (p : Bool), k &&& flagNV ||| flagIf p flagNV = if p || k.getLsbD 4 then 0x10#32 else 0 := fun k p => by
    rw [and_flagNV]
    cases p <;> cases k.getLsbD 4 <;> rfl
  have hany : (inputs.any fun c => f.decode c == .nan true) = (inputs.map f.decode).any fun p => p == .nan true := by
    simp [List.any_map, Function.comp_def]
  have hall : (inputs.all fun c => (f.decode c).isFin) = (inputs.map f.decode).all FVal.isFin := by
    simp [List.all_map, Function.comp_def]
  simp only [dwResult, flags, sigFlag_ne_zero, hany, hall]
  cases (f.decode z.hi).isFin with
  | true => simp
  | false => cases (inputs.map f.decode).all FVal.isFin <;> rfl

theorem getLsbD_or_six (s t c v w z : Word) :
    (s ||| t ||| c ||| v ||| w ||| z).getLsbD 4 = [s, t, c, v, w, z].any fun k => k.getLsbD 4 := by
  simp [Bool.or_assoc]

theorem dwComb_eq_dwSum (f : FloatFmt) (x y : RVal) : dwComb f x y = dwSum f x y := by
  rw [dwComb, dwResult_eq]
  simp only [dwAdd, getLsbD_or_six]
  rfl

/-- What a float sum delivers, for each kind of operand. -/
theorem addComb_fin {f : FloatFmt} {md : Mode} {x y : RVal} {u v : Exact} (hu : f.decode x.1 = .fin u) (hv : f.decode y.1 = .fin v) :
    addComb f md x y = (((roundTo f md false (addExact md u v)).code, 0), (roundTo f md false (addExact md u v)).flags) := by
  simp only [addComb, hu, hv, addVal, rounded, deliver, BitVec.ofNat_eq_ofNat, BitVec.or_zero]

theorem addVal_nan {md : Mode} {a b : FVal} (h : a.isNan ∨ b.isNan) :
    addVal md a b = (.nan false, if a = .nan true ∨ b = .nan true then flagNV else 0) := by
  cases a with
  | nan s =>
    cases b with
    | nan t => simp [addVal, flagIf]
    | inf | fin => simp [addVal, flagIf]
  | inf | fin =>
    cases b with
    | nan t => simp [addVal, flagIf]
    | inf | fin => simp [FVal.isNan] at h

theorem addVal_inf {md : Mode} {a b : FVal} {neg : Bool}
    (h : (a = .inf neg ∧ (b = .inf neg ∨ ∃ v, b = .fin v)) ∨ (b = .inf neg ∧ ∃ u, a = .fin u)) : addVal md a b = (.inf neg, 0) := by
  rcases h with ⟨rfl, rfl | ⟨v, rfl⟩⟩ | ⟨rfl, u, rfl⟩
  · simp [addVal]
  · rfl
  · rfl

theorem addVal_opposite (md : Mode) (neg : Bool) : addVal md (.inf neg) (.inf (!neg)) = (.nan false, flagNV) := by
  cases neg <;> rfl

theorem rounded_nan {f : FloatFmt} (hf : f.ieee = true) (md : Mode) (s : Bool) (k : Word) : rounded f md (.nan s, k) = ⟨f.nanCode, k⟩ := by
  simp [rounded, deliver, hf]

theorem rounded_inf {f : FloatFmt} (hf : f.ieee = true) (md : Mode) (neg : Bool) (k : Word) :
    rounded f md (.inf neg, k) = ⟨f.infCode neg, k⟩ := by simp [rounded, deliver, hf]

theorem combOpt_eq (op : Comb) (x y : Option RVal × Word) :
    combOpt op x y = match x, y with
      | (none, k), (v, l) => (v, k ||| l)
      | (some v, k), (none, l) => (some v, k ||| l)
      | (some v, k), (some w, l) => (some (op v w).1, k ||| l ||| (op v w).2) := by
  obtain ⟨v, k⟩ := x
  obtain ⟨w, l⟩ := y
  cases v <;> cases w <;> rfl

theorem claim_combinesFollowTheirTable : Claim.CombinesFollowTheirTable := by
  refine ⟨fun fw md x y => ?_, fun op opt src => ?_⟩
  · intro f a b gives
    have hf : f.ieee = true := fwFmt_ieee fw
    refine ⟨fun u v hu hv => ?_, fun h => ?_, fun neg ha hb => ?_, fun neg h => ?_, dwComb_eq_dwSum f x y⟩
    · exact ⟨addExact md u v, addExact_sticky (decode_sticky hu) (decode_sticky hv), addExact_value .., addExact_neg_of_zero,
        addComb_fin hu hv⟩
    · show addComb f md x y = _
      rw [addComb, addVal_nan h, rounded_nan hf]
    · show addComb f md x y = _
      rw [addComb, show f.decode x.1 = _ from ha, show f.decode y.1 = _ from hb, addVal_opposite, rounded_nan hf]
    · show addComb f md x y = _
      rw [addComb, addVal_inf h, rounded_inf hf]
  · intro comb
    refine ⟨fun _ => rfl, fun s i => combOpt_eq .., fun l r acc => ?_⟩
    have hnext : combOpt op acc (some (src l), 0) = comb acc (some (src l), 0) := combOpt_eq ..
    obtain ⟨v, hv⟩ : ∃ v, (comb acc (some (src l), 0)).1 = some v := by
      rw [← hnext]
      obtain ⟨w, k⟩ := acc
      cases w <;> exact ⟨_, rfl⟩
    refine ⟨v, hv, ?_⟩
    rw [scanFrom, hnext, hv]
    rfl

/-! ## Integer reductions (R152) -/

/-- The value that a reduction tree of integers holds: that of every lane that differs from its own in the low bits. -/
def mergedFrom {α : Type} (op : α → α → α) (src : Nat → Option α) (s i : Nat) : Option α :=
  ((List.range (2 ^ s)).map fun j => src (i ^^^ j)).foldl (Option.merge op) none

theorem foldl_merge_append {α : Type} (op : α → α → α) [Std.Associative op] (l r : List (Option α)) :
    (l ++ r).foldl (Option.merge op) none = Option.merge op (l.foldl (Option.merge op) none) (r.foldl (Option.merge op) none) := by
  have hid : ∀ a : Option α, Option.merge op a none = a := fun a => by cases a <;> rfl
  rw [List.foldl_append, ← List.foldl_assoc (op := Option.merge op), hid]

theorem mergedFrom_succ {α : Type} (op : α → α → α) [Std.Associative op] (src : Nat → Option α) (s i : Nat) :
    mergedFrom op src (s + 1) i = Option.merge op (mergedFrom op src s i) (mergedFrom op src s (i ^^^ 2 ^ s)) := by
  have hxor : ∀ j < 2 ^ s, i ^^^ (2 ^ s + j) = i ^^^ 2 ^ s ^^^ j := fun j hj => by
    have hor : 2 ^ s + j = 2 ^ s ||| j := by simpa using Nat.two_pow_add_eq_or_of_lt hj 1
    have hx : 2 ^ s ||| j = 2 ^ s ^^^ j := by
      apply Nat.eq_of_testBit_eq
      intro k
      rw [Nat.testBit_or, Nat.testBit_xor, Nat.testBit_two_pow]
      by_cases hk : s = k
      · subst hk
        simp [Nat.testBit_lt_two_pow hj]
      · simp [hk]
    rw [hor, hx, Nat.xor_assoc]
  rw [mergedFrom, pow_succ, Nat.mul_two, List.range_add, List.map_append, foldl_merge_append, mergedFrom, mergedFrom, List.map_map]
  congr 2
  exact List.map_congr_left fun j hj => congrArg src (hxor j (List.mem_range.mp hj))

/-- The tree of an integer reduction, on the words that its numbers are. -/
theorem reduceTree_intComb {f : Nat → Nat → Nat} {op : Word → Word → Word} [Std.Associative op]
    (hf : ∀ v w : Word, f v.toNat w.toNat = (op v w).toNat) (src : Nat → Option Word) (s i : Nat) :
    reduceTree (intComb f) (fun l => (src l).map fun v => (v.toNat, 0)) s i = ((mergedFrom op src s i).map fun v => (v.toNat, 0), 0) := by
  induction s generalizing i with
  | zero => cases h : src i <;> simp [reduceTree, mergedFrom, h, Option.merge]
  | succ s ih =>
    rw [reduceTree, ih, ih, mergedFrom_succ]
    cases mergedFrom op src s i <;> cases mergedFrom op src s (i ^^^ 2 ^ s) <;> simp [combOpt, Option.merge, intComb, hf]

/-- Absent operands take no part. -/
theorem foldl_merge_filter {α : Type} (op : α → α → α) (src : Nat → α) (p : Nat → Bool) (l : List Nat) (a : Option α) :
    (l.map fun k => if p k then some (src k) else none).foldl (Option.merge op) a
      = ((l.filter p).map fun k => some (src k)).foldl (Option.merge op) a := by
  induction l generalizing a with
  | nil => rfl
  | cons k r ih =>
    rw [List.map_cons, List.foldl_cons, ih]
    by_cases hp : p k = true
    · rw [if_pos hp, List.filter_cons_of_pos hp, List.map_cons, List.foldl_cons]
    · have hid : Option.merge op a none = a := by cases a <;> rfl
      rw [if_neg hp, hid, List.filter_cons_of_neg hp]

/-- Present operands combine to a value. -/
theorem foldl_merge_some {α : Type} (op : α → α → α) (src : Nat → α) (l : List Nat) (v : α) :
    (l.map fun k => some (src k)).foldl (Option.merge op) (some v) = some ((l.map src).foldl op v) := by
  induction l generalizing v with
  | nil => rfl
  | cons k r ih => exact ih (op v (src k))

/-- A tree over all lanes combines the members, in whichever order they are. -/
theorem mergedFrom_members {α : Type} (op : α → α → α) [Std.Associative op] [Std.Commutative op] (src : Nat → α) {members : List Nat}
    (hn : members.Nodup) (hlt : ∀ l ∈ members, l < 64) :
    mergedFrom op (fun l => if l ∈ members then some (src l) else none) 6 0
      = (members.map fun k => some (src k)).foldl (Option.merge op) none := by
  have hperm : ((List.range (2 ^ 6)).filter fun l => decide (l ∈ members)).Perm members := by
    rw [List.perm_ext_iff_of_nodup (List.nodup_range.filter _) hn]
    intro l
    simp only [List.mem_filter, List.mem_range, decide_eq_true_eq]
    exact ⟨fun h => h.2, fun h => ⟨hlt l h, h⟩⟩
  have hfilter := foldl_merge_filter op src (fun l => decide (l ∈ members)) (List.range (2 ^ 6)) none
  simp only [decide_eq_true_eq] at hfilter
  simp only [mergedFrom, Nat.zero_xor]
  rw [hfilter]
  exact (hperm.map _).foldl_eq _

/-- The words of the members, combined one after another. -/
def combinedWords (op : Word → Word → Word) (ws : List Word) : Word :=
  match ws with
  | [] => 0
  | v :: r => r.foldl op v

/-- An integer reduction completes with the combination of its members' words. -/
theorem laneResult_redi {i : Instr} {d a : VReg} {f : Nat → Nat → Nat} (op : Word → Word → Word) [Std.Associative op] [Std.Commutative op]
    (hs : slotsSound (slots i) = true) (hd : dslot .v 18 d.toNat 1 1 1 ∈ slots i) (he : ∀ s, exec i s = redi i d a f s)
    (hf : ∀ v w : Word, f v.toNat w.toNat = (op v w).toNat) :
    LaneResult i fun x _ => resD x d (combinedWords op (x.members.map fun l => opA x l a)) := by
  have hred : LaneResult i fun x _ =>
      let r := reduceTree (intComb f) (fun l => if x.members.contains l then some (srcA x l a 1, 0) else none) 6 0
      { v := vout (x.ext.vnum 18 d) 1 (r.1.getD (0, 0)).1, flags := r.2 } :=
    laneResult_inD hs hd he fun x l => LaneOut.inD_of_vout rfl rfl Nat.one_pos
  refine hred.congr fun s x h => funext fun l => ?_
  have hsrc : (fun l => if x.members.contains l then some (srcA x l a 1, 0) else none)
      = fun l => (if l ∈ x.members then some (opA x l a) else none).map fun v : Word => (v.toNat, 0) := funext fun l => by
    simp only [List.contains_iff_mem, srcA_one]
    split <;> rfl
  simp only [hsrc]
  rw [reduceTree_intComb (op := op) hf, mergedFrom_members op _ (members_nodup h.current h.nodup) h.members_lt]
  cases hm : x.members with
  | nil => rfl
  | cons k r =>
    have hsome : ((k :: r).map fun k => some (opA x k a)).foldl (Option.merge op) none
        = some ((r.map fun k => opA x k a).foldl op (opA x k a)) := foldl_merge_some op (fun k => opA x k a) r (opA x k a)
    rw [hsome]
    exact outD_word x d _

/-- The lesser of two words in a linear order of them. -/
def lesserWord {α : Type} [LinearOrder α] (key : Word → α) (v w : Word) : Word := if key v ≤ key w then v else w

theorem lesserWord_assoc {α : Type} [LinearOrder α] (key : Word → α) : Std.Associative (lesserWord key) := by
  refine ⟨fun u v w => ?_⟩
  unfold lesserWord
  by_cases huv : key u ≤ key v
  · by_cases hvw : key v ≤ key w
    · simp only [if_pos huv, if_pos hvw, if_pos (huv.trans hvw)]
    · simp only [if_pos huv, if_neg hvw]
  · by_cases hvw : key v ≤ key w
    · simp only [if_neg huv, if_pos hvw]
    · have huw : ¬ key u ≤ key w := fun h => huv (h.trans (le_of_not_ge hvw))
      simp only [if_neg huv, if_neg hvw, if_neg huw]

theorem lesserWord_comm {α : Type} [LinearOrder α] {key : Word → α} (hkey : Function.Injective key) : Std.Commutative (lesserWord key) := by
  refine ⟨fun v w => ?_⟩
  unfold lesserWord
  rcases lt_trichotomy (key v) (key w) with h | h | h
  · rw [if_pos h.le, if_neg h.not_ge]
  · rw [hkey h]
  · rw [if_neg h.not_ge, if_pos h.le]

/-- A reduction to the least word in an order completes with it. -/
theorem laneResult_lesser {α : Type} [LinearOrder α] {key : Word → α} (hkey : Function.Injective key) {i : Instr} {d a : VReg}
    {f : Nat → Nat → Nat} {op : Word → Word → Word} (hop : op = lesserWord key) (hs : slotsSound (slots i) = true)
    (hd : dslot .v 18 d.toNat 1 1 1 ∈ slots i) (he : ∀ s, exec i s = redi i d a f s)
    (hf : ∀ v w : Word, f v.toNat w.toNat = (op v w).toNat) :
    LaneResult i fun x _ => resD x d (combinedWords op (x.members.map fun l => opA x l a)) := by
  subst hop
  have := lesserWord_assoc key
  have := lesserWord_comm hkey
  exact laneResult_redi _ hs hd he hf

/-- The greater of two words in an order is the lesser one in the opposite order. -/
theorem greater_eq_lesser {α : Type} [LinearOrder α] {key : Word → α} (hkey : Function.Injective key) (v w : Word) :
    (if key v ≤ key w then w else v) = if key w ≤ key v then v else w := by
  rcases lt_trichotomy (key v) (key w) with h | h | h
  · rw [if_pos h.le, if_neg h.not_ge]
  · rw [hkey h]
  · rw [if_neg h.not_ge, if_pos h.le]

theorem toInt_injective : Function.Injective fun v : Word => v.toInt := fun _ _ h => BitVec.eq_of_toInt_eq h

theorem claim_integerReductionsCombineEveryMember : Claim.IntegerReductionsCombineEveryMember := by
  intro d a red
  have hred : ∀ (f : Word → Word → Word), red f = fun x => combinedWords f (x.members.map fun l => opA x l a) := fun f => rfl
  simp only [hred]
  refine ⟨?add, ?minI, ?maxI, ?minN, ?maxN, ?and, ?or, ?xor⟩
  case add =>
    exact laneResult_redi (· + ·) (f := fun x y => (x + y) % 2 ^ 32) (SlotsSound.rediAddI32 d a) (List.mem_cons_self ..) (fun _ => rfl)
      fun v w => (BitVec.toNat_add v w).symm
  case minI =>
    exact laneResult_lesser toInt_injective (f := minI) (funext₂ fun v w => by simp only [BitVec.sle, decide_eq_true_eq]; rfl)
      (SlotsSound.rediMinI32 d a) (List.mem_cons_self ..) (fun _ => rfl) fun v w => by
        simp only [minI, ← sle_iff_toSigned, apply_ite BitVec.toNat]
  case maxI =>
    exact laneResult_lesser (key := fun v : Word => OrderDual.toDual v.toInt) (fun _ _ h => toInt_injective h) (f := maxI)
      (funext₂ fun v w => by
        simp only [BitVec.sle, decide_eq_true_eq, lesserWord, OrderDual.toDual_le_toDual]
        exact greater_eq_lesser toInt_injective v w)
      (SlotsSound.rediMaxI32 d a) (List.mem_cons_self ..) (fun _ => rfl) fun v w => by
        simp only [maxI, ← sle_iff_toSigned, apply_ite BitVec.toNat]
  case minN =>
    exact laneResult_lesser (key := fun v : Word => v.toNat) (fun _ _ h => BitVec.eq_of_toNat_eq h) (f := min)
      (funext₂ fun v w => by simp only [BitVec.ule, decide_eq_true_eq]; rfl)
      (SlotsSound.rediMinN32 d a) (List.mem_cons_self ..) (fun _ => rfl) fun v w => by
        simp only [BitVec.ule, decide_eq_true_eq, apply_ite BitVec.toNat]
        exact min_def ..
  case maxN =>
    exact laneResult_lesser (key := fun v : Word => OrderDual.toDual v.toNat) (fun _ _ h => BitVec.eq_of_toNat_eq h) (f := max)
      (funext₂ fun v w => by
        simp only [BitVec.ule, decide_eq_true_eq, lesserWord, OrderDual.toDual_le_toDual]
        exact greater_eq_lesser (fun _ _ h => BitVec.eq_of_toNat_eq h) v w)
      (SlotsSound.rediMaxN32 d a) (List.mem_cons_self ..) (fun _ => rfl) fun v w => by
        simp only [BitVec.ule, decide_eq_true_eq, apply_ite BitVec.toNat]
        exact max_def ..
  case and =>
    exact laneResult_redi (· &&& ·) (f := fun x y => x &&& y) (SlotsSound.rediAnd d a) (List.mem_cons_self ..) (fun _ => rfl)
      fun v w => (BitVec.toNat_and v w).symm
  case or =>
    exact laneResult_redi (· ||| ·) (f := fun x y => x ||| y) (SlotsSound.rediOr d a) (List.mem_cons_self ..) (fun _ => rfl)
      fun v w => (BitVec.toNat_or v w).symm
  case xor =>
    exact laneResult_redi (· ^^^ ·) (f := fun x y => x ^^^ y) (SlotsSound.rediXor d a) (List.mem_cons_self ..) (fun _ => rfl)
      fun v w => (BitVec.toNat_xor v w).symm

/-! ## Float reductions and scans (R152, R154) -/

theorem dwOut_inD (x : Issue) (d : VReg) (fw : FW) (r : RVal) (k : Word) :
    LaneOut.inD { v := dwOut d fw x r, flags := k } (x.ext.vnum 18 d) (2 * fw.regs) := LaneOut.inD_of_vout_pair rfl rfl (fwRegs_pos fw)

theorem wordOut_inD (x : Issue) (d : VReg) {n : Nat} (hn : 0 < n) (r : RVal) (k : Word) :
    LaneOut.inD { v := wordOut d n x r, flags := k } (x.ext.vnum 18 d) n := LaneOut.inD_of_vout rfl rfl hn

theorem LaneOut.inD_empty (r n : Nat) : LaneOut.inD {} r n := ⟨rfl, fun _ h => absurd h List.not_mem_nil⟩

/-- The sum of the words of the lanes before a lane, from a first summand on. -/
def sumBefore (src : Nat → Word) (l : Nat) (lanes : List Nat) (first : Word) : Word :=
  ((lanes.takeWhile fun k => k != l).map src).foldl (· + ·) first

theorem combOpt_add (acc : Option Word) (w : Word) :
    combOpt (intComb fun x y => (x + y) % 2 ^ 32) (acc.map fun v => (v.toNat, 0), 0) (some (w.toNat, 0), 0)
      = ((some (acc.getD 0 + w)).map fun v => (v.toNat, 0), 0) := by
  cases acc with
  | none => simp [combOpt]
  | some v => simp [combOpt, intComb]

/-- The scan of integers gives a lane the sum of the members before it, and that with its own word. -/
theorem find_scanFrom_add (src : Nat → Word) (l : Nat) (members : List Nat) (acc : Option Word) :
    ((scanFrom (intComb fun x y => (x + y) % 2 ^ 32) (fun k => ((src k).toNat, 0)) members (acc.map fun v => (v.toNat, 0), 0)).find?
        fun e => e.1 == l).map (fun e => (e.2.1.getD (0, 0), e.2.2))
      = if l ∈ members then
          some (((sumBefore src l members (acc.getD 0)).toNat, 0), ((sumBefore src l members (acc.getD 0) + src l).toNat, 0), 0)
        else none := by
  induction members generalizing acc with
  | nil => rfl
  | cons k r ih =>
    rw [scanFrom, combOpt_add]
    by_cases hk : k = l
    · subst hk
      cases acc <;> simp [sumBefore]
    · have hne : ¬ l = k := fun h => hk h.symm
      rw [List.find?_cons_of_neg (by simpa using hk), ih]
      simp only [List.mem_cons, hne, false_or, sumBefore]
      rw [List.takeWhile_cons_of_pos (by simpa using hk)]
      rfl

/-- A scan of integers completes with what it gives each member. -/
theorem laneResult_scanAdd {i : Instr} {d a : VReg} {excl : Bool} (hs : slotsSound (slots i) = true)
    (hd : dslot .v 18 d.toNat 1 1 1 ∈ slots i)
    (he : ∀ s, exec i s = scan i (fun x l => (srcA x l a 1, 0)) (fun _ => intComb fun x y => (x + y) % 2 ^ 32) excl (wordOut d 1) s) :
    LaneResult i fun x l => if l ∈ x.members then
        resD x d (if excl then sumBefore (fun k => opA x k a) l x.members 0 else sumBefore (fun k => opA x k a) l x.members 0 + opA x l a)
      else {} := by
  have hscan : LaneResult i fun x l =>
      match (scanFrom (intComb fun x y => (x + y) % 2 ^ 32) (fun l => (srcA x l a 1, 0)) x.members (none, 0)).find? fun e => e.1 == l with
      | some (_, prev, cur, flags) => { v := wordOut d 1 x (if excl then prev.getD (0, 0) else cur), flags := flags }
      | none => {} :=
    laneResult_inD hs hd he fun x l => by
      split
      · exact wordOut_inD x d Nat.one_pos ..
      · exact LaneOut.inD_empty ..
  refine hscan.congr fun s x _ => funext fun l => ?_
  have hfind := find_scanFrom_add (fun k => opA x k a) l x.members none
  simp only [srcA_one]
  by_cases hl : l ∈ x.members
  · rw [if_pos hl] at hfind ⊢
    obtain ⟨⟨k, prev, cur, flags⟩, hsome, heq⟩ := Option.map_eq_some_iff.mp hfind
    simp only [Prod.mk.injEq] at heq
    obtain ⟨hprev, rfl, rfl⟩ := heq
    simp only [Option.map_none] at hsome
    rw [hsome]
    simp only [hprev]
    cases excl with
    | true => exact outD_word x d _
    | false => exact outD_word x d _
  · rw [if_neg hl] at hfind ⊢
    rw [Option.map_eq_none_iff, Option.map_none] at hfind
    rw [hfind]

/-- A scan of floats completes with what it gives each member. -/
theorem laneResult_scan {i : Instr} {d : VReg} {n : Nat} {src : Issue → Nat → RVal} {op : Issue → Comb} {out : Issue → RVal → List (Nat × Word)}
    (hs : slotsSound (slots i) = true) (hd : dslot .v 18 d.toNat n n n ∈ slots i) (he : ∀ s, exec i s = scan i src op false out s)
    (ho : ∀ x r k, LaneOut.inD { v := out x r, flags := k } (x.ext.vnum 18 d) n) :
    LaneResult i fun x l =>
      match (scanFrom (op x) (src x) x.members (none, 0)).find? fun (k, _) => k == l with
      | some (_, _, r, flags) => { v := out x r, flags := flags }
      | none => {} :=
  laneResult_inD hs hd he fun x l => by
    split
    · exact ho ..
    · exact LaneOut.inD_empty ..

/-- A reduction of floats completes with the root of its tree. -/
theorem laneResult_reduce {i : Instr} {d : VReg} {n : Nat} {src : Issue → Nat → RVal} {op : Issue → Comb}
    {out : Issue → RVal → List (Nat × Word)} (hs : slotsSound (slots i) = true) (hd : dslot .v 18 d.toNat n n n ∈ slots i)
    (he : ∀ s, exec i s = reduce i src op out s) (ho : ∀ x r k, LaneOut.inD { v := out x r, flags := k } (x.ext.vnum 18 d) n) :
    LaneResult i fun x _ =>
      let r := reduceTree (op x) (fun l => if l ∈ x.members then some (src x l) else none) 6 0
      { v := out x (r.1.getD (0, 0)), flags := r.2 } := by
  refine laneResult_inD hs hd (fun s => ?_) fun x l => ho ..
  rw [he, reduce]
  simp only [List.contains_iff_mem]

theorem claim_treeReductionsAndScans : Claim.TreeReductionsAndScans := by
  refine ⟨claim_combinesFollowTheirTable, ?_⟩
  intro fw d a f tree upTo prefix_
  refine ⟨?redf, ?redx, ?incl, ?excl, ?scanf, ?scanx⟩
  case redf =>
    exact laneResult_reduce (src := fun x l => (srcA x l a fw.regs, 0)) (op := fun x => addComb f (groupMode x)) (out := wordOut d fw.regs)
      (SlotsSound.redf fw d a) (List.mem_cons_self ..) (fun _ => rfl) fun x r k => wordOut_inD x d (fwRegs_pos fw) r k
  case redx =>
    exact laneResult_reduce (src := fun x l => dwSrc x l (x.ext.vnum 11 a) fw) (op := fun _ => dwComb f) (out := dwOut d fw)
      (SlotsSound.redx fw d a) (List.mem_cons_self ..) (fun _ => rfl) fun x r k => dwOut_inD x d fw r k
  case incl =>
    exact laneResult_scanAdd (excl := false) (SlotsSound.scaniAddI32 d a) (List.mem_cons_self ..) fun _ => rfl
  case excl =>
    exact laneResult_scanAdd (excl := true) (SlotsSound.scaniAddI32Excl d a) (List.mem_cons_self ..) fun _ => rfl
  case scanf =>
    exact laneResult_scan (src := fun x l => (srcA x l a 1, 0)) (op := fun x => addComb fp32 (groupMode x)) (out := wordOut d 1)
      (SlotsSound.scanfF32 d a) (List.mem_cons_self ..) (fun _ => rfl) fun x r k => wordOut_inD x d Nat.one_pos r k
  case scanx =>
    exact laneResult_scan (src := fun x l => dwSrc x l (x.ext.vnum 11 a) .f32) (op := fun _ => dwComb fp32) (out := dwOut d .f32)
      (SlotsSound.scanxF32 d a) (List.mem_cons_self ..) (fun _ => rfl) fun x r k => dwOut_inD x d .f32 r k

/-! ## RAND (R156) -/

/-- Two draws as the words of a pair. -/
theorem outD_draws (x : Issue) (d : VReg) (p q : Nat) :
    outD x d 2 (p % 2 ^ 32 + 2 ^ 32 * (q % 2 ^ 32)) = resPair x d (joinWords (BitVec.ofNat 32 p) (BitVec.ofNat 32 q)) := by
  rw [outD_two_eq, joinWords]
  rfl

theorem drawOf_mod (s : State) (g : Group) (l k : Nat) : drawOf s g l k % 2 ^ 32 = drawOf s g l k := Nat.mod_mod ..

theorem claim_randTakesTheNextDraws : Claim.RandTakesTheNextDraws := by
  intro d
  refine ⟨?n32, ?f32, ?n64⟩
  case n32 =>
    exact laneResultIn_inD (SlotsSound.randN32 d) (List.mem_cons_self ..) (fun _ => rfl) fun _ _ _ =>
      LaneOut.inD_of_vout rfl rfl Nat.one_pos
  case f32 =>
    exact laneResultIn_inD (SlotsSound.randF32 d) (List.mem_cons_self ..) (fun _ => rfl) fun _ _ _ =>
      LaneOut.inD_of_vout rfl rfl Nat.one_pos
  case n64 =>
    have hpair : ∀ (s : State) (x : Issue) l, outD x d 2 (drawOf s x.g l 0 + 2 ^ 32 * drawOf s x.g l 1)
        = resPair x d (joinWords (BitVec.ofNat 32 (drawOf s x.g l 0)) (BitVec.ofNat 32 (drawOf s x.g l 1))) := fun s x l => by
      rw [← outD_draws, drawOf_mod, drawOf_mod]
    refine laneResultIn_inD (SlotsSound.randN64 d) (List.mem_cons_self ..) (fun s => ?_) fun s x l =>
      LaneOut.inD_of_vout (congrArg LaneOut.v (hpair s x l).symm) rfl Nat.two_pos
    simp only [← hpair]
    rfl

end Sys2Proof.Machine

open Sys2Proof Sys2Proof.Machine

/-- Settles O40: integer reductions combine the members in any order, float ones follow the tree, and scans the members' order. -/
theorem reductionsScansAndRand : Obligations.ReductionsScansAndRand :=
  ⟨claim_integerReductionsCombineEveryMember, claim_treeReductionsAndScans, claim_randTakesTheNextDraws⟩

end

section
/-! PROOFS. Rounding (R95, R96): an exact value lies between two neighbouring multiples of its quantum, no code lies between them, and the
mode takes one of the two. -/
namespace Sys2Proof.Machine
open Sys2Proof.Laws

/-! ## Formats with infinities and NaNs -/

/-- What the formats of R83 that keep codes for infinities and NaNs have in common. -/
structure IsIeee (f : FloatFmt) : Prop where
  ieee : f.ieee = true
  code_ne_six : f.code ≠ 6
  code_ne_nine : f.code ≠ 9
  mbits_pos : 0 < f.mbits
  ebits_ge : 2 ≤ f.ebits
  bias_eq : f.bias = 2 ^ (f.ebits - 1) - 1

theorem isIeee_of_mem {f : FloatFmt} (h : f ∈ ieeeFormats) : IsIeee f := by
  simp only [ieeeFormats, List.mem_cons, List.not_mem_nil, or_false] at h
  rcases h with rfl | rfl | rfl | rfl | rfl <;> exact ⟨rfl, by decide, by decide, by decide, by decide, by decide⟩

namespace IsIeee

variable {f : FloatFmt} (hf : IsIeee f)
include hf

/-! ## Codes from their fields -/

theorem maxE_eq : f.maxE = 2 ^ f.ebits - 2 := by rw [FloatFmt.maxE, if_pos hf.ieee]

theorem maxM_eq : f.maxM = 2 ^ f.mbits - 1 := by rw [FloatFmt.maxM, if_neg hf.code_ne_six]

theorem four_le_two_pow_ebits : 4 ≤ 2 ^ f.ebits := Nat.pow_le_pow_right (show 0 < 2 by decide) hf.ebits_ge

theorem two_le_two_pow_mbits : 2 ≤ 2 ^ f.mbits := Nat.le_self_pow hf.mbits_pos.ne' 2

/-- The largest significand. -/
theorem maxSig_eq : 2 ^ f.mbits + f.maxM = 2 ^ (f.mbits + 1) - 1 := by
  have := hf.two_le_two_pow_mbits
  rw [hf.maxM_eq, pow_succ]
  omega

end IsIeee

/-- The fields of a code. -/
theorem pack_fields (f : FloatFmt) (neg : Bool) {e m : Nat} (he : e < 2 ^ f.ebits) (hm : m < 2 ^ f.mbits) :
    f.pack neg e m / 2 ^ (f.ebits + f.mbits) = neg.toNat ∧ bitsOf (f.pack neg e m) f.mbits f.ebits = e
      ∧ bitsOf (f.pack neg e m) 0 f.mbits = m := by
  have hform : f.pack neg e m = 2 ^ f.mbits * (2 ^ f.ebits * neg.toNat + e) + m := by
    rw [FloatFmt.pack, pow_add]
    cases neg <;> simp <;> ring
  have hdiv : f.pack neg e m / 2 ^ f.mbits = 2 ^ f.ebits * neg.toNat + e := by
    rw [hform, Nat.mul_add_div (Nat.two_pow_pos _), Nat.div_eq_of_lt hm, Nat.add_zero]
  refine ⟨?_, ?_, ?_⟩
  · rw [Nat.add_comm f.ebits, pow_add, ← Nat.div_div_eq_div_mul, hdiv, Nat.mul_add_div (Nat.two_pow_pos _), Nat.div_eq_of_lt he, Nat.add_zero]
  · rw [bitsOf, hdiv, Nat.mul_add_mod, Nat.mod_eq_of_lt he]
  · rw [bitsOf, pow_zero, Nat.div_one, hform, Nat.mul_add_mod, Nat.mod_eq_of_lt hm]

/-- A magnitude with a sign. -/
def signed (neg : Bool) (y : ℚ) : ℚ := if neg then -y else y

theorem abs_signed (neg : Bool) {y : ℚ} (h : 0 ≤ y) : |signed neg y| = y := by
  cases neg with
  | true => rw [signed, if_pos rfl, abs_neg, abs_of_nonneg h]
  | false => rw [signed, if_neg (by simp), abs_of_nonneg h]

theorem Exact.value_eq_signed (x : Exact) : x.value = signed x.neg x.mag := x.value_eq

/-- The exponent of the last place of the subnormals. -/
def FloatFmt.low (f : FloatFmt) : Int := f.emin - f.mbits
/-- The exponent of the last place of the largest finite magnitude. -/
def FloatFmt.high (f : FloatFmt) : Int := (f.maxE : Int) - f.bias - f.mbits

/-- What is said of a code that stands for a significand of units with a sign. -/
structure FloatFmt.Codes (f : FloatFmt) (c : Nat) (neg : Bool) (m : Nat) (e : Int) : Prop where
  isCode : f.isCode c (signed neg (unitsOf m e))
  sign : neg = true ↔ c / 2 ^ (f.ebits + f.mbits) % 2 = 1
  parity : c % 2 = m % 2

namespace IsIeee

variable {f : FloatFmt} (hf : IsIeee f)
include hf

theorem low_le_high : f.low ≤ f.high := by
  have h4 := hf.four_le_two_pow_ebits
  have hmax := hf.maxE_eq
  simp only [FloatFmt.low, FloatFmt.high, FloatFmt.emin]
  omega

theorem top_eq : f.top = unitsOf (2 ^ (f.mbits + 1) - 1) f.high := by
  rw [FloatFmt.top, Exact.value_eq, ← hf.maxSig_eq]
  rfl

theorem codes_pack_aux {neg : Bool} {e m : Nat} (he : e < 2 ^ f.ebits - 1) (hm : m < 2 ^ f.mbits) :
    f.decode (f.pack neg e m) = .fin (if e = 0 then ⟨neg, m, f.low, false⟩ else ⟨neg, 2 ^ f.mbits + m, (e : Int) - f.bias - f.mbits, false⟩)
      ∧ (neg = true ↔ f.pack neg e m / 2 ^ (f.ebits + f.mbits) % 2 = 1) ∧ f.pack neg e m % 2 = m % 2 := by
  obtain ⟨hsign, hexp, hman⟩ := pack_fields f neg (he.trans_le (Nat.sub_le ..)) hm
  refine ⟨?_, ?_, ?_⟩
  · have hbit : bitOf (f.pack neg e m) (f.ebits + f.mbits) = neg := by
      rw [bitOf, hsign]
      cases neg <;> rfl
    unfold FloatFmt.decode
    rw [hbit, hexp, hman]
    dsimp only
    rw [if_neg (fun h => he.ne h.2), if_neg (fun h => hf.code_ne_six h.1)]
    split <;> rfl
  · rw [hsign]
    cases neg <;> simp
  · have hm2 : bitsOf (f.pack neg e m) 0 f.mbits % 2 = f.pack neg e m % 2 := by
      rw [bitsOf, pow_zero, Nat.div_one]
      exact Nat.mod_mod_of_dvd _ (dvd_pow_self 2 hf.mbits_pos.ne')
    rw [← hm2, hman]

/-- A subnormal or zero. -/
theorem codes_pack_zero (neg : Bool) {m : Nat} (hm : m < 2 ^ f.mbits) : f.Codes (f.pack neg 0 m) neg m f.low := by
  have h4 := hf.four_le_two_pow_ebits
  obtain ⟨hdec, hsign, hpar⟩ := hf.codes_pack_aux (neg := neg) (show 0 < 2 ^ f.ebits - 1 by omega) hm
  exact ⟨⟨_, hdec, Exact.value_eq _⟩, hsign, hpar⟩

/-- A normal number. -/
theorem codes_pack_normal (neg : Bool) {e m : Nat} (he0 : e ≠ 0) (he : e < 2 ^ f.ebits - 1) (hm : m < 2 ^ f.mbits) :
    f.Codes (f.pack neg e m) neg (2 ^ f.mbits + m) ((e : Int) - f.bias - f.mbits) := by
  obtain ⟨hdec, hsign, hpar⟩ := hf.codes_pack_aux (neg := neg) he hm
  rw [if_neg he0] at hdec
  refine ⟨⟨_, hdec, Exact.value_eq _⟩, hsign, hpar.trans ?_⟩
  rw [Nat.add_mod, Nat.mod_eq_zero_of_dvd (dvd_pow_self 2 hf.mbits_pos.ne'), Nat.zero_add, Nat.mod_mod]

/-- The significand and the exponent of a code. -/
theorem decode_bounds {c : Nat} {z : Exact} (hdec : f.decode c = .fin z) :
    z.m < 2 ^ (f.mbits + 1) ∧ f.low ≤ z.e ∧ z.e ≤ f.high ∧ (z.e = f.low ∨ 2 ^ f.mbits ≤ z.m) := by
  have hpow : 2 ^ (f.mbits + 1) = 2 ^ f.mbits + 2 ^ f.mbits := by rw [pow_succ]; omega
  have hman : bitsOf c 0 f.mbits < 2 ^ f.mbits := bitsOf_lt ..
  have hexp : bitsOf c f.mbits f.ebits < 2 ^ f.ebits := bitsOf_lt ..
  have hmax := hf.maxE_eq
  have hlh := hf.low_le_high
  unfold FloatFmt.decode at hdec
  dsimp only at hdec
  split at hdec
  · split at hdec <;> cases hdec
  · next hnot =>
    rw [if_neg (fun h => hf.code_ne_six h.1)] at hdec
    split at hdec
    · cases hdec
      exact ⟨by dsimp only; omega, le_rfl, hlh, .inl rfl⟩
    · next he0 =>
      have hne : bitsOf c f.mbits f.ebits ≠ 2 ^ f.ebits - 1 := fun h => hnot ⟨hf.ieee, h⟩
      cases hdec
      simp only [FloatFmt.low, FloatFmt.high, FloatFmt.emin]
      exact ⟨by omega, by omega, by omega, .inr (Nat.le_add_right ..)⟩

/-- The magnitude of a code is a significand of units. -/
theorem isCode_units {c : Nat} {z : ℚ} (h : f.isCode c z) :
    ∃ m e, |z| = unitsOf m e ∧ m < 2 ^ (f.mbits + 1) ∧ f.low ≤ e ∧ e ≤ f.high := by
  obtain ⟨y, hdec, rfl⟩ := h
  obtain ⟨hm, hlo, hhi, -⟩ := hf.decode_bounds hdec
  exact ⟨y.m, y.e, y.abs_value, hm, hlo, hhi⟩

/-- No code is beyond the largest finite magnitude. -/
theorem isCode_le_top {c : Nat} {z : ℚ} (h : f.isCode c z) : |z| ≤ f.top := by
  obtain ⟨m, e, hz, hm, -, he⟩ := hf.isCode_units h
  rw [hz, hf.top_eq, ← unitsOf_at he]
  have hle : m ≤ 2 ^ (f.mbits + 1) - 1 := by omega
  exact unitsOf_le_iff.mpr (hle.trans (Nat.le_mul_of_pos_right _ (Nat.two_pow_pos _)))

/-- The largest finite magnitude with a sign has a code. -/
theorem codes_max (neg : Bool) : f.Codes (f.maxCode neg) neg (2 ^ (f.mbits + 1) - 1) f.high := by
  have h4 := hf.four_le_two_pow_ebits
  have hmax := hf.maxE_eq
  have := hf.codes_pack_normal neg (e := f.maxE) (m := f.maxM) (by omega) (by omega) (by rw [hf.maxM_eq]; have := hf.two_le_two_pow_mbits; omega)
  rwa [hf.maxSig_eq] at this

/-- No code lies between neighbouring multiples of the quantum of a value. -/
theorem code_gap {c : Nat} {z : ℚ} (h : f.isCode c z) {n : Nat} {q : Int} (hn : q = f.low ∨ 2 ^ f.mbits ≤ n) :
    |z| ≤ unitsOf n q ∨ unitsOf (n + 1) q ≤ |z| := by
  obtain ⟨m, e, hz, hm, hlo, -⟩ := hf.isCode_units h
  rw [hz]
  by_cases he : q ≤ e
  · rw [← unitsOf_at he, unitsOf_le_iff, unitsOf_le_iff]
    omega
  · left
    have hn' : 2 ^ f.mbits ≤ n := hn.resolve_left (by omega)
    calc unitsOf m e ≤ unitsOf (2 ^ (f.mbits + 1)) e := unitsOf_le_iff.mpr hm.le
      _ = 2 ^ (e + (f.mbits + 1 : Nat)) := unitsOf_two_pow ..
      _ ≤ 2 ^ (q + (f.mbits : Nat)) := zpow_le_zpow_right₀ one_le_two (by push_cast; omega)
      _ = unitsOf (2 ^ f.mbits) q := (unitsOf_two_pow ..).symm
      _ ≤ unitsOf n q := unitsOf_le_iff.mpr hn'

theorem top_lt : f.top < 2 ^ (f.high + (f.mbits + 1 : Nat)) := by
  rw [hf.top_eq, ← unitsOf_two_pow]
  exact unitsOf_lt_iff.mpr (Nat.sub_one_lt (Nat.two_pow_pos _).ne')

/-- A full significand within the range stands at an exponent within it. -/
theorem le_high {m : Nat} {e : Int} (hm : 2 ^ f.mbits ≤ m) (h : unitsOf m e ≤ f.top) : e ≤ f.high := by
  have hlt : (2 : ℚ) ^ (e + (f.mbits : Nat)) < 2 ^ (f.high + (f.mbits + 1 : Nat)) :=
    calc (2 : ℚ) ^ (e + (f.mbits : Nat)) = unitsOf (2 ^ f.mbits) e := (unitsOf_two_pow ..).symm
      _ ≤ unitsOf m e := unitsOf_le_iff.mpr hm
      _ < _ := h.trans_lt hf.top_lt
  have := (zpow_lt_zpow_iff_right₀ (one_lt_two (α := ℚ))).mp hlt
  push_cast at this
  omega

/-- A normal code of a full significand at an exponent within the range. -/
theorem codes_normal (neg : Bool) {m : Nat} {e : Int} (hlo : f.low ≤ e) (hm : 2 ^ f.mbits ≤ m) (hm' : m < 2 ^ (f.mbits + 1))
    (htop : unitsOf m e ≤ f.top) : f.Codes (f.pack neg (e + f.mbits + f.bias).toNat (m - 2 ^ f.mbits)) neg m e := by
  have hhi := hf.le_high hm htop
  have hmax := hf.maxE_eq
  have h4 := hf.four_le_two_pow_ebits
  have hpow : 2 ^ (f.mbits + 1) = 2 ^ f.mbits + 2 ^ f.mbits := by rw [pow_succ]; omega
  simp only [FloatFmt.low, FloatFmt.high, FloatFmt.emin] at hlo hhi
  have hcodes := hf.codes_pack_normal neg (e := (e + f.mbits + f.bias).toNat) (m := m - 2 ^ f.mbits) (by omega) (by omega) (by omega)
  have hexp : (((e + f.mbits + f.bias).toNat : Nat) : Int) - f.bias - f.mbits = e := by omega
  rwa [hexp, Nat.add_sub_cancel' hm] at hcodes

/-- A rounded magnitude that does not overflow is encoded as itself. -/
theorem codes_encodeMag (neg : Bool) {n : Nat} {q : Int} (hq : f.low ≤ q) (hn : q = f.low ∨ 2 ^ f.mbits ≤ n)
    (hle : n ≤ 2 ^ (f.mbits + 1)) (htop : unitsOf n q ≤ f.top) : f.Codes (encodeMag f neg n q) neg n q := by
  have hemin : f.emin = f.low + f.mbits := by simp [FloatFmt.low]
  unfold encodeMag
  by_cases h0 : n = 0
  · subst h0
    have hq' : q = f.low := hn.resolve_right (by have := Nat.two_pow_pos f.mbits; omega)
    have h9 : (f.code != 9) = true := by simpa using hf.code_ne_nine
    rw [if_pos rfl, h9, Bool.and_true, hq']
    exact hf.codes_pack_zero neg (Nat.two_pow_pos _)
  rw [if_neg h0]
  dsimp only
  by_cases hfull : 2 ^ f.mbits ≤ n
  · have hlen : f.mbits < lenOf n := lt_lenOf_iff.mpr hfull
    rw [if_neg (by omega)]
    by_cases hcarry : n < 2 ^ (f.mbits + 1)
    · have hlen' : lenOf n = f.mbits + 1 := lenOf_eq hfull hcarry
      rw [if_pos hlen'.le, hlen', Nat.sub_self, pow_zero, Nat.mul_one]
      have hlead : q + ((f.mbits + 1 : Nat) : Int) - 1 + f.bias = q + f.mbits + f.bias := by push_cast; ring
      rw [hlead]
      exact hf.codes_normal neg hq hfull hcarry htop
    · obtain rfl : n = 2 ^ (f.mbits + 1) := by omega
      have hlen' : lenOf (2 ^ (f.mbits + 1)) = f.mbits + 1 + 1 := lenOf_eq le_rfl (Nat.pow_lt_pow_right (by decide) (Nat.lt_succ_self _))
      have hhalf : 2 ^ (f.mbits + 1) / 2 ^ (f.mbits + 1 + 1 - (f.mbits + 1)) = 2 ^ f.mbits := by
        rw [Nat.add_sub_cancel_left, pow_one, pow_succ, Nat.mul_div_cancel _ (by decide)]
      have hunits : unitsOf (2 ^ (f.mbits + 1)) q = unitsOf (2 ^ f.mbits) (q + 1) := by
        rw [unitsOf_two_pow, unitsOf_two_pow]
        congr 1
        push_cast
        ring
      rw [hlen', if_neg (by omega), hhalf]
      have hlead : q + ((f.mbits + 1 + 1 : Nat) : Int) - 1 + f.bias = q + 1 + f.mbits + f.bias := by push_cast; ring
      rw [hlead]
      rw [hunits] at htop
      obtain ⟨hcode, hsign, hpar⟩ := hf.codes_normal neg (e := q + 1) (by omega) le_rfl (Nat.pow_lt_pow_right (by decide) (Nat.lt_succ_self _)) htop
      refine ⟨hunits ▸ hcode, hsign, hpar.trans ?_⟩
      rw [Nat.mod_eq_zero_of_dvd (dvd_pow_self 2 hf.mbits_pos.ne'), Nat.mod_eq_zero_of_dvd (dvd_pow_self 2 (Nat.succ_ne_zero _))]
  · have hq' : q = f.low := hn.resolve_right hfull
    have hlen : lenOf n ≤ f.mbits := lenOf_le_iff.mpr (not_le.mp hfull)
    rw [if_pos (by omega), hq', ← FloatFmt.low, sub_self, Int.toNat_zero, pow_zero, Nat.mul_one]
    exact hf.codes_pack_zero neg (not_le.mp hfull)

end IsIeee

/-! ## Rounding to a multiple of a quantum -/

/-- Whether a mode takes the upper of the two multiples of 2^q between which a magnitude lies, of which n is the number of the lower. -/
def takesUpper (mode : Nat) (neg : Bool) (n : Nat) (q : Int) (v : ℚ) : Prop :=
  match mode with
  | 0 => unitsOf (2 * n + 1) (q - 1) < v ∨ v = unitsOf (2 * n + 1) (q - 1) ∧ n % 2 = 1
  | 1 => False
  | 2 => v ≠ unitsOf n q ∧ neg = false
  | 3 => v ≠ unitsOf n q ∧ neg = true
  | 4 => unitsOf (2 * n + 1) (q - 1) ≤ v
  | _ => False

/-- A rounding of a magnitude to a multiple of 2^q: n is the number of the lower of its neighbours, k that of the one taken. -/
structure RoundsAt (mode : Nat) (x : Exact) (q : Int) (n : Nat) : Prop where
  floor_le : unitsOf n q ≤ x.mag
  lt_next : x.mag < unitsOf (n + 1) q
  taken : (takesUpper mode x.neg n q x.mag ∧ (roundAt ⟨mode, 0⟩ x q).1 = n + 1)
    ∨ (¬ takesUpper mode x.neg n q x.mag ∧ (roundAt ⟨mode, 0⟩ x q).1 = n)
  inexact : (roundAt ⟨mode, 0⟩ x q).2 = decide (x.mag ≠ unitsOf n q)

theorem unitsOf_succ (n : Nat) (q : Int) : unitsOf (n + 1) q = unitsOf n q + 2 ^ q := by
  rw [unitsOf, unitsOf]
  push_cast
  ring

theorem unitsOf_half (n : Nat) (q : Int) : unitsOf (2 * n + 1) (q - 1) = unitsOf n q + 2 ^ q / 2 := by
  rw [unitsOf, unitsOf, zpow_sub_one₀ two_ne_zero]
  push_cast
  ring

/-- A magnitude that is a multiple of the quantum is taken as it is. -/
theorem not_takesUpper_of_eq {mode : Nat} {neg : Bool} {n : Nat} {q : Int} {v : ℚ} (h : v = unitsOf n q) : ¬ takesUpper mode neg n q v := by
  have hpos := zpow_two_pos q
  unfold takesUpper
  rw [unitsOf_half, h]
  split
  · rintro (h' | ⟨h', -⟩) <;> linarith
  · exact id
  · exact fun h' => h'.1 rfl
  · exact fun h' => h'.1 rfl
  · intro h'
    linarith
  · exact id

/-- The mode's choice on a magnitude of which the last s bits of a number are cut off. -/
theorem roundsUp_iff {mode : Nat} (hmode : mode < 5) {x : Exact} {q : Int} {s : Nat} (hq : x.e + s = q) :
    roundsUp ⟨mode, 0⟩ x.neg (x.m / 2 ^ s) (x.m % 2 ^ s) s false = true ↔ takesUpper mode x.neg (x.m / 2 ^ s) q x.mag := by
  have hsplit : x.m = x.m / 2 ^ s * 2 ^ s + x.m % 2 ^ s := by rw [Nat.mul_comm]; exact (Nat.div_add_mod ..).symm
  have hmag : x.mag = unitsOf (x.m / 2 ^ s) q + unitsOf (x.m % 2 ^ s) x.e := by
    rw [← hq, ← unitsOf_mul_two_pow, Exact.mag, unitsOf, unitsOf, unitsOf, ← add_mul, ← Nat.cast_add, ← hsplit]
  have hunit : (2 : ℚ) ^ q = unitsOf (2 ^ s) x.e := by rw [unitsOf_two_pow, hq]
  have htwice : ∀ r, 2 * unitsOf r x.e = unitsOf (2 * r) x.e := fun r => by rw [unitsOf, unitsOf]; push_cast; ring
  have hgt : unitsOf (x.m / 2 ^ s) q + 2 ^ q / 2 < x.mag ↔ 2 ^ s < 2 * (x.m % 2 ^ s) := by
    rw [hmag, add_lt_add_iff_left, div_lt_iff₀ two_pos, mul_comm, htwice, hunit, unitsOf_lt_iff]
  have hge : unitsOf (x.m / 2 ^ s) q + 2 ^ q / 2 ≤ x.mag ↔ 2 ^ s ≤ 2 * (x.m % 2 ^ s) := by
    rw [hmag, add_le_add_iff_left, div_le_iff₀ two_pos, mul_comm, htwice, hunit, unitsOf_le_iff]
  have heq : x.mag = unitsOf (x.m / 2 ^ s) q + 2 ^ q / 2 ↔ 2 * (x.m % 2 ^ s) = 2 ^ s := by
    rw [le_antisymm_iff, le_antisymm_iff, hge, ← not_lt, hgt, not_lt]
  have hne : x.mag ≠ unitsOf (x.m / 2 ^ s) q ↔ x.m % 2 ^ s ≠ 0 := by
    rw [hmag, Ne, add_eq_left, unitsOf_eq_zero]
  unfold roundsUp takesUpper
  rw [unitsOf_half]
  interval_cases mode
  · simp [hgt, heq]
  · simp
  · simp [hne]
  · simp [hne]
  · simp [hge]

/-- The mode's choice on a magnitude below every half. -/
theorem roundsUp_far_iff {mode : Nat} (hmode : mode < 5) {x : Exact} {q : Int} (hfar : x.mag < 2 ^ q / 2) :
    roundsUp ⟨mode, 0⟩ x.neg 0 0 1 (x.m != 0) = true ↔ takesUpper mode x.neg 0 q x.mag := by
  have hne : x.mag ≠ unitsOf 0 q ↔ x.m ≠ 0 := by rw [unitsOf_eq_zero.mpr rfl, Ne, Exact.mag, unitsOf_eq_zero]
  unfold roundsUp takesUpper
  rw [unitsOf_half, unitsOf_eq_zero.mpr rfl, zero_add]
  rw [unitsOf_eq_zero.mpr rfl] at hne
  interval_cases mode
  · simp [hfar.le]
  · simp
  · simp [hne]
  · simp [hne]
  · simp [hfar]

/-- Rounding to a multiple of 2^q takes one of the neighbours of the magnitude. -/
theorem exists_roundsAt {mode : Nat} (hmode : mode < 5) {x : Exact} (hx : x.sticky = false) (q : Int) : ∃ n, RoundsAt mode x q n := by
  by_cases hq : q ≤ x.e
  · have hmag : x.mag = unitsOf (x.m * 2 ^ (x.e - q).toNat) q := (unitsOf_at hq x.m).symm
    refine ⟨x.m * 2 ^ (x.e - q).toNat, hmag.ge, ?_, .inr ⟨not_takesUpper_of_eq hmag, ?_⟩, ?_⟩
    · rw [unitsOf_succ, hmag]
      exact lt_add_of_pos_right _ (zpow_two_pos q)
    · rw [roundAt, if_pos hq]
    · rw [roundAt, if_pos hq]
      simp [hx, hmag]
  obtain ⟨s, hs, hqs⟩ : ∃ s : Nat, (q - x.e).toNat = s ∧ x.e + s = q := ⟨_, rfl, by omega⟩
  have hround : roundAt ⟨mode, 0⟩ x q = if lenOf x.m + 34 < s then
        (if roundsUp ⟨mode, 0⟩ x.neg 0 0 1 (x.m != 0) then 1 else 0, x.m != 0)
      else (if roundsUp ⟨mode, 0⟩ x.neg (x.m / 2 ^ s) (x.m % 2 ^ s) s false then x.m / 2 ^ s + 1 else x.m / 2 ^ s, x.m % 2 ^ s != 0) := by
    simp only [roundAt, if_neg hq, hs, hx, Bool.or_false]
  by_cases hfar : lenOf x.m + 34 < s
  · have hsmall : x.mag < 2 ^ q / 2 :=
      calc x.mag < 2 ^ (x.e + lenOf x.m) := unitsOf_lt_zpow ..
        _ ≤ 2 ^ (q - 1) := zpow_le_zpow_right₀ one_le_two (by omega)
        _ = 2 ^ q / 2 := zpow_sub_one₀ two_ne_zero q
    have hzero : unitsOf 0 q = 0 := unitsOf_eq_zero.mpr rfl
    rw [if_pos hfar] at hround
    refine ⟨0, hzero.trans_le x.mag_nonneg, ?_, ?_, ?_⟩
    · rw [unitsOf_succ, hzero, zero_add]
      have := zpow_two_pos q
      linarith
    · rw [hround, ← roundsUp_far_iff hmode hsmall]
      cases roundsUp ⟨mode, 0⟩ x.neg 0 0 1 (x.m != 0) <;> simp
    · rw [hround, hzero, Bool.eq_iff_iff]
      simp [Exact.mag, unitsOf_eq_zero]
  · have hunit : x.mag = unitsOf (x.m / 2 ^ s) q + unitsOf (x.m % 2 ^ s) x.e := by
      rw [← hqs, ← unitsOf_mul_two_pow, Exact.mag, unitsOf, unitsOf, unitsOf, ← add_mul, ← Nat.cast_add, Nat.mul_comm,
        Nat.div_add_mod]
    have hrem : unitsOf (x.m % 2 ^ s) x.e < 2 ^ q := by
      rw [← hqs, ← unitsOf_two_pow]
      exact unitsOf_lt_iff.mpr (Nat.mod_lt _ (Nat.two_pow_pos s))
    have hrem0 := unitsOf_nonneg (x.m % 2 ^ s) x.e
    rw [if_neg hfar] at hround
    refine ⟨x.m / 2 ^ s, by linarith, ?_, ?_, ?_⟩
    · rw [unitsOf_succ]
      linarith
    · rw [hround, ← roundsUp_iff hmode hqs]
      cases roundsUp ⟨mode, 0⟩ x.neg (x.m / 2 ^ s) (x.m % 2 ^ s) s false <;> simp
    · rw [hround, hunit, Bool.eq_iff_iff]
      simp [unitsOf_eq_zero]

/-! ## Rounding into a format -/

/-- A rounding of an exact value into a format: n is the number of the multiple of 2^q below its magnitude, k that of the one taken. -/
structure Rounds (f : FloatFmt) (mode : Nat) (x : Exact) (q : Int) (n k : Nat) : Prop where
  low_le : f.low ≤ q
  full : q = f.low ∨ 2 ^ f.mbits ≤ n
  lt_full : n < 2 ^ (f.mbits + 1)
  floor_le : unitsOf n q ≤ x.mag
  lt_next : x.mag < unitsOf (n + 1) q
  taken : (takesUpper mode x.neg n q x.mag ∧ k = n + 1) ∨ (¬ takesUpper mode x.neg n q x.mag ∧ k = n)
  fits : unitsOf k q ≤ f.top → f.Codes (roundTo f ⟨mode, 0⟩ false x).code x.neg k q
    ∧ ((roundTo f ⟨mode, 0⟩ false x).flags.getLsbD 0 = true ↔ x.mag ≠ unitsOf n q)
  overflows : f.top < unitsOf k q → (roundTo f ⟨mode, 0⟩ false x).code = overflowCode f ⟨mode, 0⟩ false x.neg
    ∧ (roundTo f ⟨mode, 0⟩ false x).flags.getLsbD 0 = true

theorem top_eq_units (f : FloatFmt) : f.top = unitsOf (f.maxExact false).m (f.maxExact false).e := by
  rw [FloatFmt.top, Exact.value_eq]
  rfl

theorem quantum_true (f : FloatFmt) (x : Exact) : quantum f x true = max (x.e + lenOf x.m - 1 - f.mbits) f.low := rfl

/-- Every value is rounded to one of the neighbours of its magnitude. -/
theorem exists_rounds {f : FloatFmt} (hf : IsIeee f) {mode : Nat} (hmode : mode < 5) {x : Exact} (hx : x.sticky = false) :
    ∃ q n k, Rounds f mode x q n k := by
  by_cases h0 : x.m = 0
  · have hmag : x.mag = 0 := unitsOf_eq_zero.mpr h0
    have hzero : ∀ e, unitsOf 0 e = 0 := fun e => unitsOf_eq_zero.mpr rfl
    have hcode : roundTo f ⟨mode, 0⟩ false x = ⟨f.pack x.neg 0 0, 0⟩ := by
      have h9 : (f.code != 9) = true := by simpa using hf.code_ne_nine
      rw [roundTo, if_pos (by simp [Exact.isZero, h0, hx]), h9, Bool.and_true]
    have htop : 0 ≤ f.top := by rw [hf.top_eq]; exact unitsOf_nonneg ..
    refine ⟨f.low, 0, 0, le_rfl, .inl rfl, Nat.two_pow_pos _, (hzero _).trans_le hmag.ge, ?_, .inr ⟨?_, rfl⟩, fun _ => ?_, fun h => ?_⟩
    · rw [hmag, unitsOf_succ, hzero, zero_add]
      exact zpow_two_pos _
    · exact not_takesUpper_of_eq (hmag.trans (hzero _).symm)
    · rw [hcode, hmag, hzero]
      exact ⟨hf.codes_pack_zero x.neg (Nat.two_pow_pos _), by simp⟩
    · rw [hzero] at h
      exact absurd h htop.not_gt
  obtain ⟨n, hfloor, hnext, htaken, hinexact⟩ := exists_roundsAt hmode hx (quantum f x true)
  have hq := quantum_true f x
  have hlow : f.low ≤ quantum f x true := hq ▸ le_max_right ..
  have hmbits : ((f.mbits + 1 : Nat) : Int) = f.mbits + 1 := by push_cast; rfl
  have hlt_full : n < 2 ^ (f.mbits + 1) := by
    rw [← unitsOf_lt_iff (e := quantum f x true)]
    calc unitsOf n (quantum f x true) ≤ x.mag := hfloor
      _ < 2 ^ (x.e + lenOf x.m) := unitsOf_lt_zpow ..
      _ ≤ 2 ^ (quantum f x true + (f.mbits + 1 : Nat)) := zpow_le_zpow_right₀ one_le_two (by omega)
      _ = unitsOf (2 ^ (f.mbits + 1)) (quantum f x true) := (unitsOf_two_pow ..).symm
  have hfull : quantum f x true = f.low ∨ 2 ^ f.mbits ≤ n := by
    by_cases hl : quantum f x true = f.low
    · exact .inl hl
    · right
      rw [← Nat.lt_succ_iff, Nat.succ_eq_add_one, ← unitsOf_lt_iff (e := quantum f x true)]
      calc unitsOf (2 ^ f.mbits) (quantum f x true) = 2 ^ (quantum f x true + (f.mbits : Nat)) := unitsOf_two_pow ..
        _ ≤ 2 ^ (x.e + lenOf x.m - 1) := zpow_le_zpow_right₀ one_le_two (by omega)
        _ ≤ x.mag := zpow_le_unitsOf h0 _
        _ < unitsOf (n + 1) (quantum f x true) := hnext
  refine ⟨quantum f x true, n, (roundAt ⟨mode, 0⟩ x (quantum f x true)).1, hlow, hfull, hlt_full, hfloor, hnext, htaken, fun hle => ?_,
    fun hlt => ?_⟩
  · have hround : roundTo f ⟨mode, 0⟩ false x = ⟨encodeMag f x.neg (roundAt ⟨mode, 0⟩ x (quantum f x true)).1 (quantum f x true),
        flagIf (roundAt ⟨mode, 0⟩ x (quantum f x true)).2 flagIX
          ||| flagIf ((roundAt ⟨mode, 0⟩ x (quantum f x true)).2 && tiny f ⟨mode, 0⟩ x) flagUF⟩ := by
      rw [roundTo, if_neg (by simp [Exact.isZero, h0])]
      dsimp only
      rw [cmpMag_eq, if_neg]
      rw [beq_iff_eq, compare_gt_iff_gt, not_lt, ← top_eq_units]
      exact hle
    rw [hround]
    refine ⟨hf.codes_encodeMag x.neg hlow ?_ ?_ hle, ?_⟩
    · rcases htaken with ⟨-, hk⟩ | ⟨-, hk⟩ <;> rw [hk] <;> omega
    · rcases htaken with ⟨-, hk⟩ | ⟨-, hk⟩ <;> rw [hk] <;> omega
    · rw [hinexact]
      by_cases hne : x.mag = unitsOf n (quantum f x true)
      · simp [hne, flagIf]
      · cases tiny f ⟨mode, 0⟩ x <;> simp [hne, flagIf, flagIX, flagUF]
  · have hround : roundTo f ⟨mode, 0⟩ false x = ⟨overflowCode f ⟨mode, 0⟩ false x.neg, flagOF ||| flagIX⟩ := by
      rw [roundTo, if_neg (by simp [Exact.isZero, h0])]
      dsimp only
      rw [cmpMag_eq, if_pos]
      rw [beq_iff_eq, compare_gt_iff_gt, ← top_eq_units]
      exact hlt
    rw [hround]
    exact ⟨rfl, (by decide : (flagOF ||| flagIX).getLsbD 0 = true)⟩

/-! ## Neighbours -/

theorem signed_inj {neg : Bool} {a b : ℚ} : signed neg a = signed neg b ↔ a = b := by cases neg <;> simp [signed]

theorem abs_signed_sub (neg : Bool) (a b : ℚ) : |signed neg a - signed neg b| = |a - b| := by
  cases neg with
  | true => rw [signed, signed, if_pos rfl, if_pos rfl, neg_sub_neg, abs_sub_comm]
  | false => rfl

/-- The modes to nearest. -/
def toNearest (mode : Nat) : Prop := mode = 0 ∨ mode = 4

/-- The modes that cut off a value of a sign. -/
def cutsOff (mode : Nat) (neg : Bool) : Prop := mode = 1 ∨ mode = 2 ∧ neg = true ∨ mode = 3 ∧ neg = false

/-- The modes that take a value of a sign away from zero. -/
def goesOut (mode : Nat) (neg : Bool) : Prop := mode = 2 ∧ neg = false ∨ mode = 3 ∧ neg = true

/-- What is said of the code that a rounding delivers: the number that it stands for, its sign and IX. -/
def Delivers (f : FloatFmt) (x : Exact) (mode c : Nat) (y : ℚ) : Prop :=
  (roundTo f ⟨mode, 0⟩ false x).code = c ∧ f.isCode c y ∧ (x.neg = true ↔ c / 2 ^ (f.ebits + f.mbits) % 2 = 1)
    ∧ ((roundTo f ⟨mode, 0⟩ false x).flags.getLsbD 0 = true ↔ y ≠ x.value)

namespace Rounds

variable {f : FloatFmt} {mode : Nat} {x : Exact} {q : Int} {n k : Nat} (hr : Rounds f mode x q n k)
include hr

theorem k_cases : k = n ∨ k = n + 1 := by
  rcases hr.taken with ⟨-, h⟩ | ⟨-, h⟩
  · exact .inr h
  · exact .inl h

/-- The magnitude is taken exactly where it is a multiple of the quantum. -/
theorem exact_iff : unitsOf k q = x.mag ↔ x.mag = unitsOf n q := by
  have hnext := hr.lt_next
  rcases hr.taken with ⟨hup, rfl⟩ | ⟨-, rfl⟩
  · exact ⟨fun h => absurd h hnext.ne', fun h => absurd hup (not_takesUpper_of_eq h)⟩
  · exact eq_comm

/-- A rounding that does not overflow delivers the neighbour taken. -/
theorem delivers (h : unitsOf k q ≤ f.top) :
    Delivers f x mode (roundTo f ⟨mode, 0⟩ false x).code (signed x.neg (unitsOf k q)) ∧ (roundTo f ⟨mode, 0⟩ false x).code % 2 = k % 2 := by
  obtain ⟨⟨hcode, hsign, hpar⟩, hix⟩ := hr.fits h
  refine ⟨⟨rfl, hcode, hsign, hix.trans ?_⟩, hpar⟩
  rw [x.value_eq_signed, Ne, Ne, signed_inj, hr.exact_iff]

/-- The neighbour taken to nearest is no further away than either. -/
theorem near (hm : toNearest mode) :
    |unitsOf k q - x.mag| ≤ x.mag - unitsOf n q ∧ |unitsOf k q - x.mag| ≤ unitsOf (n + 1) q - x.mag := by
  have hfloor := hr.floor_le
  have hnext := hr.lt_next
  have hup : takesUpper mode x.neg n q x.mag → unitsOf (2 * n + 1) (q - 1) ≤ x.mag := by
    rcases hm with rfl | rfl
    · rintro (h | h)
      · exact h.le
      · exact h.1.ge
    · exact id
  have hdown : ¬ takesUpper mode x.neg n q x.mag → x.mag ≤ unitsOf (2 * n + 1) (q - 1) := by
    rcases hm with rfl | rfl
    · exact fun h => not_lt.mp fun h' => h (.inl h')
    · exact fun h => (not_le.mp h).le
  rw [unitsOf_half] at hup hdown
  rw [unitsOf_succ n q] at hnext ⊢
  rcases hr.taken with ⟨h, rfl⟩ | ⟨h, rfl⟩
  · have := hup h
    rw [unitsOf_succ, abs_of_nonneg (by linarith)]
    constructor <;> linarith
  · have := hdown h
    rw [abs_of_nonpos (by linarith)]
    constructor <;> linarith

/-- A code is no nearer than the neighbour taken. -/
theorem near_code (hf : IsIeee f) (hm : toNearest mode) {c : Nat} {z : ℚ} (hz : f.isCode c z) :
    |signed x.neg (unitsOf k q) - x.value| ≤ |z - x.value| := by
  obtain ⟨hlo, hhi⟩ := hr.near hm
  have habs : |(|z| - x.mag)| ≤ |z - x.value| := by
    rw [← x.abs_value]
    exact abs_abs_sub_abs_le ..
  rw [x.value_eq_signed, abs_signed_sub, ← x.value_eq_signed]
  refine le_trans ?_ habs
  rcases hf.code_gap hz hr.full with h | h
  · rw [abs_sub_comm |z|]
    exact (hlo.trans (by linarith)).trans (le_abs_self _)
  · exact (hhi.trans (by linarith)).trans (le_abs_self _)

/-- Another code as near as the neighbour taken is there only for a value midway between the neighbours. -/
theorem midway_of_tie (hf : IsIeee f) (hm : toNearest mode) {c : Nat} {z : ℚ} (hz : f.isCode c z)
    (htie : |signed x.neg (unitsOf k q) - x.value| = |z - x.value|) (hne : z ≠ signed x.neg (unitsOf k q)) :
    x.mag = unitsOf (2 * n + 1) (q - 1) ∧ |z| ≤ unitsOf (n + 1) q := by
  obtain ⟨hlo, hhi⟩ := hr.near hm
  have hfloor := hr.floor_le
  have hnext := hr.lt_next
  have hpos := zpow_two_pos q
  have hdist := htie
  rw [x.value_eq_signed, abs_signed_sub] at hdist
  have habs : |(|z| - x.mag)| ≤ |unitsOf k q - x.mag| := by
    rw [hdist, ← x.value_eq_signed, ← x.abs_value]
    exact abs_abs_sub_abs_le ..
  have hother : |z| ≠ unitsOf k q := by
    intro h
    have hk := unitsOf_nonneg k q
    have hmag := x.mag_nonneg
    have hzs : z = signed x.neg (unitsOf k q) ∨ z = -signed x.neg (unitsOf k q) := by
      have := abs_eq_abs.mp (h.trans (abs_signed x.neg hk).symm)
      exact this
    rcases hzs with h' | h'
    · exact hne h'
    · have hsum : |unitsOf k q - x.mag| = unitsOf k q + x.mag := by
        rw [hdist, h']
        cases x.neg with
        | true => rw [signed, signed, if_pos rfl, if_pos rfl, neg_neg, sub_neg_eq_add, abs_of_nonneg (by linarith)]
        | false => rw [signed, signed, if_neg (by simp), if_neg (by simp), abs_of_nonpos (by linarith)]; ring
      rcases abs_cases (unitsOf k q - x.mag) with ⟨h1, -⟩ | ⟨h1, -⟩
      · have hm0 : x.mag = 0 := by linarith
        have hn0 : unitsOf n q = 0 := le_antisymm (hfloor.trans hm0.le) (unitsOf_nonneg ..)
        have hk0 : unitsOf k q = 0 := by rw [hr.exact_iff.mpr (hm0.trans hn0.symm), hm0]
        exact hne (by rw [h', hk0]; cases x.neg <;> simp [signed])
      · have hk0 : unitsOf k q = 0 := by linarith
        exact hne (by rw [h', hk0]; cases x.neg <;> simp [signed])
  rw [unitsOf_half]
  rw [unitsOf_succ n q] at *
  rcases hf.code_gap hz hr.full with h | h
  · have hz' : x.mag - |z| ≤ |unitsOf k q - x.mag| := (le_abs_self _).trans (by rwa [abs_sub_comm])
    have hzlo : |z| = unitsOf n q := by linarith
    have hk : k = n + 1 := hr.k_cases.resolve_left fun h => hother (h ▸ hzlo)
    have hd : |unitsOf n q + 2 ^ q - x.mag| = unitsOf n q + 2 ^ q - x.mag := abs_of_nonneg (by linarith)
    rw [hk, unitsOf_succ, hd] at hlo hz'
    constructor <;> linarith
  · rw [unitsOf_succ n q] at h
    have hz' : |z| - x.mag ≤ |unitsOf k q - x.mag| := (le_abs_self _).trans habs
    have hzhi : |z| = unitsOf n q + 2 ^ q := by linarith
    have hk : k = n := hr.k_cases.resolve_right fun h => hother (by rw [h, unitsOf_succ, hzhi])
    have hd : |unitsOf n q - x.mag| = -(unitsOf n q - x.mag) := abs_of_nonpos (by linarith)
    rw [hk, hd] at hhi hz'
    constructor <;> linarith

/-- A rounding to nearest overflows from the limit on. -/
theorem top_lt_iff (hf : IsIeee f) (hm : toNearest mode) : f.top < unitsOf k q ↔ f.limit ≤ x.mag := by
  have hlimit : f.limit = unitsOf (2 * (2 ^ (f.mbits + 1) - 1) + 1) (f.high - 1) := by
    rw [unitsOf_half, ← hf.top_eq, FloatFmt.limit, zpow_sub_one₀ two_ne_zero]
    rfl
  have hpos := zpow_two_pos f.high
  have hlt : f.top < f.limit := by
    rw [hlimit, unitsOf_half, ← hf.top_eq]
    linarith
  have hmax : f.isCode (f.maxCode false) f.top := by
    rw [hf.top_eq]
    exact (hf.codes_max false).isCode
  have habs : |f.top| = f.top := abs_of_nonneg (by rw [hf.top_eq]; exact unitsOf_nonneg ..)
  have hgap := hf.code_gap hmax hr.full
  rw [habs] at hgap
  have hkn : unitsOf n q ≤ unitsOf k q := unitsOf_le_iff.mpr (by rcases hr.k_cases with h | h <;> omega)
  have hkn' : unitsOf k q ≤ unitsOf (n + 1) q := unitsOf_le_iff.mpr (by rcases hr.k_cases with h | h <;> omega)
  rcases hgap with h | h
  · have hsig : 2 ^ f.mbits ≤ 2 ^ (f.mbits + 1) - 1 := by
      have := Nat.two_pow_pos f.mbits
      rw [pow_succ]
      omega
    have hq : f.high ≤ q := by
      by_contra hlt
      refine absurd h (not_le.mpr ?_)
      calc unitsOf n q < unitsOf (2 ^ (f.mbits + 1)) q := unitsOf_lt_iff.mpr hr.lt_full
        _ = 2 ^ (q + (f.mbits + 1 : Nat)) := unitsOf_two_pow ..
        _ ≤ 2 ^ (f.high + (f.mbits : Nat)) := zpow_le_zpow_right₀ one_le_two (by push_cast; omega)
        _ = unitsOf (2 ^ f.mbits) f.high := (unitsOf_two_pow ..).symm
        _ ≤ f.top := hf.top_eq ▸ unitsOf_le_iff.mpr hsig
    rcases hq.lt_or_eq with hq | hq
    · have hn : 2 ^ f.mbits ≤ n := hr.full.resolve_left (by have := hf.low_le_high; omega)
      have hbig : f.top + 2 ^ f.high ≤ unitsOf n q := by
        rw [hf.top_eq, ← unitsOf_succ, Nat.sub_add_cancel (Nat.two_pow_pos _)]
        calc unitsOf (2 ^ (f.mbits + 1)) f.high = 2 ^ (f.high + (f.mbits + 1 : Nat)) := unitsOf_two_pow ..
          _ ≤ 2 ^ (q + (f.mbits : Nat)) := zpow_le_zpow_right₀ one_le_two (by push_cast; omega)
          _ = unitsOf (2 ^ f.mbits) q := (unitsOf_two_pow ..).symm
          _ ≤ unitsOf n q := unitsOf_le_iff.mpr hn
      have hle : f.limit ≤ unitsOf n q := by
        rw [hlimit, unitsOf_half, ← hf.top_eq]
        linarith
      exact iff_of_true (hlt.trans_le (hle.trans hkn)) (hle.trans hr.floor_le)
    · subst hq
      have hn : n = 2 ^ (f.mbits + 1) - 1 := by
        have h1 := hr.lt_full
        rw [hf.top_eq, unitsOf_le_iff] at h
        omega
      have hodd : n % 2 = 1 := by rw [hn, pow_succ]; have := Nat.two_pow_pos f.mbits; omega
      have hup : takesUpper mode x.neg n f.high x.mag ↔ f.limit ≤ x.mag := by
        rw [hlimit, ← hn]
        rcases hm with rfl | rfl
        · simp only [takesUpper, hodd, and_true]
          rw [le_iff_lt_or_eq, eq_comm]
        · exact Iff.rfl
      rw [← hup, hf.top_eq, ← hn, unitsOf_lt_iff]
      rcases hr.taken with ⟨h, rfl⟩ | ⟨h, rfl⟩
      · exact iff_of_true (Nat.lt_succ_self n) h
      · exact iff_of_false (lt_irrefl _) h
  · exact iff_of_false (hkn'.trans h).not_gt (hr.lt_next.trans_le (h.trans hlt.le)).not_ge

/-- A mode that cuts off delivers the largest code magnitude that is not above. -/
theorem delivers_cut (hf : IsIeee f) (hm : cutsOff mode x.neg) :
    ∃ c t, Delivers f x mode c (signed x.neg t) ∧ 0 ≤ t ∧ t ≤ x.mag ∧ ∀ c' z, f.isCode c' z → |z| ≤ x.mag → |z| ≤ t := by
  have hk : k = n := by
    rcases hr.taken with ⟨h, -⟩ | ⟨-, h⟩
    · rcases hm with rfl | ⟨rfl, hneg⟩ | ⟨rfl, hneg⟩
      · exact h.elim
      · simp [takesUpper, hneg] at h
      · simp [takesUpper, hneg] at h
    · exact h
  subst hk
  rcases le_or_gt (unitsOf k q) f.top with hle | hgt
  · refine ⟨_, unitsOf k q, (hr.delivers hle).1, unitsOf_nonneg .., hr.floor_le, fun c' z hz hzm => ?_⟩
    exact (hf.code_gap hz hr.full).resolve_right fun h => absurd hr.lt_next (h.trans hzm).not_gt
  · obtain ⟨hcode, hix⟩ := hr.overflows hgt
    have hover : overflowCode f ⟨mode, 0⟩ false x.neg = f.maxCode x.neg := by
      rw [overflowCode, if_pos hf.ieee]
      rcases hm with rfl | ⟨rfl, hneg⟩ | ⟨rfl, hneg⟩ <;> simp [*]
    have htop : f.top < x.mag := hgt.trans_le hr.floor_le
    have hcodes := hf.codes_max x.neg
    rw [hover] at hcode
    refine ⟨_, f.top, ⟨hcode, hf.top_eq ▸ hcodes.isCode, hcodes.sign, iff_of_true hix ?_⟩, ?_, htop.le, fun c' z hz _ => hf.isCode_le_top hz⟩
    · rw [x.value_eq_signed, Ne, signed_inj]
      exact htop.ne
    · rw [hf.top_eq]
      exact unitsOf_nonneg ..

/-- A mode that goes outwards takes the upper neighbour of every magnitude that is no multiple. -/
theorem mag_le_of_goesOut (hm : goesOut mode x.neg) : x.mag ≤ unitsOf k q := by
  have hup : takesUpper mode x.neg n q x.mag ↔ x.mag ≠ unitsOf n q := by
    rcases hm with ⟨rfl, hneg⟩ | ⟨rfl, hneg⟩ <;> simp [takesUpper, hneg]
  rcases hr.taken with ⟨-, rfl⟩ | ⟨h, rfl⟩
  · exact hr.lt_next.le
  · exact (not_not.mp (mt hup.mpr h)).le

/-- A mode that goes outwards delivers the least code magnitude that is not below. -/
theorem delivers_out (hf : IsIeee f) (hm : goesOut mode x.neg) (htop : x.mag ≤ f.top) :
    ∃ c t, Delivers f x mode c (signed x.neg t) ∧ x.mag ≤ t ∧ ∀ c' z, f.isCode c' z → x.mag ≤ |z| → t ≤ |z| := by
  have hle := hr.mag_le_of_goesOut hm
  have hleast : ∀ c' z, f.isCode c' z → x.mag ≤ |z| → unitsOf k q ≤ |z| := fun c' z hz hzm => by
    rcases hr.k_cases with rfl | rfl
    · exact hr.floor_le.trans hzm
    · refine (hf.code_gap hz hr.full).resolve_left fun h => ?_
      have heq : x.mag = unitsOf n q := le_antisymm (hzm.trans h) hr.floor_le
      have := hr.exact_iff.mpr heq
      exact absurd this hr.lt_next.ne'
  have hmax : f.isCode (f.maxCode false) f.top := by
    rw [hf.top_eq]
    exact (hf.codes_max false).isCode
  have habs : |f.top| = f.top := abs_of_nonneg (by rw [hf.top_eq]; exact unitsOf_nonneg ..)
  have hfit : unitsOf k q ≤ f.top := habs ▸ hleast _ _ hmax (habs.symm ▸ htop)
  exact ⟨_, unitsOf k q, (hr.delivers hfit).1, hle, hleast⟩

end Rounds

end Sys2Proof.Machine

open Sys2Proof Sys2Proof.Machine

/-- Settles O25: the rounding takes a neighbour of the magnitude, no code lies between the neighbours, and each mode chooses as it names. -/
theorem roundingTakesTheModesNeighbour : Obligations.RoundingTakesTheModesNeighbour := by
  intro f x hmem hx v overflows res
  have hf := isIeee_of_mem hmem
  have hv : |v| = x.mag := x.abs_value
  have htop0 : 0 ≤ f.top := by rw [hf.top_eq]; exact unitsOf_nonneg ..
  refine ⟨fun h => ?rne, fun h => ?rna, fun h md hmd => ?beyond, ?rtz, fun h => ?up, fun h => ?aboveTop, fun h => ?down, fun h => ?belowTop⟩
  case rne =>
    obtain ⟨q, n, k, hr⟩ := exists_rounds hf (mode := 0) (by decide) hx
    have hm : toNearest 0 := .inl rfl
    have hfit := not_lt.mp (mt (hr.top_lt_iff hf hm).mp (hv ▸ h).not_ge)
    obtain ⟨hdel, hpar⟩ := hr.delivers hfit
    refine ⟨_, _, hdel, fun c' z hz => ⟨hr.near_code hf hm hz, fun htie hne => ?_⟩⟩
    obtain ⟨hmid, -⟩ := hr.midway_of_tie hf hm hz htie hne
    rw [hpar]
    rcases hr.taken with ⟨hup | hup, rfl⟩ | ⟨hdown, rfl⟩
    · exact absurd hmid hup.ne'
    · omega
    · have : ¬ k % 2 = 1 := fun hodd => hdown (.inr ⟨hmid, hodd⟩)
      omega
  case rna =>
    obtain ⟨q, n, k, hr⟩ := exists_rounds hf (mode := 4) (by decide) hx
    have hm : toNearest 4 := .inr rfl
    have hfit := not_lt.mp (mt (hr.top_lt_iff hf hm).mp (hv ▸ h).not_ge)
    refine ⟨_, _, (hr.delivers hfit).1, fun c' z hz => ⟨hr.near_code hf hm hz, fun htie => ?_⟩⟩
    by_cases hne : z = signed x.neg (unitsOf k q)
    · rw [hne]
    · obtain ⟨hmid, hle⟩ := hr.midway_of_tie hf hm hz htie hne
      rcases hr.taken with ⟨-, rfl⟩ | ⟨hdown, -⟩
      · rwa [abs_signed _ (unitsOf_nonneg ..)]
      · exact absurd hmid.ge hdown
  case beyond =>
    have hmd' : md = 0 ∨ md = 4 := by simpa using hmd
    obtain ⟨q, n, k, hr⟩ := exists_rounds hf (mode := md) (by omega) hx
    obtain ⟨hcode, hix⟩ := hr.overflows ((hr.top_lt_iff hf hmd').mpr (hv ▸ h))
    refine ⟨hcode.trans ?_, hix⟩
    rw [overflowCode, if_pos hf.ieee]
    rcases hmd' with rfl | rfl <;> rfl
  case rtz =>
    obtain ⟨q, n, k, hr⟩ := exists_rounds hf (mode := 1) (by decide) hx
    obtain ⟨c, t, hdel, ht0, ht, hmax⟩ := hr.delivers_cut hf (.inl rfl)
    refine ⟨c, _, hdel, ?_, fun c' z hz hzv => ?_⟩
    · rw [hv, abs_signed _ ht0]
      exact ht
    · rw [abs_signed _ ht0]
      exact hmax c' z hz (hv ▸ hzv)
  case up =>
    obtain ⟨q, n, k, hr⟩ := exists_rounds hf (mode := 2) (by decide) hx
    have hval : v = signed x.neg x.mag := x.value_eq_signed
    cases hneg : x.neg with
    | true =>
      obtain ⟨c, t, hdel, ht0, ht, hmax⟩ := hr.delivers_cut hf (.inr (.inl ⟨rfl, hneg⟩))
      simp only [hneg, signed, if_true] at hdel hval
      refine ⟨c, _, hdel, by linarith, fun c' z hz hzv => ?_⟩
      by_cases hz0 : 0 ≤ z
      · linarith
      · have := hmax c' z hz (by rw [abs_of_neg (not_le.mp hz0)]; linarith)
        rw [abs_of_neg (not_le.mp hz0)] at this
        linarith
    | false =>
      simp only [hneg, signed, Bool.false_eq_true, if_false] at hval
      obtain ⟨c, t, hdel, ht, hmin⟩ := hr.delivers_out hf (.inl ⟨rfl, hneg⟩) (hval ▸ h)
      simp only [hneg, signed, Bool.false_eq_true, if_false] at hdel
      refine ⟨c, _, hdel, by linarith, fun c' z hz hzv => ?_⟩
      have hz0 : 0 ≤ z := by have := x.mag_nonneg; linarith
      have := hmin c' z hz (by rw [abs_of_nonneg hz0]; linarith)
      rwa [abs_of_nonneg hz0] at this
  case aboveTop =>
    obtain ⟨q, n, k, hr⟩ := exists_rounds hf (mode := 2) (by decide) hx
    obtain ⟨hneg, -⟩ := Exact.value_pos_iff.mp (htop0.trans_lt h)
    have hmag : x.mag = v := by rw [← hv, abs_of_pos (htop0.trans_lt h)]
    obtain ⟨hcode, hix⟩ := hr.overflows ((hmag ▸ h : f.top < x.mag).trans_le (hr.mag_le_of_goesOut (.inl ⟨rfl, hneg⟩)))
    refine ⟨hcode.trans ?_, hix⟩
    simp [overflowCode, hf.ieee, hneg]
  case down =>
    obtain ⟨q, n, k, hr⟩ := exists_rounds hf (mode := 3) (by decide) hx
    have hval : v = signed x.neg x.mag := x.value_eq_signed
    cases hneg : x.neg with
    | false =>
      obtain ⟨c, t, hdel, ht0, ht, hmax⟩ := hr.delivers_cut hf (.inr (.inr ⟨rfl, hneg⟩))
      simp only [hneg, signed, Bool.false_eq_true, if_false] at hdel hval
      refine ⟨c, _, hdel, by linarith, fun c' z hz hzv => ?_⟩
      by_cases hz0 : 0 ≤ z
      · have := hmax c' z hz (by rw [abs_of_nonneg hz0]; linarith)
        rwa [abs_of_nonneg hz0] at this
      · linarith [not_le.mp hz0]
    | true =>
      simp only [hneg, signed, if_true] at hval
      obtain ⟨c, t, hdel, ht, hmin⟩ := hr.delivers_out hf (.inr ⟨rfl, hneg⟩) (by linarith)
      simp only [hneg, signed, if_true] at hdel
      refine ⟨c, _, hdel, by linarith, fun c' z hz hzv => ?_⟩
      have hz0 : z ≤ 0 := by have := x.mag_nonneg; linarith
      have := hmin c' z hz (by rw [abs_of_nonpos hz0]; linarith)
      rw [abs_of_nonpos hz0] at this
      linarith
  case belowTop =>
    obtain ⟨q, n, k, hr⟩ := exists_rounds hf (mode := 3) (by decide) hx
    have hv0 : v < 0 := by linarith
    obtain ⟨hneg, -⟩ := Exact.value_neg_iff.mp hv0
    have hmag : x.mag = -v := by rw [← hv, abs_of_neg hv0]
    obtain ⟨hcode, hix⟩ := hr.overflows ((by linarith : f.top < x.mag).trans_le (hr.mag_le_of_goesOut (.inr ⟨rfl, hneg⟩)))
    refine ⟨hcode.trans ?_, hix⟩
    simp [overflowCode, hf.ieee, hneg]

end

section
/-! PROOFS. The exact values of float operations (R94, R106, R107): quotients and roots cut off with a sticky bit, and the arguments for which
EXP2, LOG2, SIN and COS are exact (R108). -/
namespace Sys2Proof.Machine

/-! ## Quotients (R106, R107) -/

theorem mag_ne_zero {x : Exact} (h : x.value ≠ 0) : x.m ≠ 0 := mt Exact.value_eq_zero.mpr h

/-- A number of units cut off a magnitude, with a sticky bit that tells whether that lost anything. -/
theorem Exact.cutOff_of {z : Exact} {v : ℚ} (hle : z.mag ≤ v) (hlt : v < unitsOf (z.m + 1) z.e) (hs : z.sticky = true ↔ z.mag ≠ v) :
    z.cutOff v := by
  rw [unitsOf_succ] at hlt
  rw [Exact.cutOff, z.abs_value]
  exact ⟨hle, hlt, hs⟩

/-- A quotient of numbers is the whole part of it, and exact where nothing remains. -/
theorem unitsOf_div {n d : Nat} (hd : d ≠ 0) (e : Int) :
    unitsOf (n / d) e ≤ unitsOf n e / d ∧ unitsOf n e / d < unitsOf (n / d + 1) e ∧ (n % d ≠ 0 ↔ unitsOf (n / d) e ≠ unitsOf n e / d) := by
  have hd0 : (0 : ℚ) < d := by exact_mod_cast Nat.pos_of_ne_zero hd
  have hmul : ∀ m, unitsOf m e * d = unitsOf (m * d) e := fun m => by rw [unitsOf, unitsOf]; push_cast; ring
  have hsplit := Nat.div_add_mod' n d
  have hmod := Nat.mod_lt n (Nat.pos_of_ne_zero hd)
  refine ⟨?_, ?_, ?_⟩
  · rw [le_div_iff₀ hd0, hmul, unitsOf_le_iff]
    omega
  · rw [div_lt_iff₀ hd0, hmul, unitsOf_lt_iff, Nat.succ_mul]
    omega
  · rw [Ne, Ne, eq_div_iff hd0.ne', hmul, unitsOf_inj]
    omega

theorem divExact_spec {x y : Exact} (hx : x.value ≠ 0) (hy : y.value ≠ 0) :
    (divExact x y).neg = (x.neg != y.neg) ∧ (divExact x y).cutOff |x.value / y.value| ∧ 2 ^ 100 ≤ (divExact x y).m := by
  have hxm := mag_ne_zero hx
  have hym := mag_ne_zero hy
  obtain ⟨h1, h2, h3⟩ := unitsOf_div (n := x.m * 2 ^ (140 + lenOf y.m)) hym (x.e - y.e - (140 + lenOf y.m : Nat))
  have hquot : unitsOf (x.m * 2 ^ (140 + lenOf y.m)) (x.e - y.e - (140 + lenOf y.m : Nat)) / y.m = |x.value / y.value| := by
    rw [unitsOf_mul_two_pow, sub_add_cancel, abs_div, x.abs_value, y.abs_value, Exact.mag, Exact.mag, unitsOf, unitsOf, unitsOf,
      zpow_sub₀ two_ne_zero]
    field_simp
  rw [hquot] at h1 h2 h3
  refine ⟨rfl, Exact.cutOff_of h1 h2 ?_, ?_⟩
  · exact bne_iff_ne.trans h3
  · show 2 ^ 100 ≤ x.m * 2 ^ (140 + lenOf y.m) / y.m
    rw [Nat.le_div_iff_mul_le (Nat.pos_of_ne_zero hym)]
    calc 2 ^ 100 * y.m ≤ 2 ^ 100 * 2 ^ lenOf y.m := Nat.mul_le_mul_left _ (lt_two_pow_lenOf _).le
      _ = 2 ^ (100 + lenOf y.m) := (pow_add ..).symm
      _ ≤ 2 ^ (140 + lenOf y.m) := Nat.pow_le_pow_right (by decide) (by omega)
      _ ≤ x.m * 2 ^ (140 + lenOf y.m) := Nat.le_mul_of_pos_left _ (Nat.pos_of_ne_zero hxm)

/-! ## Roots (R107) -/

/-- The bits of a root, found from the highest down. -/
theorem isqrt_eq_sqrt {n : Nat} (k : Nat) : ∀ r, r * r ≤ n → n < (r + 2 ^ (k + 1)) * (r + 2 ^ (k + 1)) → isqrt n k r = Nat.sqrt n := by
  induction k with
  | zero =>
    intro r hlo hhi
    rw [isqrt]
    split
    case isTrue h => exact Nat.eq_sqrt.mpr ⟨h, hhi⟩
    case isFalse h => exact Nat.eq_sqrt.mpr ⟨hlo, not_le.mp h⟩
  | succ k ih =>
    intro r hlo hhi
    rw [isqrt]
    split
    case isTrue h =>
      refine ih _ h ?_
      rwa [Nat.add_assoc, ← Nat.two_mul, ← pow_succ']
    case isFalse h => exact ih _ hlo (not_le.mp h)

theorem isqrt_spec {n k : Nat} (h : n < 2 ^ (2 * (k + 1))) :
    isqrt n k 0 * isqrt n k 0 ≤ n ∧ n < (isqrt n k 0 + 1) * (isqrt n k 0 + 1) := by
  have heq : isqrt n k 0 = Nat.sqrt n := isqrt_eq_sqrt k 0 (Nat.zero_le _) (by rwa [Nat.zero_add, ← pow_add, ← Nat.two_mul])
  rw [heq]
  exact ⟨Nat.sqrt_le n, Nat.lt_succ_sqrt n⟩

/-- The significand of a value at an even exponent. -/
def evenSig (x : Exact) : Nat := if x.e % 2 != 0 then x.m * 2 else x.m
/-- The even exponent of a value. -/
def evenExp (x : Exact) : Int := if x.e % 2 != 0 then x.e - 1 else x.e

theorem evenParts (x : Exact) : x.mag = unitsOf (evenSig x) (2 * (evenExp x / 2)) ∧ (x.m ≠ 0 → evenSig x ≠ 0) := by
  unfold evenSig evenExp
  by_cases h : x.e % 2 = 0
  · have hb : (x.e % 2 != 0) = false := by simp [h]
    rw [hb, if_neg (by simp), if_neg (by simp), Int.mul_ediv_cancel' (Int.dvd_of_emod_eq_zero h)]
    exact ⟨rfl, id⟩
  · have hb : (x.e % 2 != 0) = true := by simp [h]
    have he : 2 * ((x.e - 1) / 2) = x.e - 1 := by omega
    rw [hb, if_pos rfl, if_pos rfl, he]
    refine ⟨?_, fun hm => Nat.mul_ne_zero hm two_ne_zero⟩
    have := unitsOf_mul_two_pow x.m 1 (x.e - 1)
    rw [pow_one] at this
    rw [this, Exact.mag]
    congr 1
    push_cast
    ring

theorem sq_unitsOf (r : Nat) (e : Int) : unitsOf r e ^ 2 = unitsOf (r * r) (2 * e) := by
  rw [unitsOf, unitsOf, mul_pow, two_mul, zpow_add₀ two_ne_zero]
  push_cast
  ring

theorem sqrtExact_spec {x : Exact} (h : 0 < x.value) :
    (sqrtExact x).neg = false ∧ 2 ^ 100 ≤ (sqrtExact x).m ∧ (sqrtExact x).value ^ 2 ≤ x.value
      ∧ x.value < ((sqrtExact x).value + 2 ^ (sqrtExact x).e) ^ 2 ∧ ((sqrtExact x).sticky = true ↔ (sqrtExact x).value ^ 2 ≠ x.value) := by
  obtain ⟨hneg, hne⟩ := Exact.value_pos_iff.mp h
  obtain ⟨hmag, hsig⟩ := evenParts x
  have hsig := hsig (mag_ne_zero hne)
  set n := evenSig x * 2 ^ 260 with hn
  set r := isqrt n (lenOf n / 2 + 1) 0 with hr
  have hz : sqrtExact x = ⟨false, r, evenExp x / 2 - 130, r * r != n⟩ := rfl
  have hval : x.value = unitsOf n (2 * (evenExp x / 2 - 130)) := by
    rw [← abs_of_pos h, x.abs_value, hmag, hn, unitsOf_mul_two_pow]
    congr 1
    push_cast
    ring
  obtain ⟨hlo, hhi⟩ := isqrt_spec (n := n) (k := lenOf n / 2 + 1)
    ((lt_two_pow_lenOf n).trans_le (Nat.pow_le_pow_right (by decide) (by omega)))
  rw [← hr] at hlo hhi
  have hzval : (sqrtExact x).value = unitsOf r (evenExp x / 2 - 130) := by rw [hz, Exact.value_eq]; rfl
  have hze : (sqrtExact x).e = evenExp x / 2 - 130 := rfl
  refine ⟨rfl, ?_, ?_, ?_, ?_⟩
  · show 2 ^ 100 ≤ r
    by_contra hlt
    have hle : r + 1 ≤ 2 ^ 100 := by omega
    have hbig : 2 ^ 260 ≤ n := Nat.le_mul_of_pos_left _ (Nat.pos_of_ne_zero hsig)
    have := (hhi.trans_le (Nat.mul_le_mul hle hle)).trans_le' hbig
    rw [← pow_add] at this
    exact absurd ((Nat.pow_lt_pow_iff_right (by decide)).mp this) (by decide)
  · rw [hzval, hval, sq_unitsOf]
    exact unitsOf_le_iff.mpr hlo
  · rw [hzval, hval, hze, ← unitsOf_succ, sq_unitsOf]
    exact unitsOf_lt_iff.mpr hhi
  · rw [hzval, hval, sq_unitsOf, Ne, unitsOf_inj]
    exact bne_iff_ne

theorem rsqrtExact_spec {x : Exact} (h : 0 < x.value) :
    (rsqrtExact x).neg = false ∧ 2 ^ 100 ≤ (rsqrtExact x).m ∧ (rsqrtExact x).value ^ 2 * x.value ≤ 1
      ∧ 1 < ((rsqrtExact x).value + 2 ^ (rsqrtExact x).e) ^ 2 * x.value
      ∧ ((rsqrtExact x).sticky = true ↔ (rsqrtExact x).value ^ 2 * x.value ≠ 1) := by
  obtain ⟨hneg, hne⟩ := Exact.value_pos_iff.mp h
  obtain ⟨hmag, hsig⟩ := evenParts x
  have hsig := hsig (mag_ne_zero hne)
  set m := evenSig x with hm
  set k := 150 + lenOf m with hk
  set r := isqrt (2 ^ (2 * k) / m) (k + 1) 0 with hr
  have hz : rsqrtExact x = ⟨false, r, -(evenExp x / 2) - k, r * r * m != 2 ^ (2 * k)⟩ := rfl
  have hval : x.value = unitsOf m (2 * (evenExp x / 2)) := by rw [← abs_of_pos h, x.abs_value, hmag]
  obtain ⟨hlo, hhi⟩ := isqrt_spec (n := 2 ^ (2 * k) / m) (k := k + 1)
    ((Nat.div_le_self ..).trans_lt (Nat.pow_lt_pow_right (by decide) (by omega)))
  rw [← hr] at hlo hhi
  have hlo' : r * r * m ≤ 2 ^ (2 * k) := (Nat.le_div_iff_mul_le (Nat.pos_of_ne_zero hsig)).mp hlo
  have hhi' : 2 ^ (2 * k) < (r + 1) * (r + 1) * m := (Nat.div_lt_iff_lt_mul (Nat.pos_of_ne_zero hsig)).mp hhi
  have hzval : (rsqrtExact x).value = unitsOf r (-(evenExp x / 2) - k) := by rw [hz, Exact.value_eq]; rfl
  have hze : (rsqrtExact x).e = -(evenExp x / 2) - k := rfl
  have hprod : ∀ t : Nat, unitsOf t (-(evenExp x / 2) - k) ^ 2 * x.value = unitsOf (t * t * m) (-(2 * k : Nat)) := fun t => by
    rw [sq_unitsOf, hval, unitsOf, unitsOf, unitsOf, mul_mul_mul_comm, ← zpow_add₀ two_ne_zero]
    push_cast
    congr 2
    ring
  have hone : (1 : ℚ) = unitsOf (2 ^ (2 * k)) (-(2 * k : Nat)) := by rw [unitsOf_two_pow, neg_add_cancel, zpow_zero]
  refine ⟨rfl, ?_, ?_, ?_, ?_⟩
  · show 2 ^ 100 ≤ r
    by_contra hlt
    have hle : r + 1 ≤ 2 ^ 100 := by omega
    have hbig : 2 ^ (2 * k) < 2 ^ 100 * 2 ^ 100 * 2 ^ lenOf m :=
      hhi'.trans_le (Nat.mul_le_mul (Nat.mul_le_mul hle hle) (lt_two_pow_lenOf m).le)
    rw [← pow_add, ← pow_add, Nat.pow_lt_pow_iff_right (by decide)] at hbig
    omega
  · rw [hzval, hprod, hone]
    exact unitsOf_le_iff.mpr hlo'
  · rw [hzval, hze, ← unitsOf_succ, hprod, hone]
    exact unitsOf_lt_iff.mpr hhi'
  · rw [hzval, hprod, hone, Ne, unitsOf_inj]
    exact bne_iff_ne

/-! ## Fixed-point numbers (R108) -/

theorem fixOne_pos : 0 < fixOne := Nat.two_pow_pos _

theorem fixBits_ne_zero : fixBits ≠ 0 := by decide

theorem fixOne_eq_twice : fixOne = 2 * (fixOne / 2) := by
  have hdvd : 2 ∣ fixOne := dvd_pow_self 2 fixBits_ne_zero
  exact (Nat.mul_div_cancel' hdvd).symm

theorem fixOne_cast : ((fixOne : Nat) : ℚ) = 2 ^ (fixBits : Int) := by
  rw [fixOne, zpow_natCast]
  push_cast
  rfl

/-- The parts of a value that is a whole number of fixed-point units. -/
theorem splitFix_eq {x : Exact} (he : -(fixBits : Int) ≤ x.e) {n : Int} {f : Nat} (hf : f < fixOne)
    (h : x.value * fixOne = n * fixOne + f) : splitFix x = (n, f) := by
  have hmag : (((x.m * 2 ^ (x.e + fixBits).toNat : Nat)) : ℚ) = x.mag * fixOne := by
    have := unitsOf_at he x.m
    rw [sub_neg_eq_add] at this
    rw [Exact.mag, ← this, fixOne_cast, unitsOf, mul_assoc, ← zpow_add₀ two_ne_zero, neg_add_cancel, zpow_zero, mul_one]
  have hint : (if x.neg then -((x.m * 2 ^ (x.e + fixBits).toNat : Nat) : Int) else ((x.m * 2 ^ (x.e + fixBits).toNat : Nat) : Int))
      = f + (fixOne : Nat) * n := by
    have hq : ((if x.neg then -((x.m * 2 ^ (x.e + fixBits).toNat : Nat) : Int) else ((x.m * 2 ^ (x.e + fixBits).toNat : Nat) : Int) : Int) : ℚ)
        = ((f + (fixOne : Nat) * n : Int) : ℚ) := by
      have hv : ((if x.neg then -((x.m * 2 ^ (x.e + fixBits).toNat : Nat) : Int) else ((x.m * 2 ^ (x.e + fixBits).toNat : Nat) : Int) : Int) : ℚ)
          = x.value * fixOne := by
        rw [x.value_eq]
        cases x.neg with
        | true => rw [if_pos rfl, if_pos rfl, neg_mul, ← hmag]; push_cast; rfl
        | false => rw [if_neg (by simp), if_neg (by simp), ← hmag]; push_cast; rfl
      rw [hv, h]
      push_cast
      ring
    exact_mod_cast hq
  have hpos : (fixOne : Int) ≠ 0 := by exact_mod_cast fixOne_pos.ne'
  have hf' : (f : Int) < fixOne := by exact_mod_cast hf
  unfold splitFix
  dsimp only
  rw [hint, Int.add_mul_ediv_left _ _ hpos, Int.ediv_eq_zero_of_lt (Int.natCast_nonneg f) hf', Int.add_mul_emod_self_left,
    Int.emod_eq_of_lt (Int.natCast_nonneg f) hf', Int.toNat_natCast, zero_add]

theorem splitFix_of_int {x : Exact} (he : -(fixBits : Int) ≤ x.e) {n : Int} (h : x.value = n) : splitFix x = (n, 0) :=
  splitFix_eq he fixOne_pos (by rw [h, Nat.cast_zero, add_zero])

theorem splitFix_of_half {x : Exact} (he : -(fixBits : Int) ≤ x.e) {n : Int} (h : x.value = n + 1 / 2) :
    splitFix x = (n, fixOne / 2) := by
  have htwice := fixOne_eq_twice
  refine splitFix_eq he (by have := fixOne_pos; omega) ?_
  have hq : ((fixOne : Nat) : ℚ) = 2 * (fixOne / 2 : Nat) := by exact_mod_cast htwice
  rw [h, add_mul, hq]
  ring

/-- A value without its sign. -/
theorem splitFix_mag_of_int {x : Exact} (he : -(fixBits : Int) ≤ x.e) {n : Int} (h : x.value = n) :
    splitFix { x with neg := false } = (|n|, 0) := by
  refine splitFix_of_int (x := { x with neg := false }) he ?_
  rw [Exact.value_eq, if_neg (by simp), Int.cast_abs, ← h, x.abs_value]
  rfl

theorem splitFix_mag_of_half {x : Exact} (he : -(fixBits : Int) ≤ x.e) {n : Int} (h : x.value = n + 1 / 2) :
    splitFix { x with neg := false } = (if x.neg then -n - 1 else n, fixOne / 2) := by
  refine splitFix_of_half (x := { x with neg := false }) he ?_
  have hmag : ({ x with neg := false } : Exact).value = x.mag := by rw [Exact.value_eq, if_neg (by simp)]; rfl
  rw [hmag]
  rw [x.value_eq] at h
  cases hneg : x.neg with
  | true =>
    rw [hneg, if_pos rfl] at h
    rw [if_pos rfl]
    push_cast
    linarith
  | false =>
    rw [hneg, if_neg (by simp)] at h
    rw [if_neg (by simp), h]

/-! ## Exact arguments of EXP2, LOG2, SIN and COS (R108) -/

/-- The exponents of FP32. -/
theorem fp32_bounds {code : Nat} {x : Exact} (h : fp32.decode code = .fin x) : -(fixBits : Int) ≤ x.e ∧ (x.m = 0 → x.e ≤ 0) := by
  have hf : IsIeee fp32 := isIeee_of_mem (by simp [ieeeFormats])
  obtain ⟨-, hlo, -, hfull⟩ := hf.decode_bounds h
  have hlow : fp32.low = -149 := by decide
  rw [hlow] at hlo hfull
  refine ⟨by simp only [fixBits]; omega, fun hm => ?_⟩
  have := hfull.resolve_right (by rw [hm]; have := Nat.two_pow_pos fp32.mbits; omega)
  omega

theorem exp2Exact_of_int {x : Exact} (he : -(fixBits : Int) ≤ x.e) (h0 : x.m = 0 → x.e ≤ 0) {n : Int} (h : x.value = n) (hn : |n| ≤ 2048) :
    exp2Exact x = ⟨false, 1, n, false⟩ := by
  have hlen : ¬ 12 < x.e + lenOf x.m := by
    by_cases hm : x.m = 0
    · have := h0 hm
      rw [hm]
      simp [lenOf]
      omega
    · have hle : (2 : ℚ) ^ (x.e + lenOf x.m - 1) ≤ 2 ^ (11 : Int) :=
        calc (2 : ℚ) ^ (x.e + lenOf x.m - 1) ≤ x.mag := zpow_le_unitsOf hm x.e
          _ = ((|n| : Int) : ℚ) := by rw [← x.abs_value, h, Int.cast_abs]
          _ ≤ ((2048 : Int) : ℚ) := by exact_mod_cast hn
          _ = 2 ^ (11 : Int) := by norm_num
      have := (zpow_le_zpow_iff_right₀ (one_lt_two (α := ℚ))).mp hle
      omega
  rw [exp2Exact, if_neg hlen, splitFix_of_int he h]
  rfl

theorem log2Exact_of_pow {x : Exact} {n : Int} (h : x.value = 2 ^ n) : log2Exact x = Exact.ofInt n := by
  have hpos : 0 < x.value := h ▸ zpow_two_pos n
  have hm := mag_ne_zero hpos.ne'
  have hmag : x.mag = 2 ^ n := by rw [← x.abs_value, h, abs_of_pos (zpow_two_pos n)]
  have hlo := (zpow_le_zpow_iff_right₀ (one_lt_two (α := ℚ))).mp ((zpow_le_unitsOf hm x.e).trans_eq hmag)
  have hhi := (zpow_lt_zpow_iff_right₀ (one_lt_two (α := ℚ))).mp (hmag.symm.trans_lt (unitsOf_lt_zpow x.m x.e))
  have hlen := lenOf_pos hm
  have hn : x.e + (lenOf x.m - 1 : Nat) = n := by omega
  have hsig : x.m = 2 ^ (lenOf x.m - 1) := by
    rw [← unitsOf_inj (e := x.e), unitsOf_two_pow, hn]
    exact hmag
  rw [log2Exact]
  dsimp only
  rw [if_pos hsig, hn]

theorem sinHalfTurn_half : sinHalfTurn (fixOne / 2) = (fixOne, true) := by
  have htwice := fixOne_eq_twice
  have hpos := fixOne_pos
  rw [sinHalfTurn, if_neg (by omega), if_pos htwice.symm]

/-- One, and minus one for an odd number of half-turns. -/
theorem signedOne_value (neg : Bool) : (⟨neg, fixOne, -(fixBits : Int), false⟩ : Exact).value = if neg then -1 else 1 := by
  have hone : unitsOf fixOne (-(fixBits : Int)) = 1 := by rw [unitsOf, fixOne_cast, ← zpow_add₀ two_ne_zero, add_neg_cancel, zpow_zero]
  rw [Exact.value_eq, Exact.mag, hone]

theorem sinExact_of_int {x : Exact} (he : -(fixBits : Int) ≤ x.e) {n : Int} (h : x.value = n) : sinExact x = Exact.zero x.neg := by
  simp only [sinExact, splitFix_mag_of_int he h, if_true]

theorem sinExact_of_half {x : Exact} (he : -(fixBits : Int) ≤ x.e) {n : Int} (h : x.value = n + 1 / 2) :
    (sinExact x).sticky = false ∧ (sinExact x).value = if n % 2 = 0 then 1 else -1 := by
  have hhalf : fixOne / 2 ≠ 0 := by have := fixOne_eq_twice; have := fixOne_pos; omega
  have hz : sinExact x = ⟨x.neg != ((if x.neg then -n - 1 else n) % 2 == 1), fixOne, -(fixBits : Int), false⟩ := by
    simp only [sinExact, splitFix_mag_of_half he h, sinHalfTurn_half, if_neg hhalf, Bool.not_true]
  refine ⟨by rw [hz], ?_⟩
  rw [hz, signedOne_value]
  rcases Int.emod_two_eq_zero_or_one n with h2 | h2
  · have h3 : (-n - 1) % 2 = 1 := by omega
    cases x.neg <;> simp [h2, h3]
  · have h3 : (-n - 1) % 2 = 0 := by omega
    cases x.neg <;> simp [h2, h3]

/-- A name for a value that hides what the value is: the kernel would otherwise count up to fixOne as it compares the sides of `cosExact_eq`. -/
theorem exists_hidden {α : Type} (a : α) : ∃ b, a = b := ⟨a, rfl⟩

theorem cosExact_eq {x : Exact} {n : Int} {f : Nat} (h : splitFix { x with neg := false } = (n, f)) :
    cosExact x = if (f + fixOne / 2) % fixOne = 0 then Exact.zero false
      else if f = 0 then ⟨n % 2 == 1, 1, 0, false⟩
      else ⟨(if fixOne ≤ f + fixOne / 2 then n + 1 else n) % 2 == 1, (sinHalfTurn ((f + fixOne / 2) % fixOne)).1, -(fixBits : Int),
        !(sinHalfTurn ((f + fixOne / 2) % fixOne)).2⟩ := by
  obtain ⟨g, hg⟩ := exists_hidden cosExact
  obtain ⟨split, hsplit⟩ := exists_hidden splitFix
  obtain ⟨turn, hturn⟩ := exists_hidden sinHalfTurn
  obtain ⟨one, hone⟩ := exists_hidden fixOne
  rw [hg, hturn, hone]
  delta cosExact at hg
  rw [hsplit, hturn, hone] at hg
  rw [hsplit] at h
  subst hg
  simp only [h]

theorem cosExact_of_int {x : Exact} (he : -(fixBits : Int) ≤ x.e) {n : Int} (h : x.value = n) :
    cosExact x = ⟨n % 2 == 1, 1, 0, false⟩ := by
  have htwice := fixOne_eq_twice
  have hpos := fixOne_pos
  have hmod : (0 + fixOne / 2) % fixOne = fixOne / 2 := by rw [Nat.zero_add, Nat.mod_eq_of_lt (by omega)]
  have hparity : (|n| % 2 == 1) = (n % 2 == 1) := by
    rcases abs_choice n with h | h <;> rw [h]
    rw [Bool.eq_iff_iff, beq_iff_eq, beq_iff_eq]
    omega
  have hhalf : fixOne / 2 ≠ 0 := by omega
  rw [cosExact_eq (splitFix_mag_of_int he h), hmod, if_neg hhalf, if_pos rfl, hparity]

theorem cosExact_of_half {x : Exact} (he : -(fixBits : Int) ≤ x.e) {n : Int} (h : x.value = n + 1 / 2) : cosExact x = Exact.zero false := by
  have hmod : (fixOne / 2 + fixOne / 2) % fixOne = 0 := by
    have htwice := fixOne_eq_twice
    rw [← Nat.two_mul, ← htwice, Nat.mod_self]
  rw [cosExact_eq (splitFix_mag_of_half he h), hmod, if_pos rfl]

end Sys2Proof.Machine

open Sys2Proof Sys2Proof.Machine

/-- Settles O60: sums and products are exact, quotients and roots are cut off, and the exact arguments of the elementary functions are found. -/
theorem floatOperationsFormTheExactValue : Obligations.FloatOperationsFormTheExactValue := by
  constructor
  · intro md x y c hx hy hc fin one
    have hone : one.value = 1 := by simp [one, Exact.value]
    have hzero : ∀ {z : Exact}, z.sticky = false → z.value = 0 → z.isZero = true := fun hs h => (Exact.isZero_iff hs).mpr h
    have hnz : ∀ {z : Exact}, z.sticky = false → z.value ≠ 0 → z.isZero = false := fun hs h =>
      Bool.eq_false_iff.mpr (mt (Exact.isZero_iff hs).mp h)
    refine ⟨?add, ?mul, ?fma, fun h => ?div, fun h h' => ?divZero, fun h h' => ?zeroDivZero, fun h => ?rcp, fun h => ⟨?rcpZero, ?rsqZero, ?sqrtZero⟩,
      fun h => ⟨?sqrtNeg, ?rsqNeg⟩, fun h => ?sqrt, fun h => ?rsq, ?divOne⟩
    case add => exact ⟨_, rfl, addExact_sticky hx hy, addExact_value .., addExact_neg_of_zero⟩
    case mul => exact ⟨_, rfl, rfl, mulExact_value .., rfl⟩
    case fma => exact ⟨_, rfl, addExact_sticky rfl hc, by rw [addExact_value, mulExact_value]⟩
    case div =>
      by_cases hxv : x.value = 0
      · refine ⟨Exact.zero (x.neg != y.neg), by simp [divVal, hnz hy h, hzero hx hxv], rfl, ?_, fun h' => absurd hxv h'⟩
        rw [Exact.cutOff, Exact.zero_value, hxv]
        simp [Exact.zero]
      · obtain ⟨h1, h2, h3⟩ := divExact_spec hxv h
        exact ⟨divExact x y, by simp [divVal, hnz hy h, hnz hx hxv], h1, h2, fun _ => h3⟩
    case divZero => simp [divVal, hzero hy h, hnz hx h']
    case zeroDivZero => simp [divVal, hzero hy h, hzero hx h']
    case rcp =>
      obtain ⟨h1, h2, h3⟩ := divExact_spec (hone ▸ one_ne_zero) h
      rw [hone] at h2
      exact ⟨divExact one x, by simp [rcpVal, hnz hx h, one], h1.trans (Bool.false_xor _), h2, h3⟩
    case rcpZero => simp [rcpVal, hzero hx h]
    case rsqZero => simp [rsqVal, hzero hx h]
    case sqrtZero => simp [sqrtVal, hzero hx h]
    case sqrtNeg => simp [sqrtVal, hnz hx h.ne, (Exact.value_neg_iff.mp h).1]
    case rsqNeg => simp [rsqVal, hnz hx h.ne, (Exact.value_neg_iff.mp h).1]
    case sqrt => exact ⟨sqrtExact x, by simp [sqrtVal, hnz hx h.ne', (Exact.value_pos_iff.mp h).1], sqrtExact_spec h⟩
    case rsq => exact ⟨rsqrtExact x, by simp [rsqVal, hnz hx h.ne', (Exact.value_pos_iff.mp h).1], rsqrtExact_spec h⟩
    case divOne =>
      have hone' : one.isZero = false := rfl
      by_cases h : x.value = 0
      · simp [divVal, rcpVal, hzero hx h, hone', one]
      · simp [divVal, rcpVal, hnz hx h, hone', one]
  · intro code x n hdec exact sign
    obtain ⟨he, h0⟩ := fp32_bounds hdec
    have hx := decode_sticky hdec
    refine ⟨fun h hn => ?exp2, fun h => ?log2, fun h => ?logZero, fun h => ?logNeg, fun h => ⟨?sinInt, ?cosInt⟩, fun h => ⟨?sinHalf, ?cosHalf⟩⟩
    case exp2 =>
      refine ⟨⟨false, 1, n, false⟩, by rw [exp2Val, exp2Exact_of_int he h0 h hn], rfl, ?_, fun _ => rfl⟩
      simp [Exact.value]
    case log2 =>
      have hpos : 0 < x.value := h ▸ zpow_two_pos n
      refine ⟨Exact.ofInt n, ?_, rfl, Exact.ofInt_value n, fun hn => ?_⟩
      · simp [log2Val, Exact.isZero_eq hx, hpos.ne', (Exact.value_pos_iff.mp hpos).1, log2Exact_of_pow h]
      · simp [Exact.ofInt, (by exact_mod_cast hn : n = 0)]
    case logZero => simp [log2Val, Exact.isZero_eq hx, h]
    case logNeg => simp [log2Val, Exact.isZero_eq hx, h.ne, (Exact.value_neg_iff.mp h).1]
    case sinInt => exact ⟨Exact.zero x.neg, by rw [trigVal, sinExact_of_int he h], Exact.zero_value _, rfl⟩
    case cosInt =>
      refine ⟨⟨n % 2 == 1, 1, 0, false⟩, by rw [trigVal, cosExact_of_int he h], rfl, ?_, fun hs => ?_⟩
      · rcases Int.emod_two_eq_zero_or_one n with h2 | h2 <;> simp [sign, h2, Exact.value]
      · rcases Int.emod_two_eq_zero_or_one n with h2 | h2 <;> simp [sign, h2] at hs
    case sinHalf =>
      obtain ⟨hs, hv⟩ := sinExact_of_half he h
      refine ⟨sinExact x, rfl, hs, hv, fun h' => ?_⟩
      rcases Int.emod_two_eq_zero_or_one n with h2 | h2 <;> simp [sign, h2] at h'
    case cosHalf => exact ⟨Exact.zero false, by rw [trigVal, cosExact_of_half he h], rfl, Exact.zero_value _, fun _ => rfl⟩

end

section
/-! PROOFS. Fixed words and the state after reset, and what one step runs (R22, R130, R134). -/
namespace Sys2Proof.Machine
open Sys2Proof.Laws

/-! ## An issue that faults (R23, R25) -/

/-- A group that faults stands at the first word of its extended instruction. -/
theorem faulted_eq {lanes : List Nat} (hnd : lanes.Nodup) (g : Group) (yields : Bool) :
    faulted g lanes lanes yields = { g with
      ext := [], issuing := [], choice := afterIssue g.choice lanes yields, waited := 0, elig := 0, promoted := none
      released := (0, 0)
      threads := g.threads.zipIdx.map fun (th, l) =>
        if l ∈ lanes then { th with pc := th.pc - BitVec.ofNat 64 (4 * g.ext.length) } else th } := by
  rw [faulted, toFirstWord, modifyThreads_zip _ g hnd]
  rfl

/-- An issue that faults parks its set at its first word. -/
theorem finish_fault (s : State) {x : Issue} (hnd : x.lanes.Nodup) (yields : Bool) (a : ParkArgs) :
    finish s x yields (.fault a) = takePark (backAtFirst s x yields) x.uid { a with skip := x.g.ext.length + 1 } := by
  have hback : { s.modifyGroup x.uid (fun g => faulted g x.lanes x.lanes yields) with cur := none } = backAtFirst s x yields :=
    congrArg (fun k => { s.modifyGroup x.uid k with cur := none }) (funext fun g => faulted_eq hnd g yields)
  rw [← hback]
  rfl

/-! ## What a step runs -/

theorem fetched_of_ok {w : Word} {i : Instr} (h : decode w = .ok i) : fetched w = i := by
  unfold fetched
  rw [h]

theorem fetched_of_error {w : Word} {e : Illegal} (h : decode w = .error e) (hext : ¬ (0x78 ≤ w.toNat / 2 ^ 25 ∧ w.toNat / 2 ^ 25 ≤ 0x7B)) :
    fetched w = .illegalInstruction w := by
  have hop : fldNat w 25 7 = w.toNat / 2 ^ 25 := by
    have := w.isLt
    simp only [fldNat]
    omega
  unfold fetched
  rw [h]
  dsimp only
  rw [hop, if_neg hext]

/-- A step that lets a group issue fetches the word of its next set. -/
theorem step_of_stepIssue {s s0 : State} {g : Group} {rdy : List (List Nat)} {ch : Choice} {lanes : List Nat} (h : StepIssue s s0 g rdy)
    (hset : nextSet g rdy = (ch, some lanes)) : step s = fetchAndIssue (portTaken s0 g ch lanes) { g with choice := ch } lanes := by
  have hone : issueOne s0 g rdy = fetchAndIssue (portTaken s0 g ch lanes) { g with choice := ch } lanes := by rw [issueOne, hset]
  rcases h with ⟨uid, rest, hag, rfl, hfind, hport⟩ | ⟨hag, rfl, hown, hboot, hbest⟩
  · rw [step, runStep, hag, ← hone]
    show issueGroup _ uid = _
    rw [issueGroup]
    rw [hfind]
    dsimp only
    rw [if_pos hport]
  · rw [step, runStep, hag, ← hone]
    dsimp only
    rw [runDevice, hown]
    dsimp only
    rw [if_pos hboot, hbest]

theorem isEvent_of_encode {i : Instr} (h : encode i = none) (hill : ∀ w, i ≠ .illegalInstruction w) : isEvent i = true := by
  unfold isEvent
  split
  · next w => exact absurd rfl (hill w)
  · rw [h, Option.isNone_none]

end Sys2Proof.Machine

open Sys2Proof Sys2Proof.Machine

/-- Settles O22: a step fetches and runs the word of the group that issues, or the entry of the agenda, or ends the cycle. -/
theorem stepRunsTheDecodedInstruction : Obligations.StepRunsTheDecodedInstruction := by
  intro s
  refine ⟨fun s0 g rdy ch lanes h hset => ?issue, fun rest i hag henc hill => ?event, fun rest ticks hag => ?clock,
    fun rest fatal moves hag => ?memberError, fun hag hown hcand => ?tick⟩
  case issue =>
    intro s1 pc
    have hstep := step_of_stepIssue h hset
    refine ⟨fun w i hf hd => ?_, fun w e hf hd hext => ?_, fun c x hf hcur hnd => ?_⟩
    · rw [hstep, fetchAndIssue]
      rw [show fetchWord (portTaken s0 g ch lanes) { g with choice := ch } (pcOf { g with choice := ch } lanes) = .ok w from hf]
      exact congrArg (fun i => exec i s1) (fetched_of_ok hd)
    · rw [hstep, fetchAndIssue]
      rw [show fetchWord (portTaken s0 g ch lanes) { g with choice := ch } (pcOf { g with choice := ch } lanes) = .ok w from hf]
      exact congrArg (fun i => exec i s1) (fetched_of_error hd hext)
    · rw [hstep, fetchAndIssue]
      rw [show fetchWord (portTaken s0 g ch lanes) { g with choice := ch } (pcOf { g with choice := ch } lanes) = .error c from hf]
      dsimp only
      rw [fetchFault, show currentIssue (portTaken s0 g ch lanes) = some x from hcur]
      exact congrArg Host.Outcome.next (finish_fault s1 hnd false _)
  case event =>
    rw [step, runStep, hag]
    show (if isEvent i then exec i { s with agenda := rest } else .next { s with agenda := rest }) = _
    rw [if_pos (isEvent_of_encode henc hill)]
  case clock =>
    rw [step, runStep, hag]
    rfl
  case memberError =>
    rw [step, runStep, hag]
    rfl
  case tick =>
    rw [step, runStep, hag]
    dsimp only
    rw [runDevice, hown, hcand]
    dsimp only
    split
    · next h =>
      split at h <;> cases h
    · rfl

/-- Settles O24: the state after reset, evaluated. -/
theorem resetLeavesTheManualsValues : Obligations.ResetLeavesTheManualsValues := by
  refine ⟨by decide, rfl, rfl, rfl, rfl, rfl, by decide, by decide, by decide, by decide, by decide, rfl, rfl, rfl, fun _ => rfl, ?_, rfl⟩
  decide

/-- Settles O35: each word, decoded. -/
theorem wordsDecodeAsTabulated : Obligations.WordsDecodeAsTabulated := by
  refine ⟨rfl, rfl, rfl, rfl, rfl, rfl, rfl, rfl, rfl, rfl, rfl⟩

end

section
/-! PROOFS. Extension words and completing traps (R23, R26, R80, R81). -/
namespace Sys2Proof.Machine
open Sys2Proof.Laws

/-- An issue whose threads go on at the next word, in the words of `completed`. -/
theorem advanced_eq {s : State} {x : Issue} {i : Instr} (h : Issues s x i) (u : State) :
    { u.modifyGroup x.uid (fun g => issued (advance g x.lanes) x.lanes (yieldsOf i x.ext)) with cur := none } = completed i x u := by
  have hf : stepping x.g = false := h.free
  rw [← finish_completed h u]
  simp only [finish, stepTrap, hf, Bool.false_eq_true, if_false]

/-- A completing trap parks its set after its word (R26). -/
theorem finish_trap {s : State} {x : Issue} {i : Instr} (h : Issues s x i) (u : State) (a : ParkArgs) :
    finish s x (yieldsOf i x.ext) (.trap u a) = takePark (completed i x u) x.uid { a with completing := true, skip := 0 } := by
  rw [← advanced_eq h u]
  rfl

/-- A word of format X is its OP and its payload (R35 to R38). -/
theorem ofNat_op_payload (op : BitVec 7) (p : BitVec 25) : BitVec.ofNat 32 (op.toNat * 2 ^ 25 + p.toNat) = op ++ p := by
  apply BitVec.eq_of_toNat_eq
  have hop := op.isLt
  have hp := p.isLt
  rw [BitVec.toNat_append, BitVec.toNat_ofNat, Nat.mod_eq_of_lt (by omega), Nat.shiftLeft_eq, Nat.mul_comm op.toNat,
    ← Nat.two_pow_add_eq_or_of_lt hp]

theorem encode_extPred (p : BitVec 25) : encode (.extPred p) = some ((0x78 : BitVec 7) ++ p) := congrArg some (ofNat_op_payload 0x78 p)
theorem encode_extImm (p : BitVec 25) : encode (.extImm p) = some ((0x79 : BitVec 7) ++ p) := congrArg some (ofNat_op_payload 0x79 p)
theorem encode_extShi (p : BitVec 25) : encode (.extShi p) = some ((0x7A : BitVec 7) ++ p) := congrArg some (ofNat_op_payload 0x7A p)
theorem encode_extHint (p : BitVec 25) : encode (.extHint p) = some ((0x7B : BitVec 7) ++ p) := congrArg some (ofNat_op_payload 0x7B p)

/-- An extension word adds itself to the extension state and moves its set to the next word (R23). -/
theorem extWord_next {s : State} {x : Issue} (hc : currentIssue s = some x) (hnd : x.lanes.Nodup) {i : Instr} {w : Word} (hw : encode i = some w) :
    extWord i s = .next { s.setGroup { x.g with
      ext := x.g.ext ++ [w], issuing := x.lanes, waited := 0, elig := 0, promoted := none, released := (0, 0)
      threads := x.g.threads.zipIdx.map fun (th, l) => if l ∈ x.lanes then { th with pc := th.pc + 4 } else th } with cur := none } := by
  have hadv : advance x.g x.lanes = _ := modifyThreads_zip (fun t : Thread => { t with pc := t.pc + 4 }) x.g hnd
  simp only [extWord, hc, hw, hadv]
  rfl

end Sys2Proof.Machine

open Sys2Proof Sys2Proof.Machine Sys2Proof.Laws

/-- Settles O9: each of the four words encodes as its OP and its payload. -/
theorem extensionWordsAccumulate : Obligations.ExtensionWordsAccumulate := by
  unfold Obligations.ExtensionWordsAccumulate
  intro p s x hc hnd
  exact ⟨extWord_next hc hnd (encode_extPred p), extWord_next hc hnd (encode_extImm p), extWord_next hc hnd (encode_extShi p),
    extWord_next hc hnd (encode_extHint p)⟩

/-- Settles O10: BRK under SKIPBRK and TRAP without a member only complete, the others end in a completing trap. -/
theorem trapsCompleteAndPark : Obligations.TrapsCompleteAndPark := by
  unfold Obligations.TrapsCompleteAndPark
  intro imm s x
  refine ⟨fun h hb => ?_, fun h hb => ?_, fun h hm => ?_, fun h hm => ?_⟩
  · rw [show exec .brk s = execBrk s from rfl, execBrk, issue_next h, bitOf_toNat, hb, if_neg Bool.false_ne_true, finish_trap h]
  · rw [show exec .brk s = execBrk s from rfl, execBrk, issue_next h, bitOf_toNat, hb, if_pos rfl, finish_completed h]
  · rw [show exec (.trap imm) s = execTrap imm s from rfl, execTrap, issue_next h, if_neg (by simpa using hm), finish_trap h]
  · rw [show exec (.trap imm) s = execTrap imm s from rfl, execTrap, issue_next h, if_pos (by simpa using hm), finish_completed h]
end

section
/-! PROOFS. Words that may not execute: decode faults, formats that name registers, illegal words and the privilege level (R40, R47 to R49). -/
namespace Sys2Proof.Machine
open Sys2Proof.Laws

/-! ## Every instruction but EXIT goes through `issue` -/

/-- The OP of an encoded word. -/
theorem op_append (op : BitVec 7) (p : BitVec 25) : (op ++ p).toNat / 2 ^ 25 = op.toNat := by
  have hp := p.isLt
  rw [BitVec.toNat_append, Nat.shiftLeft_eq, Nat.mul_comm op.toNat, ← Nat.two_pow_add_eq_or_of_lt hp]
  omega

/-- A per-thread instruction whose results depend on the machine is issued too. -/
theorem perLane_eq_issue (i : Instr) (f : State → Issue → Nat → LaneOut) : ∃ body, ∀ s, perLane i (f s) s = issue i body s :=
  ⟨fun s x => .done (s.setGroup (applyZeros i x (applyLanes x.g (x.members.map fun l => (l, f s x l))))), fun _ => rfl⟩

/-- An instruction with an encoding, other than EXIT and the extension words, is issued as `issue` says. -/
theorem exec_eq_issue {i : Instr} (he : encode i ≠ none) (hx : i ≠ .exit) (hext : ∀ p, i ≠ .extPred p ∧ i ≠ .extImm p ∧ i ≠ .extShi p ∧ i ≠ .extHint p) :
    ∃ body, ∀ s, exec i s = issue i body s := by
  cases i
  case exit => exact absurd rfl hx
  case extPred p => exact absurd rfl (hext p).1
  case extImm p => exact absurd rfl (hext p).2.1
  case extShi p => exact absurd rfl (hext p).2.2.1
  case extHint p => exact absurd rfl (hext p).2.2.2
  case illegalInstruction | loadValueReturn | storePerformed | eligibilityPromotion | copyCompletion | copyHalt | mmaCompletion |
    springOperationArrival | installEnd | refitCommit | demotionEnd | regionOperationCompletion | bind | rebind | collReadyPassed |
    collectiveCompletion | leaseCompletion | faultQueueEntryWrite | recordWrite | contextSave | watchdog | stallLimit | sealPeriod |
    sealTrigger | prepare | ready | sealTimeout | abort | commit | rintagAgeing | uncorrectableMemoryError | correctableError |
    fabricPortError | noRoute | peerAccessArrival | leaseNotice | leaseDeadline | hostCxlMemAccess | itailWrite | ictlWrite |
    ibaseWrite | launchTake | teamPlacement | launchCompletion | create | destroy | preempt | restore | inval | retire | cmdFqpop |
    cmdLeaseGrant | cmdLeaseRevoke | cmdLeaseRegister | domain | rqctlWrite | rqheadWrite | rstctl | powerOn | linkReset | hexwd |
    thermalTrip | voltageFault | suppliesStable | calibrationDone | firmwareVerified | bootctlStart | initDone | monitorUpdate |
    throttleStep | powerCapStep | attctlRequest | attestationComplete | registerWrite | hostLinkRetrained | routeRegained |
    leaseReleaseAtLender | undefinedCommand => exact (he rfl).elim
  case cvtf | pack | randN32 | randF32 | randN64 => exact perLane_eq_issue _ _
  all_goals exact ⟨_, fun _ => rfl⟩

/-- A word below the extension words is none. -/
theorem not_ext_of_op {i : Instr} {w : Word} (h : encode i = some w) (hop : w.toNat / 2 ^ 25 < 0x78) (p : BitVec 25) :
    i ≠ .extPred p ∧ i ≠ .extImm p ∧ i ≠ .extShi p ∧ i ≠ .extHint p := by
  have hne : ∀ {j : Instr} {op : BitVec 7}, encode j = some (op ++ p) → 0x78 ≤ op.toNat → i ≠ j := by
    rintro j op hj hle rfl
    rw [← Option.some.inj (hj.symm.trans h), op_append] at hop
    omega
  exact ⟨hne (encode_extPred p) (by decide), hne (encode_extImm p) (by decide), hne (encode_extShi p) (by decide), hne (encode_extHint p) (by decide)⟩

/-! ## Decode faults (R47, R48) -/

theorem fldNat_op (w : Word) : fldNat w 25 7 = w.toNat / 2 ^ 25 := by
  have := w.isLt
  simp only [fldNat]
  omega

/-- What is still being loaded, in the words of the claims. -/
theorem faultUnknown_iff (x : Issue) (i : Instr) : faultUnknown x i ↔ (targetPending x i || formatPending x.g i) = true := by
  unfold faultUnknown
  rw [Bool.or_eq_true, or_comm]
  refine or_congr ?_ ?_
  · unfold targetPending
    cases targetReg i <;> simp [and_assoc]
  · unfold formatPending
    split <;> simp

/-- The park of a decode fault, in the words of the claims. -/
theorem finish_decodeStop (s : State) {x : Issue} (hnd : x.lanes.Nodup) (i : Instr) (w : Word) (yields : Bool) (c : CauseDetail) :
    finish s x yields (.fault (decodeStop x i w c)) = decodeParked s x i w yields c := by
  rw [finish_fault s hnd]
  unfold decodeStop decodeParked
  cases hm : misaligned x i with
  | nil => simp [fldNat_op]
  | cons l r => simp; rfl

/-- An instruction with a decode fault waits for what R48 asks about first, or parks its set. -/
theorem issue_decodeFault {s : State} {x : Issue} {i : Instr} {w : Word} {c : CauseDetail} (body : State → Issue → Effect)
    (he : encode i = some w) (hc : currentIssue s = some x) (hnd : x.lanes.Nodup) (hf : decodeFault s x.g i w none = some c) :
    (faultUnknown x i → issue i body s = .next s)
      ∧ (¬ faultUnknown x i → issue i body s = .next (decodeParked s x i w (yieldsOf i x.ext) c)) := by
  have hi : issue i body s = if (targetPending x i || formatPending x.g i) = true then .next s
      else .next (decodeParked s x i w (yieldsOf i x.ext) c) := by
    unfold issue
    simp only [hc, he, Option.getD_some, hf, finish_decodeStop s hnd]
  rw [faultUnknown_iff, hi]
  exact ⟨fun h => if_pos h, fun h => if_neg h⟩

/-- A park leaves the issue that runs as it is. -/
theorem takePark_cur (s : State) (uid : Nat) (a : ParkArgs) : (takePark s uid a).cur = s.cur := by
  cases hg : s.group? uid with
  | none => rw [takePark_none hg]
  | some g =>
    cases hp : g.park with
    | none => rw [takePark_first hg hp]; exact emitRecord_cur _ _
    | some p => rw [takePark_held hg hp]; exact emitRecord_cur _ _

theorem decodeParked_cur (s : State) (x : Issue) (i : Instr) (w : Word) (yields : Bool) (c : CauseDetail) :
    (decodeParked s x i w yields c).cur = none := takePark_cur _ _ _

/-- EXIT with a decode fault ends what has ended once its set is parked. -/
theorem exec_exit_decodeFault {s : State} {x : Issue} {w : Word} {c : CauseDetail}
    (he : encode .exit = some w) (hc : currentIssue s = some x) (hnd : x.lanes.Nodup) (hf : decodeFault s x.g .exit w none = some c) :
    exec .exit s = .next (settle (decodeParked s x .exit w (yieldsOf .exit x.ext) c)) := by
  have hk : ¬ faultUnknown x .exit := by simp [faultUnknown, targetReg]
  rw [show exec .exit s = execExit s from rfl, execExit, (issue_decodeFault _ he hc hnd hf).2 hk]
  simp [decodeParked_cur]

theorem decodeFaultsParkWithoutEffect : Claim.DecodeFaultsParkWithoutEffect := by
  unfold Claim.DecodeFaultsParkWithoutEffect
  intro i w s x c he hop hc hnd hf
  by_cases hx : i = .exit
  · subst hx
    have hk : ¬ faultUnknown x .exit := by simp [faultUnknown, targetReg]
    exact ⟨fun h => absurd h hk, fun _ => by rw [if_pos rfl, exec_exit_decodeFault he hc hnd hf]⟩
  · obtain ⟨body, hb⟩ := exec_eq_issue (by rw [he]; exact Option.some_ne_none w) hx (not_ext_of_op he hop)
    simp only [if_neg hx, hb]
    exact issue_decodeFault body he hc hnd hf

/-! ## Registers that a format names (R262, R263) -/

/-- The first register at or above its budget, past operands that lie below theirs. -/
theorem budgetFault_append {w : Word} {g : Group} {e : Ext} {a : List Slot} (h : budgetFault w g e a = none) (b : List Slot) :
    budgetFault w g e (a ++ b) = budgetFault w g e b := by
  induction a with
  | nil => rfl
  | cons sl r ih =>
    simp only [budgetFault] at h
    split at h
    · cases h
    · rename_i hc
      rw [List.cons_append, budgetFault, if_neg hc, ih h]

/-- The decode fault of an instruction without extension words whose registers that a format names lie too high. -/
theorem decodeFault_format {s : State} {g : Group} {i : Instr} {w : Word} {res : Option (Nat × Nat)} {c : CauseDetail} (hx : g.ext = [])
    (hg : gangFault s g i = none) (hb : budgetFault w g {} (slots i) = none) (hf : budgetFault w g {} (formatSlots g i) = some c) :
    decodeFault s g i w res = some c := by
  have he : extOf g.ext = {} := by rw [hx]; rfl
  unfold decodeFault
  rw [he]
  dsimp only
  rw [budgetFault_append hb, hf, hg, hx]
  rfl

/-- The budget check of a T or A register. -/
theorem budgetFault_tile (w : Word) (g : Group) (e : Ext) (c : RegClass) (hc : c = .t ∨ c = .a) (lo base count : Nat) (r : List Slot) :
    budgetFault w g e (rslot c lo base count 1 :: r)
      = if budgetOf g c < base + count then some (0x0101, decodeDetail w lo base) else budgetFault w g e r := by
  have hp : slotPresent e (rslot c lo base count 1) = true := by rcases hc with rfl | rfl <;> rfl
  have hn : slotNum e (rslot c lo base count 1) = base := by rcases hc with rfl | rfl <;> rfl
  rw [budgetFault, hp, hn, Bool.true_and]
  exact if_congr decide_eq_true_iff rfl rfl

theorem tileFamily_eq_zero (n : Nat) : tileFamily n = 0 ↔ n = 1 := by
  unfold tileFamily
  split
  · simp [*]
  · split <;> [simp; split] <;> simp [*]

/-- The registers of a matrix operation that its formats name, checked in the order of its fields. -/
theorem budgetFault_mmaSlots (w : Word) (g : Group) (acc : AReg) (ta tb : TReg) (dw : Bool) :
    budgetFault w g {} (formatSlots.mmaSlots g acc ta tb dw)
      = if (g.tfmtOf ta.toNat = 1 ∧ g.tfmtOf tb.toNat = 1) ∧ g.abud < acc.toNat + (if dw then 4 else 2)
        then some (0x0101, decodeDetail w 22 acc.toNat)
        else if g.tbud < ta.toNat + tileRegs (g.tfmtOf ta.toNat) then some (0x0101, decodeDetail w 18 ta.toNat)
        else if g.tbud < tb.toNat + tileRegs (g.tfmtOf tb.toNat) then some (0x0101, decodeDetail w 14 tb.toNat) else none := by
  have hfam : familyRegs 0 dw = if dw then 4 else 2 := by cases dw <;> rfl
  unfold formatSlots.mmaSlots
  simp only [tileFamily_eq_zero, hfam]
  by_cases hw : g.tfmtOf ta.toNat = 1 ∧ g.tfmtOf tb.toNat = 1
  · rw [if_pos hw]
    rw [List.cons_append, List.nil_append, budgetFault_tile _ _ _ _ (.inr rfl), budgetFault_tile _ _ _ _ (.inl rfl),
      budgetFault_tile _ _ _ _ (.inl rfl)]
    exact if_congr (by rw [eq_true hw, true_and]; rfl) rfl rfl
  · rw [if_neg hw, if_neg fun h => hw h.1]
    rw [List.nil_append, budgetFault_tile _ _ _ _ (.inl rfl), budgetFault_tile _ _ _ _ (.inl rfl)]
    rfl

theorem formatsNameRegisters : Claim.FormatsNameRegisters := by
  unfold Claim.FormatsNameRegisters
  intro s g w acc ta tb mb res dw hx regs past wide mma first
  have hmma : formatSlots g mma = formatSlots.mmaSlots g acc ta tb dw := by cases dw <;> rfl
  refine ⟨fun h => ⟨fun hg hb => ?_, fun hg hb => ?_⟩, fun h1 h2 hg hb => ?_, fun h1 h2 hg hb => ?_, fun h hg hb => ?_, fun h1 h2 hg hb => ?_,
    fun h1 h2 h3 hg hb => ?_⟩ <;> refine decodeFault_format hx hg hb ?_
  · exact (budgetFault_tile w g {} .t (.inl rfl) ..).trans (if_pos h)
  · exact (budgetFault_tile w g {} .t (.inl rfl) ..).trans (if_pos h)
  · exact (budgetFault_tile w g {} .t (.inl rfl) ..).trans ((if_neg h1).trans ((budgetFault_tile w g {} .t (.inl rfl) ..).trans (if_pos h2)))
  · rw [formatSlots, if_pos h1]
    exact (budgetFault_tile w g {} .a (.inr rfl) ..).trans (if_pos h2)
  · rw [hmma, budgetFault_mmaSlots, if_pos h]
  · rw [hmma, budgetFault_mmaSlots, if_neg h1, if_pos h2]
  · rw [hmma, budgetFault_mmaSlots, if_neg h1, if_neg h2, if_pos h3]

/-! ## Words that are no legal instruction (R40, R47) -/

/-- The decode fault of a word with a reserved field that is not 0, where none comes before it or after it. -/
theorem decodeFault_reserved {s : State} {g : Group} {i : Instr} {w : Word} (h : decodeFault s g i w none = none) (lo v : Nat) :
    decodeFault s g i w (some (lo, v)) = some (0x0102, decodeDetail w lo v) := by
  unfold decodeFault at h ⊢
  simp only [orElse_none] at h
  obtain ⟨h0, h1, h2, h3, h4, -⟩ := h
  simp [h0, h1, h2, h3, h4]

theorem illegalWordsParkTheirSet : Claim.IllegalWordsParkTheirSet := by
  unfold Claim.IllegalWordsParkTheirSet
  intro w s x hc hnd
  have hexec : exec (.illegalInstruction w) s = if (targetPending x (namedBy w) || formatPending x.g (namedBy w)) = true then .next s
      else .next (decodeParked s x (namedBy w) w x.ext.yields (illegalFault s x.g w)) := by
    rw [show exec (.illegalInstruction w) s = execIllegalInstruction w s from rfl, execIllegalInstruction]
    simp only [hc, finish_decodeStop s hnd]
  refine ⟨illegalFault s x.g w, fun h => ?_, fun h => ?_, fun h => ?_, fun lo v hlt hd hp => ?_, fun i lo v hlt hd hf => ?_⟩
  · rw [hexec, if_pos ((faultUnknown_iff _ _).mp h)]
  · rw [hexec, if_neg fun k => h ((faultUnknown_iff _ _).mpr k)]
  · rw [illegalFault, fldNat_op, if_pos h]
  · rw [illegalFault, fldNat_op, if_neg (by omega), hd]
    simp only [hp, Option.getD_none]
  · rw [illegalFault, fldNat_op, if_neg (by omega), hd]
    simp only [decodeFault_reserved hf, Option.getD_some]

/-! ## Privilege (R17, R82) -/

/-- A privileged instruction without extension words in a context of privilege level 0. -/
theorem decodeFault_privileged {s : State} {g : Group} {i : Instr} {w : Word} (hx : g.ext = []) (hl : levelOf s g = false)
    (hb : budgetFault w g {} (slots i) = none) (hp : privCheck i = some (25, 0x1E)) (hg : gangFault s g i = none) (hs : formatSlots g i = [])
    (hq : (accepts i).quad = false) : decodeFault s g i w none = some (0x0104, decodeDetail w 25 0x1E) := by
  have he : extOf g.ext = {} := by rw [hx]; rfl
  unfold decodeFault
  rw [he]
  dsimp only
  rw [budgetFault_append hb, hs, hg, hx, hp, hl, hq]
  rfl

theorem privilegedInstructionsTrapAtLevelZero : Claim.PrivilegedInstructionsTrapAtLevelZero := by
  unfold Claim.PrivilegedInstructionsTrapAtLevelZero
  intro d a b i s x hi hc hnd hl hx hb
  have key : ∀ w : Word, encode i = some w → (∃ body, ∀ s, exec i s = issue i body s) → privCheck i = some (25, 0x1E) →
      gangFault s x.g i = none → formatSlots x.g i = [] → (accepts i).quad = false → ¬ faultUnknown x i → yieldsOf i x.ext = x.ext.yields →
      exec i s = .next (decodeParked s x i ((encode i).getD 0) x.ext.yields (0x0104, decodeDetail ((encode i).getD 0) 25 0x1E)) := by
    rintro w he ⟨body, hex⟩ hp hg hs hq hk hy
    rw [he, Option.getD_some] at hb ⊢
    rw [hex s, (issue_decodeFault body he hc hnd (decodeFault_privileged hx hl hb hp hg hs hq)).2 hk, hy]
  simp only [List.mem_cons, List.not_mem_nil, or_false] at hi
  rcases hi with rfl | rfl | rfl | rfl
  all_goals exact key _ rfl ⟨_, fun _ => rfl⟩ rfl rfl rfl rfl (by simp [faultUnknown, targetReg]) (Bool.or_false _)

end Sys2Proof.Machine

open Sys2Proof Sys2Proof.Machine

/-- Settles O41: every word that may not execute ends in `decodeParked`, with the first fault of R48's order. -/
theorem faultingWordsPark : Obligations.FaultingWordsPark := by
  unfold Obligations.FaultingWordsPark
  exact ⟨decodeFaultsParkWithoutEffect, formatsNameRegisters, illegalWordsParkTheirSet, privilegedInstructionsTrapAtLevelZero⟩
end

section
/-! PROOFS. The ends and the waits of threads: EXIT and JOIN (R74, R76, R159). -/
namespace Sys2Proof.Machine
open Sys2Proof.Laws

/-! ## JOIN -/

theorem mem_namedLanes {g : Group} {m : DWord} {k : Nat} :
    k ∈ namedLanes g m ↔ k < 64 ∧ (g.thread k).status ≠ .exited ∧ m.getLsbD k = true := by
  simp [namedLanes, Group.live, Config.width, bitOf_toNat]
  tauto

theorem namedLanes_nodup (g : Group) (m : DWord) : (namedLanes g m).Nodup :=
  (List.nodup_range.filter _).filter _

theorem waitsAt_iff {g : Group} {pc : DWord} {k : Nat} :
    waitsAt g pc k = true ↔ ∃ m', (g.thread k).status = .join m' ∧ (g.thread k).pc = pc := by
  unfold waitsAt
  cases (g.thread k).status <;> simp

/-- A wait at a JOIN is over once every named thread that has not exited stands there. -/
theorem all_waitsAt_iff {g : Group} {m pc : DWord} :
    (namedLanes g m).all (waitsAt g pc) = true ↔
      ∀ k < 64, m.getLsbD k = true → (g.thread k).status ≠ .exited → ∃ m', (g.thread k).status = .join m' ∧ (g.thread k).pc = pc := by
  simp only [List.all_eq_true, mem_namedLanes, waitsAt_iff]
  exact ⟨fun h k hk hm he => h k ⟨hk, he, hm⟩, fun h k ⟨hk, he, hm⟩ => h k hk hm he⟩

/-- A thread of a group that stands in its list of threads. -/
theorem thread_of_mem_zipIdx {g : Group} {th : Thread} {k : Nat} (h : (th, k) ∈ g.threads.zipIdx) : g.thread k = th := by
  simp [Group.thread, List.mem_zipIdx_iff_getElem?.mp h]

theorem lt_of_mem_zipIdx {g : Group} {th : Thread} {k : Nat} (h : (th, k) ∈ g.threads.zipIdx) : k < g.threads.length := by
  have := List.mem_zipIdx_iff_getElem?.mp h
  by_contra hk
  simp [List.getElem?_eq_none (Nat.le_of_not_lt hk)] at this

/-- The named threads that have not exited, changed together. -/
theorem modifyThreads_namedLanes (f : Thread → Thread) {g : Group} (hlen : g.threads.length = 64) (m : DWord) :
    g.modifyThreads (namedLanes g m) f = { g with
      threads := g.threads.zipIdx.map fun (th, k) => if m.getLsbD k ∧ th.status ≠ Status.exited then f th else th } := by
  rw [modifyThreads_zip f g (namedLanes_nodup g m)]
  congr 1
  apply List.map_congr_left
  rintro ⟨th, k⟩ hmem
  have hk : k < 64 := hlen ▸ lt_of_mem_zipIdx hmem
  exact if_congr (by rw [mem_namedLanes, thread_of_mem_zipIdx hmem]; exact ⟨fun ⟨_, he, hm⟩ => ⟨hm, he⟩, fun ⟨hm, he⟩ => ⟨hk, he, hm⟩⟩) rfl rfl

theorem releaseJoin_uid (g : Group) (lane : Nat) : (releaseJoin g lane).uid = g.uid := by
  unfold releaseJoin
  split
  · split
    · rw [modifyThreads_zip _ g (namedLanes_nodup g _)]
    · rfl
  · rfl

theorem releaseJoins_uid (g : Group) : (releaseJoins g).uid = g.uid :=
  foldl_keeps_value Group.uid releaseJoin_uid _ g

theorem joinWaitsForTheNamedLanes : Claim.JoinWaitsForTheNamedLanes := by
  unfold Claim.JoinWaitsForTheNamedLanes
  constructor
  · intro a s x h mask waiting
    have hwait : x.lanes.foldl (fun g l => g.modifyThread l fun t =>
        if bitOf mask.toNat l then { t with status := .join mask } else { t with pc := t.pc + 4 }) x.g = waiting := by
      rw [foldl_modifyThread _ h.nodup]
      simp only [bitOf_toNat]
      rfl
    have hu : (releaseJoins waiting).uid = x.uid := by rw [releaseJoins_uid]; exact issue_uid h.current
    rw [show exec (.join a) s = execJoin a s from rfl, execJoin, issue_next h]
    show Host.Outcome.next (finish s x _ (.moved (s.setGroup (releaseJoins (x.lanes.foldl _ x.g))))) = _
    rw [hwait]
    exact congrArg _ (finish_moved h hu).2
  · intro g lane m hlen hst there
    have hrel : releaseJoin g lane = if (namedLanes g m).all (waitsAt g (g.thread lane).pc) then
        g.modifyThreads (namedLanes g m) fun t => { t with status := .run, pc := t.pc + 4 } else g := by
      unfold releaseJoin
      rw [hst]
    refine ⟨fun hall => ?_, fun ⟨k, hk, hm, hn⟩ => ?_⟩
    · rw [hrel, if_pos (all_waitsAt_iff.mpr hall), modifyThreads_namedLanes _ hlen]
    · rw [hrel, if_neg fun hall => hn (all_waitsAt_iff.mp hall k hk hm)]

/-! ## EXIT -/

theorem exitEndsItsThreads : Claim.ExitEndsItsThreads := by
  unfold Claim.ExitEndsItsThreads
  intro s x h g
  have hg : x.g.modifyThreads x.lanes (fun t => { t with status := .exited }) = x.g.withStatus x.lanes .exited := modifyThreads_zip _ x.g h.nodup
  rw [show exec .exit s = execExit s from rfl, execExit, issue_next h]
  simp only [hg, finish_completed h]
  rfl

end Sys2Proof.Machine

open Sys2Proof Sys2Proof.Machine

/-- Settles O43: EXIT by its equation, JOIN by what its named lanes are. -/
theorem threadsExitAndJoin : Obligations.ThreadsExitAndJoin := by
  unfold Obligations.ThreadsExitAndJoin
  exact ⟨exitEndsItsThreads, joinWaitsForTheNamedLanes⟩
end

section
/-! PROOFS. System registers: SRD and SWR (R14, R77, R78). -/
namespace Sys2Proof.Machine
open Sys2Proof.Laws

theorem sysRead_clock (s : State) (g : Group) (lane : Nat) : sysRead s g lane 0x20 = s.clock := rfl

theorem outD_one_eq (x : Issue) (d : VReg) (n : Nat) : outD x d 1 n = resD x d (BitVec.ofNat 32 n) := by
  simp [outD, vout, resD]

/-- What SRD delivers of a register: CLOCK in a pair and every other one in a word. -/
theorem outD_sysRegs (s : State) (x : Issue) (l : Nat) (d : VReg) (idx : BitVec 8) :
    outD x d (sysRegs idx) (sysRead s x.g l idx.toNat) =
      if idx = 0x20 then resPair x d (BitVec.ofNat 64 s.clock) else resD x d (BitVec.ofNat 32 (sysRead s x.g l idx.toNat)) := by
  by_cases h : idx = 0x20
  · subst h
    exact outD_two_eq x d s.clock
  · rw [if_neg h, ← outD_one_eq, sysRegs, if_neg (show ¬ idx.toNat = 0x20 from fun k => h (BitVec.eq_of_toNat_eq k))]

theorem systemRegistersRead : Claim.SystemRegistersRead := by
  unfold Claim.SystemRegistersRead
  intro d idx
  constructor
  · have hout : LaneResultIn (.srd d idx) fun s x l => outD x d (sysRegs idx) (sysRead s x.g l idx.toNat) :=
      laneResultIn_inD (SlotsSound.srd d idx) (List.mem_cons_self ..) (fun _ => rfl) fun s x l =>
        LaneOut.inD_of_vout rfl rfl (by unfold sysRegs; split <;> decide)
    simpa only [outD_sysRegs] using hout
  · intro s g lane
    refine ⟨rfl, rfl, rfl, rfl, rfl, rfl, rfl, rfl, rfl, rfl, rfl, rfl, rfl, rfl, rfl, rfl, fun c hc => ⟨?_, ?_⟩, fun l hl => ⟨?_, ?_, ?_⟩⟩
    · simp [sysRead, hc]
    · simp [sysRead, hc]
    · simp [sysRead, hl, gridOf]
    · simp [sysRead, hl, gridOf]
    · simp [sysRead, hl, gridOf]

/-! ## Writes -/

/-- The low bits of a word. -/
theorem ofNat_mod_two_pow (v : Word) (k : Nat) (hk : k ≤ 32) : BitVec.ofNat 32 (v.toNat % 2 ^ k) = v &&& BitVec.ofNat 32 (2 ^ k - 1) := by
  apply BitVec.eq_of_toNat_eq
  have hpow : 2 ^ k - 1 < 2 ^ 32 := by have := Nat.pow_le_pow_right (n := 2) (by decide) hk; have := Nat.two_pow_pos k; omega
  rw [BitVec.toNat_and, BitVec.toNat_ofNat, BitVec.toNat_ofNat, Nat.mod_eq_of_lt hpow, Nat.and_two_pow_sub_one_eq_mod,
    Nat.mod_eq_of_lt (lt_of_le_of_lt (Nat.mod_le _ _) v.isLt)]

/-- What FPCTL keeps of a written word: FTZ, and RM where it names a mode (R14). -/
theorem fpctlStored_eq (v : Word) : fpctlStored v = (v &&& 0x10) ||| (if (v &&& 7).toNat < 5 then v &&& 7 else 0) := by
  have hrm : (v &&& 7).toNat = v.toNat % 8 := Nat.and_two_pow_sub_one_eq_mod v.toNat 3
  have hftz : (v &&& 0x10).toNat = 2 ^ 4 * (v.toNat / 16 % 2) := by
    have := Nat.and_two_pow v.toNat 4
    rw [Nat.testBit_eq_decide_div_mod_eq] at this
    rw [BitVec.toNat_and]
    refine this.trans ?_
    rcases Nat.mod_two_eq_zero_or_one (v.toNat / 16) with h | h <;> simp [h]
  apply BitVec.eq_of_toNat_eq
  have hmode : (if (v &&& 7).toNat < 5 then v &&& 7 else (0 : Word)).toNat = if v.toNat % 8 < 5 then v.toNat % 8 else 0 := by
    rw [apply_ite BitVec.toNat, hrm]
    rfl
  rw [BitVec.toNat_or, hftz, hmode, ← Nat.two_pow_add_eq_or_of_lt (by split <;> omega), fpctlStored, BitVec.toNat_ofNat]
  simp only [bitsOf, Nat.pow_zero, Nat.div_one]
  norm_num only
  rw [Nat.mod_eq_of_lt (by split <;> omega), Nat.mul_comm]

theorem sysWrite_fpctl (s : State) (uid ctx lane : Nat) (v : Word) : sysWrite s uid ctx lane 0x18 v =
    s.modifyGroup uid fun g => g.modifyThread lane fun t => { t with fpctl := (v &&& 0x10) ||| (if (v &&& 7).toNat < 5 then v &&& 7 else 0) } := by
  rw [← fpctlStored_eq]
  rfl

theorem sysWrite_fpstat (s : State) (uid ctx lane : Nat) (v : Word) : sysWrite s uid ctx lane 0x19 v =
    s.modifyGroup uid fun g => g.modifyThread lane fun t => { t with fpstat := v &&& 0x7F } := by
  rw [show v &&& 0x7F = BitVec.ofNat 32 (v.toNat % 2 ^ 7) from (ofNat_mod_two_pow v 7 (by decide)).symm]
  rfl

theorem sysWrite_obsv (s : State) (uid ctx lane : Nat) (v : Word) : sysWrite s uid ctx lane 0x28 v =
    s.modifyGroup uid fun g => { g with obsv := v &&& 1 } := by
  rw [show v &&& 1 = BitVec.ofNat 32 (v.toNat % 2 ^ 1) from (ofNat_mod_two_pow v 1 (by decide)).symm]
  rfl

theorem sysWrite_stepctl (s : State) (uid ctx lane : Nat) (v : Word) : sysWrite s uid ctx lane 0x29 v =
    s.modifyGroup uid fun g => { g with stepctl := v &&& 3 } := by
  rw [show v &&& 3 = BitVec.ofNat 32 (v.toNat % 2 ^ 2) from (ofNat_mod_two_pow v 2 (by decide)).symm]
  rfl

/-- A register that is not writable keeps its value (R77). -/
theorem sysWrite_readOnly (s : State) (uid ctx lane : Nat) {idx : Nat} (h : idx ∉ [0x18, 0x19, 0x28, 0x29, 0x2A]) (v : Word) :
    sysWrite s uid ctx lane idx v = s := by
  simp only [List.mem_cons, List.not_mem_nil, or_false, not_or] at h
  unfold sysWrite
  split <;> simp_all

theorem systemRegistersWrite : Claim.SystemRegistersWrite := by
  unfold Claim.SystemRegistersWrite
  intro a each group
  have key : ∀ (idx : BitVec 8) (w : State → Issue → Nat → State), (∀ s x l, sysWrite s x.uid x.g.ctx l idx.toNat (opA x l a) = w s x l) →
      StateResult (.swr a idx) always fun s x => x.members.foldl (fun s l => w s x l) s := fun idx w hw =>
    stateResult_of (fun _ => rfl) fun s x _ _ => by simp only [← hw]; rfl
  refine ⟨key _ _ fun s x l => sysWrite_fpctl .., key _ _ fun s x l => sysWrite_fpstat .., key _ _ fun s x l => sysWrite_obsv ..,
    key _ _ fun s x l => sysWrite_stepctl .., key _ _ fun s x l => rfl, fun idx h => ?_⟩
  have hidx : idx.toNat ∉ [0x18, 0x19, 0x28, 0x29, 0x2A] := fun hm => h (by
    simp only [List.mem_cons, List.not_mem_nil, or_false] at hm ⊢
    exact hm.imp (BitVec.eq_of_toNat_eq ·) (.imp (BitVec.eq_of_toNat_eq ·) (.imp (BitVec.eq_of_toNat_eq ·)
      (.imp (BitVec.eq_of_toNat_eq ·) (BitVec.eq_of_toNat_eq ·)))))
  have hkeep := key idx (fun s _ _ => s) fun s x l => sysWrite_readOnly s x.uid x.g.ctx l hidx _
  simpa only [List.foldl_fixed] using hkeep

end Sys2Proof.Machine

open Sys2Proof Sys2Proof.Machine

/-- Settles O44: the index table of SRD, and what each writable register keeps of a written word. -/
theorem systemRegistersReadAndWrite : Obligations.SystemRegistersReadAndWrite := by
  unfold Obligations.SystemRegistersReadAndWrite
  exact ⟨systemRegistersRead, systemRegistersWrite⟩
end

section
/-! PROOFS. The privileged instructions: RESUME, GSAVE, GLOAD and FQPOP (R82, R310 to R315, R325, R326). -/
namespace Sys2Proof.Machine
open Sys2Proof.Laws

theorem engineReady_iff (s : State) (x : Issue) : engineReady s x.g = true ↔ ownAccessesDone s x := by
  simp [engineReady, ownAccessesDone]

/-- A privileged instruction whose group's accesses are performed delivers its status. -/
theorem issue_privileged {s t : State} {x : Issue} {i : Instr} {d : VReg} {code : Nat} {body : State → Issue → Except Effect (State × Nat)}
    (h : Issues s x i) (hr : ownAccessesDone s x) (hb : body s x = .ok (t, code)) :
    privileged i d body s = .next (completed i x (statusIn d code t x)) := by
  rw [privileged, issue_next h]
  simp only [(engineReady_iff s x).mpr hr, hb, Bool.not_true, Bool.false_eq_true, if_false, finish_completed h]
  rfl

/-- A privileged instruction that finds what it needs delivers its status. -/
theorem stateResult_privileged {i : Instr} {d : VReg} {code : Nat} {cond : State → Issue → Prop} {u : State → Issue → State}
    {body : State → Issue → Except Effect (State × Nat)} (he : ∀ s, exec i s = privileged i d body s)
    (hr : ∀ s x, cond s x → ownAccessesDone s x) (hb : ∀ s x, cond s x → body s x = .ok (u s x, code)) :
    StateResult i cond fun s x => statusIn d code (u s x) x := fun s x h hc => by
  rw [he, issue_privileged h (hr s x hc) (hb s x hc)]

/-- A privileged instruction that has to wait. -/
theorem issue_privileged_stall {s : State} {x : Issue} {i : Instr} {d : VReg} {body : State → Issue → Except Effect (State × Nat)}
    (h : Issues s x i) (hb : body s x = .error .stall) : privileged i d body s = .next s := by
  rw [privileged, issue_next h]
  cases hr : engineReady s x.g <;> simp [hb, finish]

theorem elected_eq_handleB (x : Issue) (b : VReg) : elected x 4 b = handleB x b := rfl

/-! ## RESUME -/

/-- What RESUME does, on the words of the claim. -/
def resumeBody (d a b : VReg) (s : State) (x : Issue) : Except Effect (State × Nat) :=
  let action := (x.g.vget (lowLane x.lanes) (x.ext.vnum 18 d)).toNat % 8
  let mask := pairA x (lowLane x.lanes) a
  if names (handleB x b) x.g then .ok (s, 5)
  else match parkedAt s (handleB x b) with
    | none => .ok (s, 2)
    | some g =>
      match g.park with
      | none => .ok (s, 2)
      | some p =>
        if action = 0 ∨ 4 < action then .ok (s, 3)
        else if action = 2 ∧ maskSplits p mask then .ok (s, 4)
        else if action = 4 ∧ g.ctx = x.g.ctx then .ok (s, 5)
        else .ok (applyAction s g action mask, 0)

theorem exec_resume (d a b : VReg) (s : State) : exec (.resume d a b) s = privileged (.resume d a b) d (resumeBody d a b) s := rfl

theorem resumeActsOnTheParkedGroup : Claim.ResumeActsOnTheParkedGroup := by
  unfold Claim.ResumeActsOnTheParkedGroup
  intro d a b i action mask status at_
  have key : ∀ (code : Nat) (cond : State → Issue → Prop) (u : State → Issue → State), (∀ s x, cond s x → ownAccessesDone s x) →
      (∀ s x, cond s x → resumeBody d a b s x = .ok (u s x, code)) → StateResult i cond fun s x => statusIn d code (u s x) x :=
    fun code cond u => stateResult_privileged (exec_resume d a b)
  have found : ∀ s x g p, at_ s x g p → resumeBody d a b s x =
      if action x = 0 ∨ 4 < action x then .ok (s, 3)
      else if action x = 2 ∧ maskSplits p (mask x) then .ok (s, 4)
      else if action x = 4 ∧ g.ctx = x.g.ctx then .ok (s, 5)
      else .ok (applyAction s g (action x) (mask x), 0) := by
    rintro s x g p ⟨-, hn, hg, hp⟩
    simp only [resumeBody, hn, hg, hp, Bool.false_eq_true, if_false]
    rfl
  refine ⟨key 5 _ _ (fun s x h => h.1) fun s x ⟨_, hn⟩ => ?_, key 2 _ _ (fun s x h => h.1) fun s x ⟨_, hn, hg⟩ => ?_, fun g p => ⟨?_, ?_, ?_, ?_, ?_, ?_⟩⟩
  · simp only [resumeBody, hn, if_true]
  · simp only [resumeBody, hn, hg, Bool.false_eq_true, if_false]
  · exact key 3 _ _ (fun s x h => h.1.1) fun s x ⟨hat, hact⟩ => by rw [found s x g p hat, if_pos hact]
  · refine key 4 _ _ (fun s x h => h.1.1) fun s x ⟨hat, hact, hm⟩ => ?_
    rw [found s x g p hat, if_neg (by omega), if_pos ⟨hact, hm⟩]
  · refine key 5 _ _ (fun s x h => h.1.1) fun s x ⟨hat, hact, hm⟩ => ?_
    rw [found s x g p hat, if_neg (by omega), if_neg (by omega), if_pos ⟨hact, hm⟩]
  · refine key 0 _ _ (fun s x h => h.1.1) fun s x ⟨hat, hact⟩ => ?_
    have hno : ¬ (action x = 2 ∧ maskSplits p (mask x) = true) := fun ⟨h2, hm⟩ => by
      rcases hact with h1 | ⟨-, hf⟩
      · omega
      · exact Bool.false_ne_true (hf.symm.trans hm)
    have happ : applyAction s g (action x) (mask x) = settle (releasePark s g.uid (action x) (mask x)) := by
      rw [applyAction, if_neg (by omega), if_neg (by omega)]
    rw [found s x g p hat, if_neg (by omega), if_neg hno, if_neg (by omega), happ]
  · refine key 0 _ _ (fun s x h => h.1.1) fun s x ⟨hat, hact⟩ => ?_
    rw [found s x g p hat, if_neg (by omega), if_neg (by omega), if_neg (by omega), applyAction, if_pos hact]
  · refine key 0 _ _ (fun s x h => h.1.1) fun s x ⟨hat, hact, hctx⟩ => ?_
    rw [found s x g p hat, if_neg (by omega), if_neg (by omega), if_neg fun h => hctx h.2, applyAction, if_neg (by omega), if_pos hact]

/-! ## GSAVE and GLOAD -/

/-- What GSAVE and GLOAD do with the parked group that their handle names. -/
def frameBody (b : VReg) (act : State → Group → Except Effect (State × Nat)) (s : State) (x : Issue) : Except Effect (State × Nat) :=
  if names (handleB x b) x.g then .ok (s, 5)
  else match parkedAt s (handleB x b) with
    | none => .ok (s, 2)
    | some g => if unsettled g then .error .stall else act s g

/-- What GSAVE does to a parked group. -/
def gsaveAct (s : State) (g : Group) : Except Effect (State × Nat) :=
  .ok (((saveFrame s (((s.ctx? g.ctx).map (·.saBase)).getD 0) g).modifyGroup g.uid fun y => { y with gsaved := true }).nextOccasion, 0)

/-- What GLOAD does to a parked group. -/
def gloadAct (s : State) (g : Group) : Except Effect (State × Nat) :=
  if !g.gsaved then .ok (s, 6)
  else if badPc s (framePa s g) g then .ok (s, 7)
  else .ok ((s.setGroup (loadFrame s (framePa s g) g)).nextOccasion, 0)

theorem exec_gsave (d b : VReg) (s : State) : exec (.gsave d b) s = privileged (.gsave d b) d (frameBody b gsaveAct) s := rfl
theorem exec_gload (d b : VReg) (s : State) : exec (.gload d b) s = privileged (.gload d b) d (frameBody b gloadAct) s := rfl

theorem unsettled_iff (g : Group) : unsettled g = true ↔ (∃ l ∈ g.loads, l.done = false) ∨ g.mmas ≠ [] := by
  simp [unsettled]

section
variable {b : VReg} {act : State → Group → Except Effect (State × Nat)} {s : State} {x : Issue}

theorem frameBody_self (h : names (handleB x b) x.g = true) : frameBody b act s x = .ok (s, 5) := if_pos h

theorem frameBody_none (h : names (handleB x b) x.g = false) (hg : parkedAt s (handleB x b) = none) : frameBody b act s x = .ok (s, 2) := by
  simp only [frameBody, h, hg, Bool.false_eq_true, if_false]

theorem frameBody_some {g : Group} (h : names (handleB x b) x.g = false) (hg : parkedAt s (handleB x b) = some g) :
    frameBody b act s x = if unsettled g then .error .stall else act s g := by
  simp only [frameBody, h, hg, Bool.false_eq_true, if_false]
end

theorem framesMoveUnderGsaveAndGload : Claim.FramesMoveUnderGsaveAndGload := by
  unfold Claim.FramesMoveUnderGsaveAndGload
  intro d b status none_ at_ self
  have save : ∀ (code : Nat) (cond : State → Issue → Prop) (u : State → Issue → State), (∀ s x, cond s x → ownAccessesDone s x) →
      (∀ s x, cond s x → frameBody b gsaveAct s x = .ok (u s x, code)) → StateResult (.gsave d b) cond fun s x => statusIn d code (u s x) x :=
    fun code cond u => stateResult_privileged (exec_gsave d b)
  have load : ∀ (code : Nat) (cond : State → Issue → Prop) (u : State → Issue → State), (∀ s x, cond s x → ownAccessesDone s x) →
      (∀ s x, cond s x → frameBody b gloadAct s x = .ok (u s x, code)) → StateResult (.gload d b) cond fun s x => statusIn d code (u s x) x :=
    fun code cond u => stateResult_privileged (exec_gload d b)
  have found : ∀ act s x g, at_ s x g → frameBody b act s x = act s g := by
    rintro act s x g ⟨-, hn, hg, -, hl, hm⟩
    rw [frameBody_some hn hg, if_neg]
    rw [unsettled_iff]
    rintro (⟨l, hml, hd⟩ | hne)
    · exact Bool.false_ne_true (hd.symm.trans (hl l hml))
    · exact hne hm
  refine ⟨save 5 _ _ (fun s x h => h.1) fun s x h => frameBody_self h.2, load 5 _ _ (fun s x h => h.1) fun s x h => frameBody_self h.2,
    save 2 _ _ (fun s x h => h.1) fun s x h => frameBody_none h.2.1 h.2.2, load 2 _ _ (fun s x h => h.1) fun s x h => frameBody_none h.2.1 h.2.2,
    fun s x g i hi h hr hn hg hu => ?_, fun g => ⟨save 0 _ _ (fun s x h => h.1) fun s x h => found _ s x g h, ?_, ?_, ?_⟩⟩
  · have hstall : ∀ act, frameBody b act s x = .error .stall := fun act => by rw [frameBody_some hn hg, if_pos ((unsettled_iff g).mpr hu)]
    rcases hi with rfl | rfl
    · rw [exec_gsave, issue_privileged_stall h (hstall _)]
    · rw [exec_gload, issue_privileged_stall h (hstall _)]
  · refine load 6 _ _ (fun s x h => h.1.1) fun s x ⟨hat, hs⟩ => ?_
    rw [found _ s x g hat, gloadAct, hs]
    rfl
  · refine load 7 _ _ (fun s x h => h.1.1) fun s x ⟨hat, hs, hb⟩ => ?_
    rw [found _ s x g hat, gloadAct, hs, hb]
    rfl
  · refine load 0 _ _ (fun s x h => h.1.1) fun s x ⟨hat, hs, hb⟩ => ?_
    rw [found _ s x g hat, gloadAct, hs, hb]
    rfl

/-! ## FQPOP -/

/-- What FQPOP does, on the words of the claim. -/
def fqpopBody (a b : VReg) (s : State) (x : Issue) : Except Effect (State × Nat) :=
  match created? s ((handleB x b).toNat % 65536) with
  | none => .ok (s, 2)
  | some c =>
    match oldestEntry s c with
    | none => .ok (s, 1)
    | some e =>
      match storeNow s x.g (pairA x (lowLane x.lanes) a) e with
      | .wait => .error .stall
      | .fault f => .error (setFault x 1 (pairA x (lowLane x.lanes) a) f)
      | .ok t => .ok (popEntry t c.num, 0)

theorem exec_fqpop (d a b : VReg) (s : State) : exec (.fqpop d a b) s = privileged (.fqpop d a b) d (fqpopBody a b) s := rfl

theorem fqpopTakesTheOldestEntry : Claim.FqpopTakesTheOldestEntry := by
  unfold Claim.FqpopTakesTheOldestEntry
  intro d a b i ctx va
  refine ⟨stateResult_privileged (exec_fqpop d a b) (fun s x h => h.1) fun s x ⟨_, hc⟩ => ?_, fun c => ⟨?_, fun s x t h hr hc hlt ht => ?_⟩⟩
  · simp only [fqpopBody, show created? s ((handleB x b).toNat % 65536) = none from hc]
  · refine stateResult_privileged (exec_fqpop d a b) (fun s x h => h.1) fun s x ⟨_, hc, hle⟩ => ?_
    simp only [fqpopBody, show created? s ((handleB x b).toNat % 65536) = some c from hc, oldestEntry, if_neg (Nat.not_lt.mpr hle)]
  · refine (exec_fqpop d a b s).trans (issue_privileged (t := popEntry t c.num) h hr ?_)
    have ht' : storeNow s x.g (pairA x (lowLane x.lanes) a) (s.hbm.read (fqEntry c c.fqRead) 32) = .ok t := ht
    simp only [fqpopBody, show created? s ((handleB x b).toNat % 65536) = some c from hc, oldestEntry, if_pos hlt, ht']

end Sys2Proof.Machine

open Sys2Proof Sys2Proof.Machine

/-- Settles O45: each instruction by its body, on the handle's group or context. -/
theorem privilegedInstructionsServeParks : Obligations.PrivilegedInstructionsServeParks := by
  unfold Obligations.PrivilegedInstructionsServeParks
  exact ⟨resumeActsOnTheParkedGroup, framesMoveUnderGsaveAndGload, fqpopTakesTheOldestEntry⟩
end

section
/-! PROOFS. What the accesses of a set wait for, the members that pass, addresses, and the issue of loads (R174, R186, R187, R195, R206). -/
namespace Sys2Proof.Machine
open Sys2Proof.Laws

/-! ## Waits (R199, R205 to R208) -/

theorem reaches_iff_shared (s : State) (x : Issue) (sc : Nat) : reaches s x.g sc = true ↔ shared s x sc := by
  simp [reaches, shared, mutually, eq_comm (a := x.g.launch), eq_comm (a := x.g.team)]

theorem reaches_eq_false {s : State} {x : Issue} {sc : Nat} (h : ¬ shared s x sc) : reaches s x.g sc = false :=
  Bool.eq_false_iff.mpr fun hr => h ((reaches_iff_shared s x sc).mp hr)

theorem acquireWaits_eq_false {s : State} {x : Issue} {ord : MemOrder} {sc : Scope} (h : noPendingRelease s x ord sc) :
    acquireWaits s x.g ord.acquires sc.code.toNat = false := by
  rw [acquireWaits, Bool.and_eq_false_iff]
  by_cases hq : ord.acquires = true
  · refine .inr (List.any_eq_false.mpr fun b hb hk => ?_)
    rw [Bool.and_eq_true, bitOf_toNat, reaches_iff_shared] at hk
    exact h hq b hb hk.1 hk.2
  · exact .inl (Bool.eq_false_iff.mpr hq)

theorem releaseWaits_eq_false {s : State} {x : Issue} {ord : MemOrder} {sc : Scope} (h : noPendingStore s x ord sc) :
    releaseWaits s x.g ord sc = false := by
  refine Bool.eq_false_iff.mpr fun hr => ?_
  simp only [releaseWaits, Bool.and_eq_true, reaches_iff_shared, Bool.not_eq_true'] at hr
  obtain ⟨⟨hrel, hsh⟩, hst⟩ := hr
  exact Bool.false_ne_true (hst.symm.trans (h hrel hsh))

theorem systemWaits_eq_false {s : State} {x : Issue} {ord : MemOrder} {sc : Scope} (h : noSystemWait s x ord sc) :
    systemWaits s x.g ord sc = false := by
  refine Bool.eq_false_iff.mpr fun hr => ?_
  simp only [systemWaits, Bool.and_eq_true, beq_iff_eq, Bool.or_eq_true, List.any_eq_true, Bool.not_eq_true'] at hr
  obtain ⟨⟨hrel, hsys⟩, hw⟩ := hr
  obtain ⟨hd, hb, ht⟩ := h hrel hsys
  rcases hw with (⟨d, hm, hg, hn⟩ | ⟨b, hm, hf⟩) | ⟨w, hm, hf⟩
  · exact Bool.false_ne_true (hn.symm.trans (hd d hm hg))
  · exact Bool.false_ne_true ((hb b hm).symm.trans hf)
  · exact Bool.false_ne_true ((ht w hm).symm.trans hf)

/-! ## Members that pass (R174) -/

theorem badOf_eq_nil {α : Type} {ms : Members α} (h : ∀ m ∈ ms, ∃ v, m.2.2 = .ok v) : badOf ms = [] := by
  refine List.filterMap_eq_nil_iff.mpr fun m hm => ?_
  obtain ⟨l, va, r⟩ := m
  obtain ⟨v, hv⟩ := h _ hm
  cases hv
  rfl

theorem anyWaits_eq_false {α : Type} {ms : Members α} (h : ∀ m ∈ ms, ∃ v, m.2.2 = .ok v) : anyWaits ms = false := by
  refine List.any_eq_false.mpr fun m hm => ?_
  obtain ⟨l, va, r⟩ := m
  obtain ⟨v, hv⟩ := h _ hm
  cases hv
  exact Bool.false_ne_true

theorem goodOf_length {α : Type} {ms : Members α} (h : ∀ m ∈ ms, ∃ v, m.2.2 = .ok v) : (goodOf ms).length = ms.length := by
  induction ms with
  | nil => rfl
  | cons m ms ih =>
    obtain ⟨l, va, r⟩ := m
    obtain ⟨v, hv⟩ := h _ (List.mem_cons_self ..)
    cases hv
    exact congrArg Nat.succ (ih fun m hm => h m (List.mem_cons_of_mem _ hm))

theorem goodOf_isEmpty {α : Type} {ms : Members α} (h : ∀ m ∈ ms, ∃ v, m.2.2 = .ok v) (hne : ms ≠ []) : (goodOf ms).isEmpty = false := by
  rw [List.isEmpty_eq_false_iff, ← List.length_pos_iff, goodOf_length h]
  exact List.length_pos_iff.mpr hne

/-- The members of a set that all pass, each with what it gives. -/
theorem goodOf_map {α : Type} {ls : List Nat} {addr : Nat → DWord} {r : Nat → Fitted α} {v : Nat → α} (h : ∀ l ∈ ls, r l = .ok (v l)) :
    goodOf (ls.map fun l => (l, addr l, r l)) = ls.map fun l => (l, addr l, v l) := by
  induction ls with
  | nil => rfl
  | cons l ls ih =>
    have hl := h l (List.mem_cons_self ..)
    simp only [goodOf, List.map_cons, List.filterMap_cons, hl]
    exact congrArg _ (ih fun k hk => h k (List.mem_cons_of_mem _ hk))

/-- Where no member faults, the instruction completes. -/
theorem endMembers_done {α : Type} {ms : Members α} (h : ∀ m ∈ ms, ∃ v, m.2.2 = .ok v) (kind : Nat) (s : State) :
    endMembers kind ms s = .done s := by
  rw [endMembers, badOf_eq_nil h]
  rfl

/-- A mapped set of members passes where each of its lanes does. -/
theorem forall_mem_map_ok {α : Type} {ls : List Nat} {addr : Nat → DWord} {r : Nat → Fitted α} (h : ∀ l ∈ ls, ∃ v, r l = .ok v) :
    ∀ m ∈ ls.map (fun l => (l, addr l, r l)), ∃ v, m.2.2 = .ok v := by
  intro m hm
  obtain ⟨l, hl, rfl⟩ := List.mem_map.mp hm
  exact h l hl

/-! ## Addresses (R186) -/

theorem ofNat_wrapTo_add (p : DWord) (v : Int) : BitVec.ofNat 64 (wrapTo 64 ((p.toNat : Int) + v)) = p + BitVec.ofInt 64 v := by
  rw [wrapTo_add_dword, BitVec.ofNat_toNat, BitVec.setWidth_eq]

theorem mAddr_eq (x : Issue) (a : VReg) (off : BitVec 6) (n l : Nat) : mAddr x a off n l = addrM a off n x l := ofNat_wrapTo_add ..

theorem bAddr_eq (x : Issue) (a b : VReg) (l : Nat) : bAddr x a b l = addrB a b x l := by
  have hsx : BitVec.ofInt 64 (toSigned 32 (opB x l b).toNat) = (opB x l b).signExtend 64 := by rw [toSigned_word, BitVec.signExtend]
  rw [bAddr, srcB_one, ofNat_wrapTo_add, hsx]
  rfl

theorem sAddr_eq (x : Issue) (a : SReg7) (off : BitVec 6) (n : Nat) : sAddr x a off n = addrS a off n x := ofNat_wrapTo_add ..

/-! ## Loads -/

theorem bytesAt_of_ok {s : State} {g : Group} {acc : Access} {va : DWord} {b : List Byte} (h : loadMember s g acc va = .ok b) :
    bytesAt s g acc va = b := by
  simp only [bytesAt, h]

theorem loadMember_ok_iff {s : State} {g : Group} {acc : Access} {va : DWord} :
    (∃ b, loadMember s g acc va = .ok b) ↔ loadMember s g acc va = .ok (bytesAt s g acc va) :=
  ⟨fun ⟨b, hb⟩ => by rw [bytesAt_of_ok hb, hb], fun h => ⟨_, h⟩⟩

/-- The loads of members that all pass issue as one load. -/
theorem loads_done {i : Instr} {s : State} {x : Issue} {acc : Access} {ord : MemOrder} {sc : Scope} {addr : Issue → Nat → DWord}
    (vals : Issue → Nat → List Byte → List (Nat × Word)) (h : mayLoad acc ord sc addr s x) :
    loads i s x acc (addr x) (vals x) = .done (loadIssued i acc addr vals s x) := by
  obtain ⟨hne, hcount, -, hok⟩ := h
  have hall := forall_mem_map_ok (addr := addr x) hok
  have hgood := goodOf_map (addr := addr x) (v := fun l => bytesAt s x.g acc (addr x l)) fun l hl => loadMember_ok_iff.mp (hok l hl)
  have hempty := goodOf_isEmpty hall (by simpa using hne)
  rw [hgood] at hempty
  simp only [loads, anyWaits_eq_false hall, Bool.false_eq_true, if_false, hgood, hempty, endMembers_done hall]
  rw [if_neg (show ¬ Config.counterMax ≤ x.g.ldCount from Nat.not_le.mpr hcount)]
  simp only [loadIssued, List.map_map, List.flatMap_map]
  rfl

/-- A load form completes as one load of its members. -/
theorem loadResult_of {i : Instr} {d : VReg} {n : Nat} {ord : MemOrder} {sc : Scope} {addr addr' : Issue → Nat → DWord}
    {vals : List Byte → List Word} (he : ∀ s, exec i s = loadInstr i d n addr' ord sc vals s) (ha : ∀ x, addr' x = addr x) :
    LoadResult i d n ord sc addr vals := by
  obtain rfl : addr' = addr := funext ha
  intro s x h hc
  rw [he, loadInstr, issue_next h, acquireWaits_eq_false hc.2.2.1, if_neg Bool.false_ne_true,
    loads_done (fun x _ b => (vals b).zipIdx.map fun (w, k) => (x.ext.vnum 18 d + k, w)) hc, finish_completed h]

/-- What a DLD that passes its checks reads. -/
theorem dldMember_ok {s : State} {g : Group} {va : DWord} {w : Word × Word} (h : dldMember s g va = .ok w) :
    ∃ p, groupAccess s g dldAccess va = .ok p ∧ w = groupDesc s g p := by
  unfold dldMember at h
  split at h
  · cases h
  · rename_i p hp
    refine ⟨p, hp, ?_⟩
    split at h
    · cases h; rfl
    · split at h
      · cases h
      · cases h; rfl

theorem loadsReadAtTheirIssue : Claim.LoadsReadAtTheirIssue := by
  unfold Claim.LoadsReadAtTheirIssue
  intro d a b off ord sc
  have hm : ∀ (n : Nat) (x : Issue), mAddr x a off n = addrM a off n x := fun n x => funext fun l => mAddr_eq ..
  have hb : ∀ x : Issue, bAddr x a b = addrB a b x := fun x => funext fun l => bAddr_eq ..
  refine ⟨loadResult_of (addr' := fun x => mAddr x a off 4) (fun _ => rfl) (hm 4), loadResult_of (addr' := fun x => mAddr x a off 8) (fun _ => rfl) (hm 8),
    loadResult_of (addr' := fun x => bAddr x a b) (fun _ => rfl) hb, loadResult_of (addr' := fun x => bAddr x a b) (fun _ => rfl) hb,
    loadResult_of (addr' := fun x => bAddr x a b) (fun _ => rfl) hb, loadResult_of (addr' := fun x => bAddr x a b) (fun _ => rfl) hb,
    loadResult_of (addr' := fun x => bAddr x a b) (fun _ => rfl) hb, stateResult_of (fun _ => rfl) ?_⟩
  rintro s x - ⟨hne, hcount, hok⟩
  have haddr : bAddr x a b = addrB a b x := funext fun l => bAddr_eq ..
  have hall := forall_mem_map_ok (addr := addrB a b x) hok
  have hv : ∀ l ∈ x.members, dldMember s x.g (addrB a b x l) = .ok (fittedOr (0, 0) (dldMember s x.g (addrB a b x l))) := fun l hl => by
    obtain ⟨w, hw⟩ := hok l hl
    rw [hw]
    rfl
  have hgood := goodOf_map (addr := addrB a b x) hv
  have hempty := goodOf_isEmpty hall (by simpa using hne)
  rw [hgood] at hempty
  simp only [haddr, anyWaits_eq_false hall, Bool.false_eq_true, if_false, hgood, hempty, endMembers_done hall]
  rw [if_neg (show ¬ Config.counterMax ≤ x.g.ldCount from Nat.not_le.mpr hcount)]
  simp only [List.map_map, List.flatMap_map]
  have hvals : (x.members.flatMap fun l => [(RegDst.v l (x.ext.vnum 18 d), (fittedOr (0, 0) (dldMember s x.g (addrB a b x l))).1),
      (RegDst.v l (x.ext.vnum 18 d + 1), (fittedOr (0, 0) (dldMember s x.g (addrB a b x l))).2)]) = x.members.flatMap fun l =>
        match groupAccess s x.g dldAccess (addrB a b x l) with
        | .ok p => [(RegDst.v l (x.ext.vnum 18 d), (groupDesc s x.g p).1), (RegDst.v l (x.ext.vnum 18 d + 1), (groupDesc s x.g p).2)]
        | .error _ => [] := by
    refine List.flatMap_congr fun l hl => ?_
    obtain ⟨w, hw⟩ := hok l hl
    obtain ⟨p, hp, rfl⟩ := dldMember_ok hw
    rw [hw, hp]
    rfl
  rw [hvals]
  rfl

end Sys2Proof.Machine
end

section
/-! PROOFS. The values of a load reach the registers that it names and no others (R195, R200, R261 to R263, R270, R272). -/
namespace Sys2Proof.Machine
open Sys2Proof.Laws

/-! ## A list of writes -/

/-- A key that no write names keeps its value. -/
theorem written_of_forall_ne {α : Type} {ws : List (Nat × α)} {k : Nat} (h : ∀ w ∈ ws, w.1 ≠ k) (old : α) : written ws k old = old := by
  induction ws generalizing old with
  | nil => rfl
  | cons w ws ih =>
    obtain ⟨j, v⟩ := w
    rw [written_cons, if_neg (h (j, v) (List.mem_cons_self ..)), ih fun w hw => h w (List.mem_cons_of_mem _ hw)]

/-- A key that some write names takes the value on which all its writes agree. -/
theorem written_of_agree {α : Type} {ws : List (Nat × α)} {k : Nat} {v : α} (hv : ∀ w ∈ ws, w.1 = k → w.2 = v) (h : ∃ w ∈ ws, w.1 = k) (old : α) :
    written ws k old = v := by
  induction ws generalizing old with
  | nil => obtain ⟨w, hw, -⟩ := h; cases hw
  | cons w ws ih =>
    obtain ⟨j, u⟩ := w
    rw [written_cons]
    have hws : ∀ w ∈ ws, w.1 = k → w.2 = v := fun w hw => hv w (List.mem_cons_of_mem _ hw)
    by_cases hr : ∃ w ∈ ws, w.1 = k
    · exact ih hws hr _
    · rw [written_of_forall_ne fun w hw hk => hr ⟨w, hw, hk⟩]
      obtain ⟨w, hw, hk⟩ := h
      rcases List.mem_cons.mp hw with rfl | hw
      · rw [if_pos hk, ← hv _ (List.mem_cons_self ..) hk]
      · exact absurd ⟨w, hw, hk⟩ hr

/-- One value written at every key of a list. -/
theorem written_map_const {α : Type} (ks : List Nat) (c : α) (k : Nat) (old : α) :
    written (ks.map fun r => (r, c)) k old = if k ∈ ks then c else old := by
  by_cases h : k ∈ ks
  · have hagree : ∀ w ∈ ks.map (fun r => (r, c)), w.1 = k → w.2 = c := fun w hw _ => by
      obtain ⟨r, -, rfl⟩ := List.mem_map.mp hw
      rfl
    rw [if_pos h, written_of_agree hagree ⟨(k, c), List.mem_map.mpr ⟨k, h, rfl⟩, rfl⟩]
  · rw [if_neg h, written_of_forall_ne]
    intro w hw hk
    obtain ⟨r, hr, rfl⟩ := List.mem_map.mp hw
    exact h (hk ▸ hr)

/-- The registers from a first one on. -/
theorem mem_registers {r n k : Nat} : k ∈ (List.range n).map (r + ·) ↔ r ≤ k ∧ k < r + n := by
  simp only [List.mem_map, List.mem_range]
  exact ⟨fun ⟨j, hj, he⟩ => by omega, fun h => ⟨k - r, by omega, by omega⟩⟩

/-- The sixteen bytes of each of the registers from a first one on. -/
theorem written_rows (r n : Nat) {bytes : List Byte} (hb : bytes.length = 16) (k : Nat) (old : Byte) :
    written (((List.range n).map (r + ·)).flatMap fun j => bytes.zipIdx.map fun (b, i) => (j * 16 + i, b)) k old
      = if r ≤ k / 16 ∧ k / 16 < r + n then bytes.getD (k % 16) 0 else old := by
  have hmem : ∀ w : Nat × Byte, w ∈ ((List.range n).map (r + ·)).flatMap (fun j => bytes.zipIdx.map fun (b, i) => (j * 16 + i, b)) ↔
      (r ≤ w.1 / 16 ∧ w.1 / 16 < r + n) ∧ bytes[w.1 % 16]? = some w.2 := by
    rintro ⟨m, b⟩
    rw [List.mem_flatMap]
    simp only [mem_registers]
    simp only [List.mem_map, Prod.exists, Prod.mk.injEq, List.mem_zipIdx_iff_getElem?]
    constructor
    · rintro ⟨j, hj, c, i, hc, rfl, rfl⟩
      have hi : i < 16 := by
        by_contra hi
        rw [List.getElem?_eq_none (by omega)] at hc
        cases hc
      rw [show (j * 16 + i) / 16 = j by omega, show (j * 16 + i) % 16 = i by omega]
      exact ⟨hj, hc⟩
    · rintro ⟨hj, hc⟩
      exact ⟨m / 16, hj, b, m % 16, hc, by omega, rfl⟩
  by_cases hk : r ≤ k / 16 ∧ k / 16 < r + n
  · have hlt : k % 16 < bytes.length := by omega
    have hget : bytes[k % 16]? = some (bytes.getD (k % 16) 0) := by simp [List.getD_eq_getElem?_getD, hlt]
    rw [if_pos hk]
    refine written_of_agree (fun w hw he => ?_) ⟨(k, bytes.getD (k % 16) 0), (hmem _).mpr ⟨hk, hget⟩, rfl⟩ old
    have := ((hmem w).mp hw).2
    rw [he, hget] at this
    exact (Option.some.inj this).symm
  · rw [if_neg hk]
    exact written_of_forall_ne (fun w hw he => hk (by rw [← he]; exact ((hmem w).mp hw).1)) old

/-- A map after a list of writes. -/
theorem putAll_spec {α : Type} [DecidableEq α] {d : α} (l : List (Nat × α)) {m : Sparse α} (h : swf d m = true) :
    swf d (putAll d m l) = true ∧ ∀ k, sget d (putAll d m l) k = written l k (sget d m k) := by
  induction l generalizing m with
  | nil => exact ⟨h, fun _ => rfl⟩
  | cons w l ih =>
    obtain ⟨j, v⟩ := w
    obtain ⟨h1, h2⟩ := ih (swf_sput j v h)
    refine ⟨h1, fun k => ?_⟩
    rw [written_cons, show putAll d m ((j, v) :: l) = putAll d (sput d m j v) l from rfl, h2 k, sget_sput j v k h]
    exact congrArg _ (if_congr eq_comm rfl rfl)

/-! ## Registers -/

/-- The writes of a load to the V registers of a lane. -/
def laneVals (ws : List (RegDst × Word)) (lane : Nat) : List (Nat × Word) :=
  ws.filterMap fun (k, w) => match k with
    | .v i j => if i = lane then some (j, w) else none
    | _ => none

/-- The writes of a load to S registers. -/
def sregVals (ws : List (RegDst × Word)) : List (Nat × Word) :=
  ws.filterMap fun (k, w) => match k with
    | .s j => some (j, w)
    | _ => none

/-- The plain registers that a load writes. -/
theorem writeDsts_spec (ws : List (RegDst × Word)) : ∀ g : Group, swf 0 g.v = true → swf 0 g.sreg = true →
    (∀ w ∈ ws, ∀ lane r, w.1 = .v lane r → r < 256) →
    let g' := writeDsts g ws
    g' = { g with v := g'.v, sreg := g'.sreg }
      ∧ (∀ lane r, r < 256 → g'.vget lane r = written (laneVals ws lane) r (g.vget lane r))
      ∧ ∀ r, g'.sregGet r = written (sregVals ws) r (g.sregGet r) := by
  induction ws with
  | nil => exact fun g _ _ _ => ⟨rfl, fun _ _ _ => rfl, fun _ => rfl⟩
  | cons w ws ih =>
    intro g hv hs hr
    have hrest : ∀ w ∈ ws, ∀ lane r, w.1 = .v lane r → r < 256 := fun w hw => hr w (List.mem_cons_of_mem _ hw)
    obtain ⟨dst, val⟩ := w
    have hcons : writeDsts g ((dst, val) :: ws) = writeDsts (writeDst g dst val) ws := rfl
    rw [hcons]
    cases dst with
    | v lane r =>
      have hlt : r < 256 := hr _ (List.mem_cons_self ..) lane r rfl
      obtain ⟨h1, h2, h3⟩ := ih (g.vput lane r val) (Group.vput_wf hv lane r val) hs hrest
      refine ⟨h1, fun l k hk => ?_, h3⟩
      rw [show writeDst g (.v lane r) val = g.vput lane r val from rfl, h2 l k hk, Group.vget_vput hv hlt hk]
      by_cases hl : lane = l
      · subst hl
        simp [laneVals, eq_comm]
      · simp [laneVals, hl, Ne.symm hl]
    | s r =>
      obtain ⟨h1, h2, h3⟩ := ih (g.sregPut r val) hv (swf_sput r val hs) hrest
      refine ⟨h1, h2, fun k => ?_⟩
      rw [show writeDst g (.s r) val = g.sregPut r val from rfl, h3 k]
      have hget : (g.sregPut r val).sregGet k = if r = k then val else g.sregGet k := by
        rw [Group.sregGet, Group.sregPut, sget_sput r val k hs]
        exact if_congr eq_comm rfl rfl
      rw [hget]
      rfl
    | t r => exact ih g hv hs hrest
    | a r => exact ih g hv hs hrest

/-! ## Tiles and accumulators -/

/-- What a tile load does with its tile. -/
theorem putTile_spec {g : Group} (ht : swf 0 g.tile = true) (hf : swf 0 g.tfmt = true) (hs : swf 0x7F g.rscale = true) (hp : swf 0 g.rspec = true)
    (t : TileLoad) (hscale : t.scale.length = 16) (hspec : t.spec.length = 16) (elems : List (Nat × DWord)) :
    let g' := putTile g t elems
    let into := fun (r : Nat) => t.reg ≤ r ∧ r < t.reg + t.count
    (∀ k, sget 0 g'.tile k = written elems k (sget 0 g.tile k))
      ∧ (∀ r, sget 0 g'.tfmt r = if into r then t.fmt else sget 0 g.tfmt r)
      ∧ ∀ k, sget 0x7F g'.rscale k = (if into (k / 16) then t.scale.getD (k % 16) 0 else sget 0x7F g.rscale k)
        ∧ sget 0 g'.rspec k = if into (k / 16) then t.spec.getD (k % 16) 0 else sget 0 g.rspec k := by
  refine ⟨(putAll_spec elems ht).2, fun r => ?_, fun k => ⟨?_, ?_⟩⟩
  · refine ((putAll_spec _ hf).2 r).trans ?_
    rw [written_map_const]
    exact if_congr mem_registers rfl rfl
  · exact ((putAll_spec _ hs).2 k).trans (written_rows t.reg t.count hscale k _)
  · exact ((putAll_spec _ hp).2 k).trans (written_rows t.reg t.count hspec k _)

/-- The registers of an accumulator. -/
def accRegs (r : Nat) (tag : BitVec 2) : List Nat := if tag = 2 then [r, r + 1] else [r]

theorem mem_accRegs {r k : Nat} {tag : BitVec 2} : k ∈ accRegs r tag ↔ k = r ∨ tag = 2 ∧ k = r + 1 := by
  unfold accRegs
  split
  · simp [*]
  · rename_i h
    simp [show ¬ tag = 2#2 from h]

/-- The group with an accumulator loaded. -/
def putAcc (g : Group) (r : Nat) (tag : BitVec 2) (elems : List (Nat × DWord)) : Group :=
  { g with acc := putAll 0 g.acc (elems.map fun (k, v) => (k, BitVec.ofNat 32 v.toNat))
           atag := putAll 0 g.atag ((accRegs r tag).map fun k => (k, tag)), astep := putAll 0 g.astep ((accRegs r tag).map fun k => (k, 0)) }

theorem putAcc_spec {g : Group} (ha : swf 0 g.acc = true) (ht : swf 0 g.atag = true) (hs : swf 0 g.astep = true) (r : Nat) (tag : BitVec 2)
    (elems : List (Nat × DWord)) :
    let g' := putAcc g r tag elems
    let into := fun (k : Nat) => k = r ∨ tag = 2 ∧ k = r + 1
    (∀ k, sget 0 g'.acc k = written (elems.map fun e => (e.1, e.2.setWidth 32)) k (sget 0 g.acc k))
      ∧ ∀ k, sget 0 g'.atag k = (if into k then tag else sget 0 g.atag k) ∧ sget 0 g'.astep k = if into k then 0 else sget 0 g.astep k := by
  refine ⟨(putAll_spec _ ha).2, fun k => ⟨?_, ?_⟩⟩
  · refine ((putAll_spec _ ht).2 k).trans ?_
    rw [written_map_const]
    exact if_congr mem_accRegs rfl rfl
  · refine ((putAll_spec _ hs).2 k).trans ?_
    rw [written_map_const]
    exact if_congr mem_accRegs rfl rfl

theorem deliverLoad_tile (g : Group) {l : Load} {t : TileLoad} (h : l.tile = some t) : deliverLoad g l = putTile (writeDsts g l.vals) t l.elems := by
  simp only [deliverLoad, h]

theorem deliverLoad_acc (g : Group) {l : Load} {r : Nat} {tag : BitVec 2} (h : l.tile = none) (ha : l.acc = some (r, tag)) :
    deliverLoad g l = putAcc (writeDsts g l.vals) r tag l.elems := by
  simp only [deliverLoad, h, ha]
  rfl

theorem deliverLoad_plain (g : Group) {l : Load} (h : l.tile = none) (ha : l.acc = none) : deliverLoad g l = writeDsts g l.vals := by
  simp only [deliverLoad, h, ha]

/-- The parts of a load's value, whichever registers it has. -/
theorem deliverLoad_frame (g : Group) (l : Load) :
    let g1 := writeDsts g l.vals
    let g' := deliverLoad g l
    g' = { g1 with tile := g'.tile, tfmt := g'.tfmt, rscale := g'.rscale, rspec := g'.rspec, acc := g'.acc, atag := g'.atag, astep := g'.astep }
      ∧ (l.tile = none → g'.tile = g1.tile ∧ g'.tfmt = g1.tfmt ∧ g'.rscale = g1.rscale ∧ g'.rspec = g1.rspec)
      ∧ (l.tile ≠ none ∨ l.acc = none → g'.acc = g1.acc ∧ g'.atag = g1.atag ∧ g'.astep = g1.astep) := by
  cases ht : l.tile with
  | some t => rw [deliverLoad_tile g ht]; exact ⟨rfl, fun h => by simp at h, fun _ => ⟨rfl, rfl, rfl⟩⟩
  | none =>
    cases ha : l.acc with
    | none => rw [deliverLoad_plain g ht ha]; exact ⟨rfl, fun _ => ⟨rfl, rfl, rfl, rfl⟩, fun _ => ⟨rfl, rfl, rfl⟩⟩
    | some p => rw [deliverLoad_acc g ht ha]; exact ⟨rfl, fun _ => ⟨rfl, rfl, rfl, rfl⟩, fun h => by simp at h⟩

theorem exec_loadValueReturn {s : State} {uid n : Nat} {g : Group} {l : Load} (hg : s.group? uid = some g) (hl : g.loads[n]? = some l)
    (hd : l.done = false) : exec (.loadValueReturn uid n) s = .next (settle (s.setGroup { deliverLoad g l with
      loads := (g.loads.set n { l with done := true }).dropWhile (fun (y : Load) => y.done) })) := by
  show execLoadValueReturn uid n s = _
  simp only [execLoadValueReturn, hg, hl, hd, Bool.false_eq_true, if_false, modifyAt_eq_set _ _ _ _ hl]

theorem loadValuesReachTheirRegisters : Claim.LoadValuesReachTheirRegisters := by
  unfold Claim.LoadValuesReachTheirRegisters
  intro s uid n g l hg hcan hl hd hr hrows
  simp only [Group.canonical, Bool.and_eq_true] at hcan
  obtain ⟨⟨⟨⟨⟨⟨⟨⟨hv, hsreg⟩, htile⟩, htfmt⟩, hscale⟩, hspec⟩, hacc⟩, hatag⟩, hastep⟩ := hcan
  obtain ⟨h1, h2, h3⟩ := writeDsts_spec l.vals g hv hsreg hr
  obtain ⟨d1, d2, d3⟩ := deliverLoad_frame g l
  set g1 := writeDsts g l.vals with hg1
  have e : g1.tile = g.tile ∧ g1.tfmt = g.tfmt ∧ g1.rscale = g.rscale ∧ g1.rspec = g.rspec ∧ g1.acc = g.acc ∧ g1.atag = g.atag
      ∧ g1.astep = g.astep := by rw [h1]; exact ⟨rfl, rfl, rfl, rfl, rfl, rfl, rfl⟩
  obtain ⟨etile, etfmt, escale, espec, eacc, eatag, eastep⟩ := e
  have dv : (deliverLoad g l).v = g1.v := by rw [d1]
  have ds : (deliverLoad g l).sreg = g1.sreg := by rw [d1]
  refine ⟨_, exec_loadValueReturn hg hl hd, ?_, fun lane r hlt => ?_, fun r => ?_, rfl, fun ht => ?_, fun t ht => ?_, fun h => ?_, fun a tag ht ha => ?_⟩
  · rw [d1, h1]
  · exact (congrArg (fun m => sget 0 m (Group.vkey lane r)) dv).trans (h2 lane r hlt)
  · exact (congrArg (fun m => sget 0 m r) ds).trans (h3 r)
  · obtain ⟨a1, a2, a3, a4⟩ := d2 ht
    exact ⟨a1.trans etile, a2.trans etfmt, a3.trans escale, a4.trans espec⟩
  · obtain ⟨hl1, hl2⟩ := hrows t ht
    have := putTile_spec (g := g1) (etile ▸ htile) (etfmt ▸ htfmt) (escale ▸ hscale) (espec ▸ hspec) t hl1 hl2 l.elems
    rw [deliverLoad_tile g ht]
    simpa only [etile, etfmt, escale, espec] using this
  · obtain ⟨a1, a2, a3⟩ := d3 h
    exact ⟨a1.trans eacc, a2.trans eatag, a3.trans eastep⟩
  · have := putAcc_spec (g := g1) (eacc ▸ hacc) (eatag ▸ hatag) (eastep ▸ hastep) a tag l.elems
    rw [deliverLoad_acc g ht ha]
    simpa only [eacc, eatag, eastep] using this

end Sys2Proof.Machine

open Sys2Proof Sys2Proof.Machine

/-- Settles O46: a load holds what its members read, and its delivery writes the registers of its list one after another. -/
theorem loadsReadAndReturn : Obligations.LoadsReadAndReturn := by
  unfold Obligations.LoadsReadAndReturn
  exact ⟨loadsReadAtTheirIssue, loadValuesReachTheirRegisters⟩
end

section
/-! PROOFS. Stores enter the group's buffer, the uniform loads and stores, and the atomics (R148, R187, R188, R192, R193, R195, R197). -/
namespace Sys2Proof.Machine
open Sys2Proof.Laws

/-! ## The bytes of a store -/

/-- A byte of a number of several bytes. -/
theorem leBytes_eq_map (n x : Nat) : leBytes n x = (List.range n).map fun k => BitVec.ofNat 8 (x / 256 ^ k) := by
  induction n generalizing x with
  | zero => rfl
  | succ n ih =>
    rw [leBytes, ih, List.range_succ_eq_map, List.map_cons, List.map_map]
    refine congrArg₂ List.cons (by simp) (List.map_congr_left fun k _ => ?_)
    rw [Function.comp_apply, Nat.div_div_eq_div_mul, Nat.pow_succ']

/-- The bytes of consecutive words. -/
theorem flatMap_leBytes (f : Nat → Nat) (n : Nat) :
    ((List.range n).flatMap fun k => leBytes 4 (f k)) = (List.range (4 * n)).map fun k => BitVec.ofNat 8 (f (k / 4) / 256 ^ (k % 4)) := by
  induction n with
  | zero => rfl
  | succ n ih =>
    rw [List.range_succ, List.flatMap_append, ih, Nat.mul_succ, List.range_add, List.map_append, List.map_map, List.flatMap_singleton, leBytes_eq_map]
    refine congrArg _ (List.map_congr_left fun k hk => ?_)
    have hk := List.mem_range.mp hk
    rw [Function.comp_apply, show (4 * n + k) / 4 = n by omega, show (4 * n + k) % 4 = k by omega]

theorem regBytes_eq (x : Issue) (d : VReg) (n l : Nat) : regBytes x d n l = storeBytes d (4 * n) x l := flatMap_leBytes _ n

theorem regBytes_take (x : Issue) (d : VReg) (n l : Nat) (hn : n ≤ 4) : (regBytes x d 1 l).take n = storeBytes d n x l := by
  rw [regBytes_eq, storeBytes, storeBytes, ← List.map_take, List.take_range, Nat.min_eq_left (by omega)]

theorem leBytes_vget (x : Issue) (d : VReg) (l : Nat) : leBytes 4 (x.g.vget l (x.ext.vnum 18 d)).toNat = storeBytes d 4 x l := by
  rw [← regBytes_eq x d 1 l]
  simp [regBytes]

/-! ## Stores -/

theorem anyRegion_iff {ms : Members StoreKind} : anyRegion ms = true ↔ ∃ m ∈ ms, ∃ hdr es, m.2.2 = .ok (.region hdr es) := by
  rw [anyRegion, List.any_eq_true]
  refine exists_congr fun m => and_congr_right fun _ => ?_
  obtain ⟨l, va, r⟩ := m
  cases r with
  | ok k => cases k <;> simp
  | wait => simp
  | fault c => simp

/-- The stores of members that all pass enter the buffer. -/
theorem stores_done {s : State} {x : Issue} {acc : Access} {size : Nat} {ord : MemOrder} {sc : Scope} {ms : State → Issue → Members StoreKind}
    (data : Nat → List Byte) (h : mayStore ms ord sc s x) :
    stores s x acc size ord sc (ms s x) data = .done (acceptStores s x size ord sc data (goodOf (ms s x))) := by
  obtain ⟨hne, hcount, hroom, hsys, hreg, hok⟩ := h
  have hrel : (anyRegion (ms s x) && releaseWaits s x.g ord sc) = false := by
    by_cases hany : anyRegion (ms s x) = true
    · rw [releaseWaits_eq_false (hreg (anyRegion_iff.mp hany)), Bool.and_false]
    · rw [Bool.eq_false_iff.mpr hany, Bool.false_and]
  have hfull : ¬ (Config.counterMax ≤ x.g.stCount ∨ Config.storeBuffer < x.g.stores.length + (goodOf (ms s x)).length) := by
    rw [goodOf_length hok]
    exact fun hor => hor.elim (Nat.not_le.mpr hcount) (Nat.not_lt.mpr hroom)
  simp only [stores, anyWaits_eq_false hok, systemWaits_eq_false hsys, hrel, Bool.or_false, Bool.false_eq_true, if_false,
    goodOf_isEmpty hok hne, endMembers_done hok]
  rw [if_neg hfull]

/-- A store form completes with its members' bytes in the buffer. -/
theorem storeResult_of {i : Instr} {d : VReg} {n : Nat} {ord : MemOrder} {sc : Scope} {addr addr' : Issue → Nat → DWord}
    {data : Issue → Nat → List Byte} (he : ∀ s, exec i s = storeInstr i n addr' ord sc data s) (ha : ∀ x, addr' x = addr x)
    (hd : ∀ x, data x = storeBytes d n x) : StoreResult i d n ord sc addr := by
  obtain rfl : addr' = addr := funext ha
  obtain rfl : data = storeBytes d n := funext hd
  intro s x h hc
  rw [he, storeInstr, issue_next h]
  exact congrArg (fun e => Host.Outcome.next (finish s x _ e)) (stores_done _ hc) |>.trans (congrArg _ (finish_completed h _))

theorem storesEnterTheBuffer : Claim.StoresEnterTheBuffer := by
  unfold Claim.StoresEnterTheBuffer
  intro d a b off ord sc
  have hm : ∀ (n : Nat) (x : Issue), mAddr x a off n = addrM a off n x := fun n x => funext fun l => mAddr_eq ..
  have hb : ∀ x : Issue, bAddr x a b = addrB a b x := fun x => funext fun l => bAddr_eq ..
  refine ⟨storeResult_of (addr' := fun x => mAddr x a off 4) (data := fun x l => regBytes x d 1 l) (fun _ => rfl) (hm 4) fun x => funext (regBytes_eq x d 1),
    storeResult_of (addr' := fun x => mAddr x a off 8) (data := fun x l => regBytes x d 2 l) (fun _ => rfl) (hm 8) fun x => funext (regBytes_eq x d 2),
    storeResult_of (addr' := fun x => bAddr x a b) (data := fun x l => (regBytes x d 1 l).take 1) (fun _ => rfl) hb
      fun x => funext fun l => regBytes_take x d 1 l (by decide),
    storeResult_of (addr' := fun x => bAddr x a b) (data := fun x l => (regBytes x d 1 l).take 2) (fun _ => rfl) hb
      fun x => funext fun l => regBytes_take x d 2 l (by decide),
    storeResult_of (addr' := fun x => bAddr x a b) (data := fun x l => regBytes x d 4 l) (fun _ => rfl) hb fun x => funext (regBytes_eq x d 4), ?_⟩
  intro ms s x h hc
  show execDst d a b s = _
  have hdata : (fun l => leBytes 4 (x.g.vget l (x.ext.vnum 18 d)).toNat) = storeBytes d 4 x := funext (leBytes_vget x d)
  rw [execDst, issue_next h]
  dsimp only
  rw [hdata, hb x]
  exact congrArg (fun e => Host.Outcome.next (finish s x _ e)) (stores_done _ hc) |>.trans (congrArg _ (finish_completed h _))

/-! ## The buffer after a store -/

/-- The issue of a store that is not performed stays in the queue of ST, with some of those before it. -/
theorem settleQueue_append {s : State} {g : Group} {n : Nat} (hn : ∃ b ∈ g.stores, b.issue = n) (q : List Nat) :
    ∃ r, settleQueue s g (q ++ [n]) = r ++ [n] ∧ r <:+ q := by
  induction q with
  | nil =>
    obtain ⟨b, hb, hi⟩ := hn
    have hany : (g.stores.any fun b => b.issue == n) = true := List.any_eq_true.mpr ⟨b, hb, by simpa using hi⟩
    exact ⟨[], by simp [settleQueue, hany], List.suffix_refl _⟩
  | cons k q ih =>
    rw [List.cons_append, settleQueue]
    split
    · exact ⟨k :: q, rfl, List.suffix_refl _⟩
    · obtain ⟨r, hr, hs⟩ := ih
      exact ⟨r, hr, hs.trans (List.suffix_cons ..)⟩

theorem setGroup_setGroup (s : State) {g g' : Group} (h : g'.uid = g.uid) : (s.setGroup g).setGroup g' = s.setGroup g' := by
  rw [setGroup_eq_modifyGroup _ g', h, modifyGroup_setGroup s g (fun _ => g') h]

theorem settleStores_setGroup {s : State} {uid : Nat} {g : Group} (h : ∃ y, s.group? uid = some y) (hu : g.uid = uid) :
    settleStores (s.setGroup g) uid = s.setGroup { g with stQueue := settleQueue (s.setGroup g) g g.stQueue } := by
  obtain ⟨y, hy⟩ := h
  simp only [settleStores, group?_setGroup hy hu]
  exact setGroup_setGroup s rfl

theorem bufferedStoresChangeNoMemory : Claim.BufferedStoresChangeNoMemory := by
  unfold Claim.BufferedStoresChangeNoMemory
  intro s x size ord sc data good hg hu t
  set entries := good.map fun (l, va, p) => bufferEntry x.g.nextIssue l va p size (data l) ord sc with hentries
  set g1 : Group := { x.g with stores := x.g.stores ++ entries, stQueue := x.g.stQueue ++ [x.g.nextIssue], nextIssue := x.g.nextIssue + 1 } with hg1
  have ht : t = settleStores (s.setGroup g1) x.uid := by
    show acceptStores s x size ord sc data (good.map fun (l, va, p) => (l, va, .plain p)) = _
    simp only [acceptStores, List.filterMap_map, Function.comp_def, List.filterMap_eq_map', List.filterMap_none, List.map_nil, List.foldl_nil]
    rfl
  have hset := settleStores_setGroup ⟨_, hg⟩ (g := g1) hu
  refine ⟨_, ht.trans hset, rfl, rfl, fun hne => ?_⟩
  obtain ⟨m, hm⟩ := List.exists_mem_of_ne_nil good hne
  refine settleQueue_append ⟨bufferEntry x.g.nextIssue m.1 m.2.1 m.2.2 size (data m.1) ord sc, ?_, rfl⟩ x.g.stQueue
  exact List.mem_append_right _ (List.mem_map.mpr ⟨m, hm, rfl⟩)

end Sys2Proof.Machine

open Sys2Proof Sys2Proof.Machine

/-- Settles O47: the members' stores enter the buffer, and a buffered store changes its group alone. -/
theorem storesAreBuffered : Obligations.StoresAreBuffered := by
  unfold Obligations.StoresAreBuffered
  exact ⟨storesEnterTheBuffer, bufferedStoresChangeNoMemory⟩
end

section
/-! PROOFS. SLD, SST and the atomics (R148, R192, R193). -/
namespace Sys2Proof.Machine
open Sys2Proof.Laws

/-! ## SLD and SST -/

theorem sld_passes {i : Instr} {d a : SReg7} {off : BitVec 6} {n : Nat} {ord : MemOrder} {sc : Scope}
    (he : ∀ s, exec i s = sld i d a off n ord sc s) :
    StateResult i (fun s x => x.members ≠ [] ∧ x.g.loads.length < 255 ∧ noPendingRelease s x ord sc
        ∧ ∃ b, loadMember s x.g (loadAccess n) (addrS a off n x) = .ok b)
      (fun s x => s.setGroup { x.g with
        loads := x.g.loads ++ [loadOf s x.g (loadAccess n) [addrS a off n x]
          ((loadWords (bytesAt s x.g (loadAccess n) (addrS a off n x))).zipIdx.map fun (w, k) => (RegDst.s (x.ext.snum 18 d.toNat + k), w))] }) := by
  rintro s x h ⟨hne, hcount, hrel, hok⟩
  have hemp : x.members.isEmpty = false := by simpa using hne
  have hfull : decide (Config.counterMax ≤ x.g.ldCount) = false := decide_eq_false (Nat.not_le.mpr hcount)
  rw [he, sld, issue_next h]
  simp only [hemp, acquireWaits_eq_false hrel, hfull, Bool.or_self, Bool.false_eq_true, if_false, sAddr_eq, loadMember_ok_iff.mp hok,
    finish_completed h]

theorem sld_empty {i : Instr} {d a : SReg7} {off : BitVec 6} {n : Nat} {ord : MemOrder} {sc : Scope}
    (he : ∀ s, exec i s = sld i d a off n ord sc s) {s : State} {x : Issue} (h : Issues s x i) (hm : x.members = []) :
    exec i s = .next (completed i x (if x.ext.z then s.setGroup ((List.range (n / 4)).foldl
      (fun g k => g.sregPut (x.ext.snum 18 d.toNat + k) 0) x.g) else s)) := by
  rw [he, sld, issue_next h]
  simp only [hm, List.isEmpty_nil, if_true, finish_completed h]

/-- The bytes of S registers that SST stores. -/
def sregBytes (d : SReg7) (n : Nat) (x : Issue) : List Byte := (List.range n).map fun k =>
  BitVec.ofNat 8 ((x.g.sregGet (x.ext.snum 18 d.toNat + k / 4)).toNat / 256 ^ (k % 4))

theorem sst_passes {i : Instr} {d a : SReg7} {off : BitVec 6} {n : Nat} {ord : MemOrder} {sc : Scope}
    (he : ∀ s, exec i s = sst i d a off (4 * n) ord sc s) :
    let ms := fun (s : State) (x : Issue) => [(lowLane x.lanes, addrS a off (4 * n) x,
      storeMember s x.g (storeAccess (4 * n)) (addrS a off (4 * n) x) (sregBytes d (4 * n) x))]
    StateResult i (fun s x => x.members ≠ [] ∧ mayStore ms ord sc s x)
      (fun s x => acceptStores s x (sizeCode (4 * n)) ord sc (fun _ => sregBytes d (4 * n) x) (goodOf (ms s x))) := by
  rintro ms s x h ⟨hne, hmay⟩
  have hemp : x.members.isEmpty = false := by simpa using hne
  obtain ⟨k, hk⟩ := hmay.2.2.2.2.2 _ (List.mem_singleton_self _)
  have hbytes : ((List.range (4 * n / 4)).flatMap fun k => leBytes 4 (x.g.sregGet (x.ext.snum 18 d.toNat + k)).toNat) = sregBytes d (4 * n) x := by
    rw [Nat.mul_div_cancel_left n (by decide)]
    exact flatMap_leBytes _ n
  have hk : storeMember s x.g (storeAccess (4 * n)) (addrS a off (4 * n) x) (sregBytes d (4 * n) x) = .ok k := hk
  have hdone := stores_done (acc := storeAccess (4 * n)) (size := sizeCode (4 * n)) (fun _ => sregBytes d (4 * n) x) hmay
  simp only [ms, hk] at hdone
  rw [he, sst, issue_next h]
  simp only [hemp, Bool.false_eq_true, if_false, hbytes, sAddr_eq, hk, ms]
  exact congrArg (fun e => Host.Outcome.next (finish s x _ e)) hdone |>.trans (congrArg _ (finish_completed h _))

theorem sst_empty {i : Instr} {d a : SReg7} {off : BitVec 6} {n : Nat} {ord : MemOrder} {sc : Scope}
    (he : ∀ s, exec i s = sst i d a off n ord sc s) : StateResult i (fun _ x => x.members = []) fun s _ => s := by
  intro s x h hm
  rw [he, sst, issue_next h]
  simp only [hm, List.isEmpty_nil, if_true, finish_completed h]

/-! ## Atomics -/

/-- The old value of a member in the registers from D on. -/
theorem vout_words (r n old : Nat) (hn : n = 4 ∨ n = 8) (l : Nat) :
    (vout r (n / 4) old).map (fun (k, w) => (RegDst.v l k, w))
      = (List.range (n / 4)).map fun k => (RegDst.v l (r + k), BitVec.ofNat 32 (old / 2 ^ (32 * k))) := by
  rcases hn with rfl | rfl <;> simp [vout, List.range_succ]

/-- An ATOM whose members all pass completes with the memory after them and one load of the old values. -/
theorem atomResult_of {i : Instr} {aop n : Nat} {d a : VReg} {ord : MemOrder} {sc : Scope} {f g : AtomFn} (hn : n = 4 ∨ n = 8)
    (he : ∀ s, exec i s = atom i aop n d a ord sc f s) (hf : f = g) : AtomResult i aop n d a ord sc g := by
  subst hf
  rintro s x h ⟨hne, hcount, hrel, hsys, hst, hok⟩
  have hms : atomFold x.g aop n f (pAddr x a) (fun l => vnat x l (x.ext.vnum 18 d) (n / 4)) (fun l => vnat x l (x.ext.vnum 18 d + n / 4) (n / 4)) s
      x.members = atomMs aop n d a f s x := rfl
  have hlen : ∀ (ls : List Nat) (t : State), (atomFold x.g aop n f (pAddr x a) (fun l => vnat x l (x.ext.vnum 18 d) (n / 4))
      (fun l => vnat x l (x.ext.vnum 18 d + n / 4) (n / 4)) t ls).2.length = ls.length := by
    intro ls
    induction ls with
    | nil => exact fun _ => rfl
    | cons l ls ih =>
      intro t
      rw [atomFold]
      split <;> exact congrArg Nat.succ (ih _)
  have hms_ne : (atomMs aop n d a f s x).2 ≠ [] := fun hnil => hne (List.length_eq_zero_iff.mp (by rw [← hlen x.members s, hms, hnil]; rfl))
  rw [he, atom, issue_next h]
  simp only [releaseWaits_eq_false hst, systemWaits_eq_false hsys, acquireWaits_eq_false hrel, Bool.or_self, Bool.false_eq_true, if_false, hms,
    anyWaits_eq_false hok, goodOf_isEmpty hok hms_ne, endMembers_done hok]
  rw [if_neg (show ¬ Config.counterMax ≤ x.g.ldCount from Nat.not_le.mpr hcount), finish_completed h]
  simp only [vout_words _ _ _ hn]

theorem atomOp_congr {f g : Nat → Nat → Nat} (h : ∀ o v, f o v = g o v) : atomOp f = fun old v _ => some (g old v) := by
  obtain rfl : f = g := funext fun o => funext (h o)
  rfl

theorem toSigned_word_ofNat (o : Nat) : toSigned 32 o = (BitVec.ofNat 32 o).toInt := toSigned_eq_toInt (by decide) o

end Sys2Proof.Machine

open Sys2Proof Sys2Proof.Machine

/-- Settles O11: SLD and SST by whether their set has a member. -/
theorem uniformLoadsAndStores : Obligations.UniformLoadsAndStores := by
  unfold Obligations.UniformLoadsAndStores
  intro d a off ord sc sld_ data sst_
  have load : ∀ (i : Instr) (n : Nat), (∀ s, exec i s = sld i d a off n ord sc s) → sld_ i n := by
    intro i n he
    refine ⟨sld_passes he, fun s x h ⟨hm, hz⟩ => ?_, fun s x h ⟨hm, hz⟩ => ?_⟩
    · rw [sld_empty he h hm, if_pos hz]
    · rw [sld_empty he h hm, if_neg (Bool.eq_false_iff.mp hz)]
  have store : ∀ (i : Instr) (n : Nat), (∀ s, exec i s = sst i d a off (4 * n) ord sc s) → sst_ i (4 * n) := fun i n he => ⟨sst_passes he, sst_empty he⟩
  exact ⟨load _ _ fun _ => rfl, load _ _ fun _ => rfl, store _ 1 fun _ => rfl, store _ 2 fun _ => rfl⟩

/-- Settles O13: every form is `atom` with its code, its size and its function. -/
theorem atomicsReadAndWriteTogether : Obligations.AtomicsReadAndWriteTogether := by
  unfold Obligations.AtomicsReadAndWriteTogether
  intro d a ord sc low op cas
  have h4 : (4 : Nat) = 4 ∨ (4 : Nat) = 8 := .inl rfl
  have h8 : (8 : Nat) = 4 ∨ (8 : Nat) = 8 := .inr rfl
  refine ⟨atomResult_of h4 (fun _ => rfl) rfl, atomResult_of h4 (fun _ => rfl) (atomOp_congr fun o v => ?min),
    atomResult_of h4 (fun _ => rfl) (atomOp_congr fun o v => ?max), atomResult_of h4 (fun _ => rfl) (atomOp_congr fun o v => ?minN),
    atomResult_of h4 (fun _ => rfl) (atomOp_congr fun o v => ?maxN), atomResult_of h4 (fun _ => rfl) rfl, atomResult_of h4 (fun _ => rfl) rfl,
    atomResult_of h4 (fun _ => rfl) rfl, atomResult_of h4 (fun _ => rfl) rfl, atomResult_of h4 (fun _ => rfl) rfl,
    atomResult_of h4 (fun _ => rfl) rfl, atomResult_of h8 (fun _ => rfl) rfl, atomResult_of h8 (fun _ => rfl) rfl, atomResult_of h8 (fun _ => rfl) rfl⟩
  case min => simp only [toSigned_word_ofNat, low]
  case max => simp only [toSigned_word_ofNat, low]
  case minN => exact Nat.min_def
  case maxN => exact Nat.max_def
end

section
/-! PROOFS. REGROUP, segments, FENCE and WAIT (R155, R182, R190, R194, R196). -/
namespace Sys2Proof.Machine
open Sys2Proof.Laws

/-! ## Sorting lanes by key -/

theorem insertKey_perm (key : Nat → Nat) (l : Nat) (acc : List Nat) : (insertKey key l acc).Perm (l :: acc) := by
  induction acc with
  | nil => exact List.Perm.refl _
  | cons a acc ih =>
    rw [insertKey]
    split
    · exact List.Perm.refl _
    · exact (ih.cons a).trans (List.Perm.swap l a acc)

theorem insertKey_sorted (key : Nat → Nat) (l : Nat) {acc : List Nat} (h : acc.Pairwise fun i j => key i ≤ key j) :
    (insertKey key l acc).Pairwise fun i j => key i ≤ key j := by
  induction acc with
  | nil => simp [insertKey]
  | cons a acc ih =>
    obtain ⟨ha, hacc⟩ := List.pairwise_cons.mp h
    rw [insertKey]
    split
    case isTrue hlt =>
      refine List.pairwise_cons.mpr ⟨fun b hb => ?_, h⟩
      rcases List.mem_cons.mp hb with rfl | hb
      · exact hlt.le
      · exact hlt.le.trans (ha b hb)
    case isFalse hge =>
      refine List.pairwise_cons.mpr ⟨fun b hb => ?_, ih hacc⟩
      rcases List.mem_cons.mp ((insertKey_perm key l acc).mem_iff.mp hb) with rfl | hb
      · exact Nat.le_of_not_lt hge
      · exact ha b hb

/-- A lane stands behind the lanes of its own key. -/
theorem insertKey_filter (key : Nat → Nat) (l v : Nat) {acc : List Nat} (h : acc.Pairwise fun i j => key i ≤ key j) :
    (insertKey key l acc).filter (fun i => key i == v) = acc.filter (fun i => key i == v) ++ [l].filter fun i => key i == v := by
  induction acc with
  | nil => simp [insertKey]
  | cons a acc ih =>
    obtain ⟨ha, hacc⟩ := List.pairwise_cons.mp h
    rw [insertKey]
    split
    case isTrue hlt =>
      by_cases hv : key l = v
      · have hnone : (a :: acc).filter (fun i => key i == v) = [] := by
          refine List.filter_eq_nil_iff.mpr fun b hb => ?_
          have hb : key l < key b := by
            rcases List.mem_cons.mp hb with rfl | hb
            · exact hlt
            · exact hlt.trans_le (ha b hb)
          simp only [beq_iff_eq]
          omega
        rw [List.filter_cons, hnone]
        simp [hv]
      · rw [List.filter_cons, if_neg (by simpa using hv)]
        simp [hv]
    case isFalse hge =>
      rw [List.filter_cons, ih hacc, List.filter_cons (x := a) (xs := acc)]
      split <;> rfl

/-- What a sort by insertion keeps, from any sorted list on. -/
theorem sortLanes_spec (key : Nat → Nat) (lanes : List Nat) : (sortLanes key lanes).Perm lanes
    ∧ (sortLanes key lanes).Pairwise (fun i j => key i ≤ key j)
    ∧ ∀ v, (sortLanes key lanes).filter (fun i => key i == v) = lanes.filter fun i => key i == v := by
  have key' : ∀ (lanes acc : List Nat), acc.Pairwise (fun i j => key i ≤ key j) →
      let r := lanes.foldl (fun acc l => insertKey key l acc) acc
      r.Perm (acc ++ lanes) ∧ r.Pairwise (fun i j => key i ≤ key j)
        ∧ ∀ v, r.filter (fun i => key i == v) = acc.filter (fun i => key i == v) ++ lanes.filter fun i => key i == v := by
    intro lanes
    induction lanes with
    | nil => exact fun acc h => ⟨by simp, h, fun v => by simp⟩
    | cons l lanes ih =>
      intro acc h
      obtain ⟨h1, h2, h3⟩ := ih (insertKey key l acc) (insertKey_sorted key l h)
      refine ⟨h1.trans ?_, h2, fun v => ?_⟩
      · exact ((insertKey_perm key l acc).append_right lanes).trans List.perm_middle.symm
      · exact (h3 v).trans (by rw [insertKey_filter key l v h, List.append_assoc, ← List.filter_append, List.singleton_append])
  obtain ⟨h1, h2, h3⟩ := key' lanes [] List.Pairwise.nil
  exact ⟨h1, h2, h3⟩

/-- A list paired with another of its length, by positions. -/
theorem zip_map_eq_map_idxOf {α : Type} {ls os : List Nat} (hnd : ls.Nodup) (hlen : os.length = ls.length) (f : Nat → α) :
    ((ls.zip os).map fun (m, o) => (m, f o)) = ls.map fun l => (l, f (os.getD (ls.idxOf l) 0)) := by
  apply List.ext_getElem
  · simp [hlen]
  · intro k h1 h2
    have hk : k < os.length := by simpa [hlen] using h2
    simp [hnd.idxOf_getElem, List.getD_eq_getElem?_getD, hk]

/-! ## Segments -/

theorem segWord_eq (s : State) (k : Nat) : segWord s k =
    BitVec.ofNat 32 (k / 256 / 48 * 2 ^ 22 + k / 256 % 48 * 2 ^ 16 + k % 256 * 2 ^ 8 + (if (segAt s k).dead then 4 else 0) + (segAt s k).state.toNat) := by
  simp only [segWord, flagAt, dieOf, Config.segments, Config.coresPerDie, Nat.reducePow]

/-- An instruction whose members' results are written as `perLane` writes them completes with them. -/
theorem laneStep_of_effect {s : State} {x : Issue} {i : Instr} (h : Issues s x i) (f : Issue → Nat → LaneOut) (hs : slotsSound (slots i) = true)
    (hf : ∀ l ∈ x.members, (f x l).fits) (he : exec i s = .next (finish s x (yieldsOf i x.ext)
      (.done (s.setGroup (applyZeros i x (applyLanes x.g (x.members.map fun l => (l, f x l)))))))) :
    ∃ t, exec i s = .next t ∧ LaneStep s t x i (f x) := by
  obtain ⟨t, ht, hstep⟩ := perLane_step h f (h.zero_fits hs) hf
  refine ⟨t, ?_, hstep⟩
  rw [he, ← ht, perLane, issue_next h]

/-- The segment that a member's SEGQ names. -/
def segqMember (s : State) (x : Issue) (a b : VReg) (l : Nat) : Fitted Nat :=
  match segMember s x.g segqAccess (addrB a b x l) with
  | .ok k => .ok k
  | .error c => .fault c

/-- What SEGQ delivers to a member. -/
def segqOut (d a b : VReg) (s : State) (x : Issue) (l : Nat) : LaneOut :=
  match segMember s x.g segqAccess (addrB a b x l) with
  | .ok k =>
    let core := k / 256
    resD x d (BitVec.ofNat 32 (core / 48 * 2 ^ 22 + core % 48 * 2 ^ 16 + k % 256 * 2 ^ 8
      + (if (segAt s k).dead then 4 else 0) + (segAt s k).state.toNat))
  | .error _ => {}

theorem segqOut_of_ok {d a b : VReg} {s : State} {x : Issue} {l k : Nat} (h : segMember s x.g segqAccess (addrB a b x l) = .ok k) :
    segqOut d a b s x l = { v := [(x.ext.vnum 18 d, segWord s k)] } := by
  simp only [segqOut, h, segWord_eq]
  rfl

theorem segqMember_of_ok {a b : VReg} {s : State} {x : Issue} {l k : Nat} (h : segMember s x.g segqAccess (addrB a b x l) = .ok k) :
    segqMember s x a b l = .ok k := by
  simp only [segqMember, h]

theorem exec_segq {d a b : VReg} {s : State} {x : Issue} (h : Issues s x (.segq d a b)) :
    exec (.segq d a b) s = .next (finish s x (yieldsOf (.segq d a b) x.ext)
      (endMembers 6 (x.members.map fun l => (l, addrB a b x l, segqMember s x a b l)) (s.setGroup (applyZeros (.segq d a b) x (applyLanes x.g
        ((goodOf (x.members.map fun l => (l, addrB a b x l, segqMember s x a b l))).map fun (l, _, k) =>
          (l, ({ v := [(x.ext.vnum 18 d, segWord s k)] } : LaneOut)))))))) := by
  show execSegq d a b s = _
  rw [execSegq, issue_next h]
  dsimp only
  rw [show bAddr x a b = addrB a b x from funext fun l => bAddr_eq ..]
  rfl

theorem segq_step (d a b : VReg) : LaneResultIf (.segq d a b)
    (fun s x => ∀ l ∈ x.members, ∃ k, segMember s x.g segqAccess (addrB a b x l) = .ok k) (segqOut d a b) := by
  intro s x h hok
  have hd : x.ext.vnum 18 d + 1 ≤ 256 := h.vslot_fits (sl := dslot .v 18 d.toNat 1 1 1) (List.mem_cons_self ..) rfl
  have hall : ∀ l ∈ x.members, ∃ k, segqMember s x a b l = .ok k := fun l hl => (hok l hl).imp fun k hk => segqMember_of_ok hk
  refine laneStep_of_effect h (segqOut d a b s) (SlotsSound.segq d a b) (fun l hl => ?_) ?_
  · obtain ⟨k, hk⟩ := hok l hl
    rw [segqOut_of_ok hk]
    exact ⟨fun w hw => by rw [List.mem_singleton.mp hw]; exact hd, fun w hw => by cases hw⟩
  · have hgood := goodOf_map (addr := addrB a b x) (r := segqMember s x a b) (v := fun l => fittedOr 0 (segqMember s x a b l)) fun l hl => by
      obtain ⟨k, hk⟩ := hall l hl
      rw [hk]
      rfl
    have houts : (x.members.map fun l => (l, ({ v := [(x.ext.vnum 18 d, segWord s (fittedOr 0 (segqMember s x a b l)))] } : LaneOut)))
        = x.members.map fun l => (l, segqOut d a b s x l) := by
      refine List.map_congr_left fun l hl => ?_
      obtain ⟨k, hk⟩ := hok l hl
      rw [segqOut_of_ok hk, segqMember_of_ok hk]
      rfl
    rw [exec_segq h, hgood, List.map_map, endMembers_done (forall_mem_map_ok hall), ← houts]
    rfl

/-! ### SEGSET -/

/-- One member's turn of a SEGSET. -/
def segsetStep (g : Group) (addr : Nat → DWord) (v : Nat → Word) (acc : State × List BadMember) (l : Nat) : State × List BadMember :=
  match segsetMember acc.1 g (addr l) (v l) with
  | .ok t => (t, acc.2)
  | .error c => (acc.1, acc.2 ++ [(l, addr l, c)])

/-- The members of a SEGSET that all pass change the segments one after another. -/
theorem segset_fold {g : Group} {addr : Nat → DWord} {v : Nat → Word} {ls : List Nat} {s t : State} {bad : List BadMember}
    (h : ls.foldlM (fun s l => segsetMember s g (addr l) (v l)) s = .ok t) :
    ls.foldl (segsetStep g addr v) (s, bad) = (t, bad) := by
  induction ls generalizing s with
  | nil => cases h; rfl
  | cons l ls ih =>
    rw [List.foldlM_cons] at h
    cases hl : segsetMember s g (addr l) (v l) with
    | error c => rw [hl] at h; cases h
    | ok u =>
      rw [hl] at h
      rw [List.foldl_cons, segsetStep, hl]
      exact ih h

theorem segset_completes {d a b : VReg} {s t : State} {x : Issue} (h : Issues s x (.segset d a b)) (hld : x.g.loads = []) (hst : x.g.stQueue = [])
    (ht : x.members.foldlM (fun s l => segsetMember s x.g (addrB a b x l) (x.g.vget l (x.ext.vnum 18 d))) s = .ok t) :
    exec (.segset d a b) s = .next (completed (.segset d a b) x t) := by
  have hcount : ¬ (x.g.ldCount ≠ 0 ∨ x.g.stCount ≠ 0) := by simp [Group.ldCount, Group.stCount, hld, hst]
  show execSegset d a b s = _
  rw [execSegset, issue_next h]
  dsimp only
  rw [if_neg hcount, show bAddr x a b = addrB a b x from funext fun l => bAddr_eq ..]
  set r := x.members.foldl (segsetStep x.g (addrB a b x) fun l => x.g.vget l (x.ext.vnum 18 d)) (s, []) with hr
  have hfold : r = (t, []) := segset_fold ht
  show Host.Outcome.next (finish s x _ (if r.2.isEmpty then .done r.1 else .part r.1 false { accessPark 6 r.2 with segset := true })) = _
  rw [hfold]
  exact congrArg _ (finish_completed h t)

theorem bitsOf_low_two (v : Word) : bitsOf v.toNat 0 2 = v.toNat % 4 := by simp [bitsOf]

theorem segsetMember_of_seg {s : State} {g : Group} {va : DWord} {v : Word} {k : Nat} (h : segMember s g segsetAccess va = .ok k) :
    segsetMember s g va v =
      if v.toNat % 4 = 1 ∨ v.toNat % 4 = 3 ∨ (segAt s k).state = 1 ∨ (segAt s k).state = 3 then .error (0x0402, k % 256 * 2 ^ 40)
      else if v.toNat % 4 = 2 then .ok (segPut s k { segAt s k with state := 2, dead := v.getLsbD 2 })
      else if (segAt s k).state = 0 then .ok s
      else .ok (segPut s k { segAt s k with state := 0, dead := false }) := by
  simp only [segsetMember, h, bitsOf_low_two, bitOf_toNat]
  rfl

theorem segmentsAreQueriedAndSet : Claim.SegmentsAreQueriedAndSet := by
  unfold Claim.SegmentsAreQueriedAndSet
  intro d a b
  refine ⟨segq_step d a b, fun s x t h hld hst ht => segset_completes h hld hst ht, fun s g va v k hk => ?_⟩
  rw [segsetMember_of_seg hk]
  refine ⟨fun hb => if_pos ?_, fun hb h2 => ?_, fun hb h0 h2 => ?_, fun h0 h1 => ?_⟩
  · rcases hb with hb | hb | hb
    · exact .inr (.inr (.inl hb))
    · exact .inr (.inr (.inr hb))
    · omega
  · simp only [not_or] at hb
    rw [if_neg (by simp only [not_or]; exact ⟨by omega, by omega, hb.1, hb.2.1⟩), if_pos h2]
  · simp only [not_or] at hb
    rw [if_neg (by simp only [not_or]; exact ⟨by omega, by omega, hb.1, hb.2.1⟩), if_neg (by omega), if_neg (by rw [h2]; decide)]
  · rw [if_neg (by rw [h1]; simp [h0]), if_neg (by omega), if_pos h1]

/-! ## FENCE and WAIT -/

theorem aboveThreshold_eq_false {count : Nat} {n : BitVec 4} (h : n = 15 ∨ count ≤ n.toNat) : aboveThreshold count n = false := by
  unfold aboveThreshold
  rcases h with rfl | h
  · rfl
  · rw [decide_eq_false (Nat.not_lt.mpr h), Bool.and_false]

theorem fencesAndWaitsOnlyWait : Claim.FencesAndWaitsOnlyWait := by
  unfold Claim.FencesAndWaitsOnlyWait
  intro ord sc ld st cp mx cl
  constructor
  · rintro s x h ⟨hst, hsys⟩
    show execFence ord sc s = _
    rw [execFence, issue_next h, releaseWaits_eq_false hst, systemWaits_eq_false hsys, Bool.or_self, if_neg Bool.false_ne_true, finish_completed h]
  · rintro s x h ⟨h1, h2, h3, h4, h5⟩
    show execWait ld st cp mx cl s = _
    rw [execWait, issue_next h, Group.ldCount, Group.stCount, Group.cpCount, Group.mxCount, Group.clCount, aboveThreshold_eq_false h1,
      aboveThreshold_eq_false h2, aboveThreshold_eq_false h3, aboveThreshold_eq_false h4, aboveThreshold_eq_false h5]
    exact congrArg _ (finish_completed h s)

/-! ## REGROUP -/

/-- The live registers below the budget, in the words of the claim. -/
def liveOf (x : Issue) (b : SReg7) : List Nat :=
  (List.range x.g.vbud).filter fun r => (x.g.sregGet (x.ext.snum 4 b.toNat + r / 32)).getLsbD (r % 32)

/-- The lane whose live registers a member receives. -/
def regroupFrom (a : VReg) (x : Issue) (l : Nat) : Nat := (sortLanes (fun l => (opA x l a).toNat) x.members).getD (x.members.idxOf l) 0

/-- What REGROUP writes in a member. -/
def regroupOut (d a : VReg) (b : SReg7) (x : Issue) (l : Nat) : LaneOut :=
  { v := (liveOf x b).map (fun r => (r, x.g.vget (regroupFrom a x l) r)) ++ [(x.ext.vnum 18 d, BitVec.ofNat 32 (regroupFrom a x l))] }

theorem liveRegs_eq (x : Issue) (b : SReg7) : liveRegs x (x.ext.snum 4 b.toNat) = liveOf x b := by
  simp only [liveRegs, liveOf, bitOf_toNat]

theorem regroup_step (d a : VReg) (b : SReg7) :
    LaneResultIf (.regroup d a b) (fun _ x => ∀ r ∈ liveOf x b, vPending x.g x.lanes r 1 = false) (fun _ => regroupOut d a b) := by
  intro s x h hlive
  have hd : x.ext.vnum 18 d + 1 ≤ 256 := h.vslot_fits (sl := dslot .v 18 d.toNat 1 1 1) (List.mem_cons_self ..) rfl
  refine laneStep_of_effect h (regroupOut d a b) (SlotsSound.regroup d a b) (fun l _ => ⟨fun w hw => ?_, fun w hw => by cases hw⟩) ?_
  · rcases List.mem_append.mp hw with hw | hw
    · obtain ⟨r, hr, rfl⟩ := List.mem_map.mp hw
      have := List.mem_range.mp (List.mem_filter.mp hr).1
      exact lt_of_lt_of_le this h.budget
    · rw [List.mem_singleton.mp hw]
      exact hd
  · have hnone : ((liveOf x b).any fun r => vPending x.g x.lanes r 1) = false :=
      List.any_eq_false.mpr fun r hr => Bool.eq_false_iff.mp (hlive r hr)
    have hlen := (sortLanes_spec (fun l => (opA x l a).toNat) x.members).1.length_eq
    show execRegroup d a b s = _
    rw [execRegroup]
    dsimp only
    rw [issue_next h, liveRegs_eq, hnone, if_neg Bool.false_ne_true]
    simp only [srcA_one]
    rw [zip_map_eq_map_idxOf (members_nodup h.current h.nodup) hlen
      fun o => ({ v := (liveOf x b).map (fun r => (r, x.g.vget o r)) ++ [(x.ext.vnum 18 d, BitVec.ofNat 32 o)] } : LaneOut)]
    rfl

end Sys2Proof.Machine

open Sys2Proof Sys2Proof.Machine

/-- Settles O48: segments by the table of R182, FENCE and WAIT by what they wait for. -/
theorem segmentsFencesAndWaits : Obligations.SegmentsFencesAndWaits := by
  unfold Obligations.SegmentsFencesAndWaits
  exact ⟨segmentsAreQueriedAndSet, fencesAndWaitsOnlyWait⟩

/-- Settles O14: the sort is stable, and each member takes the registers of the lane at its place in it. -/
theorem regroupMovesLiveRegisters : Obligations.RegroupMovesLiveRegisters := by
  unfold Obligations.RegroupMovesLiveRegisters
  intro d a b live order
  exact ⟨regroup_step d a b, sortLanes_spec⟩
end

section
/-! PROOFS. Waits at the first word of an instruction, and barriers (R23, R158 to R161, R206). -/
namespace Sys2Proof.Machine
open Sys2Proof.Laws

/-! ## Waits at the first word -/

/-- A group of whose issuing set some threads have gone on, while the others wait at the first word. -/
def waitingAtFirst (x : Issue) (gone : List Nat) (g : Group) : Group :=
  { g with
    ext := [], issuing := [], waited := 0, elig := 0, promoted := none, released := (0, 0)
    threads := g.threads.zipIdx.map fun (th, l) =>
      if l ∈ x.lanes then
        (if l ∈ gone then { th with pc := th.pc + 4 } else { th with pc := th.pc - BitVec.ofNat 64 (4 * g.ext.length) })
      else th }

/-- A change to distinct threads after one to others. -/
theorem modifyThreads_modifyThreads (f h : Thread → Thread) {ls ks : List Nat} (g : Group) (hl : ls.Nodup) (hk : ks.Nodup) :
    (g.modifyThreads ls f).modifyThreads ks h = { g with
      threads := g.threads.zipIdx.map fun (th, l) => (fun t => if l ∈ ks then h t else t) (if l ∈ ls then f th else th) } := by
  rw [modifyThreads_zip f g hl, modifyThreads_zip h _ hk]
  congr 1
  apply List.ext_getElem
  · simp
  · intro k h1 h2
    simp

theorem waits_eq (x : Issue) {gone : List Nat} (hnd : x.lanes.Nodup) (hsub : ∀ l ∈ gone, l ∈ x.lanes) (hg : gone.Nodup) (g : Group) (yields : Bool) :
    waits g x.lanes gone false yields = waitingAtFirst x gone g
      ∧ waits g x.lanes gone true yields = { waitingAtFirst x gone g with choice := afterIssue g.choice x.lanes yields } := by
  have hrest : (x.lanes.filter fun l => !gone.contains l).Nodup := hnd.filter _
  have hadv : (advance g gone).ext = g.ext := by rw [show advance g gone = _ from modifyThreads_zip (fun t : Thread => { t with pc := t.pc + 4 }) g hg]
  have hthreads : toFirstWord (advance g gone) (x.lanes.filter fun l => !gone.contains l) = { g with
      threads := g.threads.zipIdx.map fun (th, l) =>
        if l ∈ x.lanes then
          (if l ∈ gone then { th with pc := th.pc + 4 } else { th with pc := th.pc - BitVec.ofNat 64 (4 * g.ext.length) })
        else th } := by
    rw [toFirstWord, hadv]
    refine (modifyThreads_modifyThreads (fun t : Thread => { t with pc := t.pc + 4 }) (fun t : Thread =>
      { t with pc := t.pc - BitVec.ofNat 64 (4 * g.ext.length) }) g hg hrest).trans ?_
    congr 1
    refine List.map_congr_left fun ⟨th, l⟩ _ => ?_
    by_cases hl : l ∈ x.lanes
    · by_cases hgl : l ∈ gone <;> simp [hl, hgl]
    · have hgl : l ∉ gone := fun h => hl (hsub l h)
      simp [hl, hgl]
  constructor
  · rw [waits, hthreads]
    rfl
  · rw [waits, hthreads]
    rfl

/-- An issue whose threads wait, but for those that have gone on. -/
theorem finish_wait {s : State} {x : Issue} {i : Instr} (h : Issues s x i) (u : State) {gone : List Nat} (hsub : ∀ l ∈ gone, l ∈ x.lanes)
    (hg : gone.Nodup) (yields : Bool) :
    finish s x yields (.wait u gone false) = { u.modifyGroup x.uid (waitingAtFirst x gone) with cur := none }
      ∧ finish s x yields (.wait u gone true) =
        { u.modifyGroup x.uid (fun g => { waitingAtFirst x gone g with choice := afterIssue g.choice x.lanes yields }) with cur := none } := by
  have hf : stepping x.g = false := h.free
  have hfun := fun g => waits_eq x h.nodup hsub hg g yields
  simp only [finish, stepTrap, hf, Bool.false_eq_true, if_false, fun g => (hfun g).1, fun g => (hfun g).2, and_self]

/-! ## The barrier that an RDV names -/

section
variable (s : State) (x : Issue) (bar : BitVec 8) (lvl : BitVec 2)

/-- Whether the threads of some lanes may arrive: none has, and the group's stores are performed where another agent shares the level. -/
def mayArrive (lanes : List Nat) : Prop := (∀ l ∈ lanes, threadId lvl.toNat x.g l ∉
    (barAt (barriersOf s lvl.toNat x.g) (barrierIndex lvl.toNat bar.toNat)).arrived)
  ∧ (shared s x lvl.toNat → storesPerformed s x.g = true)

theorem mayArrive_iff (lanes : List Nat) :
    mayArrive s x bar lvl lanes ↔ (rdvWaiting s x.g lanes lvl bar || !rdvReleases s x lvl) = false := by
  have hrel : rdvReleases s x lvl = true ↔ (shared s x lvl.toNat → storesPerformed s x.g = true) := by
    simp only [rdvReleases, Bool.or_eq_true, Bool.not_eq_true', ← Bool.not_eq_true, reaches_iff_shared]
    exact ⟨fun h hs => h.resolve_left (not_not_intro hs), fun h => (em (shared s x lvl.toNat)).elim (fun hs => .inr (h hs)) .inl⟩
  simp only [Bool.or_eq_false_iff, Bool.not_eq_false', hrel, mayArrive, rdvWaiting, List.any_eq_false, List.contains_iff_mem]

/-- Whether a thread waits at an RDV.meet of the barrier. -/
def waitsAtMeet (g : Group) (l : Nat) : Bool :=
  match (g.thread l).status with
  | .meet i j _ => i == lvl.toNat && j == bar.toNat
  | _ => false

theorem meetCount_isNone (g : Group) (l : Nat) : (meetCount g lvl bar l).isNone = !waitsAtMeet bar lvl g l := by
  unfold meetCount waitsAtMeet
  cases (g.thread l).status with
  | meet i j t => by_cases hij : i = lvl.toNat ∧ j = bar.toNat <;> simp [hij]; tauto
  | _ => rfl

/-- A thread of the barrier's RDV.meet whose phase has completed. -/
theorem meetCount_gone (g : Group) (l : Nat) (k : Word) :
    (match meetCount g lvl bar l with | some t => t != k | none => false)
      = (waitsAtMeet bar lvl g l && !((g.thread l).status == .meet lvl.toNat bar.toNat k)) := by
  unfold meetCount waitsAtMeet
  cases (g.thread l).status with
  | meet i j t =>
    dsimp only
    by_cases hij : i = lvl.toNat ∧ j = bar.toNat
    · obtain ⟨rfl, rfl⟩ := hij
      simp only [and_self, if_true, beq_self_eq_true, Bool.and_self, Bool.true_and]
      rw [bne, Bool.not_inj_iff, Bool.eq_iff_iff]
      simp
    · rw [if_neg hij]
      have : (i == lvl.toNat && j == bar.toNat) = false := by simpa using hij
      rw [this, Bool.false_and]
  | _ => rfl

theorem comingLanes_eq : comingLanes x lvl bar = x.lanes.filter fun l => !waitsAtMeet bar lvl x.g l := by
  simp only [comingLanes, meetCount_isNone]

theorem metLanes_eq (k : Word) : metLanes x lvl bar k
    = x.lanes.filter fun l => waitsAtMeet bar lvl x.g l && !((x.g.thread l).status == .meet lvl.toNat bar.toNat k) := by
  rw [metLanes]
  congr 1
  funext l
  exact meetCount_gone bar lvl x.g l k

/-- An arrival leaves the threads of a group as they are. -/
theorem modifyBarrier_group? {g : Group} (hg : s.group? x.uid = some g) (f : Barrier → Barrier) (lvl bar : Nat) :
    ∃ g', (modifyBarrier s lvl bar x.g f).group? x.uid = some g' ∧ g'.threads = g.threads := by
  unfold modifyBarrier
  split
  · by_cases hu : x.g.uid = x.uid
    · rw [hu]
      exact ⟨_, group?_modifyGroup (fun y : Group => { y with bars := modifyAt f y.bars bar }) (fun _ => rfl) hg, rfl⟩
    · rw [group?_modifyGroup_other s (fun y : Group => { y with bars := modifyAt f y.bars bar }) (fun _ => rfl) (Ne.symm hu)]
      exact ⟨g, hg, rfl⟩
  · split
    · exact ⟨g, hg, rfl⟩
    · exact ⟨g, hg, rfl⟩

end

theorem thread_withStatus {g : Group} {lanes : List Nat} {st : Status} {l : Nat} (hl : l < g.threads.length) :
    (g.withStatus lanes st).thread l = if l ∈ lanes then { g.thread l with status := st } else g.thread l := by
  have := threads_zipIdx (fun _ (th : Thread) => { th with status := st }) (· ∈ lanes) g.threads 0 l
  simp only [Nat.zero_add, hl, and_true] at this
  exact this

theorem modifyThreads_status {lanes : List Nat} (hnd : lanes.Nodup) (st : Status) (g : Group) :
    g.modifyThreads lanes (fun t => { t with status := st }) = g.withStatus lanes st := modifyThreads_zip _ g hnd

/-- Threads that complete their RDV.meet. -/
theorem rdvMet_eq (s : State) (x : Issue) (d : SReg) (k : Word) {gone : List Nat} (hnd : gone.Nodup) :
    rdvMet s x d k gone = rdvResult (s.modifyGroup x.uid fun g => g.withStatus gone .run) x d k := by
  simp only [rdvMet, modifyThreads_status hnd]

theorem completePhase_eq (parts : List Nat) {b : Barrier} (h : b.arrived ≠ []) :
    completePhase parts b = if (∀ p ∈ parts, p ∈ b.arrived) ∧ b.engines = 0
      then { k := b.k + 1, arrived := [], engines := 0, err := false, lastErr := b.err } else b := by
  have hne : b.arrived.isEmpty = false := by simpa using h
  unfold completePhase
  exact if_congr (by simp [hne]) rfl rfl

/-! ## RDV.meet -/

/-- RDV.meet where no thread arrives: those whose phase has completed go on. -/
theorem exec_rdvMeet_goes {d : SReg} {bar : BitVec 8} {lvl : BitVec 2} {s : State} {x : Issue} (h : Issues s x (.rdvMeet d bar lvl))
    (hc : comingLanes x lvl bar = [] ∨ ¬ mayArrive s x bar lvl (comingLanes x lvl bar)) (hg : metLanes x lvl bar (rdvCount s x lvl bar) ≠ []) :
    exec (.rdvMeet d bar lvl) s = .next { (rdvResult (s.modifyGroup x.uid fun g => g.withStatus (metLanes x lvl bar (rdvCount s x lvl bar)) .run) x d
      (rdvCount s x lvl bar)).modifyGroup x.uid (waitingAtFirst x (metLanes x lvl bar (rdvCount s x lvl bar))) with cur := none } := by
  have hcond : ((comingLanes x lvl bar).isEmpty || rdvWaiting s x.g (comingLanes x lvl bar) lvl bar || !rdvReleases s x lvl) = true := by
    rcases hc with hc | hc
    · rw [hc]; rfl
    · rw [mayArrive_iff, Bool.not_eq_false] at hc
      rw [Bool.or_assoc, hc, Bool.or_true]
  have hsub : ∀ l ∈ metLanes x lvl bar (rdvCount s x lvl bar), l ∈ x.lanes := fun l hl => (List.mem_filter.mp hl).1
  have hnd : (metLanes x lvl bar (rdvCount s x lvl bar)).Nodup := h.nodup.filter _
  show execRdvMeet d bar lvl s = _
  rw [execRdvMeet, issue_next h]
  dsimp only
  rw [if_pos hcond, if_neg (by simpa using hg), (finish_wait h _ hsub hnd _).1, rdvMet_eq s x d _ hnd]

/-- The machine after threads have arrived at an RDV.meet and wait there. -/
def rdvArrived (s : State) (x : Issue) (bar : BitVec 8) (lvl : BitVec 2) : State :=
  (rdvArrive s x (comingLanes x lvl bar) lvl bar).modifyGroup x.uid fun g =>
    g.withStatus (comingLanes x lvl bar) (.meet lvl.toNat bar.toNat (rdvCount s x lvl bar))

/-- The issue on the group as it stands after an arrival. -/
def rdvIssue (s : State) (x : Issue) (bar : BitVec 8) (lvl : BitVec 2) : Issue :=
  { x with g := ((rdvArrived s x bar lvl).group? x.uid).getD x.g }

/-- After the arrival every thread of the set waits at the RDV.meet. -/
theorem waitsAtMeet_rdvIssue {i : Instr} {s : State} {x : Issue} (h : Issues s x i) (bar : BitVec 8) (lvl : BitVec 2) {l : Nat} (hl : l ∈ x.lanes) :
    waitsAtMeet bar lvl (rdvIssue s x bar lvl).g l = true := by
  have hg := (currentIssue_some h.current).2.1
  obtain ⟨g', hg', hth⟩ := modifyBarrier_group? s x hg (fun b => completePhase (participants s lvl.toNat x.g)
    (arrive b ((comingLanes x lvl bar).map (threadId lvl.toNat x.g)))) lvl.toNat bar.toNat
  have hfound := group?_modifyGroup (fun g : Group => g.withStatus (comingLanes x lvl bar) (.meet lvl.toNat bar.toNat (rdvCount s x lvl bar)))
    (fun _ => rfl) hg'
  have hget : (rdvIssue s x bar lvl).g = g'.withStatus (comingLanes x lvl bar) (.meet lvl.toNat bar.toNat (rdvCount s x lvl bar)) := by
    show ((rdvArrived s x bar lvl).group? x.uid).getD x.g = _
    rw [show (rdvArrived s x bar lvl).group? x.uid = _ from hfound, Option.getD_some]
  have hlt : l < g'.threads.length := by rw [hth]; exact h.inGroup l hl
  rw [waitsAtMeet, hget, thread_withStatus hlt]
  by_cases hc : l ∈ comingLanes x lvl bar
  · simp [hc]
  · rw [if_neg hc, show g'.thread l = x.g.thread l by rw [Group.thread, Group.thread, hth]]
    rw [comingLanes_eq, List.mem_filter] at hc
    show waitsAtMeet bar lvl x.g l = true
    exact Bool.of_not_eq_false fun hw => hc ⟨hl, by rw [hw]; rfl⟩

/-- RDV.meet where threads arrive. -/
theorem exec_rdvMeet_arrives {d : SReg} {bar : BitVec 8} {lvl : BitVec 2} {s : State} {x : Issue} (h : Issues s x (.rdvMeet d bar lvl))
    (hne : comingLanes x lvl bar ≠ []) (hc : mayArrive s x bar lvl (comingLanes x lvl bar)) :
    let t := rdvArrived s x bar lvl
    let y := rdvIssue s x bar lvl
    let gone := metLanes y lvl bar (rdvCount t y lvl bar)
    let u := if gone = [] then t else rdvResult (t.modifyGroup x.uid fun g => g.withStatus gone .run) x d (rdvCount t y lvl bar)
    exec (.rdvMeet d bar lvl) s = .next { u.modifyGroup x.uid (fun g => { waitingAtFirst x gone g with choice := afterIssue g.choice x.lanes x.ext.yields })
      with cur := none } := by
  intro t y gone u
  have hcond : ((comingLanes x lvl bar).isEmpty || rdvWaiting s x.g (comingLanes x lvl bar) lvl bar || !rdvReleases s x lvl) = false := by
    rw [Bool.or_assoc, (mayArrive_iff s x bar lvl _).mp hc, Bool.or_false]
    simpa using hne
  have hcnd : (comingLanes x lvl bar).Nodup := h.nodup.filter _
  have hsub : ∀ l ∈ gone, l ∈ x.lanes := fun l hl => (List.mem_filter.mp hl).1
  have hnd : gone.Nodup := h.nodup.filter _
  have hu : (if gone.isEmpty then t else rdvMet t x d (rdvCount t y lvl bar) gone) = u := by
    rw [rdvMet_eq t x d _ hnd]
    exact if_congr List.isEmpty_iff rfl rfl
  show execRdvMeet d bar lvl s = _
  rw [execRdvMeet, issue_next h]
  dsimp only
  rw [if_neg (Bool.eq_false_iff.mp hcond)]
  simp only [modifyThreads_status hcnd]
  show Host.Outcome.next (finish s x (yieldsOf (.rdvMeet d bar lvl) x.ext) (.wait (if gone.isEmpty then t else rdvMet t x d (rdvCount t y lvl bar) gone) gone true)) = _
  rw [hu, (finish_wait h _ hsub hnd _).2, show yieldsOf (.rdvMeet d bar lvl) x.ext = x.ext.yields from Bool.or_false _]

end Sys2Proof.Machine

open Sys2Proof Sys2Proof.Machine

/-- Settles O15: each form by its equation, the threads of an RDV.meet by the status that they wait in. -/
theorem barriersCountTheirPhases : Obligations.BarriersCountTheirPhases := by
  unfold Obligations.BarriersCountTheirPhases
  intro d bar lvl count put free arrived waitsHere metAt atFirst
  refine ⟨fun s x h hf => ?mark, fun s x h _ => ?peek, fun s x h hc => ?hold, ?goes, ?arrives, fun parts b => completePhase_eq parts⟩
  case mark =>
    show execRdvMark d bar lvl s = _
    rw [execRdvMark, issue_next h, (mayArrive_iff s x bar lvl x.lanes).mp hf, if_neg Bool.false_ne_true, finish_completed h]
    rfl
  case peek =>
    show execRdvPeek d bar lvl s = _
    rw [execRdvPeek, issue_next h, finish_completed h]
    rfl
  case hold =>
    obtain ⟨h1, h2, hw⟩ := hc
    have hacq : acquireWaits s x.g true lvl.toNat = false := by
      refine Bool.eq_false_iff.mpr fun hk => ?_
      simp only [acquireWaits, Bool.true_and, List.any_eq_true, Bool.and_eq_true, bitOf_toNat, reaches_iff_shared] at hk
      obtain ⟨b, hb, ho, hs⟩ := hk
      exact hw b hb ho hs
    show execRdvHold d bar lvl s = _
    rw [execRdvHold, issue_next h]
    dsimp only
    rw [hacq, if_neg Bool.false_ne_true, if_pos ⟨h1, h2⟩, finish_completed h]
    rfl
  case goes =>
    intro s x h coming gone hc hg
    have hcoming : coming = comingLanes x lvl bar := (comingLanes_eq x bar lvl).symm
    have hgone : gone = metLanes x lvl bar (rdvCount s x lvl bar) := (metLanes_eq x bar lvl _).symm
    rw [hcoming] at hc
    rw [hgone] at hg ⊢
    exact exec_rdvMeet_goes h hc hg
  case arrives =>
    intro s x h coming hne hf t y gone u
    have hcoming : coming = comingLanes x lvl bar := (comingLanes_eq x bar lvl).symm
    have ht : t = rdvArrived s x bar lvl := by
      show (arrived s x coming).modifyGroup x.uid (fun g => g.withStatus coming _) = _
      rw [hcoming]
      rfl
    have hy : y = rdvIssue s x bar lvl := by
      show ({ x with g := (t.group? x.uid).getD x.g } : Issue) = _
      rw [ht]
      rfl
    have hgone : gone = metLanes (rdvIssue s x bar lvl) lvl bar (rdvCount (rdvArrived s x bar lvl) (rdvIssue s x bar lvl) lvl bar) := by
      rw [metLanes_eq, ← hy, ← ht]
      refine List.filter_congr fun l hl => ?_
      rw [hy, waitsAtMeet_rdvIssue h bar lvl hl, Bool.true_and, ← hy]
      rfl
    have hmeet := exec_rdvMeet_arrives h (hcoming ▸ hne) (hcoming ▸ hf)
    dsimp only at hmeet
    rw [← hgone, ← ht, ← hy] at hmeet
    exact hmeet
end

section
/-! PROOFS. The issue of region-control operations, and RLDG and RSTAT (R235 to R239, R244). -/
namespace Sys2Proof.Machine
open Sys2Proof.Laws

/-! ## What engine instructions share at their issue (R34, R206, R244, R245, R247) -/

theorem csAddr_eq (x : Issue) (cs : SReg) : csAddr x cs = compAddr x cs := by
  have hcs : cs.toNat = 255 ↔ cs = 255 := by
    rw [← BitVec.toNat_inj]
    rfl
  unfold csAddr compAddr Ext.csnum
  by_cases h : cs = 255 ∧ x.ext.shiField 0 2 = 0
  · rw [if_pos h, if_pos ⟨hcs.mpr h.1, h.2⟩]
    rfl
  · rw [if_neg h, if_neg fun hk => h ⟨hcs.mp hk.1, hk.2⟩]
    rfl

theorem ready_of_mayIssueTo {s : State} {x : Issue} {count : Nat} (h : mayIssueTo s x count) :
    (engineReady s x.g && decide (count < Config.counterMax)) = true := by
  rw [Bool.and_eq_true, engineReady_iff, decide_eq_true_eq]
  exact h

/-- A group's load of values that are read at issue. -/
def withLoad (g : Group) (y : Load) : Group := { g with loads := g.loads ++ [y] }

/-! ## RINST, RFIT, RDEM and RABORT -/

theorem pushFrop_eq (s : State) (x : Issue) (kind : Nat) (words : List DWord) (cs : SReg) :
    pushFrop s x kind words (csAddr x cs) = regionQueued kind (fun _ _ => words) cs s x := by
  rw [csAddr_eq]
  rfl

theorem stateResult_regionIssue {i : Instr} {kind : Nat} {sh cs : SReg} (he : ∀ s, exec i s = regionIssue i kind sh cs s) :
    StateResult i (fun s x => mayIssueTo s x x.g.frops.length ∧ compFault s x.g (compAddr x cs) = none ∧ ∃ h, fittedHeader s x.g (pairS x 17 sh) = .ok h)
      (regionQueued kind (fun s x => [pairS x 17 sh, BitVec.ofNat 64 (regionOf s x sh)]) cs) := by
  refine stateResult_of he ?_
  rintro s x - ⟨hready, hcomp, h, hh⟩
  have hof : regionOf s x sh = h := by rw [regionOf, hh]
  have hready' : fropReady s x.g = true := ready_of_mayIssueTo hready
  dsimp only
  rw [hready', Bool.not_true, if_neg Bool.false_ne_true, show fittedHeader s x.g (shAddr x sh) = .ok h from hh]
  dsimp only
  rw [csAddr_eq, hcomp]
  dsimp only
  rw [← csAddr_eq, pushFrop_eq, regionQueued, regionQueued, hof]
  rfl

theorem regionOperationsAreQueued : Claim.RegionOperationsAreQueued := by
  unfold Claim.RegionOperationsAreQueued
  intro sh co cs comp onRegion
  refine ⟨stateResult_of (fun _ => rfl) ?_, stateResult_regionIssue fun _ => rfl, stateResult_regionIssue fun _ => rfl, stateResult_regionIssue fun _ => rfl⟩
  rintro s x - ⟨hready, hcomp⟩
  have hready' : fropReady s x.g = true := ready_of_mayIssueTo hready
  dsimp only
  rw [hready', Bool.not_true, if_neg Bool.false_ne_true, csAddr_eq, show compFault s x.g (compAddr x cs) = none from hcomp]
  dsimp only
  rw [← csAddr_eq, pushFrop_eq]
  rfl

/-! ## RLDG and RSTAT -/

/-- What a member's RLDG gives. -/
def rldgValue (s : State) (x : Issue) (a : VReg) (l : Nat) : Word × Word := fittedOr (0, 0) (rldgMember s x.g (pairA x l a))

theorem rldg_done {d a : VReg} {ord : MemOrder} {sc : Scope} {s : State} {x : Issue} (h : Issues s x (.rldg d a ord sc)) (hne : x.members ≠ [])
    (hcount : x.g.loads.length < 255) (hacq : noPendingRelease s x ord sc) (hok : ∀ l ∈ x.members, ∃ v, rldgMember s x.g (pairA x l a) = .ok v) :
    exec (.rldg d a ord sc) s = .next (completed (.rldg d a ord sc) x (s.setGroup (applyZeros (.rldg d a ord sc) x (withLoad x.g
      { plainLoad (x.members.flatMap fun l => [(RegDst.v l (x.ext.vnum 18 d), (rldgValue s x a l).1),
        (RegDst.v l (x.ext.vnum 18 d + 1), (rldgValue s x a l).2)]) with spring := true })))) := by
  have hall := forall_mem_map_ok (addr := pAddr x a) hok
  have hgood := goodOf_map (addr := pAddr x a) (v := rldgValue s x a) fun l hl => show rldgMember s x.g (pairA x l a) = .ok (rldgValue s x a l) by
    obtain ⟨v, hv⟩ := hok l hl
    rw [rldgValue, hv, fittedOr]
  have hempty := goodOf_isEmpty hall (by simpa using hne)
  rw [hgood] at hempty
  have hp : ∀ l, rldgMember s x.g (pAddr x a l) = rldgMember s x.g (pairA x l a) := fun _ => rfl
  show execRldg d a ord sc s = _
  rw [execRldg, issue_next h]
  simp only [hp, acquireWaits_eq_false hacq, anyWaits_eq_false hall, Bool.or_self, Bool.false_eq_true, if_false, hgood, hempty, endMembers_done hall]
  rw [if_neg (show ¬ Config.counterMax ≤ x.g.ldCount from Nat.not_le.mpr hcount), finish_completed h]
  simp only [List.flatMap_map]
  rfl

theorem regionReadsAreLoads : Claim.RegionReadsAreLoads := by
  unfold Claim.RegionReadsAreLoads
  intro d a ord sc sd sa sb at_
  constructor
  · rintro s x h ⟨hne, hcount, hacq, hok⟩
    exact rldg_done h hne hcount hacq hok
  · intro hdr
    refine stateResult_of (fun _ => rfl) ?_
    rintro s x - ⟨hcount, hh, hheld⟩
    have hwait : ((s.work.springHeld.any fun y => y.hdr == hdr && y.group == x.g.uid) && [2, 4].contains (headerAt s.hbm hdr).state) = false := by
      rw [Bool.and_eq_false_iff]
      rcases hheld with hheld | ⟨h2, h4⟩
      · refine .inl (List.any_eq_false.mpr fun y hy hk => ?_)
        rw [Bool.and_eq_true, beq_iff_eq, beq_iff_eq] at hk
        exact hheld y hy hk.1 hk.2
      · exact .inr (by simp [h2, h4])
    dsimp only
    rw [if_neg (show ¬ Config.counterMax ≤ x.g.ldCount from Nat.not_le.mpr hcount), show fittedHeader s x.g (x.g.spair (sA x sa)) = .ok hdr from hh]
    dsimp only
    rw [hwait, if_neg Bool.false_ne_true]
    rfl

end Sys2Proof.Machine

open Sys2Proof Sys2Proof.Machine

/-- Settles O49: the checks of an issue pass one by one, and what is queued or loaded is that of the rule. -/
theorem regionInstructionsIssue : Obligations.RegionInstructionsIssue := ⟨regionOperationsAreQueued, regionReadsAreLoads⟩
end

section
/-! PROOFS. The record queue and the fault queues (R309, R379, R380). -/
namespace Sys2Proof.Machine
open Sys2Proof.Laws

/-- The ring of the record queue is full exactly where its tail stands a whole ring after its head. -/
theorem ringRoom_eq_zero_iff {r : Records} (h : r.log2n ≠ 0) : ringRoom r = 0 ↔ r.tail - r.head = BitVec.ofNat 32 (2 ^ r.log2n) := by
  rw [ringRoom, if_neg h, show (0 : Nat) = (0 : BitVec 32).toNat from rfl, BitVec.toNat_inj]
  constructor
  · intro hz
    exact (BitVec.sub_eq_iff_eq_add.mp hz ▸ (BitVec.zero_add _)).symm
  · intro he
    rw [he, BitVec.sub_self]
    rfl

theorem exec_recordWrite_room {s : State} {w : List DWord} {rest : List (List DWord)} (hheld : s.records.held = w :: rest) (hroom : ringRoom s.records ≠ 0) :
    exec .recordWrite s = .next { s with
      host := s.host.write (s.records.base.toNat + 64 * (s.records.tail.toNat % 2 ^ s.records.log2n)) (wordBytes w)
      records := { s.records with tail := s.records.tail + 1, held := rest }
      msix := if s.records.tail = s.records.head then s.msix ++ [0] else s.msix } := by
  show execRecordWrite s = _
  rw [execRecordWrite]
  dsimp only
  rw [hheld]
  dsimp only
  rw [if_neg hroom]
  by_cases h : s.records.tail = s.records.head
  · rw [if_pos h, if_pos h]
    rfl
  · rw [if_neg h, if_neg h]

theorem exec_recordWrite_full {s : State} (h : ringRoom s.records = 0) : exec .recordWrite s = .next s := by
  show execRecordWrite s = _
  rw [execRecordWrite]
  dsimp only
  split
  · rfl
  · rw [if_pos h]
    rfl

theorem exec_faultQueueEntryWrite_room {s : State} {ctx : Nat} {c : Ctx} {e : List DWord} {q : Nat} {rest : List (List DWord × Nat)}
    (hc : s.ctx? ctx = some c) (hheld : c.fqHeld = (e, q) :: rest) (hroom : c.fqWritten - c.fqRead < c.fqCap) :
    exec (.faultQueueEntryWrite ctx) s = .next { (s.modifyCtx ctx fun c => { c with fqHeld := rest, fqWritten := c.fqWritten + 1 }) with
      hbm := s.hbm.write (c.fqBase + 32 * (c.fqWritten % max 1 c.fqCap)) (wordBytes e), msix := s.msix ++ [1] } := by
  show execFaultQueueEntryWrite ctx s = _
  rw [execFaultQueueEntryWrite, hc]
  dsimp only
  rw [hheld]
  dsimp only
  rw [if_neg (Nat.not_le.mpr hroom)]
  rfl

theorem exec_faultQueueEntryWrite_full {s : State} {ctx : Nat} {c : Ctx} (hc : s.ctx? ctx = some c) (hfull : c.fqCap ≤ c.fqWritten - c.fqRead) :
    exec (.faultQueueEntryWrite ctx) s = .next s := by
  show execFaultQueueEntryWrite ctx s = _
  rw [execFaultQueueEntryWrite, hc]
  dsimp only
  split
  · rfl
  · rw [if_pos hfull]
    rfl

end Sys2Proof.Machine

open Sys2Proof Sys2Proof.Machine

/-- Settles O27: a write by the room of its ring. -/
theorem queuesAreWrittenWhereTheyHaveRoom : Obligations.QueuesAreWrittenWhereTheyHaveRoom := by
  unfold Obligations.QueuesAreWrittenWhereTheyHaveRoom
  intro s ctx
  exact ⟨fun _ _ => exec_recordWrite_room, exec_recordWrite_full, fun h _ => ringRoom_eq_zero_iff h,
    fun _ _ _ _ => exec_faultQueueEntryWrite_room, fun _ => exec_faultQueueEntryWrite_full⟩
end

section
/-! PROOFS. The ageing pass over the RINTAGs (R328). -/
namespace Sys2Proof.Machine
open Sys2Proof.Laws

/-! ## The two parts of a sideband -/

@[simp] theorem rintag_append (tag : BitVec 16) (desc : Word) : rintag (tag ++ desc) = tag := by
  apply BitVec.eq_of_toNat_eq
  have h := tag.isLt
  have hd := desc.isLt
  rw [rintag, BitVec.toNat_ofNat, BitVec.toNat_append, ← Nat.shiftLeft_add_eq_or_of_lt hd, Nat.shiftLeft_eq]
  omega

@[simp] theorem descOf_append (tag : BitVec 16) (desc : Word) : descOf (tag ++ desc) = desc := by
  apply BitVec.eq_of_toNat_eq
  have hd := desc.isLt
  rw [descOf, BitVec.toNat_ofNat, BitVec.toNat_append, ← Nat.shiftLeft_add_eq_or_of_lt hd, Nat.shiftLeft_eq]
  omega

/-- A sparse map whose values have changed, with the default of the changed ones. -/
theorem sget_map_filter {α : Type} [DecidableEq α] {d : α} (f : α → α) {m : Sparse α} (h : swf d m = true) (k : Nat) :
    sget (f d) ((m.map fun (k, x) => (k, f x)).filter fun (_, x) => x != f d) k = f (sget d m k) := by
  induction m with
  | nil => rfl
  | cons p m ih =>
    obtain ⟨j, x⟩ := p
    obtain ⟨-, hlt, hm⟩ := (swf_cons j x m).mp h
    have hrest := ih hm
    by_cases hx : f x = f d
    · rw [List.map_cons, List.filter_cons_of_neg (by simpa using hx), hrest, sget]
      split
      · next hk =>
        subst hk
        rw [sget_of_lt hlt, hx]
      · rfl
    · rw [List.map_cons, List.filter_cons_of_pos (by simpa using hx), sget, sget]
      split
      · rfl
      · exact hrest

/-- The sideband of a line after the ageing pass. -/
def agedSide (rin : BitVec 16) (x : BitVec 48) : BitVec 48 := agedTag rin (rintag x) ++ descOf x

/-- The machine after the ageing pass. -/
def agedState (s : State) : State := { s with
  baseTag := agedTag s.domain.rin s.baseTag
  side := (s.side.map fun (k, x) => (k, agedSide s.domain.rin x)).filter fun (_, x) => x != agedTag s.domain.rin s.baseTag ++ (0x7F00 : BitVec 32) }

theorem exec_rintagAgeing (s : State) : exec .rintagAgeing s = .next (agedState s) := rfl

theorem sideGet_agedState {s : State} (h : swf (sideDefault s) s.side = true) (pa : Nat) : sideGet (agedState s) pa = agedSide s.domain.rin (sideGet s pa) := by
  have hd : agedSide s.domain.rin (sideDefault s) = agedTag s.domain.rin s.baseTag ++ (0x7F00 : BitVec 32) := by simp [agedSide, sideDefault]
  have := sget_map_filter (agedSide s.domain.rin) h (pa / 64)
  rw [hd] at this
  exact this

theorem agedTag_eq (rin tag : BitVec 16) :
    agedTag rin tag = if 2 ^ 14 ≤ (rin - tag).toNat ∧ (rin - tag).toNat < 2 ^ 15 then rin - 16384 else tag := by
  rw [agedTag, aged]
  exact if_congr (by simp) rfl rfl

end Sys2Proof.Machine

open Sys2Proof Sys2Proof.Machine

/-- Settles O18: the pass maps every sideband, the default among them. -/
theorem ageingKeepsDescriptors : Obligations.AgeingKeepsDescriptors := by
  unfold Obligations.AgeingKeepsDescriptors
  intro s h
  refine ⟨_, exec_rintagAgeing s, fun pa => ?_, fun pa => ?_, rfl⟩
  · rw [sideGet_agedState h, agedSide, descOf_append]
  · dsimp only
    rw [sideGet_agedState h, agedSide, rintag_append, agedTag_eq]
end

section
/-! PROOFS. Resets and bring-up (R392 to R402). -/
namespace Sys2Proof.Machine
open Sys2Proof.Laws

/-- The upper half of a word. -/
theorem bitsOf_high_half (v : Word) : bitsOf v.toNat 16 16 = v.toNat / 2 ^ 16 := by
  have := v.isLt
  rw [bitsOf]
  omega

/-- A reset other than that of power-on. -/
theorem doReset_eq (s : State) {c : ResetCause} (h : c ≠ .power) : doReset s c = restarted s (causeOf s (BitVec.ofNat 8 (2 ^ c.bit))) (keptRecords s) := by
  have hcause : resetCauseWord s c = causeOf s (BitVec.ofNat 8 (2 ^ c.bit)) := by
    unfold resetCauseWord causeOf addCause
    rw [if_neg h]
    refine if_congr Iff.rfl rfl ?_
    cases s.regs.unrestored
    · exact BitVec.zero_or
    · rfl
  have hrecs : lastRecords s c = keptRecords s := if_neg h
  rw [doReset, hcause, hrecs]
  rfl

theorem doReset_power (s : State) : doReset s .power = restarted s 1 [] := rfl

theorem rstCtl_eq (s : State) (v : Word) :
    rstCtl s v = if v.toNat / 2 ^ 16 = 0x5253 ∧ v.getLsbD 0 = true then restarted s (causeOf s 4) (keptRecords s) else s := by
  rw [rstCtl, bitsOf_high_half, bitOf_toNat, doReset_eq s (by decide)]
  rfl

theorem bootStart_eq {s : State} (h : s.regs.boot = .config) :
    bootStart s = { s with regs := { s.regs with boot := if bootCfgValid s.regs then .init else .config, badCfg := !bootCfgValid s.regs } } := by
  rw [bootStart, if_neg (not_not_intro h)]
  cases bootCfgValid s.regs
  · rw [← h]
    rfl
  · rfl

/-- Whether both cores of an island's pair are retired. -/
def pairRetired (r : Regs) (j : Nat) : Prop :=
  j % 32 < 24 ∧ j / 32 * 48 + 2 * (j % 32) ∈ r.retCore ∧ j / 32 * 48 + 2 * (j % 32) + 1 ∈ r.retCore

theorem islandOff_iff (r : Regs) (j : Nat) : islandOff r j = true ↔ pairRetired r j := by
  simp [islandOff, pairRetired, and_assoc]

theorem exec_suppliesStable {s : State} (h : s.regs.boot = .reset) : exec .suppliesStable s = .next { s with regs := { s.regs with
    boot := .calib, islands := s.regs.islands.zipIdx.map fun (i, k) => { i with off := islandOff s.regs k } } } :=
  if_neg (not_not_intro h)

theorem exec_initDone {s : State} (h : s.regs.boot = .init) : ∃ regs, regs.boot = .ready ∧ exec .initDone s = .next { s with
    hbm := Memory.empty, baseTag := 0, side := [], undo := []
    domain := { Domain.reset with lastSeal := s.clock }
    inlets := s.inlets.map fun n => { n with en := false, head := 0, chead := 0, tail := 0 }
    records := { s.records with head := 0, tail := 0, log2n := 0 }
    regs := regs } :=
  ⟨_, rfl, if_neg (not_not_intro h)⟩

theorem exec_firmwareVerified {s : State} (h : s.regs.boot = .verify) (key : List Byte) (hexvos microcode : FirmwareImage) :
    let ok : Bool := isFirmwareKey key && imageVerifies key hexvos && imageVerifies key microcode
    exec (.firmwareVerified key (hexvos, microcode)) s = .next { s with regs := { s.regs with
      boot := if ok then .config else .stopped, meas := shake256 hexvos.bytes ++ shake256 microcode.bytes
      rstCause := if ok then s.regs.rstCause else s.regs.rstCause ||| 128 } } := by
  intro ok
  show execFirmwareVerified key (hexvos, microcode) s = _
  rw [execFirmwareVerified]
  dsimp only
  rw [if_neg (not_not_intro h)]
  show (if ok = true then _ else _) = _
  cases ok <;> rfl

end Sys2Proof.Machine

open Sys2Proof Sys2Proof.Machine

/-- Settles O33: every reset by `doReset_eq`, and each stage of bring-up by its equation. -/
theorem resetsRestartTheDevice : Obligations.ResetsRestartTheDevice := by
  unfold Obligations.ResetsRestartTheDevice
  intro s v k key hexvos microcode
  have hreset : ∀ {c : ResetCause}, c ≠ .power → (Host.Outcome.next (doReset s c) : Host.Outcome State Fault Refusal)
      = .next (restarted s (causeOf s (BitVec.ofNat 8 (2 ^ c.bit))) (keptRecords s)) := fun h => congrArg _ (doReset_eq s h)
  refine ⟨congrArg Host.Outcome.next (doReset_power s), hreset (c := .link) (by decide), hreset (c := .hexwd) (by decide), ?rstctl, fun h => ?trip, fun h => ?volt, fun h => ?supplies, fun h => ?calib,
    fun h => exec_firmwareVerified h key hexvos microcode, fun h hv => ?start, fun h => ?initDone⟩
  case rstctl =>
    show Host.Outcome.next (rstCtl s v) = _
    rw [rstCtl_eq]
  case trip =>
    have hk : 880 ≤ (islandAt s k.toNat).eighths := by rw [Island.eighths, toSigned_eq_toInt (by decide), BitVec.ofNat_toNat]; exact h
    exact (if_pos hk).trans (hreset (c := .therm) (by decide))
  case volt => exact (if_pos h).trans (hreset (c := .volt) (by decide))
  case supplies =>
    refine ⟨_, exec_suppliesStable h, rfl, rfl, ?_⟩
    intro j i hi gone
    have hoff : islandOff s.regs j = decide gone := by
      rw [Bool.eq_iff_iff, islandOff_iff, decide_eq_true_eq]
      rfl
    rw [← hoff]
    simp [hi]
  case calib => exact if_neg (not_not_intro h)
  case start =>
    show (if bitOf v.toNat 0 = true then _ else _) = _
    rw [bitOf_toNat, if_pos hv, bootStart_eq h]
  case initDone =>
    obtain ⟨regs, hready, he⟩ := exec_initDone h
    refine ⟨_, he, hready, fun _ => rfl, rfl, rfl, rfl, fun n hn => ?_, rfl, rfl, rfl, rfl, rfl, rfl, rfl⟩
    obtain ⟨m, -, rfl⟩ := List.mem_map.mp hn
    exact ⟨rfl, rfl, rfl, rfl⟩
end

section
/-! PROOFS. The monitors, the clocks' steps and the reports (R397, R398, R403 to R406). -/
namespace Sys2Proof.Machine
open Sys2Proof.Laws

/-! ## A byte after a write -/

theorem byte_write {m : Memory} (h : m.wf = true) (a : Nat) (l : List Byte) (c : Nat) :
    (m.write a l).byte c = if a ≤ c ∧ c < a + l.length then l.getD (c - a) 0 else m.byte c := by
  by_cases hc : a ≤ c ∧ c < a + l.length
  · obtain ⟨i, rfl⟩ := Nat.exists_eq_add_of_le hc.1
    have hi : i < l.length := by omega
    rw [if_pos hc, Memory.byte_write_mem h a l hi, Nat.add_sub_cancel_left, List.getD_eq_getElem _ _ hi]
  · rw [if_neg hc, Memory.byte_write_other m a l (by omega)]

/-! ## Monitors -/

theorem msPassed_iff (s : State) (since : Nat) : msPassed s since = true ↔ s.regs.boot ≠ .reset ∧ since + 1000000 ≤ s.clock := by
  rw [msPassed, Bool.and_eq_true, bne_iff_ne, decide_eq_true_eq]
  exact Iff.rfl

theorem islandUpdated_eq (warn : Int) (i : Island) (r : Reading) : i.updated warn r = islandUpdated warn i r := by
  unfold Island.updated islandUpdated Island.throttle Island.clock outsideWindow
  simp only [toSigned_eq_toInt (show 0 < 16 by decide), BitVec.ofNat_toNat, BitVec.setWidth_eq, Bool.and_eq_true, Bool.not_eq_true', Bool.or_eq_true,
    decide_eq_true_eq, Bool.decide_or]

theorem exec_monitorUpdate {s : State} {m : List Reading} (h : msPassed s s.regs.monAt = true) (hm : m.map (fun r => r.island.toNat) = List.range 128) :
    exec (.monitorUpdate m) s = .next { s with regs := { s.regs with
      monAt := s.clock, islands := (s.regs.islands.zip m).map fun (i, r) => i.updated (warnAt s) r } } := by
  refine if_neg ?_
  rintro (hk | hk)
  · exact hk h
  · exact hk hm

theorem exec_throttleStep {s : State} {k : BitVec 7} {i : Island} (hi : s.regs.islands[k.toNat]? = some i) (hd : msPassed s i.stepAt = true)
    (hc : i.hot = true ∨ i.cutHeat ≠ 0) :
    exec (.throttleStep k) s = .next { s with regs := { s.regs with
      islands := s.regs.islands.set k.toNat { i with cutHeat := cutStep i.hot i.cutHeat, stepAt := s.clock } } } := by
  have hat : islandAt s k.toNat = i := by rw [islandAt, List.getD_eq_getElem?_getD, hi, Option.getD_some]
  have hdue : stepDue s i = true := by simpa [stepDue, hd] using hc
  show execThrottleStep k s = _
  rw [execThrottleStep, hat, hdue, Bool.not_true, if_neg Bool.false_ne_true, modifyAt_eq_set _ _ _ _ hi]

theorem exec_powerCapStep {s : State} {power : Nat} (hp : power ≠ s.regs.pwrCap.toNat) (hd : msPassed s s.regs.capAt = true) :
    exec (.powerCapStep power) s = .next { s with regs := { s.regs with
      capAt := s.clock
      islands := s.regs.islands.zipIdx.map fun (i, k) =>
        if k % 32 < 24 then { i with cutPower := cutStep (decide (s.regs.pwrCap.toNat < power)) i.cutPower } else i } } := by
  refine if_neg ?_
  rintro (hk | hk)
  · exact hp hk
  · exact hk hd

/-! ## Requests for a report -/

theorem exec_attctlRequest {v : Word} (hv : v.getLsbD 0 = true) (s : State) : exec (.attctlRequest v) s = .next (attRequest s) := by
  show (if bitOf v.toNat 0 = true then _ else _) = _
  rw [bitOf_toNat, if_pos hv]

section
variable {s : State} (h : s.regs.boot = .ready) (hs : s.regs.attState ≠ 1)
include h hs

theorem attRequest_free : attRequest s = if 2 ^ 20 ≤ s.regs.keyIdx then { s with regs := { s.regs with attState := 3, attReason := 1 } }
    else if s.regs.attDst.toNat % 64 ≠ 0 then { s with regs := { s.regs with attState := 3, attReason := 3 } }
    else { s with regs := { s.regs with attState := 1, attReason := 0, keyIdx := s.regs.keyIdx + 1 } } := by
  refine if_neg ?_
  rintro (hk | hk)
  · exact hk h
  · exact hs hk

end

/-! ## Reports (R405, R406) -/

/-- A signature begins with its index, highest byte first. -/
theorem xmssSign_head (i : Nat) (m : List Byte) : ∃ r, xmssSign i m = toByte i 4 ++ r := by
  rw [xmssSign, List.append_assoc, List.append_assoc]
  exact ⟨_, rfl⟩

theorem toByte_getD (v : Nat) {n k : Nat} (h : k < n) : (toByte v n).getD k 0 = BitVec.ofNat 8 (v / 256 ^ (n - 1 - k)) := by
  rw [toByte, leBytes_eq_map, List.getD_eq_getElem _ _ (by simpa using h)]
  simp

theorem leBytes_add (m n x : Nat) : leBytes (m + n) x = leBytes m x ++ leBytes n (x / 256 ^ m) := by
  induction m generalizing x with
  | zero => simp [leBytes]
  | succ m ih =>
    rw [Nat.succ_add, leBytes, ih, leBytes, List.cons_append, Nat.div_div_eq_div_mul, Nat.pow_succ']

theorem leBytes_mod (n x : Nat) : leBytes n (x % 256 ^ n) = leBytes n x := by
  induction n generalizing x with
  | zero => rfl
  | succ n ih =>
    have hdiv : x % 256 ^ (n + 1) / 256 = x / 256 % 256 ^ n := by rw [Nat.pow_succ', Nat.mod_mul_right_div_self]
    have hlow : BitVec.ofNat 8 (x % 256 ^ (n + 1)) = BitVec.ofNat 8 x := by
      apply BitVec.eq_of_toNat_eq
      rw [BitVec.toNat_ofNat, BitVec.toNat_ofNat, Nat.pow_succ']
      exact Nat.mod_mul_right_mod ..
    rw [leBytes, leBytes, hdiv, ih, hlow]

/-- The bytes of a 64-bit number are those of its two halves. -/
theorem leBytes_eight (v : DWord) : leBytes 8 v.toNat = leBytes 4 (loWord v).toNat ++ leBytes 4 (hiWord v).toNat := by
  rw [leBytes_add 4 4, loWord, hiWord, BitVec.toNat_ofNat, BitVec.toNat_ofNat]
  congr 1
  · exact (leBytes_mod 4 _).symm
  · exact (leBytes_mod 4 _).symm

/-- Bytes 0 to 127 of a report, from the registers that hold them. -/
def reportHeadOf (s : State) : List Byte :=
  s.regs.attNonce ++ s.regs.meas ++ leBytes 4 (regRead32 s 0).toNat ++ leBytes 4 0 ++ leBytes 4 (regRead32 s 8).toNat
    ++ leBytes 4 (regRead32 s 12).toNat ++ leBytes 4 (s.regs.keyIdx - 1) ++ leBytes 4 s.regs.rstCount.toNat ++ leBytes 8 0

theorem reportHead_eq (s : State) : reportHead s.regs = reportHeadOf s := by
  have h0 : regRead32 s 0 = devId := rfl
  have h8 : regRead32 s 8 = loWord Config.serial := rfl
  have h12 : regRead32 s 12 = hiWord Config.serial := rfl
  rw [reportHead, reportHeadOf, h0, h8, h12, leBytes_eight]
  simp only [List.append_assoc]

theorem reportHeadOf_length {s : State} (hn : s.regs.attNonce.length = 32) (hm : s.regs.meas.length = 64) : (reportHeadOf s).length = 128 := by
  simp [reportHeadOf, hn, hm]

theorem exec_attestationComplete {s : State} (h : s.regs.attState = 1) (burnt : Bool) : exec (.attestationComplete burnt) s = .next
    (if burnt = true ∧ s.regs.attDst.toNat % 64 ≠ 0 then { s with regs := { s.regs with attState := 3, attReason := 3 } }
     else if burnt = true then { s with host := s.host.write s.regs.attDst.toNat (reportBytes s.regs), regs := { s.regs with attState := 2 } }
     else { s with regs := { s.regs with attState := 3, attReason := 2 } }) := by
  show execAttestationComplete burnt s = _
  rw [execAttestationComplete]
  dsimp only
  rw [if_neg (not_not_intro h)]
  split
  · rfl
  · split <;> rfl

/-- What a report leaves in the host's memory. -/
theorem reportBytes_written {s : State} (hw : s.host.wf = true) (hn : s.regs.attNonce.length = 32) (hm : s.regs.meas.length = 64) (dst : Nat) :
    (∀ a, (a < dst ∨ dst + 128 + 2820 ≤ a) → (s.host.write dst (reportBytes s.regs)).byte a = s.host.byte a)
    ∧ (∀ n < 4, (s.host.write dst (reportBytes s.regs)).byte (dst + 128 + n) = BitVec.ofNat 8 ((s.regs.keyIdx - 1) / 256 ^ (3 - n)))
    ∧ ∀ n < 128, (s.host.write dst (reportBytes s.regs)).byte (dst + n) = (reportHeadOf s).getD n 0 := by
  have hhead := reportHeadOf_length hn hm
  have hbytes : reportBytes s.regs = reportHeadOf s ++ xmssSign (s.regs.keyIdx - 1) (reportHeadOf s) := by rw [reportBytes, reportHead_eq]
  have hlen : (reportBytes s.regs).length = 2948 := by rw [hbytes, List.length_append, hhead, xmssSign_length]
  refine ⟨fun a ha => Memory.byte_write_other _ _ _ (by omega), fun n hn => ?_, fun n hn => ?_⟩
  · obtain ⟨r, hr⟩ := xmssSign_head (s.regs.keyIdx - 1) (reportHeadOf s)
    have hindex : (toByte (s.regs.keyIdx - 1) 4).length = 4 := by simp [toByte]
    rw [byte_write hw, if_pos (by omega), hbytes, hr, show dst + 128 + n - dst = 128 + n by omega,
      List.getD_append_right _ _ _ _ (by omega), hhead, Nat.add_sub_cancel_left, List.getD_append _ _ _ _ (by omega), toByte_getD _ hn]
  · rw [byte_write hw, if_pos (by omega), hbytes, Nat.add_sub_cancel_left, List.getD_append _ _ _ _ (by omega)]

end Sys2Proof.Machine

open Sys2Proof Sys2Proof.Machine

/-- Settles O34: the monitors, the steps of the clocks and the requests by their equations, a report by the bytes that it writes. -/
theorem monitorsAndReports : Obligations.MonitorsAndReports := by
  unfold Obligations.MonitorsAndReports
  intro s m i k v power slower due report head
  have hdue : ∀ since, due since → msPassed s since = true := fun since h => (msPassed_iff s since).mpr h
  refine ⟨fun hd hm hl => ?update, fun hd => ?stutter, fun hi hd hc => exec_throttleStep hi (hdue _ hd) hc, fun hp hd => ?cap, fun hv hb ha hk ht => ?granted,
    fun hv hb ha hk ht => ?misaligned, fun hv hb ha hk => ?spent, fun hr hd hw hn hm => ?written, fun hr hd => ?moved, fun hr => ?failed⟩
  case update =>
    refine ⟨_, exec_monitorUpdate (hdue _ hd) hm, fun j y r hy hr => ?_⟩
    have hz : (s.regs.islands.zip m)[j]? = some (y, r) := List.getElem?_zip_eq_some.mpr ⟨hy, hr⟩
    rw [List.getElem?_map, hz, Option.map_some, ← islandUpdated_eq]
    rfl
  case stutter =>
    refine if_pos ?_
    rcases hd with hd | hm
    · exact .inl fun h => hd ((msPassed_iff s _).mp h)
    · exact .inr hm
  case cap =>
    refine ⟨_, exec_powerCapStep hp (hdue _ hd), fun j hj => ?_⟩
    rw [List.getElem?_map, List.getElem?_zipIdx, hj, Nat.zero_add]
    rfl
  case granted => rw [exec_attctlRequest hv, attRequest_free hb ha, if_neg (Nat.not_le.mpr hk), if_neg (not_not_intro ht)]
  case misaligned => rw [exec_attctlRequest hv, attRequest_free hb ha, if_neg (Nat.not_le.mpr hk), if_pos ht]
  case spent => rw [exec_attctlRequest hv, attRequest_free hb ha, if_pos hk]
  case written =>
    rw [exec_attestationComplete hr, if_neg fun h => h.2 hd, if_pos rfl]
    simp only [State.memoryWf, Bool.and_eq_true] at hw
    exact ⟨_, rfl, rfl, reportBytes_written (by tauto) hn hm _⟩
  case moved => rw [exec_attestationComplete hr, if_pos ⟨rfl, hd⟩]
  case failed => rw [exec_attestationComplete hr, if_neg fun h => Bool.false_ne_true h.1, if_neg Bool.false_ne_true]
end

section
/-! PROOFS. Parks: what they save, how they are released, and the trap that ends a single step (R26, R142, R306 to R311). -/
namespace Sys2Proof.Machine
open Sys2Proof.Laws

/-! ## The end of a single step (R142) -/

/-- The trap that ends a single step. -/
def stepParked (x : Issue) (t : State) : State := takePark t x.uid { cause := 0x0D02, lanes := x.lanes, completing := true, skip := 0 }

theorem stepTrap_stepping {x : Issue} (h : x.g.stepctl.getLsbD 0 = true) (t : State) : stepTrap t x = stepParked x t := by
  rw [stepTrap, stepping, bitOf_toNat, if_pos h, stepParked]

/-- The issuing threads advance, in the words of `completed`. -/
theorem issued_advance {x : Issue} (hnd : x.lanes.Nodup) (i : Instr) (u : State) :
    { u.modifyGroup x.uid (fun g => issued (advance g x.lanes) x.lanes (yieldsOf i x.ext)) with cur := none } = completed i x u := by
  have hfun : (fun g => issued (advance g x.lanes) x.lanes (yieldsOf i x.ext)) = fun g : Group => { afterInstr x i g with
      threads := g.threads.zipIdx.map fun (th, l) => if l ∈ x.lanes then { th with pc := th.pc + 4 } else th } := by
    funext g
    rw [issued_eq, show advance g x.lanes = _ from modifyThreads_zip (fun t : Thread => { t with pc := t.pc + 4 }) g hnd]
    rfl
  rw [hfun]
  rfl

/-- An issue of a stepped group that no check keeps from executing. -/
theorem issue_stepping {s : State} {x : Issue} {i : Instr} (h : StepIssues s x i) (body : State → Issue → Effect) :
    issue i body s = .next (finish s x (yieldsOf i x.ext) (body s x)) := by
  obtain ⟨hc, -, hf, hp, -⟩ := h
  unfold issue
  simp only [hc, hf, hp, Bool.false_eq_true, if_false]

section
variable {s : State} {x : Issue} {i : Instr} (h : StepIssues s x i) (t : State)
include h

theorem finish_done_stepping : finish s x (yieldsOf i x.ext) (.done t) = stepParked x (completed i x t) := by
  obtain ⟨-, hnd, -, -, hs⟩ := h
  rw [← issued_advance hnd]
  exact stepTrap_stepping hs _

theorem finish_moved_stepping : finish s x (yieldsOf i x.ext) (.moved t) = stepParked x { t.modifyGroup x.uid (afterInstr x i) with cur := none } :=
  stepTrap_stepping h.2.2.2.2 _

theorem finish_wait_stepping (gone : List Nat) (first : Bool) : finish s x (yieldsOf i x.ext) (.wait t gone first)
    = stepParked x { t.modifyGroup x.uid (fun g => waits g x.lanes gone first (yieldsOf i x.ext)) with cur := none } :=
  stepTrap_stepping h.2.2.2.2 _

end

theorem stepParked_cur (x : Issue) (t : State) : (stepParked x t).cur = t.cur := takePark_cur ..

theorem singleStepsEndInTheirTrap : Claim.SingleStepsEndInTheirTrap := by
  unfold Claim.SingleStepsEndInTheirTrap
  refine ⟨fun i he hx hext _ => ?_, ?_⟩
  · obtain ⟨body, hbody⟩ := exec_eq_issue he hx hext
    refine ⟨body, hbody, fun s x t h => ⟨fun hb => ?_, fun hb => ?_, fun gone first hb => ?_⟩⟩
    · rw [hbody, issue_stepping h, hb, finish_done_stepping h]
      rfl
    · rw [hbody, issue_stepping h, hb, finish_moved_stepping h]
      rfl
    · rw [hbody, issue_stepping h, hb, finish_wait_stepping h]
      rfl
  · intro s x h g
    have hcur : (stepParked x (completed .exit x (checkPhases (s.setGroup g) g))).cur = none := stepParked_cur ..
    show execExit s = _
    rw [execExit, issue_stepping h]
    dsimp only
    rw [finish_done_stepping h, if_neg (by rw [hcur]; exact Bool.false_ne_true)]
    rfl

/-! ## What a park saves (R306 to R309) -/

theorem parkOf_eq (s : State) (g : Group) (a : ParkArgs) : parkOf s g a = savedPark s g a := by
  have hva : parkVa g a = a.va.getD (g.thread (a.lanes.headD 0)).pc := by
    unfold parkVa
    cases a.va <;> rfl
  have hauto : (a.action == 2) = (!a.plain && (a.cause == 0x0303 || a.cause == 0x0901)) := by
    unfold ParkArgs.action parkAction
    cases a.plain
    · by_cases h : a.cause = 0x0303 ∨ a.cause = 0x0901
      · rw [if_neg Bool.false_ne_true, if_pos h]
        simpa using h
      · rw [if_neg Bool.false_ne_true, if_neg h]
        simpa using h
    · rfl
  rw [parkOf, savedPark, hva, hauto]

theorem faultEntry_eq (g : Group) (p : Park) : faultEntry g p = parkEntry g p := rfl

/-- The words of a record that names a virtual address and no physical one. -/
theorem recordWords_va {a : RecordArgs} {va : Nat} (hp : a.pa = none) (hv : a.va = some va) (seq rin clock : Nat) : recordWords a seq rin clock =
    [BitVec.ofNat 64 (a.team % 65536 * 2 ^ 48 + a.ctx % 65536 * 2 ^ 32 + a.action * 2 ^ 24 + a.engine * 2 ^ 16 + a.cause),
     BitVec.ofNat 64 (seq * 2 ^ 32 + rin * 2 ^ 16 + a.slot * 2 ^ 8 + a.core), BitVec.ofNat 64 a.lanes, BitVec.ofNat 64 va, 0, BitVec.ofNat 64 clock,
     BitVec.ofNat 64 (a.sev * 2 ^ 54 + a.kind * 2 ^ 50 + 2 ^ 48 + a.detail % 2 ^ 48), 0] := by
  rw [recordWords, hp, hv, Option.isSome_none, Option.isSome_some, if_neg Bool.false_ne_true, if_pos rfl, Nat.add_zero, Option.getD_some]
  rfl

/-- The eight words of a park's record. -/
theorem recordWords_park (s : State) (g : Group) (a : ParkArgs) :
    recordWords (parkRecord s g a) s.records.next.toNat s.domain.rin.toNat s.clock = parkRecordWords s g a := by
  have hp := parkOf_eq s g a
  have hva : parkVa g a = (savedPark s g a).va := by rw [← hp, parkOf]
  have haction : a.action = if (!a.plain && (a.cause == 0x0303 || a.cause == 0x0901)) = true then 2 else 0 := by
    unfold ParkArgs.action parkAction
    cases a.plain
    · rw [if_neg Bool.false_ne_true]
      exact if_congr (by simp) rfl rfl
    · rfl
  have hsev : a.sev = if (!a.plain && [0x0301, 0x0303, 0x0503, 0x0901, 0x0D01, 0x0D02, 0x0E01].contains a.cause) = true then 1 else 2 := by
    unfold ParkArgs.sev parkSeverity
    cases a.plain
    · rw [if_neg Bool.false_ne_true]
      exact if_congr (by simp) rfl rfl
    · rfl
  have hlanes : BitVec.ofNat 64 (parkRecord s g a).lanes = (savedPark s g a).lanes := by
    rw [← hp]
    exact (BitVec.ofNat_toNat 64 _).trans (BitVec.setWidth_eq _)
  have haddr : BitVec.ofNat 64 (parkVa g a).toNat = (savedPark s g a).va := by
    rw [← hva]
    exact (BitVec.ofNat_toNat 64 _).trans (BitVec.setWidth_eq _)
  rw [recordWords_va (va := (parkVa g a).toNat) rfl rfl, hlanes, haddr, show (parkRecord s g a).action = a.action from rfl,
    show (parkRecord s g a).sev = a.sev from rfl, haction, hsev]
  rfl

/-- The store of records after one more. -/
theorem emitRecord_recent (s : State) (a : RecordArgs) :
    (emitRecord s a).records.recent.getLast? = some (recordWords a s.records.next.toNat s.domain.rin.toNat s.clock) := by
  have hr : (emitRecord s a).records.recent = (s.records.recent ++ [recordWords a s.records.next.toNat s.domain.rin.toNat s.clock]).drop
      (s.records.recent.length + 1 - 16) := by
    unfold emitRecord
    dsimp only
    split <;> rfl
  rw [hr, List.getLast?_drop, if_neg (by simp), List.getLast?_append]
  rfl

theorem emitRecord_held {s : State} (h : s.records.held.length < Config.heldRecords + ringRoom s.records) (a : RecordArgs) :
    (emitRecord s a).records.held = s.records.held ++ [recordWords a s.records.next.toNat s.domain.rin.toNat s.clock] := by
  unfold emitRecord
  dsimp only
  rw [if_pos h]

/-- A park leaves the records as its own record does. -/
theorem takePark_records {s : State} {uid : Nat} {g : Group} (h : s.group? uid = some g) (a : ParkArgs) :
    (takePark s uid a).records = (emitRecord s (parkRecord s g a)).records := by
  cases hp : g.park with
  | none => rw [takePark_first h hp]; rfl
  | some p => rw [takePark_held h hp]; rfl

/-! ## Releases (R307, R310, R311) -/

/-- A released group, before the next record is delivered or the park is over: the lanes outside the mask have moved, and the copies that the
park halted go on. -/
def leavingPark (g : Group) (p : Park) (action : Nat) (mask : DWord) : Group :=
  { g.modifyThreads (skippedLanes p action mask) (fun t => { t with pc := t.pc + BitVec.ofNat 64 (4 * p.skip) }) with
    copies := g.copies.map fun (c : CopyOp) =>
      match c.halted with
      | some (_, _, _, q) => if q = p.seq then { c with halted := none } else c
      | none => c }

theorem skippedLanes_nodup (p : Park) (action : Nat) (mask : DWord) : (skippedLanes p action mask).Nodup := by
  unfold skippedLanes
  split
  · exact (List.nodup_range.filter _).filter _
  · exact List.nodup_nil

theorem leavingPark_eq (g : Group) (p : Park) (action : Nat) (mask : DWord) :
    leavingPark g p action mask = { g with threads := (leavingPark g p action mask).threads, copies := (leavingPark g p action mask).copies } := by
  unfold leavingPark
  rw [modifyThreads_zip _ g (skippedLanes_nodup p action mask)]

theorem releasePark_eq {s : State} {uid : Nat} {g : Group} {p : Park} (h : s.group? uid = some g) (hp : g.park = some p) (action : Nat) (mask : DWord) :
    releasePark s uid action mask = match g.held with
      | (q, _) :: r => queueEntry (s.setGroup { leavingPark g p action mask with park := some q, held := r, gsaved := false }) (leavingPark g p action mask) q
      | [] => s.setGroup { leavingPark g p action mask with
          park := none, held := [], choice := choiceAfter p g.choice, sched := .waiting, elig := 0, waited := 0, ages := [], released := (s.cycles, p.seq.toNat) } := by
  have hl : ∀ f : Thread → Thread, (g.modifyThreads (skippedLanes p action mask) f).copies = g.copies
      ∧ (g.modifyThreads (skippedLanes p action mask) f).held = g.held ∧ (g.modifyThreads (skippedLanes p action mask) f).choice = g.choice := fun f => by
    rw [modifyThreads_zip f g (skippedLanes_nodup p action mask)]
    exact ⟨rfl, rfl, rfl⟩
  unfold releasePark
  rw [h]
  dsimp only
  rw [hp]
  dsimp only
  rw [(hl _).2.1]
  cases g.held with
  | nil =>
    dsimp only
    rw [(hl _).2.2, (hl _).1]
    rfl
  | cons q r =>
    obtain ⟨q, d⟩ := q
    dsimp only
    rw [(hl _).1]
    rfl

/-- A release with a second record delivers it. -/
theorem releasePark_delivers {s : State} {uid : Nat} {g : Group} {p q : Park} {d : BitVec 48} {rest : List (Park × BitVec 48)}
    (h : s.group? uid = some g) (hp : g.park = some p) (hh : g.held = (q, d) :: rest) (action : Nat) (mask : DWord) :
    (releasePark s uid action mask).group? uid = some { leavingPark g p action mask with park := some q, held := rest, gsaved := false }
    ∧ (releasePark s uid action mask).records = s.records
    ∧ ∀ c, s.ctx? g.ctx = some c →
        (releasePark s uid action mask).ctx? g.ctx = some { c with fqHeld := c.fqHeld ++ [(parkEntry g q, q.seq.toNat)] } := by
  have hleave := leavingPark_eq g p action mask
  have hentry : faultEntry (leavingPark g p action mask) q = parkEntry g q := by rw [hleave]; rfl
  have hctx : (leavingPark g p action mask).ctx = g.ctx := by rw [hleave]
  have hu : (leavingPark g p action mask).uid = uid := by rw [hleave]; exact (group?_uid h : g.uid = uid)
  rw [releasePark_eq h hp, hh]
  dsimp only
  refine ⟨group?_setGroup h hu, rfl, fun c hc => ?_⟩
  rw [queueEntry, hentry, hctx]
  exact ctx?_modifyCtx (s := s.setGroup _) (fun c : Ctx => { c with fqHeld := c.fqHeld ++ [(parkEntry g q, q.seq.toNat)] }) (fun _ => rfl) hc

/-- A release without one ends the park. -/
theorem releasePark_ends {s : State} {uid : Nat} {g : Group} {p : Park} (h : s.group? uid = some g) (hp : g.park = some p) (hh : g.held = [])
    (action : Nat) (mask : DWord) : ∃ g', (releasePark s uid action mask).group? uid = some g' ∧ g'.park = none ∧ g'.v = g.v
      ∧ g'.threads = (leavingPark g p action mask).threads := by
  have hleave := leavingPark_eq g p action mask
  have hu : (leavingPark g p action mask).uid = uid := by rw [hleave]; exact (group?_uid h : g.uid = uid)
  rw [releasePark_eq h hp, hh]
  dsimp only
  refine ⟨_, group?_setGroup h hu, rfl, ?_, rfl⟩
  rw [hleave]

theorem leavingPark_threads_one (g : Group) (p : Park) (mask : DWord) : (leavingPark g p 1 mask).threads = g.threads := rfl

theorem mem_skippedLanes {p : Park} {mask : DWord} {l : Nat} :
    l ∈ skippedLanes p 2 mask ↔ l < 64 ∧ p.completing = false ∧ p.lanes.getLsbD l = true ∧ mask.getLsbD l = false := by
  unfold skippedLanes
  cases p.completing
  · simp [bitList, Config.width, bitOf_toNat]
    tauto
  · simp

theorem leavingPark_thread_two {g : Group} (hlen : g.threads.length = 64) (p : Park) (mask : DWord) {l : Nat} (hl : l < 64) :
    (leavingPark g p 2 mask).thread l = if p.completing = false ∧ p.lanes.getLsbD l = true ∧ mask.getLsbD l = false
      then { g.thread l with pc := (g.thread l).pc + BitVec.ofNat 64 (4 * p.skip) } else g.thread l := by
  have hzip := threads_zipIdx (fun _ (t : Thread) => { t with pc := t.pc + BitVec.ofNat 64 (4 * p.skip) }) (· ∈ skippedLanes p 2 mask) g.threads 0 l
  rw [Group.thread, leavingPark, modifyThreads_zip _ g (skippedLanes_nodup p 2 mask)]
  refine hzip.trans (if_congr ?_ rfl rfl)
  rw [Nat.zero_add, mem_skippedLanes, hlen]
  tauto

/-! ## A park taken -/

theorem takePark_first_step {s : State} {uid : Nat} {g : Group} (h : s.group? uid = some g) (hp : g.park = none) (a : ParkArgs) :
    (takePark s uid a).group? uid = some (parkedGroup g (savedPark s g a))
    ∧ (∀ c, s.ctx? g.ctx = some c →
        (takePark s uid a).ctx? g.ctx = some { c with fqHeld := c.fqHeld ++ [(parkEntry g (savedPark s g a), s.records.next.toNat)] })
    ∧ (takePark s uid a).records.next = s.records.next + 1
    ∧ takePark s uid a = { s with work := { s.work with groups := (takePark s uid a).work.groups }, ctxs := (takePark s uid a).ctxs
                                  records := (takePark s uid a).records }
    ∧ ∀ uid', uid' ≠ uid → (takePark s uid a).group? uid' = s.group? uid' := by
  have hu := group?_uid h
  obtain ⟨hframe, hnext⟩ := emitRecord_spec s (parkRecord s g a)
  have heq := takePark_first h hp a
  rw [parkOf_eq] at heq
  rw [heq]
  refine ⟨?_, fun c hc => ?_, hnext, ?_, fun uid' hne => ?_⟩
  · exact group?_setGroup (s := emitRecord s (parkRecord s g a)) (g' := parkedGroup g (savedPark s g a)) (by simpa using h) hu
  · exact ctx?_modifyCtx (s := (emitRecord s (parkRecord s g a)).setGroup _) _ (fun _ => rfl) ((emitRecord_ctx? s _ _).trans hc)
  · generalize emitRecord s (parkRecord s g a) = e at hframe
    generalize e.records = r at hframe
    subst hframe
    rfl
  · refine (group?_setGroup_other (emitRecord s (parkRecord s g a)) (parkedGroup g (savedPark s g a)) ?_).trans (emitRecord_group? s _ uid')
    rw [show (parkedGroup g (savedPark s g a)).uid = uid from hu]
    exact hne

end Sys2Proof.Machine

open Sys2Proof Sys2Proof.Machine

/-- Settles O26: a park by `takePark_first` and `takePark_held`, a release by `releasePark_eq`, a single step by its instruction's effect. -/
theorem parksSaveAndReleaseGroups : Obligations.ParksSaveAndReleaseGroups := by
  unfold Obligations.ParksSaveAndReleaseGroups
  refine ⟨singleStepsEndInTheirTrap, fun s uid g a h => ⟨?recent, fun hroom => ?held, ?delivers, fun hp => ?first, fun p hp => ?second, fun p mask hp hh => ?ends⟩⟩
  case recent => rw [takePark_records h, emitRecord_recent, recordWords_park]
  case held => rw [takePark_records h, emitRecord_held hroom, recordWords_park]
  case delivers =>
    intro p q d rest hp hh action _ mask
    obtain ⟨hg, hr, hc⟩ := releasePark_delivers h hp hh action mask
    refine ⟨_, _, rfl, hg, rfl, rfl, rfl, ?_, hr, hc⟩
    show (leavingPark g p action mask).v = g.v
    rw [leavingPark_eq]
  case first =>
    obtain ⟨hg, hc, hn, hframe, hother⟩ := takePark_first_step h hp a
    exact ⟨_, _, rfl, hg, rfl, rfl, rfl, rfl, hc, hn, hframe, hother⟩
  case second =>
    obtain ⟨hframe, hnext⟩ := emitRecord_spec s (parkRecord s g a)
    rw [takePark_held h hp, parkOf_eq]
    refine ⟨group?_setGroup (s := emitRecord s (parkRecord s g a)) ((emitRecord_group? s _ uid).trans h)
      (group?_uid h : g.uid = uid), ?_, hnext⟩
    show (emitRecord s (parkRecord s g a)).ctxs = s.ctxs
    rw [hframe]
  case ends =>
    refine ⟨?_, fun hlen => ?_⟩
    · obtain ⟨g', hg, hpark, hv, ht⟩ := releasePark_ends h hp hh 1 mask
      exact ⟨g', hg, hpark, ht.trans (leavingPark_threads_one g p mask), hv⟩
    · obtain ⟨g', hg, hpark, hv, ht⟩ := releasePark_ends h hp hh 2 mask
      refine ⟨g', hg, hpark, hv, fun l hl => ?_⟩
      rw [← leavingPark_thread_two hlen p mask hl, Group.thread, ht, Group.thread]
end

section
/-! PROOFS. The watchdog, the end and the save of contexts, and promotions (R136, R138, R310, R318, R322). -/
namespace Sys2Proof.Machine
open Sys2Proof.Laws

/-! ## What the end of groups leaves as it is -/

theorem endGroup_frame (s : State) (g : Group) : endGroup s g = { s with work := (endGroup s g).work } := by
  unfold endGroup
  dsimp only
  split <;> rfl

theorem endGroup_groups (s : State) (g : Group) : (endGroup s g).work.groups = s.work.groups.filter fun x => x.uid != g.uid := by
  unfold endGroup
  dsimp only
  split <;> rfl

/-- The end of groups changes nothing but the work. -/
theorem settle_frame (s : State) : settle s = { s with work := (settle s).work } := by
  have key : ∀ (l : List Group) (t : State), l.foldl endGroup t = { t with work := (l.foldl endGroup t).work } := by
    intro l
    induction l with
    | nil => exact fun _ => rfl
    | cons g l ih =>
      intro t
      rw [List.foldl_cons, ih, endGroup_frame]
  exact key _ s

/-- A group that the end of groups leaves was there. -/
theorem mem_settle_groups {s : State} {g : Group} (h : g ∈ (settle s).work.groups) : g ∈ s.work.groups := by
  have key : ∀ (l : List Group) (t : State), g ∈ (l.foldl endGroup t).work.groups → g ∈ t.work.groups := by
    intro l
    induction l with
    | nil => exact fun _ h => h
    | cons y l ih =>
      intro t h
      have := ih (endGroup t y) h
      rw [endGroup_groups] at this
      exact (List.mem_filter.mp this).1
  exact key _ s h

@[simp] theorem settle_regs (s : State) : (settle s).regs = s.regs := by rw [settle_frame]
@[simp] theorem settle_ctxs (s : State) : (settle s).ctxs = s.ctxs := by rw [settle_frame]

@[simp] theorem endNow_regs (s : State) (n : Nat) : (endNow s n).regs = s.regs := by
  show (settle _).regs = _
  rw [settle_regs]
  rfl

@[simp] theorem saveContext_regs (s : State) (skip : List Nat) (base n : Nat) : (saveContext s skip base n).regs = s.regs := by
  unfold saveContext
  exact (foldl_keeps_value State.regs (f := fun s k => savePond s skip base n k) (fun _ _ => rfl) _ _).trans
    (foldl_keeps_value State.regs (f := fun s g => saveFrame s base g) (fun _ _ => rfl) _ _)

/-! ## Commands -/

theorem cmdIs_iff (s : State) (code : Nat) : cmdIs s code = true ↔ commandRuns s code := by
  simp [cmdIs, commandRuns, and_assoc]

theorem argCtx_eq (s : State) : argCtx s = ((commandWords s).getD 0 0).toNat % 2 ^ 16 := by
  rw [argCtx, recField, bitsOf, pow_zero, Nat.div_one]
  rfl

theorem cmdEnd_eq (s : State) (ok : Bool) : cmdEnd s ok = commandDone s ok := rfl

/-! ## The watchdog (R322) -/

theorem exec_watchdog {s : State} {n : Nat} {l : Launch} {t : Nat} {c : Ctx} (hl : s.launch? n = some l) (ht : l.start = some t) (hw : l.wdog ≠ 0)
    (hd : t + l.wdog * 1000000 ≤ s.clock) (hc : s.ctx? l.ctx = some c) (hst : c.state = .running ∨ c.state = .stopping) (hdy : c.dying = false) :
    exec (.watchdog n) s = .next ((emitRecord s
      { team := lowestTeam s l, ctx := l.ctx, cause := 0x0C01, action := 4, sev := 4, detail := l.wdog }).modifyCtx l.ctx
        fun c => { c with state := .stopping, dying := true }) := by
  have hdue : watchdogDue s l = true := by
    unfold watchdogDue
    rw [ht]
    dsimp only
    rw [hc]
    dsimp only
    rw [hdy, decide_eq_true (show t + l.wdog * ticksPerMs ≤ s.clock from hd)]
    simpa [hw] using hst
  show execWatchdog n s = _
  rw [execWatchdog, hl]
  dsimp only
  rw [hdue, Bool.not_true, if_neg Bool.false_ne_true]

/-! ## The end of a context (R310, R318) -/

/-- A group of a context that has ended does nothing more. -/
theorem dropGroup_done (g : Group) : (dropGroup g).loads = [] ∧ (dropGroup g).stores = [] ∧ (dropGroup g).tiles = [] ∧ (dropGroup g).mmas = []
    ∧ (dropGroup g).park = none ∧ ∀ th ∈ (dropGroup g).threads, th.status = .exited := by
  refine ⟨rfl, rfl, rfl, rfl, rfl, fun th h => ?_⟩
  obtain ⟨t, -, rfl⟩ := List.mem_map.mp h
  rfl

theorem endNow_groups {s : State} {n : Nat} {g : Group} (h : g ∈ (endNow s n).work.groups) (hn : g.ctx = n) : ∃ y, g = dropGroup y := by
  have hm := mem_settle_groups h
  obtain ⟨y, -, hy⟩ := List.mem_map.mp hm
  split at hy
  · exact ⟨y, hy.symm⟩
  · next hne => exact absurd (hy ▸ hn) hne

theorem endNow_ctxs {s : State} {n : Nat} {c : Ctx} (h : c ∈ (endNow s n).ctxs) (hn : c.num = n) : c.state = .ended ∧ c.pinned = none := by
  have hm := (List.mem_filter.mp h).1
  rw [settle_ctxs] at hm
  obtain ⟨y, -, rfl⟩ := List.mem_map.mp hm
  dsimp only at hn ⊢
  split
  · exact ⟨rfl, rfl⟩
  · next hne =>
    rw [if_neg hne] at hn
    exact absurd hn (by simpa using hne)

theorem endContext_eq {s : State} {n : Nat} {c : Ctx} (h : s.ctx? n = some c) :
    endContext s n = if c.state = .stopping then s.modifyCtx n (fun c => { c with dying := true }) else endNow s n := by
  rw [endContext, h]

/-! ## The save of a context (R318) -/

theorem endPreempt_eq (t : State) (n : Nat) : endPreempt t n = if t.regs.boot = .ready ∧ t.regs.cmdState = 1 ∧ t.regs.cmdCode.toNat = 3
    ∧ ((commandWords t).getD 0 0).toNat % 2 ^ 16 = n then commandDone t true else t := by
  rw [endPreempt]
  refine if_congr ?_ rfl rfl
  rw [Bool.and_eq_true, cmdIs_iff, beq_iff_eq, argCtx_eq, commandRuns]
  tauto

theorem savedContext_regs (s : State) (c : Ctx) : (savedContext s c).regs = s.regs := saveContext_regs ..

theorem exec_contextSave {s : State} {n : Nat} {c : Ctx} (hc : s.ctx? n = some c) (hs : c.state = .stopping)
    (hd : ∀ g ∈ s.work.groups, g.ctx = n → drained s g = true) :
    exec (.contextSave n) s = .next (endPreempt (if c.dying then endNow (savedContext s c) n else savedContext s c) n) := by
  have hall : (ctxGroups s n).all (drained s) = true := by
    rw [List.all_eq_true]
    intro g hg
    obtain ⟨hm, hn⟩ := List.mem_filter.mp hg
    exact hd g hm (by simpa using hn)
  show execContextSave n s = _
  rw [execContextSave, hc]
  dsimp only
  rw [if_neg (by rw [hs, hall]; simp)]

/-! ## Promotions (R136, R138) -/

/-- A group as it is promoted. -/
def promotedFrom (s : State) (y : Group) : Group := { y with
  sched := .active, promoted := some (y.promoted.getD (nextPromotion s)), entered := if y.sched = .active then y.entered else s.cycles }

section
variable {s : State} {n : Nat} {g : Group} (hg : s.group? n = some g) (he : 4096 ≤ g.elig) (hm : mayIssue s g = true)
include hg he hm

omit hg he hm in
theorem drivenOut_eq_false (hf : g.promoted = none ∨ g.entered ≠ s.cycles) : drivenOut s g = false := by
  unfold drivenOut
  rcases hf with hf | hf
  · rw [hf]; rfl
  · rw [beq_eq_false_iff_ne.mpr hf, Bool.and_false]

theorem exec_eligibilityPromotion (hf : g.sched = .active ∧ g.promoted = none ∨ g.sched = .eligible ∧ (g.promoted = none ∨ g.entered ≠ s.cycles)) :
    exec (.eligibilityPromotion n) s = .next ((if g.sched = .active ∨ (activeOn s g.core).length < activeMax then s
      else match evicted s g.core with
        | some y => s.modifyGroup y.uid leaveActive
        | none => s).modifyGroup n (promotedFrom s)) := by
  have hstay : ¬ (g.elig < promoteAfter ∨ (g.promoted.isSome ∧ g.sched = .active) ∨ drivenOut s g ∨ g.sched = .waiting ∨ ¬ mayIssue s g) := by
    rw [hm]
    have hdriven : drivenOut s g = false := by
      rcases hf with ⟨-, hp⟩ | ⟨-, hp⟩
      · exact drivenOut_eq_false (.inl hp)
      · exact drivenOut_eq_false hp
    rw [hdriven]
    rcases hf with ⟨ha, hp⟩ | ⟨ha, -⟩
    · simp [ha, hp, promoteAfter, he]
    · simp [ha, promoteAfter, he]
  show execEligibilityPromotion n s = _
  rw [execEligibilityPromotion, hg]
  dsimp only
  rw [if_neg hstay]
  rfl

omit he hm in
theorem exec_eligibilityPromotion_waits (hs : g.sched = .eligible) (hf : ¬ (g.promoted = none ∨ g.entered ≠ s.cycles)) :
    exec (.eligibilityPromotion n) s = .next s := by
  have hdriven : drivenOut s g = true := by
    rw [not_or, not_not] at hf
    simp [drivenOut, hs, hf.2, Option.isSome_iff_ne_none, hf.1]
  show execEligibilityPromotion n s = _
  rw [execEligibilityPromotion, hg]
  dsimp only
  rw [if_pos (.inr (.inr (.inl hdriven)))]
  rfl

end

end Sys2Proof.Machine

open Sys2Proof Sys2Proof.Machine

/-- Settles O28: each event by its equation; what stays of a context that ends by `dropGroup_done`. -/
theorem contextsAreSavedAndEnded : Obligations.ContextsAreSavedAndEnded := by
  unfold Obligations.ContextsAreSavedAndEnded
  intro s n
  refine ⟨fun l t c => exec_watchdog, fun c => endContext_eq, fun g h hn => ?ended, fun c h hn => endNow_ctxs h hn, ?saved, ?promoted⟩
  case ended =>
    obtain ⟨y, rfl⟩ := endNow_groups h hn
    exact dropGroup_done y
  case saved =>
    intro c hc hs hd saved answered
    have hnum := ctx?_num hc
    rw [exec_contextSave hc hs hd, endPreempt_eq]
    have hregs : (if c.dying = true then endNow (savedContext s c) n else savedContext s c).regs = s.regs := by
      split
      · rw [endNow_regs, savedContext_regs]
      · exact savedContext_regs s c
    have hwords : commandWords (if c.dying = true then endNow (savedContext s c) n else savedContext s c) = commandWords s := by
      rw [commandWords, hregs, commandWords]
    rw [hregs, hwords]
    rfl
  case promoted =>
    intro g hg he hm promotes free
    refine ⟨fun hs hf hl => ?_, fun hs hp => ?_, fun hs hf => exec_eligibilityPromotion_waits hg hs hf, fun y hs hf hl hy => ?_⟩
    · exact (exec_eligibilityPromotion hg he hm (.inr ⟨hs, hf⟩)).trans (congrArg (fun t : State => Host.Outcome.next (t.modifyGroup n (promotedFrom s)))
        (if_pos (.inr hl)))
    · exact (exec_eligibilityPromotion hg he hm (.inl ⟨hs, hp⟩)).trans (congrArg (fun t : State => Host.Outcome.next (t.modifyGroup n (promotedFrom s)))
        (if_pos (.inl hs)))
    · have hstays : ¬ (g.sched = .active ∨ (activeOn s g.core).length < activeMax) := by
        rw [hs, not_or]
        exact ⟨by decide, Nat.not_lt.mpr hl⟩
      have h := exec_eligibilityPromotion hg he hm (.inr ⟨hs, hf⟩)
      rw [if_neg hstays, hy] at h
      exact h
end

section
/-! PROOFS. The host's commands on contexts and regions (R377, R378, R380). -/
namespace Sys2Proof.Machine
open Sys2Proof.Laws

/-! ## A command that runs at once -/

theorem command_done {s t : State} {code : Nat} {f : State → Option State} (h : commandRuns s code) (hf : f s = some t) :
    command code f s = .next (commandDone t true) := by
  rw [command, (cmdIs_iff s code).mpr h, Bool.not_true, if_neg Bool.false_ne_true, hf]
  rfl

theorem command_fails {s : State} {code : Nat} {f : State → Option State} (h : commandRuns s code) (hf : f s = none) :
    command code f s = .next (commandDone s false) := by
  rw [command, (cmdIs_iff s code).mpr h, Bool.not_true, if_neg Bool.false_ne_true, hf]
  rfl

theorem created?_argCtx (s : State) : created? s (argCtx s) = commandCtx s := by rw [argCtx_eq, commandCtx]

/-! ## Fields of the argument -/

theorem recField_low (w : List DWord) (k n : Nat) : recField w k 0 n = (w.getD k 0).toNat % 2 ^ n := by
  rw [recField, bitsOf, pow_zero, Nat.div_one]

theorem recField_word (w : List DWord) (k : Nat) : recField w k 0 64 = (w.getD k 0).toNat := by
  rw [recField_low, Nat.mod_eq_of_lt (w.getD k 0).isLt]

theorem recField_bit (w : List DWord) (k b : Nat) : (recField w k b 1 == 1) = (w.getD k 0).getLsbD b := by
  rw [← bitOf_toNat]
  rfl

/-! ## CREATE -/

theorem ctx?_isSome_iff (s : State) (n : Nat) : (s.ctx? n).isSome = true ↔ ∃ c ∈ s.ctxs, c.num = n := by
  simp [State.ctx?]

/-- The context that CREATE makes, from the words of its descriptor. -/
theorem freshCtx_eq (s : State) (w : List DWord) : freshCtx s.nextUid w s.hbm s.work.dates =
    { uid := s.nextUid, num := (w.getD 0 0).toNat % 2 ^ 16, level := (w.getD 0 0).getLsbD 16, clmax := (w.getD 0 0).toNat / 2 ^ 20 % 16, weight := 8
      root := (w.getD 1 0).toNat, fqBase := (w.getD 2 0).toNat, fqCap := (w.getD 3 0).toNat % 2 ^ 24, fqWritten := 0, fqRead := 0, fqHeld := []
      saBase := (w.getD 4 0).toNat, sealBase := (w.getD 5 0).toNat, half := false, hasSeal := false, randseed := loWord (w.getD 6 0)
      rollbacks := 0, pinned := none, state := .running, snap := s.hbm, snapDates := s.work.dates, savedAt := 0, moves := [], dying := false } := by
  have hseed : BitVec.ofNat 32 (recField w 6 0 32) = loWord (w.getD 6 0) := by
    apply BitVec.eq_of_toNat_eq
    rw [recField_low, loWord, BitVec.toNat_ofNat, BitVec.toNat_ofNat, Nat.mod_mod]
  rw [freshCtx, recField_low, recField_low, recField_bit, hseed]
  rfl

theorem exec_create_done {s : State} (h : commandRuns s 1) (hd : descriptorOk (commandWords s) = true)
    (hn : ∀ c ∈ s.ctxs, c.num ≠ ((commandWords s).getD 0 0).toNat % 2 ^ 16) :
    exec .create s = .next (commandDone { s with ctxs := s.ctxs ++ [freshCtx s.nextUid (commandWords s) s.hbm s.work.dates], nextUid := s.nextUid + 1 } true) := by
  have hfree : (s.ctx? (recField (commandWords s) 0 0 16)).isSome = false := by
    rw [← Bool.not_eq_true, ctx?_isSome_iff, recField_low]
    rintro ⟨c, hc, hcn⟩
    exact hn c hc hcn
  show execCreate s = _
  rw [execCreate]
  refine command_done h ?_
  show (if (!descriptorOk (commandWords s) || (s.ctx? (recField (commandWords s) 0 0 16)).isSome) = true then none else _) = _
  rw [hd, hfree, if_neg (by decide)]
  rfl

theorem exec_create_fails {s : State} (h : commandRuns s 1) (hd : descriptorOk (commandWords s) = false
    ∨ ∃ c ∈ s.ctxs, c.num = ((commandWords s).getD 0 0).toNat % 2 ^ 16) : exec .create s = .next (commandDone s false) := by
  show execCreate s = _
  rw [execCreate]
  refine command_fails h (if_pos ?_)
  rw [Bool.or_eq_true]
  rcases hd with hd | hd
  · exact .inl (by rw [show descriptorOk (cmdArgs s) = false from hd]; rfl)
  · exact .inr (by rw [ctx?_isSome_iff, recField_low]; exact hd)

/-! ## Commands that name a context -/

theorem exec_preempt {s : State} (h : commandRuns s 3) : exec .preempt s = match commandCtx s with
    | none => .next (commandDone s false)
    | some c => (match c.state with
      | .running => .next (s.modifyCtx c.num fun c => { c with state := .stopping })
      | .stopping => .next s
      | _ => .next (commandDone s false)) := by
  show execPreempt s = _
  rw [execPreempt, (cmdIs_iff s 3).mpr h, Bool.not_true, if_neg Bool.false_ne_true, created?_argCtx]
  rfl

theorem exec_restore {s : State} (h : commandRuns s 4) (ps : List Placement) : exec (.restore ps) s = match commandCtx s with
    | none => .next (commandDone s false)
    | some c => if c.state ≠ .saved then .next (commandDone s false) else (match restoreContext s c ps with
      | some t => .next (commandDone t true)
      | none => .next s) := by
  show execRestore ps s = _
  rw [execRestore, (cmdIs_iff s 4).mpr h, Bool.not_true, if_neg Bool.false_ne_true, created?_argCtx]
  rfl

/-! ## INVAL (R185) -/

/-- An entry of a fault queue changes nothing else of a context. -/
theorem queueEntry_ctx? (s : State) (g : Group) (p : Park) {n : Nat} {c : Ctx} (h : s.ctx? n = some c) :
    ∃ q, (queueEntry s g p).ctx? n = some { c with fqHeld := q } := by
  by_cases hn : n = g.ctx
  · subst hn
    exact ⟨_, ctx?_modifyCtx (fun c : Ctx => { c with fqHeld := c.fqHeld ++ [(faultEntry g p, p.seq.toNat)] }) (fun _ => rfl) h⟩
  · exact ⟨c.fqHeld, (ctx?_modifyCtx_other s (fun c : Ctx => { c with fqHeld := c.fqHeld ++ [(faultEntry g p, p.seq.toNat)] }) (fun _ => rfl) hn).trans h⟩

/-- A release keeps the numbers of the groups, every other group, and everything but groups and fault queues. -/
theorem releasePark_frame (s : State) (uid action : Nat) (mask : DWord) :
    releasePark s uid action mask = { s with work := { s.work with groups := (releasePark s uid action mask).work.groups }, ctxs := (releasePark s uid action mask).ctxs }
    ∧ (releasePark s uid action mask).work.groups.map Group.uid = s.work.groups.map Group.uid
    ∧ (∀ k ≠ uid, (releasePark s uid action mask).group? k = s.group? k)
    ∧ ∀ n c, s.ctx? n = some c → ∃ q, (releasePark s uid action mask).ctx? n = some { c with fqHeld := q } := by
  have huids : ∀ (t : State) (g : Group), (t.setGroup g).work.groups.map Group.uid = t.work.groups.map Group.uid := fun t g => by
    rw [State.setGroup, List.map_map]
    refine List.map_congr_left fun y _ => ?_
    rw [Function.comp_apply]
    split
    · next h => exact (by simpa using h : y.uid = g.uid).symm
    · rfl
  cases h : s.group? uid with
  | none =>
    have he : releasePark s uid action mask = s := by rw [releasePark, h]
    rw [he]
    exact ⟨rfl, rfl, fun _ _ => rfl, fun n c hc => ⟨c.fqHeld, hc⟩⟩
  | some g =>
    cases hp : g.park with
    | none =>
      have he : releasePark s uid action mask = s := by rw [releasePark, h]; dsimp only; rw [hp]
      rw [he]
      exact ⟨rfl, rfl, fun _ _ => rfl, fun n c hc => ⟨c.fqHeld, hc⟩⟩
    | some p =>
      have hu : (leavingPark g p action mask).uid = uid := by rw [leavingPark_eq]; exact (group?_uid h : g.uid = uid)
      rw [releasePark_eq h hp]
      cases g.held with
      | nil =>
        refine ⟨rfl, huids s _, fun k hk => group?_setGroup_other s _ ?_, fun n c hc => ⟨c.fqHeld, hc⟩⟩
        exact fun e => hk (e.trans hu)
      | cons q r =>
        obtain ⟨q, d⟩ := q
        dsimp only
        refine ⟨rfl, huids s _, fun k hk => ?_, fun n c hc => queueEntry_ctx? _ _ _ hc⟩
        exact group?_setGroup_other s { leavingPark g p action mask with park := some q, held := r, gsaved := false } fun e => hk (e.trans hu)

/-- The end of groups leaves a group that has not ended, where the numbers are distinct. -/
theorem settle_group? {s : State} {uid : Nat} {g : Group} (hnd : (s.work.groups.map Group.uid).Nodup) (h : s.group? uid = some g)
    (he : groupEnded g = false) : (settle s).group? uid = some g := by
  have key : ∀ (l : List Group) (t : State), (∀ y ∈ l, y.uid ≠ uid) → t.group? uid = some g → (l.foldl endGroup t).group? uid = some g := by
    intro l
    induction l with
    | nil => exact fun _ _ h => h
    | cons y l ih =>
      intro t hl ht
      refine ih (endGroup t y) (fun z hz => hl z (List.mem_cons_of_mem _ hz)) ?_
      have hy : y.uid ≠ uid := hl y (List.mem_cons_self ..)
      rw [State.group?, endGroup_groups, List.find?_filter]
      refine Eq.trans ?_ ht
      rw [State.group?]
      congr 1
      funext x
      by_cases hx : x.uid = uid
      · simp [hx, Ne.symm hy]
      · simp [hx]
  refine key _ s (fun y hy hu => ?_) h
  obtain ⟨hm, hended⟩ := List.mem_filter.mp hy
  have hgm : g ∈ s.work.groups := List.mem_of_find?_eq_some h
  have hgu : g.uid = uid := group?_uid h
  have : y = g := List.inj_on_of_nodup_map hnd hm hgm (hu.trans hgu.symm)
  rw [this, he] at hended
  exact Bool.false_ne_true hended

/-- What a list of releases under action 2 keeps. -/
theorem foldl_releasePark (l : List Nat) : ∀ s : State,
    let t := l.foldl (fun s uid => releasePark s uid 2 0xFFFFFFFFFFFFFFFF) s
    t = { s with work := { s.work with groups := t.work.groups }, ctxs := t.ctxs } ∧ t.work.groups.map Group.uid = s.work.groups.map Group.uid
    ∧ (∀ k ∉ l, t.group? k = s.group? k) ∧ ∀ n c, s.ctx? n = some c → ∃ q, t.ctx? n = some { c with fqHeld := q } := by
  induction l with
  | nil => exact fun s => ⟨rfl, rfl, fun _ _ => rfl, fun n c hc => ⟨c.fqHeld, hc⟩⟩
  | cons uid l ih =>
    intro s t
    obtain ⟨hframe, huids, hother, hctx⟩ := releasePark_frame s uid 2 0xFFFFFFFFFFFFFFFF
    obtain ⟨hframe', huids', hother', hctx'⟩ := ih (releasePark s uid 2 0xFFFFFFFFFFFFFFFF)
    refine ⟨?_, huids'.trans huids, fun k hk => ?_, fun n c hc => ?_⟩
    · refine hframe'.trans ?_
      show _ = ({ s with work := { s.work with groups := (l.foldl (fun s uid => releasePark s uid 2 0xFFFFFFFFFFFFFFFF)
        (releasePark s uid 2 0xFFFFFFFFFFFFFFFF)).work.groups }, ctxs := (l.foldl (fun s uid => releasePark s uid 2 0xFFFFFFFFFFFFFFFF)
        (releasePark s uid 2 0xFFFFFFFFFFFFFFFF)).ctxs } : State)
      generalize l.foldl _ (releasePark s uid 2 0xFFFFFFFFFFFFFFFF) = u
      rw [hframe]
    · rw [List.mem_cons, not_or] at hk
      exact (hother' k hk.2).trans (hother k hk.1)
    · obtain ⟨q, hq⟩ := hctx n c hc
      obtain ⟨q', hq'⟩ := hctx' n _ hq
      exact ⟨q', hq'⟩

/-! ### The groups that INVAL resumes -/

/-- A list keeps its members, but for an equal first component, when a pair is inserted. -/
theorem mem_insertRising {x y : Nat × Nat} {l : List (Nat × Nat)} : y ∈ insertRising x l ↔ y = x ∨ y ∈ l := by
  induction l with
  | nil => simp [insertRising]
  | cons z l ih =>
    rw [insertRising]
    split
    · simp
    · rw [List.mem_cons, ih, List.mem_cons]
      tauto

/-- The groups that a test picks by their parks. -/
theorem mem_parkedWith {s : State} {ok : Group → Park → Bool} {uid : Nat} :
    uid ∈ parkedWith s ok ↔ ∃ g ∈ s.work.groups, g.uid = uid ∧ ∃ p, g.park = some p ∧ ok g p = true := by
  have hfold : ∀ (ps l : List (Nat × Nat)) (y : Nat × Nat), y ∈ ps.foldl (fun l x => insertRising x l) l ↔ y ∈ l ∨ y ∈ ps := by
    intro ps
    induction ps with
    | nil => simp
    | cons x ps ih =>
      intro l y
      rw [List.foldl_cons, ih, mem_insertRising, List.mem_cons]
      tauto
  rw [parkedWith, List.mem_map]
  constructor
  · rintro ⟨⟨q, u⟩, hm, rfl⟩
    rw [hfold] at hm
    obtain ⟨g, hg, hq⟩ := List.mem_filterMap.mp (hm.resolve_left List.not_mem_nil)
    cases hp : g.park with
    | none => rw [hp] at hq; cases hq
    | some p =>
      rw [hp] at hq
      dsimp only at hq
      split at hq
      · next hok =>
        cases hq
        exact ⟨g, hg, rfl, p, hp, hok⟩
      · cases hq
  · rintro ⟨g, hg, rfl, p, hp, hok⟩
    refine ⟨(p.seq.toNat, g.uid), ?_, rfl⟩
    rw [hfold]
    refine .inr (List.mem_filterMap.mpr ⟨g, hg, ?_⟩)
    rw [hp]
    dsimp only
    rw [if_pos hok]

theorem modifyCtx_group? (s : State) (n : Nat) (f : Ctx → Ctx) (uid : Nat) : (s.modifyCtx n f).group? uid = s.group? uid := rfl

/-- What INVAL does: the tables of the context are read again, and no group but those parked by 0x0303 changes. -/
theorem exec_inval {s : State} {c : Ctx} (h : commandRuns s 5) (hc : commandCtx s = some c) (hcn : s.ctx? c.num = some c)
    (hnd : (s.work.groups.map Group.uid).Nodup) :
    ∃ t c', exec .inval s = .next t ∧ t.ctx? c.num = some c' ∧ c' = { c with snap := s.hbm, snapDates := s.work.dates, fqHeld := c'.fqHeld }
      ∧ t.regs = { s.regs with cmdState := 0 } ∧ t.msix = s.msix ++ [2] ∧ t.hbm = s.hbm
      ∧ ∀ uid g, s.group? uid = some g → (∀ p, g.park = some p → p.cause ≠ 0x0303) → groupEnded g = false → t.group? uid = some g := by
  let renewed := s.modifyCtx c.num fun c => { c with snap := s.hbm, snapDates := s.work.dates }
  let ok : Group → Park → Bool := fun g p => g.ctx == c.num && p.auto && p.cause == 0x0303
    && !stillMoving renewed { c with snap := s.hbm, snapDates := s.work.dates } p
  let resumed := (parkedWith renewed ok).foldl (fun s uid => releasePark s uid 2 0xFFFFFFFFFFFFFFFF) renewed
  obtain ⟨hframe, huids, hother, hctx⟩ := foldl_releasePark (parkedWith renewed ok) renewed
  have he : exec .inval s = .next (commandDone (settle resumed) true) := by
    show execInval s = _
    rw [execInval]
    refine command_done h ?_
    rw [created?_argCtx, hc]
    rfl
  obtain ⟨q, hq⟩ := hctx c.num _ (ctx?_modifyCtx (fun c : Ctx => { c with snap := s.hbm, snapDates := s.work.dates }) (fun _ => rfl) hcn)
  have hregs : (settle resumed).regs = s.regs := by rw [settle_regs, show resumed = _ from hframe]; rfl
  have hmsix : (settle resumed).msix = s.msix := by rw [settle_frame, show resumed = _ from hframe]; rfl
  have hhbm : (settle resumed).hbm = s.hbm := by rw [settle_frame, show resumed = _ from hframe]; rfl
  refine ⟨_, { c with snap := s.hbm, snapDates := s.work.dates, fqHeld := q }, he, ?_, rfl, ?_, ?_, hhbm, fun uid g hg hp hend => ?_⟩
  · show (settle resumed).ctxs.find? _ = _
    rw [settle_ctxs]
    exact hq
  · show { (settle resumed).regs with cmdState := 0 } = _
    rw [hregs]
  · show (settle resumed).msix ++ [2] = _
    rw [hmsix]
  · have hnot : uid ∉ parkedWith renewed ok := by
      rw [mem_parkedWith]
      rintro ⟨y, hy, hyu, p, hpark, hok⟩
      have hgm : g ∈ s.work.groups := List.mem_of_find?_eq_some hg
      have hyg : y = g := List.inj_on_of_nodup_map hnd hy hgm (hyu.trans (group?_uid hg : g.uid = uid).symm)
      rw [hyg] at hpark
      simp only [ok, Bool.and_eq_true, beq_iff_eq] at hok
      exact hp p hpark hok.1.2
    exact settle_group? (s := resumed) (by rw [huids]; exact hnd) ((hother uid hnot).trans hg) hend

/-! ## RETIRE, FQPOP and codes that no command has -/

theorem region?_isSome_iff (s : State) (hdr : Nat) : (region? s hdr).isSome = true ↔ ∃ r ∈ s.work.regions, r.hdr = hdr := by
  simp [region?]

theorem oldestEntry_eq_none {s : State} {c : Ctx} (h : c.fqWritten ≤ c.fqRead) : oldestEntry s c = none := if_neg (Nat.not_lt.mpr h)

/-- The address that the command FQPOP names. -/
def popAddress (s : State) : Nat := ((commandWords s).getD 1 0).toNat

theorem exec_cmdFqpop_done {s : State} {c : Ctx} (h : commandRuns s 7) (hc : commandCtx s = some c) (ha : popAddress s % 32 = 0)
    (hr : popAddress s + 32 ≤ 0xC000000000) (hw : c.fqRead < c.fqWritten) :
    exec .cmdFqpop s = .next (commandDone { (s.modifyCtx c.num fun c => { c with fqRead := c.fqRead + 1 }) with
      hbm := s.hbm.write (popAddress s) (s.hbm.read (c.fqBase + 32 * (c.fqRead % max 1 c.fqCap)) 32) } true) := by
  have hpa : recField (cmdArgs s) 1 0 64 = popAddress s := recField_word _ 1
  have hold : oldestEntry s c = some (s.hbm.read (c.fqBase + 32 * (c.fqRead % max 1 c.fqCap)) 32) := if_pos hw
  show execCmdFqpop s = _
  rw [execCmdFqpop]
  refine command_done h ?_
  dsimp only
  rw [created?_argCtx, hc, hpa]
  dsimp only
  rw [if_neg (by rintro (hk | hk); exacts [hk ha, absurd hr (Nat.not_le.mpr hk)]), hold]
  rfl

theorem exec_cmdFqpop_empty {s : State} (h : commandRuns s 7) (hc : ∀ c, commandCtx s = some c → c.fqWritten ≤ c.fqRead) :
    exec .cmdFqpop s = .next (commandDone s false) := by
  show execCmdFqpop s = _
  rw [execCmdFqpop]
  refine command_fails h ?_
  dsimp only
  rw [created?_argCtx]
  cases he : commandCtx s with
  | none => rfl
  | some c =>
    dsimp only
    rw [oldestEntry_eq_none (hc c he)]
    split <;> rfl

theorem exec_undefinedCommand {s : State} {code : BitVec 8} (hb : s.regs.boot = .ready) (hc : ¬ (1 ≤ code.toNat ∧ code.toNat ≤ 9)) (hs : s.regs.cmdState ≠ 1) :
    exec (.undefinedCommand code) s = .next { s with regs := { s.regs with cmdCode := code, cmdState := 2 }, msix := s.msix ++ [2] } := by
  have hlt := code.isLt
  have hcode : (BitVec.ofNat 32 code.toNat).toNat % 256 = code.toNat := by rw [BitVec.toNat_ofNat]; omega
  show execUndefinedCommand code s = _
  rw [execUndefinedCommand, if_neg (by rintro (hk | hk); exacts [hk hb, hc hk]), cmdWrite]
  dsimp only
  rw [if_neg hs, hcode, if_neg hc, BitVec.ofNat_toNat, BitVec.setWidth_eq]
  rfl

end Sys2Proof.Machine

open Sys2Proof Sys2Proof.Machine

/-- Settles O31: each command by its equation; INVAL by what its releases and the end of groups keep. -/
theorem commandsOnContexts : Obligations.CommandsOnContexts := by
  unfold Obligations.CommandsOnContexts
  intro s c ps code w fails num pa
  refine ⟨fun h hd hn => ?create, fun h hd => exec_create_fails h hd, fun h hc => ?destroy, fun h hc hs => ?running, fun h hc hs => ?stopping,
    fun h hc hs => ?saved, fun t h hc hs ht => ?restore, fun h hc hs => ?busy, fun h hc hcn hnd => exec_inval h hc hcn hnd, fun h hr => ?retire, fun h hr => ?absent,
    fun h hc ha hr hw => exec_cmdFqpop_done h hc ha hr hw, fun h hc hw => ?empty, fun hc => ⟨fun h => ?noDestroy, fun h => ?noPreempt, fun h => ?noRestore, fun h => ?noInval,
      fun h => ?noPop⟩, fun hb hc hs => exec_undefinedCommand hb hc hs⟩
  case create =>
    rw [exec_create_done h hd hn, freshCtx_eq]
  case destroy =>
    show execDestroy s = _
    rw [execDestroy]
    refine command_done h ?_
    rw [created?_argCtx, hc]
    rfl
  case running =>
    rw [exec_preempt h, hc]
    dsimp only
    rw [hs]
  case stopping =>
    rw [exec_preempt h, hc]
    dsimp only
    rw [hs]
  case saved =>
    show exec .preempt s = _
    rw [exec_preempt h, hc]
    dsimp only
    rw [hs]
  case restore =>
    rw [exec_restore h, hc]
    dsimp only
    rw [if_neg (not_not_intro hs), ht]
  case busy =>
    show exec (.restore ps) s = _
    rw [exec_restore h, hc]
    dsimp only
    rw [if_pos (by rcases hs with hs | hs <;> rw [hs] <;> decide)]
  case retire =>
    show execRetire s = _
    rw [execRetire]
    refine command_done h ?_
    dsimp only
    rw [recField_word]
    exact if_pos ((region?_isSome_iff s _).mpr hr)
  case absent =>
    show execRetire s = _
    rw [execRetire]
    refine command_fails h ?_
    dsimp only
    rw [recField_word]
    refine if_neg fun hk => ?_
    obtain ⟨r, hm, he⟩ := (region?_isSome_iff s _).mp hk
    exact hr r hm he
  case empty => exact exec_cmdFqpop_empty h fun k hk => by rwa [← Option.some.inj (hc.symm.trans hk)]
  case noDestroy =>
    show execDestroy s = _
    rw [execDestroy]
    refine command_fails h ?_
    rw [created?_argCtx, hc]
    rfl
  case noPreempt =>
    show exec .preempt s = _
    rw [exec_preempt h, hc]
  case noRestore =>
    show exec (.restore ps) s = _
    rw [exec_restore h, hc]
  case noInval =>
    show execInval s = _
    rw [execInval]
    refine command_fails h ?_
    rw [created?_argCtx, hc]
  case noPop => exact exec_cmdFqpop_empty h fun k hk => absurd (hc.symm.trans hk) (by simp)
end

section
/-! PROOFS. The commands DOMAIN and LEASE (R352, R355 to R357, R377). -/
namespace Sys2Proof.Machine
open Sys2Proof.Laws

/-! ## DOMAIN -/

theorem exec_domain_fails {s : State} (h : commandRuns s 9) (hc : s.ctxs ≠ []) (x : DomainPeers) : exec (.domain x) s = .next (commandDone s false) := by
  have hne : s.ctxs.isEmpty = false := by simpa using hc
  show execDomain x s = _
  rw [execDomain]
  refine command_fails h (if_pos ?_)
  rw [hne]
  rfl

theorem exec_domain_done {s : State} {x : DomainPeers} {c : Nat} (h : commandRuns s 9) (hc : s.ctxs = []) (hd : domainOk s (commandWords s) = true)
    (hx : 2 ≤ (memberTable s (commandWords s)).length → x.ok = true)
    (hr : ∀ d ∈ memberTable s (commandWords s), d = ((commandWords s).getD 0 0).toNat % 2 ^ 10 ∨ d ∉ s.domain.noRoute)
    (hco : coordOf (commandWords s) (memberTable s (commandWords s)) x = some c) :
    exec (.domain x) s = .next (commandDone { s with undo := [], deferred := []
                                                     domain := newDomain s.domain (commandWords s) (memberTable s (commandWords s)) c x } true) := by
  have hall : (!s.ctxs.isEmpty || !domainOk s (cmdArgs s) || (decide (1 < (memberTable s (cmdArgs s)).length) && !x.ok)
      || (memberTable s (cmdArgs s)).any (fun d => d != recField (cmdArgs s) 0 0 10 && s.domain.noRoute.contains d)) = false := by
    rw [Bool.or_eq_false_iff, Bool.or_eq_false_iff, Bool.or_eq_false_iff]
    refine ⟨⟨⟨by rw [hc]; rfl, by rw [show domainOk s (cmdArgs s) = true from hd]; rfl⟩, ?_⟩, List.any_eq_false.mpr fun d hm hk => ?_⟩
    · by_cases hl : 1 < (memberTable s (cmdArgs s)).length
      · rw [hx hl, Bool.not_true, Bool.and_false]
      · rw [decide_eq_false hl, Bool.false_and]
    · rw [recField_low, Bool.and_eq_true, bne_iff_ne, List.contains_iff_mem] at hk
      exact (hr d hm).elim hk.1 fun hn => hn hk.2
  show execDomain x s = _
  rw [execDomain]
  refine command_done h ?_
  dsimp only
  rw [hall, if_neg Bool.false_ne_true, show coordOf (cmdArgs s) (memberTable s (cmdArgs s)) x = some c from hco]
  rfl

/-! ## LEASE -/

/-- The words of a LEASE command that hold the lease's fields. -/
def leaseWords (s : State) : List DWord := ((commandWords s).drop 1).take 3

/-- The operation of a LEASE command. -/
def leaseOp (s : State) : Nat := ((commandWords s).getD 0 0).toNat % 4

/-- The lease that a LEASE command describes. -/
def namedLease (s : State) (lender : Bool) : Lease :=
  { num := (Config.leaseNum (leaseWords s)).toNat, dev := (Config.leaseDev (leaseWords s)).toNat, ctx := Config.leaseCtx (leaseWords s), state := 0
    lender := lender, base := Config.leaseBase (leaseWords s), size := Config.leaseSize (leaseWords s), deadline := 0, watch := none }

theorem leaseCommand_eq {s : State} {op : Nat} {f : State → List DWord → Option State} (h : commandRuns s 8) (ho : leaseOp s = op) (h3 : op ≠ 3) :
    leaseCommand op f s = .next (match f s (leaseWords s) with
      | some t => commandDone t true
      | none => commandDone s false) := by
  have hop : recField (cmdArgs s) 0 0 2 = op := (recField_low _ 0 2).trans ho
  have hcmd : leaseCommand op f s = command 8 (fun s => f s (leaseWords s)) s := by
    rw [leaseCommand, hop, if_neg h3, if_neg (not_not_intro rfl)]
    rfl
  rw [hcmd]
  cases hf : f s (leaseWords s) with
  | none => exact command_fails h hf
  | some t => exact command_done h hf

theorem exec_cmdLeaseGrant {s : State} (h : commandRuns s 8) (ho : leaseOp s = 0) :
    exec .cmdLeaseGrant s = .next (
      if inDomain s (namedLease s true).dev = true ∧ (namedLease s true).base % 65536 = 0 ∧ (namedLease s true).size % 65536 = 0 ∧ (namedLease s true).size ≠ 0
          ∧ (namedLease s true).base + (namedLease s true).size ≤ 0xC000000000 ∧ lease? s true (namedLease s true).dev (namedLease s true).num = none
        then commandDone { s with leases := s.leases ++ [namedLease s true] } true
        else commandDone s false) := by
  show execCmdLeaseGrant s = _
  rw [execCmdLeaseGrant, leaseCommand_eq h ho (by decide)]
  congr 1
  show (match (if inDomain s (namedLease s true).dev = true ∧ (namedLease s true).base % 65536 = 0 ∧ (namedLease s true).size % 65536 = 0
      ∧ (namedLease s true).size ≠ 0 ∧ (namedLease s true).base + (namedLease s true).size ≤ 0xC000000000
      ∧ (lease? s true (namedLease s true).dev (namedLease s true).num).isNone = true then some _ else none) with
    | some t => commandDone t true
    | none => commandDone s false) = _
  by_cases hc : inDomain s (namedLease s true).dev = true ∧ (namedLease s true).base % 65536 = 0 ∧ (namedLease s true).size % 65536 = 0
      ∧ (namedLease s true).size ≠ 0 ∧ (namedLease s true).base + (namedLease s true).size ≤ 0xC000000000
      ∧ lease? s true (namedLease s true).dev (namedLease s true).num = none
  · rw [if_pos hc]
    rw [← Option.isNone_iff_eq_none] at hc
    rw [if_pos hc]
    rfl
  · rw [if_neg hc]
    rw [← Option.isNone_iff_eq_none] at hc
    rw [if_neg hc]

theorem exec_cmdLeaseRevoke {s : State} (h : commandRuns s 8) (ho : leaseOp s = 1) :
    exec .cmdLeaseRevoke s = .next (
      if (lease? s true (namedLease s true).dev (namedLease s true).num).any (fun l => l.state == 0) = true ∧ 10000000 ≤ Config.leaseNotice (leaseWords s)
        then commandDone (modifyLease s true (namedLease s true).dev (namedLease s true).num fun l =>
          { l with state := 1, deadline := s.clock + Config.leaseNotice (leaseWords s) }) true
        else commandDone s false) := by
  show execCmdLeaseRevoke s = _
  rw [execCmdLeaseRevoke, leaseCommand_eq h ho (by decide)]
  congr 1
  show (match (match lease? s true (namedLease s true).dev (namedLease s true).num with
    | none => none
    | some l => if Config.leaseNotice (leaseWords s) < leastNotice ∨ l.state ≠ 0 then none else some _) with
    | some t => commandDone t true
    | none => commandDone s false) = _
  cases lease? s true (namedLease s true).dev (namedLease s true).num with
  | none => rfl
  | some l =>
    dsimp only
    by_cases hc : Config.leaseNotice (leaseWords s) < leastNotice ∨ l.state ≠ 0
    · rw [if_pos hc, if_neg]
      rintro ⟨hs, hn⟩
      exact hc.elim (Nat.not_lt.mpr hn) fun hk => hk (by simpa using hs)
    · rw [if_neg hc]
      rw [not_or, Nat.not_lt, not_not] at hc
      rw [if_pos ⟨by simpa using hc.2, hc.1⟩]
      rfl

theorem exec_cmdLeaseRegister {s : State} (h : commandRuns s 8) (ho : leaseOp s = 2) :
    exec .cmdLeaseRegister s = .next (
      if (lease? s false (namedLease s false).dev (namedLease s false).num).all (fun l => 2 ≤ l.state) = true
          ∧ (created? s (namedLease s false).ctx).isSome = true ∧ inDomain s (namedLease s false).dev = true
        then commandDone { s with leases := (s.leases.filter fun o => !(!o.lender && o.dev == (namedLease s false).dev && o.num == (namedLease s false).num))
          ++ [namedLease s false] } true
        else commandDone s false) := by
  have hlive : (match lease? s false (namedLease s false).dev (namedLease s false).num with
      | some o => decide (o.state < 2)
      | none => false) = !(lease? s false (namedLease s false).dev (namedLease s false).num).all (fun l => 2 ≤ l.state) := by
    cases lease? s false (namedLease s false).dev (namedLease s false).num with
    | none => rfl
    | some o =>
      show decide (o.state < 2) = !decide (2 ≤ o.state)
      rw [← decide_not]
      exact decide_eq_decide.mpr Nat.not_le.symm
  show execCmdLeaseRegister s = _
  rw [execCmdLeaseRegister, leaseCommand_eq h ho (by decide)]
  congr 1
  show (match (if ((match lease? s false (namedLease s false).dev (namedLease s false).num with
      | some o => decide (o.state < 2)
      | none => false) || (created? s (namedLease s false).ctx).isNone || !inDomain s (namedLease s false).dev) = true then none else some _) with
    | some t => commandDone t true
    | none => commandDone s false) = _
  rw [hlive]
  by_cases hc : (lease? s false (namedLease s false).dev (namedLease s false).num).all (fun l => 2 ≤ l.state) = true
      ∧ (created? s (namedLease s false).ctx).isSome = true ∧ inDomain s (namedLease s false).dev = true
  · rw [if_pos hc, hc.1, hc.2.2, Option.isNone_eq_false_iff.mpr hc.2.1, if_neg (by decide)]
    rfl
  · rw [if_neg hc, if_pos]
    rw [Bool.or_eq_true, Bool.or_eq_true, Bool.not_eq_true', Bool.not_eq_true', ← Bool.not_eq_true, ← Bool.not_eq_true, ← Option.not_isSome, Bool.not_eq_true',
      ← Bool.not_eq_true]
    tauto

end Sys2Proof.Machine

open Sys2Proof Sys2Proof.Machine

/-- Settles O32: the checks of each command pass or one of them fails. -/
theorem commandsOnDomainsAndLeases : Obligations.CommandsOnDomainsAndLeases := by
  unfold Obligations.CommandsOnDomainsAndLeases
  intro s x w fails own f dev num lease op
  refine ⟨fun h hc => exec_domain_fails h hc x, fun c h hc hd hx hr hco => ?_, fun h ho => exec_cmdLeaseGrant h ho, fun h ho => exec_cmdLeaseRevoke h ho,
    fun h ho => exec_cmdLeaseRegister h ho⟩
  rw [exec_domain_done h hc hd hx hr hco, newDomain, recField_low, recField_low]
end

section
/-! PROOFS. The host's accesses and register writes: regWrite32 by the block of its offset, and each block's registers. -/
namespace Sys2Proof.Machine
open Sys2Proof.Laws

/-! ## Words of a register -/

theorem joinWords_eq_append (lo hi : Word) : joinWords lo hi = (hi ++ lo : DWord) := by
  apply BitVec.eq_of_toNat_eq
  have hlo := lo.isLt
  have hhi := hi.isLt
  rw [joinWords, BitVec.toNat_ofNat, BitVec.toNat_append, Nat.shiftLeft_eq, Nat.mul_comm _ (2 ^ 32), ← Nat.two_pow_add_eq_or_of_lt lo.isLt]
  omega

/-- A half of a register that is written, as the words of the claims. -/
theorem setHalf_low (b : DWord) (v : Word) : setHalf b false v = (hiWord b ++ v : DWord) := joinWords_eq_append v (hiWord b)

theorem setHalf_high (b : DWord) (v : Word) : setHalf b true v = (v ++ loWord b : DWord) := joinWords_eq_append (loWord b) v

theorem bitsOf_size (v : Word) : bitsOf v.toNat 16 5 = v.toNat / 2 ^ 16 % 2 ^ 5 := rfl

theorem wordIn_leBytes_four (v : Word) : wordIn (leBytes 4 v.toNat) 0 = v := by
  have hl : (leBytes 4 v.toNat).take 4 = leBytes 4 v.toNat := List.take_of_length_le (Nat.le_of_eq (leBytes_length 4 _))
  rw [wordIn, List.drop_zero, hl, ofLe_leBytes, show v.toNat % 256 ^ 4 = v.toNat from Nat.mod_eq_of_lt v.isLt, BitVec.ofNat_toNat, BitVec.setWidth_eq]

theorem leBytes_four_loWord (v : DWord) : leBytes 4 v.toNat = leBytes 4 (loWord v).toNat := by
  rw [loWord, BitVec.toNat_ofNat, ← leBytes_mod 4 v.toNat]
  rfl

theorem wordIn_append_low {a b : List Byte} (h : a.length = 4) : wordIn (a ++ b) 0 = wordIn a 0 := by
  rw [wordIn, wordIn, List.drop_zero, List.drop_zero, List.take_append_of_le_length (Nat.le_of_eq h.symm)]

theorem wordIn_append_high {a b : List Byte} (h : a.length = 4) : wordIn (a ++ b) 4 = wordIn b 0 := by
  rw [wordIn, wordIn, List.drop_zero, List.drop_left' h]

/-- R370: a write of 4 bytes of register space, and one of 8 as the lower word and then the higher. -/
theorem exec_registerWrite (s : State) (off : BitVec 24) (val : DWord) :
    exec (.registerWrite off false val) s = .next (regWrite32 s off.toNat (loWord val))
    ∧ exec (.registerWrite off true val) s = .next (regWrite32 (regWrite32 s off.toNat (loWord val)) (off.toNat + 4) (hiWord val)) := by
  have h4 (v : Word) : (leBytes 4 v.toNat).length = 4 := leBytes_length 4 _
  constructor
  · show Host.Outcome.next (regWrite s off.toNat (leBytes 4 val.toNat)) = _
    rw [leBytes_four_loWord, regWrite, wordIn_leBytes_four, h4, if_neg (by decide)]
  · show Host.Outcome.next (regWrite s off.toNat (leBytes 8 val.toNat)) = _
    rw [leBytes_eight, regWrite, wordIn_append_low (h4 _), wordIn_append_high (h4 _), wordIn_leBytes_four, wordIn_leBytes_four,
      if_pos (by rw [List.length_append, h4, h4])]

/-! ## The blocks of register space -/

/-- A register write by the block of its offset, an offset of a whole word. -/
theorem regWrite32_identity (s : State) {off : Nat} (v : Word) (h4 : off / 4 * 4 = off) (h : off < 0x10000) :
    regWrite32 s off v = identityWrite s off v := by
  simp only [regWrite32, h4, if_pos h]

theorem regWrite32_inlet {s : State} {j r : Nat} (v : Word) (hs : s.regs.boot = .ready) (hj : j < 64) (hr : r < 8) :
    regWrite32 s (0x10000 + 32 * j + 4 * r) v = { s with inlets := modifyAt (fun n => inletWrite n (4 * r) v) s.inlets j } := by
  have h4 : (0x10000 + 32 * j + 4 * r) / 4 * 4 = 0x10000 + 32 * j + 4 * r := by omega
  have hm : (0x10000 + 32 * j + 4 * r) % 32 = 4 * r := by omega
  have hd : (0x10000 + 32 * j + 4 * r - 0x10000) / 32 = j := by omega
  simp only [regWrite32, h4, hm, hd]
  rw [if_neg (by omega), if_neg (not_not_intro hs), if_pos (by omega)]

theorem regWrite32_records {s : State} {r : Nat} (v : Word) (hs : s.regs.boot = .ready) (hr : r < 6) :
    regWrite32 s (0x30000 + 4 * r) v = { s with records := recordWrite s.records (4 * r) v } := by
  have h4 : (0x30000 + 4 * r) / 4 * 4 = 0x30000 + 4 * r := by omega
  have hd : 0x30000 + 4 * r - 0x30000 = 4 * r := by omega
  simp only [regWrite32, h4, hd]
  rw [if_neg (by omega), if_neg (not_not_intro hs), if_neg (by omega), if_neg (by omega), if_neg (by omega), if_pos (by omega)]

theorem regWrite32_cmd {s : State} (v : Word) (hs : s.regs.boot = .ready) : regWrite32 s 0x20008 v = cmdWrite s v := by
  simp [regWrite32, hs]

/-- R399: until READY only the block at offset 0 answers. -/
theorem regWrite32_not_ready {s : State} {off : Nat} (v : Word) (hs : s.regs.boot ≠ .ready) (h : 0x10000 ≤ off) : regWrite32 s off v = s := by
  simp only [regWrite32]
  rw [if_neg (by omega), if_pos hs]

/-! ## The block at offset 0 -/

theorem identityWrite_bootCfg {s : State} (v : Word) (hu : s.regs.unrestored = false) :
    identityWrite s 0x10 v = if s.regs.boot = .config then { s with regs := { s.regs with bootCfg := v } } else s := by
  simp [identityWrite, hu]

theorem identityWrite_bootCtl {s : State} (v : Word) (hu : s.regs.unrestored = false) :
    identityWrite s 0x14 v = if bitOf v.toNat 0 then bootStart s else s := by
  simp [identityWrite, hu]

theorem identityWrite_window {s : State} {off : Nat} (v : Word) (hu : s.regs.unrestored = false) (hw : windowOpen s.regs = false)
    (h : off ∈ [0x20, 0x24, 0x28, 0x2C]) : identityWrite s off v = s := by
  simp only [List.mem_cons, List.not_mem_nil, or_false] at h
  rcases h with rfl | rfl | rfl | rfl <;> simp [identityWrite, hu, hw]

theorem identityWrite_attCtl {s : State} (v : Word) (hu : s.regs.unrestored = false) :
    identityWrite s 0x40 v = if bitOf v.toNat 0 then attRequest s else s := by
  simp [identityWrite, hu]

theorem identityWrite_readOnly {s : State} {off : Nat} (v : Word) (hu : s.regs.unrestored = false)
    (h : off ∈ [0x00, 0x08, 0x0C, 0x18, 0x80, 0x84, 0x104, 0x10C, 0x200, 0x2C0, 0x2D8, 0x2DC, 0x2E0, 0x2E4, 0x400]) :
    identityWrite s off v = s := by
  simp only [List.mem_cons, List.not_mem_nil, or_false] at h
  rcases h with rfl | rfl | rfl | rfl | rfl | rfl | rfl | rfl | rfl | rfl | rfl | rfl | rfl | rfl | rfl <;> simp [identityWrite, hu]

/-- R397: register r of an island. -/
theorem identityWrite_island {s : State} {j r : Nat} (v : Word) (hu : s.regs.unrestored = false) (hj : j < 128) (hr : r < 4) :
    identityWrite s (0x1000 + 16 * j + 4 * r) v
      = { s with regs := { s.regs with islands := modifyAt (fun i => islandWrite i r v) s.regs.islands j } } := by
  have hm : (0x1000 + 16 * j + 4 * r) / 4 % 4 = r := by omega
  have hd : (0x1000 + 16 * j + 4 * r - 0x1000) / 16 = j := by omega
  simp only [identityWrite, hm, hd]
  rw [if_neg (by omega), if_neg (by simp [hu]), if_neg (by omega), if_neg (by omega), if_neg (by omega), if_neg (by omega),
    if_neg (by omega), if_neg (by omega), if_neg (by omega), if_neg (by omega), if_neg (by omega), if_neg (by omega), if_pos (by omega)]

/-! ## Inlets, records and commands -/

theorem inletBusy_iff (n : Inlet) : inletBusy n = true ↔ n.en = true ∧ n.head ≠ n.tail ∧ n.error = false := by
  simp [inletBusy, and_assoc]

/-- R372: an inlet that still has blocks to take ends in ERROR. -/
theorem inletBusy_writes {n : Inlet} (h : inletBusy n = true) (v : Word) (high : Bool) :
    ibaseWritten n high v = { n with error := true } ∧ ictlWritten n v = { n with error := true } := by
  simp [ibaseWritten, ictlWritten, h]

theorem inletFree_writes {n : Inlet} (h : ¬ inletBusy n = true) (v : Word) (high : Bool) :
    ibaseWritten n high v = { n with base := setHalf n.base high v }
    ∧ ictlWritten n v = { n with en := v.getLsbD 31, log2n := v.toNat / 2 ^ 16 % 2 ^ 5, error := n.error && v.getLsbD 31 } := by
  simp only [ibaseWritten, ictlWritten, if_neg h, bitOf_toNat, bitsOf_size, and_self]

theorem rqctlWritten_eq (r : Records) (v : Word) : rqctlWritten r v = { r with
    log2n := if r.log2n = 0 then (if 4 ≤ v.toNat / 2 ^ 16 % 2 ^ 5 ∧ v.toNat / 2 ^ 16 % 2 ^ 5 ≤ 16 then v.toNat / 2 ^ 16 % 2 ^ 5 else 0)
      else if v.toNat / 2 ^ 16 % 2 ^ 5 = 0 then 0 else r.log2n } := by
  simp only [rqctlWritten, bitsOf_size]
  split
  · rfl
  · split <;> simp_all

theorem recordWrite_rqctl (r : Records) (v : Word) : recordWrite r (4 * 2) v = rqctlWritten r v := rfl

theorem islandWrite_readOnly (i : Island) (v : Word) : islandWrite i 0 v = i ∧ islandWrite i 1 v = i := ⟨rfl, rfl⟩

theorem inletEvent_eq {s : State} {k : BitVec 6} {n : Inlet} (hs : s.regs.boot = .ready) (hn : s.inlets[k.toNat]? = some n) (f : Inlet → Inlet) :
    inletEvent s k f = .next { s with inlets := s.inlets.set k.toNat (f n) } := by
  rw [inletEvent, if_neg (not_not_intro hs), modifyAt_eq_set f _ _ _ hn]

/-- R377: a write of CMD, by the state of the last command and the code. -/
theorem cmdWrite_cases (s : State) (v : Word) :
    (s.regs.cmdState = 1 → cmdWrite s v = s)
    ∧ (s.regs.cmdState ≠ 1 → 1 ≤ v.toNat % 256 → v.toNat % 256 ≤ 9 → cmdWrite s v = { s with regs := { s.regs with
        cmdCode := v.setWidth 8, cmdState := 1, cmdWords := dwordsOf 8 (s.hbm.read s.regs.cmdArg.toNat 64) } })
    ∧ (s.regs.cmdState ≠ 1 → v.toNat % 256 = 0 ∨ 9 < v.toNat % 256 →
        cmdWrite s v = { s with regs := { s.regs with cmdCode := v.setWidth 8, cmdState := 2 }, msix := s.msix ++ [2] }) := by
  have hcode : BitVec.ofNat 8 (v.toNat % 256) = v.setWidth 8 := BitVec.eq_of_toNat_eq (by simp)
  refine ⟨fun h => ?_, fun h h1 h9 => ?_, fun h hx => ?_⟩ <;> simp only [cmdWrite, hcode]
  · rw [if_pos h]
  · rw [if_neg h, if_pos ⟨h1, h9⟩]
  · rw [if_neg h, if_neg (by omega)]
    rfl

/-! ## The claims -/

/-- R371, R397: the registers of an inlet, as a write of each leaves it. -/
theorem inlet_register_writes {s : State} {j : Nat} {n : Inlet} (v : Word) (hs : s.regs.boot = .ready) (hj : j < 64) (hn : s.inlets[j]? = some n)
    {r : Nat} (hr : r < 8) : regWrite32 s (0x10000 + 32 * j + 4 * r) v = { s with inlets := s.inlets.set j (inletWrite n (4 * r) v) } := by
  rw [regWrite32_inlet v hs hj hr, modifyAt_eq_set _ _ _ _ hn]

theorem island_register_writes {s : State} {j : Nat} {i : Island} (v : Word) (hu : s.regs.unrestored = false) (hj : j < 128)
    (hi : s.regs.islands[j]? = some i) {r : Nat} (hr : r < 4) : regWrite32 s (0x1000 + 16 * j + 4 * r) v
      = { s with regs := { s.regs with islands := s.regs.islands.set j (islandWrite i r v) } } := by
  rw [regWrite32_identity s v (by omega) (by omega), identityWrite_island v hu hj hr, modifyAt_eq_set _ _ _ _ hi]

theorem set_getElem?_self {α : Type} {l : List α} {j : Nat} {a : α} (h : l[j]? = some a) : l.set j a = l := by
  obtain ⟨hj, rfl⟩ := List.getElem?_eq_some_iff.mp h
  exact List.set_getElem_self hj

theorem registerWritesHaveTheirEffect : Claim.RegisterWritesHaveTheirEffect := by
  intro s v j n keeps
  have word (off : Nat) (h4 : off / 4 * 4 = off) (h : off < 0x10000) : regWrite32 s off v = identityWrite s off v := regWrite32_identity s v h4 h
  refine ⟨fun hu => ?_, ?_, fun hb hu => ?_, fun hb hu => ?_, fun hb hv hu => ?_, fun hb hu => ?_, fun hb off hoff hu => ?_, fun hu => ?_,
    fun hu hv => ?_, fun hv hu => ?_, fun i hj hi => ?_, fun h70 h105 hu => ?_, fun hv hu => ?_, fun off hoff hu => ?_, fun hb hj hn => ?_,
    fun hb => ?_, fun hb => ?_, fun hb off hoff => regWrite32_not_ready v hb hoff⟩
  · have hclear : BitVec.ofNat 8 v.toNat = v.setWidth 8 := BitVec.eq_of_toNat_eq (by simp)
    rw [word _ rfl (by decide)]
    simp [identityWrite, hu, hclear]
  · rw [word _ rfl (by decide)]
    exact rstCtl_eq s v
  · rw [word _ rfl (by decide), identityWrite_bootCfg v hu, if_neg hb]
  · rw [word _ rfl (by decide), identityWrite_bootCfg v hu, if_pos hb]
  · rw [word _ rfl (by decide), identityWrite_bootCtl v hu, bitOf_toNat, if_pos hv, bootStart_eq hb]
  · rw [word _ rfl (by decide), identityWrite_bootCtl v hu, bitOf_toNat, bootStart]
    rcases hb with hb | hb
    · rw [if_pos hb, ite_self]
    · rw [if_neg (Bool.eq_false_iff.mp hb)]
  · have hw : windowOpen s.regs = false := by rcases hb with hb | hb <;> simp [windowOpen, hb]
    have hbound : off / 4 * 4 = off ∧ off < 0x10000 := by
      simp only [List.mem_cons, List.not_mem_nil, or_false] at hoff
      omega
    rw [word _ hbound.1 hbound.2, identityWrite_window v hu hw hoff]
  · rw [word _ rfl (by decide)]
    simp only [identityWrite, hu]
    rfl
  · rw [word _ rfl (by decide), identityWrite_attCtl v hu, bitOf_toNat, if_pos hv]
    exact exec_attctlRequest hv s
  · rw [word _ rfl (by decide), identityWrite_attCtl v hu, bitOf_toNat, if_neg (Bool.eq_false_iff.mp hv)]
  · have at_ {r : Nat} (hr : r < 4) (hu : s.regs.unrestored = false) := island_register_writes v hu hj hi hr
    refine ⟨fun hu => ?_, fun hu => at_ (r := 3) (by decide) hu, fun hu => ?_, fun hu => ?_⟩
    · refine (at_ (r := 2) (by decide) hu).trans ?_
      simp only [islandWrite, bitOf_toNat]
    · exact (at_ (r := 0) (by decide) hu).trans (by rw [(islandWrite_readOnly i v).1, set_getElem?_self hi])
    · exact (at_ (r := 1) (by decide) hu).trans (by rw [(islandWrite_readOnly i v).2, set_getElem?_self hi])
  · have hset : BitVec.ofNat 8 v.toNat = v.setWidth 8 := BitVec.eq_of_toNat_eq (by simp)
    rw [word _ rfl (by decide)]
    simp [identityWrite, hu, h70, h105, hset]
  · have hout : ¬ (70 ≤ v.toNat % 256 ∧ v.toNat % 256 ≤ 105) := by omega
    rw [word _ rfl (by decide)]
    simp only [identityWrite, hu, if_neg hout]
    rfl
  · have hbound : off / 4 * 4 = off ∧ off < 0x10000 := by
      simp only [List.mem_cons, List.not_mem_nil, or_false] at hoff
      omega
    rw [word _ hbound.1 hbound.2, identityWrite_readOnly v hu hoff]
  · intro at_ busy
    have write {r : Nat} (hr : r < 8) := inlet_register_writes v hb hj hn hr
    refine ⟨fun h => ?_, fun h => ?_, write (r := 3) (by decide), (write (r := 4) (by decide)), (write (r := 5) (by decide)),
      (write (r := 6) (by decide))⟩
    · have h' := inletBusy_writes ((inletBusy_iff n).mpr h) v
      exact ⟨(write (r := 0) (by decide)).trans (by rw [← (h' false).1]; rfl), (write (r := 1) (by decide)).trans (by rw [← (h' true).1]; rfl),
        (write (r := 2) (by decide)).trans (by rw [← (h' true).2]; rfl)⟩
    · have h' := inletFree_writes (fun x => h ((inletBusy_iff n).mp x)) v
      exact ⟨(write (r := 0) (by decide)).trans (by rw [← setHalf_low, ← (h' false).1]; rfl),
        (write (r := 1) (by decide)).trans (by rw [← setHalf_high, ← (h' true).1]; rfl),
        (write (r := 2) (by decide)).trans (by rw [← (h' true).2]; rfl)⟩
  · intro q l
    have write {r : Nat} (hr : r < 6) := regWrite32_records v hb hr
    refine ⟨fun h0 => ⟨?_, ?_, ?_⟩, fun h0 => ⟨?_, ?_, ?_⟩, write (r := 3) (by decide), write (r := 4) (by decide), write (r := 5) (by decide)⟩
    · exact (write (r := 0) (by decide)).trans (by simp only [recordWrite, if_pos h0, setHalf_low])
    · exact (write (r := 1) (by decide)).trans (by simp [recordWrite, if_pos h0, setHalf_high])
    · exact (write (r := 2) (by decide)).trans (by rw [recordWrite_rqctl, rqctlWritten_eq, if_pos h0])
    · exact (write (r := 0) (by decide)).trans (by simp only [recordWrite, if_neg h0])
    · exact (write (r := 1) (by decide)).trans (by simp [recordWrite, if_neg h0])
    · exact (write (r := 2) (by decide)).trans (by rw [recordWrite_rqctl, rqctlWritten_eq, if_neg h0])
  · rw [regWrite32_cmd v hb]
    exact cmdWrite_cases s v

end Sys2Proof.Machine
open Sys2Proof Sys2Proof.Machine

/-- Settles O29: each register's write by the block of its offset; the host's own events are the same writes, and a window access is a write of
HBM performed at once. -/
theorem hostAccessesReachTheDevice : Obligations.HostAccessesReachTheDevice := by
  refine ⟨registerWritesHaveTheirEffect, fun s pa data off val k n v b hs => ⟨fun hlo hhi => ?_, (exec_registerWrite s off val).1,
    (exec_registerWrite s off val).2, fun hn => ?_, ?_, ?_⟩⟩
  · show (if s.regs.boot ≠ .ready ∨ pa < s.regs.winBase.toNat ∨ s.regs.winBase.toNat + s.regs.winSize.toNat < pa + data.length then stutter s
      else .next (newWrite s pa data)) = _
    rw [if_neg (by rintro (h | h | h); exacts [h hs, by omega, by omega])]
    rfl
  · have event (f : Inlet → Inlet) := inletEvent_eq (k := k) hs hn f
    refine ⟨event _, fun h => ?_, fun h => ?_⟩
    · have hbusy := (inletBusy_iff n).mpr h
      exact ⟨(event _).trans (by rw [(inletBusy_writes hbusy v true).2]), (event _).trans (by rw [if_pos hbusy])⟩
    · have hfree : ¬ inletBusy n = true := fun x => h ((inletBusy_iff n).mp x)
      exact ⟨(event _).trans (by rw [(inletFree_writes hfree v true).2]), (event _).trans (by rw [if_neg hfree])⟩
  · show (if s.regs.boot ≠ .ready then stutter s else _) = _
    rw [if_neg (not_not_intro hs)]
  · intro l
    show (if s.regs.boot ≠ .ready then stutter s else .next { s with records := rqctlWritten s.records v }) = _
    rw [if_neg (not_not_intro hs), rqctlWritten_eq]

end

section
/-! PROOFS. Tiles and accumulators: register operations, loads and stores (R261 to R273, R278). -/
namespace Sys2Proof.Machine
open Sys2Proof.Laws

/-! ## Positions of a tile -/

theorem mem_tilePoints {p : Nat × Nat} : p ∈ tilePoints ↔ p.1 < 16 ∧ p.2 < 16 := by
  obtain ⟨i, j⟩ := p
  simp [tilePoints]

theorem tilePoints_getElem? {i j : Nat} (hi : i < 16) (hj : j < 16) : tilePoints[i * 16 + j]? = some (i, j) := by
  have h : ∀ i < 16, ∀ j < 16, tilePoints[i * 16 + j]? = some (i, j) := by decide
  exact h i hi j hj

theorem formatBits_idem (fmt v : Nat) : formatBits fmt (formatBits fmt v) = formatBits fmt v := by
  unfold formatBits
  split
  · exact Nat.mod_mod _ _
  · rfl

theorem formatBits_le (fmt v : Nat) : formatBits fmt v ≤ v := by
  unfold formatBits
  split
  · exact Nat.mod_le _ _
  · exact Nat.le_refl _

theorem formatBits_dword_lt (fmt : Nat) (v : DWord) : formatBits fmt v.toNat < 2 ^ 64 := Nat.lt_of_le_of_lt (formatBits_le fmt _) v.isLt

/-- An element of a tile as its registers hold it. -/
theorem tileOf_at (g : Group) (r : Nat) {i j : Nat} (hi : i < 16) (hj : j < 16) : (tileOf g r).at i j = (tileElem g r (g.tfmtOf r) i j).toNat := by
  simp only [tileOf, TileVal.at, List.getD_eq_getElem?_getD, List.getElem?_map, tilePoints_getElem? hi hj, Option.map_some, Option.getD_some]
  rfl

theorem tileRegs_pos (fmt : Nat) : 0 < tileRegs fmt := by
  unfold tileRegs
  split
  · decide
  · split <;> decide

/-- Two positions of a tile with one key are one position. -/
theorem tileKey_inj (r fmt : Nat) {i j a b : Nat} (hi : i < 16) (hj : j < 16) (ha : a < 16) (hb : b < 16) (h : tileKey r fmt i j = tileKey r fmt a b) :
    (i, j) = (a, b) := by
  have hrows : rowsPerReg fmt = 16 ∨ rowsPerReg fmt = 8 ∨ rowsPerReg fmt = 4 := by
    unfold rowsPerReg tileRegs
    split
    · exact .inr (.inl rfl)
    · split
      · exact .inr (.inr rfl)
      · exact .inl rfl
  unfold tileKey at h
  rw [Prod.mk.injEq]
  rcases hrows with hr | hr | hr <;> rw [hr] at h <;> omega

/-! ## The checks of a tile that pass -/

theorem tileFault_of_fits {x : Issue} {r fmt : Nat} (h : tileFits x r fmt) (w : Word) (lo : Nat) :
    tileFault x.g w lo r fmt = none ∧ tileAlign w lo r fmt = none ∧ tPending x.g r (tileRegs fmt) = false := by
  obtain ⟨hbud, halign, hpend⟩ := h
  have ha : tileAlign w lo r fmt = none := if_neg (not_not_intro halign)
  exact ⟨by rw [tileFault, ha, tileBudget, if_neg (Nat.not_lt.mpr hbud)]; rfl, ha, hpend⟩

theorem tileMixed_of_readable {x : Issue} {r : Nat} (h : tileReadable x r) : tileMixed x.g r = none := by
  obtain ⟨-, -, -, hsame⟩ := h
  have hfind : ((List.range (tileRegs (x.g.tfmtOf r))).map (r + ·)).find? (fun k => x.g.tfmtOf k != x.g.tfmtOf r) = none := by
    refine List.find?_eq_none.mpr fun k hk => ?_
    obtain ⟨j, hj, rfl⟩ := List.mem_map.mp hk
    simp [hsame j (List.mem_range.mp hj)]
  simp only [tileMixed, hfind]

theorem untyped_of_readable {x : Issue} {r : Nat} (h : tileReadable x r) : untyped x.g r = none := by
  obtain ⟨hlo, hhi, -⟩ := h
  exact if_neg (by omega)

/-! ## What the register operations leave -/

/-- A value written at the key of each position, where no two positions share a key. -/
theorem written_points {α : Type} {key : Nat × Nat → Nat} (f : Nat × Nat → α) (hinj : ∀ p ∈ tilePoints, ∀ q ∈ tilePoints, key p = key q → p = q)
    {p : Nat × Nat} (hp : p ∈ tilePoints) (old : α) : written (tilePoints.map fun q => (key q, f q)) (key p) old = f p := by
  refine written_of_agree (fun w hw he => ?_) ⟨(key p, f p), List.mem_map.mpr ⟨p, hp, rfl⟩, rfl⟩ old
  obtain ⟨q, hq, rfl⟩ := List.mem_map.mp hw
  rw [hinj q hq p hp he]

/-- A key of no position keeps its value. -/
theorem written_no_point {α : Type} {key : Nat × Nat → Nat} (f : Nat × Nat → α) {k : Nat} (h : ∀ p ∈ tilePoints, key p ≠ k) (old : α) :
    written (tilePoints.map fun q => (key q, f q)) k old = old := by
  refine written_of_forall_ne (fun w hw => ?_) old
  obtain ⟨q, hq, rfl⟩ := List.mem_map.mp hw
  exact h q hq

theorem canonical_maps {g : Group} (h : g.canonical = true) : swf 0 g.v = true ∧ swf 0 g.sreg = true ∧ swf 0 g.tile = true ∧ swf 0 g.tfmt = true
    ∧ swf 0x7F g.rscale = true ∧ swf 0 g.rspec = true ∧ swf 0 g.acc = true ∧ swf 0 g.atag = true ∧ swf 0 g.astep = true := by
  simp only [Group.canonical, Bool.and_eq_true, and_assoc] at h
  exact h

theorem putTile_frame (g : Group) (t : TileLoad) (elems : List (Nat × DWord)) : putTile g t elems = { g with
    tile := (putTile g t elems).tile, tfmt := (putTile g t elems).tfmt, rscale := (putTile g t elems).rscale, rspec := (putTile g t elems).rspec } := rfl

theorem copyAcc_frame (g : Group) (dst src : Nat) : copyAcc g dst src = { g with
    acc := (copyAcc g dst src).acc, atag := (copyAcc g dst src).atag, astep := (copyAcc g dst src).astep } := by
  dsimp only [copyAcc]

/-- A load of a tile into a group: its elements, formats, scales and special bytes. -/
theorem deliverLoad_tileLoad {g : Group} (hc : g.canonical = true) (r fmt : Nat) (hfmt : fmt < 256) (c p : Byte) (f : Nat × Nat → DWord) :
    let l := { tileLoad r fmt (List.replicate 16 c) (List.replicate 16 p) [] with elems := tilePoints.map fun q => (tileKey r fmt q.1 q.2, f q) }
    let g' := deliverLoad g l
    (∀ i < 16, ∀ j < 16, sget 0 g'.tile (tileKey r fmt i j) = f (i, j))
      ∧ (∀ k < tileRegs fmt, g'.tfmtOf (r + k) = fmt)
      ∧ (∀ i < 16, g'.rscaleOf r i = c ∧ g'.rspecOf r i = p)
      ∧ g' = { g with tile := g'.tile, tfmt := g'.tfmt, rscale := g'.rscale, rspec := g'.rspec } := by
  intro l g'
  have hput : g' = putTile g { reg := r, count := tileRegs fmt, fmt := BitVec.ofNat 8 fmt, scale := List.replicate 16 c, spec := List.replicate 16 p }
      l.elems := deliverLoad_tile g (l := l) rfl
  clear_value g'
  subst hput
  obtain ⟨-, -, ht, hf, hs, hp, -⟩ := canonical_maps hc
  obtain ⟨h1, h2, h3⟩ := putTile_spec ht hf hs hp { reg := r, count := tileRegs fmt, fmt := BitVec.ofNat 8 fmt, scale := List.replicate 16 c, spec := List.replicate 16 p } List.length_replicate List.length_replicate l.elems
  have hpos := tileRegs_pos fmt
  have hinj : ∀ p ∈ tilePoints, ∀ q ∈ tilePoints, tileKey r fmt p.1 p.2 = tileKey r fmt q.1 q.2 → p = q := fun p hp q hq =>
    tileKey_inj r fmt (mem_tilePoints.mp hp).1 (mem_tilePoints.mp hp).2 (mem_tilePoints.mp hq).1 (mem_tilePoints.mp hq).2
  refine ⟨fun i hi j hj => (h1 _).trans (written_points (key := fun q => tileKey r fmt q.1 q.2) f hinj (p := (i, j)) (mem_tilePoints.mpr ⟨hi, hj⟩) _),
    fun k hk => ?_, fun i hi => ⟨((h3 _).1).trans ?_, ((h3 _).2).trans ?_⟩, putTile_frame g _ _⟩
  · refine (congrArg BitVec.toNat ((h2 (r + k)).trans (if_pos ⟨Nat.le_add_right _ _, Nat.add_lt_add_left hk _⟩))).trans ?_
    exact Nat.mod_eq_of_lt hfmt
  · rw [show (r * 16 + i) / 16 = r by omega, if_pos ⟨Nat.le_refl _, Nat.lt_add_of_pos_right hpos⟩]
    exact List.getD_replicate _ (Nat.mod_lt _ (by decide))
  · rw [show (r * 16 + i) / 16 = r by omega, if_pos ⟨Nat.le_refl _, Nat.lt_add_of_pos_right hpos⟩]
    exact List.getD_replicate _ (Nat.mod_lt _ (by decide))

/-- A tile of a format whose every element is 0. -/
theorem blankTile_eq (g : Group) (r fmt : Nat) : blankTile g r fmt = deliverLoad g
    { tileLoad r fmt (List.replicate 16 0x7F) (List.replicate 16 0) [] with elems := tilePoints.map fun q => (tileKey r fmt q.1 q.2, (fun _ => 0) q) } := rfl

/-- Every write of a load that reads no element is of 0. -/
theorem accLoad_nil_elems (r : Nat) (tag : ATag) : ∀ w ∈ (accLoad r tag []).elems, w.2 = 0 := by
  intro w hw
  obtain ⟨q, -, hq⟩ := List.mem_flatMap.mp hw
  dsimp only [accWords] at hq
  split at hq
  · rcases List.mem_cons.mp hq with rfl | hq
    · rfl
    · obtain rfl := List.mem_singleton.mp hq
      show BitVec.ofNat 64 (0 / 2 ^ 32 % 2 ^ 32) = 0
      decide
  · rcases List.mem_cons.mp hq with rfl | hq
    · rfl
    · cases hq

/-- The element of each of its registers is among the writes of an accumulator load. -/
theorem mem_accLoad_elems (r : Nat) (tag : ATag) (vals : List (Nat × Nat)) {i j k : Nat} (hi : i < 16) (hj : j < 16) (hk : k < tag.regs) :
    ∃ w ∈ (accLoad r tag vals).elems, w.1 = (r + k) * 256 + i * 16 + j := by
  have hq := mem_tilePoints.mpr (⟨hi, hj⟩ : (i, j).1 < 16 ∧ (i, j).2 < 16)
  cases tag with
  | f32 | i32 =>
    obtain rfl : k = 0 := Nat.lt_one_iff.mp hk
    exact ⟨_, List.mem_flatMap.mpr ⟨(i, j), hq, List.mem_cons_self ..⟩, rfl⟩
  | f64 =>
    have hk2 : k = 0 ∨ k = 1 := by
      have : k < 2 := hk
      omega
    rcases hk2 with rfl | rfl
    · exact ⟨_, List.mem_flatMap.mpr ⟨(i, j), hq, List.mem_cons_self ..⟩, rfl⟩
    · exact ⟨_, List.mem_flatMap.mpr ⟨(i, j), hq, List.mem_cons_of_mem _ (List.mem_cons_self ..)⟩, rfl⟩

/-- An accumulator cleared. -/
theorem deliverLoad_clear {g : Group} (hc : g.canonical = true) (r : Nat) (tag : ATag) :
    let g' := deliverLoad g (accLoad r tag [])
    (∀ k < tag.regs, (∀ i < 16, ∀ j < 16, accOf g' (r + k) i j = 0) ∧ sget 0 g'.atag (r + k) = tag.code ∧ sget 0 g'.astep (r + k) = 0)
      ∧ g' = { g with acc := g'.acc, atag := g'.atag, astep := g'.astep } := by
  intro g'
  obtain ⟨-, -, -, -, -, -, ha, ht, hs⟩ := canonical_maps hc
  obtain ⟨h1, h2⟩ := putAcc_spec ha ht hs r tag.code (accLoad r tag []).elems
  refine ⟨fun k hk => ?_, rfl⟩
  have hinto : r + k = r ∨ tag.code = 2 ∧ r + k = r + 1 := by
    cases tag with
    | f32 | i32 => exact .inl (by rw [Nat.lt_one_iff.mp hk]; rfl)
    | f64 =>
      have : k < 2 := hk
      exact (show k = 0 ∨ k = 1 by omega).imp (fun h => by rw [h]; rfl) fun h => ⟨rfl, by rw [h]⟩
  refine ⟨fun i hi j hj => (h1 _).trans ?_, ((h2 _).1).trans (if_pos hinto), ((h2 _).2).trans (if_pos hinto)⟩
  obtain ⟨w, hw, he⟩ := mem_accLoad_elems r tag [] hi hj hk
  refine written_of_agree (fun u hu _ => ?_) ⟨_, List.mem_map.mpr ⟨w, hw, rfl⟩, he⟩ _
  obtain ⟨y, hy, rfl⟩ := List.mem_map.mp hu
  rw [accLoad_nil_elems r tag y hy]
  rfl

theorem copyAcc_acc (g : Group) (dst src r i j : Nat) : accOf (copyAcc g dst src) r i j = sget 0
    (putAll 0 g.acc (tilePoints.map fun q => (dst * 256 + q.1 * 16 + q.2, sget 0 g.acc (src * 256 + q.1 * 16 + q.2)))) (r * 256 + i * 16 + j) := by
  unfold accOf copyAcc
  dsimp only

/-- The copy of an accumulator. -/
theorem copyAcc_spec {g : Group} (hc : g.canonical = true) (dst src : Nat) :
    let g' := copyAcc g dst src
    (∀ i < 16, ∀ j < 16, accOf g' dst i j = accOf g src i j) ∧ sget 0 g'.atag dst = sget 0 g.atag src ∧ sget 0 g'.astep dst = sget 0 g.astep src
      ∧ (∀ r, r ≠ dst → (∀ i < 16, ∀ j < 16, accOf g' r i j = accOf g r i j) ∧ sget 0 g'.atag r = sget 0 g.atag r)
      ∧ g' = { g with acc := g'.acc, atag := g'.atag, astep := g'.astep } := by
  intro g'
  obtain ⟨-, -, -, -, -, -, ha, ht, hs⟩ := canonical_maps hc
  have hacc := (putAll_spec (tilePoints.map fun q => (dst * 256 + q.1 * 16 + q.2, sget 0 g.acc (src * 256 + q.1 * 16 + q.2))) ha).2
  have hkey : ∀ p ∈ tilePoints, ∀ q ∈ tilePoints, dst * 256 + p.1 * 16 + p.2 = dst * 256 + q.1 * 16 + q.2 → p = q := fun p hp q hq he => by
    have hp' := mem_tilePoints.mp hp
    have hq' := mem_tilePoints.mp hq
    exact Prod.ext (by omega) (by omega)
  refine ⟨fun i hi j hj => (copyAcc_acc ..).trans ((hacc _).trans ?_), sget_sput_same _ _ ht, sget_sput_same _ _ hs,
    fun r hr => ⟨fun i hi j hj => (copyAcc_acc ..).trans ((hacc _).trans ?_), sget_sput_other _ _ hr⟩, copyAcc_frame g dst src⟩
  · exact written_points (key := fun q => dst * 256 + q.1 * 16 + q.2) (fun q => sget 0 g.acc (src * 256 + q.1 * 16 + q.2)) hkey (p := (i, j))
      (mem_tilePoints.mpr ⟨hi, hj⟩) _
  · refine written_no_point (key := fun q => dst * 256 + q.1 * 16 + q.2) (fun q => sget 0 g.acc (src * 256 + q.1 * 16 + q.2)) (fun q hq he => ?_) _
    have hq' := mem_tilePoints.mp hq
    exact hr (by omega)

theorem setStep_done {s : State} {x : Issue} {i : Instr} {g : Group} (h : Issues s x i)
    (he : exec i s = .next (finish s x (yieldsOf i x.ext) (.done (s.setGroup g)))) (hu : g.uid = x.g.uid) (ht : g.threads = x.g.threads) :
    ∃ t, exec i s = .next t ∧ SetStep s t x i g :=
  ⟨_, he, finish_done h (hu.trans (group?_uid (currentIssue_some h.current).2.1)) (congrArg List.length ht)⟩

/-- A group whose tiles alone differ has the threads and the number of the other, as one whose accumulators alone differ. -/
theorem tiles_frame {g g' : Group} (h : g' = { g with tile := g'.tile, tfmt := g'.tfmt, rscale := g'.rscale, rspec := g'.rspec }) :
    g'.uid = g.uid ∧ g'.threads = g.threads := by rw [h]; exact ⟨rfl, rfl⟩

theorem accs_frame {g g' : Group} (h : g' = { g with acc := g'.acc, atag := g'.atag, astep := g'.astep }) :
    g'.uid = g.uid ∧ g'.threads = g.threads := by rw [h]; exact ⟨rfl, rfl⟩

/-- The transposed tile as TTRN delivers it. -/
def transposed (g : Group) (ta tb : Nat) : Group :=
  deliverLoad g { tileLoad tb (g.tfmtOf ta) (List.replicate 16 (g.rscaleOf ta 0)) (List.replicate 16 (g.rspecOf ta 0)) [] with
    elems := tilePoints.map fun q => (tileKey tb (g.tfmtOf ta) q.1 q.2, (fun q : Nat × Nat => BitVec.ofNat 64 ((tileOf g ta).at q.2 q.1)) q) }

theorem exec_ttrn {s : State} {x : Issue} {ta tb : TReg} (h : Issues s x (.ttrn ta tb)) (hread : tileReadable x ta.toNat)
    (hfit : tileFits x tb.toNat (x.g.tfmtOf ta.toNat)) (hrows : rowsDiffer (tileOf x.g ta.toNat) = none) :
    exec (.ttrn ta tb) s = .next (finish s x (yieldsOf (.ttrn ta tb) x.ext) (.done (s.setGroup (transposed x.g ta.toNat tb.toNat)))) := by
  obtain ⟨-, ha, hpa⟩ := tileFault_of_fits hread.2.2.1 ((encode (.ttrn ta tb)).getD 0) 18
  obtain ⟨-, hb, hpb⟩ := tileFault_of_fits hfit ((encode (.ttrn ta tb)).getD 0) 14
  show execTtrn ta tb s = _
  unfold execTtrn
  rw [issue_next h]
  dsimp only
  rw [hpa, hpb, Bool.or_false, if_neg Bool.false_ne_true, untyped_of_readable hread, ha, hb, tileMixed_of_readable hread, hrows]
  rfl

theorem exec_tzero {s : State} {x : Issue} {fmt : BitVec 5} {ta : TReg} (h : Issues s x (.tzero fmt ta)) : exec (.tzero fmt ta) s
    = .next (finish s x (yieldsOf (.tzero fmt ta) x.ext) (.done (s.setGroup (blankTile x.g ta.toNat fmt.toNat)))) := by
  show execTzero fmt ta s = _
  rw [execTzero, issue_next h]

theorem exec_azero {s : State} {x : Issue} {tag : ATag} {acc : AReg} (h : Issues s x (.azero tag acc)) (hbusy : accBusy x.g acc.toNat tag.regs = false) :
    exec (.azero tag acc) s
      = .next (finish s x (yieldsOf (.azero tag acc) x.ext) (.done (s.setGroup (deliverLoad x.g (accLoad acc.toNat tag []))))) := by
  show execAzero tag acc s = _
  rw [execAzero, issue_next h]
  rw [hbusy, if_neg Bool.false_ne_true]

theorem exec_amov {s : State} {x : Issue} {acc asrc : AReg} (h : Issues s x (.amov acc asrc)) (hbusy : accBusy x.g acc.toNat 1 = false)
    (hbusy' : accBusy x.g asrc.toNat 1 = false) : exec (.amov acc asrc) s
      = .next (finish s x (yieldsOf (.amov acc asrc) x.ext) (.done (s.setGroup (copyAcc x.g acc.toNat asrc.toNat)))) := by
  show execAmov acc asrc s = _
  rw [execAmov, issue_next h]
  rw [hbusy, hbusy', Bool.or_false, if_neg Bool.false_ne_true]

theorem tileAndAccumulatorRegisters : Claim.TileAndAccumulatorRegisters := by
  intro fmt ta tb tag acc asrc step
  refine ⟨?_, ?_, ?_, ?_⟩
  · rintro s x h ⟨hlo, hhi, hfit⟩
    obtain ⟨h1, h2, h3, h4⟩ := deliverLoad_tileLoad h.tables ta.toNat fmt.toNat (by omega) 0x7F 0 fun _ => 0
    rw [← blankTile_eq] at h1 h2 h3 h4
    obtain ⟨t, ht, hs⟩ := setStep_done h (exec_tzero h) (tiles_frame h4).1 (tiles_frame h4).2
    refine ⟨t, _, ht, hs, fun i hi j hj => ?_, h2, h3, h4⟩
    rw [tileElem, h1 i hi j hj]
    unfold formatBits
    split <;> rfl
  · rintro s x h ⟨hread, hfit, hrows⟩
    obtain ⟨-, hhi, -⟩ := id hread
    obtain ⟨h1, h2, h3, h4⟩ := deliverLoad_tileLoad h.tables tb.toNat (x.g.tfmtOf ta.toNat) (by omega) (x.g.rscaleOf ta.toNat 0)
      (x.g.rspecOf ta.toNat 0) fun q => BitVec.ofNat 64 ((tileOf x.g ta.toNat).at q.2 q.1)
    obtain ⟨t, ht, hs⟩ := setStep_done h (exec_ttrn h hread hfit hrows) (tiles_frame h4).1 (tiles_frame h4).2
    refine ⟨t, _, ht, hs, fun i hi j hj => ?_, h2 0 (tileRegs_pos _), h3, h4⟩
    have hat : (BitVec.ofNat 64 (tileElem x.g ta.toNat (x.g.tfmtOf ta.toNat) j i).toNat).toNat
        = formatBits (x.g.tfmtOf ta.toNat) (sget 0 x.g.tile (tileKey ta.toNat (x.g.tfmtOf ta.toNat) j i)).toNat := by
      rw [BitVec.ofNat_toNat, BitVec.setWidth_eq, tileElem, BitVec.toNat_ofNat, Nat.mod_eq_of_lt (formatBits_dword_lt _ _)]
    rw [tileElem, transposed, h1 i hi j hj, tileOf_at _ _ hj hi, hat, formatBits_idem]
    rfl
  · rintro s x h hbusy
    obtain ⟨h1, h2⟩ := deliverLoad_clear h.tables acc.toNat tag
    obtain ⟨t, ht, hs⟩ := setStep_done h (exec_azero h hbusy)
      (accs_frame h2).1 (accs_frame h2).2
    exact ⟨t, _, ht, hs, h1, h2⟩
  · rintro s x h ⟨hbusy, hbusy'⟩
    obtain ⟨h1, h2, h3, h4, h5⟩ := copyAcc_spec h.tables acc.toNat asrc.toNat
    obtain ⟨t, ht, hs⟩ := setStep_done h (exec_amov h hbusy hbusy')
      (accs_frame h5).1 (accs_frame h5).2
    exact ⟨t, _, ht, hs, h1, h2, h3, h4, h5⟩

/-! ## ASNAP -/

theorem observationTakesASnapshot : Claim.ObservationTakesASnapshot := by
  intro acc adst mb s x h
  have hexec : exec (.asnap acc adst mb) s = execAsnap acc adst mb s := rfl
  rw [hexec, execAsnap, issue_next h]
  refine ⟨fun ho hbusy => ?_, fun ho => ?_⟩
  · rw [bitOf_toNat, ho, Bool.not_true, if_neg Bool.false_ne_true, hbusy, if_neg Bool.false_ne_true, finish_completed h]
  · have hy : yieldsOf (.asnap acc adst mb) x.ext = x.ext.yields := Bool.or_false _
    rw [bitOf_toNat, ho, Bool.not_false, if_pos rfl, tfault, finish_fault s h.nodup, hy]

/-! ## Loads and stores -/

/-- The elements of a load that all pass, each with its code. -/
theorem loadElems_pass {s : State} {x : Issue} {mb : SReg} {fitted : Bool} {bits : Nat}
    (h : ∀ p ∈ (tileBlock x mb).points, ∃ v, loadElem s x.g fitted (tileBlock x mb) bits p = .ok v) :
    (∀ m ∈ loadElems s x.g fitted (tileBlock x mb) bits, ∃ v, m.2.2 = .ok v)
      ∧ (goodOf (loadElems s x.g fitted (tileBlock x mb) bits)).map (fun e => (e.1, e.2.2))
        = (tileBlock x mb).points.map fun p => (p.1 * 16 + p.2, fittedOr 0 (loadElem s x.g fitted (tileBlock x mb) bits p)) := by
  unfold loadElems
  generalize (tileBlock x mb).points = ps at h ⊢
  induction ps with
  | nil => exact ⟨nofun, rfl⟩
  | cons p ps ih =>
    obtain ⟨v, hv⟩ := h p (List.mem_cons_self ..)
    obtain ⟨h1, h2⟩ := ih fun q hq => h q (List.mem_cons_of_mem _ hq)
    refine ⟨fun m hm => ?_, ?_⟩
    · rcases List.mem_cons.mp hm with rfl | hm
      · exact ⟨v, hv⟩
      · exact h1 m hm
    · simp only [goodOf, List.map_cons, List.filterMap_cons, hv, fittedOr] at h2 ⊢
      exact congrArg _ h2

/-- TLD of a known format, wherever its elements are read and its registers fit. -/
theorem tldBody_done {s : State} {x : Issue} {mb : SReg} {r fmt : Nat} {typed : Bool} (w : Word)
    (hrow : rowMisaligned (tileBlock x mb) (elemBits fmt) = none) (hfit : tileFits x r fmt)
    (hok : ∀ p ∈ (tileBlock x mb).points, ∃ v, loadElem s x.g true (tileBlock x mb) (elemBits fmt) p = .ok v)
    (hmix : typed = true → lineMixed s x.g (tileBlock x mb) fmt = none) (hcount : x.g.loads.length < 255) :
    tldBody s x w r fmt typed (tileBlock x mb) = .done (s.nextOccasion.setGroup { x.g with
      loads := x.g.loads ++ [tileLoad r fmt ((List.range 16).map fun i => (rowMeta s x.g (tileBlock x mb) i).1)
        ((List.range 16).map fun i => (rowMeta s x.g (tileBlock x mb) i).2)
        (((tileBlock x mb).points.map fun p => (p.1 * 16 + p.2, fittedOr 0 (loadElem s x.g true (tileBlock x mb) (elemBits fmt) p))).map
          fun e => (e.1, formatBits fmt e.2))] }) := by
  obtain ⟨hf, -, hp⟩ := tileFault_of_fits hfit w 18
  obtain ⟨hall, hgood⟩ := loadElems_pass hok
  have hmixed : (if typed then lineMixed s x.g (tileBlock x mb) fmt else none) = none := by
    cases typed
    · rfl
    · exact hmix rfl
  rw [← hgood]
  simp only [tldBody, hrow, hf, anyWaits_eq_false hall, hp, Bool.or_false, Bool.false_eq_true, if_false, badOf_eq_nil hall, List.head?_nil, hmixed]
  rw [if_neg (show ¬ Config.counterMax ≤ x.g.ldCount from Nat.not_le.mpr hcount), List.map_map, List.map_map, List.map_map]
  rfl

/-- The elements of a store in both masks, one write each. -/
def tileWritten (x : Issue) (bits : Nat) (code : Nat × Nat → Nat) (good : List (Nat × DWord × Place)) (s : State) : State :=
  s.setGroup { x.g with
    tiles := x.g.tiles ++ good.map (fun e => elemWrite x.g.nextIssue bits (e.1 % 16 * bits % 8) e.2.2 (code (e.1 / 16, e.1 % 16)))
    stQueue := x.g.stQueue ++ [x.g.nextIssue], nextIssue := x.g.nextIssue + 1 }

/-- The checks of the elements of a store stand at their positions. -/
theorem mem_storePlaces {x : Issue} {b : TileBlock} {bits : Nat} {l : List (Nat × Nat)} {s : State} {m : Nat × DWord × Fitted Place}
    (hm : m ∈ storePlaces x b bits l s) : ∃ p ∈ l, m.1 = p.1 * 16 + p.2 := by
  induction l generalizing s with
  | nil => cases hm
  | cons p l ih =>
    rw [storePlaces] at hm
    rcases List.mem_cons.mp hm with rfl | hm
    · exact ⟨p, List.mem_cons_self .., rfl⟩
    · obtain ⟨q, hq, he⟩ := ih hm
      exact ⟨q, List.mem_cons_of_mem _ hq, he⟩

theorem storePlaces_ne_nil {x : Issue} {b : TileBlock} {bits : Nat} {l : List (Nat × Nat)} {s : State} (h : l ≠ []) : storePlaces x b bits l s ≠ [] := by
  cases l with
  | nil => exact absurd rfl h
  | cons p l => exact List.cons_ne_nil _ _

/-- The store of a tile or an accumulator, wherever its elements pass. -/
theorem storeTile_done {s : State} {x : Issue} {mb : SReg} {bits : Nat} (code : Nat × Nat → Nat) (hne : (tileBlock x mb).points ≠ [])
    (hrow : rowMisaligned (tileBlock x mb) bits = none) (hcount : x.g.stQueue.length < 255)
    (hok : ∀ m ∈ storePlaces x (tileBlock x mb) bits (tileBlock x mb).points s, ∃ q, m.2.2 = .ok q) :
    storeTile s x (tileBlock x mb) bits code
      = .done (tileWritten x bits code (goodOf (storePlaces x (tileBlock x mb) bits (tileBlock x mb).points s)) s) := by
  simp only [storeTile, hrow, anyWaits_eq_false hok, Bool.false_eq_true, if_false, badOf_eq_nil hok, List.head?_nil,
    goodOf_isEmpty hok (storePlaces_ne_nil hne)]
  rw [if_neg (show ¬ Config.counterMax ≤ x.g.stCount from Nat.not_le.mpr hcount)]
  rfl

/-- What is written depends on the codes of the positions in both masks alone. -/
theorem tileWritten_congr {s t : State} {x : Issue} {mb : SReg} {bits : Nat} {f k : Nat × Nat → Nat}
    (h : ∀ i < 16, ∀ j < 16, f (i, j) = k (i, j)) :
    tileWritten x bits f (goodOf (storePlaces x (tileBlock x mb) bits (tileBlock x mb).points s)) t
      = tileWritten x bits k (goodOf (storePlaces x (tileBlock x mb) bits (tileBlock x mb).points s)) t := by
  have hmap : ∀ e ∈ goodOf (storePlaces x (tileBlock x mb) bits (tileBlock x mb).points s), f (e.1 / 16, e.1 % 16) = k (e.1 / 16, e.1 % 16) := by
    intro e he
    obtain ⟨m, hm, hme⟩ := List.mem_filterMap.mp he
    obtain ⟨p, hp, hk⟩ := mem_storePlaces hm
    have he1 : e.1 = m.1 := by
      obtain ⟨n, va, r⟩ := m
      cases r <;> cases hme
      rfl
    obtain ⟨h1, h2⟩ := mem_tilePoints.mp (List.mem_of_mem_filter hp)
    exact h _ (by omega) _ (by omega)
  unfold tileWritten
  rw [List.map_congr_left fun e he => by rw [hmap e he]]

/-- An element of an accumulator as a store writes it. -/
theorem accElem_eq (g : Group) (r i j : Nat) : accElem g (g.atagOf r == 2) r i j
    = (accOf g r i j).toNat + if g.atagOf r = 2 then 2 ^ 32 * (accOf g (r + 1) i j).toNat else 0 := by
  unfold accElem
  by_cases h : g.atagOf r = 2
  · rw [if_pos (beq_iff_eq.mpr h), if_pos h]
    rfl
  · rw [if_neg fun hk => h (beq_iff_eq.mp hk), if_neg h]
    rfl

theorem tilesMoveToAndFromMemory : Claim.TilesMoveToAndFromMemory := by
  intro ovr ta tag acc mb reads read checked writes written fmt
  refine ⟨?_, ?_, ?_, ?_, ?_, ?_⟩
  · rintro s x h ⟨⟨hne, hrow, hcount, hok⟩, hlo, hhi, hfit, htyped⟩
    have hemp : (tileBlock x mb).points.isEmpty = false := List.isEmpty_eq_false_iff.mpr hne
    show execTld ovr ta mb s = _
    rw [execTld, issue_next h]
    dsimp only
    rw [hemp, if_neg Bool.false_ne_true]
    by_cases ho : ovr.toNat ≠ 0
    · have hf : fmt s x = ovr.toNat := if_pos ho
      rw [hf] at hrow hok hfit ⊢
      rw [if_pos ho, tldBody_done _ hrow hfit hok Bool.false_ne_true.elim hcount, finish_completed h]
    · obtain ⟨⟨f, hmem⟩, hmix⟩ := htyped.resolve_left ho
      have hf : fmt s x = f := by
        show (if ovr.toNat ≠ 0 then ovr.toNat else fittedOr 0 (memoryFormat s x.g (tileBlock x mb)).2) = f
        rw [if_neg ho, hmem, fittedOr]
      rw [hf] at hrow hok hfit hmix hlo hhi ⊢
      rw [if_neg ho, show memoryFormat s x.g (tileBlock x mb) = ((memoryFormat s x.g (tileBlock x mb)).1, .ok f) from Prod.ext rfl hmem]
      dsimp only
      rw [if_neg (by omega), tldBody_done _ hrow hfit hok (fun _ => hmix) hcount, finish_completed h]
  · refine stateResult_of (fun _ => rfl) ?_
    rintro s x - ⟨hempty, hfit⟩
    obtain ⟨hf, -, hp⟩ := tileFault_of_fits hfit ((encode (.tld ovr ta mb)).getD 0) 18
    dsimp only
    rw [if_pos (List.isEmpty_iff.mpr hempty), hf]
    dsimp only
    rw [hp, if_neg Bool.false_ne_true]
  · refine stateResult_of (fun _ => rfl) ?_
    rintro s x - ⟨hbusy, hne, hrow, hcount, hok⟩
    obtain ⟨hall, hgood⟩ := loadElems_pass hok
    dsimp only
    rw [hbusy, if_neg Bool.false_ne_true, List.isEmpty_eq_false_iff.mpr hne, if_neg Bool.false_ne_true, hrow]
    dsimp only
    rw [anyWaits_eq_false hall, if_neg Bool.false_ne_true, badOf_eq_nil hall]
    dsimp only [List.head?_nil]
    rw [if_neg (show ¬ Config.counterMax ≤ x.g.ldCount from Nat.not_le.mpr hcount), show read false (32 * tag.regs) s x = _ from hgood.symm]
  · refine stateResult_of (fun _ => rfl) ?_
    rintro s x - ⟨hbusy, hempty⟩
    dsimp only
    rw [hbusy, if_neg Bool.false_ne_true, if_pos (List.isEmpty_iff.mpr hempty)]
  · refine stateResult_of (fun _ => rfl) ?_
    rintro s x - ⟨hread, hne, hrow, hcount, hok⟩
    obtain ⟨-, ha, hp⟩ := tileFault_of_fits hread.2.2.1 ((encode (.tstr ta mb)).getD 0) 18
    dsimp only
    rw [hp, if_neg Bool.false_ne_true, untyped_of_readable hread, ha, tileMixed_of_readable hread]
    show storeTile s x (tileBlock x mb) _ _ = _
    rw [storeTile_done _ hne hrow hcount hok, tileWritten_congr (k := fun p => (tileElem x.g ta.toNat (x.g.tfmtOf ta.toNat) p.1 p.2).toNat)
      fun i hi j hj => tileOf_at x.g ta.toNat hi hj]
    rfl
  · refine stateResult_of (fun _ => rfl) ?_
    rintro s x - ⟨hfault, hbusy, hpend, hne, hrow, hcount, hok⟩
    have hwide : (if (x.g.atagOf acc.toNat == 2) = true then 2 else 1) = if x.g.atagOf acc.toNat = 2 then 2 else 1 := if_congr beq_iff_eq rfl rfl
    have hbits : (if (x.g.atagOf acc.toNat == 2) = true then 64 else 32) = if x.g.atagOf acc.toNat = 2 then 64 else 32 := if_congr beq_iff_eq rfl rfl
    dsimp only
    rw [hwide, hbits, hbusy, hpend, Bool.or_false, if_neg Bool.false_ne_true, hfault]
    dsimp only
    rw [storeTile_done _ hne hrow hcount hok, tileWritten_congr (k := fun p => (accOf x.g acc.toNat p.1 p.2).toNat
      + if x.g.atagOf acc.toNat = 2 then 2 ^ 32 * (accOf x.g (acc.toNat + 1) p.1 p.2).toNat else 0) fun i _ j _ => accElem_eq x.g acc.toNat i j]
    rfl

end Sys2Proof.Machine

open Sys2Proof Sys2Proof.Machine

/-- Settles O51: a delivery writes the keys of its positions, which no two positions share; loads and stores issue as every element passes. -/
theorem tilesAndAccumulators : Obligations.TilesAndAccumulators := by
  unfold Obligations.TilesAndAccumulators
  exact ⟨tileAndAccumulatorRegisters, observationTakesASnapshot, tilesMoveToAndFromMemory⟩

end

section
/-! PROOFS. Matrix operations: their issue, and the writes of their completion (R266 to R269, R274 to R277). -/
namespace Sys2Proof.Machine
open Sys2Proof.Laws

/-! ## Issue -/

theorem mmaIssued_of {i : Instr} {acc : AReg} {ta tb : TReg} {mb : SReg} {dw : Bool} (he : ∀ s, exec i s = mmaIssue i acc ta tb mb dw s) :
    MmaIssued i acc ta tb mb dw := by
  refine stateResult_of he ?_
  rintro s x - ⟨hready, hfault, hcount, hpa, hpb, hacc⟩
  have hr : engineReady s x.g = true := (engineReady_iff s x).mpr hready
  have hc : decide (Config.counterMax ≤ x.g.mxCount) = false := decide_eq_false (Nat.not_le.mpr hcount)
  dsimp only
  rw [hr, hpa, hpb, hacc, hc, hfault]
  simp only [BitVec.truncate_eq_setWidth, ← BitVec.ofNat_toNat]
  rfl

theorem matrixOperationsAreQueued : Claim.MatrixOperationsAreQueued :=
  fun _ _ _ _ => ⟨mmaIssued_of fun _ => rfl, mmaIssued_of fun _ => rfl⟩

/-! ## The writes of a completion, by element and register -/

/-- The words of an accumulator element of a code: of its register, and of the next one where the element is wide. -/
def regWords (wide : Bool) (r v : Nat) : List (Nat × Nat) := (r, v % 2 ^ 32) :: if wide then [(r + 1, v / 2 ^ 32 % 2 ^ 32)] else []

/-- Words by their registers, at an element's place. -/
def placed (i j : Nat) (l : List (Nat × Nat)) : List (Nat × DWord) := l.map fun w => (w.1 * 256 + i * 16 + j, BitVec.ofNat 64 w.2)

theorem placed_append (i j : Nat) (a b : List (Nat × Nat)) : placed i j (a ++ b) = placed i j a ++ placed i j b := List.map_append

theorem accWords_eq (wide : Bool) (r i j v : Nat) : accWords wide r i j v = placed i j (regWords wide r v) := by
  cases wide <;> rfl

/-- The words that a matrix operation writes of an element, by register (R276, R277). -/
def mmaWords (g : Group) (m : MmaOp) (i j : Nat) : List (Nat × Nat) :=
  let terms := mmaTerms m i j
  if tileFamily m.a.fmt.toNat = 3 then regWords false m.acc (wrapTo 32 (terms.foldl (fun a t => a + intOf t) (toSigned 32 (g.aget m.acc i j))))
  else
    let wide := tileFamily m.a.fmt.toNat == 0
    let f := if wide then fp64 else fp32
    let n := if wide then 2 else 1
    let old := f.decode (accElem g wide m.acc i j)
    if m.dw then
      let x := sumTerms (addVal rne old (f.decode (accElem g wide (m.acc + n) i j))).1 terms
      let hi := (deliver f rne false x).code
      regWords wide m.acc hi ++ regWords wide (m.acc + n) (loOf f x hi)
    else regWords wide m.acc (deliver f rne false (sumTerms old terms)).code

theorem mmaElem_eq (g : Group) (m : MmaOp) (i j : Nat) : mmaElem g m i j = placed i j (mmaWords g m i j) := by
  simp only [mmaElem, mmaWords, accWords_eq]
  split
  · rfl
  · split
    · exact (placed_append ..).symm
    · rfl

/-- The words of an element in a register, as writes of the register. -/
def wordsOf (l : List (Nat × Nat)) : List (Nat × Word) := l.map fun w => (w.1, BitVec.ofNat 32 (BitVec.ofNat 64 w.2).toNat)

theorem wordsOf_cons (w : Nat × Nat) (l : List (Nat × Nat)) :
    wordsOf (w :: l) = (w.1, BitVec.ofNat 32 (BitVec.ofNat 64 w.2).toNat) :: wordsOf l := rfl

theorem written_append {α : Type} (a b : List (Nat × α)) (k : Nat) (old : α) : written (a ++ b) k old = written b k (written a k old) :=
  List.foldl_append

/-- Writes at the place of an element reach that element of their registers alone. -/
theorem written_placed (ws : List (Nat × Nat)) {a b r i j : Nat} (ha : a < 16) (hb : b < 16) (hi : i < 16) (hj : j < 16) (old : Word) :
    written ((placed a b ws).map fun e => (e.1, BitVec.ofNat 32 e.2.toNat)) (r * 256 + i * 16 + j) old
      = if (a, b) = (i, j) then written (wordsOf ws) r old else old := by
  induction ws generalizing old with
  | nil => exact (ite_self old).symm
  | cons w ws ih =>
    have hkey : w.1 * 256 + a * 16 + b = r * 256 + i * 16 + j ↔ w.1 = r ∧ (a, b) = (i, j) := by
      rw [Prod.mk.injEq]
      omega
    rw [wordsOf_cons, written_cons, placed, List.map_cons, List.map_cons, written_cons, ← placed, ih]
    simp only [hkey]
    by_cases hp : (a, b) = (i, j)
    · simp only [hp, and_true, if_true]
    · simp only [hp, and_false, if_false]

/-- The writes of several elements, no two of them one. -/
theorem written_elements (words : Nat × Nat → List (Nat × Nat)) {pts : List (Nat × Nat)} (hnd : pts.Nodup) (hpts : ∀ p ∈ pts, p.1 < 16 ∧ p.2 < 16)
    {r i j : Nat} (hi : i < 16) (hj : j < 16) (old : Word) :
    written ((pts.flatMap fun p => placed p.1 p.2 (words p)).map fun e => (e.1, BitVec.ofNat 32 e.2.toNat)) (r * 256 + i * 16 + j) old
      = if (i, j) ∈ pts then written (wordsOf (words (i, j))) r old else old := by
  induction pts generalizing old with
  | nil => rfl
  | cons p pts ih =>
    obtain ⟨hp, hnd⟩ := List.nodup_cons.mp hnd
    obtain ⟨ha, hb⟩ := hpts p (List.mem_cons_self ..)
    rw [List.flatMap_cons, List.map_append, written_append, written_placed _ ha hb hi hj,
      ih hnd fun q hq => hpts q (List.mem_cons_of_mem _ hq)]
    by_cases he : p = (i, j)
    · subst he
      rw [if_neg hp, if_pos rfl, if_pos (List.mem_cons_self ..)]
    · have hmem : (i, j) ∈ p :: pts ↔ (i, j) ∈ pts := by simp [Ne.symm he]
      rw [if_neg he]
      exact if_congr hmem.symm rfl rfl

theorem tilePoints_nodup : tilePoints.Nodup := 
  (List.nodup_range : (List.range 16).Nodup).product (List.nodup_range : (List.range 16).Nodup)

/-- The positions that both masks of a matrix operation have. -/
theorem mem_mmaPoints {m : MmaOp} {i j : Nat} (hi : i < 16) (hj : j < 16) :
    (i, j) ∈ tilePoints.filter (fun (i, j) => m.rows.getLsbD i && m.cols.getLsbD j) ↔ (m.rows.getLsbD i && m.cols.getLsbD j) = true := by
  rw [List.mem_filter]
  exact and_iff_right (mem_tilePoints.mpr ⟨hi, hj⟩)

/-- An element of an accumulator after a matrix operation. -/
theorem mmaApply_acc {g : Group} (hc : g.canonical = true) (m : MmaOp) (r : Nat) {i j : Nat} (hi : i < 16) (hj : j < 16) :
    accOf (mmaApply g m) r i j
      = if (m.rows.getLsbD i && m.cols.getLsbD j) = true then written (wordsOf (mmaWords g m i j)) r (accOf g r i j) else accOf g r i j := by
  obtain ⟨-, -, -, -, -, -, ha, -⟩ := canonical_maps hc
  have hnd := tilePoints_nodup.filter fun (i, j) => m.rows.getLsbD i && m.cols.getLsbD j
  have hpts : ∀ p ∈ tilePoints.filter (fun (i, j) => m.rows.getLsbD i && m.cols.getLsbD j), p.1 < 16 ∧ p.2 < 16 :=
    fun p hp => mem_tilePoints.mp (List.mem_of_mem_filter hp)
  have hput := (putAll_spec (((tilePoints.filter fun (i, j) => m.rows.getLsbD i && m.cols.getLsbD j).flatMap
    fun p => placed p.1 p.2 (mmaWords g m p.1 p.2)).map fun e => (e.1, BitVec.ofNat 32 e.2.toNat)) ha).2
  rw [← if_congr (mem_mmaPoints (m := m) hi hj) rfl rfl, ← written_elements (fun p => mmaWords g m p.1 p.2) hnd hpts hi hj]
  refine Eq.trans ?_ (hput _)
  simp only [← mmaElem_eq]
  unfold accOf mmaApply
  rfl

/-- The count of each register of a matrix operation goes on by one. -/
theorem mmaApply_astep {g : Group} (hc : g.canonical = true) (m : MmaOp) {r : Nat} (hlo : m.acc ≤ r) (hhi : r < m.acc + mmaRegs m) :
    sget 0 (mmaApply g m).astep r = sget 0 g.astep r + 1 := by
  obtain ⟨-, -, -, -, -, -, -, -, hs⟩ := canonical_maps hc
  have hput := (putAll_spec (((List.range (mmaRegs m)).map (m.acc + ·)).map fun r => (r, sget 0 g.astep r + 1)) hs).2 r
  refine Eq.trans hput (written_of_agree (fun w hw he => ?_) ⟨_, List.mem_map.mpr ⟨r, mem_registers.mpr ⟨hlo, hhi⟩, rfl⟩, rfl⟩ _)
  obtain ⟨q, -, rfl⟩ := List.mem_map.mp hw
  rw [show q = r from he]

/-! ## What the words are -/

theorem ofNat_word_low (v : Nat) : BitVec.ofNat 32 (BitVec.ofNat 64 (v % 2 ^ 32)).toNat = BitVec.ofNat 32 v := by
  apply BitVec.eq_of_toNat_eq
  simp only [BitVec.toNat_ofNat]
  omega

theorem written_regWords (wide : Bool) (r v : Nat) (old : Word) : written (wordsOf (regWords wide r v)) r old = BitVec.ofNat 32 v := by
  have hrest : ∀ w ∈ wordsOf (if wide then [(r + 1, v / 2 ^ 32 % 2 ^ 32)] else []), w.1 ≠ r := by
    cases wide with
    | false => nofun
    | true =>
      intro w hw
      obtain rfl := List.mem_singleton.mp hw
      exact Nat.succ_ne_self r
  rw [regWords, wordsOf_cons, written_cons, written_of_forall_ne hrest, if_pos rfl, ofNat_word_low]

theorem written_regWords_high (r v : Nat) (old : Word) :
    written (wordsOf (regWords true r v)) (r + 1) old = BitVec.ofNat 32 (v / 2 ^ 32) := by
  rw [regWords, if_pos rfl, wordsOf_cons, written_cons, wordsOf_cons, written_cons, if_pos rfl, ofNat_word_low]
  rfl

theorem written_regWords_other {wide : Bool} {r v k : Nat} (h : k ≠ r) (h1 : k ≠ r + 1) (old : Word) :
    written (wordsOf (regWords wide r v)) k old = old := by
  refine written_of_forall_ne (fun w hw he => ?_) old
  obtain ⟨y, hy, rfl⟩ := List.mem_map.mp hw
  dsimp only at he
  rcases List.mem_cons.mp hy with rfl | hy
  · exact h he.symm
  · cases wide with
    | false => cases hy
    | true =>
      obtain rfl := List.mem_singleton.mp hy
      exact h1 he.symm

theorem lowPart_eq (f : FloatFmt) (x : FVal) (hi : Nat) : loOf f x hi = lowPart f x hi := by
  unfold loOf lowPart
  cases x <;> cases f.decode hi <;> rfl

theorem mmaTerms_eq (m : MmaOp) (i j : Nat) :
    mmaTerms m i j = ((List.range 16).filter fun k => m.deps.getLsbD k).map fun k => (mulVal (m.a.value i k) (m.b.value k j)).1 := by
  unfold mmaTerms bitList
  rw [show bitOf m.deps.toNat = fun k => m.deps.getLsbD k from funext fun k => bitOf_toNat m.deps k]

theorem foldl_add_intOf (l : List FVal) (a : Int) : l.foldl (fun a t => a + intOf t) a = a + (l.map intOf).sum := by
  induction l generalizing a with
  | nil => simp
  | cons t l ih =>
    rw [List.foldl_cons, ih, List.map_cons, List.sum_cons]
    omega

/-! ## The families -/

theorem tileFamily_wide {f : Nat} (hlo : 1 ≤ f) (hhi : f ≤ 9) : tileFamily f ≠ 3 ∧ (tileFamily f == 0) = decide (f = 1) := by
  have h : ∀ f < 10, 1 ≤ f → tileFamily f ≠ 3 ∧ (tileFamily f == 0) = decide (f = 1) := by decide
  exact h f (Nat.lt_succ_of_le hhi) hlo

theorem tileFamily_integer {f : Nat} (h : 10 ≤ f) : tileFamily f = 3 := by
  unfold tileFamily
  rw [if_neg (by omega), if_neg (by omega), if_neg (by omega)]

/-- The code of an accumulator element, of one register or of a pair, as the claim writes it. -/
def codeOf (g : Group) (f r i j : Nat) : Nat := (accOf g r i j).toNat + if f = 1 then 2 ^ 32 * (accOf g (r + 1) i j).toNat else 0

theorem accElem_codeOf (g : Group) (f r i j : Nat) : accElem g (decide (f = 1)) r i j = codeOf g f r i j := by
  unfold accElem codeOf
  by_cases h : f = 1
  · rw [if_pos (decide_eq_true h), if_pos h]
    rfl
  · rw [if_neg fun hk => h (of_decide_eq_true hk), if_neg h]
    rfl

/-- The format of an accumulator, and its registers. -/
def accFmt (f : Nat) : FloatFmt := if f = 1 then fp64 else fp32
def accCount (f : Nat) : Nat := if f = 1 then 2 else 1

theorem mmaWords_float (g : Group) {m : MmaOp} (i j : Nat) (hlo : 1 ≤ m.a.fmt.toNat) (hhi : m.a.fmt.toNat ≤ 9) :
    let f := m.a.fmt.toNat
    let old := fun r => (accFmt f).decode (codeOf g f r i j)
    let x := sumTerms (addVal rne (old m.acc) (old (m.acc + accCount f))).1 (mmaTerms m i j)
    mmaWords g m i j = if m.dw then regWords (decide (f = 1)) m.acc (deliver (accFmt f) rne false x).code
        ++ regWords (decide (f = 1)) (m.acc + accCount f) (loOf (accFmt f) x (deliver (accFmt f) rne false x).code)
      else regWords (decide (f = 1)) m.acc (deliver (accFmt f) rne false (sumTerms (old m.acc) (mmaTerms m i j))).code := by
  obtain ⟨h3, hw⟩ := tileFamily_wide hlo hhi
  intro f old x
  simp only [mmaWords, if_neg h3, hw, accElem_codeOf, decide_eq_true_eq]
  rfl

theorem mmaWords_integer (g : Group) {m : MmaOp} (i j : Nat) (h : 10 ≤ m.a.fmt.toNat) : mmaWords g m i j
    = regWords false m.acc (wrapTo 32 ((accOf g m.acc i j).toInt + ((mmaTerms m i j).map intOf).sum)) := by
  rw [mmaWords, if_pos (tileFamily_integer h), foldl_add_intOf, show g.aget m.acc i j = (accOf g m.acc i j).toNat from rfl, toSigned_word]

/-- A register of a list of writes holds a code, and the next one the rest of it where the element is wide. -/
theorem written_holds (f r v : Nat) (old : Nat → Word) :
    written (wordsOf (regWords (decide (f = 1)) r v)) r (old r) = BitVec.ofNat 32 v
      ∧ (f = 1 → written (wordsOf (regWords (decide (f = 1)) r v)) (r + 1) (old (r + 1)) = BitVec.ofNat 32 (v / 2 ^ 32)) :=
  ⟨written_regWords _ r v _, fun h => by rw [decide_eq_true h, written_regWords_high]⟩

/-- Two elements of a double-word accumulator, each in its own registers. -/
theorem written_two (f r hi lo : Nat) (old : Nat → Word) :
    let ws := wordsOf (regWords (decide (f = 1)) r hi ++ regWords (decide (f = 1)) (r + accCount f) lo)
    (written ws r (old r) = BitVec.ofNat 32 hi ∧ (f = 1 → written ws (r + 1) (old (r + 1)) = BitVec.ofNat 32 (hi / 2 ^ 32)))
      ∧ written ws (r + accCount f) (old (r + accCount f)) = BitVec.ofNat 32 lo
      ∧ (f = 1 → written ws (r + accCount f + 1) (old (r + accCount f + 1)) = BitVec.ofNat 32 (lo / 2 ^ 32)) := by
  intro ws
  have hws : ws = wordsOf (regWords (decide (f = 1)) r hi) ++ wordsOf (regWords (decide (f = 1)) (r + accCount f) lo) := List.map_append
  have hpos : 0 < accCount f := by unfold accCount; split <;> decide
  have htwo : f = 1 → accCount f = 2 := fun h => if_pos h
  obtain ⟨h1, h2⟩ := written_holds f r hi old
  simp only [hws, written_append]
  refine ⟨⟨?_, fun h => ?_⟩, written_regWords _ _ _ _, fun h => ?_⟩
  · rw [written_regWords_other (by omega) (by omega), h1]
  · have := htwo h
    rw [written_regWords_other (by omega) (by omega), h2 h]
  · rw [decide_eq_true h, written_regWords_high]

theorem exec_mmaCompletion {s : State} {uid : Nat} {g : Group} {m : MmaOp} {rest : List MmaOp} (hg : s.group? uid = some g) (hm : g.mmas = m :: rest) :
    exec (.mmaCompletion uid) s = .next (settle (s.setGroup (mmaApply g m))) := by
  show execMmaCompletion uid s = _
  simp only [execMmaCompletion, hg, hm]

theorem mmaApply_frame {g : Group} {m : MmaOp} {rest : List MmaOp} (hm : g.mmas = m :: rest) :
    mmaApply g m = { g with acc := (mmaApply g m).acc, astep := (mmaApply g m).astep, mmas := rest } := by
  have hrest : g.mmas.drop 1 = rest := by rw [hm]; rfl
  unfold mmaApply
  rw [hrest]

theorem matrixOperationsRoundOnce : Claim.MatrixOperationsRoundOnce := by
  intro s uid g m rest hg hc hm
  refine ⟨mmaApply g m, exec_mmaCompletion hg hm, mmaApply_frame hm, fun r hlo hhi => mmaApply_astep hc m hlo hhi, fun i hi j hj r hout => ?_,
    fun i hi j hj hin => ?_⟩
  · rw [mmaApply_acc hc m r hi hj, if_neg (Bool.eq_false_iff.mp hout)]
  · have hacc : ∀ r, accOf (mmaApply g m) r i j = written (wordsOf (mmaWords g m i j)) r (accOf g r i j) := fun r => by
      rw [mmaApply_acc hc m r hi hj, if_pos hin]
    intro products f fmt low old holds sum
    have hproducts : products = mmaTerms m i j := (mmaTerms_eq m i j).symm
    refine ⟨fun hlo hhi hdw => ?_, fun hlo hhi hdw => ?_, fun h10 hdw => ?_⟩
    · have hwords := mmaWords_float g i j hlo hhi
      dsimp only at hwords
      rw [hdw, if_neg Bool.false_ne_true, ← hproducts] at hwords
      show accOf (mmaApply g m) m.acc i j = _ ∧ (f = 1 → accOf (mmaApply g m) (m.acc + 1) i j = _)
      rw [hacc, hacc, hwords]
      exact written_holds f m.acc _ fun r => accOf g r i j
    · have hwords := mmaWords_float g i j hlo hhi
      dsimp only at hwords
      rw [hdw, if_pos rfl, ← hproducts] at hwords
      intro x hi'
      show (accOf (mmaApply g m) m.acc i j = _ ∧ (f = 1 → accOf (mmaApply g m) (m.acc + 1) i j = _))
        ∧ accOf (mmaApply g m) low i j = _ ∧ (f = 1 → accOf (mmaApply g m) (low + 1) i j = _)
      rw [hacc, hacc, hacc, hacc, hwords, ← lowPart_eq]
      exact written_two f m.acc hi' _ fun r => accOf g r i j
    · rw [hacc, mmaWords_integer g i j h10, written_regWords, ofNat_wrapTo_word, hproducts]

end Sys2Proof.Machine

open Sys2Proof Sys2Proof.Machine

/-- Settles O52: a completion writes the words of each element in both masks, and no two elements share a key. -/
theorem matrixOperationsAccumulate : Obligations.MatrixOperationsAccumulate := by
  unfold Obligations.MatrixOperationsAccumulate
  exact ⟨matrixOperationsAreQueued, matrixOperationsRoundOnce⟩

end

section
/-! PROOFS. Copies: their issue, their end, and CPST and CPCAN (R244 to R249, R254, R258 to R260). -/
namespace Sys2Proof.Machine
open Sys2Proof.Laws

/-! ## Issue -/

theorem copyResult_of {i : Instr} {k : CopyKind} {sh co cs : SReg} (he : ∀ s, exec i s = copyIssue i k sh co cs s) : CopyResult i k sh co cs := by
  intro s x p h hready hplan op
  have hstop : (!engineReady s x.g || decide (Config.counterMax ≤ x.g.cpCount)) = false := by
    rw [(engineReady_iff s x).mpr hready.1, Bool.not_true, Bool.false_or]
    exact decide_eq_false (Nat.not_le.mpr hready.2)
  rw [he, copyIssue, issue_next h]
  dsimp only
  rw [hstop, if_neg Bool.false_ne_true, csAddr_eq, show planCopy s x k (shAddr x sh) _ (compAddr x cs) = .ok p from hplan]
  exact congrArg _ (finish_completed h _)

theorem copiesAreQueued : Claim.CopiesAreQueued := fun _ _ _ =>
  ⟨copyResult_of fun _ => rfl, copyResult_of fun _ => rfl, copyResult_of fun _ => rfl, copyResult_of fun _ => rfl, copyResult_of fun _ => rfl,
    copyResult_of fun _ => rfl⟩

/-! ## Segments -/

theorem segAt_segPut {s : State} (h : swf noSegment s.work.segs = true) (j : Nat) (y : Segment) (k : Nat) :
    segAt (segPut s j y) k = if k = j then y else segAt s k := sget_sput j y k h

/-- The state that a segment of a list takes. -/
def segTakes (st : BitVec 2) (undead : Bool) (y : Segment) : Segment :=
  if y.team ≠ 0 then { y with state := st, dead := y.dead && !undead } else y

theorem segTakes_idem (st : BitVec 2) (undead : Bool) (y : Segment) : segTakes st undead (segTakes st undead y) = segTakes st undead y := by
  unfold segTakes
  by_cases h : y.team = 0
  · simp [h]
  · simp [h]

theorem setSegs_cons (s : State) (j : Nat) (l : List Nat) (st : BitVec 2) (undead : Bool) : setSegs s (j :: l) st undead
    = setSegs (if (segAt s j).team = 0 then s else segPut s j { segAt s j with state := st, dead := (segAt s j).dead && !undead }) l st undead := rfl

theorem segAt_setSegs (l : List Nat) (st : BitVec 2) (undead : Bool) (k : Nat) : ∀ s : State, swf noSegment s.work.segs = true →
    segAt (setSegs s l st undead) k = if k ∈ l then segTakes st undead (segAt s k) else segAt s k := by
  induction l with
  | nil => exact fun _ _ => rfl
  | cons j l ih =>
    intro s h
    rw [setSegs_cons]
    have hstep : ∃ u : State, (if (segAt s j).team = 0 then s else segPut s j { segAt s j with state := st, dead := (segAt s j).dead && !undead }) = u
        ∧ swf noSegment u.work.segs = true ∧ segAt u k = if k = j then segTakes st undead (segAt s j) else segAt s k := by
      refine ⟨_, rfl, ?_, ?_⟩
      · split
        · exact h
        · exact swf_sput _ _ h
      · by_cases ht : (segAt s j).team = 0
        · rw [if_pos ht, segTakes, if_neg (not_not_intro ht)]
          split
          · rename_i hk; rw [hk]
          · rfl
        · rw [if_neg ht, segAt_segPut h, segTakes, if_pos ht]
    obtain ⟨u, hu, hwf, hseg⟩ := hstep
    rw [hu, ih u hwf, hseg]
    by_cases hk : k = j
    · subst hk
      rw [if_pos rfl, if_pos (List.mem_cons_self ..), segTakes_idem, ite_self]
    · rw [if_neg hk]
      exact if_congr (by simp [hk]) rfl rfl

theorem segmentsTakeTheirState : Claim.SegmentsTakeTheirState := by
  intro s l st undead k h
  rw [segAt_setSegs l st undead k s h]
  unfold segTakes
  by_cases hl : k ∈ l
  · by_cases ht : (segAt s k).team = 0
    · rw [if_pos hl, if_neg (not_not_intro ht), if_neg fun hk => hk.2 ht]
    · rw [if_pos hl, if_pos ht, if_pos ⟨hl, ht⟩]
  · rw [if_neg hl, if_neg fun hk => hl hk.1]

/-! ## Completion words -/

theorem completionWord_eq (seq : Nat) (bad : Bool) : leBytes 4 (completionWord seq bad) = leBytes 4 (seq % 2 ^ 31 + if bad = true then 2 ^ 31 else 0) := rfl

/-- A plain write of HBM by an engine is a tracked write. -/
theorem engineWrite_hbm {s t : State} {g : Group} {ag : Agent} {core : Nat} {va : DWord} {data : List Byte} {p : Place} {pa : Nat}
    (hp : engineAccess s g core (engWrite data.length) va = .ok p) (ht : p.target = .hbm pa) (him : p.immed = false) (hir : p.irrev = false)
    (hw : inWindow s pa = false) (htr : trackedWrite s pa data = some t) : engineWrite s g ag core va data = .ok t := by
  have hsaved : savedPond s ag.ctx (.hbm pa) = none := by
    unfold savedPond
    cases s.ctx? ag.ctx <;> rfl
  simp only [engineWrite, hp, engineStore, ht, hsaved, writePlace, him, hw, hir, htr, Bool.or_false, Bool.false_eq_true, if_false]

theorem completionWordsAreStored : Claim.CompletionWordsAreStored := by
  intro s g ag core engine lane seq bad
  refine ⟨rfl, fun va => ?_⟩
  intro word
  refine ⟨fun t ht => ?_, fun c d hc => ?_, fun p pa t hp => engineWrite_hbm hp⟩
  · simp only [completionStore, completionWord_eq, show engineWrite s g ag core va (leBytes 4 (seq % 2 ^ 31 + if bad = true then 2 ^ 31 else 0)) = .ok t from ht]
  · simp only [completionStore, completionWord_eq,
      show engineWrite s g ag core va (leBytes 4 (seq % 2 ^ 31 + if bad = true then 2 ^ 31 else 0)) = .fault (c, d) from hc]
    rfl

/-! ## The end of a copy -/

theorem copyStatus_eq (c : CopyStatus) (op : CopyOp) (r : Nat × BitVec 16 × DWord × Nat) : copyStatus c op r = statusAfter c op r := by
  unfold copyStatus statusAfter
  by_cases h : r.1 = 0 <;> simp only [h, if_true, if_false]

/-- Whether the completion of a copy waits for its writes: those deferred at SYSTEM scope, and those that a Spring unit holds. -/
theorem copyWaits_iff (s : State) (g : Group) (op : CopyOp) :
    (scopeWaits s (copyAgent g op.seq) (Shape.rscope op.words) || copyHeld s g op) = true
      ↔ (Shape.rscope op.words = 4 ∧ ∃ d ∈ s.deferred, d.group = g.uid ∧ d.op = some (0, op.seq))
        ∨ ∃ y ∈ s.work.springHeld, y.group = g.uid ∧ y.issue = engineIssue + op.seq := by
  simp [scopeWaits, copyHeld, copyAgent, agentOf]

theorem completeCopy_eq {s : State} {g : Group} {op : CopyOp} (r : Nat × BitVec 16 × DWord × Nat)
    (h : ¬ (scopeWaits s (copyAgent g op.seq) (Shape.rscope op.words) || copyHeld s g op) = true) :
    (completeCopy s g op r).map settle = copyEffects s g op r := by
  rw [completeCopy, if_neg h, copyEffects, Option.map_map]
  have hseg : endSegs s op (r.1 == 3) = if r.1 = 3 then setSegs (setSegs (op.fill.foldl forgetSeg s) op.fill 0 false) op.drain 2 false
      else setSegs (setSegs s op.fill 2 false) op.drain 0 true := if_congr beq_iff_eq rfl rfl
  rw [hseg]
  refine congrArg (fun f => Option.map f _) (funext fun s2 => ?_)
  simp only [Function.comp_apply, engineArrival, copyStatus_eq] <;> rfl

/-- What a copy whose outcome is known leaves. -/
theorem copyEnds_of (s : State) (g : Group) (op : CopyOp) (r : Nat × BitVec 16 × DWord × Nat) :
    CopyEnds s (match completeCopy s g op r with
      | some t => settle t
      | none => setCopy s g.uid 0 { op with done := some r }) g op r := by
  have hiff := copyWaits_iff s g op
  refine ⟨fun hw u hu => ?_, fun hw => ?_⟩
  · rw [← completeCopy_eq r fun h => hw (hiff.mp h)] at hu
    obtain ⟨t, ht, rfl⟩ := Option.map_eq_some_iff.mp hu
    rw [ht]
  · have hnone : completeCopy s g op r = none := by
      by_cases hb : (scopeWaits s (copyAgent g op.seq) (Shape.rscope op.words) || copyHeld s g op) = true
      · rw [completeCopy, if_pos hb]
      · have := hw.resolve_left fun h => hb (hiff.mpr h)
        rw [← completeCopy_eq r hb] at this
        exact Option.map_eq_none_iff.mp this
    rw [hnone]
    rfl

theorem finishCopy_done {s : State} {g : Group} {op : CopyOp} {r : Nat × BitVec 16 × DWord × Nat} (kind : Nat) (h : op.done = some r) :
    CopyEnds s (finishCopy s g op kind r) g op r := by
  have hd : op.done.isSome = true := by rw [h]; rfl
  have hs : (if op.done.isSome then s else copyRecord s g op kind r) = s := if_pos hd
  simp only [finishCopy, hs]
  exact copyEnds_of s g op r

/-- A copy that ends now has its record first, where its outcome is CONVERR or ENDED. -/
theorem finishCopy_ends {s : State} {g : Group} {op : CopyOp} (kind : Nat) (r : Nat × BitVec 16 × DWord × Nat) (h : op.done = none) :
    CopyEnds (copyRecord s g op kind r) (finishCopy s g op kind r) g op r := by
  have hd : op.done.isSome = false := by rw [h]; rfl
  have hs : (if op.done.isSome then s else copyRecord s g op kind r) = copyRecord s g op kind r := if_neg (Bool.eq_false_iff.mp hd)
  simp only [finishCopy, hs]
  exact copyEnds_of _ g op r

theorem copyRecord_error (s : State) (g : Group) (op : CopyOp) (kind : Nat) {r : Nat × BitVec 16 × DWord × Nat} (h : r.1 = 1 ∨ r.1 = 2) :
    copyRecord s g op kind r = endRecord s g op kind r := if_pos h

theorem copyRecord_ok (s : State) (g : Group) (op : CopyOp) (kind : Nat) {r : Nat × BitVec 16 × DWord × Nat} (h : r.1 = 0) :
    copyRecord s g op kind r = s := if_neg (by omega)

/-- The completion of the oldest copy of a group whose engines run, by the operation's outcome and its run. -/
theorem execCopyCompletion_done {s : State} {uid : Nat} {g : Group} (hg : s.group? uid = some g) (hr : enginesRun s g = true) {op : CopyOp}
    {r : Nat × BitVec 16 × DWord × Nat} (ho : g.copies.head? = some op) (hd : op.done = some r) :
    exec (.copyCompletion uid) s = .next (finishCopy s g op 0 r) := by
  obtain ⟨rest, hc⟩ := List.head?_eq_some_iff.mp ho
  show execCopyCompletion uid s = _
  simp only [execCopyCompletion, hg, hc, hr, hd, Bool.not_true, Bool.false_eq_true, if_false]

theorem execCopyCompletion_run {s : State} {uid : Nat} {g : Group} (hg : s.group? uid = some g) (hr : enginesRun s g = true) {op : CopyOp}
    (ho : g.copies.head? = some op) (hd : op.done = none) (hh : op.halted = none) :
    exec (.copyCompletion uid) s = match runCopy s g op with
      | (s1, op1, none) => .next (finishCopy s1 g op1 0 (outcomeOf op1 none))
      | (s1, op1, some .wait) => if op1.next = op.next then stutter s else .next (setCopy s1 uid 0 op1)
      | (s1, op1, some (.fault _ kind c)) =>
        if haltsCopy c.1 then stutter s else .next (finishCopy s1 g op1 kind (outcomeOf op1 (some c))) := by
  obtain ⟨rest, hc⟩ := List.head?_eq_some_iff.mp ho
  show execCopyCompletion uid s = _
  simp only [execCopyCompletion, hg, hc, hr, hd, hh, Bool.not_true, Bool.false_eq_true, if_false, Option.isSome_none] <;> rfl

theorem copiesEndOrHalt : Claim.CopiesEndOrHalt := by
  intro s uid n g hg hr
  refine ⟨fun op r ho hd => ⟨_, execCopyCompletion_done hg hr ho hd, finishCopy_done 0 hd⟩, fun op s1 op1 ho hd hh => ⟨fun hrun hd1 => ⟨fun hoff => ?_, fun k hoff => ?_⟩,
    fun va kind c hrun hd1 h301 h303 => ?_⟩, fun op s1 op1 va k c ho hd hh hext hrun hc => ?_⟩
  · have hout : outcomeOf op1 none = (0, 0, 0, 0) := by simp only [outcomeOf, hoff]
    refine ⟨_, (execCopyCompletion_run hg hr ho hd hh).trans (by rw [hrun]), ?_⟩
    rw [hout]
    exact copyRecord_ok s1 g op1 0 (r := (0, 0, 0, 0)) rfl ▸ finishCopy_ends 0 (0, 0, 0, 0) hd1
  · have hout : outcomeOf op1 none = (1, 0x0601, elemVa op1 k, k) := by simp only [outcomeOf, hoff]
    refine ⟨_, (execCopyCompletion_run hg hr ho hd hh).trans (by rw [hrun]), ?_⟩
    rw [hout, ← copyRecord_error s1 g op1 0 (r := (1, 0x0601, elemVa op1 k, k)) (.inl rfl)]
    exact finishCopy_ends 0 _ hd1
  · intro r
    have hhalt : haltsCopy c.1 = false := by simp [haltsCopy, h301, h303]
    refine ⟨_, (execCopyCompletion_run hg hr ho hd hh).trans (by rw [hrun]; dsimp only; rw [hhalt, if_neg Bool.false_ne_true]), ?_⟩
    rw [← copyRecord_error s1 g op1 kind (r := r) (.inr rfl)]
    exact finishCopy_ends kind r hd1
  · have hhalt : haltsCopy c.1 = true := by simpa [haltsCopy] using hc
    show execCopyHalt uid n s = _
    simp only [execCopyHalt, hg, ho, hd, hh, hext, hr, hrun, hhalt, Option.isSome_none, List.isEmpty_nil, Bool.not_true, Bool.or_false,
      Bool.false_eq_true, if_false, if_true]
    rfl

/-! ## CPST and CPCAN -/

/-- The mask of the numbers below n that have a property. -/
theorem maskOf_filter_range (p : Nat → Bool) (n : Nat) :
    maskOf ((List.range n).filter p) = ((List.range n).map fun k => if p k then 2 ^ k else 0).sum ∧ maskOf ((List.range n).filter p) < 2 ^ n := by
  induction n with
  | zero => exact ⟨rfl, Nat.one_pos⟩
  | succ n ih =>
    obtain ⟨hsum, hlt⟩ := ih
    have hbit : bitOf (maskOf ((List.range n).filter p)) n = false := by
      rw [bitOf_eq_testBit]
      exact Nat.testBit_lt_two_pow hlt
    rw [List.range_succ, List.filter_append, List.map_append, List.sum_append, ← hsum]
    by_cases hp : p n = true
    · have hstep : maskOf ((List.range n).filter p ++ [n]) = maskOf ((List.range n).filter p) + 2 ^ n := by
        rw [maskOf, List.foldl_append, ← maskOf, List.foldl_cons, List.foldl_nil, hbit, if_neg Bool.false_ne_true]
      rw [List.filter_cons_of_pos hp, List.filter_nil, hstep, Nat.pow_succ]
      exact ⟨by simp [hp], by omega⟩
    · rw [List.filter_cons_of_neg hp, List.filter_nil, List.append_nil, Nat.pow_succ]
      exact ⟨by simp [hp], by omega⟩

theorem copyStatusAndCancel : Claim.CopyStatusAndCancel := by
  intro d a b word
  constructor
  · rintro s x h -
    have hword : cpWord s x.g ((opSB x b).toNat % 8) = word s x := by
      show cpWord s x.g ((opSB x b).toNat % 8) = match (opSB x b).toNat % 8 with
        | 0 => _ | 1 => _ | 2 => _ | 3 => _ | 4 => _ | 5 => _ | 6 => _ | _ => _
      unfold cpWord barrierFlags
      rw [(maskOf_filter_range _ 16).1] <;> rfl
    have he : exec (.cpst d b) s = .next (finish s x (yieldsOf (.cpst d b) x.ext) (.done (s.setGroup (x.g.sregPut (regSD x d) (word s x))))) := by
      show execCpst d b s = _
      rw [execCpst, issue_next h, ← hword]
      rfl
    exact setStep_done h he rfl rfl
  · rintro s x h -
    have he : exec (.cpcan d a) s = .next (finish s x (yieldsOf (.cpcan d a) x.ext) (.done (s.setGroup ({ x.g with
        copies := x.g.copies.map fun (op : CopyOp) => if op.seq = (opSA x a).toNat % 2 ^ 31 then { op with halted := none, done := some (3, 0, 0, 0xFFFFFFFF) } else op }.sregPut
          (regSD x d) (if ∃ op ∈ x.g.copies, op.seq = (opSA x a).toNat % 2 ^ 31 then 0 else 1))))) := by
      have hhit : (x.g.copies.any fun op => op.seq == (opSA x a).toNat % 2 ^ 31) = true ↔ ∃ op ∈ x.g.copies, op.seq = (opSA x a).toNat % 2 ^ 31 := by
        simp
      show execCpcan d a s = _
      rw [execCpcan, issue_next h]
      rw [← if_congr hhit rfl rfl]
      rfl
    exact setStep_done h he rfl rfl

end Sys2Proof.Machine

open Sys2Proof Sys2Proof.Machine

/-- Settles O50: a copy that is issued joins its class, its end is that of its run or of its outcome, and CPST and CPCAN read and mark it. -/
theorem copiesRunAndComplete : Obligations.CopiesRunAndComplete := by
  unfold Obligations.CopiesRunAndComplete
  exact ⟨copiesAreQueued, ⟨segmentsTakeTheirState, completionWordsAreStored, copiesEndOrHalt⟩, copyStatusAndCancel⟩

end

section
/-! PROOFS. Binds, rebinds and the status words of graphs (R282 to R291, R300 to R302). -/
namespace Sys2Proof.Machine
open Sys2Proof.Laws

/-! ## Issue and status -/

theorem stateResult_bindIssue {i : Instr} {kind : Nat} {sh co cs : SReg} (he : ∀ s, exec i s = bindIssue i kind sh co cs s) :
    StateResult i (fun s x => mayIssueTo s x x.g.frops.length) (regionQueued kind (fun _ x => [pairS x 17 sh, pairS x 9 co]) cs) := by
  refine stateResult_of he ?_
  rintro s x - hready
  have hready' : fropReady s x.g = true := ready_of_mayIssueTo hready
  rw [hready', Bool.not_true, if_neg Bool.false_ne_true, pushFrop_eq]
  rfl

/-- The status word of the graph at a pair, 0 where none stands there. -/
def statusWord (word : Graph → Nat → Nat) (a b : SReg) (s : State) (x : Issue) : Nat :=
  match graphAt s x.g.ctx (pairS x 9 a) with
  | some gr => word gr (opSB x b).toNat
  | none => 0

theorem stateResult_graphStatus {i : Instr} {d a b : SReg} {word : Graph → Nat → Nat} (he : ∀ s, exec i s = graphStatus i d a b word s) :
    StateResult i (fun _ x => x.g.loads.length < 255) (fun s x => s.setGroup (withLoad x.g
      (plainLoad [(RegDst.s (regSD x d), BitVec.ofNat 32 (statusWord word a b s x))]))) := by
  refine stateResult_of he ?_
  rintro s x - hcount
  have hword : ((graphAt s x.g.ctx (x.g.spair (sA x a))).map fun gr => word gr (x.g.sregGet (sB x b)).toNat).getD 0 = statusWord word a b s x := by
    show ((graphAt s x.g.ctx (pairS x 9 a)).map _).getD 0 = _
    unfold statusWord
    cases graphAt s x.g.ctx (pairS x 9 a) <;> rfl
  dsimp only
  rw [if_neg (show ¬ Config.counterMax ≤ x.g.ldCount from Nat.not_le.mpr hcount), hword]
  rfl

theorem bindsAreQueuedAndStatusIsLoaded : Claim.BindsAreQueuedAndStatusIsLoaded := by
  intro sh co cs d a b bind stat
  exact ⟨stateResult_bindIssue fun _ => rfl, stateResult_bindIssue fun _ => rfl, stateResult_graphStatus fun _ => rfl,
    stateResult_graphStatus fun _ => rfl⟩

/-! ## The outcome of a bind -/

theorem bindFails_eq {s : State} {g : Group} (op : UnitOp) (va : Option DWord) (kind : Nat) (c : CauseDetail) :
    bindFails s g op va kind c = bindFailed s g op va kind c := rfl

theorem bindOutcome_ok (s t : State) (g : Group) (op : UnitOp) (again : Bool) :
    bindOutcome s g op again (.ok t) = .next (regionOpDone t g.uid op.seq 0 0 0) := rfl

theorem bindOutcome_fault {s t : State} {g : Group} {op : UnitOp} {again : Bool} {va : Option DWord} {kind : Nat} {c : CauseDetail}
    (h : markFailed s g op c.1 again = some t) : bindOutcome s g op again (.error (.fault va kind c)) = .next (bindFailed t g op va kind c) := by
  simp only [bindOutcome, h]
  rfl

/-- The mark of a failed bind on the graph of its area. -/
theorem markFailed_some {s : State} {g : Group} {op : UnitOp} {gr : Graph} (cause : Nat) (again : Bool)
    (h : graphAt s g.ctx (op.words.getD 1 0) = some gr) :
    markFailed s g op cause again = saveGraph s (Graph.settle { gr with state := failedState op again gr.state, cause := cause }) := by
  simp only [markFailed, h]

theorem markFailed_none {s : State} {g : Group} {op : UnitOp} (cause : Nat) (again : Bool) (h : graphAt s g.ctx (op.words.getD 1 0) = none) :
    markFailed s g op cause again = if again then some s
      else saveGraph s (emptyArea g.ctx g.launch (op.words.getD 1 0) (areaHead s g op.core (op.words.getD 1 0)) 4 cause) := by
  simp only [markFailed, h]

theorem recordScope_of {s : State} {g : Group} {op : UnitOp} {h sw cw : List DWord} (hr : readRecord s g op = .ok (h, sw, cw)) :
    recordScope s g op = recField h 0 37 3 := by
  simp only [recordScope, hr]

/-! ## GBIND at the balance engine -/

section
variable {s : State} {uid n : Nat} {g : Group} {op : UnitOp} (hg : s.group? uid = some g) (hop : g.frops[n]? = some op) (hstep : op.step ≤ 1)
  (hext : g.ext = [])
include hg hop hstep hext

theorem execBind_begins (hk : op.kind = 4) (h0 : op.step = 0) (ht : areaTaken s g.ctx (op.words.getD 1 0) = false) {t : State}
    (hb : beginBind s g op = some t) : exec (.bind uid n) s = .next t := by
  show execBind uid n s = _
  have hgo : ¬ (op.kind ≠ 4 ∨ 1 < op.step ∨ ¬ g.ext.isEmpty) := by simp [hk, hext, hstep]
  simp only [execBind, hg, hop]
  rw [if_neg hgo, if_pos ⟨h0, ht⟩, hb]

theorem execBind_performs (hk : op.kind = 4) (h1 : op.step = 1 ∨ areaTaken s g.ctx (op.words.getD 1 0) = true) :
    exec (.bind uid n) s = bindOutcome s g op false (bindGraph s g op) := by
  show execBind uid n s = _
  have hgo : ¬ (op.kind ≠ 4 ∨ 1 < op.step ∨ ¬ g.ext.isEmpty) := by simp [hk, hext, hstep]
  have hnot : ¬ (op.step = 0 ∧ areaTaken s g.ctx (op.words.getD 1 0) = false) := by
    rintro ⟨h0, hf⟩
    rcases h1 with h1 | h1
    · omega
    · rw [hf] at h1
      cases h1
  simp only [execBind, hg, hop]
  rw [if_neg hgo, if_neg hnot]

/-! ## GREBIND -/

theorem execRebind_arrives (hk : op.kind = 5) (h0 : op.step = 0) : exec (.rebind uid n) s = arriveRebind s g op := by
  show execRebind uid n s = _
  have hgo : ¬ (op.kind ≠ 5 ∨ 1 < op.step ∨ ¬ g.ext.isEmpty) := by simp [hk, hext, hstep]
  simp only [execRebind, hg, hop]
  rw [if_neg hgo, if_pos h0]

theorem execRebind_performs (hk : op.kind = 5) (h1 : op.step = 1) {old : Graph} (ho : graphAt s g.ctx (op.words.getD 1 0) = some old) :
    exec (.rebind uid n) s = bindOutcome s g op true (rebindGraph s g op old) := by
  show execRebind uid n s = _
  have hgo : ¬ (op.kind ≠ 5 ∨ 1 < op.step ∨ ¬ g.ext.isEmpty) := by simp [hk, hext, hstep]
  simp only [execRebind, hg, hop]
  rw [if_neg hgo, if_neg (by omega), ho]

end

/-- What a bind makes of its graph and of its write. -/
theorem bindGraph_ok {s t : State} {g : Group} {op : UnitOp} {gr : Graph} (hm : makeGraph s g op none = .ok gr) (hw : writeArea s g op gr = .ok t) :
    bindGraph s g op = .ok (setScope t g op (recordScope s g op)) := by
  simp only [bindGraph, hm, hw]
  rfl

theorem bindGraph_error {s : State} {g : Group} {op : UnitOp} {e : BindStop}
    (h : makeGraph s g op none = .error e ∨ ∃ gr, makeGraph s g op none = .ok gr ∧ writeArea s g op gr = .error e) : bindGraph s g op = .error e := by
  rcases h with h | ⟨gr, hm, hw⟩
  · simp only [bindGraph, h]
  · simp only [bindGraph, hm, hw]
    rfl

theorem stageMoved_iff (old new : Graph) :
    (List.range new.stages.length).any (stageMoved old new) = true
      ↔ ∃ k < new.stages.length, ∃ a b, old.stages[k]? = some a ∧ new.stages[k]? = some b ∧ dieOf a.core ≠ dieOf b.core := by
  simp only [List.any_eq_true, List.mem_range]
  refine exists_congr fun k => and_congr_right fun hk => ?_
  unfold stageMoved
  cases old.stages[k]? <;> cases new.stages[k]? <;> simp

theorem rebindGraph_ok {s t u : State} {g : Group} {op : UnitOp} {old new : Graph} {held : List (Place × List Byte × Word)}
    (hm : makeGraph s g op (some old) = .ok new) (hc : chanChanged old.chans new.chans = none) (hh : allHeld s g op.core old.chans new.chans = .ok held)
    (hp : putHeld s (frAgent g op.seq) held = .ok t) (hw : writeArea t g op (rescope old new) = .ok u) :
    rebindGraph s g op old
      = .ok (setScope u g op (if (List.range new.stages.length).any (stageMoved old new) then 3 else recordScope s g op)) := by
  simp only [rebindGraph, hm, hc, hh, hp, hw]
  rfl

theorem badPart_three : badPart 3 0 = .fault none 0 (0x0602, 3 * 2 ^ 40) := rfl

/-- A GREBIND that reaches the balance engine. -/
theorem arriveRebind_cases {s : State} {g : Group} {op : UnitOp} (h0 : op.step = 0) :
    (graphAt s g.ctx (op.words.getD 1 0) = none → arriveRebind s g op = .next (bindFailed s g op none 0 (0x0602, 3 * 2 ^ 40)))
    ∧ ∀ old, graphAt s g.ctx (op.words.getD 1 0) = some old →
      (∀ t, old.state ≠ 2 → saveGraph s (Graph.settle { old with cause := 0x0602 }) = some t →
          arriveRebind s g op = .next (bindFailed t g op none 0 (0x0602, 3 * 2 ^ 40)))
      ∧ (∀ k t, old.state = 2 → notQuiescent old = some k → saveGraph s (Graph.settle { old with cause := 0x0804 }) = some t →
          arriveRebind s g op = .next (bindFailed t g op none 0 (0x0804, k * 2 ^ 40)))
      ∧ (∀ t, old.state = 2 → notQuiescent old = none → saveGraph (regionOpBegun s g.uid op.seq) { old with state := 1 } = some t →
          arriveRebind s g op = .next t) := by
  refine ⟨fun hn => ?_, fun old ho => ⟨fun t h2 hs => ?_, fun k t h2 hq hs => ?_, fun t h2 hq hs => ?_⟩⟩
  · simp only [arriveRebind, hn, badPart_three]
    exact bindOutcome_fault (markFailed_none _ _ hn)
  · have hstate : failedState op true old.state = old.state := if_neg (by omega)
    simp only [arriveRebind, ho, badPart_three]
    rw [if_pos h2]
    exact bindOutcome_fault ((markFailed_some _ _ ho).trans (by rw [hstate]; exact hs))
  · have hstate : failedState op true old.state = old.state := if_neg (by omega)
    simp only [arriveRebind, ho, hq]
    rw [if_neg (not_not_intro h2)]
    exact bindOutcome_fault ((markFailed_some _ _ ho).trans (by rw [hstate]; exact hs))
  · simp only [arriveRebind, ho, hq]
    rw [if_neg (not_not_intro h2), show beginRebind s g op old = some t from hs]

theorem bindsEndTheirOperation : Claim.BindsEndTheirOperation := by
  intro s uid n g op hg hop hstep hext area ended fails empty taken unbound
  obtain rfl : g.uid = uid := group?_uid hg
  refine ⟨fun hk => ⟨fun h0 hun cause hsome hnone t ht => ?_, fun gr t h sw cw h1 hr hm hw => ?_, fun va kind c hcase herr => ?_⟩, fun hk h0 => ?_,
    fun hk h1 old ho => ⟨fun new held h sw cw t u hr hm hc hh hp hw => ?_, fun va kind c t he hs => ?_⟩⟩
  · have hfree : areaTaken s g.ctx area = false := by
      unfold areaTaken
      cases hgr : graphAt s g.ctx area with
      | none => rfl
      | some gr =>
        have := hun gr hgr
        simp only [List.mem_cons, List.not_mem_nil, or_false] at this
        rcases this with h | h <;> simp [h]
    refine execBind_begins hg hop hstep hext hk h0 hfree ?_
    have hcause : ((graphAt s g.ctx area).map (·.cause)).getD 0 = cause := by
      cases hgr : graphAt s g.ctx area with
      | none => exact (hnone hgr).symm
      | some gr => exact (hsome gr hgr).symm
    rw [beginBind, hcause]
    exact ht
  · rw [execBind_performs hg hop hstep hext hk (.inl h1), bindGraph_ok hm hw, bindOutcome_ok, recordScope_of hr]
    rfl
  · have htaken : op.step = 1 ∨ areaTaken s g.ctx area = true := by
      refine hcase.imp_right ?_
      rintro ⟨gr, hgr, hst⟩
      simp only [List.mem_cons, List.not_mem_nil, or_false] at hst
      rw [areaTaken, hgr]
      rcases hst with h | h | h <;> simp [h]
    have hexec : exec (.bind g.uid n) s = bindOutcome s g op false (.error (.fault va kind c)) := by
      rw [execBind_performs hg hop hstep hext hk htaken, bindGraph_error herr]
    exact ⟨fun gr t hgr hs => hexec.trans (bindOutcome_fault ((markFailed_some _ _ hgr).trans hs)),
      fun t hgr hs => hexec.trans (bindOutcome_fault ((markFailed_none _ _ hgr).trans hs))⟩
  · have hexec := execRebind_arrives hg hop hstep hext hk h0
    obtain ⟨hnone, hsome⟩ := arriveRebind_cases (s := s) (g := g) h0
    refine ⟨fun hn => hexec.trans (hnone hn), fun old ho => ?_⟩
    obtain ⟨ha, hb, hc⟩ := hsome old ho
    exact ⟨fun t h2 hs => hexec.trans (ha t h2 hs), fun k t h2 hq hs => hexec.trans (hb k t h2 hq hs), fun t h2 hq hs => hexec.trans (hc t h2 hq hs)⟩
  · have hexec : exec (.rebind g.uid n) s = .next (ended u (if (List.range new.stages.length).any (stageMoved old new) then 3 else recField h 0 37 3)) := by
      rw [execRebind_performs hg hop hstep hext hk h1 ho, rebindGraph_ok hm hc hh hp hw, bindOutcome_ok, recordScope_of hr]
      rfl
    intro moved
    exact ⟨fun hmv => hexec.trans (by rw [if_pos ((stageMoved_iff old new).mpr hmv)]),
      fun hmv => hexec.trans (by rw [if_neg fun x => hmv ((stageMoved_iff old new).mp x)])⟩
  · have hstate : failedState op true old.state = 2 := by rw [failedState, if_pos h1, if_pos rfl]
    rw [show fails (.rebind g.uid n) t va kind c = (exec (.rebind g.uid n) s = .next (bindFailed t g op va kind c)) from rfl,
      execRebind_performs hg hop hstep hext hk h1 ho, he]
    exact bindOutcome_fault ((markFailed_some _ _ ho).trans (by rw [hstate]; exact hs))

end Sys2Proof.Machine

open Sys2Proof Sys2Proof.Machine

/-- Settles O53: a bind's step follows from what the balance engine finds at its area, and its outcome from the graph that it makes. -/
theorem graphsAreBound : Obligations.GraphsAreBound := by
  unfold Obligations.GraphsAreBound
  exact ⟨bindsAreQueuedAndStatusIsLoaded, bindsEndTheirOperation⟩

end

section
/-! PROOFS. Firings and the records of channels (R288, R291 to R297). -/
namespace Sys2Proof.Machine
open Sys2Proof.Laws

/-! ## FIRE -/

section
variable {s : State} {x : Issue} {pd : PReg} {a : SReg} (h : Issues s x (.fire pd a))
include h

theorem exec_fire_binding {gr : Graph} (ha : areaFault s x.g (pairS x 9 a) = none) (hgr : graphAt s x.g.ctx (pairS x 9 a) = some gr)
    (h1 : gr.state = 1) : exec (.fire pd a) s = .next s := by
  show execFire pd a s = _
  rw [execFire, issue_next h]
  dsimp only
  rw [show areaFault s x.g (x.g.spair (sA x a)) = none from ha]
  dsimp only
  rw [show graphAt s x.g.ctx (x.g.spair (sA x a)) = some gr from hgr]
  dsimp only
  rw [if_pos h1]
  rfl

/-- A FIRE of a stage of its graph does what the stage allows. -/
theorem exec_fire_stage {gr : Graph} {k : Nat} (hf : firesAt s x a gr k) :
    exec (.fire pd a) s = .next (finish s x (yieldsOf (.fire pd a) x.ext) (fireStage s x pd gr k)) := by
  obtain ⟨ha, hgr, hst, hk, hfree⟩ := hf
  show execFire pd a s = _
  rw [execFire, issue_next h]
  dsimp only
  rw [show areaFault s x.g (x.g.spair (sA x a)) = none from ha]
  dsimp only
  rw [show graphAt s x.g.ctx (x.g.spair (sA x a)) = some gr from hgr]
  dsimp only
  rw [if_neg (show ¬ gr.state = 1 by omega), if_pos hst, hk, hfree]
  rfl

end

/-- A stage has nothing more to do where one of the tests of FIRE says so. -/
theorem stageDone_iff (gr : Graph) (k n : Nat) :
    ((gr.stage k).state ≠ 0 ∨ (gr.nperiod ≠ 0 ∧ gr.nperiod ≤ n / max 1 (gr.stage k).q) ∨ (gr.inputs k).any gr.exhausted = true) ↔ stageDone gr k n := by
  unfold stageDone
  rw [List.any_eq_true]

theorem fireStage_done {s t : State} {x : Issue} {pd : PReg} {gr : Graph} {k : Nat} (hd : stageDone gr k (ownFiring s x gr k))
    (hs : saveGraph s (if (gr.stage k).state = 0 then gr.endStage k 1 else gr) = some t) :
    fireStage s x pd gr k = .done (t.setGroup (predIn x.g x.lanes pd true)) := by
  have hdone := (stageDone_iff gr k (nextFiring (gr.stage k) (roleIndex s x.g).1 (roleIndex s x.g).2)).mpr hd
  unfold fireStage
  dsimp only
  rw [if_pos hdone, hs]
  rfl

theorem fireStage_opens {s t : State} {x : Issue} {pd : PReg} {gr : Graph} {k : Nat} (hd : ¬ stageDone gr k (ownFiring s x gr k))
    (hc : gr.cursorAt k (ownFiring s x gr k) = true) (hin : ∀ i ∈ gr.inputs k, gr.orphaned i = false ∧ (gr.available i).isSome = true)
    (hs : saveGraph s (gr.enter k) = some t) : fireStage s x pd gr k
      = .done (t.setGroup { predIn x.g x.lanes pd false with firing := some (gr.assign k (ownFiring s x gr k)) }) := by
  have horphan : (gr.inputs k).any gr.orphaned = false := List.any_eq_false.mpr fun i hi => by rw [(hin i hi).1]; exact Bool.false_ne_true
  have havail : ((gr.inputs k).all fun i => (gr.available i).isSome) = true := List.all_eq_true.mpr fun i hi => (hin i hi).2
  have hcur : gr.cursorAt k (nextFiring (gr.stage k) (roleIndex s x.g).1 (roleIndex s x.g).2) = true := hc
  have hopen := fun hk => hd ((stageDone_iff gr k (nextFiring (gr.stage k) (roleIndex s x.g).1 (roleIndex s x.g).2)).mp hk)
  unfold fireStage
  dsimp only
  rw [if_neg hopen, hcur, Bool.not_true, if_neg Bool.false_ne_true, horphan, if_neg Bool.false_ne_true,
    if_pos havail, hs]
  rfl

/-! ## FEND -/

theorem firingShort_none {gr : Graph} {f : Firing} (hi : ∀ i ∈ f.ins, i.rcvd = i.count) (ho : ∀ o ∈ f.outs, ∀ n ∈ o.sent, n = (gr.chan o.chan).prod) :
    firingShort gr f = none := by
  have h1 : (f.ins.find? fun i => i.rcvd != i.count) = none := List.find?_eq_none.mpr fun i h => by simp [hi i h]
  have h2 : (f.outs.find? fun o => o.sent.any fun n => n != (gr.chan o.chan).prod) = none := by
    refine List.find?_eq_none.mpr fun o h => ?_
    rw [Bool.not_eq_true, List.any_eq_false]
    intro n hn
    simp [ho o h n hn]
  rw [firingShort, h1, h2]
  rfl

theorem exec_fend {s t : State} {x : Issue} {a b : SReg} (h : Issues s x (.fend a b)) {gr : Graph} {f : Firing}
    (ha : areaFault s x.g (pairS x 9 a) = none) (hf : x.g.firing = some f) (hgr : graphAt s x.g.ctx f.area = some gr)
    (hshort : firingShort gr f = none) (hs : saveGraph s (closeFiring gr f ((opSB x b).getLsbD 0)) = some t) :
    exec (.fend a b) s = .next (completed (.fend a b) x (t.setGroup { x.g with firing := none })) := by
  have hlast : bitOf (x.g.sregGet (sB x b)).toNat 0 = (opSB x b).getLsbD 0 := bitOf_toNat _ _
  show execFend a b s = _
  rw [execFend, issue_next h]
  dsimp only
  rw [show areaFault s x.g (x.g.spair (sA x a)) = none from ha]
  dsimp only
  rw [hf]
  dsimp only
  rw [hgr]
  dsimp only
  rw [hshort]
  dsimp only
  rw [hlast, hs]
  exact congrArg _ (finish_completed h _)

/-! ## The graph at its area -/

theorem savePart_eq (gr : Graph) (s : State) (k : Nat) : savePart gr s k = partOpened gr s k := by
  unfold savePart partOpened
  cases gr.part k <;> rfl

theorem changes_eq (old gr : Graph) : old.changes gr = [0, 1, 2].filter fun k => !sameParts old gr k := by
  have h0 : decide ((old.state, old.cause, old.nperiod, old.periods, old.entry, old.count)
      = (gr.state, gr.cause, gr.nperiod, gr.periods, gr.entry, gr.count)) = sameParts old gr 0 := by
    rw [Bool.eq_iff_iff]
    simp [sameParts, and_assoc]
  have h1 : (decide (old.stages = gr.stages) && decide (old.bareChans = gr.bareChans)) = sameParts old gr 1 := by
    rw [Bool.eq_iff_iff]
    rw [Bool.and_eq_true, decide_eq_true_eq, decide_eq_true_eq, sameParts, if_neg Nat.one_ne_zero, if_pos rfl, Bool.and_eq_true, beq_iff_eq, beq_iff_eq]
    rfl
  have h2 : decide ((old.chans.map fun c => c.rings.map (·.full)) = gr.chans.map fun c => c.rings.map (·.full)) = sameParts old gr 2 := by
    rw [Bool.eq_iff_iff]
    simp [sameParts]
  unfold Graph.changes
  rw [h0, h1, h2]
  simp only [List.filter_cons, List.filter_nil]
  generalize sameParts old gr 0 = p
  generalize sameParts old gr 1 = q
  generalize sameParts old gr 2 = r
  revert p q r
  decide

theorem graphKept_of_saveGraph {s t : State} {gr : Graph} (h : saveGraph s gr = some t) : graphKept s t gr := by
  obtain ⟨u, hu, rfl⟩ := Option.map_eq_some_iff.mp h
  refine ⟨u, ?_, rfl⟩
  rw [← changes_eq, ← show savePart gr = partOpened gr from funext fun s => funext fun k => savePart_eq gr s k]
  exact hu

theorem ofLe_map_byte (s : State) (gr : Graph) (off n : Nat) : gr.areaNat s off n
    = (List.range n).foldr (fun i acc => (s.hbm.byte (gr.areaPa (off + i))).toNat + 256 * acc) 0 := by
  rw [Graph.areaNat]
  induction List.range n with
  | nil => rfl
  | cons i l ih => rw [List.map_cons, ofLe, ih, List.foldr_cons]

/-- A part that holds what the balance engine left there changes nothing of its graph. -/
theorem ifChanged_same {s : State} {raw : Graph} {k : Nat} (h : s.hbm.within (raw.part k) = raw.held.getD k []) (gr : Graph)
    (f : Graph → List Host.Cell → Graph) : gr.ifChanged s raw k f = gr := if_pos h

theorem foundGraph_same {s : State} {gr : Graph} (hp : gr.pages ≠ []) (hk : ∀ k < 3, s.hbm.within (gr.part k) = gr.held.getD k []) :
    foundGraph s gr = gr.tablesFrom s := by
  rw [foundGraph, if_neg (by simpa using hp), ifChanged_same (hk 2 (by decide)), ifChanged_same (hk 1 (by decide)), ifChanged_same (hk 0 (by decide))]

theorem firingsOpenAndClose : Claim.FiringsOpenAndClose := by
  intro pd a b s x
  refine ⟨fun gr h ha hgr h1 => exec_fire_binding h ha hgr h1, fun gr k t h hf hd hs => ?_, fun gr k t h hf hd hc hin hs => ?_,
    fun gr f t h ha hf hgr hi ho hs => exec_fend h ha hf hgr (firingShort_none hi ho) hs, fun gr t hs => graphKept_of_saveGraph hs, fun gr hp hk => ?_⟩
  · rw [exec_fire_stage h hf, fireStage_done hd hs, finish_completed h]
  · rw [exec_fire_stage h hf, fireStage_opens hd hc hin hs, finish_completed h]
  · intro word
    rw [foundGraph_same hp hk, Graph.tablesFrom]
    simp only [ofLe_map_byte, entryOf, bitsOf, Nat.pow_zero, Nat.div_one]
    rfl

/-! ## SEND -/

theorem sendMask_eq (v : Word) : bitList (bitsOf v.toNat 8 8) 8 = (List.range 8).filter fun k => v.getLsbD (8 + k) := by
  refine List.filter_congr fun k hk => ?_
  rw [bitOf_eq_testBit, testBit_bitsOf, decide_eq_true (List.mem_range.mp hk), Bool.true_and]
  rfl

theorem sendBody_done {s t u : State} {x : Issue} {va : DWord} {gr : Graph} {f : Firing} {o : FireOut} {ks : List Nat} {ps : List Place}
    {ds dst : List (List Place)} {c : Nat} (hc : o.chan = c)
    (hstate : ∀ k ∈ ks, (gr.stage ((gr.chan c).ring k).stage).state ≠ 2)
    (hfree : ∀ k ∈ ks.filter (fun k => (gr.stage ((gr.chan c).ring k).stage).state != 1),
      ((gr.chan c).ring k).taken (gr.chan c).size (o.first + o.sent.getD k 0) = false)
    (hsrc : linePlaces s x.g (lineAccess false recordTypes) va (gr.chan c).lines = .ok ps)
    (hdst : allPlaces (ks.map fun k => linePlaces s x.g (lineAccess true [0, 1]) ((gr.chan c).slotAddr k (o.first + o.sent.getD k 0))
      (gr.chan c).lines) = .ok dst)
    (hds : allPlaces ((ks.filter fun k => (gr.stage ((gr.chan c).ring k).stage).state != 1).map fun k =>
      linePlaces s x.g (lineAccess true [0, 1]) ((gr.chan c).slotAddr k (o.first + o.sent.getD k 0)) (gr.chan c).lines) = .ok ds)
    (hcopy : copySlots s x.g ps (((ks.filter fun k => (gr.stage ((gr.chan c).ring k).stage).state != 1).map fun k =>
      (gr.chan c).slotAddr k (o.first + o.sent.getD k 0)).zip ds) = .ok t)
    (hsent : sent t x gr f c ks (ks.filter fun k => (gr.stage ((gr.chan c).ring k).stage).state != 1)
      ((((ks.filter fun k => (gr.stage ((gr.chan c).ring k).stage).state != 1).zip ds).filter fun d => lateAt (gr.chan c) d.2).map (·.1))
      (fun k => o.first + o.sent.getD k 0) = some u) : sendBody s x va gr f o ks = .done u := by
  subst hc
  have h2 : (ks.any fun k => (gr.stage ((gr.chan o.chan).ring k).stage).state == 2) = false :=
    List.any_eq_false.mpr fun k hk => by simpa using hstate k hk
  have htaken : ((ks.filter fun k => (gr.stage ((gr.chan o.chan).ring k).stage).state != 1).any fun k =>
      ((gr.chan o.chan).ring k).taken (gr.chan o.chan).size (o.first + o.sent.getD k 0)) = false :=
    List.any_eq_false.mpr fun k hk => by rw [hfree k hk]; exact Bool.false_ne_true
  unfold sendBody
  dsimp only
  rw [hsrc, hdst]
  dsimp only
  rw [h2, if_neg Bool.false_ne_true, htaken, if_neg Bool.false_ne_true, hds]
  dsimp only
  rw [hcopy]
  dsimp only
  rw [hsent]

theorem taken_eq_false {r : Ring} {size p : Nat} (h : ∀ q ∈ r.full ++ r.late.map (·.1), q % max 1 size ≠ p % max 1 size) : r.taken size p = false :=
  List.any_eq_false.mpr fun q hq => by simpa using h q hq

/-- A SEND of an output whose checks pass sends its record. -/
theorem exec_send {s : State} {x : Issue} {a b : SReg} (h : Issues s x (.send a b)) {f : Firing} {gr : Graph} {o : FireOut}
    (hf : x.g.firing = some f) (hgr : graphAt s x.g.ctx f.area = some gr) (ho : f.outs.find? (fun o => o.chan == (opSB x b).toNat % 64) = some o)
    (hne : ((List.range 8).filter fun k => (opSB x b).getLsbD (8 + k)) ≠ [])
    (hks : ∀ k ∈ (List.range 8).filter fun k => (opSB x b).getLsbD (8 + k), k < (gr.chan ((opSB x b).toNat % 64)).rings.length
      ∧ o.sent.getD k 0 ≠ (gr.chan ((opSB x b).toNat % 64)).prod)
    (hready : ownAccessesDone s x)
    (hsys : (gr.chan ((opSB x b).toNat % 64)).escope = 4 → systemWaits s x.g .release .system = false) :
    exec (.send a b) s = .next (finish s x (yieldsOf (.send a b) x.ext) (sendBody s x (pairS x 9 a) gr f o
      ((List.range 8).filter fun k => (opSB x b).getLsbD (8 + k)))) := by
  have hbits : bitsOf (x.g.sregGet (sB x b)).toNat 0 6 = (opSB x b).toNat % 64 := by
    rw [bitsOf, Nat.pow_zero, Nat.div_one]
    rfl
  have hmask : bitList (bitsOf (x.g.sregGet (sB x b)).toNat 8 8) 8 = (List.range 8).filter fun k => (opSB x b).getLsbD (8 + k) := sendMask_eq _
  generalize (List.range 8).filter (fun k => (opSB x b).getLsbD (8 + k)) = ks at *
  generalize (opSB x b).toNat % 64 = c at *
  have hnum : (ks.any fun k => decide ((gr.chan c).rings.length ≤ k)) = false :=
    List.any_eq_false.mpr fun k hk => by simpa using (hks k hk).1
  have hprod : (ks.any fun k => o.sent.getD k 0 == (gr.chan c).prod) = false :=
    List.any_eq_false.mpr fun k hk => by simpa using (hks k hk).2
  have hwait : ((gr.chan c).escope == 4 && systemWaits s x.g .release .system) = false := by
    by_cases he : (gr.chan c).escope = 4
    · rw [hsys he, Bool.and_false]
    · rw [beq_eq_false_iff_ne.mpr he, Bool.false_and]
  show execSend a b s = _
  rw [execSend, issue_next h]
  dsimp only
  rw [hf]
  dsimp only
  rw [hgr]
  dsimp only
  rw [hbits, hmask, ho]
  dsimp only
  rw [List.isEmpty_eq_false_iff.mpr hne, hnum, Bool.or_false, if_neg Bool.false_ne_true, hprod, if_neg Bool.false_ne_true,
    (engineReady_iff s x).mpr hready, hwait, Bool.not_true, Bool.or_false, if_neg Bool.false_ne_true]
  rfl

/-! ## RECV -/

/-- A RECV of an input that its firing has takes the next record, or says that none is left. -/
theorem exec_recv {s : State} {x : Issue} {pd : PReg} {a b : SReg} (h : Issues s x (.recv pd a b)) {f : Firing} {gr : Graph} {i : FireIn} {k : Nat}
    (hf : x.g.firing = some f) (hgr : graphAt s x.g.ctx f.area = some gr) (hi : f.ins.find? (fun i => i.chan == (opSB x b).toNat % 64) = some i)
    (hk : (gr.inputs f.stage).find? (fun i => i.1 == (opSB x b).toNat % 64) = some ((opSB x b).toNat % 64, k))
    (hcons : i.rcvd ≠ (gr.chan ((opSB x b).toNat % 64)).cons) :
    exec (.recv pd a b) s = .next (finish s x (yieldsOf (.recv pd a b) x.ext)
      (if i.rcvd = i.count then .done (s.setGroup (predIn x.g x.lanes pd true))
       else if !engineReady s x.g then .stall else recvBody s x pd (pairS x 9 a) gr f i k)) := by
  have hbits : bitsOf (x.g.sregGet (sB x b)).toNat 0 6 = (opSB x b).toNat % 64 := by
    rw [bitsOf, Nat.pow_zero, Nat.div_one]
    rfl
  show execRecv pd a b s = _
  rw [execRecv, issue_next h]
  dsimp only
  rw [hf]
  dsimp only
  rw [hgr]
  dsimp only
  rw [hbits, hi, hk]
  dsimp only
  rw [if_neg hcons]
  rfl

theorem recvBody_done {s t u : State} {x : Issue} {pd : PReg} {va : DWord} {gr : Graph} {f : Firing} {i : FireIn} {k : Nat} {ps qs : List Place}
    {c : Nat} (hc : i.chan = c)
    (hp : linePlaces s x.g (lineAccess false [0, 1]) ((gr.chan c).slotAddr k (i.first + i.rcvd)) (gr.chan c).lines = .ok ps)
    (hq : linePlaces s x.g (lineAccess true recordTypes) va (gr.chan c).lines = .ok qs) (hcopy : copyLines s x.g 0 (ps.zip qs) = .ok t)
    (hr : received t x pd gr f i k (i.first + i.rcvd) = some u) : recvBody s x pd va gr f i k = .done u := by
  subst hc
  unfold recvBody
  dsimp only
  rw [hp, hq]
  dsimp only
  rw [hcopy]
  dsimp only
  rw [hr]

/-! ## The state after a record has moved -/

theorem copyLines_one {s t v : State} {g : Group} {p q : Place} (hv : writePlace s (agentOf g) q (readPlace s p 64) = some v)
    (ht : writeDesc v (agentOf g) q (readDesc s p).1 = some t) : copyLines s g 0 [(p, q)] = .ok t := by
  rw [copyLines, hv, Option.bind_some, ht]
  rfl

theorem ring_take_eq (r : Ring) (p k : Nat) (late : List Nat) (rin : BitVec 16) : r.take p (if late.contains k then some rin else none)
    = if k ∈ late then { r with late := r.late ++ [(p, rin)] } else { r with full := r.full ++ [p] } := by
  by_cases hk : k ∈ late
  · rw [if_pos (List.contains_iff_mem.mpr hk), if_pos hk]
    rfl
  · rw [if_neg fun h => hk (List.contains_iff_mem.mp h), if_neg hk]
    rfl

theorem recordsMoveThroughChannels : Claim.RecordsMoveThroughChannels := by
  intro pd a b s x f gr t u hf hgr
  refine ⟨fun o ps ds dst h hready => ?_, fun i k ps qs h hready => ?_, fun i k h => ?_, fun p q v hv ht => copyLines_one hv ht,
    fun c ks live late pos hs => ?_, fun i k p hs => ?_⟩
  · intro c ks ch pos live lines hsys ho hne hks hfree hsrc hdst hds hcopy late hsent
    have hc : o.chan = c := by simpa using List.find?_some ho
    rw [exec_send h hf hgr ho hne (fun k hk => ⟨(hks k hk).1, (hks k hk).2.1⟩) hready hsys,
      sendBody_done hc (fun k hk => (hks k hk).2.2) (fun k hk => taken_eq_false (hfree k hk)) hsrc hdst hds hcopy hsent, finish_completed h]
  · intro c ch hi hk hcons hcount hp hq hcopy hr
    have hc : i.chan = c := by simpa using List.find?_some hi
    rw [exec_recv h hf hgr hi hk hcons, if_neg hcount, (engineReady_iff s x).mpr hready, Bool.not_true, if_neg Bool.false_ne_true,
      recvBody_done hc hp hq hcopy hr, finish_completed h]
  · intro c hi hk hcons hcount
    rw [exec_recv h hf hgr hi hk hcons, if_pos hcount, finish_completed h]
  · obtain ⟨v, hv, rfl⟩ := Option.map_eq_some_iff.mp hs
    simp only [ring_take_eq] at hv
    refine ⟨v, hv, ?_⟩
    simp only [List.contains_iff_mem]
  · obtain ⟨v, hv, rfl⟩ := Option.map_eq_some_iff.mp hs
    exact ⟨v, hv, rfl⟩

end Sys2Proof.Machine

open Sys2Proof Sys2Proof.Machine

/-- Settles O54: FIRE, FEND, SEND and RECV each do what the tests before it allow, on the graph that stands at its area. -/
theorem firingsMoveRecords : Obligations.FiringsMoveRecords := by
  unfold Obligations.FiringsMoveRecords
  exact ⟨firingsOpenAndClose, recordsMoveThroughChannels⟩

end

section
/-! PROOFS. Seals: their requests, triggers and decisions, and the recovery words (R332 to R340). -/
namespace Sys2Proof.Machine
open Sys2Proof.Laws

/-! ## SEAL, SEALREQ and RVRD -/

/-- An issue all of whose threads wait at the first word. -/
theorem finish_wait_all {s : State} {x : Issue} {i : Instr} (h : Issues s x i) (u : State) (yields : Bool) :
    finish s x yields (.wait u [] true) = backAtFirst u x yields := by
  rw [(finish_wait h u (fun _ hl => absurd hl List.not_mem_nil) List.nodup_nil yields).2]
  simp only [backAtFirst, waitingAtFirst, List.not_mem_nil, if_false]

/-- The threads of a set that have yet to arrive at a SEAL. -/
def sealComing (x : Issue) : List Nat := x.lanes.filter fun l => !atSeal x.g l

theorem seal_stalls_iff (s : State) (x : Issue) : ((sealComing x).isEmpty || !engineReady s x.g) = true ↔ sealComing x = [] ∨ ¬ ownAccessesDone s x := by
  rw [Bool.or_eq_true, List.isEmpty_iff, Bool.not_eq_true', ← Bool.not_eq_true, engineReady_iff]

theorem exec_seal_arrives {s : State} {x : Issue} {pdead : Bool} (h : Issues s x (.seal pdead)) (hc : sealComing x ≠ []) (hr : ownAccessesDone s x) :
    exec (.seal pdead) s = .next (backAtFirst
      ((s.setGroup (x.g.withStatus (sealComing x) (.seal (x.g.ext.length + 1)))).modifyLaunch x.g.launch fun l =>
        if pdead then l else { l with sealSave := l.sealSave ++ [x.g.team] }) x x.ext.yields) := by
  have hgo : ¬ ((sealComing x).isEmpty || !engineReady s x.g) = true := fun hk => ((seal_stalls_iff s x).mp hk).elim hc fun hn => hn hr
  have hnd : (sealComing x).Nodup := h.nodup.filter _
  have hy : yieldsOf (.seal pdead) x.ext = x.ext.yields := Bool.or_false _
  show execSeal pdead s = _
  rw [execSeal, issue_next h, ← hy, ← finish_wait_all h]
  dsimp only
  rw [if_neg (show ¬ ((x.lanes.filter fun l => !atSeal x.g l).isEmpty || !engineReady s x.g) = true from hgo), show x.g.modifyThreads (x.lanes.filter fun l => !atSeal x.g l) _ = _ from modifyThreads_status hnd _ _]

theorem exec_seal_stalls {s : State} {x : Issue} {pdead : Bool} (h : Issues s x (.seal pdead)) (hc : sealComing x = [] ∨ ¬ ownAccessesDone s x) :
    exec (.seal pdead) s = .next s := by
  show execSeal pdead s = _
  rw [execSeal, issue_next h]
  dsimp only
  rw [if_pos (show ((x.lanes.filter fun l => !atSeal x.g l).isEmpty || !engineReady s x.g) = true from (seal_stalls_iff s x).mpr hc)]
  rfl

/-- A recovery word as the claim gives it. -/
theorem recoveryWord_eq (s : State) (g : Group) (k : Nat) : BitVec.ofNat 32 (recoveryWord s g k) = match k with
    | 0 => s.domain.rin.zeroExtend 32
    | 1 => s.domain.committed.zeroExtend 32
    | 2 => BitVec.ofNat 32 ((if s.domain.stage = 1 ∨ s.domain.stage = 2 then 2 ^ 16 else 0) + s.domain.interval.toNat)
    | 3 => BitVec.ofNat 32 (logUsed s (g.core / 48) * 256 / logSize s)
    | 4 => ((s.ctx? g.ctx).map (·.rollbacks)).getD 0
    | 5 => BitVec.ofNat 32 ((if s.domain.want then 1 else 0) + (if isPinned s g.ctx then 2 else 0))
    | 6 => BitVec.ofNat 32 ((s.deferred.filter fun d => d.ctx == g.ctx).length)
    | _ => BitVec.ofNat 32 s.domain.members.length := by
  match k with
  | 0 | 1 => exact BitVec.ofNat_toNat 32 _
  | 2 =>
    rw [recoveryWord]
    split <;> simp
  | 3 | 5 | 6 | n + 7 => rfl
  | 4 =>
    rw [recoveryWord]
    cases s.ctx? g.ctx <;> simp

theorem sealRequestsAndRecoveryWords : Claim.SealRequestsAndRecoveryWords := by
  intro pdead d b s x waitsHere coming
  have hcoming : coming = sealComing x := rfl
  refine ⟨fun h hc hr => exec_seal_arrives h hc hr, fun h hc => exec_seal_stalls h hc, fun h => ?_, fun h0 => if_pos h0,
    fun h0 hp => (if_neg h0).trans (if_pos hp), fun h0 hp => (if_neg h0).trans (if_neg (Bool.eq_false_iff.mp hp)), fun h => ?_⟩
  · show execSealreq d s = _
    have hrin : BitVec.ofNat 32 s.domain.rin.toNat = s.domain.rin.zeroExtend 32 := BitVec.ofNat_toNat 32 _
    rw [execSealreq, issue_next h, finish_completed h, hrin]
    rfl
  · show execRvrd d b s = _
    rw [execRvrd, issue_next h, finish_completed h, recoveryWord_eq]
    rfl

/-! ## Triggers -/

/-- Whether a park counts for the stall limit, as `stallStart` tests it. -/
theorem mem_stallParks (s : State) (p : Park) :
    p ∈ (logParks s).filter (fun p => (List.range Config.dies).any (fun d => logFull s d) || p.setLevel)
      ↔ ∃ g ∈ s.work.groups, g.park = some p ∧ p.cause = 0x0901 ∧ resident s g.ctx = true ∧ ((∃ die < 4, logFull s die = true) ∨ p.setLevel = true) := by
  have hfull : (List.range Config.dies).any (fun d => logFull s d) = true ↔ ∃ die < 4, logFull s die = true := by
    rw [List.any_eq_true]
    exact exists_congr fun d => and_congr_left fun _ => List.mem_range
  simp only [logParks, List.mem_filter, List.mem_filterMap, Bool.or_eq_true, hfull, beq_iff_eq]
  constructor
  · rintro ⟨⟨⟨g, ⟨hg, hr⟩, hp⟩, hc⟩, hs⟩
    exact ⟨g, hg, hp, hc, hr, hs⟩
  · rintro ⟨g, hg, hp, hc, hr, hs⟩
    exact ⟨⟨⟨g, ⟨hg, hr⟩, hp⟩, hc⟩, hs⟩

/-- The least time of a list of parks, one of which it may start from. -/
def leastTime (l : List Park) (m : Option Nat) : Option Nat :=
  l.foldl (fun m p => some (match m with
    | some t => min t p.time
    | none => p.time)) m

theorem leastTime_some (l : List Park) (a : Nat) : ∃ t, leastTime l (some a) = some t ∧ (t = a ∨ ∃ p ∈ l, p.time = t) ∧ t ≤ a ∧ ∀ p ∈ l, t ≤ p.time := by
  induction l generalizing a with
  | nil => exact ⟨a, rfl, .inl rfl, Nat.le_refl a, nofun⟩
  | cons p l ih =>
    obtain ⟨t, ht, hmem, hle, hall⟩ := ih (min a p.time)
    refine ⟨t, ht, ?_, by omega, fun q hq => ?_⟩
    · rcases hmem with h | ⟨q, hq, hqt⟩
      · rcases Nat.le_total a p.time with hap | hap
        · exact .inl (by rw [h, Nat.min_eq_left hap])
        · exact .inr ⟨p, List.mem_cons_self .., by rw [h, Nat.min_eq_right hap]⟩
      · exact .inr ⟨q, List.mem_cons_of_mem _ hq, hqt⟩
    · rcases List.mem_cons.mp hq with rfl | hq
      · omega
      · exact hall q hq

theorem leastTime_none (l : List Park) : (leastTime l none = none ↔ l = [])
    ∧ ∀ t, leastTime l none = some t → (∃ p ∈ l, p.time = t) ∧ ∀ p ∈ l, t ≤ p.time := by
  cases l with
  | nil => exact ⟨⟨fun _ => rfl, fun _ => rfl⟩, nofun⟩
  | cons p l =>
    obtain ⟨t, ht, hmem, hle, hall⟩ := leastTime_some l p.time
    have heq : leastTime (p :: l) none = some t := ht
    rw [heq]
    refine ⟨⟨nofun, nofun⟩, fun u hu => ?_⟩
    obtain rfl := Option.some.inj hu
    refine ⟨?_, fun q hq => ?_⟩
    · rcases hmem with h | ⟨q, hq, hqt⟩
      · exact ⟨p, List.mem_cons_self .., h.symm⟩
      · exact ⟨q, List.mem_cons_of_mem _ hq, hqt⟩
    · rcases List.mem_cons.mp hq with rfl | hq
      · exact hle
      · exact hall q hq

theorem atSeal_iff (g : Group) (k : Nat) : atSeal g k = true ↔ ∃ w, (g.thread k).status = .seal w := by
  unfold atSeal
  cases (g.thread k).status <;> simp

theorem resident_iff (s : State) (ctx : Nat) : resident s ctx = true ↔ ∃ c, s.ctx? ctx = some c ∧ resident s ctx = true := by
  refine ⟨fun h => ?_, fun ⟨_, _, h⟩ => h⟩
  cases hc : s.ctx? ctx with
  | none => simp [resident, hc] at h
  | some c => exact ⟨c, rfl, h⟩

theorem sealDone_iff (s : State) (l : Launch) : sealDone s l = true ↔ (l.gang = true ∧ (∃ c, s.ctx? l.ctx = some c ∧ resident s l.ctx = true)
    ∧ (∃ g ∈ s.work.groups, g.launch = l.uid ∧ g.live ≠ [])
    ∧ ∀ g ∈ s.work.groups, g.launch = l.uid → ∀ k ∈ g.live, ∃ w, (g.thread k).status = .seal w) := by
  simp only [sealDone, launchGroups, Bool.and_eq_true, List.any_eq_true, List.all_eq_true, List.mem_filter, beq_iff_eq, ← resident_iff, and_assoc,
    atSeal_iff, and_imp, Bool.not_eq_true', List.isEmpty_eq_false_iff]

theorem membersReachable_iff (s : State) : membersReachable s = true ↔ ∀ d ∈ s.domain.members, d = s.domain.device ∨ d ∉ s.domain.noRoute := by
  simp [membersReachable, List.all_eq_true, Bool.or_eq_true]

theorem sealsAreTriggeredAndDecided : Claim.SealsAreTriggeredAndDecided := by
  intro s counts
  obtain ⟨hnone, hsome⟩ := leastTime_none ((logParks s).filter fun p => (List.range Config.dies).any (fun d => logFull s d) || p.setLevel)
  have hstall : stallStart s = leastTime ((logParks s).filter fun p => (List.range Config.dies).any (fun d => logFull s d) || p.setLevel) none := rfl
  have hreq : s.domain.stage = 0 → requestSeal s = { s with domain := { s.domain with trigger := true } } := fun h0 => if_pos h0
  refine ⟨fun hb hper h0 htr hlast => ?_, fun t ht hb h0 htr hlim => ?_, ?_, fun t ht => ?_, fun hb h0 hwhy => ?_, fun h1 hp hc hm => ?_,
    fun h1 hc hwhy => ?_, fun l => sealDone_iff s l⟩
  · show execSealPeriod s = _
    rw [execSealPeriod, if_pos ⟨hb, hper, h0, htr, hlast⟩, hreq h0]
  · show execStallLimit s = _
    simp only [execStallLimit, ht]
    rw [if_pos ⟨hb, h0, htr, hlim⟩, hreq h0]
  · rw [hstall, hnone, List.eq_nil_iff_forall_not_mem]
    simp only [mem_stallParks]
    exact ⟨fun h g hg p hp => h p ⟨g, hg, hp⟩, fun h p ⟨g, hg, hp⟩ => h g hg p hp⟩
  · rw [hstall] at ht
    obtain ⟨⟨p, hp, hpt⟩, hall⟩ := hsome t ht
    obtain ⟨g, hg, hcount⟩ := (mem_stallParks s p).mp hp
    exact ⟨⟨g, hg, p, hcount, hpt⟩, fun g hg p hp => hall p ((mem_stallParks s p).mpr ⟨g, hg, hp⟩)⟩
  · show execSealTrigger s = _
    have hwhy' : s.domain.trigger = true ∨ s.work.launches.any (sealDone s) = true ∨ 1 < s.domain.members.length := by rwa [List.any_eq_true]
    rw [execSealTrigger, if_pos ⟨hb, h0, hwhy'⟩]
  · show execReady s = _
    rw [execReady, if_pos ⟨h1, hp, beq_iff_eq.mpr hc, (membersReachable_iff s).mpr hm⟩]
  · show execSealTimeout s = _
    have hwhy' : (s.domain.since + s.domain.sealTo * ticksPerMs ≤ s.clock ∧ reportOwed s = true) ∨ ¬ membersReachable s = true := by
      rcases hwhy with ⟨hto, howed⟩ | ⟨d, hd, hne, hno⟩
      · exact .inl ⟨hto, by simpa [reportOwed] using howed⟩
      · exact .inr fun hall => ((membersReachable_iff s).mp hall d hd).elim hne fun h => h hno
    rw [execSealTimeout, if_pos ⟨h1, beq_iff_eq.mpr hc, hwhy'⟩]

end Sys2Proof.Machine

open Sys2Proof Sys2Proof.Machine

/-- Settles O55: each event by its condition; the stall limit runs from the least time among the parks that count. -/
theorem sealsAreRequestedAndDecided : Obligations.SealsAreRequestedAndDecided := by
  unfold Obligations.SealsAreRequestedAndDecided
  exact ⟨sealRequestsAndRecoveryWords, sealsAreTriggeredAndDecided⟩

end

section
/-! PROOFS. Leases, routes and peers, and what the capture of lines leaves unchanged (R329, R330, R353 to R356). -/
namespace Sys2Proof.Machine
open Sys2Proof.Laws

/-! ## What a capture leaves unchanged (R330, R332) -/

theorem noteOccupancy_frame (s : State) (die : Nat) : noteOccupancy s die = { s with
    records := (noteOccupancy s die).records, domain := { s.domain with want := (noteOccupancy s die).domain.want } } := by
  unfold noteOccupancy
  split
  · rw [(emitRecord_spec _ _).1]
  · rfl

theorem captureLine_frame {s t : State} {pa : Nat} (h : captureLine s pa = some t) : t = { s with
    undo := t.undo, side := t.side, records := t.records, domain := { s.domain with want := t.domain.want } } := by
  unfold captureLine at h
  dsimp only at h
  split at h
  · obtain rfl := Option.some.inj h
    rfl
  · split at h
    · cases h
    · obtain rfl := Option.some.inj h
      rw [noteOccupancy_frame]
      rfl

theorem captureLines_cons {s t : State} {pa : Nat} {l : List Nat} (h : captureLines s (pa :: l) = some t) :
    ∃ u, captureLine s pa = some u ∧ captureLines u l = some t := by
  simpa only [captureLines, List.foldlM_cons, Option.bind_eq_bind, Option.bind_eq_some_iff] using h

theorem captureLines_frame {l : List Nat} : ∀ {s t : State}, captureLines s l = some t → t = { s with
    undo := t.undo, side := t.side, records := t.records, domain := { s.domain with want := t.domain.want } } := by
  induction l with
  | nil =>
    intro s t h
    obtain rfl : s = t := Option.some.inj h
    rfl
  | cons pa l ih =>
    intro s t h
    obtain ⟨u, hu, ht⟩ := captureLines_cons h
    have h1 := captureLine_frame hu
    have h2 := ih ht
    rw [h2, h1]

/-! ## Leases -/

theorem noticeStore_of_given {s t : State} {l : Lease} (h : noticeGiven s t l) : noticeStore s l = some t := by
  unfold noticeGiven at h
  unfold noticeStore
  cases hw : l.watch with
  | none =>
    rw [hw] at h
    exact congrArg some (Eq.symm h)
  | some w =>
    obtain ⟨ctx, core, va⟩ := w
    rw [hw] at h
    dsimp only at h ⊢
    cases hc : s.ctx? ctx with
    | none =>
      rw [hc] at h
      exact congrArg some (Eq.symm h)
    | some c =>
      rw [hc] at h
      dsimp only at h ⊢
      cases ha : checkAccess s c core none ⟨8, 8, 8, false, true, false, [0]⟩ va with
      | error e =>
        rw [ha] at h
        exact congrArg some (Eq.symm h)
      | ok p =>
        rw [ha] at h
        exact h

theorem leasesEndAtTheirDeadline : Claim.LeasesEndAtTheirDeadline := by
  intro dev num notice s l others
  refine ⟨fun hl h0 hn t ht => ?_, fun hl h1 hd => ?_, rfl⟩
  · have hgo : ¬ (l.state ≠ 0 ∨ notice.toNat < leastNotice) := by
      rintro (h | h)
      · exact h h0
      · exact absurd h (Nat.not_lt.mpr hn)
    show execLeaseNotice dev num notice s = _
    simp only [execLeaseNotice, hl]
    rw [if_neg hgo, show noticeStore (modifyLease s false l.dev l.num fun _ => _) _ = some t from noticeStore_of_given ht]
  · have hgo : ¬ (l.state ≠ 1 ∨ s.clock < l.deadline) := by
      rintro (h | h)
      · exact h h1
      · exact absurd h (Nat.not_lt.mpr hd)
    show execLeaseDeadline dev num s = _
    simp only [execLeaseDeadline, hl]
    rw [if_neg hgo]
    rfl

/-! ## Routes and peers -/

/-- A write of HBM performed at once, byte by byte. -/
theorem newWrite_eq (s : State) (pa : Nat) (data : List Byte) : newWrite s pa data = { s with
    hbm := s.hbm.write pa data, work := datedWork s pa data.length
    deferred := s.deferred.map fun d => d.replaced s.domain.rin (0, pa) data.length } := rfl

/-- The state in which a peer's write is performed: the lines of a tracked one are captured. -/
theorem peerArrives_eq {s u : State} {acc : PeerAccess} {data : List Byte}
    (ht : acc.dev.toNat ∈ s.domain.members ∧ inWindow s acc.pa = false → captureLines s (linesOf acc.pa data.length) = some u)
    (hn : ¬ (acc.dev.toNat ∈ s.domain.members ∧ inWindow s acc.pa = false) → u = s) : peerArrives s acc data = some (newWrite u acc.pa data) := by
  have hiff : inDomain s acc.dev.toNat = true ∧ ¬ inWindow s acc.pa = true ↔ acc.dev.toNat ∈ s.domain.members ∧ inWindow s acc.pa = false := by
    rw [inDomain, List.contains_iff_mem, Bool.not_eq_true]
  unfold peerArrives
  by_cases h : acc.dev.toNat ∈ s.domain.members ∧ inWindow s acc.pa = false
  · rw [if_pos (hiff.mpr h), trackedWrite, ht h]
    rfl
  · rw [if_neg fun hk => h (hiff.mp hk), hn h]

theorem peersReachThisDevice : Claim.PeersReachThisDevice := by
  intro s dev acc data hwf
  refine ⟨fun hd => ?_, rfl, ?_⟩
  · show execNoRoute dev s = _
    rw [execNoRoute, if_neg (by rwa [List.contains_iff_mem])]
  · intro hw hdesc hb hend hpa hlog tracked u ht hn
    have hframe : u = { s with undo := u.undo, side := u.side, records := u.records, domain := { s.domain with want := u.domain.want } } := by
      by_cases h : tracked
      · exact captureLines_frame (ht h)
      · rw [hn h]
    have hexec : exec (.peerAccessArrival acc) s = .next (newWrite u acc.pa data) := by
      have hgo : ¬ (s.regs.boot ≠ .ready ∨ Config.hbmBytes < acc.pa + data.length ∨ Config.hbmBytes ≤ acc.pa
          ∨ touchesLog s acc.pa (max 1 data.length) = true) := by
        rintro (h | h | h | h)
        · exact h hb
        · exact absurd h (Nat.not_lt.mpr hend)
        · exact absurd h (Nat.not_le.mpr hpa)
        · rw [hlog] at h
          cases h
      show execPeerAccessArrival acc s = _
      simp only [execPeerAccessArrival, hw, hdesc, Option.getD_some]
      rw [if_neg hgo, peerArrives_eq ht hn]
      rfl
    have hwork : u.work = s.work ∧ u.ctxs = s.ctxs ∧ u.host = s.host ∧ u.peer = s.peer ∧ u.hbm = s.hbm ∧ u.moveCount = s.moveCount
        ∧ u.deferred = s.deferred ∧ u.domain.rin = s.domain.rin := by
      rw [hframe]
      exact ⟨rfl, rfl, rfl, rfl, rfl, rfl, rfl, rfl⟩
    obtain ⟨h1, h2, h3, h4, h5, h6, h7, h8⟩ := hwork
    refine ⟨_, hexec, fun a => ?_, ?_, h1, h2, h3, h4⟩
    · rw [newWrite_eq, h5]
      exact byte_write (memoryWf_hbm hwf) acc.pa data a
    · rw [newWrite_eq, h7, h8]
      have hdated : datedWork u acc.pa data.length = datedWork s acc.pa data.length := by rw [datedWork, datedWork, h1, h6]
      rw [hdated]

end Sys2Proof.Machine

open Sys2Proof Sys2Proof.Machine

/-- Settles O57: each event by its conditions; the capture of lines changes the logs, the sidebands, the records and WANT alone. -/
theorem leasesRoutesAndPeers : Obligations.LeasesRoutesAndPeers := by
  unfold Obligations.LeasesRoutesAndPeers
  exact ⟨leasesEndAtTheirDeadline, peersReachThisDevice⟩

end

section
/-! PROOFS. Seal points, COMMIT and ABORT (R230, R332, R333, R335, R336, R341). -/
namespace Sys2Proof.Machine
open Sys2Proof.Laws

/-! ## The seal point -/

theorem sealPointsPassTheirThreads : Claim.SealPointsPassTheirThreads := by
  intro s g
  have hiff : (s.work.launches.any fun l => l.uid == g.launch && sealDone s l) = true ↔ ∃ l ∈ s.work.launches, l.uid = g.launch ∧ sealDone s l = true := by
    simp [List.any_eq_true]
  refine ⟨fun hno => ?_, fun hdone => ?_⟩
  · refine if_neg fun h => ?_
    obtain ⟨l, hl, huid, hd⟩ := hiff.mp h
    exact absurd hd (by simp [hno l hl huid])
  · have hafter : afterSeal = fun th => match th.status with
        | .seal words => { th with status := .run, pc := th.pc + BitVec.ofNat 64 (4 * words) }
        | _ => th := by
      funext th
      unfold afterSeal
      cases th.status <;> rfl
    exact (if_pos (hiff.mpr hdone)).trans (by rw [hafter] <;> rfl)

theorem freeHalf_iff (c : Ctx) : freeHalf c = true ↔ c.hasSeal = true ∧ c.half = false := by
  simp [freeHalf]

theorem sealFramesTakeTheFreeHalf : Claim.SealFramesTakeTheFreeHalf := by
  intro s skip c base
  have hbase : halfBase c (freeHalf c) = base := by
    show c.sealBase + (if freeHalf c = true then saveSize else 0) = base
    simp only [freeHalf_iff, base, saveSize]
  rw [sealContext, hbase]

theorem sealReady_of {s : State} (h : ∀ g ∈ s.work.groups, resident s g.ctx = true → g.ext = [] ∧ g.loads = [] ∧ g.mmas = [] ∧ g.tiles = [] ∧ g.stores = []) :
    sealReady s = true := by
  refine List.all_eq_true.mpr fun g hg => ?_
  by_cases hr : resident s g.ctx = true
  · obtain ⟨h1, h2, h3, h4, h5⟩ := h g hg hr
    simp [atSealPoint, h1, h2, h3, h4, h5]
  · simp [hr]

theorem prepareTakesTheSealPoint : Claim.PrepareTakesTheSealPoint := by
  refine ⟨sealPointsPassTheirThreads, sealFramesTakeTheFreeHalf, ?_⟩
  intro s h1 hp hidle hage taken ctxs framed
  have hgo : ¬ (s.domain.stage ≠ 1 ∨ s.domain.passed = true ∨ s.domain.interval ≠ s.domain.interval ∨ ¬ sealReady s = true ∨ ageingDue s = true) := by
    simp [h1, hp, sealReady_of hidle, hage]
  show execPrepare s.domain.interval s = _
  rw [execPrepare, if_neg hgo]
  rfl

/-! ## Deferred writes at a commit -/

theorem foldl_commitLost (l : List (Target × List Byte × BitVec 16)) (s : State) : l.foldl commitLost s
    = { s with undo := l.foldl (fun (u : List Undo) p => u.map fun x => if notAfter x.rin p.2.2 then Undo.withBytes p.1 p.2.1 x else x) s.undo } := by
  induction l generalizing s with
  | nil => rfl
  | cons p l ih => exact ih (commitLost s p)

theorem performDeferred_ready {s : State} (d : Deferred) (hb : s.regs.boot = .ready) : performDeferred s d
    = (fun t => if d.record then raiseVector t 3 else t) (if d.home then s
      else if d.desc then
        (if d.stale.isEmpty then commitDesc s d.target (BitVec.ofNat 32 (ofLe d.data))
         else d.stale.foldl (commitLostDesc d.target (BitVec.ofNat 32 (ofLe d.data))) s)
      else d.parts.foldl commitBytes (d.lost.foldl commitLost s)) := by
  rw [performDeferred, if_neg (by simp [hb])]

/-- What still stands of a deferred write, and what a later write has replaced, where some of its bytes are replaced. -/
theorem foldl_parts_of_stale {d : Deferred} (h : d.stale ≠ []) (s : State) : d.parts.foldl commitBytes s
    = (d.data.zipIdx.filter fun e => decide (∀ k ∈ d.stale, k.1 ≠ e.2)).foldl (fun t e =>
        performOutside { t with undo := t.undo.map (Undo.withBytes (shiftTarget d.target e.2) [e.1]) } (shiftTarget d.target e.2) [e.1]) s := by
  have hempty : d.stale.isEmpty = false := by simp [h]
  have hfilter : (d.data.zipIdx.filter fun (_, k) => !d.stale.any fun x => x.1 == k) = d.data.zipIdx.filter fun e => decide (∀ k ∈ d.stale, k.1 ≠ e.2) := by
    refine List.filter_congr fun e _ => ?_
    rw [Bool.eq_iff_iff]
    simp
  rw [Deferred.parts, hempty, if_neg Bool.false_ne_true, hfilter, List.foldl_map]
  rfl

theorem deferredWritesArePerformed : Claim.DeferredWritesArePerformed := by
  refine ⟨fun _ _ => rfl, fun s d hb => ?_⟩
  intro raised
  refine ⟨fun hh => ?_, ?_, fun hh hd hs => ?_, ?_, ?_, fun _ => rfl, fun _ => rfl⟩
  · rw [performDeferred_ready d hb, hh]
    rfl
  · intro hh hd hs x
    rw [performDeferred_ready d hb, hh, hd, hs]
    rfl
  · have hp : d.parts = [(d.target, d.data)] := by rw [Deferred.parts, hs] <;> rfl
    have hl : d.lost = [] := by rw [Deferred.lost, hs] <;> rfl
    rw [performDeferred_ready d hb, hh, hd, hp, hl]
    rfl
  · intro k r hh hd hs lost
    rw [performDeferred_ready d hb, hh, hd, hs]
    rfl
  · intro hh hd hs lost
    have hlost : d.lost.foldl commitLost s = { s with undo := lost } := by
      rw [foldl_commitLost, Deferred.lost, List.foldl_map]
    rw [performDeferred_ready d hb, hh, hd, foldl_parts_of_stale hs, hlost]
    rfl

/-! ## Captured lines that a commit reaches -/

theorem holds_hbm {u : Undo} (h : u.die ≠ Config.dies) (pa : Nat) : u.holds (.hbm pa) = true := by
  rw [Undo.holds, if_neg h] <;> rfl

theorem commitsReachTheCapturedLines : Claim.CommitsReachTheCapturedLines := by
  intro u pa data x hdie
  have hbytes : Undo.withBytes (.hbm pa) data u = { u with data := u.data.zipIdx.map fun (b, k) =>
      if pa ≤ u.pa + k ∧ u.pa + k < pa + data.length then data.getD (u.pa + k - pa) b else b } := by
    rw [Undo.withBytes, holds_hbm hdie] <;> rfl
  refine ⟨⟨by rw [hbytes], fun k hk => ?_⟩, ?_, fun dev => ⟨?_, ?_⟩⟩
  · rw [hbytes]
    have hget : u.data.getD k 0 = u.data[k] := by simp [hk]
    by_cases hin : pa ≤ u.pa + k ∧ u.pa + k < pa + data.length
    · have hlt : u.pa + k - pa < data.length := by omega
      simp [hk, hin, hlt]
    · simp [hk, hin]
  · rw [Undo.withDesc, holds_hbm hdie, if_neg hdie, Bool.true_and]
    simp only [beq_iff_eq]
    rfl
  · have hno : u.holds (.peer dev pa) = false := by rw [Undo.holds, if_neg hdie] <;> rfl
    rw [Undo.withBytes, hno] <;> rfl
  · have hno : u.holds (.host pa) = false := by rw [Undo.holds, if_neg hdie] <;> rfl
    rw [Undo.withBytes, hno] <;> rfl

/-! ## Slots, owed stores and HOLD -/

theorem commits_eq_notAfter (r t : BitVec 16) : commits r t = notAfter t r := by
  by_cases h : t = r
  · simp [commits, notAfter, h]
  · have hpos : 1 ≤ (r - t).toNat := by
      have hne : r - t ≠ 0 := fun h0 => h (by bv_omega)
      have : (r - t).toNat ≠ 0 := fun h0 => hne (BitVec.eq_of_toNat_eq h0)
      omega
    rw [commits, notAfter, precedes, beq_false_of_ne h, Bool.false_or, decide_eq_true hpos, Bool.true_and]

theorem performed_same {r : BitVec 16} {q : Ring} (h : ∀ p ∈ q.late, notAfter p.2 r = false) : q.performed r = q := by
  have hnone : (q.late.filter fun p => commits r p.2) = [] := List.filter_eq_nil_iff.mpr fun p hp => by simp [commits_eq_notAfter, h p hp]
  have hall : (q.late.filter fun p => !commits r p.2) = q.late := List.filter_eq_self.mpr fun p hp => by simp [commits_eq_notAfter, h p hp]
  rw [Ring.performed, hnone, hall, List.map_nil, List.append_nil]

theorem committed_same {r : BitVec 16} {gr : Graph} (h : ∀ c ∈ gr.chans, ∀ q ∈ c.rings, ∀ p ∈ q.late, notAfter p.2 r = false) : gr.committed r = gr := by
  have hchan : (gr.chans.map fun c => { c with rings := c.rings.map (·.performed r) }) = gr.chans := by
    refine (List.map_congr_left fun c hc => ?_).trans (List.map_id _)
    have hrings : c.rings.map (·.performed r) = c.rings :=
      (List.map_congr_left fun q hq => performed_same (h c hc q hq)).trans (List.map_id _)
    rw [hrings]
    rfl
  rw [Graph.committed, hchan]

theorem commitsFillSlots : Claim.CommitsFillSlots := by
  refine ⟨fun r q => ?_, fun s r h => ?_, fun s r gr t hgr hne hs => ?_⟩
  · simp only [Ring.performed, commits_eq_notAfter, and_self]
  · have hkeep : ∀ l : List Graph, (∀ gr ∈ l, gr.committed r = gr) →
        l.foldl (fun s raw => if raw.committed r = raw then s else saveOrPut s ((foundGraph s raw).committed r)) s = s := by
      intro l hl
      induction l with
      | nil => rfl
      | cons gr l ih =>
        rw [List.foldl_cons, if_pos (hl gr List.mem_cons_self)]
        exact ih fun g hg => hl g (List.mem_cons_of_mem _ hg)
    exact hkeep _ fun gr hg => committed_same (h gr hg)
  · rw [commitSlots, hgr, List.foldl_cons, List.foldl_nil, if_neg hne, saveOrPut, hs]
    rfl

theorem owedStoresAreMade : Claim.OwedStoresAreMade := by
  refine ⟨fun s gr hs => ?_, fun s gr hgr => ?_⟩
  · intro old
    rw [saveOrPut, hs, dueParts, changes_eq]
    rfl
  · refine ⟨fun ho => ?_, fun ho t ht => ?_, fun ho hn => ?_⟩
    · rw [payOwed, hgr, List.foldl_cons, List.foldl_nil, ho]
      rfl
    · rw [payOwed, hgr, List.foldl_cons, List.foldl_nil, if_neg (by simp [ho]), ht]
      rfl
    · rw [payOwed, hgr, List.foldl_cons, List.foldl_nil, if_neg (by simp [ho]), hn]
      rfl

theorem commitsClearHolds : Claim.CommitsClearHolds := by
  intro s r q hq h
  refine ⟨fun hno => ?_, fun hh hlt t ht => ⟨fun hr => ?_, fun hr u hu => ?_⟩⟩
  · rw [clearHold, hq, List.foldl_cons, List.foldl_nil]
    refine if_neg fun hc => ?_
    obtain ⟨hc1, hc2⟩ := hc
    rcases hno with hf | hge
    · exact absurd (hf.symm.trans hc1) Bool.false_ne_true
    · exact absurd hc2 (Nat.not_lt.mpr hge)
  · rw [clearHold, hq, List.foldl_cons, List.foldl_nil]
    refine (if_pos ⟨hh, hlt⟩).trans ?_
    rw [ht]
    exact if_neg hr
  · rw [clearHold, hq, List.foldl_cons, List.foldl_nil]
    refine (if_pos ⟨hh, hlt⟩).trans ?_
    rw [ht]
    exact (if_pos hr).trans (by rw [hu] <;> rfl)

theorem logsAreNoted : Claim.LogsAreNoted := by
  intro s h
  have hkeep : ∀ die < 4, noteOccupancy s die = s := fun die hd => if_neg fun hc => by
    obtain ⟨hc, -⟩ := hc
    have := h die hd
    omega
  show [0, 1, 2, 3].foldl noteOccupancy s = s
  simp only [List.foldl_cons, List.foldl_nil, hkeep 0 (by decide), hkeep 1 (by decide), hkeep 2 (by decide), hkeep 3 (by decide)]

/-! ## COMMIT and ABORT -/

theorem commitAndAbortEndTheSeal : Claim.CommitAndAbortEndTheSeal := by
  refine ⟨deferredWritesArePerformed, commitsReachTheCapturedLines, commitsFillSlots, owedStoresAreMade, commitsClearHolds, logsAreNoted,
    fun _ _ _ => mem_parkedWith, ?_⟩
  intro s snap r idle kept done given resumed
  refine ⟨fun _ => rfl, fun hstage hsnap => ?_, fun hstage hready => ?_⟩
  · have hgo : ¬ (r ≠ s.domain.interval ∨ ¬ (s.domain.stage = 2 ∨ (s.domain.stage = 1 ∧ s.domain.passed = true ∧ ¬ coordinates s = true))) := by
      rintro (h | h)
      · exact h rfl
      · refine h (hstage.imp_right fun ⟨h1, h2, h3⟩ => ⟨h1, h2, ?_⟩)
        simpa [coordinates] using h3
    have hcommit : exec (.commit r) s = if done.regs.boot ≠ .ready then .next done else .next (noteLogs (settle (settleAllStores (settle resumed)))) := by
      show execCommit r s = _
      rw [execCommit, if_neg hgo, hsnap]
      rfl
    exact ⟨fun hb => hcommit.trans (if_pos hb), fun hb => hcommit.trans (if_neg (not_not.mpr hb))⟩
  · intro t
    have hgo : r = s.domain.interval ∧ (s.domain.stage = 3 ∨ (s.domain.stage = 1 ∧ ¬ coordinates s = true)) ∧ (s.domain.passed = true ∨ sealReady s = true) :=
      ⟨rfl, hstage.imp_right fun ⟨h1, h2⟩ => ⟨h1, by simpa [coordinates] using h2⟩, hready.imp_right sealReady_of⟩
    have habort : exec (.abort r) s = .next (noteLogs (if recordWaits s then { t with domain := { t.domain with trigger := true } } else t)) := by
      show execAbort r s = _
      rw [execAbort, if_pos hgo]
      rfl
    refine ⟨fun hno => habort.trans ?_, fun hyes => habort.trans ?_⟩
    · rw [if_neg]
      simpa [recordWaits] using hno
    · rw [if_pos]
      simpa [recordWaits] using hyes

end Sys2Proof.Machine

open Sys2Proof Sys2Proof.Machine

/-- Settles O58: PREPARE, COMMIT and ABORT by their conditions; each thing that a commit does has a lemma of its own. -/
theorem sealPointsAreKeptOrDropped : Obligations.SealPointsAreKeptOrDropped := by
  unfold Obligations.SealPointsAreKeptOrDropped
  exact ⟨prepareTakesTheSealPoint, commitAndAbortEndTheSeal⟩

end

section
/-! PROOFS. Launches: their blocks, their placement and their completion records (R13, R371 to R376). -/
namespace Sys2Proof.Machine
open Sys2Proof.Laws

/-! ## Completion records -/

theorem doneBytes_length (s : State) (c : Ctx) (status reason : Nat) : (doneBytes s c status reason).length = 32 := by
  simp [doneBytes, leBytes_length]

theorem storeRecord_outside {s : State} {ctx : Nat} {t : Target} (h : savedPond s ctx t = none) (data : List Byte) :
    storeRecord s ctx t data = performOutside (replaceDeferred s t data.length) t data := by
  rw [storeRecord, h]

theorem savedPond_pond {s : State} {ctx : Nat} {k : Ctx} (h : s.ctx? ctx = some k) (core off : Nat) : savedPond s ctx (.pond core off)
    = if k.state = .saved then some (k.saBase + 0x18000000 + core * 0x120000 + off) else none := by
  simp only [savedPond, h]

theorem savedPond_elsewhere (s : State) (ctx : Nat) {t : Target} (h : ∀ core off, t ≠ .pond core off) : savedPond s ctx t = none := by
  unfold savedPond
  cases s.ctx? ctx with
  | none => rfl
  | some c =>
    cases t with
    | pond core off => exact absurd rfl (h core off)
    | hbm | host | peer | leased | mmio | fitted => rfl

theorem inPond_elsewhere {t : Target} (h : ∀ core off, t ≠ .pond core off) : inPond t = false := by
  cases t with
  | pond core off => exact absurd rfl (h core off)
  | hbm | host | peer | leased | mmio | fitted => rfl

theorem completionRecordsAreWritten : Claim.CompletionRecordsAreWritten := by
  intro s c va status reason data stored
  have hlen : data.length = 32 := doneBytes_length s c status reason
  refine ⟨fun place immed h0 => if_pos h0, fun cause d immed h0 => if_neg h0, fun p h0 => (if_neg h0).trans rfl, fun p t h0 hp ha => ?_,
    fun p core off t h0 hp ha => ?_, fun core off k hk => ⟨fun hs => ?_, fun hs => ?_⟩, fun t ht => ?_, fun p hp => ?_⟩
  · rw [doneRecord, if_neg h0]
    show Option.map requestSeal (acceptDeferred (if inPond p.target = true then _ else s) _ p.target data (inPond p.target) true) = _
    rw [inPond_elsewhere hp, if_neg Bool.false_ne_true, ha] <;> rfl
  · rw [doneRecord, if_neg h0]
    show Option.map requestSeal (acceptDeferred (if inPond p.target = true then stored p.target else s) _ p.target data (inPond p.target) true) = _
    rw [show inPond p.target = true by rw [hp] <;> rfl, if_pos rfl, ha] <;> rfl
  · show storeRecord s c.num (.pond core off) data = _
    rw [storeRecord, savedPond_pond hk, if_pos hs]
  · show storeRecord s c.num (.pond core off) data = _
    rw [storeRecord_outside (by rw [savedPond_pond hk, if_neg hs]), hlen]
  · show storeRecord s c.num t data = _
    rw [storeRecord_outside (savedPond_elsewhere s c.num ht), hlen]
  · rw [lastPlace, hp] <;> rfl

/-! ## Taking a block -/

section
variable {s : State} {k : BitVec 6} {n : Inlet} (hn : s.inlets[k.toNat]? = some n) (hb : s.regs.boot = .ready) (hen : n.en = true)
  (hht : n.head ≠ n.tail) (herr : n.error = false) (hpl : inletPlacing s k.toNat = false)
include hn hb hen hht herr hpl

/-- The inlet's head moves past the block, whose launch takes the next identity. -/
theorem execLaunchTake_busy : exec (.launchTake k) s =
    (let w := headBlock s n
    let l := blockLaunch s.nextUid k.toNat w
    let s1 := { s with inlets := s.inlets.set k.toNat { n with head := n.head + 1 }, nextUid := s.nextUid + 1 }
    if rejectReason s w l = 0 then .next { s1 with work := { s1.work with launches := s1.work.launches ++ [l] } }
    else match rejectBlock s1 l (rejectReason s w l) with
      | some t => .next t
      | none => stutter s) := by
  have hbusy : inletBusy n = true := by simp [inletBusy, hen, hht, herr]
  have hgo : ¬ (s.regs.boot ≠ .ready ∨ ¬ inletBusy n = true ∨ inletPlacing s k.toNat = true) := by simp [hb, hbusy, hpl]
  show execLaunchTake k s = _
  rw [execLaunchTake, hn]
  dsimp only
  rw [if_neg hgo, modifyAt_eq_set (fun n : Inlet => { n with head := n.head + 1 }) s.inlets k.toNat n hn] <;> rfl

end

theorem accepting_none {s : State} {num : Nat} (h : ∀ c, created? s num = some c → c.dying = true) : accepting? s num = none := by
  rw [accepting?, Option.filter_eq_none_iff]
  intro c hc
  simp [h c hc]

/-! ## Placement -/

theorem roleOf_mem {rs : List Role} {k n : Nat} {r : Role} {m : Nat} (h : roleOf rs k n = some (r, m)) : r ∈ rs := by
  induction rs generalizing k n with
  | nil => cases h
  | cons x rs ih =>
    rw [roleOf] at h
    split at h
    · cases h
      exact List.mem_cons_self
    · exact List.mem_cons_of_mem _ (ih h)

/-- The S registers of a group at its first instruction. -/
theorem sregs_fresh (a b : Word) (r : Nat) : sget 0 (sputAll 0 [] [(0, a), (1, b)]) r = if r = 0 then a else if r = 1 then b else 0 := by
  show sget 0 (sput 0 (sput 0 [] 0 a) 1 b) r = _
  rw [sget_sput 1 b r (swf_sput 0 a rfl), sget_sput 0 a r rfl]
  rcases Nat.lt_trichotomy r 1 with h | rfl | h
  · obtain rfl : r = 0 := by omega
    rfl
  · rfl
  · rw [if_neg (by omega), if_neg (by omega), if_neg (by omega), if_neg (by omega)]
    rfl

theorem sregs_fresh_wf (a b : Word) : swf 0 (sputAll 0 [] [(0, a), (1, b)]) = true :=
  swf_sput 1 b (swf_sput 0 a rfl)

section
variable (uid : Nat) (l : Launch) (team group core slot : Nat) (r : Role) (role : Nat)

theorem freshGroup_thread {lane : Nat} (h : lane < 64) : (freshGroup uid l team group core slot r role).thread lane = freshThread r.entry := by
  have hget : ∀ (x y : Thread) (m : Nat), lane < m → (List.replicate m x).getD lane y = x := fun x y m hm => by simp [hm]
  exact hget _ _ 64 h

theorem freshGroup_argument : (freshGroup uid l team group core slot r role).spair 0 = l.argva := by
  show joinWords (sget 0 _ 0) (sget 0 _ (0 + 1)) = _
  rw [show (freshGroup uid l team group core slot r role).sreg = sputAll 0 [] [(0, loWord l.argva), (1, hiWord l.argva)] from rfl,
    sregs_fresh, sregs_fresh]
  exact joinWords_lo_hi l.argva

theorem freshGroup_canonical : (freshGroup uid l team group core slot r role).canonical = true := by
  show (swf 0 [] && swf 0 (sputAll 0 [] [(0, loWord l.argva), (1, hiWord l.argva)]) && swf 0 [] && swf 0 [] && swf 0x7F [] && swf 0 [] && swf 0 [] && swf 0 []
    && swf 0 []) = true
  rw [sregs_fresh_wf] <;> rfl

end

/-! ## Completion -/

theorem unbindGraphs_single {s t : State} {gr : Graph} {l : Nat} (hg : s.work.graphs = [gr]) (hl : gr.launch = l) (hst : gr.state = 2 ∨ gr.state = 3)
    (hs : saveGraph s { foundGraph s gr with state := 0 } = some t) : unbindGraphs s l = some t := by
  have hf : ([gr].filter fun gr => gr.launch == l && (gr.state == 2 || gr.state == 3)) = [gr] := by
    rcases hst with h | h <;> simp [hl, h]
  rw [unbindGraphs, hg, hf, List.foldlM_cons, hs]
  rfl

end Sys2Proof.Machine

open Sys2Proof Sys2Proof.Machine

/-- Settles O30: the block taken, the groups placed and the record written, each by its conditions. -/
theorem launchesAreTakenPlacedAndCompleted : Obligations.LaunchesAreTakenPlacedAndCompleted := by
  unfold Obligations.LaunchesAreTakenPlacedAndCompleted
  refine ⟨completionRecordsAreWritten, fun s k l ps => ⟨?_, fun x c t hl hc hrun hw hd ho hf hm => ?_, fun x p uid g hg => ?_,
    fun x c t hl hc hb hp he hno ht => ?_, fun h => ?_, fun gr t hg hl hst hs => unbindGraphs_single hg hl hst hs⟩⟩
  · intro n hn hb hen hht herr hpl w x s1
    have hexec := execLaunchTake_busy hn hb hen hht herr hpl
    refine ⟨fun h0 => hexec.trans (if_pos h0), fun hdying => ?_, fun h0 t ht => hexec.trans ((if_neg h0).trans ?_)⟩
    · rw [rejectReason, accepting_none hdying]
    · show (match rejectBlock s1 x (rejectReason s w x) with
        | some t => Host.Outcome.next t
        | none => stutter s) = _
      rw [ht]
  · have hgo : ¬ (c.state ≠ .running ∨ ¬ placesWhole x ps (teamsNamed ps) = true ∨ ¬ teamsDue x (teamsNamed ps) = true ∨ outranked s x = true) := by
      simp [hrun, hw, hd, ho]
    show execTeamPlacement l ps s = _
    rw [execTeamPlacement, hl]
    dsimp only
    rw [hc]
    dsimp only
    rw [if_neg hgo, hf, Bool.not_true, if_neg Bool.false_ne_true, hm]
  · obtain ⟨⟨r, n⟩, hr, rfl⟩ := Option.map_eq_some_iff.mp hg
    refine ⟨rfl, fun lane hlane => ⟨r, roleOf_mem hr, freshGroup_thread _ _ _ _ _ _ _ _ hlane⟩, fun _ _ => rfl, freshGroup_argument _ _ _ _ _ _ _ _,
      fun k hk => ?_, rfl, rfl, rfl, freshGroup_canonical _ _ _ _ _ _ _ _⟩
    exact (sregs_fresh _ _ k).trans (by rw [if_neg (by omega), if_neg (by omega)])
  · have hgo : ¬ (s.regs.boot ≠ .ready ∨ x.placed.length < x.total ∨ x.ended < x.total ∨ (s.work.groups.any fun g => g.launch == x.uid) = true) := by
      simp only [hb, ne_eq, not_true_eq_false, false_or, not_or, not_lt, List.any_eq_true, beq_iff_eq, not_exists, not_and]
      exact ⟨hp, he, hno⟩
    show execLaunchCompletion l s = _
    rw [execLaunchCompletion, hl]
    dsimp only
    rw [hc]
    dsimp only
    rw [if_neg hgo, ht]
  · have hf : (s.work.graphs.filter fun gr => gr.launch == l && (gr.state == 2 || gr.state == 3)) = [] := by
      refine List.filter_eq_nil_iff.mpr fun gr hgr hc => ?_
      simp only [Bool.and_eq_true, Bool.or_eq_true, beq_iff_eq] at hc
      obtain ⟨hlaunch, hst⟩ := hc
      obtain ⟨h2, h3⟩ := h gr hgr hlaunch
      exact hst.elim h2 h3
    rw [unbindGraphs, hf]
    rfl

end

section
/-! PROOFS. COLL whose completion word has no element: a completion address in a fitted region (R216, R244, R360, R383). -/
namespace Sys2Proof.Machine
open Sys2Proof.Laws

/-- COLL of the record that S2:S3 names, with its completion address in S12:S13. -/
def collInstr : Instr := .coll 2 4 12

/-- The numbers in memory, each with its place and its bytes: a leaf that makes the page of address 0x10000 a fitted region, the region's header,
which has eight elements of two bytes, a collective record at 0x100 and its communicator of one rank at 0x180. -/
def collNumbers : List (Nat × Nat × Nat) :=
  [(0x40010, 16, 0x641 + 0x60000 * 2 ^ 64), (0x60000, 8, 2 * 2 ^ 40 + 2 * 2 ^ 32 + 2 * 2 ^ 29 + 2 ^ 22 + 2 ^ 19), (0x60008, 8, 3 * 2 ^ 48 + 7),
   (0x60020, 8, 0x3F800000), (0x60030, 8, 1), (0x60038, 8, 0x10000), (0x60040, 8, 4),
   (0x50100, 8, 0x200), (0x50108, 8, 0x300), (0x50110, 8, 0x180), (0x50120, 8, 1), (0x50180, 8, 1)]

/-- A memory with these numbers. -/
def withCollNumbers (m : Memory) : Memory := collNumbers.foldl (fun m (pa, n, x) => m.writeNat pa n x) m

/-- A group that issues COLL with its completion address at the first element outside the region. -/
def collState : State :=
  let s := (placeWord State.reset ((encode collInstr).getD 0).toNat).modifyGroup 1 fun g => (g.sregPut 2 0x100).sregPut 12 0x10020
  { s with hbm := withCollNumbers s.hbm, ctxs := s.ctxs.map fun c => { c with snap := withCollNumbers c.snap }, agenda := [], cur := some (1, [0]) }

def collIssue : Issue :=
  (currentIssue collState).getD { uid := 0, lanes := [], g := freshGroup 0 (placedLaunch 1 0) 0 0 0 0 placedRole 0, ext := extOf [], members := [] }

/-- The engines that the records of a state name (R383). -/
def recordEngines (s : State) : List Nat := s.records.recent.map fun w => recField w 0 16 8

theorem collState_issues : Issues collState collIssue collInstr :=
  ⟨by decide, by decide, by decide, by decide, by decide, by decide, by decide, by decide, by decide⟩

theorem collState_ready : mayIssueTo collState collIssue collIssue.g.clops.length := ⟨⟨by decide, by decide⟩, by decide⟩

theorem collState_reads : ∃ r table, readColl collState collIssue (pairS collIssue 17 2) = .ok (r, table) := by
  have hok : (readColl collState collIssue (pairS collIssue 17 2)).toOption.isSome = true := by decide +kernel
  cases h : readColl collState collIssue (pairS collIssue 17 2) with
  | error e =>
    rw [h] at hok
    cases hok
  | ok p => exact ⟨p.1, p.2, rfl⟩

/-- The completion address lies outside the region, which is 0x0501 with the element that it names. -/
theorem collState_completion_faults : compFault collState collIssue.g (compAddr collIssue 12) = some (0x10020, 0x0501, 8) := by decide +kernel

/-- The model's record of that fault names engine 5, the Spring units. -/
theorem collState_names_the_spring_units : (match exec collInstr collState with
    | .next t => recordEngines t
    | _ => []) = [5] := by decide +kernel

/-- O56's record of that fault names engine 0. -/
theorem collPark_names_the_core : recordEngines (takePark (backAtFirst collState collIssue collIssue.ext.yields) collIssue.uid
    { cause := 0x0501, lanes := collIssue.lanes, va := some 0x10020, kind := 1, detail := 8, setLevel := true, skip := collIssue.g.ext.length + 1 })
    = [0] := by decide +kernel

end Sys2Proof.Machine

open Sys2Proof Sys2Proof.Machine

/-- Refutes O56: where the completion address of a COLL lies in a fitted region outside its extents, the park's record names engine 5 (R383), and
not engine 0. -/
theorem not_collectivesIssueAndComplete : ¬ Obligations.CollectivesIssueAndComplete := by
  unfold Obligations.CollectivesIssueAndComplete
  rintro ⟨hissue, -⟩
  obtain ⟨-, hfault, -⟩ := hissue 2 4 12 0 0 0 collState collIssue
  obtain ⟨r, table, hread⟩ := collState_reads
  have hexec : exec collInstr collState = _ :=
    hfault r table _ _ collState_issues collState_ready hread collState_completion_faults
  have hengines := collState_names_the_spring_units
  rw [hexec] at hengines
  exact absurd (hengines.symm.trans collPark_names_the_core) (by decide)

end

section
/-! PROOFS. Loads of fitted regions (R216, R219, R222, R232). -/
namespace Sys2Proof.Machine
open Sys2Proof.Laws

/-- The value that a region reads as at a point inside it. -/
theorem pointValue_eq (m : Memory) (hdr : Nat) (h : Header) (q : Point) : pointValue m hdr h q
    = if h.state = 4 then m.readNat (h.dempa + h.indexOf q * h.esize) h.esize
      else match liveEntry m hdr h (coordWord q) with
        | some i => (excAt m hdr h i).value
        | none => evalNet m hdr h h.aslot q := rfl

/-- The element at an index, where OOD is not FAULT or the index lies inside. -/
theorem elementAt_ok {m : Memory} {hdr : Nat} {h : Header} {idx : Nat} (ho : (h.outside (h.pointOf idx)).isSome = true → h.ood ≠ 0) :
    elementAt m hdr h idx = .ok (if (h.outside (h.pointOf idx)).isSome = true ∧ h.ood ≠ 0 ∧ h.ood ≠ 1 then h.fill
      else pointValue m hdr h (if (h.outside (h.pointOf idx)).isSome = true ∧ h.ood = 1 then h.clampPoint (h.pointOf idx) else h.pointOf idx)) := by
  rw [elementAt]
  cases hout : h.outside (h.pointOf idx) with
  | none => simp
  | some d =>
    have h0 : h.ood ≠ 0 := ho (by rw [hout]; rfl)
    by_cases h1 : h.ood = 1
    · simp [h1]
    · simp [h0, h1]

theorem regionBytes_ok {m : Memory} {hdr : Nat} {h : Header} (f : Nat → Byte) (n va : Nat) (hb : ∀ k < n, regionByte m hdr h (va + k) = .ok (f k)) :
    regionBytes m hdr h va n = .ok ((List.range n).map f) := by
  induction n generalizing va f with
  | zero => rfl
  | succ n ih =>
    have hrest := ih (fun k => f (k + 1)) (va + 1) fun k hk => by rw [Nat.add_right_comm, Nat.add_assoc]; exact hb (k + 1) (by omega)
    have hfirst : regionByte m hdr h va = .ok (f 0) := hb 0 (by omega)
    rw [regionBytes, hfirst, hrest, List.range_succ_eq_map, List.map_cons, List.map_map]
    rfl

theorem regionHolds_iff (s : State) (hdr : Nat) : regionHolds s hdr = true ↔ ∃ y ∈ s.work.springHeld, y.hdr = hdr := by
  simp [regionHolds, List.any_eq_true]

end Sys2Proof.Machine

open Sys2Proof Sys2Proof.Machine

/-- Settles O17: byte by byte, each from the element that its offset names. -/
theorem regionLoadsReadElements : Obligations.RegionLoadsReadElements := by
  unfold Obligations.RegionLoadsReadElements
  intro s hdr va n kind h elem
  refine ⟨fun hst hheld hin => ?_, fun h0 => ⟨_, if_pos h0⟩, fun hwait => ?_⟩
  · have hno : ¬ (h.state = 1 ∨ h.state = 3 ∨ regionHolds s hdr = true) := by
      rw [regionHolds_iff]
      rintro (h1 | h3 | ⟨y, hy, he⟩)
      · omega
      · omega
      · exact hheld y hy he
    have hbytes : regionBytes s.hbm hdr h (va % 2 ^ 64) n = .ok ((List.range n).map fun k =>
        BitVec.ofNat 8 (elem k / 256 ^ (h.offsetOf ((va % 2 ^ 64) + k) % h.esize))) := by
      refine regionBytes_ok _ n _ fun k hk => ?_
      rw [regionByte, elementAt_ok (hin k hk)]
      simp only [pointValue_eq]
      rfl
    refine (if_neg (show ¬ h.state = 0 by omega)).trans ((if_neg hno).trans ?_)
    show (match regionBytes s.hbm hdr h (va % 2 ^ 64) n with
      | .ok b => Fitted.ok b
      | .error e => .fault e) = _
    rw [hbytes]
  · have h0 : h.state ≠ 0 := by
      rcases hwait with h1 | h3 | ⟨h0, -⟩ <;> omega
    have hyes : h.state = 1 ∨ h.state = 3 ∨ regionHolds s hdr = true :=
      hwait.imp_right (Or.imp_right fun ⟨_, hy⟩ => (regionHolds_iff s hdr).mpr hy)
    exact (if_neg h0).trans (if_pos hyes)

end

section
/-! PROOFS. Headers of fitted regions: what writing a field changes (R212, R233). -/
namespace Sys2Proof.Machine
open Sys2Proof.Laws

/-! ## A field of a number -/

/-- A number with a field replaced, by the part above the field and the part below it. -/
theorem setBits_eq (w lo n v : Nat) : setBits w lo n v = 2 ^ lo * (w / 2 ^ (lo + n) * 2 ^ n + v % 2 ^ n) + w % 2 ^ lo := by
  have hq : w / 2 ^ lo = 2 ^ n * (w / 2 ^ (lo + n)) + bitsOf w lo n := by
    rw [Nat.pow_add, ← Nat.div_div_eq_div_mul]
    exact (Nat.div_add_mod (w / 2 ^ lo) (2 ^ n)).symm
  have hw : 2 ^ lo * (2 ^ n * (w / 2 ^ (lo + n)) + bitsOf w lo n) + w % 2 ^ lo = w := by
    rw [← hq]
    exact Nat.div_add_mod w (2 ^ lo)
  have hkept : w - bitsOf w lo n * 2 ^ lo = 2 ^ lo * (2 ^ n * (w / 2 ^ (lo + n))) + w % 2 ^ lo := by
    rw [Nat.mul_add] at hw
    have := Nat.mul_comm (bitsOf w lo n) (2 ^ lo)
    omega
  rw [setBits, hkept, Nat.mul_add, Nat.mul_comm (w / 2 ^ (lo + n)) (2 ^ n), Nat.mul_comm (v % 2 ^ n)]
  omega

theorem setBits_div (w lo n v : Nat) : setBits w lo n v / 2 ^ lo = w / 2 ^ (lo + n) * 2 ^ n + v % 2 ^ n := by
  rw [setBits_eq, Nat.mul_add_div (Nat.two_pow_pos lo), Nat.div_eq_of_lt (Nat.mod_lt _ (Nat.two_pow_pos lo)), Nat.add_zero]

theorem bitsOf_setBits (w lo n v : Nat) : bitsOf (setBits w lo n v) lo n = v % 2 ^ n := by
  rw [bitsOf, setBits_div, Nat.mul_add_mod_self_right, Nat.mod_mod]

theorem setBits_mod (w lo n v : Nat) : setBits w lo n v % 2 ^ lo = w % 2 ^ lo := by
  rw [setBits_eq, Nat.mul_add_mod, Nat.mod_mod]

theorem setBits_above (w lo n v : Nat) : setBits w lo n v / 2 ^ (lo + n) = w / 2 ^ (lo + n) := by
  rw [Nat.pow_add, ← Nat.div_div_eq_div_mul, setBits_div, ← Nat.pow_add, Nat.mul_comm, Nat.mul_add_div (Nat.two_pow_pos n),
    Nat.div_eq_of_lt (Nat.mod_lt _ (Nat.two_pow_pos n)), Nat.add_zero]

/-- The bits outside a field stay. -/
theorem bitOf_setBits (w lo n v : Nat) {b : Nat} (hb : b < lo ∨ lo + n ≤ b) : bitOf (setBits w lo n v) b = bitOf w b := by
  rw [bitOf_eq_testBit, bitOf_eq_testBit]
  rcases hb with hlow | hhigh
  · have h : ∀ x : Nat, x.testBit b = (x % 2 ^ lo).testBit b := fun x => by rw [Nat.testBit_mod_two_pow, decide_eq_true hlow, Bool.true_and]
    rw [h, h w, setBits_mod]
  · obtain ⟨j, rfl⟩ := Nat.exists_eq_add_of_le hhigh
    have h : ∀ x : Nat, x.testBit (lo + n + j) = (x / 2 ^ (lo + n)).testBit j := fun x => by rw [Nat.testBit_div_two_pow, Nat.add_comm]
    rw [h, h w, setBits_above]

theorem setBits_lt {w lo n : Nat} (v : Nat) (hw : w < 2 ^ 64) (hn : lo + n ≤ 64) : setBits w lo n v < 2 ^ 64 := by
  refine Nat.lt_pow_two_of_testBit _ fun b hb => ?_
  rw [← bitOf_eq_testBit, bitOf_setBits w lo n v (.inr (hn.trans hb)), bitOf_eq_testBit]
  exact Nat.testBit_lt_two_pow (hw.trans_le (Nat.pow_le_pow_right Nat.two_pos hb))

/-! ## A number in memory -/

theorem read_congr {m m' : Memory} {a n : Nat} (h : ∀ c, a ≤ c → c < a + n → m'.byte c = m.byte c) : m'.read a n = m.read a n := by
  induction n generalizing a with
  | zero => rfl
  | succ n ih => rw [Memory.read, Memory.read, h a (Nat.le_refl a) (by omega), ih fun c h1 h2 => h c (by omega) (by omega)]

theorem readNat_write_same {m : Memory} (h : m.wf = true) (a n x : Nat) : (m.write a (leBytes n x)).readNat a n = x % 256 ^ n := by
  have hread := Memory.read_write_same h a (leBytes n x)
  rw [leBytes_length] at hread
  rw [Memory.readNat, hread, ofLe_leBytes]

theorem readNat_write_other (m : Memory) {a b n : Nat} {l : List Byte} (h : b + n ≤ a ∨ a + l.length ≤ b) : (m.write a l).readNat b n = m.readNat b n := by
  rw [Memory.readNat, Memory.readNat, read_congr fun c h1 h2 => Memory.byte_write_other m a l (by omega)]

theorem ofLe_lt (l : List Byte) : ofLe l < 256 ^ l.length := by
  induction l with
  | nil => exact Nat.one_pos
  | cons b l ih =>
    have hb : b.toNat < 256 := b.isLt
    rw [ofLe, List.length_cons, Nat.pow_succ]
    omega

theorem readNat_lt (m : Memory) (a : Nat) : m.readNat a 8 < 2 ^ 64 := by
  have h := ofLe_lt (m.read a 8)
  rw [Memory.read_length] at h
  exact h

/-! ## A header's field -/

theorem headerAt_word (m : Memory) (hdr : Nat) {k : Nat} (hk : k < 16) : (headerAt m hdr).getD k 0 = m.readNat (hdr + 8 * k) 8 := by
  have hget : ∀ (n : Nat) (f : Nat → Nat), k < n → ((List.range n).map f).getD k 0 = f k := fun n f h => by simp [h]
  exact hget 16 (fun k => m.readNat (hdr + 8 * k) 8) hk

/-- A tracked write writes its bytes and dates its words. -/
theorem trackedWrite_writes {s u : State} {pa : Nat} {data : List Byte} (h : trackedWrite s pa data = some u) :
    u.hbm = s.hbm.write pa data ∧ u.work = datedWork s pa data.length := by
  obtain ⟨c, hc, rfl⟩ := Option.map_eq_some_iff.mp h
  have hframe := captureLines_frame hc
  rw [newWrite_eq]
  refine ⟨?_, ?_⟩
  · show c.hbm.write pa data = _
    rw [hframe]
  · show datedWork c pa data.length = _
    rw [hframe]
    rfl

theorem headerFieldsChangeAlone : Claim.HeaderFieldsChangeAlone := by
  intro s u hdr k lo n v hwf hk hn hset
  obtain ⟨hmem, hwork⟩ := trackedWrite_writes hset
  rw [leBytes_length] at hwork
  have hsame : (headerAt u.hbm hdr).getD k 0 = setBits ((headerAt s.hbm hdr).getD k 0) lo n v := by
    rw [headerAt_word _ _ hk, headerAt_word _ _ hk, hmem, readNat_write_same hwf]
    exact Nat.mod_eq_of_lt (setBits_lt v (readNat_lt _ _) hn)
  refine ⟨by rw [hsame, bitsOf_setBits], fun j hj b _ hb => ?_, fun a ha => ?_, hwork⟩
  · by_cases hjk : j = k
    · subst hjk
      rw [hsame]
      exact bitOf_setBits _ lo n v (hb.resolve_left fun h => h rfl)
    · rw [headerAt_word _ _ hj, headerAt_word _ _ hj, hmem, readNat_write_other _ (by rw [leBytes_length]; omega)]
  · rw [hmem]
    exact Memory.byte_write_other _ _ _ (by rw [leBytes_length]; omega)

end Sys2Proof.Machine
end

section
/-! PROOFS. Operations that reach their Spring unit (R225, R226, R230, R231, R236, R237). -/
namespace Sys2Proof.Machine
open Sys2Proof.Laws

/-! ## The operation in its group -/

theorem modifyGroup_twice (s : State) (uid : Nat) (f f' : Group → Group) (hu : ∀ g, (f g).uid = g.uid) :
    (s.modifyGroup uid f).modifyGroup uid f' = s.modifyGroup uid fun g => f' (f g) := by
  have hmap : ((s.work.groups.map fun x => if x.uid == uid then f x else x).map fun x => if x.uid == uid then f' x else x)
      = s.work.groups.map fun x => if x.uid == uid then f' (f x) else x := by
    rw [List.map_map]
    refine List.map_congr_left fun x _ => ?_
    show (if (if x.uid == uid then f x else x).uid == uid then f' (if x.uid == uid then f x else x) else (if x.uid == uid then f x else x)) = _
    by_cases hx : (x.uid == uid) = true
    · rw [if_pos hx, hu, if_pos hx, if_pos hx]
    · rw [if_neg hx, if_neg hx, if_neg hx]
  show ({ s with work := { s.work with groups := _ } } : State) = _
  rw [State.modifyGroup]
  exact congrArg (fun l : List Group => ({ s with work := { s.work with groups := l } } : State)) hmap

/-- An operation that has ended has begun. -/
theorem beginFrop_regionOpDone (u : State) (uid seq code cause idx : Nat) :
    beginFrop (regionOpDone u uid seq code cause idx) uid seq = regionOpDone u uid seq code cause idx := by
  have hop : ∀ y : UnitOp, (fun z : UnitOp => if z.seq = seq ∧ z.step = 0 then { z with step := 1 } else z)
      (if y.seq = seq then { y with step := 2, done := some (code, BitVec.ofNat 16 cause, BitVec.ofNat 48 idx) } else y)
      = if y.seq = seq then { y with step := 2, done := some (code, BitVec.ofNat 16 cause, BitVec.ofNat 48 idx) } else y := by
    intro y
    by_cases hy : y.seq = seq
    · rw [if_pos hy]
      exact if_neg fun h => absurd h.2 (Nat.succ_ne_zero 1)
    · rw [if_neg hy]
      exact if_neg fun h => hy h.1
  rw [beginFrop, regionOpDone, modifyGroup_twice _ _ _ _ (by intro g; rfl)]
  simp only [List.map_map]
  congr 1
  funext g
  congr 1
  exact List.map_congr_left fun y _ => hop y

/-- A Spring unit changes its region twice: the second change applies to what the first leaves. -/
theorem modifyRegion_twice (s : State) (hdr : Nat) (f f' : Region → Region) (hh : ∀ r, (f r).hdr = r.hdr) :
    modifyRegion (modifyRegion s hdr f) hdr f' = modifyRegion s hdr fun r => f' (f r) := by
  have hmap : ((s.work.regions.map fun r => if r.hdr == hdr then f r else r).map fun r => if r.hdr == hdr then f' r else r)
      = s.work.regions.map fun r => if r.hdr == hdr then f' (f r) else r := by
    rw [List.map_map]
    refine List.map_congr_left fun x _ => ?_
    show (if (if x.hdr == hdr then f x else x).hdr == hdr then f' (if x.hdr == hdr then f x else x) else (if x.hdr == hdr then f x else x)) = _
    by_cases hx : (x.hdr == hdr) = true
    · rw [if_pos hx, hh, if_pos hx, if_pos hx]
    · rw [if_neg hx, if_neg hx, if_neg hx]
  show ({ s with work := { s.work with regions := _ } } : State) = _
  rw [modifyRegion]
  exact congrArg (fun l : List Region => ({ s with work := { s.work with regions := l } } : State)) hmap

/-! ## RESULT -/

theorem finishFrop_ok {s u : State} {hdr : Nat} {r : RResult} (hr : r ≠ .error) (op : Option (Nat × Nat)) (hs : setField s hdr 11 0 8 r.code = some u) :
    finishFrop s hdr op r 0 0 = some (ownerDone u op r.code) := by
  rw [finishFrop, setResult, if_neg hr, hs]
  cases op <;> rfl

theorem failFrop_header {s u : State} {g : Group} {op : UnitOp} {hdr : Nat} {c : CauseDetail} {idx : Nat} (kind va : Nat)
    (hs : setFields s hdr (errorFields c.1 idx) = some u) :
    failFrop s g op (some hdr) c idx kind va = some (regionOpDone (emitRecord u (regionRecord g op c kind va)) g.uid op.seq 6 c.1 idx) := by
  have hset : setResult s hdr .error c.1 idx = some u := (if_pos rfl).trans hs
  rw [failFrop, hset]
  rfl

/-! ## Refits that end without a commit -/

theorem refitsAbort : Claim.RefitsAbort := by
  intro s hdr h owner
  refine ⟨fun h0 => if_pos h0, fun h0 u v w hu hv hw => ?_⟩
  have hunmark : unmark s hdr = some u := hu
  have hend : finishFrop (modifyRegion u hdr Region.idle) hdr owner .aborted 0 0 = some (ownerDone v owner 4) :=
    finishFrop_ok (r := .aborted) (by decide) owner hv
  refine (if_neg h0).trans ?_
  rw [hunmark, Option.bind_some]
  show (finishFrop (modifyRegion u hdr Region.idle) hdr owner .aborted 0 0).bind (fun s => setField s hdr 0 27 2 0) = some w
  rw [hend]
  exact hw

theorem startDemotion_idle {s u : State} {hdr : Nat} (op : Option (Nat × Nat)) (h0 : (headerAt s.hbm hdr).rstate = 0)
    (hu : setField (demoteFor s hdr op) hdr 0 29 3 3 = some u) : startDemotion s hdr op = some u := by
  obtain ⟨habort, -⟩ := refitsAbort s hdr
  rw [startDemotion, habort h0]
  exact hu

theorem startDemotion_refits {s t u : State} {hdr : Nat} (op : Option (Nat × Nat)) (ht : abortRefit s hdr = some t)
    (hu : setField (demoteFor t hdr op) hdr 0 29 3 3 = some u) : startDemotion s hdr op = some u := by
  rw [startDemotion, ht]
  exact hu

/-! ## RFIT, RDEM and RABORT -/

section
variable {s : State} {uid n : Nat} {g : Group} {op : UnitOp} (hg : s.group? uid = some g) (hop : g.frops[n]? = some op) (h0 : op.step = 0)
include hg hop h0

/-- An operation whose arrival finds room takes effect. -/
theorem exec_arrival {t : State} (ha : arriveOp (noteUnit s g op) g op = some t) :
    exec (.springOperationArrival uid n) s = .next (beginFrop t uid op.seq) := by
  show execSpringOperationArrival uid n s = _
  simp only [execSpringOperationArrival, hg, hop, h0, ne_eq, not_true_eq_false, if_false, ha]

theorem exec_arrival_ends {u : State} {code cause idx : Nat} (ha : arriveOp (noteUnit s g op) g op = some (regionOpDone u g.uid op.seq code cause idx)) :
    exec (.springOperationArrival uid n) s = .next (regionOpDone u uid op.seq code cause idx) := by
  rw [exec_arrival hg hop h0 ha, ← group?_uid hg, beginFrop_regionOpDone]

end

theorem noteUnit_other {s : State} {g : Group} {op : UnitOp} (hk : op.kind ≠ 0) : noteUnit s g op = s := if_pos hk

theorem denseSized_iff (h : Header) : h.denseSized = true ↔ h.points ≤ h.params + h.livecnt := decide_eq_true_iff

theorem regionOperationsArrive : Claim.RegionOperationsArrive := by
  intro s uid n g op hg hop h0 hdr h me becomes atOnce fails small
  have huid : g.uid = uid := group?_uid hg
  have hfail : ∀ (c : CauseDetail) u, setFields s hdr (errorFields c.1 0) = some u →
      failFrop s g op (some hdr) c 0 0 (opVa op) = some (regionOpDone (emitRecord u (regionRecord g op c 0 (op.words.getD 0 0).toNat)) g.uid op.seq 6 c.1 0) :=
    fun c u hu => failFrop_header 0 (opVa op) hu
  have hend : ∀ (r : RResult), r ≠ .error → ∀ t u, setField t hdr 11 0 8 r.code = some u →
      endWith t g op hdr r = some (regionOpDone u g.uid op.seq r.code 0 0) := fun r hr t u hu => finishFrop_ok hr _ hu
  have hme : (g.uid, op.seq) = me := by rw [huid]
  refine ⟨fun hk hst u hu => ?_, fun hk => ?_, fun hk => ?_, fun hk => ?_⟩
  · have hnote : noteUnit s g op = s := noteUnit_other (by omega)
    refine exec_arrival_ends hg hop h0 ?_
    rw [hnote, arriveOp]
    rcases hk with hk | hk | hk
    · rw [hk]
      exact (if_pos hst).trans (hfail _ u hu)
    · rw [hk]
      exact (if_pos hst).trans (hfail _ u hu)
    · rw [hk]
      exact (if_pos hst).trans (hfail _ u hu)
  · have harr : arriveOp (noteUnit s g op) g op = arriveRfit s g op hdr := by
      rw [noteUnit_other (by omega), arriveOp, hk] <;> rfl
    refine ⟨fun h4 u hu => ?_, fun hbusy u hu => ?_, fun h2 hr hs hf u hu => ?_, fun h2 hr hs hf u hu => ?_, fun h2 hr hs hh u hu => ?_,
      fun h2 hr hs hh u v hu hv => ?_⟩
    · refine exec_arrival_ends hg hop h0 (harr.trans ?_)
      exact (if_neg (show ¬ h.state = 0 by omega)).trans ((if_pos h4).trans (hend .noGain (by decide) s u hu))
    · refine exec_arrival_ends hg hop h0 (harr.trans ?_)
      refine (if_neg (show ¬ h.state = 0 by omega)).trans ((if_neg (show ¬ h.state = 4 by omega)).trans
        ((if_pos (show h.state ≠ 2 ∨ h.rstate ≠ 0 by omega)).trans (hend .busy (by decide) s u hu)))
    · refine exec_arrival_ends hg hop h0 (harr.trans ?_)
      exact (if_neg (show ¬ h.state = 0 by omega)).trans ((if_neg (show ¬ h.state = 4 by omega)).trans
        ((if_neg (show ¬ (h.state ≠ 2 ∨ h.rstate ≠ 0) by omega)).trans ((if_pos ((denseSized_iff h).mpr hs)).trans
          ((if_pos hf).trans (hfail _ u hu)))))
    · refine exec_arrival hg hop h0 (harr.trans ?_)
      refine (if_neg (show ¬ h.state = 0 by omega)).trans ((if_neg (show ¬ h.state = 4 by omega)).trans
        ((if_neg (show ¬ (h.state ≠ 2 ∨ h.rstate ≠ 0) by omega)).trans ((if_pos ((denseSized_iff h).mpr hs)).trans
          ((if_neg (show ¬ h.inflFault = true by rw [hf]; exact Bool.false_ne_true)).trans ?_))))
      rw [hme]
      exact startDemotion_idle (some me) hr hu
    · refine exec_arrival hg hop h0 (harr.trans ?_)
      refine (if_neg (show ¬ h.state = 0 by omega)).trans ((if_neg (show ¬ h.state = 4 by omega)).trans
        ((if_neg (show ¬ (h.state ≠ 2 ∨ h.rstate ≠ 0) by omega)).trans ((if_neg fun hd => hs ((denseSized_iff h).mp hd)).trans
          ((if_pos hh).trans ?_))))
      rw [hme, hu]
      rfl
    · refine exec_arrival hg hop h0 (harr.trans ?_)
      refine (if_neg (show ¬ h.state = 0 by omega)).trans ((if_neg (show ¬ h.state = 4 by omega)).trans
        ((if_neg (show ¬ (h.state ≠ 2 ∨ h.rstate ≠ 0) by omega)).trans ((if_neg fun hd => hs ((denseSized_iff h).mp hd)).trans
          ((if_neg (show ¬ h.hold = true by rw [hh]; exact Bool.false_ne_true)).trans ?_))))
      rw [hme, startRefit, show unmark s hdr = some u from hu]
      dsimp only [Option.bind_some]
      rw [hv]
      rfl
  · have harr : arriveOp (noteUnit s g op) g op = arriveRdem s g op hdr := by
      rw [noteUnit_other (by omega), arriveOp, hk] <;> rfl
    refine ⟨fun h4 u hu => ?_, fun hno u hu => ?_, fun h2 hd u v hu hv => ?_⟩
    · refine exec_arrival_ends hg hop h0 (harr.trans ?_)
      exact (if_neg (show ¬ h.state = 0 by omega)).trans ((if_pos h4).trans (hend .demoted (by decide) s u hu))
    · refine exec_arrival_ends hg hop h0 (harr.trans ?_)
      exact (if_neg (show ¬ h.state = 0 by omega)).trans ((if_neg (show ¬ h.state = 4 by omega)).trans
        ((if_pos (show h.state ≠ 2 ∨ h.dempa = 0 by omega)).trans (hfail _ u hu)))
    · refine exec_arrival hg hop h0 (harr.trans ?_)
      refine (if_neg (show ¬ h.state = 0 by omega)).trans ((if_neg (show ¬ h.state = 4 by omega)).trans
        ((if_neg (show ¬ (h.state ≠ 2 ∨ h.dempa = 0) by omega)).trans ?_))
      rw [hme]
      exact startDemotion_refits (some me) hu hv
  · have harr : arriveOp (noteUnit s g op) g op = arriveRabort s g op hdr := by
      rw [noteUnit_other (by omega), arriveOp, hk] <;> rfl
    refine ⟨fun hst hr u hu => ?_, fun hst hr u v hu hv => ?_⟩
    · refine exec_arrival_ends hg hop h0 (harr.trans ?_)
      exact (if_neg hst).trans ((if_pos hr).trans (hend .none (by decide) s u hu))
    · refine exec_arrival_ends hg hop h0 (harr.trans ?_)
      refine (if_neg hst).trans ((if_neg hr).trans ?_)
      rw [hu, Option.bind_some]
      exact hend .aborted (by decide) u v hv

end Sys2Proof.Machine
end

section
/-! PROOFS. Installs, refits and demotions (R220 to R232, R236). -/
namespace Sys2Proof.Machine
open Sys2Proof.Laws

/-! ## What a Spring unit reads does not depend on the groups -/

theorem checkPage_modifyGroup (s : State) (uid : Nat) (f : Group → Group) (c : Ctx) (core : Nat) (a : Access) (va : Nat) :
    checkPage (s.modifyGroup uid f) c core a va = checkPage s c core a va := rfl

theorem overlayDeferred_congr {s t : State} (h : t.deferred = s.deferred) (sp : Nat × Nat) (l : List Byte) :
    overlayDeferred t sp l = overlayDeferred s sp l := by
  induction l generalizing sp with
  | nil => rfl
  | cons b l ih => rw [overlayDeferred, overlayDeferred, h, ih]

theorem readPlace_modifyGroup (s : State) (uid : Nat) (f : Group → Group) (p : Place) (n : Nat) :
    readPlace (s.modifyGroup uid f) p n = readPlace s p n := by
  have hover := overlayDeferred_congr (s := s) (t := s.modifyGroup uid f) rfl
  unfold readPlace
  simp only [hover]
  rfl

theorem engineRead_modifyGroup (s : State) (uid : Nat) (f : Group → Group) (g : Group) (core n : Nat) (va : DWord) :
    engineRead (s.modifyGroup uid f) g core n va = engineRead s g core n va := by
  have haccess : engineAccess (s.modifyGroup uid f) g core (engRead n) va = engineAccess s g core (engRead n) va := rfl
  have hplace : ∀ p, enginePlace (s.modifyGroup uid f) g.ctx p n = enginePlace s g.ctx p n := fun p => by
    have hsaved : savedPond (s.modifyGroup uid f) g.ctx p.target = savedPond s g.ctx p.target := rfl
    rw [enginePlace, enginePlace, hsaved, readPlace_modifyGroup]
    rfl
  rw [engineRead, engineRead, haccess]
  simp only [hplace]
  rfl

theorem readImage_modifyGroup (s : State) (uid : Nat) (f : Group → Group) (g : Group) (core size n va : Nat) :
    readImage (s.modifyGroup uid f) g core size n va = readImage s g core size n va := by
  induction n generalizing va with
  | zero => rfl
  | succ n ih =>
    rw [readImage, readImage, engineRead_modifyGroup, ih]

theorem vbaseHeader_modifyGroup (s : State) (uid : Nat) (f : Group → Group) (g : Group) (core vbase : Nat) :
    vbaseHeader (s.modifyGroup uid f) g core vbase = vbaseHeader s g core vbase := rfl

/-! ## RINST -/

theorem noteUnit_install {s : State} {g : Group} {op : UnitOp} (hk : op.kind = 0) : noteUnit s g op = regionOpAt s g.uid op.seq (imageHeader s g op) := by
  rw [noteUnit, if_neg (not_not.mpr hk)]
  cases imageHeader s g op <;> rfl

/-- Noting the header that an install finds changes its group alone. -/
theorem regionOpAt_modifyGroup (s : State) (uid seq : Nat) (hdr : Option Nat) : ∃ f : Group → Group, regionOpAt s uid seq hdr = s.modifyGroup uid f := by
  cases hdr with
  | none => exact ⟨id, by
      show s = ({ s with work := { s.work with groups := _ } } : State)
      rw [show (s.work.groups.map fun x => if x.uid == uid then id x else x) = s.work.groups from
        (List.map_congr_left fun x _ => by split <;> rfl).trans (List.map_id _)]⟩
  | some h => exact ⟨_, rfl⟩

section
variable {s : State} {g : Group} {op : UnitOp} (hk : op.kind = 0)
include hk

theorem arriveOp_install : arriveOp (noteUnit s g op) g op = arriveRinst (noteUnit s g op) g op := by
  rw [arriveOp, hk] <;> rfl

/-- An RINST reads its image and its leaf as they are, although its own operation already names the header. -/
theorem reads_of_noteUnit : (∀ size n va, readImage (noteUnit s g op) g op.core size n va = readImage s g op.core size n va)
    ∧ (∀ vbase, vbaseHeader (noteUnit s g op) g op.core vbase = vbaseHeader s g op.core vbase)
    ∧ ∀ hdr, headerAt (noteUnit s g op).hbm hdr = headerAt s.hbm hdr := by
  obtain ⟨f, hf⟩ := regionOpAt_modifyGroup s g.uid op.seq (imageHeader s g op)
  rw [noteUnit_install hk, hf]
  exact ⟨fun _ _ _ => readImage_modifyGroup _ _ _ _ _ _ _ _, fun _ => rfl, fun _ => rfl⟩

end

theorem failFrop_alone (s : State) (g : Group) (op : UnitOp) (c : CauseDetail) (idx kind va : Nat) :
    failFrop s g op none c idx kind va = some (regionOpDone (emitRecord s (regionRecord g op c kind va)) g.uid op.seq 6 c.1 idx) := rfl

theorem installsBegin : Claim.InstallsBegin := by
  intro s uid n g op hg hop h0 hk image becomes fails
  have huid : g.uid = uid := group?_uid hg
  obtain ⟨himage, hvbase, hhead⟩ := reads_of_noteUnit (s := s) (g := g) hk
  have harr := arriveOp_install (s := s) (g := g) hk
  have hfail : ∀ (u : State) c idx kind va, arriveRinst (noteUnit s g op) g op = failFrop u g op none c idx kind va → fails u c idx kind va :=
    fun u c idx kind va ha => exec_arrival_ends hg hop h0 (harr.trans (ha.trans (failFrop_alone u g op c idx kind va)))
  refine ⟨fun va c hread => ?_, fun b hread => ?_⟩
  · have hnote : noteUnit s g op = s := by
      rw [noteUnit_install hk, imageHeader, show readImage s g op.core 8 16 (op.words.getD 0 0).toNat = .fault va c from hread] <;> rfl
    refine hfail s c 0 7 va.toNat ?_
    rw [hnote, arriveRinst, show readImage s g op.core 8 16 (op.words.getD 0 0).toNat = .fault va c from hread]
  · intro h s0
    have hnote : noteUnit s g op = s0 := by
      rw [noteUnit_install hk, imageHeader, show readImage s g op.core 8 16 (op.words.getD 0 0).toNat = .ok b from hread, huid] <;> rfl
    have hrinst : arriveRinst (noteUnit s g op) g op = match h.badWord with
        | some k => failFrop s0 g op none (0x0602, k) k 0 (opVa op)
        | none => match vbaseHeader s g op.core h.vbase with
          | .error c => failFrop s0 g op none c 0 7 h.vbase
          | .ok hdr => if (headerAt s.hbm hdr).state ≠ 0 then failFrop s0 g op none (0x0602, 0) 0 0 h.vbase
            else beginInstall s0 hdr h (g.uid, op.seq) := by
      rw [arriveRinst, himage, show readImage s g op.core 8 16 (op.words.getD 0 0).toNat = .ok b from hread]
      dsimp only
      simp only [hvbase, hhead]
      rw [hnote] <;> rfl
    refine ⟨fun k hbad => ?_, fun hgood => ⟨fun c hv => ?_, fun hdr hv => ⟨fun hst => ?_, fun hst t u v ht hu hw => ?_⟩⟩⟩
    · exact hfail s0 _ k 0 image (hrinst.trans (by rw [hbad] <;> rfl))
    · have hs0 : s0 = s := by
        show regionOpAt s uid op.seq (vbaseHeader s g op.core h.vbase).toOption = s
        rw [hv] <;> rfl
      exact hfail s c 0 7 h.vbase (hrinst.trans (by rw [hgood, hv, hs0]))
    · exact hfail s0 _ 0 0 h.vbase (hrinst.trans (by rw [hgood, hv]; exact if_pos hst))
    · refine exec_arrival hg hop h0 (harr.trans (hrinst.trans ?_))
      rw [hgood, hv]
      refine (if_neg (not_not.mpr hst)).trans ?_
      have hu' : trackedWrite t (hdr + h.slotOff 0) (List.replicate (2 * h.slotSize + h.bucketSize) 0) = some u := hu
      rw [beginInstall, show trackedWrite s0 hdr ((installedHeader h).flatMap (leBytes 8)) = some t from ht]
      dsimp only [Option.bind_eq_bind, Option.bind_some]
      rw [hu', Option.bind_some, show (List.range h.cap).foldlM (fun s i => trackedWrite s (hdr + h.entryOff i + 12) [0]) u = some v from hw, Option.bind_some,
        huid]

/-! ## The walk of an install -/

theorem installsPlaceTheirPoints : Claim.InstallsPlaceTheirPoints := by
  intro elem hdr left n used s v hv h p goOn
  refine ⟨fun hag => ?_, fun hag t u w ht hu hw => ?_⟩
  · rw [installFrom, hv]
    dsimp only
    rw [show agree (headerAt s.hbm hdr) (evalNet s.hbm hdr (headerAt s.hbm hdr) 0 ((headerAt s.hbm hdr).setPoint n)) v = true from hag, if_pos rfl]
  · have hlink : linkEntry s hdr h used (coordWord p) v = some u := by
      rw [linkEntry]
      dsimp only [Option.bind_eq_bind]
      rw [show trackedWrite s (hdr + h.entryOff used) (Exc.bytes { coord := coordWord p, value := v, rin := s.domain.rin.toNat, state := 1
                                                                   link := s.hbm.readNat (bucketAddr hdr h (coordWord p)) 3 }) = some t from ht,
        Option.bind_some]
      exact hu
    rw [installFrom, hv]
    dsimp only
    rw [show agree (headerAt s.hbm hdr) (evalNet s.hbm hdr (headerAt s.hbm hdr) 0 ((headerAt s.hbm hdr).setPoint n)) v = false from hag,
      if_neg Bool.false_ne_true,
      show linkEntry s hdr (headerAt s.hbm hdr) used (coordWord ((headerAt s.hbm hdr).setPoint n)) v = some u from hlink, Option.bind_some, hw]
    rfl

end Sys2Proof.Machine
end

section
/-! PROOFS. The ends of installs, refits and demotions, and the completion of region operations (R220 to R232, R236). -/
namespace Sys2Proof.Machine
open Sys2Proof.Laws

/-! ## The end of an install -/

/-- Reads one element of an install's set; a page in transit makes the unit wait (R226). -/
def installElem (g : Group) (op : UnitOp) (h : Header) (t : State) (n : Nat) : Fitted Nat :=
  match engineRead t g op.core h.esize (BitVec.ofNat 64 (((op.words.getD 2 0).toNat + n * h.esize) % 2 ^ 64)) with
  | .ok b => .ok (ofLe b)
  | .wait => .wait
  | .fault c => if c.1 = 0x0303 then .wait else .fault c

section
variable {s : State} {hdr : Nat} {g : Group} {op : UnitOp} (hreg : (region? s hdr).isSome = true) (hst : (headerAt s.hbm hdr).state = 1)
  (hown : ownerOf s hdr = some (g, op))
include hreg hst hown

theorem exec_installEnd {t : State} (h : endInstall s g op hdr = some t) : exec (.installEnd hdr) s = .next (afterRegion t hdr) := by
  have hgo : ((region? s hdr).isNone || (headerAt s.hbm hdr).state != 1) = false := by
    rw [hst]
    cases hr : region? s hdr with
    | none =>
      rw [hr] at hreg
      cases hreg
    | some r => rfl
  show execInstallEnd hdr s = _
  rw [execInstallEnd, hgo, if_neg Bool.false_ne_true, hown, Option.bind_some]
  dsimp only
  rw [h]
  rfl

end

theorem failInstall_ok {t u v : State} {g : Group} {op : UnitOp} {hdr : Nat} {c : CauseDetail} {idx : Nat} (kind va : Nat)
    (hu : setField (workFor t hdr none) hdr 0 29 3 0 = some u) (hv : setFields u hdr (errorFields c.1 idx) = some v) :
    failInstall t g op hdr c idx kind va = some (regionOpDone (emitRecord v (regionRecord g op c kind va)) g.uid op.seq 6 c.1 idx) := by
  rw [failInstall, show setRegionState (modifyRegion t hdr fun r => { r with owner := none }) hdr 0 = some u from hu, Option.bind_some]
  exact failFrop_header kind va hv

theorem startDemotion_of_image {t v : State} {hdr : Nat} {op : Nat × Nat} {l : List (Nat × Nat)} (hr : (headerAt t.hbm hdr).rstate = 0)
    (hv : setField (modifyRegion t hdr fun r => { r with image := l, owner := some op, written := 0 }) hdr 0 29 3 3 = some v) :
    startDemotion (modifyRegion t hdr fun r => { r with image := l }) hdr (some op) = some v := by
  refine startDemotion_idle (some op) hr ?_
  rw [demoteFor, modifyRegion_twice t hdr (fun r => { r with image := l }) _ fun _ => rfl]
  exact hv

/-- The end of an install whose parameters are read: what the walk over the set leaves. -/
theorem endInstall_walked {s u : State} {g : Group} {op : UnitOp} {hdr : Nat} {b : List Byte}
    (hb : readImage s g op.core (headerAt s.hbm hdr).psize (headerAt s.hbm hdr).params (op.words.getD 1 0).toNat = .ok b)
    (hu : trackedWrite s (hdr + 128) b = some u) : endInstall s g op hdr
      = (let h := headerAt s.hbm hdr
        let va := fun n => ((op.words.getD 2 0).toNat + n * h.esize) % 2 ^ 64
        match (if (op.words.getD 2 0).toNat = 0 then InstallEnd.complete u else installFrom (installElem g op h) hdr h.points 0 0 u) with
        | .wait => none
        | .complete t => (setRegionState (modifyRegion t hdr fun r => { r with owner := none }) hdr 2).bind fun t => endWith t g op hdr .installed
        | .overflow t idx left =>
          if h.inflFault then failInstall t g op hdr (0x0503, (headerAt t.hbm hdr).cap * 2 ^ 24 + (headerAt t.hbm hdr).livecnt) idx 0 (va idx)
          else match restOfSet (installElem g op h) h t left (idx + 1) with
            | .wait => none
            | .fault c n => failInstall t g op hdr c n 7 (va n)
            | .ok l => startDemotion (modifyRegion t hdr fun r => { r with image := l }) hdr (some (g.uid, op.seq))
        | .fault t c idx => failInstall t g op hdr c idx 7 (va idx)) := by
  have hu' : trackedWrite s (hdr + (headerAt s.hbm hdr).slotOff 0) b = some u := hu
  rw [endInstall]
  dsimp only
  rw [hb]
  dsimp only
  rw [hu', Option.bind_some]
  rfl

theorem installsEnd : Claim.InstallsEnd := by
  intro s hdr g op hreg hst hown h base va becomes fails fitted elem
  have hfail : ∀ (t : State) (c : CauseDetail) idx kind at_, endInstall s g op hdr = failInstall t g op hdr c idx kind at_ → fails t c idx kind at_ :=
    fun t c idx kind at_ he u v hu hv => exec_installEnd hreg hst hown (he.trans (failInstall_ok kind at_ hu hv))
  have helem : elem = installElem g op h := by
    funext t n
    show _ = installElem g op h t n
    unfold installElem
    rfl
  refine ⟨fun at_ c hread => hfail s c 0 7 at_.toNat (by
      rw [endInstall]
      dsimp only
      rw [show readImage s g op.core (headerAt s.hbm hdr).psize (headerAt s.hbm hdr).params (op.words.getD 1 0).toNat = .fault at_ c from hread]),
    fun b u hread hu => ?_⟩
  have hend := endInstall_walked hread hu
  have hfitted : ∀ t, endInstall s g op hdr
      = ((setRegionState (modifyRegion t hdr fun r => { r with owner := none }) hdr 2).bind fun t => endWith t g op hdr .installed) → fitted t := by
    intro t he v w hv hw
    refine exec_installEnd hreg hst hown (he.trans ?_)
    rw [show setRegionState (modifyRegion t hdr fun r => { r with owner := none }) hdr 2 = some v from hv, Option.bind_some]
    exact finishFrop_ok (r := .installed) (by decide) _ hw
  refine ⟨fun h0 => hfitted u (hend.trans ?_), fun h0 => ?_⟩
  · dsimp only
    rw [if_pos (show (op.words.getD 2 0).toNat = 0 from h0)]
  · rw [helem]
    dsimp only at hend
    rw [if_neg (show ¬ (op.words.getD 2 0).toNat = 0 from h0)] at hend
    refine ⟨fun t ht => hfitted t (hend.trans ?_), fun t c idx ht => hfail t c idx 7 (va idx) (hend.trans ?_), fun t idx left ht =>
      ⟨fun hf => hfail t _ idx 0 (va idx) (hend.trans ?_), fun hf c n hc => hfail t c n 7 (va n) (hend.trans ?_), fun hf hr l v hl hv => ?_⟩⟩
    · rw [show installFrom (installElem g op (headerAt s.hbm hdr)) hdr (headerAt s.hbm hdr).points 0 0 u = .complete t from ht]
    · rw [show installFrom (installElem g op (headerAt s.hbm hdr)) hdr (headerAt s.hbm hdr).points 0 0 u = .fault t c idx from ht]
    · rw [show installFrom (installElem g op (headerAt s.hbm hdr)) hdr (headerAt s.hbm hdr).points 0 0 u = .overflow t idx left from ht]
      exact if_pos hf
    · rw [show installFrom (installElem g op (headerAt s.hbm hdr)) hdr (headerAt s.hbm hdr).points 0 0 u = .overflow t idx left from ht]
      refine (if_neg (by rw [show (headerAt s.hbm hdr).inflFault = false from hf]; exact Bool.false_ne_true)).trans ?_
      rw [show restOfSet (installElem g op (headerAt s.hbm hdr)) (headerAt s.hbm hdr) t left (idx + 1) = .fault c n from hc]
    · refine exec_installEnd hreg hst hown (hend.trans ?_)
      rw [show installFrom (installElem g op (headerAt s.hbm hdr)) hdr (headerAt s.hbm hdr).points 0 0 u = .overflow t idx left from ht]
      refine (if_neg (by rw [show (headerAt s.hbm hdr).inflFault = false from hf]; exact Bool.false_ne_true)).trans ?_
      rw [show restOfSet (installElem g op (headerAt s.hbm hdr)) (headerAt s.hbm hdr) t left (idx + 1) = .ok l from hl]
      exact startDemotion_of_image hr hv

/-! ## The end of a refit -/

section
variable {s : State} {hdr : Nat} {r : Region} (hreg : region? s hdr = some r) (hst : (headerAt s.hbm hdr).state = 2)
  (hrst : (headerAt s.hbm hdr).rstate = 2)
include hreg hst hrst

theorem execRefitCommit_running : exec (.refitCommit hdr) s = if r.verified = false then regionEvent s hdr (verifyRefit s hdr)
    else if rmatHolds s hdr then stutter s else regionEvent s hdr (endRefit s hdr) := by
  show execRefitCommit hdr s = _
  rw [execRefitCommit, hreg]
  dsimp only
  rw [if_neg (by omega)]

end

/-- The shield points: those without a live entry at which the candidate differs. -/
theorem shieldPoints_eq (s : State) (hdr : Nat) (h : Header) : shieldPoints s hdr h
    = ((List.range h.points).filter fun n =>
        (liveEntry s.hbm hdr h (coordWord (h.setPoint n))).isNone
        && evalNet s.hbm hdr h (1 - h.aslot) (h.setPoint n) != evalNet s.hbm hdr h h.aslot (h.setPoint n)).map fun n =>
      (coordWord (h.setPoint n), evalNet s.hbm hdr h h.aslot (h.setPoint n)) := by
  rw [shieldPoints, ← List.filterMap_eq_map, List.filterMap_filter]
  refine List.filterMap_congr fun n _ => ?_
  dsimp only
  cases hl : liveEntry s.hbm hdr h (coordWord (h.setPoint n)) with
  | some i => rfl
  | none =>
    by_cases he : evalNet s.hbm hdr h (1 - h.aslot) (h.setPoint n) = evalNet s.hbm hdr h h.aslot (h.setPoint n)
    · simp [he]
    · simp [he]

theorem refitsEnd : Claim.RefitsEnd := by
  intro s hdr r hreg hst hrst h becomes marked shields idle
  have hrun := execRefitCommit_running hreg hst hrst
  have hverified : ∀ {t}, r.verified = true → rmatHolds s hdr = false → endRefit s hdr = some t → becomes t := by
    intro t hv hm ht
    refine hrun.trans ((if_neg (by rw [hv]; decide)).trans ?_)
    rw [hm, ht]
    rfl
  refine ⟨fun hv u v hu hw => ?_, fun hv hm => ?_, fun hv hm hlt t u v w ht hu hw hx => hverified hv hm ?_, fun hv hm hle t u v ht hu hw => hverified hv hm ?_⟩
  · refine hrun.trans ((if_pos hv).trans ?_)
    have hverify : verifyRefit s hdr = some (modifyRegion v hdr fun r => { r with verified := true, shields := shieldPoints u hdr h }) := by
      rw [verifyRefit, hreg]
      dsimp only [Option.bind_eq_bind, Option.bind_some]
      rw [show trackedWrite s (hdr + (headerAt s.hbm hdr).slotOff (1 - (headerAt s.hbm hdr).aslot)) (candidateBytes s hdr (headerAt s.hbm hdr) r.snap)
        = some u from hu, Option.bind_some,
        show setEntries u hdr (headerAt s.hbm hdr) 2 (needlessEntries u hdr (headerAt s.hbm hdr) r.snap) = some v from hw, Option.bind_some]
    rw [hverify, shieldPoints_eq]
    rfl
  · refine hrun.trans ((if_neg (by rw [hv]; decide)).trans ?_)
    rw [hm]
    rfl
  · rw [endRefit, hreg]
    dsimp only [Option.bind_eq_bind, Option.bind_some]
    refine (if_pos (show (openShields s hdr (headerAt s.hbm hdr) r).length < (markedEntries s.hbm hdr (headerAt s.hbm hdr)).length from hlt)).trans ?_
    have hcommit : commitRefit (modifyRegion s hdr Region.idle) hdr (markedEntries s.hbm hdr (headerAt s.hbm hdr)) (openShields s hdr (headerAt s.hbm hdr) r)
        = some v := by
      rw [commitRefit]
      dsimp only [Option.bind_eq_bind]
      refine (congrArg (Option.bind · _) ht).trans ?_
      rw [Option.bind_some]
      refine (congrArg (Option.bind · _) hu).trans ?_
      rw [Option.bind_some]
      exact hw
    rw [hcommit, Option.bind_some]
    exact finishFrop_ok (r := .committed) (by decide) _ hx
  · rw [endRefit, hreg]
    dsimp only [Option.bind_eq_bind, Option.bind_some]
    refine (if_neg (show ¬ (openShields s hdr (headerAt s.hbm hdr) r).length < (markedEntries s.hbm hdr (headerAt s.hbm hdr)).length from
      Nat.not_lt.mpr hle)).trans ?_
    rw [show setEntries (modifyRegion s hdr Region.idle) hdr (headerAt s.hbm hdr) 1 (markedEntries s.hbm hdr (headerAt s.hbm hdr)) = some t from ht,
      Option.bind_some, hu, Option.bind_some]
    exact finishFrop_ok (r := .noGain) (by decide) _ hw

/-! ## Demotion -/

section
variable {s : State} {hdr : Nat} {r : Region} (hreg : region? s hdr = some r) (hst : (headerAt s.hbm hdr).state = 3)
include hreg hst

theorem execDemotionEnd_running : exec (.demotionEnd hdr) s = regionEvent s hdr (endDemotion s hdr) := by
  show execDemotionEnd hdr s = _
  rw [execDemotionEnd, hreg, hst]
  rfl

end

theorem demotionsEnd : Claim.DemotionsEnd := by
  intro s hdr r hreg hst h elem line total write
  have hline : ∀ m k, line m k = reservePiece m hdr h r.image k := by
    intro m k
    have helem : ∀ idx, elem m idx = demotedElem m hdr h r.image idx := by
      intro idx
      have hvalue : ∀ p, pointValue m hdr h p = match liveEntry m hdr h (coordWord p) with
          | some i => (excAt m hdr h i).value
          | none => evalNet m hdr h h.aslot p := fun p => if_neg (show ¬ h.state = 4 by rw [show h.state = 3 from hst]; decide)
      simp only [demotedElem, hvalue]
      rfl
    show (List.range (64 / h.esize)).flatMap (fun i => leBytes h.esize (elem m (k * (64 / h.esize) + i))) = _
    simp only [helem]
    rfl
  have hrun := execDemotionEnd_running hreg hst
  refine ⟨fun k t => rfl, fun n k t u hu => ?_, fun n k t hn => ?_, fun t k hw hlt => hrun.trans ?_, fun t k u v hw hle hu hv => hrun.trans ?_⟩
  · rw [hline] at hu
    show writeReserve hdr h r.image (n + 1) k t = _
    rw [writeReserve, hu]
  · rw [hline] at hn
    show writeReserve hdr h r.image (n + 1) k t = _
    rw [writeReserve, hn]
  · rw [endDemotion, hreg]
    dsimp only
    rw [show writeReserve hdr (headerAt s.hbm hdr) r.image ((headerAt s.hbm hdr).reserveSize / 64 - r.written) r.written s = (t, k) from hw]
    dsimp only
    rw [if_pos (show k < (headerAt s.hbm hdr).reserveSize / 64 from hlt)]
    by_cases hk : k = r.written
    · rw [if_pos hk, if_pos hk]
      rfl
    · rw [if_neg hk, if_neg hk]
      rfl
  · have hdense : becomeDense t hdr r = some (ownerDone v r.owner 5) := by
      rw [becomeDense, hu, Option.bind_some]
      exact finishFrop_ok (r := .demoted) (by decide) _ hv
    rw [endDemotion, hreg]
    dsimp only
    rw [show writeReserve hdr (headerAt s.hbm hdr) r.image ((headerAt s.hbm hdr).reserveSize / 64 - r.written) r.written s = (t, k) from hw]
    dsimp only
    rw [if_neg (show ¬ k < (headerAt s.hbm hdr).reserveSize / 64 from Nat.not_lt.mpr hle), hdense]
    rfl

/-! ## Completion -/

theorem regionOperationsComplete : Claim.RegionOperationsComplete := by
  intro s uid g op r t hg hhead hdone hscope hstore
  obtain ⟨rest, hops⟩ := List.head?_eq_some_iff.mp hhead
  have hwaits : scopeWaits s (frAgent g op.seq) op.scope = false := by
    rw [scopeWaits, Bool.and_eq_false_iff]
    by_cases h4 : op.scope = 4
    · refine .inr (List.any_eq_false.mpr fun d hd hc => ?_)
      simp only [Bool.and_eq_true, beq_iff_eq] at hc
      obtain ⟨⟨hgroup, -⟩, hop⟩ := hc
      exact hscope h4 d hd (hgroup.trans (group?_uid hg)) hop
    · exact .inl (by simp [h4])
  show execRegionOperationCompletion uid s = _
  rw [execRegionOperationCompletion, hg]
  dsimp only
  rw [hops]
  dsimp only
  rw [hdone]
  dsimp only
  rw [hwaits, if_neg Bool.false_ne_true,
    show completionStore s g { agentOf g with die := fropDie g op } op.core (fropEngine op) op.lane op.seq (r.1 == RResult.error.code) op.comp = some t
      from hstore]

end Sys2Proof.Machine

open Sys2Proof Sys2Proof.Machine

/-- Settles O16: each event of a Spring unit by the state of its region; a header's write changes its field alone. -/
theorem springUnitsAdvanceTheirRegions : Obligations.SpringUnitsAdvanceTheirRegions := by
  unfold Obligations.SpringUnitsAdvanceTheirRegions
  exact ⟨headerFieldsChangeAlone, regionOperationsArrive, refitsAbort, installsBegin, installsEnd, installsPlaceTheirPoints, refitsEnd, demotionsEnd,
    regionOperationsComplete⟩

end

section
/-! PROOFS. Undone lines, rollbacks and self-tests (R341 to R343, R386 to R388). -/
namespace Sys2Proof.Machine
open Sys2Proof.Laws

/-! ## Undone lines -/

/-- Applies undo entries, the first of the list last. -/
def undoAll (s : State) (l : List Undo) : State := l.foldr (fun u t => undoLine t u) s

theorem undoAfter_eq (s : State) (c : BitVec 16) : undoAfter s c
    = undoAll { s with undo := s.undo.filter fun u => !precedes c u.rin } (s.undo.filter fun u => precedes c u.rin) := by
  rw [undoAfter, List.foldl_reverse]
  rfl

/-- Undo entries change HBM, its sidebands and the memories of the peers alone. -/
theorem undoLine_frame (s : State) (u : Undo) : undoLine s u = { s with hbm := (undoLine s u).hbm, side := (undoLine s u).side, peer := (undoLine s u).peer } := by
  unfold undoLine
  split <;> rfl

theorem undoAll_frame (s : State) (l : List Undo) : ∃ hbm side peer, undoAll s l = { s with hbm := hbm, side := side, peer := peer } := by
  induction l with
  | nil => exact ⟨_, _, _, rfl⟩
  | cons u l ih =>
    obtain ⟨hbm, side, peer, ih⟩ := ih
    show ∃ _ _ _, undoLine (undoAll s l) u = _
    rw [ih, undoLine_frame]
    exact ⟨_, _, _, rfl⟩

theorem undoLine_peer {s : State} {u : Undo} (h : u.die = Config.dies) : (undoLine s u).hbm = s.hbm ∧ (undoLine s u).side = s.side := by
  rw [undoLine, if_pos h]
  exact ⟨rfl, rfl⟩

theorem undoLine_hbm {s : State} {u : Undo} (h : u.die ≠ Config.dies) :
    (undoLine s u).hbm = s.hbm.write u.pa u.data ∧ (undoLine s u).side = sput (sideDefault s) s.side (u.pa / 64) u.side := by
  rw [undoLine, if_neg h]
  exact ⟨rfl, rfl⟩

theorem undoAll_wf {s : State} (h : s.hbm.wf = true) (l : List Undo) : (undoAll s l).hbm.wf = true := by
  induction l with
  | nil => exact h
  | cons u l ih =>
    show (undoLine (undoAll s l) u).hbm.wf = true
    by_cases hd : u.die = Config.dies
    · rw [(undoLine_peer hd).1]
      exact ih
    · rw [(undoLine_hbm hd).1]
      exact Memory.write_wf ih _ _

theorem undoAll_byte {s : State} (h : s.hbm.wf = true) (l : List Undo) (hl : ∀ u ∈ l, u.data.length = 64) (a : Nat) :
    (undoAll s l).hbm.byte a = match l.find? fun u => u.die != Config.dies && decide (u.pa ≤ a) && decide (a < u.pa + 64) with
      | some u => u.data.getD (a - u.pa) 0
      | none => s.hbm.byte a := by
  induction l with
  | nil => rfl
  | cons u l ih =>
    have hrest := ih fun v hv => hl v (List.mem_cons_of_mem _ hv)
    show (undoLine (undoAll s l) u).hbm.byte a = _
    by_cases hd : u.die = Config.dies
    · rw [(undoLine_peer hd).1, hrest, List.find?_cons_of_neg (by simp [hd])]
    · rw [(undoLine_hbm hd).1, byte_write (undoAll_wf h l), hl u List.mem_cons_self]
      by_cases hc : u.pa ≤ a ∧ a < u.pa + 64
      · rw [if_pos hc, List.find?_cons_of_pos (by simp [hd, hc])]
      · rw [if_neg hc, hrest, List.find?_cons_of_neg (by simpa [hd] using hc)]

theorem undoAll_sideDefault (s : State) (l : List Undo) : sideDefault (undoAll s l) = sideDefault s := by
  obtain ⟨_, _, _, h⟩ := undoAll_frame s l
  rw [h]
  rfl

theorem undoAll_side_wf {s : State} (h : swf (sideDefault s) s.side = true) (l : List Undo) : swf (sideDefault s) (undoAll s l).side = true := by
  induction l with
  | nil => exact h
  | cons u l ih =>
    show swf _ (undoLine (undoAll s l) u).side = true
    by_cases hd : u.die = Config.dies
    · rw [(undoLine_peer hd).2]
      exact ih
    · rw [(undoLine_hbm hd).2, undoAll_sideDefault]
      exact swf_sput _ _ ih

theorem undoAll_sideGet {s : State} (h : swf (sideDefault s) s.side = true) (l : List Undo) (a : Nat) :
    sideGet (undoAll s l) a = match l.find? fun u => u.die != Config.dies && u.pa / 64 == a / 64 with
      | some u => u.side
      | none => sideGet s a := by
  induction l with
  | nil => rfl
  | cons u l ih =>
    have hdef : sideDefault (undoAll s (u :: l)) = sideDefault s := undoAll_sideDefault s _
    have hrest := ih
    rw [sideGet, undoAll_sideDefault] at hrest
    rw [sideGet, hdef]
    show sget (sideDefault s) (undoLine (undoAll s l) u).side (a / 64) = _
    by_cases hd : u.die = Config.dies
    · rw [(undoLine_peer hd).2, hrest, List.find?_cons_of_neg (by simp [hd])]
    · rw [(undoLine_hbm hd).2, undoAll_sideDefault, sget_sput _ _ _ (undoAll_side_wf h l)]
      by_cases hc : a / 64 = u.pa / 64
      · rw [if_pos hc, List.find?_cons_of_pos (by simp [hd, hc])]
      · rw [if_neg hc, hrest, List.find?_cons_of_neg (by simp [hd, Ne.symm hc])]

theorem undoneLinesAreRestored : Claim.UndoneLinesAreRestored := by
  intro s c hwf hlen t
  have ht : t = undoAll { s with undo := s.undo.filter fun u => !precedes c u.rin } (s.undo.filter fun u => precedes c u.rin) := undoAfter_eq s c
  obtain ⟨_, _, _, hframe⟩ := undoAll_frame { s with undo := s.undo.filter fun u => !precedes c u.rin } (s.undo.filter fun u => precedes c u.rin)
  rw [← ht] at hframe
  refine ⟨fun a => ?_, fun hside a => ?_, by rw [hframe], by rw [hframe], by rw [hframe], by rw [hframe]⟩
  · have hbyte := undoAll_byte (s := { s with undo := s.undo.filter fun u => !precedes c u.rin }) (memoryWf_hbm hwf) (s.undo.filter fun u => precedes c u.rin)
      (fun u hu => hlen u (List.mem_filter.mp hu).1) a
    rw [List.find?_filter, ← ht] at hbyte
    simp only [Bool.decide_and, Bool.decide_eq_true, ← Bool.and_assoc] at hbyte
    exact hbyte
  · have hget := undoAll_sideGet (s := { s with undo := s.undo.filter fun u => !precedes c u.rin }) hside (s.undo.filter fun u => precedes c u.rin) a
    rw [List.find?_filter, ← ht] at hget
    simp only [Bool.decide_and, Bool.decide_eq_true, ← Bool.and_assoc] at hget
    exact hget

end Sys2Proof.Machine
end

section
/-! PROOFS. Rollbacks, self-tests and reported errors (R341 to R343, R386 to R388). -/
namespace Sys2Proof.Machine
open Sys2Proof.Laws

/-! ## Contexts at a rollback -/

/-- The context as its committed seal has it, where it has one. -/
def pastCtx (s : State) (k : Ctx) : Option Ctx :=
  if k.hasSeal then (s.snapCommitted.map fun p => p.ctxs).bind fun l => l.find? fun y => y.uid == k.uid else none

theorem sealedCtx_eq (s : State) (k : Ctx) : sealedCtx? s k = pastCtx s k := by
  unfold sealedCtx? pastCtx
  cases s.snapCommitted with
  | none => cases k.hasSeal <;> rfl
  | some p => rfl

theorem rollbackEnds_isNone (s : State) (k : Ctx) : (k.state != .ended && (rollbackEnds s k).isNone)
    = (k.state != .ended && !isPinned s k.num && (pastCtx s k).isSome) := by
  rw [rollbackEnds, sealedCtx_eq]
  by_cases he : k.state = .ended
  · simp [he]
  · cases hp : isPinned s k.num <;> cases ho : pastCtx s k <;> simp [he]

theorem rollsBack_eq (s : State) (k : Ctx) : rollsBack s k = (k.state != .ended && !isPinned s k.num && (pastCtx s k).isSome) := rollbackEnds_isNone s k

/-- Why a rollback ends a context that it ends. -/
theorem rollbackEnds_eq (s : State) (k : Ctx) : rollbackEnds s k
    = if (k.state != .ended && (isPinned s k.num || (pastCtx s k).isNone)) = true then some (if isPinned s k.num then 0x0903 else 0x0902) else none := by
  rw [rollbackEnds, sealedCtx_eq]
  by_cases he : k.state = .ended
  · simp [he]
  · cases hp : isPinned s k.num <;> cases ho : pastCtx s k <;> simp [he]

theorem backCtxs_eq (s : State) : backCtxs s = s.ctxs.map fun k => match pastCtx s k with
    | some y => if (k.state != .ended && !isPinned s k.num) = true then ctxBack s k y else k
    | none => k := by
  refine List.map_congr_left fun k _ => ?_
  rw [rollsBack_eq, sealedCtx_eq]
  cases ho : pastCtx s k with
  | none => simp
  | some y =>
    simp only [Option.isSome_some, Bool.and_true]
    rfl

/-! ## The records of a rollback -/

theorem rollbackRecord_pinned (ctx : Nat) (c : BitVec 16) (n : Nat) :
    rollbackRecord ctx 0x0903 true c n = { ctx := ctx, engine := 6, cause := 0x0903, action := 4, sev := 4, detail := 0 } := rfl

theorem rollbackRecord_lost (ctx : Nat) (c : BitVec 16) (n : Nat) : rollbackRecord ctx 0x0902 true c n
    = { ctx := ctx, engine := 6, cause := 0x0902, action := 4, sev := 4, detail := c.toNat * 2 ^ 32 + n % 2 ^ 32 } := rfl

theorem foldl_filterMap_ends {β : Type} (p : Ctx → Bool) (f : Ctx → Nat) (step : β → Nat × Nat → β) (l : List Ctx) (b : β) :
    (l.filterMap fun x => (if p x = true then some (f x) else none).map fun cause => (x.num, cause)).foldl step b
      = (l.filter p).foldl (fun t k => step t (k.num, f k)) b := by
  induction l generalizing b with
  | nil => rfl
  | cons x l ih =>
    by_cases hp : p x = true
    · rw [List.filterMap_cons_some (by rw [if_pos hp]; rfl), List.filter_cons_of_pos hp, List.foldl_cons, List.foldl_cons, ih]
    · rw [List.filterMap_cons_none (by rw [if_neg hp]; rfl), List.filter_cons_of_neg hp, ih]

/-- The contexts that a rollback ends, one after another. -/
theorem endLost_eq (s t : State) (c : BitVec 16) (n : Nat) :
    endLost t c n (s.ctxs.filterMap fun x => (rollbackEnds s x).map fun cause => (x.num, cause))
      = (s.ctxs.filter fun k => k.state != .ended && (isPinned s k.num || (pastCtx s k).isNone)).foldl (fun t k =>
          endNow (emitRecord t (if isPinned s k.num then { ctx := k.num, engine := 6, cause := 0x0903, action := 4, sev := 4, detail := 0 }
            else { ctx := k.num, engine := 6, cause := 0x0902, action := 4, sev := 4, detail := c.toNat * 2 ^ 32 + n % 2 ^ 32 })) k.num) t := by
  simp only [rollbackEnds_eq]
  rw [endLost, foldl_filterMap_ends]
  refine congrArg (fun f => List.foldl f t _) (funext fun t => funext fun k => ?_)
  show endNow (emitRecord t (rollbackRecord k.num (if isPinned s k.num = true then 0x0903 else 0x0902) true c n)) k.num = _
  by_cases hp : isPinned s k.num = true
  · rw [if_pos hp, if_pos hp, rollbackRecord_pinned]
  · rw [if_neg hp, if_neg hp, rollbackRecord_lost]

/-! ## What a rollback takes back -/

/-- The state with its undo entries after c applied and its deferred writes after c dropped. -/
theorem dropped_frame (s : State) (c : BitVec 16) : ∃ hbm side peer undo deferred,
    dropDeferred (undoAfter s c) c = { s with hbm := hbm, side := side, peer := peer, undo := undo, deferred := deferred } := by
  obtain ⟨hbm, side, peer, h⟩ := undoAll_frame { s with undo := s.undo.filter fun u => !precedes c u.rin } (s.undo.filter fun u => precedes c u.rin)
  rw [undoAfter_eq, h]
  exact ⟨_, _, _, _, _, rfl⟩

theorem copyHalves_dropped (s : State) (c : BitVec 16) : copyHalves (dropDeferred (undoAfter s c) c)
    = (s.ctxs.filter fun k => k.state != .ended && !isPinned s k.num && (pastCtx s k).isSome).foldl
        (fun t k => { t with hbm := copyRegion t.hbm (halfBase k k.half) k.saBase }) (dropDeferred (undoAfter s c) c) := by
  have hback : (dropDeferred (undoAfter s c) c).ctxs.filter (rollsBack (dropDeferred (undoAfter s c) c))
      = s.ctxs.filter fun k => k.state != .ended && !isPinned s k.num && (pastCtx s k).isSome := by
    obtain ⟨_, _, _, _, _, h⟩ := dropped_frame s c
    rw [h]
    exact List.filter_congr fun k _ => rollsBack_eq s k
  rw [copyHalves, hback]

/-- Copying the committed halves changes HBM alone. -/
theorem foldl_copyRegion_frame (l : List Ctx) (s : State) :
    ∃ hbm, l.foldl (fun t k => { t with hbm := copyRegion t.hbm (halfBase k k.half) k.saBase }) s = { s with hbm := hbm } := by
  induction l generalizing s with
  | nil => exact ⟨_, rfl⟩
  | cons k l ih =>
    obtain ⟨hbm, h⟩ := ih { s with hbm := copyRegion s.hbm (halfBase k k.half) k.saBase }
    exact ⟨hbm, h⟩

theorem rollbacksReturnToTheSeal : Claim.RollbacksReturnToTheSeal := by
  intro s moves c past old? ends back undone dropped framed placed number record ended told resident dying
  have hback : s.ctxs.filter (rollsBack s) = back := List.filter_congr fun k _ => rollsBack_eq s k
  have hframed : copyHalves (dropDeferred (undoAfter s c) c) = framed := copyHalves_dropped s c
  have hdomain : framed.domain = s.domain := by
    obtain ⟨_, _, _, _, _, h⟩ := dropped_frame s c
    obtain ⟨_, hf⟩ := foldl_copyRegion_frame back (dropDeferred (undoAfter s c) c)
    show (back.foldl (fun t k => { t with hbm := copyRegion t.hbm (halfBase k k.half) k.saBase }) (dropDeferred (undoAfter s c) c)).domain = _
    rw [hf, h]
  have hplaced : ({ framed with
      work := backWork s (sealWork s), ctxs := backCtxs s, snapPending := none, inlets := backInlets s
      domain := { framed.domain with rin := c + 1, stage := 0, passed := false, trigger := false, nextTrigger := false, want := false } } : State) = placed := by
    rw [backCtxs_eq, hdomain]
    rfl
  have hended : endLost placed c number (s.ctxs.filterMap fun x => (rollbackEnds s x).map fun cause => (x.num, cause)) = ended := endLost_eq s placed c number
  rw [rollback]
  dsimp only
  rw [hback, show copyHalves (dropDeferred (undoAfter s s.domain.committed) s.domain.committed) = framed from hframed,
    show ({ framed with
      work := backWork s (sealWork s), ctxs := backCtxs s, snapPending := none, inlets := backInlets s
      domain := { framed.domain with rin := s.domain.committed + 1, stage := 0, passed := false, trigger := false, nextTrigger := false, want := false } }
        : State) = placed from hplaced,
    show endLost placed s.domain.committed (undoCount s s.domain.committed) _ = ended from hended]
  rfl

end Sys2Proof.Machine
end

section
/-! PROOFS. Self-tests and reported errors (R341 to R343, R386, R387). -/
namespace Sys2Proof.Machine
open Sys2Proof.Laws

/-! ## Self-tests -/

/-- Setting a bit sets it and leaves the others. -/
theorem getLsbD_setBit (x : BitVec 32) (i : Nat) {k : Nat} (hk : k < 32) :
    (if bitOf x.toNat i = true then x else x + BitVec.ofNat 32 (2 ^ i)).getLsbD k = (x.getLsbD k || k == i) := by
  have hone : ∀ j < 32, (BitVec.ofNat 32 (2 ^ i)).getLsbD j = (j == i) := by
    intro j hj
    rw [BitVec.getLsbD_ofNat, Nat.testBit_two_pow]
    rcases eq_or_ne i j with rfl | h
    · simp [hj]
    · simp [hj, h, Ne.symm h]
  rw [bitOf_toNat]
  by_cases hx : x.getLsbD i = true
  · rw [if_pos hx]
    by_cases hki : k = i
    · rw [hki, hx, Bool.true_or]
    · simp [hki]
  · rw [if_neg hx, BitVec.add_eq_or_of_and_eq_zero x (BitVec.ofNat 32 (2 ^ i)), BitVec.getLsbD_or, hone k hk]
    refine BitVec.eq_of_getLsbD_eq fun j hj => ?_
    rw [BitVec.getLsbD_and, hone j hj, BitVec.getLsbD_zero]
    by_cases hji : j = i
    · simp [hji, hx]
    · simp [hji]

theorem retireCore_eq (r : Regs) (core : Nat) :
    retireCore r core = { r with retCore := if core ∈ r.retCore then r.retCore else r.retCore ++ [core] } := by
  by_cases h : core ∈ r.retCore
  · rw [retireCore, if_pos (by simpa using h), if_pos h]
  · rw [retireCore, if_neg (by simpa using h), if_neg h]

theorem retrained_other {s : State} {e : ErrReport} (h : e.kind ≠ 6) : retrained s e = s := if_neg h

theorem triage_other {r : Regs} {e : ErrReport} (h : e.kind ≠ 0) : triage r e = e.outcome := if_neg fun hk => h hk.1

/-- What a self-test does to a unit that is no lane of a core, by its outcome. -/
theorem selfTest_unit {s : State} {e : ErrReport} (h : e.kind ≠ 0) : selfTest s e = if e.outcome = 2 then { retrained s e with regs := replaceUnit (retrained s e).regs e }
    else if e.outcome = 3 then { retrained s e with regs := retireUnit (retrained s e).regs e } else retrained s e := by
  rw [selfTest, triage_other h, if_neg h]

theorem retireUnit_port {r : Regs} {e : ErrReport} (h : e.kind = 6) : retireUnit r e = { r with
    portOff := if bitOf r.portOff.toNat (e.index.toNat % 32) = true then r.portOff else r.portOff + BitVec.ofNat 32 (2 ^ (e.index.toNat % 32)) } := by
  rw [retireUnit, if_neg (by omega), if_neg (by omega), if_neg (by omega), if_pos h]
  by_cases hb : bitOf r.portOff.toNat (e.index.toNat % 32) = true
  · rw [if_pos hb, if_pos hb]
  · rw [if_neg hb, if_neg hb]

theorem selfTestsReplaceOrRetire : Claim.SelfTestsReplaceOrRetire := by
  intro s e core left detail coreRetired bank retrained' frame
  have hcore : ({ s with regs := retireCore s.regs (unitCore e) } : State) = coreRetired := by
    rw [retireCore_eq]
    rfl
  have hleft : lanesLeft s.regs (unitCore e) = left := rfl
  refine ⟨fun h6 hout => ?_, fun h0 hout hl => ?_, fun h0 hout hl => ?_, fun h1 h3 hout => ?_, fun h1 h5 hout => ?_, fun h4 hout => ?_,
    fun h5 hout => ?_, fun h6 hout => ?_, fun h6 hout => ?_⟩
  · have ht : triage s.regs e = e.outcome := if_neg fun h => absurd h.2 (by omega)
    rw [selfTest, ht, if_neg (by omega), if_neg (by omega), retrained_other h6]
  · intro t
    have ht : triage s.regs e = 2 := (if_pos ⟨h0, hout⟩).trans (if_neg (by rw [hleft]; omega))
    rw [selfTest, ht, if_pos rfl, if_pos h0, retrained_other (by omega), replaceUnit, if_pos h0]
    show emitRecord _ { cause := 0x0B03, detail := unitDetail 0 2 _ e.index.toNat } = emitRecord _ { cause := 0x0B03, detail := e.kind * 2 ^ 44 + _ + _ + _ }
    rw [h0]
    rfl
  · have ht : triage s.regs e = 3 := (if_pos ⟨h0, hout⟩).trans (if_pos (by rw [hleft]; exact hl))
    rw [selfTest, ht, if_neg (by decide), if_pos rfl, retrained_other (by omega), retireUnit, if_pos (by omega)]
    exact hcore
  · rw [selfTest_unit (by omega), if_neg (by omega), if_pos hout, retrained_other (by omega), retireUnit, if_pos h3]
    exact hcore
  · rw [selfTest_unit (by omega), if_pos hout, retrained_other (by omega), replaceUnit, if_neg (by omega), if_pos h5]
  · rw [selfTest_unit (by omega), if_neg (by omega), if_pos hout, retrained_other (by omega), retireUnit, if_neg (by omega), if_pos h4]
  · rw [selfTest_unit (by omega), if_neg (by omega), if_pos hout, retrained_other (by omega), retireUnit, if_neg (by omega), if_neg (by omega), if_pos h5]
    simp only [List.contains_iff_mem]
    rfl
  · have hre : retrained s e = retrained' := (if_pos h6).trans (by rw [triage_other (by omega)])
    rw [selfTest_unit (by omega), hre, if_neg hout]
    by_cases h2 : e.outcome = 2
    · rw [if_pos h2, replaceUnit, if_neg (by omega), if_neg (by omega)]
    · rw [if_neg h2]
  · have hre : retrained s e = retrained' := (if_pos h6).trans (by rw [triage_other (by omega)])
    have hport : retrained'.regs.portOff = s.regs.portOff := by
      show (emitRecord s _).regs.portOff = _
      rw [emitRecord_regs]
    rw [selfTest_unit (by omega), hre, if_neg (by omega), if_pos hout, retireUnit_port h6]
    refine ⟨_, rfl, fun k hk => ?_⟩
    rw [hport]
    exact getLsbD_setBit s.regs.portOff _ hk

/-! ## Devices that stop -/

theorem selfTest_ctxs (s : State) (e : ErrReport) : (selfTest s e).ctxs = s.ctxs := by
  have hre : (retrained s e).ctxs = s.ctxs := by
    unfold retrained
    split
    · rw [emitRecord_ctxs]
    · rfl
  unfold selfTest
  dsimp only
  split
  · split
    · rw [emitRecord_ctxs]
      exact hre
    · exact hre
  · split
    · exact hre
    · exact hre

/-- The contexts that are left when one has ended: it has the state ENDED, and the others are as they were. -/
theorem endNow_ctx_of {s : State} {n : Nat} {c : Ctx} (h : c ∈ (endNow s n).ctxs) : c.state = .ended ∨ (c ∈ s.ctxs ∧ c.num ≠ n) := by
  have hm := (List.mem_filter.mp h).1
  rw [settle_ctxs] at hm
  obtain ⟨y, hy, rfl⟩ := List.mem_map.mp hm
  by_cases hn : (y.num == n) = true
  · rw [if_pos hn]
    exact .inl rfl
  · rw [if_neg hn]
    exact .inr ⟨hy, by simpa using hn⟩

theorem foldl_endNow_ended (l : List Nat) (s : State) (h : ∀ c ∈ s.ctxs, c.state = .ended ∨ c.num ∈ l) : ∀ c ∈ (l.foldl endNow s).ctxs, c.state = .ended := by
  induction l generalizing s with
  | nil => exact fun c hc => (h c hc).resolve_right List.not_mem_nil
  | cons n l ih =>
    refine ih (endNow s n) fun c hc => ?_
    rcases endNow_ctx_of hc with he | ⟨hmem, hne⟩
    · exact .inl he
    · exact (h c hmem).imp_right fun hin => (List.mem_cons.mp hin).resolve_left hne

theorem inCommitted_of {s : State} {pa : Nat} (h : ∃ c ∈ s.ctxs, c.hasSeal = true ∧ halfBase c c.half ≤ pa ∧ pa < halfBase c c.half + 0x25800000) :
    inCommitted s pa = true := by
  obtain ⟨c, hc, hs, hlo, hhi⟩ := h
  refine List.any_eq_true.mpr ⟨c, hc, ?_⟩
  rw [hs, decide_eq_true hlo, decide_eq_true (show pa < halfBase c c.half + saveSize from hhi)]
  rfl

theorem execUncorrectable_fatal {s : State} {e : ErrReport} (hb : s.regs.boot = .ready) (hf : fatalError s e = true) :
    exec (.uncorrectableMemoryError e) s = .next (stopDevice s e) := by
  show execUncorrectableMemoryError e s = _
  rw [execUncorrectableMemoryError, if_neg (not_not.mpr hb), if_pos hf]

theorem stopDevice_eq (s : State) (e : ErrReport) : stopDevice s e
    = (fun u : State => { u with regs := { u.regs with boot := .stopped, unrestored := true } })
        ((s.ctxs.map fun c => c.num).foldl endNow (selfTest (emitRecord s (errorRecord s e 0x0B02 4 6 (triage s.regs e))) e)) := by
  rw [stopDevice, endEvery, selfTest_ctxs, emitRecord_ctxs]

/-! ## Correctable errors -/

theorem correctHit_iff (s : State) (e : ErrReport) :
    (s.regs.correct.find? fun (k, i, t) => k == e.kind && i == unitKey e && decide (s.clock ≤ t + 2 ^ 36)).isSome = true
      ↔ ∃ k ∈ s.regs.correct, k.1 = e.kind ∧ k.2.1 = unitKey e ∧ s.clock ≤ k.2.2 + 2 ^ 36 := by
  rw [List.find?_isSome]
  simp only [Bool.and_eq_true, beq_iff_eq, decide_eq_true_eq, and_assoc]

/-- The report of a fabric port's retrain. -/
def portReport (port : BitVec 5) (pass : Bool) : ErrReport :=
  { engine := 7, kind := 6, index := BitVec.ofNat 32 port.toNat, outcome := if pass then 1 else 3, spares := 0xFF, pa := none, access := none
    fatal := false, moves := [] }

theorem portReport_record (s : State) (port : BitVec 5) (pass : Bool) :
    errorRecord s { portReport port pass with access := none } 0x0B04 0 0 (portReport port pass).outcome
      = { engine := 7, cause := 0x0B04, detail := 6 * 2 ^ 44 + (if pass then 1 else 3) * 2 ^ 40 + 0xFF * 2 ^ 32 + port.toNat } := by
  have hidx : (BitVec.ofNat 32 port.toNat).toNat = port.toNat := by
    rw [BitVec.toNat_ofNat, Nat.mod_eq_of_lt (port.isLt.trans (by decide))]
  show ({ engine := 7, cause := 0x0B04, detail := unitDetail 6 (if pass then 1 else 3) 0xFF (BitVec.ofNat 32 port.toNat).toNat } : RecordArgs) = _
  rw [hidx, unitDetail]

/-- The record of a fabric port's retrain (R386). -/
def portRecord (port : BitVec 5) (pass : Bool) : RecordArgs :=
  { engine := 7, cause := 0x0B04, detail := 6 * 2 ^ 44 + (if pass then 1 else 3) * 2 ^ 40 + 0xFF * 2 ^ 32 + port.toNat }

theorem retrained_port (s : State) (port : BitVec 5) (pass : Bool) : retrained s (portReport port pass) = emitRecord s (portRecord port pass) := by
  rw [portRecord, ← portReport_record]
  rfl

/-- A port that does not pass is disabled. -/
theorem selfTest_port (s : State) (port : BitVec 5) (pass : Bool) : ∃ off, selfTest s (portReport port pass)
      = { emitRecord s (portRecord port pass) with regs := { s.regs with portOff := off } }
    ∧ ∀ k < 32, off.getLsbD k = (s.regs.portOff.getLsbD k || (!pass && k == port.toNat)) := by
  rw [selfTest_unit (e := portReport port pass) (Nat.succ_ne_zero 5), retrained_port]
  cases pass with
  | true =>
    refine ⟨s.regs.portOff, ?_, fun k _ => by simp⟩
    have hout : (portReport port true).outcome = 1 := rfl
    rw [hout, if_neg (by decide), if_neg (by decide)]
    exact congrArg (fun r : Regs => ({ emitRecord s (portRecord port true) with regs := r } : State)) (emitRecord_regs s _)
  | false =>
    have hmod : (portReport port false).index.toNat % 32 = port.toNat := by
      show (BitVec.ofNat 32 port.toNat).toNat % 32 = _
      rw [BitVec.toNat_ofNat, Nat.mod_eq_of_lt (port.isLt.trans (by decide)), Nat.mod_eq_of_lt port.isLt]
    have hretire := retireUnit_port (r := s.regs) (e := portReport port false) rfl
    rw [hmod] at hretire
    have hout : (portReport port false).outcome = 3 := rfl
    rw [hout, if_neg (by decide), if_pos rfl, emitRecord_regs, hretire]
    refine ⟨_, rfl, fun k hk => ?_⟩
    rw [Bool.not_false, Bool.true_and]
    exact getLsbD_setBit s.regs.portOff port.toNat hk

end Sys2Proof.Machine

open Sys2Proof Sys2Proof.Machine

/-- Settles O19: the undo entries as a fold from the oldest, the rollback by its steps, and each report by its conditions. -/
theorem errorsAreRecordedAndRolledBack : Obligations.ErrorsAreRecordedAndRolledBack := by
  unfold Obligations.ErrorsAreRecordedAndRolledBack
  refine ⟨undoneLinesAreRestored, rollbacksReturnToTheSeal, selfTestsReplaceOrRetire, fun e s port pass => ⟨fun hb hf t ht => ?_, fun hb hf => ?_, fun h => ?_,
    fun moves hb => ?_, fun moves t hb ht => ?_, fun h => ?_, fun h => ?_, ?_, rfl⟩⟩
  · show execUncorrectableMemoryError e s = _
    rw [execUncorrectableMemoryError, if_neg (not_not.mpr hb), hf, if_neg Bool.false_ne_true, errorTaken, ht]
  · intro u
    refine ⟨(execUncorrectable_fatal hb hf).trans (by rw [stopDevice_eq]), foldl_endNow_ended _ _ fun c hc => .inr ?_⟩
    rw [selfTest_ctxs, emitRecord_ctxs] at hc
    exact List.mem_map_of_mem hc
  · rcases h with hf | ⟨pa, hpa, hc⟩
    · rw [fatalError, hf, Bool.true_or]
    · rw [fatalError, hpa]
      dsimp only
      rw [inCommitted_of hc, Bool.true_or, Bool.or_true]
  · exact (if_neg (not_not.mpr hb)).trans (if_pos rfl)
  · exact (if_neg (not_not.mpr hb)).trans ((if_neg Bool.false_ne_true).trans (by rw [ht] <;> rfl))
  · show execCorrectableError e s = _
    rw [execCorrectableError]
    exact if_neg fun hc => by
      obtain ⟨k, hk, hsame⟩ := (correctHit_iff s e).mp hc
      exact h k hk hsame
  · show execCorrectableError e s = _
    rw [execCorrectableError]
    exact if_pos ((correctHit_iff s e).mpr h)
  · obtain ⟨off, hself, hoff⟩ := selfTest_port s port pass
    have hexec : exec (.fabricPortError port pass) s = .next (selfTest s (portReport port pass)) := rfl
    refine ⟨_, hexec, ?_⟩
    rw [hself]
    exact ⟨rfl, hoff⟩

end

section
/-! PROOFS. The elements that the copy engine takes and the order in which it runs over them (R252 to R257). -/
namespace Sys2Proof.Machine
open Sys2Proof.Laws

/-! ## Addresses and descriptors -/

theorem coordAt_eq (op : CopyOp) (n : Nat) : coordAt op.coords n = coordNum op n := toSigned_word _

theorem srcBit_eq (op : CopyOp) (i : Nat × Nat × Nat) : srcBit op.words op.coords op.width i.1 i.2.1 i.2.2 = sourceBit op i := by
  rw [srcBit, coordAt_eq, coordAt_eq]
  rfl

theorem dstBit_eq (op : CopyOp) (bits : Nat) (j : Nat × Nat × Nat) : dstBit op.words op.coords bits j.1 j.2.1 j.2.2 = destBit op bits j := by
  rw [dstBit, coordAt_eq, coordAt_eq]
  rfl

theorem convDesc_eq (fmt scale special : Nat) : convDesc fmt scale special = lineDescriptor fmt scale special := by
  rw [convDesc, lineDescriptor]
  simp only [scaledFmt, Bool.and_eq_true, decide_eq_true_eq]

theorem copyDesc_eq (w : Shape) (src : Option Nat) : copyDesc w src = carriedDesc w src := by
  rw [copyDesc, carriedDesc, convDesc_eq]

theorem convertOut_eq (fmt scale : Nat) (w : Shape) (v : FVal) (desc : Nat) : { convertOut fmt scale w v with desc := some desc } = converted fmt scale w v desc := by
  have hand : ∀ a b c : Bool, (a && b && c) = (b && a && c) := fun a b c => by rw [Bool.and_comm a b]
  simp only [convertOut, converted, hand v.isFin]

theorem zeroElem_plain {op : CopyOp} (h : op.op = 0 ∨ op.op = 1) (scale : Nat) :
    zeroElem op scale = { code := 0, offends := false, satd := false, desc := carriedDesc op.words none } := by
  rw [← copyDesc_eq, zeroElem]
  rcases h with h | h
  · rw [h] <;> rfl
  · rw [h] <;> rfl

/-! ## The element at an index -/

section
variable {s : State} {g : Group} {op : CopyOp} {k : Nat}

/-- The source indices of an element index (R252). -/
def sourceIndices (op : CopyOp) (k : Nat) : Nat × Nat × Nat :=
  if op.op = 1 then ((destOf op.words k).2.1, (destOf op.words k).1, (destOf op.words k).2.2) else destOf op.words k

theorem sourceOf_inside (h : (sourceIndices op k).1 < Shape.sn0 op.words ∧ (sourceIndices op k).2.1 < Shape.sn1 op.words) :
    sourceOf op.op op.words (indicesOf op.words k) = some (sourceIndices op k) := if_pos h

theorem sourceOf_outside (h : ¬ ((sourceIndices op k).1 < Shape.sn0 op.words ∧ (sourceIndices op k).2.1 < Shape.sn1 op.words)) :
    sourceOf op.op op.words (indicesOf op.words k) = none := if_neg h

theorem elemAt_inside (h5 : op.op < 5) (h : (sourceIndices op k).1 < Shape.sn0 op.words ∧ (sourceIndices op k).2.1 < Shape.sn1 op.words) :
    elemAt s g op k = (sourceElem s g op (destOf op.words k) (sourceIndices op k)).map some := by
  rw [elemAt]
  rw [if_neg (by omega), sourceOf_inside h]
  rfl

theorem elemAt_outside (h5 : op.op < 5) (h : ¬ ((sourceIndices op k).1 < Shape.sn0 op.words ∧ (sourceIndices op k).2.1 < Shape.sn1 op.words)) :
    elemAt s g op k = if !Shape.zf op.words then .ok none
      else if op.op = 3 then (readValues s g op (lineSources op (destOf op.words k))).map fun l => some (zeroElem op (lineScale (Shape.dfmt op.words) l))
      else .ok (some (zeroElem op 0)) := by
  rw [elemAt]
  rw [if_neg (by omega), sourceOf_outside h]
  rfl

variable {b : List Byte} (hread : engineRead s g op.core (max 1 (op.width / 8)) (BitVec.ofNat 64 (sourceBit op (sourceIndices op k) / 8)) = .ok b)
include hread

/-- The code of the source element. -/
theorem readElem_ok : readElem s g op op.width (sourceBit op (sourceIndices op k))
    = .ok (ofLe b / 2 ^ (sourceBit op (sourceIndices op k) % 8) % 2 ^ op.width) := by
  rw [readElem, show engineRead s g op.core (alignBytes op.width) (byteOf (sourceBit op (sourceIndices op k))) = .ok b from hread]

/-- The value of the source element under its line's format. -/
theorem readValue_ok {f sc sp : Nat} (hl : lineFormat s g op (BitVec.ofNat 64 (sourceBit op (sourceIndices op k) / 8)) = .ok (f, sc, sp)) :
    readValue s g op (sourceIndices op k) = .ok (decodeScaled f sc sp (ofLe b / 2 ^ (sourceBit op (sourceIndices op k) % 8) % 2 ^ op.width)) := by
  rw [readValue]
  dsimp only
  rw [srcBit_eq, readElem_ok hread]
  show (lineFormat s g op (byteOf (sourceBit op (sourceIndices op k)))).bind _ = _
  rw [show lineFormat s g op (byteOf (sourceBit op (sourceIndices op k))) = .ok (f, sc, sp) from hl]
  rfl

/-- CPY, CPYT and RMAT take the source element itself. -/
theorem sourceElem_same (j : Nat × Nat × Nat) (h2 : op.op ≠ 2) (h3 : op.op ≠ 3) : sourceElem s g op j (sourceIndices op k)
    = .ok { code := ofLe b / 2 ^ (sourceBit op (sourceIndices op k) % 8) % 2 ^ op.width, offends := false, satd := false
            desc := if op.op = 4 then some (convDesc (Shape.dfmt op.words) 0x7F 0)
              else copyDesc op.words (srcDesc s g op (BitVec.ofNat 64 (sourceBit op (sourceIndices op k) / 8))) } := by
  rw [sourceElem]
  dsimp only
  split
  · next h => exact absurd h h2
  · next h => exact absurd h h3
  · rw [srcBit_eq, readElem_ok hread]
    rfl

end

theorem copiesTakeTheirElements : Claim.CopiesTakeTheirElements := by
  intro s g op k w j i inside bit bytes code va takes zero
  refine ⟨fun h5 => ?_, fun h5 hin b hread => ⟨fun h01 => ?_, fun h4 => ?_, fun f sc sp hl => ?_⟩, fun h5 hout hz => ?_, fun h5 hout hz => ?_, fun hf => if_pos hf⟩
  · show elemAt s g op k = _
    rw [elemAt]
    rw [if_pos h5, copyDesc_eq]
  · refine (elemAt_inside h5 hin).trans ?_
    rw [sourceElem_same hread _ (by omega) (by omega), if_neg (by omega), copyDesc_eq]
    rfl
  · refine (elemAt_inside h5 hin).trans ?_
    rw [sourceElem_same hread _ (by omega) (by omega), if_pos h4, convDesc_eq]
    rfl
  · intro v
    have hvalue : readValue s g op (sourceIndices op k) = .ok v := readValue_ok hread hl
    refine ⟨fun h2 => ?_, fun h3 l hs => ?_⟩
    · refine (elemAt_inside h5 hin).trans ?_
      rw [sourceElem, h2]
      show Except.map some ((readValue s g op (sourceIndices op k)).map _) = _
      rw [hvalue]
      show Except.ok (some { convertOut (Shape.dfmt op.words) (Shape.dscale op.words) op.words v with
        desc := some (convDesc (Shape.dfmt op.words) (Shape.dscale op.words) (Shape.dspecial op.words)) }) = _
      rw [convDesc_eq, convertOut_eq]
    · intro scale
      refine (elemAt_inside h5 hin).trans ?_
      have hline : readValues s g op (lineSources op (destOf op.words k)) = .ok l := hs
      rw [sourceElem, h3]
      show Except.map some ((readValue s g op (sourceIndices op k)).bind fun v =>
        (readValues s g op (lineSources op (destOf op.words k))).bind fun l => _) = _
      rw [hvalue]
      show Except.map some ((readValues s g op (lineSources op (destOf op.words k))).bind fun l => _) = _
      rw [hline]
      show Except.ok (some { convertOut (Shape.dfmt op.words) (lineScale (Shape.dfmt op.words) l) op.words v with
        desc := some (convDesc (Shape.dfmt op.words) (lineScale (Shape.dfmt op.words) l) 0) }) = _
      rw [convDesc_eq, convertOut_eq]
  · refine (elemAt_outside h5 hout).trans ?_
    rw [show Shape.zf op.words = false from hz]
    rfl
  · have hfill : elemAt s g op k = _ := elemAt_outside h5 hout
    rw [show Shape.zf op.words = true from hz, Bool.not_true, if_neg Bool.false_ne_true] at hfill
    refine ⟨fun h01 => ?_, fun h2 => ?_, fun h3 l hs => ?_, fun h4 => ?_⟩
    · refine hfill.trans ((if_neg (by omega)).trans ?_)
      rw [zeroElem_plain h01]
    · refine hfill.trans ((if_neg (by omega)).trans ?_)
      rw [zeroElem, h2, ← convDesc_eq] <;> rfl
    · refine hfill.trans ((if_pos h3).trans ?_)
      rw [show readValues s g op (lineSources op (destOf op.words k)) = .ok l from hs]
      show Except.ok (some (zeroElem op (lineScale (Shape.dfmt op.words) l))) = _
      rw [zeroElem, h3, ← convDesc_eq] <;> rfl
    · refine hfill.trans ((if_neg (by omega)).trans ?_)
      rw [zeroElem, h4, ← convDesc_eq] <;> rfl

/-! ## The run -/

/-- The operation with the line of an element that saturated (R257). -/
def withSatd (op : CopyOp) (bit : Nat) (e : ElemOut) : CopyOp :=
  { op with satd := if e.satd = true ∧ bit / 512 ∉ op.satd then bit / 512 :: op.satd else op.satd }

theorem copyElem_eq (r s : State) (src : List (Nat × Nat × Nat)) (g : Group) (op : CopyOp) (bits k : Nat) {e : ElemOut} (he : elemAt r g op k = .ok (some e)) :
    copyElem r src s g op bits k
      = (let bit := destBit op bits (destOf op.words k)
        match putElem src s g (withSatd op bit e) bits bit e with
        | .error x => .error x
        | .ok t => .ok (t, { withSatd op bit e with next := k + 1, offend := if e.offends = true ∧ op.offend = none then some k else op.offend })) := by
  rw [copyElem, he]
  dsimp only
  rw [show dstBit op.words op.coords bits (indicesOf op.words k).1 (indicesOf op.words k).2.1 (indicesOf op.words k).2.2 = destBit op bits (destOf op.words k)
    from dstBit_eq op bits (destOf op.words k)]
  simp only [Bool.and_eq_true, Bool.not_eq_true', ← Bool.not_eq_true, List.contains_iff_mem, Option.isNone_iff_eq_none] <;> rfl

theorem prepare_done {s : State} {g : Group} {op : CopyOp} (hw : op.width ≠ 0) (h4 : op.op ≠ 4 ∨ op.region.isSome = true) : prepare s g op = .ok op :=
  if_pos ⟨hw, h4⟩

theorem prepare_plain {s : State} {g : Group} {op : CopyOp} (hw : op.width = 0) (h : op.op = 0 ∨ op.op = 1 ∨ op.op = 5) :
    prepare s g op = .ok { op with width := Shape.ewBits op.words } := by
  refine (if_neg fun hc => hc.1 hw).trans ?_
  rcases h with h | h | h
  · rw [h] <;> rfl
  · rw [h] <;> rfl
  · rw [h] <;> rfl

theorem prepare_converts {s : State} {g : Group} {op : CopyOp} (hw : op.width = 0) (h : op.op = 2 ∨ op.op = 3) (hf : Shape.sfmt op.words ≠ 0) :
    prepare s g op = .ok { op with width := elemBits (Shape.sfmt op.words) } := by
  have hline : ∀ va, lineFormat s g op va = .ok (Shape.sfmt op.words, Shape.sscale op.words, Shape.sspecial op.words) := fun va => if_pos hf
  refine (if_neg fun hc => hc.1 hw).trans ?_
  rcases h with h | h
  · rw [h]
    dsimp only
    rw [hline] <;> rfl
  · rw [h]
    dsimp only
    rw [hline] <;> rfl

theorem prepare_region {s : State} {g : Group} {op : CopyOp} (h4 : op.op = 4) (h : op.width = 0 ∨ op.region = none) :
    prepare s g op = .ok { op with
      width := elemBits (Shape.dfmt op.words), region := rmatHeader s g op
      gen := ((rmatHeader s g op).map fun h => BitVec.ofNat 32 (headerAt s.hbm h).gen).getD 0 } := by
  refine (if_neg fun hc => ?_).trans ?_
  · obtain ⟨hw, hr⟩ := hc
    rcases h with h0 | hn
    · exact hw h0
    · rcases hr with hne | hs
      · exact hne h4
      · rw [hn] at hs
        cases hs
  · rw [h4] <;> rfl

theorem runCopy_of_prepare {s : State} {g : Group} {op op1 : CopyOp} (h : prepare s g op = .ok op1) : runCopy s g op
    = copyElems s (sourceBytes s g op1) g.uid (if op1.op = 2 ∨ op1.op = 3 ∨ op1.op = 4 then elemBits (Shape.dfmt op1.words) else Shape.ewBits op1.words)
        (Shape.count op1.words - op1.next) s.nextOccasion op1 := by
  rw [runCopy, h]

theorem copiesRunOverTheirElements : Claim.CopiesRunOverTheirElements := by
  refine ⟨fun r s src g op bits k => ?_, fun r s src g uid bits n op hg => ⟨rfl, fun t op1 h => ?_, fun x h => ?_⟩, fun s g op => ?_⟩
  · intro bit
    refine ⟨fun hn => by rw [copyElem, hn], fun e he => ?_⟩
    intro op1
    have hcopy := copyElem_eq r s src g op bits k he
    dsimp only at hcopy
    refine ⟨fun t ht => ?_, fun x hx => ?_⟩
    · rw [show putElem src s g (withSatd op (destBit op bits (destOf op.words k)) e) bits (destBit op bits (destOf op.words k)) e = .ok t from ht] at hcopy
      exact hcopy
    · rw [show putElem src s g (withSatd op (destBit op bits (destOf op.words k)) e) bits (destBit op bits (destOf op.words k)) e = .error x from hx] at hcopy
      exact hcopy
  · rw [copyElems, hg]
    dsimp only
    rw [h]
  · rw [copyElems, hg]
    dsimp only
    rw [h]
  · intro w total gen go
    refine ⟨fun hw h4 => runCopy_of_prepare (prepare_done hw h4), fun hw h => ?_, fun hw h hf => ?_, fun h4 h => ⟨fun hdr hh => ?_, fun hh => ?_⟩⟩
    · refine (runCopy_of_prepare (prepare_plain hw h)).trans ?_
      rw [if_neg (show ¬ (op.op = 2 ∨ op.op = 3 ∨ op.op = 4) by omega)]
      rfl
    · refine (runCopy_of_prepare (prepare_converts hw h hf)).trans ?_
      rw [if_pos (show op.op = 2 ∨ op.op = 3 ∨ op.op = 4 by omega)]
      rfl
    · have hprep := prepare_region (s := s) (g := g) h4 h
      rw [hh] at hprep
      refine (runCopy_of_prepare hprep).trans ?_
      rw [if_pos (show op.op = 2 ∨ op.op = 3 ∨ op.op = 4 by omega)]
      rfl
    · have hprep := prepare_region (s := s) (g := g) h4 h
      rw [hh] at hprep
      refine (runCopy_of_prepare hprep).trans ?_
      rw [if_pos (show op.op = 2 ∨ op.op = 3 ∨ op.op = 4 by omega)]
      rfl

end Sys2Proof.Machine
end

section
/-! PROOFS. The write of one element by the copy engine (R252, R253, R256). -/
namespace Sys2Proof.Machine
open Sys2Proof.Laws

/-! ## Steps that change one line's sideband -/

/-- Of the lines' sidebands at most that of one changes, whose descriptor is d then. -/
structure LineStep (s t : State) (pa : Nat) (d : Word) : Prop where
  tag : t.baseTag = s.baseTag
  canonical : swf (sideDefault t) t.side = true
  others : ∀ line, line / 64 ≠ pa / 64 → sideGet t line = sideGet s line
  desc : descOf (sideGet t pa) = d

section
variable {s t u : State} {pa : Nat} {d d1 : Word}

theorem LineStep.trans (h1 : LineStep s t pa d1) (h2 : LineStep t u pa d) : LineStep s u pa d :=
  ⟨h2.tag.trans h1.tag, h2.canonical, fun line hl => (h2.others line hl).trans (h1.others line hl), h2.desc⟩

theorem sideGet_congr (htag : t.baseTag = s.baseTag) (hside : t.side = s.side) (a : Nat) : sideGet t a = sideGet s a := by
  rw [sideGet, sideGet, sideDefault, sideDefault, htag, hside]

/-- A step that leaves the sidebands as they are. -/
theorem LineStep.of_same (hwf : swf (sideDefault s) s.side = true) (htag : t.baseTag = s.baseTag) (hside : t.side = s.side) :
    LineStep s t pa (descOf (sideGet s pa)) := by
  refine ⟨htag, ?_, fun line _ => sideGet_congr htag hside line, by rw [sideGet_congr htag hside]⟩
  rw [hside, sideDefault, htag]
  exact hwf

/-- The write of the sideband of a line, at any address in it. -/
theorem LineStep.of_sidePut (hwf : swf (sideDefault s) s.side = true) (x : BitVec 48) {a : Nat} (ha : a / 64 = pa / 64) :
    LineStep s (sidePut s a x) pa (descOf x) := by
  have hget : ∀ line, sideGet (sidePut s a x) line = if line / 64 = a / 64 then x else sideGet s line := fun line => sget_sput _ _ _ hwf
  exact ⟨rfl, swf_sput _ _ hwf, fun line hl => by rw [hget, if_neg (ha ▸ hl)], by rw [hget, if_pos ha.symm]⟩

theorem LineStep.descriptor_kept (h : LineStep s t pa (descOf (sideGet s pa))) (h2 : LineStep t u pa (descOf (sideGet t pa))) :
    LineStep s u pa (descOf (sideGet s pa)) := h.trans (h.desc ▸ h2)

end

/-! ## Captures and tracked writes (R330) -/

section
variable {s t : State} {pa : Nat}

theorem captureLine_lineStep (hwf : swf (sideDefault s) s.side = true) {a : Nat} (ha : a / 64 = pa / 64) (h : captureLine s a = some t) :
    t.hbm = s.hbm ∧ LineStep s t pa (descOf (sideGet s pa)) := by
  refine ⟨by rw [captureLine_frame h], ?_⟩
  have hline : a / 64 * 64 / 64 = pa / 64 := by omega
  have hget : sideGet s (a / 64 * 64) = sideGet s pa := by rw [sideGet, sideGet, hline]
  rw [captureLine] at h
  dsimp only at h
  split at h
  · obtain rfl := Option.some.inj h
    exact LineStep.of_same hwf rfl rfl
  · split at h
    · cases h
    · obtain rfl := Option.some.inj h
      rw [noteOccupancy_frame, hget]
      have hput := LineStep.of_sidePut hwf (mkSide s.domain.rin (descOf (sideGet s pa))) hline
      rw [mkSide, descOf_append] at hput
      exact ⟨hput.tag, hput.canonical, hput.others, hput.desc⟩

theorem linesOf_aligned {n : Nat} (hn : n = 1 ∨ n = 2 ∨ n = 4 ∨ n = 8) (ha : pa % n = 0) : linesOf pa n = [pa / 64 * 64] := by
  have hend : (pa + n - 1) / 64 = pa / 64 := by rcases hn with rfl | rfl | rfl | rfl <;> omega
  rw [linesOf, if_neg (by omega), hend, Nat.sub_self]
  rfl

theorem trackedWrite_lineStep (hwf : swf (sideDefault s) s.side = true) {data : List Byte}
    (hn : data.length = 1 ∨ data.length = 2 ∨ data.length = 4 ∨ data.length = 8) (ha : pa % data.length = 0) (h : trackedWrite s pa data = some t) :
    t.hbm = s.hbm.write pa data ∧ LineStep s t pa (descOf (sideGet s pa)) := by
  refine ⟨(trackedWrite_writes h).1, ?_⟩
  obtain ⟨c, hc, rfl⟩ := Option.map_eq_some_iff.mp h
  rw [linesOf_aligned hn ha] at hc
  obtain ⟨u, hu, hcu⟩ := captureLines_cons hc
  obtain rfl : u = c := Option.some.inj hcu
  obtain ⟨-, hstep⟩ := captureLine_lineStep hwf (show pa / 64 * 64 / 64 = pa / 64 by omega) hu
  exact hstep.descriptor_kept (LineStep.of_same hstep.canonical rfl rfl)

theorem acceptWrite_lineStep (hwf : swf (sideDefault s) s.side = true) {d : Deferred} (h : acceptWrite s d = some t) :
    t.hbm = s.hbm ∧ LineStep s t pa (descOf (sideGet s pa)) := by
  rw [acceptWrite] at h
  split at h
  · cases h
  · obtain rfl := Option.some.inj h
    rw [noteOccupancy_frame]
    exact ⟨rfl, LineStep.of_same hwf rfl rfl⟩

/-! ## The write of an element and of its line's descriptor -/

theorem writePlace_lineStep (hwf : swf (sideDefault s) s.side = true) {ag : Agent} {p : Place} {data : List Byte} (hp : p.target = .hbm pa)
    (hn : data.length = 1 ∨ data.length = 2 ∨ data.length = 4 ∨ data.length = 8) (ha : pa % data.length = 0) (h : writePlace s ag p data = some t) :
    t.hbm = s.hbm.write pa data ∧ LineStep s t pa (descOf (sideGet s pa)) := by
  rw [writePlace, hp] at h
  dsimp only at h
  split at h
  · obtain rfl := Option.some.inj h
    exact ⟨rfl, LineStep.of_same hwf rfl rfl⟩
  · split at h
    · obtain ⟨u, hu, hacc⟩ := Option.bind_eq_some_iff.mp h
      obtain ⟨hmem, hstep⟩ := trackedWrite_lineStep hwf hn ha hu
      obtain ⟨hmem2, hstep2⟩ := acceptWrite_lineStep (pa := pa) hstep.canonical hacc
      exact ⟨hmem2.trans hmem, hstep.descriptor_kept hstep2⟩
    · exact trackedWrite_lineStep hwf hn ha h

theorem engineStore_lineStep (hwf : swf (sideDefault s) s.side = true) {ag : Agent} {p : Place} {va : DWord} {data : List Byte} (hp : p.target = .hbm pa)
    (hn : data.length = 1 ∨ data.length = 2 ∨ data.length = 4 ∨ data.length = 8) (ha : pa % data.length = 0) (h : engineStore s ag p va data = .ok t) :
    t.hbm = s.hbm.write pa data ∧ LineStep s t pa (descOf (sideGet s pa)) := by
  have helse : savedPond s ag.ctx (.hbm pa) = none := savedPond_elsewhere s _ fun _ _ => Target.noConfusion
  rw [engineStore, hp] at h
  dsimp only at h
  rw [helse] at h
  dsimp only at h
  cases hw : writePlace s ag p data with
  | none =>
    rw [hw] at h
    cases h
  | some u =>
    rw [hw] at h
    cases h
    exact writePlace_lineStep hwf hp hn ha hw

theorem putDesc_lineStep (hwf : swf (sideDefault s) s.side = true) (x : Word) : LineStep s (putDesc s pa x) pa (descStored x) := by
  have h := LineStep.of_sidePut hwf (mkSide (rintag (sideGet s pa)) (descStored x)) (rfl : pa / 64 = pa / 64)
  rwa [mkSide, descOf_append] at h

theorem writeDesc_lineStep (hwf : swf (sideDefault s) s.side = true) {ag : Agent} {p : Place} {x : Word} (hp : p.target = .hbm pa)
    (h : writeDesc s ag p x = some t) : t.hbm = s.hbm ∧ LineStep s t pa (descStored x) := by
  rw [writeDesc, hp] at h
  dsimp only at h
  split at h
  · obtain rfl := Option.some.inj h
    have hrep : LineStep s (replaceDesc s (.hbm pa)) pa (descOf (sideGet s pa)) := LineStep.of_same hwf rfl rfl
    have hput := hrep.trans (putDesc_lineStep hrep.canonical x)
    have hpin := LineStep.of_same (t := immediateDesc s ag (.hbm pa) x) (pa := pa) hput.canonical rfl rfl
    exact ⟨rfl, hput.trans (hput.desc ▸ hpin)⟩
  · obtain ⟨u, hu, hrest⟩ := Option.bind_eq_some_iff.mp h
    obtain ⟨hmem, hstep⟩ := captureLine_lineStep hwf (rfl : pa / 64 = pa / 64) hu
    have hput := hstep.trans (putDesc_lineStep hstep.canonical x)
    split at hrest
    · obtain ⟨hmem2, hstep2⟩ := acceptWrite_lineStep (pa := pa) hput.canonical hrest
      exact ⟨hmem2.trans hmem, hput.trans (hput.desc ▸ hstep2)⟩
    · obtain rfl := Option.some.inj hrest
      exact ⟨hmem, hput⟩

/-- The descriptor that the operation has for the line of an element (R256, R257). -/
def elementDesc (op : CopyOp) (line d : Nat) : Word :=
  descStored (BitVec.ofNat 32 (d + if (op.op = 2 ∨ op.op = 3) ∧ line ∈ op.satd then 2 ^ 24 else 0))

theorem elemDesc_lineStep (hwf : swf (sideDefault s) s.side = true) {ag : Agent} {op : CopyOp} {p : Place} {line : Nat} {e : ElemOut} (hp : p.target = .hbm pa)
    (h : elemDesc s ag op p line e = some t) :
    t.hbm = s.hbm ∧ LineStep s t pa (match e.desc with
      | none => descOf (sideGet s pa)
      | some d => elementDesc op line d) := by
  rw [elemDesc, hp] at h
  cases hd : e.desc with
  | none =>
    rw [hd] at h
    obtain rfl : s = t := Option.some.inj h
    exact ⟨rfl, LineStep.of_same hwf rfl rfl⟩
  | some d =>
    rw [hd] at h
    obtain ⟨hmem, hstep⟩ := writeDesc_lineStep hwf hp h
    refine ⟨hmem, ?_⟩
    have hx : (if op.op = 2 ∨ op.op = 3 then d + (if op.satd.contains line then 2 ^ 24 else 0) else d)
        = d + if (op.op = 2 ∨ op.op = 3) ∧ line ∈ op.satd then 2 ^ 24 else 0 := by
      by_cases h1 : op.op = 2 ∨ op.op = 3
      · simp only [List.contains_iff_mem, h1, true_and, if_true]
      · rw [if_neg h1, if_neg fun hc => h1 hc.1, Nat.add_zero]
    rw [hx] at hstep
    exact hstep

end

/-! ## The bytes of an element -/

theorem elemBytes_length (s : State) (src : List (Nat × Nat × Nat)) (p : Place) (l : List Byte) : (elemBytes s src p l).length = l.length := by
  rw [elemBytes, List.length_map, List.length_zipIdx]

theorem elemBytes_getD (s : State) {src : List (Nat × Nat × Nat)} {p : Place} {pa : Nat} (hp : p.target = .hbm pa) (n code : Nat) {k : Nat} (hk : k < n)
    (h : isSource src (0, pa + k) = false) : (elemBytes s src p (leBytes n code)).getD k 0 = BitVec.ofNat 8 (code / 256 ^ k) := by
  have hlen : k < (elemBytes s src p (leBytes n code)).length := by rw [elemBytes_length, leBytes_length]; exact hk
  rw [List.getD_eq_getElem _ _ hlen]
  simp only [elemBytes, hp, spaceOf, List.getElem_map, List.getElem_zipIdx, Nat.zero_add, h, leBytes_eq_map, List.getElem_range, Bool.false_eq_true, if_false]

theorem putElem_inHbm {src : List (Nat × Nat × Nat)} {s t : State} {g : Group} {op : CopyOp} {bits bit : Nat} {e : ElemOut} {p : Place}
    (hbits : bits = 8 ∨ bits = 16 ∨ bits = 32 ∨ bits = 64) (hacc : engineAccess s g op.core (engWrite (bits / 8)) (BitVec.ofNat 64 (bit / 8)) = .ok p)
    (h : putElem src s g op bits bit e = .ok t) :
    ∃ s1, engineStore s (copyAgent g op.seq) p (byteOf bit) (elemBytes s src p (leBytes (bits / 8) e.code)) = .ok s1
      ∧ elemDesc s1 (copyAgent g op.seq) op p ((byteOf bit).toNat / 64) e = some t := by
  have halign : alignBytes bits = bits / 8 := by rcases hbits with rfl | rfl | rfl | rfl <;> rfl
  have hbig : ¬ bits < 8 := by omega
  rw [putElem, halign, show engineAccess s g op.core (engWrite (bits / 8)) (byteOf bit) = .ok p from hacc] at h
  simp only [hbig, decide_false, Bool.false_and, Bool.false_eq_true, if_false] at h
  split at h
  · cases h
  · cases h
  · next s1 hs =>
    split at h
    · next s2 hd =>
      cases h
      exact ⟨s1, hs, hd⟩
    · cases h

theorem copiesPutTheirElements : Claim.CopiesPutTheirElements := by
  intro src s t g op bits bit pa e p hm hwf hbits hacc hp ha h
  obtain ⟨s1, hs, hd⟩ := putElem_inHbm hbits hacc h
  have hlen : (elemBytes s src p (leBytes (bits / 8) e.code)).length = bits / 8 := by rw [elemBytes_length, leBytes_length]
  obtain ⟨hmem1, hstep1⟩ := engineStore_lineStep hwf hp (by rw [hlen]; omega) (by rw [hlen]; exact ha) hs
  obtain ⟨hmem2, hstep2⟩ := elemDesc_lineStep hstep1.canonical hp hd
  have hbyte : ∀ a, t.hbm.byte a = _ := fun a => by rw [hmem2, hmem1, byte_write hm, hlen]
  refine ⟨fun a h1 h2 hn => ?_, fun a hout => ?_, ?_, (hstep1.trans hstep2).others⟩
  · obtain ⟨k, rfl⟩ := Nat.exists_eq_add_of_le h1
    rw [hbyte, if_pos ⟨h1, h2⟩, Nat.add_sub_cancel_left]
    exact elemBytes_getD s hp _ _ (by omega) hn
  · rw [hbyte, if_neg (by omega)]
  · have hdesc := hstep2.desc
    rw [hstep1.desc] at hdesc
    exact hdesc

end Sys2Proof.Machine

open Sys2Proof Sys2Proof.Machine

/-- Settles O59: each element is taken by its operation's rule, put into exactly its bytes with its line's descriptor, and the run goes over the
elements in rising order. -/
theorem copiesWriteTheirElements : Obligations.CopiesWriteTheirElements :=
  ⟨copiesTakeTheirElements, copiesPutTheirElements, copiesRunOverTheirElements⟩
end

section
/-! PROOFS. Performed stores and tile elements: their bytes, their frame and the deferred writes (R193, R195, R200, R208, R271, R333). -/
namespace Sys2Proof.Machine
open Sys2Proof.Laws

/-! ## Deferred writes that a later write replaces (R200) -/

theorem covers_self {d : Deferred} {k : Nat} (hk : k < d.data.length) : d.covers ((spaceOf d.target).1, (spaceOf d.target).2 + k) = true
    ↔ d.home = false ∧ d.desc = false ∧ ∀ q, (k, q) ∉ d.stale := by
  simp only [Deferred.covers, Bool.and_eq_true, Bool.not_eq_true', BEq.rfl, Nat.le_add_right, decide_true, Nat.add_lt_add_iff_left, hk, and_true,
    Nat.add_sub_cancel_left, List.any_eq_false, beq_iff_eq, and_assoc]
  refine and_congr_right fun _ => and_congr_right fun _ => ⟨fun h q hq => h _ hq rfl, fun h x hx hk => h x.2 ?_⟩
  rw [← hk]
  exact hx

theorem laterWritesReplaceDeferredBytes : Claim.LaterWritesReplaceDeferredBytes := by
  intro d rin sp n e at_
  refine ⟨rfl, fun k r => ?_⟩
  show (k, r) ∈ d.stale ++ _ ↔ _
  rw [List.mem_append]
  refine or_congr_right ?_
  simp only [List.mem_map, List.mem_filter, List.mem_range, Bool.and_eq_true, beq_iff_eq, decide_eq_true_eq, Prod.mk.injEq]
  constructor
  · rintro ⟨k', ⟨hk, ⟨⟨hc, h1⟩, h2⟩, h3⟩, rfl, rfl⟩
    obtain ⟨hhome, hdesc, hnone⟩ := (covers_self hk).mp hc
    exact ⟨rfl, hhome, hdesc, hk, hnone, h1, h2, h3⟩
  · rintro ⟨rfl, hhome, hdesc, hk, hnone, h1, h2, h3⟩
    exact ⟨k, ⟨hk, ⟨⟨(covers_self hk).mpr ⟨hhome, hdesc, hnone⟩, h1⟩, h2⟩, h3⟩, rfl, rfl⟩

/-! ## The frame of a performed store (R195) -/

theorem setGroup_uids (s : State) (g : Group) : (s.setGroup g).work.groups.map Group.uid = s.work.groups.map Group.uid := by
  rw [State.setGroup, List.map_map]
  refine List.map_congr_left fun y _ => ?_
  rw [Function.comp_apply]
  split
  · next h => exact (by simpa using h : y.uid = g.uid).symm
  · rfl

theorem mem_setGroup_groups {s : State} {g y : Group} (h : y ∈ (s.setGroup g).work.groups) : y.uid ≠ g.uid ∧ y ∈ s.work.groups ∨ y = g := by
  rw [State.setGroup] at h
  obtain ⟨x, hx, rfl⟩ := List.mem_map.mp h
  split
  · exact Or.inr rfl
  · next hne => exact Or.inl ⟨by simpa using hne, hx⟩

theorem mem_setGroup_of_ne {s : State} {g y : Group} (h : y ∈ s.work.groups) (hne : y.uid ≠ g.uid) : y ∈ (s.setGroup g).work.groups := by
  rw [State.setGroup]
  refine List.mem_map.mpr ⟨y, h, if_neg ?_⟩
  simpa using hne

theorem group?_of_mem {s : State} (hnd : (s.work.groups.map Group.uid).Nodup) {y : Group} (h : y ∈ s.work.groups) : s.group? y.uid = some y := by
  cases hf : s.group? y.uid with
  | none => exact absurd (List.find?_eq_none.mp hf y h) (by simp)
  | some z => rw [List.inj_on_of_nodup_map hnd (List.mem_of_find?_eq_some hf) h (group?_uid hf)]

/-- A group that has not ended stays, where the numbers are distinct. -/
theorem mem_settle_of_running {s : State} (hnd : (s.work.groups.map Group.uid).Nodup) {y : Group} (h : y ∈ s.work.groups) (he : groupEnded y = false) :
    y ∈ (settle s).work.groups :=
  List.mem_of_find?_eq_some (settle_group? hnd (group?_of_mem hnd h) he)

theorem group?_congr {s u : State} (h : u.work.groups = s.work.groups) (uid : Nat) : u.group? uid = s.group? uid := by
  rw [State.group?, State.group?, h]

/-- The state after a performed write, whose ST counter falls as far as the issues are performed. -/
theorem settleStores_performed {s u : State} {uid : Nat} {left : Group} (hg : ∃ y, s.group? uid = some y) (hu : left.uid = uid)
    (hgroups : u.work.groups = (s.setGroup left).work.groups) : settleStores u uid = u.setGroup { left with stQueue := settleQueue u left left.stQueue } := by
  obtain ⟨y, hy⟩ := hg
  have hleft : u.group? uid = some left := (group?_congr hgroups uid).trans (group?_setGroup hy hu)
  rw [settleStores, hleft]

theorem settled_storeFrame {s u : State} {uid : Nat} {left : Group} (hnd : (s.work.groups.map Group.uid).Nodup) (hg : ∃ y, s.group? uid = some y)
    (hu : left.uid = uid) (hgroups : u.work.groups = (s.setGroup left).work.groups) : storeFrame s (settle (settleStores u uid)) uid left := by
  set g' : Group := { left with stQueue := settleQueue u left left.stQueue } with hg'
  have hset : settleStores u uid = u.setGroup g' := settleStores_performed hg hu hgroups
  have hu' : g'.uid = uid := hu
  have hndu : ((u.setGroup g').work.groups.map Group.uid).Nodup := by rw [setGroup_uids, hgroups, setGroup_uids]; exact hnd
  rw [hset]
  refine ⟨fun y hy hne => ?_, fun y hy hne he => ?_, fun z hz => ?_⟩
  · rcases mem_setGroup_groups (mem_settle_groups hy) with ⟨-, hm⟩ | rfl
    · rw [hgroups] at hm
      rcases mem_setGroup_groups hm with ⟨-, hm⟩ | rfl
      · exact hm
      · exact absurd hu hne
    · exact absurd hu' hne
  · refine mem_settle_of_running hndu (mem_setGroup_of_ne ?_ (hu' ▸ hne)) he
    rw [hgroups]
    exact mem_setGroup_of_ne hy (hu ▸ hne)
  · have hzu := group?_uid hz
    rcases mem_setGroup_groups (mem_settle_groups (List.mem_of_find?_eq_some hz)) with ⟨hne, -⟩ | rfl
    · exact absurd (hzu.trans hu'.symm) hne
    · rfl

/-- What the end of groups keeps beside the work: the Ponds and their descriptors. -/
theorem settle_pond (s : State) : (settle s).work.pond = s.work.pond ∧ (settle s).work.pondDesc = s.work.pondDesc := by
  have key : ∀ (l : List Group) (t : State), (l.foldl endGroup t).work.pond = t.work.pond ∧ (l.foldl endGroup t).work.pondDesc = t.work.pondDesc := by
    intro l
    induction l with
    | nil => exact fun _ => ⟨rfl, rfl⟩
    | cons g l ih =>
      intro t
      have hend : (endGroup t g).work.pond = t.work.pond ∧ (endGroup t g).work.pondDesc = t.work.pondDesc := by
        unfold endGroup
        dsimp only
        split
        · exact ⟨rfl, rfl⟩
        · exact ⟨rfl, rfl⟩
      exact ⟨(ih _).1.trans hend.1, (ih _).2.trans hend.2⟩
  exact key _ s

/-! ## Room in the logs (R332) -/

/-- A write that a commit performs is accepted where its log has room. -/
theorem acceptWrite_room {s : State} {d : Deferred} (h : logRoom s d.die none = true) : ∃ u, acceptWrite s d = some u
    ∧ u = { s with deferred := s.deferred ++ [d], records := u.records, domain := { s.domain with want := u.domain.want } } := by
  refine ⟨_, if_neg (by rw [h]; exact Bool.false_ne_true), ?_⟩
  exact noteOccupancy_frame _ _

/-- The room in a log does not depend on what the deferred writes hold. -/
theorem logRoom_replaced {s t : State} (f : Deferred → Deferred) (hf : ∀ d, (f d).die = d.die) (hd : t.deferred = s.deferred.map f)
    (hrest : t = { s with hbm := t.hbm, work := t.work, deferred := t.deferred }) (hg : t.work.groups = s.work.groups) (die : Nat) :
    logRoom t die none = logRoom s die none := by
  have hused : logUsed t die = logUsed s die := by
    have hcount : ∀ l : List Deferred, ((l.map f).filter fun d => d.die == die).length = (l.filter fun d => d.die == die).length := fun l => by
      rw [List.filter_map, List.length_map]
      simp only [Function.comp_def, hf]
    rw [logUsed, logUsed, hd, hcount, hrest]
  have hun : unperformed t = unperformed s := by rw [unperformed, unperformed, hg]
  rw [logRoom, logRoom, roomBeside, roomBeside, hused, hun, hrest]
  rfl

theorem datedWork_frame (s : State) (pa n : Nat) : (datedWork s pa n).groups = s.work.groups ∧ (datedWork s pa n).pond = s.work.pond := by
  unfold datedWork
  split
  · exact ⟨rfl, rfl⟩
  · exact ⟨rfl, rfl⟩

theorem logRoom_newWrite (s : State) (pa : Nat) (data : List Byte) (die : Nat) : logRoom (newWrite s pa data) die none = logRoom s die none :=
  logRoom_replaced (fun d => d.replaced s.domain.rin (0, pa) data.length) (fun _ => rfl) rfl rfl (datedWork_frame s pa data.length).1 die

/-! ## A write at a place -/

section
variable {s : State} {g : Group} {p : Place} {data : List Byte}

/-- A write at a place has been performed: its bytes and deferred writes, and the groups as they were. -/
def WritePerformed (s : State) (g : Group) (p : Place) (data : List Byte) : Prop :=
  ∃ u, writePlace s (agentOf g) p data = some u ∧ u.work.groups = s.work.groups ∧ DataPerformed s u g p data

theorem bytesWritten_write {m : Memory} (h : m.wf = true) (a : Nat) (l : List Byte) : bytesWritten (m.write a l) m a l := byte_write h a l

theorem writePerformed_hbm (hm : s.memoryWf = true) {pa : Nat} (hp : p.target = .hbm pa) (hroom : roomToWrite s g p (linesOf pa data.length)) :
    WritePerformed s g p data := by
  have hclauses : ∀ u : State, bytesWritten u.hbm s.hbm pa data → u.host = s.host → u.peer = s.peer → u.work.pond = s.work.pond →
      u.deferred = (if p.immed = false ∧ inWindow s pa = false ∧ p.irrev = true
        then (s.deferred.map fun d => d.replaced s.domain.rin (0, pa) data.length) ++ [deferredWrite s (agentOf g) (.hbm pa) data false true false]
        else s.deferred.map fun d => d.replaced s.domain.rin (0, pa) data.length) → DataPerformed s u g p data := by
    intro u h1 h2 h3 h4 h5
    rw [DataPerformed, hp]
    refine ⟨fun a ha => ?_, fun _ _ ha => Target.noConfusion ha, fun _ ha => Target.noConfusion ha, fun _ ha => ?_, fun _ ha => Target.noConfusion ha⟩
    · cases ha
      exact ⟨h1, h2, h3, h4, h5⟩
    · cases ha
  have hwrite := bytesWritten_write (memoryWf_hbm hm) pa data
  simp only [roomToWrite, hp] at hroom
  by_cases himm : p.immed = true ∨ inWindow s pa = true
  · refine ⟨immediateWrite s (agentOf g) (.hbm pa) data, ?_, (datedWork_frame s pa data.length).1, hclauses _ hwrite rfl rfl (datedWork_frame s pa data.length).2 ?_⟩
    · rw [writePlace, hp]
      exact if_pos (by simpa using himm)
    · refine Eq.trans ?_ (if_neg ?_).symm
      · rfl
      · rintro ⟨h1, h2, -⟩
        rcases himm with h | h
        · rw [h1] at h
          cases h
        · rw [h2] at h
          cases h
  · obtain ⟨v, hv, hlog⟩ := (or_assoc.mpr hroom).resolve_left himm
    have hframe := captureLines_frame hv
    have htracked : trackedWrite s pa data = some (newWrite v pa data) := by rw [trackedWrite, hv]; rfl
    have hnew : newWrite v pa data = { v with
        hbm := s.hbm.write pa data, work := datedWork s pa data.length
        deferred := s.deferred.map fun d => d.replaced s.domain.rin (0, pa) data.length } := by
      rw [newWrite_eq, hframe]
      rfl
    have hshape : writePlace s (agentOf g) p data = if p.irrev then (trackedWrite s pa data).bind fun s => acceptDeferred s (agentOf g) p.target data true false
        else trackedWrite s pa data := by
      rw [writePlace, hp]
      exact if_neg (by simpa using himm)
    have hno : p.immed = false ∧ inWindow s pa = false := by simpa using himm
    by_cases hirr : p.irrev = true
    · have hroom2 : logRoom (newWrite v pa data) (dieOf g.core) none = true := (logRoom_newWrite v pa data _).trans (hlog hirr)
      obtain ⟨u, hu, huf⟩ := acceptWrite_room (d := deferredWrite (newWrite v pa data) (agentOf g) p.target data false true false) hroom2
      refine ⟨u, ?_, ?_, ?_⟩
      · rw [hshape, if_pos hirr, htracked]
        exact hu
      · rw [huf, hnew]
        exact (datedWork_frame s pa data.length).1
      · rw [huf, hnew]
        refine hclauses _ hwrite ?_ ?_ (datedWork_frame s pa data.length).2 ?_
        · rw [hframe]
        · rw [hframe]
        · rw [if_pos ⟨hno.1, hno.2, hirr⟩, hp, hframe]
          rfl
    · refine ⟨newWrite v pa data, ?_, ?_, ?_⟩
      · rw [hshape, if_neg hirr, htracked]
      · rw [hnew]
        exact (datedWork_frame s pa data.length).1
      · rw [hnew]
        refine hclauses _ hwrite ?_ ?_ (datedWork_frame s pa data.length).2 ?_
        · rw [hframe]
        · rw [hframe]
        · rw [if_neg fun hc => hirr hc.2.2]

theorem writePerformed_pond (hm : s.memoryWf = true) {core off : Nat} (hp : p.target = .pond core off) (hroom : roomToWrite s g p (linesOf (core * 2 ^ 20 + off) data.length)) :
    WritePerformed s g p data := by
  have hclauses : ∀ u : State, bytesWritten u.work.pond s.work.pond (core * 2 ^ 20 + off) data → u.hbm = s.hbm → u.host = s.host → u.peer = s.peer →
      (p.immed = false → u.deferred = if p.irrev then s.deferred ++ [deferredWrite s (agentOf g) (.pond core off) data false true false] else s.deferred) →
      DataPerformed s u g p data := by
    intro u h1 h2 h3 h4 h5
    rw [DataPerformed, hp]
    refine ⟨fun _ ha => Target.noConfusion ha, fun c o ha => ?_, fun _ ha => Target.noConfusion ha, fun _ ha => ?_, fun _ ha => Target.noConfusion ha⟩
    · cases ha
      exact ⟨h1, h2, h3, h4, h5⟩
    · cases ha
  have hwrite := bytesWritten_write (memoryWf_pond hm) (core * 2 ^ 20 + off) data
  simp only [roomToWrite, hp] at hroom
  by_cases himm : p.immed = true
  · refine ⟨immediateWrite s (agentOf g) (.pond core off) data, ?_, rfl, hclauses _ hwrite rfl rfl rfl fun h => ?_⟩
    · rw [writePlace, hp]
      exact if_pos himm
    · rw [himm] at h
      cases h
  · have hshape : writePlace s (agentOf g) p data = if p.irrev then acceptDeferred (performOutside s p.target data) (agentOf g) p.target data true false
        else some (performOutside s p.target data) := by
      rw [writePlace, hp]
      exact if_neg himm
    by_cases hirr : p.irrev = true
    · have hroom2 : logRoom (performOutside s (.pond core off) data) (dieOf g.core) none = true := hroom.resolve_left himm hirr
      obtain ⟨u, hu, huf⟩ := acceptWrite_room (d := deferredWrite (performOutside s (.pond core off) data) (agentOf g) (.pond core off) data false true false) hroom2
      refine ⟨u, ?_, ?_, ?_⟩
      · rw [hshape, if_pos hirr, hp]
        exact hu
      · rw [huf]
        rfl
      · rw [huf]
        exact hclauses _ hwrite rfl rfl rfl fun _ => (if_pos hirr).symm
    · refine ⟨performOutside s p.target data, ?_, ?_, ?_⟩
      · rw [hshape, if_neg hirr]
      · rw [hp]
        rfl
      · rw [hp]
        exact hclauses _ hwrite rfl rfl rfl fun _ => (if_neg hirr).symm

theorem writePerformed_host (hm : s.memoryWf = true) {pa : Nat} (hp : p.target = .host pa) (hroom : roomToWrite s g p (linesOf pa data.length)) :
    WritePerformed s g p data := by
  have hclauses : ∀ u : State, u.hbm = s.hbm → u.peer = s.peer → u.work.pond = s.work.pond →
      (if p.immed then bytesWritten u.host s.host pa data ∧ u.deferred = s.deferred.map fun d => d.replaced s.domain.rin (1, pa) data.length
        else u.host = s.host ∧ u.deferred = s.deferred ++ [deferredWrite s (agentOf g) (.host pa) data false false false]) → DataPerformed s u g p data := by
    intro u h1 h2 h3 h4
    rw [DataPerformed, hp]
    refine ⟨fun _ ha => Target.noConfusion ha, fun _ _ ha => Target.noConfusion ha, fun a ha => ?_, fun _ ha => ?_, fun _ ha => Target.noConfusion ha⟩
    · cases ha
      exact ⟨h1, h2, h3, h4⟩
    · cases ha
  simp only [roomToWrite, hp] at hroom
  by_cases himm : p.immed = true
  · refine ⟨immediateWrite s (agentOf g) (.host pa) data, ?_, rfl, hclauses _ rfl rfl rfl ?_⟩
    · rw [writePlace, hp]
      exact if_pos himm
    · rw [if_pos himm]
      exact ⟨bytesWritten_write (memoryWf_host hm) pa data, rfl⟩
  · obtain ⟨u, hu, huf⟩ := acceptWrite_room (d := deferredWrite s (agentOf g) (.host pa) data false false false) (hroom.resolve_left himm)
    refine ⟨u, ?_, ?_, ?_⟩
    · rw [writePlace, hp]
      refine (if_neg himm).trans ?_
      split
      · exact hu
      · exact hu
    · rw [huf]
    · rw [huf]
      refine hclauses _ rfl rfl rfl ?_
      rw [if_neg himm]
      exact ⟨rfl, rfl⟩

theorem writePerformed_mmio {off : Nat} (hp : p.target = .mmio off) (hroom : roomToWrite s g p (linesOf off data.length)) :
    WritePerformed s g p data := by
  simp only [roomToWrite, hp] at hroom
  obtain ⟨himm, hlog⟩ := hroom
  have himm' : ¬ p.immed = true := by rw [himm]; exact Bool.false_ne_true
  obtain ⟨u, hu, huf⟩ := acceptWrite_room (d := deferredWrite s (agentOf g) (.mmio off) data false false false) hlog
  refine ⟨u, ?_, ?_, ?_⟩
  · rw [writePlace, hp]
    refine (if_neg himm').trans ?_
    split
    · exact hu
    · exact hu
  · rw [huf]
  · rw [huf, DataPerformed, hp]
    refine ⟨fun _ ha => Target.noConfusion ha, fun _ _ ha => Target.noConfusion ha, fun _ ha => Target.noConfusion ha, fun _ ha => ?_, fun o ha => ?_⟩
    · cases ha
    · cases ha
      exact ⟨rfl, rfl, rfl, rfl, rfl, rfl⟩

end

end Sys2Proof.Machine
end

section
/-! PROOFS. Performed stores and tile elements: other devices, and the instructions (R195, R200, R271, R333). -/
namespace Sys2Proof.Machine
open Sys2Proof.Laws

/-! ## The memory of another device -/

section
variable {s : State} {g : Group} {p : Place} {data : List Byte} {dev : Nat} {t : Target}

/-- A target in the memory of another device is one of two. -/
theorem deviceOf_cases (h : deviceOf t = some dev) : ∃ pa, t = .peer dev pa ∨ ∃ k, t = .leased dev k pa := by
  cases t with
  | peer d pa =>
    cases h
    exact ⟨pa, Or.inl rfl⟩
  | leased d k pa =>
    cases h
    exact ⟨pa, Or.inr ⟨k, rfl⟩⟩
  | hbm | host | mmio | pond | fitted => cases h

theorem writePlace_device (h : deviceOf p.target = some dev) (ag : Agent) : writePlace s ag p data
    = if p.immed = true then some (immediateWrite s ag p.target data)
      else if p.irrev = true ∨ inDomain s dev = false then acceptDeferred s ag p.target data false false
      else some (peerWrite (replaceDeferred s p.target data.length) (spaceOf p.target).2 data) := by
  have hjoin : ∀ {α : Type} (b c : Bool) (x y : α), (if b then x else if c then y else x) = if b = true ∨ c = false then x else y := by
    intro α b c x y
    cases b with
    | true => rfl
    | false => cases c with
      | true => rfl
      | false => rfl
  rw [← hjoin, writePlace]
  obtain ⟨pa, hp | ⟨k, hp⟩⟩ := deviceOf_cases h
  · rw [hp] <;> rfl
  · rw [hp] <;> rfl

theorem performOutside_device (h : deviceOf t = some dev) : performOutside s t data = { s with peer := s.peer.write (spaceOf t).2 data } := by
  obtain ⟨pa, rfl | ⟨k, rfl⟩⟩ := deviceOf_cases h
  · rfl
  · rfl

theorem roomToWrite_device {lines : List Nat} (h : deviceOf p.target = some dev) : roomToWrite s g p lines
    ↔ p.immed = true ∨ ((p.irrev = true ∨ inDomain s dev = false) → logRoom s (dieOf g.core) none = true) := by
  rw [roomToWrite]
  obtain ⟨pa, hp | ⟨k, hp⟩⟩ := deviceOf_cases h
  · rw [hp]
  · rw [hp]

/-- The tags of a peer's lines lie beyond its bytes. -/
theorem tagPeer_frame (s : State) (key n : Nat) : tagPeer s key n = { s with undo := (tagPeer s key n).undo, peer := (tagPeer s key n).peer }
    ∧ ∀ a < 2 ^ 60, (tagPeer s key n).peer.byte a = s.peer.byte a := by
  have hcapture : ∀ (l : List Nat) (u : State), l.foldl (fun s line =>
      if s.undo.any fun u => u.die == Config.dies && u.pa == line && u.rin == s.domain.rin then s
      else { s with undo := s.undo ++ [peerUndo s line] }) u = { u with undo := (l.foldl (fun s line =>
      if s.undo.any fun u => u.die == Config.dies && u.pa == line && u.rin == s.domain.rin then s
      else { s with undo := s.undo ++ [peerUndo s line] }) u).undo } := by
    intro l
    induction l with
    | nil => exact fun _ => rfl
    | cons x l ih =>
      intro u
      rw [List.foldl_cons, ih]
      split
      · rfl
      · rfl
  have htag : ∀ (l : List Nat) (u : State),
      let v := l.foldl (fun s line => { s with peer := s.peer.writeNat (peerSideKey line + 4) 2 s.domain.rin.toNat }) u
      v = { u with peer := v.peer } ∧ ∀ a < 2 ^ 60, v.peer.byte a = u.peer.byte a := by
    intro l
    induction l with
    | nil => exact fun _ => ⟨rfl, fun _ _ => rfl⟩
    | cons x l ih =>
      intro u
      obtain ⟨h1, h2⟩ := ih { u with peer := u.peer.writeNat (peerSideKey x + 4) 2 u.domain.rin.toNat }
      refine ⟨h1, fun a ha => (h2 a ha).trans ?_⟩
      refine Memory.byte_write_other _ _ _ (Or.inl ?_)
      rw [peerSideKey]
      omega
  obtain ⟨h1, h2⟩ := htag (linesOf key n) (capturePeer s key n)
  have h3 : capturePeer s key n = { s with undo := (capturePeer s key n).undo } := hcapture (linesOf key n) s
  have h4 : tagPeer s key n = { capturePeer s key n with peer := (tagPeer s key n).peer } := h1
  refine ⟨?_, fun a ha => ?_⟩
  · rw [h4, h3]
  · refine (h2 a ha).trans ?_
    rw [h3]

theorem writePerformed_device (hm : s.memoryWf = true) (h : deviceOf p.target = some dev) (hroom : roomToWrite s g p (linesOf (spaceOf p.target).2 data.length)) :
    WritePerformed s g p data := by
  have hclauses : ∀ u : State, u.hbm = s.hbm → u.host = s.host → u.work.pond = s.work.pond →
      (if p.immed then bytesWritten u.peer s.peer (spaceOf p.target).2 data ∧ u.deferred = s.deferred.map fun d => d.replaced s.domain.rin (spaceOf p.target) data.length
        else if p.irrev ∨ inDomain s dev = false then u.peer = s.peer ∧ u.deferred = s.deferred ++ [deferredWrite s (agentOf g) p.target data false false false]
        else u.deferred = (s.deferred.map fun d => d.replaced s.domain.rin (spaceOf p.target) data.length)
          ∧ ∀ a < 2 ^ 60, u.peer.byte a = if (spaceOf p.target).2 ≤ a ∧ a < (spaceOf p.target).2 + data.length
            then data.getD (a - (spaceOf p.target).2) 0 else s.peer.byte a) → DataPerformed s u g p data := by
    intro u h1 h2 h3 h4
    rw [DataPerformed]
    refine ⟨fun _ ha => ?_, fun _ _ ha => ?_, fun _ ha => ?_, fun d ha => ?_, fun _ ha => ?_⟩
    · rw [ha] at h
      cases h
    · rw [ha] at h
      cases h
    · rw [ha] at h
      cases h
    · obtain rfl : dev = d := Option.some.inj (h.symm.trans ha)
      exact ⟨h1, h2, h3, h4⟩
    · rw [ha] at h
      cases h
  rw [roomToWrite_device h] at hroom
  have hshape := writePlace_device (s := s) (data := data) h (agentOf g)
  by_cases himm : p.immed = true
  · rw [if_pos himm, immediateWrite, performOutside_device h] at hshape
    refine ⟨_, hshape, rfl, hclauses _ rfl rfl rfl ?_⟩
    rw [if_pos himm]
    exact ⟨bytesWritten_write (memoryWf_peer hm) _ data, rfl⟩
  · rw [if_neg himm] at hshape
    by_cases hdef : p.irrev = true ∨ inDomain s dev = false
    · rw [if_pos hdef] at hshape
      obtain ⟨u, hu, huf⟩ := acceptWrite_room (d := deferredWrite s (agentOf g) p.target data false false false) (hroom.resolve_left himm hdef)
      refine ⟨u, hshape.trans hu, ?_, ?_⟩
      · rw [huf]
      · rw [huf]
        refine hclauses _ rfl rfl rfl ?_
        rw [if_neg himm, if_pos hdef]
        exact ⟨rfl, rfl⟩
    · rw [if_neg hdef] at hshape
      obtain ⟨hframe, hbytes⟩ := tagPeer_frame (replaceDeferred s p.target data.length) (spaceOf p.target).2 data.length
      have hrep : (replaceDeferred s p.target data.length).memoryWf = true := (setDeferred_memoryWf s _).trans hm
      have htagwf := tagPeer_memoryWf hrep (spaceOf p.target).2 data.length
      refine ⟨_, hshape, ?_, hclauses _ ?_ ?_ ?_ ?_⟩
      · rw [peerWrite, hframe]
        rfl
      · rw [peerWrite, hframe]
        rfl
      · rw [peerWrite, hframe]
        rfl
      · rw [peerWrite, hframe]
        rfl
      · rw [if_neg himm, if_neg hdef]
        refine ⟨?_, fun a ha => ?_⟩
        · rw [peerWrite, hframe]
          rfl
        · refine (byte_write (memoryWf_peer htagwf) _ data a).trans ?_
          rw [hbytes a ha]
          rfl

end

/-! ## The performed write -/

theorem writePerformed {s : State} {g : Group} {p : Place} {data : List Byte} (hm : s.memoryWf = true)
    (hroom : roomToWrite s g p (linesOf (spaceOf p.target).2 data.length)) : WritePerformed s g p data := by
  cases hp : p.target with
  | hbm pa => exact writePerformed_hbm hm hp (by rwa [hp] at hroom)
  | pond core off => exact writePerformed_pond hm hp (by rwa [hp] at hroom)
  | host pa => exact writePerformed_host hm hp (by rwa [hp] at hroom)
  | mmio off => exact writePerformed_mmio hp (by rwa [hp] at hroom)
  | peer dev pa => exact writePerformed_device hm (by rw [hp]; rfl) hroom
  | leased dev k pa => exact writePerformed_device hm (by rw [hp]; rfl) hroom
  | fitted hdr =>
    rw [roomToWrite, hp] at hroom
    exact hroom.elim

/-- The end of groups and of counts after a performed write changes none of what it wrote. -/
theorem dataPerformed_settled {s u : State} {g : Group} {p : Place} {data : List Byte} (h : DataPerformed s u g p data) (uid : Nat) :
    DataPerformed s (settle (settleStores u uid)) g p data := by
  have hstores : settleStores u uid = { u with work := { u.work with groups := (settleStores u uid).work.groups } } := by
    unfold settleStores
    split
    · rfl
    · rfl
  obtain ⟨hpond, -⟩ := settle_pond (settleStores u uid)
  rw [DataPerformed] at h ⊢
  rw [hpond, settle_frame, hstores]
  exact h

section
variable {s : State} {uid n : Nat} {g left : Group} {b : Buffered}

/-- The event of a store that may be performed writes it on the state without it in its buffer. -/
theorem exec_storePerformed_store (h : StoreRuns s uid n g b left) {u : State}
    (hw : (if b.size = 5 then writeDesc (s.setGroup left) (agentOf g) b.place (BitVec.ofNat 32 (ofLe b.data))
      else writePlace (s.setGroup left) (agentOf g) b.place b.data) = some u) :
    exec (.storePerformed uid n) s = .next (settle (settleStores u uid)) := by
  obtain ⟨-, -, hg, hrun, hb, hmay, hleft⟩ := h
  have hu : g.uid = uid := group?_uid hg
  have hstore : performStore s g n b = some (settleStores u uid) := by
    rw [performStore, hmay, Bool.not_true, if_neg Bool.false_ne_true]
    dsimp only [dropAt]
    rw [← hleft, hw, hu]
    rfl
  have hperf : performWrite s g n = some (settleStores u uid) := by
    rw [performWrite, hb]
    exact hstore
  show execStorePerformed uid n s = _
  rw [execStorePerformed, hg]
  simp only [Option.bind_some, hrun, if_true, hperf]

theorem StoreRuns.left_uid (h : StoreRuns s uid n g b left) : left.uid = uid := by
  obtain ⟨-, -, hg, -, -, -, hleft⟩ := h
  have hu : g.uid = uid := group?_uid hg
  rw [hleft]
  exact hu

theorem performedStoreBytes : Claim.PerformedStoreBytes := by
  intro s uid n g left b h hsize
  have hrun := h
  obtain ⟨hm, hnd, hg, -⟩ := h
  have hu := hrun.left_uid
  refine ⟨fun hroom => ?_, fun off hoff himm => ?_⟩
  · obtain ⟨u, hw, hgroups, hdata⟩ := writePerformed (s := s.setGroup left) (g := g) (data := b.data) hm hroom
    exact ⟨_, exec_storePerformed_store hrun ((if_neg hsize).trans hw), settled_storeFrame hnd ⟨g, hg⟩ hu hgroups, dataPerformed_settled hdata uid⟩
  · refine exec_storePerformed_store hrun ((if_neg hsize).trans ?_)
    rw [writePlace, hoff]
    exact if_pos himm

end

/-! ## The elements of TSTR and AST -/

theorem mergedBytes_length (mask : Byte) (old new : List Byte) : (mergedBytes mask old new).length = new.length := by
  rw [mergedBytes, List.length_map, List.length_zipIdx]

theorem mergedBytes_bit (mask : Byte) (old new : List Byte) {k : Nat} (hk : k < new.length) {b : Nat} (hb : b < 8) :
    ((mergedBytes mask old new).getD k 0).getLsbD b = if mask.getLsbD b then (new.getD k 0).getLsbD b else (old.getD k 0).getLsbD b := by
  have hlen : k < (mergedBytes mask old new).length := by rw [mergedBytes_length]; exact hk
  rw [List.getD_eq_getElem _ _ hlen, List.getD_eq_getElem _ _ hk]
  simp only [mergedBytes, List.getElem_map, List.getElem_zipIdx, Nat.zero_add, BitVec.getLsbD_or, BitVec.getLsbD_and, BitVec.getLsbD_not, hb, decide_true,
    Bool.true_and]
  cases mask.getLsbD b with
  | true => simp
  | false => simp

theorem performedElementsMergeTheirBits : Claim.PerformedElementsMergeTheirBits := by
  intro s uid n g left w h hroom old
  obtain ⟨hm, hnd, hg, hrun, ht, hclash, hstores, hleft⟩ := h
  have hu : g.uid = uid := group?_uid hg
  have hlu : left.uid = uid := by rw [hleft]; exact hu
  set data := mergedBytes w.mask old w.data with hdata
  have hlen : data.length = w.data.length := mergedBytes_length ..
  rw [← hlen] at hroom
  obtain ⟨u, hw, hgroups, hperf⟩ := writePerformed (s := s.setGroup left) (g := g) (data := data) hm hroom
  have hfree : ((g.tiles.take n).any (fun a => tilesClash a w) || (g.stores.any fun b => decide (b.issue < w.issue) && tileClash b w)) = false := by
    rw [Bool.or_eq_false_iff, List.any_eq_false, List.any_eq_false]
    refine ⟨fun a ha => by rw [hclash a ha]; exact Bool.false_ne_true, fun b hb hc => ?_⟩
    rw [Bool.and_eq_true, decide_eq_true_eq] at hc
    have := hstores b hb hc.1
    rw [hc.2] at this
    cases this
  have hpw : performWrite s g (g.stores.length + n) = some (settleStores u uid) := by
    rw [performWrite, List.getElem?_eq_none (Nat.le_add_right _ _)]
    dsimp only
    rw [Nat.add_sub_cancel_left, ht]
    dsimp only
    rw [performTile, hfree, if_neg Bool.false_ne_true]
    dsimp only [dropAt]
    rw [← hleft, hw, hu]
    rfl
  refine ⟨settle (settleStores u uid), data, ?_, settled_storeFrame hnd ⟨g, hg⟩ hlu hgroups, dataPerformed_settled hperf uid, hlen,
    fun k hk b hb => mergedBytes_bit _ _ _ hk hb⟩
  show execStorePerformed uid (g.stores.length + n) s = _
  rw [execStorePerformed, hg]
  simp only [Option.bind_some, hrun, if_true, hpw]

end Sys2Proof.Machine
end

section
/-! PROOFS. Performed descriptors, and the stores of regions at their Spring units (R91, R189, R223, R231). -/
namespace Sys2Proof.Machine
open Sys2Proof.Laws

/-! ## The descriptor of a line -/

/-- Two states whose lines have the same interval tags, and that agree in all that the room of a log depends on. -/
theorem logRoom_retagged {s t : State} (hrest : t = { s with side := t.side }) (htag : ∀ a, rintag (sideGet t a) = rintag (sideGet s a)) (die : Nat) :
    logRoom t die none = logRoom s die none := by
  have hused : logUsed t die = logUsed s die := by rw [hrest]; rfl
  have hun : unperformed t = unperformed s := by rw [hrest]; rfl
  have hsize : logSize t = logSize s := by rw [hrest]; rfl
  have hdefers : defers t = defers s := by rw [hrest]; rfl
  have hcapture : toCapture t = toCapture s := by
    funext die p n
    unfold toCapture
    have hwin : inWindow t = inWindow s := by rw [hrest]; rfl
    have hrin : t.domain.rin = s.domain.rin := by rw [hrest]
    simp only [hwin, hrin, htag]
  have hent : ∀ l, entriesOf t die l none = entriesOf s die l none := fun l => by rw [entriesOf, entriesOf, hdefers, hcapture]
  rw [logRoom, logRoom, roomBeside, roomBeside, hused, hun, hsize, hent]

/-- A sideband is its interval tag beside its descriptor. -/
theorem rintag_append_descOf (x : BitVec 48) : rintag x ++ descOf x = x := by
  apply BitVec.eq_of_toNat_eq
  have hx := x.isLt
  have hd := (descOf x).isLt
  rw [BitVec.toNat_append, ← Nat.shiftLeft_add_eq_or_of_lt hd, Nat.shiftLeft_eq, rintag, descOf, BitVec.toNat_ofNat, BitVec.toNat_ofNat]
  omega

section
variable {s : State} {g : Group} {p : Place}

theorem sideGet_sidePut (hwf : swf (sideDefault s) s.side = true) (pa : Nat) (x : BitVec 48) (a : Nat) :
    sideGet (sidePut s pa x) a = if a / 64 = pa / 64 then x else sideGet s a := sget_sput _ _ _ hwf

theorem sideGet_putDesc (hwf : swf (sideDefault s) s.side = true) (pa : Nat) (x : Word) (a : Nat) :
    sideGet (putDesc s pa x) a = if a / 64 = pa / 64 then rintag (sideGet s pa) ++ descStored x else sideGet s a := sideGet_sidePut hwf _ _ _

theorem sideGet_sameLine {pa a : Nat} (h : a / 64 = pa / 64) : sideGet s a = sideGet s pa := by rw [sideGet, sideGet, h]

theorem logRoom_putDesc (hwf : swf (sideDefault s) s.side = true) (pa : Nat) (x : Word) (die : Nat) :
    logRoom (putDesc s pa x) die none = logRoom s die none := by
  refine logRoom_retagged rfl (fun a => ?_) die
  rw [sideGet_putDesc hwf]
  split
  · next h => rw [rintag_append, sideGet_sameLine h]
  · rfl

/-- A captured line has the present interval, and its descriptor as before. -/
theorem sideGet_captureLine {v : State} (hwf : swf (sideDefault s) s.side = true) {pa : Nat} (hpa : pa % 64 = 0) (hwin : inWindow s pa = false)
    (h : captureLine s pa = some v) : swf (sideDefault v) v.side = true
      ∧ ∀ a, sideGet v a = if a / 64 = pa / 64 then s.domain.rin ++ descOf (sideGet s pa) else sideGet s a := by
  have hline : pa / 64 * 64 = pa := by omega
  rw [captureLine, hline, hwin] at h
  simp only [Bool.false_or, beq_iff_eq] at h
  split at h
  · next htag =>
    obtain rfl := Option.some.inj h
    refine ⟨hwf, fun a => ?_⟩
    split
    · next ha =>
      rw [sideGet_sameLine ha, ← htag]
      exact (rintag_append_descOf _).symm
    · rfl
  · split at h
    · cases h
    · obtain rfl := Option.some.inj h
      rw [noteOccupancy_frame]
      exact ⟨swf_sput _ _ hwf, fun a => sideGet_sidePut hwf pa _ a⟩

/-- What the write of a line's descriptor leaves in HBM, once it has been performed. -/
theorem writeDesc_hbm (hwf : swf (sideDefault s) s.side = true) {pa : Nat} (hp : p.target = .hbm pa) (hpa : pa % 64 = 0) (hroom : roomToWrite s g p [pa]) (x : Word) :
    ∃ u, writeDesc s (agentOf g) p x = some u ∧ u.work = s.work ∧ u.hbm = s.hbm ∧ u.host = s.host ∧ u.peer = s.peer
      ∧ ∀ a, sideGet u a = if a / 64 = pa / 64
        then (if p.immed = true ∨ inWindow s pa = true then rintag (sideGet s pa) else s.domain.rin) ++ descStored x else sideGet s a := by
  simp only [roomToWrite, hp] at hroom
  by_cases himm : p.immed = true ∨ inWindow s pa = true
  · refine ⟨immediateDesc s (agentOf g) (.hbm pa) x, ?_, rfl, rfl, rfl, rfl, fun a => ?_⟩
    · rw [writeDesc, hp]
      exact if_pos (by simpa using himm)
    · rw [if_pos himm]
      exact sideGet_putDesc hwf pa x a
  · obtain ⟨v, hv, hlog⟩ := (or_assoc.mpr hroom).resolve_left himm
    obtain ⟨v', hv', hvv⟩ := captureLines_cons hv
    obtain rfl : v' = v := Option.some.inj hvv
    have hframe := captureLine_frame hv'
    obtain ⟨hwin, himm0⟩ : inWindow s pa = false ∧ p.immed = false := by
      rw [not_or, Bool.not_eq_true, Bool.not_eq_true] at himm
      exact ⟨himm.2, himm.1⟩
    obtain ⟨hwfv, hside⟩ := sideGet_captureLine hwf hpa hwin hv'
    have hfinal : ∀ a, sideGet (putDesc v' pa x) a = if a / 64 = pa / 64 then s.domain.rin ++ descStored x else sideGet s a := fun a => by
      rw [sideGet_putDesc hwfv, hside, hside, if_pos rfl, rintag_append]
      split
      · rfl
      · rfl
    have hshape : writeDesc s (agentOf g) p x = if p.irrev then acceptDesc (putDesc v' pa x) (agentOf g) p.target x true else some (putDesc v' pa x) := by
      rw [writeDesc, hp]
      refine (if_neg (by simpa using himm)).trans ?_
      rw [hv']
      rfl
    rw [if_neg himm]
    by_cases hirr : p.irrev = true
    · obtain ⟨u, hu, huf⟩ := acceptWrite_room (s := putDesc v' pa x) (d := deferredWrite (putDesc v' pa x) (agentOf g) p.target (leBytes 4 (descStored x).toNat) true true false)
        ((logRoom_putDesc hwfv pa x _).trans (hlog hirr))
      refine ⟨u, ?_, ?_, ?_, ?_, ?_, ?_⟩
      · rw [hshape, if_pos hirr]
        exact hu
      · rw [huf, hframe]
        rfl
      · rw [huf, hframe]
        rfl
      · rw [huf, hframe]
        rfl
      · rw [huf, hframe]
        rfl
      · rw [huf]
        exact hfinal
    · refine ⟨putDesc v' pa x, ?_, ?_, ?_, ?_, ?_, hfinal⟩
      · rw [hshape, if_neg hirr]
      · rw [hframe]
        rfl
      · rw [hframe]
        rfl
      · rw [hframe]
        rfl
      · rw [hframe]
        rfl

end

end Sys2Proof.Machine
end

section
/-! PROOFS. Performed descriptors outside HBM, and the event that performs a DST (R91, R189, R208, R333). -/
namespace Sys2Proof.Machine
open Sys2Proof.Laws

/-! ## The descriptor of a line outside HBM -/

section
variable {s : State} {g : Group} {p : Place}

theorem writeDesc_pond {core off : Nat} (hp : p.target = .pond core off) {lines : List Nat} (hroom : roomToWrite s g p lines) (x : Word) :
    ∃ u, writeDesc s (agentOf g) p x = some u ∧ u.work = { s.work with pondDesc := sput 0x7F00 s.work.pondDesc ((core * 2 ^ 20 + off) / 64) (descStored x) }
      ∧ u.hbm = s.hbm ∧ u.host = s.host ∧ u.peer = s.peer ∧ u.side = s.side
      ∧ (p.immed = false → u.deferred = if p.irrev
          then s.deferred ++ [deferredWrite s (agentOf g) (.pond core off) (leBytes 4 (descStored x).toNat) true true false] else s.deferred) := by
  simp only [roomToWrite, hp] at hroom
  by_cases himm : p.immed = true
  · refine ⟨immediateDesc s (agentOf g) (.pond core off) x, ?_, rfl, rfl, rfl, rfl, rfl, fun h => ?_⟩
    · rw [writeDesc, hp]
      exact if_pos himm
    · rw [himm] at h
      cases h
  · have hshape : writeDesc s (agentOf g) p x = if p.irrev then acceptDesc (descOutside s p.target x) (agentOf g) p.target x true
        else some (descOutside s p.target x) := by
      rw [writeDesc, hp]
      exact if_neg himm
    by_cases hirr : p.irrev = true
    · have hlog : logRoom (descOutside s (.pond core off) x) (dieOf g.core) none = true := hroom.resolve_left himm hirr
      obtain ⟨u, hu, huf⟩ := acceptWrite_room (s := descOutside s (.pond core off) x)
        (d := deferredWrite (descOutside s (.pond core off) x) (agentOf g) (.pond core off) (leBytes 4 (descStored x).toNat) true true false) hlog
      refine ⟨u, ?_, ?_, ?_, ?_, ?_, ?_, fun _ => ?_⟩
      · rw [hshape, if_pos hirr, hp]
        exact hu
      · rw [huf]
        rfl
      · rw [huf]
        rfl
      · rw [huf]
        rfl
      · rw [huf]
        rfl
      · rw [huf]
        rfl
      · rw [huf, if_pos hirr]
        rfl
    · refine ⟨descOutside s (.pond core off) x, ?_, rfl, rfl, rfl, rfl, rfl, fun _ => (if_neg hirr).symm⟩
      rw [hshape, if_neg hirr, hp]

theorem writeDesc_discarded {a : Nat} (hp : p.target = .host a ∨ p.target = .mmio a) (ag : Agent) (x : Word) : writeDesc s ag p x = some s := by
  rw [writeDesc]
  rcases hp with hp | hp
  · rw [hp] <;> rfl
  · rw [hp] <;> rfl

variable {dev : Nat}

theorem writeDesc_deviceShape (h : deviceOf p.target = some dev) (ag : Agent) (x : Word) : writeDesc s ag p x
    = if p.immed = true then some (immediateDesc s ag p.target x)
      else if p.irrev = false ∧ inDomain s dev = true then some (putPeerDesc (tagPeer (replaceDesc s p.target) (spaceOf p.target).2 1) (spaceOf p.target).2 x)
      else acceptDesc s ag p.target x false := by
  have hswap : ∀ {α : Type} (b c : Bool) (y z : α), (if b || !c then y else z) = if b = false ∧ c = true then z else y := by
    intro α b c y z
    cases b with
    | true => rfl
    | false => cases c with
      | true => rfl
      | false => rfl
  rw [← hswap, writeDesc]
  obtain ⟨pa, hp | ⟨k, hp⟩⟩ := deviceOf_cases h
  · rw [hp] <;> rfl
  · rw [hp] <;> rfl

theorem descOutside_device (h : deviceOf p.target = some dev) (x : Word) : descOutside s p.target x = putPeerDesc s (spaceOf p.target).2 x := by
  obtain ⟨pa, hp | ⟨k, hp⟩⟩ := deviceOf_cases h
  · rw [hp] <;> rfl
  · rw [hp] <;> rfl

/-- The descriptor beside a peer's line, which lies beyond the peers' bytes. -/
theorem putPeerDesc_peer (hm : s.peer.wf = true) (key : Nat) (x : Word) :
    (putPeerDesc s key x).peer.readNat (peerSideKey key) 4 = (descStored x ^^^ 0x7F00).toNat
    ∧ ∀ a < 2 ^ 60, (putPeerDesc s key x).peer.byte a = s.peer.byte a := by
  refine ⟨?_, fun a ha => Memory.byte_write_other _ _ _ (Or.inl ?_)⟩
  · refine (readNat_write_same hm _ _ _).trans (Nat.mod_eq_of_lt ?_)
    exact (descStored x ^^^ 0x7F00).isLt
  · rw [peerSideKey]
    omega

theorem writeDesc_device (hm : s.memoryWf = true) (h : deviceOf p.target = some dev) {lines : List Nat} (hroom : roomToWrite s g p lines) (x : Word) :
    ∃ u, writeDesc s (agentOf g) p x = some u ∧ u.work = s.work ∧ u.hbm = s.hbm ∧ u.host = s.host ∧ u.side = s.side ∧ u.baseTag = s.baseTag
      ∧ (if p.immed = true ∨ p.irrev = false ∧ inDomain s dev = true
          then u.peer.readNat (peerSideKey (spaceOf p.target).2) 4 = (descStored x ^^^ 0x7F00).toNat ∧ ∀ a < 2 ^ 60, u.peer.byte a = s.peer.byte a
          else u.peer = s.peer ∧ u.deferred = s.deferred ++ [deferredWrite s (agentOf g) p.target (leBytes 4 (descStored x).toNat) true false false]) := by
  rw [roomToWrite_device h] at hroom
  have hshape := writeDesc_deviceShape (s := s) h (agentOf g) x
  by_cases himm : p.immed = true
  · rw [if_pos himm, immediateDesc, descOutside_device h] at hshape
    refine ⟨_, hshape, rfl, rfl, rfl, rfl, rfl, ?_⟩
    rw [if_pos (Or.inl himm)]
    exact putPeerDesc_peer (s := replaceDesc s p.target) (memoryWf_peer hm) (spaceOf p.target).2 x
  · rw [if_neg himm] at hshape
    by_cases hin : p.irrev = false ∧ inDomain s dev = true
    · rw [if_pos hin] at hshape
      obtain ⟨hframe, hbytes⟩ := tagPeer_frame (replaceDesc s p.target) (spaceOf p.target).2 1
      have htagwf := tagPeer_memoryWf (s := replaceDesc s p.target) ((setDeferred_memoryWf s _).trans hm) (spaceOf p.target).2 1
      obtain ⟨hread, hput⟩ := putPeerDesc_peer (memoryWf_peer htagwf) (spaceOf p.target).2 x
      refine ⟨_, hshape, ?_, ?_, ?_, ?_, ?_, ?_⟩
      · rw [putPeerDesc, hframe]
        rfl
      · rw [putPeerDesc, hframe]
        rfl
      · rw [putPeerDesc, hframe]
        rfl
      · rw [putPeerDesc, hframe]
        rfl
      · rw [putPeerDesc, hframe]
        rfl
      · rw [if_pos (Or.inr hin)]
        exact ⟨hread, fun a ha => (hput a ha).trans (hbytes a ha)⟩
    · rw [if_neg hin] at hshape
      have hdef : p.irrev = true ∨ inDomain s dev = false := by
        rw [not_and_or, Bool.not_eq_false, Bool.not_eq_true] at hin
        exact hin
      obtain ⟨u, hu, huf⟩ := acceptWrite_room (d := deferredWrite s (agentOf g) p.target (leBytes 4 (descStored x).toNat) true false false) (hroom.resolve_left himm hdef)
      refine ⟨u, hshape.trans hu, ?_, ?_, ?_, ?_, ?_, ?_⟩
      · rw [huf]
      · rw [huf]
      · rw [huf]
      · rw [huf]
      · rw [huf]
      · rw [if_neg (not_or.mpr ⟨himm, hin⟩), huf]
        exact ⟨rfl, rfl⟩

end

/-! ## The event -/

/-- The end of groups and of counts changes nothing but the work, and no Pond. -/
theorem settled_frame (u : State) (uid : Nat) : ∃ w : Work, settle (settleStores u uid) = { u with work := w } ∧ w.pond = u.work.pond ∧ w.pondDesc = u.work.pondDesc := by
  have hstores : settleStores u uid = { u with work := { u.work with groups := (settleStores u uid).work.groups } } := by
    unfold settleStores
    split
    · rfl
    · rfl
  obtain ⟨hpond, hdesc⟩ := settle_pond (settleStores u uid)
  refine ⟨_, ?_, hpond.trans ?_, hdesc.trans ?_⟩
  · rw [settle_frame, hstores]
  · rw [hstores]
  · rw [hstores]

section
variable {s : State} {uid n : Nat} {g left : Group} {b : Buffered}

/-- A DST that may be performed writes its line's descriptor. -/
theorem exec_storePerformed_desc (h : StoreRuns s uid n g b left) (hsize : b.size = 5) {u : State}
    (hw : writeDesc (s.setGroup left) (agentOf g) b.place (BitVec.ofNat 32 (ofLe b.data)) = some u) (hgroups : u.work.groups = (s.setGroup left).work.groups) :
    ∃ w : Work, exec (.storePerformed uid n) s = .next { u with work := w } ∧ storeFrame s { u with work := w } uid left
      ∧ w.pond = u.work.pond ∧ w.pondDesc = u.work.pondDesc := by
  obtain ⟨w, ht, hpond, hdesc⟩ := settled_frame u uid
  have hrun := exec_storePerformed_store h ((if_pos hsize).trans hw)
  have hframe := settled_storeFrame h.2.1 ⟨g, h.2.2.1⟩ h.left_uid hgroups
  rw [ht] at hrun hframe
  exact ⟨w, hrun, hframe, hpond, hdesc⟩

theorem performedDescriptorsChangeTheirLine : Claim.PerformedDescriptorsChangeTheirLine := by
  intro s uid n g left b h hsize hwf x queued plain key
  have hm : (s.setGroup left).memoryWf = true := h.1
  refine ⟨fun pa hp hpa hroom => ?_, fun core off hp hroom => ?_, fun ⟨a, hp⟩ => ?_, fun dev hdev hroom => ?_⟩
  · obtain ⟨u, hu, hwork, hhbm, hhost, hpeer, hside⟩ := writeDesc_hbm (s := s.setGroup left) hwf hp hpa hroom (BitVec.ofNat 32 (ofLe b.data))
    obtain ⟨w, hrun, hframe, hpond, -⟩ := exec_storePerformed_desc h hsize hu (by rw [hwork])
    exact ⟨_, hrun, hframe, ⟨hhbm, hhost, hpond.trans (by rw [hwork]; rfl)⟩, hpeer, hside⟩
  · obtain ⟨u, hu, hwork, hhbm, hhost, hpeer, hside, hdef⟩ := writeDesc_pond (s := s.setGroup left) hp hroom (BitVec.ofNat 32 (ofLe b.data))
    obtain ⟨w, hrun, hframe, hpond, hdesc⟩ := exec_storePerformed_desc h hsize hu (by rw [hwork])
    refine ⟨_, hrun, hframe, ⟨hhbm, hhost, hpond.trans (by rw [hwork]; rfl)⟩, hpeer, hside, hdesc.trans (by rw [hwork]; rfl), fun himm => ?_⟩
    refine (hdef himm).trans ?_
    show _ = if b.place.irrev then s.deferred ++ [deferredWrite s (agentOf g) b.place.target (leBytes 4 x.toNat) true true false] else s.deferred
    rw [hp]
    rfl
  · obtain ⟨w, hrun, hframe, hpond, -⟩ := exec_storePerformed_desc h hsize (writeDesc_discarded (s := s.setGroup left) hp _ _) rfl
    exact ⟨_, hrun, hframe, ⟨rfl, rfl, hpond⟩, rfl, rfl, rfl, rfl⟩
  · obtain ⟨u, hu, hwork, hhbm, hhost, hside, -, hpeer⟩ := writeDesc_device hm hdev hroom (BitVec.ofNat 32 (ofLe b.data))
    obtain ⟨w, hrun, hframe, hpond, -⟩ := exec_storePerformed_desc h hsize hu (by rw [hwork])
    exact ⟨_, hrun, hframe, ⟨hhbm, hhost, hpond.trans (by rw [hwork]; rfl)⟩, hside, hpeer⟩

end

end Sys2Proof.Machine
end

section
/-! PROOFS. The stores of regions at their Spring units (R195, R223, R231). -/
namespace Sys2Proof.Machine
open Sys2Proof.Laws

/-! ## One element -/

section
variable {s : State} {hdr k v : Nat}

theorem storeElem_dense (h4 : (headerAt s.hbm hdr).state = 4) : storeElem s hdr (k, v)
    = trackedWrite s ((headerAt s.hbm hdr).dempa + k * (headerAt s.hbm hdr).esize) (leBytes (headerAt s.hbm hdr).esize v) := if_pos h4

theorem storeElem_live (h4 : (headerAt s.hbm hdr).state ≠ 4) {i : Nat}
    (hi : liveEntry s.hbm hdr (headerAt s.hbm hdr) (coordWord ((headerAt s.hbm hdr).pointOf k)) = some i) : storeElem s hdr (k, v)
    = trackedWrite s (hdr + (headerAt s.hbm hdr).entryOff i)
        { excAt s.hbm hdr (headerAt s.hbm hdr) i with value := v, rin := s.domain.rin.toNat, state := 1 }.bytes := by
  rw [storeElem]
  dsimp only
  rw [if_neg h4, hi]

variable (h4 : (headerAt s.hbm hdr).state ≠ 4)
  (hnone : liveEntry s.hbm hdr (headerAt s.hbm hdr) (coordWord ((headerAt s.hbm hdr).pointOf k)) = none)
include h4 hnone

theorem storeElem_agrees
    (ha : ((headerAt s.hbm hdr).exact && evalNet s.hbm hdr (headerAt s.hbm hdr) (headerAt s.hbm hdr).aslot ((headerAt s.hbm hdr).pointOf k) == v) = true) :
    storeElem s hdr (k, v) = some s := by
  rw [storeElem]
  dsimp only
  rw [if_neg h4, hnone]
  dsimp only
  rw [if_pos ha]

theorem storeElem_new
    (ha : ¬ ((headerAt s.hbm hdr).exact && evalNet s.hbm hdr (headerAt s.hbm hdr) (headerAt s.hbm hdr).aslot ((headerAt s.hbm hdr).pointOf k) == v) = true)
    {i : Nat} (hi : freeEntry s.hbm hdr (headerAt s.hbm hdr) = some i) {u : State}
    (hu : linkEntry s hdr (headerAt s.hbm hdr) i (coordWord ((headerAt s.hbm hdr).pointOf k)) v = some u) :
    storeElem s hdr (k, v) = setField u hdr 10 32 24 ((headerAt s.hbm hdr).livecnt + 1) := by
  rw [storeElem]
  dsimp only
  rw [if_neg h4, hnone]
  dsimp only
  rw [if_neg ha, hi]
  dsimp only
  rw [hu, Option.bind_some]

end

/-- A new entry is written, and its bucket then names it. -/
theorem linkEntry_writes {s t u : State} {hdr i coord v : Nat} {h : Header}
    (h1 : trackedWrite s (hdr + h.entryOff i)
      (Exc.bytes { coord := coord, value := v, rin := s.domain.rin.toNat, state := 1, link := s.hbm.readNat (bucketAddr hdr h coord) 3 }) = some t)
    (h2 : trackedWrite t (bucketAddr hdr h coord) (leBytes 4 (i + 1)) = some u) : linkEntry s hdr h i coord v = some u := by
  rw [linkEntry, h1, Option.bind_eq_bind, Option.bind_some, h2]

/-! ## A member's store -/

theorem startDemotion_ok {s u v : State} {hdr : Nat} {op : Option (Nat × Nat)} (h1 : abortRefit s hdr = some u)
    (h2 : setField (modifyRegion u hdr fun r => { r with owner := op, written := 0 }) hdr 0 29 3 3 = some v) : startDemotion s hdr op = some v := by
  refine Eq.trans ?_ h2
  show (abortRefit s hdr).bind _ = _
  rw [h1]
  rfl

/-- The table takes a store where no element needs an entry, or where the entries that it needs are free and in its bound. -/
theorem tableTakes_iff (m : Memory) (hdr : Nat) (h : Header) (l : Elems) : tableTakes m hdr h l = true
    ↔ l.filter (needsEntry m hdr h) = [] ∨ (l.filter (needsEntry m hdr h)).length ≤ freeCount m hdr h
      ∧ h.params + h.livecnt + (l.filter (needsEntry m hdr h)).length < h.points := by
  simp only [tableTakes, Bool.or_eq_true, beq_iff_eq, List.length_eq_zero_iff, Bool.and_eq_true, decide_eq_true_eq]

section
variable {s : State} {hdr issue : Nat} {ag : Agent} {l : Elems}

theorem applyFitted_holds (h0 : (headerAt s.hbm hdr).state ≠ 0)
    (hbusy : (headerAt s.hbm hdr).state = 1 ∨ (headerAt s.hbm hdr).state = 3 ∨ regionHolds s hdr = true) :
    applyFitted s hdr ag issue l = holdStore s hdr ag issue l := by
  rw [applyFitted]
  rw [if_neg h0, if_pos hbusy]

variable (hfree : ¬ ((headerAt s.hbm hdr).state = 1 ∨ (headerAt s.hbm hdr).state = 3 ∨ regionHolds s hdr = true))
include hfree

theorem applyFitted_stores (hst : (headerAt s.hbm hdr).state = 4 ∨ (headerAt s.hbm hdr).state = 2 ∧ tableTakes s.hbm hdr (headerAt s.hbm hdr) l = true)
    {t : State} (ht : storeElements s hdr l = some t) (hwin : windowStore s hdr l = false) : applyFitted s hdr ag issue l = t := by
  rw [applyFitted]
  rw [if_neg (by omega), if_neg hfree, if_neg, ht]
  · dsimp only
    rw [hwin, if_neg Bool.false_ne_true]
  · rintro ⟨h2, hno⟩
    rcases hst with h4 | ⟨-, htakes⟩
    · omega
    · exact hno htakes

theorem applyFitted_demotes (h2 : (headerAt s.hbm hdr).state = 2) (hno : tableTakes s.hbm hdr (headerAt s.hbm hdr) l = false)
    (hinfl : (headerAt s.hbm hdr).inflFault = false) {v : State} (hv : startDemotion s hdr none = some v) :
    applyFitted s hdr ag issue l = holdStore v hdr ag issue l := by
  rw [applyFitted]
  rw [if_neg (by omega), if_neg hfree, if_pos ⟨h2, by rw [hno]; exact Bool.false_ne_true⟩, hinfl, if_neg Bool.false_ne_true, hv]
  rfl

end

theorem regionStoresChangeTheirEntries : Claim.RegionStoresChangeTheirEntries := by
  intro s hdr ag issue l h live agrees stores holds busy
  have hbusy : busy ↔ h.state = 1 ∨ h.state = 3 ∨ regionHolds s hdr = true := or_congr_right (or_congr_right (regionHolds_iff s hdr).symm)
  refine ⟨fun h0 hb => applyFitted_holds h0 (hbusy.mp hb), fun hst hb t ht hwin => applyFitted_stores (fun hc => hb (hbusy.mpr hc)) hst ht hwin,
    fun h2 hno hinfl hb u v h1 hv => applyFitted_demotes (fun hc => hb (hbusy.mpr hc)) h2 hno hinfl (startDemotion_ok h1 hv),
    tableTakes_iff s.hbm hdr h l, fun k v => ?_⟩
  intro stored
  have hagree : (h.exact && evalNet s.hbm hdr h h.aslot (h.pointOf k) == v) = true ↔ agrees k v := by rw [Bool.and_eq_true, beq_iff_eq]
  refine ⟨fun h4 => storeElem_dense h4, fun h4 i hi => storeElem_live h4 hi, fun h4 hnone ha => ?_, fun h4 hnone ha i t u w hfree => ?_⟩
  · exact storeElem_agrees h4 hnone (hagree.mpr ha)
  · intro bucket ht hu hw
    exact (storeElem_new h4 hnone (fun hc => ha (hagree.mp hc)) hfree (linkEntry_writes ht hu)).trans hw

/-! ## The unit's part of a store instruction -/

theorem noteFitted_plain {s : State} {ag : Agent} {hdr : Nat} {p : Place} {data : List Byte} (h1 : p.immed = false) (h2 : p.irrev = false)
    (h3 : inWindow s hdr = false) : noteFitted s ag hdr p data = s := by
  rw [noteFitted, h1, h2, h3] <;> rfl

theorem regionStoresReachTheirUnit : Claim.RegionStoresReachTheirUnit := by
  intro s x size l hdr ord sc data va es u p hacc h1 h2 h3
  have helems : keptElems [(l, hdr, es)] l hdr es = es := by
    refine List.filter_eq_self.mpr fun e _ => ?_
    simp only [List.any_cons, List.any_nil, lt_self_iff_false, decide_false, Bool.false_and, Bool.or_false, Bool.not_false]
  have hregion : acceptRegion (s.setGroup { x.g with stQueue := x.g.stQueue ++ [x.g.nextIssue], nextIssue := x.g.nextIssue + 1 }) x.g l x.g.nextIssue hdr va
      (data l) es = u := by
    rw [acceptRegion]
    dsimp only
    rw [show groupAccess (applyFitted _ hdr { agentOf x.g with lane := l } x.g.nextIssue es) x.g (storeAccess (data l).length) va = .ok p from hacc]
    exact noteFitted_plain h1 h2 h3
  rw [acceptStores]
  simp only [List.filterMap_cons, List.filterMap_nil, List.map_cons, List.map_nil, List.foldl_cons, List.foldl_nil, List.append_nil, helems, hregion]

end Sys2Proof.Machine

open Sys2Proof Sys2Proof.Machine

/-- Settles O12: a performed store, tile element or descriptor changes its bytes, its bits or its line alone, and a region's store its elements'
entries. -/
theorem performedStoresWriteTheirBytes : Obligations.PerformedStoresWriteTheirBytes :=
  ⟨laterWritesReplaceDeferredBytes, performedStoreBytes, performedElementsMergeTheirBits, performedDescriptorsChangeTheirLine,
    regionStoresChangeTheirEntries, regionStoresReachTheirUnit⟩
end

section
/-! PROOFS. The canonical form of the byte memories under outcomes and effects, and the instructions that act on registers (log entry 7). -/
namespace Sys2Proof.Machine
open Sys2Proof.Laws

/-! ## Canonical memories in outcomes and effects -/

/-- A next state that an outcome answers has canonical memories. -/
def nextWf (o : Host.Outcome State Fault Refusal) : Prop := ∀ t, o = .next t → t.memoryWf = true

/-- A state that may be missing has canonical memories. -/
def optWf (o : Option State) : Prop := ∀ t, o = some t → t.memoryWf = true

/-- A state that a checked access answers has canonical memories. -/
def fittedWf (o : Fitted State) : Prop := ∀ t, o = .ok t → t.memoryWf = true

/-- A state that a run which may stop answers has canonical memories. -/
def exceptWf {ε : Type} (o : Except ε State) : Prop := ∀ t, o = .ok t → t.memoryWf = true

/-- The state that an effect carries has canonical memories. -/
def effectWf : Effect → Prop
  | .stall | .fault _ => True
  | .wait s _ _ | .done s | .moved s | .part s _ _ | .trap s _ => s.memoryWf = true

theorem nextWf_next {s : State} (h : s.memoryWf = true) : nextWf (.next s) := fun t ht => by
  cases ht
  exact h

theorem nextWf_fault (f : Fault) : nextWf (.fault f) := fun t ht => by cases ht
theorem nextWf_refused (r : Refusal) : nextWf (.refused r) := fun t ht => by cases ht

theorem nextWf_ite {c : Prop} [Decidable c] {a b : Host.Outcome State Fault Refusal} (ha : c → nextWf a) (hb : ¬ c → nextWf b) : nextWf (if c then a else b) := by
  split
  · next h => exact ha h
  · next h => exact hb h

theorem optWf_some {s : State} (h : s.memoryWf = true) : optWf (some s) := fun t ht => by
  cases ht
  exact h

theorem optWf_none : optWf none := fun t ht => by cases ht

theorem optWf_bind {α : Type} {o : Option α} {f : α → Option State} (h : ∀ a, o = some a → optWf (f a)) : optWf (o.bind f) := fun t ht => by
  obtain ⟨a, ha, hf⟩ := Option.bind_eq_some_iff.mp ht
  exact h a ha t hf

theorem optWf_map {α : Type} {o : Option α} {f : α → State} (h : ∀ a, o = some a → (f a).memoryWf = true) : optWf (o.map f) := fun t ht => by
  obtain ⟨a, ha, rfl⟩ := Option.map_eq_some_iff.mp ht
  exact h a ha

theorem optWf_ite {c : Prop} [Decidable c] {a b : Option State} (ha : optWf a) (hb : optWf b) : optWf (if c then a else b) := by
  split
  · exact ha
  · exact hb

theorem optWf_foldlM {α : Type} {f : State → α → Option State} (hf : ∀ s a, s.memoryWf = true → optWf (f s a)) (l : List α) :
    ∀ {s : State}, s.memoryWf = true → optWf (l.foldlM f s) := by
  induction l with
  | nil => exact fun h => optWf_some h
  | cons a l ih => exact fun h => optWf_bind fun t ht => ih (hf _ _ h t ht)

theorem getD_memoryWf {o : Option State} {s : State} (ho : optWf o) (h : s.memoryWf = true) : (o.getD s).memoryWf = true := by
  cases o with
  | none => exact h
  | some t => exact ho t rfl

theorem foldl_memoryWf {α : Type} {f : State → α → State} (hf : ∀ s a, s.memoryWf = true → (f s a).memoryWf = true) (l : List α) {s : State}
    (h : s.memoryWf = true) : (l.foldl f s).memoryWf = true := foldl_keeps (fun s : State => s.memoryWf = true) f hf l h

theorem exceptWf_ok {ε : Type} {s : State} (h : s.memoryWf = true) : exceptWf (.ok s : Except ε State) := fun t ht => by
  cases ht
  exact h

theorem exceptWf_error {ε : Type} (x : ε) : exceptWf (.error x) := fun t ht => by cases ht

theorem exceptWf_ite {ε : Type} {c : Prop} [Decidable c] {a b : Except ε State} (ha : exceptWf a) (hb : exceptWf b) : exceptWf (if c then a else b) := by
  split
  · exact ha
  · exact hb

theorem effectWf_ite {c : Prop} [Decidable c] {a b : Effect} (ha : effectWf a) (hb : effectWf b) : effectWf (if c then a else b) := by
  split
  · exact ha
  · exact hb

/-- A state with the memories of another one has canonical memories with it. -/
theorem memoryWf_same {s t : State} (h : s.memoryWf = true) (hbm : t.hbm = s.hbm := by rfl) (host : t.host = s.host := by rfl)
    (peer : t.peer = s.peer := by rfl) (pond : t.work.pond = s.work.pond := by rfl) (ctxs : t.ctxs = s.ctxs := by rfl)
    (sc : t.snapCommitted = s.snapCommitted := by rfl) (sp : t.snapPending = s.snapPending := by rfl) : t.memoryWf = true :=
  memoryWf_of_eq h hbm host peer pond ctxs sc sp

/-! ## Issues -/

theorem stepTrap_memoryWf {s : State} (h : s.memoryWf = true) (x : Issue) : (stepTrap s x).memoryWf = true :=
  ite_memoryWf (takePark_memoryWf h _ _) h

theorem finish_memoryWf {s : State} (h : s.memoryWf = true) (x : Issue) (yields : Bool) {e : Effect} (he : effectWf e) :
    (finish s x yields e).memoryWf = true := by
  have hcur : ∀ {t : State}, t.memoryWf = true → ∀ f, ({ t.modifyGroup x.uid f with cur := none } : State).memoryWf = true := fun ht _ => ht
  cases e with
  | stall => exact h
  | wait t gone first => exact stepTrap_memoryWf (hcur he _) x
  | done t => exact stepTrap_memoryWf (hcur he _) x
  | moved t => exact stepTrap_memoryWf (hcur he _) x
  | part t moved a => exact takePark_memoryWf (hcur he _) _ _
  | fault a => exact takePark_memoryWf (hcur h _) _ _
  | trap t a => exact takePark_memoryWf (hcur he _) _ _

theorem issue_nextWf {s : State} (h : s.memoryWf = true) {i : Instr} {body : State → Issue → Effect} (hb : ∀ x, effectWf (body s x)) :
    nextWf (issue i body s) := by
  unfold issue
  split
  · exact nextWf_fault _
  · dsimp only
    split
    · exact nextWf_ite (fun _ => nextWf_next h) fun _ => nextWf_next (finish_memoryWf h _ _ trivial)
    · exact nextWf_ite (fun _ => nextWf_next h) fun _ => nextWf_next (finish_memoryWf h _ _ (hb _))

section
variable {s : State} (h : s.memoryWf = true)
include h

theorem setGroup_wf (g : Group) : (s.setGroup g).memoryWf = true := h
theorem modifyGroup_wf (uid : Nat) (f : Group → Group) : (s.modifyGroup uid f).memoryWf = true := h

theorem stutter_nextWf : nextWf (stutter s) := nextWf_next h

theorem perLane_nextWf (i : Instr) (f : Issue → Nat → LaneOut) : nextWf (perLane i f s) := issue_nextWf h fun _ => setGroup_wf h _

theorem perSet_nextWf (i : Instr) (f : Issue → Group) : nextWf (perSet i f s) := issue_nextWf h fun _ => setGroup_wf h _

/-! ## Control -/

theorem extWord_nextWf (i : Instr) : nextWf (extWord i s) := by
  unfold extWord
  split
  · exact nextWf_fault _
  · exact nextWf_next h

theorem execIllegalInstruction_nextWf (w : Word) : nextWf (execIllegalInstruction w s) := by
  unfold execIllegalInstruction
  split
  · exact nextWf_fault _
  · exact nextWf_ite (fun _ => nextWf_next h) fun _ => nextWf_next (finish_memoryWf h _ _ trivial)

theorem branch_nextWf (i : Instr) (gd : Guard) (off : BitVec 20) (link : Bool) : nextWf (branch i gd off link s) := issue_nextWf h fun _ => setGroup_wf h _

theorem indirect_nextWf (i : Instr) (a : VReg) (land : Bool) (link : Option VReg) : nextWf (indirect i a land link s) := by
  refine issue_nextWf h fun x => ?_
  dsimp only
  refine effectWf_ite (setGroup_wf h _) ?_
  split
  · exact setGroup_wf h _
  · exact setGroup_wf h _

theorem noEffect_nextWf (i : Instr) : nextWf (noEffect i s) := issue_nextWf h fun _ => h

omit h in
theorem settle_memoryWf {s : State} (h : s.memoryWf = true) : (settle s).memoryWf = true :=
  memoryWf_of_eq h (by rw [settle_frame]) (by rw [settle_frame]) (by rw [settle_frame]) (settle_pond s).1 (by rw [settle_frame]) (by rw [settle_frame])
    (by rw [settle_frame])

theorem execExit_nextWf : nextWf (execExit s) := by
  have hissue : nextWf (issue .exit (fun s x =>
      let g1 := releaseJoins (x.g.modifyThreads x.lanes fun t => { t with status := .exited })
      .done (checkPhases (s.setGroup g1) g1)) s) := issue_nextWf h fun _ => h
  unfold execExit
  split
  · next t ht => exact nextWf_next (ite_memoryWf (hissue t ht) (settle_memoryWf (hissue t ht)))
  · exact hissue

theorem execBrk_nextWf : nextWf (execBrk s) := issue_nextWf h fun _ => effectWf_ite h h

theorem execJoin_nextWf (a : SReg) : nextWf (execJoin a s) := issue_nextWf h fun _ => setGroup_wf h _

theorem execTrap_nextWf (imm : BitVec 11) : nextWf (execTrap imm s) := issue_nextWf h fun _ => effectWf_ite h h

theorem execSrd_nextWf (d : VReg) (idx : BitVec 8) : nextWf (execSrd d idx s) := issue_nextWf h fun _ => setGroup_wf h _

omit h in
theorem sysWrite_memoryWf {s : State} (h : s.memoryWf = true) (uid ctx lane idx : Nat) (v : Word) : (sysWrite s uid ctx lane idx v).memoryWf = true := by
  unfold sysWrite
  split
  · exact h
  · exact h
  · exact h
  · exact h
  · exact modifyCtx_memoryWf h _ _ fun _ => rfl
  · exact h

theorem execSwr_nextWf (a : VReg) (idx : BitVec 8) : nextWf (execSwr a idx s) :=
  issue_nextWf h fun _ => foldl_memoryWf (fun _ _ ht => sysWrite_memoryWf ht _ _ _ _ _) _ h

/-! ## Uniform branches, REGROUP and barriers -/

theorem uniformBranch_nextWf (i : Instr) (d : SReg) (imm : BitVec 9) (onZero : Bool) : nextWf (uniformBranch i d imm onZero s) :=
  issue_nextWf h fun _ => setGroup_wf h _

theorem execRegroup_nextWf (d a : VReg) (b : SReg7) : nextWf (execRegroup d a b s) := by
  unfold execRegroup
  dsimp only
  refine issue_nextWf h fun x => ?_
  exact effectWf_ite trivial (setGroup_wf h _)

theorem modifyBarrier_memoryWf (level bar : Nat) (g : Group) (f : Barrier → Barrier) : (modifyBarrier s level bar g f).memoryWf = true :=
  ite_memoryWf h (ite_memoryWf h h)

theorem rdvArrive_memoryWf (x : Issue) (lanes : List Nat) (lvl : BitVec 2) (bar : BitVec 8) : (rdvArrive s x lanes lvl bar).memoryWf = true :=
  modifyBarrier_memoryWf h _ _ _ _

theorem execRdvMark_nextWf (d : SReg) (bar : BitVec 8) (lvl : BitVec 2) : nextWf (execRdvMark d bar lvl s) :=
  issue_nextWf h fun _ => effectWf_ite trivial (modifyGroup_wf (rdvArrive_memoryWf h _ _ _ _) _ _)

theorem execRdvHold_nextWf (d : SReg) (bar : BitVec 8) (lvl : BitVec 2) : nextWf (execRdvHold d bar lvl s) :=
  issue_nextWf h fun _ => effectWf_ite trivial (effectWf_ite (modifyGroup_wf h _ _) trivial)

theorem execRdvMeet_nextWf (d : SReg) (bar : BitVec 8) (lvl : BitVec 2) : nextWf (execRdvMeet d bar lvl s) := by
  refine issue_nextWf h fun x => ?_
  dsimp only
  refine effectWf_ite (effectWf_ite trivial h) ?_
  have hs1 := modifyGroup_wf (rdvArrive_memoryWf h x (comingLanes x lvl bar) lvl bar) x.uid fun g => g.modifyThreads (comingLanes x lvl bar) fun t =>
    { t with status := .meet lvl.toNat bar.toNat (rdvCount s x lvl bar) }
  exact ite_memoryWf hs1 (modifyGroup_wf (modifyGroup_wf hs1 _ _) _ _)

theorem execRdvPeek_nextWf (d : SReg) (bar : BitVec 8) (lvl : BitVec 2) : nextWf (execRdvPeek d bar lvl s) := issue_nextWf h fun _ => modifyGroup_wf h _ _

end

end Sys2Proof.Machine
end

section
/-! PROOFS. The Spring units keep the canonical form of the byte memories (log entry 7). -/
namespace Sys2Proof.Machine
open Sys2Proof.Laws

section
variable {s : State} (h : s.memoryWf = true)
include h

theorem trackedWrite_optWf (pa : Nat) (data : List Byte) : optWf (trackedWrite s pa data) := fun _ ht => trackedWrite_memoryWf h ht

theorem acceptDeferred_optWf (ag : Agent) (p : Target) (data : List Byte) (home record : Bool) : optWf (acceptDeferred s ag p data home record) :=
  fun _ ht => acceptDeferred_memoryWf h ht

theorem noteFitted_memoryWf (ag : Agent) (hdr : Nat) (p : Place) (data : List Byte) : (noteFitted s ag hdr p data).memoryWf = true :=
  ite_memoryWf (pin_memoryWf h _) (ite_memoryWf (getD_memoryWf (acceptDeferred_optWf h _ _ _ _ _) h) h)

/-! ## Headers and entries -/

theorem setField_optWf (hdr k lo n v : Nat) : optWf (setField s hdr k lo n v) := trackedWrite_optWf h _ _

theorem setFields_optWf (hdr : Nat) (l : List (Nat × Nat × Nat × Nat)) : optWf (setFields s hdr l) := by
  unfold setFields
  refine optWf_foldlM (fun t f ht => ?_) l h
  exact setField_optWf ht _ _ _ _ _

theorem linkEntry_optWf (hdr : Nat) (hd : Header) (i coord v : Nat) : optWf (linkEntry s hdr hd i coord v) :=
  optWf_bind fun _ ht => trackedWrite_optWf (trackedWrite_optWf h _ _ _ ht) _ _

theorem freeOne_optWf (hdr : Nat) (hd : Header) (i : Nat) : optWf (freeOne s hdr hd i) := by
  unfold freeOne
  dsimp only
  split
  · exact optWf_bind fun _ ht => trackedWrite_optWf (trackedWrite_memoryWf h ht) _ _
  · exact optWf_bind fun _ ht => trackedWrite_optWf (trackedWrite_memoryWf h ht) _ _

theorem storeElem_optWf (hdr : Nat) (e : Nat × Nat) : optWf (storeElem s hdr e) := by
  unfold storeElem
  dsimp only
  refine optWf_ite (trackedWrite_optWf h _ _) ?_
  split
  · exact trackedWrite_optWf h _ _
  · refine optWf_ite (optWf_some h) ?_
    split
    · exact optWf_bind fun t ht => setField_optWf (linkEntry_optWf h _ _ _ _ _ t ht) _ _ _ _ _
    · exact optWf_none

theorem storeElements_optWf (hdr : Nat) (l : Elems) : optWf (storeElements s hdr l) := optWf_foldlM (fun _ _ ht => storeElem_optWf ht _ _) l h

/-! ## Operations in flight -/

theorem modifyRegion_memoryWf (hdr : Nat) (f : Region → Region) : (modifyRegion s hdr f).memoryWf = true := h

theorem endFrop_memoryWf (op : Nat × Nat) (r : RResult) (cause idx : Nat) : (endFrop s op r cause idx).memoryWf = true := h

theorem setResult_optWf (hdr : Nat) (r : RResult) (cause idx : Nat) : optWf (setResult s hdr r cause idx) :=
  optWf_ite (setFields_optWf h _ _) (setField_optWf h _ _ _ _ _)

theorem finishFrop_optWf (hdr : Nat) (op : Option (Nat × Nat)) (r : RResult) (cause idx : Nat) : optWf (finishFrop s hdr op r cause idx) := by
  refine optWf_map fun t ht => ?_
  have hw := setResult_optWf h _ _ _ _ t ht
  cases op with
  | none => exact hw
  | some o => exact endFrop_memoryWf hw _ _ _ _

theorem setEntries_optWf (hdr : Nat) (hd : Header) (st : Byte) (l : List Nat) : optWf (setEntries s hdr hd st l) :=
  optWf_foldlM (f := fun s i => trackedWrite s (hdr + hd.entryOff i + 12) [st]) (fun _ _ ht => trackedWrite_optWf ht _ _) l h

theorem unmark_optWf (hdr : Nat) : optWf (unmark s hdr) := setEntries_optWf h _ _ _ _

theorem abortRefit_optWf (hdr : Nat) : optWf (abortRefit s hdr) := by
  refine optWf_ite (optWf_some h) (optWf_bind fun t ht => optWf_bind fun u hu => setField_optWf ?_ _ _ _ _ _)
  exact finishFrop_optWf (modifyRegion_memoryWf (unmark_optWf h _ t ht) _ _) _ _ _ _ _ u hu

theorem startDemotion_optWf (hdr : Nat) (op : Option (Nat × Nat)) : optWf (startDemotion s hdr op) :=
  optWf_bind fun t ht => setField_optWf (modifyRegion_memoryWf (abortRefit_optWf h _ t ht) _ _) _ _ _ _ _

/-! ## Stores -/

theorem holdStore_memoryWf (hdr : Nat) (ag : Agent) (issue : Nat) (l : Elems) : (holdStore s hdr ag issue l).memoryWf = true := h

theorem lateFault_memoryWf (hdr : Nat) (ag : Agent) (l : Elems) (engine : Nat) (c : CauseDetail) : (lateFault s hdr ag l engine c).memoryWf = true := by
  unfold lateFault
  dsimp only
  split
  · exact h
  · exact ite_memoryWf ((emitRecord_memoryWf s _).trans h) (takePark_memoryWf (setGroup_wf h _) _ _)

theorem applyFitted_memoryWf (hdr : Nat) (ag : Agent) (issue : Nat) (l : Elems) : (applyFitted s hdr ag issue l).memoryWf = true := by
  unfold applyFitted
  dsimp only
  refine ite_memoryWf (lateFault_memoryWf h _ _ _ _ _) (ite_memoryWf (holdStore_memoryWf h _ _ _ _) (ite_memoryWf (ite_memoryWf (lateFault_memoryWf h _ _ _ _ _)
    (holdStore_memoryWf (getD_memoryWf (startDemotion_optWf h _ _) h) _ _ _ _)) ?_))
  split
  · next t ht => exact ite_memoryWf (pin_memoryWf (storeElements_optWf h _ _ t ht) _) (storeElements_optWf h _ _ t ht)
  · exact holdStore_memoryWf h _ _ _ _

theorem releaseHeld_memoryWf (hdr : Nat) : (releaseHeld s hdr).memoryWf = true :=
  ite_memoryWf h (foldl_memoryWf (fun _ _ ht => applyFitted_memoryWf ht _ _ _ _) _ (memoryWf_same h))

/-! ## Installs, refits and demotions -/

theorem beginInstall_optWf (hdr : Nat) (image : Header) (op : Nat × Nat) : optWf (beginInstall s hdr image op) := by
  refine optWf_bind fun s1 h1 => optWf_bind fun s2 h2 => optWf_bind fun s3 h3 => optWf_some ?_
  have hw2 := trackedWrite_memoryWf (trackedWrite_memoryWf h h1) h2
  have hw3 : s3.memoryWf = true :=
    optWf_foldlM (f := fun s i => trackedWrite s (hdr + image.entryOff i + 12) [0]) (fun _ _ ht => trackedWrite_optWf ht _ _) _ hw2 s3 h3
  exact memoryWf_same hw3

omit h in
/-- The state at which the walk of an install ends has canonical memories. -/
def installWf : InstallEnd → Prop
  | .complete s | .overflow s _ _ | .fault s _ _ => s.memoryWf = true
  | .wait => True

omit h in
theorem installFrom_wf (elem : State → Nat → Fitted Nat) (hdr k : Nat) : ∀ (n used : Nat) {s : State}, s.memoryWf = true → installWf (installFrom elem hdr k n used s) := by
  induction k with
  | zero => exact fun _ _ _ h => h
  | succ k ih =>
    intro n used s h
    rw [installFrom]
    dsimp only
    split
    · trivial
    · exact h
    · next v hv =>
      split
      · trivial
      · next s1 used1 hnext =>
        have hw : s1.memoryWf = true := by
          split at hnext
          · cases hnext
            exact h
          · obtain ⟨t, ht, hp⟩ := Option.map_eq_some_iff.mp hnext
            cases hp
            exact optWf_bind (fun u hu => setField_optWf (linkEntry_optWf h _ _ _ _ _ u hu) _ _ _ _ _) _ ht
        split
        · exact hw
        · exact ih _ _ hw

theorem startRefit_optWf (hdr : Nat) (op : Option (Nat × Nat)) : optWf (startRefit s hdr op) :=
  optWf_bind fun t ht => optWf_map fun u hu => modifyRegion_memoryWf (setField_optWf (unmark_optWf h _ t ht) _ _ _ _ _ u hu) _ _

theorem commitRefit_optWf (hdr : Nat) (marked : List Nat) (shields : List (Nat × Nat)) : optWf (commitRefit s hdr marked shields) := by
  refine optWf_bind fun s1 h1 => optWf_bind fun s2 h2 => setFields_optWf ?_ _ _
  have hw1 : s1.memoryWf = true := optWf_foldlM (f := fun s i => freeOne s hdr (headerAt _ hdr) i) (fun _ _ ht => freeOne_optWf ht _ _ _) _ h s1 h1
  refine optWf_foldlM (fun t e ht => ?_) shields hw1 s2 h2
  exact optWf_bind fun _ _ => linkEntry_optWf ht _ _ _ _ _

theorem verifyRefit_optWf (hdr : Nat) : optWf (verifyRefit s hdr) :=
  optWf_bind fun _ _ => optWf_bind fun _ h1 => optWf_bind fun s2 h2 =>
    optWf_some (modifyRegion_memoryWf (setEntries_optWf (trackedWrite_memoryWf h h1) _ _ _ _ s2 h2) _ _)

theorem endRefit_optWf (hdr : Nat) : optWf (endRefit s hdr) := by
  refine optWf_bind fun r _ => ?_
  dsimp only
  refine optWf_ite (optWf_bind fun s2 h2 => ?_) (optWf_bind fun s2 h2 => optWf_bind fun s3 h3 => ?_)
  · exact finishFrop_optWf (commitRefit_optWf (modifyRegion_memoryWf h _ _) _ _ _ s2 h2) _ _ _ _ _
  · exact finishFrop_optWf (setFields_optWf (setEntries_optWf (modifyRegion_memoryWf h _ _) _ _ _ _ s2 h2) _ _ s3 h3) _ _ _ _ _

theorem clearHold_memoryWf (closed : BitVec 16) : (clearHold s closed).memoryWf = true := by
  unfold clearHold
  refine foldl_memoryWf (fun t r ht => ?_) _ h
  dsimp only
  refine ite_memoryWf ?_ ht
  split
  · next s1 h1 =>
    have hw := setField_optWf ht _ _ _ _ _ s1 h1
    exact ite_memoryWf (getD_memoryWf (startRefit_optWf hw _ _) hw) hw
  · exact ht

omit h in
theorem writeReserve_memoryWf (hdr : Nat) (hd : Header) (image : List (Nat × Nat)) (n : Nat) : ∀ (k : Nat) {s : State}, s.memoryWf = true →
    (writeReserve hdr hd image n k s).1.memoryWf = true := by
  induction n with
  | zero => exact fun _ _ h => h
  | succ n ih =>
    intro k s h
    rw [writeReserve]
    split
    · next t ht => exact ih _ (trackedWrite_memoryWf h ht)
    · exact h

theorem becomeDense_optWf (hdr : Nat) (r : Region) : optWf (becomeDense s hdr r) :=
  optWf_bind fun t ht => finishFrop_optWf (modifyRegion_memoryWf (setFields_optWf h _ _ t ht) _ _) _ _ _ _ _

omit h in
theorem optWf_or {a b : Option State} (ha : optWf a) (hb : optWf b) : optWf (a.or b) := by
  cases a with
  | none => exact hb
  | some t => exact ha

theorem endDemotion_optWf (hdr : Nat) : optWf (endDemotion s hdr) := by
  unfold endDemotion
  split
  · exact optWf_none
  · next r _ =>
    dsimp only
    have hw := writeReserve_memoryWf hdr (headerAt s.hbm hdr) r.image ((headerAt s.hbm hdr).reserveSize / 64 - r.written) r.written h
    have hkept := optWf_ite (c := (writeReserve hdr (headerAt s.hbm hdr) r.image ((headerAt s.hbm hdr).reserveSize / 64 - r.written) r.written s).2 = r.written)
      optWf_none (optWf_some (modifyRegion_memoryWf hw hdr fun r' => { r' with
        written := (writeReserve hdr (headerAt s.hbm hdr) r.image ((headerAt s.hbm hdr).reserveSize / 64 - r.written) r.written s).2 }))
    exact optWf_ite hkept (optWf_or (becomeDense_optWf hw _ _) hkept)

end

end Sys2Proof.Machine
end

section
/-! PROOFS. The memory instructions and performed writes keep the canonical form of the byte memories (log entry 7). -/
namespace Sys2Proof.Machine
open Sys2Proof.Laws

section
variable {s : State} (h : s.memoryWf = true)
include h

theorem endMembers_wf {α : Type} (kind : Nat) (l : Members α) : effectWf (endMembers kind l s) := effectWf_ite h h

/-! ## Loads -/

theorem loads_wf (i : Instr) (x : Issue) (acc : Access) (addr : Nat → DWord) (vals : Nat → List Byte → List (Nat × Word)) :
    effectWf (loads i s x acc addr vals) := by
  refine effectWf_ite trivial (effectWf_ite (endMembers_wf (setGroup_wf h _) _ _) (effectWf_ite trivial ?_))
  exact endMembers_wf (setGroup_wf h _) _ _

theorem loadInstr_nextWf (i : Instr) (d : VReg) (size : Nat) (addr : Issue → Nat → DWord) (ord : MemOrder) (sc : Scope) (vals : List Byte → List Word) :
    nextWf (loadInstr i d size addr ord sc vals s) := issue_nextWf h fun _ => effectWf_ite trivial (loads_wf h _ _ _ _ _)

theorem execDld_nextWf (d a b : VReg) : nextWf (execDld d a b s) := by
  unfold execDld
  dsimp only
  refine issue_nextWf h fun x => ?_
  refine effectWf_ite trivial (effectWf_ite (endMembers_wf (setGroup_wf h _) _ _) (effectWf_ite trivial ?_))
  exact endMembers_wf (setGroup_wf h _) _ _

/-! ## Stores -/

theorem settleStores_memoryWf (uid : Nat) : (settleStores s uid).memoryWf = true := by
  unfold settleStores
  split
  · exact h
  · exact setGroup_wf h _

theorem acceptRegion_memoryWf (g : Group) (lane n hdr : Nat) (va : DWord) (data : List Byte) (l : Elems) :
    (acceptRegion s g lane n hdr va data l).memoryWf = true := by
  have hw := applyFitted_memoryWf h hdr { agentOf g with lane := lane } n l
  unfold acceptRegion
  dsimp only
  split
  · exact noteFitted_memoryWf hw _ _ _ _
  · exact hw

theorem acceptStores_memoryWf (x : Issue) (size : Nat) (ord : MemOrder) (sc : Scope) (data : Nat → List Byte) (good : List (Nat × DWord × StoreKind)) :
    (acceptStores s x size ord sc data good).memoryWf = true := by
  refine settleStores_memoryWf (foldl_memoryWf (fun t e ht => ?_) _ (setGroup_wf h _)) _
  exact acceptRegion_memoryWf ht _ _ _ _ _ _ _

theorem stores_wf (x : Issue) (acc : Access) (size : Nat) (ord : MemOrder) (sc : Scope) (ms : Members StoreKind) (data : Nat → List Byte) :
    effectWf (stores s x acc size ord sc ms data) :=
  effectWf_ite trivial (effectWf_ite (endMembers_wf h _ _) (effectWf_ite trivial (endMembers_wf (acceptStores_memoryWf h _ _ _ _ _ _) _ _)))

theorem storeInstr_nextWf (i : Instr) (size : Nat) (addr : Issue → Nat → DWord) (ord : MemOrder) (sc : Scope) (data : Issue → Nat → List Byte) :
    nextWf (storeInstr i size addr ord sc data s) := issue_nextWf h fun _ => stores_wf h _ _ _ _ _ _ _

theorem execDst_nextWf (d a b : VReg) : nextWf (execDst d a b s) := issue_nextWf h fun _ => stores_wf h _ _ _ _ _ _ _

theorem performStore_optWf (g : Group) (n : Nat) (b : Buffered) : optWf (performStore s g n b) := by
  refine optWf_ite optWf_none (optWf_map fun t ht => settleStores_memoryWf ?_ _)
  split at ht
  · exact writeDesc_memoryWf (setGroup_wf h _) ht
  · exact writePlace_memoryWf (setGroup_wf h _) ht

theorem performTile_optWf (g : Group) (n : Nat) (w : TileWrite) : optWf (performTile s g n w) :=
  optWf_ite optWf_none (optWf_map fun _ ht => settleStores_memoryWf (writePlace_memoryWf (setGroup_wf h _) ht) _)

theorem performWrite_optWf (g : Group) (n : Nat) : optWf (performWrite s g n) := by
  unfold performWrite
  split
  · exact performStore_optWf h _ _ _
  · split
    · exact performTile_optWf h _ _ _
    · exact optWf_none

theorem execStorePerformed_nextWf (g n : Nat) : nextWf (execStorePerformed g n s) := by
  unfold execStorePerformed
  split
  · next t ht =>
    refine nextWf_next (settle_memoryWf (optWf_bind (fun x _ => ?_) t ht))
    exact optWf_ite (performWrite_optWf h _ _) optWf_none
  · exact stutter_nextWf h

theorem execLoadValueReturn_nextWf (g n : Nat) : nextWf (execLoadValueReturn g n s) := by
  unfold execLoadValueReturn
  split
  · exact stutter_nextWf h
  · split
    · exact stutter_nextWf h
    · exact nextWf_ite (fun _ => stutter_nextWf h) fun _ => nextWf_next (settle_memoryWf (setGroup_wf h _))

/-! ## SLD, SST, segments and waits -/

theorem sld_nextWf (i : Instr) (d a : SReg7) (off : BitVec 6) (size : Nat) (ord : MemOrder) (sc : Scope) : nextWf (sld i d a off size ord sc s) := by
  refine issue_nextWf h fun x => ?_
  dsimp only
  refine effectWf_ite (ite_memoryWf (setGroup_wf h _) h) (effectWf_ite trivial ?_)
  split
  · trivial
  · trivial
  · exact setGroup_wf h _

theorem sst_nextWf (i : Instr) (d a : SReg7) (off : BitVec 6) (size : Nat) (ord : MemOrder) (sc : Scope) : nextWf (sst i d a off size ord sc s) := by
  refine issue_nextWf h fun x => ?_
  dsimp only
  refine effectWf_ite h ?_
  split
  · trivial
  · exact stores_wf h _ _ _ _ _ _ _

theorem segPut_memoryWf (key : Nat) (x : Segment) : (segPut s key x).memoryWf = true := h

theorem execSegq_nextWf (d a b : VReg) : nextWf (execSegq d a b s) := by
  unfold execSegq
  dsimp only
  exact issue_nextWf h fun x => endMembers_wf (setGroup_wf h _) _ _

theorem segsetMember_wf (g : Group) (va : DWord) (v : Word) {t : State} (ht : segsetMember s g va v = .ok t) : t.memoryWf = true := by
  unfold segsetMember at ht
  split at ht
  · cases ht
  · dsimp only at ht
    split at ht
    · cases ht
    · split at ht
      · cases ht
        exact segPut_memoryWf h _ _
      · split at ht
        · cases ht
          exact h
        · cases ht
          exact segPut_memoryWf h _ _

theorem execSegset_nextWf (d a b : VReg) : nextWf (execSegset d a b s) := by
  refine issue_nextWf h fun x => ?_
  refine effectWf_ite trivial ?_
  have hfold : (x.members.foldl (fun (acc : State × List BadMember) l =>
      match segsetMember acc.1 x.g (bAddr x a b l) (x.g.vget l (x.ext.vnum 18 d)) with
      | .ok t => (t, acc.2)
      | .error c => (acc.1, acc.2 ++ [(l, bAddr x a b l, c)])) (s, [])).1.memoryWf = true := by
    refine foldl_keeps (fun acc : State × List BadMember => acc.1.memoryWf = true) _ (fun acc l hacc => ?_) _ h
    split
    · next t ht => exact segsetMember_wf hacc _ _ _ ht
    · exact hacc
  exact effectWf_ite hfold hfold

/-! ## Atomics, FENCE and WAIT -/

theorem atomMember_wf (g : Group) (aop size : Nat) (f : AtomFn) (va : DWord) (opnd swap : Nat) {r : State × Nat}
    (hr : atomMember s g aop size f va opnd swap = .ok r) : r.1.memoryWf = true := by
  unfold atomMember at hr
  split at hr
  · cases hr
  · split at hr
    · cases hr
    · dsimp only at hr
      split at hr
      · cases hr
        exact h
      · split at hr
        · cases hr
        · cases hr
        · split at hr
          · next t ht =>
            cases hr
            exact writeAtom_memoryWf h ht
          · cases hr

omit h in
theorem atomFold_memoryWf (g : Group) (aop size : Nat) (f : AtomFn) (addr : Nat → DWord) (opnd swap : Nat → Nat) (l : List Nat) :
    ∀ {s : State}, s.memoryWf = true → (atomFold g aop size f addr opnd swap s l).1.memoryWf = true := by
  induction l with
  | nil => exact fun h => h
  | cons l r ih =>
    intro s h
    rw [atomFold]
    split
    · next t old ht => exact ih (atomMember_wf h _ _ _ _ _ _ _ ht)
    · exact ih h
    · exact ih h

theorem atom_nextWf (i : Instr) (aop size : Nat) (d a : VReg) (ord : MemOrder) (sc : Scope) (f : AtomFn) : nextWf (atom i aop size d a ord sc f s) := by
  refine issue_nextWf h fun x => ?_
  dsimp only
  refine effectWf_ite trivial (effectWf_ite trivial (effectWf_ite (endMembers_wf (setGroup_wf h _) _ _) (effectWf_ite trivial ?_)))
  exact endMembers_wf (modifyGroup_wf (atomFold_memoryWf _ _ _ _ _ _ _ _ h) _ _) _ _

theorem execFence_nextWf (ord : MemOrder) (sc : Scope) : nextWf (execFence ord sc s) := issue_nextWf h fun _ => effectWf_ite trivial h

theorem execWait_nextWf (ld st cp mx cl : BitVec 4) : nextWf (execWait ld st cp mx cl s) := issue_nextWf h fun _ => effectWf_ite trivial h

end

end Sys2Proof.Machine
end

section
/-! PROOFS. The engines and the copy engine keep the canonical form of the byte memories (log entry 7). -/
namespace Sys2Proof.Machine
open Sys2Proof.Laws

section
variable {s : State} (h : s.memoryWf = true)
include h

/-! ## What the engines share -/

theorem writeHbm_memoryWf (pa : Nat) (data : List Byte) : ({ s with hbm := s.hbm.write pa data } : State).memoryWf = true :=
  memoryWf_setHbm h (Memory.write_wf (memoryWf_hbm h) _ _)

theorem writePlace_optWf (ag : Agent) (p : Place) (data : List Byte) : optWf (writePlace s ag p data) := fun _ ht => writePlace_memoryWf h ht

theorem writeDesc_optWf (ag : Agent) (p : Place) (x : Word) : optWf (writeDesc s ag p x) := fun _ ht => writeDesc_memoryWf h ht

theorem engineLine_optWf (ag : Agent) (p : Place) (data : List Byte) (d : Word) : optWf (engineLine s ag p data d) := by
  unfold engineLine
  split
  · exact optWf_some (memoryWf_setHbm h (Memory.write_wf (Memory.write_wf (memoryWf_hbm h) _ _) _ _))
  · exact optWf_bind fun t ht => writeDesc_optWf (writePlace_memoryWf h ht) _ _ _

theorem engineStore_wf (ag : Agent) (p : Place) (va : DWord) (data : List Byte) {t : State} (ht : engineStore s ag p va data = .ok t) : t.memoryWf = true := by
  unfold engineStore at ht
  split at ht
  · dsimp only at ht
    split at ht
    · cases ht
    · split at ht
      · cases ht
      · split at ht
        · cases ht
          exact noteFitted_memoryWf (applyFitted_memoryWf h _ _ _ _) _ _ _ _
        · cases ht
  · split at ht
    · cases ht
      exact writeHbm_memoryWf h _ _
    · split at ht
      · next u hu =>
        cases ht
        exact writePlace_memoryWf h hu
      · cases ht

theorem engineWrite_wf (g : Group) (ag : Agent) (core : Nat) (va : DWord) (data : List Byte) {t : State} (ht : engineWrite s g ag core va data = .ok t) :
    t.memoryWf = true := by
  unfold engineWrite at ht
  split at ht
  · cases ht
  · exact engineStore_wf h _ _ _ _ ht

theorem emitRecord_wf (a : RecordArgs) : (emitRecord s a).memoryWf = true := (emitRecord_memoryWf s a).trans h

theorem completionStore_optWf (g : Group) (ag : Agent) (core engine lane seq : Nat) (bad : Bool) (comp : Option DWord) :
    optWf (completionStore s g ag core engine lane seq bad comp) := by
  unfold completionStore
  split
  · exact optWf_some h
  · split
    · next t ht => exact optWf_some (engineWrite_wf h _ _ _ _ _ ht)
    · exact optWf_none
    · exact optWf_some (emitRecord_wf h _)

theorem registerArrival_memoryWf (g : Group) (bar : Option Nat) : (registerArrival s g bar).memoryWf = true := by
  cases bar with
  | none => exact h
  | some b => exact modifyBarrier_memoryWf h _ _ _ _

theorem engineArrival_memoryWf (g : Group) (bar : Option Nat) (bad : Bool) : (engineArrival s g bar bad).memoryWf = true := by
  cases bar with
  | none => exact h
  | some b => exact modifyBarrier_memoryWf h _ _ _ _

theorem refreshCounts_memoryWf (uid : Nat) : (refreshCounts s uid).memoryWf = true := by
  unfold refreshCounts
  split
  · exact h
  · split
    · exact ite_memoryWf (writeHbm_memoryWf h _ _) h
    · exact h

/-! ## Copies at issue -/

theorem setSegs_memoryWf (l : List Nat) (st : BitVec 2) (undead : Bool) : (setSegs s l st undead).memoryWf = true :=
  foldl_memoryWf (fun _ _ ht => ite_memoryWf ht (segPut_memoryWf ht _ _)) l h

theorem copyIssue_nextWf (i : Instr) (k : CopyKind) (sh co cs : SReg) : nextWf (copyIssue i k sh co cs s) := by
  refine issue_nextWf h fun x => ?_
  dsimp only
  refine effectWf_ite trivial ?_
  split
  · trivial
  · trivial
  · exact modifyGroup_wf (registerArrival_memoryWf (setSegs_memoryWf (setSegs_memoryWf h _ _ _) _ _ _) _ _) _ _

theorem execCpst_nextWf (d b : SReg) : nextWf (execCpst d b s) := issue_nextWf h fun _ => setGroup_wf h _

theorem execCpcan_nextWf (d a : SReg) : nextWf (execCpcan d a s) := issue_nextWf h fun _ => setGroup_wf h _

/-! ## Elements and runs -/

theorem elemDesc_optWf (ag : Agent) (op : CopyOp) (p : Place) (line : Nat) (e : ElemOut) : optWf (elemDesc s ag op p line e) := by
  unfold elemDesc
  split
  · exact optWf_some h
  · exact optWf_some h
  · exact writeDesc_optWf h _ _ _

theorem putElem_wf (src : List (Nat × Nat × Nat)) (g : Group) (op : CopyOp) (bits bit : Nat) (e : ElemOut) : exceptWf (putElem src s g op bits bit e) := by
  unfold putElem
  dsimp only
  split
  · exact exceptWf_error _
  · refine exceptWf_ite (exceptWf_error _) ?_
    split
    · exact exceptWf_error _
    · exact exceptWf_error _
    · next s1 h1 =>
      split
      · next s2 h2 => exact exceptWf_ok (elemDesc_optWf (engineStore_wf h _ _ _ _ h1) _ _ _ _ _ _ h2)
      · exact exceptWf_error _

theorem copyElem_wf (r : State) (src : List (Nat × Nat × Nat)) (g : Group) (op : CopyOp) (dbits k : Nat) {u : State × CopyOp}
    (hu : copyElem r src s g op dbits k = .ok u) : u.1.memoryWf = true := by
  unfold copyElem at hu
  split at hu
  · cases hu
  · cases hu
    exact h
  · dsimp only at hu
    split at hu
    · cases hu
    · next s1 h1 =>
      cases hu
      exact putElem_wf h _ _ _ _ _ _ _ h1

omit h in
theorem copyElems_memoryWf (r : State) (src : List (Nat × Nat × Nat)) (uid dbits n : Nat) : ∀ {s : State} (op : CopyOp), s.memoryWf = true →
    (copyElems r src uid dbits n s op).1.memoryWf = true := by
  induction n with
  | zero => exact fun _ h => h
  | succ n ih =>
    intro s op h
    rw [copyElems]
    split
    · exact h
    · split
      · exact h
      · next s1 op1 h1 => exact ih _ (copyElem_wf h _ _ _ _ _ _ h1)

theorem runCopy_memoryWf (g : Group) (op : CopyOp) : (runCopy s g op).1.memoryWf = true := by
  unfold runCopy
  split
  · exact h
  · exact copyElems_memoryWf _ _ _ _ _ _ h

/-! ## The end of a copy -/

theorem setCopy_memoryWf (uid n : Nat) (op : CopyOp) : (setCopy s uid n op).memoryWf = true := modifyGroup_wf h _ _

theorem forgetSeg_memoryWf (key : Nat) : (forgetSeg s key).memoryWf = true := by
  have hpond : (forgetSeg s key).work.pond.wf = true := by
    unfold forgetSeg
    dsimp only
    exact Memory.forgetRange_wf (memoryWf_pond h) _ _ _
  exact memoryWf_same (memoryWf_setWork h hpond)

theorem endSegs_memoryWf (op : CopyOp) (cancelled : Bool) : (endSegs s op cancelled).memoryWf = true :=
  ite_memoryWf (setSegs_memoryWf (setSegs_memoryWf (foldl_memoryWf (fun _ _ ht => forgetSeg_memoryWf ht _) _ h) _ _ _) _ _ _)
    (setSegs_memoryWf (setSegs_memoryWf h _ _ _) _ _ _)

theorem copyRecord_memoryWf (g : Group) (op : CopyOp) (kind : Nat) (r : Nat × BitVec 16 × DWord × Nat) : (copyRecord s g op kind r).memoryWf = true :=
  ite_memoryWf (emitRecord_wf h _) h

theorem completeCopy_optWf (g : Group) (op : CopyOp) (r : Nat × BitVec 16 × DWord × Nat) : optWf (completeCopy s g op r) :=
  optWf_ite optWf_none (optWf_map fun t ht => modifyGroup_wf (engineArrival_memoryWf
    (completionStore_optWf (endSegs_memoryWf h _ _) _ _ _ _ _ _ _ _ t ht) _ _ _) _ _)

theorem finishCopy_memoryWf (g : Group) (op : CopyOp) (kind : Nat) (r : Nat × BitVec 16 × DWord × Nat) : (finishCopy s g op kind r).memoryWf = true := by
  have hw : (if op.done.isSome then s else copyRecord s g op kind r).memoryWf = true := ite_memoryWf h (copyRecord_memoryWf h _ _ _ _)
  unfold finishCopy
  dsimp only
  split
  · next t ht => exact settle_memoryWf (completeCopy_optWf hw _ _ _ t ht)
  · exact setCopy_memoryWf hw _ _ _

theorem execCopyCompletion_nextWf (g : Nat) : nextWf (execCopyCompletion g s) := by
  unfold execCopyCompletion
  split
  · exact stutter_nextWf h
  · next x _ =>
    split
    · exact stutter_nextWf h
    · next op _ _ =>
      refine nextWf_ite (fun _ => stutter_nextWf h) fun _ => ?_
      split
      · exact nextWf_next (finishCopy_memoryWf h _ _ _ _)
      · refine nextWf_ite (fun _ => stutter_nextWf h) fun _ => ?_
        have hw := runCopy_memoryWf h x op
        split
        · next heq =>
          rw [heq] at hw
          exact nextWf_next (finishCopy_memoryWf hw _ _ _ _)
        · next heq =>
          rw [heq] at hw
          exact nextWf_ite (fun _ => stutter_nextWf h) fun _ => nextWf_next (setCopy_memoryWf hw _ _ _)
        · next heq =>
          rw [heq] at hw
          exact nextWf_ite (fun _ => stutter_nextWf h) fun _ => nextWf_next (finishCopy_memoryWf hw _ _ _ _)

theorem execCopyHalt_nextWf (g n : Nat) : nextWf (execCopyHalt g n s) := by
  unfold execCopyHalt
  split
  · exact stutter_nextWf h
  · next x _ =>
    split
    · exact stutter_nextWf h
    · next op _ =>
      refine nextWf_ite (fun _ => stutter_nextWf h) fun _ => ?_
      have hw := runCopy_memoryWf h x op
      split
      · next heq =>
        rw [heq] at hw
        exact nextWf_ite (fun _ => nextWf_next (takePark_memoryWf (setCopy_memoryWf hw _ _ _) _ _)) fun _ => stutter_nextWf h
      · exact stutter_nextWf h

end

end Sys2Proof.Machine
end

section
/-! PROOFS. The operations on fitted regions keep the canonical form of the byte memories (log entry 7). -/
namespace Sys2Proof.Machine
open Sys2Proof.Laws

section
variable {s : State} (h : s.memoryWf = true)
include h

/-! ## Issue -/

theorem execRinst_nextWf (sh co cs : SReg) : nextWf (execRinst sh co cs s) := by
  refine issue_nextWf h fun x => ?_
  dsimp only
  refine effectWf_ite trivial ?_
  split
  · trivial
  · exact setGroup_wf h _

theorem regionIssue_nextWf (i : Instr) (kind : Nat) (sh cs : SReg) : nextWf (regionIssue i kind sh cs s) := by
  refine issue_nextWf h fun x => ?_
  dsimp only
  refine effectWf_ite trivial ?_
  split
  · trivial
  · split
    · trivial
    · exact setGroup_wf h _

theorem execRldg_nextWf (d a : VReg) (ord : MemOrder) (sc : Scope) : nextWf (execRldg d a ord sc s) := by
  unfold execRldg
  dsimp only
  refine issue_nextWf h fun x => ?_
  refine effectWf_ite trivial (effectWf_ite (endMembers_wf (setGroup_wf h _) _ _) (effectWf_ite trivial ?_))
  exact endMembers_wf (setGroup_wf h _) _ _

theorem execRstat_nextWf (d a b : SReg) : nextWf (execRstat d a b s) := by
  refine issue_nextWf h fun x => ?_
  dsimp only
  refine effectWf_ite trivial ?_
  split
  · trivial
  · exact effectWf_ite trivial (setGroup_wf h _)

/-! ## Arrival -/

theorem failFrop_optWf (g : Group) (op : UnitOp) (hdr : Option Nat) (c : CauseDetail) (idx kind va : Nat) : optWf (failFrop s g op hdr c idx kind va) := by
  refine optWf_map fun t ht => endFrop_memoryWf (emitRecord_wf ?_ _) _ _ _ _
  cases hdr with
  | none => exact optWf_some h t ht
  | some hd => exact setResult_optWf h _ _ _ _ t ht

theorem endWith_optWf (g : Group) (op : UnitOp) (hdr : Nat) (r : RResult) : optWf (endWith s g op hdr r) := finishFrop_optWf h _ _ _ _ _

theorem arriveRinst_optWf (g : Group) (op : UnitOp) : optWf (arriveRinst s g op) := by
  unfold arriveRinst
  dsimp only
  split
  · exact optWf_none
  · exact failFrop_optWf h _ _ _ _ _ _ _
  · split
    · exact failFrop_optWf h _ _ _ _ _ _ _
    · split
      · exact failFrop_optWf h _ _ _ _ _ _ _
      · exact optWf_ite (failFrop_optWf h _ _ _ _ _ _ _) (beginInstall_optWf h _ _ _)

theorem arriveRfit_optWf (g : Group) (op : UnitOp) (hdr : Nat) : optWf (arriveRfit s g op hdr) := by
  refine optWf_ite (failFrop_optWf h _ _ _ _ _ _ _) (optWf_ite (endWith_optWf h _ _ _ _) (optWf_ite (endWith_optWf h _ _ _ _) (optWf_ite
    (optWf_ite (failFrop_optWf h _ _ _ _ _ _ _) (startDemotion_optWf h _ _)) (optWf_ite ?_ (startRefit_optWf h _ _)))))
  exact optWf_map fun t ht => modifyRegion_memoryWf (setField_optWf h _ _ _ _ _ t ht) _ _

theorem arriveRdem_optWf (g : Group) (op : UnitOp) (hdr : Nat) : optWf (arriveRdem s g op hdr) :=
  optWf_ite (failFrop_optWf h _ _ _ _ _ _ _) (optWf_ite (endWith_optWf h _ _ _ _) (optWf_ite (failFrop_optWf h _ _ _ _ _ _ _) (startDemotion_optWf h _ _)))

theorem arriveRabort_optWf (g : Group) (op : UnitOp) (hdr : Nat) : optWf (arriveRabort s g op hdr) :=
  optWf_ite (failFrop_optWf h _ _ _ _ _ _ _) (optWf_ite (endWith_optWf h _ _ _ _) (optWf_bind fun t ht => endWith_optWf (abortRefit_optWf h _ t ht) _ _ _ _))

theorem noteUnit_memoryWf (g : Group) (op : UnitOp) : (noteUnit s g op).memoryWf = true := by
  refine ite_memoryWf h ?_
  split
  · exact h
  · exact modifyGroup_wf h _ _

theorem arriveOp_optWf (g : Group) (op : UnitOp) : optWf (arriveOp s g op) := by
  unfold arriveOp
  dsimp only
  split
  · exact arriveRinst_optWf h _ _
  · exact arriveRfit_optWf h _ _ _
  · exact arriveRdem_optWf h _ _ _
  · exact arriveRabort_optWf h _ _ _
  · exact optWf_none

theorem execSpringOperationArrival_nextWf (g n : Nat) : nextWf (execSpringOperationArrival g n s) := by
  unfold execSpringOperationArrival
  split
  · exact stutter_nextWf h
  · split
    · exact stutter_nextWf h
    · refine nextWf_ite (fun _ => stutter_nextWf h) fun _ => ?_
      split
      · next t ht => exact nextWf_next (modifyGroup_wf (arriveOp_optWf (noteUnit_memoryWf h _ _) _ _ t ht) _ _)
      · exact stutter_nextWf h

/-! ## The ends of installs, refits and demotions -/

theorem settleAllStores_memoryWf : (settleAllStores s).memoryWf = true := foldl_memoryWf (fun _ _ ht => settleStores_memoryWf ht _) _ h

theorem afterRegion_memoryWf (hdr : Nat) : (afterRegion s hdr).memoryWf = true := settle_memoryWf (settleAllStores_memoryWf (releaseHeld_memoryWf h _))

theorem failInstall_optWf (g : Group) (op : UnitOp) (hdr : Nat) (c : CauseDetail) (idx kind va : Nat) : optWf (failInstall s g op hdr c idx kind va) :=
  optWf_bind fun t ht => failFrop_optWf (setField_optWf (modifyRegion_memoryWf h _ _) _ _ _ _ _ t ht) _ _ _ _ _ _ _

theorem endInstall_optWf (g : Group) (op : UnitOp) (hdr : Nat) : optWf (endInstall s g op hdr) := by
  unfold endInstall
  dsimp only
  split
  · exact optWf_none
  · exact failInstall_optWf h _ _ _ _ _ _ _
  · refine optWf_bind fun s1 h1 => ?_
    have hw1 := trackedWrite_memoryWf h h1
    have hend : ∀ (elem : State → Nat → Fitted Nat) (e : InstallEnd), (if (op.words.getD 2 0).toNat = 0 then InstallEnd.complete s1
        else installFrom elem hdr (headerAt s.hbm hdr).points 0 0 s1) = e → installWf e := fun elem e he => by
      rw [← he]
      split
      · exact hw1
      · exact installFrom_wf _ _ _ _ _ hw1
    split
    · exact optWf_none
    · next t heq =>
      have hw : t.memoryWf = true := hend _ _ heq
      exact optWf_bind fun u hu => endWith_optWf (setField_optWf (modifyRegion_memoryWf hw _ _) _ _ _ _ _ u hu) _ _ _ _
    · next t idx left heq =>
      have hw : t.memoryWf = true := hend _ _ heq
      refine optWf_ite (failInstall_optWf hw _ _ _ _ _ _ _) ?_
      split
      · exact optWf_none
      · exact failInstall_optWf hw _ _ _ _ _ _ _
      · exact startDemotion_optWf (modifyRegion_memoryWf hw _ _) _ _
    · next t c idx heq =>
      have hw : t.memoryWf = true := hend _ _ heq
      exact failInstall_optWf hw _ _ _ _ _ _ _

theorem regionEvent_nextWf (hdr : Nat) {r : Option State} (hr : optWf r) : nextWf (regionEvent s hdr r) := by
  cases r with
  | none => exact stutter_nextWf h
  | some t => exact nextWf_next (afterRegion_memoryWf (hr t rfl) _)

theorem execInstallEnd_nextWf (hdr : Nat) : nextWf (execInstallEnd hdr s) :=
  nextWf_ite (fun _ => stutter_nextWf h) fun _ => regionEvent_nextWf h _ (optWf_bind fun _ _ => endInstall_optWf h _ _ _)

theorem execRefitCommit_nextWf (hdr : Nat) : nextWf (execRefitCommit hdr s) := by
  unfold execRefitCommit
  dsimp only
  split
  · exact stutter_nextWf h
  · exact nextWf_ite (fun _ => stutter_nextWf h) fun _ => nextWf_ite (fun _ => regionEvent_nextWf h _ (verifyRefit_optWf h _)) fun _ =>
      nextWf_ite (fun _ => stutter_nextWf h) fun _ => regionEvent_nextWf h _ (endRefit_optWf h _)

theorem execDemotionEnd_nextWf (hdr : Nat) : nextWf (execDemotionEnd hdr s) :=
  nextWf_ite (fun _ => stutter_nextWf h) fun _ => regionEvent_nextWf h _ (endDemotion_optWf h _)

theorem execRegionOperationCompletion_nextWf (g : Nat) : nextWf (execRegionOperationCompletion g s) := by
  unfold execRegionOperationCompletion
  split
  · exact stutter_nextWf h
  · split
    · exact stutter_nextWf h
    · split
      · exact stutter_nextWf h
      · refine nextWf_ite (fun _ => stutter_nextWf h) fun _ => ?_
        split
        · next t ht => exact nextWf_next (settle_memoryWf (refreshCounts_memoryWf (modifyGroup_wf (completionStore_optWf h _ _ _ _ _ _ _ _ t ht) _ _) _))
        · exact stutter_nextWf h

end

end Sys2Proof.Machine
end

section
/-! PROOFS. The channel instructions and the bind areas keep the canonical form of the byte memories (log entry 7). -/
namespace Sys2Proof.Machine
open Sys2Proof.Laws

section
variable {s : State} (h : s.memoryWf = true)
include h

/-! ## Bind areas -/

theorem putGraph_memoryWf (gr : Graph) : (putGraph s gr).memoryWf = true := h

theorem leaveOpen_optWf (gr : Graph) (r : Nat × Nat) : optWf (leaveOpen gr s r) := by
  refine optWf_map fun t ht => ?_
  have hw := captureLines_memoryWf h ht
  have hu : ({ t with hbm := t.hbm.forgetRange t.occasion r.1 r.2 } : State).nextOccasion.memoryWf = true :=
    memoryWf_same (memoryWf_setHbm hw (Memory.forgetRange_wf (memoryWf_hbm hw) _ _ _))
  exact ite_memoryWf (pin_memoryWf hu _) hu

theorem savePart_optWf (gr : Graph) (k : Nat) : optWf (savePart gr s k) := by
  unfold savePart
  split
  · exact optWf_some h
  · exact leaveOpen_optWf h _ _

theorem keepGraph_memoryWf (gr : Graph) : (keepGraph s gr).memoryWf = true := putGraph_memoryWf h _

theorem saveGraph_optWf (gr : Graph) : optWf (saveGraph s gr) :=
  optWf_map fun t ht => keepGraph_memoryWf (optWf_foldlM (fun _ _ ht => savePart_optWf ht _ _) _ h t ht) _

theorem saveOrPut_memoryWf (gr : Graph) : (saveOrPut s gr).memoryWf = true := getD_memoryWf (saveGraph_optWf h _) (putGraph_memoryWf h _)

theorem payOwed_memoryWf : (payOwed s).memoryWf = true :=
  foldl_memoryWf (fun _ _ ht => ite_memoryWf ht (getD_memoryWf (saveGraph_optWf ht _) ht)) _ h

theorem terminateStage_memoryWf (g : Group) : (terminateStage s g).memoryWf = true :=
  foldl_memoryWf (fun _ _ ht => ite_memoryWf ht (saveOrPut_memoryWf ht _)) _ h

theorem unbindGraphs_optWf (launch : Nat) : optWf (unbindGraphs s launch) := optWf_foldlM (fun _ _ ht => saveGraph_optWf ht _) _ h

theorem commitSlots_memoryWf (rin : BitVec 16) : (commitSlots s rin).memoryWf = true :=
  foldl_memoryWf (fun _ _ ht => ite_memoryWf ht (saveOrPut_memoryWf ht _)) _ h

/-! ## FIRE and FEND -/

theorem fireStage_wf (x : Issue) (pd : PReg) (gr : Graph) (k : Nat) : effectWf (fireStage s x pd gr k) := by
  unfold fireStage
  dsimp only
  refine effectWf_ite ?_ (effectWf_ite trivial (effectWf_ite trivial (effectWf_ite ?_ trivial)))
  · split
    · next t ht => exact setGroup_wf (saveGraph_optWf h _ t ht) _
    · trivial
  · split
    · next t ht => exact setGroup_wf (saveGraph_optWf h _ t ht) _
    · trivial

theorem execFire_nextWf (pd : PReg) (a : SReg) : nextWf (execFire pd a s) := by
  refine issue_nextWf h fun x => ?_
  dsimp only
  split
  · trivial
  · split
    · trivial
    · refine effectWf_ite trivial ?_
      split
      · trivial
      · exact effectWf_ite trivial (fireStage_wf h _ _ _ _)

theorem execFend_nextWf (a b : SReg) : nextWf (execFend a b s) := by
  refine issue_nextWf h fun x => ?_
  dsimp only
  split
  · trivial
  · split
    · trivial
    · split
      · trivial
      · split
        · trivial
        · split
          · next t ht => exact setGroup_wf (saveGraph_optWf h _ t ht) _
          · trivial

/-! ## SEND and RECV -/

omit h in
theorem copyLines_wf (g : Group) (l : List (Place × Place)) : ∀ (n : Nat) {s : State}, s.memoryWf = true → exceptWf (copyLines s g n l) := by
  induction l with
  | nil => exact fun _ _ h => exceptWf_ok h
  | cons p l ih =>
    intro n s h
    obtain ⟨p, q⟩ := p
    rw [copyLines]
    split
    · exact exceptWf_error _
    · next s2 h2 => exact ih _ (optWf_bind (fun s1 h1 => writeDesc_optWf (writePlace_memoryWf h h1) _ _ _) s2 h2)

omit h in
theorem copySlots_wf (g : Group) (src : List Place) (l : List (DWord × List Place)) : ∀ {s : State}, s.memoryWf = true → exceptWf (copySlots s g src l) := by
  induction l with
  | nil => exact fun h => exceptWf_ok h
  | cons p l ih =>
    intro s h
    obtain ⟨va, d⟩ := p
    rw [copySlots]
    split
    · exact exceptWf_error _
    · next t ht => exact ih (copyLines_wf _ _ _ h t ht)

theorem sent_optWf (x : Issue) (gr : Graph) (f : Firing) (c : Nat) (ks live late : List Nat) (pos : Nat → Nat) : optWf (sent s x gr f c ks live late pos) :=
  optWf_map fun t ht => modifyGroup_wf (saveGraph_optWf h _ t ht) _ _

theorem sendBody_wf (x : Issue) (va : DWord) (gr : Graph) (f : Firing) (o : FireOut) (ks : List Nat) : effectWf (sendBody s x va gr f o ks) := by
  unfold sendBody
  dsimp only
  split
  · trivial
  · trivial
  · trivial
  · trivial
  · refine effectWf_ite trivial (effectWf_ite trivial ?_)
    split
    · trivial
    · split
      · trivial
      · trivial
      · next t ht =>
        split
        · next u hu => exact sent_optWf (copySlots_wf _ _ _ h t ht) _ _ _ _ _ _ _ _ u hu
        · trivial

theorem execSend_nextWf (a b : SReg) : nextWf (execSend a b s) := by
  refine issue_nextWf h fun x => ?_
  dsimp only
  split
  · trivial
  · split
    · trivial
    · split
      · trivial
      · exact effectWf_ite trivial (effectWf_ite trivial (effectWf_ite trivial (sendBody_wf h _ _ _ _ _ _)))

theorem received_optWf (x : Issue) (pd : PReg) (gr : Graph) (f : Firing) (i : FireIn) (k p : Nat) : optWf (received s x pd gr f i k p) :=
  optWf_map fun t ht => modifyGroup_wf (saveGraph_optWf h _ t ht) _ _

theorem recvBody_wf (x : Issue) (pd : PReg) (va : DWord) (gr : Graph) (f : Firing) (i : FireIn) (k : Nat) : effectWf (recvBody s x pd va gr f i k) := by
  unfold recvBody
  dsimp only
  split
  · trivial
  · trivial
  · trivial
  · trivial
  · split
    · trivial
    · trivial
    · next t ht =>
      split
      · next u hu => exact received_optWf (copyLines_wf _ _ _ h t ht) _ _ _ _ _ _ _ u hu
      · trivial

theorem execRecv_nextWf (pd : PReg) (a b : SReg) : nextWf (execRecv pd a b s) := by
  refine issue_nextWf h fun x => ?_
  dsimp only
  split
  · trivial
  · split
    · trivial
    · split
      · exact effectWf_ite trivial (effectWf_ite (setGroup_wf h _) (effectWf_ite trivial (recvBody_wf h _ _ _ _ _ _ _)))
      · trivial

/-! ## Status words and binds at issue -/

theorem graphStatus_nextWf (i : Instr) (d a b : SReg) (f : Graph → Nat → Nat) : nextWf (graphStatus i d a b f s) :=
  issue_nextWf h fun _ => effectWf_ite trivial (setGroup_wf h _)

theorem bindIssue_nextWf (i : Instr) (kind : Nat) (sh co cs : SReg) : nextWf (bindIssue i kind sh co cs s) :=
  issue_nextWf h fun _ => effectWf_ite trivial (setGroup_wf h _)

end

end Sys2Proof.Machine
end

section
/-! PROOFS. Binds and the matrix engine keep the canonical form of the byte memories (log entry 7). -/
namespace Sys2Proof.Machine
open Sys2Proof.Laws

section
variable {s : State} (h : s.memoryWf = true)
include h

/-! ## Binds -/

omit h in
theorem exceptWf_map {ε : Type} {o : Except ε State} {f : State → State} (ho : exceptWf o) (hf : ∀ t, t.memoryWf = true → (f t).memoryWf = true) :
    exceptWf (o.map f) := by
  cases o with
  | error x => exact exceptWf_error x
  | ok t => exact exceptWf_ok (hf t (ho t rfl))

omit h in
theorem bindWrite_wf (g : Group) (ag : Agent) (core : Nat) (l : List DWord) : ∀ (va : Nat) {s : State}, s.memoryWf = true → exceptWf (bindWrite s g ag core va l) := by
  induction l with
  | nil => exact fun _ _ h => exceptWf_ok h
  | cons w l ih =>
    intro va s h
    rw [bindWrite]
    split
    · next t ht => exact ih _ (engineWrite_wf h _ _ _ _ _ ht)
    · exact exceptWf_error _
    · exact exceptWf_error _

theorem writeArea_wf (g : Group) (op : UnitOp) (gr : Graph) : exceptWf (writeArea s g op gr) := by
  unfold writeArea
  dsimp only
  split
  · exact exceptWf_error _
  · next t ht =>
    split
    · exact exceptWf_error _
    · next u hu =>
      have hw := bindWrite_wf _ _ _ _ _ (bindWrite_wf _ _ _ _ _ h t ht) u hu
      split
      · next v hv => exact exceptWf_ok (keepGraph_memoryWf (optWf_foldlM (fun _ _ ht => leaveOpen_optWf ht _ _) _ hw v hv) _)
      · exact exceptWf_error _

theorem endBind_memoryWf (g : Group) (op : UnitOp) (failed : Bool) : (endBind s g op failed).memoryWf = true := endFrop_memoryWf h _ _ _ _

theorem bindFails_memoryWf (g : Group) (op : UnitOp) (va : Option DWord) (kind : Nat) (c : CauseDetail) : (bindFails s g op va kind c).memoryWf = true :=
  ite_memoryWf (emitRecord_wf (endBind_memoryWf h _ _ _) _) (takePark_memoryWf (endBind_memoryWf h _ _ _) _ _)

theorem markFailed_optWf (g : Group) (op : UnitOp) (cause : Nat) (again : Bool) : optWf (markFailed s g op cause again) := by
  unfold markFailed
  dsimp only
  split
  · exact saveGraph_optWf h _
  · exact optWf_ite (optWf_some h) (saveGraph_optWf h _)

theorem bindOutcome_nextWf (g : Group) (op : UnitOp) (again : Bool) {r : Except BindStop State} (hr : exceptWf r) : nextWf (bindOutcome s g op again r) := by
  unfold bindOutcome
  split
  · next t => exact nextWf_next (endBind_memoryWf (hr t rfl) _ _ _)
  · exact stutter_nextWf h
  · split
    · next t ht => exact nextWf_next (bindFails_memoryWf (markFailed_optWf h _ _ _ _ t ht) _ _ _ _ _)
    · exact stutter_nextWf h

theorem beginBind_optWf (g : Group) (op : UnitOp) : optWf (beginBind s g op) := saveGraph_optWf (modifyGroup_wf h _ _) _

theorem bindGraph_wf (g : Group) (op : UnitOp) : exceptWf (bindGraph s g op) := by
  unfold bindGraph
  split
  · exact exceptWf_error _
  · exact exceptWf_map (writeArea_wf h _ _ _) fun _ ht => modifyGroup_wf ht _ _

theorem execBind_nextWf (g n : Nat) : nextWf (execBind g n s) := by
  unfold execBind
  split
  · exact stutter_nextWf h
  · split
    · exact stutter_nextWf h
    · refine nextWf_ite (fun _ => stutter_nextWf h) fun _ => nextWf_ite (fun _ => ?_) fun _ => bindOutcome_nextWf h _ _ _ (bindGraph_wf h _ _)
      split
      · next t ht => exact nextWf_next (beginBind_optWf h _ _ t ht)
      · exact stutter_nextWf h

omit h in
theorem putHeld_wf (ag : Agent) (l : List (Place × List Byte × Word)) : ∀ {s : State}, s.memoryWf = true → exceptWf (putHeld s ag l) := by
  induction l with
  | nil => exact fun h => exceptWf_ok h
  | cons p l ih =>
    intro s h
    obtain ⟨p, b, d⟩ := p
    rw [putHeld]
    split
    · next t ht => exact ih (engineLine_optWf h _ _ _ _ t ht)
    · exact exceptWf_error _

theorem rebindGraph_wf (g : Group) (op : UnitOp) (old : Graph) : exceptWf (rebindGraph s g op old) := by
  unfold rebindGraph
  split
  · exact exceptWf_error _
  · split
    · exact exceptWf_error _
    · split
      · exact exceptWf_error _
      · split
        · exact exceptWf_error _
        · next t ht => exact exceptWf_map (writeArea_wf (putHeld_wf _ _ h t ht) _ _ _) fun _ hu => modifyGroup_wf hu _ _

theorem arriveRebind_nextWf (g : Group) (op : UnitOp) : nextWf (arriveRebind s g op) := by
  unfold arriveRebind
  split
  · exact bindOutcome_nextWf h _ _ _ (exceptWf_error _)
  · refine nextWf_ite (fun _ => bindOutcome_nextWf h _ _ _ (exceptWf_error _)) fun _ => ?_
    split
    · exact bindOutcome_nextWf h _ _ _ (exceptWf_error _)
    · split
      · next t ht => exact nextWf_next (saveGraph_optWf (modifyGroup_wf h _ _) _ t ht)
      · exact stutter_nextWf h

theorem execRebind_nextWf (g n : Nat) : nextWf (execRebind g n s) := by
  unfold execRebind
  split
  · exact stutter_nextWf h
  · split
    · exact stutter_nextWf h
    · refine nextWf_ite (fun _ => stutter_nextWf h) fun _ => nextWf_ite (fun _ => arriveRebind_nextWf h _ _) fun _ => bindOutcome_nextWf h _ _ _ ?_
      split
      · exact exceptWf_error _
      · exact rebindGraph_wf h _ _ _

/-! ## Tiles and accumulators -/

theorem tldBody_wf (x : Issue) (w : Word) (reg fmt : Nat) (typed : Bool) (b : TileBlock) : effectWf (tldBody s x w reg fmt typed b) := by
  unfold tldBody
  split
  · trivial
  · split
    · trivial
    · refine effectWf_ite trivial ?_
      split
      · trivial
      · split
        · trivial
        · exact effectWf_ite trivial (setGroup_wf (memoryWf_same (t := s.nextOccasion) h) _)

theorem execTld_nextWf (ovr : BitVec 5) (ta : TReg) (mb : SReg) : nextWf (execTld ovr ta mb s) := by
  unfold execTld
  dsimp only
  refine issue_nextWf h fun x => ?_
  refine effectWf_ite ?_ (effectWf_ite (tldBody_wf h _ _ _ _ _ _) ?_)
  · split
    · trivial
    · exact effectWf_ite trivial (setGroup_wf h _)
  · split
    · trivial
    · trivial
    · exact effectWf_ite trivial (tldBody_wf h _ _ _ _ _ _)

theorem storeTile_wf (x : Issue) (b : TileBlock) (bits : Nat) (code : Nat × Nat → Nat) : effectWf (storeTile s x b bits code) := by
  unfold storeTile
  split
  · trivial
  · refine effectWf_ite trivial ?_
    split
    · trivial
    · exact effectWf_ite h (effectWf_ite trivial (setGroup_wf h _))

theorem execTstr_nextWf (ta : TReg) (mb : SReg) : nextWf (execTstr ta mb s) := by
  unfold execTstr
  dsimp only
  refine issue_nextWf h fun x => ?_
  refine effectWf_ite trivial ?_
  split
  · trivial
  · exact storeTile_wf h _ _ _ _

theorem execAld_nextWf (tag : ATag) (acc : AReg) (mb : SReg) : nextWf (execAld tag acc mb s) := by
  refine issue_nextWf h fun x => ?_
  dsimp only
  refine effectWf_ite trivial (effectWf_ite (setGroup_wf h _) ?_)
  split
  · trivial
  · refine effectWf_ite trivial ?_
    split
    · trivial
    · exact effectWf_ite trivial (setGroup_wf h _)

theorem execAst_nextWf (acc : AReg) (mb : SReg) : nextWf (execAst acc mb s) := by
  unfold execAst
  dsimp only
  refine issue_nextWf h fun x => ?_
  refine effectWf_ite trivial ?_
  split
  · trivial
  · exact storeTile_wf h _ _ _ _

theorem execTzero_nextWf (fmt : BitVec 5) (ta : TReg) : nextWf (execTzero fmt ta s) := issue_nextWf h fun _ => setGroup_wf h _

theorem execAzero_nextWf (tag : ATag) (acc : AReg) : nextWf (execAzero tag acc s) := issue_nextWf h fun _ => effectWf_ite trivial (setGroup_wf h _)

theorem execAmov_nextWf (acc asrc : AReg) : nextWf (execAmov acc asrc s) := issue_nextWf h fun _ => effectWf_ite trivial (setGroup_wf h _)

theorem execTtrn_nextWf (ta tb : TReg) : nextWf (execTtrn ta tb s) := by
  unfold execTtrn
  dsimp only
  refine issue_nextWf h fun x => ?_
  refine effectWf_ite trivial ?_
  split
  · trivial
  · exact setGroup_wf h _

theorem mmaIssue_nextWf (i : Instr) (acc : AReg) (ta tb : TReg) (mb : SReg) (dw : Bool) : nextWf (mmaIssue i acc ta tb mb dw s) := by
  refine issue_nextWf h fun x => ?_
  dsimp only
  refine effectWf_ite trivial ?_
  split
  · trivial
  · exact setGroup_wf h _

theorem execMmaCompletion_nextWf (g : Nat) : nextWf (execMmaCompletion g s) := by
  unfold execMmaCompletion
  split
  · exact stutter_nextWf h
  · split
    · exact stutter_nextWf h
    · exact nextWf_next (settle_memoryWf (setGroup_wf h _))

theorem execAsnap_nextWf (acc adst : AReg) (mb : SReg) : nextWf (execAsnap acc adst mb s) :=
  issue_nextWf h fun _ => effectWf_ite trivial (effectWf_ite trivial (setGroup_wf h _))

end

end Sys2Proof.Machine
end

section
/-! PROOFS. The frames of groups and Ponds, the end, the save and the restore of contexts, the privileged instructions and the commands on
contexts keep the canonical form of the byte memories (log entry 7). -/
namespace Sys2Proof.Machine
open Sys2Proof.Laws

/-- The canonical form, part by part. -/
theorem memoryWf_iff (s : State) : s.memoryWf = true ↔ (s.hbm.wf = true ∧ s.host.wf = true ∧ s.peer.wf = true ∧ s.work.pond.wf = true)
    ∧ (∀ c ∈ s.ctxs, c.snap.wf = true) ∧ (∀ x, s.snapCommitted = some x → x.memoryWf = true) ∧ (∀ x, s.snapPending = some x → x.memoryWf = true) := by
  have hopt : ∀ o : Option Snap, (match o with | some x => x.memoryWf | none => true) = true ↔ ∀ x, o = some x → x.memoryWf = true := by
    intro o
    cases o with
    | none => simp
    | some x => simp
  have hmem : (s.hbm.wf && s.host.wf && s.peer.wf && s.work.memoryWf && s.ctxs.all Ctx.memoryWf) = true
      ↔ (s.hbm.wf = true ∧ s.host.wf = true ∧ s.peer.wf = true ∧ s.work.pond.wf = true) ∧ ∀ c ∈ s.ctxs, c.snap.wf = true := by
    simp only [Bool.and_eq_true, List.all_eq_true, Work.memoryWf, Ctx.memoryWf, and_assoc]
  unfold State.memoryWf
  rw [Bool.and_eq_true, Bool.and_eq_true]
  exact (and_congr (and_congr hmem (hopt _)) (hopt _)).trans (by simp only [and_assoc])

/-- The canonical form of a snapshot is that of its Pond and of its contexts. -/
theorem Snap.memoryWf_iff (x : Snap) : x.memoryWf = true ↔ x.work.pond.wf = true ∧ ∀ c ∈ x.ctxs, c.snap.wf = true := by
  simp only [Snap.memoryWf, Bool.and_eq_true, List.all_eq_true, Work.memoryWf, Ctx.memoryWf]

section
variable {s : State} (h : s.memoryWf = true)
include h

theorem memoryWf_ctxs : ∀ c ∈ s.ctxs, c.snap.wf = true := ((memoryWf_iff s).mp h).2.1
theorem memoryWf_snapCommitted : ∀ x, s.snapCommitted = some x → x.memoryWf = true := ((memoryWf_iff s).mp h).2.2.1
theorem memoryWf_snapPending : ∀ x, s.snapPending = some x → x.memoryWf = true := ((memoryWf_iff s).mp h).2.2.2

/-- Other contexts, each of whose memories is canonical. -/
theorem memoryWf_setCtxs {l : List Ctx} (hl : ∀ c ∈ l, c.snap.wf = true) : ({ s with ctxs := l } : State).memoryWf = true := by
  obtain ⟨hm, -, hs⟩ := (memoryWf_iff s).mp h
  exact (memoryWf_iff _).mpr ⟨hm, hl, hs⟩

/-- A change of a context that gives it a canonical memory. -/
theorem modifyCtx_wf (n : Nat) (f : Ctx → Ctx) (hf : ∀ c, c.snap.wf = true → (f c).snap.wf = true) : (s.modifyCtx n f).memoryWf = true := by
  refine memoryWf_setCtxs h fun c hc => ?_
  obtain ⟨b, hb, rfl⟩ := List.mem_map.mp hc
  have hw := memoryWf_ctxs h b hb
  split
  · exact hf b hw
  · exact hw

/-! ## Frames -/

omit h in
theorem writeFrame_wf {m : Memory} (hm : m.wf = true) (occasion : Nat) (g : Group) (pa : Nat) : (writeFrame m occasion g pa).wf = true :=
  foldl_keeps (fun m : Memory => m.wf = true) _ (fun _ _ h => Memory.forgetRange_wf h _ _ _) _
    (Memory.forgetRange_wf (Memory.writeParts_wf (Memory.clearRange_wf hm _ _) _ _) _ _ _)

theorem saveFrame_memoryWf (base : Nat) (g : Group) : (saveFrame s base g).memoryWf = true :=
  modifyGroup_wf (memoryWf_setHbm h (writeFrame_wf (memoryWf_hbm h) _ _ _)) _ _

omit h in
theorem writeSegment_wf (s : State) (skip : List Nat) (pa core : Nat) {m : Memory} (hm : m.wf = true) (k : Nat) : (writeSegment s skip pa core m k).wf = true := by
  unfold writeSegment
  dsimp only
  split
  · exact hm
  · split
    · exact Memory.write_wf hm _ _
    · exact Memory.write_wf (Memory.copyFrom_wf (Memory.write_wf hm _ _) _ _ _ _) _ _

theorem savePond_memoryWf (skip : List Nat) (base ctx core : Nat) : (savePond s skip base ctx core).memoryWf = true :=
  memoryWf_setHbm h (foldl_keeps (fun m : Memory => m.wf = true) _ (fun _ _ hm => writeSegment_wf s _ _ _ hm _) _ (Memory.clearRange_wf (memoryWf_hbm h) _ _))

theorem saveContext_memoryWf (skip : List Nat) (base ctx : Nat) : (saveContext s skip base ctx).memoryWf = true :=
  memoryWf_same (foldl_memoryWf (fun _ _ ht => savePond_memoryWf ht _ _ _ _) (ctxCores s ctx)
    (foldl_memoryWf (fun _ _ ht => saveFrame_memoryWf ht _ _) (framedGroups s ctx) h))

theorem loadSegment_memoryWf (m : Memory) (pa core team k : Nat) : (loadSegment m pa core team s k).memoryWf = true := by
  have hpond : (loadSegment m pa core team s k).work.pond.wf = true := by
    unfold loadSegment
    dsimp only [segPut]
    split
    · exact Memory.copyFrom_wf (memoryWf_pond h) _ _ _ _
    · exact Memory.forgetRange_wf (memoryWf_pond h) _ _ _
  exact memoryWf_setWork h hpond

/-! ## The end of groups and contexts -/

theorem checkPhases_memoryWf (g : Group) : (checkPhases s g).memoryWf = true := h

theorem terminateGroup_memoryWf (uid : Nat) : (terminateGroup s uid).memoryWf = true := by
  unfold terminateGroup
  split
  · exact h
  · exact settle_memoryWf (checkPhases_memoryWf (terminateStage_memoryWf (setGroup_wf h _) _) _)

theorem reap_memoryWf : (reap s).memoryWf = true :=
  memoryWf_same (memoryWf_setCtxs h (l := s.ctxs.filter fun c => !gone s c) fun c hc => memoryWf_ctxs h c (List.mem_of_mem_filter hc))

theorem dropWork_memoryWf (ctx : Nat) : ({ s with work := dropWork s ctx } : State).memoryWf = true := memoryWf_setWork h (memoryWf_pond h)

theorem endNow_memoryWf (ctx : Nat) : (endNow s ctx).memoryWf = true :=
  reap_memoryWf (settle_memoryWf (modifyCtx_memoryWf (dropWork_memoryWf h ctx) _ _ fun _ => rfl))

theorem endContext_memoryWf (ctx : Nat) : (endContext s ctx).memoryWf = true := by
  unfold endContext
  split
  · exact ite_memoryWf (modifyCtx_memoryWf h _ _ fun _ => rfl) (endNow_memoryWf h _)
  · exact h

theorem queueEntry_memoryWf (g : Group) (p : Park) : (queueEntry s g p).memoryWf = true := modifyCtx_memoryWf h _ _ fun _ => rfl

theorem releasePark_memoryWf (uid action : Nat) (mask : DWord) : (releasePark s uid action mask).memoryWf = true := by
  unfold releasePark
  split
  · exact h
  · split
    · exact h
    · dsimp only
      split
      · exact queueEntry_memoryWf (setGroup_wf h _) _ _
      · exact setGroup_wf h _

theorem applyAction_memoryWf (g : Group) (action : Nat) (mask : DWord) : (applyAction s g action mask).memoryWf = true :=
  ite_memoryWf (terminateGroup_memoryWf h _) (ite_memoryWf (endContext_memoryWf h _) (settle_memoryWf (releasePark_memoryWf h _ _ _)))

/-! ## Commands -/

theorem cmdEnd_memoryWf (ok : Bool) : (cmdEnd s ok).memoryWf = true := h

theorem command_nextWf (code : Nat) {f : State → Option State} (hf : optWf (f s)) : nextWf (command code f s) := by
  unfold command
  refine nextWf_ite (fun _ => stutter_nextWf h) fun _ => ?_
  split
  · next t ht => exact nextWf_next (cmdEnd_memoryWf (hf t ht) _)
  · exact nextWf_next (cmdEnd_memoryWf h _)

theorem execDestroy_nextWf : nextWf (execDestroy s) := command_nextWf h _ (optWf_map fun _ _ => endContext_memoryWf h _)

theorem execPreempt_nextWf : nextWf (execPreempt s) := by
  unfold execPreempt
  refine nextWf_ite (fun _ => stutter_nextWf h) fun _ => ?_
  split
  · exact nextWf_next (cmdEnd_memoryWf h _)
  · split
    · exact nextWf_next (modifyCtx_memoryWf h _ _ fun _ => rfl)
    · exact stutter_nextWf h
    · exact nextWf_next (cmdEnd_memoryWf h _)

/-! ## Saving a context -/

theorem freePond_memoryWf (ctx : Nat) : (freePond s ctx).memoryWf = true := h

theorem endPreempt_memoryWf (ctx : Nat) : (endPreempt s ctx).memoryWf = true := ite_memoryWf (cmdEnd_memoryWf h _) h

theorem savedContext_memoryWf (c : Ctx) : (savedContext s c).memoryWf = true :=
  modifyCtx_memoryWf (freePond_memoryWf (saveContext_memoryWf h _ _ _) _) _ _ fun _ => rfl

theorem execContextSave_nextWf (ctx : Nat) : nextWf (execContextSave ctx s) := by
  unfold execContextSave
  split
  · exact stutter_nextWf h
  · exact nextWf_ite (fun _ => stutter_nextWf h) fun _ => nextWf_next (endPreempt_memoryWf (ite_memoryWf (endNow_memoryWf (savedContext_memoryWf h _) _)
      (savedContext_memoryWf h _)) _)

/-! ## Restoring a context -/

theorem moveContext_memoryWf (ps : List Placement) (ctx : Nat) : (moveContext s ps ctx).memoryWf = true := by
  have hw : ({ s with work := (moveContext s ps ctx).work, moveCount := s.moveCount + 1 } : State).memoryWf = true :=
    memoryWf_same (memoryWf_setWork (w := (moveContext s ps ctx).work) h (memoryWf_pond (s := s) h))
  exact modifyCtx_memoryWf hw ctx (fun c => { c with moves := c.moves ++ [s.moveCount + 1] }) fun _ => rfl

theorem loadGroups_memoryWf (base ctx : Nat) : (loadGroups s base ctx).memoryWf = true := h

theorem loadTeam_memoryWf (m : Memory) (base : Nat) (t : Team × Nat) : (loadTeam m base s t).memoryWf = true :=
  foldl_memoryWf (fun _ _ ht => loadSegment_memoryWf ht _ _ _ _ _) _ h

theorem loadPonds_memoryWf (old : State) (base ctx : Nat) : (loadPonds old s base ctx).memoryWf = true :=
  foldl_memoryWf (fun _ _ ht => loadTeam_memoryWf ht _ _ _) _ h

theorem restoreAction_memoryWf (uid : Nat) : (restoreAction s uid).memoryWf = true := by
  unfold restoreAction
  split
  · exact h
  · dsimp only
    split
    · exact ite_memoryWf (terminateGroup_memoryWf (setGroup_wf h _) _) (ite_memoryWf (endContext_memoryWf (setGroup_wf h _) _) (setGroup_wf h _))
    · exact ite_memoryWf (setGroup_wf h _) (applyAction_memoryWf (setGroup_wf h _) _ _ _)

omit h in
theorem Snap.shift_memoryWf {x : Snap} (hx : x.memoryWf = true) (ctx ticks : Nat) : (x.shift ctx ticks).memoryWf = true := hx

theorem shiftWatchdogs_memoryWf (ctx from_ : Nat) : (shiftWatchdogs s ctx from_).memoryWf = true := by
  obtain ⟨hm, hc, hsc, hsp⟩ := (memoryWf_iff s).mp h
  refine (memoryWf_iff _).mpr ⟨hm, hc, fun x hx => ?_, fun x hx => ?_⟩
  · obtain ⟨y, hy, rfl⟩ := Option.map_eq_some_iff.mp hx
    exact Snap.shift_memoryWf (hsc y hy) _ _
  · obtain ⟨y, hy, rfl⟩ := Option.map_eq_some_iff.mp hx
    exact Snap.shift_memoryWf (hsp y hy) _ _

theorem restoreContext_optWf (c : Ctx) (ps : List Placement) : optWf (restoreContext s c ps) := by
  unfold restoreContext
  dsimp only
  refine optWf_ite optWf_none (optWf_some (settle_memoryWf (foldl_memoryWf (fun _ _ ht => restoreAction_memoryWf ht _) _ ?_)))
  have hload := loadPonds_memoryWf (moveContext_memoryWf (loadGroups_memoryWf h c.saBase c.num) ps c.num) s c.saBase c.num
  exact shiftWatchdogs_memoryWf (modifyCtx_memoryWf hload c.num (fun c => { c with state := .running }) fun _ => rfl) c.num c.savedAt

theorem execRestore_nextWf (ps : List Placement) : nextWf (execRestore ps s) := by
  unfold execRestore
  refine nextWf_ite (fun _ => stutter_nextWf h) fun _ => ?_
  split
  · exact nextWf_next (cmdEnd_memoryWf h _)
  · refine nextWf_ite (fun _ => nextWf_next (cmdEnd_memoryWf h _)) fun _ => ?_
    split
    · next t ht => exact nextWf_next (cmdEnd_memoryWf (restoreContext_optWf h _ _ t ht) _)
    · exact stutter_nextWf h

theorem execWatchdog_nextWf (l : Nat) : nextWf (execWatchdog l s) := by
  unfold execWatchdog
  split
  · exact stutter_nextWf h
  · exact nextWf_ite (fun _ => stutter_nextWf h) fun _ => nextWf_next (modifyCtx_memoryWf (emitRecord_wf h _) _ _ fun _ => rfl)

end

end Sys2Proof.Machine
end

section
/-! PROOFS. The privileged instructions, and the commands on contexts, keep the canonical form of the byte memories (log entry 7). -/
namespace Sys2Proof.Machine
open Sys2Proof.Laws

/-- What the body of a privileged instruction answers has canonical memories. -/
def privWf : Except Effect (State × Nat) → Prop
  | .error e => effectWf e
  | .ok r => r.1.memoryWf = true

theorem privWf_ite {c : Prop} [Decidable c] {a b : Except Effect (State × Nat)} (ha : privWf a) (hb : privWf b) : privWf (if c then a else b) := by
  split
  · exact ha
  · exact hb

section
variable {s : State} (h : s.memoryWf = true)
include h

/-! ## RESUME, GSAVE and GLOAD -/

theorem putStatus_memoryWf (x : Issue) (d : VReg) (code : Nat) : (putStatus s x d code).memoryWf = true := modifyGroup_wf h _ _

theorem privileged_nextWf (i : Instr) (d : VReg) {body : State → Issue → Except Effect (State × Nat)} (hb : ∀ x, privWf (body s x)) :
    nextWf (privileged i d body s) := by
  refine issue_nextWf h fun x => effectWf_ite trivial ?_
  have hx := hb x
  generalize body s x = r at hx
  cases r with
  | error e => exact hx
  | ok r => exact putStatus_memoryWf hx _ _ _

theorem execResume_nextWf (d a b : VReg) : nextWf (execResume d a b s) := by
  refine privileged_nextWf h _ _ fun x => ?_
  dsimp only
  refine privWf_ite h ?_
  split
  · exact h
  · split
    · exact h
    · exact privWf_ite h (privWf_ite h (privWf_ite h (applyAction_memoryWf h _ _ _)))

theorem execGsave_nextWf (d b : VReg) : nextWf (execGsave d b s) := by
  refine privileged_nextWf h _ _ fun x => ?_
  dsimp only
  refine privWf_ite h ?_
  split
  · exact h
  · exact privWf_ite trivial (memoryWf_same (modifyGroup_wf (saveFrame_memoryWf h _ _) _ _))

theorem execGload_nextWf (d b : VReg) : nextWf (execGload d b s) := by
  refine privileged_nextWf h _ _ fun x => ?_
  dsimp only
  refine privWf_ite h ?_
  split
  · exact h
  · exact privWf_ite trivial (privWf_ite h (privWf_ite h (memoryWf_same (setGroup_wf h _))))

/-! ## Fault queues -/

theorem execFaultQueueEntryWrite_nextWf (ctx : Nat) : nextWf (execFaultQueueEntryWrite ctx s) := by
  unfold execFaultQueueEntryWrite
  split
  · exact stutter_nextWf h
  · split
    · exact stutter_nextWf h
    · exact nextWf_ite (fun _ => stutter_nextWf h) fun _ => nextWf_next (modifyCtx_memoryWf (writeHbm_memoryWf h _ _) _ _ fun _ => rfl)

theorem popEntry_memoryWf (ctx : Nat) : (popEntry s ctx).memoryWf = true := modifyCtx_memoryWf h _ _ fun _ => rfl

theorem storeNow_wf (g : Group) (va : DWord) (data : List Byte) : fittedWf (storeNow s g va data) := by
  intro t ht
  unfold storeNow at ht
  split at ht
  · cases ht
  · split at ht
    · cases ht
    · split at ht
      · cases ht
      · cases ht
      · exact engineStore_wf h _ _ _ _ ht

theorem execFqpop_nextWf (d a b : VReg) : nextWf (execFqpop d a b s) := by
  refine privileged_nextWf h _ _ fun x => ?_
  dsimp only
  split
  · exact h
  · split
    · exact h
    · split
      · trivial
      · trivial
      · next t ht => exact popEntry_memoryWf (storeNow_wf h _ _ _ t ht) _

theorem execCmdFqpop_nextWf : nextWf (execCmdFqpop s) := by
  refine command_nextWf h _ ?_
  dsimp only
  split
  · exact optWf_none
  · exact optWf_ite optWf_none (optWf_map fun _ _ => popEntry_memoryWf (writeHbm_memoryWf h _ _) _)

/-! ## INVAL and RETIRE -/

theorem autoResume_memoryWf (l : List Nat) : (autoResume s l).memoryWf = true :=
  settle_memoryWf (foldl_memoryWf (fun _ _ ht => releasePark_memoryWf ht _ _ _) l h)

theorem execInval_nextWf : nextWf (execInval s) := by
  refine command_nextWf h _ ?_
  dsimp only
  split
  · exact optWf_none
  · exact optWf_some (autoResume_memoryWf (modifyCtx_wf h _ _ fun _ _ => memoryWf_hbm h) _)

theorem execRetire_nextWf : nextWf (execRetire s) := command_nextWf h _ (optWf_ite (optWf_some h) optWf_none)

end

end Sys2Proof.Machine
end

section
/-! PROOFS. Leases, peers and collectives keep the canonical form of the byte memories (log entry 7). -/
namespace Sys2Proof.Machine
open Sys2Proof.Laws

section
variable {s : State} (h : s.memoryWf = true)
include h

/-! ## Leases -/

theorem completeClop_optWf (g : Group) (op : UnitOp) (outcome cause : Nat) : optWf (completeClop s g op outcome cause) :=
  optWf_ite optWf_none (optWf_map fun t ht => settle_memoryWf (refreshCounts_memoryWf (modifyGroup_wf (completionStore_optWf h _ _ _ _ _ _ _ _ t ht) _ _) _))

theorem pushClop_memoryWf (x : Issue) (kind scope : Nat) (words : List DWord) (comp : Option DWord) : (pushClop s x kind scope words comp).memoryWf = true :=
  setGroup_wf h _

omit h in
theorem stopEffect_wf (x : Issue) (e : IssueStop) : effectWf (stopEffect x e) := by
  cases e with
  | wait => trivial
  | fault engine kind va c => trivial

theorem modifyLease_memoryWf (lender : Bool) (dev num : Nat) (f : Lease → Lease) : (modifyLease s lender dev num f).memoryWf = true := h

theorem execLease_nextWf (sh cs : SReg) : nextWf (execLease sh cs s) := by
  refine issue_nextWf h fun x => ?_
  dsimp only
  refine effectWf_ite trivial ?_
  split
  · exact stopEffect_wf _ _
  · refine effectWf_ite trivial ?_
    split
    · trivial
    · exact pushClop_memoryWf h _ _ _ _ _

theorem noticeStore_optWf (l : Lease) : optWf (noticeStore s l) := by
  unfold noticeStore
  split
  · exact optWf_some h
  · split
    · exact optWf_some h
    · split
      · exact optWf_some (emitRecord_wf h _)
      · exact writePlace_optWf h _ _ _

theorem noticeAgain_memoryWf : (noticeAgain s).memoryWf = true :=
  foldl_memoryWf (fun _ _ ht => ite_memoryWf (getD_memoryWf (noticeStore_optWf ht _) ht) ht) _ h

theorem watchLease_optWf (g : Group) (op : UnitOp) (l : Lease) : optWf (watchLease s g op l) :=
  optWf_ite (noticeStore_optWf (modifyLease_memoryWf h _ _ _ _) _) (optWf_some (modifyLease_memoryWf h _ _ _ _))

theorem performLease_optWf (g : Group) (op : UnitOp) : optWf (performLease s g op) := by
  unfold performLease
  dsimp only
  split
  · exact optWf_some h
  · exact optWf_ite (watchLease_optWf h _ _ _) (optWf_ite (optWf_some h) (optWf_ite optWf_none (optWf_some (modifyLease_memoryWf h _ _ _ _))))

theorem optNext_wf {o : Option State} : optWf o → nextWf (match o with
    | some t => .next t
    | none => stutter s) := by
  cases o with
  | some t => exact fun ho => nextWf_next (ho t rfl)
  | none => exact fun _ => stutter_nextWf h

theorem execLeaseCompletion_nextWf (g : Nat) : nextWf (execLeaseCompletion g s) := by
  unfold execLeaseCompletion
  split
  · exact stutter_nextWf h
  · split
    · exact stutter_nextWf h
    · exact nextWf_ite (fun _ => stutter_nextWf h) fun _ => optNext_wf h (optWf_bind fun t ht => completeClop_optWf (performLease_optWf h _ _ t ht) _ _ _ _)

theorem execLeaseNotice_nextWf (dev : BitVec 10) (num : BitVec 16) (notice : DWord) : nextWf (execLeaseNotice dev num notice s) := by
  unfold execLeaseNotice
  split
  · exact stutter_nextWf h
  · refine nextWf_ite (fun _ => stutter_nextWf h) fun _ => ?_
    dsimp only
    exact optNext_wf h (noticeStore_optWf (modifyLease_memoryWf h _ _ _ _) _)

theorem execLeaseDeadline_nextWf (dev : BitVec 10) (num : BitVec 16) : nextWf (execLeaseDeadline dev num s) := by
  unfold execLeaseDeadline
  split
  · exact stutter_nextWf h
  · exact nextWf_ite (fun _ => stutter_nextWf h) fun _ =>
      nextWf_next (foldl_memoryWf (fun _ _ ht => endContext_memoryWf (emitRecord_wf ht _) _) _ (modifyLease_memoryWf h _ _ _ _))

theorem execLeaseReleaseAtLender_nextWf (dev : BitVec 10) (num : BitVec 16) : nextWf (execLeaseReleaseAtLender dev num s) := nextWf_next h

theorem leaseCommand_nextWf (op : Nat) {f : State → List DWord → Option State} (hf : ∀ w, optWf (f s w)) : nextWf (leaseCommand op f s) :=
  nextWf_ite (fun _ => command_nextWf h _ optWf_none) fun _ => nextWf_ite (fun _ => stutter_nextWf h) fun _ => command_nextWf h _ (hf _)

theorem execCmdLeaseGrant_nextWf : nextWf (execCmdLeaseGrant s) := leaseCommand_nextWf h _ fun _ => optWf_ite (optWf_some h) optWf_none

theorem execCmdLeaseRevoke_nextWf : nextWf (execCmdLeaseRevoke s) := by
  refine leaseCommand_nextWf h _ fun w => ?_
  dsimp only
  split
  · exact optWf_none
  · exact optWf_ite optWf_none (optWf_some (modifyLease_memoryWf h _ _ _ _))

theorem execCmdLeaseRegister_nextWf : nextWf (execCmdLeaseRegister s) := leaseCommand_nextWf h _ fun _ => optWf_ite optWf_none (optWf_some h)

/-! ## Routes and peers -/

theorem execNoRoute_nextWf (dev : BitVec 10) : nextWf (execNoRoute dev s) := nextWf_ite (fun _ => stutter_nextWf h) fun _ => nextWf_next h

theorem execRouteRegained_nextWf (dev : BitVec 10) : nextWf (execRouteRegained dev s) := nextWf_next h

theorem newWrite_memoryWf (pa : Nat) (data : List Byte) : (newWrite s pa data).memoryWf = true := hbmWrite_memoryWf (s := replaceDeferred s (.hbm pa) data.length) h pa data

theorem peerArrives_optWf (acc : PeerAccess) (data : List Byte) : optWf (peerArrives s acc data) :=
  optWf_ite (trackedWrite_optWf h _ _) (optWf_some (newWrite_memoryWf h _ _))

theorem execPeerAccessArrival_nextWf (acc : PeerAccess) : nextWf (execPeerAccessArrival acc s) := by
  unfold execPeerAccessArrival
  dsimp only
  refine nextWf_ite (fun _ => stutter_nextWf h) fun _ => optNext_wf h (optWf_bind fun t ht => ?_)
  have hw := peerArrives_optWf h _ _ t ht
  split
  · exact writeDesc_optWf hw _ _ _
  · exact optWf_some hw

/-! ## Collectives -/

theorem execColl_nextWf (sh co cs : SReg) : nextWf (execColl sh co cs s) := by
  refine issue_nextWf h fun x => ?_
  dsimp only
  refine effectWf_ite trivial ?_
  split
  · exact stopEffect_wf _ _
  · split
    · trivial
    · split
      · exact stopEffect_wf _ _
      · exact pushClop_memoryWf h _ _ _ _ _

theorem setClop_memoryWf (g seq : Nat) (f : UnitOp → UnitOp) : (setClop s g seq f).memoryWf = true := modifyGroup_wf h _ _

theorem endColl_memoryWf (g : Group) (op : UnitOp) (cause k kind : Nat) : (endColl s g op cause k kind).memoryWf = true :=
  ite_memoryWf (setClop_memoryWf h _ _ _) (emitRecord_wf (setClop_memoryWf h _ _ _) _)

theorem execCollReadyPassed_nextWf (g n : Nat) : nextWf (execCollReadyPassed g n s) := by
  unfold execCollReadyPassed
  split
  · exact stutter_nextWf h
  · split
    · exact stutter_nextWf h
    · refine nextWf_ite (fun _ => stutter_nextWf h) fun _ => nextWf_ite (fun _ => nextWf_next (setClop_memoryWf h _ _ _)) fun _ => ?_
      split
      · exact stutter_nextWf h
      · exact nextWf_next (endColl_memoryWf h _ _ _ _ _)
      · exact nextWf_ite (fun _ => nextWf_next (setClop_memoryWf h _ _ _)) fun _ => stutter_nextWf h

omit h in
/-- What the written part of a destination leaves has canonical memories. -/
def Written.memoryWf : Written → Prop
  | .all s | .stopped s _ _ | .waits s _ _ => s.memoryWf = true

omit h in
theorem writeDest_wf (g : Group) (op : UnitOp) (same : Bool) (src : List Nat) (part : Nat) (l : List (List Byte)) : ∀ (n : Nat) {s : State},
    s.memoryWf = true → (writeDest g op same src part n l s).memoryWf := by
  induction l with
  | nil => exact fun _ _ h => h
  | cons b l ih =>
    intro n s h
    rw [writeDest]
    split
    · exact h
    · dsimp only
      split
      · exact h
      · next t ht => exact ih _ (writePlace_optWf h _ _ _ t ht)

theorem finishColl_memoryWf (g : Group) (op : UnitOp) (cause k kind : Nat) : (finishColl s g op cause k kind).memoryWf = true :=
  getD_memoryWf (completeClop_optWf (endColl_memoryWf h _ _ _ _ _) _ _ _ _) (endColl_memoryWf h _ _ _ _ _)

theorem writeOut_memoryWf (g : Group) (op : UnitOp) (n : Nat) (rest : List (List Byte)) : (writeOut s g op n rest).memoryWf = true := by
  unfold writeOut
  dsimp only
  have hw := fun same src part => writeDest_wf g op same src part rest n h
  generalize (op.words.getD 0 0 == op.words.getD 1 0) = same
  generalize (if same = true then [] else _ : List Nat) = src
  have hd := hw same src (collPart (recField op.words 4 53 3))
  revert hd
  cases writeDest g op same src (collPart (recField op.words 4 53 3)) n rest s with
  | all t =>
    intro hd
    dsimp only
    exact finishColl_memoryWf (memoryWf_same (t := t.nextOccasion) hd) _ _ _ _ _
  | stopped t c byte =>
    intro hd
    dsimp only
    exact finishColl_memoryWf (memoryWf_same (t := t.nextOccasion) hd) _ _ _ _ _
  | waits t m l =>
    intro hd
    dsimp only
    exact setClop_memoryWf hd _ _ _

theorem exchange_optWf (g : Group) (op : UnitOp) (x : Exchange) : optWf (exchange s g op x) := by
  unfold exchange
  dsimp only
  split
  · exact optWf_none
  · exact optWf_some (finishColl_memoryWf h _ _ _ _ _)
  · exact optWf_some (writeOut_memoryWf h _ _ _ _)

theorem execCollectiveCompletion_nextWf (g : Nat) (x : Exchange) : nextWf (execCollectiveCompletion g x s) := by
  unfold execCollectiveCompletion
  split
  · exact stutter_nextWf h
  · split
    · exact stutter_nextWf h
    · dsimp only
      refine optNext_wf h (optWf_ite optWf_none ?_)
      split
      · exact completeClop_optWf h _ _ _ _
      · refine optWf_ite (optWf_some (finishColl_memoryWf h _ _ _ _ _)) (optWf_ite (optWf_some (finishColl_memoryWf h _ _ _ _ _)) ?_)
        split
        · exact optWf_some (writeOut_memoryWf h _ _ _ _)
        · exact optWf_ite optWf_none (exchange_optWf h _ _ _)

theorem execClarb_nextWf (d a : SReg) : nextWf (execClarb d a s) :=
  issue_nextWf h fun _ => ite_memoryWf (setGroup_wf h _) (modifyCtx_memoryWf (setGroup_wf h _) _ _ fun _ => rfl)

theorem execClstat_nextWf (d b : SReg) : nextWf (execClstat d b s) := issue_nextWf h fun _ => setGroup_wf h _

end

end Sys2Proof.Machine
end

section
/-! PROOFS. Seals and the recovery of a device keep the canonical form of the byte memories (log entry 7). -/
namespace Sys2Proof.Machine
open Sys2Proof.Laws

section
variable {s : State} (h : s.memoryWf = true)
include h

/-! ## Requests, triggers and decisions -/

theorem requestSeal_memoryWf : (requestSeal s).memoryWf = true := ite_memoryWf h (ite_memoryWf h h)

theorem execSeal_nextWf (pdead : Bool) : nextWf (execSeal pdead s) := issue_nextWf h fun _ => effectWf_ite trivial h

theorem execSealreq_nextWf (d : SReg) : nextWf (execSealreq d s) := issue_nextWf h fun _ => requestSeal_memoryWf (setGroup_wf h _)

theorem execRvrd_nextWf (d b : SReg) : nextWf (execRvrd d b s) := issue_nextWf h fun _ => setGroup_wf h _

theorem execSealPeriod_nextWf : nextWf (execSealPeriod s) := nextWf_ite (fun _ => nextWf_next (requestSeal_memoryWf h)) fun _ => stutter_nextWf h

theorem execStallLimit_nextWf : nextWf (execStallLimit s) := by
  unfold execStallLimit
  split
  · exact nextWf_ite (fun _ => nextWf_next (requestSeal_memoryWf h)) fun _ => stutter_nextWf h
  · exact stutter_nextWf h

theorem execSealTrigger_nextWf : nextWf (execSealTrigger s) := nextWf_ite (fun _ => nextWf_next h) fun _ => stutter_nextWf h

theorem execReady_nextWf : nextWf (execReady s) := nextWf_ite (fun _ => nextWf_next h) fun _ => stutter_nextWf h

theorem execSealTimeout_nextWf : nextWf (execSealTimeout s) := nextWf_ite (fun _ => nextWf_next h) fun _ => stutter_nextWf h

theorem execRintagAgeing_nextWf : nextWf (execRintagAgeing s) := nextWf_next h

theorem noteLogs_memoryWf : (noteLogs s).memoryWf = true := foldl_memoryWf (fun s die ht => (noteOccupancy_memoryWf s die).trans ht) _ h

/-- Without a pending seal. -/
theorem memoryWf_dropPending : ({ s with snapPending := none } : State).memoryWf = true := by
  obtain ⟨hm, hc, hsc, -⟩ := (memoryWf_iff s).mp h
  exact (memoryWf_iff _).mpr ⟨hm, hc, hsc, fun x hx => by cases hx⟩

theorem endSeal_memoryWf : (endSeal s).memoryWf = true := h

theorem abortSeal_memoryWf : (abortSeal s).memoryWf = true := by
  have ht : (endSeal { s with snapPending := none, domain := { s.domain with rin := rinAfterAbort s } }).memoryWf = true :=
    memoryWf_same (memoryWf_dropPending h)
  exact noteLogs_memoryWf (ite_memoryWf ht ht)

theorem execAbort_nextWf (r : BitVec 16) : nextWf (execAbort r s) := nextWf_ite (fun _ => nextWf_next (abortSeal_memoryWf h)) fun _ => stutter_nextWf h

/-! ## PREPARE -/

theorem sealTaken_memoryWf : (sealTaken s).memoryWf = true := h

theorem sealContext_memoryWf (skip : List Nat) (c : Ctx) : (sealContext skip s c).memoryWf = true :=
  ite_memoryWf (memoryWf_setHbm h (copyRegion_wf (memoryWf_hbm h) _ _)) (saveContext_memoryWf h _ _ _)

theorem sealSnap_memoryWf {w : Work} (hw : w.pond.wf = true) (r : BitVec 16) (heads : List Word) :
    ({ r := r, work := w, ctxs := sealedCtxs s, heads := heads } : Snap).memoryWf = true :=
  (Snap.memoryWf_iff _).mpr ⟨hw, fun c hc => memoryWf_ctxs h c (List.mem_of_mem_filter hc)⟩

theorem execPrepare_nextWf (r : BitVec 16) : nextWf (execPrepare r s) := by
  refine nextWf_ite (fun _ => stutter_nextWf h) fun _ => nextWf_next (settle_memoryWf ?_)
  have ht := sealTaken_memoryWf h
  have hf := foldl_memoryWf (f := sealContext (deadPonds s)) (fun _ c ht => sealContext_memoryWf ht _ c) (sealedCtxs (sealTaken s)) ht
  obtain ⟨⟨-, hhost, hpeer, hpond⟩, hctxs, hsc, -⟩ := (memoryWf_iff _).mp ht
  have hhbm := memoryWf_hbm hf
  have hfpond := memoryWf_pond hf
  refine (memoryWf_iff _).mpr ⟨⟨hhbm, hhost, hpeer, hpond⟩, hctxs, hsc, fun x hx => ?_⟩
  cases hx
  exact sealSnap_memoryWf ht hfpond _ _

/-! ## COMMIT -/

theorem commitBytes_memoryWf (p : Target × List Byte) : (commitBytes s p).memoryWf = true :=
  performOutside_memoryWf (s := { s with undo := s.undo.map (Undo.withBytes p.1 p.2) }) h _ _

theorem commitDesc_memoryWf (t : Target) (x : Word) : (commitDesc s t x).memoryWf = true :=
  descOutside_memoryWf (s := { s with undo := s.undo.map (Undo.withDesc t (descStored x)) }) h _ _

theorem patchUndo_memoryWf (rin : BitVec 16) (f : Undo → Undo) : (patchUndo s rin f).memoryWf = true := h

theorem performDeferred_memoryWf (d : Deferred) : (performDeferred s d).memoryWf = true := by
  have ht : (if d.home then s
      else if d.desc then
        (if d.stale.isEmpty then commitDesc s d.target (BitVec.ofNat 32 (ofLe d.data))
         else d.stale.foldl (commitLostDesc d.target (BitVec.ofNat 32 (ofLe d.data))) s)
      else d.parts.foldl commitBytes (d.lost.foldl commitLost s)).memoryWf = true :=
    ite_memoryWf h (ite_memoryWf
      (ite_memoryWf (commitDesc_memoryWf h _ _) (foldl_memoryWf (fun _ _ ht => patchUndo_memoryWf ht _ _) _ h))
      (foldl_memoryWf (fun _ _ ht => commitBytes_memoryWf ht _) _ (foldl_memoryWf (fun _ _ ht => patchUndo_memoryWf ht _ _) _ h)))
  exact ite_memoryWf h (ite_memoryWf ((raiseVector_memoryWf _ _).trans ht) ht)

theorem performAll_memoryWf (r : BitVec 16) : (performAll s r).memoryWf = true :=
  foldl_memoryWf (fun _ _ ht => performDeferred_memoryWf ht _) _ h

theorem releaseAllHeld_memoryWf : (releaseAllHeld s).memoryWf = true := foldl_memoryWf (fun _ _ ht => releaseHeld_memoryWf ht _) _ h

omit h in
theorem Snap.committed_memoryWf {x : Snap} (hx : x.memoryWf = true) (r : BitVec 16) : (x.committed r).memoryWf = true := hx

theorem execCommit_nextWf (r : BitVec 16) : nextWf (execCommit r s) := by
  unfold execCommit
  refine nextWf_ite (fun _ => stutter_nextWf h) fun _ => ?_
  split
  · exact stutter_nextWf h
  · next snap hsnap =>
    obtain ⟨hm, hctxs, -, hsp⟩ := (memoryWf_iff s).mp h
    dsimp only
    generalize hs1 : ({ s with
      undo := s.undo.filter (fun u => !notAfter u.rin r), snapCommitted := some (snap.committed r), snapPending := none
      ctxs := s.ctxs.map (commitCtx (snap.ctxs.map (·.uid)) r)
      inlets := (s.inlets.zip snap.heads).map (fun (n, h) => { n with chead := h })
      domain := { s.domain with committed := r } } : State) = s1
    have h1 : s1.memoryWf = true := by
      subst hs1
      refine (memoryWf_iff _).mpr ⟨hm, fun c hc => ?_, fun x hx => ?_, fun x hx => by cases hx⟩
      · obtain ⟨b, hb, rfl⟩ := List.mem_map.mp hc
        exact hctxs b hb
      · cases hx
        exact Snap.committed_memoryWf (hsp snap hsnap) r
    have h2 := endSeal_memoryWf (clearHold_memoryWf (payOwed_memoryWf (commitSlots_memoryWf (performAll_memoryWf h1 r) r)) r)
    exact nextWf_ite (fun _ => nextWf_next h2) fun _ =>
      nextWf_next (noteLogs_memoryWf (settle_memoryWf (settleAllStores_memoryWf (autoResume_memoryWf (releaseAllHeld_memoryWf h2) _))))

end

end Sys2Proof.Machine
end

section
/-! PROOFS. Launches, and what the host and the bring-up do, keep the canonical form of the byte memories (log entry 7). -/
namespace Sys2Proof.Machine
open Sys2Proof.Laws

section
variable {s : State} (h : s.memoryWf = true)
include h

/-! ## Launches -/

theorem storeRecord_memoryWf (ctx : Nat) (t : Target) (data : List Byte) : (storeRecord s ctx t data).memoryWf = true := by
  unfold storeRecord
  split
  · exact writeHbm_memoryWf h _ _
  · exact performOutside_memoryWf (s := replaceDeferred s t data.length) h _ _

theorem doneRecord_optWf (c : Ctx) (place : Except CauseDetail Place) (va : DWord) (immed : Bool) (status reason : Nat) :
    optWf (doneRecord s c place va immed status reason) := by
  unfold doneRecord
  refine optWf_ite (optWf_some h) ?_
  split
  · exact optWf_some (emitRecord_wf h _)
  · next p =>
    have hst := storeRecord_memoryWf h c.num p.target (doneBytes s c status reason)
    refine optWf_ite (optWf_some ((raiseVector_memoryWf _ _).trans (ite_memoryWf hst (pin_memoryWf hst _)))) (optWf_map fun t ht => ?_)
    exact requestSeal_memoryWf (acceptDeferred_optWf (ite_memoryWf hst h) _ _ _ _ _ t ht)

theorem writeLeaf_optWf (c : Ctx) (va : Nat) (b : List Byte) : optWf (writeLeaf s c va b) := by
  unfold writeLeaf
  split
  · exact optWf_some h
  · exact optWf_map fun t ht => modifyCtx_wf (trackedWrite_optWf h _ _ t ht) _ _ fun _ hc => Memory.write_wf hc _ _

theorem mapGang_optWf (c : Ctx) (l : Launch) (ts : List Team) : optWf (mapGang s c l ts) := by
  refine optWf_foldlM (fun t x ht => ?_) (gangPages l ts) h
  exact writeLeaf_optWf ht _ _ _

theorem unmapGang_optWf (c : Ctx) (l : Launch) : optWf (unmapGang s c l) :=
  optWf_ite (optWf_some h) (optWf_foldlM (fun _ _ ht => writeLeaf_optWf ht _ _ _) _ h)

theorem rejectBlock_optWf (l : Launch) (reason : Nat) : optWf (rejectBlock s l reason) := by
  unfold rejectBlock
  split
  · exact optWf_some (emitRecord_wf h _)
  · exact doneRecord_optWf h _ _ _ _ _ _

theorem execLaunchTake_nextWf (inlet : BitVec 6) : nextWf (execLaunchTake inlet s) := by
  unfold execLaunchTake
  split
  · exact stutter_nextWf h
  · next n _ =>
    refine nextWf_ite (fun _ => stutter_nextWf h) fun _ => ?_
    have h1 : ({ s with inlets := modifyAt (fun n => { n with head := n.head + 1 }) s.inlets inlet.toNat, nextUid := s.nextUid + 1 } : State).memoryWf = true := h
    dsimp only
    exact nextWf_ite (fun _ => nextWf_next h1) fun _ => optNext_wf h (rejectBlock_optWf h1 _ _)

omit h in
theorem clearPond_wf {w : Work} (hw : w.pond.wf = true) (t : Team) : (clearPond w t).pond.wf = true := by
  unfold clearPond
  dsimp only
  exact Memory.clearRange_wf hw _ _

theorem addTeams_memoryWf (l : Launch) (ps : List Placement) (teams : List Nat) : (addTeams s l ps teams).memoryWf = true := by
  have hpond : (addTeams s l ps teams).work.pond.wf = true := by
    unfold addTeams
    dsimp only
    exact foldl_keeps (fun w : Work => w.pond.wf = true) _ (fun _ _ hw => clearPond_wf hw _) _ (memoryWf_pond h)
  exact memoryWf_same (memoryWf_setWork h hpond)

theorem execTeamPlacement_nextWf (l : Nat) (ps : List Placement) : nextWf (execTeamPlacement l ps s) := by
  unfold execTeamPlacement
  split
  · exact stutter_nextWf h
  · split
    · exact stutter_nextWf h
    · dsimp only
      exact nextWf_ite (fun _ => stutter_nextWf h) fun _ => nextWf_ite (fun _ => stutter_nextWf h) fun _ =>
        optNext_wf h (mapGang_optWf (addTeams_memoryWf h _ _ _) _ _ _)

theorem execLaunchCompletion_nextWf (l : Nat) : nextWf (execLaunchCompletion l s) := by
  unfold execLaunchCompletion
  split
  · exact stutter_nextWf h
  · next x _ =>
    split
    · exact stutter_nextWf h
    · next c _ =>
      have hdone : optWf (((unbindGraphs s x.uid).bind fun t => unmapGang t c x).bind fun t =>
          doneRecord t c (placeOfDone t c x) x.doneva x.immed (if x.bad then 2 else 0) 0) :=
        optWf_bind fun u hu => doneRecord_optWf
          (optWf_bind (fun t ht => unmapGang_optWf (unbindGraphs_optWf h _ t ht) c x) u hu) _ _ _ _ _ _
      refine nextWf_ite (fun _ => stutter_nextWf h) fun _ => ?_
      split
      · exact stutter_nextWf h
      · next t ht => exact nextWf_next (reap_memoryWf (hdone t ht))

theorem inletEvent_nextWf (inlet : BitVec 6) (f : Inlet → Inlet) : nextWf (inletEvent s inlet f) :=
  nextWf_ite (fun _ => stutter_nextWf h) fun _ => nextWf_next h

/-! ## The host's port -/

theorem execCreate_nextWf : nextWf (execCreate s) := by
  refine command_nextWf h _ (optWf_ite optWf_none (optWf_some ?_))
  refine memoryWf_same (memoryWf_setCtxs h (l := s.ctxs ++ [freshCtx s.nextUid (cmdArgs s) s.hbm s.work.dates]) fun c hc => ?_)
  rcases List.mem_append.mp hc with hc | hc
  · exact memoryWf_ctxs h c hc
  · rw [List.mem_singleton.mp hc]
    exact memoryWf_hbm h

theorem execDomain_nextWf (x : DomainPeers) : nextWf (execDomain x s) := command_nextWf h _ (optWf_ite optWf_none (optWf_map fun _ _ => h))

theorem execUndefinedCommand_nextWf (code : BitVec 8) : nextWf (execUndefinedCommand code s) :=
  nextWf_ite (fun _ => stutter_nextWf h) fun _ => nextWf_next (cmdWrite_memoryWf h _)

theorem execHostCxlMemAccess_nextWf (pa : Nat) (data : List Byte) : nextWf (execHostCxlMemAccess pa data s) :=
  nextWf_ite (fun _ => stutter_nextWf h) fun _ => nextWf_next (newWrite_memoryWf h _ _)

theorem execRegisterWrite_nextWf (off : BitVec 24) (wide : Bool) (val : DWord) : nextWf (execRegisterWrite off wide val s) :=
  nextWf_next (regWrite_memoryWf h _ _)

theorem execRecordWrite_nextWf : nextWf (execRecordWrite s) := by
  unfold execRecordWrite
  dsimp only
  split
  · exact stutter_nextWf h
  · next w rest _ =>
    have ht := memoryWf_setHost h (Memory.write_wf (memoryWf_host h) (s.records.base.toNat + 64 * (s.records.tail.toNat % 2 ^ s.records.log2n)) (wordBytes w))
    have ht' : ({ s with host := s.host.write (s.records.base.toNat + 64 * (s.records.tail.toNat % 2 ^ s.records.log2n)) (wordBytes w)
                         records := { s.records with tail := s.records.tail + 1, held := rest } } : State).memoryWf = true := ht
    exact nextWf_ite (fun _ => stutter_nextWf h) fun _ => nextWf_next (ite_memoryWf ((raiseVector_memoryWf _ _).trans ht') ht')

theorem execRqctlWrite_nextWf (val : Word) : nextWf (execRqctlWrite val s) := nextWf_ite (fun _ => stutter_nextWf h) fun _ => nextWf_next h

theorem execRqheadWrite_nextWf (val : Word) : nextWf (execRqheadWrite val s) := nextWf_ite (fun _ => stutter_nextWf h) fun _ => nextWf_next h

/-! ## Resets, bring-up, monitors and reports -/

theorem execRstctl_nextWf (val : Word) : nextWf (execRstctl val s) := nextWf_next (rstCtl_memoryWf h val)

theorem reset_nextWf (c : ResetCause) : nextWf (.next (doReset s c)) := nextWf_next (doReset_memoryWf h c)

theorem execThermalTrip_nextWf (island : BitVec 7) : nextWf (execThermalTrip island s) := nextWf_ite (fun _ => reset_nextWf h _) fun _ => stutter_nextWf h

theorem execVoltageFault_nextWf (island : BitVec 7) : nextWf (execVoltageFault island s) := nextWf_ite (fun _ => reset_nextWf h _) fun _ => stutter_nextWf h

theorem execSuppliesStable_nextWf : nextWf (execSuppliesStable s) := nextWf_ite (fun _ => stutter_nextWf h) fun _ => nextWf_next h

theorem execCalibrationDone_nextWf : nextWf (execCalibrationDone s) := nextWf_ite (fun _ => stutter_nextWf h) fun _ => nextWf_next h

theorem execFirmwareVerified_nextWf (key : List Byte) (images : FirmwareImage × FirmwareImage) : nextWf (execFirmwareVerified key images s) :=
  nextWf_ite (fun _ => stutter_nextWf h) fun _ => nextWf_ite (fun _ => nextWf_next h) fun _ => nextWf_next h

theorem execBootctlStart_nextWf (val : Word) : nextWf (execBootctlStart val s) :=
  nextWf_ite (fun _ => nextWf_next (bootStart_memoryWf h)) fun _ => stutter_nextWf h

theorem execInitDone_nextWf : nextWf (execInitDone s) :=
  nextWf_ite (fun _ => stutter_nextWf h) fun _ => nextWf_next (memoryWf_same (memoryWf_setHbm h Memory.empty_wf))

theorem execMonitorUpdate_nextWf (m : List Reading) : nextWf (execMonitorUpdate m s) := nextWf_ite (fun _ => stutter_nextWf h) fun _ => nextWf_next h

theorem execThrottleStep_nextWf (island : BitVec 7) : nextWf (execThrottleStep island s) := nextWf_ite (fun _ => stutter_nextWf h) fun _ => nextWf_next h

theorem execPowerCapStep_nextWf (power : Nat) : nextWf (execPowerCapStep power s) := nextWf_ite (fun _ => stutter_nextWf h) fun _ => nextWf_next h

theorem execAttctlRequest_nextWf (val : Word) : nextWf (execAttctlRequest val s) :=
  nextWf_ite (fun _ => nextWf_next (attRequest_memoryWf h)) fun _ => stutter_nextWf h

theorem execAttestationComplete_nextWf (burnt : Bool) : nextWf (execAttestationComplete burnt s) :=
  nextWf_ite (fun _ => stutter_nextWf h) fun _ => nextWf_ite (fun _ => nextWf_next h) fun _ => nextWf_ite
    (fun _ => nextWf_next (memoryWf_same (memoryWf_setHost h (Memory.write_wf (memoryWf_host h) s.regs.attDst.toNat (reportBytes s.regs))))) fun _ => nextWf_next h

end

end Sys2Proof.Machine
end

section
/-! PROOFS. Errors and the rollback keep the canonical form of the byte memories (log entry 7). -/
namespace Sys2Proof.Machine
open Sys2Proof.Laws

section
variable {s : State} (h : s.memoryWf = true)
include h

/-! ## Self-tests -/

theorem retrained_memoryWf (e : ErrReport) : (retrained s e).memoryWf = true := ite_memoryWf (emitRecord_wf h _) h

theorem selfTest_memoryWf (e : ErrReport) : (selfTest s e).memoryWf = true := by
  have hr := retrained_memoryWf h e
  have hregs : ∀ r : Regs, ({ retrained s e with regs := r } : State).memoryWf = true := fun _ => hr
  exact ite_memoryWf (ite_memoryWf (emitRecord_wf (hregs _) _) (hregs _)) (ite_memoryWf (hregs _) hr)

theorem execCorrectableError_nextWf (e : ErrReport) : nextWf (execCorrectableError e s) := by
  have hkeep : ∀ l : List (Nat × Nat × Nat), ({ s with regs := { s.regs with correct := l } } : State).memoryWf = true := fun _ => h
  exact nextWf_ite (fun _ => nextWf_next (selfTest_memoryWf (emitRecord_wf (hkeep _) _) _)) fun _ => nextWf_next (emitRecord_wf (hkeep _) _)

theorem execFabricPortError_nextWf (port : BitVec 5) (pass : Bool) : nextWf (execFabricPortError port pass s) := nextWf_next (selfTest_memoryWf h _)

/-! ## What a rollback takes back -/

theorem undoLine_memoryWf (u : Undo) : (undoLine s u).memoryWf = true :=
  ite_memoryWf (memoryWf_setPeer h (Memory.writeNat_wf (Memory.write_wf (memoryWf_peer h) _ _) _ _ _)) (memoryWf_same (writeHbm_memoryWf h _ _))

theorem undoAfter_memoryWf (c : BitVec 16) : (undoAfter s c).memoryWf = true := foldl_memoryWf (fun _ _ ht => undoLine_memoryWf ht _) _ h

theorem dropDeferred_memoryWf (c : BitVec 16) : (dropDeferred s c).memoryWf = true := h

omit h in
theorem backSnap_wf (s : State) {m : Memory} (hm : m.wf = true) : (backSnap s m).wf = true :=
  foldl_keeps (fun m : Memory => m.wf = true) _ (fun _ _ h => Memory.write_wf h _ _) _ hm

theorem backCtxs_wf : ∀ c ∈ backCtxs s, c.snap.wf = true := by
  intro c hc
  obtain ⟨b, hb, rfl⟩ := List.mem_map.mp hc
  have hw := memoryWf_ctxs h b hb
  split
  · split
    · exact backSnap_wf s hw
    · exact hw
  · exact hw

theorem copyHalves_memoryWf : (copyHalves s).memoryWf = true :=
  foldl_memoryWf (fun _ _ ht => memoryWf_setHbm ht (copyRegion_wf (memoryWf_hbm ht) _ _)) (s.ctxs.filter (rollsBack s)) h

theorem restartRefits_memoryWf : (restartRefits s).memoryWf = true :=
  foldl_memoryWf (fun _ _ ht => ite_memoryWf (getD_memoryWf (startRefit_optWf ht _ _) ht) ht) _ h

theorem endLost_memoryWf (c : BitVec 16) (n : Nat) (l : List (Nat × Nat)) : (endLost s c n l).memoryWf = true := by
  refine foldl_memoryWf (fun t x ht => ?_) l h
  exact endNow_memoryWf (emitRecord_wf ht _) _

omit h in
theorem restoreAll_optWf (ps : List Placement) (l : List Nat) : ∀ {s : State}, s.memoryWf = true → optWf (restoreAll s ps l) := by
  induction l with
  | nil => exact fun h => optWf_some h
  | cons k l ih =>
    intro s h
    rw [restoreAll]
    split
    · exact ih h
    · exact optWf_bind fun t ht => ih (restoreContext_optWf h _ _ t ht)

theorem rolledBack_memoryWf (d : Domain) :
    ({ copyHalves (dropDeferred (undoAfter s s.domain.committed) s.domain.committed) with
        work := backWork s (sealWork s), ctxs := backCtxs s, snapPending := none, inlets := backInlets s, domain := d } : State).memoryWf = true := by
  have h1 := copyHalves_memoryWf (dropDeferred_memoryWf (undoAfter_memoryWf h s.domain.committed) s.domain.committed)
  obtain ⟨⟨hhbm, hhost, hpeer, -⟩, -, hsc, -⟩ := (memoryWf_iff _).mp h1
  have hpond := memoryWf_pond h
  have hctxs := backCtxs_wf h
  exact (memoryWf_iff _).mpr ⟨⟨hhbm, hhost, hpeer, hpond⟩, hctxs, hsc, fun x hx => by cases hx⟩

theorem rollback_optWf (moves : List Placement) : optWf (rollback s moves) := by
  unfold rollback
  dsimp only
  refine optWf_map fun t ht => noticeAgain_memoryWf (foldl_memoryWf (fun _ _ hu => endNow_memoryWf hu _) _ (restoreAll_optWf _ _ (restartRefits_memoryWf ?_) t ht))
  exact foldl_memoryWf (fun _ _ hu => emitRecord_wf hu _) _ (endLost_memoryWf (rolledBack_memoryWf h _) _ _ _)

/-! ## Uncorrectable errors -/

theorem endEvery_memoryWf : (endEvery s).memoryWf = true := foldl_memoryWf (fun _ _ ht => endNow_memoryWf ht _) _ h

theorem stopDevice_memoryWf (e : ErrReport) : (stopDevice s e).memoryWf = true :=
  memoryWf_same (endEvery_memoryWf (selfTest_memoryWf (emitRecord_wf h (errorRecord s e 0x0B02 4 6 (triage s.regs e))) e))

theorem memberError_memoryWf (fatal : Bool) (moves : List Placement) : (memberError s fatal moves).memoryWf = true :=
  ite_memoryWf h (ite_memoryWf (endEvery_memoryWf h) (getD_memoryWf (rollback_optWf h _) h))

theorem execUncorrectableMemoryError_nextWf (e : ErrReport) : nextWf (execUncorrectableMemoryError e s) := by
  unfold execUncorrectableMemoryError
  exact nextWf_ite (fun _ => stutter_nextWf h) fun _ => nextWf_ite (fun _ => nextWf_next (stopDevice_memoryWf h _)) fun _ =>
    optNext_wf h (rollback_optWf (selfTest_memoryWf (emitRecord_wf h _) _) _)

/-! ## Promotion -/

theorem execEligibilityPromotion_nextWf (g : Nat) : nextWf (execEligibilityPromotion g s) := by
  unfold execEligibilityPromotion
  split
  · exact stutter_nextWf h
  · refine nextWf_ite (fun _ => stutter_nextWf h) fun _ => nextWf_next (modifyGroup_wf (ite_memoryWf h ?_) _ _)
    split
    · exact modifyGroup_wf h _ _
    · exact h

end

end Sys2Proof.Machine
end

section
/-! PROOFS. Every instruction and event, and every step, keeps the canonical form of the byte memories (log entry 7). -/
namespace Sys2Proof.Machine
open Sys2Proof.Laws

/-- Whatever an instruction or an event answers from canonical memories has canonical memories. -/
theorem exec_nextWf (i : Instr) {s : State} (h : s.memoryWf = true) : nextWf (exec i s) := by
  cases i with
  | extPred | extImm | extShi | extHint => exact extWord_nextWf h _
  | illegalInstruction => exact execIllegalInstruction_nextWf h _
  | iadd | isub | imul | imulhi | imulw | idiv | irem | imin | imax | and | or | xor | andn | shl | shr | sar | rol | bfe | bfi | popc | clz
  | ctz | brev | icmpp | pand | por | pxor | pandn | sel | iaddi | movi | andi | ori | xori | shli | shri | sari | roli | icmppi | lea
  | leai | fadd | fsub | fmul | ffma | fdiv | fsqrt | frcp | frsq | exp2 | log2 | sin | cos | fmin | fmax | fcmpp | fclass | fabs | fneg
  | fcpys | cvtf | cvtfi | cvtif | fscale | frnd | faddx | fsubx | fmulx | dwadd | dwsub | dwmul | dwfma | dwnorm | pack | unpk | movsv
  | lgetAbs | lgetBelow | lgetAbove | lgetFlip | lany | lall | lmask | llead | redf | redx | rediAddI32 | rediMinI32 | rediMaxI32
  | rediMinN32 | rediMaxN32 | rediAnd | rediOr | rediXor | scaniAddI32 | scaniAddI32Excl | scanfF32 | scanxF32 | randN32 | randF32 | randN64
  | pmovToV => exact perLane_nextWf h _ _
  | bra | call => exact branch_nextWf h _ _ _ _
  | jmpi a => exact indirect_nextWf h (.jmpi a) a true none
  | calli d a => exact indirect_nextWf h (.calli d a) a true (some d)
  | ret a => exact indirect_nextWf h (.ret a) a false none
  | nop | land | yield | pref => exact noEffect_nextWf h _
  | exit => exact execExit_nextWf h
  | brk => exact execBrk_nextWf h
  | join => exact execJoin_nextWf h _
  | srd => exact execSrd_nextWf h _ _
  | swr => exact execSwr_nextWf h _ _
  | resume => exact execResume_nextWf h _ _ _
  | gsave => exact execGsave_nextWf h _ _
  | gload => exact execGload_nextWf h _ _
  | fqpop => exact execFqpop_nextWf h _ _ _
  | trap => exact execTrap_nextWf h _
  | sadd | ssub | smul | smulhi | sand | sor | sxor | sandn | sshl | sshr | smin | smax | saddi | smovi | scmpp | movvs | pmovToP => exact perSet_nextWf h _ _
  | sbrz | sbrnz => exact uniformBranch_nextWf h _ _ _ _
  | sldI32 | sldI64 => exact sld_nextWf h _ _ _ _ _ _ _
  | sstI32 | sstI64 => exact sst_nextWf h _ _ _ _ _ _ _
  | regroup => exact execRegroup_nextWf h _ _ _
  | rdvMark => exact execRdvMark_nextWf h _ _ _
  | rdvHold => exact execRdvHold_nextWf h _ _ _
  | rdvMeet => exact execRdvMeet_nextWf h _ _ _
  | rdvPeek => exact execRdvPeek_nextWf h _ _ _
  | ldI32 | ldI64 | ldI8 | ldN8 | ldI16 | ldN16 | ldq => exact loadInstr_nextWf h _ _ _ _ _ _ _
  | stI32 | stI64 | stI8 | stI16 | stq => exact storeInstr_nextWf h _ _ _ _ _ _
  | dld => exact execDld_nextWf h _ _ _
  | dst => exact execDst_nextWf h _ _ _
  | segq => exact execSegq_nextWf h _ _ _
  | segset => exact execSegset_nextWf h _ _ _
  | atomAddI32 | atomMinI32 | atomMaxI32 | atomMinN32 | atomMaxN32 | atomAnd | atomOr | atomXor | atomXchgI32 | atomCasI32 | atomAddF32
  | atomAddI64 | atomXchgI64 | atomCasI64 => exact atom_nextWf h _ _ _ _ _ _ _ _
  | fence => exact execFence_nextWf h _ _
  | wait => exact execWait_nextWf h _ _ _ _ _
  | rinst => exact execRinst_nextWf h _ _ _
  | rfit | rdem | rabort => exact regionIssue_nextWf h _ _ _ _
  | rldg => exact execRldg_nextWf h _ _ _ _
  | rstat => exact execRstat_nextWf h _ _ _
  | cpy | cpyt | cvtc | qnt | rmat | cpfill => exact copyIssue_nextWf h _ _ _ _ _
  | cpst => exact execCpst_nextWf h _ _
  | cpcan => exact execCpcan_nextWf h _ _
  | tld => exact execTld_nextWf h _ _ _
  | tstr => exact execTstr_nextWf h _ _
  | mma | mmaDw => exact mmaIssue_nextWf h _ _ _ _ _ _
  | tzero => exact execTzero_nextWf h _ _
  | azero => exact execAzero_nextWf h _ _
  | amov => exact execAmov_nextWf h _ _
  | ald => exact execAld_nextWf h _ _ _
  | ast => exact execAst_nextWf h _ _
  | asnap => exact execAsnap_nextWf h _ _ _
  | ttrn => exact execTtrn_nextWf h _ _
  | gbind | grebind => exact bindIssue_nextWf h _ _ _ _ _
  | gstat | chstat => exact graphStatus_nextWf h _ _ _ _ _
  | fire => exact execFire_nextWf h _ _
  | fend => exact execFend_nextWf h _ _
  | send => exact execSend_nextWf h _ _
  | recv => exact execRecv_nextWf h _ _ _
  | sealreq => exact execSealreq_nextWf h _
  | rvrd => exact execRvrd_nextWf h _ _
  | coll => exact execColl_nextWf h _ _ _
  | lease => exact execLease_nextWf h _ _
  | clarb => exact execClarb_nextWf h _ _
  | clstat => exact execClstat_nextWf h _ _
  | loadValueReturn => exact execLoadValueReturn_nextWf h _ _
  | storePerformed => exact execStorePerformed_nextWf h _ _
  | eligibilityPromotion => exact execEligibilityPromotion_nextWf h _
  | copyCompletion => exact execCopyCompletion_nextWf h _
  | copyHalt => exact execCopyHalt_nextWf h _ _
  | mmaCompletion => exact execMmaCompletion_nextWf h _
  | springOperationArrival => exact execSpringOperationArrival_nextWf h _ _
  | installEnd => exact execInstallEnd_nextWf h _
  | refitCommit => exact execRefitCommit_nextWf h _
  | demotionEnd => exact execDemotionEnd_nextWf h _
  | regionOperationCompletion => exact execRegionOperationCompletion_nextWf h _
  | bind => exact execBind_nextWf h _ _
  | rebind => exact execRebind_nextWf h _ _
  | collReadyPassed => exact execCollReadyPassed_nextWf h _ _
  | collectiveCompletion => exact execCollectiveCompletion_nextWf h _ _
  | leaseCompletion => exact execLeaseCompletion_nextWf h _
  | faultQueueEntryWrite => exact execFaultQueueEntryWrite_nextWf h _
  | recordWrite => exact execRecordWrite_nextWf h
  | contextSave => exact execContextSave_nextWf h _
  | watchdog => exact execWatchdog_nextWf h _
  | stallLimit => exact execStallLimit_nextWf h
  | sealPeriod => exact execSealPeriod_nextWf h
  | sealTrigger => exact execSealTrigger_nextWf h
  | prepare => exact execPrepare_nextWf h _
  | ready => exact execReady_nextWf h
  | sealTimeout => exact execSealTimeout_nextWf h
  | abort => exact execAbort_nextWf h _
  | commit => exact execCommit_nextWf h _
  | rintagAgeing => exact execRintagAgeing_nextWf h
  | uncorrectableMemoryError => exact execUncorrectableMemoryError_nextWf h _
  | correctableError => exact execCorrectableError_nextWf h _
  | fabricPortError => exact execFabricPortError_nextWf h _ _
  | noRoute => exact execNoRoute_nextWf h _
  | peerAccessArrival => exact execPeerAccessArrival_nextWf h _
  | leaseNotice => exact execLeaseNotice_nextWf h _ _ _
  | leaseDeadline => exact execLeaseDeadline_nextWf h _ _
  | hostCxlMemAccess => exact execHostCxlMemAccess_nextWf h _ _
  | itailWrite | ictlWrite | ibaseWrite => exact inletEvent_nextWf h _ _
  | launchTake => exact execLaunchTake_nextWf h _
  | teamPlacement => exact execTeamPlacement_nextWf h _ _
  | launchCompletion => exact execLaunchCompletion_nextWf h _
  | create => exact execCreate_nextWf h
  | destroy => exact execDestroy_nextWf h
  | preempt => exact execPreempt_nextWf h
  | restore => exact execRestore_nextWf h _
  | inval => exact execInval_nextWf h
  | retire => exact execRetire_nextWf h
  | cmdFqpop => exact execCmdFqpop_nextWf h
  | cmdLeaseGrant => exact execCmdLeaseGrant_nextWf h
  | cmdLeaseRevoke => exact execCmdLeaseRevoke_nextWf h
  | cmdLeaseRegister => exact execCmdLeaseRegister_nextWf h
  | domain => exact execDomain_nextWf h _
  | rqctlWrite => exact execRqctlWrite_nextWf h _
  | rqheadWrite => exact execRqheadWrite_nextWf h _
  | rstctl => exact execRstctl_nextWf h _
  | powerOn | linkReset | hexwd => exact reset_nextWf h _
  | thermalTrip => exact execThermalTrip_nextWf h _
  | voltageFault => exact execVoltageFault_nextWf h _
  | suppliesStable => exact execSuppliesStable_nextWf h
  | calibrationDone => exact execCalibrationDone_nextWf h
  | firmwareVerified => exact execFirmwareVerified_nextWf h _ _
  | bootctlStart => exact execBootctlStart_nextWf h _
  | initDone => exact execInitDone_nextWf h
  | monitorUpdate => exact execMonitorUpdate_nextWf h _
  | throttleStep => exact execThrottleStep_nextWf h _
  | powerCapStep => exact execPowerCapStep_nextWf h _
  | attctlRequest => exact execAttctlRequest_nextWf h _
  | attestationComplete => exact execAttestationComplete_nextWf h _
  | registerWrite => exact execRegisterWrite_nextWf h _ _ _
  | hostLinkRetrained => exact nextWf_next (emitRecord_wf h _)
  | routeRegained => exact execRouteRegained_nextWf h _
  | leaseReleaseAtLender => exact execLeaseReleaseAtLender_nextWf h _ _
  | undefinedCommand => exact execUndefinedCommand_nextWf h _
  | _ => exact execSeal_nextWf h _

end Sys2Proof.Machine
end

section
/-! PROOFS. Every step keeps the canonical form of the byte memories (log entry 7). -/
namespace Sys2Proof.Machine
open Sys2Proof.Laws

/-! ## What the device does by itself -/

/-- Every act of a list answers states with canonical memories. -/
def actsWf (s : State) (l : List Act) : Prop := ∀ f ∈ l, nextWf (f s)

section
variable {s : State}

theorem actsWf_nil : actsWf s [] := fun _ hf => by cases hf

theorem actsWf_cons {f : Act} {l : List Act} (hf : nextWf (f s)) (hl : actsWf s l) : actsWf s (f :: l) := fun g hg => by
  rcases List.mem_cons.mp hg with rfl | hg
  · exact hf
  · exact hl g hg

theorem actsWf_one {f : Act} (hf : nextWf (f s)) : actsWf s [f] := actsWf_cons hf actsWf_nil

theorem actsWf_append {l m : List Act} (hl : actsWf s l) (hm : actsWf s m) : actsWf s (l ++ m) := fun f hf =>
  (List.mem_append.mp hf).elim (hl f) (hm f)

theorem actsWf_ite {c : Prop} [Decidable c] {l m : List Act} (hl : actsWf s l) (hm : actsWf s m) : actsWf s (if c then l else m) := by
  split
  · exact hl
  · exact hm

theorem actsWf_map {α : Type} {f : α → Act} {l : List α} (hf : ∀ a, nextWf (f a s)) : actsWf s (l.map f) := fun g hg => by
  obtain ⟨a, -, rfl⟩ := List.mem_map.mp hg
  exact hf a

theorem actsWf_flatMap {α : Type} {f : α → List Act} {l : List α} (hf : ∀ a, actsWf s (f a)) : actsWf s (l.flatMap f) := fun g hg => by
  obtain ⟨a, -, hg⟩ := List.mem_flatMap.mp hg
  exact hf a g hg

theorem firstChange_optWf {l : List Act} (hl : actsWf s l) : optWf (firstChange s l) := by
  induction l with
  | nil => exact optWf_none
  | cons f l ih =>
    have htail := ih fun g hg => hl g (List.mem_cons_of_mem f hg)
    rw [firstChange]
    split
    · next t ht => exact optWf_ite htail (optWf_some (hl f List.mem_cons_self t ht))
    · exact htail

variable (h : s.memoryWf = true)
include h

theorem groupEvents_wf (g : Group) : actsWf s (groupEvents g) := by
  have hspring : ∀ n, actsWf s [execSpringOperationArrival g.uid n, execBind g.uid n, execRebind g.uid n] := fun n =>
    actsWf_cons (execSpringOperationArrival_nextWf h _ _) (actsWf_cons (execBind_nextWf h _ _) (actsWf_one (execRebind_nextWf h _ _)))
  have hcl : actsWf s [execLeaseCompletion g.uid, execCollectiveCompletion g.uid { parts := [], fail := 0 }] :=
    actsWf_cons (execLeaseCompletion_nextWf h _) (actsWf_one (execCollectiveCompletion_nextWf h _ _))
  unfold groupEvents
  repeat' with_reducible apply actsWf_append
  · exact actsWf_map fun _ => execLoadValueReturn_nextWf h _ _
  · exact actsWf_map fun _ => execStorePerformed_nextWf h _ _
  · exact actsWf_ite actsWf_nil (actsWf_one (execMmaCompletion_nextWf h _))
  · exact actsWf_ite actsWf_nil (actsWf_one (execCopyCompletion_nextWf h _))
  · exact actsWf_map fun _ => execCopyHalt_nextWf h _ _
  · exact actsWf_ite actsWf_nil (actsWf_one (execRegionOperationCompletion_nextWf h _))
  · exact actsWf_flatMap hspring
  · exact actsWf_map fun _ => execCollReadyPassed_nextWf h _ _
  · exact actsWf_ite actsWf_nil hcl
  · exact actsWf_ite actsWf_nil (actsWf_one (execEligibilityPromotion_nextWf h _))

theorem regionEvents_wf : actsWf s (regionEvents s) := actsWf_flatMap fun _ =>
  actsWf_cons (execInstallEnd_nextWf h _) (actsWf_cons (execRefitCommit_nextWf h _) (actsWf_one (execDemotionEnd_nextWf h _)))

theorem launchEvents_wf : actsWf s (launchEvents s) := by
  refine actsWf_append (actsWf_flatMap fun c => actsWf_append (actsWf_ite actsWf_nil (actsWf_one (execFaultQueueEntryWrite_nextWf h _)))
    (actsWf_ite (actsWf_one (execContextSave_nextWf h _)) actsWf_nil)) (actsWf_flatMap fun l => actsWf_append (actsWf_append ?_ ?_) ?_)
  · exact actsWf_ite (actsWf_one (execWatchdog_nextWf h _)) actsWf_nil
  · refine actsWf_ite ?_ actsWf_nil
    split
    · exact actsWf_one (execTeamPlacement_nextWf h _ _)
    · exact actsWf_nil
  · exact actsWf_ite (actsWf_one (execLaunchCompletion_nextWf h _)) actsWf_nil

theorem inletEvents_wf : actsWf s (inletEvents s) := by
  refine actsWf_flatMap fun p => ?_
  exact actsWf_ite (actsWf_one (execLaunchTake_nextWf h _)) actsWf_nil

theorem commandEvents_wf : actsWf s (commandEvents s) := by
  refine actsWf_ite actsWf_nil ?_
  split
  · exact actsWf_one (execCreate_nextWf h)
  · exact actsWf_one (execDestroy_nextWf h)
  · exact actsWf_one (execPreempt_nextWf h)
  · exact actsWf_one (execRestore_nextWf h _)
  · exact actsWf_one (execInval_nextWf h)
  · exact actsWf_one (execRetire_nextWf h)
  · exact actsWf_one (execCmdFqpop_nextWf h)
  · exact actsWf_cons (execCmdLeaseGrant_nextWf h) (actsWf_cons (execCmdLeaseRevoke_nextWf h) (actsWf_one (execCmdLeaseRegister_nextWf h)))
  · exact actsWf_ite (actsWf_one (execDomain_nextWf h _)) actsWf_nil
  · exact actsWf_nil

theorem sealEvents_wf : actsWf s (sealEvents s) := by
  have one : ∀ {c : Prop} [Decidable c] {f : Act}, nextWf (f s) → actsWf s (if c then [f] else []) := fun hf => actsWf_ite (actsWf_one hf) actsWf_nil
  unfold sealEvents
  dsimp only
  repeat' with_reducible apply actsWf_append
  · exact one (execSealPeriod_nextWf h)
  · exact one (execStallLimit_nextWf h)
  · exact one (execSealTrigger_nextWf h)
  · exact one (execRintagAgeing_nextWf h)
  · exact one (execPrepare_nextWf h _)
  · exact one (execReady_nextWf h)
  · exact one (execSealTimeout_nextWf h)
  · exact one (execCommit_nextWf h _)
  · exact one (execAbort_nextWf h _)

theorem leaseEvents_wf : actsWf s (leaseEvents s) := actsWf_map fun _ => execLeaseDeadline_nextWf h _ _

theorem deviceEvents_wf : actsWf s (deviceEvents s) := by
  unfold deviceEvents
  repeat' with_reducible apply actsWf_append
  · exact actsWf_flatMap (groupEvents_wf h)
  · exact regionEvents_wf h
  · exact sealEvents_wf h
  · exact leaseEvents_wf h
  · exact launchEvents_wf h
  · exact commandEvents_wf h
  · exact actsWf_ite actsWf_nil (actsWf_one (execRecordWrite_nextWf h))
  · exact inletEvents_wf h

theorem monitorEvents_wf : actsWf s (monitorEvents s) := by
  refine actsWf_ite actsWf_nil (actsWf_flatMap fun p => ?_)
  exact actsWf_append (actsWf_append (actsWf_ite (actsWf_one (execThermalTrip_nextWf h _)) actsWf_nil)
    (actsWf_ite (actsWf_one (execVoltageFault_nextWf h _)) actsWf_nil)) (actsWf_ite (actsWf_one (execThrottleStep_nextWf h _)) actsWf_nil)

theorem ownEvents_wf : actsWf s (ownEvents s) := actsWf_append (monitorEvents_wf h) (actsWf_ite (deviceEvents_wf h) actsWf_nil)

/-! ## Issues, the end of a cycle and the agenda -/

theorem fetchFault_nextWf (va : DWord) (c : CauseDetail) : nextWf (fetchFault s va c) := by
  unfold fetchFault
  split
  · exact nextWf_fault _
  · exact nextWf_next (finish_memoryWf h _ _ trivial)

theorem fetchAndIssue_nextWf (g : Group) (lanes : List Nat) : nextWf (fetchAndIssue s g lanes) := by
  unfold fetchAndIssue
  dsimp only
  split
  · exact fetchFault_nextWf h _ _
  · exact exec_nextWf _ h

theorem portTaken_memoryWf (g : Group) (ch : Choice) (lanes : List Nat) : (portTaken s g ch lanes).memoryWf = true := h

theorem issueOne_nextWf (g : Group) (rdy : List (List Nat)) : nextWf (issueOne s g rdy) := by
  unfold issueOne
  split
  · exact fetchAndIssue_nextWf (portTaken_memoryWf h _ _ _) _ _
  · exact nextWf_next h

theorem issueGroup_nextWf (uid : Nat) : nextWf (issueGroup s uid) := by
  unfold issueGroup
  dsimp only
  split
  · exact nextWf_ite (fun _ => issueOne_nextWf h _ _) fun _ => nextWf_next h
  · exact nextWf_next h

omit h in
theorem fillCore_memoryWf (core n : Nat) : ∀ {s : State}, s.memoryWf = true → (fillCore core n s).memoryWf = true := by
  induction n with
  | zero => exact fun h => h
  | succ n ih =>
    intro s h
    rw [fillCore]
    refine ite_memoryWf h ?_
    dsimp only
    split
    · exact h
    · exact ih (modifyGroup_wf h _ _)

theorem tick_memoryWf : (tick s).memoryWf = true := foldl_memoryWf (fun _ _ ht => fillCore_memoryWf _ _ ht) _ h

theorem applyInput_memoryWf (x : Input) : (applyInput s x).memoryWf = true := by
  cases x with
  | clock ticks => exact h
  | hostStore pa data => exact memoryWf_setHost h (Memory.write_wf (memoryWf_host h) _ _)
  | peerStore dev pa data => exact memoryWf_setPeer h (Memory.write_wf (memoryWf_peer h) _ _)
  | cmdArg val => exact ite_memoryWf h h
  | memberError fatal moves => exact memberError_memoryWf h _ _

theorem runItem_nextWf (x : Item) : nextWf (runItem s x) := by
  cases x with
  | event i => exact nextWf_ite (fun _ => exec_nextWf i h) fun _ => nextWf_next h
  | input x => exact nextWf_next (applyInput_memoryWf h x)
  | issue uid => exact issueGroup_nextWf h uid

theorem runDevice_nextWf : nextWf (runDevice s) := by
  unfold runDevice
  split
  · next t ht => exact nextWf_next (firstChange_optWf (ownEvents_wf h) t ht)
  · split
    · exact issueOne_nextWf h _ _
    · exact nextWf_next (tick_memoryWf h)

theorem step_nextWf : nextWf (step s) := by
  unfold step runStep
  split
  · next x r _ => exact runItem_nextWf (s := { s with agenda := r }) h x
  · exact runDevice_nextWf h

end

end Sys2Proof.Machine
open Sys2Proof Sys2Proof.Machine

/-- Settles O23. Each instruction, event and input is a composition of writes of the byte memories, each of which keeps
the canonical form, of copies of canonical memories and of changes that leave the memories as they are. -/
theorem memoryStaysCanonical : Obligations.MemoryStaysCanonical := by
  unfold Obligations.MemoryStaysCanonical
  exact fun _ t h => step_nextWf h t

end
